-- ==== Sys2Proof/Word.lean ====
section
/-!
DEFINITION. Word.lean: the machine's word types and the finite map that State is built from.
R2 (bit 0 is the least significant bit, little-endian storage), R27 (32-bit registers), R57.
-/
namespace Sys2Proof

/-- A 32-bit register value or instruction word. -/
abbrev Word := BitVec 32
/-- One byte of any memory. -/
abbrev Byte := BitVec 8
/-- A set of threads of one group: bit t is thread t (R138; the widest group has 128 threads, R19). -/
abbrev Mask := BitVec 128
/-- A 64-bit virtual address, pod pointer, or pair value (R7, R322). -/
abbrev Addr := BitVec 64

/-- A finite map with natural keys, as plain data: pairs in ascending key order, no key twice. -/
abbrev Map (α : Type) := List (Nat × α)

/-- The value under a key, or the given default where the map lists none. -/
def Map.look {α : Type} : Map α → Nat → α → α
  | [], _, d => d
  | (k', v) :: r, k, d => if k' = k then v else Map.look r k d

/-- The value under a key, where the map lists one. -/
def Map.find {α : Type} : Map α → Nat → Option α
  | [], _ => none
  | (k', v) :: r, k => if k' = k then some v else Map.find r k

/-- Sets the value under a key, keeping ascending key order. -/
def Map.put {α : Type} : Map α → Nat → α → Map α
  | [], k, v => [(k, v)]
  | (k', v') :: r, k, v =>
    if k < k' then (k, v) :: (k', v') :: r
    else if k = k' then (k, v) :: r
    else (k', v') :: Map.put r k v

/-- Drops a key. -/
def Map.del {α : Type} : Map α → Nat → Map α
  | [], _ => []
  | (k', v) :: r, k => if k' = k then r else (k', v) :: Map.del r k

/-- The keys of a map, ascending. -/
def Map.keysOf {α : Type} (m : Map α) : List Nat := m.map Prod.fst

/-- Replaces element i of a list; a list too short is left as it is. -/
def setAt {α : Type} : List α → Nat → α → List α
  | [], _, _ => []
  | _ :: r, 0, v => v :: r
  | x :: r, n + 1, v => x :: setAt r n v

/-- The ceiling of a quotient; 0 where the divisor is 0. -/
def ceilDiv (a b : Nat) : Nat := if b = 0 then 0 else (a + b - 1) / b

/-- The low and high 32-bit halves of a 64-bit value (R7). -/
def lowWord (x : BitVec 64) : Word := x.extractLsb' 0 32
def highWord (x : BitVec 64) : Word := x.extractLsb' 32 32
/-- cat(hi, lo) of R5 on two words. -/
def cat64 (hi lo : Word) : BitVec 64 := hi ++ lo

end Sys2Proof
end

