-- ==== Sys2Proof/Syntax.lean ====
section
/-!
DEFINITION. Syntax.lean: one constructor of Instr per row of spec/opcode_table.json, in the table's order:
the 199 instruction words of R33 and R34 (fields as the row's encoding lays them out, `st` the stall count of
R38), then the 98 events of the device, whose arguments name the object the event happens to and carry what
arrives from outside the package.
-/
namespace Sys2Proof

/-- One memory of the package, named by the block, group, or partition that holds it (R211, R267, R287, R10). -/
inductive MemName where
  | win (blk : Nat)      -- block window, bytes 0 to winbytes − 1
  | ring (blk : Nat)     -- ring area of a block, bytes from 0xFFFF_E000
  | spill (grp : Nat)    -- spill stacks of a group: thread t at 65,536 t
  | die (part : Nat)     -- die-scratch share of a partition 0–23; 24 + d: the service region of die d
  | dev                  -- device memory, by physical address
  | host                 -- host memory, by host address
  | slot (blk : Nat)     -- stationary slots of a block: slot n at 32,768 n
  | table (ctx : Nat)    -- the translation table of a context: the entry that maps a virtual address (R323)
  deriving DecidableEq, Repr

/-- A queue command by sequence number, or a graph node of a slot (R84, R89). -/
inductive CmdRef where
  | cmd (ctx q seq : Nat)
  | node (ctx slot idx : Nat)
  deriving DecidableEq, Repr

/-- A flit (R344): header fields, the trailer's link sequence numbers and CRC, and the payload bytes 8 to 119. -/
structure Flit where
  dst : Nat := 0
  src : Nat := 0
  world : Nat := 0
  ctx : Nat := 0
  tag : Nat := 0
  vc : Nat := 0
  kind : Nat := 0
  lseq : Nat := 0
  lack : Nat := 0
  crc : Word := 0
  pay : List Byte := []
  deriving DecidableEq, Repr

/-- How a bound logical device is reached: whether the route carries AtomicOps, the CXL port, the virtual functions (R354, R356). -/
structure BindRoute where
  atomics : Bool := false
  port : Nat := 0
  vfs : List Nat := []
  deriving DecidableEq, Repr

/-- A unit that enforces a budget of R79. -/
inductive BudgetUnit where
  | copy (part : Nat)
  | link (port : Nat)
  | service (die : Nat)
  | hold (part : Nat)
  | matrix (core : Nat)
  deriving DecidableEq, Repr

/-- An item of the active wing's state table (R377), and the pod configuration it holds (R73, R359); the binding of the windows and
the firmware memory of world 0, which the wing makes at its start (R76); and, as no item, the end of the active wing's work before
the takeover (R378). -/
inductive TableItem where
  | sliceLength (part len : Nat)
  | carve (die : Nat) (units : List Nat)
  | larder (part : Nat) (frames : List Nat)
  | route (member : Nat) (ports : List Nat)
  | weight (part w : Nat)
  | memberIndex (m : Nat)
  | configured (members : List Nat)
  | allot (ctx f : Nat)
  | budget (ctx kind count : Nat)
  | atsLimit (cycles : Nat)
  | fwClaim (ctx cls owner : Nat)
  | binding (member ctx parts world : Nat)
  | windows (ws : List Nat)
  | firmware (frames : List Nat)
  | wingStops
  deriving DecidableEq, Repr

/-- The instructions and events of the Turlyn. -/
inductive Instr where
  | nop (st : BitVec 2)
  | mov (st : BitVec 2) (d : BitVec 7) (b : BitVec 7) (c : BitVec 1)
  | limm (st : BitVec 2) (d : BitVec 7) (i : BitVec 15)
  | limmh (st : BitVec 2) (d : BitVec 7) (i : BitVec 15)
  | iadd (st : BitVec 2) (d : BitVec 7) (a : BitVec 7) (b : BitVec 7) (c : BitVec 1)
  | isub (st : BitVec 2) (d : BitVec 7) (a : BitVec 7) (b : BitVec 7) (c : BitVec 1)
  | iaddi (st : BitVec 2) (d : BitVec 7) (a : BitVec 7) (i : BitVec 8)
  | iadd64 (st : BitVec 2) (d : BitVec 7) (a : BitVec 7) (b : BitVec 7) (c : BitVec 1)
  | imul (st : BitVec 2) (d : BitVec 7) (a : BitVec 7) (b : BitVec 7) (c : BitVec 1)
  | imulhi (st : BitVec 2) (d : BitVec 7) (a : BitVec 7) (b : BitVec 7) (c : BitVec 1)
  | imulhu (st : BitVec 2) (d : BitVec 7) (a : BitVec 7) (b : BitVec 7) (c : BitVec 1)
  | imad (st : BitVec 2) (d : BitVec 7) (a : BitVec 7) (b : BitVec 7) (c : BitVec 1)
  | imin (st : BitVec 2) (d : BitVec 7) (a : BitVec 7) (b : BitVec 7) (c : BitVec 1)
  | imax (st : BitVec 2) (d : BitVec 7) (a : BitVec 7) (b : BitVec 7) (c : BitVec 1)
  | iminu (st : BitVec 2) (d : BitVec 7) (a : BitVec 7) (b : BitVec 7) (c : BitVec 1)
  | imaxu (st : BitVec 2) (d : BitVec 7) (a : BitVec 7) (b : BitVec 7) (c : BitVec 1)
  | iabs (st : BitVec 2) (d : BitVec 7) (a : BitVec 7)
  | ineg (st : BitVec 2) (d : BitVec 7) (a : BitVec 7)
  | and (st : BitVec 2) (d : BitVec 7) (a : BitVec 7) (b : BitVec 7) (c : BitVec 1)
  | or (st : BitVec 2) (d : BitVec 7) (a : BitVec 7) (b : BitVec 7) (c : BitVec 1)
  | xor (st : BitVec 2) (d : BitVec 7) (a : BitVec 7) (b : BitVec 7) (c : BitVec 1)
  | andn (st : BitVec 2) (d : BitVec 7) (a : BitVec 7) (b : BitVec 7) (c : BitVec 1)
  | not (st : BitVec 2) (d : BitVec 7) (a : BitVec 7)
  | shl (st : BitVec 2) (d : BitVec 7) (a : BitVec 7) (b : BitVec 7) (c : BitVec 1)
  | shr (st : BitVec 2) (d : BitVec 7) (a : BitVec 7) (b : BitVec 7) (c : BitVec 1)
  | sar (st : BitVec 2) (d : BitVec 7) (a : BitVec 7) (b : BitVec 7) (c : BitVec 1)
  | shli (st : BitVec 2) (d : BitVec 7) (a : BitVec 7) (i : BitVec 8)
  | shri (st : BitVec 2) (d : BitVec 7) (a : BitVec 7) (i : BitVec 8)
  | sari (st : BitVec 2) (d : BitVec 7) (a : BitVec 7) (i : BitVec 8)
  | popc (st : BitVec 2) (d : BitVec 7) (a : BitVec 7)
  | clz (st : BitVec 2) (d : BitVec 7) (a : BitVec 7)
  | brev (st : BitVec 2) (d : BitVec 7) (a : BitVec 7)
  | bfe (st : BitVec 2) (d : BitVec 7) (a : BitVec 7) (b : BitVec 7) (c : BitVec 1)
  | bfi (st : BitVec 2) (d : BitVec 7) (a : BitVec 7) (b : BitVec 7) (c : BitVec 1)
  | icmp (st : BitVec 2) (p : BitVec 3) (c : BitVec 4) (a : BitVec 7) (b : BitVec 7) (u : BitVec 1)
  | sel (st : BitVec 2) (d : BitVec 7) (a : BitVec 7) (n : BitVec 1) (p : BitVec 3)
  | plut (st : BitVec 2) (d : BitVec 3) (t : BitVec 4) (a : BitVec 3) (b : BitVec 3)
  | fadd (st : BitVec 2) (d : BitVec 7) (a : BitVec 7) (b : BitVec 7) (c : BitVec 1)
  | fsub (st : BitVec 2) (d : BitVec 7) (a : BitVec 7) (b : BitVec 7) (c : BitVec 1)
  | fmul (st : BitVec 2) (d : BitVec 7) (a : BitVec 7) (b : BitVec 7) (c : BitVec 1)
  | ffma (st : BitVec 2) (d : BitVec 7) (a : BitVec 7) (b : BitVec 7) (c : BitVec 1)
  | fmin (st : BitVec 2) (d : BitVec 7) (a : BitVec 7) (b : BitVec 7) (c : BitVec 1)
  | fmax (st : BitVec 2) (d : BitVec 7) (a : BitVec 7) (b : BitVec 7) (c : BitVec 1)
  | fabs (st : BitVec 2) (d : BitVec 7) (a : BitVec 7)
  | fneg (st : BitVec 2) (d : BitVec 7) (a : BitVec 7)
  | fcmp (st : BitVec 2) (p : BitVec 3) (c : BitVec 4) (a : BitVec 7) (b : BitVec 7) (u : BitVec 1)
  | frcp (st : BitVec 2) (d : BitVec 7) (a : BitVec 7)
  | frsq (st : BitVec 2) (d : BitVec 7) (a : BitVec 7)
  | fsqrt (st : BitVec 2) (d : BitVec 7) (a : BitVec 7)
  | fexp2 (st : BitVec 2) (d : BitVec 7) (a : BitVec 7)
  | flog2 (st : BitVec 2) (d : BitVec 7) (a : BitVec 7)
  | fsint (st : BitVec 2) (d : BitVec 7) (a : BitVec 7)
  | fcost (st : BitVec 2) (d : BitVec 7) (a : BitVec 7)
  | frnd (st : BitVec 2) (d : BitVec 7) (a : BitVec 7) (m : BitVec 2)
  | fclass (st : BitVec 2) (d : BitVec 7) (a : BitVec 7)
  | pbadd (st : BitVec 2) (d : BitVec 7) (a : BitVec 7) (b : BitVec 7) (c : BitVec 1)
  | pbmul (st : BitVec 2) (d : BitVec 7) (a : BitVec 7) (b : BitVec 7) (c : BitVec 1)
  | pbfma (st : BitVec 2) (d : BitVec 7) (a : BitVec 7) (b : BitVec 7) (c : BitVec 1)
  | phadd (st : BitVec 2) (d : BitVec 7) (a : BitVec 7) (b : BitVec 7) (c : BitVec 1)
  | phmul (st : BitVec 2) (d : BitVec 7) (a : BitVec 7) (b : BitVec 7) (c : BitVec 1)
  | phfma (st : BitVec 2) (d : BitVec 7) (a : BitVec 7) (b : BitVec 7) (c : BitVec 1)
  | cvt (st : BitVec 2) (d : BitVec 7) (a : BitVec 7) (m : BitVec 2) (t : BitVec 3) (u : BitVec 3)
  | bsplit (st : BitVec 2) (d : BitVec 7) (a : BitVec 7)
  | pack2 (st : BitVec 2) (d : BitVec 7) (a : BitVec 7) (b : BitVec 7) (c : BitVec 1)
  | unpk2 (st : BitVec 2) (d : BitVec 7) (a : BitVec 7) (q : BitVec 2) (h : BitVec 1)
  | qnt (st : BitVec 2) (d : BitVec 7) (a : BitVec 7) (p : BitVec 3) (k : BitVec 3)
  | dqnt (st : BitVec 2) (d : BitVec 7) (a : BitVec 7) (f : BitVec 2) (m : BitVec 3) (k : BitVec 3)
  | niget (st : BitVec 2) (d : BitVec 7) (a : BitVec 7) (m : BitVec 3)
  | niput (st : BitVec 2) (d : BitVec 7) (a : BitVec 7) (k : BitVec 3)
  | sacc (st : BitVec 2) (d : BitVec 7) (a : BitVec 7) (b : BitVec 7) (c : BitVec 1)
  | lds (st : BitVec 2) (d : BitVec 7) (a : BitVec 7) (o : BitVec 8)
  | sts (st : BitVec 2) (d : BitVec 7) (a : BitVec 7) (o : BitVec 8)
  | lds64 (st : BitVec 2) (d : BitVec 7) (a : BitVec 7) (o : BitVec 8)
  | sts64 (st : BitVec 2) (d : BitVec 7) (a : BitVec 7) (o : BitVec 8)
  | ldw (st : BitVec 2) (d : BitVec 7) (a : BitVec 7) (o : BitVec 8)
  | stw (st : BitVec 2) (d : BitVec 7) (a : BitVec 7) (o : BitVec 8)
  | ldsp (st : BitVec 2) (d : BitVec 7) (a : BitVec 7) (o : BitVec 8)
  | stsp (st : BitVec 2) (d : BitVec 7) (a : BitVec 7) (o : BitVec 8)
  | ldd (st : BitVec 2) (d : BitVec 7) (a : BitVec 7) (o : BitVec 8)
  | std (st : BitVec 2) (d : BitVec 7) (a : BitVec 7) (o : BitVec 8)
  | ldc (st : BitVec 2) (d : BitVec 7) (a : BitVec 7) (o : BitVec 8)
  | atom (st : BitVec 2) (d : BitVec 7) (a : BitVec 7) (f : BitVec 4) (p : BitVec 2)
  | cas (st : BitVec 2) (d : BitVec 7) (a : BitVec 7) (p : BitVec 2)
  | shfli (st : BitVec 2) (d : BitVec 7) (a : BitVec 7) (m : BitVec 2) (c : BitVec 6)
  | shfl (st : BitVec 2) (d : BitVec 7) (a : BitVec 7) (b : BitVec 7) (c : BitVec 1)
  | vote (st : BitVec 2) (p : BitVec 3) (o : BitVec 2) (n : BitVec 1) (q : BitVec 3)
  | ballot (st : BitVec 2) (d : BitVec 7) (h : BitVec 2) (n : BitVec 1) (p : BitVec 3)
  | rdlane (st : BitVec 2) (d : BitVec 7) (a : BitVec 7) (i : BitVec 7)
  | wrlane (st : BitVec 2) (d : BitVec 7) (a : BitVec 7) (i : BitVec 7)
  | matchKeys (st : BitVec 2) (d : BitVec 7) (a : BitVec 7) (b : BitVec 7) (c : BitVec 1)
  | gen (st : BitVec 2) (d : BitVec 7) (a : BitVec 7) (g : BitVec 3)
  | gent (st : BitVec 2) (d : BitVec 7) (a : BitVec 7) (g : BitVec 3)
  | svc (st : BitVec 2) (d : BitVec 5) (n : BitVec 15)
  | laneid (st : BitVec 2) (d : BitVec 7)
  | brk (st : BitVec 2) (n : BitVec 15)
  | snop (st : BitVec 2)
  | smov (st : BitVec 2) (d : BitVec 7) (b : BitVec 7)
  | slimm (st : BitVec 2) (d : BitVec 7) (i : BitVec 15)
  | slimmh (st : BitVec 2) (d : BitVec 7) (i : BitVec 15)
  | sadd (st : BitVec 2) (d : BitVec 7) (a : BitVec 7) (b : BitVec 7)
  | ssub (st : BitVec 2) (d : BitVec 7) (a : BitVec 7) (b : BitVec 7)
  | saddi (st : BitVec 2) (d : BitVec 7) (a : BitVec 7) (i : BitVec 8)
  | sadd64 (st : BitVec 2) (d : BitVec 7) (a : BitVec 7) (b : BitVec 7)
  | smul (st : BitVec 2) (d : BitVec 7) (a : BitVec 7) (b : BitVec 7)
  | smulhi (st : BitVec 2) (d : BitVec 7) (a : BitVec 7) (b : BitVec 7) (u : BitVec 1)
  | sand (st : BitVec 2) (d : BitVec 7) (a : BitVec 7) (b : BitVec 7)
  | sor (st : BitVec 2) (d : BitVec 7) (a : BitVec 7) (b : BitVec 7)
  | sxor (st : BitVec 2) (d : BitVec 7) (a : BitVec 7) (b : BitVec 7)
  | sshl (st : BitVec 2) (d : BitVec 7) (a : BitVec 7) (b : BitVec 7)
  | sshr (st : BitVec 2) (d : BitVec 7) (a : BitVec 7) (b : BitVec 7)
  | ssar (st : BitVec 2) (d : BitVec 7) (a : BitVec 7) (b : BitVec 7)
  | sshli (st : BitVec 2) (d : BitVec 7) (a : BitVec 7) (i : BitVec 8)
  | sshri (st : BitVec 2) (d : BitVec 7) (a : BitVec 7) (i : BitVec 8)
  | smin (st : BitVec 2) (d : BitVec 7) (a : BitVec 7) (b : BitVec 7) (u : BitVec 1)
  | smax (st : BitVec 2) (d : BitVec 7) (a : BitVec 7) (b : BitVec 7) (u : BitVec 1)
  | spopc (st : BitVec 2) (d : BitVec 7) (a : BitVec 7)
  | sclz (st : BitVec 2) (d : BitVec 7) (a : BitVec 7)
  | scmp (st : BitVec 2) (p : BitVec 3) (c : BitVec 4) (a : BitVec 7) (b : BitVec 7)
  | ssel (st : BitVec 2) (d : BitVec 7) (a : BitVec 7) (p : BitVec 3) (n : BitVec 1)
  | sfadd (st : BitVec 2) (d : BitVec 7) (a : BitVec 7) (b : BitVec 7)
  | sfmul (st : BitVec 2) (d : BitVec 7) (a : BitVec 7) (b : BitVec 7)
  | sffma (st : BitVec 2) (d : BitVec 7) (a : BitVec 7) (b : BitVec 7)
  | sldc (st : BitVec 2) (d : BitVec 7) (a : BitVec 7) (i : BitVec 8)
  | slds (st : BitVec 2) (d : BitVec 7) (a : BitVec 7) (i : BitVec 8)
  | ssts (st : BitVec 2) (d : BitVec 7) (a : BitVec 7) (i : BitVec 8)
  | srd (st : BitVec 2) (d : BitVec 7) (c : BitVec 7) (l : BitVec 1)
  | swr (st : BitVec 2) (a : BitVec 7) (c : BitVec 7)
  | bra (st : BitVec 2) (p : BitVec 3) (n : BitVec 1) (o : BitVec 18)
  | br (st : BitVec 2) (p : BitVec 3) (n : BitVec 1) (o : BitVec 18)
  | join (st : BitVec 2)
  | jmp (st : BitVec 2) (o : BitVec 18)
  | call (st : BitVec 2) (o : BitVec 18)
  | ret (st : BitVec 2)
  | brx (st : BitVec 2) (a : BitVec 7)
  | lhead (st : BitVec 2) (p : BitVec 3) (n : BitVec 1)
  | exit (st : BitVec 2)
  | sleep (st : BitVec 2) (i : BitVec 15)
  | emrd (st : BitVec 2) (d : BitVec 5)
  | emwr (st : BitVec 2) (a : BitVec 5)
  | emandReg (st : BitVec 2) (a : BitVec 5)
  | emandPred (st : BitVec 2) (p : BitVec 3) (n : BitVec 1)
  | xlate (st : BitVec 2) (a : BitVec 6) (m : BitVec 1) (w : BitVec 1) (r : BitVec 1) (x : BitVec 3)
  | xrd (st : BitVec 2) (d : BitVec 5) (n : BitVec 3)
  | xinv (st : BitVec 2) (m : BitVec 8)
  | fence (st : BitVec 2) (c : BitVec 3) (k : BitVec 2)
  | ackrd (st : BitVec 2) (d : BitVec 7)
  | icinv (st : BitVec 2) (c : BitVec 3) (l : BitVec 1)
  | region (st : BitVec 2) (i : BitVec 8)
  | regend (st : BitVec 2)
  | cpy (st : BitVec 2) (d : BitVec 7) (a : BitVec 4) (k : BitVec 4) (f : BitVec 4)
  | cpyg (st : BitVec 2) (d : BitVec 7) (a : BitVec 4) (k : BitVec 4) (f : BitVec 4)
  | cpyr (st : BitVec 2) (d : BitVec 7) (a : BitVec 4) (k : BitVec 4) (f : BitVec 4)
  | cpya (st : BitVec 2) (d : BitVec 7) (a : BitVec 4) (k : BitVec 4) (f : BitVec 4)
  | cbatch (st : BitVec 2) (d : BitVec 7)
  | waitb (st : BitVec 2) (a : BitVec 7)
  | testc (st : BitVec 2) (d : BitVec 7) (a : BitVec 7) (b : BitVec 7)
  | waitc (st : BitVec 2) (a : BitVec 7) (b : BitVec 7)
  | mma (st : BitVec 2) (d : BitVec 7) (a : BitVec 4) (k : BitVec 4) (f : BitVec 4)
  | mmai (st : BitVec 2) (d : BitVec 7) (a : BitVec 4) (k : BitVec 4) (f : BitVec 4)
  | ldst (st : BitVec 2) (d : BitVec 7) (a : BitVec 4) (k : BitVec 4) (f : BitVec 4)
  | accz (st : BitVec 2) (d : BitVec 7) (a : BitVec 4) (k : BitVec 4) (f : BitVec 4)
  | accrd (st : BitVec 2) (d : BitVec 7) (a : BitVec 4) (k : BitVec 4) (f : BitVec 4)
  | accwr (st : BitVec 2) (d : BitVec 7) (a : BitVec 4) (k : BitVec 4) (f : BitVec 4)
  | sacct (st : BitVec 2) (d : BitVec 7) (a : BitVec 4) (k : BitVec 4) (f : BitVec 4)
  | opfence (st : BitVec 2)
  | waitm (st : BitVec 2) (a : BitVec 7)
  | mseq (st : BitVec 2) (d : BitVec 7) (a : BitVec 7)
  | tailp (st : BitVec 2) (a : BitVec 7) (r : BitVec 1)
  | gset (st : BitVec 2) (a : BitVec 5) (g : BitVec 3)
  | grd (st : BitVec 2) (d : BitVec 5) (g : BitVec 3)
  | gstep (st : BitVec 2)
  | kset (st : BitVec 2) (a : BitVec 7) (k : BitVec 4) (m : BitVec 2)
  | krd (st : BitVec 2) (d : BitVec 7)
  | kclr (st : BitVec 2) (k : BitVec 4)
  | bar (st : BitVec 2) (i : BitVec 3)
  | barc (st : BitVec 2)
  | barm (st : BitVec 2) (a : BitVec 5) (i : BitVec 3)
  | arrive (st : BitVec 2) (i : BitVec 3)
  | await (st : BitVec 2) (i : BitVec 3)
  | barg (st : BitVec 2)
  | barinit (st : BitVec 2) (a : BitVec 5) (i : BitVec 3)
  | barrd (st : BitVec 2) (d : BitVec 7) (k : BitVec 2) (i : BitVec 3)
  | qpush (st : BitVec 2) (a : BitVec 3) (q : BitVec 4)
  | launch (st : BitVec 2) (a : BitVec 3)
  | shape (st : BitVec 2) (a : BitVec 5)
  | arm (st : BitVec 2) (o : BitVec 2) (a : BitVec 7) (t : BitVec 4) (c : BitVec 3)
  | hring (st : BitVec 2) (a : BitVec 5) (j : BitVec 4) (f : BitVec 1) (n : BitVec 1)
  | hpost (st : BitVec 2) (a : BitVec 3)
  | mapft (st : BitVec 2) (o : BitVec 2) (a : BitVec 5)
  | fqpost (st : BitVec 2) (a : BitVec 5)
  | tlbinv (st : BitVec 2) (a : BitVec 5)
  | trap (st : BitVec 2) (n : BitVec 16)
  | rft (st : BitVec 2) (r : BitVec 1)
  | srdp (st : BitVec 2) (d : BitVec 7) (c : BitVec 7)
  | swrp (st : BitVec 2) (a : BitVec 7) (c : BitVec 7)
  | sleepw (st : BitVec 2) (c : BitVec 2) (a : BitVec 7) (b : BitVec 7)
  | fqtake (st : BitVec 2) (d : BitVec 4) (w : BitVec 1)
  | svctake (st : BitVec 2) (d : BitVec 4) (w : BitVec 1)
  | svcdone (st : BitVec 2) (a : BitVec 7) (b : BitVec 7)
  | groupWaitEnds (g : Nat)
  | storePerformed (g : Nat) (i : Nat)
  | notify (f : Nat) (slot : Nat) (val : Word)
  | launchCmd (c : CmdRef)
  | copy (c : CmdRef)
  | wait (c : CmdRef)
  | waitReevaluate (c : CmdRef)
  | signal (c : CmdRef)
  | graph (c : CmdRef)
  | graphRunStart (ctx : Nat) (slot : Nat)
  | cond (c : CmdRef)
  | commandComplete (c : CmdRef)
  | queueOff (ctx : Nat) (q : Nat)
  | completionRecord (ctx : Nat) (i : Nat)
  | serviceSliceBoundary (die : Nat)
  | create (f : Nat) (a0 : Addr) (a1 : Addr) (a2 : Addr) (a3 : Addr)
  | setattr (f : Nat) (a0 : Addr) (a1 : Addr) (a2 : Addr) (a3 : Addr)
  | map (f : Nat) (a0 : Addr) (a1 : Addr) (a2 : Addr) (a3 : Addr)
  | unmap (f : Nat) (a0 : Addr) (a1 : Addr) (a2 : Addr) (a3 : Addr)
  | sealCtx (f : Nat) (a0 : Addr) (a1 : Addr) (a2 : Addr) (a3 : Addr)
  | suspend (f : Nat) (a0 : Addr) (a1 : Addr) (a2 : Addr) (a3 : Addr)
  | resume (f : Nat) (a0 : Addr) (a1 : Addr) (a2 : Addr) (a3 : Addr)
  | ckpt (f : Nat) (a0 : Addr) (a1 : Addr) (a2 : Addr) (a3 : Addr)
  | restore (f : Nat) (a0 : Addr) (a1 : Addr) (a2 : Addr) (a3 : Addr)
  | destroy (f : Nat) (a0 : Addr) (a1 : Addr) (a2 : Addr) (a3 : Addr)
  | wipeComplete (ctx : Nat)
  | claim (f : Nat) (a0 : Addr) (a1 : Addr) (a2 : Addr) (a3 : Addr)
  | unclaim (f : Nat) (a0 : Addr) (a1 : Addr) (a2 : Addr) (a3 : Addr)
  | update (f : Nat) (a0 : Addr) (a1 : Addr) (a2 : Addr) (a3 : Addr)
  | updateQuiesceTimeout
  | flip (f : Nat) (val : Addr)
  | biasFlipComplete (frame : Nat)
  | errconsWrite (f : Nat) (val : Word)
  | registerWrite (f : Nat) (off : Nat) (val : Addr)
  | attestationRequest (f : Nat) (nonce : List Byte) (ctx : Option Nat)
  | hostWrite (dev : Bool) (addr : Nat) (bytes : List Byte)
  | hostRead (addr : Nat) (n : Nat)
  | atsInvalidation (ld : Nat) (addr : Nat) (n : Nat)
  | atsInvalidationTimeout (i : Nat)
  | gangPlace (kern : Nat) (rank : Nat)
  | gangRelease (gang : Nat)
  | blockRetire (blk : Nat)
  | preempt (blocks : List Nat) (bound : Nat)
  | gangResume (gang : Nat)
  | holdDrain (blk : Nat)
  | copyCommandStart (blk : Nat)
  | copyChunkDone (blk : Nat) (seq : Nat) (chunk : Nat)
  | copyCommandComplete (blk : Nat) (seq : Nat)
  | orderedReductionApply (i : Nat)
  | matrixCommandStart (blk : Nat)
  | matrixCommandComplete (blk : Nat) (seq : Nat)
  | softError (mem : MemName) (addr : Nat) (unc : Bool)
  | correctedErrorThreshold (ctx : Nat)
  | portEnable (p : Nat)
  | trainingComplete (p : Nat) (lanes : Nat) (agree : Bool) (far : Nat)
  | trainingTimeout (p : Nat)
  | retrainTimer (p : Nat)
  | laneFailure (p : Nat)
  | lossOfLock (p : Nat)
  | portRetire (p : Nat)
  | idle (p : Nat) (fl : Flit)
  | pause (p : Nat) (fl : Flit)
  | retry (p : Nat) (fl : Flit)
  | snap (p : Nat) (fl : Flit)
  | barr (p : Nat) (fl : Flit)
  | whead (p : Nat) (fl : Flit)
  | wacc (p : Nat) (fl : Flit)
  | data (p : Nat) (fl : Flit)
  | rreq (p : Nat) (fl : Flit)
  | rhead (p : Nat) (fl : Flit)
  | atomFlit (p : Nat) (fl : Flit)
  | atomr (p : Nat) (fl : Flit)
  | ack (p : Nat) (fl : Flit)
  | radd (p : Nat) (fl : Flit)
  | operationTimeout (dst : Nat) (tag : Nat)
  | hallEvent (p : Nat) (fl : Flit)
  | hallAck (p : Nat) (fl : Flit)
  | token (p : Nat) (fl : Flit)
  | stable (p : Nat) (fl : Flit)
  | recover (p : Nat) (fl : Flit)
  | reply (p : Nat) (fl : Flit)
  | ackWaitTimeout
  | tokenTimeout
  | recoveryCollect
  | suspect (m : Nat)
  | wingFailover
  | firstHeartbeat (kind : Nat)
  | provisioningToken (tok : List Byte)
  | deploymentToken (tok : List Byte)
  | rmaToken (tok : List Byte)
  | repairToken (tok : List Byte)
  | decommissionToken (tok : List Byte)
  | packageReset
  | budgetPeriod (unit : BudgetUnit)
  | stateTableChange (item : TableItem)
  | flitFailsCrc (p : Nat)
  | logicalDeviceBind (ld : Nat) (bound : Bool) (windows : List (Nat × Nat)) (route : BindRoute)
  | powerLoss
  deriving DecidableEq, Repr

end Sys2Proof
end

