-- ==== Sys2Proof/WellFormed.lean ====
section
/-!
DEFINITION. WellFormed.lean: the field values an entry defines (R30, R7, R31 step 2) for instruction words, and the
ranges of an event's arguments. A word that is not well formed raises ILLOP; an event that is not does not arise.
-/
namespace Sys2Proof

/-- An even register number, as a pair needs (R7). -/
def evenReg (d : BitVec 7) : Bool := d.toNat % 2 == 0

/-- The (destination, source) format codes that CVT defines (R199). -/
def cvtPair (dst src : Nat) : Bool :=
  (dst != src && decide (dst ≤ 4) && decide (src ≤ 4)) || (dst == 5 && src == 0) || (dst == 0 && src == 5)

/-- The codes SRD defines; a per-thread name needs a lane destination (R160). -/
def srdCode (c : Nat) (lane : Bool) : Bool :=
  decide (c ≤ 26) && (lane || (c != 0 && c != 23))

/-- A flit's fields lie in the widths of R344, its payload is 112 bytes, and its kind has a meaning. -/
def flitOk (f : Flit) : Bool :=
  decide (f.dst < 256) && decide (f.src < 256) && decide (f.world < 64) && decide (f.ctx < 1024)
    && decide (f.tag < 16777216) && decide (f.lseq < 65536) && decide (f.lack < 65536) && f.pay.length == 112

/-- Well-formedness of an instruction. -/
def wellFormed : Instr → Bool
  | .nop _ => true
  | .mov _ _ _ _ => true
  | .limm _ _ _ => true
  | .limmh _ _ _ => true
  | .iadd _ _ _ _ _ => true
  | .isub _ _ _ _ _ => true
  | .iaddi _ _ _ _ => true
  | .iadd64 _ d a b _ => evenReg d && evenReg a && evenReg b
  | .imul _ _ _ _ _ => true
  | .imulhi _ _ _ _ _ => true
  | .imulhu _ _ _ _ _ => true
  | .imad _ _ _ _ _ => true
  | .imin _ _ _ _ _ => true
  | .imax _ _ _ _ _ => true
  | .iminu _ _ _ _ _ => true
  | .imaxu _ _ _ _ _ => true
  | .iabs _ _ _ => true
  | .ineg _ _ _ => true
  | .and _ _ _ _ _ => true
  | .or _ _ _ _ _ => true
  | .xor _ _ _ _ _ => true
  | .andn _ _ _ _ _ => true
  | .not _ _ _ => true
  | .shl _ _ _ _ _ => true
  | .shr _ _ _ _ _ => true
  | .sar _ _ _ _ _ => true
  | .shli _ _ _ _ => true
  | .shri _ _ _ _ => true
  | .sari _ _ _ _ => true
  | .popc _ _ _ => true
  | .clz _ _ _ => true
  | .brev _ _ _ => true
  | .bfe _ _ _ _ _ => true
  | .bfi _ _ _ _ _ => true
  | .icmp _ _ c _ _ _ => decide (c.toNat < 12)
  | .sel _ _ _ _ _ => true
  | .plut _ _ _ _ _ => true
  | .fadd _ _ _ _ _ => true
  | .fsub _ _ _ _ _ => true
  | .fmul _ _ _ _ _ => true
  | .ffma _ _ _ _ _ => true
  | .fmin _ _ _ _ _ => true
  | .fmax _ _ _ _ _ => true
  | .fabs _ _ _ => true
  | .fneg _ _ _ => true
  | .fcmp _ _ c _ _ _ => decide (c.toNat < 14)
  | .frcp _ _ _ => true
  | .frsq _ _ _ => true
  | .fsqrt _ _ _ => true
  | .fexp2 _ _ _ => true
  | .flog2 _ _ _ => true
  | .fsint _ _ _ => true
  | .fcost _ _ _ => true
  | .frnd _ _ _ _ => true
  | .fclass _ _ _ => true
  | .pbadd _ _ _ _ _ => true
  | .pbmul _ _ _ _ _ => true
  | .pbfma _ _ _ _ _ => true
  | .phadd _ _ _ _ _ => true
  | .phmul _ _ _ _ _ => true
  | .phfma _ _ _ _ _ => true
  | .cvt _ _ _ _ t u => cvtPair t.toNat u.toNat
  | .bsplit _ d _ => evenReg d
  | .pack2 _ _ _ _ _ => true
  | .unpk2 _ _ _ _ _ => true
  | .qnt _ _ _ _ k => k != 7
  | .dqnt _ _ _ f m k => f != 3 && k != 7 && decide (m.toNat ≤ k.toNat + 1)
  | .niget _ _ _ _ => true
  | .niput _ _ _ k => k != 7
  | .sacc _ _ _ _ _ => true
  | .lds _ _ _ _ => true
  | .sts _ _ _ _ => true
  | .lds64 _ d _ _ => evenReg d
  | .sts64 _ d _ _ => evenReg d
  | .ldw _ _ _ _ => true
  | .stw _ _ _ _ => true
  | .ldsp _ _ _ _ => true
  | .stsp _ _ _ _ => true
  | .ldd _ _ _ _ => true
  | .std _ _ _ _ => true
  | .ldc _ _ _ _ => true
  | .atom _ _ _ f p => f != 15 && p != 3
  | .cas _ d _ p => evenReg d && p != 3
  | .shfli _ _ _ _ _ => true
  | .shfl _ _ _ _ _ => true
  | .vote _ _ _ _ _ => true
  | .ballot _ _ _ _ _ => true
  | .rdlane _ _ _ _ => true
  | .wrlane _ _ _ _ => true
  | .matchKeys _ _ _ _ _ => true
  | .gen _ _ _ _ => true
  | .gent _ _ _ _ => true
  | .svc _ _ _ => true
  | .laneid _ _ => true
  | .brk _ _ => true
  | .snop _ => true
  | .smov _ _ _ => true
  | .slimm _ _ _ => true
  | .slimmh _ _ _ => true
  | .sadd _ _ _ _ => true
  | .ssub _ _ _ _ => true
  | .saddi _ _ _ _ => true
  | .sadd64 _ d a b => evenReg d && evenReg a && evenReg b
  | .smul _ _ _ _ => true
  | .smulhi _ _ _ _ _ => true
  | .sand _ _ _ _ => true
  | .sor _ _ _ _ => true
  | .sxor _ _ _ _ => true
  | .sshl _ _ _ _ => true
  | .sshr _ _ _ _ => true
  | .ssar _ _ _ _ => true
  | .sshli _ _ _ _ => true
  | .sshri _ _ _ _ => true
  | .smin _ _ _ _ _ => true
  | .smax _ _ _ _ _ => true
  | .spopc _ _ _ => true
  | .sclz _ _ _ => true
  | .scmp _ _ c _ _ => decide (c.toNat < 12)
  | .ssel _ _ _ _ _ => true
  | .sfadd _ _ _ _ => true
  | .sfmul _ _ _ _ => true
  | .sffma _ _ _ _ => true
  | .sldc _ _ _ _ => true
  | .slds _ _ _ _ => true
  | .ssts _ _ _ _ => true
  | .srd _ _ c l => srdCode c.toNat (l == 1)
  | .swr _ _ c => decide (24 ≤ c.toNat) && decide (c.toNat ≤ 26)
  | .bra _ _ _ _ => true
  | .br _ _ _ _ => true
  | .join _ => true
  | .jmp _ _ => true
  | .call _ _ => true
  | .ret _ => true
  | .brx _ _ => true
  | .lhead _ _ _ => true
  | .exit _ => true
  | .sleep _ _ => true
  | .emrd _ _ => true
  | .emwr _ _ => true
  | .emandReg _ _ => true
  | .emandPred _ _ _ => true
  | .xlate _ _ m w r _ => m == 0 || (w == 0 && r == 0)
  | .xrd _ _ _ => true
  | .xinv _ _ => true
  | .fence _ c k => decide (c.toNat ≤ 5) && k != 3
  | .ackrd _ _ => true
  | .icinv _ c _ => decide (c.toNat ≤ 4)
  | .region _ _ => true
  | .regend _ => true
  | .cpy _ _ _ _ f => decide (f.toNat ≤ 1)
  | .cpyg _ _ _ _ f => f == 0
  | .cpyr _ _ _ _ f => decide (f.toNat ≤ 2)
  | .cpya _ _ _ _ f => decide (f.toNat ≤ 8)
  | .cbatch _ _ => true
  | .waitb _ _ => true
  | .testc _ _ _ _ => true
  | .waitc _ _ _ => true
  | .mma _ _ _ _ f => decide (f.toNat ≤ 1)
  | .mmai _ _ _ _ f => f == 0
  | .ldst _ _ _ _ f => f == 0
  | .accz _ _ _ _ f => f == 0
  | .accrd _ _ _ _ f => decide (f.toNat ≤ 2)
  | .accwr _ _ _ _ f => decide (f.toNat ≤ 2)
  | .sacct _ _ _ _ f => f == 0
  | .opfence _ => true
  | .waitm _ _ => true
  | .mseq _ _ _ => true
  | .tailp _ _ _ => true
  | .gset _ _ _ => true
  | .grd _ _ _ => true
  | .gstep _ => true
  | .kset _ a k m => k != 0 && m != 3 && (m == 2 || a == 0)
  | .krd _ _ => true
  | .kclr _ k => k != 0
  | .bar _ _ => true
  | .barc _ => true
  | .barm _ _ _ => true
  | .arrive _ _ => true
  | .await _ _ => true
  | .barg _ => true
  | .barinit _ _ _ => true
  | .barrd _ _ k i => k != 3 && (k == 0 || i == 0)
  | .qpush _ _ _ => true
  | .launch _ _ => true
  | .shape _ _ => true
  | .arm _ _ _ _ _ => true
  | .hring _ a _ f n => n == 0 || (f == 1 && a == 0)
  | .hpost _ _ => true
  | .mapft _ o _ => o != 3
  | .fqpost _ _ => true
  | .tlbinv _ _ => true
  | .trap _ _ => true
  | .rft _ _ => true
  | .srdp _ _ c => decide (c.toNat ≤ 9)
  | .swrp _ _ c => c == 1 || (decide (4 ≤ c.toNat) && decide (c.toNat ≤ 7))
  | .sleepw _ _ _ _ => true
  | .fqtake _ _ _ => true
  | .svctake _ _ _ => true
  | .svcdone _ _ _ => true
  | .groupWaitEnds _ => true
  | .storePerformed _ _ => true
  | .notify _ slot _ => decide (slot < 64)
  | .launchCmd _ => true
  | .copy _ => true
  | .wait _ => true
  | .waitReevaluate _ => true
  | .signal _ => true
  | .graph _ => true
  | .graphRunStart _ _ => true
  | .cond _ => true
  | .commandComplete _ => true
  | .queueOff _ _ => true
  | .completionRecord _ _ => true
  | .serviceSliceBoundary die => decide (die < 4)
  | .create _ _ _ _ _ => true
  | .setattr _ _ _ _ _ => true
  | .map _ _ _ _ _ => true
  | .unmap _ _ _ _ _ => true
  | .sealCtx _ _ _ _ _ => true
  | .suspend _ _ _ _ _ => true
  | .resume _ _ _ _ _ => true
  | .ckpt _ _ _ _ _ => true
  | .restore _ _ _ _ _ => true
  | .destroy _ _ _ _ _ => true
  | .wipeComplete _ => true
  | .claim _ _ _ _ _ => true
  | .unclaim _ _ _ _ _ => true
  | .update _ _ _ _ _ => true
  | .updateQuiesceTimeout => true
  | .flip _ _ => true
  | .biasFlipComplete _ => true
  | .errconsWrite _ _ => true
  | .registerWrite _ _ _ => true
  | .attestationRequest _ nonce _ => nonce.length == 32
  | .hostWrite _ _ _ => true
  | .hostRead _ _ => true
  | .atsInvalidation _ _ _ => true
  | .atsInvalidationTimeout _ => true
  | .gangPlace _ _ => true
  | .gangRelease _ => true
  | .blockRetire _ => true
  | .preempt _ _ => true
  | .gangResume _ => true
  | .holdDrain _ => true
  | .copyCommandStart _ => true
  | .copyChunkDone _ _ _ => true
  | .copyCommandComplete _ _ => true
  | .orderedReductionApply _ => true
  | .matrixCommandStart _ => true
  | .matrixCommandComplete _ _ => true
  | .softError _ _ _ => true
  | .correctedErrorThreshold _ => true
  | .portEnable p => decide (p < 24)
  | .trainingComplete p lanes _ far => decide (p < 24) && decide (lanes ≤ 8) && decide (far < 256)
  | .trainingTimeout p => decide (p < 24)
  | .retrainTimer p => decide (p < 24)
  | .laneFailure p => decide (p < 24)
  | .lossOfLock p => decide (p < 24)
  | .portRetire p => decide (p < 24)
  | .idle p fl => decide (p < 24) && flitOk fl
  | .pause p fl => decide (p < 24) && flitOk fl
  | .retry p fl => decide (p < 24) && flitOk fl
  | .snap p fl => decide (p < 24) && flitOk fl
  | .barr p fl => decide (p < 24) && flitOk fl
  | .whead p fl => decide (p < 24) && flitOk fl
  | .wacc p fl => decide (p < 24) && flitOk fl
  | .data p fl => decide (p < 24) && flitOk fl
  | .rreq p fl => decide (p < 24) && flitOk fl
  | .rhead p fl => decide (p < 24) && flitOk fl
  | .atomFlit p fl => decide (p < 24) && flitOk fl
  | .atomr p fl => decide (p < 24) && flitOk fl
  | .ack p fl => decide (p < 24) && flitOk fl
  | .radd p fl => decide (p < 24) && flitOk fl
  | .operationTimeout _ _ => true
  | .hallEvent p fl => decide (p < 24) && flitOk fl
  | .hallAck p fl => decide (p < 24) && flitOk fl
  | .token p fl => decide (p < 24) && flitOk fl
  | .stable p fl => decide (p < 24) && flitOk fl
  | .recover p fl => decide (p < 24) && flitOk fl
  | .reply p fl => decide (p < 24) && flitOk fl
  | .ackWaitTimeout => true
  | .tokenTimeout => true
  | .recoveryCollect => true
  | .suspect m => decide (m < 256)
  | .wingFailover => true
  | .firstHeartbeat _ => true
  | .provisioningToken _ => true
  | .deploymentToken _ => true
  | .rmaToken _ => true
  | .repairToken _ => true
  | .decommissionToken _ => true
  | .packageReset => true
  | .budgetPeriod _ => true
  | .stateTableChange _ => true
  | .flitFailsCrc p => decide (p < 24)
  | .logicalDeviceBind _ _ _ _ => true
  | .powerLoss => true

end Sys2Proof
end

