-- ==== Sys2Proof/Decode.lean ====
section
/-!
DEFINITION. Decode.lean: reading an instruction word (R26 to R35) and writing one. The decoder refuses an
unallocated opcode and a non-zero reserved field by name; a field value that an entry leaves undefined decodes,
and its meaning raises ILLOP (R30). After it stands the encoder, from the same layouts, and the reading of a row of
the opcode table.
-/
namespace Sys2Proof

/-- Why bytes are not an instruction. -/
inductive DecodeError where
  | unallocatedOpcode   -- R35
  | reservedField       -- R30
  | truncated           -- fewer than four bytes
  deriving DecidableEq, Repr

/-- A field of n bits whose lowest bit is lo (R2). -/
def fld (w : Word) (lo n : Nat) : BitVec n := w.extractLsb' lo n

/-- Accepts an instruction when its reserved fields are zero (R30). -/
def whenClean (ok : Bool) (i : Instr) : Except DecodeError Instr :=
  if ok then .ok i else .error .reservedField

/-- The lane set (R33). -/
def decodeLane (w : Word) : Except DecodeError Instr :=
  match (fld w 24 7).toNat with
  | 0x00 => whenClean (fld w 0 22 == 0) (.nop (fld w 22 2))
  | 0x01 => whenClean (fld w 8 7 == 0) (.mov (fld w 22 2) (fld w 15 7) (fld w 1 7) (fld w 0 1))
  | 0x02 => .ok (.limm (fld w 22 2) (fld w 15 7) (fld w 0 15))
  | 0x03 => .ok (.limmh (fld w 22 2) (fld w 15 7) (fld w 0 15))
  | 0x04 => .ok (.iadd (fld w 22 2) (fld w 15 7) (fld w 8 7) (fld w 1 7) (fld w 0 1))
  | 0x05 => .ok (.isub (fld w 22 2) (fld w 15 7) (fld w 8 7) (fld w 1 7) (fld w 0 1))
  | 0x06 => .ok (.iaddi (fld w 22 2) (fld w 15 7) (fld w 8 7) (fld w 0 8))
  | 0x07 => .ok (.iadd64 (fld w 22 2) (fld w 15 7) (fld w 8 7) (fld w 1 7) (fld w 0 1))
  | 0x08 => .ok (.imul (fld w 22 2) (fld w 15 7) (fld w 8 7) (fld w 1 7) (fld w 0 1))
  | 0x09 => .ok (.imulhi (fld w 22 2) (fld w 15 7) (fld w 8 7) (fld w 1 7) (fld w 0 1))
  | 0x0A => .ok (.imulhu (fld w 22 2) (fld w 15 7) (fld w 8 7) (fld w 1 7) (fld w 0 1))
  | 0x0B => .ok (.imad (fld w 22 2) (fld w 15 7) (fld w 8 7) (fld w 1 7) (fld w 0 1))
  | 0x0C => .ok (.imin (fld w 22 2) (fld w 15 7) (fld w 8 7) (fld w 1 7) (fld w 0 1))
  | 0x0D => .ok (.imax (fld w 22 2) (fld w 15 7) (fld w 8 7) (fld w 1 7) (fld w 0 1))
  | 0x0E => .ok (.iminu (fld w 22 2) (fld w 15 7) (fld w 8 7) (fld w 1 7) (fld w 0 1))
  | 0x0F => .ok (.imaxu (fld w 22 2) (fld w 15 7) (fld w 8 7) (fld w 1 7) (fld w 0 1))
  | 0x10 => whenClean (fld w 0 8 == 0) (.iabs (fld w 22 2) (fld w 15 7) (fld w 8 7))
  | 0x11 => whenClean (fld w 0 8 == 0) (.ineg (fld w 22 2) (fld w 15 7) (fld w 8 7))
  | 0x12 => .ok (.and (fld w 22 2) (fld w 15 7) (fld w 8 7) (fld w 1 7) (fld w 0 1))
  | 0x13 => .ok (.or (fld w 22 2) (fld w 15 7) (fld w 8 7) (fld w 1 7) (fld w 0 1))
  | 0x14 => .ok (.xor (fld w 22 2) (fld w 15 7) (fld w 8 7) (fld w 1 7) (fld w 0 1))
  | 0x15 => .ok (.andn (fld w 22 2) (fld w 15 7) (fld w 8 7) (fld w 1 7) (fld w 0 1))
  | 0x16 => whenClean (fld w 0 8 == 0) (.not (fld w 22 2) (fld w 15 7) (fld w 8 7))
  | 0x17 => .ok (.shl (fld w 22 2) (fld w 15 7) (fld w 8 7) (fld w 1 7) (fld w 0 1))
  | 0x18 => .ok (.shr (fld w 22 2) (fld w 15 7) (fld w 8 7) (fld w 1 7) (fld w 0 1))
  | 0x19 => .ok (.sar (fld w 22 2) (fld w 15 7) (fld w 8 7) (fld w 1 7) (fld w 0 1))
  | 0x1A => .ok (.shli (fld w 22 2) (fld w 15 7) (fld w 8 7) (fld w 0 8))
  | 0x1B => .ok (.shri (fld w 22 2) (fld w 15 7) (fld w 8 7) (fld w 0 8))
  | 0x1C => .ok (.sari (fld w 22 2) (fld w 15 7) (fld w 8 7) (fld w 0 8))
  | 0x1D => whenClean (fld w 0 8 == 0) (.popc (fld w 22 2) (fld w 15 7) (fld w 8 7))
  | 0x1E => whenClean (fld w 0 8 == 0) (.clz (fld w 22 2) (fld w 15 7) (fld w 8 7))
  | 0x1F => whenClean (fld w 0 8 == 0) (.brev (fld w 22 2) (fld w 15 7) (fld w 8 7))
  | 0x20 => .ok (.bfe (fld w 22 2) (fld w 15 7) (fld w 8 7) (fld w 1 7) (fld w 0 1))
  | 0x21 => .ok (.bfi (fld w 22 2) (fld w 15 7) (fld w 8 7) (fld w 1 7) (fld w 0 1))
  | 0x22 => .ok (.icmp (fld w 22 2) (fld w 19 3) (fld w 15 4) (fld w 8 7) (fld w 1 7) (fld w 0 1))
  | 0x23 => whenClean (fld w 4 4 == 0) (.sel (fld w 22 2) (fld w 15 7) (fld w 8 7) (fld w 3 1) (fld w 0 3))
  | 0x24 => whenClean (fld w 0 1 == 0 && fld w 4 4 == 0 && fld w 11 4 == 0) (.plut (fld w 22 2) (fld w 19 3) (fld w 15 4) (fld w 8 3) (fld w 1 3))
  | 0x28 => .ok (.fadd (fld w 22 2) (fld w 15 7) (fld w 8 7) (fld w 1 7) (fld w 0 1))
  | 0x29 => .ok (.fsub (fld w 22 2) (fld w 15 7) (fld w 8 7) (fld w 1 7) (fld w 0 1))
  | 0x2A => .ok (.fmul (fld w 22 2) (fld w 15 7) (fld w 8 7) (fld w 1 7) (fld w 0 1))
  | 0x2B => .ok (.ffma (fld w 22 2) (fld w 15 7) (fld w 8 7) (fld w 1 7) (fld w 0 1))
  | 0x2C => .ok (.fmin (fld w 22 2) (fld w 15 7) (fld w 8 7) (fld w 1 7) (fld w 0 1))
  | 0x2D => .ok (.fmax (fld w 22 2) (fld w 15 7) (fld w 8 7) (fld w 1 7) (fld w 0 1))
  | 0x2E => whenClean (fld w 0 8 == 0) (.fabs (fld w 22 2) (fld w 15 7) (fld w 8 7))
  | 0x2F => whenClean (fld w 0 8 == 0) (.fneg (fld w 22 2) (fld w 15 7) (fld w 8 7))
  | 0x30 => .ok (.fcmp (fld w 22 2) (fld w 19 3) (fld w 15 4) (fld w 8 7) (fld w 1 7) (fld w 0 1))
  | 0x31 => whenClean (fld w 0 8 == 0) (.frcp (fld w 22 2) (fld w 15 7) (fld w 8 7))
  | 0x32 => whenClean (fld w 0 8 == 0) (.frsq (fld w 22 2) (fld w 15 7) (fld w 8 7))
  | 0x33 => whenClean (fld w 0 8 == 0) (.fsqrt (fld w 22 2) (fld w 15 7) (fld w 8 7))
  | 0x34 => whenClean (fld w 0 8 == 0) (.fexp2 (fld w 22 2) (fld w 15 7) (fld w 8 7))
  | 0x35 => whenClean (fld w 0 8 == 0) (.flog2 (fld w 22 2) (fld w 15 7) (fld w 8 7))
  | 0x36 => whenClean (fld w 0 8 == 0) (.fsint (fld w 22 2) (fld w 15 7) (fld w 8 7))
  | 0x37 => whenClean (fld w 0 8 == 0) (.fcost (fld w 22 2) (fld w 15 7) (fld w 8 7))
  | 0x38 => whenClean (fld w 2 6 == 0) (.frnd (fld w 22 2) (fld w 15 7) (fld w 8 7) (fld w 0 2))
  | 0x39 => whenClean (fld w 0 8 == 0) (.fclass (fld w 22 2) (fld w 15 7) (fld w 8 7))
  | 0x3A => .ok (.pbadd (fld w 22 2) (fld w 15 7) (fld w 8 7) (fld w 1 7) (fld w 0 1))
  | 0x3B => .ok (.pbmul (fld w 22 2) (fld w 15 7) (fld w 8 7) (fld w 1 7) (fld w 0 1))
  | 0x3C => .ok (.pbfma (fld w 22 2) (fld w 15 7) (fld w 8 7) (fld w 1 7) (fld w 0 1))
  | 0x3D => .ok (.phadd (fld w 22 2) (fld w 15 7) (fld w 8 7) (fld w 1 7) (fld w 0 1))
  | 0x3E => .ok (.phmul (fld w 22 2) (fld w 15 7) (fld w 8 7) (fld w 1 7) (fld w 0 1))
  | 0x3F => .ok (.phfma (fld w 22 2) (fld w 15 7) (fld w 8 7) (fld w 1 7) (fld w 0 1))
  | 0x40 => .ok (.cvt (fld w 22 2) (fld w 15 7) (fld w 8 7) (fld w 6 2) (fld w 3 3) (fld w 0 3))
  | 0x41 => whenClean (fld w 0 8 == 0) (.bsplit (fld w 22 2) (fld w 15 7) (fld w 8 7))
  | 0x42 => .ok (.pack2 (fld w 22 2) (fld w 15 7) (fld w 8 7) (fld w 1 7) (fld w 0 1))
  | 0x43 => whenClean (fld w 3 5 == 0) (.unpk2 (fld w 22 2) (fld w 15 7) (fld w 8 7) (fld w 1 2) (fld w 0 1))
  | 0x44 => whenClean (fld w 6 2 == 0) (.qnt (fld w 22 2) (fld w 15 7) (fld w 8 7) (fld w 3 3) (fld w 0 3))
  | 0x45 => .ok (.dqnt (fld w 22 2) (fld w 15 7) (fld w 8 7) (fld w 6 2) (fld w 3 3) (fld w 0 3))
  | 0x46 => whenClean (fld w 3 5 == 0) (.niget (fld w 22 2) (fld w 15 7) (fld w 8 7) (fld w 0 3))
  | 0x47 => whenClean (fld w 3 5 == 0) (.niput (fld w 22 2) (fld w 15 7) (fld w 8 7) (fld w 0 3))
  | 0x48 => .ok (.sacc (fld w 22 2) (fld w 15 7) (fld w 8 7) (fld w 1 7) (fld w 0 1))
  | 0x50 => .ok (.lds (fld w 22 2) (fld w 15 7) (fld w 8 7) (fld w 0 8))
  | 0x51 => .ok (.sts (fld w 22 2) (fld w 15 7) (fld w 8 7) (fld w 0 8))
  | 0x52 => .ok (.lds64 (fld w 22 2) (fld w 15 7) (fld w 8 7) (fld w 0 8))
  | 0x53 => .ok (.sts64 (fld w 22 2) (fld w 15 7) (fld w 8 7) (fld w 0 8))
  | 0x54 => .ok (.ldw (fld w 22 2) (fld w 15 7) (fld w 8 7) (fld w 0 8))
  | 0x55 => .ok (.stw (fld w 22 2) (fld w 15 7) (fld w 8 7) (fld w 0 8))
  | 0x56 => .ok (.ldsp (fld w 22 2) (fld w 15 7) (fld w 8 7) (fld w 0 8))
  | 0x57 => .ok (.stsp (fld w 22 2) (fld w 15 7) (fld w 8 7) (fld w 0 8))
  | 0x58 => .ok (.ldd (fld w 22 2) (fld w 15 7) (fld w 8 7) (fld w 0 8))
  | 0x59 => .ok (.std (fld w 22 2) (fld w 15 7) (fld w 8 7) (fld w 0 8))
  | 0x5A => .ok (.ldc (fld w 22 2) (fld w 15 7) (fld w 8 7) (fld w 0 8))
  | 0x5B => whenClean (fld w 0 2 == 0) (.atom (fld w 22 2) (fld w 15 7) (fld w 8 7) (fld w 4 4) (fld w 2 2))
  | 0x5C => whenClean (fld w 0 2 == 0 && fld w 4 4 == 0) (.cas (fld w 22 2) (fld w 15 7) (fld w 8 7) (fld w 2 2))
  | 0x60 => .ok (.shfli (fld w 22 2) (fld w 15 7) (fld w 8 7) (fld w 6 2) (fld w 0 6))
  | 0x61 => .ok (.shfl (fld w 22 2) (fld w 15 7) (fld w 8 7) (fld w 1 7) (fld w 0 1))
  | 0x62 => whenClean (fld w 0 8 == 0 && fld w 11 5 == 0) (.vote (fld w 22 2) (fld w 19 3) (fld w 17 2) (fld w 16 1) (fld w 8 3))
  | 0x63 => whenClean (fld w 6 9 == 0) (.ballot (fld w 22 2) (fld w 15 7) (fld w 4 2) (fld w 3 1) (fld w 0 3))
  | 0x64 => whenClean (fld w 7 1 == 0) (.rdlane (fld w 22 2) (fld w 15 7) (fld w 8 7) (fld w 0 7))
  | 0x65 => whenClean (fld w 7 1 == 0) (.wrlane (fld w 22 2) (fld w 15 7) (fld w 8 7) (fld w 0 7))
  | 0x66 => .ok (.matchKeys (fld w 22 2) (fld w 15 7) (fld w 8 7) (fld w 1 7) (fld w 0 1))
  | 0x68 => whenClean (fld w 3 5 == 0) (.gen (fld w 22 2) (fld w 15 7) (fld w 8 7) (fld w 0 3))
  | 0x69 => whenClean (fld w 3 5 == 0) (.gent (fld w 22 2) (fld w 15 7) (fld w 8 7) (fld w 0 3))
  | 0x6C => whenClean (fld w 15 2 == 0) (.svc (fld w 22 2) (fld w 17 5) (fld w 0 15))
  | 0x6D => whenClean (fld w 0 15 == 0) (.laneid (fld w 22 2) (fld w 15 7))
  | 0x6E => whenClean (fld w 15 7 == 0) (.brk (fld w 22 2) (fld w 0 15))
  | _ => .error .unallocatedOpcode

/-- The uniform set (R34). -/
def decodeUniform (w : Word) : Except DecodeError Instr :=
  match (fld w 24 7).toNat with
  | 0x00 => whenClean (fld w 0 22 == 0) (.snop (fld w 22 2))
  | 0x01 => whenClean (fld w 0 1 == 0 && fld w 8 7 == 0) (.smov (fld w 22 2) (fld w 15 7) (fld w 1 7))
  | 0x02 => .ok (.slimm (fld w 22 2) (fld w 15 7) (fld w 0 15))
  | 0x03 => .ok (.slimmh (fld w 22 2) (fld w 15 7) (fld w 0 15))
  | 0x04 => whenClean (fld w 0 1 == 0) (.sadd (fld w 22 2) (fld w 15 7) (fld w 8 7) (fld w 1 7))
  | 0x05 => whenClean (fld w 0 1 == 0) (.ssub (fld w 22 2) (fld w 15 7) (fld w 8 7) (fld w 1 7))
  | 0x06 => .ok (.saddi (fld w 22 2) (fld w 15 7) (fld w 8 7) (fld w 0 8))
  | 0x07 => whenClean (fld w 0 1 == 0) (.sadd64 (fld w 22 2) (fld w 15 7) (fld w 8 7) (fld w 1 7))
  | 0x08 => whenClean (fld w 0 1 == 0) (.smul (fld w 22 2) (fld w 15 7) (fld w 8 7) (fld w 1 7))
  | 0x09 => .ok (.smulhi (fld w 22 2) (fld w 15 7) (fld w 8 7) (fld w 1 7) (fld w 0 1))
  | 0x0A => whenClean (fld w 0 1 == 0) (.sand (fld w 22 2) (fld w 15 7) (fld w 8 7) (fld w 1 7))
  | 0x0B => whenClean (fld w 0 1 == 0) (.sor (fld w 22 2) (fld w 15 7) (fld w 8 7) (fld w 1 7))
  | 0x0C => whenClean (fld w 0 1 == 0) (.sxor (fld w 22 2) (fld w 15 7) (fld w 8 7) (fld w 1 7))
  | 0x0D => whenClean (fld w 0 1 == 0) (.sshl (fld w 22 2) (fld w 15 7) (fld w 8 7) (fld w 1 7))
  | 0x0E => whenClean (fld w 0 1 == 0) (.sshr (fld w 22 2) (fld w 15 7) (fld w 8 7) (fld w 1 7))
  | 0x0F => whenClean (fld w 0 1 == 0) (.ssar (fld w 22 2) (fld w 15 7) (fld w 8 7) (fld w 1 7))
  | 0x10 => .ok (.sshli (fld w 22 2) (fld w 15 7) (fld w 8 7) (fld w 0 8))
  | 0x11 => .ok (.sshri (fld w 22 2) (fld w 15 7) (fld w 8 7) (fld w 0 8))
  | 0x12 => .ok (.smin (fld w 22 2) (fld w 15 7) (fld w 8 7) (fld w 1 7) (fld w 0 1))
  | 0x13 => .ok (.smax (fld w 22 2) (fld w 15 7) (fld w 8 7) (fld w 1 7) (fld w 0 1))
  | 0x14 => whenClean (fld w 0 8 == 0) (.spopc (fld w 22 2) (fld w 15 7) (fld w 8 7))
  | 0x15 => whenClean (fld w 0 8 == 0) (.sclz (fld w 22 2) (fld w 15 7) (fld w 8 7))
  | 0x16 => whenClean (fld w 0 1 == 0) (.scmp (fld w 22 2) (fld w 19 3) (fld w 15 4) (fld w 8 7) (fld w 1 7))
  | 0x17 => whenClean (fld w 0 4 == 0) (.ssel (fld w 22 2) (fld w 15 7) (fld w 8 7) (fld w 5 3) (fld w 4 1))
  | 0x18 => whenClean (fld w 0 1 == 0) (.sfadd (fld w 22 2) (fld w 15 7) (fld w 8 7) (fld w 1 7))
  | 0x19 => whenClean (fld w 0 1 == 0) (.sfmul (fld w 22 2) (fld w 15 7) (fld w 8 7) (fld w 1 7))
  | 0x1A => whenClean (fld w 0 1 == 0) (.sffma (fld w 22 2) (fld w 15 7) (fld w 8 7) (fld w 1 7))
  | 0x1B => .ok (.sldc (fld w 22 2) (fld w 15 7) (fld w 8 7) (fld w 0 8))
  | 0x1C => .ok (.slds (fld w 22 2) (fld w 15 7) (fld w 8 7) (fld w 0 8))
  | 0x1D => .ok (.ssts (fld w 22 2) (fld w 15 7) (fld w 8 7) (fld w 0 8))
  | 0x1E => whenClean (fld w 8 7 == 0) (.srd (fld w 22 2) (fld w 15 7) (fld w 1 7) (fld w 0 1))
  | 0x1F => whenClean (fld w 0 1 == 0 && fld w 15 7 == 0) (.swr (fld w 22 2) (fld w 8 7) (fld w 1 7))
  | 0x20 => .ok (.bra (fld w 22 2) (fld w 19 3) (fld w 18 1) (fld w 0 18))
  | 0x21 => .ok (.br (fld w 22 2) (fld w 19 3) (fld w 18 1) (fld w 0 18))
  | 0x22 => whenClean (fld w 0 22 == 0) (.join (fld w 22 2))
  | 0x23 => whenClean (fld w 18 4 == 0) (.jmp (fld w 22 2) (fld w 0 18))
  | 0x24 => whenClean (fld w 18 4 == 0) (.call (fld w 22 2) (fld w 0 18))
  | 0x25 => whenClean (fld w 0 22 == 0) (.ret (fld w 22 2))
  | 0x26 => whenClean (fld w 0 8 == 0 && fld w 15 7 == 0) (.brx (fld w 22 2) (fld w 8 7))
  | 0x27 => whenClean (fld w 0 11 == 0 && fld w 15 7 == 0) (.lhead (fld w 22 2) (fld w 12 3) (fld w 11 1))
  | 0x28 => whenClean (fld w 0 22 == 0) (.exit (fld w 22 2))
  | 0x29 => whenClean (fld w 15 7 == 0) (.sleep (fld w 22 2) (fld w 0 15))
  | 0x2A => whenClean (fld w 0 17 == 0) (.emrd (fld w 22 2) (fld w 17 5))
  | 0x2B => whenClean (fld w 0 10 == 0 && fld w 15 7 == 0) (.emwr (fld w 22 2) (fld w 10 5))
  | 0x2C => if fld w 0 1 == 1 then whenClean (fld w 0 4 == 1 && fld w 8 14 == 0) (.emandPred (fld w 22 2) (fld w 5 3) (fld w 4 1)) else whenClean (fld w 0 10 == 0 && fld w 15 7 == 0) (.emandReg (fld w 22 2) (fld w 10 5))
  | 0x30 => whenClean (fld w 6 3 == 0 && fld w 15 7 == 0) (.xlate (fld w 22 2) (fld w 9 6) (fld w 5 1) (fld w 4 1) (fld w 3 1) (fld w 0 3))
  | 0x31 => whenClean (fld w 3 14 == 0) (.xrd (fld w 22 2) (fld w 17 5) (fld w 0 3))
  | 0x32 => whenClean (fld w 8 14 == 0) (.xinv (fld w 22 2) (fld w 0 8))
  | 0x33 => whenClean (fld w 2 1 == 0 && fld w 6 16 == 0) (.fence (fld w 22 2) (fld w 3 3) (fld w 0 2))
  | 0x34 => whenClean (fld w 0 15 == 0) (.ackrd (fld w 22 2) (fld w 15 7))
  | 0x35 => whenClean (fld w 1 2 == 0 && fld w 6 16 == 0) (.icinv (fld w 22 2) (fld w 3 3) (fld w 0 1))
  | 0x36 => whenClean (fld w 8 14 == 0) (.region (fld w 22 2) (fld w 0 8))
  | 0x37 => whenClean (fld w 0 22 == 0) (.regend (fld w 22 2))
  | 0x38 => whenClean (fld w 8 3 == 0) (.cpy (fld w 22 2) (fld w 15 7) (fld w 11 4) (fld w 4 4) (fld w 0 4))
  | 0x39 => whenClean (fld w 8 3 == 0) (.cpyg (fld w 22 2) (fld w 15 7) (fld w 11 4) (fld w 4 4) (fld w 0 4))
  | 0x3A => whenClean (fld w 8 3 == 0) (.cpyr (fld w 22 2) (fld w 15 7) (fld w 11 4) (fld w 4 4) (fld w 0 4))
  | 0x3B => whenClean (fld w 8 3 == 0) (.cpya (fld w 22 2) (fld w 15 7) (fld w 11 4) (fld w 4 4) (fld w 0 4))
  | 0x3C => whenClean (fld w 0 15 == 0) (.cbatch (fld w 22 2) (fld w 15 7))
  | 0x3D => whenClean (fld w 0 8 == 0 && fld w 15 7 == 0) (.waitb (fld w 22 2) (fld w 8 7))
  | 0x3E => whenClean (fld w 0 1 == 0) (.testc (fld w 22 2) (fld w 15 7) (fld w 8 7) (fld w 1 7))
  | 0x3F => whenClean (fld w 0 1 == 0 && fld w 15 7 == 0) (.waitc (fld w 22 2) (fld w 8 7) (fld w 1 7))
  | 0x40 => whenClean (fld w 8 3 == 0) (.mma (fld w 22 2) (fld w 15 7) (fld w 11 4) (fld w 4 4) (fld w 0 4))
  | 0x41 => whenClean (fld w 8 3 == 0) (.mmai (fld w 22 2) (fld w 15 7) (fld w 11 4) (fld w 4 4) (fld w 0 4))
  | 0x42 => whenClean (fld w 8 3 == 0) (.ldst (fld w 22 2) (fld w 15 7) (fld w 11 4) (fld w 4 4) (fld w 0 4))
  | 0x43 => whenClean (fld w 8 3 == 0) (.accz (fld w 22 2) (fld w 15 7) (fld w 11 4) (fld w 4 4) (fld w 0 4))
  | 0x44 => whenClean (fld w 8 3 == 0) (.accrd (fld w 22 2) (fld w 15 7) (fld w 11 4) (fld w 4 4) (fld w 0 4))
  | 0x45 => whenClean (fld w 8 3 == 0) (.accwr (fld w 22 2) (fld w 15 7) (fld w 11 4) (fld w 4 4) (fld w 0 4))
  | 0x46 => whenClean (fld w 8 3 == 0) (.sacct (fld w 22 2) (fld w 15 7) (fld w 11 4) (fld w 4 4) (fld w 0 4))
  | 0x47 => whenClean (fld w 0 22 == 0) (.opfence (fld w 22 2))
  | 0x48 => whenClean (fld w 0 8 == 0 && fld w 15 7 == 0) (.waitm (fld w 22 2) (fld w 8 7))
  | 0x49 => whenClean (fld w 0 8 == 0) (.mseq (fld w 22 2) (fld w 15 7) (fld w 8 7))
  | 0x4A => whenClean (fld w 1 7 == 0 && fld w 15 7 == 0) (.tailp (fld w 22 2) (fld w 8 7) (fld w 0 1))
  | 0x4C => whenClean (fld w 3 7 == 0 && fld w 15 7 == 0) (.gset (fld w 22 2) (fld w 10 5) (fld w 0 3))
  | 0x4D => whenClean (fld w 3 14 == 0) (.grd (fld w 22 2) (fld w 17 5) (fld w 0 3))
  | 0x4E => whenClean (fld w 0 22 == 0) (.gstep (fld w 22 2))
  | 0x50 => whenClean (fld w 2 2 == 0 && fld w 15 7 == 0) (.kset (fld w 22 2) (fld w 8 7) (fld w 4 4) (fld w 0 2))
  | 0x51 => whenClean (fld w 0 15 == 0) (.krd (fld w 22 2) (fld w 15 7))
  | 0x52 => whenClean (fld w 0 4 == 0 && fld w 8 14 == 0) (.kclr (fld w 22 2) (fld w 4 4))
  | 0x53 => whenClean (fld w 3 19 == 0) (.bar (fld w 22 2) (fld w 0 3))
  | 0x54 => whenClean (fld w 0 22 == 0) (.barc (fld w 22 2))
  | 0x55 => whenClean (fld w 3 7 == 0 && fld w 15 7 == 0) (.barm (fld w 22 2) (fld w 10 5) (fld w 0 3))
  | 0x56 => whenClean (fld w 3 19 == 0) (.arrive (fld w 22 2) (fld w 0 3))
  | 0x57 => whenClean (fld w 3 19 == 0) (.await (fld w 22 2) (fld w 0 3))
  | 0x58 => whenClean (fld w 0 22 == 0) (.barg (fld w 22 2))
  | 0x59 => whenClean (fld w 3 7 == 0 && fld w 15 7 == 0) (.barinit (fld w 22 2) (fld w 10 5) (fld w 0 3))
  | 0x5A => whenClean (fld w 5 10 == 0) (.barrd (fld w 22 2) (fld w 15 7) (fld w 3 2) (fld w 0 3))
  | 0x5B => whenClean (fld w 0 4 == 0 && fld w 8 4 == 0 && fld w 15 7 == 0) (.qpush (fld w 22 2) (fld w 12 3) (fld w 4 4))
  | 0x5C => whenClean (fld w 0 12 == 0 && fld w 15 7 == 0) (.launch (fld w 22 2) (fld w 12 3))
  | 0x5D => whenClean (fld w 0 10 == 0 && fld w 15 7 == 0) (.shape (fld w 22 2) (fld w 10 5))
  | 0x5E => whenClean (fld w 0 1 == 0 && fld w 15 5 == 0) (.arm (fld w 22 2) (fld w 20 2) (fld w 8 7) (fld w 4 4) (fld w 1 3))
  | 0x5F => whenClean (fld w 0 2 == 0 && fld w 8 2 == 0 && fld w 15 7 == 0) (.hring (fld w 22 2) (fld w 10 5) (fld w 4 4) (fld w 3 1) (fld w 2 1))
  | 0x60 => whenClean (fld w 0 12 == 0 && fld w 15 7 == 0) (.hpost (fld w 22 2) (fld w 12 3))
  | 0x61 => whenClean (fld w 0 10 == 0 && fld w 15 5 == 0) (.mapft (fld w 22 2) (fld w 20 2) (fld w 10 5))
  | 0x62 => whenClean (fld w 0 10 == 0 && fld w 15 7 == 0) (.fqpost (fld w 22 2) (fld w 10 5))
  | 0x63 => whenClean (fld w 0 10 == 0 && fld w 15 7 == 0) (.tlbinv (fld w 22 2) (fld w 10 5))
  | 0x64 => whenClean (fld w 16 6 == 0) (.trap (fld w 22 2) (fld w 0 16))
  | 0x65 => whenClean (fld w 1 21 == 0) (.rft (fld w 22 2) (fld w 0 1))
  | 0x66 => whenClean (fld w 0 1 == 0 && fld w 8 7 == 0) (.srdp (fld w 22 2) (fld w 15 7) (fld w 1 7))
  | 0x67 => whenClean (fld w 0 1 == 0 && fld w 15 7 == 0) (.swrp (fld w 22 2) (fld w 8 7) (fld w 1 7))
  | 0x68 => whenClean (fld w 0 1 == 0 && fld w 15 5 == 0) (.sleepw (fld w 22 2) (fld w 20 2) (fld w 8 7) (fld w 1 7))
  | 0x69 => whenClean (fld w 1 17 == 0) (.fqtake (fld w 22 2) (fld w 18 4) (fld w 0 1))
  | 0x6A => whenClean (fld w 1 17 == 0) (.svctake (fld w 22 2) (fld w 18 4) (fld w 0 1))
  | 0x6B => whenClean (fld w 0 1 == 0 && fld w 15 7 == 0) (.svcdone (fld w 22 2) (fld w 8 7) (fld w 1 7))
  | _ => .error .unallocatedOpcode

/-- A whole word (R26: bit 31 selects the set). -/
def decodeWord (w : Word) : Except DecodeError Instr :=
  if fld w 31 1 == 0 then decodeLane w else decodeUniform w

/-- The little-endian word of four bytes (R2). -/
def wordOfBytes (b0 b1 b2 b3 : Byte) : Word := b3 ++ b2 ++ b1 ++ b0

/-- Decoding bytes as they lie in memory, lowest address first. -/
def decodeBytes : List Byte → Except DecodeError Instr
  | b0 :: b1 :: b2 :: b3 :: _ => decodeWord (wordOfBytes b0 b1 b2 b3)
  | _ => .error .truncated

/-- The word of an instruction; an event has none. Reserved bits are zero (R30). -/
def encode : Instr → Option Word
  | .nop st => some (0x00#8 ++ st ++ 0#22)
  | .mov st d b c => some (0x01#8 ++ st ++ d ++ 0#7 ++ b ++ c)
  | .limm st d i => some (0x02#8 ++ st ++ d ++ i)
  | .limmh st d i => some (0x03#8 ++ st ++ d ++ i)
  | .iadd st d a b c => some (0x04#8 ++ st ++ d ++ a ++ b ++ c)
  | .isub st d a b c => some (0x05#8 ++ st ++ d ++ a ++ b ++ c)
  | .iaddi st d a i => some (0x06#8 ++ st ++ d ++ a ++ i)
  | .iadd64 st d a b c => some (0x07#8 ++ st ++ d ++ a ++ b ++ c)
  | .imul st d a b c => some (0x08#8 ++ st ++ d ++ a ++ b ++ c)
  | .imulhi st d a b c => some (0x09#8 ++ st ++ d ++ a ++ b ++ c)
  | .imulhu st d a b c => some (0x0A#8 ++ st ++ d ++ a ++ b ++ c)
  | .imad st d a b c => some (0x0B#8 ++ st ++ d ++ a ++ b ++ c)
  | .imin st d a b c => some (0x0C#8 ++ st ++ d ++ a ++ b ++ c)
  | .imax st d a b c => some (0x0D#8 ++ st ++ d ++ a ++ b ++ c)
  | .iminu st d a b c => some (0x0E#8 ++ st ++ d ++ a ++ b ++ c)
  | .imaxu st d a b c => some (0x0F#8 ++ st ++ d ++ a ++ b ++ c)
  | .iabs st d a => some (0x10#8 ++ st ++ d ++ a ++ 0#8)
  | .ineg st d a => some (0x11#8 ++ st ++ d ++ a ++ 0#8)
  | .and st d a b c => some (0x12#8 ++ st ++ d ++ a ++ b ++ c)
  | .or st d a b c => some (0x13#8 ++ st ++ d ++ a ++ b ++ c)
  | .xor st d a b c => some (0x14#8 ++ st ++ d ++ a ++ b ++ c)
  | .andn st d a b c => some (0x15#8 ++ st ++ d ++ a ++ b ++ c)
  | .not st d a => some (0x16#8 ++ st ++ d ++ a ++ 0#8)
  | .shl st d a b c => some (0x17#8 ++ st ++ d ++ a ++ b ++ c)
  | .shr st d a b c => some (0x18#8 ++ st ++ d ++ a ++ b ++ c)
  | .sar st d a b c => some (0x19#8 ++ st ++ d ++ a ++ b ++ c)
  | .shli st d a i => some (0x1A#8 ++ st ++ d ++ a ++ i)
  | .shri st d a i => some (0x1B#8 ++ st ++ d ++ a ++ i)
  | .sari st d a i => some (0x1C#8 ++ st ++ d ++ a ++ i)
  | .popc st d a => some (0x1D#8 ++ st ++ d ++ a ++ 0#8)
  | .clz st d a => some (0x1E#8 ++ st ++ d ++ a ++ 0#8)
  | .brev st d a => some (0x1F#8 ++ st ++ d ++ a ++ 0#8)
  | .bfe st d a b c => some (0x20#8 ++ st ++ d ++ a ++ b ++ c)
  | .bfi st d a b c => some (0x21#8 ++ st ++ d ++ a ++ b ++ c)
  | .icmp st p c a b u => some (0x22#8 ++ st ++ p ++ c ++ a ++ b ++ u)
  | .sel st d a n p => some (0x23#8 ++ st ++ d ++ a ++ 0#4 ++ n ++ p)
  | .plut st d t a b => some (0x24#8 ++ st ++ d ++ t ++ 0#4 ++ a ++ 0#4 ++ b ++ 0#1)
  | .fadd st d a b c => some (0x28#8 ++ st ++ d ++ a ++ b ++ c)
  | .fsub st d a b c => some (0x29#8 ++ st ++ d ++ a ++ b ++ c)
  | .fmul st d a b c => some (0x2A#8 ++ st ++ d ++ a ++ b ++ c)
  | .ffma st d a b c => some (0x2B#8 ++ st ++ d ++ a ++ b ++ c)
  | .fmin st d a b c => some (0x2C#8 ++ st ++ d ++ a ++ b ++ c)
  | .fmax st d a b c => some (0x2D#8 ++ st ++ d ++ a ++ b ++ c)
  | .fabs st d a => some (0x2E#8 ++ st ++ d ++ a ++ 0#8)
  | .fneg st d a => some (0x2F#8 ++ st ++ d ++ a ++ 0#8)
  | .fcmp st p c a b u => some (0x30#8 ++ st ++ p ++ c ++ a ++ b ++ u)
  | .frcp st d a => some (0x31#8 ++ st ++ d ++ a ++ 0#8)
  | .frsq st d a => some (0x32#8 ++ st ++ d ++ a ++ 0#8)
  | .fsqrt st d a => some (0x33#8 ++ st ++ d ++ a ++ 0#8)
  | .fexp2 st d a => some (0x34#8 ++ st ++ d ++ a ++ 0#8)
  | .flog2 st d a => some (0x35#8 ++ st ++ d ++ a ++ 0#8)
  | .fsint st d a => some (0x36#8 ++ st ++ d ++ a ++ 0#8)
  | .fcost st d a => some (0x37#8 ++ st ++ d ++ a ++ 0#8)
  | .frnd st d a m => some (0x38#8 ++ st ++ d ++ a ++ 0#6 ++ m)
  | .fclass st d a => some (0x39#8 ++ st ++ d ++ a ++ 0#8)
  | .pbadd st d a b c => some (0x3A#8 ++ st ++ d ++ a ++ b ++ c)
  | .pbmul st d a b c => some (0x3B#8 ++ st ++ d ++ a ++ b ++ c)
  | .pbfma st d a b c => some (0x3C#8 ++ st ++ d ++ a ++ b ++ c)
  | .phadd st d a b c => some (0x3D#8 ++ st ++ d ++ a ++ b ++ c)
  | .phmul st d a b c => some (0x3E#8 ++ st ++ d ++ a ++ b ++ c)
  | .phfma st d a b c => some (0x3F#8 ++ st ++ d ++ a ++ b ++ c)
  | .cvt st d a m t u => some (0x40#8 ++ st ++ d ++ a ++ m ++ t ++ u)
  | .bsplit st d a => some (0x41#8 ++ st ++ d ++ a ++ 0#8)
  | .pack2 st d a b c => some (0x42#8 ++ st ++ d ++ a ++ b ++ c)
  | .unpk2 st d a q h => some (0x43#8 ++ st ++ d ++ a ++ 0#5 ++ q ++ h)
  | .qnt st d a p k => some (0x44#8 ++ st ++ d ++ a ++ 0#2 ++ p ++ k)
  | .dqnt st d a f m k => some (0x45#8 ++ st ++ d ++ a ++ f ++ m ++ k)
  | .niget st d a m => some (0x46#8 ++ st ++ d ++ a ++ 0#5 ++ m)
  | .niput st d a k => some (0x47#8 ++ st ++ d ++ a ++ 0#5 ++ k)
  | .sacc st d a b c => some (0x48#8 ++ st ++ d ++ a ++ b ++ c)
  | .lds st d a o => some (0x50#8 ++ st ++ d ++ a ++ o)
  | .sts st d a o => some (0x51#8 ++ st ++ d ++ a ++ o)
  | .lds64 st d a o => some (0x52#8 ++ st ++ d ++ a ++ o)
  | .sts64 st d a o => some (0x53#8 ++ st ++ d ++ a ++ o)
  | .ldw st d a o => some (0x54#8 ++ st ++ d ++ a ++ o)
  | .stw st d a o => some (0x55#8 ++ st ++ d ++ a ++ o)
  | .ldsp st d a o => some (0x56#8 ++ st ++ d ++ a ++ o)
  | .stsp st d a o => some (0x57#8 ++ st ++ d ++ a ++ o)
  | .ldd st d a o => some (0x58#8 ++ st ++ d ++ a ++ o)
  | .std st d a o => some (0x59#8 ++ st ++ d ++ a ++ o)
  | .ldc st d a o => some (0x5A#8 ++ st ++ d ++ a ++ o)
  | .atom st d a f p => some (0x5B#8 ++ st ++ d ++ a ++ f ++ p ++ 0#2)
  | .cas st d a p => some (0x5C#8 ++ st ++ d ++ a ++ 0#4 ++ p ++ 0#2)
  | .shfli st d a m c => some (0x60#8 ++ st ++ d ++ a ++ m ++ c)
  | .shfl st d a b c => some (0x61#8 ++ st ++ d ++ a ++ b ++ c)
  | .vote st p o n q => some (0x62#8 ++ st ++ p ++ o ++ n ++ 0#5 ++ q ++ 0#8)
  | .ballot st d h n p => some (0x63#8 ++ st ++ d ++ 0#9 ++ h ++ n ++ p)
  | .rdlane st d a i => some (0x64#8 ++ st ++ d ++ a ++ 0#1 ++ i)
  | .wrlane st d a i => some (0x65#8 ++ st ++ d ++ a ++ 0#1 ++ i)
  | .matchKeys st d a b c => some (0x66#8 ++ st ++ d ++ a ++ b ++ c)
  | .gen st d a g => some (0x68#8 ++ st ++ d ++ a ++ 0#5 ++ g)
  | .gent st d a g => some (0x69#8 ++ st ++ d ++ a ++ 0#5 ++ g)
  | .svc st d n => some (0x6C#8 ++ st ++ d ++ 0#2 ++ n)
  | .laneid st d => some (0x6D#8 ++ st ++ d ++ 0#15)
  | .brk st n => some (0x6E#8 ++ st ++ 0#7 ++ n)
  | .snop st => some (0x80#8 ++ st ++ 0#22)
  | .smov st d b => some (0x81#8 ++ st ++ d ++ 0#7 ++ b ++ 0#1)
  | .slimm st d i => some (0x82#8 ++ st ++ d ++ i)
  | .slimmh st d i => some (0x83#8 ++ st ++ d ++ i)
  | .sadd st d a b => some (0x84#8 ++ st ++ d ++ a ++ b ++ 0#1)
  | .ssub st d a b => some (0x85#8 ++ st ++ d ++ a ++ b ++ 0#1)
  | .saddi st d a i => some (0x86#8 ++ st ++ d ++ a ++ i)
  | .sadd64 st d a b => some (0x87#8 ++ st ++ d ++ a ++ b ++ 0#1)
  | .smul st d a b => some (0x88#8 ++ st ++ d ++ a ++ b ++ 0#1)
  | .smulhi st d a b u => some (0x89#8 ++ st ++ d ++ a ++ b ++ u)
  | .sand st d a b => some (0x8A#8 ++ st ++ d ++ a ++ b ++ 0#1)
  | .sor st d a b => some (0x8B#8 ++ st ++ d ++ a ++ b ++ 0#1)
  | .sxor st d a b => some (0x8C#8 ++ st ++ d ++ a ++ b ++ 0#1)
  | .sshl st d a b => some (0x8D#8 ++ st ++ d ++ a ++ b ++ 0#1)
  | .sshr st d a b => some (0x8E#8 ++ st ++ d ++ a ++ b ++ 0#1)
  | .ssar st d a b => some (0x8F#8 ++ st ++ d ++ a ++ b ++ 0#1)
  | .sshli st d a i => some (0x90#8 ++ st ++ d ++ a ++ i)
  | .sshri st d a i => some (0x91#8 ++ st ++ d ++ a ++ i)
  | .smin st d a b u => some (0x92#8 ++ st ++ d ++ a ++ b ++ u)
  | .smax st d a b u => some (0x93#8 ++ st ++ d ++ a ++ b ++ u)
  | .spopc st d a => some (0x94#8 ++ st ++ d ++ a ++ 0#8)
  | .sclz st d a => some (0x95#8 ++ st ++ d ++ a ++ 0#8)
  | .scmp st p c a b => some (0x96#8 ++ st ++ p ++ c ++ a ++ b ++ 0#1)
  | .ssel st d a p n => some (0x97#8 ++ st ++ d ++ a ++ p ++ n ++ 0#4)
  | .sfadd st d a b => some (0x98#8 ++ st ++ d ++ a ++ b ++ 0#1)
  | .sfmul st d a b => some (0x99#8 ++ st ++ d ++ a ++ b ++ 0#1)
  | .sffma st d a b => some (0x9A#8 ++ st ++ d ++ a ++ b ++ 0#1)
  | .sldc st d a i => some (0x9B#8 ++ st ++ d ++ a ++ i)
  | .slds st d a i => some (0x9C#8 ++ st ++ d ++ a ++ i)
  | .ssts st d a i => some (0x9D#8 ++ st ++ d ++ a ++ i)
  | .srd st d c l => some (0x9E#8 ++ st ++ d ++ 0#7 ++ c ++ l)
  | .swr st a c => some (0x9F#8 ++ st ++ 0#7 ++ a ++ c ++ 0#1)
  | .bra st p n o => some (0xA0#8 ++ st ++ p ++ n ++ o)
  | .br st p n o => some (0xA1#8 ++ st ++ p ++ n ++ o)
  | .join st => some (0xA2#8 ++ st ++ 0#22)
  | .jmp st o => some (0xA3#8 ++ st ++ 0#4 ++ o)
  | .call st o => some (0xA4#8 ++ st ++ 0#4 ++ o)
  | .ret st => some (0xA5#8 ++ st ++ 0#22)
  | .brx st a => some (0xA6#8 ++ st ++ 0#7 ++ a ++ 0#8)
  | .lhead st p n => some (0xA7#8 ++ st ++ 0#7 ++ p ++ n ++ 0#11)
  | .exit st => some (0xA8#8 ++ st ++ 0#22)
  | .sleep st i => some (0xA9#8 ++ st ++ 0#7 ++ i)
  | .emrd st d => some (0xAA#8 ++ st ++ d ++ 0#17)
  | .emwr st a => some (0xAB#8 ++ st ++ 0#7 ++ a ++ 0#10)
  | .emandReg st a => some (0xAC#8 ++ st ++ 0#7 ++ a ++ 0#10)
  | .emandPred st p n => some (0xAC#8 ++ st ++ 0#14 ++ p ++ n ++ 1#4)
  | .xlate st a m w r x => some (0xB0#8 ++ st ++ 0#7 ++ a ++ 0#3 ++ m ++ w ++ r ++ x)
  | .xrd st d n => some (0xB1#8 ++ st ++ d ++ 0#14 ++ n)
  | .xinv st m => some (0xB2#8 ++ st ++ 0#14 ++ m)
  | .fence st c k => some (0xB3#8 ++ st ++ 0#16 ++ c ++ 0#1 ++ k)
  | .ackrd st d => some (0xB4#8 ++ st ++ d ++ 0#15)
  | .icinv st c l => some (0xB5#8 ++ st ++ 0#16 ++ c ++ 0#2 ++ l)
  | .region st i => some (0xB6#8 ++ st ++ 0#14 ++ i)
  | .regend st => some (0xB7#8 ++ st ++ 0#22)
  | .cpy st d a k f => some (0xB8#8 ++ st ++ d ++ a ++ 0#3 ++ k ++ f)
  | .cpyg st d a k f => some (0xB9#8 ++ st ++ d ++ a ++ 0#3 ++ k ++ f)
  | .cpyr st d a k f => some (0xBA#8 ++ st ++ d ++ a ++ 0#3 ++ k ++ f)
  | .cpya st d a k f => some (0xBB#8 ++ st ++ d ++ a ++ 0#3 ++ k ++ f)
  | .cbatch st d => some (0xBC#8 ++ st ++ d ++ 0#15)
  | .waitb st a => some (0xBD#8 ++ st ++ 0#7 ++ a ++ 0#8)
  | .testc st d a b => some (0xBE#8 ++ st ++ d ++ a ++ b ++ 0#1)
  | .waitc st a b => some (0xBF#8 ++ st ++ 0#7 ++ a ++ b ++ 0#1)
  | .mma st d a k f => some (0xC0#8 ++ st ++ d ++ a ++ 0#3 ++ k ++ f)
  | .mmai st d a k f => some (0xC1#8 ++ st ++ d ++ a ++ 0#3 ++ k ++ f)
  | .ldst st d a k f => some (0xC2#8 ++ st ++ d ++ a ++ 0#3 ++ k ++ f)
  | .accz st d a k f => some (0xC3#8 ++ st ++ d ++ a ++ 0#3 ++ k ++ f)
  | .accrd st d a k f => some (0xC4#8 ++ st ++ d ++ a ++ 0#3 ++ k ++ f)
  | .accwr st d a k f => some (0xC5#8 ++ st ++ d ++ a ++ 0#3 ++ k ++ f)
  | .sacct st d a k f => some (0xC6#8 ++ st ++ d ++ a ++ 0#3 ++ k ++ f)
  | .opfence st => some (0xC7#8 ++ st ++ 0#22)
  | .waitm st a => some (0xC8#8 ++ st ++ 0#7 ++ a ++ 0#8)
  | .mseq st d a => some (0xC9#8 ++ st ++ d ++ a ++ 0#8)
  | .tailp st a r => some (0xCA#8 ++ st ++ 0#7 ++ a ++ 0#7 ++ r)
  | .gset st a g => some (0xCC#8 ++ st ++ 0#7 ++ a ++ 0#7 ++ g)
  | .grd st d g => some (0xCD#8 ++ st ++ d ++ 0#14 ++ g)
  | .gstep st => some (0xCE#8 ++ st ++ 0#22)
  | .kset st a k m => some (0xD0#8 ++ st ++ 0#7 ++ a ++ k ++ 0#2 ++ m)
  | .krd st d => some (0xD1#8 ++ st ++ d ++ 0#15)
  | .kclr st k => some (0xD2#8 ++ st ++ 0#14 ++ k ++ 0#4)
  | .bar st i => some (0xD3#8 ++ st ++ 0#19 ++ i)
  | .barc st => some (0xD4#8 ++ st ++ 0#22)
  | .barm st a i => some (0xD5#8 ++ st ++ 0#7 ++ a ++ 0#7 ++ i)
  | .arrive st i => some (0xD6#8 ++ st ++ 0#19 ++ i)
  | .await st i => some (0xD7#8 ++ st ++ 0#19 ++ i)
  | .barg st => some (0xD8#8 ++ st ++ 0#22)
  | .barinit st a i => some (0xD9#8 ++ st ++ 0#7 ++ a ++ 0#7 ++ i)
  | .barrd st d k i => some (0xDA#8 ++ st ++ d ++ 0#10 ++ k ++ i)
  | .qpush st a q => some (0xDB#8 ++ st ++ 0#7 ++ a ++ 0#4 ++ q ++ 0#4)
  | .launch st a => some (0xDC#8 ++ st ++ 0#7 ++ a ++ 0#12)
  | .shape st a => some (0xDD#8 ++ st ++ 0#7 ++ a ++ 0#10)
  | .arm st o a t c => some (0xDE#8 ++ st ++ o ++ 0#5 ++ a ++ t ++ c ++ 0#1)
  | .hring st a j f n => some (0xDF#8 ++ st ++ 0#7 ++ a ++ 0#2 ++ j ++ f ++ n ++ 0#2)
  | .hpost st a => some (0xE0#8 ++ st ++ 0#7 ++ a ++ 0#12)
  | .mapft st o a => some (0xE1#8 ++ st ++ o ++ 0#5 ++ a ++ 0#10)
  | .fqpost st a => some (0xE2#8 ++ st ++ 0#7 ++ a ++ 0#10)
  | .tlbinv st a => some (0xE3#8 ++ st ++ 0#7 ++ a ++ 0#10)
  | .trap st n => some (0xE4#8 ++ st ++ 0#6 ++ n)
  | .rft st r => some (0xE5#8 ++ st ++ 0#21 ++ r)
  | .srdp st d c => some (0xE6#8 ++ st ++ d ++ 0#7 ++ c ++ 0#1)
  | .swrp st a c => some (0xE7#8 ++ st ++ 0#7 ++ a ++ c ++ 0#1)
  | .sleepw st c a b => some (0xE8#8 ++ st ++ c ++ 0#5 ++ a ++ b ++ 0#1)
  | .fqtake st d w => some (0xE9#8 ++ st ++ d ++ 0#17 ++ w)
  | .svctake st d w => some (0xEA#8 ++ st ++ d ++ 0#17 ++ w)
  | .svcdone st a b => some (0xEB#8 ++ st ++ 0#7 ++ a ++ b ++ 0#1)
  | .groupWaitEnds _ => none
  | .storePerformed _ _ => none
  | .notify _ _ _ => none
  | .launchCmd _ => none
  | .copy _ => none
  | .wait _ => none
  | .waitReevaluate _ => none
  | .signal _ => none
  | .graph _ => none
  | .graphRunStart _ _ => none
  | .cond _ => none
  | .commandComplete _ => none
  | .queueOff _ _ => none
  | .completionRecord _ _ => none
  | .serviceSliceBoundary _ => none
  | .create _ _ _ _ _ => none
  | .setattr _ _ _ _ _ => none
  | .map _ _ _ _ _ => none
  | .unmap _ _ _ _ _ => none
  | .sealCtx _ _ _ _ _ => none
  | .suspend _ _ _ _ _ => none
  | .resume _ _ _ _ _ => none
  | .ckpt _ _ _ _ _ => none
  | .restore _ _ _ _ _ => none
  | .destroy _ _ _ _ _ => none
  | .wipeComplete _ => none
  | .claim _ _ _ _ _ => none
  | .unclaim _ _ _ _ _ => none
  | .update _ _ _ _ _ => none
  | .updateQuiesceTimeout => none
  | .flip _ _ => none
  | .biasFlipComplete _ => none
  | .errconsWrite _ _ => none
  | .registerWrite _ _ _ => none
  | .attestationRequest _ _ _ => none
  | .hostWrite _ _ _ => none
  | .hostRead _ _ => none
  | .atsInvalidation _ _ _ => none
  | .atsInvalidationTimeout _ => none
  | .gangPlace _ _ => none
  | .gangRelease _ => none
  | .blockRetire _ => none
  | .preempt _ _ => none
  | .gangResume _ => none
  | .holdDrain _ => none
  | .copyCommandStart _ => none
  | .copyChunkDone _ _ _ => none
  | .copyCommandComplete _ _ => none
  | .orderedReductionApply _ => none
  | .matrixCommandStart _ => none
  | .matrixCommandComplete _ _ => none
  | .softError _ _ _ => none
  | .correctedErrorThreshold _ => none
  | .portEnable _ => none
  | .trainingComplete _ _ _ _ => none
  | .trainingTimeout _ => none
  | .retrainTimer _ => none
  | .laneFailure _ => none
  | .lossOfLock _ => none
  | .portRetire _ => none
  | .idle _ _ => none
  | .pause _ _ => none
  | .retry _ _ => none
  | .snap _ _ => none
  | .barr _ _ => none
  | .whead _ _ => none
  | .wacc _ _ => none
  | .data _ _ => none
  | .rreq _ _ => none
  | .rhead _ _ => none
  | .atomFlit _ _ => none
  | .atomr _ _ => none
  | .ack _ _ => none
  | .radd _ _ => none
  | .operationTimeout _ _ => none
  | .hallEvent _ _ => none
  | .hallAck _ _ => none
  | .token _ _ => none
  | .stable _ _ => none
  | .recover _ _ => none
  | .reply _ _ => none
  | .ackWaitTimeout => none
  | .tokenTimeout => none
  | .recoveryCollect => none
  | .suspect _ => none
  | .wingFailover => none
  | .firstHeartbeat _ => none
  | .provisioningToken _ => none
  | .deploymentToken _ => none
  | .rmaToken _ => none
  | .repairToken _ => none
  | .decommissionToken _ => none
  | .packageReset => none
  | .budgetPeriod _ => none
  | .stateTableChange _ => none
  | .flitFailsCrc _ => none
  | .logicalDeviceBind _ _ _ _ => none
  | .powerLoss => none

/-- The bytes of an instruction as they lie in memory (R2). -/
def encodeBytes (i : Instr) : List Byte :=
  match encode i with
  | some w => [fld w 0 8, fld w 8 8, fld w 16 8, fld w 24 8]
  | none => []

/-- The instruction of an opcode-table row whose bits are w: one 32-bit word, laid out little-endian. Rows
without bits are events and have no word. -/
def decodeTableWord (nbits w : Nat) : Option Instr :=
  if 0 < nbits ∧ nbits ≤ 32 then
    let x := BitVec.ofNat 32 (w % 2 ^ nbits)
    match decodeBytes [fld x 0 8, fld x 8 8, fld x 16 8, fld x 24 8] with
    | .ok i => some i
    | .error _ => none
  else none

end Sys2Proof
end

