-- ==== Sys2Proof/Config.lean ====
section
/-!
DEFINITION. Config.lean: what one implementation fixes and the spec leaves open. Every constant here is opaque:
nothing can be proved of its value (log entries 4, 10, 15, 19).
-/
namespace Sys2Proof.Config

/-- An undefined value of R6: the n-th one drawn, at place k of the draw (log entry 4). -/
opaque freeWord : Nat → Nat → BitVec 32
/-- An undefined 128-bit value (a generator register after a region restart, R153). -/
opaque freeWide : Nat → Nat → BitVec 128
/-- An undefined predicate or byte. -/
opaque freeBit : Nat → Nat → Bool
opaque freeByte : Nat → Nat → BitVec 8

/-- Which of the writes that a read may return it returns, and how many periods pass before a store is performed: a finite
number (R234, R236, log entry 10). -/
opaque choice : Nat → Nat → Nat
opaque storeDelay : Nat → Nat → Nat

/-- SHAKE256 with 256 bits of output (R367, R381): of bytes. -/
opaque shake256 : List (BitVec 8) → BitVec 256
/-- The authentication tag of a checkpoint record under a key identifier (R80, R81). -/
opaque recordTag : Nat → List (BitVec 8) → BitVec 128
/-- Whether a signed image or token verifies under a public key of a hash, the fused one (R381, R389): hash, kind, bytes. -/
opaque signatureOk : BitVec 256 → Nat → List (BitVec 8) → Bool
/-- The security version and kind that a signed image carries (R381). -/
opaque imageVersion : List (BitVec 8) → Nat
opaque imageKind : List (BitVec 8) → Nat
/-- The major version of the state table that a wing's image accepts, and whether the image boots (R379). -/
opaque imageTable : List (BitVec 8) → Nat
opaque imageBoots : List (BitVec 8) → Bool
/-- Byte i of the signature of a quote under an attestation key with a leaf index, and of the certificate that an identity key
signs for an attestation key with one of its leaves (R380, R382). -/
opaque quoteSignature : Nat → List (BitVec 8) → Nat → BitVec 8
opaque certificate : Nat → Nat → Nat → BitVec 8
/-- The free tenant key identifiers a CREATE receives, out of those free, as places in the free list (R75). -/
opaque keyChoice : Nat → Nat
/-- Where in a die's service region the n-th error record for the service core stands, in records of 32 bytes (R386). -/
opaque recordPlace : Nat → Nat → Nat
/-- Which frame of a larder a MAPFT takes, as a place in the larder (R336). -/
opaque larderChoice : Nat → Nat

end Sys2Proof.Config
end

