-- ==== Sys2Proof/Machine/State.lean ====
section
/-!
DEFINITION. Machine/State.lean: the state of one Turlyn package (R9), unit by unit, as plain data, and the
state after reset (R390, R377). A field that a rule names carries the rule; a field of the model's own says so
(log entry 2). Every structure's field defaults are its release or reset values.
-/
namespace Sys2Proof.Machine

/-- A memory's bytes, in canonical form: addresses strictly rising, no byte zero; an unlisted byte reads as zero,
which is what the wipe of R390 leaves. -/
abbrev Memory := List Host.Cell

/-- The traps of R155. -/
inductive TrapCode where
  | illop | illconv | stallchk | bound | align | page | prot | keymix | owner | atroute
  | barmask | entry | brk | trapi | ecc | priv | svcfail
  deriving DecidableEq, Repr

/-- A register that the checking scoreboard covers (R40). -/
inductive Reg where
  | v (n : Nat) | s (n : Nat) | p (n : Nat) | x (n : Nat) | g (n : Nat)
  deriving DecidableEq, Repr

/-- A register write that is not yet readable in some threads before a cycle (R37). -/
structure Pending where
  reg : Reg
  threads : Mask
  ready : Nat
  deriving DecidableEq, Repr

/-- What a path waits for (R38); a waiting instruction issues again at each of its turns until the wait ends. -/
inductive Wait where
  | sleep (untilPeriod : Nat)          -- SLEEP (R147)
  | word (cc addr : Nat) (val : Word)  -- SLEEPW (R147)
  | wordMet                            -- SLEEPW whose word a write has made satisfying
  | fenced (pod : Bool) (upto : Nat)   -- a release: the group's copies into scratch, up to a number, and at pod scope its
                                       -- acknowledgements (R238)
  | acks                               -- the pod releases that wait for acknowledgements alone
  | pass (n : Nat)                     -- ATOM and CAS before their pass n (R224)
  | barrier (slot : Nat)               -- BAR, BARM, AWAIT after their arrival (R260)
  | rearrive (slot : Nat)              -- an arrival on a slot the group has already arrived at (R256)
  | cluster                            -- BARC after its arrival
  | grid (episode : Nat)               -- BARG after its arrival
  | batch (b : Nat)                    -- WAITB (R284)
  | chunks (base set : Nat)            -- WAITC (R282)
  | matrix (b : Nat)                   -- WAITM (R304)
  | ring (matrix : Bool) (acks : Nat)  -- a full ring, or no room for acknowledgements (R276, R299)
  | shape                              -- SRD of %param or %nblock (R130)
  | commit                             -- an effect held until the block commits (R126)
  | settled                            -- a store or atomic on die scratch behind the writes to it that its gang holds (R134)
  | drained                            -- an effect of a committed block whose held ones are still to be performed (R126)
  | item (handled : Mask)              -- LHEAD under REPLAY (R149): the threads it has dealt with
  | queueRoom (q : Nat)                -- QPUSH (R95)
  | children                           -- LAUNCH (R96)
  | hostRing (j : Nat)                 -- HRING (R98)
  | callRing (n : Nat)                 -- SVC before its batch is appended (R99)
  | answer (id : Nat)                  -- SVC after
  | batchToTake                        -- SVCTAKE.w (R102)
  | faultToTake                        -- FQTAKE.w (R339)
  | faultRoom                          -- FQPOST before its entry is appended (R338)
  | faultAnswer (part seq : Nat)       -- FQPOST after: the entry of a partition's queue
  | copiesDone (page n ctx : Nat) (cmds ops : List (Nat × Nat))  -- TLBINV (R340): the commands (block, sequence) and the
                                       -- operations of other members (source, tag) that it waits for
  | hallRoom                           -- HPOST and SHAPE with 256 pending events (R364)
  deriving DecidableEq, Repr

/-- An entry of a divergence stack (R142). -/
structure StackEntry where
  m : Mask := 0
  s : Mask := 0
  f : Mask := 0
  fpc : Addr := 0
  second : Bool := false
  cont : Option Addr := none
  deriving DecidableEq, Repr

/-- A path runs, is parked at a JOIN, or has ended (R143, R145). -/
inductive PathState where
  | running
  | parked (cont : Addr)
  | ended
  deriving DecidableEq, Repr

/-- A path of a group (R136, R138). -/
structure Path where
  pc : Addr := 0
  mask : Mask := 0
  scope : Mask := 0
  stall : Nat := 0
  stack : List StackEntry := []
  rstack : List Addr := []
  st : PathState := .running
  wait : Option Wait := none
  deriving DecidableEq, Repr

inductive GroupState where
  | new | runnable | waiting | preempted | trapped | retired
  deriving DecidableEq, Repr

/-- A translation register (R328); the default is the invalid register of release. -/
structure XReg where
  base : Addr := 0
  pa : Nat := 0
  limit : Nat := 0
  r : Bool := false
  w : Bool := false
  x : Bool := false
  cls : Nat := 0
  key : Nat := 0
  level : Nat := 0
  valid : Bool := false
  remote : Bool := false
  deriving DecidableEq, Repr

/-- The supervisor state of R161, and the unit of the trap being served (R338). -/
structure TrapRegs where
  code : BitVec 8 := 0
  pc : Word := 0
  addr : Addr := 0
  info : BitVec 16 := 0
  mask : Mask := 0
  unit : Nat := 0
  deriving DecidableEq, Repr

/-- An open idempotent region (R150); `id` tells this opening from others. -/
structure OpenRegion where
  id : Nat := 0
  index : Nat := 0
  start : Addr := 0
  mask : Mask := 0
  live : Mask := 0
  written : List Reg := []
  deriving DecidableEq, Repr

/-- A store issued and not yet performed at its home (R236): the period from which it may be, the groups of its core that
have read it before, and a stamp by which later stores come after it. -/
structure PendStore where
  mem : MemName
  addr : Nat
  bytes : List Byte
  ready : Nat := 0
  peeked : List Nat := []
  stamp : Nat := 0
  deriving DecidableEq, Repr

/-- A write performed in scratch, and the bytes it replaced: by a group, or by an engine of a block for one of its commands
(whether the matrix engine's, and its number). The number of a write is its place in the log, the oldest 1 (R235). -/
structure Written where
  mem : MemName
  addr : Nat
  old : List Byte
  agent : Nat := 0
  cmd : Option (Bool × Nat) := none
  atomic : Bool := false
  deriving DecidableEq, Repr

/-- What an agent must observe: the writes of the log by number, every atomic write up to one, and the matrix commands whose
retirement it has observed, by block: all up to a number, and single ones (R235, R239, R303). -/
structure View where
  saw : List Nat := []
  upTo : Nat := 0
  mobs : Map Nat := []
  mobsOne : List (Nat × Nat) := []
  deriving DecidableEq, Repr

/-- A release that a group has performed (R238): where the group is, the scope, the writes performed by then, what the release
covers, and whether it is a full fence's; `why` is 1 for that of the group's end (R254), 2 for that of a SHAPE, whose launch
`shape` names (R130), 3 for that of the end of a block with its engines (R113), else 0. -/
structure Release where
  agent : Nat := 0
  blk : Nat := 0
  gang : Nat := 0
  kern : Nat := 0
  core : Nat := 0
  scope : Nat := 0
  at_ : Nat := 0
  view : View := {}
  full : Bool := false
  why : Nat := 0
  shape : Nat × Nat × Nat × Word := (0, 0, 0, 0)
  deriving DecidableEq, Repr

/-- A load that may still be performed again, with a later write, until its register is readable (R236): the register of a thread,
the place, and the period in which it issued. -/
structure OpenLoad where
  reg : Reg
  thread : Nat := 0
  mem : MemName
  addr : Nat := 0
  since : Nat := 0
  deriving DecidableEq, Repr

/-- A group (R136). `supArm` is the arm that took the trap being served, where there were two (R140); `headed` are the threads
that have been at an LHEAD (R118). `view` is what it must observe, with every write up to number `born`; `port` what a matrix command of it
must (R301); `heard` the last write of each other agent that it has read, or a later one, `heardTop` the last write it has
read, `heardDone` the copy completion count it has read: what an acquire acts on (R240, R241); `past` what the kernels that had
completed when the group was made had written (R113); `loads` the loads that are not yet final (R236); `olds` what the passes of
an ATOM or CAS have read so far (R224). -/
structure Group where
  blk : Nat := 0
  index : Nat := 0
  role : Nat := 0
  width : Nat := 32
  allot : Nat := 0
  core : Nat := 0
  half : Nat := 0
  slot : Nat := 0
  entry : Addr := 0
  state : GroupState := .new
  pathA : Path := {}
  pathB : Path := {}
  two : Bool := false
  lastB : Bool := false
  onB : Bool := false
  pairM : Mask := 0
  pairS : Mask := 0
  live : Mask := 0
  v : Map (List Word) := []
  s : Map Word := []
  p : Map Mask := []
  x : Map XReg := []
  g : Map (BitVec 128) := []
  pend : List Pending := []
  early : List (Reg × Mask) := []
  sup : Bool := false
  supArm : Option Bool := none
  trap : TrapRegs := {}
  region : Option OpenRegion := none
  batch : Nat := 0
  ack : Nat := 0
  item : Map Word := []
  headed : Mask := 0
  cychi : Word := 0
  bargs : Nat := 0
  owed : List Nat := []
  spill : Memory := []
  stores : List PendStore := []
  born : Nat := 0
  view : View := {}
  port : View := {}
  heard : Map Nat := []
  heardTop : Nat := 0
  heardDone : Nat := 0
  past : View := {}
  loads : List OpenLoad := []
  olds : Map Word := []
  answered : Map (Nat × List (BitVec 64)) := []
  deriving DecidableEq, Repr

/-- A translation leaf (R324): the pages of level 0, 1 and 2 are 64 KiB, 2 MiB and 1 GiB. `st` is 0 PRESENT,
1 TOUCH, 2 ABSENT, 3 RETRACT; `owner` is the kernel and logical block that a RETRACT frame is recorded against; `broken`
marks an entry with an uncorrectable error, which is treated as not valid. -/
structure Leaf where
  va : Nat := 0
  level : Nat := 0
  frame : Nat := 0
  key : Nat := 0
  st : Nat := 0
  cls : Nat := 0
  x : Bool := false
  w : Bool := false
  r : Bool := false
  owner : Nat × Nat := (0, 0)
  broken : Bool := false
  deriving DecidableEq, Repr

/-- The status of an engine command (R279, R292); `held` is a completion withheld (R126). -/
inductive CmdStatus where
  | ok | discarded | entry | page | prot | owner | atroute | ecc | chained
  deriving DecidableEq, Repr

/-- The progress of an engine command. -/
inductive CmdPhase where
  | queued
  | started
  | done (st : CmdStatus)
  deriving DecidableEq, Repr

/-- A command of a pantry ring (R268, R276, R289): its image and what it captured; `scratch` marks a copy that writes
scratch (R238). -/
structure Cmd where
  seq : Nat := 0
  img : List Word := []
  grp : Nat := 0
  batch : Nat := 0
  gen : Nat := 0
  xs : Map XReg := []
  gs : Map (BitVec 128) := []
  region : Option Nat := none
  phase : CmdPhase := .queued
  chunks : List Nat := []
  owedAcks : Nat := 0
  remote : Bool := false
  scratch : Bool := false
  member : Nat := 0
  touched : List Nat := []
  stale : List (Nat × Nat) := []
  errAddr : Addr := 0
  reported : Bool := true
  outcome : Option CmdStatus := none
  deriving DecidableEq, Repr

/-- A pantry ring (R268): tail, completion count, and the commands that may still matter. -/
structure Ring where
  tail : Nat := 0
  done : Nat := 0
  cmds : List Cmd := []
  deriving DecidableEq, Repr

/-- A guard slot (R290): the current generation and the resolution of every resolved generation. -/
structure Guard where
  gen : Nat := 0
  res : Map Bool := []
  deriving DecidableEq, Repr

/-- A block barrier slot (R256); `join` is what the arrivals of the phase cover, `met` what those of the last complete one
did (R261). -/
structure BarSlot where
  phase : Nat := 0
  filling : Bool := false
  mask : Mask := 0
  members : Mask := 0
  arrived : Mask := 0
  join : View := {}
  met : Map View := []
  deriving DecidableEq, Repr

/-- A word of an ordered reduction (R275): its place in device memory, its address as the command names it, the frame's key, and
the element to add, none where it is undefined (R271). -/
structure RaddWord where
  pa : Nat := 0
  va : Addr := 0
  key : Nat := 0
  val : Option Word := none
  deriving DecidableEq, Repr

/-- A held write of a speculative block (R127): staging sequence, physical or remote target, data, atomic operand or
ordered reduction. `stamp` orders the entries of a gang; `sent` marks one under way at its home. -/
structure HeldEntry where
  seq : Nat := 0
  stamp : Nat := 0
  release : Bool := false
  cmdSeq : Nat := 0
  grp : Nat := 0
  batch : Nat := 0
  mem : MemName := .dev
  addr : Nat := 0
  key : Nat := 0
  va : Addr := 0
  data : List Byte := []
  words : List RaddWord := []
  atomic : Option (Nat × Bool × BitVec 64 × BitVec 64) := none
  ret : Option Nat := none
  radd : Option (Nat × Nat) := none
  base : Nat := 0
  remote : Bool := false
  pod : Addr := 0
  space : Nat := 1
  sent : Bool := false
  deriving DecidableEq, Repr

/-- A run of bytes, or of tile elements, that a matrix command touches: space 0 block window, 1 die scratch, 2 slots,
3 tiles (element 16384 × tile + 128 × row + column). -/
structure Span where
  sp : Nat := 0
  lo : Nat := 0
  n : Nat := 0
  deriving DecidableEq, Repr

/-- What R301 and R303 need of a matrix command: its predecessors in every degree, what its reads must observe (writes up to
number `born`, and `port`), what it reads and writes, what others wrote of that meanwhile; 0 queued, 1 started,
2 completed, with the writes performed in scratch by then. -/
structure MTouch where
  seq : Nat := 0
  grp : Nat := 0
  anc : List Nat := []
  born : Nat := 0
  port : View := {}
  reads : List Span := []
  writes : List Span := []
  dirty : List Span := []
  st : Nat := 0
  by_ : Nat := 0
  deriving DecidableEq, Repr

/-- A service-call batch (R99). -/
structure Batch where
  id : Nat := 0
  call : Nat := 0
  threads : Mask := 0
  args : List Word := []
  grp : Nat := 0
  width : Nat := 32
  retry : Nat := 0
  deriving DecidableEq, Repr

/-- An instruction effect held until commit (R126), in program order. -/
inductive HeldEffect where
  | qpush (q : Nat) (img : List Word)
  | launch (img : List Word)
  | arm (slot c op : Nat) (val : Word)
  | hring (j : Nat) (words : Option (List Word)) (flush : Bool)
  | shape (grp : Nat) (image : Addr) (count param : Word)
  | svc (batch : Batch)
  deriving DecidableEq, Repr

/-- What a fatal trap reports (R157, R388). -/
structure TrapReport where
  grp : Nat := 0
  code : TrapCode := .illop
  unit : Nat := 0
  word : Nat := 0
  addr : Addr := 0
  hasPage : Bool := false
  deriving DecidableEq, Repr

/-- A block (R19, R108 to R112). -/
structure Block where
  kern : Nat := 0
  gang : Nat := 0
  logical : Nat := 0
  rank : Nat := 0
  ctx : Nat := 0
  world : Nat := 0
  part : Nat := 0
  die : Nat := 0
  cluster : Nat := 0
  base : Nat := 0
  kmode : Bool := false
  groups : List Nat := []
  spec : Bool := false
  trapped : Bool := false
  released : Nat := 0
  win : Memory := []
  ringMem : Memory := []
  copy : Ring := {}
  matrix : Ring := {}
  chunks : Map Nat := []
  guards : Map Guard := []
  tiles : Map Word := []
  slots : Memory := []
  tilesUsed : List Nat := []
  slotsUsed : List Nat := []
  touches : List MTouch := []
  bars : Map BarSlot := []
  qnext : Word := 0
  qend : Word := 0
  progress : Word := 0
  stepReq : Bool := false
  held : List HeldEntry := []
  heldSeq : Nat := 0
  relNext : Bool := false
  effects : List HeldEffect := []
  report : Option TrapReport := none
  deriving DecidableEq, Repr

/-- A gang (R104, R107, R253): its blocks, and the groups that have issued BARC in the cluster barrier's phase. -/
structure Gang where
  kern : Nat := 0
  rank : Nat := 0
  index : Nat := 0
  blocks : List Nat := []
  cluster : Nat := 0
  released : Bool := false
  saved : Bool := false
  regionFlushed : Bool := false
  draining : Bool := false
  phase : Nat := 0
  arrived : List Nat := []
  join : View := {}
  met : View := {}
  deriving DecidableEq, Repr

/-- A role entry (R50). -/
structure Role where
  regs : Nat := 0
  groups : Nat := 0
  width : Nat := 0
  entry : Nat := 0
  deriving DecidableEq, Repr

/-- The fields of a kernel image header (R49) and its region table (R51). -/
structure Header where
  magic : Nat := 0
  version : Nat := 3
  flags : Nat := 0
  nrole : Nat := 1
  cores : Nat := 0
  threads : Nat := 0
  gang : Nat := 1
  window : Nat := 0
  winbytes : Nat := 0
  spill : Nat := 0
  policy : Nat := 0
  bound : Nat := 0
  codeoff : Nat := 0x80
  ncode : Nat := 0
  constoff : Nat := 0
  constlen : Nat := 0
  dataoff : Nat := 0
  datalen : Nat := 0
  regoff : Nat := 0
  nregion : Nat := 0
  roles : List Role := []
  image : Nat := 0
  handler : Nat := 0xFFFFFFFF
  check : Nat := 0
  reserved : Bool := false
  regions : List (Nat × Nat) := []
  deriving DecidableEq, Repr

/-- What this chip keeps of a kernel beside the replicated state (R104 to R118, R253, R263). `read` are the ranks for which it
has read the image, `hdrs` the header it read for each (R52); `since` is where its launch began in the log of the writes of
device and host memory (R217); `spoilt` marks a trace area that two kernels record into (R117). -/
structure Kern where
  ctx : Nat := 0
  world : Nat := 0
  image : Nat := 0
  hdr : Header := {}
  hdrs : Map Header := []
  read : List Nat := []
  launch : Nat := 0
  x : Nat := 1
  y : Nat := 1
  z : Nat := 1
  nrank : Nat := 0
  param : Word := 0
  args : List Word := []
  step : BitVec 64 := 0
  mode : Nat := 0
  next : Map Nat := []
  todo : Map (List Nat) := []
  openBlocks : Map Nat := []
  reqs : List Nat := []
  finished : List Nat := []
  episode : Nat := 0
  rankArr : Map (List Nat) := []
  sentArr : List (Nat × Nat) := []
  diverged : List Nat := []
  itemPos : Map Nat := []
  join : View := {}
  met : View := {}
  since : Nat := 0
  spoilt : Bool := false
  dead : Bool := false
  killed : Bool := false
  deriving DecidableEq, Repr

/-- One core (R13): its cycle counter's origin, constant banks, cached code words and loop buffers. -/
structure LoopBuf where
  ctx : Nat := 0
  start : Nat := 0
  words : List Word := []
  deriving DecidableEq, Repr
structure Core where
  banks : Map Memory := []
  icache : Map Word := []
  loop0 : Option LoopBuf := none
  loop1 : Option LoopBuf := none
  deriving DecidableEq, Repr

/-- Frame ownership (R333): use 0 free, 1 larder, 2 owned, 3 retractable; bias 0 device, 1 host, 2, 3 flipping. -/
structure Own where
  key : Nat := 0
  world : Nat := 0
  use : Nat := 0
  bias : Nat := 0
  deriving DecidableEq, Repr

/-- A cached walk result (R329). -/
structure TlbEntry where
  ctx : Nat := 0
  page : Nat := 0
  leaf : Option Leaf := none
  deriving DecidableEq, Repr

/-- Context states (R75). -/
inductive CtxState where
  | free | assembling | sealed | suspended | teardown
  deriving DecidableEq, Repr

/-- Queue states (R84). -/
inductive QState where
  | off | ready | running | stalled | halted
  deriving DecidableEq, Repr

/-- A started queue command (R86): its image and its outcome once known. -/
structure RunCmd where
  seq : Nat := 0
  img : List Word := []
  out : Option Nat := none
  recorded : Bool := false
  fin : Bool := false
  deriving DecidableEq, Repr

/-- A queue (R83, R84): the device's own copies; `met` is set once the word of the WAIT at its head has satisfied it (R85). -/
structure Queue where
  st : QState := .off
  base : Addr := 0
  n : Nat := 0
  prio : Nat := 0
  fed : Bool := false
  enable : Bool := false
  closing : Bool := false
  head : Nat := 0
  done : Nat := 0
  tail : Nat := 0
  err : Nat := 0
  errSeq : Nat := 0
  cmds : List RunCmd := []
  latched : Bool := false
  met : Bool := false
  deriving DecidableEq, Repr

/-- A node of a running graph (R89): 0 waiting, 1 started, 2 completed, 3 skipped; `met` as for a queue. -/
structure Node where
  img : List Word := []
  st : Nat := 0
  out : Option Nat := none
  recorded : Bool := false
  condFalse : Bool := false
  met : Bool := false
  deriving DecidableEq, Repr

/-- A graph slot (R85, R89). -/
structure Graph where
  running : Bool := false
  queue : Nat := 0
  seq : Nat := 0
  array : Addr := 0
  nodes : Nat := 0
  limit : Nat := 0
  runs : Nat := 0
  inRun : Bool := false
  list : List Node := []
  c : Map Word := []
  deriving DecidableEq, Repr

/-- A WAIT node that had started when its graph failed (R87, R93): the graph's slot and command, the node's index, the node. -/
structure OldWait where
  slot : Nat := 0
  index : Nat := 0
  queue : Nat := 0
  seq : Nat := 0
  node : Node := {}
  deriving DecidableEq, Repr

/-- A host ring (R92): the device's copies. -/
structure HRing where
  prod : Nat := 0
  pending : Nat := 0
  deriving DecidableEq, Repr

/-- A completion record waiting for room (R93). -/
structure WaitRec where
  ring : Nat := 0
  words : List Word := []
  src : Option CmdRef := none
  deriving DecidableEq, Repr

/-- A context (R73 to R82); `svcw` is the weight that its last notification read (R83). -/
structure Ctx where
  st : CtxState := .free
  world : Nat := 0
  keys : List Nat := []
  secrets : List Nat := []
  larder : Nat := 0
  prot : Bool := true
  check : Bool := false
  mode : Nat := 0
  parts : BitVec 24 := 0
  fn : Nat := 0
  ld : Nat := 0
  slot : Nat := 0
  cpPage : Nat := 0
  svcw : Nat := 0
  measurement : BitVec 256 := 0
  budget : Map Nat := []
  left : Map Int := []
  taken : List Nat := []
  claims : Map Nat := []
  queues : Map Queue := []
  graphs : Map Graph := []
  oldWaits : List OldWait := []
  rings : Map HRing := []
  records : List WaitRec := []
  calls : Map (List Batch) := []
  leaves : List Leaf := []
  suspendFn : Option Nat := none
  bound : Nat := 0
  destroyFn : Option Nat := none
  step : BitVec 64 := 0
  applied : List Nat := []
  corrected : List Nat := []
  deriving DecidableEq, Repr

/-- A host-visible function (R355, R387). -/
structure Fn where
  arg0 : Addr := 0
  arg1 : Addr := 0
  arg2 : Addr := 0
  arg3 : Addr := 0
  status : Nat := 0
  busy : Bool := false
  result : Nat := 0
  keys : List Nat := []
  flip : Addr := 0
  flipst : Nat := 0
  errBase : Nat := 0
  errCfg : Nat := 0
  errProd : Nat := 0
  errOver : Bool := false
  errCons : Nat := 0
  errCount : Nat := 0
  regs : Map Addr := []
  deriving DecidableEq, Repr

/-- A logical device (R76, R354, R356): host windows (base, bytes), whether its path carries AtomicOps, the CXL port it is
reached through, and the virtual functions that belong to it. -/
structure LDev where
  bound : Bool := false
  windows : List (Nat × Nat) := []
  atomics : Bool := false
  port : Nat := 0
  vfs : List Nat := []
  deriving DecidableEq, Repr

/-- An ATS invalidation whose completion is withheld (R357): the commands, the operations of other members as (source, tag), and
the held writes as (block, entry), that must end first. -/
structure Ats where
  ld : Nat := 0
  addr : Nat := 0
  n : Nat := 0
  cmds : List (Nat × Nat) := []
  ops : List (Nat × Nat) := []
  held : List (Nat × Nat) := []
  deriving DecidableEq, Repr

/-- A bias flip in progress (R334): the commands that must complete first. -/
structure FlipOp where
  fn : Nat := 0
  frame : Nat := 0
  toDevice : Bool := false
  cmds : List (Nat × Nat) := []
  deriving DecidableEq, Repr

/-- A batch area of a service core (R102). -/
structure Area where
  ctx : Nat := 0
  part : Nat := 0
  batch : Batch := {}
  start : Nat := 0
  deriving DecidableEq, Repr

/-- A service core (R100 to R103): the partition whose slice runs and the period in which it ends, round-robin state, busy
areas, image. -/
structure Service where
  part : Nat := 0
  stop : Nat := 0
  world : Nat := 0
  credit : Map Nat := []
  pos : Nat := 0
  areas : Map Area := []
  image : List Byte := []
  newImage : Option (List Byte) := none
  gangs : List Nat := []
  records : List (List Word) := []
  deriving DecidableEq, Repr

/-- A fault-queue entry (R337). -/
structure FaultEntry where
  seq : Nat := 0
  words : List Word := []
  va : Nat := 0
  ctx : Nat := 0
  taken : Bool := false
  retry : Nat := 0
  word : Nat := 0
  deriving DecidableEq, Repr
structure FaultQueue where
  seq : Nat := 0
  entries : List FaultEntry := []
  deriving DecidableEq, Repr

/-- Port states (R343). -/
inductive PortState where
  | down | training | up | degraded | fenced | retired
  deriving DecidableEq, Repr

/-- A chip-to-chip port (R342 to R348); `retries` counts the RETRYs for flit `retryOf` since a lack last covered one; `serving` and `quota` are the partition whose turn its request channel is at, and the
flits left of that turn (R353). -/
structure Port where
  st : PortState := .down
  lanes : Nat := 8
  fails : Nat := 0
  far : Nat := 0
  txSeq : Nat := 1
  rxSeq : Nat := 1
  replay : List Flit := []
  retries : Nat := 0
  retryOf : Nat := 0
  pauseSeen : BitVec 3 := 0
  pauseSent : BitVec 3 := 0
  serving : Nat := 0
  quota : Nat := 0
  sendQ : List Flit := []
  deriving DecidableEq, Repr

/-- An operation this chip has started towards a member (R349, R352): kind 0 put, 1 get, 2 atomic, 3 reduction. `port` is its
route, `lead` the first tag of a reduction of several, `started` whether its head has left. `head` is the payload of its head
flit, `data` what a put sends; a get's bytes gather in `inbuf`, and go from byte `first` of
them, `len` bytes, to the local place. -/
structure SrcOp where
  dst : Nat := 0
  tag : Nat := 0
  n : Nat := 1
  kind : Nat := 0
  blk : Nat := 0
  seq : Nat := 0
  grp : Nat := 0
  world : Nat := 0
  ctx : Nat := 0
  head : List Byte := []
  data : List Byte := []
  unacked : List Nat := []
  dataSent : Bool := false
  mem : MemName := .dev
  addr : Nat := 0
  first : Nat := 0
  len : Nat := 0
  inbuf : List Byte := []
  okHead : Bool := false
  started : Bool := false
  port : Nat := 24
  lead : Nat := 0
  pod : Addr := 0
  heldSeq : Option Nat := none
  deriving DecidableEq, Repr

/-- An operation another member has started here (R352): from its WACC or RHEAD to its last ACK. Words outside the
masks of the first and last granule are not written; `index` granules are performed, `acked` of them acknowledged. An ordered
reduction has its turn word and the first tag and number of its parts. -/
structure DstOp where
  src : Nat := 0
  tag : Nat := 0
  kind : Nat := 0
  world : Nat := 0
  ctx : Nat := 0
  va : Nat := 0
  mem : MemName := .dev
  pa : Nat := 0
  n : Nat := 0
  first : Nat := 0
  last : Nat := 0
  turn : Nat := 0
  turnVa : Nat := 0
  lead : Nat := 0
  parts : Nat := 1
  f : Nat := 0
  got : List Byte := []
  index : Nat := 0
  acked : Nat := 0
  deriving DecidableEq, Repr

/-- An operation that this chip has taken from another member (R349), the route of its answers, and the flits that answered
it. -/
structure Seen where
  src : Nat := 0
  tag : Nat := 0
  port : Nat := 24
  reply : List Flit := []
  deriving DecidableEq, Repr

/-- An ordered-reduction contribution waiting at its home (R275): the words it adds and the turn word; local ones name their
command or held entry, remote ones their source and first tag. -/
structure Contribution where
  words : List RaddWord := []
  turn : RaddWord := {}
  want : Nat := 0
  blk : Nat := 0
  seq : Nat := 0
  heldSeq : Option Nat := none
  remote : Option (Nat × Nat) := none
  ctx : Nat := 0
  deriving DecidableEq, Repr

/-- A hall event record (R360). -/
structure HEvent where
  seq : Nat := 0
  kernel : Nat := 0
  origin : Nat := 0
  kind : Nat := 0
  part : Nat := 0
  ctx : Nat := 0
  world : Nat := 0
  halt : Nat := 0
  pay : List Byte := []
  deriving DecidableEq, Repr

/-- A context row of the replicated state (R365). -/
structure CtxRow where
  ordinal : Nat := 0
  step : BitVec 64 := 0
  suspended : Bool := false
  bound : Nat := 0
  deriving DecidableEq, Repr

/-- A kernel-table row (R365): state 0 WAITING, 1 PLACED. -/
structure KRow where
  ctx : Nat := 0
  world : Nat := 0
  origin : Nat := 0
  pay0 : List Byte := []
  pay1 : List Byte := []
  launch : Nat := 0
  step : BitVec 64 := 0
  st : Nat := 0
  finished : List Nat := []
  stepReq : Bool := false
  predicted : Nat := 0
  launched : Nat := 0
  resolved : Option (Nat × Word) := none
  atSubmit : Bool := false
  deriving DecidableEq, Repr

/-- A predictor entry (R123), most recent count first. -/
structure PredEntry where
  ctx : Nat := 0
  image : Nat := 0
  h : List Nat := []
  last : Nat := 0
  deriving DecidableEq, Repr

structure PendResolve where
  ctx : Nat := 0
  seq : Nat := 0
  image : Nat := 0
  count : Nat := 0
  param : Word := 0
  deriving DecidableEq, Repr

/-- A placement row (R365), under key 48 × member + cluster. -/
structure PRow where
  ctx : Nat := 0
  kernel : Nat := 0
  rank : Nat := 0
  deriving DecidableEq, Repr

structure Tally where
  c : Nat := 0
  member : Nat := 0
  digest : BitVec 256 := 0
  halt : Bool := false
  deriving DecidableEq, Repr

/-- The replicated scheduler state (R365). -/
structure Repl where
  view : Nat := 0
  members : BitVec 256 := 0
  condemned : BitVec 256 := 0
  halt : Bool := false
  haltAt : Nat := 0
  last : Nat := 0
  ctxs : Map CtxRow := []
  queues : Map Nat := []
  kernels : Map KRow := []
  preds : List PredEntry := []
  resolves : List PendResolve := []
  place : Map PRow := []
  tallies : List Tally := []
  deriving DecidableEq, Repr

/-- The recovery of a member (R371): replies as (member, received, delivered), the event the collector still fetches up
to, and whether a recovery without a majority has halted scheduling. -/
structure Recovery where
  active : Bool := false
  routes : List Nat := []
  replies : List (Nat × Nat × Nat) := []
  want : Option Nat := none
  halted : Bool := false
  deriving DecidableEq, Repr

/-- The joiner's progress (R373): 0 a snapshot to ask for, 1 asked, 2 applying the tail, 3 JOIN asked, 4 a member; the
lowest neighbour to try, the snapshot so far, its last event, the joiner's own digests, whether LOSS or FENCEOUT took the chip out
of a view (it then forms none by itself), and up to which event it fetches what a lost source has not forwarded (R374). -/
structure Joiner where
  phase : Nat := 0
  source : Nat := 0
  after : Nat := 0
  buf : List Byte := []
  n : Nat := 0
  digests : Map (BitVec 256) := []
  out : Bool := false
  fetch : Option Nat := none
  deriving DecidableEq, Repr

/-- What the origin keeps of a launch to write its completion (R365, R93); `ref` is none for a launch made by LAUNCH, and for a
node whose graph has failed, which keeps its index and its command's sequence number for its record. -/
structure Launcher where
  ref : Option CmdRef := none
  ctx : Nat := 0
  record : Bool := false
  ring : Nat := 0
  tag : Nat := 0
  queue : Nat := 0
  node : Option (Nat × Nat) := none
  deriving DecidableEq, Repr

/-- The hall of this member (R359 to R376). `posted` holds the launchers of SUBMITs not yet delivered, in posting order;
`origins` those of kernels in the table, by kernel identifier; `among` the members whose ACKs a recovered token's first
visit awaits; `since` when a member joined; `bindings` the partitions that another member has bound to a context, under
1024 × member + context, with 2^24 × its world. -/
structure Hall where
  self : Nat := 0
  configured : List Nat := []
  repl : Repl := {}
  pending : List HEvent := []
  recv : List HEvent := []
  delivered : Nat := 0
  acked : Nat := 0
  history : List HEvent := []
  kept : List HEvent := []
  backlog : List HEvent := []
  half : Option HEvent := none
  token : Option (Nat × Nat × Nat) := none
  awaiting : Bool := false
  acks : Map Nat := []
  recov : Recovery := {}
  joiner : Joiner := {}
  among : Option (List Nat) := none
  joinHelp : List Nat := []
  voted : List Nat := []
  voteFrom : Nat := 0
  since : Map Nat := []
  bindings : Map Nat := []
  posted : List Launcher := []
  origins : Map Launcher := []
  deriving DecidableEq, Repr

/-- Life-cycle states (R389). -/
inductive Life where
  | raw | provisioned | deployed | rma | decommissioned
  deriving DecidableEq, Repr

/-- A live update in progress (R379). -/
structure Update where
  fn : Nat := 0
  image : List Byte := []
  deriving DecidableEq, Repr

/-- The package's firmware and non-volatile state (R377 to R390); the fuses, leaf indices and certificate survive a reset.
`standbyDown` is a standby wing that did not boot, `noWing` that no wing is active (R378, R379); `tableMajor` is the major
version of the state table. -/
structure Pkg where
  life : Life := .raw
  minVersion : Nat := 0
  keyHash : BitVec 256 := 0
  eastActive : Bool := true
  standbyDown : Bool := false
  noWing : Bool := false
  tableMajor : Nat := 0
  wingImages : Map (List Byte) := []
  secImage : List Byte := []
  secNext : List Byte := []
  measure : Map (BitVec 256) := []
  idLeaf : Nat := 0
  attLeaf : Nat := 0
  idKeys : Nat := 0
  attCert : List Byte := []
  update : Option Update := none
  waitingCmds : List Instr := []
  lostCmds : List Instr := []
  waitingNotes : List (Nat × Nat × Word) := []
  power : Bool := true
  world : Map Nat := []
  pmap : Map Nat := []
  windowsBound : Bool := false
  carve : Map Nat := []
  larders : Map (List Nat) := []
  slices : Map Nat := []
  routes : Map (List Nat) := []
  weights : Map Nat := []
  allots : Map Nat := []
  atsLimit : Nat := 4194304
  log : List (List Word) := []
  deriving DecidableEq, Repr

/-- What the package sends out (R355, R387, R382, R344). -/
inductive Out where
  | flit (p : Nat) (fl : Flit)
  | interrupt (f vec : Nat)
  | readData (bytes : List Byte)
  | atsDone (ld addr n : Nat)
  | quote (f : Nat) (bytes : List Byte)
  | spdmError (f status : Nat)
  deriving DecidableEq, Repr

/-- Uses of tags and channel-0 numbers of the links (R349, R350); `transit` holds the flits that wait in a receive buffer, by the
port they came in at (R348). -/
structure Links where
  ports : Map Port := []
  nextTag : Map Nat := []
  seen : List Seen := []
  ch0Tx : Map Nat := []
  ch0Rx : Map Nat := []
  ch0Held : List Flit := []
  ch0New : List Nat := []
  transit : List (Nat × Flit) := []
  src : List SrcOp := []
  dst : List DstOp := []
  contribs : List Contribution := []
  deriving DecidableEq, Repr

/-- What a checkpoint record holds beside its header (R80): step counter, saved gangs with their blocks and groups, and
what their kernels need to go on. -/
structure Saved where
  step : BitVec 64 := 0
  kerns : Map Kern := []
  gangs : Map Gang := []
  blocks : Map Block := []
  groups : Map Group := []
  asked : List Nat := []
  deriving DecidableEq, Repr, Inhabited

/-- An event that the device's own units bring about (log entry 16), as the model keeps it until its step comes: the event of
the same name, a command by the kind that starts it, a flit of the loopback path, the re-evaluations of log entry 2. -/
inductive Due where
  | storePerformed (g i : Nat)
  | groupWaitEnds (g : Nat)
  | gangPlace (kern rank : Nat)
  | gangRelease (gang : Nat)
  | gangResume (gang : Nat)
  | blockRetire (blk : Nat)
  | holdDrain (blk : Nat)
  | copyStart (blk : Nat)
  | copyChunk (blk seq chunk : Nat)
  | copyComplete (blk seq : Nat)
  | matrixStart (blk : Nat)
  | matrixComplete (blk seq : Nat)
  | reduction (i : Nat)
  | start (kind : Nat) (c : CmdRef)
  | reevaluate (c : CmdRef)
  | complete (c : CmdRef)
  | queueOff (ctx q : Nat)
  | graphRun (ctx slot : Nat)
  | record (ctx i : Nat)
  | suspended (f ctx : Nat)
  | wipe (ctx : Nat)
  | corrected (ctx : Nat)
  | flit (fl : Flit)
  | token
  | flip (frame : Nat)
  | ats (i : Nat)
  | updated (f : Nat)
  | command (i : Instr)
  | slice (die : Nat)
  | budget (unit : BudgetUnit)
  deriving DecidableEq, Repr

/-- The state of one package. `cur` to `nextId` are the model's own (log entry 2): the group whose turn it is, the groups still
to take a turn in this period, the events that arrive from outside, those the device's own units bring about, what leaves the
package, the counts of free values and of identifiers, and the period. So is
`log`, the writes performed in scratch, newest first, `rels`, the releases performed (log entry 10), and
`written`: the checkpoint records this package has enciphered, with what they hold (log entry 19). -/
structure State where
  cur : Nat := 0
  barrel : List Nat := []
  agenda : List Instr := []
  due : List Due := []
  out : List Out := []
  fresh : Nat := 0
  nextId : Nat := 0
  time : Nat := 0
  groups : Map Group := []
  blocks : Map Block := []
  gangs : Map Gang := []
  kerns : Map Kern := []
  cores : Map Core := []
  dev : Memory := []
  host : Memory := []
  die : Map Memory := []
  log : List Written := []
  rels : List Release := []
  stored : List (MemName × Nat × Nat) := []
  poison : List (MemName × Nat) := []
  own : Map Own := []
  tlb : List TlbEntry := []
  ctxs : Map Ctx := []
  fns : Map Fn := []
  ldevs : Map LDev := []
  ats : List Ats := []
  flips : List FlipOp := []
  services : Map Service := []
  faults : Map FaultQueue := []
  links : Links := {}
  hall : Hall := {}
  pkg : Pkg := {}
  written : List (List Byte × Saved) := []
  deriving DecidableEq, Repr

/-- Why the machine stops with a fault. -/
inductive Fault where
  /-- Raised by an event that acts on the package while it has no power (R390): nothing happens until reset.
  Safe: the spec gives a package without power no effect. -/
  | noPower
  deriving DecidableEq, Repr

/-- Why an instruction has no meaning here. -/
inductive Refusal where
  /-- Raised only by the dispatcher, for an instruction whose meaning is not written. Safe. -/
  | notModelled (mnemonic : String)
  deriving DecidableEq, Repr

/-- The state after reset (R377, R390): everything wiped, no context, no group, every port DOWN, die scratch
carved 21 MiB a partition, larders empty, slices 0. That window p is partition p's until the wing binds the windows is the
model's choice (log entry 75). -/
def State.reset : State :=
  { pkg := { carve := (List.range 24).map (fun p => (p, 21))
             pmap := (List.range 24).map (fun p => (p, p))
             slices := (List.range 24).map (fun p => (p, 0))
             larders := (List.range 24).map (fun p => (p, [])) } }

end Sys2Proof.Machine
end

