-- ==== Sys2Proof/Machine/Memory.lean ====
section
/-!
DEFINITION. Machine/Memory.lean: one byte memory in canonical form, words built from it little-endian (R2), and the bytes and
the CRC of a flit (R49, R344).
-/
namespace Sys2Proof.Machine

/-- The byte at an address; zero where none is listed. -/
def readB : Memory → Nat → Byte
  | [], _ => 0
  | (k, b) :: r, a => if k = a then b else readB r a

/-- Stores one byte, keeping the form: rising addresses, no zero listed. -/
def writeB : Memory → Nat → Byte → Memory
  | [], a, b => if b = 0 then [] else [(a, b)]
  | (k, c) :: r, a, b =>
    if a < k then (if b = 0 then (k, c) :: r else (a, b) :: (k, c) :: r)
    else if a = k then (if b = 0 then r else (a, b) :: r)
    else (k, c) :: writeB r a b

/-- Every listed address is above `lo`, addresses rise, and no listed byte is zero. -/
def wfAbove : Nat → Memory → Bool
  | _, [] => true
  | lo, (k, b) :: r => decide (lo ≤ k) && b != 0 && wfAbove (k + 1) r

/-- The canonical form of a memory. -/
def Memory.wf (m : Memory) : Bool := wfAbove 0 m

/-- n bytes from an address. -/
def readBytes (m : Memory) (a n : Nat) : List Byte := (List.range n).map fun i => readB m (a + i)

/-- Stores bytes from an address upwards. -/
def writeBytes : Memory → Nat → List Byte → Memory
  | m, _, [] => m
  | m, a, b :: bs => writeBytes (writeB m a b) (a + 1) bs

/-- Makes every byte of [a, a + n) zero (R78). -/
def zeroRange (m : Memory) (a n : Nat) : Memory :=
  m.filter fun c => decide (c.1 < a) || decide (a + n ≤ c.1)

/-- The canonical form of listed bytes. -/
def canonMem (m : Memory) : Memory := m.foldl (fun x c => writeB x c.1 c.2) []

/-- The little-endian value of bytes (R2). -/
def natOfBytes : List Byte → Nat
  | [] => 0
  | b :: r => b.toNat + 256 * natOfBytes r

/-- n little-endian bytes of a value. -/
def bytesOfNat : Nat → Nat → List Byte
  | 0, _ => []
  | n + 1, x => BitVec.ofNat 8 x :: bytesOfNat n (x / 256)

def wordBytes (w : Word) : List Byte := bytesOfNat 4 w.toNat
def wordOf (bs : List Byte) : Word := BitVec.ofNat 32 (natOfBytes bs)
def dwordOf (bs : List Byte) : BitVec 64 := BitVec.ofNat 64 (natOfBytes bs)
def dwordBytes (x : BitVec 64) : List Byte := bytesOfNat 8 x.toNat

/-- A list's element as a byte, zero past its end. -/
def byteAt (bs : List Byte) (i : Nat) : Byte := bs.getD i 0
/-- A little-endian field of n bytes at byte i of a record. -/
def fieldAt (bs : List Byte) (i n : Nat) : Nat := natOfBytes ((bs.drop i).take n)

/-- Words of a register image or of memory, as bytes and back. -/
def wordsBytes (ws : List Word) : List Byte := ws.flatMap wordBytes
def wordsOf : Nat → List Byte → List Word
  | 0, _ => []
  | n + 1, bs => wordOf (bs.take 4) :: wordsOf n (bs.drop 4)
/-- A little-endian image of words as one number (R49, R85, R269). -/
def natOfWords : List Word → Nat
  | [] => 0
  | w :: r => w.toNat + 2 ^ 32 * natOfWords r
/-- Bits [h:l] of an image held as one number (R5). -/
def bitsOf (x h l : Nat) : Nat := x / 2 ^ l % 2 ^ (h + 1 - l)

/-! ### Flits (R344) -/

/-- CRC-32 of R49: reflected, eight steps a byte. -/
def crcStep : Nat → BitVec 32 → BitVec 32
  | 0, c => c
  | n + 1, c => crcStep n (if c.getLsbD 0 then (c >>> 1) ^^^ 0xEDB88320 else c >>> 1)
def crc32 (bs : List Byte) : Word := ~~~(bs.foldl (fun c b => crcStep 8 (c ^^^ b.setWidth 32)) 0xFFFFFFFF)
/-- Bytes 0 to 123 of a flit: the header, the payload, lseq and lack. -/
def flitBody (fl : Flit) : List Byte :=
  bytesOfNat 1 (fl.kind % 16 + 64 * (fl.vc % 4)) ++ bytesOfNat 3 fl.tag ++ bytesOfNat 2 (fl.ctx % 1024 + 1024 * (fl.world % 64))
    ++ bytesOfNat 1 fl.src ++ bytesOfNat 1 fl.dst ++ (fl.pay ++ List.replicate 112 0).take 112 ++ bytesOfNat 2 fl.lseq ++ bytesOfNat 2 fl.lack
def flitCrc (fl : Flit) : Word := crc32 (flitBody fl)
/-- The 128 bytes of a flit. -/
def flitImage (fl : Flit) : List Byte := flitBody fl ++ wordBytes fl.crc

end Sys2Proof.Machine
end

