-- ==== Sys2Proof/Machine/Ops.lean ====
section
/-!
DEFINITION. Machine/Ops.lean: the named operations over the state: looking records up, registers, memories as a
group sees them, traps and their return (R154 to R159), departures at barriers (R254), waiting, and issue (R31,
R37 to R40).
-/
namespace Sys2Proof.Machine

/-! ### Records -/

def grpOf (s : State) (g : Nat) : Group := Map.look s.groups g {}
def blkOf (s : State) (b : Nat) : Block := Map.look s.blocks b {}
def gangOf (s : State) (q : Nat) : Gang := Map.look s.gangs q {}
def kernOf (s : State) (k : Nat) : Kern := Map.look s.kerns k {}
def coreOf (s : State) (c : Nat) : Core := Map.look s.cores c {}
def ctxOf (s : State) (c : Nat) : Ctx := Map.look s.ctxs c {}
def fnOf (s : State) (f : Nat) : Fn := Map.look s.fns f {}
def svcOf (s : State) (d : Nat) : Service := Map.look s.services d {}
def faultsOf (s : State) (p : Nat) : FaultQueue := Map.look s.faults p {}
def ownOf (s : State) (frame : Nat) : Own := Map.look s.own frame {}

def setGrp (s : State) (g : Nat) (x : Group) : State := { s with groups := Map.put s.groups g x }
def setBlk (s : State) (b : Nat) (x : Block) : State := { s with blocks := Map.put s.blocks b x }
def setGang (s : State) (q : Nat) (x : Gang) : State := { s with gangs := Map.put s.gangs q x }
def setKern (s : State) (k : Nat) (x : Kern) : State := { s with kerns := Map.put s.kerns k x }
def setCore (s : State) (c : Nat) (x : Core) : State := { s with cores := Map.put s.cores c x }
def setCtx (s : State) (c : Nat) (x : Ctx) : State := { s with ctxs := Map.put s.ctxs c x }
def setFn (s : State) (f : Nat) (x : Fn) : State := { s with fns := Map.put s.fns f x }
def setSvc (s : State) (d : Nat) (x : Service) : State := { s with services := Map.put s.services d x }
def setFaults (s : State) (p : Nat) (x : FaultQueue) : State := { s with faults := Map.put s.faults p x }
def setOwn (s : State) (f : Nat) (x : Own) : State := { s with own := Map.put s.own f x }
def setHall (s : State) (h : Hall) : State := { s with hall := h }
def setLinks (s : State) (l : Links) : State := { s with links := l }
def setPkg (s : State) (p : Pkg) : State := { s with pkg := p }
def setDev (s : State) (m : Memory) : State := { s with dev := m }
def setHost (s : State) (m : Memory) : State := { s with host := m }
def setDie (s : State) (k : Nat) (m : Memory) : State := { s with die := Map.put s.die k m }
def setPoison (s : State) (p : List (MemName × Nat)) : State := { s with poison := p }
def setTlb (s : State) (t : List TlbEntry) : State := { s with tlb := t }
def setFresh (s : State) (n : Nat) : State := { s with fresh := n }
def setAgenda (s : State) (a : List Instr) : State := { s with agenda := a }
/-- Sends something out of the package. -/
def emit (s : State) (o : Out) : State := { s with out := s.out ++ [o] }

/-- The current group, its path that issues, and its block, kernel, and context. -/
def cg (s : State) : Group := grpOf s s.cur
def setCg (s : State) (g : Group) : State := setGrp s s.cur g
/-- The issuing path (R140). -/
def pathOf (g : Group) : Path := if g.two && g.onB then g.pathB else g.pathA
def setPath (g : Group) (p : Path) : Group :=
  if g.two && g.onB then { g with pathB := p } else { g with pathA := p }
def cp (s : State) : Path := pathOf (cg s)
def setCp (s : State) (p : Path) : State := setCg s (setPath (cg s) p)
def cb (s : State) : Block := blkOf s (cg s).blk
def setCb (s : State) (b : Block) : State := setBlk s (cg s).blk b
/-- A kernel with the header that this chip read for a rank of it (R52). -/
def kernAt (s : State) (k r : Nat) : Kern := { kernOf s k with hdr := Map.look (kernOf s k).hdrs r (kernOf s k).hdr }
/-- The kernel of a block. -/
def kernFor (s : State) (b : Block) : Kern := kernAt s b.kern b.rank
def ck (s : State) : Kern := kernFor s (cb s)
def cctx (s : State) : Ctx := ctxOf s (cb s).ctx

/-- Supervisor mode: a supervisor handler, or a kernel-mode block of world 0 (R32). -/
def superOf (s : State) : Bool := (cg s).sup || (cb s).kmode
/-- Code base: the image's virtual address plus 0x80 (R144). -/
def codeBase (k : Kern) : Addr := BitVec.ofNat 64 (k.image + 0x80)

/-! ### Threads -/

/-- All threads of a group of width w (R138). -/
def fullMask (w : Nat) : Mask := BitVec.ofNat 128 (2 ^ w - 1)
def bitOf (m : Mask) (t : Nat) : Bool := m.getLsbD t
/-- The threads of a mask, ascending. -/
def threadsOf (w : Nat) (m : Mask) : List Nat := (List.range w).filter (bitOf m)
def maskOf (ts : List Nat) : Mask := ts.foldl (fun m t => m ||| BitVec.ofNat 128 (2 ^ t)) 0
def popMask (m : Mask) : Nat := ((List.range 128).filter (bitOf m)).length
/-- The execute mask of the issuing path, as threads the group has (R138). -/
def emask (s : State) : Mask := (cp s).mask &&& fullMask (cg s).width

/-! ### Registers (R27), with the operands a read not on time leaves undefined (R40) -/

def regKey : Reg → Nat
  | .v n => n | .s n => 1000 + n | .p n => 2000 + n | .x n => 3000 + n | .g n => 4000 + n
def isEarly (g : Group) (r : Reg) (t : Nat) : Bool := g.early.any fun e => e.1 == r && bitOf e.2 t

/-- Lane register r of thread t. -/
def rv (s : State) (r t : Nat) : Word :=
  let g := cg s
  if isEarly g (.v r) t then Config.freeWord s.fresh (128 * r + t)
  else (Map.look g.v r []).getD t 0
/-- Uniform register n. -/
def rs (s : State) (n : Nat) : Word :=
  let g := cg s
  if isEarly g (.s n) 0 then Config.freeWord s.fresh (regKey (.s n) * 128)
  else Map.look g.s n 0
/-- Predicate n as the set of threads it holds in; p0 reads true (R27). -/
def rp (s : State) (n : Nat) : Mask :=
  if n = 0 then fullMask 128
  else
    let g := cg s
    let m := Map.look g.p n 0
    maskOf ((List.range g.width).filter fun t =>
      if isEarly g (.p n) t then Config.freeBit s.fresh (128 * n + t) else bitOf m t)
/-- Translation register n; one read early is invalid (R328). -/
def rx (s : State) (n : Nat) : XReg :=
  let g := cg s
  if isEarly g (.x n) 0 then {} else Map.look g.x n {}
/-- Generator register n. -/
def rg (s : State) (n : Nat) : BitVec 128 :=
  let g := cg s
  if isEarly g (.g n) 0 then Config.freeWide s.fresh n else Map.look g.g n 0

/-- Writes lane register r in the threads of a mask. -/
def wv (s : State) (r : Nat) (m : Mask) (f : Nat → Word) : State :=
  let g := cg s
  let old := Map.look g.v r []
  let new := (List.range g.width).map fun t => if bitOf m t then f t else old.getD t 0
  setCg s { g with v := Map.put g.v r new }
/-- Writes a uniform register. -/
def ws (s : State) (n : Nat) (w : Word) : State :=
  let g := cg s
  setCg s { g with s := Map.put g.s n w }
/-- Writes a predicate in the threads of a mask; p0 ignores writes (R182). -/
def wp (s : State) (n : Nat) (m : Mask) (val : Mask) : State :=
  if n = 0 then s
  else
    let g := cg s
    let old := Map.look g.p n 0
    setCg s { g with p := Map.put g.p n ((old &&& ~~~m) ||| (val &&& m)) }
def wx (s : State) (n : Nat) (x : XReg) : State :=
  let g := cg s
  setCg s { g with x := Map.put g.x n x }
def wg (s : State) (n : Nat) (d : BitVec 128) : State :=
  let g := cg s
  setCg s { g with g := Map.put g.g n d }
/-- The b operand of a lane word: a lane register, or a uniform register that every thread reads alike (R27). -/
def rb (s : State) (b : BitVec 7) (bs : BitVec 1) (t : Nat) : Word :=
  if bs == 1 then rs s b.toNat else rv s b.toNat t
/-- 128 bits of four uniform registers from s[a] (R146, R259, R308). -/
def rs128 (s : State) (a : Nat) : BitVec 128 := rs s (a + 3) ++ rs s (a + 2) ++ rs s (a + 1) ++ rs s a
def rs64 (s : State) (a : Nat) : BitVec 64 := cat64 (rs s (a + 1)) (rs s a)
def rsList (s : State) (a n : Nat) : List Word := (List.range n).map fun i => rs s (a + i)
/-- Writes consecutive uniform registers. -/
def wsList : State → Nat → List Word → State
  | s, _, [] => s
  | s, n, w :: r => wsList (ws s n w) (n + 1) r
def words128 (x : BitVec 128) : List Word :=
  [x.extractLsb' 0 32, x.extractLsb' 32 32, x.extractLsb' 64 32, x.extractLsb' 96 32]

/-! ### Memories -/

/-- The stored bytes of a memory. -/
def memOf (s : State) : MemName → Memory
  | .win b => (blkOf s b).win
  | .ring b => (blkOf s b).ringMem
  | .spill g => (grpOf s g).spill
  | .die k => Map.look s.die k []
  | .dev => s.dev
  | .host => s.host
  | .slot b => (blkOf s b).slots
  | .table _ => []
def setMem (s : State) (n : MemName) (m : Memory) : State :=
  match n with
  | .win b => setBlk s b { blkOf s b with win := m }
  | .ring b => setBlk s b { blkOf s b with ringMem := m }
  | .spill g => setGrp s g { grpOf s g with spill := m }
  | .die k => setDie s k m
  | .dev => setDev s m
  | .host => setHost s m
  | .slot b => setBlk s b { blkOf s b with slots := m }
  | .table _ => s

/-- The byte at its home. The ring area's notify and completion words show the rings' counts (R267). -/
def homeByte (s : State) (n : MemName) (a : Nat) : Byte :=
  match n with
  | .ring b =>
    let k := blkOf s b
    if a < 4096 then readB k.ringMem a
    else if a < 4100 then byteAt (bytesOfNat 4 k.copy.tail) (a - 4096)
    else if a < 4104 then byteAt (bytesOfNat 4 k.copy.done) (a - 4100)
    else if a < 4108 then byteAt (bytesOfNat 4 k.matrix.tail) (a - 4104)
    else if a < 4112 then byteAt (bytesOfNat 4 k.matrix.done) (a - 4108)
    else 0
  | _ => readB (memOf s n) a

/-- Words of a memory cleared of errors by a store (R219). -/
def cleanPoison (s : State) (n : MemName) (a len : Nat) : State :=
  setPoison s (s.poison.filter fun p => !(p.1 == n && decide (a < p.2 + 4) && decide (p.2 < a + len)))
/-- The writes of device and host memory are kept in a log, newest first (R217, log entry 23). -/
def noteStored (s : State) (n : MemName) (a len : Nat) : State :=
  if n = .dev ∨ n = .host then { s with stored := (n, a, len) :: s.stored } else s
/-- Performs bytes at their home. -/
def homeWrite (s : State) (n : MemName) (a : Nat) (bs : List Byte) : State :=
  cleanPoison (noteStored (setMem s n (writeBytes (memOf s n) a bs)) n a bs.length) n a bs.length

/-- Whether a pending store covers a byte. -/
def storeCovers (n : MemName) (a : Nat) (p : PendStore) : Bool :=
  p.mem == n && decide (p.addr ≤ a) && decide (a < p.addr + p.bytes.length)
/-- Guard slots: the current generation of one, and the resolution of an entry's guard; k0 is true in every generation
(R290). -/
def guardOf (b : Block) (k : Nat) : Guard := Map.look b.guards k {}
def guardRes (b : Block) (k gen : Nat) : Option Bool := if k = 0 then some true else Map.find (guardOf b k).res gen
/-- The die-scratch memory a block reaches (R216). -/
def dieName (b : Block) : MemName := if b.kmode then .die (24 + b.die) else .die b.part
def homeBytes (s : State) (n : MemName) (a len : Nat) : List Byte :=
  (List.range len).map fun i => homeByte s n (a + i)
def homeWord (s : State) (n : MemName) (a : Nat) : Word := wordOf (homeBytes s n a 4)
/-- A word whose read meets an uncorrectable error (R219). -/
def eccAt (s : State) (stores : List PendStore) (n : MemName) (a len : Nat) : Bool :=
  s.poison.any fun p => p.1 == n && decide (a < p.2 + 4) && decide (p.2 < a + len)
    && !(stores.any fun q => storeCovers n (max a p.2) q)

/-! ### Translation (R322 to R329) -/

/-- Bytes of a page of a level (R323). -/
def pageSize (level : Nat) : Nat := if level = 0 then 2 ^ 16 else if level = 1 then 2 ^ 21 else 2 ^ 30
/-- The leaf that maps an address in a context's table; a broken entry maps nothing (R324). -/
def walk (s : State) (ctx va : Nat) : Option Leaf :=
  (ctxOf s ctx).leaves.find? fun l => decide (l.va ≤ va) && decide (va < l.va + pageSize l.level) && !l.broken
/-- A lookup: a cached result if there is one, else a walk, whose result is cached (R329). -/
def tlbLook (s : State) (ctx va : Nat) : Option Leaf × State :=
  let page := va / 2 ^ 16
  match s.tlb.find? (fun e => e.ctx == ctx && e.page == page) with
  | some e => (e.leaf, s)
  | none =>
    let l := walk s ctx va
    (l, setTlb s (⟨ctx, page, l⟩ :: s.tlb))
/-- Drops the cached results of pages of a context. -/
def dropTlb (s : State) (ctx page n : Nat) : State :=
  setTlb s (s.tlb.filter fun e => !(e.ctx == ctx && decide (page ≤ e.page) && decide (e.page < page + n)))
/-- The data a leaf's frame holds lies in device memory (R326). -/
def leafDevice (l : Leaf) : Bool := l.cls != 1
def leafMem (l : Leaf) : MemName := if leafDevice l then .dev else .host
def leafPa (l : Leaf) (va : Nat) : Nat := l.frame + (va - l.va)
/-- A present leaf: PRESENT or RETRACT (R325). -/
def leafPresent (l : Leaf) : Bool := l.st == 0 || l.st == 3
/-- The checks of R327 in their order. -/
def checkLeaf (s : State) (world : Nat) (l : Option Leaf) (va : Nat) (r w x : Bool) : Option TrapCode :=
  match l with
  | none => some .page
  | some l =>
    if !leafPresent l then some .page
    else if (r && !l.r) || (w && !l.w) || (x && !l.x) then some .prot
    else if leafDevice l then
      let o := ownOf s (leafPa l va / 2 ^ 16)
      if o.world ≠ world then some .owner
      else if o.key ≠ l.key then some .keymix
      else none
    else none

/-- A page of a context's leaf list, replaced (R325). -/
def putLeaf (s : State) (ctx : Nat) (l : Leaf) : State :=
  let c := ctxOf s ctx
  setCtx s ctx { c with leaves := c.leaves.map fun k => if k.va = l.va then l else k }

/-- Where a byte of a context's memory lies for an access of the device itself, to queues, images and rings; none where the
checks of R327 refuse it. -/
def vaAt (s : State) (ctx va : Nat) (r w : Bool) : Option (MemName × Nat) :=
  let l := walk s ctx va
  match checkLeaf s (ctxOf s ctx).world l va r w false with
  | some _ => none
  | none => l.map fun l => (leafMem l, leafPa l va)
/-- Where it lies, whatever its permissions. -/
def vaMem (s : State) (ctx va : Nat) : Option (MemName × Nat) := vaAt s ctx va false false
def placeByte (s : State) (p : Option (MemName × Nat)) : Byte := match p with
  | some (m, a) => homeByte s m a
  | none => 0
def vaRead (s : State) (ctx va n : Nat) : List Byte := (List.range n).map fun i => placeByte s (vaAt s ctx (va + i) true false)
/-- What stands at an address, whatever its permissions. -/
def vaBytes (s : State) (ctx va n : Nat) : List Byte := (List.range n).map fun i => placeByte s (vaMem s ctx (va + i))
def vaWrite : State → Nat → Nat → List Byte → State
  | s, _, _, [] => s
  | s, ctx, va, b :: bs =>
    let s := match vaAt s ctx va false true with
      | some (m, a) => homeWrite s m a [b]
      | none => s
    vaWrite s ctx (va + 1) bs

/-! ### The hall's pending list (R363, R364) -/

/-- Hardware posts an event; with 256 pending it waits its turn behind them. -/
def postEvent (s : State) (e : HEvent) : State :=
  let h := s.hall
  let e := { e with origin := h.self }
  if h.pending.length < 256 ∧ h.backlog.isEmpty = true then setHall s { h with pending := h.pending ++ [e] }
  else setHall s { h with backlog := h.backlog ++ [e] }
def hallFull (s : State) : Bool := decide (256 ≤ s.hall.pending.length) || !s.hall.backlog.isEmpty
/-- A payload of 40 bytes. -/
def payOf (bs : List Byte) : List Byte := (bs ++ List.replicate 40 0).take 40

/-! ### Error records (R386 to R388) -/

def trapNum : TrapCode → Nat
  | .illop => 1 | .illconv => 2 | .stallchk => 3 | .bound => 4 | .align => 5 | .page => 6 | .prot => 7
  | .keymix => 8 | .owner => 9 | .atroute => 10 | .barmask => 11 | .entry => 12 | .brk => 13 | .trapi => 14
  | .ecc => 15 | .priv => 16 | .svcfail => 17
/-- The owner of a class for a context (R383): unset trap classes but ECC belong to the kernel. -/
def claimOwner (c : Ctx) (cls : Nat) : Nat :=
  Map.look c.claims cls (if 1 ≤ cls ∧ cls ≤ 17 ∧ cls ≠ 15 then 1 else 0)

/-- The eight words of an error record, but its sequence number (R388). -/
structure ErrRec where
  partition : Nat := 0
  unit : Nat := 0
  severity : Nat := 0
  kind : Nat := 0
  ctx : Nat := 0
  world : Nat := 0
  launch : Nat := 0
  trap : Nat := 0
  group : Nat := 0
  page : Option Nat := none
  word : Nat := 0
  deriving DecidableEq, Repr
def errWords (e : ErrRec) (seq : Nat) (prot : Bool) : List Word :=
  let pg := e.page.getD 0
  [ BitVec.ofNat 32 (e.partition * 2 ^ 24 + e.unit * 2 ^ 16 + e.severity * 2 ^ 8 + e.kind),
    BitVec.ofNat 32 (e.ctx * 2 ^ 16 + e.world), BitVec.ofNat 32 e.launch,
    BitVec.ofNat 32 (e.trap * 2 ^ 8 + e.group),
    BitVec.ofNat 32 (pg / 2 ^ 16), BitVec.ofNat 32 (pg / 2 ^ 48 % 256 + (if e.page.isSome then 256 else 0)),
    BitVec.ofNat 32 seq, BitVec.ofNat 32 (if prot then 0 else e.word) ]
/-- Writes a record to a function's error ring and signals it (R387, R92 with threshold 1). -/
def hostRecord (s : State) (f : Nat) (e : ErrRec) (prot : Bool) : State :=
  let x := fnOf s f
  let n := 2 ^ (x.errCfg % 16 + 4)
  if x.errCfg / 2 ^ 16 % 2 = 0 then s
  else if (x.errProd + 2 ^ 31 - x.errCons % 2 ^ 31) % 2 ^ 31 = n then setFn s f { x with errOver := true }
  else
    let s := homeWrite s .host (x.errBase + 32 * (x.errProd % n)) (wordsBytes (errWords e x.errCount prot))
    emit (setFn s f { x with errProd := (x.errProd + 1) % 2 ^ 31, errCount := x.errCount + 1 })
      (.interrupt f (x.errCfg / 16 % 4096))
/-- A record in the active wing's log (R386): one that no class owner takes, or of a kernel-mode block, which has no context (log
entry 70). -/
def logRecord (s : State) (e : ErrRec) (prot : Bool) : State :=
  setPkg s { s.pkg with log := s.pkg.log ++ [errWords e s.pkg.log.length prot] }
/-- Routes a record to the owner of its class (R386); the service core's stand in the die's service region, where its kernel-mode
blocks read them (log entry 33). -/
def routeRecord (s : State) (cls : Nat) (e : ErrRec) : State :=
  let c := ctxOf s e.ctx
  let o := claimOwner c cls
  if o = 1 ∨ o = 2 then hostRecord s c.ld e c.prot
  else if o = 3 then
    let d := e.partition / 6
    let n := (svcOf s d).records.length
    let w := errWords e n c.prot
    homeWrite (setSvc s d { svcOf s d with records := (svcOf s d).records ++ [w] }) (.die (24 + d))
      (32 * (Config.recordPlace d n % 2 ^ 16)) (wordsBytes w)
  else logRecord s e c.prot

/-! ### Departures and barrier completion (R253 to R258) -/

/-- A group that has retired, or whose block is trapped or squashed, counts as arrived everywhere (R254); one whose trap a
speculative block holds does not (R126). -/
def departed (s : State) (g : Nat) : Bool :=
  let x := grpOf s g
  x.state == .retired || (blkOf s x.blk).trapped
/-- The live groups of a block as a mask of group indices. -/
def liveGroups (s : State) (b : Block) : Mask :=
  maskOf ((b.groups.filter fun g => !departed s g).map fun g => (grpOf s g).index)
def existGroups (s : State) (b : Block) : Mask := maskOf (b.groups.map fun g => (grpOf s g).index)
/-- What two views together hold. -/
def joinView (x y : View) : View :=
  { saw := (x.saw ++ y.saw).eraseDups
    upTo := max x.upTo y.upTo
    mobs := y.mobs.foldl (fun m e => Map.put m e.1 (max e.2 (Map.look m e.1 0))) x.mobs
    mobsOne := (x.mobsOne ++ y.mobsOne).eraseDups }
/-- A filling slot whose every live mask member has arrived completes its phase (R256): what its arrivals covered is, for each group
that arrived, to be acquired (R261). -/
def settleSlot (live : Mask) (x : BarSlot) : BarSlot :=
  if x.filling && (x.mask &&& live &&& ~~~x.arrived) == 0 then
    let met := (threadsOf 128 x.arrived).foldl (fun m g => Map.put m g (joinView (Map.look m g {}) x.join)) x.met
    { x with phase := (x.phase + 1) % 256, filling := false, arrived := 0, mask := 0, met := met, join := {} }
  else x
def settleBlock (s : State) (b : Nat) : State :=
  let k := blkOf s b
  let live := liveGroups s k
  setBlk s b { k with bars := k.bars.map fun e => (e.1, settleSlot live e.2) }
/-- The cluster barrier's phase completes when every live group of every block of the gang has issued BARC. -/
def settleGang (s : State) (q : Nat) : State :=
  let x := gangOf s q
  let gs := x.blocks.flatMap fun b => (blkOf s b).groups
  if !x.arrived.isEmpty && gs.all (fun g => departed s g || x.arrived.contains g) then
    setGang s q { x with phase := (x.phase + 1) % 256, arrived := [], met := x.join, join := {} }
  else s

/-! ### A kernel row (R361, R104, R122) -/

def kImage (r : KRow) : Nat := fieldAt r.pay0 0 8
def kCount (r : KRow) : Nat := fieldAt r.pay0 8 4 * fieldAt r.pay0 12 2 * fieldAt r.pay0 14 2
def kNrank (r : KRow) : Nat := fieldAt r.pay0 20 1
def kFlags (r : KRow) : Nat := fieldAt r.pay0 21 1
def kPred (r : KRow) : Bool := kFlags r / 8 % 2 == 1
def kRestart (r : KRow) : Bool := kFlags r / 16 % 2 == 1
def kGang (r : KRow) : Nat := max 1 (fieldAt r.pay0 22 1)
def kBound (r : KRow) : Nat := fieldAt r.pay0 24 4
def kQueue (r : KRow) : Nat := fieldAt r.pay0 29 1 % 16
/-- G of R104 and R122, and the gangs of a rank. -/
def kGangs (r : KRow) : Nat := ceilDiv (if kPred r then kBound r else kCount r) (kGang r)
def rankLo (r : KRow) (rank : Nat) : Nat := rank * kGangs r / (kNrank r + 1)
def rankGangs (r : KRow) (rank : Nat) : List Nat :=
  (List.range (rankLo r (rank + 1) - rankLo r rank)).map (· + rankLo r rank)
/-- The blocks that are distributed as the shape stands (R123, R131). -/
def shapeLimit (r : KRow) : Nat := match r.resolved with
  | some t => t.1
  | none => if kPred r then r.launched else kCount r
/-- Ranks that hold no gang, or none below the true count, are finished (R105, R122). -/
def emptyRank (r : KRow) (rank : Nat) : Bool :=
  (rankGangs r rank).isEmpty || match r.resolved with
    | some t => (rankGangs r rank).all fun q => decide (t.1 ≤ q * kGang r)
    | none => false
def ranksList (r : KRow) : List Nat := List.range (kNrank r + 1)
def kDone (r : KRow) : Bool := (ranksList r).all r.finished.contains
/-- The row of a kernel. -/
def kernRow (s : State) (k : Nat) : KRow := Map.look s.hall.repl.kernels k {}
/-- The ranks of a kernel that have a gang and are neither finished nor placed. -/
def unplaced (s : State) (k : Nat) : List Nat :=
  let r := kernRow s k
  (ranksList r).filter fun x => !r.finished.contains x && !(rankGangs r x).isEmpty
    && !(s.hall.repl.place.any fun e => e.2.kernel == k && e.2.rank == x)

/-! ### The grid barrier on this chip (R253, R263) -/

/-- The ranks of a kernel's placement rows: (rank, member), without repeats, ascending rank. -/
def ranksOf (s : State) (k : Nat) : List (Nat × Nat) :=
  let rows := s.hall.repl.place.filter fun e => e.2.kernel == k
  let prs := rows.map fun e => (e.2.rank, e.1 / 48)
  ((List.range 256).filterMap fun r => (prs.find? fun p => p.1 == r))
/-- The coordinator: the chip of the lowest-numbered rank that holds a gang. -/
def coordinator (s : State) (k : Nat) : Nat := match ranksOf s k with
  | [] => s.hall.self
  | p :: _ => p.2
/-- Whether nothing of a group is left that a pod release waits for (R238): its acknowledgements, and the held writes of its
block once that is committed (R128). -/
def podQuiet (s : State) (g : Nat) : Bool :=
  let x := grpOf s g
  let b := blkOf s x.blk
  x.ack == 0 && (b.spec || b.held.isEmpty)
/-- Whether a group counts as arrived at an episode: it has issued that many BARGs, or has departed with its
acknowledgements in (R254, R260). -/
def gridArrived (s : State) (e g : Nat) : Bool :=
  let x := grpOf s g
  decide (e ≤ x.bargs) || (departed s g && ((blkOf s x.blk).trapped || podQuiet s g))
/-- Whether the count of a kernel's blocks is known on this chip (R131, R255). -/
def shapeKnown (s : State) (k : Nat) : Bool := match Map.find s.hall.repl.kernels k with
  | some r => r.resolved.isSome || fieldAt r.pay0 21 1 / 8 % 2 == 0
  | none => true
/-- Whether every block of a rank on this chip has arrived at an episode: gangs not yet placed have not, nor has a rank of a
predicted launch before its resolution here, which may add blocks (R255, R263). -/
def rankArrived (s : State) (k r e : Nat) : Bool :=
  let x := kernOf s k
  (Map.look x.todo r []).isEmpty && x.read.contains r && !x.killed && shapeKnown s k &&
    s.blocks.all fun b => !(b.2.kern == k && b.2.rank == r) || b.2.groups.all (gridArrived s e)
/-- A channel-0 flit to another member, numbered for its pair (R350), on the first usable route (R349). -/
def portWorks (s : State) (p : Nat) : Bool := match (Map.look s.links.ports p {}).st with
  | .up | .degraded => true
  | _ => false
def portOf (s : State) (m : Nat) : Nat := ((Map.look s.pkg.routes m []).find? (portWorks s)).getD 24
/-- Charges a unit's budget for a context (R79); an unlimited budget is never charged. Kinds: 0 copy, 1 link,
2 service, 3 hold, 4 matrix. -/
def budgetKey (kind unit : Nat) : Nat := 1000 * kind + unit
def budgetOf (c : Ctx) (kind : Nat) : Nat := Map.look c.budget kind 0xFFFFFFFF
def budgetLeft (c : Ctx) (kind unit : Nat) : Int :=
  if budgetOf c kind = 0xFFFFFFFF then 1 else Map.look c.left (budgetKey kind unit) (budgetOf c kind)
def chargeBudget (s : State) (ctx kind unit amount : Nat) : State :=
  let c := ctxOf s ctx
  if budgetOf c kind = 0xFFFFFFFF then s
  else setCtx s ctx { c with left := Map.put c.left (budgetKey kind unit) (budgetLeft c kind unit - amount) }
/-- HALL, SNAP and control flits, and flits of another chip, charge nothing (R349, R353). -/
def freeFlit (s : State) (fl : Flit) : Bool := fl.kind == 1 || fl.kind == 2 || fl.vc == 3 || fl.src != s.hall.self
/-- A FENCED port passes control flits, SNAP flits, and of HALL flits the EVENTs, which the rejoin exchange forwards (R346, log
entry 36). -/
def passesFence (fl : Flit) : Bool := fl.vc == 3 || fl.kind == 2 || (fl.kind == 1 && fieldAt fl.pay 0 1 == 0)
/-- Whether a port may start a flit now (R343, R346, R348, R353). -/
def portTakes (s : State) (p : Nat) (fl : Flit) : Bool :=
  let x := Map.look s.links.ports p {}
  let up := match x.st with
    | .up | .degraded => true
    | .fenced => passesFence fl
    | _ => false
  up && (fl.vc == 3 || (!x.pauseSeen.getLsbD fl.vc && decide (x.replay.length < 512)))
    && (freeFlit s fl || decide (0 < budgetLeft (ctxOf s fl.ctx) 1 p))
/-- The flit leaves: numbered and kept for replay unless it is a control flit (R347), with its CRC (R344), and charged at the
chip that created it (R353). -/
def portPut (s : State) (p : Nat) (fl : Flit) : State :=
  let x := Map.look s.links.ports p {}
  let lack := (x.rxSeq + 65535) % 65536
  let fl := if fl.vc = 3 then { fl with lseq := 0, lack := lack } else { fl with lseq := x.txSeq, lack := lack }
  let fl := { fl with crc := flitCrc fl }
  let x := if fl.vc = 3 then x else { x with txSeq := (x.txSeq + 1) % 65536, replay := x.replay ++ [fl] }
  let s := if freeFlit s fl then s else chargeBudget s fl.ctx 1 p 112
  emit (setLinks s { s.links with ports := Map.put s.links.ports p x }) (.flit p fl)
/-- The partition whose operation a request flit serves; 24 for another chip's flits (log entry 50). -/
def flitPart (s : State) (fl : Flit) : Nat :=
  if fl.src ≠ s.hall.self then 24
  else match s.links.src.find? fun o => o.dst == fl.dst && o.tag == fl.tag with
    | some o => (blkOf s o.blk).part
    | none => 24
/-- The next request flit by deficit round-robin (R353): every flit is 112 bytes and a unit of weight a quantum of 112, so a
partition's turn is as many flits as its weight. -/
def nextRequest (s : State) (x : Port) (q : List Flit) : Option Flit :=
  let own (k : Nat) : Option Flit := q.find? fun fl => flitPart s fl == k
  let round := ((List.range 25).map fun i => (x.serving + 1 + i) % 25).findSome? own
  if x.quota = 0 then round else match own x.serving with
    | some fl => some fl
    | none => round
/-- The next waiting flit that a port may start: channel 3 first, then 0, 2 and 1 (R348). -/
def nextFlit (s : State) (p : Nat) : Option Flit :=
  let x := Map.look s.links.ports p {}
  let q := x.sendQ.filter (portTakes s p)
  match [3, 0, 2].findSome? fun c => q.find? fun fl => fl.vc == c with
  | some fl => some fl
  | none => nextRequest s x (q.filter fun fl => fl.vc == 1)
/-- The flit leaves the queue; a request flit is counted to its partition's turn, and a turn ends with the partition's last
waiting flit. -/
def dropQueued (s : State) (p : Nat) (fl : Flit) : State :=
  let x := Map.look s.links.ports p {}
  let k := flitPart s fl
  let x := { x with sendQ := x.sendQ.erase fl }
  let left := if k = x.serving ∧ 0 < x.quota then x.quota - 1 else Map.look s.pkg.weights k 1 - 1
  let more := x.sendQ.any fun f => f.vc == 1 && flitPart s f == k
  let x := if fl.vc = 1 then { x with serving := k, quota := if more then left else 0 } else x
  setLinks s { s.links with ports := Map.put s.links.ports p x }
def portFlush (p : Nat) : Nat → State → State
  | 0, s => s
  | n + 1, s => match nextFlit s p with
    | some fl => portFlush p n (portPut (dropQueued s p fl) p fl)
    | none => s
/-- A flit joins a port's queue, and whatever may leave leaves. -/
def portSend (s : State) (p : Nat) (fl : Flit) : State :=
  let x := Map.look s.links.ports p {}
  let q := x.sendQ ++ [fl]
  portFlush p q.length (setLinks s { s.links with ports := Map.put s.links.ports p { x with sendQ := q } })
/-- A flit goes on a route: port 24, the loopback path, where it is to the chip's own member (R351). One that no port carries
is lost, and its operation's timeout sends it again; one of channel 0 waits at port 24 for a route (R349). -/
def sendOn (s : State) (p : Nat) (fl : Flit) : State :=
  if fl.dst = s.hall.self then portSend s 24 fl
  else if portWorks s p then portSend s p fl
  else if fl.vc = 0 then portSend s 24 fl
  else s
def sendFlit (s : State) (fl : Flit) : State := sendOn s (portOf s fl.dst) fl
def sendCh0 (s : State) (fl : Flit) : State :=
  let n := Map.look s.links.ch0Tx fl.dst 0
  let s := setLinks s { s.links with ch0Tx := Map.put s.links.ch0Tx fl.dst (n + 1) }
  sendFlit s { fl with src := s.hall.self, vc := 0, tag := n % 2 ^ 24 }
/-- The payload of a BARR flit: kernel identifier, episode, rank, and 1 in byte 16 for a release (log entry 22). -/
def barrFlit (s : State) (k e r dst rel : Nat) : Flit :=
  let x := kernOf s k
  { dst := dst, world := x.world, ctx := x.ctx, kind := 3
    pay := (bytesOfNat 8 k ++ bytesOfNat 4 e ++ bytesOfNat 4 r ++ bytesOfNat 1 rel ++ List.replicate 112 0).take 112 }
/-- An arrival as the coordinator records it: the rank, and the member it came from. -/
def arrivalOf (m r : Nat) : Nat := 256 * m + r
/-- The coordinator records an arrival of a rank at the open episode (R263). -/
def recordRank (s : State) (k e m r : Nat) : State :=
  let x := kernOf s k
  let l := Map.look x.rankArr e []
  if l.contains (arrivalOf m r) then s else setKern s k { x with rankArr := Map.put x.rankArr e (l ++ [arrivalOf m r]) }
/-- The arrivals at an episode that this chip's ranks have yet to send or record. -/
def arriveRanks (s : State) (k e : Nat) : State :=
  ((ranksOf s k).filter fun p => p.2 == s.hall.self).foldl (fun s p =>
    let x := kernOf s k
    if rankArrived s k p.1 e && !x.sentArr.contains (e, p.1) && !x.openBlocks.isEmpty then
      let s := setKern s k { x with sentArr := x.sentArr ++ [(e, p.1)] }
      if coordinator s k = s.hall.self then recordRank s k e s.hall.self p.1
      else sendCh0 s (barrFlit s k e p.1 (coordinator s k) 0)
    else s) s
/-- An episode is complete on this chip: what its arrivals covered may now be acquired, and the ranks that have departed arrive
at the next one (R254, R261). -/
def enterEpisode (s : State) (k e : Nat) : State :=
  let x := kernOf s k
  if x.episode < e then
    arriveRanks (setKern s k { x with episode := e, rankArr := x.rankArr.filter (fun p => decide (e < p.1)), met := x.join
                                      join := {} }) k (e + 1)
  else s
/-- Tells the other chips of a kernel that an episode is complete. -/
def sendRelease (s : State) (k e : Nat) : State :=
  ((((ranksOf s k).map Prod.snd).filter (· ≠ s.hall.self)).eraseDups).foldl (fun s m => sendCh0 s (barrFlit s k e 0 m 1)) s
/-- The coordinator completes an episode at which every rank that holds a gang has arrived, from the member that carries it now,
and releases the other chips; a rank that waits to be placed again has not arrived (R263, R264). -/
def completeGrid (s : State) (k e : Nat) : State :=
  let x := kernOf s k
  let rs := ranksOf s k
  if coordinator s k = s.hall.self ∧ x.episode < e ∧ x.killed = false ∧ (unplaced s k).isEmpty = true
      ∧ rs.all (fun p => (Map.look x.rankArr e []).contains (arrivalOf p.2 p.1)) = true ∧ rs.isEmpty = false then
    enterEpisode (sendRelease s k e) k e
  else s
/-- Sends what this chip owes for the open episode of a kernel. -/
def settleGrid (s : State) (k : Nat) : State :=
  let e := (kernOf s k).episode + 1
  completeGrid (arriveRanks s k e) k e

/-- Everything a departure can complete. -/
def settleAll (s : State) (b : Nat) : State :=
  let k := blkOf s b
  settleGrid (settleGang (settleBlock s b) k.gang) k.kern

/-! ### Traps (R154 to R159) -/

/-- A trap an instruction raises: its code, the faulting address, the immediate, the trapping threads (the whole
execute mask where none are named), whether %trappc is the word after (TRAP, BRK), and the unit (R388). -/
structure TrapReq where
  code : TrapCode
  addr : Addr := 0
  info : BitVec 16 := 0
  threads : Option Mask := none
  after : Bool := false
  unit : Nat := 0
  hasPage : Bool := false
  deriving DecidableEq, Repr

/-- An ATOM or CAS between two of its passes, which goes on in the same slot (R224). -/
def inPass (p : Path) : Bool := match p.wait with
  | some (.pass _) => true
  | _ => false
/-- A group that has an issued instruction to complete before it stops (R41, R157, R165). -/
def midway (g : Group) : Bool := g.state == .waiting && inPass (pathOf g)
/-- The byte offset of a code address from the code base (R161). -/
def codeOffset (k : Kern) (pc : Addr) : Word := lowWord (pc - codeBase k)

/-- The effect of a fatal trap of a block that is not speculative (R157): every group TRAPPED, one between two passes once it has
made them, the rings take nothing new, the record goes to the class owner, and FAULT is posted for the rank. -/
def fatalBlock (s : State) (b : Nat) (r : TrapReport) : State :=
  let k := blkOf s b
  let x := kernOf s k.kern
  let s := k.groups.foldl (fun s g =>
    let y := grpOf s g
    if y.state == .retired || midway y then s else setGrp s g { y with state := .trapped }) s
  let s := setBlk s b { blkOf s b with trapped := true, report := some r }
  let e : ErrRec := { partition := k.part, unit := r.unit, severity := 3, kind := 1, trap := trapNum r.code
                      group := (grpOf s r.grp).index, page := if r.hasPage then some r.addr.toNat else none, word := r.word }
  let s := if k.kmode then logRecord s e false
    else routeRecord s (trapNum r.code) { e with ctx := k.ctx, world := k.world, launch := x.launch }
  let s := if k.kmode then s
    else postEvent s { kind := 5, ctx := k.ctx, world := k.world, kernel := k.kern
                       pay := payOf [BitVec.ofNat 8 k.rank, BitVec.ofNat 8 (trapNum r.code)] }
  settleAll s b

/-- Taking a trap (R154 to R157) on the issuing path of a group: by the supervisor handler where the kernel owns the
class, names a handler and is not in supervisor mode; otherwise fatal, the report of a speculative block held (R126). -/
def takeTrap (s : State) (gid : Nat) (t : TrapReq) : State :=
  let g := grpOf s gid
  let p := pathOf g
  let b := blkOf s g.blk
  let k := kernFor s b
  let c := ctxOf s b.ctx
  if claimOwner c (trapNum t.code) = 1 ∧ k.hdr.handler ≠ 0xFFFFFFFF ∧ g.sup = false ∧ b.kmode = false then
    let pc := codeOffset k p.pc
    let regs : TrapRegs := { code := BitVec.ofNat 8 (trapNum t.code), pc := if t.after then pc + 4 else pc
                             addr := t.addr, info := t.info, mask := p.mask, unit := t.unit }
    let p' := { p with pc := codeBase k + BitVec.ofNat 64 (4 * k.hdr.handler), mask := t.threads.getD p.mask
                       stall := 0, wait := none }
    setGrp s gid { setPath g p' with trap := regs, sup := true, supArm := if g.two then some g.onB else none, state := .runnable
                                     pend := [] }
  else
    let r : TrapReport := { grp := gid, code := t.code, unit := t.unit, word := (codeOffset k p.pc).toNat / 4
                            addr := t.addr, hasPage := t.hasPage }
    let s := setGrp s gid { g with state := .trapped }
    if b.spec then setBlk s g.blk { blkOf s g.blk with report := some ((blkOf s g.blk).report.getD r) }
    else fatalBlock s g.blk r

/-- A region restart (R153): one path at the REGION word, the recorded masks, written registers undefined; the region stays
open until the REGION word issues again. -/
def undefReg (n : Nat) (g : Group) : Reg → Group
  | .v r => { g with v := Map.put g.v r ((List.range g.width).map fun t => Config.freeWord n (128 * r + t)) }
  | .s r => { g with s := Map.put g.s r (Config.freeWord n (regKey (.s r) * 128)) }
  | .p r => { g with p := Map.put g.p r (maskOf ((List.range g.width).filter fun t => Config.freeBit n (128 * r + t))) }
  | .x r => { g with x := Map.put g.x r {} }
  | .g r => { g with g := Map.put g.g r (Config.freeWide n r) }
def regionRestart (s : State) (gid : Nat) (rg : OpenRegion) : State :=
  let g := grpOf s gid
  let g := rg.written.foldl (undefReg s.fresh) g
  setFresh (setGrp s gid { g with two := false, onB := false, lastB := false, live := rg.live, pend := []
                                  state := .runnable
                                  pathA := { pc := rg.start, mask := rg.mask, scope := rg.live } }) (s.fresh + 1)

/-! ### Outcomes of a meaning inside issue -/

/-- What the entry of an instruction comes to: done, a trap with no further effect (R5), a trap that leaves the effects
of the state given (an error marked reported, a slot reset), or a wait (R38) over the state given. -/
inductive Act where
  | done (s : State)
  | trap (t : TrapReq)
  | trapIn (s : State) (t : TrapReq)
  | wait (s : State) (w : Wait)

/-- A register the instruction reads or writes, and in which threads: those of the path, every one of the group, or one. -/
inductive Threads where
  | active | every | blocks | one (t : Nat)
  deriving DecidableEq, Repr

/-- The facts about an instruction that issue needs (R30 to R34, R37, R42, R152). -/
structure Info where
  valid : Bool := true
  version : Nat := 1
  kslot : Bool := false
  priv : Bool := false
  stall : Nat := 0
  lane : Bool := false
  latency : Nat := 0
  reads : List (Reg × Threads) := []
  writes : List (Reg × Threads) := []
  noRegion : Bool := false
  quiet : Bool := false
  deriving DecidableEq, Repr

/-- Which threads a use of a register covers; a uniform register, translation or generator register counts once. -/
def useMask (g : Group) (m : Mask) (r : Reg) (t : Threads) : Mask :=
  match r with
  | .s _ | .x _ | .g _ => 1
  | _ =>
    match t with
    | .active => m
    | .every => if m == 0 then 0 else fullMask g.width
    | .one i => m &&& maskOf [i]
    | .blocks => maskOf ((List.range g.width).filter fun i =>
        (List.range 16).any fun j => bitOf m (i / 16 * 16 + j))

/-- The cycle at which the group's slot of this period begins (R17). -/
def slotCycle (s : State) (g : Group) : Nat := 16 * s.time + g.slot
/-- The threads in which a register's last write is not readable yet (R37). -/
def lateThreads (s : State) (g : Group) (r : Reg) : Mask :=
  (g.pend.filter fun p => p.reg == r && decide (slotCycle s g < p.ready)).foldl (fun a p => a ||| p.threads) 0
/-- Registers used before the last write to them is readable, with the threads in which they are (R39, R204, R226); p0 is never
written (R182). -/
def lateUses (s : State) (g : Group) (m : Mask) (us : List (Reg × Threads)) : List (Reg × Mask) :=
  ((us.filter fun u => u.1 != .p 0).map fun u => (u.1, useMask g m u.1 u.2 &&& lateThreads s g u.1)).filter fun e => e.2 != 0

/-- A lane register at or above the allotment of 8 × regs (R109). -/
def overAllot (g : Group) : Reg → Bool
  | .v n => decide (8 * g.allot ≤ n)
  | _ => false

/-- The first trap of R31 steps 1 to 5, if any. Lane memory, atomic, exchange with one thread, SVC, BRK and generator
words raise nothing past their decoding with a zero execute mask (R139, log entry 12). -/
def issueTrap (i : Info) (s : State) : Option TrapReq :=
  let g := cg s
  let k := ck s
  let m := emask s
  if k.hdr.version < i.version then some { code := .illop }
  else if !i.valid || (i.kslot && k.hdr.version == 1) then some { code := .illop }
  else if i.quiet && m == 0 then none
  else if i.priv && !superOf s then some { code := .priv }
  else if (i.reads ++ i.writes).any (fun u => overAllot g u.1) then some { code := .bound }
  else if (cctx s).check && !((lateUses s g m (i.reads ++ i.writes)).isEmpty) then some { code := .stallchk }
  else none

/-- Clears the wait of the issuing path and advances it past its word, with its stall count (R38). -/
def advance (i : Info) (s : State) : State :=
  let p := cp s
  setCp s { p with pc := p.pc + 4, stall := i.stall }

/-- A register written early holds an undefined value (R40, log entry 18). -/
def undefWrite (n : Nat) (g : Group) (e : Reg × Mask) : Group :=
  match e.1 with
  | .v r =>
    let old := Map.look g.v r []
    { g with v := Map.put g.v r ((List.range g.width).map fun t =>
        if bitOf e.2 t then Config.freeWord n (128 * r + t) else old.getD t 0) }
  | .p r =>
    let old := Map.look g.p r 0
    { g with p := Map.put g.p r (maskOf ((List.range g.width).filter fun t =>
        if bitOf e.2 t then Config.freeBit n (128 * r + t) else bitOf old t)) }
  | r => undefReg n g r

/-- The bookkeeping of a completed word: writes pending until readable (R37), the region's written set (R150), early
writes undefined, earlier loads of the registers it writes final. -/
def complete (i : Info) (s0 s : State) : State :=
  let g0 := cg s0
  let m := emask s0
  let g := cg s
  let passes := if i.lane then g0.width / 32 else 1
  let ready := slotCycle s0 g0 + passes - 1 + i.latency
  let g := (lateUses s0 g0 m i.writes).foldl (undefWrite (s0.fresh + 1)) g
  let news := (i.writes.map fun u => Pending.mk u.1 (useMask g0 m u.1 u.2) ready).filter fun p => p.threads != 0
  let pend := (g.pend.filter fun p => decide (slotCycle s0 g0 < p.ready)) ++ (if i.latency = 0 then [] else news)
  let wrote := (i.writes.filter fun u => useMask g0 m u.1 u.2 != 0).map Prod.fst
  let region := g.region.map fun r => { r with written := (r.written ++ wrote).eraseDups }
  let loads := g.loads.filter fun l => l.since == s0.time || !(i.writes.any fun u => u.1 == l.reg)
  setFresh (setCg s { g with pend := pend, early := [], region := region, loads := loads }) (s.fresh + 2)

/-- Whether any path of a group still waits. -/
def anyWait (g : Group) : Bool :=
  (g.pathA.wait.isSome && g.pathA.st == .running) || (g.two && g.pathB.wait.isSome && g.pathB.st == .running)

/-- A completed instruction's path no longer waits, nor its group when neither path does (R136). -/
def endWait (s : State) : State :=
  let g := cg s
  let g := setPath g { pathOf g with wait := none }
  setCg s (if g.state == .waiting && !anyWait g then { g with state := .runnable } else g)

/-- Issue of one word by the current group (R31, R38 to R40): the traps of decoding, then the entry's own. A wait
leaves the path at the word; a trap has no other effect. Operands are judged in every slot of a word that waits (log entry 79). -/
def issue (i : Info) (s : State) (act : State → Act) : Host.Outcome State Fault Refusal :=
  match issueTrap i s with
  | some t => .next (takeTrap s s.cur t)
  | none =>
    if i.noRegion && (cg s).region.isSome && !(i.quiet && emask s == 0) then .next (takeTrap s s.cur { code := .illop })
    else
      let g := cg s
      let s1 := setCg s { g with early := lateUses s g (emask s) i.reads }
      match act (advance i s1) with
      | .done s2 =>
        .next (endWait (complete i s s2))
      | .trap t => .next (takeTrap s s.cur t)
      | .trapIn s2 t =>
        let g2 := cg s2
        .next (takeTrap (setCg s2 { setPath g2 { pathOf g2 with pc := (cp s).pc } with early := [] }) s.cur t)
      | .wait s2 w =>
        let g2 := cg s2
        let p := pathOf g2
        .next (setCg s2 { setPath g2 { p with pc := (cp s).pc, stall := 0, wait := some w } with
                          state := .waiting, early := [] })

end Sys2Proof.Machine
end

