-- ==== Sys2Proof/Machine/Operands.lean ====
section
/-!
DEFINITION. Machine/Operands.lean: for every instruction, what issue needs to know of it: the encoding version that
first holds it (R42), whether it is privileged (R32), its stall count, set and latency class (R33, R34), and the
registers it reads and writes, with the threads concerned (R39, R167, R189, R204, R226). The b operand's two kinds
(R27) are in bUse and in rb of Ops.
-/
namespace Sys2Proof.Machine

/-- The b operand of a lane word as a register use: lane, or uniform when bs = 1; `k` is 1 for the upper half of a pair. -/
def bUse (b : BitVec 7) (bs : BitVec 1) (k : Nat) : Reg × Threads :=
  if bs == 1 then (.s (b.toNat + k), .active) else (.v (b.toNat + k), .active)
/-- A run of n uniform registers. -/
def sRun (a n : Nat) : List (Reg × Threads) := (List.range n).map fun i => (.s (a + i), .active)

/-- The facts of issue for an instruction; an event has none. -/
def info (ins : Instr) : Info :=
  match ins with
  | .nop st =>
    { valid := wellFormed ins, stall := st.toNat, lane := true }
  | .mov st d b c =>
    { valid := wellFormed ins, stall := st.toNat, lane := true, latency := 12, reads := [bUse b c 0], writes := [(.v (d.toNat), .active)] }
  | .limm st d _ =>
    { valid := wellFormed ins, stall := st.toNat, lane := true, latency := 12, writes := [(.v (d.toNat), .active)] }
  | .limmh st d _ =>
    { valid := wellFormed ins, stall := st.toNat, lane := true, latency := 12, reads := [(.v (d.toNat), .active)], writes := [(.v (d.toNat), .active)] }
  | .iadd st d a b c =>
    { valid := wellFormed ins, stall := st.toNat, lane := true, latency := 12, reads := [(.v (a.toNat), .active), bUse b c 0], writes := [(.v (d.toNat), .active)] }
  | .isub st d a b c =>
    { valid := wellFormed ins, stall := st.toNat, lane := true, latency := 12, reads := [(.v (a.toNat), .active), bUse b c 0], writes := [(.v (d.toNat), .active)] }
  | .iaddi st d a _ =>
    { valid := wellFormed ins, stall := st.toNat, lane := true, latency := 12, reads := [(.v (a.toNat), .active)], writes := [(.v (d.toNat), .active)] }
  | .iadd64 st d a b c =>
    { valid := wellFormed ins, stall := st.toNat, lane := true, latency := 14, reads := [(.v (a.toNat), .active), (.v (a.toNat + 1), .active), bUse b c 0, bUse b c 1], writes := [(.v (d.toNat), .active), (.v (d.toNat + 1), .active)] }
  | .imul st d a b c =>
    { valid := wellFormed ins, stall := st.toNat, lane := true, latency := 14, reads := [(.v (a.toNat), .active), bUse b c 0], writes := [(.v (d.toNat), .active)] }
  | .imulhi st d a b c =>
    { valid := wellFormed ins, stall := st.toNat, lane := true, latency := 14, reads := [(.v (a.toNat), .active), bUse b c 0], writes := [(.v (d.toNat), .active)] }
  | .imulhu st d a b c =>
    { valid := wellFormed ins, stall := st.toNat, lane := true, latency := 14, reads := [(.v (a.toNat), .active), bUse b c 0], writes := [(.v (d.toNat), .active)] }
  | .imad st d a b c =>
    { valid := wellFormed ins, stall := st.toNat, lane := true, latency := 14, reads := [(.v (a.toNat), .active), bUse b c 0, (.v (d.toNat), .active)], writes := [(.v (d.toNat), .active)] }
  | .imin st d a b c =>
    { valid := wellFormed ins, stall := st.toNat, lane := true, latency := 12, reads := [(.v (a.toNat), .active), bUse b c 0], writes := [(.v (d.toNat), .active)] }
  | .imax st d a b c =>
    { valid := wellFormed ins, stall := st.toNat, lane := true, latency := 12, reads := [(.v (a.toNat), .active), bUse b c 0], writes := [(.v (d.toNat), .active)] }
  | .iminu st d a b c =>
    { valid := wellFormed ins, stall := st.toNat, lane := true, latency := 12, reads := [(.v (a.toNat), .active), bUse b c 0], writes := [(.v (d.toNat), .active)] }
  | .imaxu st d a b c =>
    { valid := wellFormed ins, stall := st.toNat, lane := true, latency := 12, reads := [(.v (a.toNat), .active), bUse b c 0], writes := [(.v (d.toNat), .active)] }
  | .iabs st d a =>
    { valid := wellFormed ins, stall := st.toNat, lane := true, latency := 12, reads := [(.v (a.toNat), .active)], writes := [(.v (d.toNat), .active)] }
  | .ineg st d a =>
    { valid := wellFormed ins, stall := st.toNat, lane := true, latency := 12, reads := [(.v (a.toNat), .active)], writes := [(.v (d.toNat), .active)] }
  | .and st d a b c =>
    { valid := wellFormed ins, stall := st.toNat, lane := true, latency := 12, reads := [(.v (a.toNat), .active), bUse b c 0], writes := [(.v (d.toNat), .active)] }
  | .or st d a b c =>
    { valid := wellFormed ins, stall := st.toNat, lane := true, latency := 12, reads := [(.v (a.toNat), .active), bUse b c 0], writes := [(.v (d.toNat), .active)] }
  | .xor st d a b c =>
    { valid := wellFormed ins, stall := st.toNat, lane := true, latency := 12, reads := [(.v (a.toNat), .active), bUse b c 0], writes := [(.v (d.toNat), .active)] }
  | .andn st d a b c =>
    { valid := wellFormed ins, stall := st.toNat, lane := true, latency := 12, reads := [(.v (a.toNat), .active), bUse b c 0], writes := [(.v (d.toNat), .active)] }
  | .not st d a =>
    { valid := wellFormed ins, stall := st.toNat, lane := true, latency := 12, reads := [(.v (a.toNat), .active)], writes := [(.v (d.toNat), .active)] }
  | .shl st d a b c =>
    { valid := wellFormed ins, stall := st.toNat, lane := true, latency := 12, reads := [(.v (a.toNat), .active), bUse b c 0], writes := [(.v (d.toNat), .active)] }
  | .shr st d a b c =>
    { valid := wellFormed ins, stall := st.toNat, lane := true, latency := 12, reads := [(.v (a.toNat), .active), bUse b c 0], writes := [(.v (d.toNat), .active)] }
  | .sar st d a b c =>
    { valid := wellFormed ins, stall := st.toNat, lane := true, latency := 12, reads := [(.v (a.toNat), .active), bUse b c 0], writes := [(.v (d.toNat), .active)] }
  | .shli st d a _ =>
    { valid := wellFormed ins, stall := st.toNat, lane := true, latency := 12, reads := [(.v (a.toNat), .active)], writes := [(.v (d.toNat), .active)] }
  | .shri st d a _ =>
    { valid := wellFormed ins, stall := st.toNat, lane := true, latency := 12, reads := [(.v (a.toNat), .active)], writes := [(.v (d.toNat), .active)] }
  | .sari st d a _ =>
    { valid := wellFormed ins, stall := st.toNat, lane := true, latency := 12, reads := [(.v (a.toNat), .active)], writes := [(.v (d.toNat), .active)] }
  | .popc st d a =>
    { valid := wellFormed ins, stall := st.toNat, lane := true, latency := 12, reads := [(.v (a.toNat), .active)], writes := [(.v (d.toNat), .active)] }
  | .clz st d a =>
    { valid := wellFormed ins, stall := st.toNat, lane := true, latency := 12, reads := [(.v (a.toNat), .active)], writes := [(.v (d.toNat), .active)] }
  | .brev st d a =>
    { valid := wellFormed ins, stall := st.toNat, lane := true, latency := 12, reads := [(.v (a.toNat), .active)], writes := [(.v (d.toNat), .active)] }
  | .bfe st d a b c =>
    { valid := wellFormed ins, stall := st.toNat, lane := true, latency := 12, reads := [(.v (a.toNat), .active), bUse b c 0], writes := [(.v (d.toNat), .active)] }
  | .bfi st d a b c =>
    { valid := wellFormed ins, stall := st.toNat, lane := true, latency := 12, reads := [(.v (a.toNat), .active), bUse b c 0, (.v (d.toNat), .active)], writes := [(.v (d.toNat), .active)] }
  | .icmp st p _ a b u =>
    { valid := wellFormed ins, stall := st.toNat, lane := true, latency := 12, reads := [(.v (a.toNat), .active), bUse b u 0], writes := [(.p p.toNat, .active)] }
  | .sel st d a _ p =>
    { valid := wellFormed ins, stall := st.toNat, lane := true, latency := 12, reads := [(.v (a.toNat), .active), (.p p.toNat, .active)], writes := [(.v (d.toNat), .active)] }
  | .plut st d _ a b =>
    { valid := wellFormed ins, stall := st.toNat, lane := true, latency := 12, reads := [(.p a.toNat, .active), (.p b.toNat, .active)], writes := [(.p d.toNat, .active)] }
  | .fadd st d a b c =>
    { valid := wellFormed ins, stall := st.toNat, lane := true, latency := 12, reads := [(.v (a.toNat), .active), bUse b c 0], writes := [(.v (d.toNat), .active)] }
  | .fsub st d a b c =>
    { valid := wellFormed ins, stall := st.toNat, lane := true, latency := 12, reads := [(.v (a.toNat), .active), bUse b c 0], writes := [(.v (d.toNat), .active)] }
  | .fmul st d a b c =>
    { valid := wellFormed ins, stall := st.toNat, lane := true, latency := 12, reads := [(.v (a.toNat), .active), bUse b c 0], writes := [(.v (d.toNat), .active)] }
  | .ffma st d a b c =>
    { valid := wellFormed ins, stall := st.toNat, lane := true, latency := 12, reads := [(.v (a.toNat), .active), bUse b c 0, (.v (d.toNat), .active)], writes := [(.v (d.toNat), .active)] }
  | .fmin st d a b c =>
    { valid := wellFormed ins, stall := st.toNat, lane := true, latency := 12, reads := [(.v (a.toNat), .active), bUse b c 0], writes := [(.v (d.toNat), .active)] }
  | .fmax st d a b c =>
    { valid := wellFormed ins, stall := st.toNat, lane := true, latency := 12, reads := [(.v (a.toNat), .active), bUse b c 0], writes := [(.v (d.toNat), .active)] }
  | .fabs st d a =>
    { valid := wellFormed ins, stall := st.toNat, lane := true, latency := 12, reads := [(.v (a.toNat), .active)], writes := [(.v (d.toNat), .active)] }
  | .fneg st d a =>
    { valid := wellFormed ins, stall := st.toNat, lane := true, latency := 12, reads := [(.v (a.toNat), .active)], writes := [(.v (d.toNat), .active)] }
  | .fcmp st p _ a b u =>
    { valid := wellFormed ins, stall := st.toNat, lane := true, latency := 12, reads := [(.v (a.toNat), .active), bUse b u 0], writes := [(.p p.toNat, .active)] }
  | .frcp st d a =>
    { valid := wellFormed ins, stall := st.toNat, lane := true, latency := 28, reads := [(.v (a.toNat), .active)], writes := [(.v (d.toNat), .active)] }
  | .frsq st d a =>
    { valid := wellFormed ins, stall := st.toNat, lane := true, latency := 28, reads := [(.v (a.toNat), .active)], writes := [(.v (d.toNat), .active)] }
  | .fsqrt st d a =>
    { valid := wellFormed ins, stall := st.toNat, lane := true, latency := 28, reads := [(.v (a.toNat), .active)], writes := [(.v (d.toNat), .active)] }
  | .fexp2 st d a =>
    { valid := wellFormed ins, stall := st.toNat, lane := true, latency := 28, reads := [(.v (a.toNat), .active)], writes := [(.v (d.toNat), .active)] }
  | .flog2 st d a =>
    { valid := wellFormed ins, stall := st.toNat, lane := true, latency := 28, reads := [(.v (a.toNat), .active)], writes := [(.v (d.toNat), .active)] }
  | .fsint st d a =>
    { valid := wellFormed ins, stall := st.toNat, lane := true, latency := 28, reads := [(.v (a.toNat), .active)], writes := [(.v (d.toNat), .active)] }
  | .fcost st d a =>
    { valid := wellFormed ins, stall := st.toNat, lane := true, latency := 28, reads := [(.v (a.toNat), .active)], writes := [(.v (d.toNat), .active)] }
  | .frnd st d a _ =>
    { valid := wellFormed ins, stall := st.toNat, lane := true, latency := 12, reads := [(.v (a.toNat), .active)], writes := [(.v (d.toNat), .active)] }
  | .fclass st d a =>
    { valid := wellFormed ins, stall := st.toNat, lane := true, latency := 12, reads := [(.v (a.toNat), .active)], writes := [(.v (d.toNat), .active)] }
  | .pbadd st d a b c =>
    { valid := wellFormed ins, stall := st.toNat, lane := true, latency := 12, reads := [(.v (a.toNat), .active), bUse b c 0], writes := [(.v (d.toNat), .active)] }
  | .pbmul st d a b c =>
    { valid := wellFormed ins, stall := st.toNat, lane := true, latency := 12, reads := [(.v (a.toNat), .active), bUse b c 0], writes := [(.v (d.toNat), .active)] }
  | .pbfma st d a b c =>
    { valid := wellFormed ins, stall := st.toNat, lane := true, latency := 12, reads := [(.v (a.toNat), .active), bUse b c 0, (.v (d.toNat), .active)], writes := [(.v (d.toNat), .active)] }
  | .phadd st d a b c =>
    { valid := wellFormed ins, stall := st.toNat, lane := true, latency := 12, reads := [(.v (a.toNat), .active), bUse b c 0], writes := [(.v (d.toNat), .active)] }
  | .phmul st d a b c =>
    { valid := wellFormed ins, stall := st.toNat, lane := true, latency := 12, reads := [(.v (a.toNat), .active), bUse b c 0], writes := [(.v (d.toNat), .active)] }
  | .phfma st d a b c =>
    { valid := wellFormed ins, stall := st.toNat, lane := true, latency := 12, reads := [(.v (a.toNat), .active), bUse b c 0, (.v (d.toNat), .active)], writes := [(.v (d.toNat), .active)] }
  | .cvt st d a _ _ _ =>
    { valid := wellFormed ins, stall := st.toNat, lane := true, latency := 12, reads := [(.v (a.toNat), .active)], writes := [(.v (d.toNat), .active)] }
  | .bsplit st d a =>
    { valid := wellFormed ins, stall := st.toNat, lane := true, latency := 14, reads := [(.v (a.toNat), .active)], writes := [(.v (d.toNat), .active), (.v (d.toNat + 1), .active)] }
  | .pack2 st d a b c =>
    { valid := wellFormed ins, stall := st.toNat, lane := true, latency := 12, reads := [(.v (a.toNat), .active), bUse b c 0], writes := [(.v (d.toNat), .active)] }
  | .unpk2 st d a _ _ =>
    { valid := wellFormed ins, stall := st.toNat, lane := true, latency := 12, reads := [(.v (a.toNat), .active)], writes := [(.v (d.toNat), .active)] }
  | .qnt st d a p _ =>
    { valid := wellFormed ins, stall := st.toNat, version := 3, lane := true, latency := 24, reads := [(.v (a.toNat), .blocks)], writes := [(.v (d.toNat), .active), (.p p.toNat, .active)] }
  | .dqnt st d a _ _ _ =>
    { valid := wellFormed ins, stall := st.toNat, version := 3, lane := true, latency := 16, reads := [(.v (a.toNat), .active)], writes := [(.v (d.toNat), .active)] }
  | .niget st d a _ =>
    { valid := wellFormed ins, stall := st.toNat, version := 3, lane := true, latency := 16, reads := [(.v (a.toNat), .blocks)], writes := [(.v (d.toNat), .active)] }
  | .niput st d a _ =>
    { valid := wellFormed ins, stall := st.toNat, version := 3, lane := true, latency := 16, reads := [(.v (a.toNat), .blocks)], writes := [(.v (d.toNat), .active)] }
  | .sacc st d a b c =>
    { valid := wellFormed ins, stall := st.toNat, version := 3, lane := true, latency := 16, reads := [(.v (a.toNat), .active), bUse b c 0, (.v (d.toNat), .active)], writes := [(.v (d.toNat), .active)] }
  | .lds st d a _ =>
    { valid := wellFormed ins, stall := st.toNat, lane := true, latency := 14, reads := [(.v (a.toNat), .active)], writes := [(.v (d.toNat), .active)], quiet := true }
  | .sts st d a _ =>
    { valid := wellFormed ins, stall := st.toNat, lane := true, reads := [(.v (a.toNat), .active), (.v (d.toNat), .active)], quiet := true }
  | .lds64 st d a _ =>
    { valid := wellFormed ins, stall := st.toNat, lane := true, latency := 14, reads := [(.v (a.toNat), .active)], writes := [(.v (d.toNat), .active), (.v (d.toNat + 1), .active)], quiet := true }
  | .sts64 st d a _ =>
    { valid := wellFormed ins, stall := st.toNat, lane := true, reads := [(.v (a.toNat), .active), (.v (d.toNat), .active), (.v (d.toNat + 1), .active)], quiet := true }
  | .ldw st d a _ =>
    { valid := wellFormed ins, stall := st.toNat, lane := true, latency := 26, reads := [(.v (a.toNat), .active)], writes := [(.v (d.toNat), .active)], quiet := true }
  | .stw st d a _ =>
    { valid := wellFormed ins, stall := st.toNat, lane := true, reads := [(.v (a.toNat), .active), (.v (d.toNat), .active)], quiet := true }
  | .ldsp st d a _ =>
    { valid := wellFormed ins, stall := st.toNat, lane := true, latency := 14, reads := [(.v (a.toNat), .active)], writes := [(.v (d.toNat), .active)], quiet := true }
  | .stsp st d a _ =>
    { valid := wellFormed ins, stall := st.toNat, lane := true, reads := [(.v (a.toNat), .active), (.v (d.toNat), .active)], quiet := true }
  | .ldd st d a _ =>
    { valid := wellFormed ins, stall := st.toNat, lane := true, latency := 40, reads := [(.v (a.toNat), .active)], writes := [(.v (d.toNat), .active)], quiet := true }
  | .std st d a _ =>
    { valid := wellFormed ins, stall := st.toNat, lane := true, reads := [(.v (a.toNat), .active), (.v (d.toNat), .active)], quiet := true }
  | .ldc st d a _ =>
    { valid := wellFormed ins, stall := st.toNat, lane := true, latency := 14, reads := [(.v (a.toNat), .active)], writes := [(.v (d.toNat), .active)], quiet := true }
  | .atom st d a _ _ =>
    { valid := wellFormed ins, stall := st.toNat, lane := true, latency := 30, reads := [(.v (a.toNat), .active), (.v (d.toNat), .active)], writes := [(.v (d.toNat), .active)], noRegion := true, quiet := true }
  | .cas st d a _ =>
    { valid := wellFormed ins, stall := st.toNat, lane := true, latency := 30, reads := [(.v (a.toNat), .active), (.v (d.toNat), .active), (.v (d.toNat + 1), .active)], writes := [(.v (d.toNat), .active), (.v (d.toNat + 1), .active)], noRegion := true, quiet := true }
  | .shfli st d a _ _ =>
    { valid := wellFormed ins, stall := st.toNat, lane := true, latency := 14, reads := [(.v (a.toNat), .every)], writes := [(.v (d.toNat), .active)] }
  | .shfl st d a b c =>
    { valid := wellFormed ins, stall := st.toNat, lane := true, latency := 14, reads := [(.v (a.toNat), .every), bUse b c 0], writes := [(.v (d.toNat), .active)] }
  | .vote st p _ _ q =>
    { valid := wellFormed ins, stall := st.toNat, lane := true, latency := 14, reads := [(.p q.toNat, .active)], writes := [(.p p.toNat, .active)] }
  | .ballot st d _ _ p =>
    { valid := wellFormed ins, stall := st.toNat, lane := true, latency := 14, reads := [(.p p.toNat, .active)], writes := [(.v (d.toNat), .active)] }
  | .rdlane st d a _ =>
    { valid := wellFormed ins, stall := st.toNat, lane := true, latency := 14, reads := [(.v (a.toNat), .every)], writes := [(.s (d.toNat), .active)], quiet := true }
  | .wrlane st d a i =>
    { valid := wellFormed ins, stall := st.toNat, lane := true, latency := 14, reads := [(.s (a.toNat), .active)], writes := [(.v (d.toNat), (.one i.toNat))], quiet := true }
  | .matchKeys st d a b c =>
    { valid := wellFormed ins, stall := st.toNat, lane := true, latency := 16, reads := [(.v (a.toNat), .active), bUse b c 0], writes := [(.v (d.toNat), .active)] }
  | .gen st d a g =>
    { valid := wellFormed ins, stall := st.toNat, version := 3, lane := true, latency := 26, reads := [(.v (a.toNat), .active), (.v (a.toNat + 1), .active), (.g g.toNat, .active)], writes := [(.v (d.toNat), .active)], quiet := true }
  | .gent st d a g =>
    { valid := wellFormed ins, stall := st.toNat, version := 3, lane := true, latency := 26, reads := [(.v (a.toNat), .active), (.v (a.toNat + 1), .active), (.g g.toNat, .active)], writes := [(.v (d.toNat), .active)], quiet := true }
  | .svc st d _ =>
    { valid := wellFormed ins, stall := st.toNat, lane := true, latency := 12, reads := [(.v (4 * d.toNat), .active), (.v (4 * d.toNat + 1), .active), (.v (4 * d.toNat + 2), .active), (.v (4 * d.toNat + 3), .active)], writes := [(.v (4 * d.toNat), .active), (.v (4 * d.toNat + 1), .active)], noRegion := true, quiet := true }
  | .laneid st d =>
    { valid := wellFormed ins, stall := st.toNat, lane := true, latency := 12, writes := [(.v (d.toNat), .active)] }
  | .brk st _ =>
    { valid := wellFormed ins, stall := st.toNat, lane := true, quiet := true }
  | .snop st =>
    { valid := wellFormed ins, stall := st.toNat }
  | .smov st d b =>
    { valid := wellFormed ins, stall := st.toNat, latency := 12, reads := [(.s (b.toNat), .active)], writes := [(.s (d.toNat), .active)] }
  | .slimm st d _ =>
    { valid := wellFormed ins, stall := st.toNat, latency := 12, writes := [(.s (d.toNat), .active)] }
  | .slimmh st d _ =>
    { valid := wellFormed ins, stall := st.toNat, latency := 12, reads := [(.s (d.toNat), .active)], writes := [(.s (d.toNat), .active)] }
  | .sadd st d a b =>
    { valid := wellFormed ins, stall := st.toNat, latency := 12, reads := [(.s (a.toNat), .active), (.s (b.toNat), .active)], writes := [(.s (d.toNat), .active)] }
  | .ssub st d a b =>
    { valid := wellFormed ins, stall := st.toNat, latency := 12, reads := [(.s (a.toNat), .active), (.s (b.toNat), .active)], writes := [(.s (d.toNat), .active)] }
  | .saddi st d a _ =>
    { valid := wellFormed ins, stall := st.toNat, latency := 12, reads := [(.s (a.toNat), .active)], writes := [(.s (d.toNat), .active)] }
  | .sadd64 st d a b =>
    { valid := wellFormed ins, stall := st.toNat, latency := 14, reads := [(.s (a.toNat), .active), (.s (a.toNat + 1), .active), (.s (b.toNat), .active), (.s (b.toNat + 1), .active)], writes := [(.s (d.toNat), .active), (.s (d.toNat + 1), .active)] }
  | .smul st d a b =>
    { valid := wellFormed ins, stall := st.toNat, latency := 14, reads := [(.s (a.toNat), .active), (.s (b.toNat), .active)], writes := [(.s (d.toNat), .active)] }
  | .smulhi st d a b _ =>
    { valid := wellFormed ins, stall := st.toNat, latency := 14, reads := [(.s (a.toNat), .active), (.s (b.toNat), .active)], writes := [(.s (d.toNat), .active)] }
  | .sand st d a b =>
    { valid := wellFormed ins, stall := st.toNat, latency := 12, reads := [(.s (a.toNat), .active), (.s (b.toNat), .active)], writes := [(.s (d.toNat), .active)] }
  | .sor st d a b =>
    { valid := wellFormed ins, stall := st.toNat, latency := 12, reads := [(.s (a.toNat), .active), (.s (b.toNat), .active)], writes := [(.s (d.toNat), .active)] }
  | .sxor st d a b =>
    { valid := wellFormed ins, stall := st.toNat, latency := 12, reads := [(.s (a.toNat), .active), (.s (b.toNat), .active)], writes := [(.s (d.toNat), .active)] }
  | .sshl st d a b =>
    { valid := wellFormed ins, stall := st.toNat, latency := 12, reads := [(.s (a.toNat), .active), (.s (b.toNat), .active)], writes := [(.s (d.toNat), .active)] }
  | .sshr st d a b =>
    { valid := wellFormed ins, stall := st.toNat, latency := 12, reads := [(.s (a.toNat), .active), (.s (b.toNat), .active)], writes := [(.s (d.toNat), .active)] }
  | .ssar st d a b =>
    { valid := wellFormed ins, stall := st.toNat, latency := 12, reads := [(.s (a.toNat), .active), (.s (b.toNat), .active)], writes := [(.s (d.toNat), .active)] }
  | .sshli st d a _ =>
    { valid := wellFormed ins, stall := st.toNat, latency := 12, reads := [(.s (a.toNat), .active)], writes := [(.s (d.toNat), .active)] }
  | .sshri st d a _ =>
    { valid := wellFormed ins, stall := st.toNat, latency := 12, reads := [(.s (a.toNat), .active)], writes := [(.s (d.toNat), .active)] }
  | .smin st d a b _ =>
    { valid := wellFormed ins, stall := st.toNat, latency := 12, reads := [(.s (a.toNat), .active), (.s (b.toNat), .active)], writes := [(.s (d.toNat), .active)] }
  | .smax st d a b _ =>
    { valid := wellFormed ins, stall := st.toNat, latency := 12, reads := [(.s (a.toNat), .active), (.s (b.toNat), .active)], writes := [(.s (d.toNat), .active)] }
  | .spopc st d a =>
    { valid := wellFormed ins, stall := st.toNat, latency := 12, reads := [(.s (a.toNat), .active)], writes := [(.s (d.toNat), .active)] }
  | .sclz st d a =>
    { valid := wellFormed ins, stall := st.toNat, latency := 12, reads := [(.s (a.toNat), .active)], writes := [(.s (d.toNat), .active)] }
  | .scmp st p _ a b =>
    { valid := wellFormed ins, stall := st.toNat, latency := 12, reads := [(.s (a.toNat), .active), (.s (b.toNat), .active)], writes := [(.p p.toNat, .active)], quiet := true }
  | .ssel st d a p _ =>
    { valid := wellFormed ins, stall := st.toNat, latency := 12, reads := [(.s (a.toNat), .active), (.p p.toNat, .active)], writes := [(.s (d.toNat), .active)] }
  | .sfadd st d a b =>
    { valid := wellFormed ins, stall := st.toNat, latency := 12, reads := [(.s (a.toNat), .active), (.s (b.toNat), .active)], writes := [(.s (d.toNat), .active)] }
  | .sfmul st d a b =>
    { valid := wellFormed ins, stall := st.toNat, latency := 12, reads := [(.s (a.toNat), .active), (.s (b.toNat), .active)], writes := [(.s (d.toNat), .active)] }
  | .sffma st d a b =>
    { valid := wellFormed ins, stall := st.toNat, latency := 12, reads := [(.s (a.toNat), .active), (.s (b.toNat), .active), (.s (d.toNat), .active)], writes := [(.s (d.toNat), .active)] }
  | .sldc st d a _ =>
    { valid := wellFormed ins, stall := st.toNat, latency := 14, reads := [(.s (a.toNat), .active)], writes := [(.s (d.toNat), .active)] }
  | .slds st d a _ =>
    { valid := wellFormed ins, stall := st.toNat, latency := 14, reads := [(.s (a.toNat), .active)], writes := [(.s (d.toNat), .active)] }
  | .ssts st d a _ =>
    { valid := wellFormed ins, stall := st.toNat, reads := [(.s (a.toNat), .active), (.s (d.toNat), .active)] }
  | .srd st d _ l =>
    { valid := wellFormed ins, stall := st.toNat, latency := 12, writes := [if l == 1 then (.v d.toNat, .active) else (.s d.toNat, .active)] }
  | .swr st a _ =>
    { valid := wellFormed ins, stall := st.toNat, reads := [(.s (a.toNat), .active)] }
  | .bra st p _ _ =>
    { valid := wellFormed ins, stall := st.toNat, reads := [(.p p.toNat, .active)] }
  | .br st p _ _ =>
    { valid := wellFormed ins, stall := st.toNat, reads := [(.p p.toNat, .active)] }
  | .join st =>
    { valid := wellFormed ins, stall := st.toNat }
  | .jmp st _ =>
    { valid := wellFormed ins, stall := st.toNat }
  | .call st _ =>
    { valid := wellFormed ins, stall := st.toNat }
  | .ret st =>
    { valid := wellFormed ins, stall := st.toNat }
  | .brx st a =>
    { valid := wellFormed ins, stall := st.toNat, reads := [(.s (a.toNat), .active)] }
  | .lhead st p _ =>
    { valid := wellFormed ins, stall := st.toNat, reads := [(.p p.toNat, .active)], noRegion := true }
  | .exit st =>
    { valid := wellFormed ins, stall := st.toNat }
  | .sleep st _ =>
    { valid := wellFormed ins, stall := st.toNat }
  | .emrd st d =>
    { valid := wellFormed ins, stall := st.toNat, latency := 12, writes := sRun (4 * d.toNat) 4 }
  | .emwr st a =>
    { valid := wellFormed ins, stall := st.toNat, reads := sRun (4 * a.toNat) 4 }
  | .emandReg st a =>
    { valid := wellFormed ins, stall := st.toNat, reads := sRun (4 * a.toNat) 4 }
  | .emandPred st p _ =>
    { valid := wellFormed ins, stall := st.toNat, reads := [(.p p.toNat, .active)] }
  | .xlate st a _ _ _ x =>
    { valid := wellFormed ins, stall := st.toNat, latency := 26, reads := [(.s (2 * a.toNat), .active), (.s (2 * a.toNat + 1), .active)], writes := [(.x x.toNat, .active)] }
  | .xrd st d n =>
    { valid := wellFormed ins, stall := st.toNat, latency := 12, reads := [(.x n.toNat, .active)], writes := sRun (4 * d.toNat) 4 }
  | .xinv st m =>
    { valid := wellFormed ins, stall := st.toNat, writes := ((List.range 8).filter (fun j => m.getLsbD j)).map fun j => (.x j, .active) }
  | .fence st _ _ =>
    { valid := wellFormed ins, stall := st.toNat }
  | .ackrd st d =>
    { valid := wellFormed ins, stall := st.toNat, latency := 12, writes := [(.s (d.toNat), .active)] }
  | .icinv st _ _ =>
    { valid := wellFormed ins, stall := st.toNat }
  | .region st _ =>
    { valid := wellFormed ins, stall := st.toNat }
  | .regend st =>
    { valid := wellFormed ins, stall := st.toNat }
  | .cpy st d a k _ =>
    { valid := wellFormed ins, stall := st.toNat, kslot := k != 0, latency := 12, reads := sRun (8 * a.toNat) 8, writes := [(.s (d.toNat), .active)] }
  | .cpyg st d a k _ =>
    { valid := wellFormed ins, stall := st.toNat, kslot := k != 0, latency := 12, reads := sRun (8 * a.toNat) 8, writes := [(.s (d.toNat), .active)] }
  | .cpyr st d a k _ =>
    { valid := wellFormed ins, stall := st.toNat, kslot := k != 0, latency := 12, reads := sRun (8 * a.toNat) 8, writes := [(.s (d.toNat), .active)] }
  | .cpya st d a k _ =>
    { valid := wellFormed ins, stall := st.toNat, kslot := k != 0, latency := 12, reads := sRun (8 * a.toNat) 8, writes := [(.s (d.toNat), .active)], noRegion := true }
  | .cbatch st d =>
    { valid := wellFormed ins, stall := st.toNat, latency := 12, writes := [(.s (d.toNat), .active)] }
  | .waitb st a =>
    { valid := wellFormed ins, stall := st.toNat, reads := [(.s (a.toNat), .active)] }
  | .testc st d a b =>
    { valid := wellFormed ins, stall := st.toNat, latency := 12, reads := [(.s (a.toNat), .active), (.s (b.toNat), .active)], writes := [(.s (d.toNat), .active)] }
  | .waitc st a b =>
    { valid := wellFormed ins, stall := st.toNat, reads := [(.s (a.toNat), .active), (.s (b.toNat), .active)] }
  | .mma st d a k _ =>
    { valid := wellFormed ins, stall := st.toNat, kslot := k != 0, latency := 12, reads := sRun (8 * a.toNat) 8, writes := [(.s (d.toNat), .active)] }
  | .mmai st d a k _ =>
    { valid := wellFormed ins, stall := st.toNat, version := 3, kslot := k != 0, latency := 12, reads := sRun (8 * a.toNat) 8, writes := [(.s (d.toNat), .active)] }
  | .ldst st d a k _ =>
    { valid := wellFormed ins, stall := st.toNat, kslot := k != 0, latency := 12, reads := sRun (8 * a.toNat) 8, writes := [(.s (d.toNat), .active)] }
  | .accz st d a k _ =>
    { valid := wellFormed ins, stall := st.toNat, kslot := k != 0, latency := 12, reads := sRun (8 * a.toNat) 8, writes := [(.s (d.toNat), .active)] }
  | .accrd st d a k _ =>
    { valid := wellFormed ins, stall := st.toNat, kslot := k != 0, latency := 12, reads := sRun (8 * a.toNat) 8, writes := [(.s (d.toNat), .active)] }
  | .accwr st d a k _ =>
    { valid := wellFormed ins, stall := st.toNat, kslot := k != 0, latency := 12, reads := sRun (8 * a.toNat) 8, writes := [(.s (d.toNat), .active)] }
  | .sacct st d a k _ =>
    { valid := wellFormed ins, stall := st.toNat, version := 3, kslot := k != 0, latency := 12, reads := sRun (8 * a.toNat) 8, writes := [(.s (d.toNat), .active)] }
  | .opfence st =>
    { valid := wellFormed ins, stall := st.toNat }
  | .waitm st a =>
    { valid := wellFormed ins, stall := st.toNat, reads := [(.s (a.toNat), .active)] }
  | .mseq st d a =>
    { valid := wellFormed ins, stall := st.toNat, latency := 12, reads := [(.s (a.toNat), .active)], writes := [(.s (d.toNat), .active)] }
  | .tailp st a _ =>
    { valid := wellFormed ins, stall := st.toNat, reads := [(.s (a.toNat), .active)] }
  | .gset st a g =>
    { valid := wellFormed ins, stall := st.toNat, version := 3, latency := 12, reads := sRun (4 * a.toNat) 4, writes := [(.g g.toNat, .active)] }
  | .grd st d g =>
    { valid := wellFormed ins, stall := st.toNat, version := 3, latency := 12, reads := [(.g g.toNat, .active)], writes := sRun (4 * d.toNat) 4 }
  | .gstep st =>
    { valid := wellFormed ins, stall := st.toNat, version := 3, noRegion := true }
  | .kset st a _ m =>
    { valid := wellFormed ins, stall := st.toNat, version := 2, reads := if m == 2 then [(.s a.toNat, .active)] else [], noRegion := true }
  | .krd st d =>
    { valid := wellFormed ins, stall := st.toNat, version := 2, latency := 12, writes := [(.s (d.toNat), .active)] }
  | .kclr st _ =>
    { valid := wellFormed ins, stall := st.toNat, version := 2, noRegion := true }
  | .bar st _ =>
    { valid := wellFormed ins, stall := st.toNat, noRegion := true }
  | .barc st =>
    { valid := wellFormed ins, stall := st.toNat, noRegion := true }
  | .barm st a _ =>
    { valid := wellFormed ins, stall := st.toNat, reads := sRun (4 * a.toNat) 4, noRegion := true }
  | .arrive st _ =>
    { valid := wellFormed ins, stall := st.toNat, noRegion := true }
  | .await st _ =>
    { valid := wellFormed ins, stall := st.toNat, noRegion := true }
  | .barg st =>
    { valid := wellFormed ins, stall := st.toNat, noRegion := true }
  | .barinit st a _ =>
    { valid := wellFormed ins, stall := st.toNat, reads := sRun (4 * a.toNat) 4, noRegion := true }
  | .barrd st d _ _ =>
    { valid := wellFormed ins, stall := st.toNat, latency := 12, writes := [(.s (d.toNat), .active)], noRegion := true }
  | .qpush st a _ =>
    { valid := wellFormed ins, stall := st.toNat, reads := sRun (16 * a.toNat) 16, noRegion := true }
  | .launch st a =>
    { valid := wellFormed ins, stall := st.toNat, reads := sRun (16 * a.toNat) 16, noRegion := true }
  | .shape st a =>
    { valid := wellFormed ins, stall := st.toNat, version := 2, reads := sRun (4 * a.toNat) 4, noRegion := true }
  | .arm st _ a _ _ =>
    { valid := wellFormed ins, stall := st.toNat, reads := [(.s (a.toNat), .active)], noRegion := true }
  | .hring st a _ _ n =>
    { valid := wellFormed ins, stall := st.toNat, reads := if n == 1 then [] else sRun (4 * a.toNat) 4, noRegion := true }
  | .hpost st a =>
    { valid := wellFormed ins, stall := st.toNat, priv := true, reads := sRun (16 * a.toNat) 16 }
  | .mapft st _ a =>
    { valid := wellFormed ins, stall := st.toNat, priv := true, reads := sRun (4 * a.toNat) 4 }
  | .fqpost st a =>
    { valid := wellFormed ins, stall := st.toNat, priv := true, reads := sRun (4 * a.toNat) 4 }
  | .tlbinv st a =>
    { valid := wellFormed ins, stall := st.toNat, priv := true, reads := sRun (4 * a.toNat) 4 }
  | .trap st _ =>
    { valid := wellFormed ins, stall := st.toNat }
  | .rft st _ =>
    { valid := wellFormed ins, stall := st.toNat, priv := true }
  | .srdp st d _ =>
    { valid := wellFormed ins, stall := st.toNat, priv := true, latency := 12, writes := [(.s (d.toNat), .active)] }
  | .swrp st a _ =>
    { valid := wellFormed ins, stall := st.toNat, priv := true, reads := [(.s (a.toNat), .active)] }
  | .sleepw st _ a b =>
    { valid := wellFormed ins, stall := st.toNat, reads := [(.s (a.toNat), .active), (.s (b.toNat), .active)] }
  | .fqtake st d _ =>
    { valid := wellFormed ins, stall := st.toNat, priv := true, latency := 14, writes := sRun (8 * d.toNat) 8 }
  | .svctake st d _ =>
    { valid := wellFormed ins, stall := st.toNat, priv := true, latency := 14, writes := sRun (8 * d.toNat) 8 }
  | .svcdone st a b =>
    { valid := wellFormed ins, stall := st.toNat, priv := true, reads := [(.s (a.toNat), .active), (.s (b.toNat), .active)] }
  | .groupWaitEnds _ => {}
  | .storePerformed _ _ => {}
  | .notify _ _ _ => {}
  | .launchCmd _ => {}
  | .copy _ => {}
  | .wait _ => {}
  | .waitReevaluate _ => {}
  | .signal _ => {}
  | .graph _ => {}
  | .graphRunStart _ _ => {}
  | .cond _ => {}
  | .commandComplete _ => {}
  | .queueOff _ _ => {}
  | .completionRecord _ _ => {}
  | .serviceSliceBoundary _ => {}
  | .create _ _ _ _ _ => {}
  | .setattr _ _ _ _ _ => {}
  | .map _ _ _ _ _ => {}
  | .unmap _ _ _ _ _ => {}
  | .sealCtx _ _ _ _ _ => {}
  | .suspend _ _ _ _ _ => {}
  | .resume _ _ _ _ _ => {}
  | .ckpt _ _ _ _ _ => {}
  | .restore _ _ _ _ _ => {}
  | .destroy _ _ _ _ _ => {}
  | .wipeComplete _ => {}
  | .claim _ _ _ _ _ => {}
  | .unclaim _ _ _ _ _ => {}
  | .update _ _ _ _ _ => {}
  | .updateQuiesceTimeout => {}
  | .flip _ _ => {}
  | .biasFlipComplete _ => {}
  | .errconsWrite _ _ => {}
  | .registerWrite _ _ _ => {}
  | .attestationRequest _ _ _ => {}
  | .hostWrite _ _ _ => {}
  | .hostRead _ _ => {}
  | .atsInvalidation _ _ _ => {}
  | .atsInvalidationTimeout _ => {}
  | .gangPlace _ _ => {}
  | .gangRelease _ => {}
  | .blockRetire _ => {}
  | .preempt _ _ => {}
  | .gangResume _ => {}
  | .holdDrain _ => {}
  | .copyCommandStart _ => {}
  | .copyChunkDone _ _ _ => {}
  | .copyCommandComplete _ _ => {}
  | .orderedReductionApply _ => {}
  | .matrixCommandStart _ => {}
  | .matrixCommandComplete _ _ => {}
  | .softError _ _ _ => {}
  | .correctedErrorThreshold _ => {}
  | .portEnable _ => {}
  | .trainingComplete _ _ _ _ => {}
  | .trainingTimeout _ => {}
  | .retrainTimer _ => {}
  | .laneFailure _ => {}
  | .lossOfLock _ => {}
  | .portRetire _ => {}
  | .idle _ _ => {}
  | .pause _ _ => {}
  | .retry _ _ => {}
  | .snap _ _ => {}
  | .barr _ _ => {}
  | .whead _ _ => {}
  | .wacc _ _ => {}
  | .data _ _ => {}
  | .rreq _ _ => {}
  | .rhead _ _ => {}
  | .atomFlit _ _ => {}
  | .atomr _ _ => {}
  | .ack _ _ => {}
  | .radd _ _ => {}
  | .operationTimeout _ _ => {}
  | .hallEvent _ _ => {}
  | .hallAck _ _ => {}
  | .token _ _ => {}
  | .stable _ _ => {}
  | .recover _ _ => {}
  | .reply _ _ => {}
  | .ackWaitTimeout => {}
  | .tokenTimeout => {}
  | .recoveryCollect => {}
  | .suspect _ => {}
  | .wingFailover => {}
  | .firstHeartbeat _ => {}
  | .provisioningToken _ => {}
  | .deploymentToken _ => {}
  | .rmaToken _ => {}
  | .repairToken _ => {}
  | .decommissionToken _ => {}
  | .packageReset => {}
  | .budgetPeriod _ => {}
  | .stateTableChange _ => {}
  | .flitFailsCrc _ => {}
  | .logicalDeviceBind _ _ _ _ => {}
  | .powerLoss => {}

end Sys2Proof.Machine
end

