-- ==== Sys2Proof/Machine/Numbers.lean ====
section
/-!
DEFINITION. Machine/Numbers.lean: the number formats and arithmetic of R53 to R70, on exact
dyadic rationals: every operation computes the exact result and rounds it once (R61).
-/
namespace Sys2Proof.Machine

/-- A binary floating-point format: fraction bits and exponent bits (R53). -/
structure Fmt where
  frac : Nat
  ebits : Nat
  deriving DecidableEq, Repr

def fp32 : Fmt := ⟨23, 8⟩
def fp16 : Fmt := ⟨10, 5⟩
def bf16 : Fmt := ⟨7, 8⟩

/-- The exponent bias B of a format (R53). -/
def fmtBias (f : Fmt) : Nat := 2 ^ (f.ebits - 1) - 1
/-- The all-ones exponent field E1. -/
def fmtTop (f : Fmt) : Nat := 2 ^ f.ebits - 1
/-- The canonical NaN of a format (R53, R55). -/
def canonNaN (f : Fmt) : Nat := fmtTop f * 2 ^ f.frac + 2 ^ (f.frac - 1)
/-- The pattern of an infinity. -/
def infBits (f : Fmt) (neg : Bool) : Nat :=
  (if neg then 2 ^ (f.frac + f.ebits) else 0) + fmtTop f * 2 ^ f.frac
/-- The pattern of a zero. -/
def zeroBits (f : Fmt) (neg : Bool) : Nat := if neg then 2 ^ (f.frac + f.ebits) else 0

/-- A decoded floating-point value: `fin neg m e` is (−1)^neg × m × 2^e. -/
inductive FVal where
  | nan
  | inf (neg : Bool)
  | fin (neg : Bool) (m : Nat) (e : Int)
  deriving DecidableEq, Repr

/-- fval of R53. -/
def fval (f : Fmt) (bits : Nat) : FVal :=
  let neg := (bits / 2 ^ (f.frac + f.ebits)) % 2 == 1
  let e := (bits / 2 ^ f.frac) % 2 ^ f.ebits
  let m := bits % 2 ^ f.frac
  if e = fmtTop f then (if m = 0 then .inf neg else .nan)
  else if e = 0 then .fin neg m (1 - (fmtBias f : Int) - f.frac)
  else .fin neg (2 ^ f.frac + m) ((e : Int) - fmtBias f - f.frac)

/-- The four rounding modes of R59. -/
inductive RMode where
  | rne | rz | ru | rd
  deriving DecidableEq, Repr

/-- The encoding of a rounding field (R59). -/
def rmodeOf (c : BitVec 2) : RMode :=
  if c = 0 then .rne else if c = 1 then .rz else if c = 2 then .ru else .rd

/-- m × 2^e rounded to an integer magnitude in a mode; `neg` is the sign of the value (R59). -/
def roundMag (mode : RMode) (neg : Bool) (m : Nat) (e : Int) : Nat :=
  if 0 ≤ e then m * 2 ^ e.toNat
  else
    let d := (-e).toNat
    let q := m / 2 ^ d
    let r := m % 2 ^ d
    if r = 0 then q
    else match mode with
      | .rne => if 2 * r > 2 ^ d then q + 1 else if 2 * r = 2 ^ d then q + q % 2 else q
      | .rz => q
      | .ru => if neg then q else q + 1
      | .rd => if neg then q + 1 else q

/-- What an overflowing result becomes (R60). -/
def overflowBits (f : Fmt) (mode : RMode) (neg : Bool) : Nat :=
  let big := infBits f neg - 1
  match mode with
  | .rne => infBits f neg
  | .rz => big
  | .ru => if neg then big else infBits f neg
  | .rd => if neg then infBits f neg else big

/-- rnd(x, f, mode) of R5 and R60 for x = (−1)^neg × m × 2^e, subnormals and overflow included. -/
def rnd (f : Fmt) (mode : RMode) (neg : Bool) (m : Nat) (e : Int) : Nat :=
  if m = 0 then zeroBits f neg
  else
    let emin : Int := 1 - (fmtBias f : Int)
    let ue : Int := max ((Nat.log2 m : Int) + e) emin - f.frac
    let q := roundMag mode neg m (e - ue)
    let bits := (ue - (emin - f.frac)).toNat * 2 ^ f.frac + q
    if fmtTop f * 2 ^ f.frac ≤ bits then overflowBits f mode neg
    else zeroBits f neg + bits

/-- rnd of a value, NaN and infinities included (R55). -/
def rndVal (f : Fmt) (mode : RMode) : FVal → Nat
  | .nan => canonNaN f
  | .inf n => infBits f n
  | .fin n m e => rnd f mode n m e

/-- A signed mantissa. -/
def signed (neg : Bool) (m : Nat) : Int := if neg then -(m : Int) else m

/-- The exact sum of two values under RNE, RZ or RU: an exact zero of operands of opposite sign is +0 (R60). -/
def fAddVal : FVal → FVal → FVal
  | .nan, _ => .nan
  | _, .nan => .nan
  | .inf a, .inf b => if a = b then .inf a else .nan
  | .inf a, .fin _ _ _ => .inf a
  | .fin _ _ _, .inf b => .inf b
  | .fin na ma ea, .fin nb mb eb =>
    let e := min ea eb
    let t := signed na (ma * 2 ^ (ea - e).toNat) + signed nb (mb * 2 ^ (eb - e).toNat)
    if t = 0 then .fin (na && nb) 0 e
    else .fin (t < 0) t.natAbs e

/-- The exact product of two values (R60: the exclusive-or of the signs; 0 × ∞ is NaN, R55). -/
def fMulVal : FVal → FVal → FVal
  | .nan, _ => .nan
  | _, .nan => .nan
  | .inf a, .inf b => .inf (a != b)
  | .inf a, .fin b m _ => if m = 0 then .nan else .inf (a != b)
  | .fin a m _, .inf b => if m = 0 then .nan else .inf (a != b)
  | .fin a ma ea, .fin b mb eb => .fin (a != b) (ma * mb) (ea + eb)

def fNegVal : FVal → FVal
  | .nan => .nan
  | .inf a => .inf (!a)
  | .fin a m e => .fin (!a) m e

/-- rne(a + b), rne(a × b), rne(a × b + d) on patterns of a format (R61: one rounding). -/
def fAdd (f : Fmt) (a b : Nat) : Nat := rndVal f .rne (fAddVal (fval f a) (fval f b))
def fSub (f : Fmt) (a b : Nat) : Nat := rndVal f .rne (fAddVal (fval f a) (fNegVal (fval f b)))
def fMul (f : Fmt) (a b : Nat) : Nat := rndVal f .rne (fMulVal (fval f a) (fval f b))
def fFma (f : Fmt) (a b d : Nat) : Nat :=
  rndVal f .rne (fAddVal (fMulVal (fval f a) (fval f b)) (fval f d))

/-- The order of two values that are not NaN, by value (−0 equals +0; R193). -/
def fLtVal : FVal → FVal → Bool
  | .nan, _ => false
  | _, .nan => false
  | .inf a, .inf b => a && !b
  | .inf a, .fin _ _ _ => a
  | .fin _ _ _, .inf b => !b
  | .fin na ma ea, .fin nb mb eb =>
    let e := min ea eb
    decide (signed na (ma * 2 ^ (ea - e).toNat) < signed nb (mb * 2 ^ (eb - e).toNat))

def fEqVal : FVal → FVal → Bool
  | .nan, _ => false
  | _, .nan => false
  | .inf a, .inf b => a == b
  | .inf _, .fin _ _ _ => false
  | .fin _ _ _, .inf _ => false
  | .fin na ma ea, .fin nb mb eb =>
    let e := min ea eb
    decide (signed na (ma * 2 ^ (ea - e).toNat) = signed nb (mb * 2 ^ (eb - e).toNat))

def isNaNVal : FVal → Bool
  | .nan => true
  | _ => false

/-- x is −0 (a zero with its sign set). -/
def isNegZero : FVal → Bool
  | .fin true 0 _ => true
  | _ => false
def isZeroVal : FVal → Bool
  | .fin _ 0 _ => true
  | _ => false

/-- fmin and fmax of R191, on FP32 patterns: one operand is returned bit for bit. -/
def fMinBits (x y : Nat) : Nat :=
  let a := fval fp32 x
  let b := fval fp32 y
  if isNaNVal a && isNaNVal b then canonNaN fp32
  else if isNaNVal a then y
  else if isNaNVal b then x
  else if fLtVal a b || (isNegZero a && isZeroVal b && !isNegZero b) then x else y
def fMaxBits (x y : Nat) : Nat :=
  let a := fval fp32 x
  let b := fval fp32 y
  if isNaNVal a && isNaNVal b then canonNaN fp32
  else if isNaNVal a then y
  else if isNaNVal b then x
  else if fLtVal b a || (isNegZero b && isZeroVal a && !isNegZero a) then x else y

/-- A value rounded to an integer in a mode (0 for NaN and the infinities, which callers treat first). -/
def roundInt (mode : RMode) : FVal → Int
  | .fin n m e => signed n (roundMag mode n m e)
  | _ => 0

/-- rne_int(x / 2^s) of R61, for the quantiser. -/
def rneIntScaled (v : FVal) (s : Int) : Int :=
  match v with
  | .fin n m e => signed n (roundMag .rne n m (e - s))
  | _ => 0

/-- sext(x, n) and zext of R5 on a natural pattern. -/
def sextNat (n x : Nat) : Int :=
  let y := x % 2 ^ n
  if n = 0 then 0 else if 2 ^ (n - 1) ≤ y then (y : Int) - (2 ^ n : Nat) else y

/-- The low n bits of an integer, as a pattern. -/
def wrapNat (n : Nat) (x : Int) : Nat := (x % ((2 ^ n : Nat) : Int)).toNat

/-- A 32-bit pattern of an integer. -/
def wordOfInt (x : Int) : Word := BitVec.ofInt 32 x

/-! ### The truncating rounding of R196 -/

/-- tr(y) of R196 for y = ±m × 2^e: 22 fraction bits, towards zero. -/
def trDyadic (neg : Bool) (m : Nat) (e : Int) : Nat :=
  if m = 0 then zeroBits fp32 neg
  else
    let top : Int := (Nat.log2 m : Int) + e
    if 128 ≤ top then infBits fp32 neg
    else
      let ue : Int := max top (-126) - 22
      rnd fp32 .rz neg (roundMag .rz neg m (e - ue)) ue

/-- tr(num / den × 2^e), den not 0. -/
def trRatio (neg : Bool) (num den : Nat) (e : Int) : Nat :=
  if num = 0 then zeroBits fp32 neg
  else
    let l0 : Int := (Nat.log2 num : Int) - Nat.log2 den
    let le : Bool := if 0 ≤ l0 then decide (den * 2 ^ l0.toNat ≤ num)
      else decide (den ≤ num * 2 ^ (-l0).toNat)
    let top : Int := (if le then l0 else l0 - 1) + e
    if 128 ≤ top then infBits fp32 neg
    else
      let ue : Int := max top (-126) - 22
      let sh : Int := e - ue
      let q := if 0 ≤ sh then num * 2 ^ sh.toNat / den else num / (den * 2 ^ (-sh).toNat)
      rnd fp32 .rz neg q ue

/-- The integer square root, one result bit per unit of fuel, from bit `k − 1` down. -/
def isqrtFrom : Nat → Nat → Nat → Nat
  | 0, _, r => r
  | k + 1, n, r =>
    let r' := r + 2 ^ k
    if r' * r' ≤ n then isqrtFrom k n r' else isqrtFrom k n r
def isqrt (n : Nat) : Nat := isqrtFrom (Nat.log2 n / 2 + 1) n 0

/-! ### Bounds on the transcendental functions of R197: fixed-point intervals (lo, hi) scaled by 2^P -/

/-- Σ x^k-series of atanh(1/d) or atan(1/d) terms: lower sums of positive and negative terms kept apart.
`alt` alternates the signs; returns (sum of positive terms, sum of negative terms, count). -/
def recipSeries (P d2 : Nat) (alt : Bool) : Nat → Nat → Nat → Nat × Nat → Nat × Nat
  | 0, _, _, acc => acc
  | fuel + 1, k, t, (p, n) =>
    let term := t / (2 * k + 1)
    let acc := if alt && k % 2 == 1 then (p, n + term) else (p + term, n)
    recipSeries P d2 alt fuel (k + 1) (t / d2) acc

/-- A fixed-point interval: the value times 2^P lies in [lo, hi]. -/
structure Ival where
  lo : Nat
  hi : Nat
  deriving DecidableEq, Repr

/-- atan(1/d) or atanh(1/d) to P bits; each of the n terms loses less than 2 units to truncation. -/
def recipIval (P d n : Nat) (alt : Bool) : Ival :=
  let (p, m) := recipSeries P (d * d) alt n 0 (2 ^ P / d) (0, 0)
  ⟨p - m - 2 * n - 2, p - m + 2 * n + 2⟩

/-- π by Machin's formula, and ln 2 = 2 atanh(1/3). -/
def piIval (P : Nat) : Ival :=
  let a := recipIval P 5 P true
  let b := recipIval P 239 P true
  ⟨16 * a.lo - 4 * b.hi, 16 * a.hi - 4 * b.lo⟩
def ln2Ival (P : Nat) : Ival :=
  let a := recipIval P 3 P false
  ⟨2 * a.lo, 2 * a.hi⟩

/-- exp(z) for 0 ≤ z < 1, by its series: (lower sum, upper sum, lower term, upper term). -/
def expSeries (P : Nat) (z : Ival) : Nat → Nat → Nat → Nat → Nat → Nat → Ival
  | 0, _, lo, hi, _, th => ⟨lo, hi + 2 * th + 2⟩
  | fuel + 1, k, lo, hi, tl, th =>
    let tl' := tl * z.lo / (k * 2 ^ P)
    let th' := th * z.hi / (k * 2 ^ P) + 1
    expSeries P z fuel (k + 1) (lo + tl') (hi + th') tl' th'
def expIval (P : Nat) (z : Ival) : Ival :=
  expSeries P z P 1 (2 ^ P) (2 ^ P) (2 ^ P) (2 ^ P)

/-- sin(z) for 0 ≤ z < 2: odd terms, signs alternating. -/
def sinSeries (P : Nat) (z : Ival) : Nat → Nat → Nat → Nat → Nat → Nat → Nat → Nat → Ival
  | 0, _, pl, ph, nl, nh, _, th => ⟨pl - nh - th - 1, ph - nl + th + 1⟩
  | fuel + 1, k, pl, ph, nl, nh, tl, th =>
    let tl' := tl * z.lo * z.lo / ((2 * k) * (2 * k + 1) * 2 ^ (2 * P))
    let th' := th * z.hi * z.hi / ((2 * k) * (2 * k + 1) * 2 ^ (2 * P)) + 1
    if k % 2 == 1 then sinSeries P z fuel (k + 1) pl ph (nl + tl') (nh + th') tl' th'
    else sinSeries P z fuel (k + 1) (pl + tl') (ph + th') nl nh tl' th'
def sinIval (P : Nat) (z : Ival) : Ival :=
  sinSeries P z P 1 z.lo z.hi 0 0 z.lo z.hi

/-- 2 atanh(num/den) for 0 ≤ num/den ≤ 1/3: ln of (den+num)/(den−num). -/
def lnSeries (P : Nat) (z2 : Ival) : Nat → Nat → Nat → Nat → Nat → Nat → Ival
  | 0, _, lo, hi, _, th => ⟨2 * lo, 2 * (hi + th + 1)⟩
  | fuel + 1, k, lo, hi, tl, th =>
    let tl' := tl * z2.lo / 2 ^ P
    let th' := th * z2.hi / 2 ^ P + 1
    lnSeries P z2 fuel (k + 1) (lo + tl' / (2 * k + 1)) (hi + th' / (2 * k + 1) + 1) tl' th'
def lnIval (P num den : Nat) : Ival :=
  let zl := num * 2 ^ P / den
  let zh := zl + 1
  lnSeries P ⟨zl * zl / 2 ^ P, zh * zh / 2 ^ P + 1⟩ P 1 zl zh zl zh

/-- tr of a real known to lie in an interval: the common truncation of both ends, searched over rising
precision; with no agreement at the last, the lower end's (log entry 14). -/
def trSearch (neg : Bool) (bound : Nat → Ival) (exp : Nat → Int) : List Nat → Nat
  | [] => canonNaN fp32
  | P :: rest =>
    let b := bound P
    let lo := trDyadic neg b.lo (exp P)
    if lo = trDyadic neg b.hi (exp P) || rest.isEmpty then lo else trSearch neg bound exp rest

/-- The precisions tried. -/
def trPrecs : List Nat := [96, 320, 640]

/-- FRCP (R197). -/
def fRcp (a : Nat) : Nat :=
  match fval fp32 a with
  | .nan => canonNaN fp32
  | .inf n => zeroBits fp32 n
  | .fin n m e => if m = 0 then infBits fp32 n else trRatio n 1 m (-e)

/-- FSQRT (R197): floor(√x / u) is the integer square root of floor(x / u²). -/
def fSqrt (a : Nat) : Nat :=
  match fval fp32 a with
  | .nan => canonNaN fp32
  | .inf n => if n then canonNaN fp32 else infBits fp32 false
  | .fin n m e =>
    if m = 0 then zeroBits fp32 n
    else if n then canonNaN fp32
    else
      let top : Int := ((Nat.log2 m : Int) + e) / 2
      let ue : Int := top - 22
      rnd fp32 .rz false (isqrt (roundMag .rz false m (e - 2 * ue))) ue

/-- FRSQ (R197). -/
def fRsq (a : Nat) : Nat :=
  match fval fp32 a with
  | .nan => canonNaN fp32
  | .inf n => if n then canonNaN fp32 else zeroBits fp32 false
  | .fin n m e =>
    if m = 0 then infBits fp32 n
    else if n then canonNaN fp32
    else
      let ex : Int := (Nat.log2 m : Int) + e
      let k := ex / 2
      let top : Int := if ex % 2 = 0 ∧ m = 2 ^ Nat.log2 m then -k else -k - 1
      let ue : Int := top - 22
      rnd fp32 .rz false (isqrt (2 ^ (-2 * ue - e).toNat / m)) ue

/-- FEXP2 (R197): 2^x with x = n + f, 0 ≤ f < 1. -/
def fExp2 (a : Nat) : Nat :=
  match fval fp32 a with
  | .nan => canonNaN fp32
  | .inf n => if n then zeroBits fp32 false else infBits fp32 false
  | .fin neg m e =>
    if 0 ≤ e then
      if m = 0 then trDyadic false 1 0
      else if e > 10 then (if neg then zeroBits fp32 false else infBits fp32 false)
      else
        let n := signed neg (m * 2 ^ e.toNat)
        if n ≥ 128 then infBits fp32 false else if n < -151 then zeroBits fp32 false else trDyadic false 1 n
    else
      let d := (-e).toNat
      let x := signed neg m
      let n := x / (2 ^ d : Nat)
      let f := (x % (2 ^ d : Nat)).toNat
      if n ≥ 128 then infBits fp32 false
      else if n < -151 then zeroBits fp32 false
      else if f = 0 then trDyadic false 1 n
      else trSearch false
        (fun P => let l := ln2Ival P
                  expIval P ⟨l.lo * f / 2 ^ d, l.hi * f / 2 ^ d + 1⟩)
        (fun P => n - P) trPrecs

/-- FLOG2 (R197): log2 x = n + ln y / ln 2 with 1 ≤ y < 2. -/
def fLog2 (a : Nat) : Nat :=
  match fval fp32 a with
  | .nan => canonNaN fp32
  | .inf n => if n then canonNaN fp32 else infBits fp32 false
  | .fin neg m e =>
    if m = 0 then infBits fp32 true
    else if neg then canonNaN fp32
    else
      let k := Nat.log2 m
      let n : Int := (k : Int) + e
      if m = 2 ^ k then trDyadic (n < 0) n.natAbs 0
      else trSearch (n < 0)
        (fun P =>
          let y := lnIval P (m - 2 ^ k) (m + 2 ^ k)
          let l := ln2Ival P
          let qlo := y.lo * 2 ^ P / l.hi
          let qhi := y.hi * 2 ^ P / l.lo + 1
          if n < 0 then ⟨n.natAbs * 2 ^ P - qhi, n.natAbs * 2 ^ P - qlo⟩
          else ⟨n.toNat * 2 ^ P + qlo, n.toNat * 2 ^ P + qhi⟩)
        (fun P => -(P : Int)) trPrecs

/-- sin of r/2^30 of a quarter turn, 0 < r < 2^30 (R58, R197). -/
def quarterSine (neg : Bool) (r : Nat) : Nat :=
  trSearch neg
    (fun P => let p := piIval P
              sinIval P ⟨p.lo * r / 2 ^ 31, p.hi * r / 2 ^ 31 + 1⟩)
    (fun P => -(P : Int)) trPrecs

/-- FSINT and FCOST (R197): exact at the quarter turns, where an exact zero is +0. -/
def fSint (t : Nat) : Nat :=
  let q := t / 2 ^ 30 % 4
  let r := t % 2 ^ 30
  if r = 0 then
    (if q = 0 ∨ q = 2 then 0 else rnd fp32 .rne (q == 3) 1 0)
  else quarterSine (2 ≤ q) (if q % 2 = 0 then r else 2 ^ 30 - r)
def fCost (t : Nat) : Nat := fSint ((t + 2 ^ 30) % 2 ^ 32)

/-! ### Block scales, the quantiser and the dequantiser (R62 to R66) -/

/-- qnt of R65: the scale byte, the codes and the NaN report. -/
def qntFits (k : Nat) (c : Nat) (v : FVal) : Bool :=
  match v with
  | .fin _ _ _ =>
    let q := rneIntScaled v ((c : Int) - 127)
    decide (-(2 ^ (k - 1) : Nat) ≤ q) && decide (q ≤ (2 ^ (k - 1) : Nat) - 1)
  | _ => true
def qntScale (k : Nat) (xs : List FVal) : Nat :=
  ((List.range 255).find? fun c => xs.all (qntFits k c)).getD 254
def qntCode (k E : Nat) (v : FVal) : Int :=
  let hi : Int := (2 ^ (k - 1) : Nat) - 1
  let lo : Int := -(2 ^ (k - 1) : Nat)
  match v with
  | .inf n => if n then lo else hi
  | .nan => 0
  | .fin _ _ _ => min hi (max lo (rneIntScaled v ((E : Int) - 127)))
def qnt (k : Nat) (xs : List FVal) : Nat × List Int × Bool :=
  if xs.any isNaNVal then (0xFF, xs.map fun _ => 0, true)
  else
    let E := qntScale k xs
    (E, xs.map (qntCode k E), false)

/-- The dequantised value of an m-plane reading q of an NIk element under scale e (R66, R209). -/
def dqnt (f : Fmt) (q : Int) (e k m : Nat) : Nat :=
  if e = 0xFF then canonNaN f
  else if q = 0 then 0
  else rnd f .rne (q < 0) q.natAbs ((e : Int) - 127 + k - m)

/-- SACC of R210: d + a × 2^(ea + eb − 254 + sa + sb), rounded once. -/
def saccBits (d : Nat) (a : Int) (desc : Nat) : Nat :=
  let ea : Nat := desc % 256
  let eb : Nat := desc / 256 % 256
  let sa : Nat := desc / 2 ^ 16 % 16
  let sb : Nat := desc / 2 ^ 20 % 16
  let dv := fval fp32 d
  if ea = 0xFF ∨ eb = 0xFF ∨ isNaNVal dv = true then canonNaN fp32
  else rndVal fp32 .rne
    (fAddVal dv (.fin (a < 0) a.natAbs ((ea : Int) + eb - 254 + sa + sb)))

/-! ### The matrix dot product (R67, R68) -/

/-- A product of two decoded inputs; an exact zero keeps no sign that the sum could see. -/
def gsum (ps : List FVal) : FVal :=
  if ps.any isNaNVal then .nan
  else
    let pinf := ps.any (fun p => p == .inf false)
    let ninf := ps.any (fun p => p == .inf true)
    if pinf && ninf then .nan
    else if pinf then .inf false
    else if ninf then .inf true
    else
      let nz := ps.filter (fun p => !isZeroVal p)
      match nz with
      | [] => .fin false 0 0
      | _ =>
        let top (p : FVal) : Int := match p with
          | .fin _ m e => (Nat.log2 m : Int) + e
          | _ => 0
        let emax := nz.foldl (fun a p => max a (top p)) (top (nz.headD (.fin false 1 0)))
        let u := emax - 47
        let s := nz.foldl (fun (a : Int) p => match p with
          | .fin n m e => a + signed n (roundMag .rz n m (e - u))
          | _ => a) 0
        if s = 0 then .fin false 0 0
        else fval fp32 (rnd fp32 .rne (s < 0) s.natAbs u)

/-- One group's addition to an accumulator element (R68). -/
def accAdd (acc : Nat) (ps : List FVal) : Nat :=
  rndVal fp32 .rne (fAddVal (fval fp32 acc) (gsum ps))

/-! ### The three-part split (R70) -/

/-- (x0, x1, x2) of R70 as BF16 patterns. -/
def bsplit (a : Nat) : Nat × Nat × Nat :=
  let x := fval fp32 a
  match x with
  | .nan => (canonNaN bf16, 0, 0)
  | .inf n => (infBits bf16 n, 0, 0)
  | .fin n m _ =>
    if m = 0 then (zeroBits bf16 n, 0, 0)
    else
      let r0 := rndVal bf16 .rne x
      let x0 := if r0 = infBits bf16 n then rndVal bf16 .rz x else r0
      let d1 := fAddVal x (fNegVal (fval bf16 x0))
      let x1 := rndVal bf16 .rne d1
      let d2 := fAddVal d1 (fNegVal (fval bf16 x1))
      (x0, x1, rndVal bf16 .rne d2)

/-! ### Conversions (R199, R200) -/

/-- A format code of CVT: 0 f32, 1 f16, 2 bf16. -/
def cvtFmt (c : Nat) : Fmt := if c = 1 then fp16 else if c = 2 then bf16 else fp32
/-- Saturation to an integer range. -/
def clampInt (lo hi x : Int) : Int := min hi (max lo x)
/-- CVT of R200 on a register pattern. -/
def cvtBits (dst src : Nat) (mode : RMode) (a : Nat) : Nat :=
  let srcF := src ≤ 2
  let x := fval (cvtFmt src) (if src = 0 then a else a % 2 ^ 16)
  if dst ≤ 2 then
    let f := cvtFmt dst
    if srcF then rndVal f mode x
    else if src = 3 then
      let v := sextNat 32 a
      rnd f mode (v < 0) v.natAbs 0
    else if src = 4 then rnd f mode false a 0
    else rnd f mode false a (-32)
  else if dst = 3 then
    (if srcF then
      match x with
      | .nan => 0
      | .inf n => if n then 2 ^ 31 else 2 ^ 31 - 1
      | v => wrapNat 32 (clampInt (-(2 ^ 31 : Nat)) (2 ^ 31 - 1 : Nat) (roundInt mode v))
    else min (2 ^ 31 - 1) a)
  else if dst = 4 then
    (if srcF then
      match x with
      | .nan => 0
      | .inf n => if n then 0 else 2 ^ 32 - 1
      | v => wrapNat 32 (clampInt 0 (2 ^ 32 - 1 : Nat) (roundInt mode v))
    else (max 0 (sextNat 32 a)).toNat)
  else
    match x with
    | .fin n m e => wrapNat 32 (signed n (roundMag mode n m (e + 32)))
    | _ => 0

/-- FRND of R194. -/
def fRnd (mode : RMode) (a : Nat) : Nat :=
  match fval fp32 a with
  | .nan => canonNaN fp32
  | .inf n => infBits fp32 n
  | .fin n m e =>
    let q := roundMag mode n m e
    rnd fp32 .rne n q 0

/-- FCLASS of R195. -/
def fClass (a : Nat) : Nat :=
  let neg := a / 2 ^ 31 % 2 = 1
  let e := a / 2 ^ 23 % 256
  let m := a % 2 ^ 23
  if e = 255 then
    (if m = 0 then (if neg then 2 ^ 0 else 2 ^ 7)
     else if a / 2 ^ 22 % 2 = 0 then 2 ^ 8 else 2 ^ 9)
  else if e = 0 then
    (if m = 0 then (if neg then 2 ^ 3 else 2 ^ 4) else (if neg then 2 ^ 2 else 2 ^ 5))
  else (if neg then 2 ^ 1 else 2 ^ 6)

/-- A packed operation: each 16-bit element computed alone (R56, R198). -/
def packed2 (g : Nat → Nat → Nat → Nat) (a b d : Nat) : Nat :=
  g (a % 65536) (b % 65536) (d % 65536)
    + 65536 * g (a / 65536) (b / 65536) (d / 65536)

end Sys2Proof.Machine
end

