-- ==== Sys2Proof/Machine/Flags.lean ====
section
/-!
DEFINITION. Machine/Flags.lean: the condition codes of comparisons (R181, R193, R147), and the tests that branches
and predicated instructions make of predicates (R141, R184).
-/
namespace Sys2Proof.Machine

/-- The condition codes of ICMP and SCMP (R181); codes 12 to 15 raise ILLOP before they are read. -/
def intCond (c : Nat) (x y : Word) : Bool :=
  match c with
  | 0 => x == y
  | 1 => x != y
  | 2 => x.slt y
  | 3 => x.sle y
  | 4 => y.slt x
  | 5 => y.sle x
  | 6 => x.ult y
  | 7 => x.ule y
  | 8 => y.ult x
  | 9 => y.ule x
  | 10 => (x &&& y) != 0
  | 11 => (x &&& y) == 0
  | _ => false

/-- The ordered relations of FCMP, codes 0 to 5 (R193). -/
def fltRel (c : Nat) (x y : FVal) : Bool :=
  match c with
  | 0 => fEqVal x y
  | 1 => !fEqVal x y
  | 2 => fLtVal x y
  | 3 => fLtVal x y || fEqVal x y
  | 4 => fLtVal y x
  | _ => fLtVal y x || fEqVal x y

/-- The condition codes of FCMP (R193): a code from 6 to 11 is "unordered or". -/
def fltCond (c : Nat) (x y : Word) : Bool :=
  let a := fval fp32 x.toNat
  let b := fval fp32 y.toNat
  let un := isNaNVal a || isNaNVal b
  if c < 6 then !un && fltRel c a b
  else if c < 12 then un || fltRel (c - 6) a b
  else if c = 12 then !un
  else un

/-- SLEEPW's comparisons (R147). -/
def waitCond (cc : Nat) (x y : Word) : Bool :=
  match cc with
  | 0 => x == y
  | 1 => x != y
  | 2 => y.ule x
  | _ => x.ult y

/-- A predicate after negation, as the threads it holds in (R141, R146). -/
def predNeg (s : State) (p : Nat) (n : BitVec 1) : Mask := if n == 1 then ~~~(rp s p) else rp s p

/-- The test of BRA and SSEL: the predicate after negation holds in an active thread, or is unnegated p0 (R141, R184). -/
def predAny (s : State) (p : Nat) (n : BitVec 1) : Bool :=
  (p == 0 && n == 0) || (emask s &&& predNeg s p n) != 0

end Sys2Proof.Machine
end

