-- ==== Sys2Proof/Machine/Scratch.lean ====
section
/-!
DEFINITION. Machine/Scratch.lean: scratch as agents write and read it (R232 to R241): the log of writes, what an agent must
observe and what it may, stores issued and performed, releases and acquires, and what a matrix command's operands bring
with them (R303). Log entry 10 names what is free: which write a read returns, and when a store is performed.
-/
namespace Sys2Proof.Machine

/-! ### Block-window addresses (R211, R267) -/

/-- First byte of the ring area, and its bytes. -/
def ringBase : Nat := 0xFFFFE000
def ringBytes : Nat := 0x1040
/-- Where a block-window address lies: the window, the ring area, or beyond the space (R212, R267). -/
def winLoc (s : State) (a len : Nat) : Option (MemName × Nat) :=
  let b := (cg s).blk
  if a + len ≤ (ck s).hdr.winbytes then some (.win b, a)
  else if ringBase ≤ a ∧ a + len ≤ ringBase + ringBytes then some (.ring b, a - ringBase)
  else none

/-! ### The log of writes (R235) -/

/-- The memories that more than one agent reaches by single words (R232). -/
def sharedMem : MemName → Bool
  | .win _ | .ring _ | .die _ => true
  | _ => false
def writeMeets (n : MemName) (a len : Nat) (e : Written) : Bool :=
  e.mem == n && decide (a < e.addr + e.old.length) && decide (e.addr < a + len)
/-- The writes that meet a range, newest first, with their numbers. -/
def hits (n : MemName) (a len : Nat) : List Written → List (Nat × Written)
  | [] => []
  | e :: r => if writeMeets n a len e then (r.length + 1, e) :: hits n a len r else hits n a len r
/-- A byte as it was once the writes up to a number had been performed, from its present value. -/
def undo (cut a : Nat) : List (Nat × Written) → Byte → Byte
  | [], b => b
  | (k, e) :: r, b =>
    if k ≤ cut then b else undo cut a r (if e.addr ≤ a ∧ a < e.addr + e.old.length then byteAt e.old (a - e.addr) else b)

/-! ### What an agent must observe -/

/-- Whether the retirement of a block's matrix command has been observed (R303). -/
def observed (w : View) (blk seq : Nat) : Bool := decide (seq ≤ Map.look w.mobs blk 0) || w.mobsOne.contains (blk, seq)
/-- Whether a read of agent `g` may not return a write older than this one (R235, R237, R240). -/
def mustSee (g born : Nat) (w : View) (e : Nat × Written) : Bool :=
  decide (e.1 ≤ born) || (e.2.cmd.isNone && e.2.agent == g) || w.saw.contains e.1 || (e.2.atomic && decide (e.1 ≤ w.upTo))
    || (match e.2.cmd with
        | some (true, q) => observed w e.2.agent q
        | _ => false)
/-- The number of the newest write that a reader must observe; 0 where there is none. -/
def floorOf (g born : Nat) (w : View) (hs : List (Nat × Written)) : Nat :=
  ((hs.find? (mustSee g born w)).map Prod.fst).getD 0

/-! ### Undefined scratch (R303) -/

/-- Whether a span of a block covers part of a range of a memory. -/
def spanMeets (blk : Nat) (b : Block) (n : MemName) (a len : Nat) (x : Span) : Bool :=
  ((x.sp == 0 && n == .win blk) || (x.sp == 1 && n == dieName b)) && decide (a < x.lo + x.n) && decide (x.lo < a + len)
/-- A matrix command under way or completed; a queued one counts unless its guard is false, since it may come to write
(log entry 42). -/
def touching (b : Block) (t : MTouch) : Bool :=
  t.st != 0 || b.matrix.cmds.any fun c => c.seq == t.seq && c.phase == .queued
    && guardRes b (((c.img.getD 0 0).toNat / 16) % 16) c.gen != some false
/-- Whether a byte is written by a matrix command whose retirement the reader has not observed: its read is undefined. -/
def earlyRead (s : State) (w : View) (n : MemName) (a : Nat) : Bool :=
  s.blocks.any fun e => e.2.touches.any fun t =>
    t.writes.any (spanMeets e.1 e.2 n a 1) && !observed w e.1 t.seq && touching e.2 t
/-- A range in its parts of aligned 8 bytes, first to last. -/
def parts8 (a len : Nat) : List (Nat × Nat) :=
  (List.range (len / 8 + 2)).filterMap fun i =>
    let lo := max a (8 * (a / 8 + i))
    let hi := min (a + len) (8 * (a / 8 + i + 1))
    if lo < hi then some (lo, hi - lo) else none
/-- A write enters the log, by its aligned 8 bytes: each part is a write of its own (R234). -/
def logWrite (s : State) (e : Written) (len : Nat) : State :=
  if sharedMem e.mem then
    { s with log := (parts8 e.addr len).foldl (fun l p => { e with addr := p.1, old := homeBytes s e.mem p.1 p.2 } :: l) s.log }
  else s
/-- A write by the matrix engine of a block. -/
def engineBytes (s : State) (blk seq : Nat) (n : MemName) (a : Nat) (bs : List Byte) : State :=
  homeWrite (logWrite s { mem := n, addr := a, old := [], agent := blk, cmd := some (true, seq) } bs.length) n a bs
/-- A span of a block takes undefined values. -/
def freeSpan (n blk seq : Nat) (s : State) (x : Span) : State :=
  let bytes := (List.range x.n).map fun i => Config.freeByte n (x.lo + i)
  let b := blkOf s blk
  match x.sp with
  | 0 => engineBytes s blk seq (.win blk) x.lo bytes
  | 1 => engineBytes s blk seq (dieName b) x.lo bytes
  | 2 => engineBytes s blk seq (.slot blk) x.lo bytes
  | _ =>
    let tiles := (List.range x.n).foldl (fun m i => Map.put m (x.lo + i) (Config.freeWord n (x.lo + i))) b.tiles
    setBlk s blk { b with tiles := tiles }
def freeSpans (s : State) (blk seq : Nat) (xs : List Span) : State :=
  setFresh (xs.foldl (freeSpan s.fresh blk seq) s) (s.fresh + 1)
def spansMeet (x y : Span) : Bool := x.sp == y.sp && decide (x.lo < y.lo + y.n) && decide (y.lo < x.lo + x.n)
/-- Whether a command of another block of the same die scratch completed after a command of a block from a number on had
written what it reads there. -/
def readAfter (s : State) (blk seq : Nat) (xs : List Span) (b : Nat) (t : MTouch) : Bool :=
  let m := dieName (blkOf s blk)
  t.st == 2 && dieName (blkOf s b) == m && t.reads.any fun x => x.sp == 1 && xs.any (spansMeet x)
    && (hits m x.lo x.n s.log).any fun e => decide (e.1 ≤ t.by_) && e.2.agent == blk && (match e.2.cmd with
      | some (true, q) => decide (seq ≤ q)
      | _ => false)
/-- The next completed command that has computed from values that are undefined, of the block or, through die scratch, of
another one. -/
def nextSpoilt (s : State) (blk seq : Nat) (xs : List Span) : Option (Nat × MTouch) :=
  match (blkOf s blk).touches.find? fun t => t.st == 2 && decide (seq < t.seq) && t.reads.any fun x => xs.any (spansMeet x) with
  | some t => some (blk, t)
  | none => s.blocks.findSome? fun e =>
      if e.1 = blk then none else (e.2.touches.find? (readAfter s blk seq xs e.1)).map fun t => (e.1, t)
/-- Values that have become undefined, with every result that completed commands have computed from them (R303). -/
def freeResults : Nat → State → Nat → Nat → List Span → State
  | 0, s, blk, seq, xs => freeSpans s blk seq xs
  | n + 1, s, blk, seq, xs =>
    let s := freeSpans s blk seq xs
    match nextSpoilt s blk seq xs with
    | some t => freeResults n s t.1 t.2.seq (if t.1 = blk then xs ++ t.2.writes else t.2.writes)
    | none => s
/-- A write by an agent that has not observed the retirement of a command that reads the bytes: undefined to a command still to
complete; one already completed leaves undefined values in what it wrote. -/
def disturbBlock (w : View) (n : MemName) (a len : Nat) (s : State) (e : Nat × Block) : State :=
  let hit (t : MTouch) : Bool := t.reads.any (spanMeets e.1 e.2 n a len) && !observed w e.1 t.seq
  if e.2.touches.any hit then
    let sp := if n = .win e.1 then 0 else 1
    let b := blkOf s e.1
    let mark (t : MTouch) : MTouch := if hit t && t.st != 2 then { t with dirty := ⟨sp, a, len⟩ :: t.dirty } else t
    let s := setBlk s e.1 { b with touches := b.touches.map mark }
    (e.2.touches.filter fun t => hit t && t.st == 2).foldl (fun s t => freeResults 64 s e.1 t.seq t.writes) s
  else s
def disturb (s : State) (w : View) (n : MemName) (a len : Nat) : State := s.blocks.foldl (disturbBlock w n a len) s

/-! ### What a group may read (R220, R234 to R236) -/

def storeHits (n : MemName) (a len : Nat) (p : PendStore) : Bool :=
  p.mem == n && decide (a < p.addr + p.bytes.length) && decide (p.addr < a + len)
/-- A store takes its place in a list that rises by stamp. -/
def insertStore (p : PendStore) : List PendStore → List PendStore
  | [] => [p]
  | q :: r => if p.stamp < q.stamp then p :: q :: r else q :: insertStore p r
/-- The pending stores a group has already seen, oldest first: its own and, of its core, those that it has read. -/
def seenStores (s : State) (g : Nat) : List PendStore :=
  (s.groups.flatMap fun h => if h.1 == g then [] else h.2.stores.filter fun p => p.peeked.contains g).foldl
    (fun l p => insertStore p l) (grpOf s g).stores
/-- The byte as a list of pending stores leaves it: the youngest that covers it, else the home (R220). -/
def viewByte (s : State) (stores : List PendStore) (n : MemName) (a : Nat) : Byte :=
  match stores.reverse.find? (storeCovers n a) with
  | some p => byteAt p.bytes (a - p.addr)
  | none => homeByte s n a
/-- The core that holds a byte that groups of a core address (R213, R232): the ring area is held in the issuing group's core
(R267). -/
def homeCore (s : State) (core : Nat) (n : MemName) (a : Nat) : Option Nat :=
  match n with
  | .win b =>
    let k := blkOf s b
    let h := (kernFor s k).hdr
    if k.kmode then some (384 + k.die) else some (8 * k.cluster + k.base + a / (h.winbytes / 2 ^ h.cores))
  | .ring _ => some core
  | _ => none
/-- Pending stores to a location of another core that the groups of the issuing core may read before they are performed: the
group and the place in its list (R236). -/
def peeks (s : State) (g : Nat) (n : MemName) (a len : Nat) : List (Nat × Nat) :=
  let core := (grpOf s g).core
  if homeCore s core n a == some core then []
  else s.groups.flatMap fun h =>
    if h.1 != g && h.2.core == core then
      ((List.range h.2.stores.length).filter fun i => (h.2.stores.drop i).head?.any fun p =>
        p.mem == n && decide (p.addr ≤ a) && decide (a + len ≤ p.addr + p.bytes.length)).map fun i => (h.1, i)
    else []
/-- What a read returns: the newest value with the stores already seen, the location as of a write, or a store of the core. -/
inductive Sight where
  | newest
  | cut (k : Nat)
  | peek (g i : Nat)
  deriving DecidableEq, Repr
/-- Every sight that the coherence and visibility rules allow a group. -/
def sights (s : State) (g : Nat) (n : MemName) (a len : Nat) : List Sight :=
  if (seenStores s g).any (storeHits n a len) then [.newest]
  else
    let hs := hits n a len s.log
    let x := grpOf s g
    let lo := floorOf g x.born x.view hs
    (.cut lo :: (hs.filter fun e => decide (lo < e.1)).map fun e => .cut e.1) ++ (peeks s g n a len).map fun e => .peek e.1 e.2
def memKey : MemName → Nat
  | .win b => 7 * b | .ring b => 7 * b + 1 | .spill g => 7 * g + 2 | .die k => 7 * k + 3 | .dev => 4 | .host => 5
  | .slot b => 7 * b + 6
  | .table k => 7 * k + 4
/-- The device's choice among several (log entry 10). -/
def pickOne (s : State) (key : Nat) : List Sight → Sight
  | [x] => x
  | xs => xs.getD (Config.choice s.fresh key % xs.length) .newest
def sightOf (s : State) (g : Nat) (n : MemName) (a len : Nat) : Sight := pickOne s (2 ^ 64 * memKey n + a) (sights s g n a len)
def sightByte (s : State) (g : Nat) (n : MemName) (a len : Nat) (x : Sight) (i : Nat) : Byte :=
  match x with
  | .newest => viewByte s (seenStores s g) n (a + i)
  | .cut k => undo k (a + i) (hits n a len s.log) (homeByte s n (a + i))
  | .peek h j => viewByte s (((grpOf s h).stores.drop j).take 1) n (a + i)
/-- The copies' writes to a memory that the blocks of a block's gang still hold (R126). -/
def heldIn (s : State) (blk : Nat) (n : MemName) : List HeldEntry :=
  (gangOf s (blkOf s blk).gang).blocks.flatMap fun b =>
    (blkOf s b).held.filter fun e => e.mem == n && !e.remote && e.radd.isNone && e.atomic.isNone
/-- A byte of die scratch under the writes that the gang still holds, which are the gang's from their staging on (R134). -/
def underHeld (s : State) (blk : Nat) (n : MemName) (a : Nat) (b : Byte) : Byte :=
  match n with
  | .die _ => ((heldIn s blk n).foldl (fun (x : Nat × Byte) e =>
      if x.1 ≤ e.stamp ∧ e.addr ≤ a ∧ a < e.addr + e.data.length then (e.stamp, byteAt e.data (a - e.addr)) else x) (0, b)).2
  | _ => b
/-- Bytes as the current group reads them. -/
def loadBytes (s : State) (n : MemName) (a len : Nat) : List Byte :=
  let x := sightOf s s.cur n a len
  (List.range len).map fun i =>
    if earlyRead s (cg s).view n (a + i) then Config.freeByte s.fresh (a + i)
    else underHeld s (cg s).blk n (a + i) (sightByte s s.cur n a len x i)
def loadWord (s : State) (n : MemName) (a : Nat) : Word := wordOf (loadBytes s n a 4)

/-- The newest of some writes for each byte of a range. -/
def newestOf (a len : Nat) (hs : List (Nat × Written)) : List (Nat × Written) :=
  ((List.range len).filterMap fun i =>
    hs.find? fun e => decide (e.2.addr ≤ a + i) && decide (a + i < e.2.addr + e.2.old.length)).eraseDups
/-- The agent has read a range as of write number k: of the writes that meet it, those up to k. -/
def hearWrites (x : Group) (k a len : Nat) (hs : List (Nat × Written)) : Group :=
  let old := hs.filter fun e => decide (e.1 ≤ k)
  { x with
    view := { x.view with saw := (((newestOf a len old).map Prod.fst).filter fun n => !x.view.saw.contains n) ++ x.view.saw }
    heard := (old.filter fun y => y.2.cmd.isNone).foldl (fun m y => Map.put m y.2.agent (max y.1 (Map.look m y.2.agent 0))) x.heard
    heardTop := old.foldl (fun n y => max n y.1) x.heardTop }
/-- Marks pending stores as read by a group. -/
def markPeeked (g : Nat) (sel : PendStore → Bool) (ps : List PendStore) : List PendStore :=
  ps.map fun q => if sel q && !q.peeked.contains g then { q with peeked := g :: q.peeked } else q
/-- Marks a store, and those before it that it overlaps, as read by a group. -/
def peekStore (g i : Nat) (ps : List PendStore) : List PendStore :=
  match (ps.drop i).head? with
  | none => ps
  | some p => markPeeked g (storeHits p.mem p.addr p.bytes.length) (ps.take (i + 1)) ++ ps.drop (i + 1)
/-- The stores of other groups that a group has read and that meet a range are now read by another: it has read a store that
comes after them (R235). -/
def peekBefore (s : State) (g h : Nat) (n : MemName) (a len : Nat) : State :=
  { s with groups := s.groups.map fun e =>
      (e.1, { e.2 with stores := markPeeked g (fun p => p.peeked.contains h && storeHits n a len p) e.2.stores }) }
/-- The loads of a group that a later access of it to the same bytes makes final (R235). -/
def closeLoads (n : MemName) (a len : Nat) (x : Group) : Group :=
  { x with loads := x.loads.filter fun l => !(l.mem == n && decide (l.addr < a + len) && decide (a < l.addr + 4)) }
/-- What a read of a group leaves behind: which writes it has read, and the copy completion count (R240, R241). A store that is
still to be performed comes after every write performed so far (R235). -/
def noteRead (s : State) (g : Nat) (n : MemName) (a len : Nat) (x : Sight) : State :=
  let y := closeLoads n a len (grpOf s g)
  let y := if n == .ring y.blk && decide (a < 4104) && decide (4100 < a + len) then
      { y with heardDone := (blkOf s y.blk).copy.done } else y
  let hs := hits n a len s.log
  match x with
  | .newest =>
    let y := hearWrites y s.log.length a len hs
    setGrp s g { y with stores := markPeeked g (storeHits n a len) y.stores }
  | .cut k => setGrp s g (hearWrites y k a len hs)
  | .peek h i =>
    let y := hearWrites y s.log.length a len hs
    let s := peekBefore s g h n a len
    let z := grpOf s h
    setGrp (setGrp s g { y with heard := Map.put y.heard h (s.log.length + 1) }) h { z with stores := peekStore g i z.stores }
/-- The reads of one instruction, each by the sight it had as the instruction issued. -/
def noteReads (s0 s : State) (es : List (MemName × Nat × Nat)) : State :=
  es.foldl (fun s e => noteRead s s0.cur e.1 e.2.1 e.2.2 (sightOf s0 s0.cur e.1 e.2.1 e.2.2)) s

/-! ### Writes performed at their home -/

/-- Whether a path waits in SLEEPW for a word of a range that now satisfies it (R147): the word's place. -/
def wordMet (s : State) (g : Nat) (n : MemName) (a len : Nat) (p : Path) : Option (MemName × Nat) :=
  match p.wait with
  | some (.word cc x v) => match winLoc { s with cur := g } x 4 with
    | some (m, y) => if m = n ∧ a < y + 4 ∧ y < a + len ∧ waitCond cc (homeWord s m y) v = true then some (m, y) else none
    | none => none
  | _ => none
def wakePath (s : State) (g : Nat) (n : MemName) (a len : Nat) (p : Path) : Path :=
  if (wordMet s g n a len p).isSome then { p with wait := some .wordMet } else p
/-- The SLEEPW of a group is evaluated after a write to a range (R147); a satisfying read counts as one of the group's. -/
def wakeGroup (n : MemName) (a len : Nat) (s : State) (e : Nat × Group) : State :=
  if e.2.state != .waiting then s
  else
    let ps := if e.2.two then [e.2.pathA, e.2.pathB] else [e.2.pathA]
    match ps.findSome? (wordMet s e.1 n a len) with
    | some (m, y) =>
      let s := noteRead s e.1 m y 4 .newest
      let x := grpOf s e.1
      setGrp s e.1 { x with pathA := wakePath s e.1 n a len x.pathA
                            pathB := if x.two then wakePath s e.1 n a len x.pathB else x.pathB }
    | none => s
def wakeWords (s : State) (n : MemName) (a len : Nat) : State := s.groups.foldl (wakeGroup n a len) s
/-- Whether a load may still be performed again: its register is not readable yet (R37). -/
def loadOpen (s : State) (g : Group) (l : OpenLoad) : Bool := bitOf (lateThreads s g l.reg) l.thread
/-- A register of a thread takes a value. -/
def setLoaded (g : Group) (l : OpenLoad) (w : Word) : Group :=
  match l.reg with
  | .v r =>
    let old := Map.look g.v r []
    { g with v := Map.put g.v r ((List.range g.width).map fun t => if t = l.thread then w else old.getD t 0) }
  | .s n => { g with s := Map.put g.s n w }
  | _ => g
/-- A load of a group is performed now, not before: it returns the newest value. -/
def loadAgain (g : Nat) (s : State) (l : OpenLoad) : State :=
  let x := grpOf s g
  let byte (i : Nat) : Byte :=
    if earlyRead s x.view l.mem (l.addr + i) then Config.freeByte s.fresh (l.addr + i)
    else underHeld s x.blk l.mem (l.addr + i) (homeByte s l.mem (l.addr + i))
  let x := setLoaded x l (wordOf ((List.range 4).map byte))
  setGrp s g (hearWrites x s.log.length l.addr 4 (hits l.mem l.addr 4 s.log))
/-- The device's choice, once for each write and word, whether the open loads of a group wait for it (log entry 10). -/
def loadsAgain (n : MemName) (a len : Nat) (s : State) (e : Nat × Group) : State :=
  let late (l : OpenLoad) : Bool := l.mem == n && decide (l.addr < a + len) && decide (a < l.addr + 4) && loadOpen s e.2 l
    && Config.choice s.log.length (2 ^ 96 * (e.1 + 1) + 2 ^ 64 * memKey n + l.addr) % 2 == 1
  if e.2.loads.isEmpty then s else (e.2.loads.filter late).foldl (loadAgain e.1) s
def reload (s : State) (n : MemName) (a len : Nat) : State := s.groups.foldl (loadsAgain n a len) s
/-- An agent's write is performed: it enters the log, it spoils what it may of matrix commands, loads may wait for it, it ends
SLEEPWs. `e` says who writes where, `w` what the writer has observed. -/
def agentWrite (s : State) (e : Written) (w : View) (bs : List Byte) : State :=
  let s := homeWrite (logWrite s e bs.length) e.mem e.addr bs
  wakeWords (reload (disturb s w e.mem e.addr bs.length) e.mem e.addr bs.length) e.mem e.addr bs.length
/-- A group's write. -/
def groupWrite (s : State) (g : Nat) (n : MemName) (a : Nat) (bs : List Byte) : State :=
  agentWrite s { mem := n, addr := a, old := [], agent := g } (grpOf s g).view bs
/-- A write by the copy engine of a block for a command of a group. -/
def copyWrite (s : State) (blk seq g : Nat) (n : MemName) (a : Nat) (bs : List Byte) : State :=
  agentWrite s { mem := n, addr := a, old := [], agent := blk, cmd := some (false, seq) } (grpOf s g).view bs

/-- The loads of one instruction stay open until their registers are readable, where they read performed writes (R236). -/
def openLoads (s0 s : State) (es : List (Reg × Nat × MemName × Nat × Nat)) : State :=
  let g := cg s
  let news := es.filterMap fun e => match sightOf s0 s0.cur e.2.2.1 e.2.2.2.1 e.2.2.2.2 with
    | .cut _ => if sharedMem e.2.2.1 then some { reg := e.1, thread := e.2.1, mem := e.2.2.1, addr := e.2.2.2.1, since := s0.time } else none
    | _ => none
  if news.isEmpty then s else setCg s { g with loads := g.loads ++ news }
/-- A store issues: it is the group's at once and reaches its home later (R236, log entry 10). -/
def storeBytes (s : State) (n : MemName) (a : Nat) (bs : List Byte) : State :=
  let g := closeLoads n a bs.length (cg s)
  setCg s { g with stores := g.stores ++ [{ mem := n, addr := a, bytes := bs, stamp := s.fresh
                                            ready := s.time + Config.storeDelay s.fresh g.stores.length }] }
/-- The groups that had read a store before it was performed have now read the newest write. -/
def tellPeekers (s : State) (p : PendStore) : State :=
  p.peeked.foldl (fun s h =>
    setGrp s h (hearWrites (grpOf s h) s.log.length p.addr p.bytes.length (hits p.mem p.addr p.bytes.length s.log))) s
/-- Performs stores of a group that are no longer in its list, oldest first. -/
def performAll (g : Nat) : State → List PendStore → State
  | s, [] => s
  | s, p :: r => performAll g (tellPeekers (groupWrite s g p.mem p.addr p.bytes) p) r
/-- Parts a list of pending stores, oldest first: those a test picks with the earlier ones that overlap them, and the others. -/
def partStores (sel : PendStore → Bool) : List PendStore → List PendStore × List PendStore
  | [] => ([], [])
  | p :: r =>
    let q := partStores sel r
    if sel p || q.1.any (storeHits p.mem p.addr p.bytes.length) then (p :: q.1, q.2) else (q.1, p :: q.2)
/-- The stores of a group that a test picks are performed: to one location they go in order, after the stores of other groups of
its core that the group had read there (R235). The first argument bounds how far that goes. -/
def performSome : Nat → State → Nat → (PendStore → Bool) → State
  | 0, s, g, sel =>
    let x := grpOf s g
    let q := partStores sel x.stores
    performAll g (setGrp s g { x with stores := q.2 }) q.1
  | n + 1, s, g, sel =>
    let mine := (partStores sel (grpOf s g).stores).1
    let before (p : PendStore) : Bool := p.peeked.contains g && mine.any fun m => storeHits m.mem m.addr m.bytes.length p
    let s := s.groups.foldl (fun s h => if h.1 == g || !h.2.stores.any before then s else performSome n s h.1 before) s
    let x := grpOf s g
    let q := partStores sel x.stores
    performAll g (setGrp s g { x with stores := q.2 }) q.1
def performOf (s : State) (g : Nat) (sel : PendStore → Bool) : State := performSome s.groups.length s g sel
/-- The stores of its core that a group has read, and that a test picks, are performed: a write of the group comes after them
(R235). -/
def performMates (s : State) (g : Nat) (sel : PendStore → Bool) : State :=
  s.groups.foldl (fun s h => if h.1 == g then s else performOf s h.1 fun p => p.peeked.contains g && sel p) s
/-- What must be performed before a write of a group to a range: its stores, and those it has read, that meet the range. -/
def performBefore (s : State) (g : Nat) (n : MemName) (a len : Nat) : State :=
  performOf (performMates s g (storeHits n a len)) g (storeHits n a len)

/-! ### Releases and acquires (R238 to R242) -/

/-- The die of a core (R249). -/
def coreDie (c : Nat) : Nat := if c < 384 then c / 96 else c - 384
/-- Whether one instance of a scope holds two agents, by their blocks and cores (R233). -/
def withinScope (scope blk core blk' core' : Nat) : Bool :=
  match scope with
  | 0 => false
  | 1 => blk == blk'
  | 2 => blk == blk' || core == core' || (decide (core < 384) && decide (core' < 384) && core / 8 == core' / 8)
  | 3 => coreDie core == coreDie core'
  | _ => true
/-- The numbers of the log's writes that a test picks. -/
def pickWrites (p : Written → Bool) : List Written → List Nat
  | [] => []
  | e :: r => if p e then (r.length + 1) :: pickWrites p r else pickWrites p r
/-- What a release of a group covers: its own writes and those it has observed (R239). -/
def coverOf (s : State) (g : Nat) : View :=
  let w := (grpOf s g).view
  { w with saw := (pickWrites (fun e => e.cmd.isNone && e.agent == g) s.log ++ w.saw).eraseDups, upTo := s.log.length }
/-- Every store the group has issued, or has read of its core, is performed. -/
def performStores (s : State) (g : Nat) : State :=
  performOf (performMates s g fun _ => true) g fun _ => true
/-- A release of a group, with what it covers beside the group's own: `r` says its scope and kind. -/
def addRelease (s : State) (g : Nat) (more : View) (r : Release) : State :=
  let x := grpOf s g
  let b := blkOf s x.blk
  { s with rels := s.rels ++ [{ r with agent := g, blk := x.blk, gang := b.gang, kern := b.kern, core := x.core
                                       at_ := s.log.length, view := joinView (coverOf s g) more }] }
def recordRelease (s : State) (g scope why : Nat) : State := addRelease s g {} { scope := scope, why := why }
/-- A release of a group at a scope (R238); one of group scope orders nothing. -/
def releaseGrp (s : State) (g scope : Nat) : State :=
  if scope = 0 then s else recordRelease (performStores s g) g scope 0
def release (s : State) (scope : Nat) : State := releaseGrp s s.cur scope
/-- The writes for copy commands of a block that a test picks. -/
def copyWrites (blk : Nat) (p : Nat → Bool) (l : List Written) : List Nat :=
  pickWrites (fun e => match e.cmd with
    | some (false, q) => e.agent == blk && p q
    | _ => false) l
/-- A group has observed views' worth of writes, and its loads are final; what it acquires counts for its matrix commands only
through OPFENCE (R301). -/
def seeView (s : State) (g : Nat) (w : View) : State :=
  let x := grpOf s g
  setGrp s g { x with view := joinView x.view w, loads := [] }
/-- A group has observed the completion of copies (R242); matrix commands of it observe their writes too (R301 item 2). -/
def seePort (s : State) (g : Nat) (saw : List Nat) : State :=
  let x := grpOf s g
  let w : View := { saw := saw }
  setGrp s g { x with view := joinView x.view w, port := joinView x.port w, loads := [] }
def seeCopies (s : State) (g : Nat) (p : Nat → Bool) : State := seePort s g (copyWrites (grpOf s g).blk p s.log)
/-- Whether an agent wrote, after its release, a location that one of some writes wrote later (R235, R238). -/
def wroteBefore (s : State) (r : Release) (saw : List Nat) : Bool :=
  let l := (List.range s.log.length).zip s.log
  let n := s.log.length
  l.any fun e => e.2.cmd.isNone && e.2.agent == r.agent && decide (r.at_ < n - e.1) &&
    l.any fun f => decide (n - e.1 < n - f.1) && saw.contains (n - f.1)
      && writeMeets e.2.mem (e.2.addr / 4 * 4) (e.2.addr % 4 + e.2.old.length) f.2
/-- The releases that an acquire of a group takes (R238 to R240): those of agents it has heard from since, where both scopes hold
both, or every one for a full fence; with them the full fences made before, and the releases whose agents' later writes those
cover the successors of: what these released has been performed where the group reads. -/
def taken (s : State) (g scope : Nat) (all : Bool) : List Release :=
  let x := grpOf s g
  let near (r : Release) : Bool := r.agent != g && withinScope scope r.blk r.core x.blk x.core
    && withinScope r.scope r.blk r.core x.blk x.core
  let heard (r : Release) : Bool := near r && (all || decide (r.at_ < Map.look x.heard r.agent 0))
  let last := (s.rels.reverse.dropWhile fun r => !heard r).reverse
  let saw := (s.rels.filter heard).flatMap fun r => r.view.saw
  (s.rels.filter heard) ++ last.filter fun r => near r && !heard r && (r.full || wroteBefore s r saw)
/-- An acquire of a group (R239, R240): what the releases cover that it takes, and from package scope on what the kernels that
had completed before the group began have written (R113). The stores it has read are performed, its loads final. -/
def acquireGrp (s : State) (g scope : Nat) (all : Bool) : State :=
  if scope = 0 then s
  else
    let s := performOf (performMates s g fun _ => true) g fun p => p.peeked.contains g
    let x := grpOf s g
    let w : View := { x.view with upTo := max x.view.upTo x.heardTop
                                  saw := (copyWrites x.blk (fun q => decide (q ≤ x.heardDone)) s.log ++ x.view.saw).eraseDups }
    let w := (taken s g scope all).foldl (fun w r => joinView w r.view) (if 4 ≤ scope then joinView w x.past else w)
    setGrp s g { x with view := w, loads := [] }
def acquire (s : State) (scope : Nat) : State := acquireGrp s s.cur scope false
/-- The releases of groups that have ended, of a block, a gang or a kernel (R254). -/
def exitView (s : State) (p : Release → Bool) : View :=
  (s.rels.filter fun r => r.why == 1 && p r).foldl (fun w r => joinView w r.view) {}
/-- What the kernels that have completed by now have written (R113). -/
def endedView (s : State) : View :=
  (s.rels.filter fun r => (r.why == 1 || r.why == 3) && (Map.find s.hall.repl.kernels r.kern).isNone).foldl
    (fun w r => joinView w r.view) {}
/-- What the groups released whose SHAPE says what a launch's resolution does (R130). -/
def shapeView (s : State) (x : Nat × Nat × Nat × Word) : View :=
  (s.rels.filter fun r => r.why == 2 && r.shape == x).foldl (fun w r => joinView w r.view) {}

end Sys2Proof.Machine
end

