-- ==== Sys2Proof/Machine/Waits.lean ====
section
/-!
DEFINITION. Machine/Waits.lean: the conditions of every wait (R38), in one function that the waiting instructions and
GROUP_WAIT_ENDS share, with the readings of windows, pages, queues, rings, and traces the conditions need.
-/
namespace Sys2Proof.Machine

/-! ### The command-processor page (R83) -/

def pageRead (s : State) (ctx off n : Nat) : Nat := natOfBytes (vaRead s ctx ((ctxOf s ctx).cpPage + off) n)
def pageWrite (s : State) (ctx off n x : Nat) : State :=
  vaWrite s ctx ((ctxOf s ctx).cpPage + off) (bytesOfNat n x)
def queueOf (s : State) (ctx q : Nat) : Queue := Map.look (ctxOf s ctx).queues q {}
def setQueue (s : State) (ctx q : Nat) (x : Queue) : State :=
  let c := ctxOf s ctx
  setCtx s ctx { c with queues := Map.put c.queues q x }
def hringOf (s : State) (ctx j : Nat) : HRing := Map.look (ctxOf s ctx).rings j {}
def setHring (s : State) (ctx j : Nat) (x : HRing) : State :=
  let c := ctxOf s ctx
  setCtx s ctx { c with rings := Map.put c.rings j x }
/-- A queue with room for one more command (R95). -/
def queueRoom (s : State) (ctx q : Nat) : Bool :=
  let x := queueOf s ctx q
  decide (x.tail - x.done < 2 ^ (x.n + 4))
/-- HCFG, HBASE and HCONS of a host ring, as the page holds them when the ring is used (R83, log entry 80); a ring is full at exactly
its size (R92). -/
def hringCfg (s : State) (ctx j : Nat) : Nat := pageRead s ctx (0x800 + 32 * j + 8) 4
def hringBase (s : State) (ctx j : Nat) : Nat := pageRead s ctx (0x800 + 32 * j) 8
def hringFull (s : State) (ctx j : Nat) : Bool :=
  let n := 2 ^ (hringCfg s ctx j % 16 + 4)
  decide (((hringOf s ctx j).prod + 2 ^ 32 - pageRead s ctx (0x800 + 32 * j + 20) 4) % 2 ^ 32 = n)

/-! ### Shapes, traces and items (R116 to R118, R130, R149) -/

/-- The kernel's true count and parameter once resolved on this chip (R130); a kernel that is not predicted has its own. -/
def shapeOf (s : State) (k : Nat) : Option (Nat × Word) :=
  let x := kernOf s k
  if x.hdr.policy = 0 then some (x.x * x.y * x.z, x.param)
  else match Map.find s.hall.repl.kernels k with
    | some r => r.resolved
    | none => some (x.x, x.param)
/-- The trace area's entries below min(count, capacity), as (kind, rank, thread, index, item) (R116). -/
def traceBase (s : State) (k : Nat) : Nat := ((kernOf s k).args.getD 7 0).toNat
def traceEntries (s : State) (k : Nat) : List (Nat × Nat × Nat × Nat × Nat) :=
  let x := kernOf s k
  let b := traceBase s k
  let n := min (natOfBytes (vaRead s x.ctx b 8)) (natOfBytes (vaRead s x.ctx (b + 8) 8))
  (List.range n).map fun i =>
    let e := natOfBytes (vaRead s x.ctx (b + 64 + 16 * i) 16)
    (bitsOf e 7 0, bitsOf e 63 56, bitsOf e 55 43, bitsOf e 95 64, bitsOf e 127 96)
/-- Whether another kernel records into the same area at the same time (R117). -/
def sharesTrace (s : State) (k : Nat) : Bool :=
  let place (c b : Nat) : Option (MemName × Nat) := vaMem s c b
  s.kerns.any fun e => e.1 != k && e.2.mode == 1 && !e.2.dead
    && place e.2.ctx (e.2.args.getD 7 0).toNat == place (kernOf s k).ctx (traceBase s k)
/-- An area into which two kernels record holds undefined values from then on; it is not appended to any more. -/
def spoilTrace (s : State) (k : Nat) : State :=
  let x := kernOf s k
  let b := traceBase s k
  let size := 64 + 16 * natOfBytes (vaRead s x.ctx (b + 8) 8)
  let place (c a : Nat) : Option (MemName × Nat) := vaMem s c a
  let mark (e : Nat × Kern) : Nat × Kern :=
    if e.2.mode = 1 ∧ place e.2.ctx (e.2.args.getD 7 0).toNat = place x.ctx b then (e.1, { e.2 with spoilt := true }) else e
  let s := { s with kerns := s.kerns.map mark }
  setFresh (vaWrite s x.ctx b ((List.range size).map fun i => Config.freeByte s.fresh (b + i))) (s.fresh + 1)
/-- Appends a trace entry, counting it even past the capacity (R117). -/
def traceAppend (s : State) (k kind rank thread index item : Nat) : State :=
  let x := kernOf s k
  let b := traceBase s k
  let n := natOfBytes (vaRead s x.ctx b 8)
  let e := kind + thread * 2 ^ 43 + rank * 2 ^ 56 + index * 2 ^ 64 + item * 2 ^ 96
  if x.spoilt then s
  else if sharesTrace s k then spoilTrace s k
  else
    let s := if n < natOfBytes (vaRead s x.ctx (b + 8) 8) then vaWrite s x.ctx (b + 64 + 16 * n) (bytesOfNat 16 e) else s
    vaWrite s x.ctx b (bytesOfNat 8 (n + 1))
/-- diverged := 1, and the rank or block that goes on as in FREE (R118); a block's key is 256 + its logical index. -/
def setDiverged (s : State) (k key : Nat) : State :=
  let x := kernOf s k
  let s := setKern s k { x with diverged := x.diverged ++ [key] }
  vaWrite s x.ctx (traceBase s k + 16) (bytesOfNat 4 1)
/-- The item entries of a block that are still to be handed out (R118). -/
def itemsLeft (s : State) (k : Nat) (b : Block) : List (Nat × Nat × Nat × Nat × Nat) :=
  let es := (traceEntries s k).filter fun e => e.1 == 2 && e.2.1 == b.rank && e.2.2.2.1 == b.logical
  es.drop (Map.look (kernOf s k).itemPos b.logical 0)
/-- First thread index within the block of a group (R149). -/
def threadBase (s : State) (g : Group) : Nat :=
  (((blkOf s g.blk).groups.map (grpOf s)).filter fun h => decide (h.index < g.index)).foldl (fun a h => a + h.width) 0
/-- The words of a kernel's code. -/
def codeWords (s : State) (k : Nat) : List Word :=
  let x := kernOf s k
  (List.range x.hdr.ncode).map fun i => wordOf (vaBytes s x.ctx ((codeBase x).toNat + 4 * i) 4)
/-- The least word index from which a word of the code may go on, beside the next: a branch's target, and for BRX any. -/
def leapsTo (i : Nat) (w : Word) : Nat :=
  let off (o : BitVec 18) : Nat := ((i : Int) + o.toInt).toNat
  match decodeWord w with
  | .ok (.bra _ _ _ o) => off o
  | .ok (.br _ _ _ o) => off o
  | .ok (.jmp _ o) => off o
  | .ok (.call _ o) => off o
  | .ok (.brx _ _) => 0
  | _ => i
def isHead (w : Word) : Bool := match decodeWord w with
  | .ok (.lhead _ _ _) => true
  | _ => false
/-- Whether a path that goes on at an address may come to an LHEAD: one stands there or later, or behind a branch back that
stands there or later. A path that may not has left its loop (R118, log entry 26). -/
def reachesHead (s : State) (k : Nat) (a : Addr) : Bool :=
  let ws := codeWords s k
  let n := (codeOffset (kernOf s k) a).toNat / 4
  (List.range ws.length).any fun h =>
    isHead (ws.getD h 0) && (decide (n ≤ h) || (List.range ws.length).any fun j => decide (n ≤ j) && decide (leapsTo j (ws.getD j 0) ≤ h))
/-- The words of the loops at whose heads LHEADs stand: from the target of a branch back over an LHEAD to the last such branch; of
several targets the nearest one counts. -/
def loopsOf (ws : List Word) : List (Nat × Nat) :=
  ((List.range ws.length).filter fun h => isHead (ws.getD h 0)).filterMap fun h =>
    let back := (List.range ws.length).filter fun j => decide (h ≤ j) && decide (leapsTo j (ws.getD j 0) ≤ h) && decide (leapsTo j (ws.getD j 0) < j)
    match (back.map fun j => leapsTo j (ws.getD j 0)).max? with
    | some t => ((back.filter fun j => leapsTo j (ws.getD j 0) == t).max?).map fun j => (t, j)
    | none => none
/-- Whether an address stands in such a loop. -/
def insideLoop (s : State) (k : Nat) (a : Addr) : Bool :=
  let n := (codeOffset (kernOf s k) a).toNat / 4
  (loopsOf (codeWords s k)).any fun l => decide (l.1 ≤ n) && decide (n ≤ l.2)
/-- A path, what it returns or reconverges to, and where its group's handler returns to. -/
def pathPlaces (s : State) (k : Nat) (g : Group) (p : Path) : List Addr :=
  p.pc :: p.rstack ++ p.stack.map StackEntry.fpc ++ p.stack.filterMap StackEntry.cont
    ++ (if g.sup then [codeBase (kernOf s k) + g.trap.pc.signExtend 64] else [])
/-- Whether a thread on a path is in its loop still, or has not come to one yet (R118, log entry 26). -/
def pathReaches (s : State) (k : Nat) (g : Group) (p : Path) (lane : Nat) : Bool :=
  (pathPlaces s k g p).any (if bitOf g.headed lane then insideLoop s k else reachesHead s k)
/-- Whether the thread a trace entry names can still come for its item (R118): it is live, and in its loop or before it;
in the group that waits, a running arm other than the waiting one holds it. -/
def threadComes (s : State) (b : Block) (thread : Nat) : Bool :=
  b.groups.any fun g =>
    let x := grpOf s g
    let t := threadBase s x
    let other := if x.onB then x.pathA else x.pathB
    x.state != .retired && decide (t ≤ thread) && decide (thread < t + x.width) && bitOf x.live (thread - t) &&
      (if g = s.cur then x.two && other.st == .running && bitOf other.scope (thread - t) && pathReaches s b.kern x other (thread - t)
       else (bitOf x.pathA.scope (thread - t) && pathReaches s b.kern x x.pathA (thread - t))
         || (x.two && bitOf x.pathB.scope (thread - t) && pathReaches s b.kern x x.pathB (thread - t)))
/-- Under REPLAY, whether the block's next listed item names another thread that can still take it (R118, R149). -/
def itemBlocked (s : State) (thread : Nat) : Bool :=
  let b := cb s
  let k := b.kern
  (kernOf s k).mode == 2 && !(kernOf s k).diverged.contains (256 + b.logical) &&
    match itemsLeft s k b with
    | [] => false
    | e :: _ => e.2.2.1 != thread && threadComes s b e.2.2.1

/-! ### Batches to take and faults to take (R101, R339) -/

/-- The call rings of a partition: (context, weight, batches), ascending context (R101). -/
def callRings (s : State) (p : Nat) : List (Nat × Nat × List Batch) :=
  s.ctxs.filterMap fun c =>
    match Map.look c.2.calls p [] with
    | [] => none
    | l => some (c.1, max 1 c.2.svcw, l)
/-- The ring take() chooses and the credits after it (R101), for the die's current slice. -/
def budgetOpen (s : State) (ctx die : Nat) : Bool := decide (0 < budgetLeft (ctxOf s ctx) 2 die)
def takeRound (s : State) (die : Nat) (credit : Map Nat) (rings : List (Nat × Nat × List Batch)) :
    Option (Nat × Nat) :=
  (rings.find? fun r => decide (0 < Map.look credit r.1 0) && budgetOpen s r.1 die).map fun r => (r.1, r.2.1)
def rotateFrom (pos : Nat) (rings : List (Nat × Nat × List Batch)) : List (Nat × Nat × List Batch) :=
  rings.filter (fun r => decide (pos ≤ r.1)) ++ rings.filter (fun r => decide (r.1 < pos))
/-- Every ring's credit at its weight (R83, R101). -/
def fullCredit (s : State) : Map Nat := s.ctxs.map fun c => (c.1, max 1 c.2.svcw)
/-- Chosen context, credits and position after the choice. -/
def takeBatch (s : State) (die : Nat) : Option (Nat × Map Nat × Nat) :=
  let v := svcOf s die
  let rings := rotateFrom v.pos (callRings s v.part)
  let full := fullCredit s
  let use (credit : Map Nat) (c : Nat) : Nat × Map Nat × Nat :=
    let n := Map.look credit c 0 - 1
    (c, Map.put credit c n, if n = 0 then c + 1 else c)
  match takeRound s die v.credit rings with
  | some r => some (use v.credit r.1)
  | none => (takeRound s die full rings).map fun r => use full r.1
def freeArea (v : Service) : Option Nat := (List.range 32).find? fun i => (Map.find v.areas i).isNone
def canTake (s : State) (die : Nat) : Bool := (takeBatch s die).isSome && (freeArea (svcOf s die)).isSome
/-- The oldest fault entry of a partition that is not taken and whose context has budget (R339). -/
def faultToTake (s : State) (die : Nat) : Option FaultEntry :=
  (faultsOf s (svcOf s die).part).entries.find? fun e => !e.taken && budgetOpen s e.ctx die

/-! ### Rings (R268) -/

def ringOf (b : Block) (matrix : Bool) : Ring := if matrix then b.matrix else b.copy
def setRing (b : Block) (matrix : Bool) (r : Ring) : Block :=
  if matrix then { b with matrix := r } else { b with copy := r }
def cmdDone (c : Cmd) : Bool := match c.phase with
  | .done _ => true
  | _ => false
/-- A ring number read from a 32-bit register, relative to the count x (R268: comparisons modulo 2^32); none where it
names something later than x. -/
def back32 (x : Nat) (w : Word) : Option Nat :=
  let d := (x + 2 ^ 32 - w.toNat % 2 ^ 32) % 2 ^ 32
  if 2 ^ 31 ≤ d then none else if d ≤ x then some (x - d) else some 0
/-- A command of a block has completed or been discarded, or its record is no longer held. -/
def cmdGone (s : State) (blk seq : Nat) : Bool :=
  match (blkOf s blk).copy.cmds.find? (fun c => c.seq == seq) with
  | some c => cmdDone c
  | none => true

/-- An operation of another member has had its last acknowledgement (R352). -/
def dstGone (s : State) (o : Nat × Nat) : Bool := !(s.links.dst.any fun d => d.src == o.1 && d.tag == o.2)

/-- Launches made by LAUNCH whose FINISH has not been delivered (R96). -/
def childCount (s : State) (ctx : Nat) : Nat :=
  let mine (l : Launcher) : Bool := l.ref.isNone && l.node.isNone && l.ctx == ctx
  (s.hall.posted.filter mine).length + ((s.hall.origins.map Prod.snd).filter mine).length

/-- A call ring that holds 16 batches (R99). -/
def ringFull (s : State) (ctx part : Nat) : Bool := decide (16 ≤ (Map.look (ctxOf s ctx).calls part []).length)
/-- A word with every write performed, and the stores the group has seen before they are: what SLEEPW evaluates (R147). -/
def newWord (s : State) (n : MemName) (a : Nat) : Word :=
  wordOf ((List.range 4).map fun i => viewByte s (seenStores s s.cur) n (a + i))
/-- Whether a wait of the current group's issuing path has ended (R38). -/
def waitHolds (s : State) (w : Wait) : Bool :=
  let g := cg s
  let b := cb s
  let die := b.die
  match w with
  | .sleep t => decide (t ≤ s.time)
  | .word cc a v => match winLoc s a 4 with
    | some (m, x) => waitCond cc (newWord s m x) v
    | none => true
  | .wordMet => true
  | .pass _ => true
  | .fenced pod n => (b.copy.cmds.all fun c => !(c.grp == s.cur && decide (c.seq ≤ n) && c.scratch) || cmdDone c)
      && (!pod || podQuiet s s.cur)
  | .acks => podQuiet s s.cur
  | .barrier i => !bitOf (Map.look b.bars i {}).arrived g.index
  | .rearrive i => !bitOf (Map.look b.bars i {}).arrived g.index
  | .cluster => !(gangOf s b.gang).arrived.contains s.cur
  | .grid e => decide (e ≤ (kernOf s b.kern).episode)
  | .batch n => b.copy.cmds.all fun c => !(c.grp == s.cur && decide (c.batch ≤ n)) || cmdDone c
  | .chunks base set => (List.range 32).all fun i =>
      !(set / 2 ^ i % 2 == 1) || Map.look b.chunks (base + i) 0 == 0
  | .matrix n => decide (n ≤ b.matrix.done)
  | .ring m acks =>
    let r := ringOf b m
    decide (r.tail - r.done < 64) && decide (g.ack + acks ≤ 0xFFFFFFFF)
  | .shape => (shapeOf s b.kern).isSome
  | .commit => !b.spec
  | .settled => !b.spec && (heldIn s g.blk (dieName b)).isEmpty
  | .drained => b.spec || (b.held.isEmpty && b.effects.isEmpty)
  | .item h => match (threadsOf g.width (emask s &&& ~~~h)) with
    | t :: _ => !itemBlocked s (threadBase s g + t)
    | [] => true
  | .queueRoom q => queueRoom s b.ctx q
  | .children => decide (childCount s b.ctx < 256)
  | .hostRing j => !hringFull s b.ctx j
  | .callRing _ => !ringFull s b.ctx b.part
  | .answer i => (Map.find g.answered i).isSome
  | .batchToTake => canTake s die
  | .faultToTake => (faultToTake s die).isSome
  | .faultRoom => decide ((faultsOf s b.part).entries.length < 64)
  | .faultAnswer p q => !((faultsOf s p).entries.any fun e => e.seq == q)
  | .copiesDone _ _ _ cmds ops => cmds.all (fun c => cmdGone s c.1 c.2) && ops.all (dstGone s)
  | .hallRoom => !hallFull s

/-- Goes on once a wait's condition holds, and waits over the state given until then. -/
def waitFor (s : State) (w : Wait) (k : State → Act) : Act :=
  if waitHolds s w then k s else .wait s w

end Sys2Proof.Machine
end

