-- ==== Sys2Proof/Machine/Launch.lean ====
section
/-!
DEFINITION. Machine/Launch.lean: kernel image headers and the dispatcher's checks (R49 to R52), command images and their
checks (R85, R87, R88), effective modes (R115), and the SUBMIT of a launch (R361).
-/
namespace Sys2Proof.Machine

/-! ### Images (R48 to R52) -/

def roleOf (e : Nat) : Role :=
  { regs := bitsOf e 55 48, groups := bitsOf e 47 40, width := bitsOf e 39 32, entry := bitsOf e 31 0 }
/-- The header fields of 128 bytes (R49, R50). -/
def parseHeader (bs : List Byte) : Header :=
  let h := natOfBytes bs
  let nrole := bitsOf h 55 48
  let entry (j : Nat) : Nat := bitsOf h (448 + 64 * j + 63) (448 + 64 * j)
  { magic := bitsOf h 31 0, version := bitsOf h 39 32, flags := bitsOf h 47 40, nrole := nrole
    cores := bitsOf h 63 56, threads := bitsOf h 79 64, gang := bitsOf h 87 80, window := bitsOf h 95 88
    winbytes := bitsOf h 127 96, spill := bitsOf h 143 128, policy := bitsOf h 151 144, bound := bitsOf h 191 160
    codeoff := bitsOf h 223 192, ncode := bitsOf h 255 224, constoff := bitsOf h 287 256, constlen := bitsOf h 319 288
    dataoff := bitsOf h 351 320, datalen := bitsOf h 383 352, regoff := bitsOf h 415 384, nregion := bitsOf h 431 416
    roles := (List.range (min nrole 4)).map fun j => roleOf (entry j)
    image := bitsOf h 735 704, handler := bitsOf h 767 736, check := bitsOf h 1023 992
    reserved := bitsOf h 991 768 != 0 || bitsOf h 447 432 != 0 || bitsOf h 159 152 != 0
      || (List.range 4).any fun j => bitsOf (entry j) 63 56 != 0 || (decide (nrole ≤ j) && entry j != 0) }
/-- Width of a width code. -/
def widthOf (c : Nat) : Nat := 32 * 2 ^ c
/-- The groups of a block in order: (role, width, registers / 8, entry) (R108). -/
def blockGroups (h : Header) : List (Nat × Role) :=
  (List.range h.roles.length).flatMap fun r =>
    let x := h.roles.getD r {}
    (List.range x.groups).map fun _ => (r, x)
/-- The halves a core's groups go to: ascending index onto the half with fewer threads (R108). -/
def assignHalves : List (Nat × Role) → Nat → Nat → List Nat
  | [], _, _ => []
  | (_, r) :: gs, t0, t1 =>
    if t0 ≤ t1 then 0 :: assignHalves gs (t0 + widthOf r.width) t1 else 1 :: assignHalves gs t0 (t1 + widthOf r.width)
/-- The groups of core rank k of a block of c cores, with their indices. -/
def coreGroups (h : Header) (k : Nat) : List (Nat × Nat × Role) :=
  let gs := blockGroups h
  ((List.range gs.length).map fun i => (i, gs.getD i (0, {}))).filter fun e => e.1 % 2 ^ h.cores == k
def halfThreads (gs : List (Nat × Role)) (hs : List Nat) (k : Nat) : Nat :=
  ((gs.zip hs).map fun e => if e.2 = k then widthOf e.1.2.width else 0).sum
/-- The region table (R51). -/
def readRegions (s : State) (ctx image : Nat) (h : Header) : List (Nat × Nat) :=
  (List.range h.nregion).map fun i =>
    let e := natOfBytes (vaRead s ctx (image + h.regoff + 8 * i) 8)
    (bitsOf e 31 0, bitsOf e 63 32)
def regionsOk (n : Nat) : Nat → List (Nat × Nat) → Bool
  | _, [] => true
  | lo, (a, b) :: r => decide (lo ≤ a) && decide (a < b) && decide (b ≤ n) && regionsOk n b r
def align8 (x : Nat) : Nat := (x + 7) / 8 * 8

/-- The first failing check of R52 on an image in a context's memory; 0 where all pass. -/
def refuseCode (s : State) (ctx image : Nat) : Nat :=
  let bs := vaRead s ctx image 128
  let h := parseHeader bs
  let c := 2 ^ h.cores
  let rs := h.roles
  let gs := blockGroups h
  let badRole (r : Role) : Bool :=
    r.regs == 0 || decide (16 < r.regs) || r.groups == 0 || decide (32 < r.groups) || decide (2 < r.width)
  let badCore (k : Nat) : Bool :=
    let g := (coreGroups h k).map Prod.snd
    let hs := assignHalves g 0 0
    decide (131072 < (g.map fun r => widthOf r.2.width * 8 * r.2.regs).sum) || decide (32 < g.length)
      || decide (512 < halfThreads g hs 0) || decide (512 < halfThreads g hs 1)
  if h.magic ≠ 0x4942594B ∨ crc32 (bs.take 124) ≠ BitVec.ofNat 32 h.check then 1
  else if h.version = 0 ∨ 3 < h.version then 2
  else if h.reserved = true ∨ 32 ≤ h.flags ∨ h.flags % 4 = 3 ∨ h.threads < 32 ∨ 8192 < h.threads ∨ 3 < h.cores ∨ h.nrole = 0
      ∨ 4 < h.nrole ∨ h.gang = 0 ∨ 8 < h.gang ∨ 1 < h.window ∨ 3 < h.policy ∨ h.spill % 64 ≠ 0 ∨ 16384 < h.spill
      ∨ h.winbytes % 4096 ≠ 0 ∨ h.constlen % 4 ≠ 0 ∨ 65536 < h.constlen ∨ 255 < h.nregion ∨ rs.any badRole = true then 3
  else if h.codeoff ≠ 0x80 ∨ h.constoff ≠ align8 (0x80 + 4 * h.ncode) ∨ h.dataoff ≠ align8 (h.constoff + h.constlen)
      ∨ h.regoff ≠ align8 (h.dataoff + h.datalen) ∨ h.image < h.regoff + 8 * h.nregion
      ∨ rs.any (fun r => decide (h.ncode ≤ r.entry)) = true ∨ (h.handler ≠ 0xFFFFFFFF ∧ h.ncode ≤ h.handler) then 4
  else if h.threads ≠ (rs.map fun r => r.groups * widthOf r.width).sum ∨ 1024 * c < h.threads ∨ 8 < h.gang * c
      ∨ (h.window = 1 ∧ h.gang * c ≠ 8) then 5
  else if (List.range c).any badCore = true then 6
  else if 786432 * c < h.winbytes + h.spill * gs.length + 8192 ∨ h.winbytes < h.datalen then 7
  else if (h.policy ≠ 0 ∧ (h.bound = 0 ∨ h.version = 1)) ∨ (h.policy = 0 ∧ h.bound ≠ 0) then 8
  else if regionsOk h.ncode 0 (readRegions s ctx image h) = false then 9
  else if h.flags / 16 % 2 = 1 ∧ (ctxOf s ctx).world ≠ 0 then 10
  else 0
/-- The header of an image with its region table. -/
def readHeader (s : State) (ctx image : Nat) : Header :=
  let h := parseHeader (vaRead s ctx image 128)
  { h with regions := readRegions s ctx image h }

/-! ### Command images (R85) -/

def qKind (i : Nat) : Nat := bitsOf i 7 0
def qFence (i : Nat) : Bool := bitsOf i 8 8 == 1
def qRec (i : Nat) : Bool := bitsOf i 9 9 == 1
def qPred (i : Nat) : Bool := bitsOf i 11 11 == 1
def qRing (i : Nat) : Nat := bitsOf i 15 12
def qTag (i : Nat) : Nat := bitsOf i 63 32
def qArg (i j : Nat) : Word := BitVec.ofNat 32 (bitsOf i (287 + 32 * j) (256 + 32 * j))

/-- Device class of R85: a present leaf of class device or migratable, which lets the device read it, and write it with `w` (R327). -/
def deviceClass (s : State) (ctx va : Nat) (w : Bool) : Bool :=
  let l := walk s ctx va
  l.any leafDevice && (checkLeaf s (ctxOf s ctx).world l va true w false).isNone
/-- Every page of a range has a present leaf that grants the access. -/
def rangeMapped (s : State) (ctx va n : Nat) (w : Bool) : Bool :=
  (List.range (n / 65536 + 2)).all fun i =>
    let a := if i = 0 then va else (va / 65536 + i) * 65536
    decide (va + n ≤ a) || (checkLeaf s (ctxOf s ctx).world (walk s ctx a) a (!w) w false).isNone
/-- An address field: rank bits zero, aligned. -/
def plainAddr (a n : Nat) : Bool := decide (a < 2 ^ 56) && a % n == 0

/-- RESV: reserved bits and undefined field values (R88). A queue command's predecessor fields are reserved; a node's
FENCE must be zero. -/
def commandResv (node : Bool) (i : Nat) : Bool :=
  bitsOf i 10 10 != 0 || (!node && bitsOf i 31 16 != 0) || (node && qFence i) || (qPred i && qKind i != 1)
  || match qKind i with
    | 1 => bitsOf i 151 128 != 0
    | 2 => bitsOf i 511 232 != 0 || bitsOf i 231 192 == 0 || bitsOf i 231 192 % 64 != 0
    | 3 => bitsOf i 511 195 != 0 || bitsOf i 194 194 == 1
    | 4 => bitsOf i 511 194 != 0 || bitsOf i 193 193 == 1
    | 5 => bitsOf i 511 164 != 0 || bitsOf i 151 136 == 0
    | _ => bitsOf i 511 68 != 0
/-- ADDR for every address the command names but a trace area. -/
def commandAddr (s : State) (ctx i : Nat) : Bool :=
  let a := bitsOf i 127 64
  match qKind i with
  | 1 => !(plainAddr a 128 && deviceClass s ctx a false)
  | 2 => let d := bitsOf i 191 128
         let n := bitsOf i 231 192
         !(plainAddr a 64 && plainAddr d 64 && rangeMapped s ctx a n false && rangeMapped s ctx d n true)
  | 3 => !(plainAddr a 8 && deviceClass s ctx a false)
  | 4 => !(plainAddr a 8 && rangeMapped s ctx a 8 true && (bitsOf i 193 192 != 1 || rangeMapped s ctx a 8 false))
  | 5 => !(plainAddr a 64 && deviceClass s ctx a false)
  | _ => false
/-- The effective determinism mode (R115). -/
def modeOf (det ctx : Nat) : Nat := if det = 0 then ctx else if det = 1 then (if ctx = 2 then 2 else 1) else 2
/-- The checks that only a LAUNCH makes (R88, R121, R116). -/
def launchChecks (s : State) (ctx i : Nat) : Nat :=
  let image := bitsOf i 127 64
  let x := bitsOf i 191 160
  let y := bitsOf i 207 192
  let z := bitsOf i 223 208
  let r := refuseCode s ctx image
  let h := parseHeader (vaRead s ctx image 128)
  if x = 0 ∨ y = 0 ∨ z = 0 ∨ 0xFFFFFFFF < x * y * z then 7
  else if r ≠ 0 then 0x100 + r
  else if qPred i ≠ (h.policy != 0) then 8
  else if qPred i = true ∧ (y ≠ 1 ∨ z ≠ 1) then 7
  else if qPred i = true ∧ bitsOf i 255 224 ≠ 0 then 2
  else if qPred i = true ∧ h.bound < x then 7
  else if modeOf (h.flags % 4) (ctxOf s ctx).mode ≠ 0 ∧
      (plainAddr (qArg i 7).toNat 64 && deviceClass s ctx (qArg i 7).toNat true) = false then 3
  else 0
/-- The error code of a command's checks at its start, 0 where it passes (R88). `slotBusy` is the BUSY check of GRAPH. -/
def commandError (s : State) (ctx : Nat) (node : Bool) (i : Nat) (slotBusy : Bool) : Nat :=
  if qKind i = 0 ∨ 6 < qKind i ∨ (node = false ∧ qKind i = 6) ∨ (node = true ∧ qKind i = 5) then 1
  else if commandResv node i then 2
  else if commandAddr s ctx i then 3
  else if qKind i = 5 ∧ slotBusy = true then 4
  else if qKind i = 1 then launchChecks s ctx i
  else 0

/-! ### Priorities (R91) -/

/-- The member that holds a launch's queue, or the root queue of one made by LAUNCH (R91, log entry 55). -/
def kMember (r : KRow) : Nat := if kFlags r / 32 % 2 = 1 then fieldAt r.pay0 32 8 else r.origin
def queueKey (ctx member q : Nat) : Nat := ctx * 2 ^ 12 + member * 16 + q
/-- A kernel's priority: that of its queue row, or of its SUBMIT where no PRIO has made one (R91). -/
def kPrio (s : State) (r : KRow) : Nat := Map.look s.hall.repl.queues (queueKey r.ctx (kMember r) (kQueue r)) (kFlags r % 8)

/-- The priority of a kernel (R90). -/
def kernPrio (s : State) (k : Nat) : Nat := kPrio s (kernRow s k)

/-! ### SUBMIT (R361) -/

/-- The two records of a launch: the header fields ride in part 0. -/
def submitPayload (h : Header) (i prio queue seq : Nat) (made : Bool) : List Byte :=
  let flags := prio + (if qPred i then 8 else 0) + (if h.flags / 8 % 2 = 1 then 16 else 0) + (if made then 32 else 0)
  bytesOfNat 8 (bitsOf i 127 64) ++ bytesOfNat 4 (bitsOf i 191 160) ++ bytesOfNat 2 (bitsOf i 207 192)
    ++ bytesOfNat 2 (bitsOf i 223 208) ++ bytesOfNat 4 (bitsOf i 255 224) ++ bytesOfNat 1 (bitsOf i 159 152)
    ++ bytesOfNat 1 flags ++ bytesOfNat 1 h.gang ++ bytesOfNat 1 h.cores ++ bytesOfNat 4 h.bound
    ++ bytesOfNat 1 h.policy ++ bytesOfNat 1 queue ++ bytesOfNat 2 0 ++ bytesOfNat 8 seq
/-- Posts the SUBMIT pair of a launch and remembers its launcher. -/
def postSubmit (s : State) (l : Launcher) (i prio seq : Nat) : State :=
  let c := ctxOf s l.ctx
  let h := readHeader s l.ctx (bitsOf i 127 64)
  let e : HEvent := { kind := 1, ctx := l.ctx, world := c.world }
  let s := postEvent s { e with pay := submitPayload h i prio l.queue seq l.ref.isNone }
  let s := postEvent s { e with part := 1, pay := payOf ((List.range 8).flatMap fun j => wordBytes (qArg i j)) }
  setHall s { s.hall with posted := s.hall.posted ++ [l] }

/-! ### Host rings (R92, R93) -/

/-- The place of the next record: the trap of R327 where it is no writable host-class page (R98). -/
def ringPlace (s : State) (ctx j : Nat) : Nat :=
  hringBase s ctx j + 16 * ((hringOf s ctx j).prod % 2 ^ (hringCfg s ctx j % 16 + 4))
def ringTrap (s : State) (ctx j : Nat) : Option TrapCode :=
  let a := ringPlace s ctx j
  let l := walk s ctx a
  (checkLeaf s (ctxOf s ctx).world l a false true false).or
    (if l.any (fun l => l.cls == 1) then none else some .prot)
def ringEnabled (s : State) (ctx j : Nat) : Bool := hringCfg s ctx j / 2 ^ 24 % 2 == 1
/-- Sends a ring's interrupt and clears its pending count. -/
def ringSignal (s : State) (ctx j : Nat) : State :=
  emit (setHring s ctx j { hringOf s ctx j with pending := 0 })
    (.interrupt (ctxOf s ctx).fn (hringCfg s ctx j / 2 ^ 12 % 2 ^ 12))
/-- Writes one record to a ring whose place translates (R92). -/
def ringWrite (s : State) (ctx j : Nat) (ws : List Word) : State :=
  let r := hringOf s ctx j
  let thr := max 1 (hringCfg s ctx j / 16 % 256)
  let s := vaWrite s ctx (ringPlace s ctx j) (wordsBytes ws)
  let n := (r.prod + 1) % 2 ^ 32
  let s := pageWrite s ctx (0x800 + 32 * j + 16) 4 n
  let s := setHring s ctx j { prod := n, pending := r.pending + 1 }
  if thr ≤ r.pending + 1 then ringSignal s ctx j else s
/-- A flush (R92). -/
def ringFlush (s : State) (ctx j : Nat) : State :=
  if (hringOf s ctx j).pending = 0 then s else ringSignal s ctx j
/-- A completion record (R93): dropped where the ring is not enabled, lost where its place does not translate; none where
the ring is full. -/
def tryRecord (s : State) (ctx j : Nat) (ws : List Word) : Option State :=
  if !ringEnabled s ctx j then some s
  else if hringFull s ctx j then none
  else if (ringTrap s ctx j).isSome then some s
  else some (ringWrite s ctx j ws)
/-- The words of a completion record (R93). -/
def recordWords (made node : Bool) (idx queue err tag seq : Nat) : List Word :=
  [ BitVec.ofNat 32 (3 * 2 ^ 30 + (if made then 2 ^ 29 else 0) + (if node then 2 ^ 28 else 0) + idx % 256 * 2 ^ 20
      + queue % 16 * 2 ^ 16 + err % 2 ^ 16), BitVec.ofNat 32 tag, BitVec.ofNat 32 seq, BitVec.ofNat 32 (seq / 2 ^ 32) ]

end Sys2Proof.Machine
end

