-- ==== Sys2Proof/Machine/Integer.lean ====
section
/-!
DEFINITION. Machine/Integer.lean: moves, integer arithmetic, shifts, bit fields, comparisons, and predicates of both
sets (R167 to R185). A lane word writes its destination in the active threads of the issuing path; a uniform word
writes one register of the group (R167).
-/
namespace Sys2Proof.Machine

/-- A lane result in each active thread (R167). -/
def laneOut (s : State) (d : BitVec 7) (f : Nat → Word) : Act := .done (wv s d.toNat (emask s) f)
/-- A uniform result (R167). -/
def uniOut (s : State) (d : BitVec 7) (w : Word) : Act := .done (ws s d.toNat w)
/-- A predicate result: the threads of the mask it holds in (R182). -/
def predOut (s : State) (p : BitVec 3) (val : Mask) : Act := .done (wp s p.toNat (emask s) val)
/-- The threads of the group a test holds in. -/
def threadMask (s : State) (f : Nat → Bool) : Mask := maskOf ((List.range (cg s).width).filter f)

/-! ### Value rules -/

/-- shl, shr and sar of R177, on the full amount. -/
def shlW (x : Word) (n : Nat) : Word := if 32 ≤ n then 0 else x <<< n
def shrW (x : Word) (n : Nat) : Word := if 32 ≤ n then 0 else x >>> n
def sarW (x : Word) (n : Nat) : Word := x.sshiftRight (min n 31)
/-- The high words of the exact products (R173). -/
def mulHi (x y : Word) : Word := wordOfInt (x.toInt * y.toInt / 4294967296)
def mulHu (x y : Word) : Word := BitVec.ofNat 32 (x.toNat * y.toNat / 4294967296)
/-- Minimum and maximum (R174), absolute value (R175). -/
def minS (x y : Word) : Word := if x.slt y then x else y
def maxS (x y : Word) : Word := if y.slt x then x else y
def minU (x y : Word) : Word := if x.ult y then x else y
def maxU (x y : Word) : Word := if y.ult x then x else y
def absW (x : Word) : Word := if x.msb then -x else x
/-- Counting and reversing bits (R178). -/
def popcW (x : Word) : Word := BitVec.ofNat 32 ((List.range 32).filter fun i => x.getLsbD i).length
def clzW (x : Word) : Word := if x = 0 then 32 else BitVec.ofNat 32 (31 - Nat.log2 x.toNat)
def brevW (x : Word) : Word :=
  BitVec.ofNat 32 ((List.range 32).foldl (fun a i => 2 * a + (if x.getLsbD i then 1 else 0)) 0)
/-- LIMMH: imm15 above the low 17 bits of the destination (R36, R170). -/
def limmhW (i : BitVec 15) (d : Word) : Word := i ++ d.extractLsb' 0 17
/-- BFE of R179 on a field descriptor. -/
def bfeW (a b : Word) : Word :=
  let pos := b.toNat % 256
  let len := min (b.toNat / 256 % 256) 32
  if len = 0 then 0
  else if b.getLsbD 16 then wordOfInt (sextNat len (wrapNat 32 (a.toInt / (2 ^ min pos 31 : Nat))))
  else BitVec.ofNat 32 ((if 32 ≤ pos then 0 else a.toNat / 2 ^ pos) % 2 ^ len)
/-- BFI of R180. -/
def bfiW (d a b : Word) : Word :=
  let pos := b.toNat % 256
  let len := min (b.toNat / 256 % 256) 32
  BitVec.ofNat 32 ((List.range 32).foldl (fun n i =>
    n + (if (if pos ≤ i ∧ i < pos + len then a.getLsbD (i - pos) else d.getLsbD i) then 2 ^ i else 0)) 0)

/-! ### Lane set -/

/-- MOV (R170). -/
def execMov (st : BitVec 2) (d : BitVec 7) (b : BitVec 7) (c : BitVec 1) (s : State) : Host.Outcome State Fault Refusal :=
  issue (info (.mov st d b c)) s fun s =>
    laneOut s d fun t => rb s b c t

/-- LIMM (R36, R170). -/
def execLimm (st : BitVec 2) (d : BitVec 7) (i : BitVec 15) (s : State) : Host.Outcome State Fault Refusal :=
  issue (info (.limm st d i)) s fun s =>
    laneOut s d fun _ => i.signExtend 32

/-- LIMMH (R36, R170). -/
def execLimmh (st : BitVec 2) (d : BitVec 7) (i : BitVec 15) (s : State) : Host.Outcome State Fault Refusal :=
  issue (info (.limmh st d i)) s fun s =>
    laneOut s d fun t => limmhW i (rv s d.toNat t)

/-- IADD (R171). -/
def execIadd (st : BitVec 2) (d : BitVec 7) (a : BitVec 7) (b : BitVec 7) (c : BitVec 1) (s : State) : Host.Outcome State Fault Refusal :=
  issue (info (.iadd st d a b c)) s fun s =>
    laneOut s d fun t => rv s a.toNat t + rb s b c t

/-- ISUB (R171). -/
def execIsub (st : BitVec 2) (d : BitVec 7) (a : BitVec 7) (b : BitVec 7) (c : BitVec 1) (s : State) : Host.Outcome State Fault Refusal :=
  issue (info (.isub st d a b c)) s fun s =>
    laneOut s d fun t => rv s a.toNat t - rb s b c t

/-- IADDI (R171). -/
def execIaddi (st : BitVec 2) (d : BitVec 7) (a : BitVec 7) (i : BitVec 8) (s : State) : Host.Outcome State Fault Refusal :=
  issue (info (.iaddi st d a i)) s fun s =>
    laneOut s d fun t => rv s a.toNat t + i.signExtend 32

/-- IADD64: the sum of two pairs, both halves written at once (R172). -/
def execIadd64 (st : BitVec 2) (d : BitVec 7) (a : BitVec 7) (b : BitVec 7) (c : BitVec 1) (s : State) : Host.Outcome State Fault Refusal :=
  issue (info (.iadd64 st d a b c)) s fun s =>
    let y (t : Nat) : BitVec 64 := if c == 1 then rs64 s b.toNat else cat64 (rv s (b.toNat + 1) t) (rv s b.toNat t)
    let z (t : Nat) : BitVec 64 := cat64 (rv s (a.toNat + 1) t) (rv s a.toNat t) + y t
    .done (wv (wv s d.toNat (emask s) fun t => lowWord (z t)) (d.toNat + 1) (emask s) fun t => highWord (z t))

/-- IMUL (R173). -/
def execImul (st : BitVec 2) (d : BitVec 7) (a : BitVec 7) (b : BitVec 7) (c : BitVec 1) (s : State) : Host.Outcome State Fault Refusal :=
  issue (info (.imul st d a b c)) s fun s =>
    laneOut s d fun t => rv s a.toNat t * rb s b c t

/-- IMULHI (R173). -/
def execImulhi (st : BitVec 2) (d : BitVec 7) (a : BitVec 7) (b : BitVec 7) (c : BitVec 1) (s : State) : Host.Outcome State Fault Refusal :=
  issue (info (.imulhi st d a b c)) s fun s =>
    laneOut s d fun t => mulHi (rv s a.toNat t) (rb s b c t)

/-- IMULHU (R173). -/
def execImulhu (st : BitVec 2) (d : BitVec 7) (a : BitVec 7) (b : BitVec 7) (c : BitVec 1) (s : State) : Host.Outcome State Fault Refusal :=
  issue (info (.imulhu st d a b c)) s fun s =>
    laneOut s d fun t => mulHu (rv s a.toNat t) (rb s b c t)

/-- IMAD (R173). -/
def execImad (st : BitVec 2) (d : BitVec 7) (a : BitVec 7) (b : BitVec 7) (c : BitVec 1) (s : State) : Host.Outcome State Fault Refusal :=
  issue (info (.imad st d a b c)) s fun s =>
    laneOut s d fun t => rv s a.toNat t * rb s b c t + rv s d.toNat t

/-- IMIN (R174). -/
def execImin (st : BitVec 2) (d : BitVec 7) (a : BitVec 7) (b : BitVec 7) (c : BitVec 1) (s : State) : Host.Outcome State Fault Refusal :=
  issue (info (.imin st d a b c)) s fun s =>
    laneOut s d fun t => minS (rv s a.toNat t) (rb s b c t)

/-- IMAX (R174). -/
def execImax (st : BitVec 2) (d : BitVec 7) (a : BitVec 7) (b : BitVec 7) (c : BitVec 1) (s : State) : Host.Outcome State Fault Refusal :=
  issue (info (.imax st d a b c)) s fun s =>
    laneOut s d fun t => maxS (rv s a.toNat t) (rb s b c t)

/-- IMINU (R174). -/
def execIminu (st : BitVec 2) (d : BitVec 7) (a : BitVec 7) (b : BitVec 7) (c : BitVec 1) (s : State) : Host.Outcome State Fault Refusal :=
  issue (info (.iminu st d a b c)) s fun s =>
    laneOut s d fun t => minU (rv s a.toNat t) (rb s b c t)

/-- IMAXU (R174). -/
def execImaxu (st : BitVec 2) (d : BitVec 7) (a : BitVec 7) (b : BitVec 7) (c : BitVec 1) (s : State) : Host.Outcome State Fault Refusal :=
  issue (info (.imaxu st d a b c)) s fun s =>
    laneOut s d fun t => maxU (rv s a.toNat t) (rb s b c t)

/-- IABS (R175). -/
def execIabs (st : BitVec 2) (d : BitVec 7) (a : BitVec 7) (s : State) : Host.Outcome State Fault Refusal :=
  issue (info (.iabs st d a)) s fun s =>
    laneOut s d fun t => absW (rv s a.toNat t)

/-- INEG (R175). -/
def execIneg (st : BitVec 2) (d : BitVec 7) (a : BitVec 7) (s : State) : Host.Outcome State Fault Refusal :=
  issue (info (.ineg st d a)) s fun s =>
    laneOut s d fun t => -(rv s a.toNat t)

/-- AND (R176). -/
def execAnd (st : BitVec 2) (d : BitVec 7) (a : BitVec 7) (b : BitVec 7) (c : BitVec 1) (s : State) : Host.Outcome State Fault Refusal :=
  issue (info (.and st d a b c)) s fun s =>
    laneOut s d fun t => rv s a.toNat t &&& rb s b c t

/-- OR (R176). -/
def execOr (st : BitVec 2) (d : BitVec 7) (a : BitVec 7) (b : BitVec 7) (c : BitVec 1) (s : State) : Host.Outcome State Fault Refusal :=
  issue (info (.or st d a b c)) s fun s =>
    laneOut s d fun t => rv s a.toNat t ||| rb s b c t

/-- XOR (R176). -/
def execXor (st : BitVec 2) (d : BitVec 7) (a : BitVec 7) (b : BitVec 7) (c : BitVec 1) (s : State) : Host.Outcome State Fault Refusal :=
  issue (info (.xor st d a b c)) s fun s =>
    laneOut s d fun t => rv s a.toNat t ^^^ rb s b c t

/-- ANDN (R176). -/
def execAndn (st : BitVec 2) (d : BitVec 7) (a : BitVec 7) (b : BitVec 7) (c : BitVec 1) (s : State) : Host.Outcome State Fault Refusal :=
  issue (info (.andn st d a b c)) s fun s =>
    laneOut s d fun t => rv s a.toNat t &&& ~~~(rb s b c t)

/-- NOT (R176). -/
def execNot (st : BitVec 2) (d : BitVec 7) (a : BitVec 7) (s : State) : Host.Outcome State Fault Refusal :=
  issue (info (.not st d a)) s fun s =>
    laneOut s d fun t => ~~~(rv s a.toNat t)

/-- SHL (R177). -/
def execShl (st : BitVec 2) (d : BitVec 7) (a : BitVec 7) (b : BitVec 7) (c : BitVec 1) (s : State) : Host.Outcome State Fault Refusal :=
  issue (info (.shl st d a b c)) s fun s =>
    laneOut s d fun t => shlW (rv s a.toNat t) (rb s b c t).toNat

/-- SHR (R177). -/
def execShr (st : BitVec 2) (d : BitVec 7) (a : BitVec 7) (b : BitVec 7) (c : BitVec 1) (s : State) : Host.Outcome State Fault Refusal :=
  issue (info (.shr st d a b c)) s fun s =>
    laneOut s d fun t => shrW (rv s a.toNat t) (rb s b c t).toNat

/-- SAR (R177). -/
def execSar (st : BitVec 2) (d : BitVec 7) (a : BitVec 7) (b : BitVec 7) (c : BitVec 1) (s : State) : Host.Outcome State Fault Refusal :=
  issue (info (.sar st d a b c)) s fun s =>
    laneOut s d fun t => sarW (rv s a.toNat t) (rb s b c t).toNat

/-- SHLI (R177). -/
def execShli (st : BitVec 2) (d : BitVec 7) (a : BitVec 7) (i : BitVec 8) (s : State) : Host.Outcome State Fault Refusal :=
  issue (info (.shli st d a i)) s fun s =>
    laneOut s d fun t => shlW (rv s a.toNat t) i.toNat

/-- SHRI (R177). -/
def execShri (st : BitVec 2) (d : BitVec 7) (a : BitVec 7) (i : BitVec 8) (s : State) : Host.Outcome State Fault Refusal :=
  issue (info (.shri st d a i)) s fun s =>
    laneOut s d fun t => shrW (rv s a.toNat t) i.toNat

/-- SARI (R177). -/
def execSari (st : BitVec 2) (d : BitVec 7) (a : BitVec 7) (i : BitVec 8) (s : State) : Host.Outcome State Fault Refusal :=
  issue (info (.sari st d a i)) s fun s =>
    laneOut s d fun t => sarW (rv s a.toNat t) i.toNat

/-- POPC (R178). -/
def execPopc (st : BitVec 2) (d : BitVec 7) (a : BitVec 7) (s : State) : Host.Outcome State Fault Refusal :=
  issue (info (.popc st d a)) s fun s =>
    laneOut s d fun t => popcW (rv s a.toNat t)

/-- CLZ (R178). -/
def execClz (st : BitVec 2) (d : BitVec 7) (a : BitVec 7) (s : State) : Host.Outcome State Fault Refusal :=
  issue (info (.clz st d a)) s fun s =>
    laneOut s d fun t => clzW (rv s a.toNat t)

/-- BREV (R178). -/
def execBrev (st : BitVec 2) (d : BitVec 7) (a : BitVec 7) (s : State) : Host.Outcome State Fault Refusal :=
  issue (info (.brev st d a)) s fun s =>
    laneOut s d fun t => brevW (rv s a.toNat t)

/-- BFE (R179). -/
def execBfe (st : BitVec 2) (d : BitVec 7) (a : BitVec 7) (b : BitVec 7) (c : BitVec 1) (s : State) : Host.Outcome State Fault Refusal :=
  issue (info (.bfe st d a b c)) s fun s =>
    laneOut s d fun t => bfeW (rv s a.toNat t) (rb s b c t)

/-- BFI (R180). -/
def execBfi (st : BitVec 2) (d : BitVec 7) (a : BitVec 7) (b : BitVec 7) (c : BitVec 1) (s : State) : Host.Outcome State Fault Refusal :=
  issue (info (.bfi st d a b c)) s fun s =>
    laneOut s d fun t => bfiW (rv s d.toNat t) (rv s a.toNat t) (rb s b c t)

/-- ICMP: the condition in each active thread; a write to p0 is discarded (R181, R182). -/
def execIcmp (st : BitVec 2) (p : BitVec 3) (c : BitVec 4) (a : BitVec 7) (b : BitVec 7) (u : BitVec 1) (s : State) : Host.Outcome State Fault Refusal :=
  issue (info (.icmp st p c a b u)) s fun s =>
    predOut s p (threadMask s fun t => intCond c.toNat (rv s a.toNat t) (rb s b u t))

/-- SEL: a conditional move in each active thread (R184). -/
def execSel (st : BitVec 2) (d : BitVec 7) (a : BitVec 7) (n : BitVec 1) (p : BitVec 3) (s : State) : Host.Outcome State Fault Refusal :=
  issue (info (.sel st d a n p)) s fun s =>
    let q := predNeg s p.toNat n
    .done (wv s d.toNat (emask s &&& q) fun t => rv s a.toNat t)

/-- PLUT: a truth table of two predicates (R185). -/
def execPlut (st : BitVec 2) (d : BitVec 3) (t : BitVec 4) (a : BitVec 3) (b : BitVec 3) (s : State) : Host.Outcome State Fault Refusal :=
  issue (info (.plut st d t a b)) s fun s =>
    let pa := rp s a.toNat
    let pb := rp s b.toNat
    predOut s d (threadMask s fun i =>
      t.getLsbD (2 * (if bitOf pa i then 1 else 0) + (if bitOf pb i then 1 else 0)))

/-! ### Uniform set -/

/-- SMOV (R170). -/
def execSmov (st : BitVec 2) (d : BitVec 7) (b : BitVec 7) (s : State) : Host.Outcome State Fault Refusal :=
  issue (info (.smov st d b)) s fun s =>
    uniOut s d (rs s b.toNat)

/-- SLIMM (R170). -/
def execSlimm (st : BitVec 2) (d : BitVec 7) (i : BitVec 15) (s : State) : Host.Outcome State Fault Refusal :=
  issue (info (.slimm st d i)) s fun s =>
    uniOut s d (i.signExtend 32)

/-- SLIMMH (R170). -/
def execSlimmh (st : BitVec 2) (d : BitVec 7) (i : BitVec 15) (s : State) : Host.Outcome State Fault Refusal :=
  issue (info (.slimmh st d i)) s fun s =>
    uniOut s d (limmhW i (rs s d.toNat))

/-- SADD (R171). -/
def execSadd (st : BitVec 2) (d : BitVec 7) (a : BitVec 7) (b : BitVec 7) (s : State) : Host.Outcome State Fault Refusal :=
  issue (info (.sadd st d a b)) s fun s =>
    uniOut s d (rs s a.toNat + rs s b.toNat)

/-- SSUB (R171). -/
def execSsub (st : BitVec 2) (d : BitVec 7) (a : BitVec 7) (b : BitVec 7) (s : State) : Host.Outcome State Fault Refusal :=
  issue (info (.ssub st d a b)) s fun s =>
    uniOut s d (rs s a.toNat - rs s b.toNat)

/-- SADDI (R171). -/
def execSaddi (st : BitVec 2) (d : BitVec 7) (a : BitVec 7) (i : BitVec 8) (s : State) : Host.Outcome State Fault Refusal :=
  issue (info (.saddi st d a i)) s fun s =>
    uniOut s d (rs s a.toNat + i.signExtend 32)

/-- SMUL (R173). -/
def execSmul (st : BitVec 2) (d : BitVec 7) (a : BitVec 7) (b : BitVec 7) (s : State) : Host.Outcome State Fault Refusal :=
  issue (info (.smul st d a b)) s fun s =>
    uniOut s d (rs s a.toNat * rs s b.toNat)

/-- SMULHI (R173). -/
def execSmulhi (st : BitVec 2) (d : BitVec 7) (a : BitVec 7) (b : BitVec 7) (u : BitVec 1) (s : State) : Host.Outcome State Fault Refusal :=
  issue (info (.smulhi st d a b u)) s fun s =>
    uniOut s d (if u == 1 then mulHu (rs s a.toNat) (rs s b.toNat) else mulHi (rs s a.toNat) (rs s b.toNat))

/-- SAND (R176). -/
def execSand (st : BitVec 2) (d : BitVec 7) (a : BitVec 7) (b : BitVec 7) (s : State) : Host.Outcome State Fault Refusal :=
  issue (info (.sand st d a b)) s fun s =>
    uniOut s d (rs s a.toNat &&& rs s b.toNat)

/-- SOR (R176). -/
def execSor (st : BitVec 2) (d : BitVec 7) (a : BitVec 7) (b : BitVec 7) (s : State) : Host.Outcome State Fault Refusal :=
  issue (info (.sor st d a b)) s fun s =>
    uniOut s d (rs s a.toNat ||| rs s b.toNat)

/-- SXOR (R176). -/
def execSxor (st : BitVec 2) (d : BitVec 7) (a : BitVec 7) (b : BitVec 7) (s : State) : Host.Outcome State Fault Refusal :=
  issue (info (.sxor st d a b)) s fun s =>
    uniOut s d (rs s a.toNat ^^^ rs s b.toNat)

/-- SSHL (R177). -/
def execSshl (st : BitVec 2) (d : BitVec 7) (a : BitVec 7) (b : BitVec 7) (s : State) : Host.Outcome State Fault Refusal :=
  issue (info (.sshl st d a b)) s fun s =>
    uniOut s d (shlW (rs s a.toNat) (rs s b.toNat).toNat)

/-- SSHR (R177). -/
def execSshr (st : BitVec 2) (d : BitVec 7) (a : BitVec 7) (b : BitVec 7) (s : State) : Host.Outcome State Fault Refusal :=
  issue (info (.sshr st d a b)) s fun s =>
    uniOut s d (shrW (rs s a.toNat) (rs s b.toNat).toNat)

/-- SSAR (R177). -/
def execSsar (st : BitVec 2) (d : BitVec 7) (a : BitVec 7) (b : BitVec 7) (s : State) : Host.Outcome State Fault Refusal :=
  issue (info (.ssar st d a b)) s fun s =>
    uniOut s d (sarW (rs s a.toNat) (rs s b.toNat).toNat)

/-- SSHLI (R177). -/
def execSshli (st : BitVec 2) (d : BitVec 7) (a : BitVec 7) (i : BitVec 8) (s : State) : Host.Outcome State Fault Refusal :=
  issue (info (.sshli st d a i)) s fun s =>
    uniOut s d (shlW (rs s a.toNat) i.toNat)

/-- SSHRI (R177). -/
def execSshri (st : BitVec 2) (d : BitVec 7) (a : BitVec 7) (i : BitVec 8) (s : State) : Host.Outcome State Fault Refusal :=
  issue (info (.sshri st d a i)) s fun s =>
    uniOut s d (shrW (rs s a.toNat) i.toNat)

/-- SMIN (R174). -/
def execSmin (st : BitVec 2) (d : BitVec 7) (a : BitVec 7) (b : BitVec 7) (u : BitVec 1) (s : State) : Host.Outcome State Fault Refusal :=
  issue (info (.smin st d a b u)) s fun s =>
    uniOut s d (if u == 1 then minU (rs s a.toNat) (rs s b.toNat) else minS (rs s a.toNat) (rs s b.toNat))

/-- SMAX (R174). -/
def execSmax (st : BitVec 2) (d : BitVec 7) (a : BitVec 7) (b : BitVec 7) (u : BitVec 1) (s : State) : Host.Outcome State Fault Refusal :=
  issue (info (.smax st d a b u)) s fun s =>
    uniOut s d (if u == 1 then maxU (rs s a.toNat) (rs s b.toNat) else maxS (rs s a.toNat) (rs s b.toNat))

/-- SPOPC (R178). -/
def execSpopc (st : BitVec 2) (d : BitVec 7) (a : BitVec 7) (s : State) : Host.Outcome State Fault Refusal :=
  issue (info (.spopc st d a)) s fun s =>
    uniOut s d (popcW (rs s a.toNat))

/-- SCLZ (R178). -/
def execSclz (st : BitVec 2) (d : BitVec 7) (a : BitVec 7) (s : State) : Host.Outcome State Fault Refusal :=
  issue (info (.sclz st d a)) s fun s =>
    uniOut s d (clzW (rs s a.toNat))

/-- SADD64 (R172). -/
def execSadd64 (st : BitVec 2) (d : BitVec 7) (a : BitVec 7) (b : BitVec 7) (s : State) : Host.Outcome State Fault Refusal :=
  issue (info (.sadd64 st d a b)) s fun s =>
    let z : BitVec 64 := rs64 s a.toNat + rs64 s b.toNat
    .done (ws (ws s d.toNat (lowWord z)) (d.toNat + 1) (highWord z))

/-- SCMP: one comparison, written to the predicate of every active thread (R183). -/
def execScmp (st : BitVec 2) (p : BitVec 3) (c : BitVec 4) (a : BitVec 7) (b : BitVec 7) (s : State) : Host.Outcome State Fault Refusal :=
  issue (info (.scmp st p c a b)) s fun s =>
    predOut s p (if intCond c.toNat (rs s a.toNat) (rs s b.toNat) then fullMask 128 else 0)

/-- SSEL: a conditional move on the test of BRA (R184). -/
def execSsel (st : BitVec 2) (d : BitVec 7) (a : BitVec 7) (p : BitVec 3) (n : BitVec 1) (s : State) : Host.Outcome State Fault Refusal :=
  issue (info (.ssel st d a p n)) s fun s =>
    .done (if predAny s p.toNat n then ws s d.toNat (rs s a.toNat) else s)

end Sys2Proof.Machine
end

