-- ==== Sys2Proof/Machine/Ordering.lean ====
section
/-!
DEFINITION. Machine/Ordering.lean: FENCE (R238), ACKRD (R246) and ICINV (R249), and the implicit releases of R242.
-/
namespace Sys2Proof.Machine

/-- A release (R238): what a speculative block stages next comes after it (R128). -/
def releaseFence (s : State) (scope : Nat) : State :=
  let s := release s scope
  setCb s { cb s with relNext := true }
/-- A release that waits for nothing more, made once: not again where the word issues again at the end of a wait. -/
def releaseOnce (s : State) (scope : Nat) : State := if (cp s).wait.isSome then s else releaseFence s scope
/-- The copies of the current group among its first commands, by number. -/
def ownCopies (s : State) (upto q : Nat) : Bool := (cb s).copy.cmds.any fun c => c.seq == q && c.grp == s.cur && decide (q ≤ upto)
/-- The release of a FENCE, once its copies have completed: it covers what they wrote to scratch (R238). -/
def fenceRelease (s : State) (scope upto : Nat) (full : Bool) : State :=
  let w : View := { saw := copyWrites (cg s).blk (ownCopies s upto) s.log }
  let s := addRelease (performStores s s.cur) s.cur w { scope := scope, full := full }
  setCb s { cb s with relNext := true }
/-- A release in full, before what follows it: the stores are performed, the group's copies into scratch waited for, and at pod
scope its acknowledgements; a speculative block waits for neither (R126, R238). One of group scope orders only what the block
stages next (R128). -/
def fenceThen (s : State) (scope : Nat) (full : Bool) (k : State → Act) : Act :=
  let n := if (cb s).spec && scope == 5 then 0 else (cb s).copy.tail
  let start : Act := waitFor (performStores s s.cur) (.fenced (scope == 5) n) fun s => k (fenceRelease s scope n full)
  if scope = 0 then k (setCb s { cb s with relNext := true })
  else match (cp s).wait with
    | some (.fenced pod n) => waitFor s (.fenced pod n) fun s => k (fenceRelease s scope n full)
    | some .drained => start
    | some _ => k s
    | none => start

/-- FENCE (R238): kinds 1 and 2 release, 0 and 2 acquire. A full one reads nothing older, after it, than what any release before
it covers for this group. -/
def execFence (st : BitVec 2) (c : BitVec 3) (k : BitVec 2) (s : State) : Host.Outcome State Fault Refusal :=
  issue (info (.fence st c k)) s fun s =>
    if k == 0 then .done (acquire s c.toNat)
    else fenceThen s c.toNat (k == 2) fun s => .done (if k == 2 then acquireGrp s s.cur c.toNat true else s)

/-- ACKRD (R246). -/
def execAckrd (st : BitVec 2) (d : BitVec 7) (s : State) : Host.Outcome State Fault Refusal :=
  issue (info (.ackrd st d)) s fun s => uniOut s d (BitVec.ofNat 32 (cg s).ack)

/-- Whether a core lies in the issuing group's instance of a scope (R233, R249): a block's cores are those it holds. -/
def coreInScope (s : State) (scope c : Nat) : Bool :=
  let g := cg s
  let b := cb s
  match scope with
  | 0 => c == g.core
  | 1 => c == g.core || (!b.kmode && decide (8 * b.cluster + b.base ≤ c) && decide (c < 8 * b.cluster + b.base + 2 ^ (ck s).hdr.cores))
  | _ => withinScope scope 0 c 1 g.core
/-- Drops the cached code of every core within scope, and with `lb` every loop buffer of the context (R249). -/
def dropLoops (ctx : Nat) (c : Core) : Core :=
  let keep (l : Option LoopBuf) : Option LoopBuf := l.bind fun b => if b.ctx = ctx then none else some b
  { c with loop0 := keep c.loop0, loop1 := keep c.loop1 }
def icinvCores (s : State) (scope : Nat) (lb : Bool) : State :=
  { s with cores := s.cores.map fun e =>
      let c := if coreInScope s scope e.1 then { e.2 with icache := [] } else e.2
      (e.1, if lb then dropLoops (cb s).ctx c else c) }
/-- ICINV (R249). -/
def execIcinv (st : BitVec 2) (c : BitVec 3) (l : BitVec 1) (s : State) : Host.Outcome State Fault Refusal :=
  issue (info (.icinv st c l)) s fun s =>
    fenceThen s c.toNat false fun s => .done (icinvCores s c.toNat (l == 1))

end Sys2Proof.Machine
end

