-- ==== Sys2Proof/Machine/Blocks.lean ====
section
/-!
DEFINITION. Machine/Blocks.lean: what happens to blocks and contexts as a whole: frames and the larder (R333, R335), pages
in use (R325), removal, commit and squash of a block (R78, R112, R129, R131), and the teardown of a context (R82).
-/
namespace Sys2Proof.Machine

/-! ### Frames -/

/-- The partition whose channel group holds a device address (R76); 24 where none does. -/
def framePart (s : State) (pa : Nat) : Nat := ((s.pkg.pmap.find? fun e => e.2 == pa / 2 ^ 35).map Prod.fst).getD 24
/-- What the log keeps of a range goes too: no later read returns it (R22). -/
def blankLog (s : State) (m : MemName) (a n : Nat) : State :=
  if sharedMem m then
    { s with log := s.log.map fun e => if writeMeets m a n e then { e with old := List.replicate e.old.length 0 } else e }
  else s
/-- Zeroes a range of a memory, errors included (R78). -/
def wipeRange (s : State) (m : MemName) (a n : Nat) : State :=
  cleanPoison (blankLog (setMem s m (zeroRange (memOf s m) a n)) m a n) m a n
/-- A frame by its number PA / 2^16. -/
def wipeFrame (s : State) (f : Nat) : State := wipeRange s .dev (f * 65536) 65536
def larderOf (s : State) (p : Nat) : List Nat := Map.look s.pkg.larders p []
def setLarder (s : State) (p : Nat) (l : List Nat) : State :=
  setPkg s { s.pkg with larders := Map.put s.pkg.larders p l }
/-- Whether a MAPFT finds a frame (R335). -/
def frameThere (s : State) (ctx p : Nat) : Bool :=
  decide ((ctxOf s ctx).taken.length < (ctxOf s ctx).larder) && !(larderOf s p).isEmpty
/-- A frame leaves the larder: zeroed, then owned (R333 steps 1 and 2). Which one is a choice of the device (log entry 4). -/
def takeFrame (s : State) (ctx p key use : Nat) : Nat × State :=
  let l := larderOf s p
  let f := l.getD (Config.larderChoice s.fresh % l.length) 0
  let c := ctxOf s ctx
  let s := setLarder (wipeFrame (setFresh s (s.fresh + 1)) f) p (l.erase f)
  (f, setCtx (setOwn s f { key := key, world := c.world, use := use }) ctx { c with taken := c.taken ++ [f] })
/-- A frame returns to its larder, zeroed first (R333). -/
def returnFrame (s : State) (ctx f : Nat) : State :=
  let p := framePart s (f * 65536)
  let c := ctxOf s ctx
  let s := setOwn (wipeFrame s f) f { use := 1 }
  setCtx (setLarder s p (larderOf s p ++ [f])) ctx { c with taken := c.taken.erase f }
/-- An access by a committed block makes a RETRACT page PRESENT (R325). -/
def usePage (s : State) (ctx : Nat) (l : Leaf) : State :=
  if l.st = 3 then
    let f := l.frame / 65536
    dropTlb (setOwn (putLeaf s ctx { l with st := 0, owner := (0, 0) }) f { ownOf s f with use := 2 }) ctx (l.va / 65536) 1
  else s

/-! ### Invalidation (R340) -/

/-- A translation register whose range meets [lo, hi) loses its limit. -/
def demoteX (lo hi : Nat) (x : XReg) : XReg :=
  if x.valid && !x.remote && decide (x.base.toNat < hi) && decide (lo < x.base.toNat + x.limit) then { x with limit := 0 } else x
def demoteMap (lo hi : Nat) (m : Map XReg) : Map XReg := m.map fun e => (e.1, demoteX lo hi e.2)
/-- Demotes the registers of a context's groups (R340). -/
def demoteRegs (s : State) (ctx page n : Nat) : State :=
  let lo := page * 65536
  let hi := (page + n) * 65536
  { s with groups := s.groups.map fun e =>
      if (blkOf s e.2.blk).ctx = ctx then (e.1, { e.2 with x := demoteMap lo hi e.2.x }) else e }
/-- From now on the commands of a context that `sel` names translate anew what lies in the pages, whatever they captured (R329). -/
def staleCopies (s : State) (ctx page n : Nat) (sel : Cmd → Bool) : State :=
  let mark (c : Cmd) : Cmd := if sel c then { c with stale := (page, n) :: c.stale } else c
  { s with blocks := s.blocks.map fun e =>
      if e.2.ctx = ctx then (e.1, { e.2 with copy := { e.2.copy with cmds := e.2.copy.cmds.map mark } }) else e }
/-- The first step of TLBINV (R340): cached results go, registers lose their ranges, and commands that have not started translate
anew. -/
def invalidate (s : State) (ctx page n : Nat) : State :=
  staleCopies (demoteRegs (dropTlb s ctx page n) ctx page n) ctx page n fun c => c.phase == .queued
/-- The whole of it, for started commands also (R329). -/
def invalidateAll (s : State) (ctx page n : Nat) : State := staleCopies (invalidate s ctx page n) ctx page n fun c => c.phase != .queued

/-! ### Removing a block (R78, R112) -/

/-- A memory of a block or of one of its groups. -/
def memOfBlock (b : Nat) (gs : List Nat) : MemName → Bool
  | .win x | .ring x | .slot x => x == b
  | .spill g => gs.contains g
  | _ => false
/-- A block whose started commands and issued instructions have completed and whose remote writes are acknowledged (R165). -/
def blockQuiet (s : State) (b : Nat) : Bool :=
  let k := blkOf s b
  k.copy.cmds.all (fun c => c.phase != .started) && k.matrix.cmds.all (fun c => c.phase != .started)
    && (k.held.all fun e => !e.sent) && k.groups.all fun g => (grpOf s g).ack == 0 && !midway (grpOf s g)
/-- Whether a block still holds its cores: a saved gang gives them up once every block of it is quiet (R165). -/
def blockHere (s : State) (b : Nat) : Bool :=
  let q := gangOf s (blkOf s b).gang
  !(q.saved && q.blocks.all (blockQuiet s))
/-- The constant bank of a kernel leaves a core that holds no further block of it, one saved by then included (R218). -/
def dropBanks (s : State) : State :=
  let stays (core k : Nat) : Bool := s.blocks.any fun e => e.2.kern == k && !e.2.kmode && blockHere s e.1
    && decide (8 * e.2.cluster + e.2.base ≤ core) && decide (core < 8 * e.2.cluster + e.2.base + 2 ^ (kernFor s e.2).hdr.cores)
  { s with cores := s.cores.map fun e => (e.1, { e.2 with banks := e.2.banks.filter fun b => stays e.1 b.1 }) }
/-- A block goes, zeroed: its groups, window, rings, tiles, slots and spill stacks, what it had under way, its place in
its gang. Whatever waited for it is settled (R254). -/
def removeBlock (s : State) (b : Nat) : State :=
  let k := blkOf s b
  let x := kernOf s k.kern
  let q := gangOf s k.gang
  let c := ctxOf s k.ctx
  let s := if c.calls.isEmpty then s else setCtx s k.ctx { c with calls := c.calls.map fun e =>
    (e.1, e.2.filter fun y => !k.groups.contains y.grp) }
  let s := { s with
    groups := s.groups.filter fun e => !k.groups.contains e.1
    blocks := Map.del s.blocks b
    poison := s.poison.filter fun e => !memOfBlock b k.groups e.1 }
  let rest := q.blocks.filter (· ≠ b)
  let s := if rest.isEmpty then { s with gangs := Map.del s.gangs k.gang }
    else setGang s k.gang { q with blocks := rest, arrived := q.arrived.filter fun g => !k.groups.contains g }
  let s := setLinks s { s.links with src := s.links.src.filter fun o => o.blk != b
                                     contribs := s.links.contribs.filter fun c => c.blk != b || c.remote.isSome }
  let s := setKern s k.kern { x with openBlocks := Map.put x.openBlocks k.rank (Map.look x.openBlocks k.rank 1 - 1) }
  let s := dropBanks s
  settleGrid (if rest.isEmpty then s else settleGang s k.gang) k.kern
def removeAll : State → List Nat → State
  | s, [] => s
  | s, b :: bs => removeAll (removeBlock s b) bs
/-- The blocks of a kernel, and of a context, on this chip. -/
def blocksOf (s : State) (k : Nat) : List Nat := (s.blocks.filter fun e => e.2.kern == k).map Prod.fst
def blocksOfCtx (s : State) (c : Nat) : List Nat := (s.blocks.filter fun e => e.2.ctx == c).map Prod.fst

/-! ### Commit and squash (R129, R131) -/

/-- The retractable leaves a block has mapped. -/
def retractLeaves (s : State) (b : Block) : List Leaf :=
  (ctxOf s b.ctx).leaves.filter fun l => l.st == 3 && l.owner == (b.kern, b.logical)
/-- A retracted page: back to TOUCH, its frame to the larder (R325). -/
def retractPage (ctx : Nat) (s : State) (l : Leaf) : State :=
  let s := putLeaf s ctx { l with st := 1, frame := 0, owner := (0, 0) }
  invalidateAll (returnFrame s ctx (l.frame / 65536)) ctx (l.va / 65536) 1
/-- A block is squashed (R129): its held entries and effects go with it. -/
def squashBlock (s : State) (b : Nat) : State :=
  let k := blkOf s b
  if k.spec then removeBlock ((retractLeaves s k).foldl (retractPage k.ctx) s) b else s
/-- A block commits (R131): its flag is cleared, its retractable pages stay, a held report takes effect. -/
def commitBlock (s : State) (b : Nat) : State :=
  let k := blkOf s b
  if k.spec then
    let s := (retractLeaves s k).foldl (fun s l => usePage s k.ctx l) s
    let s := setBlk s b { blkOf s b with spec := false, report := none }
    match k.report with
    | some r => fatalBlock s b r
    | none => s
  else s

/-! ### Context-management commands and teardown (R75, R82) -/

/-- A command of the context-management page completes (R75). -/
def completeCmd (s : State) (f status : Nat) : State := setFn s f { fnOf s f with status := status, busy := false }
/-- A context enters TEARDOWN (R82 steps 1 to 3). Its killed blocks count as arrived at their barriers (R254), gangs that were not
yet placed do not (R263): its commands and queues are refused, its blocks killed without draining,
its copies aborted. A SUSPEND under way completes with STATE (R75). -/
def beginTeardown (s : State) (ctx : Nat) : State :=
  let c := ctxOf s ctx
  if c.st = .free ∨ c.st = .teardown then s
  else
    let s := setCtx s ctx { c with st := .teardown, suspendFn := none, queues := [], graphs := [], rings := [], records := [], oldWaits := []
                                   calls := [] }
    let s := match c.suspendFn with
      | some f => completeCmd s f 1
      | none => s
    let s := { s with
      kerns := s.kerns.map fun e => if e.2.ctx = ctx then
          (e.1, { e.2 with dead := true, killed := e.2.killed || e.2.todo.any (fun t => !t.2.isEmpty), todo := [] }) else e
      faults := s.faults.map fun e => (e.1, { e.2 with entries := e.2.entries.filter fun x => x.ctx != ctx }) }
    let s := removeAll s (blocksOfCtx s ctx)
    setLinks s { s.links with src := s.links.src.filter fun o => o.ctx != ctx }

end Sys2Proof.Machine
end

