-- ==== Sys2Proof/Machine/Page.lean ====
section
/-!
DEFINITION. Machine/Page.lean: translation registers (R328 to R332), MAPFT (R336), the fault queue (R337 to R339) and
TLBINV (R340).
-/
namespace Sys2Proof.Machine

/-- What a leaf gives a register at an address (R328). -/
def leafReg (l : Leaf) (p : Addr) : XReg :=
  { base := p, pa := leafPa l p.toNat, limit := l.va + pageSize l.level - p.toNat, r := l.r, w := l.w, x := l.x
    cls := l.cls, key := l.key, level := l.level, valid := true }
/-- XLATE (R330). -/
def execXlate (st : BitVec 2) (a : BitVec 6) (m w r : BitVec 1) (x : BitVec 3) (s : State) :
    Host.Outcome State Fault Refusal :=
  issue (info (.xlate st a m w r x)) s fun s =>
    let p := rs64 s (2 * a.toNat)
    if m == 1 then .done (wx s x.toNat { base := p, valid := true, remote := true })
    else if p.toNat / 2 ^ 56 ≠ 0 then .trap { code := .align, addr := p }
    else
      let (l, s) := tlbLook s (cb s).ctx p.toNat
      match checkLeaf s (cb s).world l p.toNat (r == 1) (w == 1) false with
      | some t => .trapIn s { code := t, addr := p, hasPage := true }
      | none =>
        let l := l.getD {}
        let s := wx s x.toNat (leafReg l p)
        .done (if (cb s).spec then s else usePage s (cb s).ctx l)

/-- The fourth word of XRD (R331). -/
def xrdFlags (x : XReg) : Word :=
  let b (v : Bool) (n : Nat) : Nat := if v then n else 0
  BitVec.ofNat 32 (b x.valid 1 + b x.remote 2 + b x.r 4 + b x.w 8 + b x.x 16 + x.cls % 4 * 32 + x.key % 256 * 256
    + x.level % 4 * 65536)
/-- XRD (R331). -/
def execXrd (st : BitVec 2) (d : BitVec 5) (n : BitVec 3) (s : State) : Host.Outcome State Fault Refusal :=
  issue (info (.xrd st d n)) s fun s =>
    let x := rx s n.toNat
    .done (wsList s (4 * d.toNat)
      (if x.valid then [lowWord x.base, highWord x.base, BitVec.ofNat 32 x.limit, xrdFlags x] else [0, 0, 0, 0]))
/-- XINV (R332). -/
def execXinv (st : BitVec 2) (m : BitVec 8) (s : State) : Host.Outcome State Fault Refusal :=
  issue (info (.xinv st m)) s fun s =>
    .done (((List.range 8).filter fun j => m.getLsbD j).foldl (fun s j => wx s j {}) s)

/-! ### MAPFT (R336) -/

/-- Whether host memory holds a range within a host window of a context's logical device (R76). -/
def hostRange (s : State) (ctx a n : Nat) : Bool :=
  (Map.look s.ldevs (ctxOf s ctx).ld {}).windows.any fun w => decide (w.1 ≤ a) && decide (a + n ≤ w.1 + w.2)
/-- The new leaf and the status of a mapping of a page: 0 MAPPED, 1 ALREADY, 2 EMPTY, 3 WRONG, 4 HOSTERR. -/
def mapPage (s : State) (touch : Bool) (ctx part va : Nat) (spec : Bool) (owner : Nat × Nat) : State × Nat :=
  match walk s ctx va with
  | none => (s, 3)
  | some l =>
    if leafPresent l then (s, 1)
    else if touch = true ∧ l.st ≠ 1 then (s, 3)
    else if frameThere s ctx part = false then (s, 2)
    else
      let (f, s) := takeFrame s ctx part l.key (if touch && spec then 3 else 2)
      if l.st = 2 ∧ hostRange s ctx l.frame 65536 = false then (returnFrame s ctx f, 4)
      else
        let s := if l.st = 2 then homeWrite s .dev (f * 65536) (homeBytes s .host l.frame 65536) else s
        let l' := { l with frame := f * 65536, st := if touch && spec then 3 else 0
                           owner := if touch && spec then owner else (0, 0) }
        (dropTlb (putLeaf s ctx l') ctx (va / 65536) 1, 0)
/-- The record and the teardown of MAPFT.fail (R336, R388): the page is the leaf's, 64 KiB where none maps the pointer. -/
def failContext (s : State) (ctx part va : Nat) : State :=
  let c := ctxOf s ctx
  let (lo, n) := match walk s ctx va with
    | some l => (l.va, pageSize l.level)
    | none => (va / 65536 * 65536, 65536)
  let e := (faultsOf s part).entries.find? fun e => e.ctx == ctx && decide (lo ≤ e.va) && decide (e.va < lo + n)
  if c.st = .free ∨ c.st = .teardown then s
  else
    let w (i : Nat) : Nat := (((e.map FaultEntry.words).getD []).getD i 0).toNat
    let s := routeRecord s 6
      { partition := part, unit := if e.isSome then w 6 / 256 % 256 else 6, severity := 4, kind := 3, ctx := ctx
        world := c.world, launch := w 4, trap := 6, group := w 6 % 256, page := some lo, word := (e.map FaultEntry.word).getD 0 }
    beginTeardown s ctx
/-- A kernel-mode block of world 0 on a service core (R32). -/
def inKernelMode (s : State) : Bool := (cb s).kmode && decide (384 ≤ (cg s).core)
/-- MAPFT (R336). -/
def execMapft (st o : BitVec 2) (a : BitVec 5) (s : State) : Host.Outcome State Fault Refusal :=
  issue (info (.mapft st o a)) s fun s =>
    let n := 4 * a.toNat
    let p := rs64 s n
    let wa := (rs s (n + 2)).toNat
    let x := (rs s (n + 3)).toNat
    let b := cb s
    let touch := o == 0
    if p.toNat / 2 ^ 56 ≠ 0 then .trap { code := .align, addr := p }
    else if wa % 4 ≠ 0 then .trap { code := .align, addr := BitVec.ofNat 64 wa }
    else if (ck s).hdr.winbytes < wa + 4 then .trap { code := .bound, addr := BitVec.ofNat 64 wa }
    else if (if touch then b.kmode else !inKernelMode s) then .trap { code := .prot }
    else if o == 2 then .done (failContext s (x % 1024) (x / 2 ^ 24 % 32) p.toNat)
    else
      let ctx := if touch then b.ctx else x % 1024
      let part := if touch then b.part else x / 2 ^ 24 % 32
      let (s, status) := mapPage s touch ctx part p.toNat b.spec (b.kern, b.logical)
      .done (storeBytes s (.win (cg s).blk) wa (wordBytes (BitVec.ofNat 32 status)))

/-! ### The fault queue -/

/-- The words of an entry but its retry count (R337). -/
def faultWords (s : State) (seq : Nat) (p : Addr) (access info : Word) : List Word :=
  let g := cg s
  let b := cb s
  let reason := match walk s b.ctx p.toNat with
    | none => 3
    | some l => if leafPresent l then 0 else l.st
  let unit := if g.sup then g.trap.unit else 0
  [ BitVec.ofNat 32 (2 ^ 31 + reason * 2 ^ 24 + access.toNat % 4 * 2 ^ 22 + seq % 65536), lowWord p,
    BitVec.ofNat 32 (p.toNat / 2 ^ 32 % 2 ^ 24), BitVec.ofNat 32 (b.part * 2 ^ 24 + b.world * 2 ^ 16 + b.ctx),
    BitVec.ofNat 32 (ck s).launch, BitVec.ofNat 32 b.logical, BitVec.ofNat 32 (unit * 256 + g.index), info ]
/-- The code word index of the word whose trap the issuing group serves, or else of the issuing word (R388). -/
def trapWord (s : State) : Nat := (if (cg s).sup then (cg s).trap.pc else codeOffset (ck s) (cp s).pc).toNat / 4
def postFault (s : State) (p : Addr) (access info : Word) : State × Nat :=
  let b := cb s
  let q := faultsOf s b.part
  let word := trapWord s
  let e : FaultEntry := { seq := q.seq, words := faultWords s q.seq p access info, va := p.toNat, ctx := b.ctx, word := word }
  (setFaults s b.part { q with seq := q.seq + 1, entries := q.entries ++ [e] }, q.seq)
/-- FQPOST (R338). -/
def execFqpost (st : BitVec 2) (a : BitVec 5) (s : State) : Host.Outcome State Fault Refusal :=
  issue (info (.fqpost st a)) s fun s =>
    let n := 4 * a.toNat
    let p := rs64 s n
    if p.toNat / 2 ^ 56 ≠ 0 then .trap { code := .align, addr := p }
    else if (cb s).kmode then .trap { code := .prot }
    else match (cp s).wait with
      | some (.faultAnswer f q) => waitFor s (.faultAnswer f q) .done
      | _ => waitFor s .commit fun s => waitFor s .faultRoom fun s =>
        let (s, q) := postFault s p (rs s (n + 2)) (rs s (n + 3))
        .wait s (.faultAnswer (cb s).part q)
/-- FQTAKE (R339). -/
def execFqtake (st : BitVec 2) (d : BitVec 4) (w : BitVec 1) (s : State) : Host.Outcome State Fault Refusal :=
  issue (info (.fqtake st d w)) s fun s =>
    if inKernelMode s = false then .trap { code := .prot }
    else
      let die := (cb s).die
      let p := (svcOf s die).part
      match faultToTake s die with
      | some e =>
        let q := faultsOf s p
        let s := setFaults s p { q with entries := q.entries.map fun x => if x.seq = e.seq then { x with taken := true } else x }
        let w0 := e.words.getD 0 0 + BitVec.ofNat 32 (e.retry * 2 ^ 16)
        .done (wsList s (8 * d.toNat) (w0 :: e.words.drop 1))
      | none => if w == 1 then .wait s .faultToTake else uniOut s (8 * d.setWidth 7) 0

/-! ### TLBINV (R340) -/

/-- Whether a started copy may still touch pages. -/
def mayTouch (page n : Nat) (c : Cmd) : Bool :=
  c.phase == .started && ((c.xs.any fun e => demoteX (page * 65536) ((page + n) * 65536) e.2 != e.2)
    || c.touched.any fun t => decide (page ≤ t) && decide (t < page + n))
/-- The started copies of a context that may still touch pages, as (block, sequence number). -/
def touchingCopies (s : State) (ctx page n : Nat) : List (Nat × Nat) :=
  (s.blocks.filter fun e => e.2.ctx == ctx).flatMap fun e =>
    (e.2.copy.cmds.filter (mayTouch page n)).map fun c => (e.1, c.seq)
/-- The operations of other members, past their WACC, on pages of a context; an ordered reduction also through its turn word
(R275, R352). -/
def opTouches (ctx page n : Nat) (d : DstOp) : Bool :=
  let on (lo hi : Nat) : Bool := decide (lo < (page + n) * 65536) && decide (page * 65536 < hi)
  d.ctx == ctx && (on d.va (d.va + 64 * d.n) || (d.kind == 3 && on d.turnVa (d.turnVa + 4)))
def touchingOps (s : State) (ctx page n : Nat) : List (Nat × Nat) :=
  (s.links.dst.filter (opTouches ctx page n)).map fun d => (d.src, d.tag)
/-- Answers the pending entries of a context in pages. -/
def answerFaults (s : State) (ctx page n : Nat) : State :=
  { s with faults := s.faults.map fun q => (q.1, { q.2 with entries := q.2.entries.filter fun e =>
      !(e.ctx == ctx && decide (page ≤ e.va / 65536) && decide (e.va / 65536 < page + n)) }) }
/-- TLBINV (R340). -/
def execTlbinv (st : BitVec 2) (a : BitVec 5) (s : State) : Host.Outcome State Fault Refusal :=
  issue (info (.tlbinv st a)) s fun s =>
    let r := 4 * a.toNat
    let p := rs64 s r
    let ctx := (rs s (r + 2)).toNat % 1024
    let n := (rs s (r + 3)).toNat
    let page := p.toNat / 65536
    if p.toNat / 2 ^ 56 ≠ 0 then .trap { code := .align, addr := p }
    else if n = 0 ∨ 16384 < n then .trap { code := .bound }
    else if inKernelMode s = false then .trap { code := .prot }
    else if (ctxOf s ctx).st = .free ∨ (ctxOf s ctx).st = .teardown then .done s
    else
      let w : Wait := match (cp s).wait with
        | some (.copiesDone pg k c cmds ops) => .copiesDone pg k c cmds ops
        | _ => .copiesDone page n ctx (touchingCopies s ctx page n) (touchingOps s ctx page n)
      let s := if (cp s).wait.isSome then s else invalidate s ctx page n
      waitFor s w fun s => .done (answerFaults (staleCopies s ctx page n fun _ => true) ctx page n)

end Sys2Proof.Machine
end

