-- ==== Sys2Proof/Machine/Submit.lean ====
section
/-!
DEFINITION. Machine/Submit.lean: QPUSH, LAUNCH, ARM and HRING (R94 to R98), SHAPE (R132) and HPOST (R375), and their effects
held until a speculative block commits (R126).
-/
namespace Sys2Proof.Machine

/-- A command image in sixteen uniform registers (R95). -/
def imageAt (s : State) (a : BitVec 3) : Nat := natOfWords (rsList s (16 * a.toNat) 16)
def imageWords (i : Nat) : List Word := (List.range 16).map fun j => BitVec.ofNat 32 (bitsOf i (32 * j + 31) (32 * j))
/-- Holds an effect of a speculative block (R126). -/
def holdEffect (s : State) (e : HeldEffect) : State :=
  let b := cb s
  setCb s { b with effects := b.effects ++ [e] }
/-- What has an effect waits, in a committed block, for the held writes and effects that come before it (R126, R128). -/
def inTurn (s : State) (k : State → Act) : Act := waitFor s .drained k

/-! ### QPUSH (R95) -/

def queuePlace (x : Queue) : Nat := x.base.toNat + 64 * (x.tail % 2 ^ (x.n + 4))
/-- A device-fed queue that is READY runs once it holds a command. -/
def wakeQueue (x : Queue) : Queue := if x.st = .ready ∧ x.head < x.tail then { x with st := .running } else x
/-- The image enters the queue, in memory and in the count. -/
def pushQueue (s : State) (ctx q img : Nat) : State :=
  let x := queueOf s ctx q
  let s := vaWrite s ctx (queuePlace x) (wordsBytes (imageWords img))
  let x := wakeQueue { x with tail := x.tail + 1 }
  pageWrite (setQueue s ctx q x) ctx (0x400 + 64 * q + 0x10) 8 x.tail
/-- The trap of the entry's place (R327). -/
def queueTrap (s : State) (ctx q : Nat) : Option TrapReq :=
  let a := queuePlace (queueOf s ctx q)
  (checkLeaf s (ctxOf s ctx).world (walk s ctx a) a false true false).map fun t =>
    { code := t, addr := BitVec.ofNat 64 a, hasPage := true }
/-- QPUSH (R95). -/
def execQpush (st : BitVec 2) (a : BitVec 3) (q : BitVec 4) (s : State) : Host.Outcome State Fault Refusal :=
  issue (info (.qpush st a q)) s fun s =>
    inTurn s fun s => fenceThen s 4 false fun s =>
      let ctx := (cb s).ctx
      let x := queueOf s ctx q.toNat
      let img := imageAt s a
      let put (s : State) (k : State → State) : Act := match queueTrap s ctx q.toNat with
        | some t => .trapIn s t
        | none => .done (k s)
      if !x.fed || !x.enable then .trapIn s { code := .prot }
      else if qKind img = 0 ∨ 5 < qKind img then .trapIn s { code := .entry }
      else if (cb s).spec then put s fun s => holdEffect s (.qpush q.toNat (imageWords img))
      else waitFor s (.queueRoom q.toNat) fun s => put s fun s => pushQueue s ctx q.toNat img

/-! ### LAUNCH (R96) -/

/-- The root queue of a kernel (R91). -/
def rootQueue (s : State) (k : Nat) : Nat := kQueue (kernRow s k)
/-- A completion record that waits for its turn at the ring (R93). -/
def queueRecord (s : State) (ctx : Nat) (r : WaitRec) : State :=
  let c := ctxOf s ctx
  setCtx s ctx { c with records := c.records ++ [r] }
/-- A launch made by LAUNCH: its checks, then its SUBMIT, at the priority and under the member of its root queue (R91, log entry 55);
a child that fails leaves at most its record (R96), which has no kernel identifier to carry (log entry 56). -/
def launchChild (s : State) (k ctx img : Nat) : State :=
  let q := rootQueue s k
  match commandError s ctx false img false with
  | 0 => postSubmit s { ctx := ctx, record := qRec img, ring := qRing img, tag := qTag img, queue := q } img (kernPrio s k) (kMember (kernRow s k))
  | e => if qRec img then queueRecord s ctx { ring := qRing img, words := recordWords true false 0 q e (qTag img) 0 }
    else s
/-- LAUNCH (R96). -/
def execLaunch (st : BitVec 2) (a : BitVec 3) (s : State) : Host.Outcome State Fault Refusal :=
  issue (info (.launch st a)) s fun s =>
    let img := imageAt s a
    if qKind img ≠ 1 ∨ qFence img = true ∨ bitsOf img 31 16 ≠ 0 then .trap { code := .entry }
    else
      inTurn s fun s => fenceThen s 4 false fun s =>
        if (cb s).spec then .done (holdEffect s (.launch (imageWords img)))
        else waitFor s .children fun s => waitFor s .hallRoom fun s => .done (launchChild s (cb s).kern (cb s).ctx img)

/-! ### ARM (R97) -/

def graphOf (s : State) (ctx m : Nat) : Graph := Map.look (ctxOf s ctx).graphs m {}
def setGraph (s : State) (ctx m : Nat) (g : Graph) : State :=
  let c := ctxOf s ctx
  setCtx s ctx { c with graphs := Map.put c.graphs m g }
/-- Sets a condition register, in the device and in the page (R83, R85). -/
def setCond (s : State) (ctx m c : Nat) (w : Word) : State :=
  let g := graphOf s ctx m
  pageWrite (setGraph s ctx m { g with c := Map.put g.c c w }) ctx (0xA00 + 32 * m + 4 * c) 4 w.toNat
def armValue (o : Nat) (old w : Word) : Word :=
  match o with
  | 0 => w
  | 1 => old ||| w
  | 2 => old + w
  | _ => old &&& w
def armCond (s : State) (ctx slot c o : Nat) (w : Word) : State :=
  setCond s ctx slot c (armValue o (Map.look (graphOf s ctx slot).c c 0) w)
/-- ARM (R97). -/
def execArm (st o : BitVec 2) (a : BitVec 7) (t : BitVec 4) (c : BitVec 3) (s : State) :
    Host.Outcome State Fault Refusal :=
  issue (info (.arm st o a t c)) s fun s =>
    let w := rs s a.toNat
    inTurn s fun s => .done (if (cb s).spec then holdEffect s (.arm t.toNat c.toNat o.toNat w)
      else armCond s (cb s).ctx t.toNat c.toNat o.toNat w)

/-! ### Call rings (R99) -/

/-- A batch joins the ring of its context and partition. -/
def appendBatch (s : State) (ctx part : Nat) (x : Batch) : State :=
  let c := ctxOf s ctx
  setCtx s ctx { c with calls := Map.put c.calls part (Map.look c.calls part [] ++ [x]) }

/-! ### HRING (R98) -/

def hringTrap (s : State) (ctx j : Nat) : Option TrapReq :=
  (ringTrap s ctx j).map fun t => { code := t, addr := BitVec.ofNat 64 (ringPlace s ctx j), hasPage := true }
/-- HRING (R98). -/
def execHring (st : BitVec 2) (a : BitVec 5) (j : BitVec 4) (f n : BitVec 1) (s : State) :
    Host.Outcome State Fault Refusal :=
  issue (info (.hring st a j f n)) s fun s =>
    let ctx := (cb s).ctx
    let k := j.toNat
    let ws := rsList s (4 * a.toNat) 4
    let flush (s : State) : State := if f == 1 then ringFlush s ctx k else s
    if ringEnabled s ctx k = false then .trap { code := .prot }
    else inTurn s fun s => fenceThen s 4 false fun s =>
      if (cb s).spec then
        match (if n == 1 then none else hringTrap s ctx k) with
        | some t => .trapIn s t
        | none => .done (holdEffect s (.hring k (if n == 1 then none else some ws) (f == 1)))
      else if n == 1 then .done (flush s)
      else waitFor s (.hostRing k) fun s =>
        match hringTrap s ctx k with
        | some t => .trapIn s t
        | none => .done (flush (ringWrite s ctx k ws))

/-! ### SHAPE (R132) and HPOST (R375) -/

/-- Posts RESOLVE. -/
def postResolve (s : State) (ctx : Nat) (image : Addr) (count param : Word) : State :=
  postEvent s { kind := 9, ctx := ctx, world := (ctxOf s ctx).world
                pay := payOf (dwordBytes image ++ wordBytes count ++ wordBytes param) }
/-- The release of a SHAPE, which every read of the shape that it brings about acquires (R130). -/
def shapeRelease (s : State) (g ctx : Nat) (image : Addr) (count param : Word) : State :=
  addRelease s g {} { scope := 5, why := 2, shape := (ctx, image.toNat, count.toNat, param) }
/-- SHAPE (R132). -/
def execShape (st : BitVec 2) (a : BitVec 5) (s : State) : Host.Outcome State Fault Refusal :=
  issue (info (.shape st a)) s fun s =>
    let n := 4 * a.toNat
    let image := rs64 s n
    if image.toNat % 128 ≠ 0 ∨ image.toNat / 2 ^ 56 ≠ 0 then .trap { code := .align, addr := image }
    else if (cb s).spec then .done (holdEffect s (.shape s.cur image (rs s (n + 2)) (rs s (n + 3))))
    else inTurn s fun s => fenceThen s 5 false fun s => waitFor s .hallRoom fun s =>
      .done (shapeRelease (postResolve s (cb s).ctx image (rs s (n + 2)) (rs s (n + 3))) s.cur (cb s).ctx image (rs s (n + 2))
        (rs s (n + 3)))

/-- The payload bytes R361 names for the kinds that HPOST may post. -/
def hpostBytes : Nat → Option Nat
  | 3 => some 4
  | 4 => some 0
  | 5 => some 2
  | 6 => some 1
  | 8 => some 2
  | _ => none
def recordOk (img : Nat) : Bool :=
  match hpostBytes (bitsOf img 142 136) with
  | none => false
  | some n => bitsOf img 63 0 == 0 && bitsOf img 135 128 == 0 && bitsOf img 143 143 == 0 && bitsOf img 191 160 == 0
      && bitsOf img 511 (192 + 8 * n) == 0
/-- The event of a record image (R360). -/
def eventOf (img : Nat) : HEvent :=
  { seq := bitsOf img 63 0, kernel := bitsOf img 127 64, origin := bitsOf img 135 128, kind := bitsOf img 142 136
    part := bitsOf img 143 143, ctx := bitsOf img 153 144, world := bitsOf img 159 154, halt := bitsOf img 160 160
    pay := bytesOfNat 40 (bitsOf img 511 192) }
/-- HPOST (R375). -/
def execHpost (st : BitVec 2) (a : BitVec 3) (s : State) : Host.Outcome State Fault Refusal :=
  issue (info (.hpost st a)) s fun s =>
    let img := imageAt s a
    if inKernelMode s = false then .trap { code := .prot }
    else if recordOk img = false then .trap { code := .entry }
    else waitFor s .hallRoom fun s => .done (postEvent s (eventOf img))

/-! ### Held effects (R126) -/

/-- What performs a held effect of a committed block; none while its own wait condition does not hold. -/
def performEffect (s : State) (k ctx : Nat) (e : HeldEffect) : Option State :=
  match e with
  | .qpush q ws =>
    let x := queueOf s ctx q
    if !x.fed || !x.enable then some s
    else if !queueRoom s ctx q then none
    else if (queueTrap s ctx q).isSome then some s
    else some (pushQueue s ctx q (natOfWords ws))
  | .launch ws =>
    if 256 ≤ childCount s ctx ∨ hallFull s = true then none else some (launchChild s k ctx (natOfWords ws))
  | .arm slot c o w => some (armCond s ctx slot c o w)
  | .hring j ws f =>
    let flush (s : State) : State := if f then ringFlush s ctx j else s
    if !ringEnabled s ctx j then some s
    else match ws with
      | none => some (flush s)
      | some ws =>
        if hringFull s ctx j then none
        else if (hringTrap s ctx j).isSome then some s
        else some (flush (ringWrite s ctx j ws))
  | .shape g image count param =>
    let scratch (c : Cmd) : Bool := c.grp == g && c.scratch && !cmdDone c
    let s := performStores s g
    if hallFull s || !podQuiet s g || (blkOf s (grpOf s g).blk).copy.cmds.any scratch then none
    else some (shapeRelease (postResolve s ctx image count param) g ctx image count param)
  | .svc x => if ringFull s ctx (blkOf s (grpOf s x.grp).blk).part then none
    else some (appendBatch s ctx (blkOf s (grpOf s x.grp).blk).part x)

end Sys2Proof.Machine
end

