-- ==== Sys2Proof/Machine/Window.lean ====
section
/-!
DEFINITION. Machine/Window.lean: loads and stores of the five spaces (R211 to R222), atomics (R223 to R225), SLDC (R187),
and the exchange of values between threads (R226 to R231).
-/
namespace Sys2Proof.Machine

/-! ### Spaces and checks (R211 to R219) -/

inductive Space where
  | blk | clu | die | spill | const
  deriving DecidableEq, Repr
inductive Use where
  | load | store | atomic
  deriving DecidableEq, Repr

/-- Where an access lands: a memory and an address in it, the constant bank, or the trap of R212 items 1 and 2. -/
inductive Place where
  | at (m : MemName) (a : Nat)
  | bank (a : Nat)
  | bad (t : TrapCode)
  deriving DecidableEq, Repr

def overlaps (a n lo hi : Nat) : Bool := decide (a < hi) && decide (lo < a + n)

/-- The block window and the ring area (R213, R267). -/
def blkPlace (s : State) (u : Use) (a n : Nat) : Place :=
  if (u == .store && overlaps a n 0xFFFFF000 (ringBase + ringBytes))
      || (u == .atomic && overlaps a n ringBase (ringBase + ringBytes)) then .bad .prot
  else match winLoc s a n with
    | some (m, x) => .at m x
    | none => .bad .bound

/-- The cluster window (R215): core rank and offset, as a byte of the window of the block that holds the rank. -/
def cluPlace (s : State) (a n : Nat) : Place :=
  let h := (ck s).hdr
  let c := 2 ^ h.cores
  let sh := h.winbytes / c
  let crank := a / 2 ^ 20 % 8
  let off := a % 2 ^ 20
  if h.window = 0 ∨ (cb s).kmode = true then .bad .prot
  else if a / 2 ^ 23 ≠ 0 ∨ sh < off + n then .bad .bound
  else
    let holds (b : Nat) : Bool := decide ((blkOf s b).base ≤ crank) && decide (crank < (blkOf s b).base + c)
    match (gangOf s (cb s).gang).blocks.find? holds with
    | some b => .at (.win b) ((crank - (blkOf s b).base) * sh + off)
    | none => .bad .bound

/-- Die scratch (R216): the partition's share, or the service region of the die in a kernel-mode block. -/
def diePlace (s : State) (a n : Nat) : Place :=
  let b := cb s
  if b.kmode then (if a + n ≤ 2 ^ 21 then .at (.die (24 + b.die)) a else .bad .bound)
  else if Map.look s.pkg.world b.part 0 ≠ b.world then .bad .prot
  else if a + n ≤ Map.look s.pkg.carve b.part 0 * 2 ^ 20 then .at (.die b.part) a
  else .bad .bound

/-- A thread's spill stack (R214). -/
def spillPlace (s : State) (t a n : Nat) : Place :=
  if a + n ≤ (ck s).hdr.spill / (cg s).width / 4 * 4 then .at (.spill s.cur) (65536 * t + a) else .bad .bound

def placeOf (s : State) (sp : Space) (u : Use) (t a n : Nat) : Place :=
  match sp with
  | .blk => blkPlace s u a n
  | .clu => cluPlace s a n
  | .die => diePlace s a n
  | .spill => spillPlace s t a n
  | .const => if a + n ≤ (ck s).hdr.constlen then .bank a else .bad .bound

/-- The active threads with their addresses, in ascending thread. -/
def accesses (s : State) (f : Nat → Nat) : List (Nat × Nat) :=
  (threadsOf (cg s).width (emask s)).map fun t => (t, f t)
/-- A trap in the threads of a list, addressed by its lowest (R212). -/
def trapOn (c : TrapCode) : List (Nat × Nat) → Option TrapReq
  | [] => none
  | e :: es => some { code := c, addr := BitVec.ofNat 64 e.2, threads := some (maskOf (e.1 :: es.map Prod.fst)) }
def eccPlace (s : State) (n : Nat) : Place → Bool
  | .at m a => eccAt s (cg s).stores m a n
  | _ => false
/-- The first trap of R212 over every active thread. -/
def accessTrap (s : State) (sp : Space) (u : Use) (n : Nat) (es : List (Nat × Nat)) : Option TrapReq :=
  let p (e : Nat × Nat) := placeOf s sp u e.1 e.2 n
  (trapOn .prot (es.filter fun e => p e == .bad .prot)).or <|
  (trapOn .bound (es.filter fun e => p e == .bad .bound)).or <|
  (trapOn .align (es.filter fun e => e.2 % n != 0)).or <|
  trapOn .ecc (es.filter fun e => u != .store && eccPlace s n (p e))

/-- Whether a word of memory has been written since a kernel's launch began. -/
def storedSince (s : State) (k : Kern) (m : MemName) (a : Nat) : Bool :=
  (s.stored.take (s.stored.length - k.since)).any fun e => e.1 == m && decide (a < e.2.1 + e.2.2) && decide (e.2.1 < a + 4)
/-- A word of the constant bank as the core's constant store holds it; undefined where the image's bank in memory was written
while a launch of it had a block that had not retired (R187, R217, log entry 23). -/
def bankWord (s : State) (a t : Nat) : Word :=
  let b := cb s
  let k := ck s
  let w := wordOf (readBytes (Map.look (coreOf s (cg s).core).banks b.kern []) a 4)
  let va := k.image + k.hdr.constoff + a
  match vaMem s k.ctx va with
  | some p => if storedSince s k p.1 p.2 then Config.freeWord s.fresh (2 ^ 20 + 128 * a + t) else w
  | none => w
def loadPlace (s : State) (t n : Nat) : Place → List Byte
  | .at m a => loadBytes s m a n
  | .bank a => wordBytes (bankWord s a t)
  | .bad _ => []
/-- The reads of the places an instruction loads from (R240). -/
def notePlaces (s : State) (n : Nat) (ps : List Place) : State :=
  noteReads s s (ps.filterMap fun p => match p with
    | .at m a => some (m, a, n)
    | _ => none)
/-- The words of a load of n bytes, each with the register it goes to: the register of a thread, and the one after it. -/
def loadWords (r : Nat → Reg) (n : Nat) (ps : List (Nat × Place)) : List (Reg × Nat × MemName × Nat × Nat) :=
  ps.flatMap fun e => match e.2 with
    | .at m a => (List.range (n / 4)).map fun i => (r i, e.1, m, a + 4 * i, 4)
    | _ => []
/-- What the loads of an instruction leave behind: what they have read, and that they may still be performed again (R236). -/
def noteLoads (s : State) (sp : Space) (d n : Nat) (es : List (Nat × Nat)) : State :=
  let ps := es.map fun e => (e.1, placeOf s sp .load e.1 e.2 n)
  openLoads s (notePlaces s n (ps.map Prod.snd)) (loadWords (fun i => .v (d + i)) n ps)
def storePlace (s : State) (bs : List Byte) : Place → State
  | .at m a => storeBytes s m a bs
  | _ => s

/-- What an access waits for: in a speculative block its commit (R126), and a store or atomic on die scratch also the writes
to it that the gang still holds, which come first in the gang's order (R134). -/
def awaitsCommit (s : State) (sp : Space) (u : Use) (es : List (Nat × Nat)) : Option Wait :=
  match sp with
  | .die => if u != .load && !es.isEmpty && ((cb s).spec || !(heldIn s (cg s).blk (dieName (cb s))).isEmpty) then some .settled else none
  | .clu => if (cb s).spec && es.any (fun e => match cluPlace s e.2 4 with
      | .at (.win b) _ => b != (cg s).blk
      | _ => false) then some .commit else none
  | _ => none

/-- Checks every active thread, then goes on, once the block has committed where R126 says so. -/
def checked (s : State) (sp : Space) (u : Use) (n : Nat) (es : List (Nat × Nat)) (go : State → Act) : Act :=
  match accessTrap s sp u n es with
  | some t => .trap t
  | none => match awaitsCommit s sp u es with
    | some w => .wait s w
    | none => go s

/-- The address of a lane access: v[a] plus size × off8, modulo 2^32 (R212). -/
def laneAddr (s : State) (a : BitVec 7) (o : BitVec 8) (n t : Nat) : Nat :=
  ((rv s a.toNat t).toNat + n * o.toNat) % 2 ^ 32
/-- A lane load of 4 bytes (R221). -/
def laneLoad (s : State) (sp : Space) (d a : BitVec 7) (o : BitVec 8) : Act :=
  let es := accesses s (laneAddr s a o 4)
  checked s sp .load 4 es fun s =>
    laneOut (noteLoads s sp d.toNat 4 es) d fun t => wordOf (loadPlace s t 4 (placeOf s sp .load t (laneAddr s a o 4 t) 4))
/-- The stores of a lane store, in ascending thread (R220, R221). -/
def storeLanes (sp : Space) (n : Nat) (val : Nat → List Byte) : State → List (Nat × Nat) → State
  | s, [] => s
  | s, e :: es => storeLanes sp n val (storePlace s (val e.1) (placeOf s sp .store e.1 e.2 n)) es
def laneStore (s : State) (sp : Space) (n : Nat) (a : BitVec 7) (o : BitVec 8) (val : Nat → List Byte) : Act :=
  let es := accesses s (laneAddr s a o n)
  checked s sp .store n es fun s => .done (storeLanes sp n val s es)

/-- LDS (R221). -/
def execLds (st : BitVec 2) (d a : BitVec 7) (o : BitVec 8) (s : State) : Host.Outcome State Fault Refusal :=
  issue (info (.lds st d a o)) s fun s => laneLoad s .blk d a o
/-- STS (R221). -/
def execSts (st : BitVec 2) (d a : BitVec 7) (o : BitVec 8) (s : State) : Host.Outcome State Fault Refusal :=
  issue (info (.sts st d a o)) s fun s => laneStore s .blk 4 a o fun t => wordBytes (rv s d.toNat t)
/-- LDS64 (R221): the pair v[d], v[d+1]. -/
def execLds64 (st : BitVec 2) (d a : BitVec 7) (o : BitVec 8) (s : State) : Host.Outcome State Fault Refusal :=
  issue (info (.lds64 st d a o)) s fun s =>
    let es := accesses s (laneAddr s a o 8)
    checked s .blk .load 8 es fun s =>
      let x (t : Nat) := dwordOf (loadPlace s t 8 (placeOf s .blk .load t (laneAddr s a o 8 t) 8))
      .done (wv (wv (noteLoads s .blk d.toNat 8 es) d.toNat (emask s) fun t => lowWord (x t)) (d.toNat + 1) (emask s) fun t => highWord (x t))
/-- STS64 (R221). -/
def execSts64 (st : BitVec 2) (d a : BitVec 7) (o : BitVec 8) (s : State) : Host.Outcome State Fault Refusal :=
  issue (info (.sts64 st d a o)) s fun s =>
    laneStore s .blk 8 a o fun t => dwordBytes (cat64 (rv s (d.toNat + 1) t) (rv s d.toNat t))
/-- LDW and STW (R215, R221). -/
def execLdw (st : BitVec 2) (d a : BitVec 7) (o : BitVec 8) (s : State) : Host.Outcome State Fault Refusal :=
  issue (info (.ldw st d a o)) s fun s => laneLoad s .clu d a o
def execStw (st : BitVec 2) (d a : BitVec 7) (o : BitVec 8) (s : State) : Host.Outcome State Fault Refusal :=
  issue (info (.stw st d a o)) s fun s => laneStore s .clu 4 a o fun t => wordBytes (rv s d.toNat t)
/-- LDSP and STSP (R214, R221). -/
def execLdsp (st : BitVec 2) (d a : BitVec 7) (o : BitVec 8) (s : State) : Host.Outcome State Fault Refusal :=
  issue (info (.ldsp st d a o)) s fun s => laneLoad s .spill d a o
def execStsp (st : BitVec 2) (d a : BitVec 7) (o : BitVec 8) (s : State) : Host.Outcome State Fault Refusal :=
  issue (info (.stsp st d a o)) s fun s => laneStore s .spill 4 a o fun t => wordBytes (rv s d.toNat t)
/-- LDD and STD (R216, R221). -/
def execLdd (st : BitVec 2) (d a : BitVec 7) (o : BitVec 8) (s : State) : Host.Outcome State Fault Refusal :=
  issue (info (.ldd st d a o)) s fun s => laneLoad s .die d a o
def execStd (st : BitVec 2) (d a : BitVec 7) (o : BitVec 8) (s : State) : Host.Outcome State Fault Refusal :=
  issue (info (.std st d a o)) s fun s => laneStore s .die 4 a o fun t => wordBytes (rv s d.toNat t)
/-- LDC (R217). -/
def execLdc (st : BitVec 2) (d a : BitVec 7) (o : BitVec 8) (s : State) : Host.Outcome State Fault Refusal :=
  issue (info (.ldc st d a o)) s fun s => laneLoad s .const d a o

/-! ### Uniform accesses -/

/-- The address of a uniform access (R187, R222). -/
def uniAddr (s : State) (a : BitVec 7) (i : BitVec 8) : Nat := ((rs s a.toNat).toNat + 4 * i.toNat) % 2 ^ 32
/-- SLDC (R187): ALIGN before BOUND. -/
def execSldc (st : BitVec 2) (d a : BitVec 7) (i : BitVec 8) (s : State) : Host.Outcome State Fault Refusal :=
  issue (info (.sldc st d a i)) s fun s =>
    let x := uniAddr s a i
    if x % 4 ≠ 0 then .trap { code := .align, addr := BitVec.ofNat 64 x }
    else if (ck s).hdr.constlen < x + 4 then .trap { code := .bound, addr := BitVec.ofNat 64 x }
    else uniOut s d (bankWord s x 0)
/-- The first trap of R212 on one uniform access to the block window (R222). -/
def uniTrap (s : State) (u : Use) (x : Nat) : Option TrapReq :=
  let t (c : TrapCode) : Option TrapReq := some { code := c, addr := BitVec.ofNat 64 x }
  match blkPlace s u x 4 with
  | .bad c => t c
  | p => if x % 4 ≠ 0 then t .align else if u == .load && eccPlace s 4 p then t .ecc else none
/-- SLDS and SSTS (R222). -/
def execSlds (st : BitVec 2) (d a : BitVec 7) (i : BitVec 8) (s : State) : Host.Outcome State Fault Refusal :=
  issue (info (.slds st d a i)) s fun s =>
    match uniTrap s .load (uniAddr s a i) with
    | some t => .trap t
    | none =>
      let p := blkPlace s .load (uniAddr s a i) 4
      uniOut (openLoads s (notePlaces s 4 [p]) (loadWords (fun _ => .s d.toNat) 4 [(0, p)])) d (wordOf (loadPlace s 0 4 p))
def execSsts (st : BitVec 2) (d a : BitVec 7) (i : BitVec 8) (s : State) : Host.Outcome State Fault Refusal :=
  issue (info (.ssts st d a i)) s fun s =>
    match uniTrap s .store (uniAddr s a i) with
    | some t => .trap t
    | none => .done (storePlace s (wordBytes (rs s d.toNat)) (blkPlace s .store (uniAddr s a i) 4))

/-! ### Atomics -/

/-- The operations of ATOM (R223). -/
def atomValue (f : Nat) (o v : Word) : Word :=
  match f with
  | 0 => o + v
  | 1 => o - v
  | 2 => minS o v
  | 3 => maxS o v
  | 4 => minU o v
  | 5 => maxU o v
  | 6 => o &&& v
  | 7 => o ||| v
  | 8 => o ^^^ v
  | 9 => v
  | 10 => if v.ule o then 0 else o + 1
  | 11 => if o = 0 ∨ v.ult o = true then v else o - 1
  | 12 => BitVec.ofNat 32 (fAdd fp32 o.toNat v.toNat)
  | 13 => BitVec.ofNat 32 (fMinBits o.toNat v.toNat)
  | _ => BitVec.ofNat 32 (fMaxBits o.toNat v.toNat)
/-- The space of an LA word's space field (R223). -/
def atomSpace (p : BitVec 2) : Space := if p == 0 then .blk else if p == 1 then .clu else .die
/-- One thread's step of an ATOM or CAS (R224, R225, R237): the word at its home is read, kept for the result, and written
where the operation writes one. -/
def atomStep (sp : Space) (new : Nat → Word → Option Word) (s : State) (e : Nat × Nat) : State :=
  match placeOf s sp .atomic e.1 e.2 4 with
  | .at m a =>
    let s := performBefore s s.cur m a 4
    let o := if (List.range 4).any fun i => earlyRead s (cg s).view m (a + i) then Config.freeWord s.fresh a else homeWord s m a
    let s := noteRead s s.cur m a 4 .newest
    let s := setCg s { cg s with olds := Map.put (cg s).olds e.1 o }
    match new e.1 o with
    | some w => agentWrite s { mem := m, addr := a, old := [], agent := s.cur, atomic := true } (cg s).view (wordBytes w)
    | none => s
  | _ => s
/-- The pass an ATOM or CAS has come to, where it is under way. -/
def passNow (s : State) : Option Nat := match (cp s).wait with
  | some (.pass n) => some n
  | _ => none
/-- The group goes on in this period, after some of the turns that are still to come. -/
def turnAgain (s : State) : State :=
  let i := Config.choice s.fresh 0 % (s.barrel.length + 1)
  { s with barrel := s.barrel.take i ++ s.cur :: s.barrel.drop i }
/-- The passes of an ATOM or CAS, in ascending order, each one indivisible step; another agent's access may fall between two
(R224). -/
def atomPasses (s : State) (sp : Space) (es : List (Nat × Nat)) (new : Nat → Word → Option Word) (fin : State → (Nat → Word) → Act) :
    Act :=
  let n := (passNow s).getD (((es.map fun e => e.1 / 32).head?).getD 0)
  let s := (es.filter fun e => e.1 / 32 == n).foldl (atomStep sp new) s
  match es.find? fun e => decide (n < e.1 / 32) with
  | some e => .wait (turnAgain s) (.pass (e.1 / 32))
  | none =>
    let m := (cg s).olds
    fin (setCg s { cg s with olds := [] }) fun t => Map.look m t 0
/-- ATOM and CAS past their decoding: the checks of R212 come before the first pass. -/
def atomic (s : State) (a : BitVec 7) (p : BitVec 2) (new : Nat → Word → Option Word) (fin : State → (Nat → Word) → Act) : Act :=
  let es := accesses s fun t => (rv s a.toNat t).toNat
  let go (s : State) : Act := atomPasses s (atomSpace p) es new fin
  if (passNow s).isSome then go s else checked s (atomSpace p) .atomic 4 es go
/-- ATOM (R223, R224). -/
def execAtom (st : BitVec 2) (d a : BitVec 7) (f : BitVec 4) (p : BitVec 2) (s : State) :
    Host.Outcome State Fault Refusal :=
  issue (info (.atom st d a f p)) s fun s =>
    atomic s a p (fun t o => some (atomValue f.toNat o (rv s d.toNat t))) fun s o => laneOut s d o
/-- CAS (R225). -/
def execCas (st : BitVec 2) (d a : BitVec 7) (p : BitVec 2) (s : State) : Host.Outcome State Fault Refusal :=
  issue (info (.cas st d a p)) s fun s =>
    let old (t : Nat) : Word := rv s d.toNat t
    atomic s a p (fun t o => if o = old t then some (rv s (d.toNat + 1) t) else none) fun s o =>
      .done (wv (wv s d.toNat (emask s) o) (d.toNat + 1) (emask s) fun t => if o t = old t then 1 else 0)

/-! ### Exchange between threads (R226 to R231) -/

/-- The source thread's value, or the thread's own outside the group (R227). -/
def shflValue (s : State) (a t : Nat) (src : Int) : Word :=
  if src < 0 ∨ ((cg s).width : Int) ≤ src then rv s a t else rv s a src.toNat
def shfliSource (m c t : Nat) : Int :=
  match m with
  | 0 => c
  | 1 => (t : Int) - c
  | 2 => (t : Int) + c
  | _ => (Nat.xor t c : Nat)
/-- SHFLI and SHFL (R227). -/
def execShfli (st : BitVec 2) (d a : BitVec 7) (m : BitVec 2) (c : BitVec 6) (s : State) :
    Host.Outcome State Fault Refusal :=
  issue (info (.shfli st d a m c)) s fun s =>
    laneOut s d fun t => shflValue s a.toNat t (shfliSource m.toNat c.toNat t)
def execShfl (st : BitVec 2) (d a b : BitVec 7) (c : BitVec 1) (s : State) : Host.Outcome State Fault Refusal :=
  issue (info (.shfl st d a b c)) s fun s =>
    laneOut s d fun t => shflValue s a.toNat t (rb s b c t).toNat
/-- VOTE (R228). -/
def voteHolds (o : Nat) (m q : Mask) : Bool :=
  match o with
  | 0 => (m &&& ~~~q) == 0
  | 1 => (m &&& q) != 0
  | 2 => (m &&& ~~~q) == 0 || (m &&& q) == 0
  | _ => (m &&& q) == 0
def execVote (st : BitVec 2) (p : BitVec 3) (o : BitVec 2) (n : BitVec 1) (q : BitVec 3) (s : State) :
    Host.Outcome State Fault Refusal :=
  issue (info (.vote st p o n q)) s fun s =>
    predOut s p (if voteHolds o.toNat (emask s) (predNeg s q.toNat n) then fullMask 128 else 0)
/-- BALLOT (R229). -/
def execBallot (st : BitVec 2) (d : BitVec 7) (h : BitVec 2) (n : BitVec 1) (p : BitVec 3) (s : State) :
    Host.Outcome State Fault Refusal :=
  issue (info (.ballot st d h n p)) s fun s =>
    laneOut s d fun _ => (words128 (emask s &&& predNeg s p.toNat n)).getD h.toNat 0
/-- RDLANE and WRLANE (R230); with a zero mask nothing is checked or written. -/
def execRdlane (st : BitVec 2) (d a i : BitVec 7) (s : State) : Host.Outcome State Fault Refusal :=
  let x := info (.rdlane st d a i)
  issue (if emask s == 0 then { x with writes := [], latency := 0 } else x) s fun s =>
    if emask s == 0 then .done s
    else if (cg s).width ≤ i.toNat then .trap { code := .bound }
    else uniOut s d (rv s a.toNat i.toNat)
def execWrlane (st : BitVec 2) (d a i : BitVec 7) (s : State) : Host.Outcome State Fault Refusal :=
  issue (info (.wrlane st d a i)) s fun s =>
    if emask s == 0 then .done s
    else if (cg s).width ≤ i.toNat then .trap { code := .bound }
    else .done (wv s d.toNat (emask s &&& maskOf [i.toNat]) fun _ => rs s a.toNat)
/-- MATCH (R231): the lowest active thread with the same 64-bit key. -/
def execMatchKeys (st : BitVec 2) (d a b : BitVec 7) (c : BitVec 1) (s : State) : Host.Outcome State Fault Refusal :=
  issue (info (.matchKeys st d a b c)) s fun s =>
    let key (t : Nat) := cat64 (rb s b c t) (rv s a.toNat t)
    let ts := threadsOf (cg s).width (emask s)
    laneOut s d fun t => BitVec.ofNat 32 ((ts.find? fun u => key u == key t).getD t)

end Sys2Proof.Machine
end

