-- ==== Sys2Proof/Machine/Copy.lean ====
section
/-!
DEFINITION. Machine/Copy.lean: copy entries (R269 to R275), the copy command instructions (R276), TESTC and WAITC (R282),
CBATCH and WAITB (R283, R284), and what the copy and matrix rings share (R267, R268, R281).
-/
namespace Sys2Proof.Machine

/-! ### Entry images -/

/-- Word i of an image held as one number (R269). -/
def imgWord (img i : Nat) : Nat := bitsOf img (32 * i + 31) (32 * i)
/-- An endpoint of R270. -/
structure Endpoint where
  space : Nat
  x : Nat
  off : Nat
  clean : Bool
  deriving DecidableEq, Repr
def endpointAt (img w : Nat) : Endpoint :=
  let lo := imgWord img w
  let hi := imgWord img (w + 1)
  let sp := bitsOf hi 20 19
  { space := sp, x := bitsOf hi 18 16, off := lo + (if sp = 1 then bitsOf hi 15 0 * 2 ^ 32 else 0)
    clean := bitsOf hi 31 21 == 0 && sp != 3 && (sp == 1 || bitsOf hi 18 0 == 0) }

def cKind (img : Nat) : Nat := bitsOf img 3 0
def cGuard (img : Nat) : Nat := bitsOf img 7 4
def cFn (img : Nat) : Nat := bitsOf img 11 8
def cOrder (img : Nat) : Bool := bitsOf img 12 12 == 1
def cW64 (img : Nat) : Bool := bitsOf img 14 14 == 1
def cRows (img : Nat) : Nat := bitsOf (imgWord img 5) 31 22 + 1
def cRowBytes (img : Nat) : Nat := bitsOf (imgWord img 5) 21 0
/-- An ordered reduction (R275). -/
def cRadd (img : Nat) : Bool := (cKind img == 0 && cFn img == 1) || (cKind img == 2 && cFn img == 2)
def cGet (img : Nat) : Bool := cKind img == 2 && cFn img == 1
/-- Source and destination of a row copy: the local endpoint of a CPYR is words 1 and 2 (R273). -/
def cSrc (img : Nat) : Endpoint := if cGet img then endpointAt img 3 else endpointAt img 1
def cDst (img : Nat) : Endpoint := if cGet img then endpointAt img 1 else endpointAt img 3
/-- Strides: a gather writes its rows one after another (R272); a reduction has one row. -/
def cSStride (img : Nat) : Nat := if cRadd img then 0 else imgWord img 6
def cDStride (img : Nat) : Nat := if cRadd img then 0 else if cKind img = 1 then cRowBytes img else imgWord img 7
def cLb (img : Nat) : Nat := bitsOf (imgWord img 6) 25 21
def cTable (img : Nat) : Nat := 4 * bitsOf (imgWord img 6) 20 0
def cRow0 (img : Nat) : Nat := imgWord img 7
def cRet (img : Nat) : Bool := bitsOf (imgWord img 7) 31 31 == 1
def cRetAddr (img : Nat) : Nat := bitsOf (imgWord img 7) 22 0
def cOpSize (img : Nat) : Nat := if cW64 img then 8 else 4

/-- Bytes of the die scratch a block reaches (R216). -/
def dieShare (s : State) (b : Block) : Nat := if b.kmode then 2 ^ 21 else Map.look s.pkg.carve b.part 0 * 2 ^ 20
/-- Whether a range of rows stays inside an endpoint's space; memory ranges are checked as the command runs. -/
def rangeOk (s : State) (b : Block) (e : Endpoint) (span : Nat) : Bool :=
  match e.space with
  | 0 => decide (e.off + span ≤ (kernFor s b).hdr.winbytes)
  | 2 => decide (e.off + span ≤ dieShare s b)
  | _ => true

/-- The checks of R269 to R275 and R329 on an entry of the current group. -/
def copyMalformed (s : State) (img : Nat) : Bool :=
  let b := cb s
  let kind := cKind img
  let fn := cFn img
  let headOk := bitsOf img 31 15 == 0 && bitsOf img 13 13 == 0 && (kind == 3 || !cW64 img)
  let reg (e : Endpoint) : XReg := if e.space = 1 then rx s e.x else {}
  let addr (e : Endpoint) : Nat := (reg e).base.toNat + e.off
  let regOk (e : Endpoint) (remote : Bool) : Bool :=
    e.space != 1 || ((reg e).valid && (remote || (!(reg e).remote && (reg e).base.toNat / 2 ^ 56 == 0)))
  let align (n : Nat) (e : Endpoint) : Bool := addr e % n == 0
  let rows := cRows img
  let rb := cRowBytes img
  let shape := rb != 0 && rb % 4 == 0
  let src := endpointAt img 1
  let dst := endpointAt img 3
  let span (stride : Nat) : Nat := (rows - 1) * stride + rb
  let ends := src.clean && dst.clean && align 4 src && align 4 dst
  let turnOk := ((reg dst).base.toNat + imgWord img 6) % 4 == 0
  match kind with
  | 0 => !(headOk && decide (fn ≤ 1) && shape && ends && regOk src false && regOk dst false
      && (fn == 1 || (imgWord img 6 % 4 == 0 && imgWord img 7 % 4 == 0))
      && (fn == 0 || (rows == 1 && dst.space == 1 && turnOk))
      && rangeOk s b src (span (cSStride img)) && rangeOk s b dst (span (cDStride img)))
  | 1 => !(headOk && fn == 0 && shape && ends && src.space == 1 && regOk src false && regOk dst false
      && bitsOf (imgWord img 6) 31 26 == 0 && decide (cLb img ≤ 16)
      && decide (cTable img + 4 * ((cRow0 img + rows - 1) / 2 ^ cLb img) + 4 ≤ (ck s).hdr.winbytes)
      && rangeOk s b dst (span rb))
  | 2 => !(headOk && decide (fn ≤ 2) && shape && ends && src.space != 1 && dst.space == 1 && regOk dst true
      && (fn == 2 || (imgWord img 6 % 4 == 0 && imgWord img 7 % 4 == 0)) && (fn != 2 || (rows == 1 && turnOk))
      && rangeOk s b src (span (if cGet img then cDStride img else cSStride img)))
  | 3 => !(headOk && decide (fn ≤ 8) && !(fn == 8 && cW64 img) && src.clean && src.space == 1 && regOk src true
      && align (cOpSize img) src && (fn == 7 || (imgWord img 5 == 0 && imgWord img 6 == 0))
      && bitsOf (imgWord img 7) 30 23 == 0 && cRetAddr img % cOpSize img == 0
      && (cRet img || cRetAddr img == 0)
      && (!cRet img || decide (cRetAddr img + cOpSize img ≤ (ck s).hdr.winbytes)))
  | _ => true

/-- Granules of 64 bytes that n bytes from an address touch (R232). -/
def granules (a n : Nat) : Nat := if n = 0 then 0 else (a + n - 1) / 64 - a / 64 + 1
/-- The remote operand of an entry, where the copy travels over the link (R273, R274). -/
def cRemote (img : Nat) (xs : Map XReg) : Bool :=
  cKind img == 2 || (cKind img == 3 && (Map.look xs (endpointAt img 1).x {}).remote)
/-- What an entry adds to the acknowledgement count (R245). -/
def cAcks (img : Nat) (xs : Map XReg) : Nat :=
  if cKind img = 2 ∧ cGet img = false then
    let d := endpointAt img 3
    let a := (Map.look xs d.x {}).base.toNat + d.off
    ((List.range (cRows img)).map fun i => granules (a + i * cDStride img) (cRowBytes img)).sum
  else if cKind img = 3 ∧ cRemote img xs = true then 1 else 0
/-- The window chunks the destination, or retaddr, touches (R281). -/
def chunksOf (a n : Nat) : List Nat := if n = 0 then [] else (List.range ((a + n - 1) / 512 - a / 512 + 1)).map (· + a / 512)
def cChunks (img : Nat) : List Nat :=
  if cKind img = 3 then (if cRet img then chunksOf (cRetAddr img) (cOpSize img) else [])
  else
    let d := cDst img
    if d.space = 0 then
      ((List.range (cRows img)).flatMap fun i => chunksOf (d.off + i * cDStride img) (cRowBytes img)).eraseDups
    else []
/-- Whether an entry writes scratch (R238). -/
def cScratch (img : Nat) : Bool := if cKind img = 3 then cRet img else (cDst img).space != 1
/-- The translation registers an entry's memory endpoints name (R329). -/
def cRegs (img : Nat) : List Nat :=
  let r (e : Endpoint) : List Nat := if e.space = 1 then [e.x] else []
  (r (endpointAt img 1) ++ (if cKind img = 3 then [] else r (endpointAt img 3))).eraseDups

/-! ### Rings -/

/-- D advances over a leading run of completed commands (R268). -/
def advanceDone (cmds : List Cmd) : Nat → Nat → Nat
  | 0, d => d
  | n + 1, d => match cmds.find? (fun c => c.seq == d + 1) with
    | some c => if cmdDone c then advanceDone cmds n (d + 1) else d
    | none => d
def settleRing (r : Ring) : Ring := { r with done := advanceDone r.cmds (r.tail - r.done) r.done }
/-- D of a ring of a block has moved: a SLEEPW on its completion word is evaluated (R147). -/
def ringMoved (s : State) (blk : Nat) : State := wakeWords s (.ring blk) 4096 16
/-- Replaces a command of a ring. -/
def putCmd (r : Ring) (c : Cmd) : Ring := { r with cmds := r.cmds.map fun e => if e.seq = c.seq then c else e }
/-- The ring-area address of an entry's slot (R267). -/
def slotAddr (matrix : Bool) (seq : Nat) : Nat := (if matrix then 2048 else 0) + 32 * ((seq + 63) % 64)
/-- Appends an entry for the current group (R276, R299): T, the ring's slot, the group's open batch. -/
def appendCmd (s : State) (matrix : Bool) (c : Cmd) : State :=
  let g := cg s
  let b := cb s
  let r := ringOf b matrix
  let c := { c with seq := r.tail + 1, grp := s.cur, batch := g.batch + 1, region := g.region.map OpenRegion.id
                    gen := (guardOf b (cGuard (natOfWords c.img))).gen }
  let s := groupWrite s s.cur (.ring g.blk) (slotAddr matrix c.seq) (wordsBytes c.img)
  ringMoved (setCb s (setRing (cb s) matrix (settleRing { r with tail := r.tail + 1, cmds := r.cmds ++ [c] }))) g.blk
/-- The pending counts of chunks rise and fall (R281). -/
def countChunks (b : Block) (cs : List Nat) (up : Bool) : Block :=
  { b with chunks := cs.foldl (fun m c =>
      let n := Map.look m c 0
      Map.put m c (if up then n + 1 else n - 1)) b.chunks }

/-- A well-formed copy entry joins the ring (R276). -/
def appendCopy (s : State) (img : Nat) : State :=
  let ws := (List.range 8).map fun i => BitVec.ofNat 32 (imgWord img i)
  let xs := (cRegs img).foldl (fun m n => Map.put m n (rx s n)) ([] : Map XReg)
  let acks := cAcks img xs
  let s := setCg s { cg s with ack := (cg s).ack + acks }
  let s := setCb s (countChunks (cb s) (cChunks img) true)
  appendCmd s false { img := ws, xs := xs, chunks := cChunks img, owedAcks := acks, remote := cRemote img xs, scratch := cScratch img }

/-- The image of a command instruction: eight uniform registers with kind, guard and fn set (R276, R299). -/
def cmdImage (s : State) (a : BitVec 4) (kind : Nat) (k f : BitVec 4) : Nat :=
  let img := natOfWords (rsList s (8 * a.toNat) 8)
  img / 2 ^ 12 * 2 ^ 12 + f.toNat * 2 ^ 8 + k.toNat * 2 ^ 4 + kind
/-- A copy command instruction past its decoding (R276). -/
def copyCommand (i : Instr) (kind : Nat) (d : BitVec 7) (a k f : BitVec 4) (s : State) :
    Host.Outcome State Fault Refusal :=
  let x := info i
  let img := cmdImage (setCg s { cg s with early := [] }) a kind k f
  issue { x with reads := x.reads ++ (cRegs img).map fun n => (.x n, .active) } s fun s =>
    let img := cmdImage s a kind k f
    if copyMalformed s img then .trap { code := .entry }
    else
      let xs := (cRegs img).foldl (fun m n => Map.put m n (rx s n)) ([] : Map XReg)
      waitFor (releaseOnce s 1) (.ring false (cAcks img xs)) fun s =>
        let s := appendCopy s img
        uniOut s d (BitVec.ofNat 32 (cb s).copy.tail)

/-- CPY, CPYG, CPYR and CPYA (R276). -/
def execCpy (st : BitVec 2) (d : BitVec 7) (a k f : BitVec 4) (s : State) : Host.Outcome State Fault Refusal :=
  copyCommand (.cpy st d a k f) 0 d a k f s
def execCpyg (st : BitVec 2) (d : BitVec 7) (a k f : BitVec 4) (s : State) : Host.Outcome State Fault Refusal :=
  copyCommand (.cpyg st d a k f) 1 d a k f s
def execCpyr (st : BitVec 2) (d : BitVec 7) (a k f : BitVec 4) (s : State) : Host.Outcome State Fault Refusal :=
  copyCommand (.cpyr st d a k f) 2 d a k f s
def execCpya (st : BitVec 2) (d : BitVec 7) (a k f : BitVec 4) (s : State) : Host.Outcome State Fault Refusal :=
  copyCommand (.cpya st d a k f) 3 d a k f s

/-- CBATCH (R283). -/
def execCbatch (st : BitVec 2) (d : BitVec 7) (s : State) : Host.Outcome State Fault Refusal :=
  issue (info (.cbatch st d)) s fun s =>
    let b := (cg s).batch + 1
    uniOut (setCg s { cg s with batch := b }) d (BitVec.ofNat 32 b)

/-- The trap of a command status (R279, R292); none for a status that raises nothing. -/
def statusTrap : CmdStatus → Option TrapCode
  | .ok | .discarded | .chained => none
  | .entry => some .entry
  | .page => some .page
  | .prot => some .prot
  | .owner => some .owner
  | .atroute => some .atroute
  | .ecc => some .ecc
def cmdError (c : Cmd) : Option TrapCode := match c.phase with
  | .done st => if c.reported then none else statusTrap st
  | _ => none
/-- Marks a command reported and raises its trap, from a unit: 1 the copy engine at WAITB, 2 the array at WAITM (R284, R304,
R338). -/
def reportCmd (s : State) (matrix : Bool) (unit : Nat) (c : Cmd) (t : TrapCode) : Act :=
  let b := cb s
  .trapIn (setCb s (setRing b matrix (putCmd (ringOf b matrix) { c with reported := true })))
    { code := t, addr := c.errAddr, unit := unit
      hasPage := !matrix && (t == .page || t == .prot || t == .owner || t == .atroute) }
/-- The first unreported error of a batch order: lowest batch, then lowest sequence number. -/
def earlierCmd (a c : Cmd) : Bool := decide (a.batch < c.batch) || (a.batch == c.batch && decide (a.seq ≤ c.seq))
def firstError (cs : List Cmd) : Option Cmd :=
  (cs.filter fun c => (cmdError c).isSome).foldl (fun o c => match o with
    | none => some c
    | some a => if earlierCmd a c then some a else some c) none
/-- WAITB (R284). -/
def execWaitb (st : BitVec 2) (a : BitVec 7) (s : State) : Host.Outcome State Fault Refusal :=
  issue (info (.waitb st a)) s fun s =>
    match back32 (cg s).batch (rs s a.toNat) with
    | none => .trap { code := .bound }
    | some n => waitFor s (.batch n) fun s =>
      match firstError ((cb s).copy.cmds.filter fun c => c.grp == s.cur && decide (c.batch ≤ n)) with
      | some c => reportCmd s false 1 c ((cmdError c).getD .entry)
      | none =>
        let mine (q : Nat) : Bool := (cb s).copy.cmds.any fun c => c.seq == q && c.grp == s.cur && decide (c.batch ≤ n)
        .done (acquire (seeCopies s s.cur mine) 1)

/-- The checks of TESTC and WAITC (R282); both traps give the base of the set (log entry 68). -/
def chunkTrap (s : State) (a b : BitVec 7) : Option TrapReq :=
  let x := (rs s a.toNat).toNat
  let set := rs s b.toNat
  if x % 512 ≠ 0 then some { code := .align, addr := BitVec.ofNat 64 x }
  else if (List.range 32).any (fun i => set.getLsbD i && decide ((ck s).hdr.winbytes ≤ x + 512 * i)) then
    some { code := .bound, addr := BitVec.ofNat 64 x }
  else none
def chunkWait (s : State) (a b : BitVec 7) : Wait := .chunks ((rs s a.toNat).toNat / 512) (rs s b.toNat).toNat
/-- The acquire over the writes that finished the tested chunks (R242, R282). -/
def acquireChunks (s : State) (a b : BitVec 7) : State :=
  let base := (rs s a.toNat).toNat / 512
  let set := rs s b.toNat
  let mine (e : Written) : Bool := (match e.cmd with
    | some (false, _) => e.agent == (cg s).blk && e.mem == .win (cg s).blk
    | _ => false) && (List.range 32).any fun i => set.getLsbD i && e.addr / 512 == base + i
  acquire (seePort s s.cur (pickWrites mine s.log)) 1
/-- TESTC and WAITC (R282). -/
def execTestc (st : BitVec 2) (d a b : BitVec 7) (s : State) : Host.Outcome State Fault Refusal :=
  issue (info (.testc st d a b)) s fun s =>
    match chunkTrap s a b with
    | some t => .trap t
    | none => if waitHolds s (chunkWait s a b) then uniOut (acquireChunks s a b) d 1 else uniOut s d 0
def execWaitc (st : BitVec 2) (a b : BitVec 7) (s : State) : Host.Outcome State Fault Refusal :=
  issue (info (.waitc st a b)) s fun s =>
    match chunkTrap s a b with
    | some t => .trap t
    | none => waitFor s (chunkWait s a b) fun s => .done (acquireChunks s a b)

end Sys2Proof.Machine
end

