-- ==== Sys2Proof/Machine/Generator.lean ====
section
/-!
DEFINITION. Machine/Generator.lean: descriptors and their validity (R308, R309), coordinates and the mixing function
(R310, R311), the values of the kinds (R312 to R315), and GEN, GENT, GSET, GRD and GSTEP (R318, R320).
-/
namespace Sys2Proof.Machine

/-- A field of a descriptor: n bits from bit lo. -/
def gfield (d : BitVec 128) (lo n : Nat) : Nat := d.toNat / 2 ^ lo % 2 ^ n
def genKind (d : BitVec 128) : Nat := gfield d 0 3
def genScope (d : BitVec 128) : Nat := gfield d 5 2
/-- The output format (R308). -/
def genFmt (d : BitVec 128) : Fmt := match gfield d 3 2 with
  | 0 => fp32
  | 1 => bf16
  | _ => fp16
/-- A valid descriptor (R309). -/
def genValid (d : BitVec 128) : Bool :=
  gfield d 3 2 != 3 && match genKind d with
    | 1 | 2 | 3 => gfield d 7 25 == 0
    | 4 => gfield d 29 3 == 0
    | 5 => match gfield d 7 2 with
      | 0 => gfield d 10 22 == 0
      | 1 => true
      | 2 => gfield d 21 11 == 0
      | _ => false
    | 6 => gfield d 25 7 == 0 && decide (gfield d 7 17 ≤ 65536)
    | _ => false

/-- The mixing function of R311. -/
def genMix (seed key : BitVec 64) (i j : Nat) : BitVec 64 :=
  let z : BitVec 64 := seed + key * 0xA3B195354A39B70D + BitVec.ofNat 64 (i * 2 ^ 32 + j) * 0x8CB92BA72F3D8DD7
  let z := (z ^^^ (z >>> 31)) * 0xE2C7F1E3A8B5D94B
  let z := (z ^^^ (z >>> 29)) * 0x5F3A0C1D9E7B6A53
  z ^^^ (z >>> 32)

/-- A non-negative ratio rounded to nearest even in a format (R313). -/
def rndRatio (f : Fmt) (num den : Nat) : Nat :=
  let x := num * 2 ^ 64
  rnd f .rne false (2 * (x / den) + (if x % den = 0 then 0 else 1)) (-65)

/-- The angle table of R315. -/
def angles : List Int :=
  [0x20000000, 0x12E4051E, 0x9FB385B, 0x51111D4, 0x28B0D43, 0x145D7E1, 0xA2F61E, 0x517C55, 0x28BE53, 0x145F2F, 0xA2F98,
   0x517CC, 0x28BE6, 0x145F3, 0xA2FA, 0x517D, 0x28BE, 0x145F, 0x0A30, 0x0518, 0x028C, 0x0146, 0x00A3, 0x0051, 0x0029, 0x0014]
/-- The CORDIC rotation of R315 over the remaining angles, from step k. -/
def cordic : Nat → List Int → Int → Int → Int → Int × Int
  | _, [], x, y, _ => (x, y)
  | k, a :: r, x, y, z =>
    let p : Int := (2 ^ k : Nat)
    if 0 ≤ z then cordic (k + 1) r (x - y / p) (y + x / p) (z - a)
    else cordic (k + 1) r (x + y / p) (y - x / p) (z + a)
/-- phase of R315. -/
def genPhase (f : Fmt) (theta j : Nat) : Nat :=
  let (x, y) := cordic 0 angles 0x26DD3B6A 0 ((theta % 2 ^ 30 : Nat) : Int)
  let (cs, sn) : Int × Int := match theta / 2 ^ 30 % 4 with
    | 0 => (x, y)
    | 1 => (-y, x)
    | 2 => (-x, -y)
    | _ => (y, -x)
  let v := if j % 2 = 0 then cs else sn
  if v = 0 then 0 else rnd f .rne (decide (v < 0)) v.natAbs (-30)

/-- Logical coordinates (R310). -/
def genRow (d : BitVec 128) (i : Nat) : Nat := (128 * gfield d 32 16 + i) % 2 ^ 32
def genCol (d : BitVec 128) (j : Nat) : Nat := (128 * gfield d 48 16 + j) % 2 ^ 32
/-- The window byte of the frequency word that a PHASE read at logical column j uses (R315). -/
def genTable (d : BitVec 128) (j : Nat) : Nat := 4 * gfield d 7 22 + 4 * (j / 2)

/-- MASK keeps the element (R314). -/
def genKept (d : BitVec 128) (i j : Nat) : Bool :=
  match gfield d 7 2 with
  | 0 => decide (j ≤ i)
  | 1 => decide (i ≤ j + gfield d 10 11) && decide (j ≤ i + gfield d 21 11)
  | _ => decide (i ≤ j + gfield d 10 11) && decide (j ≤ i)

/-- The value of a generator at logical coordinates (I, J), as bits of its format (R312 to R315); `freq` is the
frequency word of PHASE. -/
def genValue (d : BitVec 128) (key : BitVec 64) (freq : Word) (i j : Nat) : Nat :=
  let f := genFmt d
  let one := rnd f .rne false 1 0
  let z := (genMix (d.extractLsb' 64 64) key i j).toNat
  match genKind d with
  | 1 => rnd f .rne (decide (2 ^ 63 ≤ z)) 1 0
  | 2 => rnd f .rne false (z / 2 ^ 40) (-24)
  | 3 =>
    let h : Nat := z % 65536 + z / 65536 % 65536 + z / 2 ^ 32 % 65536 + z / 2 ^ 48
    if h = 131070 then 0
    else rnd f .rne (decide (h < 131070)) (((h : Int) - 131070).natAbs * 14529495) (-39)
  | 4 => genPhase f (i * freq.toNat % 2 ^ 32) j
  | 5 =>
    if gfield d 9 1 = 0 then (if genKept d i j then one else 0)
    else if genKept d i j then 0 else infBits f true
  | 6 =>
    let thr := gfield d 7 17
    if z / 2 ^ 48 < thr then (if gfield d 24 1 = 1 then one else rndRatio f 65536 thr) else 0
  | _ => 0

/-- The key of a descriptor's scope, for a block of a kernel (R311). -/
def genKeyOf (k : Kern) (b : Block) (d : BitVec 128) : BitVec 64 :=
  match genScope d with
  | 0 => 0
  | 1 => BitVec.ofNat 64 (k.launch % 2 ^ 32)
  | 2 => BitVec.ofNat 64 b.logical
  | _ => k.step
def genKey (s : State) (d : BitVec 128) : BitVec 64 := genKeyOf (ck s) (cb s) d

/-- The logical coordinates thread t reads (R310, R320). -/
def genAt (s : State) (d : BitVec 128) (tr : Bool) (a t : Nat) : Nat × Nat :=
  let i := (rv s a t).toNat
  let j := (rv s (a + 1) t).toNat
  if tr then (genRow d j, genCol d i) else (genRow d i, genCol d j)

/-- GEN and GENT past their decoding (R320). -/
def genLanes (s : State) (tr : Bool) (d a : BitVec 7) (g : BitVec 3) : Act :=
  let x := rg s g.toNat
  if emask s == 0 then .done s
  else if !genValid x then .trap { code := .illconv }
  else
    let es := accesses s fun t => genTable x (genAt s x tr a.toNat t).2
    let phase := genKind x == 4
    let beyond := es.filter fun e => phase && decide ((ck s).hdr.winbytes < e.2 + 4)
    let ecc := es.filter fun e => phase && eccAt s (cg s).stores (.win (cg s).blk) e.2 4
    match (trapOn .bound beyond).or (trapOn .ecc ecc) with
    | some t => .trap t
    | none =>
      laneOut (if phase then notePlaces s 4 (es.map fun e => .at (.win (cg s).blk) e.2) else s) d fun t =>
        let (i, j) := genAt s x tr a.toNat t
        BitVec.ofNat 32 (genValue x (genKey s x) (loadWord s (.win (cg s).blk) (genTable x j)) i j)

/-- GEN (R320). -/
def execGen (st : BitVec 2) (d a : BitVec 7) (g : BitVec 3) (s : State) : Host.Outcome State Fault Refusal :=
  issue (info (.gen st d a g)) s fun s => genLanes s false d a g
/-- GENT (R320). -/
def execGent (st : BitVec 2) (d a : BitVec 7) (g : BitVec 3) (s : State) : Host.Outcome State Fault Refusal :=
  issue (info (.gent st d a g)) s fun s => genLanes s true d a g
/-- GSET, GRD and GSTEP (R318). -/
def execGset (st : BitVec 2) (a : BitVec 5) (g : BitVec 3) (s : State) : Host.Outcome State Fault Refusal :=
  issue (info (.gset st a g)) s fun s => .done (wg s g.toNat (rs128 s (4 * a.toNat)))
def execGrd (st : BitVec 2) (d : BitVec 5) (g : BitVec 3) (s : State) : Host.Outcome State Fault Refusal :=
  issue (info (.grd st d g)) s fun s => .done (wsList s (4 * d.toNat) (words128 (rg s g.toNat)))
def execGstep (st : BitVec 2) (s : State) : Host.Outcome State Fault Refusal :=
  issue (info (.gstep st)) s fun s => .done (setCb s { cb s with stepReq := true })

end Sys2Proof.Machine
end

