-- ==== Sys2Proof/Machine/Tile.lean ====
section
/-!
DEFINITION. Machine/Tile.lean: matrix entries (R289, R293 to R298), the matrix command instructions (R299), TAILP (R277,
R300), OPFENCE, WAITM and MSEQ (R302 to R305), guard slots (R290, R306), and what a resolved guard discards (R278, R291).
-/
namespace Sys2Proof.Machine

/-! ### Entries -/

def mRows (img : Nat) : Nat := bitsOf (imgWord img 7) 22 16 + 1
def mProp (img : Nat) : Bool := bitsOf img 12 12 == 1
/-- The generator operands named by an MMA or MMAI entry: the A side at word 3, the B side at word 5 (R294, R295). -/
def mGenSide (img w : Nat) : Option Nat :=
  if cKind img ≤ 1 ∧ bitsOf (imgWord img w) 31 31 = 1 then some (bitsOf (imgWord img w) 30 28) else none
def mTransposed (img w : Nat) : Bool := bitsOf (imgWord img w) 27 27 == 1
def mGenRegs (img : Nat) : List Nat := ((mGenSide img 3).toList ++ (mGenSide img 5).toList).eraseDups

/-- Tiles and K-blocks counted by a 2-bit code (R295, R298): 1, 2 or 4. -/
def mCount (c : Nat) : Nat := if c = 0 then 1 else if c = 1 then 2 else 4

/-- A generator operand over nr rows and 128 columns (R293, R319): valid, of a fitting format and kind, and with its
frequency words in the window. -/
def genSideOk (s : State) (img w nr : Nat) (g : Nat) : Bool :=
  let d := rg s g
  let loc := imgWord img (w + 1)
  let fits := if cKind img = 0 then gfield d 3 2 == cFn img + 1
    else genKind d == 1 || (genKind d == 5 && gfield d 9 1 == 0)
  let last := if mTransposed img w then loc / 2 ^ 16 + nr - 1 else loc % 2 ^ 16 + 127
  decide (3 ≤ (ck s).hdr.version) && genValid d && fits &&
    (genKind d != 4 || decide (genTable d (genCol d last) + 4 ≤ (ck s).hdr.winbytes))

/-- The A side of MMA and MMAI, and the B side, where they are window or slot (R294, R295). -/
def mmaOk (s : State) (img : Nat) : Bool :=
  let w (i : Nat) := imgWord img i
  let m := mRows img
  let aOk := match mGenSide img 3 with
    | some g => bitsOf (w 3) 26 0 == 0 && genSideOk s img 3 m g
    | none => bitsOf (w 3) 30 22 == 0 && bitsOf (w 4) 31 16 == 0 &&
        decide (4 * bitsOf (w 3) 21 0 + (m - 1) * (4 * bitsOf (w 4) 15 0) + 256 ≤ (ck s).hdr.winbytes)
  let bOk := match mGenSide img 5 with
    | some g => bitsOf (w 5) 26 0 == 0 && genSideOk s img 5 128 g
    | none => bitsOf (w 5) 30 7 == 0 && w 6 == 0
  decide (cFn img ≤ 1) && aOk && bOk && bitsOf (w 7) 31 23 == 0 && bitsOf (w 7) 15 3 == 0
/-- MMAI, a nested-integer input, from version 3 on (R43, R295). -/
def mmaiOk (s : State) (img : Nat) : Bool :=
  let w (i : Nat) := imgWord img i
  let m := mRows img
  let nb := mCount (bitsOf (w 7) 7 6)
  let aOk := match mGenSide img 3 with
    | some g => bitsOf (w 3) 26 0 == 0 && bitsOf (w 7) 15 8 == 0 && genSideOk s img 3 m g
    | none =>
      let n := bitsOf (w 4) 31 16
      let bpr := bitsOf (w 7) 15 8
      let last := bitsOf (w 4) 15 0 + (m - 1) * bpr + nb - 1
      let planes := bitsOf (w 3) 23 21 + 1
      bitsOf (w 3) 30 27 == 0 && n != 0 && bpr != 0 && bitsOf (w 3) 26 24 != 7
        && decide (planes ≤ bitsOf (w 3) 26 24 + 2) && decide (last < n)
        && decide (4 * bitsOf (w 3) 20 0 + 2 * n * (planes - 1) + 2 * last + 2 ≤ (ck s).hdr.winbytes)
  let bOk := match mGenSide img 5 with
    | some g => bitsOf (w 5) 26 0 == 0 && genSideOk s img 5 (16 * nb) g
    | none =>
      let kb := bitsOf (w 6) 7 4 + 1
      bitsOf (w 5) 30 27 == 0 && bitsOf (w 5) 20 7 == 0 && bitsOf (w 6) 31 8 == 0 && bitsOf (w 5) 26 24 != 7
        && decide (bitsOf (w 5) 23 21 + 1 ≤ bitsOf (w 5) 26 24 + 2) && decide (bitsOf (w 6) 3 0 + nb ≤ kb)
        && decide (256 * kb * (bitsOf (w 5) 26 24 + 2) ≤ 32768)
  decide (3 ≤ (ck s).hdr.version) && cFn img == 0 && aOk && bOk && bitsOf (w 7) 31 23 == 0 && bitsOf (w 7) 7 6 != 3 && bitsOf (w 7) 5 3 == 0
    && decide (bitsOf (w 7) 2 0 + nb ≤ 8)
/-- An endpoint of a tile command: window or die scratch, 4-byte aligned, its span inside (R296, R297). -/
def tileEnd (s : State) (img span : Nat) : Bool :=
  let e := endpointAt img 3
  e.clean && e.space != 1 && e.off % 4 == 0 && rangeOk s (cb s) e span
def ldstOk (s : State) (img : Nat) : Bool :=
  let w (i : Nat) := imgWord img i
  cFn img == 0 && bitsOf (w 5) 31 7 == 0 && bitsOf (w 6) 31 16 == 0 && bitsOf (w 6) 7 7 == 0 && w 7 == 0
    && decide (bitsOf (w 6) 6 0 + bitsOf (w 6) 15 8 + 1 ≤ 128) && tileEnd s img (256 * (bitsOf (w 6) 15 8 + 1))
def acczOk (img : Nat) : Bool :=
  cFn img == 0 && (List.range 4).all (fun i => imgWord img (i + 3) == 0) && bitsOf (imgWord img 7) 31 8 == 0
/-- Bytes of a row of ACCRD and ACCWR (R297). -/
def accRow (img : Nat) : Nat := if cFn img = 0 then 512 else 256
def accOk (s : State) (img : Nat) : Bool :=
  let w (i : Nat) := imgWord img i
  decide (cFn img ≤ 2) && w 5 % 4 == 0 && w 6 == 0
    && bitsOf (w 7) 31 23 == 0 && bitsOf (w 7) 15 15 == 0 && bitsOf (w 7) 7 3 == 0
    && decide (bitsOf (w 7) 14 8 + mRows img ≤ 128) && tileEnd s img ((mRows img - 1) * w 5 + accRow img)
/-- SACCT, over nested-integer partial sums, from version 3 on (R43, R298, log entry 60). -/
def sacctOk (s : State) (img : Nat) : Bool :=
  let w (i : Nat) := imgWord img i
  let nt := mCount (bitsOf (w 7) 7 6)
  let t0 := bitsOf (w 7) 2 0
  let td := bitsOf (w 7) 5 3
  let wb := (ck s).hdr.winbytes
  decide (3 ≤ (ck s).hdr.version) && cFn img == 0 && bitsOf (w 3) 31 22 == 0 && bitsOf (w 4) 31 16 == 0 && bitsOf (w 5) 31 22 == 0
    && bitsOf (w 6) 31 8 == 0 && bitsOf (w 7) 31 23 == 0 && bitsOf (w 7) 15 8 == 0 && bitsOf (w 7) 7 6 != 3
    && decide (t0 + nt ≤ 8) && (decide (td < t0) || decide (t0 + nt ≤ td))
    && decide (w 3 + (mRows img - 1) * w 4 + nt ≤ wb) && decide (w 5 + 128 * nt ≤ wb)
/-- A predecessor field (R289): none, or a command before s. -/
def predOk (seq p : Nat) : Bool :=
  let d := (seq + 2 ^ 32 - p % 2 ^ 32) % 2 ^ 32
  p == 0 || (d != 0 && decide (d < 2 ^ 31))
/-- The checks of R289 and R293 to R298 on an entry of the current group that would be number seq. -/
def matrixMalformed (s : State) (img seq : Nat) : Bool :=
  !(bitsOf img 31 13 == 0 && predOk (seq % 2 ^ 32) (imgWord img 1) && predOk (seq % 2 ^ 32) (imgWord img 2) &&
    match cKind img with
    | 0 => mmaOk s img
    | 1 => mmaiOk s img
    | 2 => ldstOk s img
    | 3 => acczOk img
    | 4 | 5 => accOk s img
    | 6 => sacctOk s img
    | _ => false)
/-- The mask condition of MMA and MMAI (R299). -/
def fullGroup (s : State) : Bool := !(cg s).two && emask s == (cg s).live && (cg s).live != 0

/-! ### Fates (R278, R291) -/

/-- The command a predecessor field names, if its record is held. -/
def predCmd (r : Ring) (p : Nat) : Option Cmd :=
  if p = 0 then none else match back32 r.tail (BitVec.ofNat 32 p) with
    | some n => r.cmds.find? fun c => c.seq == n
    | none => none
def predsOf (r : Ring) (c : Cmd) : List Cmd :=
  let img := natOfWords c.img
  (predCmd r (imgWord img 1)).toList ++ (predCmd r (imgWord img 2)).toList
def badStatus (c : Cmd) : Bool := match c.phase with
  | .done .entry | .done .ecc | .done .chained => true
  | _ => false
def discardedCmd (c : Cmd) : Bool := c.phase == .done .discarded
/-- The fate of a queued matrix entry (R291): a status, or none where it is undecided or ready. -/
def matrixFate (b : Block) (r : Ring) (c : Cmd) : Option CmdStatus :=
  let img := natOfWords c.img
  match guardRes b (cGuard img) c.gen with
  | some false => some .discarded
  | some true =>
    let ps := predsOf r c
    if !ps.all cmdDone then none
    else if ps.any badStatus then some .chained
    else if mProp img && ps.any discardedCmd then some .discarded
    else none
  | none => none
/-- Decides every fate that is settled, in ascending sequence number. -/
def settleFates (b : Block) : List Cmd → Ring → Ring
  | [], r => settleRing r
  | c :: cs, r => settleFates b cs <|
      if c.phase == .queued then
        match matrixFate b r c with
        | some st => putCmd r { c with phase := .done st }
        | none => r
      else r
def settleMatrix (b : Block) : Block := { b with matrix := settleFates b b.matrix.cmds b.matrix }

/-- A copy command ends: its chunks and acknowledgements are released (R278), which may complete a departure (R254). -/
def finishCopy (s : State) (blk : Nat) (c : Cmd) (st : CmdStatus) (acksBack : Nat) : State :=
  let g := grpOf s c.grp
  let s := setGrp s c.grp { g with ack := g.ack - acksBack }
  let b := countChunks (blkOf s blk) c.chunks false
  let err := (statusTrap st).isSome
  let c := { c with phase := .done st, chunks := [], owedAcks := c.owedAcks - acksBack, reported := !err }
  settleGrid (ringMoved (setBlk s blk { b with copy := settleRing (putCmd b.copy c) }) blk) b.kern
/-- The entry at the head of the copy ring: the lowest one that has not started. -/
def copyHead (b : Block) : Option Cmd := b.copy.cmds.find? fun c => c.phase == .queued
/-- Entries at the head whose guard has resolved false are discarded (R278). -/
def settleCopy : Nat → State → Nat → State
  | 0, s, _ => s
  | n + 1, s, blk =>
    let b := blkOf s blk
    match copyHead b with
    | some c =>
      if guardRes b (cGuard (natOfWords c.img)) c.gen = some false then
        settleCopy n (finishCopy s blk c .discarded c.owedAcks) blk
      else s
    | none => s
/-- What a guard's resolution brings about in both rings. -/
def settleGuards (s : State) (blk : Nat) : State :=
  settleCopy 64 (ringMoved (setBlk s blk (settleMatrix (blkOf s blk))) blk) blk

/-! ### What a matrix command touches (R303) -/

def rowSpans (sp base stride len rows : Nat) : List Span := (List.range rows).map fun i => ⟨sp, base + i * stride, len⟩
def tileSpan (tile row rows : Nat) : Span := ⟨3, 16384 * tile + 128 * row, 128 * rows⟩
/-- The scratch space of an endpoint as a span's. -/
def spanSpace (e : Endpoint) : Nat := if e.space = 2 then 1 else 0
/-- The frequency words a PHASE operand reads over 128 columns (R315). -/
def genSpans (gs : Map (BitVec 128)) (img w nr : Nat) : List Span := match mGenSide img w with
  | some g =>
    let d := Map.look gs g 0
    let loc := imgWord img (w + 1)
    let c0 := if mTransposed img w then loc / 2 ^ 16 else loc % 2 ^ 16
    let n := if mTransposed img w then nr else 128
    if genKind d = 4 then (List.range n).map fun i => ⟨0, genTable d (genCol d (c0 + i)), 4⟩ else []
  | none => []
/-- The bytes and elements a command reads. -/
def mReads (img : Nat) (gs : Map (BitVec 128)) : List Span :=
  let w (i : Nat) := imgWord img i
  let m := mRows img
  let tile := bitsOf (w 7) 2 0
  match cKind img with
  | 0 =>
    (if (mGenSide img 3).isSome then genSpans gs img 3 m
     else rowSpans 0 (4 * bitsOf (w 3) 21 0) (4 * bitsOf (w 4) 15 0) 256 m)
    ++ (if (mGenSide img 5).isSome then genSpans gs img 5 128 else [⟨2, 32768 * bitsOf (w 5) 6 0, 32768⟩])
    ++ [tileSpan tile 0 m]
  | 1 =>
    let nb := mCount (bitsOf (w 7) 7 6)
    (if (mGenSide img 3).isSome then []
     else (List.range (bitsOf (w 3) 23 21 + 1)).flatMap fun j =>
       rowSpans 0 (4 * bitsOf (w 3) 20 0 + 2 * bitsOf (w 4) 31 16 * j + 2 * bitsOf (w 4) 15 0) (2 * bitsOf (w 7) 15 8) (2 * nb) m)
    ++ (if (mGenSide img 5).isSome then []
     else (List.range (bitsOf (w 5) 23 21 + 1)).map fun j =>
       let kb := bitsOf (w 6) 7 4 + 1
       ⟨2, 32768 * bitsOf (w 5) 6 0 + 256 * kb * j + 256 * bitsOf (w 6) 3 0, 256 * nb⟩)
  | 2 => [⟨spanSpace (endpointAt img 3), (endpointAt img 3).off, 256 * (bitsOf (w 6) 15 8 + 1)⟩]
  | 3 => []
  | 4 => [tileSpan tile (bitsOf (w 7) 14 8) m]
  | 5 => rowSpans (spanSpace (endpointAt img 3)) (endpointAt img 3).off (w 5) (accRow img) m
  | _ =>
    let nt := mCount (bitsOf (w 7) 7 6)
    rowSpans 0 (w 3) (w 4) nt m ++ [⟨0, w 5, 128 * nt⟩, tileSpan (bitsOf (w 7) 5 3) 0 m]
      ++ (List.range nt).map fun t => tileSpan (tile + t) 0 m
/-- The bytes and elements a command writes. -/
def mWrites (img : Nat) : List Span :=
  let w (i : Nat) := imgWord img i
  let m := mRows img
  let tile := bitsOf (w 7) 2 0
  match cKind img with
  | 0 => [tileSpan tile 0 m]
  | 1 => (List.range (mCount (bitsOf (w 7) 7 6))).map fun t => tileSpan (tile + t) 0 m
  | 2 => [⟨2, 32768 * bitsOf (w 5) 6 0 + 256 * bitsOf (w 6) 6 0, 256 * (bitsOf (w 6) 15 8 + 1)⟩]
  | 3 => ((List.range 8).filter fun t => w 7 / 2 ^ t % 2 == 1).map fun t => tileSpan t 0 128
  | 4 => rowSpans (spanSpace (endpointAt img 3)) (endpointAt img 3).off (w 5) (accRow img) m
  | 5 => [tileSpan tile (bitsOf (w 7) 14 8) m]
  | _ => [tileSpan (bitsOf (w 7) 5 3) 0 m]
/-- The commands an entry reaches through predecessor fields. -/
def ancestors (b : Block) (img : Nat) : List Nat :=
  let one (p : Nat) : List Nat := if p = 0 then [] else match back32 b.matrix.tail (BitVec.ofNat 32 p) with
    | some n => n :: ((b.touches.find? fun t => t.seq == n).map MTouch.anc).getD []
    | none => []
  (one (imgWord img 1) ++ one (imgWord img 2)).eraseDups
/-- The group observes the retirement of commands, for itself and for its own later commands (R301 item 4, R304, R305). -/
def observe (s : State) (w : View) : State :=
  let g := cg s
  setCg s { g with view := joinView g.view w, port := joinView g.port w }
def observeUpTo (s : State) (n : Nat) : State := observe s { mobs := [((cg s).blk, n)] }
def observeOne (s : State) (n : Nat) : State := observe s { mobsOne := [((cg s).blk, n)] }

/-! ### Command instructions -/

/-- A well-formed matrix entry joins the ring with its captured descriptors (R293, R299). -/
def appendMatrix (s : State) (img : Nat) : State :=
  let ws := (List.range 8).map fun i => BitVec.ofNat 32 (imgWord img i)
  let gs := (mGenRegs img).foldl (fun m n => Map.put m n (rg s n)) ([] : Map (BitVec 128))
  let b := cb s
  let x : MTouch := { seq := b.matrix.tail + 1, grp := s.cur, anc := ancestors b img, born := (cg s).born, port := (cg s).port
                      reads := mReads img gs, writes := mWrites img }
  let s := appendCmd s true { img := ws, gs := gs }
  let b := cb s
  ringMoved (setCb s (settleMatrix { b with touches := b.touches ++ [x] })) (cg s).blk
/-- The command whose slot entry seq reuses, if its error is unreported (R292). -/
def slotError (b : Block) (seq : Nat) : Option Cmd :=
  b.matrix.cmds.find? fun c => c.seq + 64 == seq && (cmdError c).isSome
/-- That command's trap, addressed by the slot; it counts as reported (R292). -/
def slotTrap (s : State) (c : Cmd) : Act :=
  reportCmd s true 0 { c with errAddr := BitVec.ofNat 64 (ringBase + slotAddr true c.seq) } ((cmdError c).getD .entry)

/-- A matrix command instruction past its decoding (R299). -/
def matrixCommand (i : Instr) (kind : Nat) (d : BitVec 7) (a k f : BitVec 4) (s : State) :
    Host.Outcome State Fault Refusal :=
  let x := info i
  issue { x with reads := x.reads ++ (mGenRegs (cmdImage (setCg s { cg s with early := [] }) a kind k f)).map fun n => (.g n, .active) } s fun s =>
    let img := cmdImage s a kind k f
    if kind ≤ 1 ∧ fullGroup s = false then .trap { code := .illconv }
    else if matrixMalformed s img ((cb s).matrix.tail + 1) then .trap { code := .entry }
    else waitFor (releaseOnce s 1) (.ring true 0) fun s =>
      match slotError (cb s) ((cb s).matrix.tail + 1) with
      | some c => slotTrap s c
      | none =>
        let s := appendMatrix s img
        uniOut s d (BitVec.ofNat 32 (cb s).matrix.tail)

/-- MMA, MMAI, LDST, ACCZ, ACCRD, ACCWR and SACCT (R299). -/
def execMma (st : BitVec 2) (d : BitVec 7) (a k f : BitVec 4) (s : State) : Host.Outcome State Fault Refusal :=
  matrixCommand (.mma st d a k f) 0 d a k f s
def execMmai (st : BitVec 2) (d : BitVec 7) (a k f : BitVec 4) (s : State) : Host.Outcome State Fault Refusal :=
  matrixCommand (.mmai st d a k f) 1 d a k f s
def execLdst (st : BitVec 2) (d : BitVec 7) (a k f : BitVec 4) (s : State) : Host.Outcome State Fault Refusal :=
  matrixCommand (.ldst st d a k f) 2 d a k f s
def execAccz (st : BitVec 2) (d : BitVec 7) (a k f : BitVec 4) (s : State) : Host.Outcome State Fault Refusal :=
  matrixCommand (.accz st d a k f) 3 d a k f s
def execAccrd (st : BitVec 2) (d : BitVec 7) (a k f : BitVec 4) (s : State) : Host.Outcome State Fault Refusal :=
  matrixCommand (.accrd st d a k f) 4 d a k f s
def execAccwr (st : BitVec 2) (d : BitVec 7) (a k f : BitVec 4) (s : State) : Host.Outcome State Fault Refusal :=
  matrixCommand (.accwr st d a k f) 5 d a k f s
def execSacct (st : BitVec 2) (d : BitVec 7) (a k f : BitVec 4) (s : State) : Host.Outcome State Fault Refusal :=
  matrixCommand (.sacct st d a k f) 6 d a k f s

/-! ### TAILP (R277, R300) -/

/-- The image in the slot of a command number, and whether publishing it finds it malformed. -/
def slotImage (s : State) (matrix : Bool) (seq : Nat) : Nat :=
  natOfWords (wordsOf 8 (homeBytes s (.ring (cg s).blk) (slotAddr matrix seq) 32))
def slotBad (s : State) (matrix : Bool) (seq : Nat) : Bool :=
  let img := slotImage s matrix seq
  if matrix then matrixMalformed s img seq || (decide (cKind img ≤ 1) && !fullGroup s) else copyMalformed s img
/-- Publishes the entry in the slot of number T + 1, as it stands; a malformed one completes with ENTRY. -/
def publish (s : State) (matrix : Bool) : State :=
  let b := cb s
  let seq := (ringOf b matrix).tail + 1
  let img := slotImage s matrix seq
  if slotBad s matrix seq then
    appendCmd s matrix { img := (List.range 8).map fun i => BitVec.ofNat 32 (imgWord img i), phase := .done .entry
                         reported := false, errAddr := BitVec.ofNat 64 (ringBase + slotAddr matrix seq) }
  else if matrix then appendMatrix s img
  else appendCopy s img
def publishAll (matrix : Bool) : Nat → State → State
  | 0, s => s
  | n + 1, s => publishAll matrix n (publish s matrix)
/-- How many entries a new tail publishes; none where it is out of bounds (R277). -/
def tailCount (s : State) (matrix : Bool) (n : Nat) : Option Nat :=
  let x := ringOf (cb s) matrix
  let d := (n + 2 ^ 32 - x.tail % 2 ^ 32) % 2 ^ 32
  if 2 ^ 31 ≤ d ∨ 64 < (n + 2 ^ 32 - x.done % 2 ^ 32) % 2 ^ 32 then none else some d
/-- The translation and generator registers that the published entries capture (R300, R329): the word reads them (R39). -/
def tailReads (s : State) (matrix : Bool) (a : Nat) : List (Reg × Threads) :=
  let s := performStores (setCg s { cg s with early := [] }) s.cur
  let x := ringOf (cb s) matrix
  (List.range ((tailCount s matrix (rs s a).toNat).getD 0)).flatMap fun i =>
    let seq := x.tail + 1 + i
    let img := slotImage s matrix seq
    if slotBad s matrix seq then []
    else if matrix then (mGenRegs img).map fun n => (.g n, .active) else (cRegs img).map fun n => (.x n, .active)
/-- The first of some entries about to be published in the matrix ring whose slot holds an error not yet reported (R292). -/
def tailError (s : State) (matrix : Bool) (d : Nat) : Option Cmd :=
  if matrix then (List.range d).findSome? fun i => slotError (cb s) ((ringOf (cb s) true).tail + 1 + i) else none
/-- Publishing entries (R277), past TAILP's release. -/
def publishOr (s : State) (matrix : Bool) (d : Nat) : Act :=
  match tailError s matrix d with
  | some c => slotTrap s c
  | none => .done (publishAll matrix d s)
/-- TAILP (R277). -/
def execTailp (st : BitVec 2) (a : BitVec 7) (r : BitVec 1) (s : State) : Host.Outcome State Fault Refusal :=
  let i := info (.tailp st a r)
  issue { i with reads := i.reads ++ tailReads s (r == 1) a.toNat } s fun s =>
    match tailCount s (r == 1) (rs s a.toNat).toNat with
    | none => .trap { code := .bound }
    | some d => publishOr (releaseFence s 1) (r == 1) d

/-! ### Waiting, and guard slots -/

/-- What the group has issued and observed counts for its later commands, its copies up to a number included (R301 item 5). -/
def portSees (s : State) (upto : Nat) : State :=
  let g := cg s
  setCg s { g with port := joinView g.port (joinView g.view { saw := copyWrites g.blk (ownCopies s upto) s.log }) }
/-- OPFENCE (R302): it waits until the writes to scratch that the group has issued or observed are performed, those of its copies
among them. -/
def execOpfence (st : BitVec 2) (s : State) : Host.Outcome State Fault Refusal :=
  issue (info (.opfence st)) s fun s =>
    match (cp s).wait with
    | some (.fenced _ n) => waitFor s (.fenced false n) fun s => .done (portSees s n)
    | _ =>
      let n := (cb s).copy.tail
      waitFor (performStores s s.cur) (.fenced false n) fun s => .done (portSees s n)
/-- WAITM (R304). -/
def execWaitm (st : BitVec 2) (a : BitVec 7) (s : State) : Host.Outcome State Fault Refusal :=
  issue (info (.waitm st a)) s fun s =>
    match back32 (cb s).matrix.tail (rs s a.toNat) with
    | none => .trap { code := .bound }
    | some n => waitFor s (.matrix n) fun s =>
      match (cb s).matrix.cmds.find? fun c => decide (c.seq ≤ n) && (cmdError c).isSome with
      | some c => reportCmd s true 2 c ((cmdError c).getD .entry)
      | none => .done (acquire (observeUpTo s n) 1)
/-- The codes of R292. -/
def statusCode : CmdStatus → Nat
  | .ok => 0 | .discarded => 1 | .entry => 2 | .ecc => 3 | .chained => 4
  | .page | .prot | .owner | .atroute => 2
/-- MSEQ (R305). -/
def execMseq (st : BitVec 2) (d a : BitVec 7) (s : State) : Host.Outcome State Fault Refusal :=
  issue (info (.mseq st d a)) s fun s =>
    let r := (cb s).matrix
    let n := (rs s a.toNat).toNat
    let back := (r.tail + 2 ^ 32 - n) % 2 ^ 32
    if 2 ^ 31 ≤ back then .trap { code := .bound }
    else if n = 0 then uniOut s d 0x80000000
    else if 64 ≤ back then uniOut s d 0x800000FF
    else match (r.cmds.find? fun c => c.seq + back == r.tail).map Cmd.phase with
      | some (.done x) => uniOut (acquire (observeOne s (r.tail - back)) 1) d (BitVec.ofNat 32 (0x80000000 + statusCode x))
      | none => uniOut (acquire (observeOne s (r.tail - back)) 1) d 0x80000000
      | _ => uniOut s d 0

/-- Resolves the current generation of a guard slot, if it is unresolved (R306). -/
def resolveGuard (g : Guard) (v : Bool) : Guard :=
  if (Map.find g.res g.gen).isSome then g else { g with res := Map.put g.res g.gen v }
def setGuard (s : State) (k : Nat) (g : Guard) : State :=
  let b := cb s
  setCb s { b with guards := Map.put b.guards k g }
/-- KSET, KRD and KCLR (R306). -/
def execKset (st : BitVec 2) (a : BitVec 7) (k : BitVec 4) (m : BitVec 2) (s : State) : Host.Outcome State Fault Refusal :=
  issue (info (.kset st a k m)) s fun s =>
    let v := if m == 2 then rs s a.toNat != 0 else m == 1
    .done (settleGuards (setGuard s k.toNat (resolveGuard (guardOf (cb s) k.toNat) v)) (cg s).blk)
def krdValue (b : Block) : Word :=
  BitVec.ofNat 32 ((List.range 16).foldl (fun n j => n + match guardRes b j (guardOf b j).gen with
    | some v => 2 ^ j + (if v then 2 ^ (16 + j) else 0)
    | none => 0) 0)
def execKrd (st : BitVec 2) (d : BitVec 7) (s : State) : Host.Outcome State Fault Refusal :=
  issue (info (.krd st d)) s fun s => uniOut s d (krdValue (cb s))
def execKclr (st : BitVec 2) (k : BitVec 4) (s : State) : Host.Outcome State Fault Refusal :=
  issue (info (.kclr st k)) s fun s =>
    let g := resolveGuard (guardOf (cb s) k.toNat) false
    .done (settleGuards (setGuard s k.toNat { g with gen := g.gen + 1 }) (cg s).blk)

end Sys2Proof.Machine
end

