-- ==== Sys2Proof/Machine/Transfer.lean ====
section
/-!
DEFINITION. Machine/Transfer.lean: the copy engine (R278 to R281): endpoints and their translation (R327, R329), the rows of a
copy, staging and draining of held writes (R127, R128), operations towards other members (R351, R352), atomics (R274) and
ordered reductions (R275).
-/
namespace Sys2Proof.Machine

/-! ### Endpoints -/

/-- Where an endpoint's byte lies, or the status its access completes the command with (R327). -/
inductive Loc where
  | at (m : MemName) (a : Nat)
  | bad (st : CmdStatus)
  deriving DecidableEq, Repr

def locStatus : TrapCode → CmdStatus
  | .prot => .prot
  | .owner | .keymix => .owner
  | _ => .page
/-- A memory access of the engine (R329): below the captured limit by the captured copy, else through the TLB. An access
of a committed block makes a RETRACT page PRESENT (R325). -/
def memLoc (s : State) (b : Block) (x : XReg) (off : Nat) (r w : Bool) : State × Loc :=
  let va := x.base.toNat + off
  if 2 ^ 56 ≤ va then (s, .bad .page)
  else if off < x.limit then
    let pa := x.pa + off
    let o := ownOf s (pa / 65536)
    let use (s : State) : State := match walk s b.ctx va with
      | some l => if b.spec || leafPa l va != pa then s else usePage s b.ctx l
      | none => s
    if (r && !x.r) || (w && !x.w) then (s, .bad .prot)
    else if x.cls = 1 then (use s, .at .host pa)
    else if o.world ≠ b.world ∨ o.key ≠ x.key then (s, .bad .owner)
    else (use s, .at .dev pa)
  else
    let (l, s) := tlbLook s b.ctx va
    match checkLeaf s b.world l va r w false with
    | some t => (s, .bad (locStatus t))
    | none =>
      let l := l.getD {}
      (if b.spec then s else usePage s b.ctx l, .at (leafMem l) (leafPa l va))
def regOf (c : Cmd) (e : Endpoint) : XReg := Map.look c.xs e.x {}
/-- The captured copy as it serves an offset: without its range in a page that has been invalidated since the capture (R329). -/
def capturedAt (c : Cmd) (x : XReg) (off : Nat) : XReg :=
  let page := (x.base.toNat + off) / 65536
  if c.stale.any fun p => decide (p.1 ≤ page) && decide (page < p.1 + p.2) then { x with limit := 0 } else x
/-- A byte of an endpoint at an offset from it. -/
def endLoc (s : State) (blk : Nat) (c : Cmd) (e : Endpoint) (off : Nat) (r w : Bool) : State × Loc :=
  let b := blkOf s blk
  match e.space with
  | 0 => (s, .at (.win blk) (e.off + off))
  | 2 => (s, .at (dieName b) (e.off + off))
  | _ => memLoc s b (capturedAt c (regOf c e) (e.off + off)) (e.off + off) r w
/-- The address of R279: a virtual address or pod pointer for memory, else the address in the space. -/
def endAddr (c : Cmd) (e : Endpoint) (off : Nat) : Nat :=
  e.off + off + (if e.space = 1 then (regOf c e).base.toNat else 0)

/-- A run of n bytes at address a, cut where `room` says how many bytes fit: (offset in the run, bytes). -/
def cutRun (room : Nat → Nat) : Nat → Nat → Nat → Nat → List (Nat × Nat)
  | 0, _, _, _ => []
  | f + 1, a, o, n =>
    if n = 0 then []
    else
      let m := min n (room a)
      (o, m) :: cutRun room f (a + m) (o + m) (n - m)
def toGranule (a : Nat) : Nat := 64 - a % 64
def toPage (a : Nat) : Nat := 65536 - a % 65536
/-- A head flit covers at most 64 granules of one page (R345). -/
def toHead (a : Nat) : Nat := min (toPage a) (4096 - a % 64)

/-! ### Reading, with the held writes of the gang (R126) -/

/-- The new value of a CPYA (R274). -/
def copyAtom (f : Nat) (w64 : Bool) (o v c : BitVec 64) : BitVec 64 :=
  let lo (x : BitVec 64) : Word := lowWord x
  let wide (x : Word) : BitVec 64 := x.setWidth 64
  match f, w64 with
  | 0, true => o + v
  | 0, false => wide (lo o + lo v)
  | 1, true => if o.slt v then o else v
  | 1, false => wide (minS (lo o) (lo v))
  | 2, true => if v.slt o then o else v
  | 2, false => wide (maxS (lo o) (lo v))
  | 3, _ => o &&& v
  | 4, _ => o ||| v
  | 5, _ => o ^^^ v
  | 6, _ => v
  | 7, _ => if o = c then v else o
  | _, _ => wide (BitVec.ofNat 32 (fAdd fp32 (lo o).toNat (lo v).toNat))
def insertHeld (e : HeldEntry) : List HeldEntry → List HeldEntry
  | [] => [e]
  | x :: r => if e.stamp < x.stamp then e :: x :: r else x :: insertHeld e r
/-- The member that holds a rank of a kernel: none where no row names it or it lies beyond the grid (R351). -/
def rankMember (s : State) (k rank : Nat) : Option Nat :=
  if (kernOf s k).nrank < rank then none else ((ranksOf s k).find? fun p => p.1 == rank).map Prod.snd
/-- A held write as a reader places it: by pod address, past every place of this chip, for another member's memory, by memory
for this chip's. -/
def placeHeld (s : State) (k ctx : Nat) (e : HeldEntry) : Option (MemName × Nat) :=
  if !e.remote then some (e.mem, e.addr)
  else if rankMember s k (e.pod.toNat / 2 ^ 56) = some s.hall.self then vaMem s ctx (e.pod.toNat % 2 ^ 56)
  else some (.dev, 2 ^ 64 + e.pod.toNat)
/-- The held writes of a block's gang in staging order, where each goes. -/
def gangHeld (s : State) (blk : Nat) : List HeldEntry :=
  let b := blkOf s blk
  ((gangOf s b.gang).blocks.flatMap fun q => (blkOf s q).held.filterMap fun e =>
    if e.radd.isSome then none else (placeHeld s b.kern b.ctx e).map fun p => { e with mem := p.1, addr := p.2 }).foldl
    (fun l e => insertHeld e l) []
/-- Eight bytes from an aligned address with one held write over them. -/
def overlay (m : MemName) (base : Nat) (buf : List Byte) (e : HeldEntry) : List Byte :=
  if e.mem ≠ m then buf
  else match e.atomic with
    | none => (List.range 8).map fun i =>
        if e.addr ≤ base + i ∧ base + i < e.addr + e.data.length then byteAt e.data (base + i - e.addr) else byteAt buf i
    | some (f, w64, v, c) =>
      if e.addr / 8 * 8 = base then
        let n := if w64 then 8 else 4
        let i := e.addr - base
        let o := dwordOf ((buf.drop i).take n)
        buf.take i ++ bytesOfNat n (copyAtom f w64 o v c).toNat ++ buf.drop (i + n)
      else buf
/-- Bytes of a place under held writes, eight at a time. -/
def overlayAll (es : List HeldEntry) (m : MemName) (a : Nat) (bs : List Byte) : List Byte :=
  let base := a / 8 * 8
  let all := List.replicate (a - base) 0 ++ bs ++ List.replicate 8 0
  (((List.range ((a - base + bs.length + 7) / 8)).flatMap fun i =>
    es.foldl (overlay m (base + 8 * i)) ((all.drop (8 * i)).take 8)).drop (a - base)).take bs.length
/-- A word of scratch or memory as a block's engine reads it for a group; none where it holds an uncorrectable error (R219). -/
def engineWord (s : State) (blk g : Nat) (m : MemName) (a : Nat) : Option (List Byte) :=
  if eccAt s [] m a 4 then none
  else
    let base := a / 8 * 8
    let buf := (List.range 8).map fun i =>
      if earlyRead s (grpOf s g).view m (base + i) then Config.freeByte s.fresh (base + i) else homeByte s m (base + i)
    some ((((gangHeld s blk).foldl (overlay m base) buf).drop (a - base)).take 4)
/-- n bytes of a source endpoint, word by word; or the status and the failing address. -/
def readSource (blk : Nat) (c : Cmd) (e : Endpoint) : Nat → Nat → State → State × Sum (CmdStatus × Nat) (List Byte)
  | 0, _, s => (s, .inr [])
  | n + 1, off, s =>
    match endLoc s blk c e off true false with
    | (s, .bad st) => (s, .inl (st, endAddr c e off))
    | (s, .at m a) =>
      match engineWord s blk c.grp m a with
      | none => (s, .inl (.ecc, endAddr c e off))
      | some w => match readSource blk c e n (off + 4) s with
        | (s, .inr ws) => (s, .inr (w ++ ws))
        | r => r

/-! ### Staging (R127) -/

/-- A held entry of a command (R127); the first of a command comes after the release of its instruction (R128). -/
def stage (s : State) (blk : Nat) (c : Cmd) (e : HeldEntry) : State :=
  let b := blkOf s blk
  let first := !(b.held.any fun h => h.cmdSeq == c.seq)
  let e := { e with seq := b.heldSeq + 1, stamp := s.nextId, release := b.relNext || first, cmdSeq := c.seq, grp := c.grp
                    batch := c.batch }
  let s := setBlk { s with nextId := s.nextId + 1 } blk { b with held := b.held ++ [e], heldSeq := b.heldSeq + 1, relNext := false }
  chargeBudget s b.ctx 3 b.part e.space
def frameKey (s : State) (m : MemName) (a : Nat) : Nat := if m = .dev then (ownOf s (a / 65536)).key else 0
/-- A write of the engine to a place, which the command names as `va`: staged in a speculative block, and behind the writes that a
committed one still holds (R134), unless it goes to the block's own window. -/
def engineWrite (s : State) (blk : Nat) (c : Cmd) (m : MemName) (a va : Nat) (bs : List Byte) : State :=
  if ((blkOf s blk).spec = true ∨ (blkOf s blk).held.isEmpty = false) ∧ m ≠ .win blk then
    stage s blk c { mem := m, addr := a, va := BitVec.ofNat 64 va, key := frameKey s m a, data := bs }
  else copyWrite s blk c.seq c.grp m a bs
/-- A get of a speculative block into die scratch: its bytes are staged as they arrive (R280), and after the commit behind the
writes still held (R134). -/
def stagesGet (s : State) (o : SrcOp) : Bool :=
  let b := blkOf s o.blk
  o.kind == 1 && o.heldSeq.isNone && (b.spec || !b.held.isEmpty) && o.mem != .win o.blk
/-- Entries that a partition's hold buffer holds, or keeps for gets under way. -/
def heldSpace (s : State) (p : Nat) : Nat :=
  ((s.blocks.filter fun e => e.2.part == p).map fun e => (e.2.held.map HeldEntry.space).sum).sum
    + ((s.links.src.filter fun o => stagesGet s o && (blkOf s o.blk).part == p).map fun o => granules o.addr o.len).sum

/-! ### The rows of CPY and CPYG (R271, R272) -/

structure Piece where
  row : Nat
  off : Nat
  len : Nat
  deriving DecidableEq, Repr

/-- The rows of a copy cut at the destination's granules. -/
def piecesOf (img : Nat) (c : Cmd) : List Piece :=
  let d := cDst img
  (List.range (cRows img)).flatMap fun i =>
    (cutRun toGranule (cRowBytes img / 4 + 1) (endAddr c d (i * cDStride img)) 0 (cRowBytes img)).map fun p => ⟨i, p.1, p.2⟩
/-- The source offset of a row; none where its table word holds an error. -/
def rowSource (s : State) (blk : Nat) (c : Cmd) (img i : Nat) : Option Nat :=
  if cKind img = 1 then
    let j := cRow0 img + i
    let n := 2 ^ cLb img
    (engineWord s blk c.grp (.win blk) (cTable img + 4 * (j / n))).map fun w =>
      natOfBytes w * cRowBytes img * n + j % n * cRowBytes img
  else some (i * cSStride img)
/-- The source bytes of a copy as ranges of memories, for the overlap of R271. -/
def sourceRanges (s : State) (blk img : Nat) (c : Cmd) : List (MemName × Nat × Nat) :=
  let e := cSrc img
  (List.range (cRows img)).flatMap fun i => match rowSource s blk c img i with
    | none => []
    | some o => (cutRun toPage (cRowBytes img / 4 + 1) (endAddr c e o) 0 (cRowBytes img)).filterMap fun p =>
      match (endLoc s blk c e (o + p.1) true false).2 with
      | .at m a => some (m, a, p.2)
      | .bad _ => none
/-- The bytes a piece writes: undefined where a source byte of the command overlaps them. -/
def overlapFree (s : State) (rs : List (MemName × Nat × Nat)) (m : MemName) (a : Nat) (bs : List Byte) : List Byte :=
  (List.range bs.length).map fun i =>
    if rs.any fun r => r.1 == m && decide (r.2.1 ≤ a + i) && decide (a + i < r.2.1 + r.2.2)
    then Config.freeByte s.fresh (a + i) else byteAt bs i
/-- A piece with its source read and its destination found. -/
structure Move where
  m : MemName
  a : Nat
  va : Nat
  bytes : List Byte
  deriving DecidableEq, Repr
def readPiece (s : State) (blk img : Nat) (c : Cmd) (p : Piece) : State × Sum (CmdStatus × Nat) Move :=
  let d := cDst img
  let o := p.row * cDStride img + p.off
  match rowSource s blk c img p.row with
  | none => (s, .inl (.ecc, cTable img + 4 * ((cRow0 img + p.row) / 2 ^ cLb img)))
  | some so =>
    match readSource blk c (cSrc img) (p.len / 4) (so + p.off) s with
    | (s, .inl e) => (s, .inl e)
    | (s, .inr bs) => match endLoc s blk c d o false true with
      | (s, .bad st) => (s, .inl (st, endAddr c d o))
      | (s, .at m a) => (s, .inr ⟨m, a, endAddr c d o, bs⟩)
/-- The pieces up to the first failure; a granule that a piece not moved shares is not written at all (R279). -/
def readPieces (blk img : Nat) (c : Cmd) : List Piece → State → State × List Move × Option (CmdStatus × Nat)
  | [], s => (s, [], none)
  | p :: ps, s => match readPiece s blk img c p with
    | (s, .inl e) => (s, [], some e)
    | (s, .inr x) =>
      let (s, l, e) := readPieces blk img c ps s
      (s, x :: l, e)
/-- Every source byte is read, then the destination written. -/
def runPieces (blk img : Nat) (c : Cmd) (rs : List (MemName × Nat × Nat)) (ps : List Piece) (s : State) :
    State × Option (CmdStatus × Nat) :=
  let d := cDst img
  let (s, l, e) := readPieces blk img c ps s
  let lost := (ps.drop l.length).map fun p => endAddr c d (p.row * cDStride img + p.off) / 64
  (l.foldl (fun s x => if lost.contains (x.va / 64) then s else engineWrite s blk c x.m x.a x.va (overlapFree s rs x.m x.a x.bytes)) s, e)
/-- The pieces still to run: for a window destination, those of the chunks not yet finished (R281). -/
def pieceChunk (img : Nat) (p : Piece) : Nat := ((cDst img).off + p.row * cDStride img + p.off) / 512
def piecesLeft (img : Nat) (c : Cmd) : List Piece :=
  (piecesOf img c).filter fun p => (cDst img).space != 0 || c.chunks.contains (pieceChunk img p)
/-- Moves a copy's data, up to the first failure. -/
def runCopy (s : State) (blk : Nat) (c : Cmd) (ps : List Piece) : State × Option (CmdStatus × Nat) :=
  let img := natOfWords c.img
  let s := setFresh s (s.fresh + 1)
  runPieces blk img c (sourceRanges s blk img c) ps s

/-! ### Operations towards other members (R349, R351, R352) -/

/-- A mask of words lo to hi − 1 of a granule. -/
def wordMask (lo hi : Nat) : Nat := ((List.range 16).filter fun i => decide (lo ≤ i) && decide (i < hi)).foldl (fun m i => m + 2 ^ i) 0
/-- The payload of WHEAD, RREQ and RADD for bytes a to a + n − 1 of a rank's memory (R345); byte 9 is 1 in the get of a
speculative block, which uses no page for good (R325, log entry 24). -/
def headPay (a n : Nat) (spec : Bool) : List Byte :=
  let g := granules a n
  let lo := a % 64 / 4
  let hi := (a + n - 1) % 64 / 4 + 1
  let first := wordMask lo (if g = 1 then hi else 16)
  let last := wordMask (if g = 1 then lo else 0) hi
  bytesOfNat 8 (a / 64 * 64) ++ bytesOfNat 1 g ++ [if spec then 1 else 0] ++ bytesOfNat 2 first ++ bytesOfNat 2 last
/-- The granules that bytes from a lie in, whole, zero outside them. -/
def granuleData (a : Nat) (bs : List Byte) : List Byte :=
  (List.replicate (a % 64) 0 ++ bs ++ List.replicate 64 0).take (64 * granules a bs.length)
def padPay (bs : List Byte) : List Byte := (bs ++ List.replicate 112 0).take 112
/-- The head flit of an operation. -/
def headFlit (s : State) (o : SrcOp) : Flit :=
  { dst := o.dst, src := s.hall.self, world := o.world, ctx := o.ctx, tag := o.tag, vc := 1
    kind := match o.kind with
      | 0 => 4 | 1 => 7 | 2 => 9 | _ => 14
    pay := padPay o.head }
def putOp (s : State) (o : SrcOp) : State :=
  setLinks s { s.links with src := s.links.src.map fun x => if x.dst = o.dst ∧ x.tag = o.tag then o else x }
/-- The head of an operation is sent, on the route there is now; the operation keeps that route (R349). -/
def sendHead (s : State) (o : SrcOp) : State :=
  let p := if o.dst = s.hall.self then 24 else portOf s o.dst
  sendOn (putOp s { o with started := true, port := p }) p (headFlit s o)
/-- The next tag towards a member. -/
def tagOf (s : State) (dst : Nat) : Nat := Map.look s.links.nextTag dst 1
/-- Counts an operation: tags in rising order, one a granule (R349). -/
def addOp (s : State) (o : SrcOp) : State :=
  let t := tagOf s o.dst
  let o := { o with tag := t, unacked := if o.kind = 1 then [] else (List.range o.n).map fun i => (t + i) % 2 ^ 24 }
  setLinks s { s.links with nextTag := Map.put s.links.nextTag o.dst ((t + o.n) % 2 ^ 24), src := s.links.src ++ [o] }
/-- Starts an operation. -/
def startOp (s : State) (o : SrcOp) : State :=
  let s := addOp s o
  match s.links.src.getLast? with
  | some o => sendHead s o
  | none => s
def baseOp (s : State) (blk : Nat) (c : Cmd) (dst kind : Nat) : SrcOp :=
  let b := blkOf s blk
  { dst := dst, kind := kind, blk := blk, seq := c.seq, grp := c.grp, world := b.world, ctx := b.ctx }
/-- A put of bytes to a pod pointer, a get of n bytes into a local place, an atomic, an ordered reduction. -/
def startPut (s : State) (o : SrcOp) (a : Nat) (bs : List Byte) : State :=
  startOp s { o with kind := 0, n := granules a bs.length, head := headPay a bs.length false, data := granuleData a bs
                     pod := BitVec.ofNat 64 a }
def startGet (s : State) (o : SrcOp) (a n : Nat) (m : MemName) (l : Nat) : State :=
  startOp s { o with kind := 1, n := granules a n, head := headPay a n (blkOf s o.blk).spec, mem := m, addr := l, first := a % 64, len := n
                     pod := BitVec.ofNat 64 a }
def startAtom (s : State) (o : SrcOp) (a f : Nat) (w64 : Bool) (v c : BitVec 64) (ret : Option Nat) : State :=
  let op : SrcOp :=
    { o with kind := 2, head := bytesOfNat 8 a ++ bytesOfNat 1 f ++ [if w64 then 1 else 0] ++ List.replicate 6 0 ++ dwordBytes v ++ dwordBytes c
             pod := BitVec.ofNat 64 a }
  startOp s (match ret with
    | some r => { op with mem := .win o.blk, addr := r, len := if w64 then 8 else 4 }
    | none => op)
/-- An ordered reduction of bytes: one operation for each part of it that a head may cover (R345), and one contribution. Their
heads also carry, past R345's fields, the contributor's index, the translation base that the turn-word offset counts from, and
the first tag and number of the parts (log entry 24); each head is sent once the one before it is accepted. -/
def startRadd (s : State) (o : SrcOp) (a : Nat) (bs : List Byte) (turn f base : Nat) : State :=
  let ps := cutRun toHead (bs.length / 4 + 1) a 0 bs.length
  let lead := tagOf s o.dst
  let extra := [0, 0] ++ bytesOfNat 4 turn ++ bytesOfNat 4 f ++ bytesOfNat 4 (blkOf s o.blk).logical ++ bytesOfNat 8 base
    ++ bytesOfNat 4 lead ++ bytesOfNat 4 ps.length
  let part (s : State) (p : Nat × Nat) : State :=
    let b := (bs.drop p.1).take p.2
    addOp s { o with kind := 3, n := granules (a + p.1) p.2, data := granuleData (a + p.1) b, pod := BitVec.ofNat 64 (a + p.1)
                     lead := lead, head := headPay (a + p.1) p.2 false ++ extra }
  let s := ps.foldl part s
  match s.links.src.find? fun x => x.dst == o.dst && x.tag == lead with
  | some x => sendHead s x
  | none => s

/-- The operands of a CPYA. -/
def atomV (img : Nat) : BitVec 64 := BitVec.ofNat 64 (imgWord img 3 + (if cW64 img then 2 ^ 32 * imgWord img 4 else 0))
def atomC (img : Nat) : BitVec 64 := BitVec.ofNat 64 (imgWord img 5 + (if cW64 img then 2 ^ 32 * imgWord img 6 else 0))
/-- The remote rows of a CPYR: (row, offset in the row, bytes), cut for head flits. -/
def remoteRows (img : Nat) (c : Cmd) : List Piece :=
  let e := endpointAt img 3
  let stride := if cGet img then cSStride img else cDStride img
  (List.range (cRows img)).flatMap fun i =>
    (cutRun toHead (cRowBytes img / 4 + 1) (endAddr c e (i * stride)) 0 (cRowBytes img)).map fun p => ⟨i, p.1, p.2⟩
/-- The rank that a remote endpoint names. -/
def remoteRank (img : Nat) (c : Cmd) : Nat := (regOf c (endpointAt img (if cKind img = 3 then 1 else 3))).base.toNat / 2 ^ 56

/-! ### Completion (R279) -/

/-- Completes a command with a status and the failing address, releasing acknowledgements not to come. -/
def endCopy (s : State) (blk seq : Nat) (st : CmdStatus) (addr acksBack : Nat) : State :=
  match (blkOf s blk).copy.cmds.find? fun c => c.seq == seq with
  | some c => finishCopy s blk { c with errAddr := BitVec.ofNat 64 addr } st acksBack
  | none => s
def setCopyCmd (s : State) (blk : Nat) (c : Cmd) : State :=
  let b := blkOf s blk
  setBlk s blk { b with copy := putCmd b.copy c }
/-- The error of a held write found while draining (R128): its command's, or a record of its own where the command's is
no longer held. -/
def heldError (s : State) (blk : Nat) (e : HeldEntry) (st : CmdStatus) : State :=
  let b := blkOf s blk
  let addr := if e.remote then e.pod else e.va
  match b.copy.cmds.find? fun c => c.seq == e.cmdSeq with
  | some c =>
    if cmdDone c then setCopyCmd s blk { c with phase := .done st, reported := false, errAddr := addr }
    else finishCopy s blk { c with errAddr := addr } st 0
  | none => setBlk s blk { b with copy := { b.copy with cmds := b.copy.cmds ++
      [{ seq := e.cmdSeq, grp := e.grp, batch := e.batch, phase := .done st, reported := false, errAddr := addr }] } }

/-! ### Atomics and reductions -/

/-- Whether the route to a host-class target carries AtomicOps (R356). -/
def hostAtomics (s : State) (ctx : Nat) : Bool := (Map.look s.ldevs (ctxOf s ctx).ld {}).atomics
/-- A CPYA at its home: the old value returned. -/
def atomHome (s : State) (m : MemName) (a f : Nat) (w64 : Bool) (v c : BitVec 64) : State × BitVec 64 :=
  let n := if w64 then 8 else 4
  let o := dwordOf (homeBytes s m a n)
  (homeWrite s m a (bytesOfNat n (copyAtom f w64 o v c).toNat), o)
/-- The place of a local CPYA's target, or its status. -/
def atomPlace (s : State) (blk img : Nat) (c : Cmd) : State × Loc :=
  match endLoc s blk c (endpointAt img 1) 0 true true with
  | (s, .at m a) =>
    if m = .host ∧ hostAtomics s (blkOf s blk).ctx = false then (s, .bad .atroute)
    else if eccAt s [] m a (cOpSize img) then (s, .bad .ecc)
    else (s, .at m a)
  | r => r
/-- Performs a local CPYA. -/
def runAtom (s : State) (blk img : Nat) (c : Cmd) : State × Option (CmdStatus × Nat) :=
  match atomPlace s blk img c with
  | (s, .bad st) => (s, some (st, endAddr c (endpointAt img 1) 0))
  | (s, .at m a) =>
    let (s, o) := atomHome s m a (cFn img) (cW64 img) (atomV img) (atomC img)
    (if cRet img then copyWrite s blk c.seq c.grp (.win blk) (cRetAddr img) (bytesOfNat (cOpSize img) o.toNat) else s, none)

/-- A word of an ordered reduction in device memory: its place, or the failing status (R275). -/
def raddPlace (s : State) (blk : Nat) (c : Cmd) (e : Endpoint) (off : Nat) (val : Option Word) : State × Sum (CmdStatus × Nat) RaddWord :=
  match endLoc s blk c e off true true with
  | (s, .bad st) => (s, .inl (st, endAddr c e off))
  | (s, .at m a) =>
    if m ≠ .dev then (s, .inl (.atroute, endAddr c e off))
    else (s, .inr { pa := a, va := BitVec.ofNat 64 (endAddr c e off), key := frameKey s m a, val := val })
/-- The words of an ordered reduction from an offset on; one that a source byte overlaps adds an undefined value (R271). -/
def raddWords (blk : Nat) (c : Cmd) (e : Endpoint) (rs : List (MemName × Nat × Nat)) :
    Nat → List Word → State → State × Sum (CmdStatus × Nat) (List RaddWord)
  | _, [], s => (s, .inr [])
  | off, w :: r, s => match raddPlace s blk c e off (some w) with
    | (s, .inl x) => (s, .inl x)
    | (s, .inr p) =>
      let hit := rs.any fun q => q.1 == .dev && decide (q.2.1 < p.pa + 4) && decide (p.pa < q.2.1 + q.2.2)
      match raddWords blk c e rs (off + 4) r s with
      | (s, .inr ps) => (s, .inr ((if hit then { p with val := none } else p) :: ps))
      | q => q
/-- A local ordered reduction's contribution: source read, destination and turn word translated (R275). -/
def raddMake (s : State) (blk img : Nat) (c : Cmd) : State × Sum (CmdStatus × Nat) (List RaddWord × RaddWord) :=
  match readSource blk c (cSrc img) (cRowBytes img / 4) 0 s with
  | (s, .inl e) => (s, .inl e)
  | (s, .inr bs) =>
    let d := cDst img
    match raddWords blk c d (sourceRanges s blk img c) 0 (wordsOf (cRowBytes img / 4) bs) s with
    | (s, .inl e) => (s, .inl e)
    | (s, .inr ws) => match raddPlace s blk c { d with off := 0 } (imgWord img 6) none with
      | (s, .inl e) => (s, .inl e)
      | (s, .inr t) => (s, .inr (ws, t))
/-- The turn at which a block contributes. -/
def raddWant (s : State) (blk img : Nat) : Nat := ((blkOf s blk).logical + 2 ^ 32 - imgWord img 7) % 2 ^ 32
def addContribution (s : State) (x : Contribution) : State := setLinks s { s.links with contribs := s.links.contribs ++ [x] }

/-! ### Starting (R278) -/

/-- The places of memory a command touches, page by page, as its translation stands (R334, R357). -/
def touchedPlaces (s : State) (blk : Nat) (c : Cmd) : List (MemName × Nat) :=
  let img := natOfWords c.img
  let place (e : Endpoint) (off : Nat) : Option (MemName × Nat) :=
    if e.space ≠ 1 then none
    else match (endLoc s blk c e off false false).2 with
      | .at m a => some (m, a)
      | .bad _ => none
  let row (e : Endpoint) (off n : Nat) : List (MemName × Nat) :=
    if e.space ≠ 1 then []
    else (cutRun toPage (n / 4 + 1) (endAddr c e off) 0 n).filterMap fun p => place e (off + p.1)
  match cKind img with
  | 3 => if cRemote img c.xs then [] else row (endpointAt img 1) 0 (cOpSize img)
  | 2 => []
  | _ => ((List.range (cRows img)).flatMap fun i =>
      ((rowSource s blk c img i).map fun o => row (cSrc img) o (cRowBytes img)).getD []
        ++ row (cDst img) (i * cDStride img) (cRowBytes img))
      ++ (if cRadd img then row { cDst img with off := 0 } (imgWord img 6) 4 else [])
def touchedFrames (s : State) (blk : Nat) (c : Cmd) : List Nat :=
  ((touchedPlaces s blk c).filterMap fun p => if p.1 = .dev then some (p.2 / 65536) else none).eraseDups
/-- The virtual pages a command's memory rows lie in (R340). -/
def touchedPages (s : State) (blk : Nat) (c : Cmd) : List Nat :=
  let img := natOfWords c.img
  let row (e : Endpoint) (off n : Nat) : List Nat :=
    if e.space ≠ 1 then [] else (cutRun toPage (n / 4 + 1) (endAddr c e off) 0 n).map fun p => endAddr c e (off + p.1) / 65536
  match cKind img with
  | 3 => if cRemote img c.xs then [] else row (endpointAt img 1) 0 (cOpSize img)
  | 2 => []
  | _ => (((List.range (cRows img)).flatMap fun i =>
      ((rowSource s blk c img i).map fun o => row (cSrc img) o (cRowBytes img)).getD []
        ++ row (cDst img) (i * cDStride img) (cRowBytes img))
      ++ (if cRadd img then row { cDst img with off := 0 } (imgWord img 6) 4 else [])).eraseDups
/-- Whether a speculative block stages a command's writes (R126, R280). -/
def stages (s : State) (blk img : Nat) : Bool :=
  (blkOf s blk).spec && (cKind img == 3 || (cKind img == 2 && !cGet img) || (cKind img ≤ 1 && (cDst img).space != 0))
/-- Whether a command needs room in the hold buffer: one that is staged, or a get into die scratch (R280). -/
def needsHold (s : State) (blk img : Nat) : Bool := stages s blk img || ((blkOf s blk).spec && cGet img && (cDst img).space != 0)
/-- The granules its staging takes. -/
def stageNeed (img : Nat) (c : Cmd) : Nat :=
  if cKind img = 3 then 1
  else ((List.range (cRows img)).map fun i => granules (endAddr c (cDst img) (i * cDStride img)) (cRowBytes img)).sum
def copyBytes (img : Nat) : Nat := if cKind img = 3 then 8 else cRows img * cRowBytes img
/-- The command a block's copy engine may start now. -/
def copyReady (s : State) (blk : Nat) : Option Cmd :=
  let b := blkOf s blk
  let q := gangOf s b.gang
  match copyHead b with
  | none => none
  | some c =>
    let img := natOfWords c.img
    if (Map.find s.blocks blk).isSome && (q.released || b.kmode) && !q.saved && !b.trapped
        && (b.spec || b.held.isEmpty) && guardRes b (cGuard img) c.gen == some true && (!cOrder img || b.copy.done + 1 == c.seq)
        && decide ((b.copy.cmds.filter fun x => x.phase == .started).length < 16)
        && decide (0 < budgetLeft (ctxOf s b.ctx) 0 b.part)
        && !((touchedFrames s blk c).any fun f => decide (2 ≤ (ownOf s f).bias))
        && (!needsHold s blk img || (decide (heldSpace s b.part + stageNeed img c ≤ 65536)
              && decide (0 < budgetLeft (ctxOf s b.ctx) 3 b.part)))
    then some c else none

/-- Staging of a put's granules (R127). -/
def stagePut (blk : Nat) (c : Cmd) (s : State) (e : Nat × List Byte) : State :=
  stage s blk c { remote := true, pod := BitVec.ofNat 64 e.1, data := e.2 }
/-- The first remote address of a command that its endpoint's base and offset carry out of the address space (R322). -/
def remoteCarry (img : Nat) (c : Cmd) : Option Nat :=
  let e := endpointAt img (if cKind img = 3 then 1 else 3)
  let base := (regOf c e).base.toNat
  let stride := if cGet img then cSStride img else cDStride img
  let n := if cKind img = 3 then cOpSize img else cRowBytes img
  let out (o : Nat) : Bool := decide (2 ^ 56 < base % 2 ^ 56 + o + n)
  ((List.range (if cKind img = 3 then 1 else cRows img)).find? fun i => out (e.off + i * stride)).map fun i => base + e.off + i * stride
/-- The remote rows of a put with their bytes: read at the start, up to the first failure. -/
def putRows (blk img : Nat) (c : Cmd) : List Piece → State → State × List (Nat × List Byte) × Option (CmdStatus × Nat)
  | [], s => (s, [], none)
  | p :: ps, s => match readSource blk c (cSrc img) (p.len / 4) (p.row * cSStride img + p.off) s with
    | (s, .inl e) => (s, [], some e)
    | (s, .inr bs) =>
      let (s, l, e) := putRows blk img c ps s
      (s, (endAddr c (cDst img) (p.row * cDStride img + p.off), bs) :: l, e)
/-- What a staged operation towards a rank on this chip finds at its n bytes (R126, R327); another chip's table is asked only as it
drains (log entry 71). -/
def podCheck (s : State) (blk : Nat) (p : Nat × Nat) (r w : Bool) : State × Option CmdStatus :=
  let b := blkOf s blk
  let va := p.1 % 2 ^ 56
  if rankMember s b.kern (p.1 / 2 ^ 56) ≠ some s.hall.self then (s, none)
  else
    let (l, s) := tlbLook s b.ctx va
    (s, (checkLeaf s b.world l va r w false).map locStatus)
/-- The first of some runs of bytes that is refused. -/
def podChecks (blk : Nat) (r w : Bool) : List (Nat × Nat) → State → State × Option (CmdStatus × Nat)
  | [], s => (s, none)
  | p :: ps, s => match podCheck s blk p r w with
    | (s, some st) => (s, some (st, p.1))
    | (s, none) => podChecks blk r w ps s
/-- The rows of a put that may be staged: those before the first that is refused; a granule that a row not staged shares is not
written at all (R279). -/
def putStaged (blk : Nat) (l : List (Nat × List Byte)) (e : Option (CmdStatus × Nat)) (lost : List Nat) (s : State) :
    State × List (Nat × List Byte) × Option (CmdStatus × Nat) :=
  match podChecks blk false true (l.map fun p => (p.1, p.2.length)) s with
  | (s, none) => (s, l.filter fun p => !lost.contains (p.1 / 64), e)
  | (s, some x) =>
    let ok := l.takeWhile fun p => p.1 != x.2
    let out := (l.drop ok.length).map (fun p => p.1 / 64) ++ lost
    (s, ok.filter (fun p => !out.contains (p.1 / 64)), some x)
/-- The staging of a speculative block's command; its outcome is kept for its completion, a CPYA with a returned value
waits for its drain (R126). -/
def stageCmd (s : State) (blk : Nat) (c : Cmd) : State × Option (CmdStatus × Nat) × Bool :=
  let img := natOfWords c.img
  let remote := cRemote img c.xs
  if remote = true ∧ (kernOf s (blkOf s blk).kern).nrank < remoteRank img c then
    (s, some (.prot, endAddr c (endpointAt img (if cKind img = 3 then 1 else 3)) 0), true)
  else if remote = true ∧ (remoteCarry img c).isSome = true then (s, some (.page, (remoteCarry img c).getD 0), true)
  else if cKind img = 3 then
    let e : HeldEntry := { atomic := some (cFn img, cW64 img, atomV img, atomC img)
                           ret := if cRet img then some (cRetAddr img) else none }
    if remote then
      let a := endAddr c (endpointAt img 1) 0
      match podChecks blk true true [(a, cOpSize img)] s with
      | (s, some x) => (s, some x, true)
      | (s, none) => (stage s blk c { e with remote := true, pod := BitVec.ofNat 64 a }, none, !cRet img)
    else match atomPlace s blk img c with
      | (s, .bad st) => (s, some (st, endAddr c (endpointAt img 1) 0), true)
      | (s, .at m a) =>
        let va := BitVec.ofNat 64 (endAddr c (endpointAt img 1) 0)
        (stage s blk c { e with mem := m, addr := a, va := va, key := frameKey s m a }, none, !cRet img)
  else if remote then
    if cRadd img then
      match readSource blk c (cSrc img) (cRowBytes img / 4) 0 s with
      | (s, .inl e) => (s, some e, true)
      | (s, .inr bs) =>
        let a := endAddr c (cDst img) 0
        let base := (regOf c (cDst img)).base.toNat
        let runs := (cutRun toPage (bs.length / 4 + 1) a 0 bs.length).map fun p => (a + p.1, p.2)
        match podChecks blk true true (runs ++ [(base + imgWord img 6, 4)]) s with
        | (s, some x) => (s, some x, true)
        | (s, none) =>
          (stage s blk c { remote := true, pod := BitVec.ofNat 64 a, data := bs
                           radd := some (imgWord img 6, imgWord img 7), base := base, space := stageNeed img c }, none, true)
    else
      let ps := piecesOf img c
      let (s, l, e) := putRows blk img c ps s
      let lost := (ps.drop l.length).map fun p => endAddr c (cDst img) (p.row * cDStride img + p.off) / 64
      let (s, l, e) := putStaged blk l e lost s
      (l.foldl (stagePut blk c) s, e, true)
  else if cRadd img then
    match raddMake s blk img c with
    | (s, .inl e) => (s, some e, true)
    | (s, .inr (ws, t)) =>
      (stage s blk c { words := t :: ws, va := t.va, radd := some (0, raddWant s blk img), space := stageNeed img c }, none, true)
  else
    let (s, e) := runCopy s blk c (piecesOf img c)
    (s, e, true)
/-- The start of a command that travels over the link (R273, R274, R351). -/
def startRemote (s : State) (blk : Nat) (c : Cmd) : State :=
  let img := natOfWords c.img
  let b := blkOf s blk
  match rankMember s b.kern (remoteRank img c) with
  | none => endCopy s blk c.seq .prot (endAddr c (endpointAt img (if cKind img = 3 then 1 else 3)) 0) c.owedAcks
  | some m =>
    if let some a := remoteCarry img c then endCopy s blk c.seq .page a c.owedAcks else
    let o := baseOp s blk c m 0
    if cKind img = 3 then
      startAtom s o (endAddr c (endpointAt img 1) 0) (cFn img) (cW64 img) (atomV img) (atomC img)
        (if cRet img then some (cRetAddr img) else none)
    else if cGet img then
      (remoteRows img c).foldl (fun s p =>
        let d := cDst img
        let mem := if d.space = 0 then MemName.win blk else dieName b
        startGet s o (endAddr c (cSrc img) (p.row * cSStride img + p.off)) p.len mem (d.off + p.row * cDStride img + p.off)) s
    else
      let (s, l, e) := putRows blk img c (if cRadd img then piecesOf img c else remoteRows img c) s
      match e with
      | some (st, a) => endCopy s blk c.seq st a c.owedAcks
      | none =>
        if cRadd img then
          startRadd s o (endAddr c (cDst img) 0) (l.flatMap Prod.snd) (imgWord img 6) (imgWord img 7) (regOf c (cDst img)).base.toNat
        else l.foldl (fun s r => startPut s o r.1 r.2) s
/-- A command that is staged is counted by its group no more (R245). -/
def uncountCmd (s : State) (c : Cmd) : State × Cmd :=
  let g := grpOf s c.grp
  (if c.owedAcks = 0 then s
    else settleGrid (setGrp s c.grp { g with ack := g.ack - c.owedAcks }) (blkOf s g.blk).kern, { c with owedAcks := 0 })
/-- A command starts: charged (R79), then staged, sent, or under way. -/
def startCopy (s : State) (blk : Nat) (c : Cmd) : State :=
  let b := blkOf s blk
  let img := natOfWords c.img
  let s := chargeBudget s b.ctx 0 b.part (copyBytes img)
  let c := { c with phase := .started, touched := touchedPages s blk c }
  let s := setCopyCmd s blk c
  if stages s blk img then
    let (s, c) := uncountCmd s c
    let s := setCopyCmd s blk c
    match stageCmd s blk c with
    | (s, some (st, a), _) => setCopyCmd s blk { c with outcome := some st, errAddr := BitVec.ofNat 64 a }
    | (s, none, done) => if done then setCopyCmd s blk { c with outcome := some .ok } else s
  else if cRemote img c.xs then startRemote s blk c
  else if cRadd img then
    match raddMake s blk img c with
    | (s, .inl (st, a)) => setCopyCmd s blk { c with outcome := some st, errAddr := BitVec.ofNat 64 a }
    | (s, .inr (ws, t)) => addContribution s { words := ws, turn := t, want := raddWant s blk img, blk := blk, seq := c.seq, ctx := b.ctx }
  else s
/-- COPY_COMMAND_START (R278). -/
def execCopyCommandStart (blk : Nat) (s : State) : Host.Outcome State Fault Refusal :=
  if s.pkg.power then
    let s := settleCopy 64 s blk
    match copyReady s blk with
    | some c => .next (startCopy s blk c)
    | none => .next s
  else .fault .noPower

/-! ### Chunks and completion -/

/-- Whether a command's data is moved by its completion: a local row copy that is not staged. -/
def movesRows (c : Cmd) : Bool :=
  let img := natOfWords c.img
  c.phase == .started && c.outcome.isNone && cKind img ≤ 1 && !cRadd img
/-- Whether a copy writes what it reads: its chunks then finish together. -/
def selfOverlap (s : State) (blk : Nat) (c : Cmd) : Bool :=
  let img := natOfWords c.img
  let rs := sourceRanges s blk img c
  (piecesOf img c).any fun p => match (endLoc s blk c (cDst img) (p.row * cDStride img + p.off) false false).2 with
    | .at m a => rs.any fun r => r.1 == m && decide (r.2.1 < a + p.len) && decide (a < r.2.1 + r.2.2)
    | .bad _ => false
/-- Whether data of an operation still waits at a port to be sent (R352). -/
def dataWaits (s : State) (o : SrcOp) : Bool :=
  s.links.ports.any fun e => e.2.sendQ.any fun fl => fl.kind == 6 && fl.vc == 1 && fl.dst == o.dst && fl.tag == o.tag && fl.src == s.hall.self
/-- COPY_CHUNK_DONE (R281): one chunk's writes finish. -/
def execCopyChunkDone (blk seq chunk : Nat) (s : State) : Host.Outcome State Fault Refusal :=
  if s.pkg.power then
    match (blkOf s blk).copy.cmds.find? fun c => c.seq == seq with
    | some c =>
      if movesRows c && c.chunks.contains chunk && !selfOverlap s blk c then
        let img := natOfWords c.img
        match runCopy s blk c ((piecesOf img c).filter fun p => pieceChunk img p == chunk) with
        | (s', none) =>
          let b := countChunks (blkOf s' blk) [chunk] false
          .next (setBlk s' blk { b with copy := putCmd b.copy { c with chunks := c.chunks.erase chunk } })
        | _ => .next s
      else .next s
    | none => .next s
  else .fault .noPower
/-- Whether a started command can complete now. -/
def copyCan (s : State) (blk : Nat) (c : Cmd) : Bool :=
  let img := natOfWords c.img
  let mine := s.links.src.filter fun o => o.blk == blk && o.seq == c.seq && o.heldSeq.isNone
  c.phase == .started &&
    (c.outcome.isSome ||
      (!stages s blk img && !((blkOf s blk).held.any fun e => e.cmdSeq == c.seq) &&
        if cRemote img c.xs then mine.all fun o => (o.kind == 0 || o.kind == 3) && o.dataSent && !dataWaits s o
        else !cRadd img))
/-- COPY_COMMAND_COMPLETE (R279): the data is written, or the outcome stands. -/
def execCopyCommandComplete (blk seq : Nat) (s : State) : Host.Outcome State Fault Refusal :=
  if s.pkg.power then
    match (blkOf s blk).copy.cmds.find? fun c => c.seq == seq with
    | some c =>
      if copyCan s blk c then
        let img := natOfWords c.img
        match c.outcome with
        | some st => .next (settleCopy 64 (finishCopy s blk c st c.owedAcks) blk)
        | none =>
          let (s, e) :=
            if cRemote img c.xs then (s, none)
            else if cKind img = 3 then runAtom s blk img c
            else runCopy s blk c (piecesLeft img c)
          match e with
          | some (st, a) => .next (endCopy s blk seq st a 0)
          | none => .next (endCopy s blk seq .ok 0 0)
      else .next s
    | none => .next s
  else .fault .noPower

/-! ### ORDERED_REDUCTION_APPLY (R275) -/

/-- A held entry goes; the departure of a group may be complete by it (R254). -/
def dropEntry (s : State) (blk seq : Nat) : State :=
  let b := blkOf s blk
  settleGrid (setBlk s blk { b with held := b.held.filter fun e => e.seq != seq }) b.kern
/-- Adds a contribution's words in ascending address; an undefined element leaves an undefined sum. -/
def applyWords (s : State) (ws : List RaddWord) : State :=
  setFresh (ws.foldl (fun s w => homeWrite s .dev w.pa (wordBytes (match w.val with
    | some x => BitVec.ofNat 32 (fAdd fp32 (homeWord s .dev w.pa).toNat x.toNat)
    | none => Config.freeWord s.fresh w.pa))) s) (s.fresh + 1)
/-- Answers an operation of another member on its route, and keeps the answer for a duplicate (R349). -/
def sendReply (s : State) (op : Nat) (fl : Flit) : State :=
  let mine (x : Seen) : Bool := x.src == fl.dst && x.tag == op
  let p := ((s.links.seen.find? mine).map Seen.port).getD (portOf s fl.dst)
  sendOn (setLinks s { s.links with seen := s.links.seen.map fun x => if mine x then { x with reply := x.reply ++ [fl] } else x }) p fl
/-- Acknowledgements of granules, up to 14 to a flit (R345, R352); a short flit repeats its last record. -/
def ackFlits (s : State) (world ctx dst op : Nat) : Nat → List Nat → State
  | 0, _ => s
  | n + 1, ts =>
    if ts.isEmpty then s
    else
      let l := ts.take 14
      let fl : Flit := { dst := dst, src := s.hall.self, world := world, ctx := ctx, tag := op, vc := 2, kind := 11
                         pay := (l ++ List.replicate (14 - l.length) (l.getLastD 0)).flatMap fun t => bytesOfNat 8 t }
      ackFlits (sendReply s op fl) world ctx dst op n (ts.drop 14)
/-- What follows an applied contribution: its command completes, its held entry goes, or each part of it is acknowledged. -/
def contributionDone (s : State) (c : Contribution) (st : CmdStatus) (addr : Nat) : State :=
  match c.remote, c.heldSeq with
  | some (src, lead), _ =>
    let mine (d : DstOp) : Bool := d.kind == 3 && d.src == src && d.lead == lead
    let ds := s.links.dst.filter mine
    let s := setLinks s { s.links with dst := s.links.dst.filter fun d => !mine d }
    ds.foldl (fun s d => ackFlits s d.world d.ctx src d.tag (d.n + 1) ((List.range d.n).map fun i => (d.tag + i) % 2 ^ 24)) s
  | none, some h =>
    let b := blkOf s c.blk
    match b.held.find? fun e => e.seq == h with
    | some e => dropEntry (if st = .ok then s else heldError s c.blk { e with va := BitVec.ofNat 64 addr } st) c.blk h
    | none => s
  | none, none => endCopy s c.blk c.seq st addr 0
/-- The first word of a contribution, or its turn word, that its home refuses or finds in error (R279, R333). -/
def raddFault (s : State) (c : Contribution) : Option (CmdStatus × Nat) :=
  let w := (ctxOf s c.ctx).world
  (c.words ++ [c.turn]).findSome? fun x =>
    let o := ownOf s (x.pa / 65536)
    if o.world ≠ w ∨ o.key ≠ x.key then some (.owner, x.va.toNat)
    else if c.remote.isNone && eccAt s [] .dev x.pa 4 then some (.ecc, x.va.toNat)
    else none
/-- A contribution of another member to a context that is torn down here, or of a member that has left: it is discarded, and
acknowledged (R82, R352, R372). -/
def contribDead (s : State) (c : Contribution) : Bool := match c.remote with
  | some (src, lead) =>
    let x := ctxOf s c.ctx
    x.st == .free || x.st == .teardown
      || !(s.links.dst.any fun d => d.kind == 3 && d.src == src && d.lead == lead && d.world == x.world)
  | none => false
/-- Whether a contribution's turn has come, or never will. -/
def contribDue (s : State) (c : Contribution) : Bool := contribDead s c || (homeWord s .dev c.turn.pa).toNat == c.want
/-- ORDERED_REDUCTION_APPLY. -/
def execOrderedReductionApply (i : Nat) (s : State) : Host.Outcome State Fault Refusal :=
  if s.pkg.power then
    match s.links.contribs[i]? with
    | some c =>
      if contribDue s c then
        let s := setLinks s { s.links with contribs := s.links.contribs.eraseIdx i }
        if contribDead s c then .next (contributionDone s c .ok 0)
        else match raddFault s c with
        | some (st, a) => .next (contributionDone s c st a)
        | none =>
          let s := applyWords s c.words
          let s := homeWrite s .dev c.turn.pa (wordBytes (homeWord s .dev c.turn.pa + 1))
          .next (contributionDone s c .ok 0)
      else .next s
    | none => .next s
  else .fault .noPower

/-! ### HOLD_DRAIN (R128) -/

/-- The next entry to perform: in staging order, one after a release once every earlier one is performed and
acknowledged. -/
def nextHeld (b : Block) : Option HeldEntry :=
  match b.held.find? fun e => !e.sent with
  | some e => if e.release && b.held.any (fun x => x.sent && decide (x.seq < e.seq)) then none else some e
  | none => none
def markSent (s : State) (blk seq : Nat) : State :=
  let b := blkOf s blk
  setBlk s blk { b with held := b.held.map fun e => if e.seq = seq then { e with sent := true } else e }
/-- A remote held entry sets out; none names a member of the rank: PROT (R351). -/
def drainRemote (s : State) (blk : Nat) (e : HeldEntry) : State :=
  let b := blkOf s blk
  let a := e.pod.toNat
  match rankMember s b.kern (a / 2 ^ 56) with
  | none => dropEntry (heldError s blk e .prot) blk e.seq
  | some m =>
    let o : SrcOp := { dst := m, blk := blk, seq := e.cmdSeq, grp := e.grp, world := b.world, ctx := b.ctx, heldSeq := some e.seq }
    let s := markSent s blk e.seq
    match e.atomic, e.radd with
    | some (f, w64, v, c), _ => startAtom s o a f w64 v c e.ret
    | none, some (t, f) => startRadd s o a e.data t f e.base
    | none, none => startPut s o a e.data
/-- A frame that a drained write of a committed block uses is the context's for good (R129, R325). -/
def useDrained (s : State) (blk : Nat) (e : HeldEntry) : State :=
  let ctx := (blkOf s blk).ctx
  let use (s : State) (m : MemName) (a va : Nat) : State := match walk s ctx va with
    | some l => if leafMem l = m ∧ leafPa l va = a then usePage s ctx l else s
    | none => s
  if e.radd.isSome then e.words.foldl (fun s w => use s .dev w.pa w.va.toNat) s
  else if e.mem = .dev ∨ e.mem = .host then use s e.mem e.addr e.va.toNat
  else s
/-- The frame of a held entry that its world no longer owns (R333): the address it fails at. -/
def drainRefused (s : State) (blk : Nat) (e : HeldEntry) : Option Addr :=
  let bad (a key : Nat) : Bool :=
    let o := ownOf s (a / 65536)
    o.world != (blkOf s blk).world || o.key != key
  if e.radd.isSome then (e.words.find? fun w => bad w.pa w.key).map RaddWord.va
  else if e.mem = .dev ∧ bad e.addr e.key = true then some e.va
  else none
/-- A local held entry is performed at its home. -/
def drainLocal (s : State) (blk : Nat) (e : HeldEntry) : State :=
  let b := blkOf s blk
  match drainRefused s blk e with
  | some va => dropEntry (heldError s blk { e with va := va } .owner) blk e.seq
  | none =>
    let s := useDrained s blk e
    match e.atomic, e.radd with
    | some (f, w64, v, c), _ =>
      if e.mem = .host ∧ hostAtomics s b.ctx = false then dropEntry (heldError s blk e .atroute) blk e.seq
      else
        let (s, old) := atomHome s e.mem e.addr f w64 v c
        let s := dropEntry s blk e.seq
        match e.ret with
        | some r => endCopy (copyWrite s blk e.cmdSeq e.grp (.win blk) r (bytesOfNat (if w64 then 8 else 4) old.toNat)) blk e.cmdSeq .ok 0 0
        | none => s
    | none, some (_, want) => match e.words with
      | t :: ws => addContribution (markSent s blk e.seq) { words := ws, turn := t, want := want, blk := blk, seq := e.cmdSeq
                                                            heldSeq := some e.seq, ctx := b.ctx }
      | [] => dropEntry s blk e.seq
    | none, none => dropEntry (copyWrite s blk e.cmdSeq e.grp e.mem e.addr e.data) blk e.seq
/-- A get that a block of the gang started before the commit, and whose bytes are still to come, holds back the gang's drains:
it reads the gang's held writes as it lands (R126). -/
def getUnderWay (s : State) (blk : Nat) : Bool :=
  let q := (gangOf s (blkOf s blk).gang).blocks
  s.links.src.any fun o => o.kind == 1 && q.contains o.blk
/-- HOLD_DRAIN (R128): a held entry, or once every one is performed the next held effect (R126). -/
def execHoldDrain (blk : Nat) (s : State) : Host.Outcome State Fault Refusal :=
  if s.pkg.power then
    let b := blkOf s blk
    if b.spec || (gangOf s b.gang).saved || b.trapped || getUnderWay s blk then .next s
    else if b.held.isEmpty then
      match b.effects with
      | [] => .next s
      | e :: r => match performEffect (setBlk s blk { b with effects := r }) b.kern b.ctx e with
        | some s' => .next s'
        | none => .next s
    else match nextHeld b with
      | some e => .next (if e.remote then drainRemote s blk e else drainLocal s blk e)
      | none => .next s
  else .fault .noPower

end Sys2Proof.Machine
end

