-- ==== Sys2Proof/Machine/Array.lean ====
section
/-!
DEFINITION. Machine/Array.lean: the matrix sequencer and array (R291, R292): what each command computes (R293 to R298), the
undefined values of unchained and early accesses (R303), starting and completing.
-/
namespace Sys2Proof.Machine

/-! ### Conflicts (R303) -/

def chained (t u : MTouch) : Bool := t.anc.contains u.seq || u.anc.contains t.seq
/-- A command's reads of window and die scratch also observe the writes of one whose retirement its group had observed (R301
item 4): what they read so is defined. -/
def readsAfter (blk : Nat) (t u : MTouch) (sp : Nat) : Bool := decide (sp ≤ 1) && observed t.port blk u.seq
/-- The parts of two lists of spans that coincide, where a test of the space does not order them. -/
def clashes (safe : Nat → Bool) (xs ys : List Span) : List Span :=
  xs.flatMap fun x => ys.filterMap fun y =>
    let lo := max x.lo y.lo
    let hi := min (x.lo + x.n) (y.lo + y.n)
    if x.sp = y.sp ∧ lo < hi ∧ safe x.sp = false then some ⟨x.sp, lo, hi - lo⟩ else none
/-- The conflict of what one command reads with what another writes. -/
def readClash (blk : Nat) (t u : MTouch) : List Span := clashes (fun sp => chained t u || readsAfter blk t u sp) t.reads u.writes
def writeClash (t u : MTouch) : List Span := clashes (fun _ => chained t u) t.writes u.writes
/-- The commands that have run or run beside one. -/
def rivals (b : Block) (t : MTouch) : List MTouch := b.touches.filter fun u => u.seq != t.seq && u.st != 0
/-- What a command reads and an unordered one writes: undefined, with every result computed from it. -/
def taints (blk : Nat) (b : Block) (t : MTouch) : List Span := (rivals b t).flatMap (readClash blk t)
def inSpans (xs : List Span) (sp a : Nat) : Bool := xs.any fun x => x.sp == sp && decide (x.lo ≤ a) && decide (a < x.lo + x.n)
/-- What each unordered pair leaves undefined once a command has completed, with the number of the earlier one. -/
def aftermath (blk : Nat) (b : Block) (t : MTouch) : List (Nat × List Span) :=
  (rivals b t).map fun u =>
    let hit := readClash blk u t
    (min t.seq u.seq, writeClash t u ++ hit ++ readClash blk t u
      ++ (if hit.isEmpty || u.st != 2 then [] else u.writes))

/-! ### Reading operands -/

/-- How a command sees its operands: its block, what it touches, and the spans it may not rely on. -/
structure MView where
  blk : Nat
  t : MTouch
  taint : List Span
  deriving DecidableEq, Repr

def spanMem (b : Block) (blk sp : Nat) : MemName := if sp = 0 then .win blk else if sp = 1 then dieName b else .slot blk
/-- What a command's reads of scratch must observe (R301): its group's stores, what its group's port had, its predecessors. -/
def portView (v : MView) : View := { v.t.port with mobsOne := v.t.anc.map (fun q => (v.blk, q)) ++ v.t.port.mobsOne }
/-- A word of the window or die scratch as of the write that a command reads: any that R301 allows (log entry 10). -/
def portCut (s : State) (v : MView) (m : MemName) (a : Nat) : Sight :=
  let hs := hits m a 4 s.log
  let lo := floorOf v.t.grp v.t.born (portView v) hs
  pickOne s (2 ^ 64 * memKey m + a) (.cut lo :: (hs.filter fun e => decide (lo < e.1)).map fun e => .cut e.1)
/-- A byte of the window, die scratch or slots; none where it is tainted; undefined where others wrote it early (R303). -/
def mByte (s : State) (v : MView) (sp a : Nat) : Option Byte :=
  let m := spanMem (blkOf s v.blk) v.blk sp
  if inSpans v.taint sp a then none
  else if inSpans v.t.dirty sp a then some (Config.freeByte s.fresh a)
  else if sp = 2 then some (homeByte s m a)
  else some (underHeld s v.blk m a (sightByte s v.t.grp m (a / 4 * 4) 4 (portCut s v m (a / 4 * 4)) (a % 4)))
def mBytes (s : State) (v : MView) (sp a n : Nat) : Option (List Byte) := (List.range n).mapM fun i => mByte s v sp (a + i)
def mHalf (s : State) (v : MView) (sp a : Nat) : Option Nat := (mBytes s v sp a 2).map natOfBytes
def mWord (s : State) (v : MView) (sp a : Nat) : Option Word := (mBytes s v sp a 4).map wordOf
/-- A tile element; +0 where nothing wrote it. -/
def mElem (s : State) (v : MView) (tile i c : Nat) : Option Word :=
  let e := 16384 * tile + 128 * i + c
  if inSpans v.taint 3 e then none else some (Map.look (blkOf s v.blk).tiles e 0)

/-- A generator operand's value at position (r, q) (R293), as bits of the descriptor's format. -/
def mGen (s : State) (v : MView) (c : Cmd) (w g r q : Nat) : Option Nat :=
  let img := natOfWords c.img
  let d := Map.look c.gs g 0
  let b := blkOf s v.blk
  let loc := imgWord img (w + 1)
  let x := loc / 2 ^ 16 + r
  let y := loc % 2 ^ 16 + q
  let i := genRow d (if mTransposed img w then y else x)
  let j := genCol d (if mTransposed img w then x else y)
  (if genKind d = 4 then mWord s v 0 (genTable d j) else some 0).map fun f => genValue d (genKeyOf (kernOf s b.kern) b d) f i j
/-- The exact integer code of SIGN and MASK. -/
def genCode (d : BitVec 128) (bits : Nat) : Int := match fval (genFmt d) bits with
  | .fin neg m _ => if m = 0 then 0 else if neg then -1 else 1
  | _ => 0

/-! ### The kinds -/

/-- What a command writes: tile elements and bytes, none for an undefined value. -/
structure MOut where
  elems : List (Nat × Option Word) := []
  bytes : List (Nat × Nat × Option Byte) := []
  deriving DecidableEq, Repr

def cells (m : Nat) : List (Nat × Nat) := (List.range m).flatMap fun i => (List.range 128).map fun c => (i, c)
/-- MMA (R294, R67, R68). -/
def mmaOut (s : State) (v : MView) (c : Cmd) : MOut :=
  let img := natOfWords c.img
  let f := if cFn img = 0 then bf16 else fp16
  let w (i : Nat) := imgWord img i
  let tile := bitsOf (w 7) 2 0
  let a (i k : Nat) : Option Nat := match mGenSide img 3 with
    | some g => mGen s v c 3 g i k
    | none => mHalf s v 0 (4 * bitsOf (w 3) 21 0 + i * (4 * bitsOf (w 4) 15 0) + 2 * k)
  let b (k j : Nat) : Option Nat := match mGenSide img 5 with
    | some g => mGen s v c 5 g k j
    | none => mHalf s v 2 (32768 * bitsOf (w 5) 6 0 + 2 * (128 * k + j))
  let prod (i k j : Nat) : Option FVal := do
    let x ← a i k
    let y ← b k j
    pure (fMulVal (fval f x) (fval f y))
  let step (i j : Nat) (acc : Option Nat) (g : Nat) : Option Nat := do
    let x ← acc
    let ps ← (List.range 16).mapM fun k => prod i (16 * g + k) j
    pure (accAdd x ps)
  { elems := (cells (mRows img)).map fun p =>
      (16384 * tile + 128 * p.1 + p.2,
        ((List.range 8).foldl (step p.1 p.2) ((mElem s v tile p.1 p.2).map BitVec.toNat)).map (BitVec.ofNat 32)) }
/-- A reading at m planes of an element (R63): plane words from the first plane down, bit l of each. -/
def planeReading (ws : List Nat) (l : Nat) : Int :=
  sextNat ws.length (ws.foldl (fun x w => 2 * x + w / 2 ^ l % 2) 0)
/-- MMAI (R295). -/
def mmaiOut (s : State) (v : MView) (c : Cmd) : MOut :=
  let img := natOfWords c.img
  let w (i : Nat) := imgWord img i
  let nb := mCount (bitsOf (w 7) 7 6)
  let kb := bitsOf (w 6) 7 4 + 1
  let planes (n : Nat) (rd : Nat → Option Nat) : Option (List Nat) := (List.range n).mapM rd
  let qa (i t : Nat) : Option (List Int) := match mGenSide img 3 with
    | some g => (List.range 16).mapM fun l => (mGen s v c 3 g i (16 * t + l)).map (genCode (Map.look c.gs g 0))
    | none =>
      let blk := bitsOf (w 4) 15 0 + i * bitsOf (w 7) 15 8 + t
      (planes (bitsOf (w 3) 23 21 + 1) fun j => mHalf s v 0 (4 * bitsOf (w 3) 20 0 + 2 * bitsOf (w 4) 31 16 * j + 2 * blk)).map
        fun ws => (List.range 16).map (planeReading ws)
  let qb (t j : Nat) : Option (List Int) := match mGenSide img 5 with
    | some g => (List.range 16).mapM fun l => (mGen s v c 5 g (16 * t + l) j).map (genCode (Map.look c.gs g 0))
    | none =>
      let bb := (bitsOf (w 6) 3 0 + t) * 128 + j
      (planes (bitsOf (w 5) 23 21 + 1) fun p => mHalf s v 2 (32768 * bitsOf (w 5) 6 0 + 256 * kb * p + 2 * bb)).map
        fun ws => (List.range 16).map (planeReading ws)
  { elems := (List.range nb).flatMap fun t => (cells (mRows img)).map fun p =>
      (16384 * (bitsOf (w 7) 2 0 + t) + 128 * p.1 + p.2, do
        let xs ← qa p.1 t
        let ys ← qb t p.2
        pure (wordOfInt ((xs.zip ys).map fun e => e.1 * e.2).sum)) }
/-- LDST (R296). -/
def ldstOut (s : State) (v : MView) (c : Cmd) : MOut :=
  let img := natOfWords c.img
  let e := endpointAt img 3
  let at_ := 32768 * bitsOf (imgWord img 5) 6 0 + 256 * bitsOf (imgWord img 6) 6 0
  { bytes := (List.range (256 * (bitsOf (imgWord img 6) 15 8 + 1))).map fun i =>
      (2, at_ + i, mByte s v (spanSpace e) (e.off + i)) }
/-- ACCZ (R297). -/
def acczOut (c : Cmd) : MOut :=
  { elems := ((List.range 8).filter fun t => imgWord (natOfWords c.img) 7 / 2 ^ t % 2 == 1).flatMap fun t =>
      (List.range 16384).map fun e => (16384 * t + e, some 0) }
def accFmt (img : Nat) : Fmt := if cFn img = 1 then bf16 else fp16
/-- ACCRD (R297). -/
def accrdOut (s : State) (v : MView) (c : Cmd) : MOut :=
  let img := natOfWords c.img
  let e := endpointAt img 3
  let n := if cFn img = 0 then 4 else 2
  let bytes (x : Word) : List Byte :=
    if cFn img = 0 then wordBytes x else bytesOfNat 2 (rndVal (accFmt img) .rne (fval fp32 x.toNat))
  { bytes := (cells (mRows img)).flatMap fun p =>
      let x := (mElem s v (bitsOf (imgWord img 7) 2 0) (bitsOf (imgWord img 7) 14 8 + p.1) p.2).map bytes
      (List.range n).map fun i => (spanSpace e, e.off + p.1 * imgWord img 5 + n * p.2 + i, x.map fun l => byteAt l i) }
/-- ACCWR (R297). -/
def accwrOut (s : State) (v : MView) (c : Cmd) : MOut :=
  let img := natOfWords c.img
  let e := endpointAt img 3
  { elems := (cells (mRows img)).map fun p =>
      let row := e.off + p.1 * imgWord img 5
      (16384 * bitsOf (imgWord img 7) 2 0 + 128 * (bitsOf (imgWord img 7) 14 8 + p.1) + p.2,
        if cFn img = 0 then mWord s v (spanSpace e) (row + 4 * p.2)
        else (mHalf s v (spanSpace e) (row + 2 * p.2)).map fun x => BitVec.ofNat 32 (rndVal fp32 .rne (fval (accFmt img) x))) }
/-- SACCT (R298): as so many SACCs. -/
def sacctOut (s : State) (v : MView) (c : Cmd) : MOut :=
  let img := natOfWords c.img
  let w (i : Nat) := imgWord img i
  let step (p : Nat × Nat) (acc : Option Nat) (t : Nat) : Option Nat := do
    let x ← acc
    let ea ← mByte s v 0 (w 3 + p.1 * w 4 + t)
    let eb ← mByte s v 0 (w 5 + 128 * t + p.2)
    let a ← mElem s v (bitsOf (w 7) 2 0 + t) p.1 p.2
    pure (saccBits x a.toInt (ea.toNat + 256 * eb.toNat + 2 ^ 16 * bitsOf (w 6) 3 0 + 2 ^ 20 * bitsOf (w 6) 7 4))
  let td := bitsOf (w 7) 5 3
  { elems := (cells (mRows img)).map fun p =>
      (16384 * td + 128 * p.1 + p.2,
        ((List.range (mCount (bitsOf (w 7) 7 6))).foldl (step p) ((mElem s v td p.1 p.2).map BitVec.toNat)).map (BitVec.ofNat 32)) }
def matrixOut (s : State) (v : MView) (c : Cmd) : MOut :=
  match cKind (natOfWords c.img) with
  | 0 => mmaOut s v c
  | 1 => mmaiOut s v c
  | 2 => ldstOut s v c
  | 3 => acczOut c
  | 4 => accrdOut s v c
  | 5 => accwrOut s v c
  | _ => sacctOut s v c

/-! ### Starting and completing -/

/-- The first word of a command's reads with an uncorrectable error: the address of R304, a slot's number for a slot. -/
def matrixEcc (s : State) (b : Block) (blk : Nat) (t : MTouch) : Option Nat :=
  t.reads.findSome? fun x =>
    if x.sp = 3 then none
    else ((s.poison.filter fun p => p.1 == spanMem b blk x.sp && decide (x.lo < p.2 + 4) && decide (p.2 < x.lo + x.n)).map Prod.snd).min?.map
      fun a => if x.sp = 2 then a / 32768 else a
/-- Bytes in runs of consecutive places of one space. -/
def byteRuns : List (Nat × Nat × Option Byte) → List (Nat × Nat × List (Option Byte))
  | [] => []
  | e :: r => match byteRuns r with
    | (sp, a, bs) :: q => if sp = e.1 ∧ a = e.2.1 + 1 then (sp, e.2.1, e.2.2 :: bs) :: q else (e.1, e.2.1, [e.2.2]) :: (sp, a, bs) :: q
    | [] => [(e.1, e.2.1, [e.2.2])]
/-- A run of bytes that a command writes: it may spoil what other blocks' commands read (R303), and end a SLEEPW. -/
def writeRun (blk : Nat) (v : MView) (n : Nat) (s : State) (e : Nat × Nat × List (Option Byte)) : State :=
  let m := spanMem (blkOf s blk) blk e.1
  let bs := (List.range e.2.2.length).map fun i => ((e.2.2.drop i).head?.getD none).getD (Config.freeByte n (e.2.1 + i))
  let s := engineBytes s blk v.t.seq m e.2.1 bs
  let s := (s.blocks.filter fun x => x.1 != blk).foldl (disturbBlock (portView v) m e.2.1 bs.length) s
  wakeWords s m e.2.1 bs.length
/-- Writes what a command computed; none as an undefined value. -/
def writeOut (s : State) (blk : Nat) (v : MView) (o : MOut) : State :=
  let n := s.fresh
  let b := blkOf s blk
  let tiles := o.elems.foldl (fun m e => Map.put m e.1 (e.2.getD (Config.freeWord n e.1))) b.tiles
  let s := setBlk s blk { b with tiles := tiles }
  setFresh ((byteRuns o.bytes).foldl (writeRun blk v n) s) (n + 1)
/-- The tiles and slots a command has written, for the state size of R164. -/
def markUsed (t : MTouch) (b : Block) : Block :=
  let at_ (sp n : Nat) : List Nat := (t.writes.filter fun x => x.sp == sp).map fun x => x.lo / n
  { b with tilesUsed := (b.tilesUsed ++ at_ 3 16384).eraseDups, slotsUsed := (b.slotsUsed ++ at_ 2 32768).eraseDups }
def setTouch (b : Block) (seq st by_ : Nat) : Block :=
  { b with touches := b.touches.map fun t => if t.seq = seq then { t with st := st, by_ := by_ } else t }
/-- A ready entry (R291). -/
def matrixReady (b : Block) (c : Cmd) : Bool :=
  c.phase == .queued && guardRes b (cGuard (natOfWords c.img)) c.gen == some true && (predsOf b.matrix c).all cmdDone
def matrixUnit (b : Block) : Nat := if b.kmode then 384 + b.die else 8 * b.cluster + b.base
/-- The command the sequencer may start now: the lowest-numbered ready one (R291). -/
def matrixNext (s : State) (blk : Nat) : Option Cmd :=
  let b := settleMatrix (blkOf s blk)
  let q := gangOf s b.gang
  if (Map.find s.blocks blk).isSome && (q.released || b.kmode) && !q.saved && !b.trapped
      && decide ((b.matrix.cmds.filter fun x => x.phase == .started).length < 8)
      && decide (0 < budgetLeft (ctxOf s b.ctx) 4 (matrixUnit b))
  then b.matrix.cmds.find? (matrixReady b) else none
/-- MATRIX_COMMAND_START (R291). -/
def execMatrixCommandStart (blk : Nat) (s : State) : Host.Outcome State Fault Refusal :=
  if s.pkg.power then
    if (Map.find s.blocks blk).isNone then .next s
    else
      let n := matrixNext s blk
      let b := settleMatrix (blkOf s blk)
      match n with
      | some c =>
        let s := chargeBudget s b.ctx 4 (matrixUnit b) 1
        .next (setBlk s blk (setTouch { b with matrix := putCmd b.matrix { c with phase := .started } } c.seq 1 0))
      | none => .next (ringMoved (setBlk s blk b) blk)
  else .fault .noPower
/-- The effect of a started command. -/
def runMatrix (s : State) (blk : Nat) (c : Cmd) : State :=
  let b := blkOf s blk
  let t := (b.touches.find? fun t => t.seq == c.seq).getD {}
  let v : MView := { blk := blk, t := t, taint := taints blk b t }
  let ecc := matrixEcc s b blk t
  let s := match ecc with
    | some _ => freeSpans s blk t.seq t.writes
    | none => writeOut s blk v (matrixOut s v c)
  let s := (aftermath blk b t).foldl (fun s e => if e.2.isEmpty then s else freeResults 64 s blk e.1 e.2) s
  let b := markUsed t (setTouch (blkOf s blk) c.seq 2 s.log.length)
  let c := match ecc with
    | some a => { c with phase := CmdPhase.done .ecc, reported := false, errAddr := BitVec.ofNat 64 a }
    | none => { c with phase := CmdPhase.done .ok }
  ringMoved (setBlk s blk (settleMatrix { b with matrix := putCmd b.matrix c })) blk
/-- MATRIX_COMMAND_COMPLETE (R292). -/
def execMatrixCommandComplete (blk seq : Nat) (s : State) : Host.Outcome State Fault Refusal :=
  if s.pkg.power then
    match (blkOf s blk).matrix.cmds.find? fun c => c.seq == seq with
    | some c => .next (if c.phase = .started then runMatrix s blk c else s)
    | none => .next s
  else .fault .noPower

end Sys2Proof.Machine
end

