-- ==== Sys2Proof/Machine/Barrier.lean ====
section
/-!
DEFINITION. Machine/Barrier.lean: the barrier instructions (R253 to R262). Completion of phases by arrivals and
departures is settleBlock, settleGang and settleGrid of Ops.
-/
namespace Sys2Proof.Machine

def barOf (b : Block) (i : Nat) : BarSlot := Map.look b.bars i {}
def setBar (s : State) (i : Nat) (x : BarSlot) : State :=
  let b := cb s
  setCb s { b with bars := Map.put b.bars i x }

/-- Raises BARMASK in one group whose arrival a reset discards: at once where it waits on the slot, else owed (R258). -/
def barmaskIn (i : Nat) (s : State) (g : Nat) : State :=
  let x := grpOf s g
  let w := (pathOf x).wait
  if x.state == .waiting && (w == some (.barrier i) || w == some (.rearrive i)) then takeTrap s g { code := .barmask }
  else setGrp s g { x with owed := x.owed ++ [i] }
/-- A BARMASK reset of a slot (R258): its arrivals are discarded, each of their groups but the current one trapped or
owing; the current one's own trap is its instruction's. -/
def barReset (s : State) (i : Nat) (self : Bool) : State :=
  let b := cb s
  let x := barOf b i
  let s := setBar s i { x with filling := false, arrived := 0, mask := 0, join := {} }
  (b.groups.filter fun g => bitOf x.arrived (grpOf s g).index && !(self && g == s.cur)).foldl (barmaskIn i) s

/-- An arrival on a slot with a mask (R256, R257), then what follows it. -/
def arriveSlot (s : State) (i : Nat) (mask member : Mask) (after : State → Act) : Act :=
  let g := cg s
  let b := cb s
  let x := barOf b i
  let exist := existGroups s b
  if g.owed.contains i then .trapIn (setCg s { g with owed := g.owed.erase i }) { code := .barmask }
  else if !bitOf (member &&& exist) g.index then .trap { code := .barmask }
  else if bitOf x.arrived g.index then .wait s (.rearrive i)
  else if x.filling && (x.mask &&& exist) != (mask &&& exist) then .trapIn (barReset s i true) { code := .barmask }
  else
    let x' := { x with filling := true, mask := if x.filling then x.mask else mask &&& exist
                       arrived := x.arrived ||| maskOf [g.index], join := joinView x.join (coverOf s s.cur) }
    after (settleBlock (setBar s i x') g.blk)

/-- Whether the issuing path is at a word whose arrival it has already made. -/
def arrivedAlready (s : State) (i : Nat) : Bool := (cp s).wait == some (.barrier i)
/-- Barrier words raise ILLOP while the group has two arms (R260). -/
def oneArm (s : State) (k : Act) : Act := if (cg s).two then .trap { code := .illop } else k
/-- What the phases of a slot at which the issuing group arrived have for it. -/
def slotMet (s : State) (i : Nat) : View := Map.look (barOf (cb s) i).met (cg s).index {}
/-- The synchronisation of a complete phase of a slot, with the groups of the block that have ended (R254, R261). -/
def meetSlot (s : State) (i : Nat) : Act :=
  let b := (cg s).blk
  let x := barOf (cb s) i
  let w := joinView (slotMet s i) (exitView s fun r => r.blk == b)
  .done (acquire (seeView (setBar s i { x with met := Map.del x.met (cg s).index }) s.cur w) 1)
/-- A waiting arrival: BAR and BARM. -/
def arriveAndWait (s : State) (i : Nat) (mask member : Mask) : Act :=
  oneArm s <|
    if arrivedAlready s i then waitFor s (.barrier i) fun s => meetSlot s i
    else arriveSlot (releaseFence s 1) i mask member fun s => waitFor s (.barrier i) fun s => meetSlot s i

/-- BAR, BARM, ARRIVE and AWAIT (R260). -/
def execBar (st : BitVec 2) (i : BitVec 3) (s : State) : Host.Outcome State Fault Refusal :=
  issue (info (.bar st i)) s fun s =>
    let m := (barOf (cb s) i.toNat).members
    arriveAndWait s i.toNat m m
def execBarm (st : BitVec 2) (a : BitVec 5) (i : BitVec 3) (s : State) : Host.Outcome State Fault Refusal :=
  issue (info (.barm st a i)) s fun s => arriveAndWait s i.toNat (rs128 s (4 * a.toNat)) (rs128 s (4 * a.toNat))
def execArrive (st : BitVec 2) (i : BitVec 3) (s : State) : Host.Outcome State Fault Refusal :=
  issue (info (.arrive st i)) s fun s =>
    let m := (barOf (cb s) i.toNat).members
    oneArm s (arriveSlot (releaseFence s 1) i.toNat m m .done)
def execAwait (st : BitVec 2) (i : BitVec 3) (s : State) : Host.Outcome State Fault Refusal :=
  issue (info (.await st i)) s fun s =>
    let g := cg s
    oneArm s <|
      if g.owed.contains i.toNat then
        .trapIn (setCg s { g with owed := g.owed.erase i.toNat }) { code := .barmask }
      else waitFor s (.barrier i.toNat) fun s => meetSlot s i.toNat

/-- The synchronisations of the cluster and grid barriers (R261). -/
def meetGang (s : State) : Act :=
  let q := (cb s).gang
  .done (acquire (seeView s s.cur (joinView (gangOf s q).met (exitView s fun r => r.gang == q))) 2)
def meetGrid (s : State) : Act :=
  let k := (cb s).kern
  .done (acquire (seeView s s.cur (joinView (kernOf s k).met (exitView s fun r => r.kern == k))) 5)

/-- BARC (R260). -/
def execBarc (st : BitVec 2) (s : State) : Host.Outcome State Fault Refusal :=
  issue (info (.barc st)) s fun s => oneArm s <|
    if (cp s).wait == some .cluster then waitFor s .cluster meetGang
    else
      let s := releaseFence s 2
      let q := (cb s).gang
      let x := gangOf s q
      waitFor (settleGang (setGang s q { x with arrived := x.arrived ++ [s.cur], join := joinView x.join (coverOf s s.cur) }) q)
        .cluster meetGang

/-- BARG (R260): the pod release, the arrival at the group's next episode, and the wait for it. -/
def execBarg (st : BitVec 2) (s : State) : Host.Outcome State Fault Refusal :=
  issue (info (.barg st)) s fun s => oneArm s <|
    match (cp s).wait with
    | some (.grid e) => waitFor s (.grid e) meetGrid
    | _ => waitFor (releaseOnce s 5) .acks fun s =>
        let e := (cg s).bargs + 1
        let k := (cb s).kern
        let x := kernOf s k
        let s := setKern s k { x with join := joinView x.join (coverOf s s.cur) }
        waitFor (settleGrid (setCg s { cg s with bargs := e }) k) (.grid e) meetGrid

/-- BARINIT (R256, R260). -/
def execBarinit (st : BitVec 2) (a : BitVec 5) (i : BitVec 3) (s : State) : Host.Outcome State Fault Refusal :=
  issue (info (.barinit st a i)) s fun s => oneArm s <|
    let s' := if (barOf (cb s) i.toNat).filling then barReset s i.toNat false else s
    .done (setBar s' i.toNat { barOf (cb s') i.toNat with
      members := rs128 s (4 * a.toNat) &&& existGroups s' (cb s') })

/-- Whether a block has a live group (R254), and whether every live one has issued BARC. -/
def blockLive (s : State) (b : Nat) : Bool := (blkOf s b).groups.any fun g => !departed s g
def blockAtCluster (s : State) (x : Gang) (b : Nat) : Bool :=
  blockLive s b && (blkOf s b).groups.all fun g => departed s g || x.arrived.contains g
/-- The values of BARRD (R262); which arrivals and blocks are counted is log entries 32 and 77. -/
def barrdValue (s : State) (k i : Nat) : Word :=
  let b := cb s
  match k with
  | 0 =>
    let x := barOf b i
    let e := popMask (liveGroups s b &&& (if x.filling then x.mask else x.members))
    BitVec.ofNat 32 (x.phase * 2 ^ 24 + e * 2 ^ 16 + popMask x.arrived * 2 ^ 8 + popMask x.members)
  | 1 =>
    let x := gangOf s b.gang
    BitVec.ofNat 32 (x.phase * 2 ^ 24 + (x.blocks.filter (blockAtCluster s x)).length * 2 ^ 8
      + (x.blocks.filter (blockLive s)).length)
  | _ => BitVec.ofNat 32 (ck s).episode
def execBarrd (st : BitVec 2) (d : BitVec 7) (k : BitVec 2) (i : BitVec 3) (s : State) :
    Host.Outcome State Fault Refusal :=
  issue (info (.barrd st d k i)) s fun s => oneArm s (uniOut s d (barrdValue s k.toNat i.toNat))

end Sys2Proof.Machine
end

