-- ==== Sys2Proof/Machine/Control.lean ====
section
/-!
DEFINITION. Machine/Control.lean: paths, branches, ending and masks (R138 to R147), work items (R149), regions (R150
to R153), TRAP, BRK and RFT (R158, R159), and special state (R160 to R162).
-/
namespace Sys2Proof.Machine

/-- The address of the word being issued; the path already stands at the next one. -/
def wordPc (s : State) : Addr := (cp s).pc - 4
/-- The target of an SB word (R29, R141). -/
def sbTarget (s : State) (o : BitVec 18) : Addr := wordPc s + (o.signExtend 64) * 4

/-- Cached code words are kept by context and address. -/
def icKey (ctx : Nat) (a : Addr) : Nat := ctx * 2 ^ 64 + a.toNat
def loopOf (c : Core) (half : Nat) : Option LoopBuf := if half = 0 then c.loop0 else c.loop1
def setLoop (c : Core) (half : Nat) (l : Option LoopBuf) : Core :=
  if half = 0 then { c with loop0 := l } else { c with loop1 := l }
/-- Whether an address lies in a half's captured words. -/
def inLoop (b : LoopBuf) (a : Addr) : Bool := decide (b.start ≤ a.toNat) && decide (a.toNat < b.start + 4 * b.words.length)
/-- Whether some path of a half still reads the words the half has captured, so that they must stay (R148). -/
def loopInUse (s : State) (core half : Nat) (b : LoopBuf) : Bool :=
  (inLoop b (wordPc s) && (cb s).ctx == b.ctx) || s.groups.any fun e =>
    let g := e.2
    let mine (onB : Bool) : Bool := e.1 == s.cur && (g.two && g.onB) == onB
    g.core == core && g.half == half && (blkOf s g.blk).ctx == b.ctx && (g.state == .runnable || g.state == .waiting)
      && ((!mine false && inLoop b g.pathA.pc) || (g.two && !mine true && inLoop b g.pathB.pc))
/-- A taken backward SB branch of at most 63 words: the half captures the words from the target to the branch, where
the core has fetched every one of them and no path still reads what the half holds (R148, log entry 17). -/
def captureLoop (s : State) (target : Addr) : State :=
  let g := cg s
  let d := (wordPc s - target).toNat
  let core := coreOf s g.core
  let busy := (loopOf core g.half).any (loopInUse s g.core g.half)
  if d ≤ 252 ∧ busy = false then
    let ws := (List.range (d / 4 + 1)).map fun i =>
      Map.find core.icache (icKey (cb s).ctx (target + BitVec.ofNat 64 (4 * i)))
    if ws.all Option.isSome then
      setCore s g.core (setLoop core g.half (some ⟨(cb s).ctx, target.toNat, ws.filterMap id⟩))
    else s
  else s
/-- The path continues at a target. -/
def jumpTo (s : State) (a : Addr) : State := setCp s { cp s with pc := a }
def branchTo (s : State) (a : Addr) : State := jumpTo (captureLoop s a) a

/-- BRA (R141). -/
def execBra (st : BitVec 2) (p : BitVec 3) (n : BitVec 1) (o : BitVec 18) (s : State) :
    Host.Outcome State Fault Refusal :=
  issue (info (.bra st p n o)) s fun s =>
    .done (if predAny s p.toNat n then branchTo s (sbTarget s o) else s)

/-- BR's split of the issuing path (R142). -/
def splitPath (s : State) (q : Mask) (target : Addr) : Act :=
  let g := cg s
  let p := cp s
  let t := emask s &&& q
  let f := emask s &&& ~~~q
  if t == 0 then .done s
  else if f == 0 then .done (branchTo s target)
  else if !g.two && p.stack.isEmpty then
    let a : Path := { pc := target, mask := t, scope := t, stall := p.stall, rstack := p.rstack }
    let b : Path := { pc := p.pc, mask := f, scope := f, stall := p.stall, rstack := p.rstack }
    .done (setCg (captureLoop s target)
      { g with pairM := p.mask, pairS := p.scope, pathA := a, pathB := b, two := true, onB := false, lastB := true })
  else if 16 ≤ p.stack.length then .trap { code := .bound }
  else
    let e : StackEntry := { m := p.mask, s := p.scope, f := f, fpc := p.pc, second := false, cont := none }
    .done (setCp (captureLoop s target) { p with stack := e :: p.stack, mask := t, scope := t, pc := target })

/-- BR (R142). -/
def execBr (st : BitVec 2) (p : BitVec 3) (n : BitVec 1) (o : BitVec 18) (s : State) :
    Host.Outcome State Fault Refusal :=
  issue (info (.br st p n o)) s fun s => splitPath s (predNeg s p.toNat n) (sbTarget s o)

/-- merge of R143: one path again, with the pair's masks. -/
def mergePaths (g : Group) (rs : List Addr) (pc : Addr) (stall : Nat) : Group :=
  { g with two := false, onB := false, pathB := {}
           pathA := { pc := pc, mask := g.pairM &&& g.live, scope := g.pairS, stall := stall, rstack := rs } }
/-- The arm that is not issuing. -/
def otherPath (g : Group) : Path := if g.onB then g.pathA else g.pathB

/-- JOIN of R143 by the issuing path, which stands after the word. -/
def joinPath (s : State) : State :=
  let g := cg s
  let p := cp s
  match p.stack with
  | e :: rest =>
    if e.second then
      setCp s { p with stack := rest, mask := e.m &&& g.live, scope := e.s }
    else
      setCp s { p with stack := { e with cont := some p.pc, second := true } :: rest
                       mask := e.f &&& g.live, scope := e.f, pc := e.fpc }
  | [] =>
    if g.two then
      match (otherPath g).st with
      | .running => setCp s { p with st := .parked p.pc }
      | _ => setCg s (mergePaths g p.rstack p.pc p.stall)
    else s

/-- JOIN (R143). -/
def execJoin (st : BitVec 2) (s : State) : Host.Outcome State Fault Refusal :=
  issue (info (.join st)) s fun s => .done (joinPath s)

/-- JMP (R141). -/
def execJmp (st : BitVec 2) (o : BitVec 18) (s : State) : Host.Outcome State Fault Refusal :=
  issue (info (.jmp st o)) s fun s => .done (branchTo s (sbTarget s o))

/-- CALL: the address after it goes on the return stack; a 17th raises BOUND (R141, R144). -/
def execCall (st : BitVec 2) (o : BitVec 18) (s : State) : Host.Outcome State Fault Refusal :=
  issue (info (.call st o)) s fun s =>
    let p := cp s
    if 16 ≤ p.rstack.length then .trap { code := .bound }
    else .done (branchTo (setCp s { p with rstack := p.pc :: p.rstack }) (sbTarget s o))

/-- RET (R144). -/
def execRet (st : BitVec 2) (s : State) : Host.Outcome State Fault Refusal :=
  issue (info (.ret st)) s fun s =>
    let p := cp s
    match p.rstack with
    | [] => .trap { code := .bound }
    | a :: r => .done (setCp s { p with rstack := r, pc := a })

/-- A word of the service image that a kernel-mode block runs (R102). -/
def serviceWord (s : State) (a : Addr) : Option Word :=
  let i := (svcOf s (cb s).die).image
  if a.toNat + 4 ≤ i.length then some (wordOf ((i.drop a.toNat).take 4)) else none
/-- BRX: code base + sext(s[a], 32); ALIGN on a misaligned offset, and the target's fetch checks (R144, R327). -/
def execBrx (st : BitVec 2) (a : BitVec 7) (s : State) : Host.Outcome State Fault Refusal :=
  issue (info (.brx st a)) s fun s =>
    let off := rs s a.toNat
    let target := codeBase (ck s) + off.signExtend 64
    if off.toNat % 4 ≠ 0 then .trap { code := .align, addr := target }
    else if (cb s).kmode then
      if (serviceWord s target).isSome then .done (jumpTo s target) else .trap { code := .page, addr := target, hasPage := true }
    else if (Map.find (coreOf s (cg s).core).icache (icKey (cb s).ctx target)).isSome then .done (jumpTo s target)
    else
      let (l, s') := tlbLook s (cb s).ctx target.toNat
      match checkLeaf s' (cb s).world l target.toNat false false true with
      | some t => .trap { code := t, addr := target, hasPage := true }
      | none => .done (jumpTo s' target)

/-- The group ends: RETIRED, with the release of a departure (R254), and whatever waited on it settled. -/
def retireGroup (s : State) : State :=
  let s := recordRelease (performStores s s.cur) s.cur 5 1
  let g := cg s
  settleAll (setCg s { g with state := .retired, sup := false, region := none
                              pathA := { g.pathA with st := .ended, stack := [] }
                              pathB := { g.pathB with st := .ended, stack := [] } }) g.blk

/-- end_path of R145 over the path's remaining stack. -/
def endPath (s : State) : List StackEntry → State
  | e :: rest =>
    let g := cg s
    let p := cp s
    if !e.second then
      setCp s { p with stack := { e with second := true } :: rest, mask := e.f &&& g.live, scope := e.f, pc := e.fpc }
    else match e.cont with
      | none => endPath s rest
      | some a => setCp s { p with stack := rest, mask := e.m &&& g.live, scope := e.s, pc := a }
  | [] =>
    let g := cg s
    let p := cp s
    if g.two then
      match (otherPath g).st with
      | .ended => retireGroup s
      | .parked a => setCg s (mergePaths g (otherPath g).rstack a p.stall)
      | .running => setCp s { p with st := .ended, stack := [] }
    else retireGroup s

/-- EXIT (R145): the active threads end, the open region closes, supervisor mode ends with the path (R159). -/
def execExit (st : BitVec 2) (s : State) : Host.Outcome State Fault Refusal :=
  issue (info (.exit st)) s fun s =>
    let g := cg s
    let s := setCg s { g with live := g.live &&& ~~~(emask s), region := none, sup := false }
    .done (endPath s (cp s).stack)

/-- SLEEP (R147): m of the group's turns. -/
def execSleep (st : BitVec 2) (i : BitVec 15) (s : State) : Host.Outcome State Fault Refusal :=
  issue (info (.sleep st i)) s fun s =>
    match (cp s).wait with
    | some w => waitFor s w .done
    | none => waitFor s (.sleep (s.time + i.toNat)) .done

/-- SLEEPW (R147): until a window or ring-area word compares as cc states. -/
def execSleepw (st : BitVec 2) (c : BitVec 2) (a b : BitVec 7) (s : State) : Host.Outcome State Fault Refusal :=
  issue (info (.sleepw st c a b)) s fun s =>
    let x := (rs s a.toNat).toNat
    if x % 4 ≠ 0 then .trap { code := .align, addr := BitVec.ofNat 64 x }
    else if (winLoc s x 4).isNone then .trap { code := .bound, addr := BitVec.ofNat 64 x }
    else if (cp s).wait == some .wordMet then .done (acquire s 1)
    else waitFor s (.word c.toNat x (rs s b.toNat)) fun s =>
      match winLoc s x 4 with
      | some (m, y) => .done (acquire (noteRead s s.cur m y 4 .newest) 1)
      | none => .done s

/-- EMRD, EMWR and the two EMANDs (R146). -/
def execEmrd (st : BitVec 2) (d : BitVec 5) (s : State) : Host.Outcome State Fault Refusal :=
  issue (info (.emrd st d)) s fun s => .done (wsList s (4 * d.toNat) (words128 (emask s)))
def execEmwr (st : BitVec 2) (a : BitVec 5) (s : State) : Host.Outcome State Fault Refusal :=
  issue (info (.emwr st a)) s fun s =>
    let p := cp s
    .done (setCp s { p with mask := rs128 s (4 * a.toNat) &&& p.scope &&& (cg s).live })
def execEmandReg (st : BitVec 2) (a : BitVec 5) (s : State) : Host.Outcome State Fault Refusal :=
  issue (info (.emandReg st a)) s fun s =>
    let p := cp s
    .done (setCp s { p with mask := p.mask &&& rs128 s (4 * a.toNat) })
def execEmandPred (st : BitVec 2) (p : BitVec 3) (n : BitVec 1) (s : State) : Host.Outcome State Fault Refusal :=
  issue (info (.emandPred st p n)) s fun s =>
    let x := cp s
    .done (setCp s { x with mask := x.mask &&& predNeg s p.toNat n })

/-- Threads of the current group that have been at an LHEAD (R118). -/
def markHeaded (s : State) (m : Mask) : State :=
  let g := cg s
  setCg s { g with headed := g.headed ||| m }
/-- One thread's turn at a loop head (R149): it takes an item, or leaves the execute mask. -/
def takeItem (s : State) (t : Nat) : State :=
  let s := markHeaded s (maskOf [t])
  let g := cg s
  let b := cb s
  let k := b.kern
  let x := kernOf s k
  let thread := threadBase s g + t
  let s := match itemsLeft s k b with
    | e :: _ =>
      if x.mode = 2 ∧ x.diverged.contains (256 + b.logical) = false ∧ e.2.2.1 ≠ thread then setDiverged s k (256 + b.logical)
      else s
    | [] => s
  if b.qnext.ult b.qend then
    let s := setCg s { g with item := Map.put g.item t b.qnext }
    let s := setCb s { cb s with qnext := b.qnext + 1 }
    let s := if x.mode = 2 then
        let x := kernOf s k
        setKern s k { x with itemPos := Map.put x.itemPos b.logical (Map.look x.itemPos b.logical 0 + 1) }
      else s
    if x.mode = 1 then traceAppend s k 2 b.rank thread b.logical b.qnext.toNat else s
  else
    let p := cp s
    setCp s { p with mask := p.mask &&& ~~~(maskOf [t]) }

/-- LHEAD's threads in ascending order, from those not yet dealt with (R149, R118). -/
def loopHead (s : State) (handled : Mask) : List Nat → Act
  | [] => .done s
  | t :: ts =>
    if itemBlocked s (threadBase s (cg s) + t) then .wait s (.item (handled ||| BitVec.ofNat 128 (2 ^ t - 1)))
    else loopHead (takeItem s t) (handled ||| maskOf [t]) ts

/-- LHEAD (R149). -/
def execLhead (st : BitVec 2) (p : BitVec 3) (n : BitVec 1) (s : State) : Host.Outcome State Fault Refusal :=
  issue (info (.lhead st p n)) s fun s =>
    let handled : Mask := match (cp s).wait with
      | some (.item h) => h
      | _ => 0
    loopHead (markHeaded s (emask s &&& ~~~(predNeg s p.toNat n))) handled
      (threadsOf (cg s).width (emask s &&& predNeg s p.toNat n &&& ~~~handled))

/-- REGION (R150). -/
def execRegion (st : BitVec 2) (i : BitVec 8) (s : State) : Host.Outcome State Fault Refusal :=
  issue (info (.region st i)) s fun s =>
    let g := cg s
    let h := (ck s).hdr
    let index := (codeOffset (ck s) (wordPc s)).toNat / 4
    if h.nregion ≤ i.toNat ∨ (h.regions.getD i.toNat (0, 0)).1 ≠ index ∨ g.two = true ∨ (cp s).stack.isEmpty = false then
      .trap { code := .illop }
    else .done (setCg { s with nextId := s.nextId + 1 } { g with region := some { id := s.nextId, index := i.toNat, start := wordPc s, mask := emask s, live := g.live } })

/-- REGEND (R150). -/
def execRegend (st : BitVec 2) (s : State) : Host.Outcome State Fault Refusal :=
  issue (info (.regend st)) s fun s => .done (setCg s { cg s with region := none })

/-- TRAP and BRK (R158): %trappc names the word after. -/
def execTrap (st : BitVec 2) (n : BitVec 16) (s : State) : Host.Outcome State Fault Refusal :=
  issue (info (.trap st n)) s fun _ => .trap { code := .trapi, info := n, after := true }
def execBrk (st : BitVec 2) (n : BitVec 15) (s : State) : Host.Outcome State Fault Refusal :=
  issue (info (.brk st n)) s fun s =>
    if emask s == 0 then .done s
    else .trap { code := .brk, info := n.setWidth 16, threads := some (emask s), after := true }

/-- Leaving the supervisor handler (R159): the path goes on as after BRX with %trappc (R161). -/
def leaveHandler (s : State) (restart : Bool) : State :=
  let g := cg s
  let p := cp s
  let p' := { p with mask := g.trap.mask &&& g.live &&& p.scope, pc := codeBase (ck s) + g.trap.pc.signExtend 64 }
  let s' := setCg s { setPath g p' with sup := false, supArm := none }
  if restart then
    match g.region with
    | some r => regionRestart s' s'.cur r
    | none => s'
  else s'

/-- RFT (R159). -/
def execRft (st : BitVec 2) (r : BitVec 1) (s : State) : Host.Outcome State Fault Refusal :=
  issue (info (.rft st r)) s fun s => .done (leaveHandler s (r == 1))

/-- A block's place in its grid (R104); a predicted launch's grid is one row, of its true count of blocks (R121, R134). -/
def gridPlace (k : Kern) (b : Nat) : Nat × Nat × Nat :=
  if k.hdr.policy = 0 then (b % k.x, b / k.x % k.y, b / (k.x * k.y)) else (b, 0, 0)
/-- The values of special state, per thread where the name is (R120, R160); a kernel-mode group lies outside every cluster (log
entry 76). -/
def srdValue (s : State) (c t : Nat) : Word :=
  let g := cg s
  let b := cb s
  let k := ck s
  let n (x : Nat) : Word := BitVec.ofNat 32 x
  match c with
  | 0 => n t
  | 1 => n g.index
  | 2 => n g.role
  | 3 => n (gridPlace k b.logical).1
  | 4 => n (gridPlace k b.logical).2.1
  | 5 => n (gridPlace k b.logical).2.2
  | 6 => n ((shapeOf s b.kern).getD (0, 0)).1
  | 7 => ((shapeOf s b.kern).getD (0, 0)).2
  | 8 => n b.rank
  | 9 => n (k.nrank + 1)
  | 10 => n k.launch
  | 11 => n b.world
  | 12 => n b.ctx
  | 13 => lowWord k.step
  | 14 => if b.spec then 1 else 0
  | 15 => n (g.core % 96 % 8)
  | 16 => n (if g.core < 384 then g.core % 96 else 96)
  | 17 => n (if g.core < 384 then g.core / 96 else g.core - 384)
  | 18 => n s.hall.self
  | 19 => n (slotCycle s g)
  | 20 => g.cychi
  | 21 => n b.copy.done
  | 22 => n b.matrix.done
  | 23 => Map.look g.item t 0xFFFFFFFF
  | 24 => b.qnext
  | 25 => b.qend
  | _ => b.progress

/-- The acquire of a read of the shape, over what the group of its SHAPE had released (R130). -/
def acquireShape (s : State) : State :=
  let k := ck s
  let x := (shapeOf s (cb s).kern).getD (0, 0)
  acquire (seeView s s.cur (shapeView s ((cb s).ctx, k.image, x.1, x.2))) 5
/-- SRD (R160): %param and %nblock wait for the shape (R130); %cyc latches its upper half. -/
def execSrd (st : BitVec 2) (d c : BitVec 7) (l : BitVec 1) (s : State) : Host.Outcome State Fault Refusal :=
  issue (info (.srd st d c l)) s fun s =>
    let go (s : State) : Act :=
      let s' := if c == 19 then setCg s { cg s with cychi := BitVec.ofNat 32 (slotCycle s (cg s) / 2 ^ 32) } else s
      if l == 1 then .done (wv s' d.toNat (emask s) fun t => srdValue s c.toNat t)
      else .done (ws s' d.toNat (srdValue s c.toNat 0))
    if c == 6 || c == 7 then waitFor s .shape fun s => go (if (ck s).hdr.policy = 0 then s else acquireShape s) else go s

/-- SWR (R160): %qnext, %qend, and the low half of %progress. -/
def execSwr (st : BitVec 2) (a c : BitVec 7) (s : State) : Host.Outcome State Fault Refusal :=
  issue (info (.swr st a c)) s fun s =>
    let b := cb s
    let w := rs s a.toNat
    .done (setCb s (if c == 24 then { b with qnext := w } else if c == 25 then { b with qend := w }
      else { b with progress := w &&& 0xFFFF }))

/-- The supervisor state of R161. -/
def srdpValue (g : Group) (c : Nat) : Word :=
  match c with
  | 0 => g.trap.code.setWidth 32
  | 1 => g.trap.pc
  | 2 => lowWord g.trap.addr
  | 3 => highWord g.trap.addr
  | 8 => g.trap.info.setWidth 32
  | 9 => match g.region with
    | some r => BitVec.ofNat 32 (256 + r.index)
    | none => 0
  | _ => (words128 g.trap.mask).getD (c - 4) 0
def execSrdp (st : BitVec 2) (d c : BitVec 7) (s : State) : Host.Outcome State Fault Refusal :=
  issue (info (.srdp st d c)) s fun s => .done (ws s d.toNat (srdpValue (cg s) c.toNat))
/-- Word i of a mask replaced. -/
def setMaskWord (m : Mask) (i : Nat) (w : Word) : Mask :=
  (m &&& ~~~((0xFFFFFFFF#128) <<< (32 * i))) ||| ((w.setWidth 128) <<< (32 * i))
def execSwrp (st : BitVec 2) (a c : BitVec 7) (s : State) : Host.Outcome State Fault Refusal :=
  issue (info (.swrp st a c)) s fun s =>
    let g := cg s
    let w := rs s a.toNat
    let t := if c == 1 then { g.trap with pc := w &&& 0xFFFFFFFC }
      else { g.trap with mask := setMaskWord g.trap.mask (c.toNat - 4) w }
    .done (setCg s { g with trap := t })

/-- LANEID, NOP and SNOP (R162). -/
def execLaneid (st : BitVec 2) (d : BitVec 7) (s : State) : Host.Outcome State Fault Refusal :=
  issue (info (.laneid st d)) s fun s => laneOut s d fun t => BitVec.ofNat 32 t
def execNop (st : BitVec 2) (s : State) : Host.Outcome State Fault Refusal :=
  issue (info (.nop st)) s .done
def execSnop (st : BitVec 2) (s : State) : Host.Outcome State Fault Refusal :=
  issue (info (.snop st)) s .done

end Sys2Proof.Machine
end

