-- ==== Sys2Proof/Machine/Turn.lean ====
section
/-!
DEFINITION. Machine/Turn.lean: a group's turn in the barrel (R17, R18): which of its paths may issue (R38, R140), and the
fetch of that path's word (R144, R148, R248, R327).
-/
namespace Sys2Proof.Machine

/-- A path that may issue in this turn: running, its stall run out, its wait, if any, over (R38). -/
def pathReady (s : State) (onB : Bool) : Bool :=
  let g := { cg s with onB := onB }
  let p := pathOf g
  p.st == .running && p.stall == 0 && (match p.wait with
    | none => true
    | some w => waitHolds (setCg s g) w)
/-- The arms in the order of their priority; an arm that trapped stops the other one until RFT (R140). -/
def armOrder (g : Group) : List Bool :=
  if !g.two then [false] else match g.sup, g.supArm with
    | true, some b => [b]
    | _, _ => [!g.lastB, g.lastB]
/-- A turn's stall counters (R38). -/
def tickPath (p : Path) : Path := { p with stall := p.stall - 1 }
def tickGroup (g : Group) : Group := { g with pathA := tickPath g.pathA, pathB := tickPath g.pathB }
/-- The wait of a group ends (R38, R136): it is RUNNABLE once a path of it may issue. -/
def wake (g : Group) : Group := if g.state == .waiting then { g with state := .runnable } else g
/-- GROUP_WAIT_ENDS (R38, R136). -/
def execGroupWaitEnds (g : Nat) (s : State) : Host.Outcome State Fault Refusal :=
  if s.pkg.power then
    let s' := { s with cur := g }
    let x := cg s'
    if x.state == .waiting && (armOrder x).any (pathReady s') then .next (setGrp s g (wake x)) else .next s
  else .fault .noPower

/-- What a fetch comes to. -/
inductive Fetched where
  | word (s : State) (w : Word)
  | trap (s : State) (t : TrapReq)

/-- The fetch of the issuing path's word: the half's captured words, the core's cached words, or memory (R148, R248). -/
def fetchWord (s : State) : Fetched :=
  let g := cg s
  let b := cb s
  let a := (cp s).pc
  let core := coreOf s g.core
  match (loopOf core g.half).filter fun l => l.ctx == b.ctx && inLoop l a with
  | some l => .word s (l.words.getD ((a.toNat - l.start) / 4) 0)
  | none =>
    match Map.find core.icache (icKey b.ctx a) with
    | some w => .word s w
    | none =>
      if b.kmode then
        match serviceWord s a with
        | some w => .word s w
        | none => .trap s { code := .page, addr := a, hasPage := true }
      else
      let (l, s) := tlbLook s b.ctx a.toNat
      match checkLeaf s b.world l a.toNat false false true with
      | some t => .trap s { code := t, addr := a, hasPage := true }
      | none =>
        let l := l.getD {}
        let m := leafMem l
        let pa := leafPa l a.toNat
        if eccAt s [] m pa 4 then .trap s { code := .ecc, addr := a, hasPage := true }
        else
          let w := homeWord s m pa
          let s := if b.spec then s else usePage s b.ctx l
          .word (setCore s g.core { core with icache := Map.put core.icache (icKey b.ctx a) w }) w

/-- Whether a path's next word is at hand, or its fetch traps: a miss of the instruction cache keeps the path waiting for this
turn, and the other arm may issue (R12, R38). -/
def wordAtHand (s : State) (onB : Bool) : Bool :=
  let s := setCg s { cg s with onB := onB }
  let g := cg s
  let core := coreOf s g.core
  (cb s).kmode || (match fetchWord s with
    | .trap _ _ => true
    | .word _ _ => ((loopOf core g.half).filter fun l => l.ctx == (cb s).ctx && inLoop l (cp s).pc).isSome
        || (Map.find core.icache (icKey (cb s).ctx (cp s).pc)).isSome)
/-- A miss brings the word into the core's instruction cache. -/
def fillMiss (s : State) (onB : Bool) : State :=
  let b := (cg s).onB
  match fetchWord (setCg s { cg s with onB := onB }) with
  | .word s _ => setCg s { cg s with onB := b }
  | .trap _ _ => s
/-- The state in which a group stops at its turn, its issued instruction complete: its block has trapped, or is saved (R157,
R165). -/
def stopsAs (s : State) (g : Group) : Option GroupState :=
  let b := blkOf s g.blk
  if g.state != .runnable && g.state != .waiting then none
  else if b.trapped then some .trapped
  else if (gangOf s b.gang).saved then some .preempted
  else none
/-- A group's turn: the state in which its path issues, or in which no path does. -/
def beginTurn (s : State) (gid : Nat) : State × Bool :=
  let s := { s with cur := gid }
  let g := cg s
  if midway g then (s, true)
  else if let some x := stopsAs s g then (setCg s { g with state := x }, false)
  else if g.state == .runnable || g.state == .waiting then
    let ready := (armOrder g).filter (pathReady s)
    let pick := ready.find? (wordAtHand s)
    let s := (ready.takeWhile fun b => !wordAtHand s b).foldl fillMiss s
    match pick with
    | some b => (setCg s { wake (tickGroup (cg s)) with onB := b, lastB := b }, true)
    | none => (setCg s (tickGroup (cg s)), false)
  else (s, false)

/-- An open region closes when its group fetches outside it (R150), a trap handler's word among them (log entry 21). -/
def closeRegion (s : State) : State :=
  let g := cg s
  match g.region with
  | some r =>
    let e := (ck s).hdr.regions.getD r.index (0, 0)
    let i := (codeOffset (ck s) (cp s).pc).toNat / 4
    if i < e.1 ∨ e.2 ≤ i then setCg s { g with region := none } else s
  | none => s

/-- What the issuing path runs: an instruction, or the trap its fetch or its decoding takes (R30, R327). -/
def fetchInstr (s : State) : State × Sum Instr TrapReq :=
  match fetchWord (closeRegion s) with
  | .trap s t => (s, .inr t)
  | .word s w => match decodeWord w with
    | .ok i => (s, .inl i)
    | .error _ => (s, .inr { code := .illop })

end Sys2Proof.Machine
end

