-- ==== Sys2Proof/Machine/Gangs.lean ====
section
/-!
DEFINITION. Machine/Gangs.lean: the dispatcher: placing a gang on a cluster (R106 to R110, R286), releasing it (R111, R218),
retirement and FINISH (R112, R113), pre-emption (R163 to R165) and resumption (R166).
-/
namespace Sys2Proof.Machine

/-! ### Room on a core (R17, R108 to R110, R218, R286) -/

/-- The cycles of a half that resident groups own, as a set of 16. -/
def slotCycles (slot w : Nat) : List Nat := (List.range (w / 32)).map (· + slot)
def residentGroups (s : State) (core : Nat) : List (Nat × Group) :=
  s.groups.filter fun e => e.2.core == core && blockHere s e.2.blk
def busyCycles (s : State) (core half : Nat) : List Nat :=
  ((residentGroups s core).filter fun e => e.2.half == half).flatMap fun e => slotCycles e.2.slot e.2.width
/-- The lowest slot of a group of width w that is free. -/
def freeSlot (busy : List Nat) (w : Nat) : Option Nat :=
  (List.range 16).find? fun c => c % (w / 32) == 0 && decide (c + w / 32 ≤ 16) && (slotCycles c w).all fun x => !busy.contains x
/-- Slots for the groups of one half, given in descending width, each as (index, half, slot). -/
def giveSlots (half : Nat) : List (Nat × Nat) → List Nat → Option (List (Nat × Nat × Nat))
  | [], _ => some []
  | (i, w) :: r, busy => match freeSlot busy w with
    | some c => (giveSlots half r (slotCycles c w ++ busy)).map fun l => (i, half, c) :: l
    | none => none
/-- Descending width, ties in ascending index (R108). -/
def byWidth (l : List (Nat × Nat)) : List (Nat × Nat) :=
  l.filter (·.2 == 128) ++ l.filter (·.2 == 64) ++ l.filter (·.2 == 32)
/-- The bytes of core scratch and the registers that resident blocks take on a core. -/
def coresOf (h : Header) : Nat := 2 ^ h.cores
def scratchOn (h : Header) (groups : Nat) (issuing : Bool) : Nat :=
  h.winbytes / coresOf h + h.spill * groups + (if issuing then 8192 else 0)
/-- The first core of a block, as a core of the package. -/
def blockCore (k : Block) : Nat := 8 * k.cluster + k.base
def usedScratch (s : State) (core : Nat) : Nat :=
  (s.blocks.map fun e =>
    let h := (kernFor s e.2).hdr
    if e.2.kmode = false ∧ blockHere s e.1 = true ∧ blockCore e.2 ≤ core ∧ core < blockCore e.2 + coresOf h then
      scratchOn h ((coreGroups h (core - blockCore e.2)).length) (core == blockCore e.2)
    else 0).sum
def usedRegs (s : State) (core : Nat) : Nat := ((residentGroups s core).map fun e => e.2.width * 8 * e.2.allot).sum
/-- The rank that a cluster of this chip serves (R105). -/
def clusterRank (s : State) (cluster : Nat) : Nat := (Map.look s.hall.repl.place (48 * s.hall.self + cluster) {}).rank
/-- Whether a kernel's constant bank is on a core, or has room there (R218). -/
def bankFits (s : State) (core k constlen : Nat) : Bool :=
  let banks := (coreOf s core).banks
  (Map.find banks k).isSome ||
    decide ((banks.map fun e => (kernAt s e.1 (clusterRank s (core / 8))).hdr.constlen).sum + constlen ≤ 262144)
/-- The slots of a block's groups on its core rank r, where they fit. -/
def fitCore (s : State) (k : Nat) (h : Header) (first r : Nat) : Option (List (Nat × Nat × Nat)) :=
  let core := first + r
  let gs := coreGroups h r
  let hs := assignHalves (gs.map Prod.snd) 0 0
  let half (n : Nat) : List (Nat × Nat) := byWidth (((gs.zip hs).filter fun e => e.2 == n).map fun e => (e.1.1, widthOf e.1.2.2.width))
  let issuingTaken := s.blocks.any fun e => blockHere s e.1 && blockCore e.2 == core && !e.2.kmode
  if 131072 < usedRegs s core + (gs.map fun e => widthOf e.2.2.width * 8 * e.2.2.regs).sum
      ∨ 32 < (residentGroups s core).length + gs.length
      ∨ 786432 < usedScratch s core + scratchOn h gs.length (r == 0)
      ∨ bankFits s core k h.constlen = false ∨ (r = 0 ∧ issuingTaken = true) then none
  else match giveSlots 0 (half 0) (busyCycles s core 0), giveSlots 1 (half 1) (busyCycles s core 1) with
    | some a, some b => some (a ++ b)
    | _, _ => none
/-- The places of a block's groups on its cores: (index, core, half, slot). -/
def fitBlock (s : State) (k : Nat) (h : Header) (first : Nat) : Option (List (Nat × Nat × Nat × Nat)) :=
  (List.range (coresOf h)).foldl (fun acc r => match acc, fitCore s k h first r with
    | some l, some x => some (l ++ x.map fun e => (e.1, first + r, e.2))
    | _, _ => none) (some [])
def fitBlocks (s : State) (k : Nat) (h : Header) (first : Nat) : List Nat → Option (List (List (Nat × Nat × Nat × Nat)))
  | [] => some []
  | j :: js => match fitBlock s k h (first + j * coresOf h), fitBlocks s k h first js with
    | some x, some l => some (x :: l)
    | _, _ => none
/-- The lowest base at which the blocks of a gang, given by their numbers in it, fit on a cluster (R107), with the
places of each. -/
def fitGang (s : State) (k : Nat) (h : Header) (cluster : Nat) (js : List Nat) :
    Option (Nat × List (List (Nat × Nat × Nat × Nat))) :=
  (List.range (if h.window = 1 then 1 else 8)).findSome? fun i =>
    let base := i * coresOf h
    if base + h.gang * coresOf h ≤ 8 then (fitBlocks s k h (8 * cluster + base) js).map fun l => (base, l) else none

/-! ### Placing a gang (R104 to R108) -/

/-- The count of logical blocks that a kernel's gangs are cut to: N, L before the shape is known, T after (R104, R123, R131). -/
def blockLimit (s : State) (k : Nat) : Nat :=
  let x := kernOf s k
  match Map.find s.hall.repl.kernels k with
  | some r => match r.resolved with
    | some t => t.1
    | none => if fieldAt r.pay0 21 1 / 8 % 2 = 1 then r.launched else x.x * x.y * x.z
  | none => x.x * x.y * x.z
/-- The logical blocks of a gang. -/
def gangBlocks (s : State) (k r q : Nat) : List Nat :=
  let n := (kernAt s k r).hdr.gang
  (List.range n).map (· + q * n) |>.filter fun b => decide (b < blockLimit s k)
/-- Whether a gang starts speculative (R125). -/
def gangSpec (s : State) (k rank q : Nat) : Bool :=
  match Map.find s.hall.repl.kernels k with
  | some r => fieldAt r.pay0 21 1 / 8 % 2 == 1 && r.resolved.isNone && decide ((kernOf s k).x < (q + 1) * (kernAt s k rank).hdr.gang)
  | none => false
/-- The clusters of this chip whose rows name a rank, in partitions of its context (R105). -/
def rankClusters (s : State) (k r : Nat) : List Nat :=
  let parts := (ctxOf s (kernOf s k).ctx).parts
  (List.range 48).filter fun c =>
    let p := Map.look s.hall.repl.place (48 * s.hall.self + c) {}
    p.kernel == k && p.rank == r && (Map.find s.hall.repl.place (48 * s.hall.self + c)).isSome && parts.getLsbD (c / 2)
/-- A rank fails as under a fatal trap before any block of the gang is released (R52, R218); a read that failed names its page. -/
def failRank (s : State) (k r part : Nat) (t : TrapCode) (page : Option Nat) : State :=
  let x := kernOf s k
  let s := setKern s k { x with dead := true, killed := true, todo := [] }
  let s := routeRecord s (trapNum t)
    { partition := part, severity := 3, kind := 1, ctx := x.ctx, world := x.world, launch := x.launch, trap := trapNum t
      page := page }
  postEvent s { kind := 5, ctx := x.ctx, world := x.world, kernel := k
                pay := payOf [BitVec.ofNat 8 r, BitVec.ofNat 8 (trapNum t)] }
/-- The image as this chip reads it when it first distributes a gang of a rank (R52). -/
def readKernel (s : State) (k r : Nat) : State :=
  let x := kernOf s k
  let h := readHeader s x.ctx x.image
  setKern s k { x with hdr := h, hdrs := Map.put x.hdrs r h, read := x.read ++ [r], mode := modeOf (h.flags % 4) (ctxOf s x.ctx).mode }
/-- The gangs that a rank's DISPATCH entries list, in their order, while a REPLAY follows them (R118). -/
def listedGangs (s : State) (k r : Nat) : Option (List Nat) :=
  let x := kernOf s k
  if x.mode = 2 ∧ x.diverged.contains r = false then
    some (((traceEntries s k).filter fun e => e.1 == 1 && e.2.1 == r).map fun e => e.2.2.2.1)
  else none
/-- The place of a gang in its rank's distribution order (R106, R118). -/
def orderOf (s : State) (k r q : Nat) : Nat := match listedGangs s k r with
  | some l => (l.findIdx? (· == q)).getD (l.length + q)
  | none => q
/-- Whether a gang may still join those to be distributed once the shape of its launch is known (R131). -/
def tailGang (s : State) (k r q : Nat) : Bool :=
  !shapeKnown s k && (rankGangs (kernRow s k) r).contains q && decide (blockLimit s k ≤ q * (kernAt s k r).hdr.gang)
/-- The next gang of a rank in its distribution order, and the state after looking it up; one that may still come holds back
those listed after it (R106, R117, R118). -/
def nextGang (s : State) (k r : Nat) : Option (Nat × State) :=
  let x := kernOf s k
  let todo := Map.look x.todo r []
  match todo with
  | [] => none
  | first :: _ => match listedGangs s k r with
    | some l =>
      let pos := Map.look x.next r 0
      match (l.drop pos).findIdx? fun q => todo.contains q || tailGang s k r q with
      | some i =>
        let q := (l.drop pos).getD i 0
        if todo.contains q then some (q, setKern s k { x with next := Map.put x.next r (pos + i + 1) }) else none
      | none => some (first, setDiverged s k r)
    | none => some (first, s)
/-- Whether a gang of the rank that comes earlier in the distribution order waits to be placed again, and so holds this one back
(R106, R166). -/
def heldBack (s : State) (k r q : Nat) : Bool :=
  let before (p : Nat) : Bool := decide (orderOf s k r p < orderOf s k r q)
  (s.gangs.any fun e => e.2.kern == k && e.2.rank == r && e.2.saved && before e.2.index)
    || (Map.look (kernOf s k).todo r []).any before
/-- The records of a gang's blocks and groups, not yet released. -/
def newGroups (blk : Nat) (h : Header) (first : Nat) (places : List (Nat × Nat × Nat × Nat)) : List (Nat × Group) :=
  let gs := blockGroups h
  (List.range gs.length).map fun i =>
    let r := gs.getD i (0, {})
    let p := ((places.find? fun e => e.1 == i).map Prod.snd).getD (0, 0, 0)
    (first + i, { blk := blk, index := i, role := r.1, width := widthOf r.2.width, allot := r.2.regs, core := p.1
                  half := p.2.1, slot := p.2.2, entry := BitVec.ofNat 64 (4 * r.2.entry) })
/-- Adds one block of a gang. -/
def addBlock (s : State) (b : Block) (h : Header) (places : List (Nat × Nat × Nat × Nat)) : State :=
  let id := s.nextId
  let past := endedView s
  let gs := (newGroups id h (id + 1) places).map fun e => (e.1, { e.2 with past := past })
  let all := fullMask gs.length
  let b := { b with groups := gs.map Prod.fst, bars := (List.range 8).map fun i => (i, { members := all }) }
  let s := { s with nextId := id + 1 + gs.length, groups := gs.foldl (fun m e => Map.put m e.1 e.2) s.groups }
  let q := gangOf s b.gang
  setGang (setBlk s id b) b.gang { q with blocks := q.blocks ++ [id] }
def addBlocks (h : Header) : State → List (Block × List (Nat × Nat × Nat × Nat)) → State
  | s, [] => s
  | s, e :: es => addBlocks h (addBlock s e.1 h e.2) es
/-- A gang takes its place on a cluster: every allocation at one moment (R106). -/
def placeGang (s : State) (k r q cluster base : Nat) (places : List (List (Nat × Nat × Nat × Nat))) : State :=
  let x := kernOf s k
  let h := (kernAt s k r).hdr
  let bs := gangBlocks s k r q
  let id := s.nextId
  let s := setGang { s with nextId := id + 1 } id { kern := k, rank := r, index := q, cluster := cluster }
  let mk (j : Nat) : Block :=
    { kern := k, gang := id, logical := bs.getD j 0, rank := r, ctx := x.ctx, world := x.world, part := cluster / 2
      die := cluster / 12, cluster := cluster, base := base + j * coresOf h, spec := gangSpec s k r q }
  let s := addBlocks h s ((List.range bs.length).map fun j => (mk j, places.getD j []))
  let x := kernOf s k
  let s := setKern s k { x with todo := Map.put x.todo r ((Map.look x.todo r []).erase q)
                                openBlocks := Map.put x.openBlocks r (Map.look x.openBlocks r 0 + bs.length) }
  if x.mode = 1 then traceAppend s k 1 r 0 q 0 else s
/-- Whether the dispatcher distributes blocks of a kernel: it lives and its context is not suspended (R82, R366). -/
def distributes (s : State) (k : Nat) : Bool :=
  let x := kernOf s k
  !x.dead && (ctxOf s x.ctx).st == .sealed && (ctxOf s x.ctx).suspendFn.isNone && !(Map.look s.hall.repl.ctxs x.ctx {}).suspended
/-- Where the blocks of a gang of a rank fit: the lowest cluster that serves it, the base, and the places (R106, R107). -/
def gangFit (s : State) (k r : Nat) (js : List Nat) : Option (Nat × Nat × List (List (Nat × Nat × Nat × Nat))) :=
  (rankClusters s k r).findSome? fun c => (fitGang s k (kernAt s k r).hdr c js).map fun f => (c, f)
/-- Places the next gang of a rank on the lowest cluster it fits on; it waits where there is none, or behind a saved gang
(R106). -/
def tryPlace (s : State) (k r : Nat) : State :=
  match nextGang s k r with
  | none => s
  | some (q, s') =>
    if heldBack s' k r q then s
    else match gangFit s' k r (List.range (gangBlocks s' k r q).length) with
      | some (c, base, places) => placeGang s' k r q c base places
      | none => s
/-- Whether a kernel is distributed before another (R90). -/
def outranks (s : State) (k j : Nat) : Bool :=
  decide (kernPrio s j < kernPrio s k) || (kernPrio s j == kernPrio s k && decide (k < j))
/-- Whether a rank's next gang has room now. -/
def mayPlace (s : State) (k r : Nat) : Bool := match nextGang s k r with
  | none => false
  | some (q, s') => (kernOf s k).read.contains r && !heldBack s' k r q
      && (gangFit s' k r (List.range (gangBlocks s' k r q).length)).isSome
/-- A saved gang that may be placed again: quiet, and next of its rank (R106, R165, R166). -/
def mayResume (s : State) (q : Gang) : Bool :=
  q.saved && distributes s q.kern && q.blocks.all (blockQuiet s) && !heldBack s q.kern q.rank q.index
/-- A block's number in its gang (R107). -/
def gangPos (s : State) (b : Nat) : Nat :=
  let k := blkOf s b
  k.logical - (gangOf s k.gang).index * (kernFor s k).hdr.gang
/-- Where a saved gang fits. -/
def resumeFit (s : State) (q : Gang) : Option (Nat × Nat × List (List (Nat × Nat × Nat × Nat))) :=
  gangFit s q.kern q.rank (q.blocks.map (gangPos s))
/-- Whether a kernel has a gang of a rank that waits to be placed, new or saved, and has room now. -/
def hasNext (s : State) (k r : Nat) : Bool :=
  mayPlace s k r || s.gangs.any fun e => e.2.kern == k && e.2.rank == r && mayResume s e.2 && (resumeFit s e.2).isSome
/-- The ranks of a kernel with gangs that wait to be placed. -/
def ranksToPlace (s : State) (k : Nat) : List Nat :=
  ((((kernOf s k).todo.filter fun t => !t.2.isEmpty).map Prod.fst)
    ++ (s.gangs.filter fun e => e.2.kern == k && e.2.saved).map fun e => e.2.rank).eraseDups
/-- Whether blocks of a kernel that goes first wait for a partition of a rank, and have room (R90, R166). -/
def outranked (s : State) (k r : Nat) : Bool :=
  let parts (k r : Nat) : List Nat := (rankClusters s k r).map (· / 2)
  s.kerns.any fun e => outranks s e.1 k && distributes s e.1 && (ranksToPlace s e.1).any fun t =>
    (parts e.1 t).any (parts k r).contains && hasNext s e.1 t
/-- GANG_PLACE (R106). -/
def execGangPlace (kern rank : Nat) (s : State) : Host.Outcome State Fault Refusal :=
  if s.pkg.power then
    let s := dropBanks s
    if distributes s kern && !(Map.look (kernOf s kern).todo rank []).isEmpty && !outranked s kern rank then
      if (kernOf s kern).read.contains rank then .next (tryPlace s kern rank)
      else
        let x := kernOf s kern
        match rankClusters s kern rank with
        | [] => .next s
        | c :: _ =>
          if refuseCode s x.ctx x.image ≠ 0 then .next (failRank s kern rank (c / 2) .illop none)
          else .next (tryPlace (readKernel s kern rank) kern rank)
    else .next s
  else .fault .noPower

/-! ### Release (R111, R218) -/

/-- The first error of a read of a context's memory by the dispatcher, and its address (R218). -/
def readError (s : State) (ctx va n : Nat) : Option (TrapCode × Nat) :=
  (List.range (n / 65536 + 2)).findSome? fun i =>
    let a := if i = 0 then va else (va / 65536 + i) * 65536
    if va + n ≤ a then none
    else
      let l := walk s ctx a
      ((checkLeaf s (ctxOf s ctx).world l a true false false).or
        (match l with
          | some l => if eccAt s [] (leafMem l) (leafPa l a) (min (65536 - a % 65536) (va + n - a)) then some .ecc else none
          | none => none)).map fun t => (t, a)
/-- Fills a core's constant store with a kernel's bank, where it does not hold it. -/
def fillBank (k : Nat) (s : State) (core : Nat) : State :=
  let x := kernAt s k (clusterRank s (core / 8))
  let c := coreOf s core
  if (Map.find c.banks k).isSome ∨ x.hdr.constlen = 0 then s
  else
    let bank := writeBytes [] 0 (vaRead s x.ctx (x.image + x.hdr.constoff) x.hdr.constlen)
    setCore s core { c with banks := Map.put c.banks k bank }
def gangCores (s : State) (q : Nat) : List Nat :=
  ((gangOf s q).blocks.flatMap fun b => (List.range (coresOf (kernAt s (gangOf s q).kern (gangOf s q).rank).hdr)).map (· + blockCore (blkOf s b)))
/-- The release state of a group (R111). -/
def releasedGroup (k : Kern) (g : Group) : Group :=
  let m := fullMask g.width
  { g with state := .runnable, live := m
           pathA := { pc := codeBase k + g.entry, mask := m, scope := m }
           s := (List.range 8).filterMap fun i => if k.args.getD i 0 = 0 then none else some (i, k.args.getD i 0) }
/-- The block window at release: the data section, then zero. -/
def releaseBlock (s : State) (b : Nat) : State :=
  let k := blkOf s b
  let x := kernFor s k
  let data := vaRead s x.ctx (x.image + x.hdr.dataoff) x.hdr.datalen
  let s := setBlk s b { k with win := writeBytes [] 0 data, released := s.time }
  { s with groups := s.groups.map fun e => if k.groups.contains e.1 then (e.1, releasedGroup x e.2) else e }
/-- Why a gang's bank cannot be read, where a core it is on does not hold it (R218). -/
def bankError (s : State) (q : Nat) : Option (TrapCode × Nat) :=
  let x := kernAt s (gangOf s q).kern (gangOf s q).rank
  if (gangCores s q).any fun c => (Map.find (coreOf s c).banks (gangOf s q).kern).isNone then
    readError s x.ctx (x.image + x.hdr.constoff) x.hdr.constlen
  else none
/-- Why a gang's bank or data cannot be read. -/
def gangError (s : State) (q : Nat) : Option (TrapCode × Nat) :=
  let x := kernAt s (gangOf s q).kern (gangOf s q).rank
  (bankError s q).or (readError s x.ctx (x.image + x.hdr.dataoff) x.hdr.datalen)
/-- GANG_RELEASE (R111). -/
def execGangRelease (gang : Nat) (s : State) : Host.Outcome State Fault Refusal :=
  if s.pkg.power then
    let q := gangOf s gang
    if (Map.find s.gangs gang).isNone || q.released || q.saved then .next s
    else
      let s := dropBanks s
      match gangError s gang with
      | some (t, a) =>
        let p := q.cluster / 2
        .next (failRank (removeAll s q.blocks) q.kern q.rank p t (some a))
      | none =>
        let s := (gangCores s gang).foldl (fillBank q.kern) s
        .next (setGang (q.blocks.foldl releaseBlock s) gang { q with released := true })
  else .fault .noPower

/-! ### Retirement (R112, R113) -/

/-- Every condition of R112. -/
def canRetire (s : State) (b : Nat) : Bool :=
  let k := blkOf s b
  (Map.find s.blocks b).isSome && !k.kmode && (gangOf s k.gang).released && !k.spec && !k.trapped
    && k.groups.all (fun g => (grpOf s g).state == .retired && (grpOf s g).ack == 0)
    && k.copy.cmds.all cmdDone && k.copy.done == k.copy.tail && k.matrix.cmds.all cmdDone && k.matrix.done == k.matrix.tail
    && k.held.isEmpty && k.effects.isEmpty && !(s.links.src.any fun o => o.blk == b)
/-- Whether a rank of this chip is finished: nothing left to distribute, no block left, its shape known (R113, R122). -/
def rankDone (s : State) (k r : Nat) : Bool :=
  let x := kernOf s k
  !x.dead && !x.finished.contains r && (Map.look x.todo r []).isEmpty
    && !(s.blocks.any fun e => e.2.kern == k && e.2.rank == r)
    && match Map.find s.hall.repl.kernels k with
      | some row => fieldAt row.pay0 21 1 / 8 % 2 == 0 || row.resolved.isSome
      | none => false
/-- Posts FINISH for a rank that is done (R113), with its step request (R316). -/
def finishRank (s : State) (k r : Nat) : State :=
  if rankDone s k r then
    let x := kernOf s k
    postEvent (setKern s k { x with finished := x.finished ++ [r] })
      { kind := 2, ctx := x.ctx, world := x.world, kernel := k
        pay := payOf [BitVec.ofNat 8 r, if x.reqs.contains r then 1 else 0] }
  else s
/-- The release of a block that ends, over what its engines have written in scratch (R113). -/
def retireRelease (s : State) (b : Nat) : State :=
  let k := blkOf s b
  let w : View := { saw := pickWrites (fun e => e.cmd.isSome && e.agent == b) s.log }
  { s with rels := s.rels ++ [{ agent := b, blk := b, gang := k.gang, kern := k.kern, core := 8 * k.cluster + k.base, scope := 5
                                at_ := s.log.length, view := w, why := 3 }] }
/-- BLOCK_RETIRE (R112). -/
def execBlockRetire (blk : Nat) (s : State) : Host.Outcome State Fault Refusal :=
  if s.pkg.power then
    if canRetire s blk then
      let k := blkOf s blk
      let x := kernOf s k.kern
      let s := setKern s k.kern { x with reqs := if k.stepReq then x.reqs ++ [k.rank] else x.reqs }
      .next (finishRank (removeBlock (retireRelease s blk) blk) k.kern k.rank)
    else .next s
  else .fault .noPower

/-! ### Pre-emption (R163 to R165) -/

inductive Method where
  | drain | save | blockFlush | regionFlush
  deriving DecidableEq, Repr

/-- The state size of a block (R164). -/
def stateSize (s : State) (b : Nat) : Nat :=
  let k := blkOf s b
  let h := (kernFor s k).hdr
  (k.groups.map fun g => (grpOf s g).width * 8 * (grpOf s g).allot * 4 + 512).sum + h.winbytes + h.spill * k.groups.length
    + 65536 * k.tilesUsed.length + 32768 * k.slotsUsed.length + 4096
/-- The bytes of the registers in a group's written set. -/
def writtenBytes (g : Group) : Nat := match g.region with
  | some r => (r.written.map fun x => match x with
    | .v _ => 4 * g.width
    | .s _ => 4
    | _ => 0).sum
  | none => 0
def listMax (l : List Nat) : Nat := l.foldl max 0
/-- The latency estimate of a method for a gang; none where it is unbounded. -/
def estimate (s : State) (q : Gang) : Method → Option Nat
  | .drain => (q.blocks.map fun b =>
      let k := blkOf s b
      let e := 16 * (s.time - k.released)
      let g := k.progress.toNat % 65536
      if g = 0 then none else some (e * (65536 - g) / g)).foldl (fun a x => match a, x with
        | some a, some x => some (max a x)
        | _, _ => none) (some 0)
  | .save => some (64 + ceilDiv (listMax (q.blocks.map (stateSize s))) 1024)
  | .blockFlush => some 64
  | .regionFlush => some (64 + ceilDiv (listMax (q.blocks.map fun b =>
      stateSize s b - ((blkOf s b).groups.map fun g => writtenBytes (grpOf s g)).sum)) 1024)
/-- The allowed methods in the order of R163; a TRAPPED group bars the flushes, which R136 does not give it (log entry 37). -/
def methods (s : State) (q : Gang) : List Method :=
  let idem := (kernAt s q.kern q.rank).hdr.flags / 4 % 2 == 1
  let every (p : Group → Bool) : Bool := q.blocks.all fun b => (blkOf s b).groups.all fun g => p (grpOf s g)
  [.drain, .save] ++ (if !every (fun g => g.state != .trapped) then []
    else if idem then [.blockFlush] else if every (fun g => g.region.isSome) then [.regionFlush] else [])
def within (bound : Nat) (e : Option Nat) : Bool := match e with
  | some n => decide (n ≤ bound)
  | none => false
def smaller (s : State) (q : Gang) (a b : Method) : Method := match estimate s q a, estimate s q b with
  | some x, some y => if y < x then b else a
  | none, some _ => b
  | _, none => a
/-- The method the device takes (R163). -/
def chooseMethod (s : State) (q : Gang) (bound : Nat) : Method :=
  let ms := methods s q
  (ms.find? fun m => within bound (estimate s q m)).getD (ms.foldl (smaller s q) .drain)
/-- Groups of a saved block stop, one between two passes once it has made them (R41); under a region flush, the commands of their
open regions go (R165). -/
def saveGroup (g : Group) : Group :=
  if (g.state = .runnable ∨ g.state = .waiting) ∧ midway g = false then { g with state := .preempted } else g
def keepsCmd (s : State) (c : Cmd) : Bool :=
  c.phase != .queued || c.region.isNone || c.region != ((grpOf s c.grp).region.map OpenRegion.id)
/-- Ordered reductions of a saved block that still wait for their turn go back to their ring (R275, log entry 31). -/
def withdraw (s : State) (b : Nat) : State :=
  let mine (c : Contribution) : Bool := c.blk == b && c.remote.isNone
  let cs := s.links.contribs.filter mine
  let k := blkOf s b
  let cmd (c : Cmd) : Cmd := if cs.any fun x => x.heldSeq.isNone && x.seq == c.seq then { c with phase := .queued } else c
  let entry (e : HeldEntry) : HeldEntry := if cs.any fun x => x.heldSeq == some e.seq then { e with sent := false } else e
  let s := setLinks s { s.links with contribs := s.links.contribs.filter fun c => !mine c }
  setBlk s b { k with copy := { k.copy with cmds := k.copy.cmds.map cmd }, held := k.held.map entry }
def saveBlock (region : Bool) (s : State) (b : Nat) : State :=
  let s := withdraw ((blkOf s b).groups.foldl performStores s) b
  let s := (blkOf s b).groups.foldl (fun s g => setGrp s g (saveGroup (grpOf s g))) s
  if region then
    let k := blkOf s b
    let drop (r : Ring) : Ring := settleRing { r with cmds := (r.cmds.map fun c =>
      if keepsCmd s c then c else { c with phase := .done .discarded }) }
    let gone := (k.copy.cmds.filter fun c => !keepsCmd s c).flatMap Cmd.chunks
    let s := (k.copy.cmds.filter fun c => !keepsCmd s c).foldl (fun s c =>
      setGrp s c.grp { grpOf s c.grp with ack := (grpOf s c.grp).ack - c.owedAcks }) s
    setBlk s b (countChunks { blkOf s b with copy := drop k.copy, matrix := drop k.matrix } gone false)
  else s
/-- A gang takes its place among those that wait. -/
def insertGang (q : Nat) : List Nat → List Nat
  | [] => [q]
  | x :: r => if q < x then q :: x :: r else x :: insertGang q r
/-- A block-flushed gang is discarded, and waits to be released again with every block of it (R165, R166, log entry 31). -/
def flushGang (s : State) (q : Gang) : State :=
  let x := kernOf s q.kern
  let mine := gangBlocks s q.kern q.rank q.index
  let s := setKern s q.kern { x with todo := Map.put x.todo q.rank (insertGang q.index (Map.look x.todo q.rank []))
                                     next := Map.del x.next q.rank, itemPos := x.itemPos.filter fun e => !mine.contains e.1 }
  removeAll s q.blocks
/-- Pre-empts one gang under a bound. A gang not yet released has nothing to save; one that is saved can only be flushed; one that
drains takes the method that the new bound asks for (R136, R163). -/
def preemptGang (bound : Nat) (s : State) (id : Nat) : State :=
  let q := gangOf s id
  if (Map.find s.gangs id).isNone then s
  else if q.released = false then flushGang s q
  else if q.saved then (if chooseMethod s q bound = .blockFlush then flushGang s q else s)
  else match chooseMethod s q bound with
    | .drain => setGang s id { q with draining := true }
    | .save => setGang (q.blocks.foldl (saveBlock false) s) id { q with saved := true, draining := false }
    | .blockFlush => flushGang s q
    | .regionFlush => setGang (q.blocks.foldl (saveBlock true) s) id { q with saved := true, regionFlushed := true, draining := false }
/-- The gangs of a context on this chip. -/
def gangsOf (s : State) (ctx : Nat) : List Nat :=
  (s.gangs.filter fun e => (kernOf s e.2.kern).ctx == ctx && !(e.2.blocks.any fun b => (blkOf s b).kmode)).map Prod.fst
def preemptCtx (s : State) (ctx bound : Nat) : State := (gangsOf s ctx).foldl (preemptGang bound) s
/-- The gangs that hold a block of a set; a gang is pre-empted as one unit. -/
def gangsWith (s : State) (blocks : List Nat) : List Nat :=
  (s.gangs.filter fun e => e.2.blocks.any fun b => blocks.contains b && !(blkOf s b).kmode).map Prod.fst
/-- PREEMPT (R163): a request of the active wing, which names blocks. -/
def execPreempt (blocks : List Nat) (bound : Nat) (s : State) : Host.Outcome State Fault Refusal :=
  if s.pkg.power then .next ((gangsWith s blocks).foldl (preemptGang bound) s) else .fault .noPower

/-! ### Resumption (R166) -/

/-- A path re-issues its SLEEP, and its SLEEPW reads its word again (R147, R166); another waiting instruction goes on where it
was. -/
def reissue (p : Path) : Path := match p.wait with
  | some (.sleep _) | some (.word _ _ _) | some .wordMet => { p with wait := none }
  | _ => p
/-- A group takes its new place, and its old state again. -/
def resumeGroup (places : List (Nat × Nat × Nat × Nat)) (g : Group) : Group :=
  let p := ((places.find? fun e => e.1 == g.index).map Prod.snd).getD (g.core, g.half, g.slot)
  let g := { g with core := p.1, half := p.2.1, slot := p.2.2, pend := [] }
  if g.state = .preempted then
    let g := { g with pathA := reissue g.pathA, pathB := reissue g.pathB }
    { g with state := if anyWait g then .waiting else .runnable }
  else g
def resumeBlock (cluster base : Nat) (s : State) (e : Nat × List (Nat × Nat × Nat × Nat)) : State :=
  let k := blkOf s e.1
  let s := setBlk s e.1 { k with cluster := cluster, base := base, part := cluster / 2, die := cluster / 12 }
  { s with groups := s.groups.map fun g => if k.groups.contains g.1 then (g.1, resumeGroup e.2 g.2) else g }
/-- The pre-empted groups of a region-flushed gang continue by region restart (R153, R166). -/
def restartGroups (s : State) (gs : List Nat) : State :=
  gs.foldl (fun s g => match (grpOf s g).region with
    | some r => regionRestart s g r
    | none => s) s
/-- A saved gang is placed again and goes on. -/
def resumeGang (s : State) (id : Nat) (cluster base : Nat) (places : List (List (Nat × Nat × Nat × Nat))) : State :=
  let q := gangOf s id
  let c := coresOf (kernAt s q.kern q.rank).hdr
  let stopped := (q.blocks.flatMap fun b => (blkOf s b).groups).filter fun g => (grpOf s g).state == .preempted
  let s := (q.blocks.zip places).foldl (fun s e => resumeBlock cluster (base + gangPos s e.1 * c) s e) s
  let s := setGang s id { q with saved := false, regionFlushed := false, cluster := cluster }
  let s := if q.regionFlushed then restartGroups s stopped else s
  if (kernOf s q.kern).mode = 1 then traceAppend s q.kern 1 q.rank 0 q.index 0 else s
/-- GANG_RESUME (R166). -/
def execGangResume (gang : Nat) (s : State) : Host.Outcome State Fault Refusal :=
  if s.pkg.power then
    let s := dropBanks s
    let q := gangOf s gang
    if mayResume s q && !outranked s q.kern q.rank then
      match resumeFit s q with
      | some (c, base, places) =>
        let s' := resumeGang s gang c base places
        match bankError s' gang with
        | some (t, a) => .next (failRank s q.kern q.rank (c / 2) t (some a))
        | none => .next ((gangCores s' gang).foldl (fillBank q.kern) s')
      | none => .next s
    else .next s
  else .fault .noPower

end Sys2Proof.Machine
end

