-- ==== Sys2Proof/Machine/Service.lean ====
section
/-!
DEFINITION. Machine/Service.lean: service calls: SVC (R99), SVCTAKE (R101, R102), SVCDONE (R103).
-/
namespace Sys2Proof.Machine

/-- The batch of an SVC: four words for every active thread, in thread order (R99). -/
def batchOf (s : State) (d : Nat) (n : Nat) : Batch :=
  let g := cg s
  { id := s.nextId, call := n, threads := emask s, grp := s.cur, width := g.width
    args := (List.range g.width).flatMap fun t => (List.range 4).map fun i => if bitOf (emask s) t then rv s (d + i) t else 0 }
/-- SVC (R99). -/
def execSvc (st : BitVec 2) (d : BitVec 5) (n : BitVec 15) (s : State) : Host.Outcome State Fault Refusal :=
  issue (info (.svc st d n)) s fun s =>
    let r := 4 * d.toNat
    let m := emask s
    if m == 0 then .done s
    else match (cp s).wait with
      | some (.answer i) =>
        match Map.find (cg s).answered i with
        | none => .wait s (.answer i)
        | some (status, vs) =>
          let s := setCg s { cg s with answered := Map.del (cg s).answered i }
          if status = 0 then
            .done (wv (wv s r m fun t => lowWord (vs.getD t 0)) (r + 1) m fun t => highWord (vs.getD t 0))
          else .trapIn s { code := .svcfail }
      | _ => inTurn s fun s =>
        let x := batchOf s r n.toNat
        let go (s : State) : Act := .wait { s with nextId := s.nextId + 1 } (.answer s.nextId)
        if (cb s).spec then go (holdEffect s (.svc x))
        else waitFor s (.callRing n.toNat) fun s => go (appendBatch s (cb s).ctx (cb s).part x)

def widthCode (w : Nat) : Nat := if w = 32 then 0 else if w = 64 then 1 else 2
/-- The eight registers of a taken batch (R102). -/
def batchWords (x : Batch) (ctx world part i : Nat) : List Word :=
  [ BitVec.ofNat 32 (2 ^ 31 + i), BitVec.ofNat 32 (x.call + widthCode x.width * 2 ^ 16 + x.retry * 2 ^ 20),
    BitVec.ofNat 32 (ctx + world * 2 ^ 16 + part * 2 ^ 24), BitVec.ofNat 32 (4096 * i) ] ++ words128 x.threads
/-- Takes the batch that take() chooses into a free area (R101, R102). -/
def takeInto (s : State) (die : Nat) : Option (State × List Word) :=
  match takeBatch s die, freeArea (svcOf s die) with
  | some (ctx, credit, pos), some i =>
    let v := svcOf s die
    let c := ctxOf s ctx
    match Map.look c.calls v.part [] with
    | x :: rest =>
      let s := setCtx s ctx { c with calls := Map.put c.calls v.part rest }
      let s := (threadsOf x.width x.threads).foldl (fun s t =>
        homeWrite s (.die (24 + die)) (4096 * i + 16 * t) (wordsBytes ((x.args.drop (4 * t)).take 4))) s
      let a : Area := { ctx := ctx, part := v.part, batch := x, start := slotCycle s (cg s) }
      some (setSvc s die { v with credit := credit, pos := pos, areas := Map.put v.areas i a }
           , batchWords x ctx c.world v.part i)
    | [] => none
  | _, _ => none
/-- A take() that returns none has given every ring its credit again (R101). -/
def noBatch (s : State) (die : Nat) : State :=
  let v := svcOf s die
  if (freeArea v).isSome then setSvc s die { v with credit := fullCredit s } else s
/-- SVCTAKE (R102). -/
def execSvctake (st : BitVec 2) (d : BitVec 4) (w : BitVec 1) (s : State) : Host.Outcome State Fault Refusal :=
  issue (info (.svctake st d w)) s fun s =>
    match takeInto s (cb s).die with
    | some (s, ws) => .done (wsList s (8 * d.toNat) ws)
    | none =>
      let s := noBatch s (cb s).die
      if w == 1 then .wait s .batchToTake else .done (ws s (8 * d.toNat) 0)

/-- SVCDONE (R103): the answers, read as the kernel-mode group sees its area. -/
def answerBatch (s : State) (die i : Nat) (a : Area) (status : Nat) : State :=
  let vs := (List.range a.batch.width).map fun t => dwordOf (loadBytes s (.die (24 + die)) (4096 * i + 2048 + 8 * t) 8)
  let v := svcOf s die
  let s := setSvc s die { v with areas := Map.del v.areas i }
  let s := chargeBudget s a.ctx 2 die (slotCycle s (cg s) - a.start)
  if (ctxOf s a.ctx).st = .teardown ∨ (Map.find s.groups a.batch.grp).isNone = true then s
  else
    let g := grpOf s a.batch.grp
    setGrp s a.batch.grp { g with answered := Map.put g.answered a.batch.id (status, vs) }
def execSvcdone (st : BitVec 2) (a b : BitVec 7) (s : State) : Host.Outcome State Fault Refusal :=
  issue (info (.svcdone st a b)) s fun s =>
    let h := (rs s a.toNat).toNat
    let die := (cb s).die
    match (if 2 ^ 31 ≤ h ∧ h < 2 ^ 31 + 32 then Map.find (svcOf s die).areas (h - 2 ^ 31) else none) with
    | some x => .done (answerBatch s die (h - 2 ^ 31) x (rs s b.toNat).toNat)
    | none => .done s

end Sys2Proof.Machine
end

