-- ==== Sys2Proof/Machine/Queue.lean ====
section
/-!
DEFINITION. Machine/Queue.lean: the queues of a context: notifications (R83, R84), starting and completing commands (R85 to
R88), graphs (R89), completion records (R93), and the slices of a service core (R100).
-/
namespace Sys2Proof.Machine

/-! ### A queue and its page (R83, R84) -/

def stateCode : QState → Nat
  | .off => 0 | .ready => 1 | .running => 2 | .stalled => 3 | .halted => 4
/-- A context's lowest partition here: its engine runs the COPY commands (R85), and class records name it (R388). -/
def lowPart (s : State) (ctx : Nat) : Nat := ((List.range 24).find? fun p => (ctxOf s ctx).parts.getLsbD p).getD 0
/-- A record of an interrupt class (R383, R386, R388). -/
def raiseClass (s : State) (ctx cls unit severity : Nat) : State :=
  routeRecord s cls { partition := lowPart s ctx, unit := unit, severity := severity, kind := 2, ctx := ctx
                      world := (ctxOf s ctx).world, trap := cls }
/-- Sets a queue, and the fields of the page that the device writes; entering HALTED raises QHALT (R383). -/
def putQueue (s : State) (ctx q : Nat) (x : Queue) : State :=
  let a := 0x400 + 64 * q
  let s := if x.st = .halted ∧ (queueOf s ctx q).st ≠ .halted then raiseClass s ctx 0x20 8 0 else s
  let s := setQueue s ctx q x
  let s := pageWrite s ctx (a + 0x18) 8 x.head
  let s := pageWrite s ctx (a + 0x20) 8 x.done
  let s := pageWrite s ctx (a + 0x28) 4 (stateCode x.st + 2 ^ 16 * x.err)
  pageWrite s ctx (a + 0x30) 8 x.errSeq
/-- A failed command or a bad tail halts a queue that is not OFF (R84, R88). -/
def haltQueue (x : Queue) (err seq : Nat) : Queue :=
  if x.st = .off then x else { x with st := .halted, met := false, err := err, errSeq := seq }
def badTail (x : Queue) : Bool := decide (x.tail < x.head) || decide (2 ^ (x.n + 4) < x.tail - x.done)
/-- RUNNING with nothing left is READY; READY with a command is RUNNING. -/
def restQueue (x : Queue) : Queue :=
  if x.st = .running ∧ x.done = x.tail then { x with st := .ready }
  else if x.st = .ready ∧ x.head < x.tail then { x with st := .running }
  else x
/-- Posts PRIO (R91). -/
def postPrio (s : State) (ctx q p : Nat) : State :=
  postEvent s { kind := 10, ctx := ctx, world := (ctxOf s ctx).world
                pay := payOf [BitVec.ofNat 8 q, BitVec.ofNat 8 p, BitVec.ofNat 8 s.hall.self] }
/-- The queue takes its page's priority (R91). -/
def takePrio (s : State) (ctx q prio : Nat) (x : Queue) : State :=
  let s := putQueue s ctx q { x with prio := prio }
  if prio = x.prio then s else postPrio s ctx q prio
/-- What a notification of a queue does in a SEALED context (R84). A queue enabled again from OFF starts with no error (log
entry 57); a STALLED queue takes its tail and priority and stays STALLED, and a HALTED one only a tail out of bounds and the
priority (log entry 69). -/
def actNotify (s : State) (ctx q : Nat) : State :=
  let s := setCtx s ctx { ctxOf s ctx with svcw := pageRead s ctx 8 4 % 16 }
  let a := 0x400 + 64 * q
  let cfg := pageRead s ctx (a + 8) 4
  let x := queueOf s ctx q
  if cfg / 256 % 2 = 0 then
    if x.st = .off then s
    else takePrio s ctx q (cfg / 16 % 8) { x with closing := true, enable := false }
  else if x.closing then putQueue s ctx q { x with latched := true }
  else
    let x := if x.st = .off then
        let h := pageRead s ctx (a + 0x18) 8
        { x with st := QState.ready, base := BitVec.ofNat 64 (pageRead s ctx a 8), n := cfg % 16, fed := cfg / 128 % 2 == 1
                 enable := true, head := h, done := h, err := 0, errSeq := 0, met := false, cmds := [] }
      else x
    let x := { x with tail := if x.fed then x.tail else pageRead s ctx (a + 0x10) 8 }
    takePrio s ctx q (cfg / 16 % 8) (if badTail x then haltQueue x 5 x.head else restQueue x)
/-- NOTIFY: a write to a function's notification register (R83, R355). -/
def notifyCtx (s : State) (f slot : Nat) : Option Nat :=
  (s.ctxs.find? fun e => e.2.fn == f && e.2.slot == slot && e.2.st != .free).map Prod.fst
def latchQueue (s : State) (ctx q : Nat) : State := setQueue s ctx q { queueOf s ctx q with latched := true }
def execNotify (f slot : Nat) (val : Word) (s : State) : Host.Outcome State Fault Refusal :=
  if s.pkg.power then
    if s.pkg.update.isSome || s.pkg.noWing then .next (setPkg s { s.pkg with waitingNotes := s.pkg.waitingNotes ++ [(f, slot, val)] })
    else match notifyCtx s f slot with
    | some ctx =>
      if 16 ≤ val.toNat then .next s
      else match (ctxOf s ctx).st with
        | .sealed => .next (actNotify s ctx val.toNat)
        | .assembling | .suspended => .next (latchQueue s ctx val.toNat)
        | _ => .next s
    | none => .next s
  else .fault .noPower
/-- Acts on what was latched (R83). -/
def actLatched (s : State) (ctx : Nat) : State :=
  (List.range 16).foldl (fun s q =>
    let x := queueOf s ctx q
    if x.latched then actNotify (setQueue s ctx q { x with latched := false }) ctx q else s) s

/-! ### Outcomes (R87, R88, R93) -/

/-- A command of a queue has its outcome: its record, if any, waits for its ring; a failure halts the queue. -/
def outCmd (s : State) (ctx q seq e : Nat) : State :=
  let x := queueOf s ctx q
  match x.cmds.find? fun r => r.seq == seq && r.out.isNone with
  | none => s
  | some r =>
    let img := natOfWords r.img
    let r' : RunCmd := { r with out := some e, recorded := !qRec img }
    let x := { x with cmds := x.cmds.map fun y => if y.seq = seq then r' else y }
    let s := putQueue s ctx q (if e = 0 then x else haltQueue x e seq)
    if qRec img then
      queueRecord s ctx { ring := qRing img, words := recordWords false false 0 q e (qTag img) seq, src := some (.cmd ctx q seq) }
    else s
def setNode (g : Graph) (i : Nat) (n : Node) : Graph := { g with list := setAt g.list i n }
def nodeOf (s : State) (ctx slot i : Nat) : Node := (graphOf s ctx slot).list.getD i {}
/-- The nodes of a failed graph that still run tell it nothing more; their launches keep what their records need (R93). -/
def detachNodes (s : State) (ctx slot : Nat) : State :=
  let mine (r : Option CmdRef) : Bool := match r with
    | some (.node c m _) => c == ctx && m == slot
    | _ => false
  let free (l : Launcher) : Launcher := match l.ref with
    | some (.node c m i) =>
      let n := nodeOf s ctx slot i
      let img := natOfWords n.img
      if c = ctx ∧ m = slot then { l with ref := none, node := some (i, (graphOf s ctx slot).seq), record := qRec img
                                          ring := qRing img, tag := qTag img }
      else l
    | _ => l
  let s := setHall s { s.hall with posted := s.hall.posted.map free, origins := s.hall.origins.map fun e => (e.1, free e.2) }
  let c := ctxOf s ctx
  setCtx s ctx { c with records := c.records.map fun r => if mine r.src then { r with src := none } else r }
/-- The started WAITs of a graph: they go on when it fails (R87, log entry 45). -/
def startedWaits (g : Graph) (slot i : Nat) : List OldWait :=
  ((List.range g.list.length).filter fun j =>
    let n := g.list.getD j {}
    j != i && n.st == 1 && n.out.isNone && qKind (natOfWords n.img) == 3).map fun j =>
      { slot := slot, index := j, queue := g.queue, seq := g.seq, node := g.list.getD j {} }
/-- A graph node has its outcome; a failure fails the whole graph (R89). -/
def outNode (s : State) (ctx slot i e : Nat) : State :=
  let g := graphOf s ctx slot
  let n := g.list.getD i {}
  if n.st ≠ 1 ∨ n.out.isSome = true then s
  else
    let img := natOfWords n.img
    let g' := setNode g i { n with out := some e, recorded := !qRec img }
    let s := if e = 0 then setGraph s ctx slot g'
      else
        let s := detachNodes s ctx slot
        let c := ctxOf s ctx
        let s := setCtx s ctx { c with oldWaits := c.oldWaits ++ startedWaits g slot i }
        setGraph s ctx slot { g' with running := false, inRun := false, list := [] }
    let s := if qRec img then
        queueRecord s ctx { ring := qRing img, words := recordWords false true i g.queue e (qTag img) g.seq, src := if e = 0 then some (.node ctx slot i) else none }
      else s
    if e = 0 then s else outCmd s ctx g.queue g.seq e
def outcome (s : State) (c : CmdRef) (e : Nat) : State := match c with
  | .cmd ctx q seq => outCmd s ctx q seq e
  | .node ctx slot i => outNode s ctx slot i e

/-! ### Starting (R86, R89) -/

def cmdImg (s : State) (ctx q seq : Nat) : Nat :=
  let x := queueOf s ctx q
  natOfBytes (vaRead s ctx (x.base.toNat + 64 * (seq % 2 ^ (x.n + 4))) 64)
/-- The event that starts a command: one per kind, LAUNCH_CMD for an image of no kind. -/
def startKind (node : Bool) (k : Nat) : Nat :=
  if node then (if (1 ≤ k ∧ k ≤ 4) ∨ k = 6 then k else 1) else if 1 ≤ k ∧ k ≤ 5 then k else 1
/-- Whether a COPY's budget and the bias of its frames let it start (R79, R334). -/
def copyOpen (s : State) (ctx img : Nat) : Bool :=
  let n := bitsOf img 231 192
  let held (va : Nat) : Bool := (List.range (n / 65536 + 2)).any fun i => match vaMem s ctx (va + 65536 * i) with
    | some (.dev, a) => decide (2 ≤ (ownOf s (a / 65536)).bias) && decide (65536 * i < n + va % 65536)
    | _ => false
  decide (0 < budgetLeft (ctxOf s ctx) 0 (lowPart s ctx)) && !held (bitsOf img 127 64) && !held (bitsOf img 191 128)
/-- Whether a queue's next command may start, apart from an unsatisfied WAIT (R84, R86). -/
def canStart (s : State) (ctx q : Nat) : Bool :=
  let x := queueOf s ctx q
  let img := cmdImg s ctx q x.head
  (x.st == .running || x.st == .stalled) && (ctxOf s ctx).st == .sealed && (ctxOf s ctx).suspendFn.isNone && !x.closing && decide (x.head < x.tail)
    && decide ((x.cmds.filter fun r => !r.fin).length < 64)
    && (x.done == x.head || !(qFence img || qKind img == 4))
    && (qKind img != 2 || copyOpen s ctx img)
/-- Whether a node may start: each predecessor it names completed or skipped (R89). -/
def predDone (g : Graph) (p : Nat) : Bool := p == 255 || decide (2 ≤ (g.list.getD p {}).st)
def nodeReady (s : State) (ctx slot i : Nat) : Bool :=
  let g := graphOf s ctx slot
  let n := g.list.getD i {}
  let img := natOfWords n.img
  g.running && g.inRun && decide (i < g.list.length) && n.st == 0 && (ctxOf s ctx).st == .sealed
    && (ctxOf s ctx).suspendFn.isNone && predDone g (bitsOf img 23 16) && predDone g (bitsOf img 31 24) && (qKind img != 2 || copyOpen s ctx img)
/-- Whether a WAIT's word satisfies its condition (R85). -/
def waitOk (s : State) (ctx img : Nat) : Bool :=
  let w := natOfBytes (vaRead s ctx (bitsOf img 127 64) 8)
  let v := bitsOf img 191 128
  match bitsOf img 194 192 with
  | 0 => w == v
  | 1 => w != v
  | 2 => decide (v ≤ w)
  | _ => decide (w < v)
/-- Starts a command of one kind: counted as started, checked, then its effect (R87). -/
def startCmd (s : State) (c : CmdRef) (kind : Nat) (body : State → Nat → Nat → State) : State :=
  match c with
  | .cmd ctx q seq =>
    let x := queueOf s ctx q
    let img := cmdImg s ctx q seq
    if canStart s ctx q = false ∨ x.head ≠ seq ∨ startKind false (qKind img) ≠ kind then s
    else
      let e := commandError s ctx false img (qKind img == 5 && (graphOf s ctx (bitsOf img 163 160)).running)
      if e = 0 ∧ kind = 3 ∧ waitOk s ctx img = false ∧ x.met = false then putQueue s ctx q { x with st := .stalled }
      else
        let s := putQueue s ctx q { x with st := .running, met := false, head := seq + 1, cmds := x.cmds ++ [{ seq := seq, img := imageWords img }] }
        if e = 0 then body s ctx img else outCmd s ctx q seq e
  | .node ctx slot i =>
    let g := graphOf s ctx slot
    let n := g.list.getD i {}
    let img := natOfWords n.img
    if nodeReady s ctx slot i = false ∨ startKind true (qKind img) ≠ kind then s
    else
      let s := setGraph s ctx slot (setNode g i { n with st := 1 })
      match commandError s ctx true img false with
      | 0 => body s ctx img
      | e => outNode s ctx slot i e
/-- The queue and sequence number that a command counts under (R91, R361). -/
def homeQueue (s : State) (c : CmdRef) : Nat × Nat := match c with
  | .cmd _ q seq => (q, seq)
  | .node ctx slot _ => ((graphOf s ctx slot).queue, (graphOf s ctx slot).seq)

/-- LAUNCH (R85): its SUBMIT is posted. -/
def execLaunchCmd (c : CmdRef) (s : State) : Host.Outcome State Fault Refusal :=
  if s.pkg.power then
    .next (startCmd s c 1 fun s ctx img =>
      let (q, seq) := homeQueue s c
      postSubmit s { ref := some c, ctx := ctx, queue := q } img (Map.look (ctxOf s ctx).queues q {}).prio seq)
  else .fault .noPower
/-- The bytes of one granule of a COPY: undefined where the ranges overlap or the source holds an error. -/
def copyGranule (s0 : State) (ctx src dst n : Nat) (s : State) (i : Nat) : State :=
  match vaMem s0 ctx (dst + 64 * i) with
  | none => s
  | some (m, a) =>
    let byte (j : Nat) : Byte :=
      let d := dst + 64 * i + j
      match vaMem s0 ctx (src + 64 * i + j) with
      | some (ms, as_) =>
        if (src ≤ d ∧ d < src + n) ∨ eccAt s0 [] ms as_ 1 = true then Config.freeByte s0.fresh d else homeByte s0 ms as_
      | none => Config.freeByte s0.fresh d
    homeWrite s m a ((List.range 64).map byte)
/-- COPY (R85). -/
def execCopy (c : CmdRef) (s : State) : Host.Outcome State Fault Refusal :=
  if s.pkg.power then
    .next (startCmd s c 2 fun s ctx img =>
      let n := bitsOf img 231 192
      let s := chargeBudget (setFresh s (s.fresh + 1)) ctx 0 (lowPart s ctx) n
      let s := (List.range (n / 64)).foldl (copyGranule s ctx (bitsOf img 127 64) (bitsOf img 191 128) n) s
      outcome s c 0)
  else .fault .noPower
/-- WAIT (R85): a node that is not satisfied stays started. -/
def execWait (c : CmdRef) (s : State) : Host.Outcome State Fault Refusal :=
  if s.pkg.power then
    .next (startCmd s c 3 fun s ctx img => match c with
      | .cmd _ _ _ => outcome s c 0
      | .node _ _ _ => if waitOk s ctx img then outcome s c 0 else s)
  else .fault .noPower
/-- A WAIT node of a graph that has failed, and whose word has satisfied it. -/
def oldReady (s : State) (ctx slot i : Nat) : Option OldWait :=
  (ctxOf s ctx).oldWaits.find? fun x => x.slot == slot && x.index == i && (x.node.met || waitOk s ctx (natOfWords x.node.img))
/-- It completes: its record, if it asks for one, is all that tells (R87, R93). -/
def endOldWait (s : State) (ctx : Nat) (x : OldWait) : State :=
  let img := natOfWords x.node.img
  let c := ctxOf s ctx
  let s := setCtx s ctx { c with oldWaits := c.oldWaits.erase x }
  if qRec img then
    queueRecord s ctx { ring := qRing img, words := recordWords false true x.index x.queue 0 (qTag img) x.seq, src := none }
  else s
/-- WAIT_REEVALUATE (R84, R85). -/
def execWaitReevaluate (c : CmdRef) (s : State) : Host.Outcome State Fault Refusal :=
  if s.pkg.power then
    match c with
    | .cmd ctx q seq =>
      let x := queueOf s ctx q
      if x.st = .stalled ∧ x.head = seq ∧ canStart s ctx q = true ∧ qKind (cmdImg s ctx q seq) = 3 then
        .next (startCmd s c 3 fun s _ _ => outcome s c 0)
      else .next s
    | .node ctx slot i =>
      let n := nodeOf s ctx slot i
      let img := natOfWords n.img
      if n.st = 1 ∧ n.out = none ∧ qKind img = 3 ∧ (waitOk s ctx img = true ∨ n.met = true) then .next (outNode s ctx slot i 0)
      else match oldReady s ctx slot i with
        | some x => .next (endOldWait s ctx x)
        | none => .next s
  else .fault .noPower
/-- SIGNAL (R85): one 8-byte access. -/
def execSignal (c : CmdRef) (s : State) : Host.Outcome State Fault Refusal :=
  if s.pkg.power then
    .next (startCmd s c 4 fun s ctx img =>
      let a := bitsOf img 127 64
      let old := natOfBytes (vaRead s ctx a 8)
      let v := bitsOf img 191 128
      let new := if bitsOf img 193 192 = 1 then (old + v) % 2 ^ 64 else v
      let s := match vaMem s ctx a with
        | some (m, p) => homeWrite s m p (bytesOfNat 8 new)
        | none => s
      outcome s c 0)
  else .fault .noPower
/-- After a write, the word of every WAIT that has not been satisfied is evaluated again (R85). -/
def metNode (s : State) (ctx : Nat) (n : Node) : Node :=
  let img := natOfWords n.img
  if n.st == 1 && n.out.isNone && qKind img == 3 && !n.met && waitOk s ctx img then { n with met := true } else n
def metQueue (s : State) (ctx : Nat) (e : Nat × Queue) : Nat × Queue :=
  let img := cmdImg s ctx e.1 e.2.head
  if e.2.st == .stalled && !e.2.met && qKind img == 3 && waitOk s ctx img then (e.1, { e.2 with met := true }) else e
def metWaits (s : State) : State :=
  { s with ctxs := s.ctxs.map fun e => (e.1, { e.2 with
      queues := e.2.queues.map (metQueue s e.1)
      oldWaits := e.2.oldWaits.map fun x => { x with node := metNode s e.1 x.node }
      graphs := e.2.graphs.map fun g => (g.1, { g.2 with list := g.2.list.map (metNode s e.1) }) }) }
/-- GRAPH (R85, R89): the slot takes its run limit and its condition registers. -/
def execGraph (c : CmdRef) (s : State) : Host.Outcome State Fault Refusal :=
  if s.pkg.power then
    .next (startCmd s c 5 fun s ctx img =>
      let (q, seq) := homeQueue s c
      let m := bitsOf img 163 160
      let s := setGraph s ctx m { running := true, queue := q, seq := seq, array := BitVec.ofNat 64 (bitsOf img 127 64)
                                  nodes := bitsOf img 135 128 + 1, limit := bitsOf img 151 136 }
      (List.range 8).foldl (fun s i => setCond s ctx m i (BitVec.ofNat 32 (bitsOf img (152 + i) (152 + i)))) s)
  else .fault .noPower
/-- GRAPH_RUN_START (R89): every node image is read again; a predecessor must come before its node. -/
def execGraphRunStart (ctx slot : Nat) (s : State) : Host.Outcome State Fault Refusal :=
  if s.pkg.power then
    let g := graphOf s ctx slot
    if g.running && !g.inRun && (ctxOf s ctx).st == .sealed && (ctxOf s ctx).suspendFn.isNone then
      let imgs := (List.range g.nodes).map fun i => natOfBytes (vaRead s ctx (g.array.toNat + 64 * i) 64)
      let good (i img : Nat) : Bool :=
        (bitsOf img 23 16 == 255 || decide (bitsOf img 23 16 < i)) && (bitsOf img 31 24 == 255 || decide (bitsOf img 31 24 < i))
      if (List.range g.nodes).all fun i => good i (imgs.getD i 0) then
        .next (setGraph s ctx slot { g with inRun := true, list := imgs.map fun i => { img := imageWords i } })
      else .next (outCmd (setGraph s ctx slot { g with running := false }) ctx g.queue g.seq 6)
    else .next s
  else .fault .noPower
/-- COND (R89). -/
def execCond (c : CmdRef) (s : State) : Host.Outcome State Fault Refusal :=
  if s.pkg.power then
    .next (startCmd s c 6 fun s ctx img =>
      match c with
      | .node _ slot i =>
        let g := graphOf s ctx slot
        let v := Map.look g.c (bitsOf img 66 64) 0
        let holds := if bitsOf img 67 67 = 1 then v == 0 else v != 0
        outNode (setGraph s ctx slot (setNode g i { g.list.getD i {} with condFalse := !holds })) ctx slot i 0
      | .cmd _ _ _ => s)
  else .fault .noPower

/-! ### Completion -/

/-- QDONE advances over leading completed commands. -/
def advanceQueue : Nat → Queue → Queue
  | 0, x => x
  | n + 1, x => match x.cmds.find? fun r => r.seq == x.done with
    | some r => if r.fin ∧ r.out = some 0 then
        advanceQueue n { x with done := x.done + 1, cmds := x.cmds.filter fun y => y.seq != r.seq }
      else x
    | none => x
/-- The nodes that depend on one, directly or through others (R89); predecessors come before their nodes. -/
def dependants (g : Graph) (i : Nat) : List Nat :=
  (List.range g.list.length).foldl (fun l j =>
    let img := natOfWords (g.list.getD j {}).img
    if l.contains (bitsOf img 23 16) || l.contains (bitsOf img 31 24) then l ++ [j] else l) [i]
/-- A node completes; a COND that was false skips its dependants. -/
def endNode (g : Graph) (i : Nat) : Graph :=
  let n := g.list.getD i {}
  let g' := setNode g i { n with st := 2 }
  if n.condFalse then
    ((dependants g i).filter (· ≠ i)).foldl (fun g j => setNode g j { g.list.getD j {} with st := 3 }) g'
  else g'
/-- The end of a run: another one, or the graph's completion (R89). -/
def settleRun (s : State) (ctx slot : Nat) : State :=
  let g := graphOf s ctx slot
  if g.running && g.inRun && g.list.all fun n => decide (2 ≤ n.st) then
    let more := decide (g.runs + 1 < g.limit) && !(g.list.any fun n => n.condFalse)
    let s := setGraph s ctx slot { g with inRun := false, runs := g.runs + 1, running := more, list := [] }
    if more then s else outCmd s ctx g.queue g.seq 0
  else s
/-- COMMAND_COMPLETE (R84, R89, R93): once its record is written, a command counts as completed. -/
def execCommandComplete (c : CmdRef) (s : State) : Host.Outcome State Fault Refusal :=
  if s.pkg.power then
    match c with
    | .cmd ctx q seq =>
      let x := queueOf s ctx q
      match x.cmds.find? fun r => r.seq == seq && r.out.isSome && r.recorded && !r.fin with
      | some r =>
        let cmds := x.cmds.map fun y => if y.seq = seq then { r with fin := true } else y
        .next (putQueue s ctx q (restQueue (advanceQueue cmds.length { x with cmds := cmds })))
      | none => .next s
    | .node ctx slot i =>
      let n := nodeOf s ctx slot i
      if n.st = 1 ∧ n.out.isSome = true ∧ n.recorded = true then
        .next (settleRun (setGraph s ctx slot (endNode (graphOf s ctx slot) i)) ctx slot)
      else .next s
  else .fault .noPower
/-- QUEUE_OFF (R84). -/
def execQueueOff (ctx q : Nat) (s : State) : Host.Outcome State Fault Refusal :=
  if s.pkg.power then
    let x := queueOf s ctx q
    if x.closing && x.cmds.all fun r => r.fin then
      let s := putQueue s ctx q { x with st := .off, closing := false, met := false, cmds := [] }
      if x.latched = true ∧ (ctxOf s ctx).st = .sealed then
        .next (actNotify (setQueue s ctx q { queueOf s ctx q with latched := false }) ctx q)
      else .next s
    else .next s
  else .fault .noPower
/-- Marks a command's record written. -/
def recordedRef (s : State) (c : CmdRef) : State := match c with
  | .cmd ctx q seq =>
    let x := queueOf s ctx q
    setQueue s ctx q { x with cmds := x.cmds.map fun r => if r.seq = seq then { r with recorded := true } else r }
  | .node ctx slot i =>
    let g := graphOf s ctx slot
    setGraph s ctx slot (setNode g i { g.list.getD i {} with recorded := true })
/-- COMPLETION_RECORD (R93): the i-th waiting record, if it is the first for its ring and the ring has room. -/
def execCompletionRecord (ctx i : Nat) (s : State) : Host.Outcome State Fault Refusal :=
  if s.pkg.power then
    let rs := (ctxOf s ctx).records
    match rs[i]? with
    | some r =>
      if (rs.take i).any fun x => x.ring == r.ring then .next s
      else match tryRecord s ctx r.ring r.words with
        | none => .next s
        | some s =>
          let c := ctxOf s ctx
          let s := setCtx s ctx { c with records := c.records.eraseIdx i }
          .next (match r.src with
            | some x => recordedRef s x
            | none => s)
    | none => .next s
  else .fault .noPower

/-! ### SERVICE_SLICE_BOUNDARY (R100, R337) -/

/-- The end of a slice: its kernel-mode blocks stop, what was taken and not answered goes back. -/
def returnBatch (part : Nat) (s : State) (e : Nat × Area) : State :=
  let c := ctxOf s e.2.ctx
  if c.st = .teardown ∨ c.st = .free then s
  else
    let x := { e.2.batch with retry := min 15 (e.2.batch.retry + 1) }
    setCtx s e.2.ctx { c with calls := Map.put c.calls part (x :: Map.look c.calls part []) }
/-- Areas by the cycle of their SVCTAKE, the newest first, so that a ring gets its batches back in their order. -/
def insertArea (x : Nat × Area) : List (Nat × Area) → List (Nat × Area)
  | [] => [x]
  | y :: r => if y.2.start < x.2.start then x :: y :: r else y :: insertArea x r
def endSlice (s : State) (die : Nat) : State :=
  let v := svcOf s die
  let s := removeAll s ((s.blocks.filter fun e => e.2.kmode && e.2.die == die).map Prod.fst)
  let s := (v.areas.foldl (fun l e => insertArea e l) []).foldl (returnBatch v.part) s
  let q := faultsOf s v.part
  let s := setFaults s v.part { q with entries := q.entries.map fun e =>
    if e.taken then { e with taken := false, retry := min 15 (e.retry + 1) } else e }
  setSvc s die { svcOf s die with areas := [], stop := 0 }
/-- The next partition of a die with a slice, in ascending order, round and round. -/
def nextSlice (s : State) (die : Nat) : Option Nat :=
  let ps := (List.range 6).map (· + 6 * die)
  let cur := (svcOf s die).part
  (ps.filter (fun p => decide (cur < p)) ++ ps.filter fun p => decide (p ≤ cur)).find? fun p => decide (0 < Map.look s.pkg.slices p 0)
/-- The service kernel of a die: key, pseudo context, header read from the service image. -/
def svcKern (die : Nat) : Nat := 2 ^ 70 + die
def svcHeader (image : List Byte) : Header := parseHeader (image.take 128)
/-- One kernel-mode block of the service image, RUNNABLE at its entries. -/
def startService (die gang : Nat) (s : State) (j : Nat) : State :=
  let v := svcOf s die
  let x := kernOf s (svcKern die)
  let core := 384 + die
  let gs := (List.range (blockGroups x.hdr).length).map fun i => (i, (blockGroups x.hdr).getD i (0, {}))
  let hs := assignHalves (gs.map Prod.snd) 0 0
  let half (n : Nat) : List (Nat × Nat) := byWidth (((gs.zip hs).filter fun e => e.2 == n).map fun e => (e.1.1, widthOf e.1.2.2.width))
  match giveSlots 0 (half 0) (busyCycles s core 0), giveSlots 1 (half 1) (busyCycles s core 1) with
  | some a, some b =>
    let id := s.nextId
    let s := addBlock s { kern := svcKern die, gang := gang, logical := j, ctx := 1024 + die, part := v.part, die := die, kmode := true }
      x.hdr ((a ++ b).map fun e => (e.1, core, e.2))
    let k := blkOf s id
    let data := (v.image.drop x.hdr.dataoff).take x.hdr.datalen
    let s := setBlk s id { k with win := writeBytes [] 0 data, released := s.time }
    { s with groups := s.groups.map fun e => if k.groups.contains e.1 then (e.1, releasedGroup x e.2) else e }
  | _, _ => s
def startSlice (s : State) (die part : Nat) : State :=
  let v := svcOf s die
  let w := Map.look s.pkg.world part 0
  let image := v.newImage.getD v.image
  let s := if w = v.world then s else
    let s := wipeRange s (.die (24 + die)) 0 (2 ^ 21)
    setCore s (384 + die) {}
  let s := setSvc s die { v with part := part, stop := s.time + 64 * Map.look s.pkg.slices part 0, world := w, image := image, newImage := none, credit := fullCredit s, pos := 0, areas := [] }
  if image.isEmpty then s
  else
    let h := svcHeader image
    let core := coreOf s (384 + die)
    let bank := writeBytes [] 0 ((image.drop h.constoff).take h.constlen)
    let s := setCore s (384 + die) { core with banks := Map.put core.banks (svcKern die) bank, icache := [], loop0 := none, loop1 := none }
    let s := setKern s (svcKern die) { ctx := 1024 + die, hdr := h, read := [0], x := h.gang }
    let gang := s.nextId
    let s := setGang { s with nextId := gang + 1 } gang { kern := svcKern die, released := true, cluster := 0 }
    (List.range h.gang).foldl (startService die gang) s
/-- SERVICE_SLICE_BOUNDARY (R100). -/
def execServiceSliceBoundary (die : Nat) (s : State) : Host.Outcome State Fault Refusal :=
  if s.pkg.power then
    if 4 ≤ die then .next s
    else
      let s := endSlice s die
      match nextSlice s die with
      | some p => .next (startSlice s die p)
      | none => .next s
  else .fault .noPower

end Sys2Proof.Machine
end

