-- ==== Sys2Proof/Machine/Contexts.lean ====
section
/-!
DEFINITION. Machine/Contexts.lean: the commands of the context-management page (R75 to R77, R355): creation, mapping, sealing,
suspension, checkpoint records (R80, R81) and teardown (R82).
-/
namespace Sys2Proof.Config
/-- Byte i of the enciphered sections of a checkpoint record under a key identifier, and what a record not written by this
package holds (R80, log entry 19). -/
opaque cipherByte : Nat → Sys2Proof.Machine.Saved → Nat → BitVec 8
opaque openRecord : List (BitVec 8) → Sys2Proof.Machine.Saved
end Sys2Proof.Config

namespace Sys2Proof.Machine

/-! ### Serving a command (R75, R355) -/

/-- The security core serves one command at a time: one is under way, or no wing feeds it (R377). -/
def coreBusy (s : State) : Bool :=
  s.pkg.update.isSome || s.pkg.noWing || s.ctxs.any fun e => e.2.suspendFn.isSome || e.2.destroyFn.isSome
/-- Whether the active wing may begin an operation of its own: there is one, it finishes no update, and the life cycle lets firmware
act (R378, R379, R389, log entry 74). -/
def wingActs (s : State) : Bool := s.pkg.update.isNone && !s.pkg.noWing && s.pkg.life != .decommissioned
/-- The operands of a command. -/
structure Args where
  a0 : Nat
  a1 : Nat
  a2 : Nat
  a3 : Nat
  deriving DecidableEq, Repr

def argsOf (a0 a1 a2 a3 : Addr) : Args := ⟨a0.toNat, a1.toNat, a2.toNat, a3.toNat⟩
/-- Bits of an operand that its row of R355 names. -/
def within64 (x m : Nat) : Bool := (BitVec.ofNat 64 x) &&& ~~~(BitVec.ofNat 64 m) == 0
def namedBits (a : Args) (m0 m1 m2 m3 : Nat) : Bool :=
  within64 a.a0 m0 && within64 a.a1 m1 && within64 a.a2 m2 && within64 a.a3 m3
def allBits : Nat := 2 ^ 64 - 1
/-- A command served: contexts exist only in DEPLOYED (R389), and a reserved operand bit is refused (R355). -/
def serve (s : State) (f : Nat) (ok : Bool) (body : State → State) : State :=
  if s.pkg.life ≠ .deployed then completeCmd s f 1
  else if ok = false then completeCmd s f 4
  else body s
/-- A write to CMD: ignored on a virtual function and while busy; it waits its turn while another command is served. The
model runs the first waiting command by its instruction again (log entry 2). -/
def command (i : Instr) (f : Nat) (a0 a1 a2 a3 : Addr) (s : State) (body : State → State) : Host.Outcome State Fault Refusal :=
  if s.pkg.power then
    let x := fnOf s f
    let s' := setFn s f { x with arg0 := a0, arg1 := a1, arg2 := a2, arg3 := a3, busy := true }
    if 16 ≤ f then .next s
    else if x.busy then
      if s.pkg.waitingCmds.head? = some i ∧ coreBusy s = false then
        .next (body (setPkg s { s.pkg with waitingCmds := s.pkg.waitingCmds.tail }))
      else .next s
    else if coreBusy s ∨ s.pkg.waitingCmds.isEmpty = false then
      .next (setPkg s' { s'.pkg with waitingCmds := s'.pkg.waitingCmds ++ [i] })
    else .next (body s')
  else .fault .noPower
/-- A command on a context of the function's logical device in one of some states; STATE otherwise. -/
def onCtx (s : State) (f ctx : Nat) (sts : List CtxState) (body : Ctx → State) : State :=
  let c := ctxOf s ctx
  if (Map.find s.ctxs ctx).isSome && c.ld == f && sts.contains c.st then body c else completeCmd s f 1

/-! ### CREATE (R75) -/

/-- The tenant key identifiers that no context holds. -/
def freeKeys (s : State) : List Nat :=
  ((List.range 256).drop 1).filter fun k => !(s.ctxs.any fun e => e.2.keys.contains k)
/-- The security core's choice among them, which is not promised. -/
def chooseKeys : Nat → Nat → List Nat → List Nat
  | 0, _, _ => []
  | n + 1, i, l =>
    let k := l.getD (Config.keyChoice i % l.length) 0
    k :: chooseKeys n (i + 1) (l.erase k)
def freeSlotOf (s : State) (fn : Nat) : Option Nat :=
  (List.range 64).find? fun n => !(s.ctxs.any fun e => e.2.fn == fn && e.2.slot == n)
/-- The wipe of a partition that goes to a world (R21): its die scratch and its larder's frames. -/
def assignPart (world : Nat) (s : State) (p : Nat) : State :=
  if Map.look s.pkg.world p 0 = world then s
  else
    let s := wipeRange s (.die p) 0 (2 ^ 27)
    let s := (larderOf s p).foldl wipeFrame s
    setPkg s { s.pkg with world := Map.put s.pkg.world p world }
def partsOf (m : Nat) : List Nat := (List.range 24).filter fun p => m / 2 ^ p % 2 == 1
/-- What this copy of the hall's state has of an identifier's context goes with the last member that holds it, and at the latest as
the identifier is taken again, so that the step counter begins at 0 (R316); a context that a member holds keeps what its members
share (log entry 59). -/
def forgetCtx (s : State) (id : Nat) : State :=
  let r := s.hall.repl
  let held := (Map.find s.ctxs id).isSome || (List.range 256).any fun m =>
    m != s.hall.self && r.members.getLsbD m && Map.look s.hall.bindings (1024 * m + id) 0 % 2 ^ 24 != 0
  let r' : Repl :=
    { r with ctxs := Map.del r.ctxs id, queues := r.queues.filter (fun e => e.1 / 2 ^ 12 != id)
             kernels := r.kernels.filter (fun e => e.2.ctx != id), preds := r.preds.filter (fun e => e.ctx != id)
             resolves := r.resolves.filter (fun e => e.ctx != id), place := r.place.filter (fun e => e.2.ctx != id) }
  if held then s else setHall s { s.hall with repl := r' }
/-- CREATE: a virtual function belongs to the logical device that names it (R354). A function value above 64, or of another
logical device, is refused with RANGE (log entry 58). -/
def createCtx (s : State) (f : Nat) (a : Args) : State :=
  let world := a.a0 % 64
  let nkey := a.a0 / 256 % 4 + 1
  let id := a.a3 % 1024
  let parts := partsOf a.a1
  let fn := if a.a2 = 0 then f else 16 + a.a2
  if 64 < a.a2 ∨ (a.a2 ≠ 0 ∧ (Map.look s.ldevs f {}).vfs.contains a.a2 = false) ∨ world = 0 ∨ parts.isEmpty = true then
    completeCmd s f 4
  else if parts.any (fun p => Map.look s.pkg.world p 0 != 0 && Map.look s.pkg.world p 0 != world) then completeCmd s f 2
  else if Map.find s.pkg.allots id ≠ some f ∨ (Map.find s.ctxs id).isSome = true then completeCmd s f 5
  else if (freeKeys s).length < nkey then completeCmd s f 5
  else match freeSlotOf s fn with
    | none => completeCmd s f 5
    | some slot =>
      let keys := chooseKeys nkey s.fresh (freeKeys s)
      let s := forgetCtx (parts.foldl (assignPart world) (setFresh s (s.fresh + nkey))) id
      let s := setCtx s id { st := .assembling, world := world, keys := keys, secrets := (List.range nkey).map (· + s.nextId)
                             parts := BitVec.ofNat 24 a.a1, fn := fn, ld := f, slot := slot }
      let s := { s with nextId := s.nextId + nkey }
      completeCmd (setFn s f { fnOf s f with result := id + slot * 2 ^ 16, keys := keys }) f 0
/-- CREATE (R75, R355). -/
def execCreate (f : Nat) (a0 a1 a2 a3 : Addr) (s : State) : Host.Outcome State Fault Refusal :=
  command (.create f a0 a1 a2 a3) f a0 a1 a2 a3 s fun s =>
    let a := argsOf a0 a1 a2 a3
    serve s f (namedBits a 0x33F 0xFFFFFF 0x7F 0x3FF) fun s => createCtx s f a

/-! ### SETATTR, MAP, UNMAP (R74 to R76) -/

/-- SETATTR. -/
def execSetattr (f : Nat) (a0 a1 a2 a3 : Addr) (s : State) : Host.Outcome State Fault Refusal :=
  command (.setattr f a0 a1 a2 a3) f a0 a1 a2 a3 s fun s =>
    let a := argsOf a0 a1 a2 a3
    serve s f (namedBits a 0x3FF 0xFFFFFFFF 0 0) fun s => onCtx s f a.a0 [.assembling] fun c =>
      let w := a.a1
      if bitsOf w 15 8 ≠ 0 ∨ bitsOf w 5 4 = 3 ∨ 16384 < bitsOf w 31 16 ∨ bitsOf w 3 0 ≠ c.keys.length then completeCmd s f 4
      else completeCmd (setCtx s a.a0 { c with larder := bitsOf w 31 16, prot := bitsOf w 7 7 == 1, check := bitsOf w 6 6 == 1
                                               mode := bitsOf w 5 4 }) f 0
/-- A proposal of R76: its leaf, and whether it is well formed. One whose page ends past 2^56, or whose frame ends past 2^52, is not
(log entry 73). -/
def proposal (a : Args) : Leaf :=
  let cls := bitsOf a.a3 7 6
  let dev := cls == 0
  { va := a.a1, level := bitsOf a.a3 17 16, frame := a.a2, key := bitsOf a.a3 15 8, cls := cls
    st := if dev && a.a2 == 0 then 1 else if cls == 2 then 2 else 0
    r := bitsOf a.a3 1 1 == 1, w := bitsOf a.a3 2 2 == 1, x := bitsOf a.a3 3 3 == 1 }
def wellFormedMap (c : Ctx) (l : Leaf) : Bool :=
  let n := pageSize l.level
  l.cls != 3 && l.level != 3 && decide (l.va + n ≤ 2 ^ 56) && decide (l.frame + n ≤ 2 ^ 52) && l.va % n == 0 && l.frame % n == 0
    && (l.level == 0 || (l.cls == 0 && l.st == 0))
    && !(c.leaves.any fun k => !k.broken && decide (k.va < l.va + n) && decide (l.va < k.va + pageSize k.level))
/-- The 64 KiB frames of a device leaf that holds data. -/
def leafFrames (l : Leaf) : List Nat :=
  if leafDevice l && leafPresent l then (List.range (pageSize l.level / 65536)).map (· + l.frame / 65536) else []
/-- The conditions of R76 in their order. -/
def mapStatus (s : State) (ctx : Nat) (c : Ctx) (l : Leaf) : Nat :=
  let fs := leafFrames l
  if wellFormedMap c l = false then 4
  else if c.keys.contains l.key = false then 5
  else if (fs.isEmpty = false ∧ (l.frame / 2 ^ 35 ≥ 24 ∨ c.parts.getLsbD (framePart s l.frame) = false))
      ∨ (l.cls ≠ 0 ∧ hostRange s ctx l.frame 65536 = false) then 4
  else if fs.any (fun f => (ownOf s f).use != 0 && (ownOf s f).world != c.world) then 2
  else if fs.any (fun f => (ownOf s f).use != 0 && (ownOf s f).key != l.key) then 3
  else 0
def claimFrame (world key : Nat) (s : State) (f : Nat) : State :=
  if (ownOf s f).use ≠ 0 then s else setOwn (wipeFrame s f) f { key := key, world := world, use := 2 }
def insertLeaf (l : Leaf) : List Leaf → List Leaf
  | [] => [l]
  | x :: r => if l.va < x.va then l :: x :: r else x :: insertLeaf l r
/-- MAP. -/
def execMap (f : Nat) (a0 a1 a2 a3 : Addr) (s : State) : Host.Outcome State Fault Refusal :=
  command (.map f a0 a1 a2 a3) f a0 a1 a2 a3 s fun s =>
    let a := argsOf a0 a1 a2 a3
    let l := proposal a
    serve s f (namedBits a 0x3FF allBits allBits 0x3FFCE) fun s => onCtx s f a.a0 [.assembling] fun c =>
      match mapStatus s a.a0 c l with
      | 0 =>
        let s := (leafFrames l).foldl (claimFrame c.world l.key) s
        completeCmd (dropTlb (setCtx s a.a0 { ctxOf s a.a0 with leaves := insertLeaf l c.leaves }) a.a0 (l.va / 65536)
          (pageSize l.level / 65536)) f 0
      | e => completeCmd s f e
def disownFrame (s : State) (f : Nat) : State := setOwn (wipeFrame s f) f {}
/-- UNMAP. -/
def execUnmap (f : Nat) (a0 a1 a2 a3 : Addr) (s : State) : Host.Outcome State Fault Refusal :=
  command (.unmap f a0 a1 a2 a3) f a0 a1 a2 a3 s fun s =>
    let a := argsOf a0 a1 a2 a3
    serve s f (namedBits a 0x3FF allBits 0 0) fun s => onCtx s f a.a0 [.assembling] fun c =>
      match walk s a.a0 a.a1 with
      | none => completeCmd s f 4
      | some l =>
        let s := (leafFrames l).foldl disownFrame s
        completeCmd (dropTlb (setCtx s a.a0 { ctxOf s a.a0 with leaves := c.leaves.filter fun k => k.va != l.va || k.broken }) a.a0 (l.va / 65536)
          (pageSize l.level / 65536)) f 0

/-! ### SEAL, SUSPEND, RESUME (R75) -/

/-- What a context's measurement is taken over (log entry 15). -/
def sealBytes (c : Ctx) (page : Nat) : List Byte :=
  bytesOfNat 8 page ++ bytesOfNat 1 c.world ++ c.keys.flatMap (bytesOfNat 1) ++ bytesOfNat 2 c.larder
    ++ bytesOfNat 1 (c.mode + (if c.prot then 128 else 0) + (if c.check then 64 else 0)) ++ bytesOfNat 3 c.parts.toNat
    ++ (c.leaves.filter fun l => !l.broken).flatMap fun l => bytesOfNat 8 l.va ++ bytesOfNat 8 l.frame ++ bytesOfNat 1 l.key
        ++ bytesOfNat 1 (l.level + 4 * l.cls + 16 * l.st) ++ bytesOfNat 1 ((if l.r then 1 else 0) + (if l.w then 2 else 0) + (if l.x then 4 else 0))
/-- The header of the command-processor page that a context binds (R83). -/
def pageHeader (s : State) (ctx : Nat) : State :=
  pageWrite (pageWrite s ctx 0 4 (ctx + 65536 * (ctxOf s ctx).world)) ctx 4 4 1
/-- SEAL. -/
def execSealCtx (f : Nat) (a0 a1 a2 a3 : Addr) (s : State) : Host.Outcome State Fault Refusal :=
  command (.sealCtx f a0 a1 a2 a3) f a0 a1 a2 a3 s fun s =>
    let a := argsOf a0 a1 a2 a3
    serve s f (namedBits a 0x3FF allBits 0 0) fun s => onCtx s f a.a0 [.assembling] fun c =>
      let usable : Bool := match walk s a.a0 a.a1 with
        | some l => leafPresent l && l.r && l.w && (l.cls == 0 || l.cls == 1)
        | none => false
      if a.a1 % 4096 ≠ 0 ∨ usable = false then completeCmd s f 4
      else
        let s := setCtx s a.a0 { c with st := .sealed, cpPage := a.a1, measurement := Config.shake256 (sealBytes c a.a1) }
        completeCmd (actLatched (pageHeader s a.a0) a.a0) f 0
/-- %step of a context, in the replicated state (R316). -/
def stepOf (s : State) (ctx : Nat) : BitVec 64 := (Map.look s.hall.repl.ctxs ctx {}).step
/-- The unfinished kernels of a context with a step request, of a committed block that has retired, is saved or is resident (R317). -/
def askedKernels (s : State) (ctx : Nat) : List Nat :=
  let asked (k : Nat) : Bool := !(kernOf s k).reqs.isEmpty || (s.blocks.any fun e => e.2.kern == k && !e.2.spec && e.2.stepReq)
  (s.hall.repl.kernels.filter fun e => e.2.ctx == ctx && (e.2.stepReq || asked e.1)).map Prod.fst
/-- The step counter that a record names as gentag (R317). -/
def genTag (s : State) (ctx : Nat) : BitVec 64 :=
  stepOf s ctx + BitVec.ofNat 64 ((askedKernels s ctx).filter fun k => !(ctxOf s ctx).applied.contains k).length
/-- Every gang of a suspending context is saved, and its cores are free (R165). -/
def allSaved (s : State) (ctx : Nat) : Bool :=
  (gangsOf s ctx).all fun q => (gangOf s q).saved && (gangOf s q).blocks.all (blockQuiet s)
/-- The end of a SUSPEND. -/
def endSuspend (s : State) (f ctx : Nat) : State :=
  if allSaved s ctx then
    completeCmd (setCtx s ctx { ctxOf s ctx with st := .suspended, suspendFn := none, step := genTag s ctx }) f 0
  else s
/-- SUSPEND: its context's blocks here are pre-empted at once, and BLOCK tells the other members (R366). It ends through the active
wing (R378). -/
def execSuspend (f : Nat) (a0 a1 a2 a3 : Addr) (s : State) : Host.Outcome State Fault Refusal :=
  if s.pkg.power && (fnOf s f).busy && (ctxOf s (a0.toNat % 1024)).suspendFn == some f then
    .next (if s.pkg.noWing then s else endSuspend s f (a0.toNat % 1024))
  else command (.suspend f a0 a1 a2 a3) f a0 a1 a2 a3 s fun s =>
    let a := argsOf a0 a1 a2 a3
    serve s f (namedBits a 0x3FF allBits 0 0) fun s => onCtx s f a.a0 [.sealed] fun c =>
      let s := preemptCtx (setCtx s a.a0 { c with suspendFn := some f, bound := a.a1 }) a.a0 a.a1
      let s := postEvent s { kind := 3, ctx := a.a0, world := c.world, pay := payOf (bytesOfNat 4 (min a.a1 0xFFFFFFFF)) }
      endSuspend s f a.a0
/-- RESUME. -/
def execResume (f : Nat) (a0 a1 a2 a3 : Addr) (s : State) : Host.Outcome State Fault Refusal :=
  command (.resume f a0 a1 a2 a3) f a0 a1 a2 a3 s fun s =>
    let a := argsOf a0 a1 a2 a3
    serve s f (namedBits a 0x3FF 0 0 0) fun s => onCtx s f a.a0 [.suspended] fun c =>
      let s := actLatched (setCtx s a.a0 { c with st := .sealed }) a.a0
      completeCmd (postEvent s { kind := 4, ctx := a.a0, world := c.world, pay := payOf [] }) f 0

/-! ### Checkpoint records (R80, R81) -/

/-- The saved state of a context. -/
def savedOf (s : State) (ctx : Nat) : Saved :=
  let gs := gangsOf s ctx
  { step := (ctxOf s ctx).step
    gangs := s.gangs.filter fun e => gs.contains e.1
    blocks := s.blocks.filter fun e => gs.contains e.2.gang
    groups := s.groups.filter fun e => gs.contains (blkOf s e.2.blk).gang
    kerns := s.kerns.filter fun e => e.2.ctx == ctx
    asked := askedKernels s ctx }
/-- The bytes of the generator section: %step, and eight registers of 16 bytes for every group; and of the block section
(R164). -/
def genBytes (s : State) (ctx : Nat) : Nat := 8 + 128 * (savedOf s ctx).groups.length
def recordBytes (s : State) (ctx : Nat) : Nat := 64 + genBytes s ctx + ((blocksOfCtx s ctx).map (stateSize s)).sum
/-- The header of R80 without its tag: bytes 0 to 47. -/
def recordHeader (s : State) (ctx datatag : Nat) : List Byte :=
  let c := ctxOf s ctx
  bytesOfNat 4 0x4B435043 ++ bytesOfNat 2 1 ++ bytesOfNat 2 (c.world + 64 * ctx) ++ bytesOfNat 12 0
    ++ bytesOfNat 4 (64 + genBytes s ctx) ++ bytesOfNat 4 64 ++ bytesOfNat 4 (recordBytes s ctx) ++ bytesOfNat 8 datatag
    ++ bytesOfNat 8 c.step.toNat
/-- The whole record, under the context's first key. -/
def makeRecord (s : State) (ctx datatag : Nat) : List Byte :=
  let key := (ctxOf s ctx).secrets.headD 0
  let h := recordHeader s ctx datatag
  let body := (List.range (recordBytes s ctx - 64)).map (Config.cipherByte key (savedOf s ctx))
  h ++ bytesOfNat 16 (Config.recordTag key (h ++ body)).toNat ++ body
/-- CKPT: the buffer is writable memory of the context. -/
def execCkpt (f : Nat) (a0 a1 a2 a3 : Addr) (s : State) : Host.Outcome State Fault Refusal :=
  command (.ckpt f a0 a1 a2 a3) f a0 a1 a2 a3 s fun s =>
    let a := argsOf a0 a1 a2 a3
    serve s f (namedBits a 0x3FF allBits allBits allBits) fun s => onCtx s f a.a0 [.suspended] fun _ =>
      if a.a2 < recordBytes s a.a0 then completeCmd s f 8
      else if rangeMapped s a.a0 a.a1 (recordBytes s a.a0) true = false then completeCmd s f 4
      else
        let r := makeRecord s a.a0 a.a3
        completeCmd (vaWrite { s with written := (r, savedOf s a.a0) :: s.written } a.a0 a.a1 r) f 0
/-- The most a context's saved state takes: the stores of its partitions' cores (R13, log entry 19). -/
def stateRoom (c : Ctx) : Nat :=
  ((List.range 24).filter fun p => c.parts.getLsbD p).length * 16 * (512 * 1024 + 16 * 1024 + 768 * 1024 + 512 * 1024 + 4096 * 1024) + 65536
/-- The checks of R81 on a record's bytes. -/
def restoreStatus (c : Ctx) (r : List Byte) : Nat :=
  let tag := fieldAt r 48 16
  if fieldAt r 0 4 ≠ 0x4B435043 ∨ fieldAt r 4 2 ≠ 1
      ∨ (c.secrets.any fun k => (Config.recordTag k (r.take 48 ++ r.drop 64)).toNat == tag) = false then 7
  else if fieldAt r 6 1 % 64 ≠ c.world then 7
  else if fieldAt r 40 8 ≠ fieldAt r 32 8 then 6
  else if stateRoom c < fieldAt r 28 4 then 8
  else 0
/-- A wait for an answer that the record does not bring: the waiting instruction issues from its start (R166). -/
def forgetWait (p : Path) : Path := match p.wait with
  | some (.answer _) | some (.faultAnswer _ _) => { p with wait := none }
  | _ => p
/-- What a restored part has observed: the writes before the restore are all to be observed; its blocks have new identifiers. -/
def shiftView (n : Nat) (w : View) : View :=
  { mobs := w.mobs.map fun e => (e.1 + n, e.2), mobsOne := w.mobsOne.map fun e => (e.1 + n, e.2) }
/-- The saved parts get identifiers of their own here: every one rises by n; their memories take their canonical form. `top` is the
last write of the log. -/
def shiftGroup (n top : Nat) (g : Group) : Group :=
  { g with blk := g.blk + n, spill := canonMem g.spill, answered := [], pathA := forgetWait g.pathA, pathB := forgetWait g.pathB
           stores := [], loads := [], past := {}, supArm := g.supArm, born := top, view := shiftView n g.view, port := shiftView n g.port, heard := [], heardTop := 0, olds := [] }
def shiftRing (n : Nat) (r : Ring) : Ring := { r with cmds := r.cmds.map fun c => { c with grp := c.grp + n } }
def shiftTouch (n top : Nat) (t : MTouch) : MTouch := { t with grp := t.grp + n, born := top, port := shiftView n t.port }
def shiftBar (n : Nat) (x : BarSlot) : BarSlot := { x with join := shiftView n x.join, met := x.met.map fun e => (e.1, shiftView n e.2) }
/-- A held entry keeps its address and has the place that its context gives it now; with none, it drains as OWNER. -/
def rehome (s : State) (ctx : Nat) (e : HeldEntry) : HeldEntry :=
  let place (va : Addr) : MemName × Nat × Nat := match vaMem s ctx (va.toNat % 2 ^ 56) with
    | some (m, a) => (m, a, frameKey s m a)
    | none => (.dev, 0, 256)
  let word (w : RaddWord) : RaddWord := { w with pa := (place w.va).2.1, key := (place w.va).2.2 }
  if e.remote then e
  else if e.words.isEmpty then { e with mem := (place e.va).1, addr := (place e.va).2.1, key := (place e.va).2.2 }
  else { e with words := e.words.map word }
def shiftBlock (s : State) (n ctx world : Nat) (kern : Nat → Nat) (b : Block) : Block :=
  { b with kern := kern b.kern, ctx := ctx, world := world, gang := b.gang + n, groups := b.groups.map (· + n), copy := shiftRing n b.copy
           matrix := shiftRing n b.matrix, held := b.held.map fun e => rehome s ctx { e with grp := e.grp + n }
           touches := b.touches.map (shiftTouch n s.log.length), bars := b.bars.map fun e => (e.1, shiftBar n e.2)
           report := b.report.map fun r => { r with grp := r.grp + n }
           win := canonMem b.win, ringMem := canonMem b.ringMem, slots := canonMem b.slots }
def shiftGang (n : Nat) (kern : Nat → Nat) (q : Gang) : Gang :=
  { q with kern := kern q.kern, blocks := q.blocks.map (· + n), arrived := q.arrived.map (· + n), join := shiftView n q.join
           met := shiftView n q.met }
def topId (x : Saved) : Nat := listMax (x.gangs.map Prod.fst ++ x.blocks.map Prod.fst ++ x.groups.map Prod.fst) + 1
/-- The number that a kernel of the record has here: its identifier, or, where that is another context's kernel, one that no kernel
of the hall has (R22). -/
def kernelHere (s : State) (ctx world k : Nat) : Nat :=
  let mine (c w : Nat) : Bool := c == ctx && w == world
  let ok := (match Map.find s.kerns k with
    | some x => mine x.ctx x.world
    | none => true) && match Map.find s.hall.repl.kernels k with
    | some r => mine r.ctx r.world
    | none => true
  if ok then k else k % 2 ^ 64 + 2 ^ 72 * (s.nextId + 1)
/-- A kernel that this chip does not hold comes with the record. -/
def keepKern (ctx world : Nat) (kern : Nat → Nat) (s : State) (e : Nat × Kern) : State :=
  if (Map.find s.kerns (kern e.1)).isSome then s
  else setKern s (kern e.1) { e.2 with ctx := ctx, world := world, todo := [], openBlocks := [], sentArr := [], killed := false, join := {}, met := {}
                                       since := s.stored.length }
/-- The record replaces the saved blocks, the generator registers in them, and %step (R81, R317). The blocks that go are no departure:
the grid barrier waits for those that come (R263). -/
def loadSaved (s : State) (ctx : Nat) (x : Saved) : State :=
  let mark (b : Bool) (s : State) : State :=
    { s with kerns := s.kerns.map fun e => if e.2.ctx = ctx then (e.1, { e.2 with killed := b }) else e }
  let s := mark false (removeAll (mark true s) (blocksOfCtx s ctx))
  let c := ctxOf s ctx
  let n := s.nextId
  let kern := kernelHere s ctx c.world
  let s := x.kerns.foldl (keepKern ctx c.world kern) s
  let row := { Map.look s.hall.repl.ctxs ctx {} with step := x.step }
  let s := setHall s { s.hall with repl := { s.hall.repl with ctxs := Map.put s.hall.repl.ctxs ctx row } }
  let s := { s with
    nextId := n + topId x
    gangs := x.gangs.foldl (fun m e => Map.put m (e.1 + n) (shiftGang n kern e.2)) s.gangs
    blocks := x.blocks.foldl (fun m e => Map.put m (e.1 + n) (shiftBlock s n ctx c.world kern e.2)) s.blocks
    groups := x.groups.foldl (fun m e => Map.put m (e.1 + n) (shiftGroup n s.log.length e.2)) s.groups }
  let s := x.blocks.foldl (fun s e =>
    let k := kernOf s (kern e.2.kern)
    setKern s (kern e.2.kern) { k with openBlocks := Map.put k.openBlocks e.2.rank (Map.look k.openBlocks e.2.rank 0 + 1) }) s
  setCtx s ctx { ctxOf s ctx with step := x.step, applied := x.asked.map kern }
/-- RESTORE. -/
def execRestore (f : Nat) (a0 a1 a2 a3 : Addr) (s : State) : Host.Outcome State Fault Refusal :=
  command (.restore f a0 a1 a2 a3) f a0 a1 a2 a3 s fun s =>
    let a := argsOf a0 a1 a2 a3
    serve s f (namedBits a 0x3FF allBits 0 0) fun s => onCtx s f a.a0 [.assembling, .suspended] fun c =>
      let r := vaRead s a.a0 a.a1 (max 64 (fieldAt (vaRead s a.a0 a.a1 64) 28 4))
      match restoreStatus c r with
      | 0 =>
        let x := ((s.written.find? fun e => e.1 == r).map Prod.snd).getD (Config.openRecord r)
        completeCmd (loadSaved s a.a0 { x with step := BitVec.ofNat 64 (fieldAt r 40 8) }) f 0
      | e => completeCmd s f e

/-! ### DESTROY and the wipe (R82) -/

/-- DESTROY: teardown begins; the command completes when the wipe does. -/
def execDestroy (f : Nat) (a0 a1 a2 a3 : Addr) (s : State) : Host.Outcome State Fault Refusal :=
  command (.destroy f a0 a1 a2 a3) f a0 a1 a2 a3 s fun s =>
    let a := argsOf a0 a1 a2 a3
    serve s f (namedBits a 0x3FF 0 0 0) fun s => onCtx s f a.a0 [.assembling, .sealed, .suspended] fun _ =>
      let s := beginTeardown s a.a0
      setCtx s a.a0 { ctxOf s a.a0 with destroyFn := some f }
/-- Whether another live context of a world maps a frame, or is bound to a partition. -/
def otherMaps (s : State) (ctx world f : Nat) : Bool :=
  s.ctxs.any fun e => e.1 != ctx && e.2.world == world && e.2.st != .teardown && e.2.leaves.any fun l => (leafFrames l).contains f
def otherBound (s : State) (ctx p : Nat) : Bool := s.ctxs.any fun e => e.1 != ctx && e.2.parts.getLsbD p
/-- The frames of a dead context (steps 4 and 5): larder frames go back, others are free, those of another live context of
the world stay. -/
def wipeOwned (ctx : Nat) (s : State) (f : Nat) : State :=
  let c := ctxOf s ctx
  if c.taken.contains f then returnFrame s ctx f
  else if otherMaps s ctx c.world f then s
  else disownFrame s f
def leavePart (ctx : Nat) (s : State) (p : Nat) : State :=
  if otherBound s ctx p then s
  else setPkg (wipeRange s (.die p) 0 (2 ^ 27)) { s.pkg with world := Map.put s.pkg.world p 0 }
/-- Cached code of a context leaves a core. -/
def dropCode (ctx : Nat) (c : Core) : Core := dropLoops ctx { c with icache := c.icache.filter fun e => e.1 / 2 ^ 64 != ctx }
/-- A flip of a frame that its context no longer has ends refused. -/
def dropFlips (fs : List Nat) (s : State) : State :=
  let s := (s.flips.filter fun x => fs.contains x.frame).foldl (fun s x => setFn s x.fn { fnOf s x.fn with flipst := 3 }) s
  { s with flips := s.flips.filter fun x => !fs.contains x.frame }
/-- Steps 4 to 6 of R82: the context becomes FREE. -/
def wipeCtx (s : State) (ctx : Nat) : State :=
  let c := ctxOf s ctx
  let s := (c.leaves.flatMap leafFrames).foldl (wipeOwned ctx) s
  let s := (partsOf c.parts.toNat).foldl (leavePart ctx) s
  let s := { s with
    cores := s.cores.map fun e => (e.1, dropCode ctx e.2)
    tlb := s.tlb.filter fun e => e.ctx != ctx
    kerns := s.kerns.filter fun e => e.2.ctx != ctx }
  let s := dropFlips (c.leaves.flatMap leafFrames) s
  let cut := s.links.dst.any fun d => d.ctx == ctx
  let s := if cut then
      hostRecord s c.ld { partition := lowPart s ctx, unit := 5, severity := 4, kind := 3, ctx := ctx, world := c.world } c.prot
    else s
  let s := setLinks s { s.links with dst := s.links.dst.map fun d => if d.ctx = ctx then { d with world := 64 } else d }
  let free (l : Launcher) : Launcher := if l.ctx = ctx then { l with ctx := 1024, ref := none, record := false } else l
  let s := setHall s { s.hall with posted := s.hall.posted.map free, origins := s.hall.origins.map fun e => (e.1, free e.2) }
  let live (v : Service) : Service := { v with areas := v.areas.filter fun x => x.2.ctx != ctx }
  let s := { s with services := s.services.map fun (e : Nat × Service) => (e.1, live e.2) }
  let s := forgetCtx { s with ctxs := Map.del s.ctxs ctx } ctx
  match c.destroyFn with
  | some f => completeCmd s f 0
  | none => s
/-- WIPE_COMPLETE (R75, R82). -/
def execWipeComplete (ctx : Nat) (s : State) : Host.Outcome State Fault Refusal :=
  if s.pkg.power then
    if (ctxOf s ctx).st = .teardown then .next (wipeCtx s ctx) else .next s
  else .fault .noPower

end Sys2Proof.Machine
end

