-- ==== Sys2Proof/Machine/Floating.lean ====
section
/-!
DEFINITION. Machine/Floating.lean: floating-point, conversion, and nested-integer words (R186, R188 to R210). Values
come from Numbers; a meaning says which registers it reads and writes.
-/
namespace Sys2Proof.Machine

/-- FADD (R190). -/
def execFadd (st : BitVec 2) (d : BitVec 7) (a : BitVec 7) (b : BitVec 7) (c : BitVec 1) (s : State) : Host.Outcome State Fault Refusal :=
  issue (info (.fadd st d a b c)) s fun s =>
    laneOut s d fun t => BitVec.ofNat 32 (fAdd fp32 (rv s a.toNat t).toNat (rb s b c t).toNat)

/-- FSUB (R190). -/
def execFsub (st : BitVec 2) (d : BitVec 7) (a : BitVec 7) (b : BitVec 7) (c : BitVec 1) (s : State) : Host.Outcome State Fault Refusal :=
  issue (info (.fsub st d a b c)) s fun s =>
    laneOut s d fun t => BitVec.ofNat 32 (fSub fp32 (rv s a.toNat t).toNat (rb s b c t).toNat)

/-- FMUL (R190). -/
def execFmul (st : BitVec 2) (d : BitVec 7) (a : BitVec 7) (b : BitVec 7) (c : BitVec 1) (s : State) : Host.Outcome State Fault Refusal :=
  issue (info (.fmul st d a b c)) s fun s =>
    laneOut s d fun t => BitVec.ofNat 32 (fMul fp32 (rv s a.toNat t).toNat (rb s b c t).toNat)

/-- FFMA (R190). -/
def execFfma (st : BitVec 2) (d : BitVec 7) (a : BitVec 7) (b : BitVec 7) (c : BitVec 1) (s : State) : Host.Outcome State Fault Refusal :=
  issue (info (.ffma st d a b c)) s fun s =>
    laneOut s d fun t => BitVec.ofNat 32 (fFma fp32 (rv s a.toNat t).toNat (rb s b c t).toNat (rv s d.toNat t).toNat)

/-- FMIN (R191). -/
def execFmin (st : BitVec 2) (d : BitVec 7) (a : BitVec 7) (b : BitVec 7) (c : BitVec 1) (s : State) : Host.Outcome State Fault Refusal :=
  issue (info (.fmin st d a b c)) s fun s =>
    laneOut s d fun t => BitVec.ofNat 32 (fMinBits (rv s a.toNat t).toNat (rb s b c t).toNat)

/-- FMAX (R191). -/
def execFmax (st : BitVec 2) (d : BitVec 7) (a : BitVec 7) (b : BitVec 7) (c : BitVec 1) (s : State) : Host.Outcome State Fault Refusal :=
  issue (info (.fmax st d a b c)) s fun s =>
    laneOut s d fun t => BitVec.ofNat 32 (fMaxBits (rv s a.toNat t).toNat (rb s b c t).toNat)

/-- FABS (R192). -/
def execFabs (st : BitVec 2) (d : BitVec 7) (a : BitVec 7) (s : State) : Host.Outcome State Fault Refusal :=
  issue (info (.fabs st d a)) s fun s =>
    laneOut s d fun t => BitVec.ofNat 32 ((rv s a.toNat t).toNat % 2147483648)

/-- FRCP (R197). -/
def execFrcp (st : BitVec 2) (d : BitVec 7) (a : BitVec 7) (s : State) : Host.Outcome State Fault Refusal :=
  issue (info (.frcp st d a)) s fun s =>
    laneOut s d fun t => BitVec.ofNat 32 (fRcp (rv s a.toNat t).toNat)

/-- FRSQ (R197). -/
def execFrsq (st : BitVec 2) (d : BitVec 7) (a : BitVec 7) (s : State) : Host.Outcome State Fault Refusal :=
  issue (info (.frsq st d a)) s fun s =>
    laneOut s d fun t => BitVec.ofNat 32 (fRsq (rv s a.toNat t).toNat)

/-- FSQRT (R197). -/
def execFsqrt (st : BitVec 2) (d : BitVec 7) (a : BitVec 7) (s : State) : Host.Outcome State Fault Refusal :=
  issue (info (.fsqrt st d a)) s fun s =>
    laneOut s d fun t => BitVec.ofNat 32 (fSqrt (rv s a.toNat t).toNat)

/-- FEXP2 (R197). -/
def execFexp2 (st : BitVec 2) (d : BitVec 7) (a : BitVec 7) (s : State) : Host.Outcome State Fault Refusal :=
  issue (info (.fexp2 st d a)) s fun s =>
    laneOut s d fun t => BitVec.ofNat 32 (fExp2 (rv s a.toNat t).toNat)

/-- FLOG2 (R197). -/
def execFlog2 (st : BitVec 2) (d : BitVec 7) (a : BitVec 7) (s : State) : Host.Outcome State Fault Refusal :=
  issue (info (.flog2 st d a)) s fun s =>
    laneOut s d fun t => BitVec.ofNat 32 (fLog2 (rv s a.toNat t).toNat)

/-- FSINT (R197). -/
def execFsint (st : BitVec 2) (d : BitVec 7) (a : BitVec 7) (s : State) : Host.Outcome State Fault Refusal :=
  issue (info (.fsint st d a)) s fun s =>
    laneOut s d fun t => BitVec.ofNat 32 (fSint (rv s a.toNat t).toNat)

/-- FCOST (R197). -/
def execFcost (st : BitVec 2) (d : BitVec 7) (a : BitVec 7) (s : State) : Host.Outcome State Fault Refusal :=
  issue (info (.fcost st d a)) s fun s =>
    laneOut s d fun t => BitVec.ofNat 32 (fCost (rv s a.toNat t).toNat)

/-- FRND (R194). -/
def execFrnd (st : BitVec 2) (d : BitVec 7) (a : BitVec 7) (m : BitVec 2) (s : State) : Host.Outcome State Fault Refusal :=
  issue (info (.frnd st d a m)) s fun s =>
    laneOut s d fun t => BitVec.ofNat 32 (fRnd (rmodeOf m) (rv s a.toNat t).toNat)

/-- FCLASS (R195). -/
def execFclass (st : BitVec 2) (d : BitVec 7) (a : BitVec 7) (s : State) : Host.Outcome State Fault Refusal :=
  issue (info (.fclass st d a)) s fun s =>
    laneOut s d fun t => BitVec.ofNat 32 (fClass (rv s a.toNat t).toNat)

/-- PBADD (R198). -/
def execPbadd (st : BitVec 2) (d : BitVec 7) (a : BitVec 7) (b : BitVec 7) (c : BitVec 1) (s : State) : Host.Outcome State Fault Refusal :=
  issue (info (.pbadd st d a b c)) s fun s =>
    laneOut s d fun t => BitVec.ofNat 32 (packed2 (fun x y _ => fAdd bf16 x y) (rv s a.toNat t).toNat (rb s b c t).toNat 0)

/-- PBMUL (R198). -/
def execPbmul (st : BitVec 2) (d : BitVec 7) (a : BitVec 7) (b : BitVec 7) (c : BitVec 1) (s : State) : Host.Outcome State Fault Refusal :=
  issue (info (.pbmul st d a b c)) s fun s =>
    laneOut s d fun t => BitVec.ofNat 32 (packed2 (fun x y _ => fMul bf16 x y) (rv s a.toNat t).toNat (rb s b c t).toNat 0)

/-- PBFMA (R198). -/
def execPbfma (st : BitVec 2) (d : BitVec 7) (a : BitVec 7) (b : BitVec 7) (c : BitVec 1) (s : State) : Host.Outcome State Fault Refusal :=
  issue (info (.pbfma st d a b c)) s fun s =>
    laneOut s d fun t => BitVec.ofNat 32 (packed2 (fFma bf16) (rv s a.toNat t).toNat (rb s b c t).toNat (rv s d.toNat t).toNat)

/-- PHADD (R198). -/
def execPhadd (st : BitVec 2) (d : BitVec 7) (a : BitVec 7) (b : BitVec 7) (c : BitVec 1) (s : State) : Host.Outcome State Fault Refusal :=
  issue (info (.phadd st d a b c)) s fun s =>
    laneOut s d fun t => BitVec.ofNat 32 (packed2 (fun x y _ => fAdd fp16 x y) (rv s a.toNat t).toNat (rb s b c t).toNat 0)

/-- PHMUL (R198). -/
def execPhmul (st : BitVec 2) (d : BitVec 7) (a : BitVec 7) (b : BitVec 7) (c : BitVec 1) (s : State) : Host.Outcome State Fault Refusal :=
  issue (info (.phmul st d a b c)) s fun s =>
    laneOut s d fun t => BitVec.ofNat 32 (packed2 (fun x y _ => fMul fp16 x y) (rv s a.toNat t).toNat (rb s b c t).toNat 0)

/-- PHFMA (R198). -/
def execPhfma (st : BitVec 2) (d : BitVec 7) (a : BitVec 7) (b : BitVec 7) (c : BitVec 1) (s : State) : Host.Outcome State Fault Refusal :=
  issue (info (.phfma st d a b c)) s fun s =>
    laneOut s d fun t => BitVec.ofNat 32 (packed2 (fFma fp16) (rv s a.toNat t).toNat (rb s b c t).toNat (rv s d.toNat t).toNat)

/-- CVT (R199, R200). -/
def execCvt (st : BitVec 2) (d : BitVec 7) (a : BitVec 7) (m : BitVec 2) (t : BitVec 3) (u : BitVec 3) (s : State) : Host.Outcome State Fault Refusal :=
  issue (info (.cvt st d a m t u)) s fun s =>
    laneOut s d fun i => BitVec.ofNat 32 (cvtBits t.toNat u.toNat (rmodeOf m) (rv s a.toNat i).toNat)

/-- PACK2 (R201). -/
def execPack2 (st : BitVec 2) (d : BitVec 7) (a : BitVec 7) (b : BitVec 7) (c : BitVec 1) (s : State) : Host.Outcome State Fault Refusal :=
  issue (info (.pack2 st d a b c)) s fun s =>
    laneOut s d fun t => BitVec.ofNat 32 ((rb s b c t).toNat % 65536 * 65536 + (rv s a.toNat t).toNat % 65536)

/-- SACC (R210). -/
def execSacc (st : BitVec 2) (d : BitVec 7) (a : BitVec 7) (b : BitVec 7) (c : BitVec 1) (s : State) : Host.Outcome State Fault Refusal :=
  issue (info (.sacc st d a b c)) s fun s =>
    laneOut s d fun t => BitVec.ofNat 32 (saccBits (rv s d.toNat t).toNat (rv s a.toNat t).toInt (rb s b c t).toNat)

/-- DQNT (R209). -/
def execDqnt (st : BitVec 2) (d : BitVec 7) (a : BitVec 7) (f : BitVec 2) (m : BitVec 3) (k : BitVec 3) (s : State) : Host.Outcome State Fault Refusal :=
  issue (info (.dqnt st d a f m k)) s fun s =>
    laneOut s d fun t => BitVec.ofNat 32 (dqnt (if f == 1 then fp16 else if f == 2 then bf16 else fp32) (sextNat (m.toNat + 1) ((rv s a.toNat t).toNat / 16777216)) ((rv s a.toNat t).toNat / 65536 % 256) (k.toNat + 2) (m.toNat + 1))

/-- FNEG: the sign bit is flipped (R192). -/
def execFneg (st : BitVec 2) (d : BitVec 7) (a : BitVec 7) (s : State) : Host.Outcome State Fault Refusal :=
  issue (info (.fneg st d a)) s fun s =>
    laneOut s d fun t => rv s a.toNat t ^^^ 0x80000000

/-- FCMP (R193). -/
def execFcmp (st : BitVec 2) (p : BitVec 3) (c : BitVec 4) (a : BitVec 7) (b : BitVec 7) (u : BitVec 1) (s : State) : Host.Outcome State Fault Refusal :=
  issue (info (.fcmp st p c a b u)) s fun s =>
    predOut s p (threadMask s fun t => fltCond c.toNat (rv s a.toNat t) (rb s b u t))

/-- UNPK2's widenings of a 16-bit element (R202). -/
def unpack (op el : Nat) : Nat :=
  match op with
  | 0 => el
  | 1 => rndVal fp32 .rne (fval bf16 el)
  | 2 => rndVal fp32 .rne (fval fp16 el)
  | _ => wrapNat 32 (sextNat 16 el)

/-- UNPK2 (R202). -/
def execUnpk2 (st : BitVec 2) (d : BitVec 7) (a : BitVec 7) (q : BitVec 2) (h : BitVec 1) (s : State) : Host.Outcome State Fault Refusal :=
  issue (info (.unpk2 st d a q h)) s fun s =>
    laneOut s d fun t => BitVec.ofNat 32 (unpack q.toNat (if h == 1 then (rv s a.toNat t).toNat / 65536 else (rv s a.toNat t).toNat % 65536))

/-- BSPLIT: the three parts over the pair (R70, R203). -/
def execBsplit (st : BitVec 2) (d : BitVec 7) (a : BitVec 7) (s : State) : Host.Outcome State Fault Refusal :=
  issue (info (.bsplit st d a)) s fun s =>
    let parts (t : Nat) := bsplit (rv s a.toNat t).toNat
    .done (wv (wv s d.toNat (emask s) fun t => BitVec.ofNat 32 ((parts t).2.1 * 65536 + (parts t).1))
      (d.toNat + 1) (emask s) fun t => BitVec.ofNat 32 (parts t).2.2)

/-- The 16 values of a register over the lane block of thread t, active or not (R204). -/
def laneBlock (s : State) (r t : Nat) : List Word := (List.range 16).map fun i => rv s r (t / 16 * 16 + i)
/-- The plane word of element i among codes of width k: plane k − 1 − i while i < k, else 0 (R205). -/
def planeWord (k i : Nat) (codes : List Int) : Nat :=
  if i < k then
    (List.range 16).foldl (fun a l => a + wrapNat k (codes.getD l 0) / 2 ^ (k - 1 - i) % 2 * 2 ^ l) 0
  else 0

/-- QNT: each lane block quantised, and its NaN report in pd (R206). -/
def execQnt (st : BitVec 2) (d : BitVec 7) (a : BitVec 7) (p : BitVec 3) (k : BitVec 3) (s : State) : Host.Outcome State Fault Refusal :=
  issue (info (.qnt st d a p k)) s fun s =>
    let kk := k.toNat + 2
    let q (t : Nat) := qnt kk ((laneBlock s a.toNat t).map fun w => fval fp32 w.toNat)
    let s' := wv s d.toNat (emask s) fun t =>
      let r := q t
      BitVec.ofNat 32 (wrapNat 8 (r.2.1.getD (t % 16) 0) * 16777216 + r.1 * 65536 + planeWord kk (t % 16) r.2.1)
    .done (wp s' p.toNat (emask s) (threadMask s fun t => (q t).2.2))

/-- NIPUT: plane words from the codes held in a (R207). -/
def execNiput (st : BitVec 2) (d : BitVec 7) (a : BitVec 7) (k : BitVec 3) (s : State) : Host.Outcome State Fault Refusal :=
  issue (info (.niput st d a k)) s fun s =>
    let kk := k.toNat + 2
    laneOut s d fun t =>
      let codes := (laneBlock s a.toNat t).map fun w => sextNat kk (w.toNat / 16777216)
      BitVec.ofNat 32 ((rv s a.toNat t).toNat / 65536 * 65536 + planeWord kk (t % 16) codes)

/-- NIGET: an element read at m planes from plane words in storage order (R208). -/
def execNiget (st : BitVec 2) (d : BitVec 7) (a : BitVec 7) (m : BitVec 3) (s : State) : Host.Outcome State Fault Refusal :=
  issue (info (.niget st d a m)) s fun s =>
    let mm := m.toNat + 1
    laneOut s d fun t =>
      let planes := laneBlock s a.toNat t
      let q := (List.range mm).foldl (fun x c => 2 * x + (planes.getD c 0).toNat / 2 ^ (t % 16) % 2) 0
      BitVec.ofNat 32 (wrapNat 8 (sextNat mm q) * 16777216 + (rv s a.toNat t).toNat % 16777216)

/-- SFADD (R186). -/
def execSfadd (st : BitVec 2) (d : BitVec 7) (a : BitVec 7) (b : BitVec 7) (s : State) : Host.Outcome State Fault Refusal :=
  issue (info (.sfadd st d a b)) s fun s =>
    uniOut s d (BitVec.ofNat 32 (fAdd fp32 (rs s a.toNat).toNat (rs s b.toNat).toNat))

/-- SFMUL (R186). -/
def execSfmul (st : BitVec 2) (d : BitVec 7) (a : BitVec 7) (b : BitVec 7) (s : State) : Host.Outcome State Fault Refusal :=
  issue (info (.sfmul st d a b)) s fun s =>
    uniOut s d (BitVec.ofNat 32 (fMul fp32 (rs s a.toNat).toNat (rs s b.toNat).toNat))

/-- SFFMA (R186). -/
def execSffma (st : BitVec 2) (d : BitVec 7) (a : BitVec 7) (b : BitVec 7) (s : State) : Host.Outcome State Fault Refusal :=
  issue (info (.sffma st d a b)) s fun s =>
    uniOut s d (BitVec.ofNat 32 (fFma fp32 (rs s a.toNat).toNat (rs s b.toNat).toNat (rs s d.toNat).toNat))

end Sys2Proof.Machine
end

