-- ==== Sys2Proof/Machine/Trust.lean ====
section
/-!
DEFINITION. Machine/Trust.lean: wings, images and updates (R377 to R379, R381, R385), attestation (R380, R382), claims (R383,
R384), the registers of a function (R355, R387), life cycle and wipe (R389, R390), budgets (R79) and the state table (R377).
-/
namespace Sys2Proof.Machine

/-! ### Claims (R383, R384) -/

def claimClass (cls : Nat) : Bool := (decide (1 ≤ cls) && decide (cls ≤ 0x11)) || (decide (0x20 ≤ cls) && decide (cls ≤ 0x23))
/-- The owner of a class; HALL and LINK belong to the wing for the whole package. -/
def ownerOf (c : Ctx) (cls : Nat) : Nat := if cls = 0x22 ∨ cls = 0x23 then 4 else claimOwner c cls
def setClaim (s : State) (ctx cls o : Nat) : State :=
  let c := ctxOf s ctx
  setCtx s ctx { c with claims := Map.put c.claims cls o }
def liveStates : List CtxState := [.assembling, .sealed, .suspended]
/-- CLAIM. -/
def execClaim (f : Nat) (a0 a1 a2 a3 : Addr) (s : State) : Host.Outcome State Fault Refusal :=
  command (.claim f a0 a1 a2 a3) f a0 a1 a2 a3 s fun s =>
    let a := argsOf a0 a1 a2 a3
    serve s f (namedBits a 0x3FF 0xFF 0x7 0) fun s => onCtx s f a.a0 liveStates fun c =>
      if claimClass a.a1 = false ∨ (a.a2 ≠ 2 ∧ a.a2 ≠ 3) then completeCmd s f 4
      else if ownerOf c a.a1 ≠ 0 then completeCmd s f 9
      else completeCmd (setClaim s a.a0 a.a1 a.a2) f 0
/-- UNCLAIM: of a class that the kernel or the host owns; STATE for another's (log entry 38). -/
def execUnclaim (f : Nat) (a0 a1 a2 a3 : Addr) (s : State) : Host.Outcome State Fault Refusal :=
  command (.unclaim f a0 a1 a2 a3) f a0 a1 a2 a3 s fun s =>
    let a := argsOf a0 a1 a2 a3
    serve s f (namedBits a 0x3FF 0xFF 0 0) fun s => onCtx s f a.a0 liveStates fun c =>
      if claimClass a.a1 = false then completeCmd s f 4
      else if ownerOf c a.a1 = 1 ∨ ownerOf c a.a1 = 2 then completeCmd (setClaim s a.a0 a.a1 0) f 0
      else completeCmd s f 1
/-- A context that ends by no trap class, through no command of its host: its record goes to its own host alone (R24, R25,
R387). -/
def terminateCtx (s : State) (ctx unit : Nat) : State :=
  let c := ctxOf s ctx
  if liveStates.contains c.st then
    beginTeardown (hostRecord s c.ld { partition := lowPart s ctx, unit := unit, severity := 4, kind := 3, ctx := ctx, world := c.world }
      c.prot) ctx
  else s
/-- A record of the package itself: the wing owns HALL and LINK, so it goes to the log (R383, R386). -/
def packageClass (s : State) (cls unit severity : Nat) : State :=
  logRecord s { unit := unit, severity := severity, kind := 2, trap := cls } false

/-! ### Images and updates (R378, R379, R381, R385) -/

/-- The checks of R381 on an image for a slot of a kind. -/
def imageOk (s : State) (kind : Nat) (img : List Byte) : Bool :=
  Config.signatureOk s.pkg.keyHash 0 img && decide (s.pkg.minVersion ≤ Config.imageVersion img) && Config.imageKind img == kind
/-- Measurement registers: 0 and 1 the east and west wings, 2 the security core, 3 to 6 the dies' service images. -/
def measureImage (s : State) (reg : Nat) (img : List Byte) : State :=
  setPkg s { s.pkg with measure := Map.put s.pkg.measure reg (Config.shake256 img) }
/-- Notifications latched while no wing could serve them are served. -/
def flushNotes (s : State) : State :=
  setAgenda (setPkg s { s.pkg with waitingNotes := [] }) (s.agenda ++ s.pkg.waitingNotes.map fun n => .notify n.1 n.2.1 n.2.2)
/-- No port is in a training step (R379). -/
def portsQuiet (s : State) : Bool := s.links.ports.all fun e => e.2.st != .training
/-- Steps 4 and 5: the roles swap; a new standby that does not boot stays down, and the active wing reports it. -/
def swapWings (s : State) (u : Update) : State :=
  let up := Config.imageBoots u.image
  let old := if s.pkg.eastActive then 0 else 1
  let imgs := Map.put s.pkg.wingImages (1 - old) u.image
  let s := setPkg s { s.pkg with update := none, eastActive := !s.pkg.eastActive, standbyDown := !up
                                 wingImages := if up then Map.put imgs old u.image else imgs }
  let s := measureImage s (1 - old) u.image
  let s := if up then measureImage s old u.image else logRecord s { unit := 8, kind := 2 } false
  completeCmd (flushNotes s) u.fn 0
def tryUpdate (s : State) : State := match s.pkg.update with
  | some u => if portsQuiet s then swapWings s u else s
  | none => s
/-- The work of UPDATE on a verified operand set. -/
def startUpdate (s : State) (f : Nat) (a : Args) : State :=
  let img := homeBytes s .host a.a0 a.a1
  let kind := a.a2 % 4
  let die := a.a2 / 16 % 4
  if imageOk s kind img = false then completeCmd s f 0x0B
  else match kind with
    | 0 =>
      if Config.imageTable img ≠ s.pkg.tableMajor then completeCmd s f 0x0C
      else tryUpdate (setPkg s { s.pkg with update := some { fn := f, image := img } })
    | 1 => completeCmd (measureImage (setPkg s { s.pkg with secNext := img }) 2 img) f 0
    | _ => completeCmd (measureImage (setSvc s die { svcOf s die with newImage := some img }) (3 + die) img) f 0
/-- UPDATE (R385): on the physical function of logical device 0 only. -/
def execUpdate (f : Nat) (a0 a1 a2 a3 : Addr) (s : State) : Host.Outcome State Fault Refusal :=
  if s.pkg.power && (s.pkg.update.map Update.fn) == some f then .next (tryUpdate s)
  else command (.update f a0 a1 a2 a3) f a0 a1 a2 a3 s fun s =>
    let a := argsOf a0 a1 a2 a3
    serve s f (namedBits a allBits 0xFFFFFFFF 0x33 0) fun s =>
      if f ≠ 0 ∨ a.a2 % 4 = 3 then completeCmd s f 1
      else if a.a0 % 64 ≠ 0 ∨ ((Map.look s.ldevs 0 {}).windows.any fun w => decide (w.1 ≤ a.a0) && decide (a.a0 + a.a1 ≤ w.1 + w.2)) = false
      then completeCmd s f 4
      else startUpdate s f a
/-- UPDATE_QUIESCE_TIMEOUT (R379). -/
def execUpdateQuiesceTimeout (s : State) : Host.Outcome State Fault Refusal :=
  if s.pkg.power then
    match s.pkg.update with
    | some u => .next (completeCmd (flushNotes (setPkg s { s.pkg with update := none })) u.fn 0x0D)
    | none => .next s
  else .fault .noPower
/-- The function of a command. -/
def cmdFn : Instr → Nat
  | .create f _ _ _ _ | .setattr f _ _ _ _ | .map f _ _ _ _ | .unmap f _ _ _ _ | .sealCtx f _ _ _ _
  | .suspend f _ _ _ _ | .resume f _ _ _ _ | .ckpt f _ _ _ _ | .restore f _ _ _ _ | .destroy f _ _ _ _
  | .claim f _ _ _ _ | .unclaim f _ _ _ _ | .update f _ _ _ _ => f
  | _ => 0
/-- A SUSPEND begun and not committed has no effect: the context's gangs go on here, and UNBLOCK takes BLOCK back elsewhere. -/
def undoSuspend (s : State) (e : Nat × Ctx) : State := match e.2.suspendFn with
  | some f =>
    let s := setCtx s e.1 { ctxOf s e.1 with suspendFn := none }
    let s := (gangsOf s e.1).foldl (fun s q => setGang s q { gangOf s q with draining := false }) s
    completeCmd (postEvent s { kind := 4, ctx := e.1, world := e.2.world, pay := payOf [] }) f 0x0A
  | none => s
/-- WING_FAILOVER (R378): context commands that the failed wing had passed on and that are not committed, and a live update, complete
with FAILOVER; those that came while no wing was active are the new one's. A standby that stays down does not take over, and then
no wing is active (R379, log entry 39). -/
def execWingFailover (s : State) : Host.Outcome State Fault Refusal :=
  if s.pkg.power then
    if s.pkg.standbyDown then .next (setPkg s { s.pkg with noWing := true })
    else
      let p := s.pkg
      let lost := if p.noWing then p.lostCmds else p.waitingCmds
      let s1 := setPkg s { p with eastActive := !p.eastActive, noWing := false, lostCmds := [], update := none
                                  waitingCmds := if p.noWing then p.waitingCmds else [] }
      let s1 := s.ctxs.foldl undoSuspend (lost.foldl (fun s c => completeCmd s (cmdFn c) 0x0A) s1)
      let s1 := match p.update with
        | some u => completeCmd s1 u.fn 0x0A
        | none => s1
      .next (flushNotes s1)
  else .fault .noPower
/-- The image of a measurement register. -/
def imageOf (s : State) (reg : Nat) : List Byte :=
  if reg ≤ 1 then Map.look s.pkg.wingImages reg [] else if reg = 2 then s.pkg.secImage else (svcOf s (reg - 3)).image
/-- FIRST_HEARTBEAT (R381). -/
def execFirstHeartbeat (kind : Nat) (s : State) : Host.Outcome State Fault Refusal :=
  if s.pkg.power then
    let img := imageOf s kind
    if img.isEmpty ∨ s.pkg.life = .decommissioned then .next s
    else .next (setPkg s { s.pkg with minVersion := max s.pkg.minVersion (Config.imageVersion img) })
  else .fault .noPower

/-! ### Attestation (R380, R382) -/

/-- The logical device of a function (R354): function 16 + n is virtual function n. -/
def fnDevice (s : State) (f : Nat) : Nat :=
  if f < 16 then f else ((s.ldevs.find? fun e => e.2.vfs.contains (f - 16)).map Prod.fst).getD 16
def lifeCode : Life → Nat
  | .raw => 0 | .provisioned => 1 | .deployed => 2 | .rma => 3 | .decommissioned => 4
/-- The signed part of a quote. -/
def quoteBody (s : State) (nonce : List Byte) (ctx : Option Nat) : List Byte :=
  nonce ++ bytesOfNat 1 (lifeCode s.pkg.life) ++ bytesOfNat 4 s.pkg.minVersion
    ++ (List.range 7).flatMap (fun i => bytesOfNat 32 (Map.look s.pkg.measure i 0).toNat)
    ++ match ctx with
      | some c => bytesOfNat 1 (ctxOf s c).world ++ bytesOfNat 32 (ctxOf s c).measurement.toNat
      | none => []
/-- The identity key's signature over an attestation key's public key, by one of its leaves: 2,820 bytes (R380). -/
def certBytes (idKey leaf : Nat) : List Byte := (List.range 2820).map (Config.certificate idKey leaf)
/-- The signature of a quote: 2,692 bytes (R380). -/
def quoteSig (leaf : Nat) (body : List Byte) : List Byte := (List.range 2692).map (Config.quoteSignature leaf body)
/-- A new attestation key: the identity key's leaf index advances before its certificate exists. -/
def newAttKey (p : Pkg) : Pkg := { p with idLeaf := p.idLeaf + 1, attLeaf := 0, attCert := certBytes p.idKeys p.idLeaf }
/-- An attestation key with a leaf left: an exhausted one is replaced and certified with the identity key; none where
that key can sign no further. -/
def attKey (s : State) : Option State :=
  if s.pkg.attLeaf < 2 ^ 16 then some s
  else if s.pkg.idLeaf < 2 ^ 20 then some (setPkg s (newAttKey s.pkg))
  else none
/-- ATTESTATION_REQUEST (R382): the leaf index advances before the signature is released; the key's certificate goes with it. -/
def execAttestationRequest (f : Nat) (nonce : List Byte) (ctx : Option Nat) (s : State) : Host.Outcome State Fault Refusal :=
  if s.pkg.power then
    let allowed (c : Nat) : Bool :=
      let x := ctxOf s c
      x.ld == fnDevice s f && (x.st == .sealed || x.st == .suspended)
    if s.pkg.life ≠ .deployed ∨ (ctx.all allowed) = false then .next (emit s (.spdmError f 1))
    else if 2 ^ 20 ≤ s.pkg.idLeaf then .next (emit s (.spdmError f 0x0E))
    else match attKey s with
      | none => .next (emit s (.spdmError f 0x0E))
      | some s =>
        let body := quoteBody s nonce ctx
        let leaf := s.pkg.idKeys * 2 ^ 40 + s.pkg.idLeaf * 2 ^ 16 + s.pkg.attLeaf
        let s := setPkg s { s.pkg with attLeaf := s.pkg.attLeaf + 1 }
        .next (emit s (.quote f (body ++ quoteSig leaf body ++ s.pkg.attCert)))
  else .fault .noPower

/-! ### Registers of a function (R355, R387) -/

/-- REGISTER_WRITE: operands, the error ring, the MSI-X table; read-only registers, and those a virtual function lacks,
ignore writes. -/
def execRegisterWrite (f off : Nat) (val : Addr) (s : State) : Host.Outcome State Fault Refusal :=
  if s.pkg.power then
    let x := fnOf s f
    if 0x3000 ≤ off ∧ off < 0x4000 then .next (setFn s f { x with regs := Map.put x.regs off val })
    else if 16 ≤ f then .next s
    else if off = 0x0008 then .next (setFn s f { x with arg0 := val })
    else if off = 0x0010 then .next (setFn s f { x with arg1 := val })
    else if off = 0x0018 then .next (setFn s f { x with arg2 := val })
    else if off = 0x0020 then .next (setFn s f { x with arg3 := val })
    else if off = 0x4000 then .next (setFn s f { x with errBase := val.toNat / 4096 * 4096 })
    else if off = 0x4008 then .next (setFn s f { x with errCfg := val.toNat % 2 ^ 17 })
    else .next s
  else .fault .noPower
/-- ERRCONS_WRITE (R387). -/
def execErrconsWrite (f : Nat) (val : Word) (s : State) : Host.Outcome State Fault Refusal :=
  if s.pkg.power then
    if 16 ≤ f then .next s else .next (setFn s f { fnOf s f with errCons := val.toNat, errOver := false })
  else .fault .noPower

/-! ### Life cycle, reset and power (R389, R390) -/

/-- The wipe of R390: the state after reset, but for what lies outside the package, and the security core's non-volatile
store and fuses. What the environment still does (the agenda) stays. An image kept for the security core takes effect if it is
still accepted (R381, R385). -/
def wiped (s : State) : State :=
  let new := !s.pkg.secNext.isEmpty && imageOk s 1 s.pkg.secNext
  let sec := if new then s.pkg.secNext else s.pkg.secImage
  let wing := Map.look s.pkg.wingImages 0 []
  let kept := s.pkg.measure.filter fun e => decide (e.1 ≤ 2)
  { State.reset with
    agenda := s.agenda, out := s.out, fresh := s.fresh, nextId := s.nextId, time := s.time, host := s.host, ldevs := s.ldevs
    written := s.written
    pkg := { State.reset.pkg with
      life := s.pkg.life, minVersion := s.pkg.minVersion, keyHash := s.pkg.keyHash, wingImages := s.pkg.wingImages
      secImage := sec, tableMajor := if wing.isEmpty then 0 else Config.imageTable wing
      measure := if s.pkg.secNext.isEmpty || new then kept else if sec.isEmpty then Map.del kept 2 else Map.put kept 2 (Config.shake256 sec)
      idLeaf := s.pkg.idLeaf, attLeaf := s.pkg.attLeaf, idKeys := s.pkg.idKeys, attCert := s.pkg.attCert } }
/-- A change of state: fused, then the wipe. A new identity key certifies a first attestation key (R380). -/
def toLife (s : State) (l : Life) : State :=
  let s := setPkg s { s.pkg with life := l }
  let s := if l = .provisioned then setPkg s (newAttKey { s.pkg with idKeys := s.pkg.idKeys + 1, idLeaf := 0 }) else s
  wiped s
/-- A token of a kind (R389): its signature verifies, the state is one it leaves, and on leaving DEPLOYED every context
is FREE; otherwise it is refused, in the last case with STATE. -/
def useToken (s : State) (kind : Nat) (tok : List Byte) (src : List Life) (dst : Life) : Host.Outcome State Fault Refusal :=
  if s.pkg.power then
    if Config.signatureOk s.pkg.keyHash kind tok && src.contains s.pkg.life then
      if s.pkg.life != .deployed || s.ctxs.all fun e => e.2.st == .free then .next (toLife s dst)
      else .next (emit s (.spdmError 0 1))
    else .next s
  else .fault .noPower
def execProvisioningToken (tok : List Byte) (s : State) : Host.Outcome State Fault Refusal := useToken s 1 tok [.raw] .provisioned
def execDeploymentToken (tok : List Byte) (s : State) : Host.Outcome State Fault Refusal := useToken s 2 tok [.provisioned] .deployed
def execRmaToken (tok : List Byte) (s : State) : Host.Outcome State Fault Refusal := useToken s 3 tok [.deployed] .rma
def execRepairToken (tok : List Byte) (s : State) : Host.Outcome State Fault Refusal := useToken s 4 tok [.rma] .provisioned
def execDecommissionToken (tok : List Byte) (s : State) : Host.Outcome State Fault Refusal :=
  useToken s 5 tok [.provisioned, .deployed, .rma] .decommissioned
/-- PACKAGE_RESET (R390): the only event that a package without power takes. -/
def execPackageReset (s : State) : Host.Outcome State Fault Refusal := .next (wiped s)
/-- POWER_LOSS (R390). -/
def execPowerLoss (s : State) : Host.Outcome State Fault Refusal :=
  let s := wiped s
  .next (setPkg s { s.pkg with power := false })

/-! ### Budgets (R79) and the state table (R377) -/

/-- A new period of a unit: the whole budget, less what is overdrawn. -/
def refillCtx (kind unit : Nat) (c : Ctx) : Ctx :=
  match Map.find c.left (budgetKey kind unit) with
  | some l => { c with left := Map.put c.left (budgetKey kind unit) (budgetOf c kind + min l 0) }
  | none => c
def refill (s : State) (kind unit : Nat) : State :=
  { s with ctxs := s.ctxs.map fun e => (e.1, refillCtx kind unit e.2) }
/-- BUDGET_PERIOD: waiting flits of a port may leave. -/
def execBudgetPeriod (unit : BudgetUnit) (s : State) : Host.Outcome State Fault Refusal :=
  if s.pkg.power then
    match unit with
    | .copy p => .next (refill s 0 p)
    | .link p => .next (portFlush p (Map.look s.links.ports p {}).sendQ.length (refill s 1 p))
    | .service d => .next (refill s 2 d)
    | .hold p => .next (refill s 3 p)
    | .matrix c => .next (refill s 4 c)
  else .fault .noPower
/-- A partition holds a resident allocation (R20). -/
def partBusy (s : State) (p : Nat) : Bool := s.blocks.any fun e => e.2.part == p && !e.2.kmode && blockHere s e.1
/-- A new carving of a die, in MiB, while every partition whose share changes is empty. -/
def carveDie (s : State) (die : Nat) (units : List Nat) : State :=
  let ps := (List.range 6).map (· + 6 * die)
  let changed := ps.filter fun p => units.getD (p - 6 * die) 0 != Map.look s.pkg.carve p 0
  if 126 < ((List.range 6).map fun i => units.getD i 0).sum ∨ changed.any (partBusy s) = true then s
  else changed.foldl (fun s p =>
    let s := wipeRange s (.die p) 0 (2 ^ 27)
    setPkg s { s.pkg with carve := Map.put s.pkg.carve p (units.getD (p - 6 * die) 0) }) s
/-- The larder of a partition is set: frames of its channel group that are free join it zeroed, others leave it (R333, R335). -/
def setLarderFrames (s : State) (p : Nat) (frames : List Nat) : State :=
  let old := larderOf s p
  let gone := old.filter fun f => !frames.contains f
  let new := (frames.filter fun f => !old.contains f && (ownOf s f).use == 0 && framePart s (f * 65536) == p
    && decide (f * 65536 < 24 * 2 ^ 35)).eraseDups
  let s := gone.foldl (fun s f => setOwn s f {}) s
  let s := new.foldl (fun s f => setOwn (wipeFrame s f) f { use := 1 }) s
  setLarder s p ((old.filter frames.contains) ++ new)
/-- Claims that the active wing makes and releases (R383, R384). -/
def wingClaim (s : State) (ctx cls owner : Nat) : State :=
  let o := ownerOf (ctxOf s ctx) cls
  if (Map.find s.ctxs ctx).isNone ∨ claimClass cls = false then s
  else if owner = 0 then (if o = 3 ∨ o = 4 then setClaim s ctx cls 0 else s)
  else if o = 0 ∧ (owner = 3 ∨ owner = 4) then setClaim s ctx cls owner else s
end Sys2Proof.Machine
end

