-- ==== Sys2Proof/Machine/Porch.lean ====
section
/-!
DEFINITION. Machine/Porch.lean: the host side: logical devices (R354), host accesses (R247), bias flips (R334, R355), ATS
invalidations (R357), soft errors (R219), and stores performed at their home (R236).
-/
namespace Sys2Proof.Machine

/-- STORE_PERFORMED (R236): the i-th pending store of a group, unless an earlier one overlaps it. Stores of its core that the
group has read and that meet it go first (R235). -/
def storeMeets (p q : PendStore) : Bool :=
  p.mem == q.mem && decide (p.addr < q.addr + q.bytes.length) && decide (q.addr < p.addr + p.bytes.length)
def execStorePerformed (g i : Nat) (s : State) : Host.Outcome State Fault Refusal :=
  if s.pkg.power then
    let x := grpOf s g
    match x.stores[i]? with
    | some p =>
      if (x.stores.take i).any (storeMeets p) then .next s
      else
        let s := performMates s g (storeHits p.mem p.addr p.bytes.length)
        .next (performAll g (setGrp s g { grpOf s g with stores := x.stores.eraseIdx i }) [p])
    | none => .next s
  else .fault .noPower

/-- LOGICAL_DEVICE_BIND (R354, R356, R76): a virtual function belongs to one logical device. -/
def execLogicalDeviceBind (ld : Nat) (bound : Bool) (windows : List (Nat × Nat)) (route : BindRoute) (s : State) :
    Host.Outcome State Fault Refusal :=
  if s.pkg.power then
    if 16 ≤ ld then .next s
    else
      let taken (v : Nat) : Bool := s.ldevs.any fun e => e.1 != ld && e.2.vfs.contains v
      let mine := route.vfs.filter fun v => decide (1 ≤ v) && decide (v ≤ 64) && !taken v
      let x : LDev := if bound then { bound := true, windows := windows, atomics := route.atomics, port := route.port % 2, vfs := mine } else {}
      .next { s with ldevs := Map.put s.ldevs ld x }
  else .fault .noPower
/-- Whether the ownership table lets a host's access fill a slice: the frame has an owner (R333, log entry 61). -/
def hostMay (s : State) (a : Nat) : Bool := decide (2 ≤ (ownOf s (a / 65536)).use)
/-- Bytes of a host's write to device memory; those of a frame that has no owner are not performed. -/
def hostPut : State → Nat → List Byte → State
  | s, _, [] => s
  | s, a, b :: bs => hostPut (if hostMay s a then homeWrite s .dev a [b] else s) (a + 1) bs
/-- HOST_WRITE (R247): device memory through CXL.mem at the slices, or the host's own memory. -/
def execHostWrite (dev : Bool) (addr : Nat) (bytes : List Byte) (s : State) : Host.Outcome State Fault Refusal :=
  if s.pkg.power then
    if dev && decide (24 * 2 ^ 35 < addr + bytes.length) then .next s
    else .next (if dev then hostPut s addr bytes else homeWrite s .host addr bytes)
  else .fault .noPower
/-- HOST_READ (R247): a word with an uncorrectable error, or in a frame that has no owner, reads undefined. -/
def execHostRead (addr n : Nat) (s : State) : Host.Outcome State Fault Refusal :=
  if s.pkg.power then
    let byte (a : Nat) : Byte := if eccAt s [] .dev a 1 || !hostMay s a then Config.freeByte s.fresh a else homeByte s .dev a
    .next (emit (setFresh s (s.fresh + 1)) (.readData ((List.range n).map fun i => byte (addr + i))))
  else .fault .noPower

/-! ### Bias flips (R334, R355) -/

/-- Whether a frame is a PRESENT device-class frame of a context of a function, owned by its world. -/
def flipOwned (s : State) (f ctx frame : Nat) : Bool :=
  let c := ctxOf s ctx
  let o := ownOf s frame
  c.fn == f && liveStates.contains c.st && o.world == c.world && decide (2 ≤ o.use) && c.keys.contains o.key
    && c.leaves.any fun l => (leafFrames l).contains frame
/-- Started copies that touch a frame. -/
def copiesOnFrame (s : State) (frame : Nat) : List (Nat × Nat) :=
  s.blocks.flatMap fun e => (e.2.copy.cmds.filter fun c =>
    c.phase == .started && (touchedFrames s e.1 c).contains frame).map fun c => (e.1, c.seq)
/-- Operations of other members under way on a frame, an ordered reduction's turn word included (R275). -/
def remoteOnFrame (s : State) (frame : Nat) : Bool :=
  s.links.dst.any fun d => d.mem == .dev
    && ((decide (d.pa / 65536 ≤ frame) && decide (frame * 65536 < d.pa + 64 * d.n)) || (d.kind == 3 && d.turn / 65536 == frame))
/-- The fields of FLIP (R355); its reserved bits read as zero (R3). -/
def flipFields (val : Addr) : Addr := val &&& 0x800FFFFFFFFF03FF
/-- FLIP. -/
def execFlip (f : Nat) (raw : Addr) (s : State) : Host.Outcome State Fault Refusal :=
  if s.pkg.power then
    let val := flipFields raw
    let x := fnOf s f
    let frame := bitsOf val.toNat 51 16
    let toDev := bitsOf val.toNat 63 63 == 1
    let ctx := bitsOf val.toNat 9 0
    let o := ownOf s frame
    if x.flipst = 1 then .next s
    else if flipOwned s f ctx frame = false ∨ 2 ≤ o.bias then .next (setFn s f { x with flip := val, flipst := 3 })
    else if o.bias = (if toDev then 0 else 1) then .next (setFn s f { x with flip := val, flipst := 2 })
    else
      let s := setOwn s frame { o with bias := if toDev then 3 else 2 }
      let s := { s with flips := s.flips ++ [{ fn := f, frame := frame, toDevice := toDev, cmds := copiesOnFrame s frame }] }
      .next (setFn s f { x with flip := val, flipst := 1 })
  else .fault .noPower
/-- Step 2 of a flip is over. -/
def flipReady (s : State) (x : FlipOp) : Bool := x.cmds.all (fun c => cmdGone s c.1 c.2) && !remoteOnFrame s x.frame
/-- BIAS_FLIP_COMPLETE. -/
def execBiasFlipComplete (frame : Nat) (s : State) : Host.Outcome State Fault Refusal :=
  if s.pkg.power then
    match s.flips.find? fun x => x.frame == frame with
    | some x =>
      if flipReady s x then
        let s := setOwn s frame { ownOf s frame with bias := if x.toDevice then 0 else 1 }
        let s := { s with flips := s.flips.filter fun y => y.frame != frame }
        .next (setFn s x.fn { fnOf s x.fn with flipst := 2 })
      else .next s
    | none => .next s
  else .fault .noPower

/-! ### ATS invalidations (R357) -/

/-- The pages of host class that an invalidation of host addresses covers: (context, page, private). -/
def hostPages (s : State) (ld addr n : Nat) : List (Nat × Nat × Bool) :=
  s.ctxs.flatMap fun e =>
    if e.2.ld ≠ ld then [] else (e.2.leaves.filter fun l =>
      l.cls == 1 && !l.broken && decide (l.frame < addr + n) && decide (addr < l.frame + 65536)).map fun l => (e.1, l.va / 65536, e.2.prot)
/-- The held writes of a context's blocks into a page of host class, as (block, entry): a copy that staged them has granules of the
page still to write (R357, R358). -/
def heldOnPage (s : State) (ctx page : Nat) : List (Nat × Nat) :=
  (s.blocks.filter fun e => e.2.ctx == ctx).flatMap fun e =>
    (e.2.held.filter fun h => !h.remote && h.mem == .host && h.va.toNat / 65536 == page).map fun h => (e.1, h.seq)
/-- ATS_INVALIDATION: a copy in flight translates what is left of a page that is not private afresh. -/
def execAtsInvalidation (ld addr n : Nat) (s : State) : Host.Outcome State Fault Refusal :=
  if s.pkg.power then
    let ps := hostPages s ld addr n
    let private_ := ps.filter fun p => p.2.2
    let cmds := (private_.flatMap fun p => touchingCopies s p.1 p.2.1 1).eraseDups
    let ops := (private_.flatMap fun p => touchingOps s p.1 p.2.1 1).eraseDups
    let held := (private_.flatMap fun p => heldOnPage s p.1 p.2.1).eraseDups
    let s := ps.foldl (fun s p => if p.2.2 then invalidate s p.1 p.2.1 1 else invalidateAll s p.1 p.2.1 1) s
    if cmds.isEmpty && ops.isEmpty && held.isEmpty then .next (emit s (.atsDone ld addr n))
    else .next { s with ats := s.ats ++ [{ ld := ld, addr := addr, n := n, cmds := cmds, ops := ops, held := held }] }
  else .fault .noPower
/-- A copy aborted with a status: what it has not had accepted elsewhere ends with it. -/
def abortCopy (st : CmdStatus) (s : State) (c : Nat × Nat) : State :=
  if cmdGone s c.1 c.2 then s
  else
    let mine (o : SrcOp) : Bool := o.blk == c.1 && o.seq == c.2 && o.heldSeq.isNone && !o.dataSent
    let back := ((s.links.src.filter mine).map fun o => o.unacked.length).sum
    let s := setLinks s { s.links with src := s.links.src.filter fun o => !mine o }
    endCopy s c.1 c.2 st 0 back
/-- Another member's put aborted: as after a teardown, what it has not performed is discarded and acknowledged (R352, log
entry 62). -/
def abortOp (s : State) (o : Nat × Nat) : State :=
  setLinks s { s.links with dst := s.links.dst.map fun d => if d.src = o.1 ∧ d.tag = o.2 then { d with world := 64 } else d }
/-- A held write aborted: its entry goes, and its command ends with PAGE. -/
def abortHeld (s : State) (h : Nat × Nat) : State :=
  match (blkOf s h.1).held.find? fun e => e.seq == h.2 with
  | some e => dropEntry (heldError s h.1 e .page) h.1 h.2
  | none => s
/-- Whether nothing is left that a withheld completion waits for. -/
def heldGone (s : State) (h : Nat × Nat) : Bool := !((blkOf s h.1).held.any fun e => e.seq == h.2)
def atsQuiet (s : State) (x : Ats) : Bool :=
  x.cmds.all (fun c => cmdGone s c.1 c.2) && x.ops.all (dstGone s) && x.held.all (heldGone s)
/-- ATS_INVALIDATION_TIMEOUT: the i-th withheld completion is sent, after the copies still running are aborted with PAGE. The
model also runs it once no copy is left (log entry 2). -/
def execAtsInvalidationTimeout (i : Nat) (s : State) : Host.Outcome State Fault Refusal :=
  if s.pkg.power then
    match s.ats[i]? with
    | some x =>
      let s := x.held.foldl abortHeld (x.ops.foldl abortOp (x.cmds.foldl (abortCopy .page) s))
      .next (emit { s with ats := s.ats.eraseIdx i } (.atsDone x.ld x.addr x.n))
    | none => .next s
  else .fault .noPower

/-! ### Errors of stored words (R219, R383) -/

/-- The partition a memory lies in. -/
def memPart (s : State) (m : MemName) (a : Nat) : Nat := match m with
  | .win b | .ring b | .slot b => (blkOf s b).part
  | .spill g => (blkOf s (grpOf s g).blk).part
  | .die k => if k < 24 then k else 6 * (k - 24)
  | .dev => framePart s a
  | .host => 24
  | .table c => (partsOf (ctxOf s c).parts.toNat).headD 24
/-- Bytes of virtual addresses that one entry of a level of the table covers (R323). -/
def entrySpan (level : Nat) : Nat := if level < 3 then pageSize level else 2 ^ 43
/-- An entry of the translation table takes an uncorrectable error: it is not valid from then on, no leaf under it maps anything, and
the error is reported as ECC (R324, log entry 63). The address names the leaf that maps it, or past 2^56 times a level 1 to 3 the
entry of that level that points to the next table. -/
def breakEntry (s : State) (ctx a : Nat) : State :=
  let va := a % 2 ^ 56
  let level := a / 2 ^ 56
  let c := ctxOf s ctx
  let under (l : Leaf) : Bool := !l.broken &&
    if level = 0 then decide (l.va ≤ va) && decide (va < l.va + pageSize l.level)
    else decide (l.level < level) && l.va / entrySpan level == va / entrySpan level
  match c.leaves.find? under with
  | none => s
  | some l =>
    routeRecord (setCtx s ctx { c with leaves := c.leaves.map fun l => if under l then { l with broken := true } else l }) 15
      { partition := (partsOf c.parts.toNat).headD 0, unit := 4, severity := 0, kind := 1, ctx := ctx, world := c.world, trap := 15
        page := some (if level = 0 then l.va else va / entrySpan level * entrySpan level) }
/-- Whether a corrected error came in the last 2^24 cycles, 2^20 periods (R383, log entry 49). -/
def recent (s : State) (n : Nat) : Bool := decide (s.time < n + 2 ^ 20)
/-- The corrected errors that count for a context: those in its partitions since its creation or its last record. -/
def correctedIn (s : State) (ctx : Nat) : Nat := ((ctxOf s ctx).corrected.filter (recent s)).length
/-- A corrected error in a partition counts for each context that is bound to it. -/
def countError (s : State) (p : Nat) (c : Ctx) : Ctx :=
  if (partsOf c.parts.toNat).contains p then { c with corrected := s.time :: c.corrected.filter (recent s) } else c
/-- SOFT_ERROR: an uncorrectable error stays in its word; a corrected one is counted by the active wing. -/
def execSoftError (mem : MemName) (addr : Nat) (unc : Bool) (s : State) : Host.Outcome State Fault Refusal :=
  if s.pkg.power then
    let w := (mem, addr / 4 * 4)
    if mem = .host then .next s
    else if unc then match mem with
      | .table c => .next (breakEntry s c addr)
      | _ => .next (if s.poison.contains w then s else setPoison s (w :: s.poison))
    else .next { s with ctxs := s.ctxs.map fun e => (e.1, countError s (memPart s mem addr) e.2) }
  else .fault .noPower
/-- CORRECTED_ERROR_THRESHOLD: more than 256 in the context's partitions in 2^24 cycles; the context's count starts again. -/
def execCorrectedErrorThreshold (ctx : Nat) (s : State) : Host.Outcome State Fault Refusal :=
  if s.pkg.power then
    if (Map.find s.ctxs ctx).isSome ∧ 256 < correctedIn s ctx then
      .next (raiseClass (setCtx s ctx { ctxOf s ctx with corrected := [] }) ctx 0x21 8 1)
    else .next s
  else .fault .noPower

end Sys2Proof.Machine
end

