-- ==== Sys2Proof/Machine/Link.lean ====
section
/-!
DEFINITION. Machine/Link.lean: the chip-to-chip ports (R342 to R348) and the one-sided operations over them, at their source
and at their destination (R349 to R352).
-/
namespace Sys2Proof.Machine

/-! ### Ports (R343) -/

def portAt (s : State) (p : Nat) : Port := Map.look s.links.ports p {}
def setPort (s : State) (p : Nat) (x : Port) : State := setLinks s { s.links with ports := Map.put s.links.ports p x }
def linkUp (x : Port) : Bool := x.st == .up || x.st == .degraded
/-- A port whose link runs: a FENCED one too, for the flits that pass it (R346, R347). -/
def linkRuns (x : Port) : Bool := linkUp x || x.st == .fenced
/-- Channel-0 flits that no route carried, or that a port now out of use has not passed, take the route there is now (R350: the
far member discards a second copy); the operations whose flits it held send theirs again (R349). -/
def rerouteFrom (s : State) (p : Nat) : State :=
  let x := portAt s p
  let far (fl : Flit) : Bool := fl.dst != s.hall.self && !(x.st == .fenced && passesFence fl)
  let q := (x.replay ++ x.sendQ).filter fun fl => far fl && fl.vc == 0
  let lost (o : SrcOp) : Bool := x.sendQ.any fun fl =>
    far fl && fl.kind == 6 && fl.vc == 1 && fl.src == s.hall.self && fl.dst == o.dst && fl.tag == o.tag
  let s := setLinks s { s.links with src := s.links.src.map fun o => if lost o then { o with dataSent := false } else o }
  let s := setPort s p { x with sendQ := x.sendQ.filter fun fl => !far fl, replay := if x.st = .retired then [] else x.replay }
  q.foldl sendFlit s
/-- RETIRED raises LINK (R383). -/
def retirePort (s : State) (p : Nat) : State :=
  if (portAt s p).st = .retired then s
  else packageClass (rerouteFrom (setPort s p { portAt s p with st := .retired }) p) 0x23 5 0
/-- PORT_ENABLE. -/
def execPortEnable (p : Nat) (s : State) : Host.Outcome State Fault Refusal :=
  if s.pkg.power then
    .next (if p < 24 ∧ (portAt s p).st = .down ∧ wingActs s = true then setPort s p { portAt s p with st := .training } else s)
  else .fault .noPower
/-- A training that fails; the eighth running retires the port. -/
def trainingFails (s : State) (p : Nat) : State :=
  let x := portAt s p
  let s := setPort s p { x with st := .down, fails := x.fails + 1 }
  if x.fails + 1 = 8 then retirePort s p else s
/-- A port's link works: what the far side has not taken is sent again, then whatever waits (R343, R347, R349). -/
def linkStarts (s : State) (p : Nat) : State :=
  let x := portAt s p
  let s := x.replay.foldl (fun s fl => emit s (.flit p fl)) s
  rerouteFrom (portFlush p x.sendQ.length s) 24
/-- TRAINING_TIMEOUT, RETRAIN_TIMER. -/
def execTrainingTimeout (p : Nat) (s : State) : Host.Outcome State Fault Refusal :=
  if s.pkg.power then .next (if (portAt s p).st = .training then trainingFails s p else s) else .fault .noPower
def execRetrainTimer (p : Nat) (s : State) : Host.Outcome State Fault Refusal :=
  if s.pkg.power then
    let x := portAt s p
    .next (if p < 24 ∧ x.st = .down ∧ 0 < x.fails then setPort s p { x with st := .training } else s)
  else .fault .noPower
/-- LOSS_OF_LOCK. -/
def loseLock (s : State) (p : Nat) : State :=
  let x := portAt s p
  if linkUp x then setPort s p { x with st := .training, retries := 0 } else s
def execLossOfLock (p : Nat) (s : State) : Host.Outcome State Fault Refusal :=
  if s.pkg.power then .next (loseLock s p) else .fault .noPower
/-- LANE_FAILURE: a port never runs on fewer than 6 lanes (R342). -/
def execLaneFailure (p : Nat) (s : State) : Host.Outcome State Fault Refusal :=
  if s.pkg.power then
    let x := portAt s p
    .next (if linkUp x = false then s
      else if 7 ≤ x.lanes then setPort s p { x with st := .degraded, lanes := x.lanes - 1 } else loseLock s p)
  else .fault .noPower
/-- PORT_RETIRE. -/
def execPortRetire (p : Nat) (s : State) : Host.Outcome State Fault Refusal :=
  if s.pkg.power then .next (if p < 24 ∧ wingActs s = true then retirePort s p else s) else .fault .noPower

/-! ### Receiving (R344, R346 to R348) -/

/-- A control flit carries the whole pause mask, or the next lseq expected (R345). -/
def ctlFlit (s : State) (kind : Nat) (pay : List Byte) : Flit := { src := s.hall.self, vc := 3, kind := kind, pay := padPay pay }
def sendRetry (s : State) (p : Nat) : State := portSend s p (ctlFlit s 13 (bytesOfNat 2 (portAt s p).rxSeq))
/-- A lack covers the flits up to it. -/
def trimReplay (lack : Nat) (l : List Flit) : List Flit :=
  if l.any fun f => f.lseq == lack then (l.dropWhile fun f => f.lseq != lack).drop 1 else l
def takeLack (s : State) (p : Nat) (fl : Flit) : State :=
  let x := portAt s p
  let l := trimReplay fl.lack x.replay
  portFlush p x.sendQ.length (setPort s p { x with replay := l, retries := if l.length = x.replay.length then x.retries else 0 })
/-- A flit that came in and has neither gone on nor been taken. -/
def stillHere (s : State) (fl : Flit) : Bool := s.links.ch0Held.contains fl || s.links.ports.any fun e => e.2.sendQ.contains fl
/-- The flits of a channel that a port's receive buffer holds (R348). -/
def rxLoad (s : State) (p c : Nat) : Nat := (s.links.transit.filter fun e => e.1 == p && e.2.vc == c && stillHere s e.2).length
/-- The pause mask of a port: a bit is set at 128 free flits of 512, cleared at 256. -/
def pauseMask (s : State) (p : Nat) (old : BitVec 3) : BitVec 3 :=
  let bit (c : Nat) : Bool := if 384 ≤ rxLoad s p c then true else if rxLoad s p c ≤ 256 then false else old.getLsbD c
  BitVec.ofNat 3 ((if bit 0 then 1 else 0) + (if bit 1 then 2 else 0) + (if bit 2 then 4 else 0))
def settlePause (s : State) (p : Nat) : State :=
  let x := portAt s p
  let m := pauseMask s p x.pauseSent
  if m = x.pauseSent then s else portSend (setPort s p { x with pauseSent := m }) p (ctlFlit s 12 (bytesOfNat 3 m.toNat))
/-- At the end of a period every working port states its pause mask, by a PAUSE where it has changed, else by an IDLE where it has
nothing to send (R347, R348, log entry 64). -/
def idlePort (s : State) (p : Nat) : State :=
  let x := portAt s p
  if linkRuns x = false then s
  else if pauseMask s p x.pauseSent ≠ x.pauseSent then settlePause s p
  else if x.sendQ.isEmpty then portSend s p (ctlFlit s 0 (bytesOfNat 3 x.pauseSent.toNat))
  else s
def idlePorts (s : State) : State :=
  let s := setLinks s { s.links with transit := s.links.transit.filter fun e => stillHere s e.2 }
  (List.range 24).foldl idlePort s
/-- The virtual address a head flit names (R345), and that of the turn word of an ordered reduction (log entry 24). -/
def headVa (fl : Flit) : Nat := fieldAt fl.pay 0 8 % 2 ^ 56
def turnAddr (fl : Flit) : Nat := fieldAt fl.pay 28 8 % 2 ^ 56 + fieldAt fl.pay 16 4
def vaFlips (s : State) (ctx va : Nat) : Bool := match walk s ctx va with
  | some l => leafPresent l && leafDevice l && decide (2 ≤ (ownOf s (leafPa l va / 65536)).bias)
  | none => false
/-- A head that touches a flipping frame is held at its start (R334): it waits at the loopback path. -/
def headHeld (s : State) (fl : Flit) : Bool :=
  ((fl.kind == 4 || fl.kind == 7 || fl.kind == 9 || fl.kind == 14) && vaFlips s fl.ctx (headVa fl))
    || (fl.kind == 14 && vaFlips s fl.ctx (turnAddr fl))
/-- A flit for this chip is taken by what it is for, or held. -/
def deliverFlit (s : State) (fl : Flit) (body : State → State) : State :=
  if headHeld s fl then setPort s 24 { portAt s 24 with sendQ := (portAt s 24).sendQ ++ [fl] } else body s
/-- A flit accepted in link order: for this chip, or for another member, to which it goes on (R349); a FENCED port discards what
does not pass it (R346). While it waits here it takes a place in the port's receive buffer. -/
def acceptFlit (p : Nat) (fl : Flit) (s : State) (body : State → State) : State :=
  if (portAt s p).st == .fenced && !passesFence fl then s
  else
    let s := setLinks s { s.links with transit := s.links.transit ++ [(p, fl)] }
    settlePause (if fl.dst = s.hall.self then deliverFlit s fl body else portSend s (portOf s fl.dst) fl) p
/-- A flit of a kind arrives at a port, or by the loopback path (port 24), where it is charged (R353): it is discarded and asked
for again where its CRC fails or it is out of link order. A flit of another kind than the event's is no such event. -/
def receive (p : Nat) (fl : Flit) (ok : Bool) (s : State) (body : State → State) : Host.Outcome State Fault Refusal :=
  if s.pkg.power then
    if ok = false then .next s
    else if p = 24 then
      if (portAt s 24).sendQ.contains fl && fl.dst == s.hall.self && !headHeld s fl
          && (freeFlit s fl || decide (0 < budgetLeft (ctxOf s fl.ctx) 1 24)) then
        let s := dropQueued s 24 fl
        .next (body (if freeFlit s fl then s else chargeBudget s fl.ctx 1 24 112))
      else .next s
    else if linkRuns (portAt s p) = false then .next s
    else if fl.crc ≠ flitCrc fl then .next (sendRetry s p)
    else
      let s := takeLack s p fl
      if fl.vc = 3 then .next (body s)
      else if fl.lseq ≠ (portAt s p).rxSeq then .next (sendRetry s p)
      else
        let x := portAt s p
        .next (acceptFlit p fl (setPort s p { x with rxSeq := (x.rxSeq + 1) % 65536 }) body)
  else .fault .noPower
/-- A flit of a kind on a channel. -/
def isFlit (fl : Flit) (kind vc : Nat) : Bool := fl.kind == kind && fl.vc == vc
/-- IDLE and PAUSE carry the far side's whole pause mask. -/
def takePause (p : Nat) (fl : Flit) (s : State) : State :=
  let x := portAt s p
  portFlush p x.sendQ.length (setPort s p { x with pauseSeen := BitVec.ofNat 3 (fieldAt fl.pay 0 3) })
def execIdle (p : Nat) (fl : Flit) (s : State) : Host.Outcome State Fault Refusal :=
  receive p fl (isFlit fl 0 3) s (takePause p fl)
def execPause (p : Nat) (fl : Flit) (s : State) : Host.Outcome State Fault Refusal :=
  receive p fl (isFlit fl 12 3) s (takePause p fl)
/-- RETRY: the replay buffer is sent again from the flit named; the sixteenth running for one flit retrains the port (R343). -/
def replayFrom (p n : Nat) (s : State) : State :=
  ((portAt s p).replay.dropWhile fun f => f.lseq != n).foldl (fun s f => emit s (.flit p f)) s
def takeRetry (p : Nat) (fl : Flit) (s : State) : State :=
  let n := fieldAt fl.pay 0 2
  let x := portAt s p
  let k := if x.retries ≠ 0 ∧ x.retryOf = n then x.retries + 1 else 1
  let s := setPort s p { x with retries := k, retryOf := n }
  if 16 ≤ k then loseLock s p else replayFrom p n s
def execRetry (p : Nat) (fl : Flit) (s : State) : Host.Outcome State Fault Refusal :=
  receive p fl (isFlit fl 13 3) s (takeRetry p fl)
/-- FLIT_FAILS_CRC. -/
def execFlitFailsCrc (p : Nat) (s : State) : Host.Outcome State Fault Refusal :=
  if s.pkg.power then .next (if linkRuns (portAt s p) then sendRetry s p else s) else .fault .noPower

/-! ### Operations at their destination (R349, R352) -/

def seenOp (s : State) (fl : Flit) : Option Seen := s.links.seen.find? fun x => x.src == fl.src && x.tag == fl.tag
/-- The route of the answers to a member. -/
def backRoute (s : State) (src : Nat) : Nat := if src = s.hall.self then 24 else portOf s src
/-- Remembers an operation; of one source the newest 2^23 stay. -/
def noteOp (s : State) (fl : Flit) : State :=
  let mine := (s.links.seen.filter fun x => x.src == fl.src).take (2 ^ 23 - 1)
  let rest := s.links.seen.filter fun x => x.src != fl.src
  setLinks s { s.links with seen := { src := fl.src, tag := fl.tag, port := backRoute s fl.src } :: mine ++ rest }
/-- A duplicate is answered again, on the route there is now, and performed no more; data not yet all here may come again from its
start. -/
def answerAgain (s : State) (x : Seen) : State :=
  let p := backRoute s x.src
  let s := setLinks s { s.links with
    dst := s.links.dst.map fun d => if d.src = x.src ∧ d.tag = x.tag ∧ d.got.length < 64 * d.n then { d with got := [] } else d
    seen := s.links.seen.map fun y => if y.src = x.src ∧ y.tag = x.tag then { y with port := p } else y }
  x.reply.foldl (fun s fl => sendOn s p fl) s
def replyFlit (s : State) (fl : Flit) (kind : Nat) (pay : List Byte) : Flit :=
  { dst := fl.src, src := s.hall.self, world := fl.world, ctx := fl.ctx, tag := fl.tag, vc := 2, kind := kind, pay := padPay pay }
def statusByte : TrapCode → Byte
  | .page => 1
  | .prot => 2
  | _ => 3
/-- The check of a whole range under the header's context (R352 step 2): a status, or where it lies. An access of a committed
block uses the page (R325). -/
def headCheck (s : State) (fl : Flit) (va n : Nat) (r w spec : Bool) : State × Sum Byte (MemName × Nat) :=
  let c := ctxOf s fl.ctx
  if c.world ≠ fl.world ∨ c.st = .free ∨ c.st = .teardown ∨ n = 0 ∨ 65536 < va % 65536 + n then (s, .inl 2)
  else
    let (l, s) := tlbLook s fl.ctx va
    match checkLeaf s c.world l va r w false with
    | some t => (s, .inl (statusByte t))
    | none =>
      let l := l.getD {}
      (if spec then s else usePage s fl.ctx l, .inr (leafMem l, leafPa l va))
def headGranules (fl : Flit) : Nat := if fieldAt fl.pay 8 1 ≤ 64 then fieldAt fl.pay 8 1 else 0
/-- Whether a word of a granule of a range of n granules is within the masks. -/
def maskOn (n first last j i : Nat) : Bool :=
  (j != 0 || first / 2 ^ i % 2 == 1) && (j + 1 != n || last / 2 ^ i % 2 == 1)
/-- The byte offsets of the words within the masks. -/
def maskedWords (n first last : Nat) : List Nat :=
  (List.range n).flatMap fun j => ((List.range 16).filter (maskOn n first last j)).map fun i => 64 * j + 4 * i
/-- Space and translation are held from the WACC on. -/
def addDst (s : State) (d : DstOp) : State := setLinks s { s.links with dst := s.links.dst ++ [d] }
def headOp (fl : Flit) (kind va pa : Nat) (m : MemName) : DstOp :=
  { src := fl.src, tag := fl.tag, kind := kind, world := fl.world, ctx := fl.ctx, va := va, mem := m, pa := pa
    n := headGranules fl, first := fieldAt fl.pay 10 2, last := fieldAt fl.pay 12 2 }
/-- An operation not seen before is taken; a duplicate answered again. -/
def takeHead (fl : Flit) (body : State → State) (s : State) : State := match seenOp s fl with
  | some x => answerAgain s x
  | none => body (noteOp s fl)
/-- WHEAD: the put is checked and answered by WACC. -/
def takePut (fl : Flit) (s : State) : State :=
  let va := headVa fl / 64 * 64
  match headCheck s fl va (64 * headGranules fl) false true false with
  | (s, .inl e) => sendReply s fl.tag (replyFlit s fl 5 [e])
  | (s, .inr (m, a)) => sendReply (addDst s (headOp fl 0 va a m)) fl.tag (replyFlit s fl 5 [0])
def execWhead (p : Nat) (fl : Flit) (s : State) : Host.Outcome State Fault Refusal :=
  receive p fl (isFlit fl 4 1) s (takeHead fl (takePut fl))
/-- The parts of an ordered reduction that are here. -/
def partsHere (s : State) (src lead : Nat) : List DstOp := s.links.dst.filter fun d => d.kind == 3 && d.src == src && d.lead == lead
/-- A part of a reduction is refused: the parts accepted before it go. -/
def refuseRadd (s : State) (fl : Flit) (e : Byte) : State :=
  let lead := fieldAt fl.pay 36 4
  let gone (d : DstOp) : Bool := d.kind == 3 && d.src == fl.src && d.lead == lead
  sendReply (setLinks s { s.links with dst := s.links.dst.filter fun d => !gone d }) fl.tag (replyFlit s fl 5 [e])
/-- RADD: destination and turn word are device memory that the context may read and write (R275). Status 5 is ATROUTE, to which
R345 gives no number (log entry 50). -/
def takeRadd (fl : Flit) (s : State) : State :=
  let va := headVa fl / 64 * 64
  let turn := turnAddr fl
  match headCheck s fl va (64 * headGranules fl) true true false with
  | (s, .inl e) => refuseRadd s fl e
  | (s, .inr (m, a)) => match headCheck s fl turn 4 true true false with
    | (s, .inl e) => refuseRadd s fl e
    | (s, .inr (mt, t)) =>
      if m ≠ .dev ∨ mt ≠ .dev then refuseRadd s fl 5
      else
        let want := (fieldAt fl.pay 24 4 + 2 ^ 32 - fieldAt fl.pay 20 4) % 2 ^ 32
        sendReply (addDst s { headOp fl 3 va a m with turn := t, turnVa := turn, lead := fieldAt fl.pay 36 4
                                                      parts := fieldAt fl.pay 40 4, f := want }) fl.tag (replyFlit s fl 5 [0])
def execRadd (p : Nat) (fl : Flit) (s : State) : Host.Outcome State Fault Refusal :=
  receive p fl (isFlit fl 14 1) s (takeHead fl (takeRadd fl))
/-- Data flits of granules, 112 bytes to a flit, the last zero-padded. -/
def dataFlits (fl : Flit) (vc : Nat) : Nat → List Byte → List Flit
  | 0, _ => []
  | n + 1, bs => if bs.isEmpty then [] else { fl with vc := vc, kind := 6, pay := padPay (bs.take 112) } :: dataFlits fl vc n (bs.drop 112)
def sendReplies (s : State) (op : Nat) (fls : List Flit) : State := fls.foldl (fun s f => sendReply s op f) s
/-- RREQ: a get reads its source words before RHEAD is sent. -/
def takeGet (fl : Flit) (s : State) : State :=
  let va := headVa fl / 64 * 64
  let n := headGranules fl
  match headCheck s fl va (64 * n) true false (fieldAt fl.pay 9 1 % 2 == 1) with
  | (s, .inl e) => sendReply s fl.tag (replyFlit s fl 8 [e])
  | (s, .inr (m, a)) =>
    let ws := maskedWords n (fieldAt fl.pay 10 2) (fieldAt fl.pay 12 2)
    if ws.any fun o => eccAt s [] m (a + o) 4 then sendReply s fl.tag (replyFlit s fl 8 [4])
    else
      let bytes := (List.range (64 * n)).map fun i => if ws.contains (i / 4 * 4) then homeByte s m (a + i) else 0
      sendReplies s fl.tag (replyFlit s fl 8 [0] :: dataFlits (replyFlit s fl 6 []) 2 (64 * n) bytes)
def execRreq (p : Nat) (fl : Flit) (s : State) : Host.Outcome State Fault Refusal :=
  receive p fl (isFlit fl 7 1) s (takeHead fl (takeGet fl))
/-- ATOM: performed at the home; its ATOMR also acknowledges it. -/
def takeAtom (fl : Flit) (s : State) : State :=
  let va := headVa fl
  let fn := fieldAt fl.pay 8 1
  let w64 := fieldAt fl.pay 9 1 % 2 == 1
  let n := if w64 then 8 else 4
  let answer (s : State) (st : Byte) (old : BitVec 64) : State :=
    sendReply s fl.tag (replyFlit s fl 10 ([st, 0, 0, 0, 0, 0, 0, 0] ++ dwordBytes old))
  if 8 < fn ∨ (fn = 8 ∧ w64 = true) ∨ va % n ≠ 0 then answer s 2 0
  else match headCheck s fl va n true true false with
    | (s, .inl e) => answer s e 0
    | (s, .inr (m, a)) =>
      if m = .host ∧ hostAtomics s fl.ctx = false then answer s 5 0
      else if eccAt s [] m a n then answer s 4 0
      else
        let (s, old) := atomHome s m a fn w64 (BitVec.ofNat 64 (fieldAt fl.pay 16 8)) (BitVec.ofNat 64 (fieldAt fl.pay 24 8))
        answer s 0 old
def execAtomFlit (p : Nat) (fl : Flit) (s : State) : Host.Outcome State Fault Refusal :=
  receive p fl (isFlit fl 9 1) s (takeHead fl (takeAtom fl))

/-! ### Data at the destination -/

def putDst (s : State) (d : DstOp) : State :=
  setLinks s { s.links with dst := s.links.dst.map fun x => if x.src = d.src ∧ x.tag = d.tag then d else x }
def dropDst (s : State) (d : DstOp) : State :=
  setLinks s { s.links with dst := s.links.dst.filter fun x => !(x.src == d.src && x.tag == d.tag) }
/-- Whether an operation's context is torn down here, or its granules are no longer to be performed (R352). -/
def dstDead (s : State) (d : DstOp) : Bool :=
  let c := ctxOf s d.ctx
  d.world == 64 || c.world != d.world || c.st == .free || c.st == .teardown
/-- Writes the words of granules lo to hi − 1 within the masks; those of a context torn down are discarded (R352). -/
def putGranules (s : State) (d : DstOp) (lo hi : Nat) : State :=
  if dstDead s d then s
  else ((maskedWords d.n d.first d.last).filter fun o => decide (64 * lo ≤ o) && decide (o < 64 * hi)).foldl
    (fun s o => homeWrite s d.mem (d.pa + o) ((d.got.drop o).take 4)) s
def ackRange (s : State) (d : DstOp) (lo hi : Nat) : State :=
  ackFlits s (if d.world = 64 then 0 else d.world) d.ctx d.src d.tag (hi - lo + 1) ((List.range (hi - lo)).map fun i => (d.tag + lo + i) % 2 ^ 24)
/-- Performs what has arrived of a put: every granule once, acknowledged by fourteens and at its end. -/
def performPut (s : State) (d : DstOp) : State :=
  let hi := min d.n (d.got.length / 64)
  let s := putGranules s d d.index hi
  let i := max d.index hi
  if i = d.n then dropDst (ackRange s d d.acked i) d
  else
    let a := d.acked + (i - d.acked) / 14 * 14
    putDst (ackRange s d d.acked a) { d with index := i, acked := a }
/-- The words that a part of a reduction adds. -/
def partWords (s : State) (d : DstOp) : List RaddWord :=
  (maskedWords d.n d.first d.last).map fun o =>
    { pa := d.pa + o, va := BitVec.ofNat 64 (d.va + o), key := frameKey s d.mem (d.pa + o), val := some (wordOf ((d.got.drop o).take 4)) }
/-- An ordered reduction waits for its turn at the home once the data of its every part is here (R275): one contribution of all
of them. -/
def performRadd (s : State) (d : DstOp) : State :=
  let s := putDst s d
  if d.got.length < 64 * d.n then s
  else if dstDead s d then dropDst (ackRange s d 0 d.n) d
  else
    let ps := partsHere s d.src d.lead
    if ps.length = d.parts ∧ (ps.all fun p => decide (64 * p.n ≤ p.got.length)) = true then
      let s := ps.foldl (fun s p => putDst s { p with index := 1 }) s
      addContribution s { words := ps.flatMap (partWords s)
                          turn := { pa := d.turn, va := BitVec.ofNat 64 d.turnVa, key := frameKey s .dev d.turn }
                          want := d.f, remote := some (d.src, d.lead), ctx := d.ctx }
    else s
def takeData (fl : Flit) (s : State) : State :=
  match s.links.dst.find? fun d => d.src == fl.src && d.tag == fl.tag with
  | some d =>
    if 64 * d.n ≤ d.got.length then s
    else
      let d := { d with got := d.got ++ padPay fl.pay }
      if d.kind = 0 then performPut s d else performRadd s d
  | none => s

/-! ### Answers at the source (R349, R352) -/

def findOp (s : State) (fl : Flit) : Option SrcOp := s.links.src.find? fun o => o.dst == fl.src && o.tag == fl.tag
def dropOp (s : State) (o : SrcOp) : State :=
  setLinks s { s.links with src := s.links.src.filter fun x => !(x.dst == o.dst && x.tag == o.tag) }
/-- Remote writes no longer counted (R245). -/
def uncount (s : State) (o : SrcOp) (n : Nat) : State :=
  if o.heldSeq.isSome ∨ n = 0 ∨ (Map.find s.blocks o.blk).isNone then s
  else
    let s := setGrp s o.grp { grpOf s o.grp with ack := (grpOf s o.grp).ack - n }
    let b := blkOf s o.blk
    let s := setBlk s o.blk { b with copy := { b.copy with cmds := b.copy.cmds.map fun c =>
      if c.seq = o.seq then { c with owedAcks := c.owedAcks - n } else c } }
    settleGrid s b.kern
def wireStatus : Nat → CmdStatus
  | 1 => .page | 2 => .prot | 3 => .owner | 5 => .atroute | _ => .ecc
/-- A command ends in error, one that had completed also: it is reported at the next WAITB that names its batch (R245, R349). -/
def failCopy (s : State) (blk seq : Nat) (st : CmdStatus) (addr : Nat) : State :=
  if cmdGone s blk seq then
    match (blkOf s blk).copy.cmds.find? fun c => c.seq == seq && c.phase == .done .ok with
    | some c => setCopyCmd s blk { c with phase := .done st, reported := false, errAddr := BitVec.ofNat 64 addr }
    | none => s
  else endCopy s blk seq st addr 0
/-- The held entry of a drained operation goes once no operation of it is left. -/
def drainDone (s : State) (o : SrcOp) : State := match o.heldSeq with
  | some h => if s.links.src.any fun x => x.blk == o.blk && x.heldSeq == some h then s else settleGrid (dropEntry s o.blk h) (blkOf s o.blk).kern
  | none => s
/-- An operation ends in error: its command completes so, and what that command, or that held entry, has not had accepted ends
with it. Its failing address is that of its first byte (log entry 81). -/
def failOp (s : State) (o : SrcOp) (st : CmdStatus) : State :=
  match o.heldSeq with
  | some h =>
    let s := setLinks s { s.links with src := s.links.src.filter fun x => !(x.blk == o.blk && x.heldSeq == some h) }
    match (blkOf s o.blk).held.find? fun e => e.seq == h with
    | some e => drainDone (heldError s o.blk { e with pod := o.pod } st) o
    | none => s
  | none =>
    let mine (x : SrcOp) : Bool := x.blk == o.blk && x.seq == o.seq && x.heldSeq.isNone && (!x.dataSent || (x.dst == o.dst && x.tag == o.tag))
    let gone := s.links.src.filter mine
    let s := setLinks s { s.links with src := s.links.src.filter fun x => !mine x }
    let s := gone.foldl (fun s x => uncount s x x.unacked.length) s
    failCopy s o.blk o.seq st o.pod.toNat
/-- The data flits of a put or of a part of a reduction leave, on the operation's route; where that no longer works, a later timeout
sends the operation again, and its data with it (R349). -/
def sendData (s : State) (o : SrcOp) : State :=
  let fl : Flit := { dst := o.dst, src := s.hall.self, world := o.world, ctx := o.ctx, tag := o.tag }
  if o.dst ≠ s.hall.self ∧ portWorks s o.port = false then putOp s { o with okHead := true }
  else (dataFlits fl 1 (o.data.length + 1) o.data).foldl (fun s f => sendOn s o.port f) (putOp s { o with okHead := true, dataSent := true })
/-- The parts of a reduction at its source. -/
def raddParts (s : State) (o : SrcOp) : List SrcOp := s.links.src.filter fun x => x.dst == o.dst && x.kind == 3 && x.lead == o.lead
/-- A part of a reduction is accepted: the next part's head is sent, and the data of all of them once every part is accepted. -/
def acceptPart (s : State) (o : SrcOp) : State :=
  let s := putOp s { o with okHead := true }
  if o.dataSent then sendData s o
  else match (raddParts s o).find? fun x => !x.started with
    | some n => sendHead s n
    | none =>
      let ps := raddParts s o
      if ps.all SrcOp.okHead then ps.foldl (fun s x => if x.dataSent then s else sendData s x) s else s
/-- WACC. -/
def takeWacc (fl : Flit) (s : State) : State := match findOp s fl with
  | some o =>
    let st := fieldAt fl.pay 0 1
    if o.okHead ∨ (o.kind ≠ 0 ∧ o.kind ≠ 3) then s
    else if st ≠ 0 then failOp s o (wireStatus st)
    else if o.kind = 0 then sendData s o else acceptPart s o
  | none => s
def execWacc (p : Nat) (fl : Flit) (s : State) : Host.Outcome State Fault Refusal :=
  receive p fl (isFlit fl 5 2) s (takeWacc fl)
/-- RHEAD. -/
def takeRhead (fl : Flit) (s : State) : State := match findOp s fl with
  | some o =>
    let st := fieldAt fl.pay 0 1
    if o.kind ≠ 1 then s else if st = 0 then putOp s { o with okHead := true, inbuf := [] } else failOp s o (wireStatus st)
  | none => s
def execRhead (p : Nat) (fl : Flit) (s : State) : Host.Outcome State Fault Refusal :=
  receive p fl (isFlit fl 8 2) s (takeRhead fl)
/-- The bytes of a get under the held writes of the block's gang to where they came from (R126). -/
def getBytes (s : State) (o : SrcOp) (bs : List Byte) : List Byte :=
  let a := o.pod.toNat
  let src := if o.dst = s.hall.self then vaMem s o.ctx (a % 2 ^ 56) else some (.dev, 2 ^ 64 + a)
  match src with
  | some (m, x) => overlayAll (gangHeld s o.blk) m x bs
  | none => bs
/-- A get's bytes reach their local place; those of a speculative block into die scratch are staged, granule by granule (R280). -/
def landGet (s : State) (o : SrcOp) (bs : List Byte) : State :=
  if stagesGet s o then
    match (blkOf s o.blk).copy.cmds.find? fun c => c.seq == o.seq with
    | some c => (cutRun toGranule (bs.length / 4 + 1) o.addr 0 bs.length).foldl
        (fun s p => engineWrite s o.blk c o.mem (o.addr + p.1) (o.addr + p.1) ((bs.drop p.1).take p.2)) s
    | none => s
  else copyWrite s o.blk o.seq o.grp o.mem o.addr bs
/-- The pending counts of the chunks that a get has now filled fall (R281). -/
def landChunks (s : State) (o : SrcOp) : State :=
  match (blkOf s o.blk).copy.cmds.find? fun c => c.seq == o.seq with
  | some c =>
    let left := s.links.src.filter fun x => x.blk == o.blk && x.seq == o.seq && x.heldSeq.isNone
    let open_ (n : Nat) : Bool := left.any fun x => decide (512 * n < x.addr + x.len) && decide (x.addr < 512 * (n + 1))
    let b := countChunks (blkOf s o.blk) (c.chunks.filter fun n => !open_ n) false
    setBlk s o.blk { b with copy := putCmd b.copy { c with chunks := c.chunks.filter open_ } }
  | none => s
/-- The data of a get: written when all of it is here. -/
def takeGetData (fl : Flit) (s : State) : State := match findOp s fl with
  | some o =>
    if o.kind ≠ 1 ∨ o.okHead = false then s
    else
      let o := { o with inbuf := o.inbuf ++ padPay fl.pay }
      if o.inbuf.length < 64 * o.n then putOp s o
      else landChunks (dropOp (landGet s o (getBytes s o ((o.inbuf.drop o.first).take o.len))) o) o
  | none => s
/-- DATA: of its head's channel (R345). -/
def execData (p : Nat) (fl : Flit) (s : State) : Host.Outcome State Fault Refusal :=
  receive p fl (isFlit fl 6 1 || isFlit fl 6 2) s fun s => if fl.vc = 1 then takeData fl s else takeGetData fl s
/-- ATOMR. -/
def takeAtomr (fl : Flit) (s : State) : State := match findOp s fl with
  | some o =>
    let st := fieldAt fl.pay 0 1
    if o.kind ≠ 2 then s
    else if st ≠ 0 then failOp s o (wireStatus st)
    else
      let s := if o.len = 0 then s else copyWrite s o.blk o.seq o.grp o.mem o.addr ((fl.pay.drop 8).take o.len)
      let s := drainDone (uncount (dropOp s o) o o.unacked.length) o
      if o.heldSeq.isSome ∧ o.len ≠ 0 then endCopy s o.blk o.seq .ok 0 0 else s
  | none => s
def execAtomr (p : Nat) (fl : Flit) (s : State) : Host.Outcome State Fault Refusal :=
  receive p fl (isFlit fl 10 2) s (takeAtomr fl)
/-- ACK: each record acknowledges one granule. -/
def takeAck (src : Nat) (s : State) (t : Nat) : State :=
  match s.links.src.find? fun o => o.dst == src && o.unacked.contains t with
  | some o =>
    let o := { o with unacked := o.unacked.erase t }
    let s := uncount (putOp s o) o 1
    if o.unacked.isEmpty = false then s else drainDone (dropOp s o) o
  | none => s
def ackTags (fl : Flit) : List Nat := (List.range 14).map fun i => fieldAt fl.pay (8 * i) 3
def execAck (p : Nat) (fl : Flit) (s : State) : Host.Outcome State Fault Refusal :=
  receive p fl (isFlit fl 11 2) s fun s => (ackTags fl).foldl (takeAck fl.src) s
/-- OPERATION_TIMEOUT (R349): an operation under way is sent again on the current route, if there is one. -/
def execOperationTimeout (dst tag : Nat) (s : State) : Host.Outcome State Fault Refusal :=
  if s.pkg.power then
    match s.links.src.find? fun o => o.dst == dst && o.tag == tag with
    | some o =>
      if o.started = false ∨ (dst ≠ s.hall.self ∧ portOf s dst = 24) then .next s
      else .next (sendHead s { o with okHead := false, inbuf := [] })
    | none => .next s
  else .fault .noPower
/-- LOSS or FENCEOUT of a member ends what is under way with it (R245, R349, R419); the number of its next channel-0 flit starts
its sequence here afresh. -/
def dropMember (s : State) (m : Nat) : State :=
  let s := (s.links.src.filter fun o => o.dst == m).foldl (fun s o =>
    if s.links.src.contains o then failOp s o .atroute else s) s
  let keep (fl : Flit) : Bool := fl.dst != m || fl.vc == 0
  setLinks s { s.links with
    dst := s.links.dst.filter fun d => d.src != m
    ports := s.links.ports.map fun e => (e.1, { e.2 with sendQ := e.2.sendQ.filter keep })
    ch0New := s.links.ch0New.filter (· != m) ++ [m]
    ch0Held := s.links.ch0Held.filter fun f => f.src != m }

end Sys2Proof.Machine
end

