-- ==== Sys2Proof/Machine/Replica.lean ====
section
/-!
DEFINITION. Machine/Replica.lean: the replicated scheduler state (R365): its canonical form, placement (R369, R370), and what
each delivered event does to it and to this chip (R366, R372), with the predictor (R123, R124) and the shapes (R131, R133).
-/
namespace Sys2Proof.Machine

def setRepl (s : State) (r : Repl) : State := setHall s { s.hall with repl := r }
def inView (s : State) (m : Nat) : Bool := s.hall.repl.members.getLsbD m
def membersOf (s : State) : List Nat := (List.range 256).filter (inView s)
def isMember (s : State) : Bool := inView s s.hall.self
def maskBit (m : Nat) : BitVec 256 := BitVec.ofNat 256 (2 ^ m)

/-! ### The canonical form (R365, log entry 36) -/

/-- Every item as 64-bit values, a list led by its length. -/
def wide4 (x : BitVec 256) : List Nat := (List.range 4).map fun i => x.toNat / 2 ^ (64 * i) % 2 ^ 64
def ofWide4 (l : List Nat) : BitVec 256 := BitVec.ofNat 256 (l.getD 0 0 + 2 ^ 64 * l.getD 1 0 + 2 ^ 128 * l.getD 2 0 + 2 ^ 192 * l.getD 3 0)
def flag (b : Bool) : Nat := if b then 1 else 0
def payNums (bs : List Byte) : List Nat := (List.range 5).map fun i => fieldAt bs (8 * i) 8
def rankMask (rs : List Nat) : BitVec 256 := rs.foldl (fun m r => m ||| maskBit r) 0
def kernelNums (e : Nat × KRow) : List Nat :=
  let r := e.2
  [e.1, r.ctx, r.world, r.origin] ++ payNums r.pay0 ++ payNums r.pay1 ++ [r.launch, r.step.toNat, r.st] ++ wide4 (rankMask r.finished)
    ++ [flag r.stepReq, r.predicted, r.launched, flag r.resolved.isSome, (r.resolved.map Prod.fst).getD 0
       , ((r.resolved.map Prod.snd).getD 0).toNat, flag r.atSubmit]
def rowsNums {α : Type} (f : α → List Nat) (l : List α) : List Nat := l.length :: l.flatMap f
def canonNums (r : Repl) : List Nat :=
  [r.view] ++ wide4 r.members ++ wide4 r.condemned ++ [flag r.halt, r.haltAt, r.last]
    ++ rowsNums (fun e => [e.1, e.2.ordinal, e.2.step.toNat, flag e.2.suspended, e.2.bound]) r.ctxs
    ++ rowsNums (fun e => [e.1, e.2]) r.queues
    ++ rowsNums kernelNums r.kernels
    ++ rowsNums (fun e => [e.ctx, e.image, e.h.length] ++ (e.h ++ [0, 0, 0, 0]).take 4 ++ [e.last]) r.preds
    ++ rowsNums (fun e => [e.ctx, e.seq, e.image, e.count, e.param.toNat]) r.resolves
    ++ rowsNums (fun e => [e.1, e.2.ctx, e.2.kernel, e.2.rank]) r.place
    ++ rowsNums (fun e => [e.c, e.member] ++ wide4 e.digest ++ [flag e.halt]) r.tallies
def canonBytes (r : Repl) : List Byte := (canonNums r).flatMap (bytesOfNat 8)
def digestOf (s : State) : BitVec 256 := Config.shake256 (canonBytes s.hall.repl)
/-- Rows of w values, as many as the leading length says, and the rest. -/
def takeRows (w : Nat) : Nat → List Nat → List (List Nat) × List Nat
  | 0, l => ([], l)
  | n + 1, l => let (rs, r) := takeRows w n (l.drop w); (l.take w :: rs, r)
def readRows (w : Nat) : List Nat → List (List Nat) × List Nat
  | [] => ([], [])
  | n :: l => takeRows w n l
def bytesOfNums (l : List Nat) : List Byte := l.flatMap (bytesOfNat 8)
def kernelOfNums (x : List Nat) : Nat × KRow :=
  let g (i : Nat) : Nat := x.getD i 0
  let fin := ofWide4 (x.drop 17)
  (g 0, { ctx := g 1, world := g 2, origin := g 3, pay0 := bytesOfNums ((x.drop 4).take 5), pay1 := bytesOfNums ((x.drop 9).take 5)
          launch := g 14, step := BitVec.ofNat 64 (g 15), st := g 16, finished := (List.range 256).filter fin.getLsbD
          stepReq := g 21 == 1, predicted := g 22, launched := g 23
          resolved := if g 24 = 1 then some (g 25, BitVec.ofNat 32 (g 26)) else none, atSubmit := g 27 == 1 })
/-- The state that a canonical form holds, and what comes after it. -/
def readCanon (l : List Nat) : Repl × List Nat :=
  let g (i : Nat) : Nat := l.getD i 0
  let (cs, l1) := readRows 5 (l.drop 12)
  let (qs, l2) := readRows 2 l1
  let (ks, l3) := readRows 28 l2
  let (ps, l4) := readRows 8 l3
  let (vs, l5) := readRows 5 l4
  let (pl, l6) := readRows 4 l5
  let (ts, l7) := readRows 7 l6
  let r : Repl :=
    { view := g 0, members := ofWide4 (l.drop 1), condemned := ofWide4 (l.drop 5), halt := g 9 == 1, haltAt := g 10, last := g 11
      ctxs := cs.map fun x => (x.getD 0 0, { ordinal := x.getD 1 0, step := BitVec.ofNat 64 (x.getD 2 0), suspended := x.getD 3 0 == 1, bound := x.getD 4 0 })
      queues := qs.map fun x => (x.getD 0 0, x.getD 1 0)
      kernels := ks.map kernelOfNums
      preds := ps.map fun x => { ctx := x.getD 0 0, image := x.getD 1 0, h := (x.drop 3).take (x.getD 2 0), last := x.getD 7 0 }
      resolves := vs.map fun x => { ctx := x.getD 0 0, seq := x.getD 1 0, image := x.getD 2 0, count := x.getD 3 0, param := BitVec.ofNat 32 (x.getD 4 0) }
      place := pl.map fun x => (x.getD 0 0, { ctx := x.getD 1 0, kernel := x.getD 2 0, rank := x.getD 3 0 })
      tallies := ts.map fun x => { c := x.getD 0 0, member := x.getD 1 0, digest := ofWide4 (x.drop 2), halt := x.getD 6 0 == 1 } }
  (r, l7)
/-- What a snapshot brings beside the canonical form: when each member joined, and which of the last votes are settled, without
which a joiner could not count a vote as a copy does (log entry 36). -/
def snapNums (s : State) : List Nat :=
  canonNums s.hall.repl ++ rowsNums (fun e => [e.1, e.2]) s.hall.since
    ++ rowsNums (fun c => [c]) (s.hall.voted.filter fun c => decide (s.hall.repl.last < c + 256))
def snapBytes (s : State) : List Byte := (snapNums s).flatMap (bytesOfNat 8)
/-- The members' joining points and the settled votes. -/
def readBeside (l : List Nat) : Map Nat × List Nat :=
  let (js, l1) := readRows 2 l
  ((js.map fun x => (x.getD 0 0, x.getD 1 0)), ((readRows 1 l1).1.map fun x => x.getD 0 0))

/-! ### Placement (R369, R370) -/

/-- The partitions that a member has bound to a context's identifier and world (R359). -/
def partsAt (s : State) (m ctx world : Nat) : Nat :=
  if m = s.hall.self then
    let c := ctxOf s ctx
    if liveStates.contains c.st ∧ c.world = world then c.parts.toNat else 0
  else
    let x := Map.look s.hall.bindings (1024 * m + ctx) 0
    if x / 2 ^ 24 = world then x % 2 ^ 24 else 0
def ctxClusters (s : State) (m ctx world : Nat) : List Nat :=
  (List.range 48).filter fun c => partsAt s m ctx world / 2 ^ (c / 2) % 2 == 1
def freeRowsAt (s : State) (m ctx world : Nat) : List Nat :=
  (ctxClusters s m ctx world).filter fun c => (Map.find s.hall.repl.place (48 * m + c)).isNone
def carries (s : State) (m k : Nat) : Bool := s.hall.repl.place.any fun e => e.1 / 48 == m && e.2.kernel == k
def insertCand (x : Nat × Nat) : List (Nat × Nat) → List (Nat × Nat)
  | [] => [x]
  | y :: r => if y.2 < x.2 then x :: y :: r else y :: insertCand x r
/-- The candidates: by free rows descending, then member ascending. -/
def candidates (s : State) (k ctx world : Nat) : List (Nat × Nat) :=
  let ms := (membersOf s).filter fun m => !s.hall.repl.condemned.getLsbD m && partsAt s m ctx world != 0 && !carries s m k
    && !(freeRowsAt s m ctx world).isEmpty
  ms.foldl (fun l m => insertCand (m, (freeRowsAt s m ctx world).length) l) []
def takeRow (m ctx k r : Nat) (s : State) (c : Nat) : State :=
  setRepl s { s.hall.repl with place := Map.put s.hall.repl.place (48 * m + c) { ctx := ctx, kernel := k, rank := r } }
def setRowK (s : State) (k : Nat) (r : KRow) : State := setRepl s { s.hall.repl with kernels := Map.put s.hall.repl.kernels k r }
def rowK (s : State) (k : Nat) : KRow := kernRow s k
/-- What this chip keeps of a kernel from its SUBMIT on. Writes to the image's bank count against the launch from the first launch
of the image that is still under way (R217). -/
def openKern (s : State) (k : Nat) (r : KRow) : State :=
  let same := s.kerns.filter fun e => e.2.ctx == r.ctx && e.2.image == kImage r
  setKern s k
    { ctx := r.ctx, world := r.world, image := kImage r, launch := r.launch, x := fieldAt r.pay0 8 4, y := fieldAt r.pay0 12 2
      z := fieldAt r.pay0 14 2, nrank := kNrank r, param := BitVec.ofNat 32 (fieldAt r.pay0 16 4), args := wordsOf 8 r.pay1, step := r.step
      since := same.foldl (fun n e => min n e.2.since) s.stored.length }
/-- A rank comes to this chip: its gangs are to be distributed afresh (R106), and its image is read again (R52). -/
def startRank (s : State) (k rank : Nat) : State :=
  let r := rowK s k
  let s := if (Map.find s.kerns k).isSome then s else openKern s k r
  let x := kernOf s k
  let gs := (rankGangs r rank).filter fun q => decide (q * kGang r < shapeLimit r)
  setKern s k { x with
    todo := Map.put x.todo rank gs, openBlocks := Map.put x.openBlocks rank 0, read := x.read.erase rank, hdrs := Map.del x.hdrs rank
    next := Map.del x.next rank, diverged := x.diverged.erase rank, finished := x.finished.erase rank, reqs := x.reqs.filter (· != rank) }
/-- A rank takes rows of a member. -/
def placeRank (k : Nat) (s : State) (e : Nat × Nat) : State :=
  let r := rowK s k
  let rows := (freeRowsAt s e.2 r.ctx r.world).take (rankGangs r e.1).length
  let s := rows.foldl (takeRow e.2 r.ctx k e.1) s
  if e.2 = s.hall.self then startRank s k e.1 else s
def ctxBlocked (s : State) (ctx : Nat) : Bool := (Map.look s.hall.repl.ctxs ctx {}).suspended
/-- place(K, ranks); none where K stays WAITING. -/
def placeRanks (s : State) (k : Nat) (ranks : List Nat) : Option State :=
  let r := rowK s k
  let c := candidates s k r.ctx r.world
  if ctxBlocked s r.ctx ∨ c.length < ranks.length then none
  else
    let s := (ranks.zip (c.map Prod.fst)).foldl (placeRank k) s
    some (setRowK s k { rowK s k with st := 1 })
/-- The rows of a kernel, or of one rank of it, become free. -/
def freeRows (s : State) (k : Nat) (rank : Option Nat) : State :=
  setRepl s { s.hall.repl with place := s.hall.repl.place.filter fun e =>
    !(e.2.kernel == k && (match rank with | some r => e.2.rank == r | none => true)) }
/-- Every block of a kernel here is killed without draining (R372); a speculative one is squashed. Its grid barrier goes first, so
that no arrival is sent for the blocks that go (R264). -/
def killHere (s : State) (k : Nat) : State :=
  let s := setKern s k { kernOf s k with dead := true, killed := true }
  let s := (blocksOf s k).foldl (fun s b => if (blkOf s b).spec then squashBlock s b else removeBlock s b) s
  { s with kerns := Map.del s.kerns k }

/-! ### The end of a launch (R113, R365, R366) -/

/-- The origin completes the LAUNCH, or writes a child's record (R96, R93). -/
def endLaunch (s : State) (k err : Nat) : State :=
  match Map.find s.hall.origins k with
  | none => s
  | some l =>
    let s := setHall s { s.hall with origins := Map.del s.hall.origins k }
    match l.ref with
    | some c => outcome s c err
    | none => if l.record && liveStates.contains (ctxOf s l.ctx).st then
        queueRecord s l.ctx { ring := l.ring, words := match l.node with
          | some (i, seq) => recordWords false true i l.queue err l.tag seq
          | none => recordWords true false 0 l.queue err l.tag k }
      else s
/-- A kernel leaves the table, DONE or FAILED. -/
def endKernel (s : State) (k err : Nat) : State :=
  let s := freeRows (killHere s k) k none
  endLaunch (setRepl s { s.hall.repl with kernels := Map.del s.hall.repl.kernels k }) k err
/-- A kernel whose ranks are all finished is DONE; S advances where a rank asked (R316, R317). -/
def settleKernel (s : State) (k : Nat) : State :=
  let r := rowK s k
  if (Map.find s.hall.repl.kernels k).isNone ∨ kDone r = false then s
  else
    let c := Map.look s.hall.repl.ctxs r.ctx {}
    let up := r.stepReq && !(ctxOf s r.ctx).applied.contains k
    let s := if up then setRepl s { s.hall.repl with ctxs := Map.put s.hall.repl.ctxs r.ctx { c with step := c.step + 1 } } else s
    endKernel s k 0

/-! ### Trying kernels (R370) -/

/-- The members of the view that hold a partition of a context. -/
def holders (s : State) (ctx world : Nat) : List Nat := (membersOf s).filter fun m => partsAt s m ctx world != 0
/-- More ranks than members that hold a partition of the context (R104). -/
def gridFails (s : State) (k : Nat) : Bool :=
  let r := rowK s k
  decide ((holders s r.ctx r.world).length < kNrank r + 1)
/-- Tries one kernel: it fails with GRID, is placed, or stays WAITING. -/
def tryKernel (s : State) (k : Nat) : State :=
  if gridFails s k then endKernel s k 7 else (placeRanks s k (unplaced s k)).getD s
def waitingK (s : State) (k : Nat) : Bool := match Map.find s.hall.repl.kernels k with
  | some r => r.st == 0
  | none => false
/-- The waiting kernels by descending priority, then ascending identifier. -/
def insertWait (x : Nat × Nat) : List (Nat × Nat) → List (Nat × Nat)
  | [] => [x]
  | y :: r => if y.2 < x.2 then x :: y :: r else y :: insertWait x r
def waitList (s : State) : List Nat :=
  ((s.hall.repl.kernels.filter fun e => e.2.st == 0).foldl (fun l e => insertWait (e.1, kPrio s e.2) l) []).map Prod.fst
/-- Each in turn; one that stays WAITING blocks the later ones of its own context. -/
def tryList : List Nat → List Nat → State → State
  | [], _, s => s
  | k :: ks, blocked, s =>
    let ctx := (rowK s k).ctx
    if blocked.contains ctx then tryList ks blocked s
    else
      let s := tryKernel s k
      tryList ks (if waitingK s k then ctx :: blocked else blocked) s
def tryWaiting (s : State) : State := tryList (waitList s) [] s

/-! ### The predictor and RESOLVE (R123, R124, R131, R133) -/

def predEntry (s : State) (ctx image : Nat) : Option PredEntry := s.hall.repl.preds.find? fun e => e.ctx == ctx && e.image == image
/-- P of R123. -/
def predictCount (s : State) (r : KRow) : Nat :=
  let h := ((predEntry s r.ctx (kImage r)).map PredEntry.h).getD []
  let pred := if h.isEmpty then kBound r
    else match fieldAt r.pay0 28 1 with
      | 1 => h.headD 0
      | 2 => listMax h
      | _ => kBound r
  min (kBound r) (max (fieldAt r.pay0 8 4) pred)
def insertPred (e : PredEntry) : List PredEntry → List PredEntry
  | [] => [e]
  | x :: r => if e.ctx < x.ctx ∨ (e.ctx = x.ctx ∧ e.image < x.image) then e :: x :: r else x :: insertPred e r
/-- R124. -/
def updatePred (s : State) (ctx image t seq : Nat) : State :=
  let old := (predEntry s ctx image).getD { ctx := ctx, image := image }
  let mine := s.hall.repl.preds.filter fun e => e.ctx == ctx
  let gone (e : PredEntry) : Bool := e.ctx == ctx && (e.image == image ||
    ((predEntry s ctx image).isNone && decide (32 ≤ mine.length) && mine.all fun x => decide (e.last ≤ x.last)))
  setRepl s { s.hall.repl with preds := insertPred { old with h := (t :: old.h).take 4, last := seq }
                                          (s.hall.repl.preds.filter fun e => !gone e) }
/-- What a resolution does on this chip (R131): the tail is to be distributed, gangs beyond T are not; speculative blocks
commit or go. -/
def resolveHere (s : State) (k t : Nat) (old : KRow) : State :=
  match Map.find s.kerns k with
  | none => s
  | some x =>
    let n := kGang old
    let todo (rank : Nat) (l : List Nat) : List Nat :=
      (l ++ (rankGangs old rank).filter fun q => decide (shapeLimit old ≤ q * n)).filter fun q => decide (q * n < t)
    let s := setKern s k { x with todo := x.todo.map fun e => (e.1, todo e.1 e.2) }
    let s := (blocksOf s k).foldl (fun s b => if (blkOf s b).logical < t then commitBlock s b else squashBlock s b) s
    settleGrid ((x.todo.map Prod.fst).foldl (fun s r => if emptyRank (rowK s k) r then s else finishRank s k r) s) k
/-- A grid barrier after its ranks moved: the coordinator drops the arrivals that came from members no longer of the view, and every
chip sends its own again (R263, R264, R418). -/
def reopenGrid (s : State) (k : Nat) : State :=
  match Map.find s.kerns k with
  | none => s
  | some x =>
    let here (a : Nat) : Bool := s.hall.repl.members.getLsbD (a / 256)
    settleGrid (setKern s k { x with rankArr := x.rankArr.map fun e => (e.1, e.2.filter here)
                                     sentArr := x.sentArr.filter fun p => p.1 != x.episode + 1 }) k
/-- RESOLVE (T, P') matched with a kernel in the table. -/
def resolveKernel (s : State) (k t : Nat) (p : Word) (seq : Nat) : State :=
  let r := rowK s k
  let s := updatePred s r.ctx (kImage r) t seq
  if t < fieldAt r.pay0 8 4 ∨ kBound r < t then endKernel s k 7
  else
    let r' := { r with resolved := some (t, p) }
    let empty := (ranksList r').filter fun x => !r'.finished.contains x && emptyRank r' x
    let s := setRowK s k { r' with finished := r'.finished ++ empty }
    let s := resolveHere s k t r
    settleKernel (reopenGrid (empty.foldl (fun s x => freeRows s k (some x)) s) k) k
def insertResolve (e : PendResolve) : List PendResolve → List PendResolve
  | [] => [e]
  | x :: r => if e.ctx < x.ctx ∨ (e.ctx = x.ctx ∧ e.seq < x.seq) then e :: x :: r else x :: insertResolve e r
/-- A RESOLVE beyond the 16 that a context may have pending is a fatal error of the context (R133). -/
def resolveFatal (s : State) (ctx : Nat) : State := terminateCtx s ctx 7
/-- Whether an event names a live context (R375): one that a member of the view has bound a partition to. Events for another
change nothing (R82). -/
def knownCtx (s : State) (e : HEvent) : Bool := !(holders s e.ctx e.world).isEmpty
def applyResolve (s : State) (e : HEvent) : State :=
  let image := fieldAt e.pay 0 8
  let t := fieldAt e.pay 8 4
  let p : Word := BitVec.ofNat 32 (fieldAt e.pay 12 4)
  if knownCtx s e = false then s
  else match s.hall.repl.kernels.find? fun x => x.2.ctx == e.ctx && kPred x.2 && kImage x.2 == image && x.2.resolved.isNone with
  | some x => tryWaiting (resolveKernel s x.1 t p e.seq)
  | none =>
    if 16 ≤ (s.hall.repl.resolves.filter fun x => x.ctx == e.ctx).length then resolveFatal s e.ctx
    else setRepl s { s.hall.repl with resolves := insertResolve { ctx := e.ctx, seq := e.seq, image := image, count := t, param := p } s.hall.repl.resolves }

/-! ### SUBMIT (R366) -/

/-- Whether a waiting kernel of the context, tried earlier, keeps a new one from being tried (R370). -/
def blockedBy (s : State) (k : Nat) : Bool :=
  let r := rowK s k
  s.hall.repl.kernels.any fun e => decide (e.1 < k) && e.2.st == 0 && e.2.ctx == r.ctx && decide (kPrio s r ≤ kPrio s e.2)
/-- A kernel at its SUBMIT, or one to be placed whole again: the check of its ranks is made whether it may be placed or not (R104,
R370). -/
def tryNew (s : State) (k : Nat) : State :=
  if blockedBy s k then (if gridFails s k then endKernel s k 7 else s) else settleKernel (tryKernel s k) k
/-- The SUBMIT pair of a kernel, at its second record. -/
def applySubmit (s : State) (e0 e1 : HEvent) : State :=
  let k := e0.seq
  let c := Map.look s.hall.repl.ctxs e0.ctx {}
  let mine := decide (e0.origin = s.hall.self)
  let s := if mine then setHall s { s.hall with
      origins := (match s.hall.posted with | l :: _ => Map.put s.hall.origins k l | [] => s.hall.origins), posted := s.hall.posted.tail }
    else s
  if knownCtx s e0 = false then endLaunch s k 9
  else if 4096 ≤ s.hall.repl.kernels.length then
    endLaunch (setRepl s { s.hall.repl with ctxs := Map.put s.hall.repl.ctxs e0.ctx { c with ordinal := c.ordinal + 1 } }) k 10
  else
    let s := setRepl s { s.hall.repl with ctxs := Map.put s.hall.repl.ctxs e0.ctx { c with ordinal := c.ordinal + 1 } }
    let r : KRow := { ctx := e0.ctx, world := e0.world, origin := e0.origin, pay0 := e0.pay, pay1 := e1.pay, launch := c.ordinal, step := c.step }
    let r := if kPred r then
        let p := predictCount s r
        { r with predicted := p, launched := min (kBound r) (ceilDiv p (kGang r) * kGang r) }
      else r
    let hit := if kPred r then s.hall.repl.resolves.find? fun x => x.ctx == r.ctx && x.image == kImage r else none
    let s := match hit with
      | some x => updatePred (setRepl s { s.hall.repl with resolves := s.hall.repl.resolves.filter (· != x) }) r.ctx (kImage r) x.count e1.seq
      | none => s
    let r := match hit with
      | some x => { r with resolved := some (x.count, x.param), atSubmit := true }
      | none => r
    let bad : Bool := match hit with
      | some x => decide (x.count < fieldAt r.pay0 8 4) || decide (kBound r < x.count)
      | none => false
    let s := openKern (setRowK s k { r with finished := (ranksList r).filter (emptyRank r) }) k r
    if bad then endKernel s k 7 else tryNew s k

/-! ### The other events of a context (R366) -/

/-- FINISH of a rank. -/
def applyFinish (s : State) (e : HEvent) : State :=
  let rank := fieldAt e.pay 0 1
  match Map.find s.hall.repl.kernels e.kernel with
  | none => s
  | some r =>
    if knownCtx s e = false ∨ r.ctx ≠ e.ctx ∨ r.world ≠ e.world ∨ r.finished.contains rank ∨ kNrank r < rank then s
    else
      let r' := { r with finished := r.finished ++ [rank], stepReq := r.stepReq || fieldAt e.pay 1 1 % 2 == 1 }
      let s := reopenGrid (freeRows (setRowK s e.kernel r') e.kernel (some rank)) e.kernel
      tryWaiting (settleKernel s e.kernel)
/-- FAULT: the kernel is FAILED. -/
def applyFault (s : State) (e : HEvent) : State :=
  match Map.find s.hall.repl.kernels e.kernel with
  | none => s
  | some r => if knownCtx s e = false ∨ r.ctx ≠ e.ctx ∨ r.world ≠ e.world then s else tryWaiting (endKernel s e.kernel 9)
def setSuspended (s : State) (ctx : Nat) (b : Bool) (bound : Nat) : State :=
  let c := Map.look s.hall.repl.ctxs ctx {}
  setRepl s { s.hall.repl with ctxs := Map.put s.hall.repl.ctxs ctx { c with suspended := b, bound := bound } }
/-- BLOCK and UNBLOCK. -/
def applyBlock (s : State) (e : HEvent) : State :=
  let bound := fieldAt e.pay 0 4
  if knownCtx s e then preemptCtx (setSuspended s e.ctx true bound) e.ctx bound else s
def applyUnblock (s : State) (e : HEvent) : State :=
  if knownCtx s e then tryWaiting (setSuspended s e.ctx false 0) else s
/-- PRIO. -/
def applyPrio (s : State) (e : HEvent) : State :=
  let key := queueKey e.ctx (fieldAt e.pay 2 1) (fieldAt e.pay 0 1 % 16)
  if knownCtx s e = false then s
  else tryWaiting (setRepl s { s.hall.repl with queues := Map.put s.hall.repl.queues key (fieldAt e.pay 1 1 % 8) })

/-! ### A member leaves or joins (R372, R373, R343) -/

/-- A kernel that has lost ranks with a member. Those that may be placed again wait where the context is suspended and there is a
candidate for each (R369, R372); the other ranks run on. -/
def loseRanks (s : State) (k : Nat) : State :=
  let r := rowK s k
  let waits := ctxBlocked s r.ctx && decide ((unplaced s k).length ≤ (candidates s k r.ctx r.world).length)
  if kRestart r && waits then reopenGrid (setRowK s k { r with st := 0 }) k
  else match (if kRestart r then placeRanks s k (unplaced s k) else none) with
  | some s => reopenGrid s k
  | none =>
    let since := (kernOf s k).since
    let s := freeRows (killHere s k) k none
    let s := setRowK s k { rowK s k with st := 0, stepReq := false, finished := (ranksList r).filter (emptyRank r) }
    let s := openKern s k r
    tryNew (setKern s k { kernOf s k with since := since }) k
def setFarPorts (s : State) (m : Nat) (old : List PortState) (new : PortState) : State :=
  setLinks s { s.links with ports := s.links.ports.map fun e =>
    if e.2.far = m ∧ old.contains e.2.st then (e.1, { e.2 with st := new }) else e }
/-- A member that leaves the view wipes itself (R373): no context of it is bound there any more. -/
def unbindMember (s : State) (m : Nat) : State :=
  let gone := s.hall.bindings.filter fun e => e.1 / 1024 == m
  let s := setHall s { s.hall with bindings := s.hall.bindings.filter fun e => e.1 / 1024 != m }
  gone.foldl (fun s e => forgetCtx s (e.1 % 1024)) s
/-- LOSS or FENCEOUT of another member of the view. -/
def removeMember (s : State) (m : Nat) (fence : Bool) : State :=
  let r := s.hall.repl
  let lost := ((r.place.filter fun e => e.1 / 48 == m).map fun e => (e.2.kernel, e.2.rank)).eraseDups
  let ks := (r.kernels.map Prod.fst).filter fun k => lost.any fun p => p.1 == k
  let s := setRepl s { r with members := r.members &&& ~~~(maskBit m), condemned := r.condemned &&& ~~~(maskBit m), view := r.view + 1
                              place := r.place.filter fun e => e.1 / 48 != m
                              queues := r.queues.filter fun e => e.1 / 16 % 256 != m }
  let s := if fence then
      let s := setFarPorts s m [.up, .degraded] .fenced
      ((s.links.ports.filter fun e => e.2.far == m).map Prod.fst).foldl rerouteFrom s
    else s
  let s := unbindMember (dropMember s m) m
  tryWaiting (ks.foldl loseRanks s)
/-- JOIN. -/
def addMember (s : State) (m seq : Nat) : State :=
  let r := s.hall.repl
  let s := setRepl s { r with members := r.members ||| maskBit m, view := r.view + 1 }
  let s := setHall s { s.hall with since := Map.put s.hall.since m seq, joinHelp := s.hall.joinHelp.filter (· != m) }
  tryWaiting (if m = s.hall.self then
      setLinks s { s.links with ports := s.links.ports.map fun e => if e.2.st = .fenced then (e.1, { e.2 with st := .training }) else e }
    else setFarPorts s m [.fenced] .training)

end Sys2Proof.Machine
end

