-- ==== Sys2Proof/Machine/Hall.lean ====
section
/-!
DEFINITION. Machine/Hall.lean: delivery and votes (R364, R367, R368), the token (R363), recovery (R371), fencing and rejoining
(R373, R374), the channel-0 flits (R350, R362, R263), and the state table (R377).
-/
namespace Sys2Proof.Machine

/-! ### Flits of the hall (R350, R362) -/

/-- A hall record as 64 bytes (R360), and a HALL flit of a form. -/
def recordBytesOf (e : HEvent) : List Byte :=
  bytesOfNat 8 e.seq ++ bytesOfNat 8 e.kernel ++ bytesOfNat 1 e.origin ++ bytesOfNat 1 (e.kind % 128 + 128 * (e.part % 2))
    ++ bytesOfNat 2 (e.ctx % 1024 + 1024 * (e.world % 64)) ++ bytesOfNat 4 (e.halt % 2) ++ payOf e.pay
def recordOf (bs : List Byte) : HEvent := eventOf (natOfBytes (bs.take 64))
def hallFlit (dst form : Nat) (bs : List Byte) : Flit :=
  { dst := dst, kind := 1, pay := padPay (bytesOfNat 8 form ++ bs) }
def sendHall (s : State) (dst form : Nat) (bs : List Byte) : State := sendCh0 s (hallFlit dst form bs)
/-- The port that joins a member, FENCED ones among them (R346, R373). -/
def snapPort (s : State) (m : Nat) : Nat :=
  ((s.links.ports.find? fun e => e.2.far == m && (linkUp e.2 || e.2.st == .fenced)).map Prod.fst).getD (portOf s m)
/-- SNAP flits (log entry 36): byte 0 is 0 a request, 1 a part of a snapshot, 2 an event, 3 a request to post JOIN, 4 a
request for events. -/
def sendSnap (s : State) (dst form : Nat) (bs : List Byte) : State :=
  let n := Map.look s.links.ch0Tx dst 0
  let s := setLinks s { s.links with ch0Tx := Map.put s.links.ch0Tx dst (n + 1) }
  portSend s (snapPort s dst) { dst := dst, src := s.hall.self, tag := n % 2 ^ 24, kind := 2, pay := padPay (bytesOfNat 8 form ++ bs) }

/-! ### Fencing and rejoining (R373, R374) -/

/-- Step 1: the lowest-indexed neighbour from `after` on, or from the lowest; its snapshot is asked for. -/
def tryJoin (s : State) : State :=
  let j := s.hall.joiner
  let ns := (s.links.ports.filter fun e => linkUp e.2 || e.2.st == .fenced).map fun e => e.2.far
  let low (lo : Nat) : Option Nat := (List.range 256).find? fun m => decide (lo ≤ m) && ns.contains m
  if j.phase ≠ 0 ∨ isMember s then s
  else match (low j.after).or (low 0) with
    | some m => sendSnap (setHall s { s.hall with joiner := { j with phase := 1, source := m, buf := [] } }) m 0 []
    | none => s
/-- The wipe of a chip that LOSS or FENCEOUT names, or of a joiner that starts again: its contexts enter TEARDOWN, each with its
error record (R25), and it clears its replicated state. `out` says whether the chip was taken out of a view. -/
def wipeHall (s : State) (after : Nat) (out : Bool) : State :=
  let s := s.ctxs.foldl (fun s e => terminateCtx s e.1 7) s
  let h := s.hall
  let s := setHall s { self := h.self, configured := h.configured, bindings := h.bindings, joiner := { after := after, out := out } }
  let s := { s with kerns := s.kerns.filter fun e => (Map.find s.ctxs e.2.ctx).isSome || decide (1024 ≤ e.2.ctx) }
  setLinks s { s.links with ch0New := (List.range 256).filter (· != h.self), ch0Held := [], src := [] }
def fencedSelf (s : State) (fence : Bool) : State :=
  let s := packageClass s 0x22 7 0
  let ps := s.links.ports.map fun e => if linkUp e.2 then (e.1, { e.2 with st := .fenced }) else e
  let s := if fence then setLinks s { s.links with ports := ps } else s
  tryJoin (wipeHall s 0 true)
/-- A fill that aborts: the joiner goes on with another neighbour. -/
def abortFill (s : State) : State := tryJoin (wipeHall s (s.hall.joiner.source + 1) s.hall.joiner.out)

/-! ### Votes (R367, R368) -/

/-- The members of the view that were in it at c. -/
def votersAt (s : State) (c : Nat) : List Nat := (membersOf s).filter fun m => decide (Map.look s.hall.since m 0 ≤ c)
def talliesOf (s : State) (c : Nat) (halt : Bool) (v : List Nat) : List Tally :=
  s.hall.repl.tallies.filter fun t => t.halt == halt && (halt || t.c == c) && v.contains t.member
/-- The value posted by more than half. -/
def winner (v : List Nat) (ts : List Tally) : Option (BitVec 256) :=
  (ts.map Tally.digest).find? fun d => decide (v.length < 2 * (ts.filter fun t => t.digest == d).length)
def postFence (s : State) (m : Nat) : State := postEvent s { kind := 8, pay := payOf (bytesOfNat 1 m) }
/-- Members of V that posted another value, or none, are condemned; those that posted the winning one fence them. -/
def condemn (s : State) (v : List Nat) (ts : List Tally) (d : BitVec 256) : State :=
  let bad := v.filter fun m => !(ts.any fun t => t.member == m && t.digest == d)
  let s := setRepl s { s.hall.repl with condemned := bad.foldl (fun x m => x ||| maskBit m) s.hall.repl.condemned }
  if ts.any fun t => t.member == s.hall.self && t.digest == d then bad.foldl postFence s else s
def postDigest (s : State) (c halt : Nat) : State :=
  postEvent s { kind := 11, halt := halt, pay := payOf (bytesOfNat 8 c ++ bytesOfNat 32 (digestOf s).toNat) }
/-- No value wins: halt. The wings are told. -/
def haltHall (s : State) (c : Nat) : State :=
  if s.hall.repl.halt then s else packageClass (setRepl s { s.hall.repl with halt := true, haltAt := c }) 0x22 7 0
/-- Step 4 of R373: the joiner's digest agrees with the winner, or it starts again. -/
def joinVote (s : State) (c : Nat) (d : BitVec 256) : State :=
  let j := s.hall.joiner
  if j.phase ≠ 2 ∨ c ≤ j.n then s
  else if Map.find j.digests c = some d then
    sendSnap (setHall s { s.hall with joiner := { j with phase := 3 } }) j.source 3 (bytesOfNat 8 s.hall.repl.last)
  else abortFill s
/-- The vote on c is settled. -/
def settleVote (s : State) (c : Nat) : State :=
  let v := votersAt s c
  let ts := talliesOf s c false v
  let s := setHall s { s.hall with voted := s.hall.voted ++ [c] }
  let s := setRepl s { s.hall.repl with tallies := s.hall.repl.tallies.filter fun t => t.halt || t.c != c }
  match winner v ts with
  | some d => joinVote (condemn s v ts d) c d
  | none => haltHall s c
/-- A vote not settled yet; those 256 before a joiner's snapshot are (R368, R373). -/
def voteDue (s : State) (c : Nat) : Bool :=
  decide (64 ≤ c) && c % 64 == 0 && decide (s.hall.voteFrom < c + 256) && !s.hall.voted.contains c
/-- The votes that became 256 old since the event numbered `was` (R368). -/
def agedVotes (s : State) (was seq : Nat) : List Nat :=
  let lo := (was - 256) / 64
  ((List.range (seq / 64 + 1 - lo)).map fun i => 64 * (lo + i)).filter fun c => voteDue s c && decide (c + 256 ≤ seq)
/-- The votes that the application of an event settles: one whose set it completes, and those 256 before it. A halt that one of
them begins has every member post the digest of its state. -/
def settleVotes (s : State) (was : Nat) (e : HEvent) : State :=
  let halted := s.hall.repl.halt
  let c := fieldAt e.pay 0 8
  let v := votersAt s c
  let full : Bool := e.kind == 11 && e.halt == 0 && voteDue s c && v.all fun m => (talliesOf s c false v).any fun t => t.member == m
  let s := if full then settleVote s c else s
  let s := (agedVotes s was e.seq).foldl (fun s c => if voteDue s c then settleVote s c else s) s
  if s.hall.repl.halt && !halted && isMember s then postDigest s s.hall.repl.last 1 else s
def insertTally (t : Tally) : List Tally → List Tally
  | [] => [t]
  | x :: r => if t.c < x.c ∨ (t.c = x.c ∧ t.member < x.member) then t :: x :: r else x :: insertTally t r
/-- DIGEST: one of a halt counts in that halt alone (R368). -/
def applyDigest (s : State) (e : HEvent) : State :=
  let c := fieldAt e.pay 0 8
  let t : Tally := { c := c, member := e.origin, digest := BitVec.ofNat 256 (fieldAt e.pay 8 32), halt := e.halt == 1 }
  if (e.halt = 0 ∧ voteDue s c = false) ∨ (e.halt = 1 ∧ (s.hall.repl.halt = false ∨ c < s.hall.repl.haltAt)) then s
  else setRepl s { s.hall.repl with tallies := insertTally t (s.hall.repl.tallies.filter fun x =>
    !(x.member == t.member && x.halt == t.halt && (t.halt || x.c == t.c))) }

/-! ### Delivery (R364, R366) -/

/-- The highest number received with none missing. -/
def runFrom : Nat → Nat → List HEvent → Nat
  | 0, n, _ => n
  | f + 1, n, l => if l.any fun e => e.seq == n + 1 then runFrom f (n + 1) l else n

/-- This chip has become a member (R373 step 5): it acknowledges what it has received with none missing, and during a halt posts its
digest. -/
def joined (s : State) : State :=
  let s := setHall s { s.hall with joiner := { s.hall.joiner with phase := 4, fetch := none } }
  let s := setHall s { s.hall with acked := runFrom s.hall.recv.length (max s.hall.acked s.hall.delivered) s.hall.recv }
  let s := ((membersOf s).filter (· ≠ s.hall.self)).foldl (fun s m => sendHall s m 1 (bytesOfNat 8 s.hall.acked)) s
  if s.hall.repl.halt then postDigest s s.hall.repl.last 1 else s
/-- What an event does, a SUBMIT at its second record. -/
def applyEvent (s : State) (e : HEvent) : State :=
  let m := fieldAt e.pay 0 1
  match e.kind with
  | 1 => if e.part = 0 then setHall s { s.hall with half := some e }
    else match s.hall.half with
      | some h => applySubmit (setHall s { s.hall with half := none }) h e
      | none => s
  | 2 => applyFinish s e
  | 3 => applyBlock s e
  | 4 => applyUnblock s e
  | 5 => applyFault s e
  | 6 => if inView s m = false then s else if m = s.hall.self then fencedSelf s false else removeMember s m false
  | 7 => if inView s m then s else
      let s := addMember s m e.seq
      if m = s.hall.self then joined s else s
  | 8 => if inView s m = false then s else if m = s.hall.self then fencedSelf s true else removeMember s m true
  | 9 => applyResolve s e
  | 10 => applyPrio s e
  | 11 => applyDigest s e
  | _ => s
/-- The DIGEST that an applied event calls for: at a multiple of 64, for a SUBMIT pair at its second record. -/
def digestDue (e : HEvent) : Option Nat :=
  if e.kind = 1 ∧ e.part = 0 then none
  else if e.seq % 64 = 0 then some e.seq
  else if e.kind = 1 ∧ e.seq % 64 = 1 then some (e.seq - 1) else none
/-- The vote of a halt, over the current view: taken when every member has posted, at the first event 256 after the event that the
DIGESTs cover, and again at each view change (R368). A winner ends the halt. -/
def haltVote (s : State) (changed : Bool) (was seq : Nat) : State :=
  let v := membersOf s
  let ts := talliesOf s 0 true v
  let aged := (ts.head?.map fun t => decide (was < t.c + 256) && decide (t.c + 256 ≤ seq)).getD false
  if s.hall.repl.halt = false ∨ (changed || aged || v.all fun m => ts.any fun t => t.member == m) = false then s
  else match winner v ts with
    | none => s
    | some d =>
      let s := condemn s v ts d
      setRepl s { s.hall.repl with halt := false, haltAt := 0, tallies := s.hall.repl.tallies.filter fun t => !t.halt }
/-- The digest is of the state that the event leaves, with every vote it settles and a halt it ends (R367). -/
def afterEvent (s : State) (view was : Nat) (e : HEvent) : State :=
  let s := haltVote (settleVotes s was e) (s.hall.repl.view != view) was e.seq
  match digestDue e with
  | some c => if isMember s then postDigest s c 0
    else setHall s { s.hall with joiner := { s.hall.joiner with digests := Map.put s.hall.joiner.digests c (digestOf s) } }
  | none => s
/-- Whether an event takes this chip out of its view. -/
def endsSelf (s : State) (e : HEvent) : Bool := (e.kind == 6 || e.kind == 8) && fieldAt e.pay 0 1 == s.hall.self && isMember s
/-- An event applied, with what it settles; part 0 of a SUBMIT counts with part 1. A fence that names this chip ends it. -/
def runEvent (s : State) (e : HEvent) : State :=
  if e.kind = 1 ∧ e.part = 0 ∨ endsSelf s e = true then applyEvent s e
  else
    let was := s.hall.repl.last
    afterEvent (applyEvent (setRepl s { s.hall.repl with last := max e.seq s.hall.repl.last }) e) s.hall.repl.view was e
def haltKind (k : Nat) : Bool := k == 6 || k == 7 || k == 8 || k == 11
/-- Scheduling is halted: a vote has no winner, or a recovery had no majority (R368, R371). -/
def haltedHere (s : State) : Bool := s.hall.repl.halt || s.hall.recov.halted
/-- During a halt, the other events are kept. -/
def takeEvent (s : State) (e : HEvent) : State :=
  if haltedHere s && !haltKind e.kind then setHall s { s.hall with kept := s.hall.kept ++ [e] } else runEvent s e
/-- The end of a halt: the kept events are applied in order. -/
def applyKept (s : State) : State :=
  if haltedHere s then s else s.hall.kept.foldl takeEvent (setHall s { s.hall with kept := [] })
/-- Delivers one event, and where it ends a halt those kept; a source also forwards it to its joiners, and the newest 65,536 are kept (R373). -/
def deliverOne (s : State) (e : HEvent) : State :=
  let s := setHall s { s.hall with delivered := e.seq, recv := s.hall.recv.filter (·.seq != e.seq)
                                   history := ((s.hall.history ++ [e]).drop (s.hall.history.length + 1 - 65536)) }
  let s := s.hall.joinHelp.foldl (fun s m => sendSnap s m 2 (recordBytesOf e)) s
  applyKept (takeEvent s e)
/-- Delivers, in order and with no gap, every received event up to a value. -/
def deliverUpTo : Nat → Nat → State → State
  | 0, _, s => s
  | n + 1, top, s =>
    if top ≤ s.hall.delivered then s
    else match s.hall.recv.find? fun e => e.seq == s.hall.delivered + 1 with
      | some e => deliverUpTo n top (deliverOne s e)
      | none => s
def deliver (s : State) (top : Nat) : State := deliverUpTo (s.hall.recv.length + 1) top s

/-! ### The token (R363) -/

def others (s : State) : List Nat := (membersOf s).filter (· ≠ s.hall.self)
def receivedTop (s : State) : Nat := runFrom s.hall.recv.length (max s.hall.acked s.hall.delivered) s.hall.recv
def keepRecv (s : State) (e : HEvent) : State :=
  if e.seq ≤ s.hall.delivered ∨ (s.hall.recv.any fun x => x.seq == e.seq) = true then s
  else setHall s { s.hall with recv := s.hall.recv ++ [e] }
def noteAcked (s : State) : State := setHall s { s.hall with acked := receivedTop s }
/-- Events that waited behind a full list move up (R364). -/
def refill256 (s : State) : State :=
  let n := 256 - s.hall.pending.length
  setHall s { s.hall with pending := s.hall.pending ++ s.hall.backlog.take n, backlog := s.hall.backlog.drop n }
/-- The oldest pending event takes the next number and goes to every other member. -/
def assignOne (s : State) : State := match s.hall.pending, s.hall.token with
  | e :: r, some (v, next, st) =>
    let e := { e with seq := next }
    let s := keepRecv (setHall s { s.hall with pending := r, token := some (v, next + 1, st) }) e
    noteAcked ((others s).foldl (fun s m => sendHall s m 0 (recordBytesOf e)) s)
  | _, _ => s
/-- At most 16 numbers in a visit; a SUBMIT pair is never split. -/
def assignAll : Nat → Nat → State → State
  | 0, _, s => s
  | f + 1, n, s => match s.hall.pending with
    | [] => s
    | e :: _ =>
      let k := if e.kind = 1 ∧ e.part = 0 then 2 else 1
      if 16 < n + k then s else assignAll f (n + k) (if k = 2 then assignOne (assignOne s) else assignOne s)
/-- The member that the token goes to: the next one of the view, or of a recovery's repliers. -/
def nextMember (s : State) (l : List Nat) : Nat :=
  ((l.filter fun m => decide (s.hall.self < m)) ++ l.filter fun m => decide (m < s.hall.self)).headD s.hall.self
/-- The end of a visit, once every ACK awaited covers what was assigned. A token of one member stays. -/
def endVisit (s : State) : State := match s.hall.token with
  | none => s
  | some (v, next, _) =>
    let l := s.hall.among.getD (others s)
    if s.hall.awaiting = false ∨ (l.all fun m => decide (next ≤ Map.look s.hall.acks m 0 + 1)) = false then s
    else
      let st := next - 1
      let s := (others s).foldl (fun s m => sendHall s m 3 (bytesOfNat 8 v ++ bytesOfNat 8 st)) s
      let tgt := nextMember s l
      let s := if tgt = s.hall.self then setHall s { s.hall with token := some (v, next, st), awaiting := false, among := none }
        else setHall (sendHall s tgt 2 (bytesOfNat 8 v ++ bytesOfNat 8 next ++ bytesOfNat 8 st))
          { (sendHall s tgt 2 (bytesOfNat 8 v ++ bytesOfNat 8 next ++ bytesOfNat 8 st)).hall with token := none, awaiting := false, among := none }
      deliver s st
/-- A visit of the token. -/
def visit (s : State) : State :=
  endVisit (refill256 (assignAll 16 0 (setHall s { s.hall with awaiting := true })))

/-! ### Channel 0 (R350): what each form does -/

/-- EVENT: kept until it may be delivered; an ACK as the unbroken run rises. The collector's fetch may be complete. -/
def postLoss (s : State) (m : Nat) : State := postEvent s { kind := 6, pay := payOf (bytesOfNat 1 m) }
/-- Steps 3 and 4 of a recovery: missing events go to the repliers, LOSS is posted for members that did not reply, and the
collector holds the new token. -/
def startToken (s : State) (top : Nat) : State :=
  let rs := s.hall.recov.replies
  let have_ := s.hall.history ++ s.hall.recv
  let s := rs.foldl (fun s r => (have_.filter fun e => decide (r.2.1 < e.seq) && decide (e.seq ≤ top)).foldl
    (fun s e => sendHall s r.1 0 (recordBytesOf e)) s) s
  let s := ((others s).filter fun m => !(rs.any fun r => r.1 == m)).foldl postLoss s
  let acks := rs.foldl (fun m r => Map.put m r.1 r.2.1) s.hall.acks
  let s := applyKept (setHall s { s.hall with recov := {} })
  visit (setHall s { s.hall with among := some (rs.map Prod.fst), token := some (s.hall.repl.view, top + 1, top), acks := acks })
def continueFetch (s : State) : State := match s.hall.recov.want with
  | some top => if s.hall.recov.active ∧ top ≤ s.hall.acked then startToken s top else s
  | none => s
/-- A joiner whose JOIN has been delivered and whose source has gone asks the lowest-indexed member for the events that were not
forwarded (R374). -/
def fetchTail (s : State) : State :=
  let j := s.hall.joiner
  let hi := (s.hall.recv.foldl (fun n e => min n e.seq) (s.hall.delivered + 2 ^ 32)) - 1
  match (membersOf s).find? fun m => m != j.source && m != s.hall.self with
  | some m => sendSnap (setHall s { s.hall with joiner := { j with fetch := some hi } }) m 4 (bytesOfNat 8 (s.hall.delivered + 1) ++ bytesOfNat 8 hi)
  | none => s
/-- An event that comes directly shows a joiner that its JOIN has been delivered: members alone get EVENTs. One that takes its
source out of the view has it fetch what is missing, one that takes itself out has it start again. -/
def joinerEvent (e : HEvent) (s : State) : State :=
  let j := s.hall.joiner
  let gone (m : Nat) : Bool := (e.kind == 6 || e.kind == 8) && fieldAt e.pay 0 1 == m
  if j.phase ≠ 3 then s
  else if gone s.hall.self then abortFill s
  else match j.fetch with
    | some hi => deliver s hi
    | none => if gone j.source && decide (s.hall.delivered + 1 < e.seq) then fetchTail s else s
def gotEvent (src : Nat) (e : HEvent) (s : State) : State :=
  if isMember s = false then (if s.hall.joiner.phase < 2 then s else joinerEvent e (keepRecv s e))
  else
    let old := s.hall.acked
    let s := noteAcked (keepRecv s e)
    let s := if old < s.hall.acked then sendHall s src 1 (bytesOfNat 8 s.hall.acked) else s
    continueFetch s
/-- ACK. -/
def gotAck (src n : Nat) (s : State) : State :=
  endVisit (setHall s { s.hall with acks := Map.put s.hall.acks src (max n (Map.look s.hall.acks src 0)) })
/-- TOKEN, next to what this member has received; one of another view is that of a member that has delivered more or less of the view
changes that it stands after. A holder passes it on only when every member has
acknowledged all that was numbered (R363), so the token itself says so of every other member. -/
def gotToken (next st : Nat) (s : State) : State :=
  if isMember s = false ∨ next ≠ s.hall.acked + 1 then s
  else
    let acks := (others s).foldl (fun a m => Map.put a m (max st (Map.look a m 0))) s.hall.acks
    let s := deliver (applyKept (setHall s { s.hall with recov := {}, acks := acks })) st
    if isMember s then visit (setHall s { s.hall with token := some (s.hall.repl.view, next, st), among := none }) else s
/-- STABLE. -/
def gotStable (st : Nat) (s : State) : State :=
  if isMember s then deliver s (min st s.hall.acked) else s

/-! ### Recovery (R371) -/

/-- After reset, the first recovery forms the view from the configured members; a chip that was taken out of a view forms none. -/
def formView (s : State) : State :=
  if s.hall.repl.members = 0 ∧ s.hall.joiner.out = false ∧ s.hall.configured.contains s.hall.self then
    setHall s { s.hall with repl := { members := s.hall.configured.foldl (fun x m => x ||| maskBit m) 0 }, joiner := { phase := 4 } }
  else s
/-- The routes there are to the other members of the view (R349). -/
def routesNow (s : State) : List Nat := (others s).map (portOf s)
/-- RECOVER goes to every member of the view. -/
def startRecovery (s : State) : State :=
  let s := formView s
  if isMember s = false then s
  else
    let s := setHall s { s.hall with recov := { active := true, halted := s.hall.recov.halted }, token := none, awaiting := false, among := none }
    (others s).foldl (fun s m => sendHall s m 4 (bytesOfNat 8 s.hall.repl.view)) s
/-- RECOVER from a lower index: the reply names this member's view, which may have delivered more or fewer view changes. -/
def gotRecover (src : Nat) (s : State) : State :=
  let s := formView s
  if isMember s = false ∨ inView s src = false ∨ s.hall.self ≤ src then s
  else
    let s := setHall s { s.hall with recov := { halted := s.hall.recov.halted, routes := routesNow s }, token := none, awaiting := false, among := none }
    sendHall s src 5 (bytesOfNat 8 s.hall.repl.view ++ bytesOfNat 8 s.hall.acked ++ bytesOfNat 8 s.hall.delivered)
/-- REPLY. -/
def gotReply (src got del : Nat) (s : State) : State :=
  let r := s.hall.recov
  if r.active = false ∨ inView s src = false then s
  else setHall s { s.hall with recov := { r with replies := r.replies.filter (fun x => x.1 != src) ++ [(src, got, del)] } }
/-- RECOVERY_COLLECT: the collector needs more than half of the view. -/
def collect (s : State) : State :=
  let r := s.hall.recov
  if r.active = false ∨ isMember s = false then s
  else if 2 * (r.replies.length + 1) ≤ (membersOf s).length then
    packageClass (setHall s { s.hall with recov := { r with active := false, halted := true, routes := routesNow s } }) 0x22 7 0
  else
    let top := listMax (s.hall.acked :: r.replies.map fun x => x.2.1)
    if top ≤ s.hall.acked then startToken s top
    else
      let s := setHall s { s.hall with recov := { r with want := some top } }
      match r.replies.find? fun x => x.2.1 == top with
      | some x => sendSnap s x.1 4 (bytesOfNat 8 (s.hall.acked + 1) ++ bytesOfNat 8 top)
      | none => s
def execRecoveryCollect (s : State) : Host.Outcome State Fault Refusal :=
  if s.pkg.power then .next (if s.pkg.life = .decommissioned then s else collect s) else .fault .noPower
/-- ACK_WAIT_TIMEOUT, TOKEN_TIMEOUT. -/
def execAckWaitTimeout (s : State) : Host.Outcome State Fault Refusal :=
  if s.pkg.power then .next (if s.hall.awaiting ∧ s.pkg.life ≠ .decommissioned then startRecovery s else s) else .fault .noPower
def execTokenTimeout (s : State) : Host.Outcome State Fault Refusal :=
  if s.pkg.power then .next (if s.pkg.life = .decommissioned then s else startRecovery s) else .fault .noPower
/-- SUSPECT: no route joins the members. A joiner whose source is out of reach starts again (R374). -/
def execSuspect (m : Nat) (s : State) : Host.Outcome State Fault Refusal :=
  if s.pkg.power then
    let j := s.hall.joiner
    if portOf s m ≠ 24 ∨ m = s.hall.self ∨ s.pkg.life = .decommissioned then .next s
    else if isMember s then .next (if inView s m then postLoss s m else s)
    else if (j.phase = 1 ∨ j.phase = 2 ∨ j.phase = 3) ∧ j.source = m then
      .next (if j.phase = 3 ∧ s.hall.recv.isEmpty = false then fetchTail s else abortFill s)
    else .next s
  else .fault .noPower

/-! ### SNAP (R373) -/

/-- A snapshot in parts of 88 bytes: total, offset, data. -/
def sendParts : Nat → Nat → List Byte → Nat → State → State
  | 0, _, _, _, s => s
  | n + 1, off, bs, dst, s =>
    if bs.length ≤ off then s
    else sendParts n (off + 88) bs dst (sendSnap s dst 1 (bytesOfNat 8 bs.length ++ bytesOfNat 8 off ++ (bs.drop off).take 88))
/-- A request: the canonical form after the last applied event, with what stands beside it, then every event delivered after it. -/
def serveSnap (src : Nat) (s : State) : State :=
  if isMember s = false then s
  else
    let bs := snapBytes s
    let n := s.hall.repl.last
    let s := sendParts (bs.length + 1) 0 bs src s
    let s := (s.hall.history.filter fun e => decide (n < e.seq)).foldl (fun s e => sendSnap s src 2 (recordBytesOf e)) s
    setHall s { s.hall with joinHelp := s.hall.joinHelp.filter (· != src) ++ [src] }
/-- A part of the snapshot: the last one loads it. -/
def takePart (src total : Nat) (bs : List Byte) (s : State) : State :=
  let j := s.hall.joiner
  if j.phase ≠ 1 ∨ j.source ≠ src then s
  else
    let buf := (j.buf ++ bs).take total
    if buf.length < total then setHall s { s.hall with joiner := { j with buf := buf } }
    else
      let (r, l) := readCanon ((List.range (total / 8)).map fun i => fieldAt buf (8 * i) 8)
      let (js, cs) := readBeside l
      setHall s { s.hall with repl := r, delivered := r.last, acked := r.last, voteFrom := r.last, since := js, voted := cs
                              joiner := { j with phase := 2, buf := [], n := r.last } }
/-- A forwarded event is applied as a copy does; one that loses the source before the JOIN is delivered ends the fill (R374). -/
def takeTail (src : Nat) (e : HEvent) (s : State) : State :=
  let j := s.hall.joiner
  if (j.phase ≠ 2 ∧ j.phase ≠ 3) ∨ j.source ≠ src ∨ e.seq ≠ s.hall.delivered + 1 then s
  else if (e.kind = 6 ∨ e.kind = 8) ∧ fieldAt e.pay 0 1 = src then abortFill s
  else
    let s := deliverOne (keepRecv s e) e
    noteAcked s
/-- A joiner asks for its JOIN. -/
def serveJoin (src n : Nat) (s : State) : State :=
  if isMember s = false ∨ s.hall.joinHelp.contains src = false then s
  else postEvent s { kind := 7, pay := payOf (bytesOfNat 8 src ++ bytesOfNat 8 n) }
/-- A collector asks for events. -/
def serveEvents (src lo hi : Nat) (s : State) : State :=
  ((s.hall.history ++ s.hall.recv).filter fun e => decide (lo ≤ e.seq) && decide (e.seq ≤ hi)).foldl
    (fun s e => sendHall s src 0 (recordBytesOf e)) s
def takeSnap (fl : Flit) (s : State) : State :=
  let p := fl.pay
  match fieldAt p 0 1 with
  | 0 => serveSnap fl.src s
  | 1 => takePart fl.src (fieldAt p 8 8) (p.drop 24) s
  | 2 => takeTail fl.src (recordOf (p.drop 8)) s
  | 3 => serveJoin fl.src (fieldAt p 8 8) s
  | 4 => serveEvents fl.src (fieldAt p 8 8) (fieldAt p 16 8) s
  | _ => s
/-- A HALL flit by its form (R362). -/
def takeHall (fl : Flit) (s : State) : State :=
  let p := fl.pay
  let w (i : Nat) : Nat := fieldAt p (8 + 8 * i) 8
  match fieldAt p 0 1 with
  | 0 => gotEvent fl.src (recordOf (p.drop 8)) s
  | 1 => gotAck fl.src (w 0) s
  | 2 => gotToken (w 1) (w 2) s
  | 3 => gotStable (w 1) s
  | 4 => gotRecover fl.src s
  | 5 => gotReply fl.src (w 1) (w 2) s
  | _ => s
/-- BARR (R263, R264, log entry 22): an arrival at the coordinator, or a release; nothing from a chip that has left the view (R423). An arrival at a later episode than the open one shows
that the earlier ones are complete. -/
def takeBarr (fl : Flit) (s : State) : State :=
  let k := fieldAt fl.pay 0 8
  let e := fieldAt fl.pay 8 4
  match Map.find s.kerns k with
  | none => s
  | some x =>
    if inView s fl.src = false then s
    else if fieldAt fl.pay 16 1 = 1 then settleGrid (enterEpisode s k e) k
    else if e ≤ x.episode then sendCh0 s (barrFlit s k e 0 fl.src 1)
    else settleGrid (recordRank (enterEpisode s k (e - 1)) k e fl.src (fieldAt fl.pay 12 4)) k
def takeZero (fl : Flit) (s : State) : State :=
  if fl.kind = 1 then takeHall fl s else if fl.kind = 2 then takeSnap fl s else takeBarr fl s
/-- Early flits that have become due. -/
def releaseHeld : Nat → Nat → State → State
  | 0, _, s => s
  | n + 1, src, s =>
    let x := Map.look s.links.ch0Rx src 0
    match s.links.ch0Held.find? fun f => f.src == src && f.tag == x % 2 ^ 24 with
    | some f => releaseHeld n src (takeZero f (setLinks s { s.links with
        ch0Held := s.links.ch0Held.erase f, ch0Rx := Map.put s.links.ch0Rx src (x + 1) }))
    | none => s
/-- Whether a flit starts its source's sequence afresh: the first one after the source or this chip was removed, or the request
of a chip that leaves reset (log entry 50). -/
def startsCh0 (s : State) (fl : Flit) : Bool :=
  s.links.ch0New.contains fl.src || (fl.kind == 2 && fieldAt fl.pay 0 1 == 0 && fl.tag == 0)
def startCh0 (s : State) (fl : Flit) : State :=
  if startsCh0 s fl then setLinks s { s.links with
    ch0New := s.links.ch0New.filter (· != fl.src), ch0Rx := Map.put s.links.ch0Rx fl.src fl.tag
    ch0Held := s.links.ch0Held.filter fun f => f.src != fl.src }
  else s
/-- Channel-0 order between one source and this chip: early flits are held back, duplicates discarded. -/
def inOrder (fl : Flit) (s : State) : State :=
  let s := startCh0 s fl
  let x := Map.look s.links.ch0Rx fl.src 0
  let d := (fl.tag + 2 ^ 24 - x % 2 ^ 24) % 2 ^ 24
  if d = 0 then
    releaseHeld (s.links.ch0Held.length + 1) fl.src (takeZero fl (setLinks s { s.links with ch0Rx := Map.put s.links.ch0Rx fl.src (x + 1) }))
  else if d < 2 ^ 23 ∧ (s.links.ch0Held.any fun f => f.src == fl.src && f.tag == fl.tag) = false then setLinks s { s.links with ch0Held := s.links.ch0Held ++ [fl] }
  else s
def isHall (fl : Flit) (form : Nat) : Bool := isFlit fl 1 0 && fieldAt fl.pay 0 1 == form
def execHallEvent (p : Nat) (fl : Flit) (s : State) : Host.Outcome State Fault Refusal := receive p fl (isHall fl 0) s (inOrder fl)
def execHallAck (p : Nat) (fl : Flit) (s : State) : Host.Outcome State Fault Refusal := receive p fl (isHall fl 1) s (inOrder fl)
/-- TOKEN; a member that was alone in its view holds the token, and visits again when it has pending events or is alone no more. -/
def execToken (p : Nat) (fl : Flit) (s : State) : Host.Outcome State Fault Refusal :=
  if s.pkg.power && p == 24 && s.hall.token.isSome && !s.hall.awaiting then .next (visit s)
  else receive p fl (isHall fl 2) s (inOrder fl)
def execStable (p : Nat) (fl : Flit) (s : State) : Host.Outcome State Fault Refusal := receive p fl (isHall fl 3) s (inOrder fl)
def execRecover (p : Nat) (fl : Flit) (s : State) : Host.Outcome State Fault Refusal := receive p fl (isHall fl 4) s (inOrder fl)
def execReply (p : Nat) (fl : Flit) (s : State) : Host.Outcome State Fault Refusal := receive p fl (isHall fl 5) s (inOrder fl)
def execSnap (p : Nat) (fl : Flit) (s : State) : Host.Outcome State Fault Refusal := receive p fl (isFlit fl 2 0) s (inOrder fl)
def execBarr (p : Nat) (fl : Flit) (s : State) : Host.Outcome State Fault Refusal := receive p fl (isFlit fl 3 0) s (inOrder fl)

/-! ### Training and the state table -/

/-- TRAINING_COMPLETE (R343): lanes that pass in each direction, whether the identities agree, the far member. -/
def execTrainingComplete (p lanes : Nat) (agree : Bool) (far : Nat) (s : State) : Host.Outcome State Fault Refusal :=
  if s.pkg.power then
    let x := portAt s p
    if x.st ≠ .training then .next s
    else if agree && decide (6 ≤ lanes) then
      let s := setPort s p { x with st := if 8 ≤ lanes then .up else .degraded, lanes := min lanes 8, fails := 0, far := far }
      .next (tryJoin (linkStarts s p))
    else .next (trainingFails s p)
  else .fault .noPower
/-- A route change: what waited for a route goes (R349). -/
def reroute (s : State) : State := rerouteFrom s 24
/-- The routes to the other members of the view have changed since a recovery without a majority halted scheduling: it starts again
(R371). -/
def restartHalted (s : State) : State :=
  if s.hall.recov.halted ∧ s.hall.recov.active = false ∧ routesNow s ≠ s.hall.recov.routes then startRecovery s else s
/-- The active wing binds the windows to the partitions once, before any frame is in use (R76): partition p has the p-th window. -/
def bindWindows (s : State) (ws : List Nat) : State :=
  if s.pkg.windowsBound = false ∧ ws.length = 24 ∧ ws.all (fun w => decide (w < 24)) = true ∧ ws.Nodup ∧ s.own = [] ∧ s.ctxs = []
  then setPkg s { s.pkg with pmap := (List.range 24).map (fun p => (p, ws.getD p 0)), windowsBound := true }
  else s
/-- Firmware memory of world 0 is carved from the windows: frames that were free are world 0's (R76). -/
def carveFirmware (s : State) (frames : List Nat) : State :=
  (frames.filter fun f => decide (f * 65536 < 24 * 2 ^ 35)).foldl (fun s f =>
    if (ownOf s f).use = 0 then setOwn (wipeFrame s f) f { use := 2 } else s) s
/-- STATE_TABLE_CHANGE (R377). The end of the active wing's work before its takeover (R378) comes by the same event: the commands it
had passed to the security core are lost. -/
def execStateTableChange (item : TableItem) (s : State) : Host.Outcome State Fault Refusal :=
  if s.pkg.power then
    if item = .wingStops then
      .next (if s.pkg.noWing then s
        else setPkg s { s.pkg with noWing := true, lostCmds := s.pkg.waitingCmds, waitingCmds := [] })
    else if wingActs s = false then .next s
    else match item with
    | .sliceLength p n => .next (if p < 24 ∧ n < 256 then setPkg s { s.pkg with slices := Map.put s.pkg.slices p n } else s)
    | .carve d units => .next (if d < 4 then carveDie s d units else s)
    | .larder p frames => .next (if p < 24 then setLarderFrames s p frames else s)
    | .route m ports =>
      .next (if m < 256 then reroute (setPkg s { s.pkg with routes := Map.put s.pkg.routes m ((ports.filter fun p => decide (p < 24)).take 4) }) else s)
    | .weight p w => .next (if p < 24 ∧ 1 ≤ w ∧ w < 256 then setPkg s { s.pkg with weights := Map.put s.pkg.weights p w } else s)
    | .memberIndex m => .next (if m < 256 then setHall s { s.hall with self := m } else s)
    | .configured ms => .next (setHall s { s.hall with configured := ms.filter fun m => decide (m < 256) })
    | .allot c f => .next (if c < 1024 ∧ f < 16 then setPkg s { s.pkg with allots := Map.put s.pkg.allots c f } else s)
    | .budget c kind n =>
      .next (if (Map.find s.ctxs c).isSome ∧ kind < 5 then
        setCtx s c { ctxOf s c with budget := Map.put (ctxOf s c).budget kind (min n 0xFFFFFFFF) } else s)
    | .atsLimit n => .next (setPkg s { s.pkg with atsLimit := n })
    | .fwClaim c cls o => .next (wingClaim s c cls o)
    | .binding m c ps w =>
      .next (if m < 256 ∧ c < 1024 then
        let s := setHall s { s.hall with bindings := Map.put s.hall.bindings (1024 * m + c) (ps % 2 ^ 24 + 2 ^ 24 * (w % 64)) }
        if ps % 2 ^ 24 = 0 then forgetCtx s c else s
      else s)
    | .windows ws => .next (bindWindows s ws)
    | .firmware frames => .next (carveFirmware s frames)
    | .wingStops => .next s
  else .fault .noPower

end Sys2Proof.Machine
end

