-- ==== Sys2Proof/Machine/Dispatch.lean ====
section
/-!
DEFINITION. Machine/Dispatch.lean: one arm per constructor of Instr, each a direct call of that instruction's or
event's meaning.
-/
namespace Sys2Proof.Machine

/-- The meaning of every instruction word and every event. -/
def exec (i : Instr) (s : State) : Host.Outcome State Fault Refusal :=
  match i with
  | .nop st => Sys2Proof.Machine.execNop st s
  | .mov st d b c => Sys2Proof.Machine.execMov st d b c s
  | .limm st d i0 => Sys2Proof.Machine.execLimm st d i0 s
  | .limmh st d i0 => Sys2Proof.Machine.execLimmh st d i0 s
  | .iadd st d a b c => Sys2Proof.Machine.execIadd st d a b c s
  | .isub st d a b c => Sys2Proof.Machine.execIsub st d a b c s
  | .iaddi st d a i0 => Sys2Proof.Machine.execIaddi st d a i0 s
  | .iadd64 st d a b c => Sys2Proof.Machine.execIadd64 st d a b c s
  | .imul st d a b c => Sys2Proof.Machine.execImul st d a b c s
  | .imulhi st d a b c => Sys2Proof.Machine.execImulhi st d a b c s
  | .imulhu st d a b c => Sys2Proof.Machine.execImulhu st d a b c s
  | .imad st d a b c => Sys2Proof.Machine.execImad st d a b c s
  | .imin st d a b c => Sys2Proof.Machine.execImin st d a b c s
  | .imax st d a b c => Sys2Proof.Machine.execImax st d a b c s
  | .iminu st d a b c => Sys2Proof.Machine.execIminu st d a b c s
  | .imaxu st d a b c => Sys2Proof.Machine.execImaxu st d a b c s
  | .iabs st d a => Sys2Proof.Machine.execIabs st d a s
  | .ineg st d a => Sys2Proof.Machine.execIneg st d a s
  | .and st d a b c => Sys2Proof.Machine.execAnd st d a b c s
  | .or st d a b c => Sys2Proof.Machine.execOr st d a b c s
  | .xor st d a b c => Sys2Proof.Machine.execXor st d a b c s
  | .andn st d a b c => Sys2Proof.Machine.execAndn st d a b c s
  | .not st d a => Sys2Proof.Machine.execNot st d a s
  | .shl st d a b c => Sys2Proof.Machine.execShl st d a b c s
  | .shr st d a b c => Sys2Proof.Machine.execShr st d a b c s
  | .sar st d a b c => Sys2Proof.Machine.execSar st d a b c s
  | .shli st d a i0 => Sys2Proof.Machine.execShli st d a i0 s
  | .shri st d a i0 => Sys2Proof.Machine.execShri st d a i0 s
  | .sari st d a i0 => Sys2Proof.Machine.execSari st d a i0 s
  | .popc st d a => Sys2Proof.Machine.execPopc st d a s
  | .clz st d a => Sys2Proof.Machine.execClz st d a s
  | .brev st d a => Sys2Proof.Machine.execBrev st d a s
  | .bfe st d a b c => Sys2Proof.Machine.execBfe st d a b c s
  | .bfi st d a b c => Sys2Proof.Machine.execBfi st d a b c s
  | .icmp st p c a b u => Sys2Proof.Machine.execIcmp st p c a b u s
  | .sel st d a n p => Sys2Proof.Machine.execSel st d a n p s
  | .plut st d t a b => Sys2Proof.Machine.execPlut st d t a b s
  | .fadd st d a b c => Sys2Proof.Machine.execFadd st d a b c s
  | .fsub st d a b c => Sys2Proof.Machine.execFsub st d a b c s
  | .fmul st d a b c => Sys2Proof.Machine.execFmul st d a b c s
  | .ffma st d a b c => Sys2Proof.Machine.execFfma st d a b c s
  | .fmin st d a b c => Sys2Proof.Machine.execFmin st d a b c s
  | .fmax st d a b c => Sys2Proof.Machine.execFmax st d a b c s
  | .fabs st d a => Sys2Proof.Machine.execFabs st d a s
  | .fneg st d a => Sys2Proof.Machine.execFneg st d a s
  | .fcmp st p c a b u => Sys2Proof.Machine.execFcmp st p c a b u s
  | .frcp st d a => Sys2Proof.Machine.execFrcp st d a s
  | .frsq st d a => Sys2Proof.Machine.execFrsq st d a s
  | .fsqrt st d a => Sys2Proof.Machine.execFsqrt st d a s
  | .fexp2 st d a => Sys2Proof.Machine.execFexp2 st d a s
  | .flog2 st d a => Sys2Proof.Machine.execFlog2 st d a s
  | .fsint st d a => Sys2Proof.Machine.execFsint st d a s
  | .fcost st d a => Sys2Proof.Machine.execFcost st d a s
  | .frnd st d a m => Sys2Proof.Machine.execFrnd st d a m s
  | .fclass st d a => Sys2Proof.Machine.execFclass st d a s
  | .pbadd st d a b c => Sys2Proof.Machine.execPbadd st d a b c s
  | .pbmul st d a b c => Sys2Proof.Machine.execPbmul st d a b c s
  | .pbfma st d a b c => Sys2Proof.Machine.execPbfma st d a b c s
  | .phadd st d a b c => Sys2Proof.Machine.execPhadd st d a b c s
  | .phmul st d a b c => Sys2Proof.Machine.execPhmul st d a b c s
  | .phfma st d a b c => Sys2Proof.Machine.execPhfma st d a b c s
  | .cvt st d a m t u => Sys2Proof.Machine.execCvt st d a m t u s
  | .bsplit st d a => Sys2Proof.Machine.execBsplit st d a s
  | .pack2 st d a b c => Sys2Proof.Machine.execPack2 st d a b c s
  | .unpk2 st d a q h => Sys2Proof.Machine.execUnpk2 st d a q h s
  | .qnt st d a p k => Sys2Proof.Machine.execQnt st d a p k s
  | .dqnt st d a f m k => Sys2Proof.Machine.execDqnt st d a f m k s
  | .niget st d a m => Sys2Proof.Machine.execNiget st d a m s
  | .niput st d a k => Sys2Proof.Machine.execNiput st d a k s
  | .sacc st d a b c => Sys2Proof.Machine.execSacc st d a b c s
  | .lds st d a o => Sys2Proof.Machine.execLds st d a o s
  | .sts st d a o => Sys2Proof.Machine.execSts st d a o s
  | .lds64 st d a o => Sys2Proof.Machine.execLds64 st d a o s
  | .sts64 st d a o => Sys2Proof.Machine.execSts64 st d a o s
  | .ldw st d a o => Sys2Proof.Machine.execLdw st d a o s
  | .stw st d a o => Sys2Proof.Machine.execStw st d a o s
  | .ldsp st d a o => Sys2Proof.Machine.execLdsp st d a o s
  | .stsp st d a o => Sys2Proof.Machine.execStsp st d a o s
  | .ldd st d a o => Sys2Proof.Machine.execLdd st d a o s
  | .std st d a o => Sys2Proof.Machine.execStd st d a o s
  | .ldc st d a o => Sys2Proof.Machine.execLdc st d a o s
  | .atom st d a f p => Sys2Proof.Machine.execAtom st d a f p s
  | .cas st d a p => Sys2Proof.Machine.execCas st d a p s
  | .shfli st d a m c => Sys2Proof.Machine.execShfli st d a m c s
  | .shfl st d a b c => Sys2Proof.Machine.execShfl st d a b c s
  | .vote st p o n q => Sys2Proof.Machine.execVote st p o n q s
  | .ballot st d h n p => Sys2Proof.Machine.execBallot st d h n p s
  | .rdlane st d a i0 => Sys2Proof.Machine.execRdlane st d a i0 s
  | .wrlane st d a i0 => Sys2Proof.Machine.execWrlane st d a i0 s
  | .matchKeys st d a b c => Sys2Proof.Machine.execMatchKeys st d a b c s
  | .gen st d a g => Sys2Proof.Machine.execGen st d a g s
  | .gent st d a g => Sys2Proof.Machine.execGent st d a g s
  | .svc st d n => Sys2Proof.Machine.execSvc st d n s
  | .laneid st d => Sys2Proof.Machine.execLaneid st d s
  | .brk st n => Sys2Proof.Machine.execBrk st n s
  | .snop st => Sys2Proof.Machine.execSnop st s
  | .smov st d b => Sys2Proof.Machine.execSmov st d b s
  | .slimm st d i0 => Sys2Proof.Machine.execSlimm st d i0 s
  | .slimmh st d i0 => Sys2Proof.Machine.execSlimmh st d i0 s
  | .sadd st d a b => Sys2Proof.Machine.execSadd st d a b s
  | .ssub st d a b => Sys2Proof.Machine.execSsub st d a b s
  | .saddi st d a i0 => Sys2Proof.Machine.execSaddi st d a i0 s
  | .sadd64 st d a b => Sys2Proof.Machine.execSadd64 st d a b s
  | .smul st d a b => Sys2Proof.Machine.execSmul st d a b s
  | .smulhi st d a b u => Sys2Proof.Machine.execSmulhi st d a b u s
  | .sand st d a b => Sys2Proof.Machine.execSand st d a b s
  | .sor st d a b => Sys2Proof.Machine.execSor st d a b s
  | .sxor st d a b => Sys2Proof.Machine.execSxor st d a b s
  | .sshl st d a b => Sys2Proof.Machine.execSshl st d a b s
  | .sshr st d a b => Sys2Proof.Machine.execSshr st d a b s
  | .ssar st d a b => Sys2Proof.Machine.execSsar st d a b s
  | .sshli st d a i0 => Sys2Proof.Machine.execSshli st d a i0 s
  | .sshri st d a i0 => Sys2Proof.Machine.execSshri st d a i0 s
  | .smin st d a b u => Sys2Proof.Machine.execSmin st d a b u s
  | .smax st d a b u => Sys2Proof.Machine.execSmax st d a b u s
  | .spopc st d a => Sys2Proof.Machine.execSpopc st d a s
  | .sclz st d a => Sys2Proof.Machine.execSclz st d a s
  | .scmp st p c a b => Sys2Proof.Machine.execScmp st p c a b s
  | .ssel st d a p n => Sys2Proof.Machine.execSsel st d a p n s
  | .sfadd st d a b => Sys2Proof.Machine.execSfadd st d a b s
  | .sfmul st d a b => Sys2Proof.Machine.execSfmul st d a b s
  | .sffma st d a b => Sys2Proof.Machine.execSffma st d a b s
  | .sldc st d a i0 => Sys2Proof.Machine.execSldc st d a i0 s
  | .slds st d a i0 => Sys2Proof.Machine.execSlds st d a i0 s
  | .ssts st d a i0 => Sys2Proof.Machine.execSsts st d a i0 s
  | .srd st d c l => Sys2Proof.Machine.execSrd st d c l s
  | .swr st a c => Sys2Proof.Machine.execSwr st a c s
  | .bra st p n o => Sys2Proof.Machine.execBra st p n o s
  | .br st p n o => Sys2Proof.Machine.execBr st p n o s
  | .join st => Sys2Proof.Machine.execJoin st s
  | .jmp st o => Sys2Proof.Machine.execJmp st o s
  | .call st o => Sys2Proof.Machine.execCall st o s
  | .ret st => Sys2Proof.Machine.execRet st s
  | .brx st a => Sys2Proof.Machine.execBrx st a s
  | .lhead st p n => Sys2Proof.Machine.execLhead st p n s
  | .exit st => Sys2Proof.Machine.execExit st s
  | .sleep st i0 => Sys2Proof.Machine.execSleep st i0 s
  | .emrd st d => Sys2Proof.Machine.execEmrd st d s
  | .emwr st a => Sys2Proof.Machine.execEmwr st a s
  | .emandReg st a => Sys2Proof.Machine.execEmandReg st a s
  | .emandPred st p n => Sys2Proof.Machine.execEmandPred st p n s
  | .xlate st a m w r x => Sys2Proof.Machine.execXlate st a m w r x s
  | .xrd st d n => Sys2Proof.Machine.execXrd st d n s
  | .xinv st m => Sys2Proof.Machine.execXinv st m s
  | .fence st c k => Sys2Proof.Machine.execFence st c k s
  | .ackrd st d => Sys2Proof.Machine.execAckrd st d s
  | .icinv st c l => Sys2Proof.Machine.execIcinv st c l s
  | .region st i0 => Sys2Proof.Machine.execRegion st i0 s
  | .regend st => Sys2Proof.Machine.execRegend st s
  | .cpy st d a k f => Sys2Proof.Machine.execCpy st d a k f s
  | .cpyg st d a k f => Sys2Proof.Machine.execCpyg st d a k f s
  | .cpyr st d a k f => Sys2Proof.Machine.execCpyr st d a k f s
  | .cpya st d a k f => Sys2Proof.Machine.execCpya st d a k f s
  | .cbatch st d => Sys2Proof.Machine.execCbatch st d s
  | .waitb st a => Sys2Proof.Machine.execWaitb st a s
  | .testc st d a b => Sys2Proof.Machine.execTestc st d a b s
  | .waitc st a b => Sys2Proof.Machine.execWaitc st a b s
  | .mma st d a k f => Sys2Proof.Machine.execMma st d a k f s
  | .mmai st d a k f => Sys2Proof.Machine.execMmai st d a k f s
  | .ldst st d a k f => Sys2Proof.Machine.execLdst st d a k f s
  | .accz st d a k f => Sys2Proof.Machine.execAccz st d a k f s
  | .accrd st d a k f => Sys2Proof.Machine.execAccrd st d a k f s
  | .accwr st d a k f => Sys2Proof.Machine.execAccwr st d a k f s
  | .sacct st d a k f => Sys2Proof.Machine.execSacct st d a k f s
  | .opfence st => Sys2Proof.Machine.execOpfence st s
  | .waitm st a => Sys2Proof.Machine.execWaitm st a s
  | .mseq st d a => Sys2Proof.Machine.execMseq st d a s
  | .tailp st a r => Sys2Proof.Machine.execTailp st a r s
  | .gset st a g => Sys2Proof.Machine.execGset st a g s
  | .grd st d g => Sys2Proof.Machine.execGrd st d g s
  | .gstep st => Sys2Proof.Machine.execGstep st s
  | .kset st a k m => Sys2Proof.Machine.execKset st a k m s
  | .krd st d => Sys2Proof.Machine.execKrd st d s
  | .kclr st k => Sys2Proof.Machine.execKclr st k s
  | .bar st i0 => Sys2Proof.Machine.execBar st i0 s
  | .barc st => Sys2Proof.Machine.execBarc st s
  | .barm st a i0 => Sys2Proof.Machine.execBarm st a i0 s
  | .arrive st i0 => Sys2Proof.Machine.execArrive st i0 s
  | .await st i0 => Sys2Proof.Machine.execAwait st i0 s
  | .barg st => Sys2Proof.Machine.execBarg st s
  | .barinit st a i0 => Sys2Proof.Machine.execBarinit st a i0 s
  | .barrd st d k i0 => Sys2Proof.Machine.execBarrd st d k i0 s
  | .qpush st a q => Sys2Proof.Machine.execQpush st a q s
  | .launch st a => Sys2Proof.Machine.execLaunch st a s
  | .shape st a => Sys2Proof.Machine.execShape st a s
  | .arm st o a t c => Sys2Proof.Machine.execArm st o a t c s
  | .hring st a j f n => Sys2Proof.Machine.execHring st a j f n s
  | .hpost st a => Sys2Proof.Machine.execHpost st a s
  | .mapft st o a => Sys2Proof.Machine.execMapft st o a s
  | .fqpost st a => Sys2Proof.Machine.execFqpost st a s
  | .tlbinv st a => Sys2Proof.Machine.execTlbinv st a s
  | .trap st n => Sys2Proof.Machine.execTrap st n s
  | .rft st r => Sys2Proof.Machine.execRft st r s
  | .srdp st d c => Sys2Proof.Machine.execSrdp st d c s
  | .swrp st a c => Sys2Proof.Machine.execSwrp st a c s
  | .sleepw st c a b => Sys2Proof.Machine.execSleepw st c a b s
  | .fqtake st d w => Sys2Proof.Machine.execFqtake st d w s
  | .svctake st d w => Sys2Proof.Machine.execSvctake st d w s
  | .svcdone st a b => Sys2Proof.Machine.execSvcdone st a b s
  | .groupWaitEnds g => Sys2Proof.Machine.execGroupWaitEnds g s
  | .storePerformed g i0 => Sys2Proof.Machine.execStorePerformed g i0 s
  | .notify f slot val => Sys2Proof.Machine.execNotify f slot val s
  | .launchCmd c => Sys2Proof.Machine.execLaunchCmd c s
  | .copy c => Sys2Proof.Machine.execCopy c s
  | .wait c => Sys2Proof.Machine.execWait c s
  | .waitReevaluate c => Sys2Proof.Machine.execWaitReevaluate c s
  | .signal c => Sys2Proof.Machine.execSignal c s
  | .graph c => Sys2Proof.Machine.execGraph c s
  | .graphRunStart ctx slot => Sys2Proof.Machine.execGraphRunStart ctx slot s
  | .cond c => Sys2Proof.Machine.execCond c s
  | .commandComplete c => Sys2Proof.Machine.execCommandComplete c s
  | .queueOff ctx q => Sys2Proof.Machine.execQueueOff ctx q s
  | .completionRecord ctx i0 => Sys2Proof.Machine.execCompletionRecord ctx i0 s
  | .serviceSliceBoundary die => Sys2Proof.Machine.execServiceSliceBoundary die s
  | .create f a0 a1 a2 a3 => Sys2Proof.Machine.execCreate f a0 a1 a2 a3 s
  | .setattr f a0 a1 a2 a3 => Sys2Proof.Machine.execSetattr f a0 a1 a2 a3 s
  | .map f a0 a1 a2 a3 => Sys2Proof.Machine.execMap f a0 a1 a2 a3 s
  | .unmap f a0 a1 a2 a3 => Sys2Proof.Machine.execUnmap f a0 a1 a2 a3 s
  | .sealCtx f a0 a1 a2 a3 => Sys2Proof.Machine.execSealCtx f a0 a1 a2 a3 s
  | .suspend f a0 a1 a2 a3 => Sys2Proof.Machine.execSuspend f a0 a1 a2 a3 s
  | .resume f a0 a1 a2 a3 => Sys2Proof.Machine.execResume f a0 a1 a2 a3 s
  | .ckpt f a0 a1 a2 a3 => Sys2Proof.Machine.execCkpt f a0 a1 a2 a3 s
  | .restore f a0 a1 a2 a3 => Sys2Proof.Machine.execRestore f a0 a1 a2 a3 s
  | .destroy f a0 a1 a2 a3 => Sys2Proof.Machine.execDestroy f a0 a1 a2 a3 s
  | .wipeComplete ctx => Sys2Proof.Machine.execWipeComplete ctx s
  | .claim f a0 a1 a2 a3 => Sys2Proof.Machine.execClaim f a0 a1 a2 a3 s
  | .unclaim f a0 a1 a2 a3 => Sys2Proof.Machine.execUnclaim f a0 a1 a2 a3 s
  | .update f a0 a1 a2 a3 => Sys2Proof.Machine.execUpdate f a0 a1 a2 a3 s
  | .updateQuiesceTimeout => Sys2Proof.Machine.execUpdateQuiesceTimeout s
  | .flip f val => Sys2Proof.Machine.execFlip f val s
  | .biasFlipComplete frame => Sys2Proof.Machine.execBiasFlipComplete frame s
  | .errconsWrite f val => Sys2Proof.Machine.execErrconsWrite f val s
  | .registerWrite f off val => Sys2Proof.Machine.execRegisterWrite f off val s
  | .attestationRequest f nonce ctx => Sys2Proof.Machine.execAttestationRequest f nonce ctx s
  | .hostWrite dev addr bytes => Sys2Proof.Machine.execHostWrite dev addr bytes s
  | .hostRead addr n => Sys2Proof.Machine.execHostRead addr n s
  | .atsInvalidation ld addr n => Sys2Proof.Machine.execAtsInvalidation ld addr n s
  | .atsInvalidationTimeout i0 => Sys2Proof.Machine.execAtsInvalidationTimeout i0 s
  | .gangPlace kern rank => Sys2Proof.Machine.execGangPlace kern rank s
  | .gangRelease gang => Sys2Proof.Machine.execGangRelease gang s
  | .blockRetire blk => Sys2Proof.Machine.execBlockRetire blk s
  | .preempt blocks bound => Sys2Proof.Machine.execPreempt blocks bound s
  | .gangResume gang => Sys2Proof.Machine.execGangResume gang s
  | .holdDrain blk => Sys2Proof.Machine.execHoldDrain blk s
  | .copyCommandStart blk => Sys2Proof.Machine.execCopyCommandStart blk s
  | .copyChunkDone blk seq chunk => Sys2Proof.Machine.execCopyChunkDone blk seq chunk s
  | .copyCommandComplete blk seq => Sys2Proof.Machine.execCopyCommandComplete blk seq s
  | .orderedReductionApply i0 => Sys2Proof.Machine.execOrderedReductionApply i0 s
  | .matrixCommandStart blk => Sys2Proof.Machine.execMatrixCommandStart blk s
  | .matrixCommandComplete blk seq => Sys2Proof.Machine.execMatrixCommandComplete blk seq s
  | .softError mem addr unc => Sys2Proof.Machine.execSoftError mem addr unc s
  | .correctedErrorThreshold ctx => Sys2Proof.Machine.execCorrectedErrorThreshold ctx s
  | .portEnable p => Sys2Proof.Machine.execPortEnable p s
  | .trainingComplete p lanes agree far => Sys2Proof.Machine.execTrainingComplete p lanes agree far s
  | .trainingTimeout p => Sys2Proof.Machine.execTrainingTimeout p s
  | .retrainTimer p => Sys2Proof.Machine.execRetrainTimer p s
  | .laneFailure p => Sys2Proof.Machine.execLaneFailure p s
  | .lossOfLock p => Sys2Proof.Machine.execLossOfLock p s
  | .portRetire p => Sys2Proof.Machine.execPortRetire p s
  | .idle p fl => Sys2Proof.Machine.execIdle p fl s
  | .pause p fl => Sys2Proof.Machine.execPause p fl s
  | .retry p fl => Sys2Proof.Machine.execRetry p fl s
  | .snap p fl => Sys2Proof.Machine.execSnap p fl s
  | .barr p fl => Sys2Proof.Machine.execBarr p fl s
  | .whead p fl => Sys2Proof.Machine.execWhead p fl s
  | .wacc p fl => Sys2Proof.Machine.execWacc p fl s
  | .data p fl => Sys2Proof.Machine.execData p fl s
  | .rreq p fl => Sys2Proof.Machine.execRreq p fl s
  | .rhead p fl => Sys2Proof.Machine.execRhead p fl s
  | .atomFlit p fl => Sys2Proof.Machine.execAtomFlit p fl s
  | .atomr p fl => Sys2Proof.Machine.execAtomr p fl s
  | .ack p fl => Sys2Proof.Machine.execAck p fl s
  | .radd p fl => Sys2Proof.Machine.execRadd p fl s
  | .operationTimeout dst tag => Sys2Proof.Machine.execOperationTimeout dst tag s
  | .hallEvent p fl => Sys2Proof.Machine.execHallEvent p fl s
  | .hallAck p fl => Sys2Proof.Machine.execHallAck p fl s
  | .token p fl => Sys2Proof.Machine.execToken p fl s
  | .stable p fl => Sys2Proof.Machine.execStable p fl s
  | .recover p fl => Sys2Proof.Machine.execRecover p fl s
  | .reply p fl => Sys2Proof.Machine.execReply p fl s
  | .ackWaitTimeout => Sys2Proof.Machine.execAckWaitTimeout s
  | .tokenTimeout => Sys2Proof.Machine.execTokenTimeout s
  | .recoveryCollect => Sys2Proof.Machine.execRecoveryCollect s
  | .suspect m => Sys2Proof.Machine.execSuspect m s
  | .wingFailover => Sys2Proof.Machine.execWingFailover s
  | .firstHeartbeat kind => Sys2Proof.Machine.execFirstHeartbeat kind s
  | .provisioningToken tok => Sys2Proof.Machine.execProvisioningToken tok s
  | .deploymentToken tok => Sys2Proof.Machine.execDeploymentToken tok s
  | .rmaToken tok => Sys2Proof.Machine.execRmaToken tok s
  | .repairToken tok => Sys2Proof.Machine.execRepairToken tok s
  | .decommissionToken tok => Sys2Proof.Machine.execDecommissionToken tok s
  | .packageReset => Sys2Proof.Machine.execPackageReset s
  | .budgetPeriod unit => Sys2Proof.Machine.execBudgetPeriod unit s
  | .stateTableChange item => Sys2Proof.Machine.execStateTableChange item s
  | .flitFailsCrc p => Sys2Proof.Machine.execFlitFailsCrc p s
  | .logicalDeviceBind ld bound windows route => Sys2Proof.Machine.execLogicalDeviceBind ld bound windows route s
  | .powerLoss => Sys2Proof.Machine.execPowerLoss s

end Sys2Proof.Machine
end

