-- ==== Sys2Proof/Machine/Schedule.lean ====
section
/-!
DEFINITION. Machine/Schedule.lean: which events the device's own units bring about next (log entries 2 and 16): the model runs
them, one a step, between two periods of the barrels. An event that is not enabled when its step comes has no effect.
-/
namespace Sys2Proof.Machine

/-- A group that takes turns (R136). -/
def turning (g : Group) : Bool := g.state == .runnable || g.state == .waiting
/-- The groups of one period, by the cycle of their slots (R17). -/
def barrelOrder (s : State) : List Nat :=
  (List.range 16).flatMap fun c => (s.groups.filter fun e => turning e.2 && e.2.slot == c).map Prod.fst

/-! ### Groups, gangs and blocks -/

/-- A store that may be performed now: its time has come, and every earlier one that it overlaps is performed (R236). -/
def storeReady (s : State) (ps : List PendStore) (i : Nat) : Bool :=
  match (ps.drop i).head? with
  | some p => decide (p.ready ≤ s.time) && !((ps.take i).any (storeHits p.mem p.addr p.bytes.length))
  | none => false
/-- The stores of a group that may be performed, the last first, so that the places of the others stay as they are. -/
def storeEvents (s : State) (g : Nat) (ps : List PendStore) : List Due :=
  (((List.range ps.length).filter (storeReady s ps)).reverse).map (.storePerformed g)
def groupEvents (s : State) : List Due :=
  s.groups.flatMap fun e =>
    let here : State := { s with cur := e.1 }
    storeEvents s e.1 e.2.stores
      ++ (if e.2.state == .waiting && (armOrder e.2).any (pathReady here) then [.groupWaitEnds e.1] else [])
/-- The kernels here in the order in which they are distributed (R90): descending priority, then ascending identifier. -/
def kernOrder (s : State) : List (Nat × Kern) :=
  (List.range 8).reverse.flatMap fun p => s.kerns.filter fun e => kernPrio s e.1 == p
def kernEvents (s : State) : List Due :=
  (kernOrder s).flatMap fun e =>
    if distributes s e.1 then ((s.gangs.filter fun q => q.2.kern == e.1 && q.2.saved).map fun q => .gangResume q.1)
      ++ (e.2.todo.filter fun t => !t.2.isEmpty).map fun t => .gangPlace e.1 t.1
    else []
def gangEvents (s : State) : List Due :=
  s.gangs.flatMap fun e => if e.2.saved || e.2.released then [] else [.gangRelease e.1]
/-- The engines of a block: a completion of what has started, then a start. -/
def copyEvents (s : State) (b : Nat) (k : Block) : List Due :=
  ((k.copy.cmds.filter (copyCan s b)).flatMap fun c =>
    (if movesRows c then c.chunks.map fun x => .copyChunk b c.seq x else []) ++ [.copyComplete b c.seq])
    ++ (if k.copy.cmds.any fun c => c.phase == .queued then [.copyStart b] else [])
def matrixEvents (b : Nat) (k : Block) : List Due :=
  ((k.matrix.cmds.filter fun c => c.phase == .started).map fun c => .matrixComplete b c.seq)
    ++ (if k.matrix.cmds.any fun c => c.phase == .queued then [.matrixStart b] else [])
def blockEvents (s : State) : List Due :=
  s.blocks.flatMap fun e =>
    copyEvents s e.1 e.2 ++ matrixEvents e.1 e.2
      ++ (if !e.2.spec && !(e.2.held.isEmpty && e.2.effects.isEmpty) then [.holdDrain e.1] else [])
      ++ (if canRetire s e.1 then [.blockRetire e.1] else [])
/-- The first ordered reduction whose turn has come, or never will (R275, R82). -/
def reductionEvents (s : State) : List Due :=
  ((s.links.contribs.findIdx? (contribDue s)).map fun i => Due.reduction i).toList

/-! ### Queues and graphs -/

def queueEvents (s : State) (ctx q : Nat) (x : Queue) : List Due :=
  let k := startKind false (qKind (cmdImg s ctx q x.head))
  ((x.cmds.filter fun r => r.out.isSome && r.recorded && !r.fin).map fun r => .complete (.cmd ctx q r.seq))
    ++ (if canStart s ctx q then
          [if x.st == .stalled && k == 3 then .reevaluate (.cmd ctx q x.head) else .start k (.cmd ctx q x.head)]
        else [])
    ++ (if x.closing && x.cmds.all fun r => r.fin then [.queueOff ctx q] else [])
def nodeEvents (s : State) (ctx slot i : Nat) (n : Node) : List Due :=
  let img := natOfWords n.img
  if nodeReady s ctx slot i then [.start (startKind true (qKind img)) (.node ctx slot i)]
  else if n.st == 1 && n.out.isSome && n.recorded then [.complete (.node ctx slot i)]
  else if n.st == 1 && n.out.isNone && qKind img == 3 && (n.met || waitOk s ctx img) then [.reevaluate (.node ctx slot i)]
  else []
def graphEvents (s : State) (ctx slot : Nat) (g : Graph) : List Due :=
  if g.running && !g.inRun then [.graphRun ctx slot]
  else (List.range g.list.length).flatMap fun i => nodeEvents s ctx slot i (g.list.getD i {})
/-- The first waiting completion record that its ring has room for (R93). -/
def recordEvents (s : State) (ctx : Nat) (rs : List WaitRec) : List Due :=
  (((List.range rs.length).find? fun i =>
    let r := rs.getD i {}
    !((rs.take i).any fun x => x.ring == r.ring) && (tryRecord s ctx r.ring r.words).isSome).map fun i =>
      Due.record ctx i).toList
def ctxEvents (s : State) : List Due :=
  s.ctxs.flatMap fun e =>
    (e.2.queues.flatMap fun q => queueEvents s e.1 q.1 q.2) ++ (e.2.graphs.flatMap fun g => graphEvents s e.1 g.1 g.2)
      ++ ((e.2.oldWaits.filter fun x => (oldReady s e.1 x.slot x.index).isSome).map fun x => .reevaluate (.node e.1 x.slot x.index))
      ++ recordEvents s e.1 e.2.records
      ++ (match e.2.suspendFn with
          | some f => if allSaved s e.1 then [.suspended f e.1] else []
          | none => [])
      ++ (if e.2.st == .teardown then [.wipe e.1] else [])
      ++ (if 256 < correctedIn s e.1 then [.corrected e.1] else [])

/-! ### The package -/

/-- What the loopback path brings back (R353). -/
def loopEvents (s : State) : List Due :=
  ((portAt s 24).sendQ.filter fun fl => fl.dst == s.hall.self && !headHeld s fl
    && (freeFlit s fl || decide (0 < budgetLeft (ctxOf s fl.ctx) 1 24))).map .flit
/-- A member alone in its view keeps the token, and visits whenever events wait or another member has joined. -/
def tokenEvents (s : State) : List Due :=
  if s.hall.token.isSome && !s.hall.awaiting && !((others s).isEmpty && s.hall.pending.isEmpty && s.hall.backlog.isEmpty) then
    [.token] else []
/-- A new budget period for every unit that has charged, each 2^16 cycles (R79). -/
def unitOf (k : Nat) : BudgetUnit :=
  let u := k % 1000
  match k / 1000 with
  | 0 => .copy u | 1 => .link u | 2 => .service u | 3 => .hold u
  | _ => .matrix u
def budgetEvents (s : State) : List Due :=
  if s.time % 4096 = 0 then ((s.ctxs.flatMap fun e => e.2.left.map Prod.fst).eraseDups).map fun k => .budget (unitOf k) else []
/-- The end of a service core's slice, or its first one (R100). -/
def sliceEvents (s : State) : List Due :=
  ((List.range 4).filter fun d => decide ((svcOf s d).stop ≤ s.time) && ((svcOf s d).stop != 0 || (nextSlice s d).isSome)).map
    fun d => .slice d
def packageEvents (s : State) : List Due :=
  ((s.flips.filter (flipReady s)).map fun x => .flip x.frame)
    ++ ((s.ats.findIdx? (atsQuiet s)).map fun i => Due.ats i).toList
    ++ (match s.pkg.update with
        | some u => if portsQuiet s then [.updated u.fn] else []
        | none => [])
    ++ (if coreBusy s then [] else (s.pkg.waitingCmds.head?.map Due.command).toList)
/-- Every event that the device's own units may bring about now. -/
def autonomous (s : State) : List Due :=
  groupEvents s ++ blockEvents s ++ reductionEvents s ++ gangEvents s ++ kernEvents s ++ ctxEvents s ++ loopEvents s
    ++ tokenEvents s ++ packageEvents s ++ sliceEvents s ++ budgetEvents s

/-! ### Running them -/

/-- A flit of the loopback path, by its kind and, for a HALL flit, its form. -/
def runFlit (fl : Flit) (s : State) : Host.Outcome State Fault Refusal :=
  match fl.kind with
  | 1 => match fieldAt fl.pay 0 1 with
    | 0 => execHallEvent 24 fl s
    | 1 => execHallAck 24 fl s
    | 2 => execToken 24 fl s
    | 3 => execStable 24 fl s
    | 4 => execRecover 24 fl s
    | _ => execReply 24 fl s
  | 2 => execSnap 24 fl s
  | 3 => execBarr 24 fl s
  | 4 => execWhead 24 fl s
  | 5 => execWacc 24 fl s
  | 6 => execData 24 fl s
  | 7 => execRreq 24 fl s
  | 8 => execRhead 24 fl s
  | 9 => execAtomFlit 24 fl s
  | 10 => execAtomr 24 fl s
  | 11 => execAck 24 fl s
  | 14 => execRadd 24 fl s
  | _ => .next s
/-- The start of a queue command or node, by its kind. -/
def runStart (kind : Nat) (c : CmdRef) (s : State) : Host.Outcome State Fault Refusal :=
  match kind with
  | 2 => execCopy c s
  | 3 => execWait c s
  | 4 => execSignal c s
  | 5 => execGraph c s
  | 6 => execCond c s
  | _ => execLaunchCmd c s
/-- What the device's own units bring about is the meaning of the event. -/
def runDue (d : Due) (s : State) : Host.Outcome State Fault Refusal :=
  match d with
  | .storePerformed g i => execStorePerformed g i s
  | .groupWaitEnds g => execGroupWaitEnds g s
  | .gangPlace k r => execGangPlace k r s
  | .gangRelease q => execGangRelease q s
  | .gangResume q => execGangResume q s
  | .blockRetire b => execBlockRetire b s
  | .holdDrain b => execHoldDrain b s
  | .copyStart b => execCopyCommandStart b s
  | .copyChunk b n x => execCopyChunkDone b n x s
  | .copyComplete b n => execCopyCommandComplete b n s
  | .matrixStart b => execMatrixCommandStart b s
  | .matrixComplete b n => execMatrixCommandComplete b n s
  | .reduction i => execOrderedReductionApply i s
  | .start k c => runStart k c s
  | .reevaluate c => execWaitReevaluate c s
  | .complete c => execCommandComplete c s
  | .queueOff c q => execQueueOff c q s
  | .graphRun c m => execGraphRunStart c m s
  | .record c i => execCompletionRecord c i s
  | .suspended f c => execSuspend f (BitVec.ofNat 64 c) 0 0 0 s
  | .wipe c => execWipeComplete c s
  | .corrected c => execCorrectedErrorThreshold c s
  | .flit fl => runFlit fl s
  | .token => execToken 24 {} s
  | .flip f => execBiasFlipComplete f s
  | .ats i => execAtsInvalidationTimeout i s
  | .updated f => execUpdate f 0 0 0 0 s
  | .command i => exec i s
  | .slice d => execServiceSliceBoundary d s
  | .budget u => execBudgetPeriod u s

/-! ### After a step -/

/-- The thread that a block's next listed item waits for can no longer come: the trace has diverged (R118). -/
def settleItems (s : State) : State :=
  s.blocks.foldl (fun s e =>
    let x := kernOf s e.2.kern
    if x.mode != 2 || e.2.kmode || x.diverged.contains (256 + e.2.logical) || (gangOf s e.2.gang).released == false then s
    else match itemsLeft s e.2.kern e.2 with
      | y :: _ => if threadComes { s with cur := s.nextId } e.2 y.2.2.1 then s else setDiverged s e.2.kern (256 + e.2.logical)
      | [] => s) s
/-- What every change of the machine may bring with it: a listed item's thread is gone, a WAIT's word satisfies it, a halted recovery
has new routes (R118, R85, R371). -/
def settle (s : State) : State := restartHalted (metWaits (settleItems s))
def afterStep (o : Host.Outcome State Fault Refusal) : Host.Outcome State Fault Refusal :=
  match o with
  | .next s => .next (settle s)
  | .fault f => .fault f
  | .refused r => .refused r

/-! ### Turns and periods -/

/-- A group's turn (R17, R38): the word its path fetches, or the trap of that fetch, or nothing. -/
def turn (g : Nat) (s : State) : Host.Outcome State Fault Refusal :=
  match beginTurn s g with
  | (s, false) => .next s
  | (s, true) => match fetchInstr s with
    | (s, .inl i) => exec i s
    | (s, .inr t) => .next (takeTrap s s.cur t)
/-- The end of a period: the ports state their pause masks, the device's own units come next, then every group that takes turns has one. -/
def endPeriod (s : State) : State :=
  let s := idlePorts { s with time := s.time + 1, barrel := barrelOrder s }
  { s with due := autonomous s }
/-- What arrives from outside is an event, never an instruction word. -/
def fromOutside (i : Instr) (s : State) : Host.Outcome State Fault Refusal :=
  if (encode i).isSome then .next s else exec i s
/-- Without power, only a reset happens (R390). -/
def withoutPower (s : State) : Host.Outcome State Fault Refusal :=
  match s.agenda with
  | .packageReset :: r => exec .packageReset { s with agenda := r }
  | _ => .fault .noPower

end Sys2Proof.Machine
end

