-- ==== Sys2Proof/Machine/Step.lean ====
section
/-!
DEFINITION. Machine/Step.lean: one step of the package, and a state whose next step runs a given word.
-/
namespace Sys2Proof.Machine

/-- One step: an event from outside, else one that the device's own units bring about, else a turn of a group, else the end of
the period (log entry 2). -/
def step (s : State) : Host.Outcome State Fault Refusal :=
  if s.pkg.power = false then withoutPower s
  else match s.agenda with
    | i :: r => afterStep (fromOutside i { s with agenda := r })
    | [] => match s.due with
      | d :: r => afterStep (runDue d { s with due := r })
      | [] => match s.barrel with
        | g :: r => afterStep (turn g { s with barrel := r })
        | [] => .next (endPeriod s)

/-- The state with a word placed as the first one of a kernel that has just been released (R111, log entry 3): one group of 32
threads of a sealed context of world 1, whose code page is frame 0 of device memory; its turn comes next. -/
def State.withFetchWord (s : State) (nbits w : Nat) : State :=
  let x := BitVec.ofNat 32 (w % 2 ^ min nbits 32)
  let id := s.nextId
  let m := fullMask 32
  let leaf : Leaf := { va := 0, level := 0, frame := 0, key := 1, st := 0, cls := 0, x := true, w := true, r := true }
  let ctx : Ctx := { st := .sealed, world := 1, keys := [1], parts := 1, leaves := [leaf] }
  let kern : Kern := { ctx := 0, world := 1, hdr := { ncode := 1, roles := [{ regs := 16, groups := 1 }] }, read := [0]
                       openBlocks := [(0, 1)] }
  let gang : Gang := { kern := 0, blocks := [id + 1], released := true }
  let block : Block := { kern := 0, gang := id, ctx := 0, world := 1, groups := [id + 2]
                         bars := (List.range 8).map fun i => (i, { members := 1 }) }
  let group : Group := { blk := id + 1, allot := 16, state := .runnable, live := m
                         pathA := { pc := 0x80, mask := m, scope := m } }
  { s with
    nextId := id + 3, agenda := [], due := [], barrel := [id + 2]
    groups := Map.put s.groups (id + 2) group, blocks := Map.put s.blocks (id + 1) block
    gangs := Map.put s.gangs id gang, kerns := Map.put s.kerns 0 kern, ctxs := Map.put s.ctxs 0 ctx
    own := Map.put s.own 0 { key := 1, world := 1, use := 2 }
    dev := writeBytes s.dev 0x80 [fld x 0 8, fld x 8 8, fld x 16 8, fld x 24 8]
    tlb := [], cores := Map.put s.cores 0 { icache := [(icKey 0 0x80, x)] }, poison := []
    pkg := { s.pkg with power := true, world := Map.put s.pkg.world 0 1 } }

end Sys2Proof.Machine
end

