-- ==== Sys2Proof/Safety.lean ====
section
/-!
DEFINITION. Safety.lean: the terms the statements are written in: when a word may issue without a trap (R31), the registers
and bytes as data, and what a completed word leaves unchanged.
-/
namespace Sys2Proof.Machine

/-! ### Readings -/

/-- Lane register r of thread t, uniform register n, predicate n of thread t (p0 always holds, R27), translation and generator
registers, as the current group holds them. -/
def laneReg (s : State) (r t : Nat) : Word := (Map.look (cg s).v r []).getD t 0
def uniReg (s : State) (n : Nat) : Word := Map.look (cg s).s n 0
def predReg (s : State) (n t : Nat) : Bool := n == 0 || bitOf (Map.look (cg s).p n 0) t
def xlatReg (s : State) (n : Nat) : XReg := Map.look (cg s).x n {}
def genReg (s : State) (n : Nat) : BitVec 128 := Map.look (cg s).g n 0
/-- The b operand of a lane word in thread t (R27). -/
def operandB (s : State) (b : BitVec 7) (c : BitVec 1) (t : Nat) : Word :=
  if c = 1 then uniReg s b.toNat else laneReg s b.toNat t
/-- A pair of lane or uniform registers as 64 bits (R172). -/
def lanePair (s : State) (r t : Nat) : BitVec 64 := laneReg s (r + 1) t ++ laneReg s r t
def uniPair (s : State) (n : Nat) : BitVec 64 := uniReg s (n + 1) ++ uniReg s n
/-- The active threads of the issuing path that the group has. -/
def activeIn (s : State) (t : Nat) : Bool := decide (t < (cg s).width) && bitOf (emask s) t
/-- A byte as the current group sees it: its own stores before the home (R220). -/
def byteSeen (s : State) (n : MemName) (a : Nat) : Byte := viewByte s (cg s).stores n a
/-- The path that does not issue. -/
def restingPath (g : Group) : Path := if g.two && g.onB then g.pathA else g.pathB

/-! ### Issue -/

/-- A word raises none of the traps of decoding and issue, and uses every register on time (R30 to R32, R39, R42, R109, R152). -/
structure MayIssue (i : Info) (s : State) : Prop where
  version : i.version ≤ (ck s).hdr.version
  defined : i.valid = true
  slots : i.kslot = true → (ck s).hdr.version ≠ 1
  privileged : i.priv = true → superOf s = true
  allotted : ∀ u ∈ i.reads ++ i.writes, overAllot (cg s) u.1 = false
  readsOnTime : lateUses s (cg s) (emask s) i.reads = []
  writesOnTime : lateUses s (cg s) (emask s) i.writes = []
  region : i.noRegion = true → (cg s).region = none

/-- The state in which a word's own effect happens: its path already past it, with its stall count (R38). -/
def entered (i : Info) (s : State) : State := advance i (setCg s { cg s with early := [] })
/-- The state after a word whose own effect leaves e: its writes pending until readable (R37), noted in an open region
(R150), its wait over. -/
def settled (i : Info) (s e : State) : State := endWait (complete i s e)
/-- The state of a word that waits (R38): its path still at the word, the rest as e has it. -/
def waitingAt (s e : State) (w : Wait) : State :=
  setCg e { setPath (cg e) { cp e with pc := (cp s).pc, stall := 0, wait := some w } with state := .waiting, early := [] }

/-- A group with its registers, paths, region, and the marks of issue put back as another group has them. -/
def restored (g y : Group) : Group :=
  { y with v := g.v, s := g.s, p := g.p, x := g.x, g := g.g, pathA := g.pathA, pathB := g.pathB, pend := g.pend
           early := g.early, state := g.state, region := g.region, loads := g.loads }
/-- What a word that only writes registers leaves: the named lane, uniform, predicate, translation and generator registers
may change; its path moves past it; nothing else changes but the bookkeeping of issue. -/
structure OnlyRegs (i : Info) (s t : State) (vs us ps xs gs : List Nat) : Prop where
  machine : { t with groups := s.groups, fresh := s.fresh } = s
  groups : ∀ g, g ≠ s.cur → grpOf t g = grpOf s g
  lane : ∀ r, r ∉ vs → ∀ th, laneReg t r th = laneReg s r th
  uniform : ∀ n, n ∉ us → uniReg t n = uniReg s n
  predicate : ∀ n, n ∉ ps → ∀ th, predReg t n th = predReg s n th
  translation : ∀ n, n ∉ xs → xlatReg t n = xlatReg s n
  generator : ∀ n, n ∉ gs → genReg t n = genReg s n
  path : cp t = { cp s with pc := (cp s).pc + 4, stall := i.stall, wait := none }
  resting : restingPath (cg t) = restingPath (cg s)
  group : restored (cg s) (cg t) = cg s
  running : (cg s).state = .runnable → (cg t).state = .runnable
  bytes : ∀ n a, byteSeen t n a = byteSeen s n a

/-- A group with its paths and the marks of issue put back as another group has them. -/
def repathed (g y : Group) : Group :=
  { y with pathA := g.pathA, pathB := g.pathB, pend := g.pend, early := g.early, state := g.state, region := g.region
           loads := g.loads }
/-- A core without its loop buffers. -/
def loopless (c : Core) : Core := { c with loop0 := none, loop1 := none }
/-- What a word that only moves its own path leaves: the path is p; no register, memory, other path or other group changes;
cores may have captured a loop (R148). -/
structure OnlyPath (s t : State) (p : Path) : Prop where
  machine : { t with groups := s.groups, fresh := s.fresh, cores := s.cores } = s
  cores : ∀ c, loopless (coreOf t c) = loopless (coreOf s c)
  groups : ∀ g, g ≠ s.cur → grpOf t g = grpOf s g
  group : repathed (cg s) (cg t) = cg s
  path : cp t = p
  resting : restingPath (cg t) = restingPath (cg s)
  bytes : ∀ n a, byteSeen t n a = byteSeen s n a

/-! ### Results -/

/-- The word completes and only moves its path. -/
def PathResult (ins : Instr) (s : State) (p : Path) : Prop :=
  MayIssue (info ins) s → ∃ t, exec ins s = .next t ∧ OnlyPath s t p

/-- The word completes, and each active thread's lane register d takes its value; the other threads keep theirs (R167). -/
def LaneResult (ins : Instr) (s : State) (d : Nat) (f : Nat → Word) : Prop :=
  MayIssue (info ins) s → ∃ t, exec ins s = .next t ∧
    (∀ th, th < (cg s).width → laneReg t d th = if bitOf (emask s) th then f th else laneReg s d th) ∧
    OnlyRegs (info ins) s t [d] [] [] [] []
/-- The same of the pair v[d], v[d+1] with a 64-bit value, its low half first (R172). -/
def LanePairResult (ins : Instr) (s : State) (d : Nat) (f : Nat → BitVec 64) : Prop :=
  MayIssue (info ins) s → ∃ t, exec ins s = .next t ∧
    (∀ th, th < (cg s).width → lanePair t d th = if bitOf (emask s) th then f th else lanePair s d th) ∧
    OnlyRegs (info ins) s t [d, d + 1] [] [] [] []
/-- The word completes, and uniform register d takes a value, whatever the execute mask (R167). -/
def UniResult (ins : Instr) (s : State) (d : Nat) (w : Word) : Prop :=
  MayIssue (info ins) s → ∃ t, exec ins s = .next t ∧ uniReg t d = w ∧ OnlyRegs (info ins) s t [] [d] [] [] []
def UniPairResult (ins : Instr) (s : State) (d : Nat) (w : BitVec 64) : Prop :=
  MayIssue (info ins) s → ∃ t, exec ins s = .next t ∧ uniPair t d = w ∧ OnlyRegs (info ins) s t [] [d, d + 1] [] [] []
/-- The word completes, and predicate p takes a value in each active thread; p0 stays true (R182). -/
def PredResult (ins : Instr) (s : State) (p : Nat) (f : Nat → Bool) : Prop :=
  MayIssue (info ins) s → ∃ t, exec ins s = .next t ∧
    (∀ th, th < (cg s).width → predReg t p th = if p = 0 then true else if bitOf (emask s) th then f th else predReg s p th) ∧
    OnlyRegs (info ins) s t [] [] [p] [] []

/-! ### Traps -/

/-- The word raises a trap, and has no other effect (R31). -/
def Raises (ins : Instr) (s : State) (t : TrapReq) : Prop := MayIssue (info ins) s → exec ins s = .next (takeTrap s s.cur t)
/-- The state after a trap taken past part of a word's effect, e: its path stands at the word. -/
def trappedAt (s e : State) (t : TrapReq) : State :=
  takeTrap (setCg e { setPath (cg e) { cp e with pc := (cp s).pc } with early := [] }) s.cur t
/-- The first trap over the active threads (R212): c is the first code of an order that some active thread has cause for, lo the
lowest such thread, ths those threads. -/
structure FirstTrap (s : State) (order : List TrapCode) (cause : TrapCode → Nat → Prop) (c : TrapCode) (lo : Nat) (ths : Mask) : Prop where
  first : ∃ l r, order = l ++ c :: r ∧ ∀ b ∈ l, ∀ t, bitOf (emask s) t = true → ¬ cause b t
  lowest : bitOf (emask s) lo = true ∧ cause c lo ∧ ∀ t, bitOf (emask s) t = true → cause c t → lo ≤ t
  threads : ∀ t, bitOf ths t = true ↔ bitOf (emask s) t = true ∧ cause c t

/-! ### Accesses -/

/-- Every active thread's access lies in its space, is aligned, meets no uncorrectable error, and need not wait for its block's
commit, or for held writes (R126, R134, R212). -/
structure MayAccess (s : State) (sp : Space) (u : Use) (n : Nat) (f : Nat → Nat) : Prop where
  place : ∀ t, bitOf (emask s) t = true → ∀ c, placeOf s sp u t (f t) n ≠ .bad c
  aligned : ∀ t, bitOf (emask s) t = true → f t % n = 0
  sound : ∀ t, bitOf (emask s) t = true → u ≠ .store → ∀ m a, placeOf s sp u t (f t) n = .at m a →
    eccAt s (cg s).stores m a n = false
  committed : awaitsCommit s sp u (accesses s f) = none
/-- The causes of R212 for a trap of thread t's access: a space the group may not use, an address beyond it, one that is not aligned,
and, but for a store, an uncorrectable error. -/
def accessCause (s : State) (sp : Space) (u : Use) (n : Nat) (f : Nat → Nat) (c : TrapCode) (t : Nat) : Prop :=
  (c = .prot ∧ placeOf s sp u t (f t) n = .bad .prot) ∨ (c = .bound ∧ placeOf s sp u t (f t) n = .bad .bound) ∨
    (c = .align ∧ f t % n ≠ 0) ∨
    (c = .ecc ∧ u ≠ .store ∧ ∃ m a, placeOf s sp u t (f t) n = .at m a ∧ eccAt s (cg s).stores m a n = true)
/-- What a store writes: its memory, its first address, its bytes. -/
abbrev StoreCell := MemName × Nat × List Byte
def storeCell (p : PendStore) : StoreCell := (p.mem, p.addr, p.bytes)
def cellCovers (m : MemName) (a : Nat) (c : StoreCell) : Bool := c.1 == m && decide (c.2.1 ≤ a) && decide (a < c.2.1 + c.2.2.length)
/-- The store of thread t, where its place is a memory. -/
def storeOf (s : State) (sp : Space) (n : Nat) (f : Nat → Nat) (val : Nat → List Byte) (t : Nat) : List StoreCell :=
  match placeOf s sp .store t (f t) n with
  | .at m a => [(m, a, val t)]
  | _ => []
/-- A group with what it has observed put back as another group has it (R239, R240). -/
def unheard (g y : Group) : Group :=
  { y with view := g.view, port := g.port, heard := g.heard, heardTop := g.heardTop, heardDone := g.heardDone }
/-- What a load leaves: as a word that only writes registers, but that its group has observed what it read, and the stores that it
read, its own or its core's, are marked as read. -/
structure OnlyLoads (i : Info) (s t : State) (vs us : List Nat) : Prop where
  machine : { t with groups := s.groups, fresh := s.fresh } = s
  groups : ∀ g, g ≠ s.cur → { grpOf t g with stores := (grpOf s g).stores } = grpOf s g ∧
    (grpOf t g).stores.map storeCell = (grpOf s g).stores.map storeCell
  lane : ∀ r, r ∉ vs → ∀ th, laneReg t r th = laneReg s r th
  uniform : ∀ n, n ∉ us → uniReg t n = uniReg s n
  predicate : ∀ n th, predReg t n th = predReg s n th
  translation : ∀ n, xlatReg t n = xlatReg s n
  generator : ∀ n, genReg t n = genReg s n
  path : cp t = { cp s with pc := (cp s).pc + 4, stall := i.stall, wait := none }
  resting : restingPath (cg t) = restingPath (cg s)
  group : { unheard (cg s) (restored (cg s) (cg t)) with stores := (cg s).stores } = cg s
  stores : (cg t).stores.map storeCell = (cg s).stores.map storeCell
  running : (cg s).state = .runnable → (cg t).state = .runnable
  bytes : ∀ n a, byteSeen t n a = byteSeen s n a
/-- The group has read no store that is still to be performed. -/
def NoneRead (s : State) : Prop := ∀ e ∈ s.groups, ∀ p ∈ e.2.stores, p.peeked.contains s.cur = false
/-- The word completes with an acquire: its own effect is `go`, which performs the stores that its group has read; where there are
none, nothing changes but its path and what its group has observed. -/
def AcquireResult (ins : Instr) (s : State) (none : Prop) (go : State → State) : Prop :=
  MayIssue (info ins) s → ∃ t, exec ins s = .next t ∧ t = settled (info ins) s (go (entered (info ins) s)) ∧
    (none → OnlyLoads (info ins) s t [] [])
/-- A load completes: each active thread's lane register d takes its value, and the other threads keep theirs. -/
def LoadResult (ins : Instr) (s : State) (d : Nat) (f : Nat → Word) : Prop :=
  MayIssue (info ins) s → ∃ t, exec ins s = .next t ∧
    (∀ th, th < (cg s).width → laneReg t d th = if bitOf (emask s) th then f th else laneReg s d th) ∧
    OnlyLoads (info ins) s t [d] []
def LoadPairResult (ins : Instr) (s : State) (d : Nat) (f : Nat → BitVec 64) : Prop :=
  MayIssue (info ins) s → ∃ t, exec ins s = .next t ∧
    (∀ th, th < (cg s).width → lanePair t d th = if bitOf (emask s) th then f th else lanePair s d th) ∧
    OnlyLoads (info ins) s t [d, d + 1] []
def UniLoadResult (ins : Instr) (s : State) (d : Nat) (w : Word) : Prop :=
  MayIssue (info ins) s → ∃ t, exec ins s = .next t ∧ uniReg t d = w ∧ OnlyLoads (info ins) s t [] [d]
/-- What a store leaves unchanged: every register, every other group, and every memory at its home. -/
structure OnlyStores (i : Info) (s t : State) : Prop where
  machine : { t with groups := s.groups, fresh := s.fresh } = s
  groups : ∀ g, g ≠ s.cur → grpOf t g = grpOf s g
  group : { repathed (cg s) (cg t) with stores := (cg s).stores } = cg s
  path : cp t = { cp s with pc := (cp s).pc + 4, stall := i.stall, wait := none }
  resting : restingPath (cg t) = restingPath (cg s)
/-- The word completes; the active threads' bytes are the group's youngest stores, in ascending thread, and no byte outside them
reads otherwise than before. -/
def StoreResult (ins : Instr) (s : State) (sp : Space) (n : Nat) (f : Nat → Nat) (val : Nat → List Byte) : Prop :=
  let news := (threadsOf (cg s).width (emask s)).flatMap (storeOf s sp n f val)
  MayIssue (info ins) s → ∃ t, exec ins s = .next t ∧
    (cg t).stores.map storeCell = (cg s).stores.map storeCell ++ news ∧ OnlyStores (info ins) s t ∧
    ∀ m a, news.any (cellCovers m a) = false → byteSeen t m a = byteSeen s m a

/-- A word whose effect begins with a release at a scope (R238, R242), where r is what it answers. Its stores are performed; it
waits for its group's copies into scratch and, at pod scope, its acknowledgements; then the release is made and it goes on. At
another wait, the release has been made. -/
def Releases (i : Info) (s : State) (scope : Nat) (full : Bool) (r : Host.Outcome State Fault Refusal)
    (go : State → Host.Outcome State Fault Refusal) : Prop :=
  let e := entered i s
  let p := performStores e s.cur
  let n := if (cb s).spec && scope == 5 then 0 else (cb s).copy.tail
  let step (e : State) (pod : Bool) (n : Nat) : Host.Outcome State Fault Refusal :=
    if waitHolds e (.fenced pod n) = true then go (fenceRelease e scope n full) else .next (waitingAt s e (.fenced pod n))
  (((cp s).wait = none ∨ (cp s).wait = some .drained) → r = step p (scope == 5) n) ∧
  (∀ pod n, (cp s).wait = some (.fenced pod n) → r = step e pod n) ∧
  (∀ w, (cp s).wait = some w → w ≠ .drained → (∀ pod n, w ≠ .fenced pod n) → r = go e)

/-! ### Regions and guard slots -/

/-- The words of R152: those that raise ILLOP when they issue in an open region. -/
def outsideRegions : Instr → Bool
  | .atom .. | .cas .. | .svc .. | .cpya .. | .qpush .. | .launch .. | .arm .. | .hring .. | .shape .. | .gstep .. | .kset .. => true
  | .kclr .. | .lhead .. | .bar .. | .barc .. | .barm .. | .arrive .. | .await .. | .barg .. | .barinit .. | .barrd .. => true
  | _ => false
/-- The guard slot that a command word names (R42). -/
def guardField : Instr → BitVec 4
  | .cpy _ _ _ k _ | .cpyg _ _ _ k _ | .cpyr _ _ _ k _ | .cpya _ _ _ k _ | .mma _ _ _ k _ | .mmai _ _ _ k _ => k
  | .ldst _ _ _ k _ | .accz _ _ _ k _ | .accrd _ _ _ k _ | .accwr _ _ _ k _ | .sacct _ _ _ k _ => k
  | _ => 0

/-! ### Events -/

/-- An event that happens to a package with power leaves a state of which P holds. -/
def Comes (i : Instr) (s : State) (P : State → Prop) : Prop := s.pkg.power = true → ∃ t, exec i s = .next t ∧ P t
/-- The commands of the context-management page, of function f with four operands. -/
def isCommand (f : Nat) (a0 a1 a2 a3 : Addr) (i : Instr) : Prop :=
  i = .create f a0 a1 a2 a3 ∨ i = .setattr f a0 a1 a2 a3 ∨ i = .map f a0 a1 a2 a3 ∨ i = .unmap f a0 a1 a2 a3 ∨
    i = .sealCtx f a0 a1 a2 a3 ∨ i = .suspend f a0 a1 a2 a3 ∨ i = .resume f a0 a1 a2 a3 ∨ i = .ckpt f a0 a1 a2 a3 ∨
    i = .restore f a0 a1 a2 a3 ∨ i = .destroy f a0 a1 a2 a3 ∨ i = .claim f a0 a1 a2 a3 ∨ i = .unclaim f a0 a1 a2 a3 ∨
    i = .update f a0 a1 a2 a3
/-- The security core takes a command of function f at once, and its life cycle lets it act. -/
def Serves (s : State) (f : Nat) : Prop :=
  f < 16 ∧ (fnOf s f).busy = false ∧ coreBusy s = false ∧ s.pkg.waitingCmds = [] ∧ s.pkg.life = .deployed
/-- The state in which a command of function f is served: its operands taken, BUSY set (R355). -/
def serving (s : State) (f : Nat) (a0 a1 a2 a3 : Addr) : State :=
  setFn s f { fnOf s f with arg0 := a0, arg1 := a1, arg2 := a2, arg3 := a3, busy := true }
/-- A context of function f's logical device, in a state. -/
def Holds (s : State) (f ctx : Nat) (st : CtxState) : Prop :=
  (Map.find s.ctxs ctx).isSome = true ∧ (ctxOf s ctx).ld = f ∧ (ctxOf s ctx).st = st
/-- The command of function f has completed with a status. -/
def Completed (t : State) (f status : Nat) : Prop := (fnOf t f).busy = false ∧ (fnOf t f).status = status
/-- No matrix command of a block reads bytes of a range whose write it could still see (R303). -/
def unread (s : State) (m : MemName) (a n : Nat) : Prop :=
  ∀ e ∈ s.blocks, ∀ c ∈ e.2.touches, ∀ x ∈ c.reads, spanMeets e.1 e.2 m a n x = false

/-! ### Invariants -/

/-- Device memory, host memory and every die's scratch have the one canonical form (strictly rising addresses, no zero byte
listed). -/
def canonicalMemories (s : State) : Prop :=
  s.dev.wf = true ∧ s.host.wf = true ∧ ∀ e ∈ s.die, Memory.wf e.2 = true
/-- The leaf indexes of the attestation and identity keys lie within those keys' signatures (R380). -/
def leavesWithin (s : State) : Prop := s.pkg.attLeaf ≤ 2 ^ 16 ∧ s.pkg.idLeaf ≤ 2 ^ 20
/-- The leaf the next quote is signed with, over every identity and attestation key the security core has generated. -/
def leafPosition (s : State) : Nat := s.pkg.idKeys * 2 ^ 40 + s.pkg.idLeaf * 2 ^ 16 + s.pkg.attLeaf

end Sys2Proof.Machine
end

