-- ==== Sys2Proof/Certificates/Slice0/Obligations.lean ====
section
/-!
DEFINITION. Certificates/Slice0/Obligations.lean: the statements for the provers, by what they are about. Parts of a longer statement
stand before it, under Statements.
-/
open Sys2Proof Sys2Proof.Machine

/-! ### Decoding, stepping, reset and memory -/

/-- R26 to R35: the spec's worked encodings, and words of its listings, decode to what they stand for; a reserved field that is not
zero (R30) and an opcode that is not allocated (R35) decode to nothing. -/
def Obligations.DecodingRight : Prop :=
  decodeWord 0x2B418104 = .ok (.ffma 1 3 1 2 0) ∧ decodeWord 0x2A01810B = .ok (.fmul 0 3 1 5 1) ∧
  decodeWord 0x50040404 = .ok (.lds 0 8 4 4) ∧ decodeWord 0x04048802 = .ok (.iadd 0 9 8 1 0) ∧
  decodeWord 0xA013FFFD = .ok (.bra 0 2 0 (-3)) ∧ decodeWord 0xB8009020 = .ok (.cpy 0 1 2 2 0) ∧
  decodeWord 0xC8002700 = .ok (.waitm 0 39) ∧ decodeWord 0xAC000021 = .ok (.emandPred 0 1 0) ∧
  decodeWord 0x00000001 = .error .reservedField ∧ decodeWord 0x7F000000 = .error .unallocatedOpcode

/-- R26 to R35: encoding and decoding agree. The word of an instruction decodes to that instruction, every operand at every value, and
a word that decodes to an instruction is that instruction's word. -/
def Obligations.RoundTrip : Prop :=
  (∀ (i : Instr) (w : Word), encode i = some w → decodeWord w = .ok i) ∧
  ∀ (w : Word) (i : Instr), decodeWord w = .ok i → encode i = some w

/-- R12, R17, R18, R30, R38, R144: a group's turn runs what it fetches. Where one of its paths may issue, the step is exec of the
instruction that the fetched word decodes to, at the state the fetch leaves, with what every step may bring with it (R85, R118) after
it; a word that decodes to nothing traps with ILLOP, a fetch that may not be made with its own trap. A group whose block has trapped,
or is saved, stops at its turn once its issued instruction is complete (R157, R165). A miss of the instruction cache
takes the path's turn and brings the word in. With nothing cached the word is the one at the home of the path's pc. -/
def Obligations.StepRunsDecoded : Prop :=
  ∀ (s u : State) (g : Nat) (r : List Nat) (i : Instr) (w : Word) (t : TrapReq) (l : Leaf),
    let z := { s with barrel := r, cur := g }
    let v := beginTurn { s with barrel := r } g
    let y := closeRegion v.1
    let x := grpOf s g
    let free : Prop := (blkOf s x.blk).trapped = false ∧ (gangOf s (blkOf s x.blk).gang).saved = false
    let one : Prop := free ∧ x.state = .runnable ∧ x.two = false ∧ x.pathA.st = .running ∧ x.pathA.stall = 0 ∧ x.pathA.wait = none
    s.pkg.power = true → s.agenda = [] → s.due = [] → s.barrel = g :: r →
    (v.2 = false → step s = .next (settle v.1)) ∧
    (v.2 = true → fetchWord y = .word u w → decodeWord w = .ok i → step s = afterStep (exec i u)) ∧
    (v.2 = true → fetchWord y = .word u w → (∀ j, decodeWord w ≠ .ok j) → step s = .next (settle (takeTrap u u.cur { code := .illop }))) ∧
    (v.2 = true → fetchWord y = .trap u t → step s = .next (settle (takeTrap u u.cur t))) ∧
    (one → wordAtHand z false = true →
      v.2 = true ∧ v.1.cur = g ∧ cp v.1 = x.pathA ∧ { v.1 with cur := s.cur, groups := s.groups, barrel := s.barrel } = s ∧
        repathed x { cg v.1 with onB := x.onB, lastB := x.lastB } = x) ∧
    (one → wordAtHand z false = false → v.2 = false ∧ wordAtHand v.1 false = true ∧ cp v.1 = x.pathA ∧ v.1.blocks = s.blocks) ∧
    (x.state = .waiting → inPass (pathOf x) = true → v = (z, true)) ∧
    (midway x = false → (x.state = .runnable ∨ x.state = .waiting) → ¬ free → v = (setCg z { x with state :=
      if (blkOf s x.blk).trapped = true then .trapped else .preempted }, false)) ∧
    (free → x.state = .runnable → x.two = false → 0 < x.pathA.stall →
      v.2 = false ∧ cp v.1 = { x.pathA with stall := x.pathA.stall - 1 } ∧ v.1.groups = Map.put s.groups g (tickGroup x)) ∧
    ((loopOf (coreOf y (cg y).core) (cg y).half).filter (fun l => l.ctx == (cb y).ctx && inLoop l (cp y).pc) = none →
      Map.find (coreOf y (cg y).core).icache (icKey (cb y).ctx (cp y).pc) = none → (cb y).kmode = false →
      (tlbLook y (cb y).ctx (cp y).pc.toNat).1 = some l → checkLeaf y (cb y).world (some l) (cp y).pc.toNat false false true = none →
      eccAt y [] (leafMem l) (leafPa l (cp y).pc.toNat) 4 = false →
      ∃ z, fetchWord y = .word z (homeWord y (leafMem l) (leafPa l (cp y).pc.toNat)) ∧ z.cur = y.cur ∧ z.groups = y.groups ∧
        z.blocks = y.blocks ∧ ((cb y).spec = true → { z with tlb := y.tlb, cores := y.cores } = y))

/-- R144, R150, R347, R348, R389: what else a step is: an event from outside, before an event of the device's own units, before a turn;
with no turn left, the end of the period, at which every group that takes turns has one more, and the working ports state their pause
masks (log entry 64). Without power only a reset is taken. The order is the model's choice (log entry 2). -/
def Obligations.StepOrder : Prop :=
  ∀ (s : State) (i : Instr) (r : List Instr) (d : Due) (ds : List Due),
    (s.pkg.power = false → (∀ q, s.agenda ≠ .packageReset :: q) → step s = .fault .noPower) ∧
    (s.pkg.power = false → s.agenda = .packageReset :: r → step s = exec .packageReset { s with agenda := r }) ∧
    (s.pkg.power = true → s.agenda = i :: r → encode i = none → step s = afterStep (exec i { s with agenda := r })) ∧
    (s.pkg.power = true → s.agenda = i :: r → (encode i).isSome = true → step s = .next (settle { s with agenda := r })) ∧
    (s.pkg.power = true → s.agenda = [] → s.due = d :: ds → step s = afterStep (runDue d { s with due := ds })) ∧
    (s.pkg.power = true → s.agenda = [] → s.due = [] → s.barrel = [] → ∃ t, step s = .next t ∧ t.time = s.time + 1 ∧
      (∀ g ∈ t.barrel, ∃ e ∈ s.groups, e.1 = g ∧ (e.2.state = .runnable ∨ e.2.state = .waiting)) ∧
      (∀ e ∈ s.groups, e.2.state = .runnable ∨ e.2.state = .waiting → e.2.slot < 16 → e.1 ∈ t.barrel) ∧
      { t with time := s.time, barrel := s.barrel, due := s.due, links := s.links, out := s.out, ctxs := s.ctxs } = s ∧
      (∀ c, { ctxOf t c with left := (ctxOf s c).left } = ctxOf s c) ∧
      ((∀ p, p < 24 → linkUp (portAt s p) = false) → t.links.ports = s.links.ports ∧ t.out = s.out ∧ t.ctxs = s.ctxs)) ∧
    (afterStep (.next s) = .next (settle s)) ∧ ((∀ k, (kernOf s k).mode ≠ 2) → s.hall.recov.halted = false → { settle s with ctxs := s.ctxs } = s ∧
      ∀ c, { ctxOf (settle s) c with queues := (ctxOf s c).queues, graphs := (ctxOf s c).graphs
                                     oldWaits := (ctxOf s c).oldWaits } = ctxOf s c) ∧
    (∀ n m, runDue (.storePerformed n m) s = exec (.storePerformed n m) s) ∧
    (∀ n, runDue (.blockRetire n) s = exec (.blockRetire n) s) ∧ (∀ n m, runDue (.gangPlace n m) s = exec (.gangPlace n m) s) ∧
    (∀ n, runDue (.gangRelease n) s = exec (.gangRelease n) s) ∧ (∀ n, runDue (.gangResume n) s = exec (.gangResume n) s) ∧
    (∀ n, runDue (.copyStart n) s = exec (.copyCommandStart n) s) ∧
    (∀ n m, runDue (.copyComplete n m) s = exec (.copyCommandComplete n m) s) ∧
    (∀ n, runDue (.matrixStart n) s = exec (.matrixCommandStart n) s) ∧
    (∀ n m, runDue (.matrixComplete n m) s = exec (.matrixCommandComplete n m) s) ∧ (∀ n, runDue (.holdDrain n) s = exec (.holdDrain n) s) ∧
    (∀ n, runDue (.wipe n) s = exec (.wipeComplete n) s) ∧ ∀ c, runDue (.complete c) s = exec (.commandComplete c) s

/-- R377, R389, R390: the state after reset. The package has power and is RAW, with the east wing active; no context, function, kernel,
gang, block, group, translation, flip or fault is there; every memory reads zero; every port is DOWN; die scratch is carved 21 MiB a
partition, larders are empty, slices 0. The life-cycle state and the wing are the model's choice (log entry 9), and so is window p of
partition p (log entry 75). -/
def Obligations.ResetState : Prop :=
  let s := State.reset
  s.pkg.power = true ∧ s.pkg.life = .raw ∧ s.pkg.eastActive = true ∧ s.pkg.update = none ∧ s.pkg.waitingCmds = [] ∧ s.pkg.noWing = false ∧ s.pkg.standbyDown = false ∧
  s.ctxs = [] ∧ s.fns = [] ∧ s.kerns = [] ∧ s.gangs = [] ∧ s.blocks = [] ∧ s.groups = [] ∧ s.tlb = [] ∧ s.flips = [] ∧ s.faults = [] ∧
  s.poison = [] ∧ s.log = [] ∧ s.rels = [] ∧ s.out = [] ∧ s.agenda = [] ∧ s.due = [] ∧ s.hall.repl = {} ∧
  (∀ n a, homeByte s n a = 0) ∧ s.dev.wf = true ∧ s.host.wf = true ∧ (∀ k, (Map.look s.die k []).wf = true) ∧
  (∀ p, (portAt s p).st = .down) ∧ (∀ f, ownOf s f = {}) ∧
  ∀ p, p < 24 → Map.look s.pkg.carve p 0 = 21 ∧ Map.look s.pkg.slices p 1 = 0 ∧ larderOf s p = [] ∧ Map.look s.pkg.pmap p 24 = p

/-- R2, R216: memories in canonical form that read alike are one memory, and stores to places that do not overlap may be made in either
order; a store of the bytes already there changes nothing. -/
def Obligations.MemoryCanonical : Prop :=
  ∀ (m n : Memory) (a b : Nat) (x y : List Byte), m.wf = true → n.wf = true →
    ((∀ k, readB m k = readB n k) → m = n) ∧
    ((a + x.length ≤ b ∨ b + y.length ≤ a) → writeBytes (writeBytes m a x) b y = writeBytes (writeBytes m b y) a x) ∧
    writeBytes m a (readBytes m a x.length) = m

/-- R2, R78, R390: whatever a step does, a word, an event, a reset or the loss of power, device memory, host memory and every die's
scratch keep their one canonical form, so that memories that read alike stay equal (the form is the model's own; what an unlisted host byte reads as: log entry 6). -/
def Obligations.MemoriesStayCanonical : Prop :=
  ∀ s t : State, step s = .next t → canonicalMemories s → canonicalMemories t

/-- R380, R381, R389, R390: no step takes back what the security core has fused or counted. The firmware key's hash stays, the minimum
version never falls, a package that has left RAW never returns to it, one that is DECOMMISSIONED stays so, and, within the number of
signatures its keys have, the leaf of the next quote never falls and stays within it: no wipe, reset, new key or change of life-cycle
state brings an earlier leaf back. -/
def Obligations.FusesOnlyAdvance : Prop :=
  ∀ s t : State, step s = .next t →
    t.pkg.keyHash = s.pkg.keyHash ∧ s.pkg.minVersion ≤ t.pkg.minVersion ∧ (s.pkg.life ≠ .raw → t.pkg.life ≠ .raw) ∧
    (s.pkg.life = .decommissioned → t.pkg.life = .decommissioned) ∧
    (leavesWithin s → leavesWithin t ∧ leafPosition s ≤ leafPosition t)

/-- The invariants of MemoriesStayCanonical and FusesOnlyAdvance hold after reset (the leaf indexes' reset values are the model's
choice, log entry 9), and in the state with a word placed. -/
def Obligations.ResetInvariants : Prop :=
  canonicalMemories State.reset ∧ leavesWithin State.reset ∧
  ∀ (s : State) (n w : Nat), canonicalMemories s → canonicalMemories (s.withFetchWord n w) ∧ leafPosition (s.withFetchWord n w) = leafPosition s

/-- R390: an event that finds the package without power has no effect and stops the machine, but for the reset, and the loss of power
itself. -/
def Obligations.EventsNeedPower : Prop :=
  ∀ (i : Instr) (s : State), encode i = none → i ≠ .packageReset → i ≠ .powerLoss → s.pkg.power = false → exec i s = .fault .noPower

/-! ### Words that write registers -/

/-- R171 to R175: integer arithmetic of the lane set, one value an active thread. -/
def Statements.LaneArithmetic : Prop :=
  ∀ (s : State) (st : BitVec 2) (d a b : BitVec 7) (c : BitVec 1) (i : BitVec 8),
    LaneResult (.iadd st d a b c) s d.toNat (fun t => laneReg s a.toNat t + operandB s b c t) ∧
    LaneResult (.isub st d a b c) s d.toNat (fun t => laneReg s a.toNat t - operandB s b c t) ∧
    LaneResult (.iaddi st d a i) s d.toNat (fun t => laneReg s a.toNat t + i.signExtend 32) ∧
    LanePairResult (.iadd64 st d a b c) s d.toNat (fun t =>
      lanePair s a.toNat t + if c = 1 then uniPair s b.toNat else lanePair s b.toNat t) ∧
    LaneResult (.imul st d a b c) s d.toNat (fun t => laneReg s a.toNat t * operandB s b c t) ∧
    LaneResult (.imulhi st d a b c) s d.toNat (fun t =>
      BitVec.ofInt 32 ((laneReg s a.toNat t).toInt * (operandB s b c t).toInt / 2 ^ 32)) ∧
    LaneResult (.imulhu st d a b c) s d.toNat (fun t =>
      BitVec.ofNat 32 ((laneReg s a.toNat t).toNat * (operandB s b c t).toNat / 2 ^ 32)) ∧
    LaneResult (.imad st d a b c) s d.toNat (fun t =>
      laneReg s a.toNat t * operandB s b c t + laneReg s d.toNat t) ∧
    LaneResult (.imin st d a b c) s d.toNat (fun t =>
      if (laneReg s a.toNat t).toInt < (operandB s b c t).toInt then laneReg s a.toNat t else operandB s b c t) ∧
    LaneResult (.imax st d a b c) s d.toNat (fun t =>
      if (operandB s b c t).toInt < (laneReg s a.toNat t).toInt then laneReg s a.toNat t else operandB s b c t) ∧
    LaneResult (.iminu st d a b c) s d.toNat (fun t =>
      if (laneReg s a.toNat t).toNat < (operandB s b c t).toNat then laneReg s a.toNat t else operandB s b c t) ∧
    LaneResult (.imaxu st d a b c) s d.toNat (fun t =>
      if (operandB s b c t).toNat < (laneReg s a.toNat t).toNat then laneReg s a.toNat t else operandB s b c t) ∧
    LaneResult (.iabs st d a) s d.toNat (fun t =>
      if (laneReg s a.toNat t).toInt < 0 then - laneReg s a.toNat t else laneReg s a.toNat t) ∧
    LaneResult (.ineg st d a) s d.toNat (fun t => - laneReg s a.toNat t)

/-- R176, R178: logic, and the counting and reversing of bits. -/
def Statements.LaneLogic : Prop :=
  ∀ (s : State) (st : BitVec 2) (d a b : BitVec 7) (c : BitVec 1),
    LaneResult (.and st d a b c) s d.toNat (fun t => laneReg s a.toNat t &&& operandB s b c t) ∧
    LaneResult (.or st d a b c) s d.toNat (fun t => laneReg s a.toNat t ||| operandB s b c t) ∧
    LaneResult (.xor st d a b c) s d.toNat (fun t => laneReg s a.toNat t ^^^ operandB s b c t) ∧
    LaneResult (.andn st d a b c) s d.toNat (fun t => laneReg s a.toNat t &&& ~~~ operandB s b c t) ∧
    LaneResult (.not st d a) s d.toNat (fun t => ~~~ laneReg s a.toNat t) ∧
    LaneResult (.popc st d a) s d.toNat (fun t =>
      BitVec.ofNat 32 ((List.range 32).filter fun k => (laneReg s a.toNat t).getLsbD k).length) ∧
    LaneResult (.clz st d a) s d.toNat (fun t =>
      if laneReg s a.toNat t = 0 then 32 else BitVec.ofNat 32 (31 - Nat.log2 (laneReg s a.toNat t).toNat)) ∧
    LaneResult (.brev st d a) s d.toNat (fun t => brevW (laneReg s a.toNat t)) ∧
    ∀ (x : Word) (k : Nat), k < 32 → (brevW x).getLsbD k = x.getLsbD (31 - k)

/-- R179 and R180: bit fields, by the descriptor in b: pos in bits 7 to 0, len, at most 32, in bits 15 to 8, sign extension in
bit 16. -/
def Statements.LaneBitFields : Prop :=
  ∀ (s : State) (st : BitVec 2) (d a b : BitVec 7) (c : BitVec 1),
    LaneResult (.bfe st d a b c) s d.toNat (fun t =>
      let x := laneReg s a.toNat t
      let y := operandB s b c t
      let pos := (y.extractLsb' 0 8).toNat
      let len := min (y.extractLsb' 8 8).toNat 32
      if len = 0 then 0
      else if y.getLsbD 16 then BitVec.ofInt 32 (Int.bmod (x.toInt / 2 ^ min pos 31) (2 ^ len))
      else BitVec.ofNat 32 (x.toNat / 2 ^ pos % 2 ^ len)) ∧
    LaneResult (.bfi st d a b c) s d.toNat (fun t => bfiW (laneReg s d.toNat t) (laneReg s a.toNat t) (operandB s b c t)) ∧
    ∀ (z x y : Word) (k : Nat), k < 32 → (bfiW z x y).getLsbD k =
      let pos := (y.extractLsb' 0 8).toNat
      let len := min (y.extractLsb' 8 8).toNat 32
      if pos ≤ k ∧ k < pos + len then x.getLsbD (k - pos) else z.getLsbD k

/-- The lane set's integer arithmetic, logic, bit counts and bit fields give each active thread the value of the rules. -/
def Obligations.LaneArithmetic : Prop := Statements.LaneArithmetic ∧ Statements.LaneLogic ∧ Statements.LaneBitFields

/-- R190 to R197: single-precision words; a value is the one that R58 to R69 give, computed exactly and rounded once; FRCP to FCOST cut it
to 22 bits instead (R196), found from bounds of the real value (log entry 14). -/
def Statements.LaneFloat : Prop :=
  ∀ (s : State) (st : BitVec 2) (d a b : BitVec 7) (c : BitVec 1) (m : BitVec 2),
    let x (t : Nat) : Nat := (laneReg s a.toNat t).toNat
    let y (t : Nat) : Nat := (operandB s b c t).toNat
    let z (t : Nat) : Nat := (laneReg s d.toNat t).toNat
    LaneResult (.fadd st d a b c) s d.toNat (fun t => BitVec.ofNat 32 (fAdd fp32 (x t) (y t))) ∧
    LaneResult (.fsub st d a b c) s d.toNat (fun t => BitVec.ofNat 32 (fSub fp32 (x t) (y t))) ∧
    LaneResult (.fmul st d a b c) s d.toNat (fun t => BitVec.ofNat 32 (fMul fp32 (x t) (y t))) ∧
    LaneResult (.ffma st d a b c) s d.toNat (fun t => BitVec.ofNat 32 (fFma fp32 (x t) (y t) (z t))) ∧
    LaneResult (.fmin st d a b c) s d.toNat (fun t => BitVec.ofNat 32 (fMinBits (x t) (y t))) ∧
    LaneResult (.fmax st d a b c) s d.toNat (fun t => BitVec.ofNat 32 (fMaxBits (x t) (y t))) ∧
    LaneResult (.fabs st d a) s d.toNat (fun t => laneReg s a.toNat t &&& 0x7FFFFFFF) ∧
    LaneResult (.fneg st d a) s d.toNat (fun t => laneReg s a.toNat t ^^^ 0x80000000) ∧
    LaneResult (.frnd st d a m) s d.toNat (fun t => BitVec.ofNat 32 (fRnd (rmodeOf m) (x t))) ∧
    LaneResult (.fclass st d a) s d.toNat (fun t => BitVec.ofNat 32 (fClass (x t))) ∧
    LaneResult (.frcp st d a) s d.toNat (fun t => BitVec.ofNat 32 (fRcp (x t))) ∧
    LaneResult (.frsq st d a) s d.toNat (fun t => BitVec.ofNat 32 (fRsq (x t))) ∧
    LaneResult (.fsqrt st d a) s d.toNat (fun t => BitVec.ofNat 32 (fSqrt (x t))) ∧
    LaneResult (.fexp2 st d a) s d.toNat (fun t => BitVec.ofNat 32 (fExp2 (x t))) ∧
    LaneResult (.flog2 st d a) s d.toNat (fun t => BitVec.ofNat 32 (fLog2 (x t))) ∧
    LaneResult (.fsint st d a) s d.toNat (fun t => BitVec.ofNat 32 (fSint (x t))) ∧
    LaneResult (.fcost st d a) s d.toNat (fun t => BitVec.ofNat 32 (fCost (x t)))

/-- R198 to R203: two 16-bit values a word, each half from the halves of the operands; conversions; the two halves unpacked; the
three parts of BSPLIT over a pair, which are R70's where R71 says otherwise (log entry 67). -/
def Statements.LanePacked : Prop :=
  ∀ (s : State) (st : BitVec 2) (d a b : BitVec 7) (c h : BitVec 1) (m q : BitVec 2) (v u : BitVec 3),
    let x (t : Nat) : Nat := (laneReg s a.toNat t).toNat
    let y (t : Nat) : Nat := (operandB s b c t).toNat
    let z (t : Nat) : Nat := (laneReg s d.toNat t).toNat
    let both (g : Nat → Nat → Nat → Nat) (t : Nat) : Word :=
      BitVec.ofNat 32 (g (x t % 2 ^ 16) (y t % 2 ^ 16) (z t % 2 ^ 16) + 2 ^ 16 * g (x t / 2 ^ 16) (y t / 2 ^ 16) (z t / 2 ^ 16))
    LaneResult (.pbadd st d a b c) s d.toNat (both fun x y _ => fAdd bf16 x y) ∧
    LaneResult (.pbmul st d a b c) s d.toNat (both fun x y _ => fMul bf16 x y) ∧
    LaneResult (.pbfma st d a b c) s d.toNat (both (fFma bf16)) ∧
    LaneResult (.phadd st d a b c) s d.toNat (both fun x y _ => fAdd fp16 x y) ∧
    LaneResult (.phmul st d a b c) s d.toNat (both fun x y _ => fMul fp16 x y) ∧
    LaneResult (.phfma st d a b c) s d.toNat (both (fFma fp16)) ∧
    LaneResult (.cvt st d a m v u) s d.toNat (fun t => BitVec.ofNat 32 (cvtBits v.toNat u.toNat (rmodeOf m) (x t))) ∧
    LaneResult (.unpk2 st d a q h) s d.toNat (fun t =>
      BitVec.ofNat 32 (unpack q.toNat (if h = 1 then x t / 2 ^ 16 else x t % 2 ^ 16))) ∧
    LanePairResult (.bsplit st d a) s d.toNat (fun t =>
      BitVec.ofNat 32 (bsplit (x t)).2.2 ++ BitVec.ofNat 32 ((bsplit (x t)).2.1 * 2 ^ 16 + (bsplit (x t)).1))

/-- The lane set's single-precision, packed 16-bit and conversion words: the exact value rounded once, or cut to 22 bits (R196). -/
def Obligations.LaneFloating : Prop := Statements.LaneFloat ∧ Statements.LanePacked

/-- R170, R162, R201, R229: moves, the thread's own index, packing, and the ballot of the active threads, 32 a word. -/
def Statements.LaneMoves : Prop :=
  ∀ (s : State) (st : BitVec 2) (d a b : BitVec 7) (c n : BitVec 1) (i : BitVec 15) (p : BitVec 3) (q : BitVec 2),
    LaneResult (.mov st d b c) s d.toNat (fun t => operandB s b c t) ∧
    LaneResult (.limm st d i) s d.toNat (fun _ => i.signExtend 32) ∧
    LaneResult (.limmh st d i) s d.toNat (fun t => i ++ (laneReg s d.toNat t).extractLsb' 0 17) ∧
    LaneResult (.laneid st d) s d.toNat (fun t => BitVec.ofNat 32 t) ∧
    LaneResult (.pack2 st d a b c) s d.toNat (fun t =>
      (operandB s b c t).extractLsb' 0 16 ++ (laneReg s a.toNat t).extractLsb' 0 16) ∧
    LaneResult (.ballot st d q n p) s d.toNat (fun _ =>
      BitVec.ofNat 32 ((List.range 32).foldl (fun x j =>
        x + if bitOf (emask s) (32 * q.toNat + j) && (predReg s p.toNat (32 * q.toNat + j) != (n == 1)) then 2 ^ j else 0) 0))

/-- R204 to R210: nested integers. A lane block is the 16 threads that share t / 16, active or not; QNT also writes its NaN report
to a predicate; SACC adds a scaled product to d. -/
def Statements.LaneNested : Prop :=
  ∀ (s : State) (st : BitVec 2) (d a b : BitVec 7) (c : BitVec 1) (p k m : BitVec 3) (f : BitVec 2),
    let block (t : Nat) : List Word := (List.range 16).map fun i => laneReg s a.toNat (t / 16 * 16 + i)
    let q (t : Nat) := qnt (k.toNat + 2) ((block t).map fun w => fval fp32 w.toNat)
    LaneResult (.dqnt st d a f m k) s d.toNat (fun t =>
      let w := laneReg s a.toNat t
      BitVec.ofNat 32 (dqnt (if f = 1 then fp16 else if f = 2 then bf16 else fp32)
        (sextNat (m.toNat + 1) (w.extractLsb' 24 8).toNat) (w.extractLsb' 16 8).toNat (k.toNat + 2) (m.toNat + 1))) ∧
    LaneResult (.niput st d a k) s d.toNat (fun t =>
      (laneReg s a.toNat t).extractLsb' 16 16 ++ BitVec.ofNat 16 (planeWord (k.toNat + 2) (t % 16)
        ((block t).map fun w => sextNat (k.toNat + 2) (w.extractLsb' 24 8).toNat))) ∧
    LaneResult (.niget st d a m) s d.toNat (fun t =>
      BitVec.ofInt 8 (sextNat (m.toNat + 1) ((List.range (m.toNat + 1)).foldl (fun x j =>
        2 * x + if ((block t).getD j 0).getLsbD (t % 16) then 1 else 0) 0)) ++ (laneReg s a.toNat t).extractLsb' 0 24) ∧
    LaneResult (.sacc st d a b c) s d.toNat (fun t =>
      BitVec.ofNat 32 (saccBits (laneReg s d.toNat t).toNat (laneReg s a.toNat t).toInt (operandB s b c t).toNat)) ∧
    (MayIssue (info (.qnt st d a p k)) s → ∃ t, exec (.qnt st d a p k) s = .next t ∧
      (∀ th, th < (cg s).width → laneReg t d.toNat th = if bitOf (emask s) th then
        BitVec.ofInt 8 ((q th).2.1.getD (th % 16) 0) ++ BitVec.ofNat 8 (q th).1 ++
          BitVec.ofNat 16 (planeWord (k.toNat + 2) (th % 16) (q th).2.1) else laneReg s d.toNat th) ∧
      (∀ th, th < (cg s).width → predReg t p.toNat th =
        if p.toNat = 0 then true else if bitOf (emask s) th then (q th).2.2 else predReg s p.toNat th) ∧
      OnlyRegs (info (.qnt st d a p k)) s t [d.toNat] [] [p.toNat] [] [])

/-- Lane moves, packing and ballots, and the words of the nested-integer formats. -/
def Obligations.LaneMoves : Prop := Statements.LaneMoves ∧ Statements.LaneNested

/-- The condition of a code of ICMP and SCMP (R181). -/
def condHolds (code : Nat) (x y : Word) : Prop :=
  (code = 0 ∧ x = y) ∨ (code = 1 ∧ x ≠ y) ∨ (code = 2 ∧ x.toInt < y.toInt) ∨ (code = 3 ∧ x.toInt ≤ y.toInt) ∨
    (code = 4 ∧ y.toInt < x.toInt) ∨ (code = 5 ∧ y.toInt ≤ x.toInt) ∨ (code = 6 ∧ x.toNat < y.toNat) ∨
    (code = 7 ∧ x.toNat ≤ y.toNat) ∨ (code = 8 ∧ y.toNat < x.toNat) ∨ (code = 9 ∧ y.toNat ≤ x.toNat) ∨
    (code = 10 ∧ x &&& y ≠ 0) ∨ (code = 11 ∧ x &&& y = 0)

/-- R181 to R185, R193, R228: the words that write a predicate. Condition codes 12 to 15 of ICMP and SCMP do not issue (R30). -/
def Obligations.PredicateWords : Prop :=
  ∀ (s : State) (st : BitVec 2) (a b : BitVec 7) (c n : BitVec 1) (p q r : BitVec 3) (k : BitVec 4) (o : BitVec 2) (f : Nat → Bool),
    let x (t : Nat) := laneReg s a.toNat t
    let y (t : Nat) := operandB s b c t
    ((∀ t, f t = true ↔ condHolds k.toNat (x t) (y t)) → PredResult (.icmp st p k a b c) s p.toNat f) ∧
    PredResult (.fcmp st p k a b c) s p.toNat (fun t => fltCond k.toNat (x t) (y t)) ∧
    PredResult (.plut st p k q r) s p.toNat (fun t =>
      k.getLsbD (2 * (if predReg s q.toNat t then 1 else 0) + if predReg s r.toNat t then 1 else 0)) ∧
    ((∀ t, f t = true ↔ condHolds k.toNat (uniReg s a.toNat) (uniReg s b.toNat)) → PredResult (.scmp st p k a b) s p.toNat f) ∧
    ((∀ t, f t = true ↔
        (o.toNat = 0 ∧ ∀ th, bitOf (emask s) th = true → (predReg s q.toNat th != (n == 1)) = true) ∨
        (o.toNat = 1 ∧ ∃ th, bitOf (emask s) th = true ∧ (predReg s q.toNat th != (n == 1)) = true) ∨
        (o.toNat = 2 ∧ ((∀ th, bitOf (emask s) th = true → (predReg s q.toNat th != (n == 1)) = true) ∨
          ∀ th, bitOf (emask s) th = true → (predReg s q.toNat th != (n == 1)) = false)) ∨
        (o.toNat = 3 ∧ ∀ th, bitOf (emask s) th = true → (predReg s q.toNat th != (n == 1)) = false)) →
      PredResult (.vote st p o n q) s p.toNat f)

/-- R170 to R178, R186: the uniform set's arithmetic, on registers that every thread of the group shares. -/
def Statements.UniformArithmetic : Prop :=
  ∀ (s : State) (st : BitVec 2) (d a b : BitVec 7) (u : BitVec 1) (i : BitVec 8) (j : BitVec 15),
    let x := uniReg s a.toNat
    let y := uniReg s b.toNat
    UniResult (.smov st d b) s d.toNat y ∧
    UniResult (.slimm st d j) s d.toNat (j.signExtend 32) ∧
    UniResult (.slimmh st d j) s d.toNat (j ++ (uniReg s d.toNat).extractLsb' 0 17) ∧
    UniResult (.sadd st d a b) s d.toNat (x + y) ∧
    UniResult (.ssub st d a b) s d.toNat (x - y) ∧
    UniResult (.saddi st d a i) s d.toNat (x + i.signExtend 32) ∧
    UniPairResult (.sadd64 st d a b) s d.toNat (uniPair s a.toNat + uniPair s b.toNat) ∧
    UniResult (.smul st d a b) s d.toNat (x * y) ∧
    UniResult (.smulhi st d a b u) s d.toNat (if u = 1 then BitVec.ofNat 32 (x.toNat * y.toNat / 2 ^ 32)
      else BitVec.ofInt 32 (x.toInt * y.toInt / 2 ^ 32)) ∧
    UniResult (.sand st d a b) s d.toNat (x &&& y) ∧
    UniResult (.sor st d a b) s d.toNat (x ||| y) ∧
    UniResult (.sxor st d a b) s d.toNat (x ^^^ y) ∧
    UniResult (.smin st d a b u) s d.toNat
      (if (if u = 1 then x.toNat < y.toNat else x.toInt < y.toInt) then x else y) ∧
    UniResult (.smax st d a b u) s d.toNat
      (if (if u = 1 then y.toNat < x.toNat else y.toInt < x.toInt) then x else y) ∧
    UniResult (.spopc st d a) s d.toNat (BitVec.ofNat 32 ((List.range 32).filter fun k => x.getLsbD k).length) ∧
    UniResult (.sclz st d a) s d.toNat (if x = 0 then 32 else BitVec.ofNat 32 (31 - Nat.log2 x.toNat)) ∧
    UniResult (.sfadd st d a b) s d.toNat (BitVec.ofNat 32 (fAdd fp32 x.toNat y.toNat)) ∧
    UniResult (.sfmul st d a b) s d.toNat (BitVec.ofNat 32 (fMul fp32 x.toNat y.toNat)) ∧
    UniResult (.sffma st d a b) s d.toNat (BitVec.ofNat 32 (fFma fp32 x.toNat y.toNat (uniReg s d.toNat).toNat))

/-- R230, R246, R306, R318: uniform words whose value comes from elsewhere. RDLANE reads one thread's lane register; ACKRD the acknowledgement count, KRD the guard slots, GRD a generator register. -/
def Statements.UniformReadings : Prop :=
  ∀ (s : State) (st : BitVec 2) (d a l : BitVec 7) (g : BitVec 3) (e : BitVec 5),
    (emask s ≠ 0 → l.toNat < (cg s).width → UniResult (.rdlane st d a l) s d.toNat (laneReg s a.toNat l.toNat)) ∧
    UniResult (.ackrd st d) s d.toNat (BitVec.ofNat 32 (cg s).ack) ∧
    UniResult (.krd st d) s d.toNat (BitVec.ofNat 32 ((List.range 16).foldl (fun x j =>
      x + match guardRes (cb s) j (guardOf (cb s) j).gen with
        | some v => 2 ^ j + if v then 2 ^ (16 + j) else 0
        | none => 0) 0)) ∧
    (MayIssue (info (.grd st e g)) s → ∃ t, exec (.grd st e g) s = .next t ∧
      uniPair t (4 * e.toNat + 2) ++ uniPair t (4 * e.toNat) = genReg s g.toNat ∧
      OnlyRegs (info (.grd st e g)) s t [] [4 * e.toNat, 4 * e.toNat + 1, 4 * e.toNat + 2, 4 * e.toNat + 3] [] [] [])

/-- The uniform set's arithmetic, and the uniform words that read elsewhere. -/
def Obligations.UniformWords : Prop := Statements.UniformArithmetic ∧ Statements.UniformReadings

/-- R177: a shift reads its amount as the full 32-bit value of b, or as imm8, and does not reduce it: from 32 upwards every bit goes
out, and SAR leaves copies of the sign. All are of class 12. -/
def Obligations.Shifts : Prop :=
  ∀ (s : State) (st : BitVec 2) (d a b : BitVec 7) (c : BitVec 1) (i : BitVec 8),
    let shl (x : Word) (n : Nat) : Word := if 32 ≤ n then 0 else BitVec.ofNat 32 (x.toNat * 2 ^ n)
    let shr (x : Word) (n : Nat) : Word := if 32 ≤ n then 0 else BitVec.ofNat 32 (x.toNat / 2 ^ n)
    let sar (x : Word) (n : Nat) : Word := BitVec.ofInt 32 (x.toInt / 2 ^ min n 31)
    LaneResult (.shl st d a b c) s d.toNat (fun t => shl (laneReg s a.toNat t) (operandB s b c t).toNat) ∧
    LaneResult (.shr st d a b c) s d.toNat (fun t => shr (laneReg s a.toNat t) (operandB s b c t).toNat) ∧
    LaneResult (.sar st d a b c) s d.toNat (fun t => sar (laneReg s a.toNat t) (operandB s b c t).toNat) ∧
    LaneResult (.shli st d a i) s d.toNat (fun t => shl (laneReg s a.toNat t) i.toNat) ∧
    LaneResult (.shri st d a i) s d.toNat (fun t => shr (laneReg s a.toNat t) i.toNat) ∧
    LaneResult (.sari st d a i) s d.toNat (fun t => sar (laneReg s a.toNat t) i.toNat) ∧
    UniResult (.sshl st d a b) s d.toNat (shl (uniReg s a.toNat) (uniReg s b.toNat).toNat) ∧
    UniResult (.sshr st d a b) s d.toNat (shr (uniReg s a.toNat) (uniReg s b.toNat).toNat) ∧
    UniResult (.ssar st d a b) s d.toNat (sar (uniReg s a.toNat) (uniReg s b.toNat).toNat) ∧
    UniResult (.sshli st d a i) s d.toNat (shl (uniReg s a.toNat) i.toNat) ∧
    UniResult (.sshri st d a i) s d.toNat (shr (uniReg s a.toNat) i.toNat) ∧
    (∀ j ∈ [Instr.shl st d a b c, .shr st d a b c, .sar st d a b c, .shli st d a i, .shri st d a i, .sari st d a i, .sshl st d a b,
      .sshr st d a b, .ssar st d a b, .sshli st d a i, .sshri st d a i], (info j).latency = 12) ∧
    decodeWord 0x1B030603 = .ok (.shri 0 6 6 3)

/-- R184: SEL and SSEL are conditional moves, which leave the destination unchanged where the predicate, after negation, fails; they
count as writing it in every case, and neither reads it. With a zero execute mask SSEL moves only for unnegated p0. -/
def Obligations.ConditionalMoves : Prop :=
  ∀ (s : State) (st : BitVec 2) (d a : BitVec 7) (n : BitVec 1) (p : BitVec 3),
    let test : Prop := (p.toNat = 0 ∧ n = 0) ∨ ∃ th, bitOf (emask s) th = true ∧ (predReg s p.toNat th != (n == 1)) = true
    LaneResult (.sel st d a n p) s d.toNat (fun t =>
      if predReg s p.toNat t != (n == 1) then laneReg s a.toNat t else laneReg s d.toNat t) ∧
    (test → UniResult (.ssel st d a p n) s d.toNat (uniReg s a.toNat)) ∧
    (¬ test → UniResult (.ssel st d a p n) s d.toNat (uniReg s d.toNat)) ∧
    (info (.sel st d a n p)).writes = [(.v d.toNat, .active)] ∧ ((info (.sel st d a n p)).reads.map Prod.fst ⊆ [.v a.toNat, .p p.toNat]) ∧
    (info (.ssel st d a p n)).writes.map Prod.fst = [.s d.toNat] ∧
    ((info (.ssel st d a p n)).reads.map Prod.fst ⊆ [.s a.toNat, .p p.toNat]) ∧
    (info (.sel st d a n p)).latency = 12 ∧ (info (.ssel st d a p n)).latency = 12 ∧
    decodeWord 0x2303880A = .ok (.sel 0 7 8 1 2) ∧ decodeWord 0x97018A20 = .ok (.ssel 0 3 10 1 0)

/-- R227: SHFLI and SHFL give each active thread the value of a from a source thread, active or not, and its own where that thread is
not in the group. -/
def Obligations.Shuffles : Prop :=
  ∀ (s : State) (st : BitVec 2) (d a b : BitVec 7) (c : BitVec 1) (m : BitVec 2) (k : BitVec 6),
    let other (t : Nat) (src : Int) : Word :=
      if 0 ≤ src ∧ src < (cg s).width then laneReg s a.toNat src.toNat else laneReg s a.toNat t
    LaneResult (.shfli st d a m k) s d.toNat (fun t => other t
      (match m.toNat with
        | 0 => (k.toNat : Int)
        | 1 => (t : Int) - k.toNat
        | 2 => (t : Int) + k.toNat
        | _ => ((Nat.xor t k.toNat : Nat) : Int))) ∧
    LaneResult (.shfl st d a b c) s d.toNat (fun t => other t (operandB s b c t).toNat) ∧
    (info (.shfli st d a m k)).latency = 14 ∧ (info (.shfl st d a b c)).latency = 14 ∧
    decodeWord 0x600182C1 = .ok (.shfli 0 3 2 3 1) ∧ decodeWord 0x61018212 = .ok (.shfl 0 3 2 9 0)

/-- R231: MATCH. Each active thread takes the lowest active thread whose 64-bit key, b above a, equals its own; b may be uniform. -/
def Obligations.MatchWord : Prop :=
  ∀ (s : State) (st : BitVec 2) (d a b : BitVec 7) (c : BitVec 1) (f : Nat → Nat),
    let key (t : Nat) : BitVec 64 := operandB s b c t ++ laneReg s a.toNat t
    ((∀ t, bitOf (emask s) t = true →
        bitOf (emask s) (f t) = true ∧ key (f t) = key t ∧ ∀ u, bitOf (emask s) u = true → key u = key t → f t ≤ u) →
      LaneResult (.matchKeys st d a b c) s d.toNat (fun t => BitVec.ofNat 32 (f t))) ∧
    (info (.matchKeys st d a b c)).reads.map Prod.snd ⊆ [.active] ∧ (info (.matchKeys st d a b c)).latency = 16 ∧
    decodeWord 0x66018201 = .ok (.matchKeys 0 3 2 0 1)

/-- R331, R332: XRD writes four words of a valid register, zeros of an invalid one, and never the physical address; XINV makes each named
register invalid, with limit 0, and no command already appended loses its copy. -/
def Obligations.TranslationReadings : Prop :=
  ∀ (s : State) (st : BitVec 2) (x : BitVec 3) (d : BitVec 5) (m : BitVec 8),
    let r := xlatReg s x.toNat
    let bit (b : Bool) : Nat := if b then 1 else 0
    (MayIssue (info (.xrd st d x)) s → ∃ t, exec (.xrd st d x) s = .next t ∧
      (r.valid = true → uniReg t (4 * d.toNat) = r.base.extractLsb' 0 32 ∧ uniReg t (4 * d.toNat + 1) = r.base.extractLsb' 32 32 ∧
        uniReg t (4 * d.toNat + 2) = BitVec.ofNat 32 r.limit ∧
        uniReg t (4 * d.toNat + 3) = BitVec.ofNat 32 (1 + 2 * bit r.remote + 4 * bit r.r + 8 * bit r.w + 16 * bit r.x + 32 * (r.cls % 4) +
          256 * (r.key % 256) + 65536 * (r.level % 4))) ∧
      (r.valid = false → ∀ j, j < 4 → uniReg t (4 * d.toNat + j) = 0) ∧
      OnlyRegs (info (.xrd st d x)) s t [] [4 * d.toNat, 4 * d.toNat + 1, 4 * d.toNat + 2, 4 * d.toNat + 3] [] [] []) ∧
    (MayIssue (info (.xinv st m)) s → ∃ t, exec (.xinv st m) s = .next t ∧
      (∀ j, j < 8 → m.getLsbD j = true → (xlatReg t j).valid = false ∧ (xlatReg t j).limit = 0) ∧
      (∀ j, j < 8 → m.getLsbD j = false → xlatReg t j = xlatReg s j) ∧
      OnlyRegs (info (.xinv st m)) s t [] [] [] [0, 1, 2, 3, 4, 5, 6, 7] []) ∧
    (info (.xrd st d x)).latency = 12 ∧ decodeWord 0xB1060001 = .ok (.xrd 0 3 1) ∧ decodeWord 0xB2000006 = .ok (.xinv 0 6)

/-! ### Control flow and traps -/

/-- R141, R144: the jumps. A branch is taken where its predicate, after negation, holds in an active thread, or is p0 unnegated;
its target is the word's address plus 4 times the offset. CALL pushes the address after it, 16 deep; RET pops; BRX goes to the code
base plus the sign-extended register where the page may be fetched, or, with no check, where the core has the word cached (log entry
17); in a kernel-mode block where the service image has a word (R102). -/
def Obligations.Jumps : Prop :=
  ∀ (s : State) (st : BitVec 2) (p : BitVec 3) (n : BitVec 1) (o : BitVec 18) (a : BitVec 7),
    let q : Machine.Path := { cp s with stall := st.toNat, wait := none }
    let target : Addr := (cp s).pc + o.signExtend 64 * 4
    let test : Prop := (p.toNat = 0 ∧ n = 0) ∨ ∃ th, bitOf (emask s) th = true ∧ (predReg s p.toNat th != (n == 1)) = true
    let dest : Addr := BitVec.ofNat 64 ((ck s).image + 0x80) + (uniReg s a.toNat).signExtend 64
    (test → PathResult (.bra st p n o) s { q with pc := target }) ∧
    (¬ test → PathResult (.bra st p n o) s { q with pc := (cp s).pc + 4 }) ∧
    PathResult (.jmp st o) s { q with pc := target } ∧
    ((cp s).rstack.length < 16 → PathResult (.call st o) s { q with pc := target, rstack := ((cp s).pc + 4) :: (cp s).rstack }) ∧
    (∀ x l, (cp s).rstack = x :: l → PathResult (.ret st) s { q with pc := x, rstack := l }) ∧
    ((uniReg s a.toNat).toNat % 4 = 0 → (cb s).kmode = true → (serviceWord s dest).isSome = true →
      PathResult (.brx st a) s { q with pc := dest }) ∧
    ((uniReg s a.toNat).toNat % 4 = 0 → (cb s).kmode = false →
      (Map.find (coreOf s (cg s).core).icache (icKey (cb s).ctx dest)).isSome = true → PathResult (.brx st a) s { q with pc := dest }) ∧
    ((uniReg s a.toNat).toNat % 4 = 0 → (cb s).kmode = false → Map.find (coreOf s (cg s).core).icache (icKey (cb s).ctx dest) = none →
      checkLeaf s (cb s).world (tlbLook s (cb s).ctx dest.toNat).1 dest.toNat false false true = none →
      MayIssue (info (.brx st a)) s → ∃ t, exec (.brx st a) s = .next t ∧
        OnlyPath { s with tlb := (tlbLook s (cb s).ctx dest.toNat).2.tlb } t { q with pc := dest })

/-- R142: BR. With no thread on one side it goes on as a jump or not at all; with threads on both sides a path alone in its group
becomes two, the taken side first, and a path inside another pushes the other side, 16 deep. -/
def Obligations.Divergence : Prop :=
  ∀ (s : State) (st : BitVec 2) (p : BitVec 3) (n : BitVec 1) (o : BitVec 18) (taken : Mask),
    (∀ th, bitOf taken th = (bitOf (emask s) th && (predReg s p.toNat th != (n == 1)))) →
    let rest : Mask := emask s &&& ~~~ taken
    let q : Machine.Path := { cp s with stall := st.toNat, wait := none }
    let target : Addr := (cp s).pc + o.signExtend 64 * 4
    let i := info (.br st p n o)
    (taken = 0 → PathResult (.br st p n o) s { q with pc := (cp s).pc + 4 }) ∧
    (taken ≠ 0 → rest = 0 → PathResult (.br st p n o) s { q with pc := target }) ∧
    (taken ≠ 0 → rest ≠ 0 → ((cg s).two = true ∨ (cp s).stack ≠ []) → (cp s).stack.length < 16 →
      PathResult (.br st p n o) s
        { q with pc := target, mask := taken, scope := taken
                 stack := { m := (cp s).mask, s := (cp s).scope, f := rest, fpc := (cp s).pc + 4, second := false, cont := none }
                   :: (cp s).stack }) ∧
    (taken ≠ 0 → rest ≠ 0 → (cg s).two = false → (cp s).stack = [] → MayIssue i s → ∃ t, exec (.br st p n o) s = .next t ∧
      (cg t).two = true ∧ (cg t).onB = false ∧ (cg t).pairM = (cp s).mask ∧ (cg t).pairS = (cp s).scope ∧
      (cg t).pathA = { pc := target, mask := taken, scope := taken, stall := st.toNat, rstack := (cp s).rstack } ∧
      (cg t).pathB = { pc := (cp s).pc + 4, mask := rest, scope := rest, stall := st.toNat, rstack := (cp s).rstack } ∧
      (∀ r th, laneReg t r th = laneReg s r th) ∧ (∀ r, uniReg t r = uniReg s r) ∧
      ∀ m a, byteSeen t m a = byteSeen s m a)

/-- R143: JOIN reconverges the path that issues it. A stacked else side runs next, a stacked pair that has run both sides has its masks back; an arm whose partner still
runs parks, and otherwise the two arms are one path again. Outside a pair it does nothing. -/
def Obligations.Joins : Prop :=
  ∀ (s : State) (st : BitVec 2) (e : StackEntry) (l : List StackEntry),
    let q : Machine.Path := { cp s with stall := st.toNat, wait := none }
    let g := cg s
    decodeWord 0xA2000000 = .ok (.join 0) ∧
    ((cp s).stack = e :: l → e.second = false → PathResult (.join st) s
      { q with pc := e.fpc, mask := e.f &&& g.live, scope := e.f
               stack := { e with second := true, cont := some ((cp s).pc + 4) } :: l }) ∧
    ((cp s).stack = e :: l → e.second = true → PathResult (.join st) s
      { q with pc := (cp s).pc + 4, mask := e.m &&& g.live, scope := e.s, stack := l }) ∧
    ((cp s).stack = [] → g.two = false → PathResult (.join st) s { q with pc := (cp s).pc + 4 }) ∧
    ((cp s).stack = [] → g.two = true → (restingPath g).st = .running → PathResult (.join st) s
      { q with pc := (cp s).pc + 4, st := .parked ((cp s).pc + 4) }) ∧
    ((cp s).stack = [] → g.two = true → (restingPath g).st ≠ .running → MayIssue (info (.join st)) s →
      ∃ t, exec (.join st) s = .next t ∧ (cg t).two = false ∧
        cp t = { pc := (cp s).pc + 4, mask := g.pairM &&& g.live, scope := g.pairS, stall := st.toNat, rstack := (cp s).rstack } ∧
        (∀ r th, laneReg t r th = laneReg s r th) ∧ (∀ r, uniReg t r = uniReg s r) ∧
        ∀ m a, byteSeen t m a = byteSeen s m a)

/-- R145: EXIT ends the active threads. With a stacked else side the path goes on there; a stacked pair whose then side has ended too
ends with it, and the path ends again with what is stacked below; an arm whose partner still runs ends, and a
parked partner goes on alone, with the pair's masks; with nothing left the group is RETIRED, its stores performed (R254). -/
def Obligations.ThreadsEnd : Prop :=
  ∀ (s : State) (st : BitVec 2) (e : StackEntry) (l : List StackEntry) (a : Addr),
    MayIssue (info (.exit st)) s →
    let g := cg s
    let live := g.live &&& ~~~ emask s
    let p := cp s
    let stack := p.stack.dropWhile fun e => e.second && e.cont.isNone
    ∃ t, exec (.exit st) s = .next t ∧ (cg t).live = live ∧ (cg t).region = none ∧ (cg t).sup = false ∧
      (stack ≠ [] ∨ g.loads = [] → (∀ r th, laneReg t r th = laneReg s r th) ∧ ∀ r, uniReg t r = uniReg s r) ∧
      (stack = e :: l → e.second = false →
        cp t = { p with pc := e.fpc, mask := e.f &&& live, scope := e.f, stack := { e with second := true } :: l
                        stall := st.toNat, wait := none }) ∧
      (stack = e :: l → e.second = true → e.cont = some a →
        cp t = { p with pc := a, mask := e.m &&& live, scope := e.s, stack := l, stall := st.toNat, wait := none }) ∧
      (stack = [] → g.two = true → (restingPath g).st = .running → (cp t).st = .ended ∧ restingPath (cg t) = restingPath g) ∧
      (stack = [] → g.two = true → (restingPath g).st = .parked a → (cg t).two = false ∧
        cp t = { pc := a, mask := g.pairM &&& live, scope := g.pairS, stall := st.toNat, rstack := (restingPath g).rstack }) ∧
      (stack = [] → (g.two = false ∨ (restingPath g).st = .ended) → (cg t).state = .retired ∧ (cg t).stores = [])

/-- R146, R230: execute masks and single lanes. -/
def Obligations.ExecuteMask : Prop :=
  ∀ (s : State) (st : BitVec 2) (a : BitVec 5) (p : BitVec 3) (n : BitVec 1) (d u l : BitVec 7),
    let q : Machine.Path := { cp s with pc := (cp s).pc + 4, stall := st.toNat, wait := none }
    let four : Mask := uniPair s (4 * a.toNat + 2) ++ uniPair s (4 * a.toNat)
    (MayIssue (info (.emrd st a)) s → ∃ t, exec (.emrd st a) s = .next t ∧
      uniPair t (4 * a.toNat + 2) ++ uniPair t (4 * a.toNat) = emask s ∧
      OnlyRegs (info (.emrd st a)) s t [] [4 * a.toNat, 4 * a.toNat + 1, 4 * a.toNat + 2, 4 * a.toNat + 3] [] [] []) ∧
    PathResult (.emwr st a) s { q with mask := four &&& (cp s).scope &&& (cg s).live } ∧
    PathResult (.emandReg st a) s { q with mask := (cp s).mask &&& four } ∧
    (MayIssue (info (.emandPred st p n)) s → ∃ t, exec (.emandPred st p n) s = .next t ∧
      (∀ th, bitOf (emask t) th = (bitOf (emask s) th && (predReg s p.toNat th != (n == 1)))) ∧
      OnlyPath s t { q with mask := (cp t).mask }) ∧
    (emask s ≠ 0 → l.toNat < (cg s).width → MayIssue (info (.wrlane st d u l)) s → ∃ t, exec (.wrlane st d u l) s = .next t ∧
      laneReg t d.toNat l.toNat = (if bitOf (emask s) l.toNat then uniReg s u.toNat else laneReg s d.toNat l.toNat) ∧
      (∀ th, th < (cg s).width → th ≠ l.toNat → laneReg t d.toNat th = laneReg s d.toNat th) ∧
      OnlyRegs (info (.wrlane st d u l)) s t [d.toNat] [] [] [] [])

/-- R37 to R39, R150: what issue adds to a word's own effect. Before it, the path stands past the word with its stall count; after it,
the registers written in some thread are pending until cycle c + passes - 1 + class, an open region notes them, and the path's wait
is over. -/
def Obligations.IssueBookkeeping : Prop :=
  ∀ (i : Info) (s e : State), MayIssue i s →
    let g := cg s
    let u := entered i s
    let t := settled i s e
    { u with groups := s.groups } = s ∧ (∀ x, x ≠ s.cur → grpOf u x = grpOf s x) ∧ repathed g (cg u) = g ∧
    cp u = { cp s with pc := (cp s).pc + 4, stall := i.stall } ∧ restingPath (cg u) = restingPath g ∧
    { t with groups := e.groups, fresh := e.fresh } = e ∧ t.fresh = e.fresh + 2 ∧ (∀ x, x ≠ e.cur → grpOf t x = grpOf e x) ∧
    repathed (cg e) (cg t) = cg e ∧ cp t = { cp e with wait := none } ∧ restingPath (cg t) = restingPath (cg e) ∧
    (cg t).region = (cg e).region.map (fun r => { r with written := (r.written ++ (i.writes.filter fun w => useMask g (emask s) w.1 w.2 != 0).map Prod.fst).eraseDups }) ∧
    ∀ w ∈ i.writes, i.latency ≠ 0 → useMask g (emask s) w.1 w.2 ≠ 0 →
      { reg := w.1, threads := useMask g (emask s) w.1 w.2
        ready := 16 * s.time + g.slot + (if i.lane then g.width / 32 else 1) - 1 + i.latency } ∈ (cg t).pend

/-- R30 to R32, R42, R109, R40, R152: a word whose header version is too old, whose fields an entry leaves undefined, or that names a
guard slot under version 1, raises ILLOP; a privileged one outside supervisor mode PRIV; a register past the allotment BOUND; a late
one STALLCHK in a checking context; and one of R152's words in an open region ILLOP, after those (the place is log entry 13). Each is
taken with no other effect. With a zero execute mask the quiet words, and RDLANE's lateness, are not asked (R139, log entry 12). -/
def Statements.DecodeTraps : Prop :=
  ∀ (i : Instr) (w : Word) (s : State), encode i = some w → ((info i).quiet = true → emask s ≠ 0) →
    let x := info i
    let v := (ck s).hdr.version
    let early (l : List (Reg × Threads)) := lateUses s (cg s) (emask s) l
    (v < x.version → exec i s = .next (takeTrap s s.cur { code := .illop })) ∧
    (guardField i ≠ 0 → v = 1 → exec i s = .next (takeTrap s s.cur { code := .illop })) ∧
    (wellFormed i = false → exec i s = .next (takeTrap s s.cur { code := .illop })) ∧
    (x.version ≤ v → wellFormed i = true → (guardField i ≠ 0 → v ≠ 1) →
      (x.priv = true → superOf s = false → exec i s = .next (takeTrap s s.cur { code := .priv })) ∧
      ((x.priv = true → superOf s = true) → (∃ u ∈ x.reads ++ x.writes, overAllot (cg s) u.1 = true) →
        exec i s = .next (takeTrap s s.cur { code := .bound })) ∧
      ((x.priv = true → superOf s = true) → (∀ u ∈ x.reads ++ x.writes, overAllot (cg s) u.1 = false) →
        ((cctx s).check = false ∨ early (x.reads ++ x.writes) = []) → outsideRegions i = true → (cg s).region.isSome = true →
        exec i s = .next (takeTrap s s.cur { code := .illop })) ∧
      ((x.priv = true → superOf s = true) → (∀ u ∈ x.reads ++ x.writes, overAllot (cg s) u.1 = false) →
        (cctx s).check = true → early (x.reads ++ x.writes) ≠ [] → (emask s = 0 → ∀ st d a l, i ≠ .rdlane st d a l) → exec i s = .next (takeTrap s s.cur { code := .stallchk })))

/-- R139: with a zero execute mask the loads, stores and atomics of a thread, its exchanges, SVC, BRK and the generator words do
nothing and raise nothing but ILLOP. -/
def Statements.ZeroMask : Prop :=
  ∀ (i : Instr) (w : Word) (s : State), encode i = some w → (info i).quiet = true → emask s = 0 →
    (info i).version ≤ (ck s).hdr.version → wellFormed i = true → (cp s).wait = none → (cg s).olds = [] →
    ∃ t, exec i s = .next t ∧ OnlyRegs (info i) s t [] [] [] [] []

/-- Which words raise ILLOP, PRIV, BOUND or STALLCHK before any effect, and which do nothing with a zero mask (log entry 12). -/
def Obligations.DecodeTraps : Prop := Statements.DecodeTraps ∧ Statements.ZeroMask

/-- R156: a trap whose class the kernel owns, of a group not in supervisor mode whose kernel names a handler. The group runs its
handler in supervisor mode with the trapping threads; %trapcode, %trappc, %trapaddr, %trapinfo and %trapmask hold what it needs;
every register written before it is readable, and no register, memory or other group changes. -/
def Statements.TrapEntry : Prop :=
  ∀ (s : State) (t : TrapReq),
    let g := cg s
    let p := cp s
    let k := ck s
    let here : Word := (p.pc - BitVec.ofNat 64 (k.image + 0x80)).extractLsb' 0 32
    claimOwner (cctx s) (trapNum t.code) = 1 → k.hdr.handler ≠ 0xFFFFFFFF → g.sup = false → (cb s).kmode = false →
    let u := takeTrap s s.cur t
    { u with groups := s.groups } = s ∧ (∀ x, x ≠ s.cur → grpOf u x = grpOf s x) ∧
    (cg u).trap = { code := BitVec.ofNat 8 (trapNum t.code), pc := if t.after then here + 4 else here, addr := t.addr
                    info := t.info, mask := p.mask, unit := t.unit } ∧
    (cg u).sup = true ∧ (cg u).state = .runnable ∧ (cg u).pend = [] ∧
    cp u = { p with pc := BitVec.ofNat 64 (k.image + 0x80) + BitVec.ofNat 64 (4 * k.hdr.handler), mask := t.threads.getD p.mask
                    stall := 0, wait := none } ∧
    restingPath (cg u) = restingPath g ∧
    (cg u).supArm = (if g.two = true then some g.onB else none) ∧
    { repathed g (cg u) with trap := g.trap, sup := g.sup, supArm := g.supArm } = g

/-- R157, R126: every other trap is fatal. The group is TRAPPED; in a block that is not speculative so is every group of it that is
not RETIRED and not between two passes of an ATOM or CAS, the block has trapped, and its report is kept; a speculative block keeps only its first report. -/
def Statements.FatalTrap : Prop :=
  ∀ (s : State) (t : TrapReq),
    let g := cg s
    let k := ck s
    (claimOwner (cctx s) (trapNum t.code) ≠ 1 ∨ k.hdr.handler = 0xFFFFFFFF ∨ g.sup = true ∨ (cb s).kmode = true) →
    let u := takeTrap s s.cur t
    let r : TrapReport := { grp := s.cur, code := t.code, unit := t.unit, word := (codeOffset k (cp s).pc).toNat / 4
                            addr := t.addr, hasPage := t.hasPage }
    (cg u).state = .trapped ∧ (∀ n th, laneReg u n th = laneReg s n th) ∧ (∀ n, uniReg u n = uniReg s n) ∧ cp u = cp s ∧
    ((cb s).spec = true → (cb u).report = some ((cb s).report.getD r) ∧ ∀ x, x ≠ s.cur → grpOf u x = grpOf s x) ∧
    ((cb s).spec = false → (cb u).trapped = true ∧ (cb u).report = some r ∧
      ∀ x ∈ (cb s).groups, x ≠ s.cur → (grpOf s x).state ≠ .retired → midway (grpOf s x) = false → (grpOf u x).state = .trapped)

/-- A trap the kernel owns enters its handler; every other one is fatal. -/
def Obligations.Traps : Prop := Statements.TrapEntry ∧ Statements.FatalTrap

/-- R158, R159: TRAP n, and BRK n with an active thread, take their trap, naming the word after; RFT leaves the handler with the
mask of %trapmask, at the sign-extended %trappc, or restarts the open region, which stays open, from its REGION word (R153). -/
def Statements.TrapWords : Prop :=
  ∀ (s : State) (st : BitVec 2) (n : BitVec 16) (m : BitVec 15),
    let mask : Mask := (cg s).trap.mask &&& (cg s).live &&& (cp s).scope
    let back : Addr := BitVec.ofNat 64 ((ck s).image + 0x80) + (cg s).trap.pc.signExtend 64
    (MayIssue (info (.trap st n)) s →
      exec (.trap st n) s = .next (takeTrap s s.cur { code := .trapi, info := n, after := true })) ∧
    (MayIssue (info (.brk st m)) s → emask s ≠ 0 →
      exec (.brk st m) s = .next (takeTrap s s.cur { code := .brk, info := m.setWidth 16, threads := some (emask s), after := true })) ∧
    (MayIssue (info (.brk st m)) s → emask s = 0 →
      ∃ t, exec (.brk st m) s = .next t ∧ OnlyRegs (info (.brk st m)) s t [] [] [] [] []) ∧
    (MayIssue (info (.rft st 0)) s → ∃ t, exec (.rft st 0) s = .next t ∧ (cg t).sup = false ∧
      cp t = { cp s with pc := back, mask := mask, stall := st.toNat, wait := none } ∧
      (∀ x th, laneReg t x th = laneReg s x th) ∧ (∀ x, uniReg t x = uniReg s x) ∧ ∀ x a, byteSeen t x a = byteSeen s x a) ∧
    (MayIssue (info (.rft st 1)) s → (cg s).region = none → ∃ t, exec (.rft st 1) s = .next t ∧ (cg t).sup = false ∧
      cp t = { cp s with pc := back, mask := mask, stall := st.toNat, wait := none }) ∧
    (∀ r, MayIssue (info (.rft st 1)) s → (cg s).region = some r → ∃ t, exec (.rft st 1) s = .next t ∧ (cg t).sup = false ∧
      (cg t).two = false ∧ (cg t).live = r.live ∧ (∃ x, (cg t).region = some x ∧ { x with written := r.written } = r) ∧
      (cg t).state = .runnable ∧
      cp t = { pc := r.start, mask := r.mask, scope := r.live } ∧
      (∀ x th, Reg.v x ∉ r.written → laneReg t x th = laneReg s x th) ∧ ∀ x, Reg.s x ∉ r.written → uniReg t x = uniReg s x)

/-- R142, R144, R147, R150, R230: where the words of control flow trap. BR inside a pair with 16 sides stacked, CALL with 16 return
addresses and RET with none raise BOUND; BRX raises ALIGN on an offset within a word, at its target (the address is log entry 68), and
its fetch's trap; SLEEPW ALIGN and BOUND on its
word; REGION ILLOP away from its word of the region table and inside a pair; RDLANE and WRLANE BOUND on a thread the group lacks. -/
def Statements.ControlTraps : Prop :=
  ∀ (s : State) (st q : BitVec 2) (p : BitVec 3) (n : BitVec 1) (o : BitVec 18) (d a b l : BitVec 7) (j : BitVec 8) (taken : Mask)
    (c : TrapCode),
    let x := (uniReg s a.toNat).toNat
    let dest : Addr := BitVec.ofNat 64 ((ck s).image + 0x80) + (uniReg s a.toNat).signExtend 64
    ((∀ th, bitOf taken th = (bitOf (emask s) th && (predReg s p.toNat th != (n == 1)))) → taken ≠ 0 → emask s &&& ~~~ taken ≠ 0 →
      ((cg s).two = true ∨ (cp s).stack ≠ []) → 16 ≤ (cp s).stack.length → Raises (.br st p n o) s { code := .bound }) ∧
    (16 ≤ (cp s).rstack.length → Raises (.call st o) s { code := .bound }) ∧
    ((cp s).rstack = [] → Raises (.ret st) s { code := .bound }) ∧
    (x % 4 ≠ 0 → Raises (.brx st a) s { code := .align, addr := dest }) ∧
    (x % 4 = 0 → (cb s).kmode = true → serviceWord s dest = none →
      Raises (.brx st a) s { code := .page, addr := dest, hasPage := true }) ∧
    (x % 4 = 0 → (cb s).kmode = false → Map.find (coreOf s (cg s).core).icache (icKey (cb s).ctx dest) = none →
      checkLeaf s (cb s).world (tlbLook s (cb s).ctx dest.toNat).1 dest.toNat false false true = some c →
      Raises (.brx st a) s { code := c, addr := dest, hasPage := true }) ∧
    (x % 4 ≠ 0 → Raises (.sleepw st q a b) s { code := .align, addr := BitVec.ofNat 64 x }) ∧
    (x % 4 = 0 → winLoc s x 4 = none → Raises (.sleepw st q a b) s { code := .bound, addr := BitVec.ofNat 64 x }) ∧
    ((ck s).hdr.nregion ≤ j.toNat ∨ ((ck s).hdr.regions.getD j.toNat (0, 0)).1 ≠ (codeOffset (ck s) (cp s).pc).toNat / 4 ∨
        (cg s).two = true ∨ (cp s).stack ≠ [] → Raises (.region st j) s { code := .illop }) ∧
    (emask s ≠ 0 → (cg s).width ≤ l.toNat → Raises (.rdlane st d a l) s { code := .bound } ∧ Raises (.wrlane st d a l) s { code := .bound })

/-- TRAP and BRK raise their traps, RFT leaves the handler, and where the words of control flow trap. -/
def Obligations.TrapWords : Prop := Statements.TrapWords ∧ Statements.ControlTraps

/-- R120, R160 to R162: special state, name by name. SRD writes a lane register with a value of its own for each thread, or a uniform
one; %nblock and %param wait until the kernel's shape is known, and of a predicted launch acquire it (R130); %cyc latches its upper
half; in a kernel-mode group %core is 96, %crank and %die the service core's die (log entry 76); SWR writes the item queue or the block's progress;
the supervisor words read the trap's record and the open region; NOP and SNOP do nothing. -/
def Obligations.SpecialState : Prop :=
  ∀ (s : State) (st : BitVec 2) (d c a : BitVec 7) (l : BitVec 1) (m : Nat → Word),
    let after (e : State) (i : Instr) : State := settled (info i) s e
    let g := cg s
    let b := cb s
    let k := ck s
    let n (x : Nat) : Word := BitVec.ofNat 32 x
    let at_ : Nat × Nat × Nat := if k.hdr.policy = 0 then (b.logical % k.x, b.logical / k.x % k.y, b.logical / (k.x * k.y)) else (b.logical, 0, 0)
    let shape := (shapeOf s b.kern).getD (0, 0)
    let value (th : Nat) : Word := match c.toNat with
      | 0 => n th | 1 => n g.index | 2 => n g.role | 3 => n at_.1 | 4 => n at_.2.1 | 5 => n at_.2.2 | 6 => n shape.1 | 7 => shape.2
      | 8 => n b.rank | 9 => n (k.nrank + 1) | 10 => n k.launch | 11 => n b.world | 12 => n b.ctx | 13 => lowWord k.step
      | 14 => if b.spec then 1 else 0 | 15 => n (g.core % 96 % 8) | 16 => n (if g.core < 384 then g.core % 96 else 96)
      | 17 => n (if g.core < 384 then g.core / 96 else g.core - 384) | 18 => n s.hall.self | 20 => g.cychi | 21 => n b.copy.done
      | 22 => n b.matrix.done | 23 => Map.look g.item th 0xFFFFFFFF | 24 => b.qnext | 25 => b.qend | _ => b.progress
    let supervisor : Word := match c.toNat with
      | 0 => g.trap.code.setWidth 32 | 1 => g.trap.pc | 2 => g.trap.addr.extractLsb' 0 32 | 3 => g.trap.addr.extractLsb' 32 32
      | 4 => g.trap.mask.extractLsb' 0 32 | 5 => g.trap.mask.extractLsb' 32 32 | 6 => g.trap.mask.extractLsb' 64 32
      | 7 => g.trap.mask.extractLsb' 96 32 | 8 => g.trap.info.setWidth 32
      | _ => match g.region with
        | some r => n (256 + r.index)
        | none => 0
    (∀ th, m th = value th) →
    (c ≠ 19 → c ≠ 6 → c ≠ 7 → LaneResult (.srd st d c 1) s d.toNat m ∧ UniResult (.srd st d c 0) s d.toNat (m 0)) ∧
    (c = 6 ∨ c = 7 → k.hdr.policy = 0 → LaneResult (.srd st d c 1) s d.toNat m ∧ UniResult (.srd st d c 0) s d.toNat (m 0)) ∧
    (c = 6 ∨ c = 7 → k.hdr.policy ≠ 0 → (shapeOf s b.kern).isSome = true →
      (MayIssue (info (.srd st d c 1)) s → exec (.srd st d c 1) s = .next (after
        (wv (acquireShape (entered (info (.srd st d c 1)) s)) d.toNat (emask s) m) (.srd st d c 1))) ∧
      (MayIssue (info (.srd st d c 0)) s → exec (.srd st d c 0) s = .next (after
        (ws (acquireShape (entered (info (.srd st d c 0)) s)) d.toNat (m 0)) (.srd st d c 0))) ∧
      (NoneRead s → LoadResult (.srd st d c 1) s d.toNat m ∧ UniLoadResult (.srd st d c 0) s d.toNat (m 0))) ∧
    (c = 6 ∨ c = 7 → (shapeOf s b.kern).isSome = false → MayIssue (info (.srd st d c l)) s →
      exec (.srd st d c l) s = .next (waitingAt s (entered (info (.srd st d c l)) s) .shape)) ∧
    (MayIssue (info (.srd st d 19 0)) s → ∃ t, exec (.srd st d 19 0) s = .next t ∧
      uniReg t d.toNat = BitVec.ofNat 32 (16 * s.time + (cg s).slot) ∧
      (cg t).cychi = BitVec.ofNat 32 ((16 * s.time + (cg s).slot) / 2 ^ 32) ∧ ∀ x, x ≠ d.toNat → uniReg t x = uniReg s x) ∧
    (MayIssue (info (.srd st d 19 1)) s → ∃ t, exec (.srd st d 19 1) s = .next t ∧
      (∀ th, th < (cg s).width → laneReg t d.toNat th =
        if bitOf (emask s) th then BitVec.ofNat 32 (16 * s.time + (cg s).slot) else laneReg s d.toNat th) ∧
      (cg t).cychi = BitVec.ofNat 32 ((16 * s.time + (cg s).slot) / 2 ^ 32)) ∧
    (MayIssue (info (.swr st a c)) s → exec (.swr st a c) s = .next (after (setCb (entered (info (.swr st a c)) s)
      (if c = 24 then { cb s with qnext := uniReg s a.toNat } else if c = 25 then { cb s with qend := uniReg s a.toNat }
        else { cb s with progress := uniReg s a.toNat &&& 0xFFFF })) (.swr st a c))) ∧
    UniResult (.srdp st d c) s d.toNat supervisor ∧
    (MayIssue (info (.swrp st a c)) s → ∃ t, exec (.swrp st a c) s = .next t ∧
      (c = 1 → (cg t).trap = { (cg s).trap with pc := uniReg s a.toNat &&& 0xFFFFFFFC }) ∧
      (c ≠ 1 → (cg t).trap = { (cg s).trap with mask := setMaskWord (cg s).trap.mask (c.toNat - 4) (uniReg s a.toNat) }) ∧
      { repathed (cg s) (cg t) with trap := (cg s).trap } = cg s ∧ { t with groups := s.groups, fresh := s.fresh } = s) ∧
    (MayIssue (info (.nop st)) s → ∃ t, exec (.nop st) s = .next t ∧ OnlyRegs (info (.nop st)) s t [] [] [] [] []) ∧
    (MayIssue (info (.snop st)) s → ∃ t, exec (.snop st) s = .next t ∧ OnlyRegs (info (.snop st)) s t [] [] [] [] [])

/-- R147, R150, R238, R249, R302: waiting, regions and fences. SLEEP waits its turns; SLEEPW until a word compares; REGION opens at a
word of the region table outside any pair, REGEND closes; a fence that acquires takes what it has heard of, and one that releases does
so first, in full; ICINV also drops cached code; OPFENCE performs the group's stores, waits for its copies into scratch, and lets its
later commands count on what it has observed. A scope of one group orders only what a speculative block stages next (R128). -/
def Obligations.WaitingWords : Prop :=
  ∀ (s : State) (st : BitVec 2) (n : BitVec 15) (q : BitVec 2) (a b : BitVec 7) (j : BitVec 8) (c : BitVec 3) (k : BitVec 2)
    (l : BitVec 1) (m x y : Nat),
    let p : Machine.Path := { cp s with pc := (cp s).pc + 4, stall := st.toNat, wait := none }
    let at_ (i : Instr) : State := entered (info i) s
    let done (i : Instr) (e : State) : Host.Outcome State Fault Refusal := .next (settled (info i) s e)
    let staged (i : Instr) : State := setCb (at_ i) { cb s with relNext := true }
    let word : Wait := .word q.toNat (uniReg s a.toNat).toNat (uniReg s b.toNat)
    ((cp s).wait = some (.sleep m) → m ≤ s.time → PathResult (.sleep st n) s p) ∧
    ((cp s).wait = none → n = 0 → PathResult (.sleep st n) s p) ∧
    (MayIssue (info (.sleep st n)) s → (cp s).wait = none → n ≠ 0 →
      exec (.sleep st n) s = .next (waitingAt s (at_ (.sleep st n)) (.sleep (s.time + n.toNat)))) ∧
    ((uniReg s a.toNat).toNat % 4 = 0 → (winLoc s (uniReg s a.toNat).toNat 4).isSome = true →
      ((cp s).wait = some .wordMet → AcquireResult (.sleepw st q a b) s (NoneRead s) fun e => acquire e 1) ∧
      (∀ w i, (cp s).wait ≠ some .wordMet → waitHolds s word = true → winLoc s (uniReg s a.toNat).toNat 4 = some (w, i) →
        AcquireResult (.sleepw st q a b) s (NoneRead s ∧ (cg s).stores = []) fun e => acquire (noteRead e s.cur w i 4 .newest) 1) ∧
      ((cp s).wait ≠ some .wordMet → waitHolds s word = false → MayIssue (info (.sleepw st q a b)) s →
        exec (.sleepw st q a b) s = .next (waitingAt s (at_ (.sleepw st q a b)) word))) ∧
    ((ck s).hdr.regions[j.toNat]? = some (x, y) → j.toNat < (ck s).hdr.nregion → (codeOffset (ck s) (cp s).pc).toNat / 4 = x →
      (cg s).two = false → (cp s).stack = [] → MayIssue (info (.region st j)) s → ∃ t, exec (.region st j) s = .next t ∧
      (∃ r, (cg t).region = some r ∧ r.index = j.toNat ∧ r.start = (cp s).pc ∧ r.mask = emask s ∧ r.live = (cg s).live) ∧
      cp t = p ∧ { t with groups := s.groups, fresh := s.fresh, nextId := s.nextId } = s ∧ repathed (cg s) (cg t) = cg s) ∧
    (MayIssue (info (.regend st)) s → ∃ t, exec (.regend st) s = .next t ∧ (cg t).region = none ∧ OnlyPath s t p) ∧
    PathResult (.fence st 0 0) s p ∧
    (k ≠ 0 → MayIssue (info (.fence st 0 k)) s → exec (.fence st 0 k) s = done (.fence st 0 k) (staged (.fence st 0 k))) ∧
    (c ≠ 0 → AcquireResult (.fence st c 0) s (NoneRead s) fun e => acquire e c.toNat) ∧
    (MayIssue (info (.fence st c 1)) s → c ≠ 0 →
      Releases (info (.fence st c 1)) s c.toNat false (exec (.fence st c 1) s) (done (.fence st c 1))) ∧
    (MayIssue (info (.fence st c 2)) s → c ≠ 0 →
      Releases (info (.fence st c 2)) s c.toNat true (exec (.fence st c 2) s) fun e =>
        done (.fence st c 2) (acquireGrp e s.cur c.toNat true)) ∧
    (MayIssue (info (.icinv st 0 l)) s → exec (.icinv st 0 l) s = done (.icinv st 0 l) (icinvCores (staged (.icinv st 0 l)) 0 (l == 1))) ∧
    (MayIssue (info (.icinv st c l)) s → c ≠ 0 →
      Releases (info (.icinv st c l)) s c.toNat false (exec (.icinv st c l) s) fun e => done (.icinv st c l) (icinvCores e c.toNat (l == 1))) ∧
    (MayIssue (info (.opfence st)) s →
      let e := at_ (.opfence st)
      let go (e : State) (n : Nat) : Host.Outcome State Fault Refusal :=
        if waitHolds e (.fenced false n) = true then done (.opfence st) (portSees e n)
        else .next (waitingAt s e (.fenced false n))
      ((cp s).wait = none → exec (.opfence st) s = go (performStores e s.cur) (cb s).copy.tail) ∧
      ∀ u, (cp s).wait = some (.fenced false u) → exec (.opfence st) s = go e u)

/-! ### Memory and commands -/

/-- R212 to R221: lane loads. Where every active thread's access lies in its space, is aligned and meets no error, each takes the bytes
there, little-endian, as its group reads them; LDS64 writes a pair. -/
def Statements.LaneLoads : Prop :=
  ∀ (s : State) (st : BitVec 2) (d a : BitVec 7) (o : BitVec 8),
    let at_ (n t : Nat) : Nat := ((laneReg s a.toNat t).toNat + n * o.toNat) % 2 ^ 32
    let value (sp : Space) (n t : Nat) : List Byte := loadPlace s t n (placeOf s sp .load t (at_ n t) n)
    (MayAccess s .blk .load 4 (at_ 4) → LoadResult (.lds st d a o) s d.toNat (fun t => wordOf (value .blk 4 t))) ∧
    (MayAccess s .clu .load 4 (at_ 4) → LoadResult (.ldw st d a o) s d.toNat (fun t => wordOf (value .clu 4 t))) ∧
    (MayAccess s .spill .load 4 (at_ 4) → LoadResult (.ldsp st d a o) s d.toNat (fun t => wordOf (value .spill 4 t))) ∧
    (MayAccess s .die .load 4 (at_ 4) → LoadResult (.ldd st d a o) s d.toNat (fun t => wordOf (value .die 4 t))) ∧
    (MayAccess s .const .load 4 (at_ 4) → LoadResult (.ldc st d a o) s d.toNat (fun t => wordOf (value .const 4 t))) ∧
    (MayAccess s .blk .load 8 (at_ 8) → LoadPairResult (.lds64 st d a o) s d.toNat (fun t => dwordOf (value .blk 8 t)))

/-- R134, R220, R234 to R236: what a group reads of a location. Where a store of its own, or one of its core that it has read, meets
the location, the bytes with those stores performed; where it has to observe the last write to the location and no other store of its
core shows, the bytes at their home. In die scratch the copies' writes that its gang still holds stand over those bytes, the youngest
over the others. -/
def Statements.ReadValues : Prop :=
  ∀ (s : State) (m : MemName) (a n : Nat), (∀ i, i < n → earlyRead s (cg s).view m (a + i) = false) →
    let blk := (cg s).blk
    let covers (e : HeldEntry) (x : Nat) : Prop := e.addr ≤ x ∧ x < e.addr + e.data.length
    ((seenStores s s.cur).any (storeHits m a n) = true → loadBytes s m a n =
      (List.range n).map fun i => underHeld s blk m (a + i) (viewByte s (seenStores s s.cur) m (a + i))) ∧
    ((seenStores s s.cur).any (storeHits m a n) = false → peeks s s.cur m a n = [] →
      (∀ e ∈ hits m a n s.log, mustSee s.cur (cg s).born (cg s).view e = true) →
      loadBytes s m a n = (List.range n).map fun i => underHeld s blk m (a + i) (homeByte s m (a + i))) ∧
    ∀ (x : Nat) (b : Byte) (e : HeldEntry) (k : Nat),
      ((∀ k, m ≠ .die k) → underHeld s blk m x b = b) ∧ ((∀ e ∈ heldIn s blk m, ¬ covers e x) → underHeld s blk m x b = b) ∧
      (m = .die k → e ∈ heldIn s blk m → covers e x → (∀ f ∈ heldIn s blk m, covers f x → f = e ∨ f.stamp < e.stamp) →
        underHeld s blk m x b = byteAt e.data (x - e.addr))

/-- R187, R217, R222: uniform loads. -/
def Statements.UniformLoads : Prop :=
  ∀ (s : State) (st : BitVec 2) (d a : BitVec 7) (o : BitVec 8),
    let x : Nat := ((uniReg s a.toNat).toNat + 4 * o.toNat) % 2 ^ 32
    (x % 4 = 0 → x + 4 ≤ (ck s).hdr.constlen → UniResult (.sldc st d a o) s d.toNat (bankWord s x 0)) ∧
    (x % 4 = 0 → ∀ m y, blkPlace s .load x 4 = .at m y → eccAt s (cg s).stores m y 4 = false →
      UniLoadResult (.slds st d a o) s d.toNat (wordOf (loadBytes s m y 4)))

/-- Lane and uniform loads take the bytes their group reads, and which those are (choice among several: log entry 10). -/
def Obligations.Loads : Prop := Statements.LaneLoads ∧ Statements.ReadValues ∧ Statements.UniformLoads

/-- R212 to R222: lane and uniform stores. Each active thread's bytes are the group's at once, in ascending thread; no other byte and no
register changes. -/
def Obligations.LaneStores : Prop :=
  ∀ (s : State) (st : BitVec 2) (d a : BitVec 7) (o : BitVec 8),
    let at_ (n t : Nat) : Nat := ((laneReg s a.toNat t).toNat + n * o.toNat) % 2 ^ 32
    let word (t : Nat) : List Byte := bytesOfNat 4 (laneReg s d.toNat t).toNat
    let pair (t : Nat) : List Byte := bytesOfNat 8 (lanePair s d.toNat t).toNat
    let x : Nat := ((uniReg s a.toNat).toNat + 4 * o.toNat) % 2 ^ 32
    (MayAccess s .blk .store 4 (at_ 4) → StoreResult (.sts st d a o) s .blk 4 (at_ 4) word) ∧
    (MayAccess s .clu .store 4 (at_ 4) → StoreResult (.stw st d a o) s .clu 4 (at_ 4) word) ∧
    (MayAccess s .spill .store 4 (at_ 4) → StoreResult (.stsp st d a o) s .spill 4 (at_ 4) word) ∧
    (MayAccess s .die .store 4 (at_ 4) → StoreResult (.std st d a o) s .die 4 (at_ 4) word) ∧
    (MayAccess s .blk .store 8 (at_ 8) → StoreResult (.sts64 st d a o) s .blk 8 (at_ 8) pair) ∧
    (x % 4 = 0 → ∀ m y, blkPlace s .store x 4 = .at m y → MayIssue (info (.ssts st d a o)) s →
      ∃ t, exec (.ssts st d a o) s = .next t ∧
        (cg t).stores.map storeCell = (cg s).stores.map storeCell ++ [(m, y, bytesOfNat 4 (uniReg s d.toNat).toNat)] ∧
        OnlyStores (info (.ssts st d a o)) s t ∧
        ∀ n b, cellCovers n b (m, y, bytesOfNat 4 (uniReg s d.toNat).toNat) = false → byteSeen t n b = byteSeen s n b)

/-- R187, R212, R217, R220, R222, R225: the first trap of an access, in the order PROT, BOUND, ALIGN, ECC over all the active threads,
taken by the threads that have cause for it; its address is that of the lowest of them, and no thread's access is made. SLDC asks
ALIGN first. -/
def Statements.AccessTraps : Prop :=
  ∀ (s : State) (st p : BitVec 2) (d a : BitVec 7) (o : BitVec 8) (f : BitVec 4) (c : TrapCode) (lo : Nat) (ths : Mask),
    let at_ (n t : Nat) : Nat := ((laneReg s a.toNat t).toNat + n * o.toNat) % 2 ^ 32
    let word (t : Nat) : Nat := (laneReg s a.toNat t).toNat
    let traps (i : Instr) (sp : Space) (u : Use) (n : Nat) (x : Nat → Nat) : Prop :=
      FirstTrap s [.prot, .bound, .align, .ecc] (accessCause s sp u n x) c lo ths →
        Raises i s { code := c, addr := BitVec.ofNat 64 (x lo), threads := some ths }
    let x : Nat := ((uniReg s a.toNat).toNat + 4 * o.toNat) % 2 ^ 32
    let raises (i : Instr) (c : TrapCode) : Prop := Raises i s { code := c, addr := BitVec.ofNat 64 x }
    traps (.lds st d a o) .blk .load 4 (at_ 4) ∧ traps (.sts st d a o) .blk .store 4 (at_ 4) ∧
    traps (.lds64 st d a o) .blk .load 8 (at_ 8) ∧ traps (.sts64 st d a o) .blk .store 8 (at_ 8) ∧
    traps (.ldw st d a o) .clu .load 4 (at_ 4) ∧ traps (.stw st d a o) .clu .store 4 (at_ 4) ∧
    traps (.ldsp st d a o) .spill .load 4 (at_ 4) ∧ traps (.stsp st d a o) .spill .store 4 (at_ 4) ∧
    traps (.ldd st d a o) .die .load 4 (at_ 4) ∧ traps (.std st d a o) .die .store 4 (at_ 4) ∧
    traps (.ldc st d a o) .const .load 4 (at_ 4) ∧
    (passNow s = none → traps (.atom st d a f p) (atomSpace p) .atomic 4 word ∧ traps (.cas st d a p) (atomSpace p) .atomic 4 word) ∧
    (x % 4 ≠ 0 → raises (.sldc st d a o) .align) ∧ (x % 4 = 0 → (ck s).hdr.constlen < x + 4 → raises (.sldc st d a o) .bound) ∧
    (blkPlace s .load x 4 = .bad c → raises (.slds st d a o) c) ∧ (blkPlace s .store x 4 = .bad c → raises (.ssts st d a o) c) ∧
    ((∀ c, blkPlace s .load x 4 ≠ .bad c) → x % 4 ≠ 0 → raises (.slds st d a o) .align) ∧
    ((∀ c, blkPlace s .store x 4 ≠ .bad c) → x % 4 ≠ 0 → raises (.ssts st d a o) .align) ∧
    (∀ m y, blkPlace s .load x 4 = .at m y → x % 4 = 0 → eccAt s (cg s).stores m y 4 = true → raises (.slds st d a o) .ecc)

/-- R223 to R225: ATOM and CAS. A pass of 32 threads is one step: each active thread, in ascending order, reads its word at the home and
writes it there, CAS only where the word is the expected one; the group waits between two passes. After the last one d takes the words
read, and CAS tells in the next register whether it wrote. -/
def Statements.Atomics : Prop :=
  ∀ (s : State) (st : BitVec 2) (d a : BitVec 7) (f : BitVec 4) (p : BitVec 2) (n : Nat),
    let es : List (Nat × Nat) := (threadsOf (cg s).width (emask s)).map fun t => (t, (laneReg s a.toNat t).toNat)
    let sp := atomSpace p
    let pass (i : Info) (new : Nat → Word → Option Word) : State := (es.filter fun e => e.1 / 32 == n).foldl (atomStep sp new) (entered i s)
    let add (t : Nat) (o : Word) : Option Word := some (atomValue f.toNat o (laneReg s d.toNat t))
    let swap (t : Nat) (o : Word) : Option Word := if o = laneReg s d.toNat t then some (laneReg s (d.toNat + 1) t) else none
    let ia := info (.atom st d a f p)
    let ic := info (.cas st d a p)
    let ea := pass ia add
    let ec := pass ic swap
    let old (e : State) (t : Nat) : Word := Map.look (cg e).olds t 0
    let clear (e : State) : State := setCg e { cg e with olds := [] }
    (passNow s = some n ∨ passNow s = none ∧ MayAccess s sp .atomic 4 (fun t => (laneReg s a.toNat t).toNat) ∧
      (∀ e l, es = e :: l → e.1 / 32 = n)) →
    ((∀ e ∈ es, e.1 / 32 ≤ n) →
      (MayIssue ia s → exec (.atom st d a f p) s = .next (settled ia s (wv (clear ea) d.toNat (emask (clear ea)) (old ea)))) ∧
      (MayIssue ic s → exec (.cas st d a p) s = .next (settled ic s
        (wv (wv (clear ec) d.toNat (emask (clear ec)) (old ec)) (d.toNat + 1) (emask (clear ec))
          fun t => if old ec t = laneReg s d.toNat t then 1 else 0)))) ∧
    (∀ e, es.find? (fun e => decide (n < e.1 / 32)) = some e →
      (MayIssue ia s → exec (.atom st d a f p) s = .next (waitingAt s (turnAgain ea) (.pass (e.1 / 32)))) ∧
      (MayIssue ic s → exec (.cas st d a p) s = .next (waitingAt s (turnAgain ec) (.pass (e.1 / 32))))) ∧
    (∀ (new : Nat → Word → Option Word) (u : State) (t x y : Nat) (m : MemName), placeOf u sp .atomic t x 4 = .at m y →
      let v := performBefore u u.cur m y 4
      (∀ i, i < 4 → earlyRead v (cg v).view m (y + i) = false) → unread v m y 4 → (memOf v m).wf = true →
      Map.look (cg (atomStep sp new u (t, x))).olds t 0 = homeWord v m y ∧
      (new t (homeWord v m y) = none → ∀ k b, homeByte (atomStep sp new u (t, x)) k b = homeByte v k b) ∧
      (∀ w, new t (homeWord v m y) = some w → homeBytes (atomStep sp new u (t, x)) m y 4 = bytesOfNat 4 w.toNat)) ∧
    ∀ (o v : Word),
      atomValue 0 o v = o + v ∧ atomValue 1 o v = o - v ∧ atomValue 6 o v = o &&& v ∧ atomValue 7 o v = o ||| v ∧
      atomValue 8 o v = o ^^^ v ∧ atomValue 9 o v = v ∧
      atomValue 2 o v = (if o.toInt < v.toInt then o else v) ∧ atomValue 3 o v = (if v.toInt < o.toInt then o else v) ∧
      atomValue 4 o v = (if o.toNat < v.toNat then o else v) ∧ atomValue 5 o v = (if v.toNat < o.toNat then o else v) ∧
      atomValue 10 o v = (if v.toNat ≤ o.toNat then 0 else o + 1) ∧
      atomValue 11 o v = (if o = 0 ∨ v.toNat < o.toNat then v else o - 1)

/-- The first trap of an access, and ATOM and CAS at the home. -/
def Obligations.Atomics : Prop := Statements.AccessTraps ∧ Statements.Atomics

/-- R308 to R320: GEN and GENT give each active thread the value of the descriptor at its logical coordinates, row v[a], column v[a+1],
exchanged by GENT; a phase reads its frequency word in the block's window. GSET and GRD move descriptors; GSTEP asks for the step at the
block's end. -/
def Statements.GeneratorWords : Prop :=
  ∀ (s : State) (st : BitVec 2) (d a : BitVec 7) (g : BitVec 3) (e : BitVec 5) (x : BitVec 128),
    x = genReg s g.toNat →
    let row (n : Word) : Nat := (128 * (x.extractLsb' 32 16).toNat + n.toNat) % 2 ^ 32
    let col (n : Word) : Nat := (128 * (x.extractLsb' 48 16).toNat + n.toNat) % 2 ^ 32
    let ok (f : Nat → Nat) : Prop := genKind x = 4 → ∀ t, bitOf (emask s) t = true →
      genTable x (f t) + 4 ≤ (ck s).hdr.winbytes ∧ eccAt s (cg s).stores (.win (cg s).blk) (genTable x (f t)) 4 = false
    let value (i j : Nat) : Word :=
      BitVec.ofNat 32 (genValue x (genKey s x) (loadWord s (.win (cg s).blk) (genTable x j)) i j)
    let straight (t : Nat) : Word := value (row (laneReg s a.toNat t)) (col (laneReg s (a.toNat + 1) t))
    let turned (t : Nat) : Word := value (row (laneReg s (a.toNat + 1) t)) (col (laneReg s a.toNat t))
    (genValid x = true → ok (fun t => col (laneReg s (a.toNat + 1) t)) →
      (genKind x ≠ 4 → LaneResult (.gen st d a g) s d.toNat straight) ∧ (genKind x = 4 → LoadResult (.gen st d a g) s d.toNat straight)) ∧
    (genValid x = true → ok (fun t => col (laneReg s a.toNat t)) →
      (genKind x ≠ 4 → LaneResult (.gent st d a g) s d.toNat turned) ∧ (genKind x = 4 → LoadResult (.gent st d a g) s d.toNat turned)) ∧
    (genValid x = false → emask s ≠ 0 →
      (MayIssue (info (.gen st d a g)) s → exec (.gen st d a g) s = .next (takeTrap s s.cur { code := .illconv })) ∧
      (MayIssue (info (.gent st d a g)) s → exec (.gent st d a g) s = .next (takeTrap s s.cur { code := .illconv }))) ∧
    (MayIssue (info (.gset st e g)) s → ∃ t, exec (.gset st e g) s = .next t ∧
      genReg t g.toNat = uniPair s (4 * e.toNat + 2) ++ uniPair s (4 * e.toNat) ∧
      OnlyRegs (info (.gset st e g)) s t [] [] [] [] [g.toNat]) ∧
    (MayIssue (info (.gstep st)) s → exec (.gstep st) s =
      .next (settled (info (.gstep st)) s (setCb (entered (info (.gstep st)) s) { cb s with stepReq := true })))

/-- R328 to R332: XLATE looks the address in s[2a], s[2a+1] up and checks the access it names; the register then describes the page from
that address on. A remote one keeps the pointer unchecked. -/
def Statements.TranslationWords : Prop :=
  ∀ (s : State) (st : BitVec 2) (a : BitVec 6) (w r : BitVec 1) (x : BitVec 3) (l : Leaf),
    let p : Addr := uniPair s (2 * a.toNat)
    let f := tlbLook s (cb s).ctx p.toNat
    (MayIssue (info (.xlate st a 1 w r x)) s → ∃ t, exec (.xlate st a 1 w r x) s = .next t ∧
      xlatReg t x.toNat = { base := p, valid := true, remote := true } ∧
      OnlyRegs (info (.xlate st a 1 w r x)) s t [] [] [] [x.toNat] []) ∧
    (p.toNat < 2 ^ 56 → f.1 = some l → checkLeaf s (cb s).world (some l) p.toNat (r == 1) (w == 1) false = none → (cb s).spec = true →
      MayIssue (info (.xlate st a 0 w r x)) s → ∃ t, exec (.xlate st a 0 w r x) s = .next t ∧
      xlatReg t x.toNat = { base := p, pa := l.frame + (p.toNat - l.va), limit := l.va + pageSize l.level - p.toNat, r := l.r
                            w := l.w, x := l.x, cls := l.cls, key := l.key, level := l.level, valid := true } ∧
      OnlyRegs (info (.xlate st a 0 w r x)) { s with tlb := f.2.tlb } t [] [] [] [x.toNat] []) ∧
    (p.toNat < 2 ^ 56 → f.1 = some l → checkLeaf s (cb s).world (some l) p.toNat (r == 1) (w == 1) false = none → (cb s).spec = false →
      MayIssue (info (.xlate st a 0 w r x)) s →
      let u := (tlbLook (entered (info (.xlate st a 0 w r x)) s) (cb s).ctx p.toNat).2
      exec (.xlate st a 0 w r x) s = .next (settled (info (.xlate st a 0 w r x)) s
        (usePage (wx u x.toNat (leafReg l p)) (cb s).ctx l)))

/-- R312, R320, R330: a phase whose frequency word lies beyond the window raises BOUND, one whose word has an uncorrectable error
ECC, in the threads that read it; XLATE raises ALIGN on a pointer with rank bits, and the trap of its page. -/
def Statements.TranslationTraps : Prop :=
  ∀ (s : State) (st : BitVec 2) (d a : BitVec 7) (g x : BitVec 3) (b : BitVec 6) (w r : BitVec 1) (v : BitVec 128) (c : TrapCode) (lo : Nat)
    (ths : Mask),
    v = genReg s g.toNat →
    let col (n : Word) : Nat := (128 * (v.extractLsb' 48 16).toNat + n.toNat) % 2 ^ 32
    let traps (i : Instr) (at_ : Nat → Nat) : Prop :=
      genValid v = true → genKind v = 4 → FirstTrap s [.bound, .ecc] (fun c t => (c = .bound ∧ (ck s).hdr.winbytes < at_ t + 4) ∨
          (c = .ecc ∧ eccAt s (cg s).stores (.win (cg s).blk) (at_ t) 4 = true)) c lo ths →
        Raises i s { code := c, addr := BitVec.ofNat 64 (at_ lo), threads := some ths }
    let p : Addr := uniPair s (2 * b.toNat)
    let f := tlbLook s (cb s).ctx p.toNat
    traps (.gen st d a g) (fun t => genTable v (col (laneReg s (a.toNat + 1) t))) ∧
    traps (.gent st d a g) (fun t => genTable v (col (laneReg s a.toNat t))) ∧
    (2 ^ 56 ≤ p.toNat → Raises (.xlate st b 0 w r x) s { code := .align, addr := p }) ∧
    (p.toNat < 2 ^ 56 → checkLeaf s (cb s).world f.1 p.toNat (r == 1) (w == 1) false = some c → MayIssue (info (.xlate st b 0 w r x)) s →
      exec (.xlate st b 0 w r x) s = .next (trappedAt s (tlbLook (entered (info (.xlate st b 0 w r x)) s) (cb s).ctx p.toNat).2
        { code := c, addr := p, hasPage := true }))

/-- GEN, GENT, GSET and GSTEP, and XLATE: results and traps. -/
def Obligations.GeneratorWords : Prop := Statements.GeneratorWords ∧ Statements.TranslationWords ∧ Statements.TranslationTraps

/-- R267 to R279, R299 to R306: the command words of the two rings. A well-formed entry joins its ring once there is room, after the
group's stores are performed, and d takes the new tail; with no room the group waits. Its image is eight uniform registers with the
kind, guard and function set. A matrix command needs every live thread active for MMA and MMAI, and no unreported error in the slot it
takes. -/
def Statements.CommandWords : Prop :=
  ∀ (s : State) (st : BitVec 2) (d : BitVec 7) (a k f : BitVec 4) (i : Instr) (kind : Nat),
    let img : Nat := cmdImage (entered (info i) s) a kind k f
    let xs := (cRegs img).foldl (fun m n => Map.put m n (xlatReg s n)) ([] : Map XReg)
    let cx : Info := { info i with reads := (info i).reads ++ (cRegs img).map fun n => (.x n, .active) }
    let mx : Info := { info i with reads := (info i).reads ++ (mGenRegs img).map fun n => (.g n, .active) }
    let ce := releaseOnce (entered cx s) 1
    let me := releaseOnce (entered mx s) 1
    ((i = .cpy st d a k f ∧ kind = 0 ∨ i = .cpyg st d a k f ∧ kind = 1 ∨ i = .cpyr st d a k f ∧ kind = 2 ∨
        i = .cpya st d a k f ∧ kind = 3) →
      MayIssue cx s → copyMalformed (entered cx s) img = false →
      exec i s = if waitHolds ce (.ring false (cAcks img xs)) = true
        then .next (settled cx s (ws (appendCopy ce img) d.toNat (BitVec.ofNat 32 (cb (appendCopy ce img)).copy.tail)))
        else .next (waitingAt s ce (.ring false (cAcks img xs)))) ∧
    ((i = .mma st d a k f ∧ kind = 0 ∨ i = .mmai st d a k f ∧ kind = 1 ∨ i = .ldst st d a k f ∧ kind = 2 ∨
        i = .accz st d a k f ∧ kind = 3 ∨ i = .accrd st d a k f ∧ kind = 4 ∨ i = .accwr st d a k f ∧ kind = 5 ∨
        i = .sacct st d a k f ∧ kind = 6) →
      MayIssue mx s → (kind ≤ 1 → fullGroup (entered mx s) = true) →
      matrixMalformed (entered mx s) img ((cb s).matrix.tail + 1) = false →
      slotError (cb s) ((cb s).matrix.tail + 1) = none →
      exec i s = if waitHolds me (.ring true 0) = true
        then .next (settled mx s (ws (appendMatrix me img) d.toNat (BitVec.ofNat 32 (cb (appendMatrix me img)).matrix.tail)))
        else .next (waitingAt s me (.ring true 0)))

/-- R276, R279, R282, R284, R292, R299, R300, R304: where the command words trap. A malformed image raises ENTRY, MMA and MMAI without the
full mask ILLCONV, and nothing joins a ring. A slot that still holds an unreported error raises that error, at the slot's address,
in the command word that would take it once there is room, and in TAILP after its release. WAITB and WAITM raise the first unreported
error among the commands they have waited for. An error counts as reported once raised. TESTC and WAITC raise ALIGN on a base, and BOUND on
a chunk beyond the window. -/
def Statements.CommandTraps : Prop :=
  ∀ (s : State) (st : BitVec 2) (d e : BitVec 7) (a k f : BitVec 4) (i : Instr) (kind n : Nat) (c : Cmd) (t : TrapCode),
    let img : Nat := cmdImage (entered (info i) s) a kind k f
    let cx : Info := { info i with reads := (info i).reads ++ (cRegs img).map fun n => (.x n, .active) }
    let mx : Info := { info i with reads := (info i).reads ++ (mGenRegs img).map fun n => (.g n, .active) }
    let me := releaseOnce (entered mx s) 1
    let tx : Info := { info (.tailp st d 1) with reads := (info (.tailp st d 1)).reads ++ tailReads s true d.toNat }
    let slot : Addr := BitVec.ofNat 64 (ringBase + slotAddr true c.seq)
    let q := (cb s).matrix
    let raised (u : State) (m : Bool) (c : Cmd) (r : TrapReq) : Host.Outcome State Fault Refusal :=
      .next (trappedAt s (setCb u (setRing (cb u) m (putCmd (ringOf (cb u) m) { c with reported := true }))) r)
    let x := (uniReg s d.toNat).toNat
    let new := (x + 2 ^ 32 - q.tail % 2 ^ 32) % 2 ^ 32
    let mine (y : Cmd) : Prop := y.grp = s.cur ∧ y.batch ≤ n
    ((i = .cpy st d a k f ∧ kind = 0 ∨ i = .cpyg st d a k f ∧ kind = 1 ∨ i = .cpyr st d a k f ∧ kind = 2 ∨
        i = .cpya st d a k f ∧ kind = 3) →
      MayIssue cx s → copyMalformed (entered cx s) img = true → exec i s = .next (takeTrap s s.cur { code := .entry })) ∧
    ((i = .mma st d a k f ∧ kind = 0 ∨ i = .mmai st d a k f ∧ kind = 1 ∨ i = .ldst st d a k f ∧ kind = 2 ∨
        i = .accz st d a k f ∧ kind = 3 ∨ i = .accrd st d a k f ∧ kind = 4 ∨ i = .accwr st d a k f ∧ kind = 5 ∨
        i = .sacct st d a k f ∧ kind = 6) → MayIssue mx s →
      (kind ≤ 1 → fullGroup (entered mx s) = false → exec i s = .next (takeTrap s s.cur { code := .illconv })) ∧
      ((kind ≤ 1 → fullGroup (entered mx s) = true) → matrixMalformed (entered mx s) img (q.tail + 1) = true →
        exec i s = .next (takeTrap s s.cur { code := .entry })) ∧
      ((kind ≤ 1 → fullGroup (entered mx s) = true) → matrixMalformed (entered mx s) img (q.tail + 1) = false →
        waitHolds me (.ring true 0) = true → slotError (cb s) (q.tail + 1) = some c → cmdError c = some t →
        exec i s = raised me true { c with errAddr := slot } { code := t, addr := slot })) ∧
    (MayIssue tx s → new < 2 ^ 31 → (x + 2 ^ 32 - q.done % 2 ^ 32) % 2 ^ 32 ≤ 64 → n < new →
      slotError (cb s) (q.tail + 1 + n) = some c → (∀ m, m < n → slotError (cb s) (q.tail + 1 + m) = none) → cmdError c = some t →
      exec (.tailp st d 1) s = raised (releaseFence (entered tx s) 1) true { c with errAddr := slot }
        { code := t, addr := slot }) ∧
    (MayIssue (info (.waitb st d)) s → back32 (cg s).batch (uniReg s d.toNat) = some n →
      (∀ y ∈ (cb s).copy.cmds, mine y → cmdDone y = true) → c ∈ (cb s).copy.cmds → mine c → cmdError c = some t →
      (∀ y ∈ (cb s).copy.cmds, mine y → cmdError y ≠ none → y = c ∨ c.batch < y.batch ∨ c.batch = y.batch ∧ c.seq < y.seq) →
      exec (.waitb st d) s = raised (entered (info (.waitb st d)) s) false c
        { code := t, addr := c.errAddr, unit := 1, hasPage := decide (t ∈ [TrapCode.page, .prot, .owner, .atroute]) }) ∧
    (MayIssue (info (.waitm st d)) s → back32 q.tail (uniReg s d.toNat) = some n → n ≤ q.done → q.cmds.Pairwise (fun y z => y.seq < z.seq) →
      c ∈ q.cmds → c.seq ≤ n → cmdError c = some t → (∀ y ∈ q.cmds, y.seq < c.seq → cmdError y = none) →
      exec (.waitm st d) s = raised (entered (info (.waitm st d)) s) true c { code := t, addr := c.errAddr, unit := 2 }) ∧
    (∀ z, x % 512 ≠ 0 → Raises (.testc st z d e) s { code := .align, addr := BitVec.ofNat 64 x }) ∧
    (∀ z, x % 512 = 0 → (∃ j, j < 32 ∧ (uniReg s e.toNat).getLsbD j = true ∧ (ck s).hdr.winbytes ≤ x + 512 * j) →
      Raises (.testc st z d e) s { code := .bound, addr := BitVec.ofNat 64 x } ∧
      Raises (.waitc st d e) s { code := .bound, addr := BitVec.ofNat 64 x })

/-- The copy and matrix command words join their ring, wait for room, or trap. -/
def Obligations.CommandWords : Prop := Statements.CommandWords ∧ Statements.CommandTraps

/-- R267, R276: what joining a ring does. The tail rises by one; the new command is last in the ring, with the group's next batch, its
open region and the current generation of its guard; its image stands in its slot of the ring area; the other ring, every other byte of
memory but the rings' counts, and, where no load of a group is still open (R236), every register of it stay. -/
def Statements.RingAppend : Prop :=
  ∀ (s : State) (m : Bool) (c : Cmd),
    let b := (cg s).blk
    let t := appendCmd s m c
    let r := ringOf (cb s) m
    let r' := ringOf (cb t) m
    let at_ := slotAddr m (r.tail + 1)
    (∃ e, r'.cmds = r.cmds ++ [e] ∧ e.seq = r.tail + 1 ∧ e.img = c.img ∧ e.phase = c.phase ∧ e.grp = s.cur ∧
      e.batch = (cg s).batch + 1 ∧ e.region = (cg s).region.map OpenRegion.id ∧
      e.gen = (guardOf (cb s) (cGuard (natOfWords c.img))).gen) ∧
    r'.tail = r.tail + 1 ∧ ringOf (cb t) (!m) = ringOf (cb s) (!m) ∧
    ((cb s).ringMem.wf = true → c.img.length = 8 → homeBytes t (.ring b) at_ 32 = c.img.flatMap fun w => bytesOfNat 4 w.toNat) ∧
    (∀ n a, (n = .ring b → a < 4096 ∧ (a < at_ ∨ at_ + 32 ≤ a)) → c.img.length = 8 → homeByte t n a = homeByte s n a) ∧
    (∀ x, x ≠ b → blkOf t x = blkOf s x) ∧
    (∀ g, (grpOf s g).loads = [] → unheard (grpOf s g) { grpOf t g with
      pathA := (grpOf s g).pathA, pathB := (grpOf s g).pathB, stores := (grpOf s g).stores } = grpOf s g) ∧
    (∀ g, (grpOf t g).stores.map storeCell = (grpOf s g).stores.map storeCell) ∧
    { t with blocks := s.blocks, groups := s.groups, log := s.log, poison := s.poison } = s

/-- R277, R300: TAILP. Its tail may lie at most 64 past the completion count, and not behind the ring's tail; the entries up to it are
published in order, after a release, and the registers they capture are registers that TAILP reads (R39). A malformed one, on the
matrix ring also an MMA or MMAI of a group without the full mask, joins the ring, in the group's open batch, complete with ENTRY. On
the matrix ring no slot it takes may hold an unreported error. -/
def Statements.TailWords : Prop :=
  ∀ (s : State) (st : BitVec 2) (a : BitVec 7) (r : BitVec 1),
    let q := ringOf (cb s) (r == 1)
    let x := (uniReg s a.toNat).toNat
    let new := (x + 2 ^ 32 - q.tail % 2 ^ 32) % 2 ^ 32
    let ahead := (x + 2 ^ 32 - q.done % 2 ^ 32) % 2 ^ 32
    let tx : Info := { info (.tailp st a r) with reads := (info (.tailp st a r)).reads ++ tailReads s (r == 1) a.toNat }
    let e := releaseFence (entered tx s) 1
    (MayIssue tx s → new < 2 ^ 31 → ahead ≤ 64 → r = 0 →
      exec (.tailp st a r) s = .next (settled tx s (publishAll false new e))) ∧
    (MayIssue tx s → new < 2 ^ 31 → ahead ≤ 64 → r = 1 →
      (∀ c ∈ q.cmds, q.tail < c.seq + 64 → c.seq + 64 ≤ q.tail + new → cmdError c = none) →
      exec (.tailp st a r) s = .next (settled tx s (publishAll true new e))) ∧
    (MayIssue tx s → 2 ^ 31 ≤ new ∨ 64 < ahead →
      exec (.tailp st a r) s = .next (takeTrap s s.cur { code := .bound })) ∧
    ∀ (u : State) (m : Bool) (n : Nat),
      let z := (ringOf (cb u) m).tail + 1
      let img := natOfWords (wordsOf 8 (homeBytes u (.ring (cg u).blk) (slotAddr m z) 32))
      publishAll m 0 u = u ∧ publishAll m (n + 1) u = publishAll m n (publish u m) ∧
      (m = false → copyMalformed u img = false → publish u m = appendCopy u img) ∧
      (m = true → matrixMalformed u img z = false → (cKind img ≤ 1 → fullGroup u = true) → publish u m = appendMatrix u img) ∧
      ((if m = true then matrixMalformed u img z = true ∨ (cKind img ≤ 1 ∧ fullGroup u = false) else copyMalformed u img = true) →
        ∃ c ∈ (ringOf (cb (publish u m)) m).cmds, c.seq = z ∧ c.grp = u.cur ∧ c.batch = (cg u).batch + 1 ∧ c.phase = .done .entry ∧
          c.reported = false ∧ c.errAddr = BitVec.ofNat 64 (0xFFFFE000 + slotAddr m z))

/-- R281 to R284: chunks and batches. TESTC gives 1 where no chunk of its set is pending, and 0 otherwise; WAITC goes on once none is,
and waits until then; both trap on a misaligned base and on a chunk beyond the window. CBATCH closes the group's batch and gives its
number. WAITB goes on once every copy of the group's batches up to its own has completed, waits until then, and traps on a batch that
is not closed yet. -/
def Statements.ChunkWords : Prop :=
  ∀ (s : State) (st : BitVec 2) (d a b : BitVec 7) (n : Nat),
    let x := (uniReg s a.toNat).toNat
    let free : Prop := ∀ j, j < 32 → (uniReg s b.toNat).getLsbD j = true → Map.look (cb s).chunks (x / 512 + j) 0 = 0
    let inside : Prop := x % 512 = 0 ∧ ∀ j, j < 32 → (uniReg s b.toNat).getLsbD j = true → x + 512 * j < (ck s).hdr.winbytes
    let mine (c : Cmd) : Prop := c.grp = s.cur ∧ c.batch ≤ n
    (inside → free → MayIssue (info (.testc st d a b)) s → exec (.testc st d a b) s = .next (settled (info (.testc st d a b)) s
      (ws (acquireChunks (entered (info (.testc st d a b)) s) a b) d.toNat 1))) ∧
    (inside → free → NoneRead s → UniLoadResult (.testc st d a b) s d.toNat 1) ∧
    (inside → ¬ free → UniResult (.testc st d a b) s d.toNat 0) ∧
    (inside → free → AcquireResult (.waitc st a b) s (NoneRead s) fun e => acquireChunks e a b) ∧
    (inside → ¬ free → MayIssue (info (.waitc st a b)) s → exec (.waitc st a b) s =
      .next (waitingAt s (entered (info (.waitc st a b)) s) (.chunks (x / 512) (uniReg s b.toNat).toNat))) ∧
    (MayIssue (info (.waitc st a b)) s → x % 512 ≠ 0 →
      exec (.waitc st a b) s = .next (takeTrap s s.cur { code := .align, addr := BitVec.ofNat 64 x })) ∧
    (MayIssue (info (.cbatch st d)) s → ∃ t, exec (.cbatch st d) s = .next t ∧ (cg t).batch = (cg s).batch + 1 ∧
      uniReg t d.toNat = BitVec.ofNat 32 ((cg s).batch + 1) ∧ (∀ y, y ≠ d.toNat → uniReg t y = uniReg s y) ∧
      (∀ r th, laneReg t r th = laneReg s r th) ∧ { t with groups := s.groups, fresh := s.fresh } = s) ∧
    (back32 (cg s).batch (uniReg s a.toNat) = some n →
      (∀ c ∈ (cb s).copy.cmds, mine c → cmdDone c = true ∧ cmdError c = none) →
      AcquireResult (.waitb st a) s (NoneRead s) fun e => acquire (seeCopies e s.cur fun q =>
        (cb s).copy.cmds.any fun c => c.seq == q && c.grp == s.cur && decide (c.batch ≤ n)) 1) ∧
    (back32 (cg s).batch (uniReg s a.toNat) = some n → (∃ c ∈ (cb s).copy.cmds, mine c ∧ cmdDone c = false) →
      MayIssue (info (.waitb st a)) s →
      exec (.waitb st a) s = .next (waitingAt s (entered (info (.waitb st a)) s) (.batch n))) ∧
    (MayIssue (info (.waitb st a)) s → back32 (cg s).batch (uniReg s a.toNat) = none →
      exec (.waitb st a) s = .next (takeTrap s s.cur { code := .bound }))

/-- R304, R305: WAITM goes on once every matrix command up to its number has retired, with no unreported error among them, and its group
has observed them; until then it waits; a number not yet issued traps. MSEQ gives bit 31 and the status of a retired command, 0 for one
that has not retired, the code FF for one 64 or more behind, and traps on a number not yet issued; a number before
the first command's reads as retired (the model's choice: log entry 65). -/
def Statements.MatrixWaits : Prop :=
  ∀ (s : State) (st : BitVec 2) (d a : BitVec 7) (n : Nat) (c : Cmd) (e : CmdStatus),
    let x := (uniReg s a.toNat).toNat
    let r := (cb s).matrix
    let back := (r.tail + 2 ^ 32 - x) % 2 ^ 32
    let im := info (.mseq st d a)
    let retired (v : Word) : Prop := (MayIssue im s → exec (.mseq st d a) s = .next (settled im s
        (ws (acquire (observeOne (entered im s) (r.tail - back)) 1) d.toNat v))) ∧
      (NoneRead s → UniLoadResult (.mseq st d a) s d.toNat v)
    (back32 r.tail (uniReg s a.toNat) = some n → n ≤ r.done → (∀ c ∈ r.cmds, c.seq ≤ n → cmdError c = none) →
      AcquireResult (.waitm st a) s (NoneRead s) (fun e => acquire (observeUpTo e n) 1) ∧
      ∀ k, k ≤ n → observed (cg (acquire (observeUpTo s n) 1)).view (cg s).blk k = true) ∧
    (MayIssue (info (.waitm st a)) s → back32 r.tail (uniReg s a.toNat) = some n → r.done < n →
      exec (.waitm st a) s = .next (waitingAt s (entered (info (.waitm st a)) s) (.matrix n))) ∧
    (MayIssue (info (.waitm st a)) s → back32 r.tail (uniReg s a.toNat) = none →
      exec (.waitm st a) s = .next (takeTrap s s.cur { code := .bound })) ∧
    (x = 0 → back < 2 ^ 31 → UniResult (.mseq st d a) s d.toNat 0x80000000) ∧
    (x ≠ 0 → 64 ≤ back → back < 2 ^ 31 → UniResult (.mseq st d a) s d.toNat 0x800000FF) ∧
    (x ≠ 0 → back < 64 → r.cmds.find? (fun c => c.seq + back == r.tail) = some c → c.phase = .done e →
      retired (BitVec.ofNat 32 (2 ^ 31 + statusCode e))) ∧
    (x ≠ 0 → back < 64 → r.cmds.find? (fun c => c.seq + back == r.tail) = some c → cmdDone c = false →
      UniResult (.mseq st d a) s d.toNat 0) ∧
    (x ≠ 0 → back < 64 → r.cmds.find? (fun c => c.seq + back == r.tail) = none → retired 0x80000000) ∧
    (MayIssue (info (.mseq st d a)) s → 2 ^ 31 ≤ back → exec (.mseq st d a) s = .next (takeTrap s s.cur { code := .bound })) ∧
    statusCode .ok = 0 ∧ statusCode .discarded = 1 ∧ statusCode .entry = 2 ∧ statusCode .ecc = 3 ∧ statusCode .chained = 4

/-- R290, R306: KSET resolves a guard's current generation, where it is unresolved, and KCLR resolves it false and opens the next; the
commands of both rings that the resolution decides are settled; no register changes. -/
def Statements.GuardWords : Prop :=
  ∀ (s : State) (st : BitVec 2) (a : BitVec 7) (k : BitVec 4) (m : BitVec 2),
    let v : Bool := if m = 2 then uniReg s a.toNat != 0 else m == 1
    let old := guardOf (cb s) k.toNat
    (MayIssue (info (.kset st a k m)) s → exec (.kset st a k m) s = .next (settled (info (.kset st a k m)) s
      (settleGuards (setGuard (entered (info (.kset st a k m)) s) k.toNat (resolveGuard old v)) (cg s).blk))) ∧
    (MayIssue (info (.kclr st k)) s → exec (.kclr st k) s = .next (settled (info (.kclr st k)) s
      (settleGuards (setGuard (entered (info (.kclr st k)) s) k.toNat
        { resolveGuard old false with gen := old.gen + 1 }) (cg s).blk))) ∧
    (∀ (g : Guard) (v : Bool),
      (Map.find g.res g.gen = none → Map.find (resolveGuard g v).res g.gen = some v) ∧
      (∀ u, Map.find g.res g.gen = some u → resolveGuard g v = g) ∧ (resolveGuard g v).gen = g.gen) ∧
    ∀ (b : Nat), let t := settleGuards s b
      (blkOf t b).guards = (blkOf s b).guards ∧ (∀ x, x ≠ b → blkOf t x = blkOf s x) ∧
      (∀ g r th, (Map.look (grpOf t g).v r []).getD th 0 = (Map.look (grpOf s g).v r []).getD th 0) ∧
      ∀ g r, Map.look (grpOf t g).s r 0 = Map.look (grpOf s g).s r 0

/-- Joining a ring, TAILP, TESTC, WAITC, CBATCH, WAITB, WAITM, MSEQ, KSET and KCLR: when each completes and what it leaves. -/
def Obligations.RingWords : Prop := Statements.RingAppend ∧ Statements.TailWords ∧ Statements.ChunkWords ∧ Statements.MatrixWaits ∧ Statements.GuardWords

/-- R253 to R262: the barrier words of a group with one path. An arrival with a member mask is recorded once the group's stores are
performed, and what it completes is settled; BAR and BARM then wait until the slot's phase has completed, ARRIVE does not, and AWAIT
only waits; a completed phase is acquired. BARC arrives at the cluster barrier, BARG, once nothing of the group is unacknowledged, at
the grid's next episode; BARINIT sets a slot's members, resetting a phase under way; BARRD reads a slot, the cluster barrier or the
episode, with the counts of R262 over actual arrivals (log entries 32, 77). In a group with two paths each raises ILLOP. -/
def Statements.BarrierWords : Prop :=
  ∀ (s : State) (st : BitVec 2) (i : BitVec 3) (a : BitVec 5) (d : BitVec 7) (k : BitVec 2),
    let at_ (w : Instr) : State := entered (info w) s
    let blk := (cg s).blk
    let slot := barOf (cb s) i.toNat
    let four : Mask := uniPair s (4 * a.toNat + 2) ++ uniPair s (4 * a.toNat)
    let free (mask : Mask) : Prop := (cg s).owed.contains i.toNat = false ∧
      bitOf (mask &&& existGroups s (cb s)) (cg s).index = true ∧ bitOf slot.arrived (cg s).index = false ∧
      (slot.filling = true → slot.mask &&& existGroups s (cb s) = mask &&& existGroups s (cb s))
    let arrived (e : State) (mask : Mask) : State := settleBlock (setBar e i.toNat { barOf (cb e) i.toNat with
      filling := true, mask := if slot.filling then slot.mask else mask &&& existGroups s (cb s)
      arrived := slot.arrived ||| maskOf [(cg s).index], join := joinView (barOf (cb e) i.toNat).join (coverOf e s.cur) }) blk
    let metSlot (e : State) : State :=
      let x := barOf (cb e) i.toNat
      acquire (seeView (setBar e i.toNat { x with met := Map.del x.met (cg e).index }) s.cur
        (joinView (slotMet e i.toNat) (exitView e fun r => r.blk == blk))) 1
    let metGang (e : State) : State :=
      acquire (seeView e s.cur (joinView (gangOf e (cb s).gang).met (exitView e fun r => r.gang == (cb s).gang))) 2
    let metGrid (e : State) : State :=
      acquire (seeView e s.cur (joinView (kernOf e (cb s).kern).met (exitView e fun r => r.kern == (cb s).kern))) 5
    let waits (x : Instr) (e : State) (w : Wait) (met : State → State) : Host.Outcome State Fault Refusal :=
      if waitHolds e w = true then .next (settled (info x) s (met e)) else .next (waitingAt s e w)
    (∀ w, w = .bar st i ∨ w = .barm st a i ∨ w = .arrive st i ∨ w = .await st i ∨ w = .barc st ∨ w = .barg st ∨ w = .barinit st a i ∨
        w = .barrd st d k i →
      (cg s).two = true → MayIssue (info w) s → exec w s = .next (takeTrap s s.cur { code := .illop })) ∧
    ((cg s).two = false →
      (MayIssue (info (.bar st i)) s → (cp s).wait ≠ some (.barrier i.toNat) → free slot.members →
        exec (.bar st i) s =
          waits (.bar st i) (arrived (releaseFence (at_ (.bar st i)) 1) slot.members) (.barrier i.toNat) metSlot) ∧
      (MayIssue (info (.bar st i)) s → (cp s).wait = some (.barrier i.toNat) →
        exec (.bar st i) s = waits (.bar st i) (at_ (.bar st i)) (.barrier i.toNat) metSlot) ∧
      (MayIssue (info (.barm st a i)) s → (cp s).wait ≠ some (.barrier i.toNat) → free four →
        exec (.barm st a i) s = waits (.barm st a i) (arrived (releaseFence (at_ (.barm st a i)) 1) four) (.barrier i.toNat) metSlot) ∧
      (MayIssue (info (.barm st a i)) s → (cp s).wait = some (.barrier i.toNat) →
        exec (.barm st a i) s = waits (.barm st a i) (at_ (.barm st a i)) (.barrier i.toNat) metSlot) ∧
      (MayIssue (info (.arrive st i)) s → free slot.members → exec (.arrive st i) s =
        .next (settled (info (.arrive st i)) s (arrived (releaseFence (at_ (.arrive st i)) 1) slot.members))) ∧
      (MayIssue (info (.await st i)) s → (cg s).owed.contains i.toNat = false →
        exec (.await st i) s = waits (.await st i) (at_ (.await st i)) (.barrier i.toNat) metSlot) ∧
      (MayIssue (info (.barc st)) s → (cp s).wait ≠ some .cluster →
        let e := releaseFence (at_ (.barc st)) 2
        let x := gangOf e (cb s).gang
        exec (.barc st) s = waits (.barc st) (settleGang (setGang e (cb s).gang
          { x with arrived := x.arrived ++ [s.cur], join := joinView x.join (coverOf e s.cur) }) (cb s).gang) .cluster metGang) ∧
      (MayIssue (info (.barc st)) s → (cp s).wait = some .cluster →
        exec (.barc st) s = waits (.barc st) (at_ (.barc st)) .cluster metGang) ∧
      (MayIssue (info (.barg st)) s → (∀ n, (cp s).wait ≠ some (.grid n)) →
        let e := releaseOnce (at_ (.barg st)) 5
        let x := kernOf e (cb s).kern
        let u := setKern e (cb s).kern { x with join := joinView x.join (coverOf e s.cur) }
        exec (.barg st) s = if waitHolds e .acks = true
          then waits (.barg st) (settleGrid (setCg u { cg u with bargs := (cg s).bargs + 1 }) (cb s).kern)
            (.grid ((cg s).bargs + 1)) metGrid
          else .next (waitingAt s e .acks)) ∧
      (∀ n, MayIssue (info (.barg st)) s → (cp s).wait = some (.grid n) →
        exec (.barg st) s = waits (.barg st) (at_ (.barg st)) (.grid n) metGrid) ∧
      (MayIssue (info (.barinit st a i)) s →
        let e := if slot.filling = true then barReset (at_ (.barinit st a i)) i.toNat false else at_ (.barinit st a i)
        exec (.barinit st a i) s = .next (settled (info (.barinit st a i)) s
          (setBar e i.toNat { barOf (cb e) i.toNat with members := four &&& existGroups e (cb e) }))) ∧
      UniResult (.barrd st d k i) s d.toNat (barrdValue s k.toNat i.toNat))

/-- R256 to R260: where an arrival at a slot traps or waits. It owes the BARMASK of a reset that discarded its last arrival; it
raises BARMASK where its mask leaves its own group out, and, resetting the slot, where its mask is not that of the phase under way;
a group that has already arrived in this phase waits. All but the second come after its release. -/
def Statements.BarrierTraps : Prop :=
  ∀ (s : State) (st : BitVec 2) (i : BitVec 3) (a : BitVec 5),
    let slot := barOf (cb s) i.toNat
    let four : Mask := uniPair s (4 * a.toNat + 2) ++ uniPair s (4 * a.toNat)
    let owed : Prop := (cg s).owed.contains i.toNat = true
    let paid (e : State) : State := setCg e { cg e with owed := (cg s).owed.erase i.toNat }
    let arrival (w : Instr) (mask : Mask) : Prop :=
      let e := releaseFence (entered (info w) s) 1
      let member := bitOf (mask &&& existGroups s (cb s)) (cg s).index
      MayIssue (info w) s → (cg s).two = false → (cp s).wait ≠ some (.barrier i.toNat) →
        (owed → exec w s = .next (trappedAt s (paid e) { code := .barmask })) ∧
        (¬ owed → member = false → exec w s = .next (takeTrap s s.cur { code := .barmask })) ∧
        (¬ owed → member = true → bitOf slot.arrived (cg s).index = true → exec w s = .next (waitingAt s e (.rearrive i.toNat))) ∧
        (¬ owed → member = true → bitOf slot.arrived (cg s).index = false → slot.filling = true →
          slot.mask &&& existGroups s (cb s) ≠ mask &&& existGroups s (cb s) →
          exec w s = .next (trappedAt s (barReset e i.toNat true) { code := .barmask }))
    arrival (.bar st i) slot.members ∧ arrival (.barm st a i) four ∧ arrival (.arrive st i) slot.members ∧
    (MayIssue (info (.await st i)) s → (cg s).two = false → owed →
      exec (.await st i) s = .next (trappedAt s (paid (entered (info (.await st i)) s)) { code := .barmask })) ∧
    ∀ (u : State) (self : Bool), (∀ g ∈ (cb u).groups, bitOf (barOf (cb u) i.toNat).arrived (grpOf u g).index = false ∨ (self = true ∧ g = u.cur)) →
      barReset u i.toNat self = setBar u i.toNat { barOf (cb u) i.toNat with filling := false, arrived := 0, mask := 0, join := {} }

/-- The barrier words: arrival, waiting, membership, reading and BARMASK. -/
def Obligations.BarrierWords : Prop := Statements.BarrierWords ∧ Statements.BarrierTraps

/-- R118, R149: LHEAD deals with the threads that the predicate selects in ascending order, going on after a wait with those not yet
dealt with; the threads it has come to, those that it leaves out among them, are marked as having been at a head (log entry 26). A
thread takes the next item of the block's queue; with the queue empty it leaves the execute mask; under replay it waits
for its recorded turn. -/
def Statements.LoopHead : Prop :=
  ∀ (s x : State) (st : BitVec 2) (p : BitVec 3) (n : BitVec 1) (t : Nat) (w : Wait) (m : Mask),
    m = (match (cp s).wait with
      | some (.item h) => h
      | _ => 0) →
    let e := entered (info (.lhead st p n)) s
    let ts := threadsOf (cg s).width (emask s &&& predNeg e p.toNat n &&& ~~~m)
    let u := markHeaded e (emask s &&& ~~~predNeg e p.toNat n)
    (ts = [] → MayIssue (info (.lhead st p n)) s → exec (.lhead st p n) s = .next (settled (info (.lhead st p n)) s u)) ∧
    (MayIssue (info (.lhead st p n)) s → loopHead u m ts = .done x →
      exec (.lhead st p n) s = .next (settled (info (.lhead st p n)) s x)) ∧
    (MayIssue (info (.lhead st p n)) s → loopHead u m ts = .wait x w → exec (.lhead st p n) s = .next (waitingAt s x w)) ∧
    (∀ (u : State) (h : Mask) (l : List Nat),
      (itemBlocked u (threadBase u (cg u) + t) = true →
        loopHead u h (t :: l) = .wait u (.item (h ||| BitVec.ofNat 128 (2 ^ t - 1)))) ∧
      (itemBlocked u (threadBase u (cg u) + t) = false → loopHead u h (t :: l) = loopHead (takeItem u t) (h ||| maskOf [t]) l)) ∧
    ((kernOf s (cb s).kern).mode = 0 → (cb s).qnext.toNat < (cb s).qend.toNat →
      itemBlocked s (threadBase s (cg s) + t) = false ∧ Map.look (cg (takeItem s t)).item t 0 = (cb s).qnext ∧
        (cb (takeItem s t)).qnext = (cb s).qnext + 1 ∧ emask (takeItem s t) = emask s) ∧
    ((kernOf s (cb s).kern).mode = 0 → (cb s).qend.toNat ≤ (cb s).qnext.toNat →
      cb (takeItem s t) = cb s ∧ ∀ th, bitOf (emask (takeItem s t)) th = (bitOf (emask s) th && decide (th ≠ t)))

/-- R94 to R98, R126, R132, R375: the words that start work elsewhere. Each waits until what its block holds is drained; QPUSH, LAUNCH
and HRING then release at package scope, SHAPE at pod scope. In a speculative block each holds its effect until the block commits. In
another a queue takes the image once it has room; a child launch is checked and submitted once there is room for it; a condition
register takes its new value; a host ring takes a record once it has room, or its flush; the hall an event once it has room. -/
def Statements.WorkWords : Prop :=
  ∀ (s : State) (st o : BitVec 2) (a c : BitVec 3) (q t j : BitVec 4) (b : BitVec 7) (h : BitVec 5) (f n : BitVec 1),
    let ctx := (cb s).ctx
    let at_ (i : Instr) : State := entered (info i) s
    let done (i : Instr) (e : State) : Host.Outcome State Fault Refusal := .next (settled (info i) s e)
    let once (e : State) (w : Wait) (r : Host.Outcome State Fault Refusal) : Host.Outcome State Fault Refusal :=
      if waitHolds e w = true then r else .next (waitingAt s e w)
    let drained : Prop := (cb s).spec = true ∨ ((cb s).held = [] ∧ (cb s).effects = [])
    let img (i : Instr) : Nat := imageAt (at_ i) a
    let rec' (i : Instr) : List Word := rsList (at_ i) (4 * h.toNat) 4
    let flush (e : State) : State := if f = 1 then ringFlush e ctx j.toNat else e
    let shape : Addr := uniPair s (4 * h.toNat)
    let words (i : Instr) : Prop := i = .qpush st a q ∨ (i = .launch st a ∧ qKind (img i) = 1 ∧ qFence (img i) = false ∧
      bitsOf (img i) 31 16 = 0) ∨ i = .arm st o b t c ∨ (i = .hring st h j f n ∧ ringEnabled s ctx j.toNat = true) ∨
      (i = .shape st h ∧ shape.toNat % 128 = 0 ∧ shape.toNat < 2 ^ 56)
    (∀ i, words i → ¬ drained → MayIssue (info i) s → exec i s = .next (waitingAt s (at_ i) .drained)) ∧
    (drained → MayIssue (info (.qpush st a q)) s → (queueOf s ctx q.toNat).fed = true → (queueOf s ctx q.toNat).enable = true →
      1 ≤ qKind (img (.qpush st a q)) → qKind (img (.qpush st a q)) ≤ 5 → queueTrap s ctx q.toNat = none →
      Releases (info (.qpush st a q)) s 4 false (exec (.qpush st a q) s) fun e =>
        if (cb s).spec = true then done (.qpush st a q) (holdEffect e (.qpush q.toNat (imageWords (img (.qpush st a q)))))
        else once e (.queueRoom q.toNat) (done (.qpush st a q) (pushQueue e ctx q.toNat (img (.qpush st a q))))) ∧
    (drained → MayIssue (info (.launch st a)) s → qKind (img (.launch st a)) = 1 → qFence (img (.launch st a)) = false →
      bitsOf (img (.launch st a)) 31 16 = 0 → Releases (info (.launch st a)) s 4 false (exec (.launch st a) s) fun e =>
        if (cb s).spec = true then done (.launch st a) (holdEffect e (.launch (imageWords (img (.launch st a)))))
        else once e .children (once e .hallRoom (done (.launch st a) (launchChild e (cb s).kern ctx (img (.launch st a)))))) ∧
    (drained → MayIssue (info (.arm st o b t c)) s → exec (.arm st o b t c) s = done (.arm st o b t c)
      (if (cb s).spec = true then holdEffect (at_ (.arm st o b t c)) (.arm t.toNat c.toNat o.toNat (uniReg s b.toNat))
        else armCond (at_ (.arm st o b t c)) ctx t.toNat c.toNat o.toNat (uniReg s b.toNat))) ∧
    (drained → MayIssue (info (.hring st h j f n)) s → ringEnabled s ctx j.toNat = true →
      (n = 0 → hringTrap s ctx j.toNat = none) → Releases (info (.hring st h j f n)) s 4 false (exec (.hring st h j f n) s) fun e =>
        if (cb s).spec = true then done (.hring st h j f n)
          (holdEffect e (.hring j.toNat (if n = 1 then none else some (rec' (.hring st h j f n))) (f == 1)))
        else if n = 1 then done (.hring st h j f n) (flush e)
        else once e (.hostRing j.toNat)
          (done (.hring st h j f n) (flush (ringWrite e ctx j.toNat (rec' (.hring st h j f n)))))) ∧
    (MayIssue (info (.shape st h)) s → shape.toNat % 128 = 0 → shape.toNat < 2 ^ 56 →
      ((cb s).spec = true → exec (.shape st h) s = done (.shape st h) (holdEffect (at_ (.shape st h))
        (.shape s.cur shape (uniReg s (4 * h.toNat + 2)) (uniReg s (4 * h.toNat + 3))))) ∧
      ((cb s).spec = false → drained → Releases (info (.shape st h)) s 5 false (exec (.shape st h) s) fun e =>
        once e .hallRoom (done (.shape st h) (shapeRelease
          (postResolve e ctx shape (uniReg s (4 * h.toNat + 2)) (uniReg s (4 * h.toNat + 3)))
          s.cur ctx shape (uniReg s (4 * h.toNat + 2)) (uniReg s (4 * h.toNat + 3)))))) ∧
    (MayIssue (info (.hpost st a)) s → inKernelMode s = true → recordOk (img (.hpost st a)) = true →
      exec (.hpost st a) s = once (at_ (.hpost st a)) .hallRoom
        (done (.hpost st a) (postEvent (at_ (.hpost st a)) (eventOf (img (.hpost st a))))))

/-- R94 to R98, R132, R375: where the words that start work elsewhere trap. QPUSH, after its release, raises PROT on a queue that does
not take its commands or is not enabled, ENTRY on a kind that is no command, and the trap of its entry's place; LAUNCH ENTRY on an image that is no plain
LAUNCH; HRING PROT on a ring that is not enabled, and the trap of its record's place; SHAPE ALIGN on its image; HPOST PROT outside the
service image, and ENTRY on a record that is no event. -/
def Statements.WorkTraps : Prop :=
  ∀ (s : State) (st : BitVec 2) (a : BitVec 3) (q j : BitVec 4) (h : BitVec 5) (f n : BitVec 1) (t : TrapReq),
    let ctx := (cb s).ctx
    let img (i : Instr) : Nat := imageAt (entered (info i) s) a
    let drained : Prop := (cb s).spec = true ∨ ((cb s).held = [] ∧ (cb s).effects = [])
    let x := queueOf s ctx q.toNat
    let qp : Instr := .qpush st a q
    let hr : Instr := .hring st h j f n
    let once (e : State) (w : Wait) : Host.Outcome State Fault Refusal :=
      if (cb s).spec = true ∨ waitHolds e w = true then .next (trappedAt s e t) else .next (waitingAt s e w)
    let shape : Addr := uniPair s (4 * h.toNat)
    (drained → MayIssue (info qp) s →
      (x.fed = false ∨ x.enable = false → Releases (info qp) s 4 false (exec qp s) fun e => .next (trappedAt s e { code := .prot })) ∧
      (x.fed = true → x.enable = true → qKind (img qp) = 0 ∨ 5 < qKind (img qp) →
        Releases (info qp) s 4 false (exec qp s) fun e => .next (trappedAt s e { code := .entry })) ∧
      (x.fed = true → x.enable = true → 1 ≤ qKind (img qp) → qKind (img qp) ≤ 5 → queueTrap s ctx q.toNat = some t →
        Releases (info qp) s 4 false (exec qp s) fun e => once e (.queueRoom q.toNat))) ∧
    (qKind (img (.launch st a)) ≠ 1 ∨ qFence (img (.launch st a)) = true ∨ bitsOf (img (.launch st a)) 31 16 ≠ 0 →
      Raises (.launch st a) s { code := .entry }) ∧
    (ringEnabled s ctx j.toNat = false → Raises hr s { code := .prot }) ∧
    (drained → ringEnabled s ctx j.toNat = true → n = 0 → hringTrap s ctx j.toNat = some t → MayIssue (info hr) s →
      Releases (info hr) s 4 false (exec hr s) fun e => once e (.hostRing j.toNat)) ∧
    (shape.toNat % 128 ≠ 0 ∨ 2 ^ 56 ≤ shape.toNat → Raises (.shape st h) s { code := .align, addr := shape }) ∧
    (inKernelMode s = false → Raises (.hpost st a) s { code := .prot }) ∧
    (inKernelMode s = true → recordOk (img (.hpost st a)) = false → Raises (.hpost st a) s { code := .entry })

/-- LHEAD, QPUSH, LAUNCH, ARM, HRING, SHAPE and HPOST: results and traps. -/
def Obligations.WorkWords : Prop := Statements.LoopHead ∧ Statements.WorkWords ∧ Statements.WorkTraps

/-- R99 to R103, R336 to R340: page faults and service calls. MAPFT maps a page and stores its status; FQPOST adds an entry and waits for
its answer, in the queue it was put in; FQTAKE takes the oldest entry, or 0; TLBINV drops cached translations, waits for the copies and the other members' operations that use
them, and answers faults; SVC hands a batch over, a speculative block holding it (R126), and takes its answer; SVCTAKE takes a batch, or 0, and SVCDONE answers it. -/
def Statements.ServiceWords : Prop :=
  ∀ (s : State) (st o : BitVec 2) (a : BitVec 5) (d4 : BitVec 4) (d5 : BitVec 5) (w : BitVec 1) (n : BitVec 15) (x y : BitVec 7)
    (e : FaultEntry) (r : State × List Word) (z : Area) (vs : List (BitVec 64)) (l m : Nat)
    (cs os : List (Nat × Nat)),
    let at_ (i : Instr) : State := entered (info i) s
    let done (i : Instr) (e : State) : Host.Outcome State Fault Refusal := .next (settled (info i) s e)
    let p : Addr := uniPair s (4 * a.toNat)
    let c := (uniReg s (4 * a.toNat + 2)).toNat
    let k := (uniReg s (4 * a.toNat + 3)).toNat
    let die := (cb s).die
    let mp : Instr := .mapft st o a
    (MayIssue (info mp) s → p.toNat < 2 ^ 56 → c % 4 = 0 → c + 4 ≤ (ck s).hdr.winbytes →
      (o = 0 → (cb s).kmode = false →
        let v := mapPage (at_ mp) true (cb s).ctx (cb s).part p.toNat (cb s).spec ((cb s).kern, (cb s).logical)
        exec mp s = done mp (storeBytes v.1 (.win (cg v.1).blk) c (wordBytes (BitVec.ofNat 32 v.2)))) ∧
      (o = 1 → inKernelMode s = true →
        let v := mapPage (at_ mp) false (k % 1024) (k / 2 ^ 24 % 32) p.toNat (cb s).spec ((cb s).kern, (cb s).logical)
        exec mp s = done mp (storeBytes v.1 (.win (cg v.1).blk) c (wordBytes (BitVec.ofNat 32 v.2)))) ∧
      (o = 2 → inKernelMode s = true → exec mp s = done mp (failContext (at_ mp) (k % 1024) (k / 2 ^ 24 % 32) p.toNat))) ∧
    (MayIssue (info (.fqpost st a)) s → (cb s).kmode = false → p.toNat < 2 ^ 56 →
      ((∀ y z, (cp s).wait ≠ some (.faultAnswer y z)) → (cb s).spec = false → (faultsOf s (cb s).part).entries.length < 64 →
        let v := postFault (at_ (.fqpost st a)) p (uniReg s (4 * a.toNat + 2)) (uniReg s (4 * a.toNat + 3))
        exec (.fqpost st a) s = .next (waitingAt s v.1 (.faultAnswer (cb s).part v.2))) ∧
      ((cp s).wait = some (.faultAnswer l m) → (faultsOf s l).entries.any (fun e => e.seq == m) = false →
        PathResult (.fqpost st a) s { cp s with pc := (cp s).pc + 4, stall := st.toNat, wait := none })) ∧
    (MayIssue (info (.fqtake st d4 w)) s → inKernelMode s = true →
      (faultToTake s die = some e → exec (.fqtake st d4 w) s = done (.fqtake st d4 w)
        (let q := faultsOf s (svcOf s die).part
         wsList (setFaults (at_ (.fqtake st d4 w)) (svcOf s die).part { q with
            entries := q.entries.map fun x => if x.seq = e.seq then { x with taken := true } else x })
          (8 * d4.toNat) ((e.words.getD 0 0 + BitVec.ofNat 32 (e.retry * 2 ^ 16)) :: e.words.drop 1))) ∧
      (faultToTake s die = none → w = 1 → exec (.fqtake st d4 w) s = .next (waitingAt s (at_ (.fqtake st d4 w)) .faultToTake)) ∧
      (faultToTake s die = none → w = 0 → UniResult (.fqtake st d4 w) s (8 * d4.toNat) 0)) ∧
    (MayIssue (info (.tlbinv st a)) s → inKernelMode s = true → p.toNat < 2 ^ 56 → 1 ≤ k → k ≤ 16384 →
      (ctxOf s (c % 1024)).st ≠ .free → (ctxOf s (c % 1024)).st ≠ .teardown →
      let e := at_ (.tlbinv st a)
      let page := p.toNat / 65536
      let ends (u : State) (v : Wait) : Host.Outcome State Fault Refusal :=
        if waitHolds u v = true then done (.tlbinv st a)
          (answerFaults (staleCopies u (c % 1024) page k fun _ => true) (c % 1024) page k) else .next (waitingAt s u v)
      ((cp s).wait = none → exec (.tlbinv st a) s = ends (invalidate e (c % 1024) page k)
        (.copiesDone page k (c % 1024) (touchingCopies e (c % 1024) page k) (touchingOps e (c % 1024) page k))) ∧
      ((cp s).wait = some (.copiesDone l m (c % 1024) cs os) →
        exec (.tlbinv st a) s = ends e (.copiesDone l m (c % 1024) cs os))) ∧
    (MayIssue (info (.svc st d5 n)) s → emask s ≠ 0 →
      ((∀ i, (cp s).wait ≠ some (.answer i)) →
        let u := at_ (.svc st d5 n)
        let x := batchOf u (4 * d5.toNat) n.toNat
        let later (e : State) : Host.Outcome State Fault Refusal := .next (waitingAt s { e with nextId := s.nextId + 1 } (.answer s.nextId))
        ((cb s).spec = true → exec (.svc st d5 n) s = later (holdEffect u (.svc x))) ∧
        ((cb s).spec = false → (cb s).held = [] → (cb s).effects = [] → (Map.look (cctx s).calls (cb s).part []).length < 16 →
          exec (.svc st d5 n) s = later (appendBatch u (cb s).ctx (cb s).part x))) ∧
      ((cp s).wait = some (.answer m) → Map.find (cg s).answered m = some (0, vs) → ∃ t, exec (.svc st d5 n) s = .next t ∧
        (∀ th, bitOf (emask s) th = true → lanePair t (4 * d5.toNat) th = vs.getD th 0) ∧ Map.find (cg t).answered m = none)) ∧
    (MayIssue (info (.svctake st d4 w)) s →
      (takeInto (at_ (.svctake st d4 w)) die = some r →
        exec (.svctake st d4 w) s = done (.svctake st d4 w) (wsList r.1 (8 * d4.toNat) r.2)) ∧
      (takeInto (at_ (.svctake st d4 w)) die = none → w = 1 →
        exec (.svctake st d4 w) s = .next (waitingAt s (noBatch (at_ (.svctake st d4 w)) die) .batchToTake)) ∧
      (takeInto (at_ (.svctake st d4 w)) die = none → w = 0 →
        exec (.svctake st d4 w) s = done (.svctake st d4 w) (ws (noBatch (at_ (.svctake st d4 w)) die) (8 * d4.toNat) 0))) ∧
    (MayIssue (info (.svcdone st x y)) s → m < 32 → uniReg s x.toNat = BitVec.ofNat 32 (2 ^ 31 + m) →
      Map.find (svcOf s die).areas m = some z → exec (.svcdone st x y) s =
        done (.svcdone st x y) (answerBatch (at_ (.svcdone st x y)) die m z (uniReg s y.toNat).toNat))

/-- R99, R103, R336 to R340: where page and service words trap, at which address (log entry 68), wait, or do nothing. MAPFT checks its pointer, its status word and then its
mode; FQPOST and TLBINV theirs; FQPOST waits for its block's commit, for room and for its answer; TLBINV of a context that is FREE or in
teardown does nothing, as SVCDONE of a batch that is not out; SVC waits for what its block holds, for room in its call ring and for its answer,
and a status other than 0 raises SVCFAIL. -/
def Statements.ServiceTraps : Prop :=
  ∀ (s : State) (st o : BitVec 2) (a : BitVec 5) (d4 : BitVec 4) (d5 : BitVec 5) (w : BitVec 1) (n : BitVec 15) (x y : BitVec 7)
    (l m : Nat) (status : Nat) (vs : List (BitVec 64)),
    let p : Addr := uniPair s (4 * a.toNat)
    let c := (uniReg s (4 * a.toNat + 2)).toNat
    let k := (uniReg s (4 * a.toNat + 3)).toNat
    let next (i : Instr) : Machine.Path := { cp s with pc := (cp s).pc + 4, stall := (info i).stall, wait := none }
    let waits (i : Instr) (w : Wait) : Prop := MayIssue (info i) s → exec i s = .next (waitingAt s (entered (info i) s) w)
    let mp : Instr := .mapft st o a
    let fp : Instr := .fqpost st a
    let ti : Instr := .tlbinv st a
    let sv : Instr := .svc st d5 n
    let asked : Prop := ∃ z, (cp s).wait = some (.answer z)
    let allowed : Prop := if o = 0 then (cb s).kmode = false else inKernelMode s = true
    (2 ^ 56 ≤ p.toNat → Raises mp s { code := .align, addr := p } ∧ Raises fp s { code := .align, addr := p } ∧
      Raises ti s { code := .align, addr := p }) ∧
    (p.toNat < 2 ^ 56 →
      (c % 4 ≠ 0 → Raises mp s { code := .align, addr := BitVec.ofNat 64 c }) ∧
      (c % 4 = 0 → (ck s).hdr.winbytes < c + 4 → Raises mp s { code := .bound, addr := BitVec.ofNat 64 c }) ∧
      (c % 4 = 0 → c + 4 ≤ (ck s).hdr.winbytes → ¬ allowed → Raises mp s { code := .prot }) ∧
      ((cb s).kmode = true → Raises fp s { code := .prot }) ∧
      (k = 0 ∨ 16384 < k → Raises ti s { code := .bound }) ∧
      (1 ≤ k → k ≤ 16384 → inKernelMode s = false → Raises ti s { code := .prot }) ∧
      (1 ≤ k → k ≤ 16384 → inKernelMode s = true → (ctxOf s (c % 1024)).st = .free ∨ (ctxOf s (c % 1024)).st = .teardown →
        PathResult ti s (next ti)) ∧
      ((cb s).kmode = false → (∀ y z, (cp s).wait ≠ some (.faultAnswer y z)) →
        ((cb s).spec = true → waits fp .commit) ∧
        ((cb s).spec = false → 64 ≤ (faultsOf s (cb s).part).entries.length → waits fp .faultRoom)) ∧
      ((cb s).kmode = false → (cp s).wait = some (.faultAnswer l m) → (faultsOf s l).entries.any (fun e => e.seq == m) = true →
        waits fp (.faultAnswer l m))) ∧
    (inKernelMode s = false → Raises (.fqtake st d4 w) s { code := .prot }) ∧
    (emask s ≠ 0 →
      (¬ asked → (cb s).spec = false → (cb s).held ≠ [] ∨ (cb s).effects ≠ [] → waits sv .drained) ∧
      (¬ asked → (cb s).spec = false → (cb s).held = [] → (cb s).effects = [] → 16 ≤ (Map.look (cctx s).calls (cb s).part []).length →
        waits sv (.callRing n.toNat)) ∧
      ((cp s).wait = some (.answer m) → Map.find (cg s).answered m = none → waits sv (.answer m)) ∧
      ((cp s).wait = some (.answer m) → Map.find (cg s).answered m = some (status, vs) → status ≠ 0 → MayIssue (info sv) s →
        exec sv s = .next (trappedAt s (setCg (entered (info sv) s) { cg (entered (info sv) s) with
          answered := Map.del (cg s).answered m }) { code := .svcfail }))) ∧
    ((∀ z, z < 32 → uniReg s x.toNat = BitVec.ofNat 32 (2 ^ 31 + z) → Map.find (svcOf s (cb s).die).areas z = none) →
      PathResult (.svcdone st x y) s (next (.svcdone st x y)))

/-- R100, R102, R337: at a boundary the batches and faults taken and not answered go back, the die's kernel-mode blocks stop, and the
next partition that has a slice has its own, 64 periods a unit. -/
def Statements.ServiceSlices : Prop :=
  ∀ (s : State) (d p : Nat),
    let u := endSlice s d
    (d < 4 → (svcOf u d).areas = [] ∧ ∀ e ∈ (faultsOf u (svcOf s d).part).entries, e.taken = false) ∧
    (d < 4 → nextSlice u d = some p → Comes (.serviceSliceBoundary d) s fun t => (svcOf t d).part = p ∧
      (svcOf t d).stop = s.time + 64 * Map.look s.pkg.slices p 0 ∧ (svcOf t d).areas = [] ∧
      0 < Map.look u.pkg.slices p 0 ∧ 6 * d ≤ p ∧ p < 6 * d + 6) ∧
    (d < 4 → nextSlice u d = none → Comes (.serviceSliceBoundary d) s fun t => t = u) ∧
    (4 ≤ d → Comes (.serviceSliceBoundary d) s fun t => t = s)

/-- Page faults, service calls and the slices of the service cores: results and traps. -/
def Obligations.ServiceWords : Prop := Statements.ServiceWords ∧ Statements.ServiceTraps ∧ Statements.ServiceSlices

/-! ### Groups, gangs and engines -/

/-- R38, R136, R236: a group whose wait is over is RUNNABLE again, and nothing else changes; a pending store that no earlier one of
its group overlaps, and that no store of its core that the group has read overlaps, is performed at its home, and no other byte changes. -/
def Statements.GroupEvents : Prop :=
  ∀ (s : State) (g i : Nat) (p : PendStore),
    ((grpOf s g).state = .waiting → (armOrder (grpOf s g)).any (pathReady { s with cur := g }) = true →
      Comes (.groupWaitEnds g) s fun t => grpOf t g = { grpOf s g with state := .runnable } ∧
        (∀ x, x ≠ g → grpOf t x = grpOf s x) ∧ { t with groups := s.groups } = s) ∧
    ((grpOf s g).stores[i]? = some p → (∀ q ∈ (grpOf s g).stores.take i, storeMeets p q = false) →
      (∀ h ∈ s.groups, h.1 ≠ g → ∀ q ∈ h.2.stores, q.peeked.contains g = true → storeMeets p q = false) → (memOf s p.mem).wf = true →
      (∀ b, p.mem = .ring b → p.addr + p.bytes.length ≤ 4096) → unread s p.mem p.addr p.bytes.length →
      Comes (.storePerformed g i) s fun t => (grpOf t g).stores.map storeCell = ((grpOf s g).stores.eraseIdx i).map storeCell ∧
        (∀ k, k < p.bytes.length → homeByte t p.mem (p.addr + k) = byteAt p.bytes k) ∧
        ∀ m a, storeCovers m a p = false → homeByte t m a = homeByte s m a)

/-- R112, R113: a block whose groups are RETIRED with their remote writes acknowledged, whose commands have completed and whose held
writes are performed, goes; the last one of a rank that has nothing left to distribute posts FINISH. -/
def Statements.BlockEnds : Prop :=
  ∀ (s : State) (b : Nat),
    let k := blkOf s b
    let x := kernOf s k.kern
    let u := removeBlock (retireRelease (setKern s k.kern { x with reqs := if k.stepReq then x.reqs ++ [k.rank] else x.reqs }) b) b
    (canRetire s b = true → (s.blocks.map Prod.fst).Nodup →
      Comes (.blockRetire b) s fun t => Map.find t.blocks b = none ∧ (∀ g ∈ k.groups, Map.find t.groups g = none) ∧
        (rankDone u k.kern k.rank = false → t = u) ∧
        (rankDone u k.kern k.rank = true → k.rank ∈ (kernOf t k.kern).finished ∧
          (s.hall.pending ++ s.hall.backlog).length < (t.hall.pending ++ t.hall.backlog).length)) ∧
    ((∃ g ∈ k.groups, (grpOf s g).state ≠ .retired ∨ (grpOf s g).ack ≠ 0) ∨ k.spec = true ∨ k.trapped = true ∨ k.held ≠ [] →
      Comes (.blockRetire b) s fun t => t = s)

/-- Waits end, stores are performed, and blocks and ranks end. -/
def Obligations.GroupEvents : Prop := Statements.GroupEvents ∧ Statements.BlockEnds

/-- R52, R90, R106 to R111, R218: the constant banks that no block holds any more go first. Then a rank's next gang takes the lowest cluster it fits on, all its blocks at one moment; it waits for room, for an
earlier gang of its rank, and for a kernel that goes first. An image that no longer parses, or a bank or data section that cannot be read,
fails the rank, with the code of the read (log entry 40). At release every group is RUNNABLE at its entry with all its threads, s0 to s7 holding the arguments and the other
uniform registers zero, and the block window holds the data section, then zeros. -/
def Statements.GangStarts : Prop :=
  ∀ (s s' : State) (k r q c base gang b g : Nat) (places : List (List (Nat × Nat × Nat × Nat))) (w : TrapCode × Nat),
    let s0 := dropBanks s
    let fit := gangFit s' k r (List.range (gangBlocks s' k r q).length)
    (distributes s k = true → (Map.look (kernOf s k).todo r []).isEmpty = false → outranked s0 k r = false →
      ((kernOf s k).read.contains r = true → nextGang s0 k r = some (q, s') → heldBack s' k r q = false → fit = some (c, base, places) →
        Comes (.gangPlace k r) s fun t => (gangOf t s'.nextId).kern = k ∧ (gangOf t s'.nextId).rank = r ∧ (gangOf t s'.nextId).index = q ∧
          (gangOf t s'.nextId).cluster = c ∧ (gangOf t s'.nextId).released = false ∧
          (gangOf t s'.nextId).blocks.length = (gangBlocks s' k r q).length ∧
          Map.look (kernOf t k).todo r [] = (Map.look (kernOf s' k).todo r []).erase q) ∧
      ((kernOf s k).read.contains r = true → nextGang s0 k r = some (q, s') → heldBack s' k r q = true ∨ fit = none →
        Comes (.gangPlace k r) s fun t => t = s0) ∧
      ((kernOf s k).read.contains r = false → (rankClusters s0 k r).head? = some c →
        Comes (.gangPlace k r) s fun t => t = if refuseCode s0 (kernOf s k).ctx (kernOf s k).image = 0 then tryPlace (readKernel s0 k r) k r
          else failRank s0 k r (c / 2) .illop none)) ∧
    (outranked s0 k r = true → Comes (.gangPlace k r) s fun t => t = s0) ∧
    (let x := gangOf s gang
     let y := kernFor s (blkOf s b)
     (Map.find s.gangs gang).isSome = true → x.released = false → x.saved = false →
      (gangError s0 gang = some w →
        Comes (.gangRelease gang) s fun t => t = failRank (removeAll s0 x.blocks) x.kern x.rank (x.cluster / 2) w.1 (some w.2)) ∧
      (gangError s0 gang = none → b ∈ x.blocks → g ∈ (blkOf s b).groups → (Map.find s.groups g).isSome = true →
        (∀ d ∈ x.blocks, g ∈ (blkOf s d).groups → d = b) →
        Comes (.gangRelease gang) s fun t => (gangOf t gang).released = true ∧ (grpOf t g).state = .runnable ∧
          (grpOf t g).live = fullMask (grpOf s g).width ∧
          (grpOf t g).pathA = { pc := codeBase y + (grpOf s g).entry, mask := fullMask (grpOf s g).width
                                scope := fullMask (grpOf s g).width } ∧
          (∀ i, Map.look (grpOf t g).s i 0 = if i < 8 then y.args.getD i 0 else 0) ∧
          (blkOf t b).win = writeBytes [] 0 (vaRead s y.ctx (y.image + y.hdr.dataoff) y.hdr.datalen) ∧ (blkOf t b).released = s.time))

/-- R163 to R166: a request names blocks, and takes each gang that holds one in turn: one not yet released goes back to be distributed,
one whose drain estimate is within the bound drains, one where that is longer and the save estimate within it is saved; a saved one
can only be discarded. A saved gang whose blocks are quiet resumes on the lowest cluster it fits on, behind no earlier one of its rank
and no kernel that goes first (R90); its groups go on where they waited, a SLEEP and a SLEEPW anew (log entry 31). -/
def Statements.Preemption : Prop :=
  ∀ (s : State) (blocks : List Nat) (bound id c base g : Nat) (places : List (List (Nat × Nat × Nat × Nat))),
    let q := gangOf s id
    Comes (.preempt blocks bound) s (fun t => t = (gangsWith s blocks).foldl (preemptGang bound) s) ∧
    ((Map.find s.gangs id).isSome = true →
      (q.released = false → preemptGang bound s id = flushGang s q) ∧
      (q.released = true → q.saved = true → chooseMethod s q bound = .blockFlush → preemptGang bound s id = flushGang s q) ∧
      (q.released = true → q.saved = true → chooseMethod s q bound ≠ .blockFlush → preemptGang bound s id = s) ∧
      (q.released = true → q.saved = false → within bound (estimate s q .drain) = true →
        (gangOf (preemptGang bound s id) id).draining = true ∧ { preemptGang bound s id with gangs := s.gangs } = s) ∧
      (q.released = true → q.saved = false → within bound (estimate s q .drain) = false → within bound (estimate s q .save) = true →
        (gangOf (preemptGang bound s id) id).saved = true)) ∧
    (q.saved = true → distributes s q.kern = true → q.blocks.all (blockQuiet s) = true → heldBack s q.kern q.rank q.index = false →
      outranked (dropBanks s) q.kern q.rank = false →
      gangFit (dropBanks s) q.kern q.rank (q.blocks.map (gangPos (dropBanks s))) = some (c, base, places) →
      bankError (resumeGang (dropBanks s) id c base places) id = none →
      Comes (.gangResume id) s fun t => (gangOf t id).saved = false ∧ (gangOf t id).cluster = c ∧
        (q.regionFlushed = false → (∀ b ∈ q.blocks, g ∈ (blkOf s b).groups → (grpOf s g).state = .preempted →
          let y := { grpOf s g with pathA := reissue (grpOf s g).pathA, pathB := reissue (grpOf s g).pathB }
          (grpOf t g).state = if anyWait y then .waiting else .runnable)))

/-- Gangs are placed, released, pre-empted and resumed. -/
def Obligations.GangEvents : Prop := Statements.GangStarts ∧ Statements.Preemption

/-- R278, R281: the copy engine starts the lowest command that has not started, once its guard is true and its order, budget and frames
let it; while no command may start, nothing starts. A chunk of a started row copy that is written whole is counted, unless the copy
writes what it reads. -/
def Statements.CopyStarts : Prop :=
  ∀ (s s' : State) (b n x : Nat) (c : Cmd),
    let u := settleCopy 64 s b
    let img := natOfWords c.img
    (copyReady u b = none → Comes (.copyCommandStart b) s fun t => t = u) ∧
    (copyReady u b = some c → Comes (.copyCommandStart b) s fun t => t = startCopy u b c) ∧
    (copyReady u b = some c → c ∈ (blkOf u b).copy.cmds ∧ c.phase = .queued ∧ guardRes (blkOf u b) (cGuard img) c.gen = some true ∧
      (cOrder img = true → (blkOf u b).copy.done + 1 = c.seq) ∧ (blkOf u b).trapped = false ∧
      (∀ f ∈ touchedFrames u b c, (ownOf u f).bias < 2) ∧
      ((blkOf u b).copy.cmds.filter fun y => y.phase == .started).length < 16) ∧
    (stages u b img = false → cRemote img c.xs = false → cRadd img = false → startCopy u b c =
      setCopyCmd (chargeBudget u (blkOf u b).ctx 0 (blkOf u b).part (copyBytes img)) b
        { c with phase := .started, touched := touchedPages (chargeBudget u (blkOf u b).ctx 0 (blkOf u b).part (copyBytes img)) b c }) ∧
    ((blkOf s b).copy.cmds.find? (fun c => c.seq == n) = some c → movesRows c = true → x ∈ c.chunks → selfOverlap s b c = false →
      runCopy s b c ((piecesOf img c).filter fun p => pieceChunk img p == x) = (s', none) →
      Comes (.copyChunkDone b n x) s fun t =>
        Map.look (blkOf t b).chunks x 0 = Map.look (blkOf s' b).chunks x 0 - 1 ∧
        (∀ y, y ≠ x → Map.look (blkOf t b).chunks y 0 = Map.look (blkOf s' b).chunks y 0) ∧ { t with blocks := s'.blocks } = s')

/-- R271, R274, R279: a completed local command has moved its rows, or performed its atomic, and has its status; a failing row leaves its
own status and address. A piece of a window row is copied whole, byte for byte. -/
def Statements.CopyCompletes : Prop :=
  ∀ (s s' : State) (b n : Nat) (c : Cmd) (st : CmdStatus) (a : Nat) (rs : List (MemName × Nat × Nat)) (p : Piece),
    let img := natOfWords c.img
    let src := (cSrc img).off + p.row * cSStride img + p.off
    let dst := (cDst img).off + p.row * cDStride img + p.off
    let home : MemName := if (cDst img).space = 0 then .win b else dieName (blkOf s b)
    ((blkOf s b).copy.cmds.find? (fun c => c.seq == n) = some c → copyCan s b c = true → cRemote img c.xs = false →
      (c.outcome = none → cKind img ≠ 3 → runCopy s b c (piecesLeft img c) = (s', none) →
        Comes (.copyCommandComplete b n) s fun t => t = endCopy s' b n .ok 0 0) ∧
      (c.outcome = none → cKind img ≠ 3 → runCopy s b c (piecesLeft img c) = (s', some (st, a)) →
        Comes (.copyCommandComplete b n) s fun t => t = endCopy s' b n st a 0) ∧
      (c.outcome = none → cKind img = 3 → runAtom s b img c = (s', none) →
        Comes (.copyCommandComplete b n) s fun t => t = endCopy s' b n .ok 0 0) ∧
      (c.outcome = some st → Comes (.copyCommandComplete b n) s fun t => t = settleCopy 64 (finishCopy s b c st c.owedAcks) b)) ∧
    ((blkOf s b).spec = false → cKind img = 0 → (cSrc img).space = 0 → (cDst img).space ≠ 1 → p.len % 4 = 0 → src % 4 = 0 →
      gangHeld s b = [] → (blkOf s b).held = [] → (∀ k, k < p.len → eccAt s [] (.win b) (src + k) 1 = false ∧ earlyRead s (grpOf s c.grp).view (.win b) (src + k) = false) →
      (∀ r ∈ rs, r.1 = home → dst + p.len ≤ r.2.1 ∨ r.2.1 + r.2.2 ≤ dst) → (cDst img).space ≤ 2 →
      runPieces b img c rs [p] s =
        (copyWrite s b c.seq c.grp home dst ((List.range p.len).map fun k => homeByte s (.win b) (src + k)), none))

/-- The copy engine starts, counts chunks and completes (data moved at completion: log entry 41). -/
def Obligations.CopyEvents : Prop := Statements.CopyStarts ∧ Statements.CopyCompletes

/-- R275, R82, R333: an ordered reduction waits until the turn word holds its index; then its word is added and the turn word advances.
One whose context is torn down here adds nothing, nor does one that its frame's owner refuses or an error meets when its turn comes
(when they are asked is log entry 29). -/
def Statements.OrderedReductions : Prop :=
  ∀ (s : State) (i : Nat) (v : Word) (w : RaddWord) (c : Contribution),
    let a := w.pa
    let p := c.turn.pa
    s.links.contribs[i]? = some c →
    (contribDead s c = false → (homeWord s .dev p).toNat ≠ c.want → Comes (.orderedReductionApply i) s fun t => t = s) ∧
    (contribDead s c = true → Comes (.orderedReductionApply i) s fun t => t.dev = s.dev ∧ t.links.contribs = s.links.contribs.eraseIdx i) ∧
    (contribDead s c = false → (homeWord s .dev p).toNat = c.want → (raddFault s c).isSome = true →
      Comes (.orderedReductionApply i) s fun t => t.dev = s.dev ∧ t.links.contribs = s.links.contribs.eraseIdx i) ∧
    (contribDead s c = false → (homeWord s .dev p).toNat = c.want → raddFault s c = none → c.words = [w] → w.val = some v →
      s.dev.wf = true → (a + 4 ≤ p ∨ p + 4 ≤ a) →
      Comes (.orderedReductionApply i) s fun t =>
        homeWord t .dev a = BitVec.ofNat 32 (fAdd fp32 (homeWord s .dev a).toNat v.toNat) ∧
        homeWord t .dev p = homeWord s .dev p + 1 ∧ t.links.contribs = s.links.contribs.eraseIdx i ∧
        ∀ x, (x < a ∨ a + 4 ≤ x) → (x < p ∨ p + 4 ≤ x) → homeByte t .dev x = homeByte s .dev x)

/-- R126, R128: a speculative block drains nothing, and nothing drains while a get of its gang is under way. Another performs its next
held write at its home, where the frame is still its world's under the same key, and drops one that is not with the status OWNER;
once no write is held, its next held effect, which may have to wait. -/
def Statements.HeldWritesDrain : Prop :=
  ∀ (s s' : State) (b : Nat) (e : HeldEntry) (h : HeldEffect) (l : List HeldEffect),
    let k := blkOf s b
    let o := ownOf s (e.addr / 65536)
    let u := setBlk s b { k with effects := l }
    (k.spec = true ∨ (gangOf s k.gang).saved = true ∨ k.trapped = true ∨ getUnderWay s b = true →
      Comes (.holdDrain b) s fun t => t = s) ∧
    (k.spec = false → (gangOf s k.gang).saved = false → k.trapped = false → getUnderWay s b = false →
      (nextHeld k = some e → e.remote = false → e.atomic = none → e.radd = none → e.mem = .dev →
        (o.world = k.world → o.key = e.key → s.dev.wf = true →
          Comes (.holdDrain b) s fun t => (blkOf t b).held = k.held.filter (fun x => x.seq != e.seq) ∧
            (∀ j, j < e.data.length → homeByte t .dev (e.addr + j) = byteAt e.data j) ∧
            ∀ x, (x < e.addr ∨ e.addr + e.data.length ≤ x) → homeByte t .dev x = homeByte s .dev x) ∧
        (o.world ≠ k.world ∨ o.key ≠ e.key → Comes (.holdDrain b) s fun t =>
          (blkOf t b).held = k.held.filter (fun x => x.seq != e.seq) ∧ t.dev = s.dev ∧
            (match (blkOf s b).copy.cmds.find? fun c => c.seq == e.cmdSeq with
              | some c => ∀ d ∈ (blkOf t b).copy.cmds, d.seq = c.seq → d.phase = .done .owner
              | none => True))) ∧
      (k.held = [] → k.effects = h :: l →
        (performEffect u k.kern k.ctx h = some s' → Comes (.holdDrain b) s fun t => t = s') ∧
        (performEffect u k.kern k.ctx h = none → Comes (.holdDrain b) s fun t => t = s)))

/-- Ordered reductions take their turn (a refused one: log entry 29), and held writes drain when their block is not speculative. -/
def Obligations.HeldWrites : Prop := Statements.OrderedReductions ∧ Statements.HeldWritesDrain

/-- R291 to R297: the matrix sequencer starts the lowest-numbered entry whose guard is true and whose predecessors have completed; at
completion, of a command beside which no unordered one has run and which must see every write to its window, an MMA has added its products to its tile in order, ACCZ has zeroed
its tiles, LDST has filled its slot, and nothing else of the tiles changes. -/
def Obligations.MatrixCommands : Prop :=
  ∀ (s : State) (b n : Nat) (c : Cmd),
    let k := blkOf s b
    let m := k.touches.find? fun t => t.seq == n
    let img := natOfWords c.img
    let w (i : Nat) : Nat := imgWord img i
    let half (m : MemName) (a : Nat) : Nat := natOfBytes [homeByte s m a, homeByte s m (a + 1)]
    let f := if cFn img = 0 then bf16 else fp16
    let x (i j : Nat) : FVal := fval f (half (.win b) (4 * bitsOf (w 3) 21 0 + i * (4 * bitsOf (w 4) 15 0) + 2 * j))
    let y (i j : Nat) : FVal := fval f (half (.slot b) (32768 * bitsOf (w 5) 6 0 + 2 * (128 * i + j)))
    let tile (z : Nat) : Nat := 16384 * bitsOf (w 7) 2 0 + z
    (matrixNext s b = some c → Comes (.matrixCommandStart b) s fun t =>
      (∀ d ∈ (blkOf t b).matrix.cmds, d.seq = c.seq → d.phase = .started) ∧ (blkOf t b).tiles = k.tiles ∧ (blkOf t b).slots = k.slots) ∧
    (matrixNext s b = some c → matrixReady (settleMatrix k) c = true ∧ ∃ l₁ l₂, (settleMatrix k).matrix.cmds = l₁ ++ c :: l₂ ∧
      ∀ d ∈ l₁, matrixReady (settleMatrix k) d = false) ∧
    (∀ g, k.matrix.cmds.find? (fun c => c.seq == n) = some c → c.phase = .started → m = some g → rivals k g = [] → g.dirty = [] →
      matrixEcc s k b g = none → k.slots.wf = true →
      (∀ a e, (hits (.win b) a 4 s.log).head? = some e → mustSee g.grp g.born (portView { blk := b, t := g, taint := [] }) e = true) →
      (cKind img = 3 → Comes (.matrixCommandComplete b n) s fun t =>
        (∀ i j, i < 8 → j < 16384 → Map.look (blkOf t b).tiles (16384 * i + j) 0 =
          if w 7 / 2 ^ i % 2 = 1 then 0 else Map.look k.tiles (16384 * i + j) 0) ∧ (blkOf t b).slots = k.slots) ∧
      (cKind img = 2 → (endpointAt img 3).space = 0 → Comes (.matrixCommandComplete b n) s fun t =>
        (∀ i, i < 256 * (bitsOf (w 6) 15 8 + 1) → readB (blkOf t b).slots (32768 * bitsOf (w 5) 6 0 + 256 * bitsOf (w 6) 6 0 + i) =
          homeByte s (.win b) ((endpointAt img 3).off + i)) ∧ (blkOf t b).tiles = k.tiles) ∧
      (cKind img = 0 → mGenSide img 3 = none → mGenSide img 5 = none → Comes (.matrixCommandComplete b n) s fun t =>
        (∀ i j, i < mRows img → j < 128 → Map.look (blkOf t b).tiles (tile (128 * i + j)) 0 =
          BitVec.ofNat 32 ((List.range 8).foldl (fun a g => accAdd a ((List.range 16).map fun l =>
            fMulVal (x i (16 * g + l)) (y (16 * g + l) j))) (Map.look k.tiles (tile (128 * i + j)) 0).toNat)) ∧
        ∀ z, (z < tile 0 ∨ tile (128 * mRows img) ≤ z) → Map.look (blkOf t b).tiles z 0 = Map.look k.tiles z 0))

/-! ### Queues and contexts -/

/-- R84 to R88: a queue starts its next command once it may: it is counted as started, and an image that fails a check has its error for
an outcome, which halts the queue. A launch posts its SUBMIT; a WAIT whose word has not satisfied it stalls the queue until it does; a SIGNAL makes
one 8-byte write; a GRAPH takes its slot. What may not start has no effect. -/
def Statements.QueueCommands : Prop :=
  ∀ (s : State) (ctx q n e m : Nat) (mem : MemName) (a : Nat),
    let c : CmdRef := .cmd ctx q n
    let x := queueOf s ctx q
    let img := cmdImg s ctx q n
    let u := putQueue s ctx q { x with st := .running, met := false, head := n + 1, cmds := x.cmds ++ [{ seq := n, img := imageWords img }] }
    let err := commandError s ctx false img (qKind img == 5 && (graphOf s ctx (bitsOf img 163 160)).running)
    let wild (i : Instr) : Prop := Comes i s fun t => t = s
    let new : Nat := if bitsOf img 193 192 = 1 then (natOfBytes (vaRead u ctx (bitsOf img 127 64) 8) + bitsOf img 191 128) % 2 ^ 64
      else bitsOf img 191 128
    (canStart s ctx q = false ∨ x.head ≠ n → wild (.launchCmd c) ∧ wild (.copy c) ∧ wild (.wait c) ∧ wild (.signal c) ∧ wild (.graph c) ∧
      wild (.waitReevaluate c)) ∧
    (canStart s ctx q = true → x.head = n →
      (e = err → e ≠ 0 → ∀ i : Instr, (i = .launchCmd c ∧ startKind false (qKind img) = 1) ∨ (i = .copy c ∧ qKind img = 2) ∨
        (i = .wait c ∧ qKind img = 3) ∨ (i = .signal c ∧ qKind img = 4) ∨ (i = .graph c ∧ qKind img = 5) →
        Comes i s fun t => t = outCmd u ctx q n e) ∧
      (err = 0 → qKind img = 1 → Comes (.launchCmd c) s fun t => t = postSubmit u { ref := some c, ctx := ctx, queue := q } img x.prio n) ∧
      (err = 0 → qKind img = 3 → waitOk s ctx img = false → x.met = false → Comes (.wait c) s fun t => t = putQueue s ctx q { x with st := .stalled }) ∧
      (err = 0 → qKind img = 3 → waitOk s ctx img = true ∨ x.met = true →
        (Comes (.wait c) s fun t => t = outCmd u ctx q n 0) ∧
        (x.st = .stalled → Comes (.waitReevaluate c) s fun t => t = outCmd u ctx q n 0)) ∧
      (err = 0 → qKind img = 4 → vaMem u ctx (bitsOf img 127 64) = some (mem, a) →
        Comes (.signal c) s fun t => t = outCmd (homeWrite u mem a (bytesOfNat 8 new)) ctx q n 0) ∧
      (err = 0 → qKind img = 5 → m = bitsOf img 163 160 → Comes (.graph c) s fun t => (graphOf t ctx m).running = true ∧
        (graphOf t ctx m).queue = q ∧ (graphOf t ctx m).seq = n ∧ (graphOf t ctx m).nodes = bitsOf img 135 128 + 1 ∧
        (graphOf t ctx m).limit = bitsOf img 151 136 ∧
        ∀ i, i < 8 → Map.look (graphOf t ctx m).c i 0 = BitVec.ofNat 32 (bitsOf img (152 + i) (152 + i)))) ∧
    (e ≠ 0 → x.st ≠ .off → (∃ r ∈ x.cmds, r.seq = n ∧ r.out = none) → (queueOf (outCmd s ctx q n e) ctx q).st = .halted ∧
      (queueOf (outCmd s ctx q n e) ctx q).err = e ∧ (queueOf (outCmd s ctx q n e) ctx q).errSeq = n)

/-- R85: COPY moves its bytes a granule at a time to where the destination lies. A destination byte that the source range overlaps is
undefined; the model leaves one undefined too where its source byte holds an error, and reads ADDR for an address that is mapped and
fails another check (log entry 45). Any other byte is the source's. -/
def Statements.QueueCopies : Prop :=
  ∀ (s u : State) (ctx q n i a src dst len : Nat) (m : MemName) (ps : Nat → MemName × Nat),
    let c : CmdRef := .cmd ctx q n
    let x := queueOf s ctx q
    let img := cmdImg s ctx q n
    let started := putQueue s ctx q { x with st := .running, met := false, head := n + 1, cmds := x.cmds ++ [{ seq := n, img := imageWords img }] }
    let paid := chargeBudget (setFresh started (started.fresh + 1)) ctx 0 (lowPart started ctx) (bitsOf img 231 192)
    (canStart s ctx q = true → x.head = n → qKind img = 2 → commandError s ctx false img false = 0 →
      Comes (.copy c) s fun t => t = outCmd ((List.range (bitsOf img 231 192 / 64)).foldl
        (copyGranule paid ctx (bitsOf img 127 64) (bitsOf img 191 128) (bitsOf img 231 192)) paid) ctx q n 0) ∧
    (vaMem s ctx (dst + 64 * i) = some (m, a) → (∀ j, j < 64 → vaMem s ctx (src + 64 * i + j) = some (ps j) ∧
        eccAt s [] (ps j).1 (ps j).2 1 = false) →
      (src + len ≤ dst + 64 * i ∨ dst + 64 * i + 64 ≤ src) →
      copyGranule s ctx src dst len u i = homeWrite u m a ((List.range 64).map fun j => homeByte s (ps j).1 (ps j).2)) ∧
    (vaMem s ctx (dst + 64 * i) = some (m, a) → ∃ bs : List Byte, bs.length = 64 ∧ copyGranule s ctx src dst len u i = homeWrite u m a bs ∧
      ∀ j, j < 64 → vaMem s ctx (src + 64 * i + j) = some (ps j) →
        (¬ (src ≤ dst + 64 * i + j ∧ dst + 64 * i + j < src + len) → eccAt s [] (ps j).1 (ps j).2 1 = false →
          bs[j]? = some (homeByte s (ps j).1 (ps j).2)) ∧
        ((src ≤ dst + 64 * i + j ∧ dst + 64 * i + j < src + len) ∨ eccAt s [] (ps j).1 (ps j).2 1 = true →
          bs[j]? = some (Config.freeByte s.fresh (dst + 64 * i + j))))

/-- R89: a graph run reads its nodes again and starts, unless a node names a predecessor that does not come before it, which fails the
graph with 6. A node starts once each predecessor has completed or been skipped; a COND whose condition fails skips its dependants.
R87: a started WAIT of a graph that fails is not withdrawn, and ends once its word has satisfied it. -/
def Statements.GraphRuns : Prop :=
  ∀ (s : State) (ctx m i j e : Nat) (w : OldWait),
    let g := graphOf s ctx m
    let c : CmdRef := .node ctx m i
    let img := natOfWords (g.list.getD i {}).img
    let u := setGraph s ctx m (setNode g i { g.list.getD i {} with st := 1 })
    let imgs := (List.range g.nodes).map fun i => natOfBytes (vaRead s ctx (g.array.toNat + 64 * i) 64)
    let ahead (k : Nat) : Prop := ∀ p, p = bitsOf (imgs.getD k 0) 23 16 ∨ p = bitsOf (imgs.getD k 0) 31 24 → p = 255 ∨ p < k
    (g.running = true → g.inRun = false → (ctxOf s ctx).st = .sealed → (ctxOf s ctx).suspendFn = none →
      ((∀ k, k < g.nodes → ahead k) → Comes (.graphRunStart ctx m) s fun t => (graphOf t ctx m).inRun = true ∧
        (graphOf t ctx m).list = imgs.map fun i => { img := imageWords i }) ∧
      ((∃ k, k < g.nodes ∧ ¬ ahead k) → Comes (.graphRunStart ctx m) s fun t =>
        t = outCmd (setGraph s ctx m { g with running := false }) ctx g.queue g.seq 6)) ∧
    (nodeReady s ctx m i = false → (Comes (.cond c) s fun t => t = s) ∧ (Comes (.launchCmd c) s fun t => t = s) ∧
      (Comes (.copy c) s fun t => t = s) ∧ (Comes (.wait c) s fun t => t = s) ∧ (Comes (.signal c) s fun t => t = s)) ∧
    (nodeReady s ctx m i = true → i < g.list.length ∧ (g.list.getD i {}).st = 0 ∧ predDone g (bitsOf img 23 16) = true ∧
      predDone g (bitsOf img 31 24) = true) ∧
    (nodeReady s ctx m i = true → qKind img = 6 →
      (commandError u ctx true img false = 0 →
        let failed : Bool := if bitsOf img 67 67 = 1 then Map.look g.c (bitsOf img 66 64) 0 != 0 else Map.look g.c (bitsOf img 66 64) 0 == 0
        Comes (.cond c) s fun t => t = outNode (setGraph u ctx m (setNode (graphOf u ctx m) i
          { (graphOf u ctx m).list.getD i {} with condFalse := failed })) ctx m i 0) ∧
      (e = commandError u ctx true img false → e ≠ 0 → Comes (.cond c) s fun t => t = outNode u ctx m i e)) ∧
    ((g.list.getD i {}).st = 1 → (g.list.getD i {}).out = none → e ≠ 0 → (graphOf (outNode s ctx m i e) ctx m).running = false ∧
      ∀ y : Node, g.list[j]? = some y → j ≠ i → y.st = 1 → y.out = none → qKind (natOfWords y.img) = 3 →
        ∃ x ∈ (ctxOf (outNode s ctx m i e) ctx).oldWaits, x.slot = m ∧ x.index = j ∧ x.queue = g.queue ∧ x.seq = g.seq ∧ x.node = y) ∧
    (g.running = false → g.list = [] → oldReady s ctx m i = some w → Comes (.waitReevaluate c) s fun t => t = endOldWait s ctx w)

/-- Queue commands, copies and graphs: what may start, and what starting does. -/
def Obligations.QueueCommands : Prop := Statements.QueueCommands ∧ Statements.QueueCopies ∧ Statements.GraphRuns

/-- R84, R89, R93: a command completes once its record is written; QDONE advances over it when it is the oldest. A queue turned off is
OFF once nothing of it is left; a notification that it latched while it closed (log entry 45) then acts if the context is SEALED, and
stays latched otherwise (R83). A completion record is written when it is the first waiting for its ring and the ring has room. -/
def Statements.QueueCompletion : Prop :=
  ∀ (s s' : State) (ctx q n m i : Nat) (r : RunCmd) (w : WaitRec),
    let x := queueOf s ctx q
    let g := graphOf s ctx m
    let rs := (ctxOf s ctx).records
    let stored (t : State) : State := setCtx t ctx { ctxOf t ctx with records := (ctxOf t ctx).records.eraseIdx i }
    (x.cmds.find? (fun r => r.seq == n && r.out.isSome && r.recorded && !r.fin) = some r → r.out = some 0 → x.done = n →
      Comes (.commandComplete (.cmd ctx q n)) s fun t => n < (queueOf t ctx q).done ∧
        (queueOf t ctx q).head = x.head ∧ (queueOf t ctx q).tail = x.tail) ∧
    (x.cmds.find? (fun r => r.seq == n && r.out.isSome && r.recorded && !r.fin) = none →
      Comes (.commandComplete (.cmd ctx q n)) s fun t => t = s) ∧
    ((g.list.getD i {}).st = 1 → (g.list.getD i {}).out.isSome = true → (g.list.getD i {}).recorded = true →
      Comes (.commandComplete (.node ctx m i)) s fun t => t = settleRun (setGraph s ctx m (endNode g i)) ctx m) ∧
    (x.closing = true → (∀ r ∈ x.cmds, r.fin = true) → x.latched = false ∨ (ctxOf s ctx).st ≠ .sealed →
      Comes (.queueOff ctx q) s fun t => queueOf t ctx q = { x with st := .off, closing := false, met := false, cmds := [] }) ∧
    (x.closing = true → (∀ r ∈ x.cmds, r.fin = true) → x.latched = true → (ctxOf s ctx).st = .sealed →
      let off : Queue := { x with st := .off, closing := false, met := false, cmds := [] }
      Comes (.queueOff ctx q) s fun t => t = actNotify (setQueue (putQueue s ctx q off) ctx q { off with latched := false }) ctx q) ∧
    ((x.closing = false ∨ ∃ r ∈ x.cmds, r.fin = false) → Comes (.queueOff ctx q) s fun t => t = s) ∧
    (rs[i]? = some w → (∀ y ∈ rs.take i, y.ring ≠ w.ring) → tryRecord s ctx w.ring w.words = some s' →
      Comes (.completionRecord ctx i) s fun t => t = match w.src with
        | some y => recordedRef (stored s') y
        | none => stored s') ∧
    (rs[i]? = some w → tryRecord s ctx w.ring w.words = none → Comes (.completionRecord ctx i) s fun t => t = s)

/-- R83, R84, R91, R379: a notification of a SEALED context's queue reads what the page holds: an OFF queue whose enable bit is set
becomes READY or RUNNING at its head, with no WAIT satisfied; a queue that is not OFF takes its tail (QTAIL, if host-fed) and its
priority; a tail behind the head or beyond the ring halts it with 5; a clear enable bit begins to turn it off, and its priority is read too. A
changed priority posts PRIO. A context that is not SEALED latches it, and an update in progress keeps it for later. The model's choices: a STALLED or
HALTED queue reads both and keeps its state (log entry 69), a closing one latches it (log entry 45), and a package with no active wing (R378)
keeps it for later (log entry 39). -/
def Statements.Notifications : Prop :=
  ∀ (s : State) (f slot ctx : Nat) (v : Word),
    let q := v.toNat
    let x := queueOf s ctx q
    let base := 0x400 + 64 * q
    let cfg := pageRead s ctx (base + 8) 4
    let head := pageRead s ctx (base + 24) 8
    let tail := pageRead s ctx (base + 16) 8
    (s.pkg.update.isSome = true ∨ s.pkg.noWing = true → Comes (.notify f slot v) s fun t =>
      t = setPkg s { s.pkg with waitingNotes := s.pkg.waitingNotes ++ [(f, slot, v)] }) ∧
    (s.pkg.update = none → s.pkg.noWing = false → notifyCtx s f slot = none → Comes (.notify f slot v) s fun t => t = s) ∧
    (s.pkg.update = none → s.pkg.noWing = false → notifyCtx s f slot = some ctx → q < 16 →
      ((ctxOf s ctx).st = .assembling ∨ (ctxOf s ctx).st = .suspended →
        Comes (.notify f slot v) s fun t => (queueOf t ctx q).latched = true ∧ { t with ctxs := s.ctxs } = s) ∧
      ((ctxOf s ctx).st = .sealed → cfg / 256 % 2 = 1 → x.st = .off → x.closing = false → cfg / 128 % 2 = 0 →
        Comes (.notify f slot v) s fun t =>
          (queueOf t ctx q).base = BitVec.ofNat 64 (pageRead s ctx base 8) ∧ (queueOf t ctx q).n = cfg % 16 ∧
          (queueOf t ctx q).prio = cfg / 16 % 8 ∧ (queueOf t ctx q).head = head ∧ (queueOf t ctx q).done = head ∧
          (queueOf t ctx q).tail = tail ∧ (queueOf t ctx q).met = false ∧
          (queueOf t ctx q).st = (if tail < head ∨ 2 ^ (cfg % 16 + 4) < tail - head then .halted else if head < tail then .running else .ready) ∧
          (tail < head ∨ 2 ^ (cfg % 16 + 4) < tail - head → (queueOf t ctx q).err = 5)) ∧
      ((ctxOf s ctx).st = .sealed → Comes (.notify f slot v) s fun t => (ctxOf t ctx).svcw = pageRead s ctx 8 4 % 16) ∧
      ((ctxOf s ctx).st = .sealed → cfg / 256 % 2 = 1 → x.st ≠ .off → x.closing = false → Comes (.notify f slot v) s fun t =>
        let y : Queue := { x with tail := if x.fed then x.tail else tail, prio := cfg / 16 % 8 }
        queueOf t ctx q = if y.tail < x.head ∨ 2 ^ (x.n + 4) < y.tail - x.done then { y with st := .halted, met := false, err := 5, errSeq := x.head }
          else { y with st := if x.st = .running ∧ x.done = y.tail then .ready else if x.st = .ready ∧ x.head < y.tail then .running else x.st }) ∧
      ((ctxOf s ctx).st = .sealed → cfg / 16 % 8 ≠ x.prio → x.st ≠ .off → x.closing = false ∨ cfg / 256 % 2 = 0 →
        Comes (.notify f slot v) s fun t => t.hall = (postPrio s ctx q (cfg / 16 % 8)).hall) ∧
      ((ctxOf s ctx).st = .sealed → cfg / 256 % 2 = 1 → x.closing = true →
        Comes (.notify f slot v) s fun t => (queueOf t ctx q).latched = true ∧ (queueOf t ctx q).st = x.st) ∧
      ((ctxOf s ctx).st = .sealed → cfg / 256 % 2 = 0 → x.st ≠ .off →
        Comes (.notify f slot v) s fun t => queueOf t ctx q = { x with closing := true, enable := false, prio := cfg / 16 % 8 }))

/-- Commands complete, queues turn off and records are written; what a notification makes of a queue. -/
def Obligations.QueueCompletion : Prop := Statements.QueueCompletion ∧ Statements.Notifications

/-- R75, R355, R389: the security core serves one command at a time. A virtual function's CMD, and a busy function's, ignore it; while
another command is served it waits, its operands taken. The model answers STATE before DEPLOYED, where R389 has no contexts, and RANGE to a
reserved operand bit (log entry 35). -/
def Statements.CommandsServed : Prop :=
  ∀ (s : State) (f : Nat) (a0 a1 a2 a3 : Addr) (i : Instr), isCommand f a0 a1 a2 a3 i → s.pkg.update.map Update.fn ≠ some f →
    (ctxOf s (a0.toNat % 1024)).suspendFn ≠ some f →
    (16 ≤ f → Comes i s fun t => t = s) ∧
    ((fnOf s f).busy = true → s.pkg.waitingCmds.head? ≠ some i → Comes i s fun t => t = s) ∧
    (f < 16 → (fnOf s f).busy = false → coreBusy s = true ∨ s.pkg.waitingCmds ≠ [] →
      Comes i s fun t => t.pkg.waitingCmds = s.pkg.waitingCmds ++ [i] ∧ t.fns = (serving s f a0 a1 a2 a3).fns) ∧
    (f < 16 → (fnOf s f).busy = false → coreBusy s = false → s.pkg.waitingCmds = [] → s.pkg.life ≠ .deployed →
      Comes i s fun t => t = completeCmd (serving s f a0 a1 a2 a3) f 1) ∧
    (Serves s f → a3.toNat / 2 ^ 10 ≠ 0 → (∀ b0 b1 b2 b3, i ≠ .map f b0 b1 b2 b3 ∧ i ≠ .ckpt f b0 b1 b2 b3) →
      Comes i s fun t => t = completeCmd (serving s f a0 a1 a2 a3) f 4)

/-- R75: CREATE. The context is ASSEMBLING, with the world, the partitions, the function and the identifier asked for, its own free
keys and slot, its step counter 0 unless another member holds it (which rows of the hall go then: log entry 59); a partition of another world is
refused with OWNED, a taken or unassigned identifier with NOKEY, a function that is not the logical device's with RANGE (log entry 58). -/
def Statements.ContextCreation : Prop :=
  ∀ (s : State) (f slot : Nat) (a0 a1 a2 a3 : Addr),
    let world := a0.toNat % 64
    let nkey := a0.toNat / 256 % 4 + 1
    let id := a3.toNat % 1024
    let fn := if a2.toNat = 0 then f else 16 + a2.toNat
    let mine : Prop := a2.toNat = 0 ∨ (a2.toNat ≤ 64 ∧ (Map.look s.ldevs f {}).vfs.contains a2.toNat = true)
    let parts := partsOf a1.toNat
    let u := serving s f a0 a1 a2 a3
    let i : Instr := .create f a0 a1 a2 a3
    Serves s f → namedBits (argsOf a0 a1 a2 a3) 0x33F 0xFFFFFF 0x7F 0x3FF = true →
    (¬ mine ∨ world = 0 ∨ parts = [] → Comes i s fun t => t = completeCmd u f 4) ∧
    (mine → world ≠ 0 → parts ≠ [] →
      ((∃ p ∈ parts, Map.look s.pkg.world p 0 ≠ 0 ∧ Map.look s.pkg.world p 0 ≠ world) → Comes i s fun t => t = completeCmd u f 2) ∧
      ((∀ p ∈ parts, Map.look s.pkg.world p 0 = 0 ∨ Map.look s.pkg.world p 0 = world) →
        (Map.find s.pkg.allots id ≠ some f ∨ (Map.find s.ctxs id).isSome = true ∨ (freeKeys s).length < nkey →
          Comes i s fun t => t = completeCmd u f 5) ∧
        (Map.find s.pkg.allots id = some f → Map.find s.ctxs id = none → nkey ≤ (freeKeys s).length → freeSlotOf s fn = some slot →
          Comes i s fun t => Completed t f 0 ∧ (fnOf t f).result = id + slot * 2 ^ 16 ∧
            (ctxOf t id).st = .assembling ∧ (ctxOf t id).world = world ∧ (ctxOf t id).parts = BitVec.ofNat 24 a1.toNat ∧
            (ctxOf t id).fn = fn ∧ (ctxOf t id).ld = f ∧ (ctxOf t id).slot = slot ∧ (ctxOf t id).keys.length = nkey ∧
            (∀ k ∈ (ctxOf t id).keys, k ∈ freeKeys s) ∧ (fnOf t f).keys = (ctxOf t id).keys ∧
            ((∀ m, m < 256 → m ≠ s.hall.self → s.hall.repl.members.getLsbD m = true →
              Map.look s.hall.bindings (1024 * m + id) 0 % 2 ^ 24 = 0) → (Map.look t.hall.repl.ctxs id {}).step = 0) ∧
            (∀ p ∈ parts, Map.look t.pkg.world p 0 = world) ∧ ∀ c, c ≠ id → ctxOf t c = ctxOf s c)))

/-- The security core serves one command at a time, and CREATE (lowest free slot: log entry 27). -/
def Obligations.ContextCreation : Prop := Statements.CommandsServed ∧ Statements.ContextCreation

/-- R74, R76: SETATTR sets an ASSEMBLING context's attributes; MAP adds the leaf proposed, its frames owned by the context's world under
its key, or completes with the first condition that fails (a page or frame that ends past the address space: log entry 73); UNMAP takes the leaf
away. -/
def Statements.ContextMaps : Prop :=
  ∀ (s : State) (f : Nat) (a0 a1 a2 a3 : Addr) (l : Leaf),
    let ctx := a0.toNat
    let c := ctxOf s ctx
    let u := serving s f a0 a1 a2 a3
    let p := proposal (argsOf a0 a1 a2 a3)
    let w := a1.toNat
    Serves s f → Holds s f ctx .assembling → ctx < 1024 →
    (w < 2 ^ 32 → a2 = 0 → a3 = 0 →
      (bitsOf w 15 8 = 0 → bitsOf w 5 4 ≠ 3 → bitsOf w 31 16 ≤ 16384 → bitsOf w 3 0 = c.keys.length →
        Comes (.setattr f a0 a1 a2 a3) s fun t => Completed t f 0 ∧ (ctxOf t ctx).larder = bitsOf w 31 16 ∧
          (ctxOf t ctx).prot = (bitsOf w 7 7 == 1) ∧ (ctxOf t ctx).check = (bitsOf w 6 6 == 1) ∧ (ctxOf t ctx).mode = bitsOf w 5 4 ∧
          ∀ x, x ≠ ctx → ctxOf t x = ctxOf s x) ∧
      (bitsOf w 3 0 ≠ c.keys.length → Comes (.setattr f a0 a1 a2 a3) s fun t => t = completeCmd u f 4)) ∧
    (namedBits (argsOf a0 a1 a2 a3) 0x3FF (2 ^ 64 - 1) (2 ^ 64 - 1) 0x3FFCE = true →
      (mapStatus u ctx c p = 0 → Comes (.map f a0 a1 a2 a3) s fun t => Completed t f 0 ∧ p ∈ (ctxOf t ctx).leaves ∧
        (∀ x ∈ c.leaves, x ∈ (ctxOf t ctx).leaves) ∧
        ∀ x ∈ leafFrames p, (ownOf t x).use ≠ 0 ∧ ((ownOf s x).use = 0 → ownOf t x = { key := p.key, world := c.world, use := 2 })) ∧
      (mapStatus u ctx c p ≠ 0 → Comes (.map f a0 a1 a2 a3) s fun t => t = completeCmd u f (mapStatus u ctx c p))) ∧
    (a2 = 0 → a3 = 0 →
      (walk s ctx w = none → Comes (.unmap f a0 a1 a2 a3) s fun t => t = completeCmd u f 4) ∧
      (walk s ctx w = some l → Comes (.unmap f a0 a1 a2 a3) s fun t => Completed t f 0 ∧
        (ctxOf t ctx).leaves = c.leaves.filter (fun k => k.va != l.va || k.broken) ∧ ∀ x ∈ leafFrames l, ownOf t x = {}))

/-- R75, R82, R366: SEAL makes a context with a usable page SEALED; SUSPEND pre-empts it, tells the other members, and completes once its
gangs here are saved; RESUME makes it SEALED again; DESTROY begins its teardown, which kills its blocks, and the wipe leaves it FREE. -/
def Statements.ContextLives : Prop :=
  ∀ (s : State) (f : Nat) (a0 a1 a2 a3 : Addr) (l : Leaf),
    let ctx := a0.toNat
    let c := ctxOf s ctx
    let u := serving s f a0 a1 a2 a3
    let posted (t : State) : List HEvent := t.hall.pending ++ t.hall.backlog
    ctx < 1024 →
    (Serves s f → a2 = 0 → a3 = 0 →
      (Holds s f ctx .assembling → walk s ctx a1.toNat = some l → leafPresent l = true → l.r = true → l.w = true → l.cls ≤ 1 →
        a1.toNat % 4096 = 0 → (∀ q, (queueOf s ctx q).latched = false) →
        Comes (.sealCtx f a0 a1 a2 a3) s fun t => Completed t f 0 ∧ (ctxOf t ctx).st = .sealed ∧ (ctxOf t ctx).cpPage = a1.toNat ∧
          (ctxOf t ctx).leaves = c.leaves) ∧
      (Holds s f ctx .assembling → walk s ctx a1.toNat = none → Comes (.sealCtx f a0 a1 a2 a3) s fun t => t = completeCmd u f 4) ∧
      (Holds s f ctx .sealed → gangsOf s ctx = [] → Comes (.suspend f a0 a1 a2 a3) s fun t => Completed t f 0 ∧
        (ctxOf t ctx).st = .suspended ∧ ∃ e, posted t = posted s ++ [e] ∧ e.kind = 3 ∧ e.ctx = ctx) ∧
      (Holds s f ctx .suspended → a1 = 0 → (∀ q, (queueOf s ctx q).latched = false) →
        Comes (.resume f a0 a1 a2 a3) s fun t => Completed t f 0 ∧ (ctxOf t ctx).st = .sealed ∧
          ∃ e, posted t = posted s ++ [e] ∧ e.kind = 4 ∧ e.ctx = ctx) ∧
      ((Holds s f ctx .assembling ∨ Holds s f ctx .sealed ∨ Holds s f ctx .suspended) → a1 = 0 →
        Comes (.destroy f a0 a1 a2 a3) s fun t => (ctxOf t ctx).st = .teardown ∧ (ctxOf t ctx).destroyFn = some f ∧
          (ctxOf t ctx).queues = [] ∧ (fnOf t f).busy = true ∧ (∀ k, (kernOf s k).ctx = ctx → (Map.find s.kerns k).isSome = true →
            (kernOf t k).dead = true)) ∧
      (∀ st, Holds s f ctx st → st ≠ .assembling → Comes (.sealCtx f a0 a1 a2 a3) s fun t => t = completeCmd u f 1)) ∧
    (c.st = .teardown → (s.ctxs.map Prod.fst).Pairwise (· < ·) → Comes (.wipeComplete ctx) s fun t => Map.find t.ctxs ctx = none ∧
      (∀ e ∈ t.tlb, e.ctx ≠ ctx) ∧ (∀ e ∈ t.kerns, e.2.ctx ≠ ctx) ∧ (c.destroyFn = some f → Completed t f 0)) ∧
    (c.st ≠ .teardown → Comes (.wipeComplete ctx) s fun t => t = s)

/-- SETATTR, MAP and UNMAP, and a context's life from SEAL to the wipe. -/
def Obligations.ContextMaps : Prop := Statements.ContextMaps ∧ Statements.ContextLives

/-- R80, R81: CKPT of a SUSPENDED context writes its record where the buffer is large enough and writable, else completes with NOSPACE, and
only then with RANGE (the status of a buffer that is not writable, and the order: log entry 46); RESTORE checks the record's tag, world, step and size in that order, and loads what it holds. -/
def Statements.Checkpoints : Prop :=
  ∀ (s : State) (f : Nat) (a0 a1 a2 a3 : Addr) (st : CtxState),
    let ctx := a0.toNat
    let u := serving s f a0 a1 a2 a3
    let n := recordBytes u ctx
    let r := makeRecord u ctx a3.toNat
    let x := vaRead u ctx a1.toNat (max 64 (fieldAt (vaRead u ctx a1.toNat 64) 28 4))
    let saved := ((u.written.find? fun e => e.1 == x).map Prod.snd).getD (Config.openRecord x)
    Serves s f → ctx < 1024 →
    (Holds s f ctx .suspended → a2.toNat < n → Comes (.ckpt f a0 a1 a2 a3) s fun t => t = completeCmd u f 8) ∧
    (Holds s f ctx .suspended → n ≤ a2.toNat → rangeMapped u ctx a1.toNat n true = false →
      Comes (.ckpt f a0 a1 a2 a3) s fun t => t = completeCmd u f 4) ∧
    (Holds s f ctx .suspended → n ≤ a2.toNat → rangeMapped u ctx a1.toNat n true = true →
      Comes (.ckpt f a0 a1 a2 a3) s fun t =>
        t = completeCmd (vaWrite { u with written := (r, savedOf u ctx) :: u.written } ctx a1.toNat r) f 0) ∧
    (r.length = n ∧ r.take 4 = bytesOfNat 4 0x4B435043 ∧ fieldAt r 40 8 = (ctxOf s ctx).step.toNat ∧ fieldAt r 32 8 = a3.toNat) ∧
    (st = .assembling ∨ st = .suspended → Holds s f ctx st → a2 = 0 → a3 = 0 →
      (restoreStatus (ctxOf s ctx) x ≠ 0 → Comes (.restore f a0 a1 a2 a3) s fun t => t = completeCmd u f (restoreStatus (ctxOf s ctx) x)) ∧
      (restoreStatus (ctxOf s ctx) x = 0 → Comes (.restore f a0 a1 a2 a3) s fun t => Completed t f 0 ∧
        (ctxOf t ctx).step = BitVec.ofNat 64 (fieldAt x 40 8) ∧ (Map.look t.hall.repl.ctxs ctx {}).step = BitVec.ofNat 64 (fieldAt x 40 8) ∧
        t.gangs = (loadSaved u ctx { saved with step := BitVec.ofNat 64 (fieldAt x 40 8) }).gangs))

/-- R383: CLAIM gives an unowned class of a live context to the firmware or the host, and UNCLAIM gives back one that the kernel or the
host owns; a claimed class completes with CLAIMED. -/
def Statements.Claims : Prop :=
  ∀ (s : State) (f : Nat) (a0 a1 a2 a3 : Addr) (st : CtxState),
    let ctx := a0.toNat
    let cls := a1.toNat
    let c := ctxOf s ctx
    let u := serving s f a0 a1 a2 a3
    Serves s f → ctx < 1024 → cls < 256 → a3 = 0 → st ∈ liveStates → Holds s f ctx st →
    (a2.toNat < 8 → claimClass cls = false ∨ (a2.toNat ≠ 2 ∧ a2.toNat ≠ 3) → Comes (.claim f a0 a1 a2 a3) s fun t => t = completeCmd u f 4) ∧
    (claimClass cls = true → a2.toNat = 2 ∨ a2.toNat = 3 →
      (ownerOf c cls ≠ 0 → Comes (.claim f a0 a1 a2 a3) s fun t => t = completeCmd u f 9) ∧
      (ownerOf c cls = 0 → Comes (.claim f a0 a1 a2 a3) s fun t => Completed t f 0 ∧ ownerOf (ctxOf t ctx) cls = a2.toNat ∧
        (∀ x, x ≠ cls → ownerOf (ctxOf t ctx) x = ownerOf c x) ∧ ∀ x, x ≠ ctx → ctxOf t x = ctxOf s x)) ∧
    (a2 = 0 → claimClass cls = true →
      (ownerOf c cls = 1 ∨ ownerOf c cls = 2 → Comes (.unclaim f a0 a1 a2 a3) s fun t => Completed t f 0 ∧
        ownerOf (ctxOf t ctx) cls = 0 ∧ ∀ x, x ≠ cls → ownerOf (ctxOf t ctx) x = ownerOf c x) ∧
      (ownerOf c cls ≠ 1 → ownerOf c cls ≠ 2 → Comes (.unclaim f a0 a1 a2 a3) s fun t => t = completeCmd u f 1))

/-- Checkpoints and restores (record: log entry 19), and the claim table (log entry 38). -/
def Obligations.Checkpoints : Prop := Statements.Checkpoints ∧ Statements.Claims

/-! ### Trust and the package -/

/-- R379, R381, R385: UPDATE verifies its image, which must carry the slot's kind and a version no lower than the fuse; a security-core
image waits for the reset, a die's service image for its slice, each measured; a wing image, once no port is training, swaps the wings'
roles. A live update whose quiescence takes too long completes with TIMEOUT. R385 says where the image lies and gives no status for an
image elsewhere: the model's RANGE is log entry 78. -/
def Statements.Updates : Prop :=
  ∀ (s : State) (f : Nat) (a0 a1 a2 a3 : Addr) (v : Update),
    let u := serving s f a0 a1 a2 a3
    let img := homeBytes u .host a0.toNat a1.toNat
    let kind := a2.toNat % 4
    let die := a2.toNat / 16 % 4
    let i : Instr := .update f a0 a1 a2 a3
    let inWindow := (Map.look s.ldevs 0 {}).windows.any fun w => decide (w.1 ≤ a0.toNat) && decide (a0.toNat + a1.toNat ≤ w.1 + w.2)
    (Serves s f → namedBits (argsOf a0 a1 a2 a3) (2 ^ 64 - 1) 0xFFFFFFFF 0x33 0 = true →
      (f ≠ 0 ∨ kind = 3 → Comes i s fun t => t = completeCmd u f 1) ∧
      (f = 0 → kind ≠ 3 → (a0.toNat % 64 ≠ 0 ∨ inWindow = false → Comes i s fun t => t = completeCmd u f 4) ∧
        (a0.toNat % 64 = 0 → inWindow = true →
          (imageOk s kind img = false → Comes i s fun t => t = completeCmd u f 0x0B) ∧
          (imageOk s kind img = true → kind = 1 → Comes i s fun t => Completed t f 0 ∧ t.pkg.secNext = img ∧ t.pkg.secImage = s.pkg.secImage ∧
            Map.look t.pkg.measure 2 0 = Config.shake256 img) ∧
          (imageOk s kind img = true → kind = 2 → Comes i s fun t => Completed t f 0 ∧ (svcOf t die).newImage = some img ∧
            (svcOf t die).image = (svcOf s die).image ∧ Map.look t.pkg.measure (3 + die) 0 = Config.shake256 img) ∧
          (imageOk s kind img = true → kind = 0 → Config.imageTable img ≠ s.pkg.tableMajor → Comes i s fun t => t = completeCmd u f 0x0C) ∧
          (imageOk s kind img = true → kind = 0 → Config.imageTable img = s.pkg.tableMajor →
            (portsQuiet s = false → Comes i s fun t => t.pkg.update = some { fn := f, image := img } ∧ t.pkg.eastActive = s.pkg.eastActive ∧
              (fnOf t f).busy = true) ∧
            (portsQuiet s = true → Comes i s fun t => Completed t f 0 ∧ t.pkg.update = none ∧ t.pkg.eastActive = !s.pkg.eastActive))))) ∧
    (s.pkg.update = some v →
      (v.fn = f → portsQuiet s = true → Comes i s fun t => t = swapWings s v) ∧ (v.fn = f → portsQuiet s = false → Comes i s fun t => t = s) ∧
      Comes .updateQuiesceTimeout s fun t => Completed t v.fn 0x0D ∧ t.pkg.update = none ∧ t.pkg.eastActive = s.pkg.eastActive) ∧
    (s.pkg.update = none → Comes .updateQuiesceTimeout s fun t => t = s)

/-- R378, R379, R381: a failover makes the standby wing active, and completes with FAILOVER what was passed on and not begun when the failed
wing stopped, a SUSPEND begun and not ended, and a live update; what came after is served; nothing else of a context, and no fuse, changes. A
standby that stays down does not take over, and no wing is active from the failed one's stop to the takeover (log entry 39). The first
heartbeat under an image raises the version fuse to its version, never lowering it. -/
def Statements.WingEvents : Prop :=
  ∀ (s : State) (k : Nat),
    let lost := if s.pkg.noWing = true then s.pkg.lostCmds else s.pkg.waitingCmds
    (Comes (.stateTableChange .wingStops) s fun t => t = if s.pkg.noWing = true then s
      else setPkg s { s.pkg with noWing := true, lostCmds := s.pkg.waitingCmds, waitingCmds := [] }) ∧
    (s.pkg.standbyDown = true → Comes .wingFailover s fun t => t = setPkg s { s.pkg with noWing := true }) ∧
    (s.pkg.standbyDown = false → Comes .wingFailover s fun t => t.pkg.eastActive = (!s.pkg.eastActive) ∧ t.pkg.noWing = false ∧
      t.pkg.waitingCmds = (if s.pkg.noWing = true then s.pkg.waitingCmds else []) ∧ t.pkg.lostCmds = [] ∧ t.pkg.update = none ∧
      t.pkg.waitingNotes = [] ∧ t.agenda = s.agenda ++ s.pkg.waitingNotes.map (fun n => .notify n.1 n.2.1 n.2.2) ∧
      (∀ c, (ctxOf t c).suspendFn = none ∧ { ctxOf t c with suspendFn := none } = { ctxOf s c with suspendFn := none }) ∧
      (∀ e ∈ s.ctxs, ∀ f, e.2.suspendFn = some f → Completed t f 0x0A) ∧ t.pkg.minVersion = s.pkg.minVersion ∧ t.pkg.world = s.pkg.world ∧
      (∀ i ∈ lost, Completed t (cmdFn i) 0x0A) ∧ ∀ v, s.pkg.update = some v → Completed t v.fn 0x0A) ∧
    (imageOf s k ≠ [] → s.pkg.life ≠ .decommissioned → Comes (.firstHeartbeat k) s fun t =>
      t.pkg.minVersion = max s.pkg.minVersion (Config.imageVersion (imageOf s k)) ∧ { t with pkg := s.pkg } = s ∧ t.pkg.life = s.pkg.life) ∧
    (imageOf s k = [] ∨ s.pkg.life = .decommissioned → Comes (.firstHeartbeat k) s fun t => t = s)

/-- Live updates, failovers and heartbeats (log entry 39). -/
def Obligations.Updates : Prop := Statements.Updates ∧ Statements.WingEvents

/-- R380, R382: a quote in DEPLOYED holds the nonce, the life cycle, the versions and measurements, and for a context its world and
measurement; each signature uses a leaf of its own and comes with the certificate of its key, which an exhausted key is replaced for; an exhausted
identity key signs nothing. Otherwise the request is refused, with STATE (log entry 47, as for the life of an attestation key). -/
def Statements.Attestation : Prop :=
  ∀ (s : State) (f : Nat) (nonce : List Byte) (ctx : Option Nat),
    let allowed := ∀ c, ctx = some c → (ctxOf s c).ld = fnDevice s f ∧ ((ctxOf s c).st = .sealed ∨ (ctxOf s c).st = .suspended)
    (s.pkg.life ≠ .deployed ∨ ¬ allowed → Comes (.attestationRequest f nonce ctx) s fun t => t = emit s (.spdmError f 1)) ∧
    (s.pkg.life = .deployed → allowed → 2 ^ 20 ≤ s.pkg.idLeaf →
      Comes (.attestationRequest f nonce ctx) s fun t => t = emit s (.spdmError f 0x0E)) ∧
    (s.pkg.life = .deployed → allowed → s.pkg.idLeaf < 2 ^ 20 → Comes (.attestationRequest f nonce ctx) s fun t =>
      (∃ sig, sig.length = 2692 ∧ t.out = s.out ++ [.quote f (quoteBody s nonce ctx ++ sig ++ t.pkg.attCert)]) ∧
      (s.pkg.attLeaf < 2 ^ 16 → t.pkg.attLeaf = s.pkg.attLeaf + 1 ∧ t.pkg.idLeaf = s.pkg.idLeaf ∧ t.pkg.attCert = s.pkg.attCert) ∧
      (2 ^ 16 ≤ s.pkg.attLeaf → t.pkg.attLeaf = 1 ∧ t.pkg.idLeaf = s.pkg.idLeaf + 1 ∧ t.pkg.attCert.length = 2820) ∧ { t with pkg := s.pkg, out := s.out } = s)

/-- R355, R387: writes to a function's registers change the operand, error-ring or table entry that they name, and nothing else; a
virtual function has no operands and no ring. -/
def Statements.FunctionRegisters : Prop :=
  ∀ (s : State) (f off : Nat) (x : Addr) (w : Word),
    let keeps (t : State) : Prop := { t with fns := s.fns } = s ∧ ∀ g, g ≠ f → fnOf t g = fnOf s g
    (0x3000 ≤ off → off < 0x4000 → Comes (.registerWrite f off x) s fun t => keeps t ∧ Map.look (fnOf t f).regs off 0 = x) ∧
    (16 ≤ f → off < 0x3000 ∨ 0x4000 ≤ off → Comes (.registerWrite f off x) s fun t => t = s) ∧
    (f < 16 →
      (off = 8 → Comes (.registerWrite f off x) s fun t => keeps t ∧ fnOf t f = { fnOf s f with arg0 := x }) ∧
      (off = 16 → Comes (.registerWrite f off x) s fun t => keeps t ∧ fnOf t f = { fnOf s f with arg1 := x }) ∧
      (off = 24 → Comes (.registerWrite f off x) s fun t => keeps t ∧ fnOf t f = { fnOf s f with arg2 := x }) ∧
      (off = 32 → Comes (.registerWrite f off x) s fun t => keeps t ∧ fnOf t f = { fnOf s f with arg3 := x }) ∧
      (off = 0x4000 → Comes (.registerWrite f off x) s fun t => keeps t ∧ fnOf t f = { fnOf s f with errBase := x.toNat / 4096 * 4096 }) ∧
      (off = 0x4008 → Comes (.registerWrite f off x) s fun t => keeps t ∧ fnOf t f = { fnOf s f with errCfg := x.toNat % 2 ^ 17 }) ∧
      (off ∉ [8, 16, 24, 32, 0x4000, 0x4008] → off < 0x3000 ∨ 0x4000 ≤ off → Comes (.registerWrite f off x) s fun t => t = s) ∧
      Comes (.errconsWrite f w) s fun t => keeps t ∧ fnOf t f = { fnOf s f with errCons := w.toNat, errOver := false }) ∧
    (16 ≤ f → Comes (.errconsWrite f w) s fun t => t = s)

/-- Quotes, and writes to a function's registers. -/
def Obligations.Attestation : Prop := Statements.Attestation ∧ Statements.FunctionRegisters

/-- R389, R390: each token moves the life cycle from its own states, only where it verifies and, in DEPLOYED, once every context is FREE
(STATE otherwise, over SPDM on function 0: log entry 47), and the wipe follows; a reset and a loss of power wipe every memory and state of the package, but fuses, leaf indices and images stay. -/
def Statements.LifeCycle : Prop :=
  ∀ (s : State) (tok : List Byte),
    let free : Prop := s.pkg.life = .deployed → ∀ e ∈ s.ctxs, e.2.st = .free
    let moves (i : Instr) (kind : Nat) (src : List Life) (dst : Life) : Prop :=
      (Config.signatureOk s.pkg.keyHash kind tok = true → s.pkg.life ∈ src → free → Comes i s fun t => t.pkg.life = dst ∧ t.dev = [] ∧ t.ctxs = [] ∧
        t.groups = [] ∧ t.pkg.minVersion = s.pkg.minVersion) ∧
      (Config.signatureOk s.pkg.keyHash kind tok = true → s.pkg.life ∈ src → ¬ free → Comes i s fun t => t = emit s (.spdmError 0 1)) ∧
      (Config.signatureOk s.pkg.keyHash kind tok = false ∨ s.pkg.life ∉ src → Comes i s fun t => t = s)
    moves (.provisioningToken tok) 1 [.raw] .provisioned ∧ moves (.deploymentToken tok) 2 [.provisioned] .deployed ∧
    moves (.rmaToken tok) 3 [.deployed] .rma ∧ moves (.repairToken tok) 4 [.rma] .provisioned ∧
    moves (.decommissionToken tok) 5 [.provisioned, .deployed, .rma] .decommissioned ∧
    ∀ i, i = .packageReset ∨ i = .powerLoss → ∃ t, exec i s = .next t ∧ t.groups = [] ∧ t.blocks = [] ∧ t.gangs = [] ∧ t.kerns = [] ∧
      t.dev = [] ∧ t.die = [] ∧ t.log = [] ∧ t.poison = [] ∧ t.own = [] ∧ t.tlb = [] ∧ t.ctxs = [] ∧ t.fns = [] ∧ t.services = [] ∧ t.faults = [] ∧
      t.cores = [] ∧ t.links = {} ∧ t.hall = {} ∧ t.host = s.host ∧ t.pkg.power = decide (i = .packageReset) ∧ t.pkg.life = s.pkg.life ∧
      t.pkg.minVersion = s.pkg.minVersion ∧ t.pkg.keyHash = s.pkg.keyHash ∧ t.pkg.idLeaf = s.pkg.idLeaf ∧ t.pkg.attLeaf = s.pkg.attLeaf ∧
      t.pkg.wingImages = s.pkg.wingImages

/-- R76, R79, R333, R354, R356, R377: while an active wing may act (log entry 74), the state table's items take their new values, a die's
carving only while every partition whose share changes has no block on its cores (what counts as a resident allocation: log entry 66); budgets and
bindings are items of the model's (log entry 34), as are the binding of the windows and firmware memory (log entry 75); a budget period gives each context its whole budget again, less what it is overdrawn; a logical device is bound with its
windows, its port and the virtual functions that no other one has. -/
def Statements.StateTable : Prop :=
  ∀ (s : State) (it : TableItem) (p n m c f k d w port : Nat) (ports ms units vs : List Nat) (cls o : Nat) (b at_ : Bool) (ws : List (Nat × Nat)) (unit : BudgetUnit),
    let changed := ((List.range 6).map (· + 6 * d)).filter fun q => units.getD (q - 6 * d) 0 != Map.look s.pkg.carve q 0
    let kind : Nat × Nat := match unit with
      | .copy u => (0, u) | .link u => (1, u) | .service u => (2, u) | .hold u => (3, u) | .matrix u => (4, u)
    let change (i : TableItem) (P : State → Prop) : Prop := wingActs s = true → Comes (.stateTableChange i) s P
    (wingActs s = true ↔ s.pkg.update = none ∧ s.pkg.noWing = false ∧ s.pkg.life ≠ .decommissioned) ∧
    (wingActs s = false → it ≠ .wingStops → Comes (.stateTableChange it) s fun t => t = s) ∧
    (s.pkg.windowsBound = false → ms.length = 24 → (∀ x ∈ ms, x < 24) → ms.Nodup → s.own = [] → s.ctxs = [] → change (.windows ms) fun t =>
      (∀ q, q < 24 → Map.look t.pkg.pmap q 0 = ms.getD q 0) ∧ t.pkg.windowsBound = true ∧ { t with pkg := s.pkg } = s) ∧
    (s.pkg.windowsBound = true ∨ s.own ≠ [] ∨ s.ctxs ≠ [] → change (.windows ms) fun t => t = s) ∧
    (change (.firmware ms) fun t => (∀ x ∈ ms, x < 24 * 2 ^ 19 → (ownOf s x).use = 0 → ownOf t x = { use := 2 }) ∧
      ∀ x, x ∉ ms ∨ (ownOf s x).use ≠ 0 → ownOf t x = ownOf s x) ∧
    (p < 24 → n < 256 → change (.sliceLength p n) fun t => Map.look t.pkg.slices p 0 = n ∧ { t with pkg := s.pkg } = s) ∧
    (p < 24 → 1 ≤ w → w < 256 → change (.weight p w) fun t => Map.look t.pkg.weights p 0 = w ∧ { t with pkg := s.pkg } = s) ∧
    (c < 1024 → f < 16 → change (.allot c f) fun t => Map.find t.pkg.allots c = some f ∧ { t with pkg := s.pkg } = s) ∧
    (change (.atsLimit n) fun t => t = setPkg s { s.pkg with atsLimit := n }) ∧
    (m < 256 → change (.memberIndex m) fun t => t = setHall s { s.hall with self := m }) ∧
    (change (.configured ms) fun t => t = setHall s { s.hall with configured := ms.filter fun m => decide (m < 256) }) ∧
    (m < 256 → (portAt s 24).sendQ = [] →
      change (.route m ports) fun t => Map.look t.pkg.routes m [] = (ports.filter fun p => decide (p < 24)).take 4 ∧ t.hall = s.hall) ∧
    ((Map.find s.ctxs c).isSome = true → k < 5 → change (.budget c k n) fun t => budgetOf (ctxOf t c) k = min n 0xFFFFFFFF) ∧
    (m < 256 → c < 1024 → change (.binding m c n w) fun t => Map.look t.hall.bindings (1024 * m + c) 0 = n % 2 ^ 24 + 2 ^ 24 * (w % 64)) ∧
    (d < 4 → (changed.any (partBusy s) = true ∨ 126 < ((List.range 6).map fun i => units.getD i 0).sum → change (.carve d units) fun t => t = s) ∧
      (changed.any (partBusy s) = false → ((List.range 6).map fun i => units.getD i 0).sum ≤ 126 → change (.carve d units) fun t =>
        ∀ q, 6 * d ≤ q → q < 6 * d + 6 → Map.look t.pkg.carve q 0 = units.getD (q - 6 * d) 0)) ∧
    (p < 24 → change (.larder p ms) fun t => ∀ x ∈ larderOf t p, x ∈ ms) ∧
    (claimClass cls = true → (Map.find s.ctxs c).isSome = true → ownerOf (ctxOf s c) cls = 0 → o = 3 ∨ o = 4 →
      change (.fwClaim c cls o) fun t => ownerOf (ctxOf t c) cls = o) ∧
    (∀ l, kind.1 ≠ 1 → Map.find (ctxOf s c).left (budgetKey kind.1 kind.2) = some l → Comes (.budgetPeriod unit) s fun t =>
      Map.find (ctxOf t c).left (budgetKey kind.1 kind.2) = some (budgetOf (ctxOf s c) kind.1 + min l 0)) ∧
    (kind.1 = 1 → Comes (.budgetPeriod unit) s fun t => t = portFlush kind.2 (portAt s kind.2).sendQ.length (refill s 1 kind.2)) ∧
    (d < 16 → Comes (.logicalDeviceBind d b ws ⟨at_, port, vs⟩) s fun t => (Map.look t.ldevs d {}).bound = b ∧
      (Map.look t.ldevs d {}).windows = (if b then ws else []) ∧ (Map.look t.ldevs d {}).atomics = (b && at_) ∧
      (Map.look t.ldevs d {}).port = (if b then port % 2 else 0) ∧
      (∀ v, v ∈ (Map.look t.ldevs d {}).vfs ↔ b = true ∧ v ∈ vs ∧ 1 ≤ v ∧ v ≤ 64 ∧ ∀ e ∈ s.ldevs, e.1 ≠ d → v ∉ e.2.vfs) ∧ { t with ldevs := s.ldevs } = s)

/-- Life-cycle tokens, resets and power; the state table's items, budgets and bindings. -/
def Obligations.PackageState : Prop := Statements.LifeCycle ∧ Statements.StateTable

/-- R247, R333: a host write changes the bytes it names of device or host memory and no other; in device memory, those of frames that have
an owner (log entry 61). A host read returns device bytes, undefined where a word holds an uncorrectable error or its frame has no
owner, and changes no memory. -/
def Statements.HostAccesses : Prop :=
  ∀ (s : State) (dev : Bool) (a n : Nat) (bs : List Byte),
    let m : MemName := if dev then .dev else .host
    ((memOf s m).wf = true → (dev = true → a + bs.length ≤ 24 * 2 ^ 35) →
      Comes (.hostWrite dev a bs) s fun t =>
        (∀ k, k < bs.length → homeByte t m (a + k) = if dev = true ∧ hostMay s (a + k) = false then homeByte s m (a + k) else byteAt bs k) ∧
        (∀ m' x, m' ≠ m ∨ x < a ∨ a + bs.length ≤ x → homeByte t m' x = homeByte s m' x) ∧ t.groups = s.groups ∧ t.ctxs = s.ctxs) ∧
    (dev = true → 24 * 2 ^ 35 < a + bs.length → Comes (.hostWrite dev a bs) s fun t => t = s) ∧
    ((∀ k, k < n → eccAt s [] .dev (a + k) 1 = false ∧ hostMay s (a + k) = true) → Comes (.hostRead a n) s fun t =>
      t = emit (setFresh s (s.fresh + 1)) (.readData ((List.range n).map fun k => homeByte s .dev (a + k)))) ∧
    Comes (.hostRead a n) s fun t => ∃ l, t = emit (setFresh s (s.fresh + 1)) (.readData l) ∧ l.length = n

/-- R219, R324, R383: an uncorrectable error stays in its word, and in an entry of a translation table makes every leaf under it invalid (log
entry 63); a corrected one is counted for its partition, and more than 256 in a context's partitions within the last 2^24 cycles, since its creation or
its last CECC, raise CECC and start its own count again, no other context's (log entry 49). -/
def Statements.MemoryErrors : Prop :=
  ∀ (s : State) (m : MemName) (a ctx : Nat),
    let p := memPart s m a
    let va := a % 2 ^ 56
    let level := a / 2 ^ 56
    let span := if level < 3 then pageSize level else 2 ^ 43
    let hit (l : Leaf) : Prop := l.broken = false ∧
      if level = 0 then l.va ≤ va ∧ va < l.va + pageSize l.level else l.level < level ∧ l.va / span = va / span
    (m ≠ .host → (∀ c, m ≠ .table c) → Comes (.softError m a true) s fun t => (m, a / 4 * 4) ∈ t.poison ∧ (∀ e ∈ s.poison, e ∈ t.poison) ∧
      { t with poison := s.poison } = s ∧ eccAt t [] m a 1 = true) ∧
    (m ≠ .host → (Map.find s.ctxs ctx).isSome = true → Comes (.softError m a false) s fun t =>
      correctedIn t ctx = correctedIn s ctx + (if (partsOf (ctxOf s ctx).parts.toNat).contains p then 1 else 0) ∧
      { ctxOf t ctx with corrected := (ctxOf s ctx).corrected } = ctxOf s ctx ∧ { t with ctxs := s.ctxs } = s) ∧
    (Comes (.softError .host a true) s fun t => t = s) ∧
    ((∀ l ∈ (ctxOf s ctx).leaves, ¬ hit l) → Comes (.softError (.table ctx) a true) s fun t => t = s) ∧
    ((∃ l ∈ (ctxOf s ctx).leaves, hit l) → Comes (.softError (.table ctx) a true) s fun t =>
      (ctxOf t ctx).leaves.length = (ctxOf s ctx).leaves.length ∧
      (∀ (i : Nat) (l : Leaf), (ctxOf s ctx).leaves[i]? = some l → (hit l → (ctxOf t ctx).leaves[i]? = some { l with broken := true }) ∧
        (¬ hit l → (ctxOf t ctx).leaves[i]? = some l)) ∧
        ∀ c, c ≠ ctx → ctxOf t c = ctxOf s c) ∧
    ((Map.find s.ctxs ctx).isSome = true → 256 < correctedIn s ctx → Comes (.correctedErrorThreshold ctx) s fun t =>
      t = raiseClass (setCtx s ctx { ctxOf s ctx with corrected := [] }) ctx 0x21 8 1 ∧
        (∀ c, c ≠ ctx → correctedIn t c = correctedIn s c) ∧ correctedIn t ctx = 0) ∧
    ((Map.find s.ctxs ctx).isNone = true ∨ correctedIn s ctx ≤ 256 → Comes (.correctedErrorThreshold ctx) s fun t => t = s)

/-- Host accesses, and memory errors. -/
def Obligations.HostAccesses : Prop := Statements.HostAccesses ∧ Statements.MemoryErrors

/-- R334, R355: FLIP starts on a frame that the function's context owns, else it is refused, as one that is already flipping is (log entry
72); a frame already
biased so is done at once. The register's reserved bits read zero. The flip completes once the copies that touch the frame have, and only then does the bias change. -/
def Statements.BiasFlips : Prop :=
  ∀ (s : State) (f frame ctx : Nat) (v : Addr) (x : FlipOp),
    let o := ownOf s frame
    let w := flipFields v
    let toDev := bitsOf w.toNat 63 63 == 1
    (w &&& 0x7FF000000000FC00 = 0) ∧
    (frame = bitsOf w.toNat 51 16 → ctx = bitsOf w.toNat 9 0 →
      ((fnOf s f).flipst = 1 → Comes (.flip f v) s fun t => t = s) ∧
      ((fnOf s f).flipst ≠ 1 → flipOwned s f ctx frame = false ∨ 2 ≤ o.bias →
        Comes (.flip f v) s fun t => t = setFn s f { fnOf s f with flip := w, flipst := 3 }) ∧
      ((fnOf s f).flipst ≠ 1 → flipOwned s f ctx frame = true → o.bias = (if toDev then 0 else 1) →
        Comes (.flip f v) s fun t => t = setFn s f { fnOf s f with flip := w, flipst := 2 }) ∧
      ((fnOf s f).flipst ≠ 1 → flipOwned s f ctx frame = true → o.bias = (if toDev then 1 else 0) →
        Comes (.flip f v) s fun t => (fnOf t f).flipst = 1 ∧ (fnOf t f).flip = w ∧ (ownOf t frame).bias = (if toDev then 3 else 2) ∧
          (∀ y, y ≠ frame → ownOf t y = ownOf s y) ∧ t.dev = s.dev ∧ t.blocks = s.blocks)) ∧
    (s.flips.find? (fun x => x.frame == frame) = some x →
      (flipReady s x = false → Comes (.biasFlipComplete frame) s fun t => t = s) ∧
      (flipReady s x = true → Comes (.biasFlipComplete frame) s fun t => (ownOf t frame).bias = (if x.toDevice then 0 else 1) ∧
        (fnOf t x.fn).flipst = 2 ∧ (∀ y ∈ t.flips, y.frame ≠ frame) ∧ t.dev = s.dev))

/-- R357, R358: an ATS invalidation drops the translations of its pages, and completes at once where no started copy of a private context, no
write that one holds, and no operation of another member past its WACC uses them; otherwise its completion is withheld, until they end or
the wing's limit aborts them, a copy with PAGE, another member's put by discarding what is not performed (log entry 62). A page that is
not private leaves also what a running copy has captured of it. -/
def Statements.AtsInvalidations : Prop :=
  ∀ (s : State) (ld a n i : Nat) (x : Ats),
    let ps := hostPages s ld a n
    let mine := ps.filter fun p => p.2.2
    let cmds := (mine.flatMap fun p => touchingCopies s p.1 p.2.1 1).eraseDups
    let ops := (mine.flatMap fun p => touchingOps s p.1 p.2.1 1).eraseDups
    let held := (mine.flatMap fun p => heldOnPage s p.1 p.2.1).eraseDups
    let u := ps.foldl (fun s p => if p.2.2 then invalidate s p.1 p.2.1 1 else invalidateAll s p.1 p.2.1 1) s
    (cmds = [] → ops = [] → held = [] → Comes (.atsInvalidation ld a n) s fun t => t = emit u (.atsDone ld a n)) ∧
    (cmds ≠ [] ∨ ops ≠ [] ∨ held ≠ [] → Comes (.atsInvalidation ld a n) s fun t =>
      t.ats = s.ats ++ [{ ld := ld, addr := a, n := n, cmds := cmds, ops := ops, held := held }] ∧ t.out = s.out ∧ t.tlb = u.tlb) ∧
    (∀ p ∈ ps, ∀ e ∈ u.tlb, ¬ (e.ctx = p.1 ∧ e.page = p.2.1)) ∧
    (s.ats[i]? = some x → Comes (.atsInvalidationTimeout i) s fun t => t.ats = s.ats.eraseIdx i ∧ .atsDone x.ld x.addr x.n ∈ t.out ∧
      (∀ c ∈ x.cmds, cmdGone t c.1 c.2 = true) ∧ (∀ h ∈ x.held, heldGone t h = true) ∧
      ∀ d ∈ t.links.dst, (d.src, d.tag) ∈ x.ops → dstDead t d = true) ∧
    (s.ats[i]? = none → Comes (.atsInvalidationTimeout i) s fun t => t = s)

/-- Bias flips and ATS invalidations wait for the copies that use their pages. -/
def Obligations.BiasFlips : Prop := Statements.BiasFlips ∧ Statements.AtsInvalidations

/-! ### The links and the hall -/

/-- R342, R343, R347, R383: the state of a port. A DOWN port that is enabled, or whose retrain timer fires, trains; training that passes
on 8 lanes makes it UP, on 6 or 7 DEGRADED, and any other DOWN, for the eighth time running RETIRED; a lane that fails costs one, and below
6 the port trains (log entry 50); a bad flit is asked for again, at a FENCED port also. The wing enables and retires ports only while it may act (log
entry 74). -/
def Obligations.PortStates : Prop :=
  ∀ (s : State) (p lanes far : Nat) (agree : Bool),
    let x := portAt s p
    let st (t : State) : PortState := (portAt t p).st
    let same (t : State) : Prop := { t with links := s.links } = s ∧ ∀ q, q ≠ p → portAt t q = portAt s q
    (p < 24 → x.st = .down → wingActs s = true → Comes (.portEnable p) s fun t => st t = .training ∧ same t) ∧
    (x.st ≠ .down ∨ wingActs s = false → Comes (.portEnable p) s fun t => t = s) ∧
    (x.st = .training →
      (agree = true → 6 ≤ lanes → lanes ≤ 8 → x.replay = [] → x.sendQ = [] → (portAt s 24).sendQ = [] → p ≠ 24 → isMember s = true →
        Comes (.trainingComplete p lanes agree far) s fun t => st t = (if lanes = 8 then .up else .degraded) ∧
          (portAt t p).lanes = lanes ∧ (portAt t p).fails = 0 ∧ (portAt t p).far = far) ∧
      (agree = false ∨ lanes < 6 → x.fails ≠ 7 → (Comes (.trainingComplete p lanes agree far) s fun t => st t = .down ∧
        (portAt t p).fails = x.fails + 1 ∧ same t) ∧
        Comes (.trainingTimeout p) s fun t => st t = .down ∧ (portAt t p).fails = x.fails + 1 ∧ same t) ∧
      (x.fails = 7 → x.sendQ = [] →
        (Comes (.trainingTimeout p) s fun t => st t = .retired ∧ s.pkg.log.length < t.pkg.log.length) ∧
        (agree = false ∨ lanes < 6 → Comes (.trainingComplete p lanes agree far) s fun t =>
          st t = .retired ∧ s.pkg.log.length < t.pkg.log.length))) ∧
    (x.st ≠ .training → (Comes (.trainingComplete p lanes agree far) s fun t => t = s) ∧ Comes (.trainingTimeout p) s fun t => t = s) ∧
    (p < 24 → x.st = .down → 0 < x.fails → Comes (.retrainTimer p) s fun t => st t = .training ∧ same t) ∧
    (x.fails = 0 ∨ x.st ≠ .down → Comes (.retrainTimer p) s fun t => t = s) ∧
    (linkUp x = true →
      (Comes (.lossOfLock p) s fun t => st t = .training ∧ same t) ∧
      (7 ≤ x.lanes → Comes (.laneFailure p) s fun t => st t = .degraded ∧ (portAt t p).lanes = x.lanes - 1 ∧ same t) ∧
      (x.lanes < 7 → Comes (.laneFailure p) s fun t => st t = .training ∧ same t)) ∧
    (linkUp x = true ∨ x.st = .fenced → Comes (.flitFailsCrc p) s fun t => t = sendRetry s p) ∧
    (linkUp x = false → (Comes (.lossOfLock p) s fun t => t = s) ∧ (Comes (.laneFailure p) s fun t => t = s) ∧
      (x.st ≠ .fenced → Comes (.flitFailsCrc p) s fun t => t = s)) ∧
    (p < 24 → x.st ≠ .retired → x.sendQ = [] → wingActs s = true → Comes (.portRetire p) s fun t =>
      st t = .retired ∧ s.pkg.log.length < t.pkg.log.length) ∧
    (x.st = .retired ∨ wingActs s = false → Comes (.portRetire p) s fun t => t = s)

/-- R344 to R349: taking a flit at a port. One whose CRC fails, or that is out of link order, is not taken, and the one due is asked for;
one in order is counted, takes a place in the port's receive buffer, and is taken by what it is for, held where it touches a flipping
frame, or sent on; a FENCED port discards what is not of the rejoin exchange. A port that is not up takes none. -/
def Statements.FlitReceipt : Prop :=
  ∀ (s : State) (p : Nat) (fl : Flit) (i : Instr) (kind vc : Nat) (body : State → State),
    let u := takeLack s p fl
    let x := portAt u p
    let counted := setPort u p { x with rxSeq := (x.rxSeq + 1) % 65536 }
    let kept := setLinks counted { counted.links with transit := counted.links.transit ++ [(p, fl)] }
    let open_ : Prop := linkUp (portAt s p) = true ∨ (portAt s p).st = .fenced
    let passes : Prop := (portAt counted p).st = .fenced → passesFence fl = true
    ((i = .whead p fl ∧ kind = 4 ∧ vc = 1 ∧ body = takeHead fl (takePut fl)) ∨ (i = .wacc p fl ∧ kind = 5 ∧ vc = 2 ∧ body = takeWacc fl) ∨
      (i = .data p fl ∧ kind = 6 ∧ vc = 1 ∧ body = takeData fl) ∨ (i = .data p fl ∧ kind = 6 ∧ vc = 2 ∧ body = takeGetData fl) ∨
      (i = .rreq p fl ∧ kind = 7 ∧ vc = 1 ∧ body = takeHead fl (takeGet fl)) ∨ (i = .rhead p fl ∧ kind = 8 ∧ vc = 2 ∧ body = takeRhead fl) ∨
      (i = .atomFlit p fl ∧ kind = 9 ∧ vc = 1 ∧ body = takeHead fl (takeAtom fl)) ∨ (i = .atomr p fl ∧ kind = 10 ∧ vc = 2 ∧ body = takeAtomr fl) ∨
      (i = .ack p fl ∧ kind = 11 ∧ vc = 2 ∧ body = fun s => (ackTags fl).foldl (takeAck fl.src) s) ∨
      (i = .radd p fl ∧ kind = 14 ∧ vc = 1 ∧ body = takeHead fl (takeRadd fl)) ∨
      (i = .snap p fl ∧ kind = 2 ∧ vc = 0 ∧ body = inOrder fl) ∨ (i = .barr p fl ∧ kind = 3 ∧ vc = 0 ∧ body = inOrder fl) ∨
      (i = .hallEvent p fl ∧ kind = 1 ∧ vc = 0 ∧ fieldAt fl.pay 0 1 = 0 ∧ body = inOrder fl) ∨
      (i = .hallAck p fl ∧ kind = 1 ∧ vc = 0 ∧ fieldAt fl.pay 0 1 = 1 ∧ body = inOrder fl) ∨
      (i = .token p fl ∧ kind = 1 ∧ vc = 0 ∧ fieldAt fl.pay 0 1 = 2 ∧ body = inOrder fl) ∨
      (i = .stable p fl ∧ kind = 1 ∧ vc = 0 ∧ fieldAt fl.pay 0 1 = 3 ∧ body = inOrder fl) ∨
      (i = .recover p fl ∧ kind = 1 ∧ vc = 0 ∧ fieldAt fl.pay 0 1 = 4 ∧ body = inOrder fl) ∨
      (i = .reply p fl ∧ kind = 1 ∧ vc = 0 ∧ fieldAt fl.pay 0 1 = 5 ∧ body = inOrder fl)) →
    p < 24 → fl.kind = kind → fl.vc = vc →
      (¬ open_ → Comes i s fun t => t = s) ∧
      (open_ → fl.crc ≠ flitCrc fl → Comes i s fun t => t = sendRetry s p) ∧
      (open_ → fl.crc = flitCrc fl →
        (fl.lseq ≠ x.rxSeq → Comes i s fun t => t = sendRetry u p) ∧
        (fl.lseq = x.rxSeq → ¬ passes → Comes i s fun t => t = counted) ∧
        (fl.lseq = x.rxSeq → passes → fl.dst = s.hall.self → headHeld kept fl = false → Comes i s fun t => t = settlePause (body kept) p) ∧
        (fl.lseq = x.rxSeq → passes → fl.dst = s.hall.self → headHeld kept fl = true → Comes i s fun t =>
          t = settlePause (setPort kept 24 { portAt kept 24 with sendQ := (portAt kept 24).sendQ ++ [fl] }) p) ∧
        (fl.lseq = x.rxSeq → passes → fl.dst ≠ s.hall.self → Comes i s fun t => t = settlePause (portSend kept (portOf kept fl.dst) fl) p))

/-- R343, R346 to R348: a link acknowledgement releases the flits it covers; IDLE and PAUSE carry the far side's pause mask; RETRY has the
flits from the one named sent again, in order, and the sixteenth running for one flit retrains the port. Control flits are taken in any
order, one whose CRC fails is asked for again. -/
def Statements.LinkControl : Prop :=
  ∀ (s : State) (p : Nat) (fl : Flit) (l₁ l₂ : List Flit) (x : Flit) (i : Instr) (body : State → State),
    let u := takeLack s p fl
    let n := fieldAt fl.pay 0 2
    let y := portAt s p
    let open_ : Prop := linkUp y = true ∨ y.st = .fenced
    let again : Prop := y.retries ≠ 0 ∧ y.retryOf = n
    (fl.vc = 3 → p < 24 → (i = .idle p fl ∧ fl.kind = 0 ∧ body = takePause p fl) ∨ (i = .pause p fl ∧ fl.kind = 12 ∧ body = takePause p fl) ∨
        (i = .retry p fl ∧ fl.kind = 13 ∧ body = takeRetry p fl) →
      (¬ open_ → Comes i s fun t => t = s) ∧ (open_ → fl.crc ≠ flitCrc fl → Comes i s fun t => t = sendRetry s p) ∧
      (open_ → fl.crc = flitCrc fl → Comes i s fun t => t = body u)) ∧
    (again → 15 ≤ y.retries → linkUp y = true → (portAt (takeRetry p fl s) p).st = .training ∧ (takeRetry p fl s).out = s.out) ∧
    (again → y.retries < 15 → takeRetry p fl s = replayFrom p n (setPort s p { y with retries := y.retries + 1, retryOf := n })) ∧
    (¬ again → takeRetry p fl s = replayFrom p n (setPort s p { y with retries := 1, retryOf := n })) ∧
    ((portAt s p).sendQ = [] → (portAt (takePause p fl s) p).pauseSeen = BitVec.ofNat 3 (fieldAt fl.pay 0 3)) ∧
    (l₁.all (fun f => f.lseq != x.lseq) = true → trimReplay x.lseq (l₁ ++ x :: l₂) = l₂) ∧
    ((∀ f ∈ l₁, f.lseq ≠ fl.lack) → trimReplay fl.lack l₁ = l₁) ∧
    ((portAt s p).replay = l₁ ++ x :: l₂ → l₁.all (fun f => f.lseq != x.lseq) = true →
      (replayFrom p x.lseq s).out = s.out ++ (x :: l₂).map (.flit p ·) ∧ { replayFrom p x.lseq s with out := s.out } = s)

/-- A port takes flits in link order, asks again for others, and replays. -/
def Obligations.LinkFlits : Prop := Statements.FlitReceipt ∧ Statements.LinkControl

/-- R349, R351, R352: what operations do at their destination. A head seen before is performed no more, and answered again (log entry 50).
A put's head is checked whole and answered by WACC; a get reads its words before it answers, and uses no page where byte 9 of its head says that it is speculative (log entry 24); an atomic is performed at its home and returns the old
value. A head whose check fails is answered with its status, and changes no memory. -/
def Statements.RemoteTargets : Prop :=
  ∀ (s u : State) (fl : Flit) (x : Seen) (e : Byte) (m : MemName) (a : Nat) (body : State → State),
    let va := headVa fl / 64 * 64
    let n := headGranules fl
    let fn := fieldAt fl.pay 8 1
    let w64 := fieldAt fl.pay 9 1 % 2 == 1
    let size := if w64 then 8 else 4
    let whole := (List.range (64 * n)).map fun i =>
      if (maskedWords n (fieldAt fl.pay 10 2) (fieldAt fl.pay 12 2)).contains (i / 4 * 4) then homeByte u m (a + i) else 0
    (seenOp s fl = some x → takeHead fl body s = answerAgain s x ∧ (takeHead fl body s).dev = s.dev ∧ (takeHead fl body s).host = s.host) ∧
    (seenOp s fl = none → takeHead fl body s = body (noteOp s fl)) ∧
    (headCheck s fl va (64 * n) false true false = (u, .inl e) → takePut fl s = sendReply u fl.tag (replyFlit u fl 5 [e]) ∧ u.dev = s.dev ∧
      u.host = s.host) ∧
    (headCheck s fl va (64 * n) false true false = (u, .inr (m, a)) → takePut fl s =
      sendReply (addDst u (headOp fl 0 va a m)) fl.tag (replyFlit (addDst u (headOp fl 0 va a m)) fl 5 [0])) ∧
    (headCheck s fl va (64 * n) true false (fieldAt fl.pay 9 1 % 2 == 1) = (u, .inr (m, a)) →
      ((maskedWords n (fieldAt fl.pay 10 2) (fieldAt fl.pay 12 2)).any fun o => eccAt u [] m (a + o) 4) = false → takeGet fl s =
      sendReplies u fl.tag (replyFlit u fl 8 [0] :: dataFlits (replyFlit u fl 6 []) 2 (64 * n) whole)) ∧
    (fn < 8 → headVa fl % size = 0 → headCheck s fl (headVa fl) size true true false = (u, .inr (m, a)) → m = .dev → eccAt u [] m a size = false →
      let old := dwordOf (homeBytes u m a size)
      let v := BitVec.ofNat 64 (fieldAt fl.pay 16 8)
      let z := homeWrite u m a (bytesOfNat size (copyAtom fn w64 old v (BitVec.ofNat 64 (fieldAt fl.pay 24 8))).toNat)
      takeAtom fl s = sendReply z fl.tag (replyFlit z fl 10 ([0, 0, 0, 0, 0, 0, 0, 0] ++ dwordBytes old)))

/-- R245, R349, R352: what answers do at the source. An accepted put sends its data, a reduction once every part of it is accepted, where the operation's route still works; a refused operation ends its command with the status;
a get's bytes are written when all are there, under its gang's held writes; an ACK record acknowledges its granule, the last one ends the operation; an operation
whose timer runs out is sent again. -/
def Statements.RemoteSources : Prop :=
  ∀ (s : State) (fl : Flit) (o : SrcOp) (d tag : Nat),
    let status := fieldAt fl.pay 0 1
    let got := o.inbuf ++ padPay fl.pay
    (findOp s fl = some o →
      (o.okHead = false → o.kind = 0 ∨ o.kind = 3 → (status = 0 → takeWacc fl s = if o.kind = 0 then sendData s o else acceptPart s o) ∧
        (status ≠ 0 → takeWacc fl s = failOp s o (wireStatus status))) ∧
      (o.kind = 1 → (status = 0 → takeRhead fl s = putOp s { o with okHead := true, inbuf := [] }) ∧
        (status ≠ 0 → takeRhead fl s = failOp s o (wireStatus status))) ∧
      (o.kind = 1 → o.okHead = true → got.length < 64 * o.n → takeGetData fl s = putOp s { o with inbuf := got }) ∧
      (o.kind = 1 → o.okHead = true → 64 * o.n ≤ got.length → (blkOf s o.blk).spec = false → (blkOf s o.blk).held = [] →
        let y := { o with inbuf := got }
        takeGetData fl s = landChunks (dropOp (copyWrite s o.blk o.seq o.grp o.mem o.addr (getBytes s y ((got.drop o.first).take o.len))) y) y) ∧
      (o.kind = 2 → status ≠ 0 → takeAtomr fl s = failOp s o (wireStatus status)) ∧
      (o.kind = 2 → status = 0 → o.len = 0 → o.heldSeq = none → takeAtomr fl s = uncount (dropOp s o) o o.unacked.length)) ∧
    (gangHeld s o.blk = [] → ∀ bs, getBytes s o bs = bs) ∧
    (o.dst ≠ s.hall.self → portWorks s o.port = false → sendData s o = putOp s { o with okHead := true }) ∧
    (findOp s fl = none → takeWacc fl s = s ∧ takeRhead fl s = s ∧ takeGetData fl s = s ∧ takeAtomr fl s = s) ∧
    (s.links.src.find? (fun o => o.dst == d && o.unacked.contains tag) = none → takeAck d s tag = s) ∧
    (s.links.src.find? (fun o => o.dst == d && o.unacked.contains tag) = some o → o.heldSeq = none → (Map.find s.blocks o.blk).isSome = true →
      (grpOf (takeAck d s tag) o.grp).ack = (grpOf s o.grp).ack - 1 ∧
      (o.unacked.erase tag = [] → ∀ y ∈ (takeAck d s tag).links.src, ¬ (y.dst = o.dst ∧ y.tag = o.tag))) ∧
    (s.links.src.find? (fun o => o.dst == d && o.tag == tag) = some o → o.started = true → d = s.hall.self ∨ portOf s d ≠ 24 →
      Comes (.operationTimeout d tag) s fun t =>
        t = sendHead s { o with okHead := false, inbuf := [] }) ∧
    (s.links.src.find? (fun o => o.dst == d && o.tag == tag) = some o → o.started = false ∨ (d ≠ s.hall.self ∧ portOf s d = 24) →
      Comes (.operationTimeout d tag) s fun t => t = s) ∧
    (s.links.src.find? (fun o => o.dst == d && o.tag == tag) = none → Comes (.operationTimeout d tag) s fun t => t = s)

/-- Remote operations at their destination and at their source. -/
def Obligations.RemoteOperations : Prop := Statements.RemoteTargets ∧ Statements.RemoteSources

/-- R350, R362: channel 0 between two members keeps its order. Unless a flit starts its source's sequence afresh (log entry 50), the flit due is taken and counted, with any held ones that become due; an
early one is held, once, whatever its route; a duplicate is discarded. -/
def Statements.HallOrder : Prop :=
  ∀ (s : State) (fl : Flit), startsCh0 s fl = false →
    let n := Map.look s.links.ch0Rx fl.src 0
    let d := (fl.tag + 2 ^ 24 - n % 2 ^ 24) % 2 ^ 24
    let u := setLinks s { s.links with ch0Rx := Map.put s.links.ch0Rx fl.src (n + 1) }
    (d = 0 → s.links.ch0Held = [] → (takeZero fl u).links.ch0Held = [] → inOrder fl s = takeZero fl u) ∧
    (d ≠ 0 → 2 ^ 23 ≤ d → inOrder fl s = s) ∧
    (d ≠ 0 → d < 2 ^ 23 → (∃ f ∈ s.links.ch0Held, f.src = fl.src ∧ f.tag = fl.tag) → inOrder fl s = s) ∧
    (d ≠ 0 → d < 2 ^ 23 → (∀ f ∈ s.links.ch0Held, ¬ (f.src = fl.src ∧ f.tag = fl.tag)) → (inOrder fl s).links.ch0Held = s.links.ch0Held ++ [fl] ∧
      (inOrder fl s).hall = s.hall ∧ (inOrder fl s).links.ch0Rx = s.links.ch0Rx)

/-- R362 to R364, R371: what the forms of a HALL flit do. A member keeps an event and acknowledges a longer run; an ACK is counted; a
token next to what the member has received is taken, with what it says is acknowledged, and any other is not (log entry 51); STABLE has received
events delivered; RECOVER from a lower index of the view, and no other (log entry 51), is answered with what this member has, its own recovery and
token given up; a REPLY is kept; a BARR from a chip that has left the view does nothing (R423). -/
def Statements.HallForms : Prop :=
  ∀ (s : State) (fl : Flit) (e : HEvent) (m next st n : Nat),
    let h := s.hall
    let form := fieldAt fl.pay 0 1
    (fl.kind = 1 → takeZero fl s = takeHall fl s) ∧ (fl.kind = 2 → takeZero fl s = takeSnap fl s) ∧
    (fl.kind = 3 → takeZero fl s = takeBarr fl s) ∧
    (inView s fl.src = false → takeBarr fl s = s) ∧
    (form = 0 → takeHall fl s = gotEvent fl.src (recordOf (fl.pay.drop 8)) s) ∧
    (form = 1 → takeHall fl s = gotAck fl.src (fieldAt fl.pay 8 8) s) ∧
    (form = 2 → takeHall fl s = gotToken (fieldAt fl.pay 16 8) (fieldAt fl.pay 24 8) s) ∧
    (form = 3 → takeHall fl s = gotStable (fieldAt fl.pay 16 8) s) ∧
    (form = 4 → takeHall fl s = gotRecover fl.src s) ∧
    (form = 5 → takeHall fl s = gotReply fl.src (fieldAt fl.pay 16 8) (fieldAt fl.pay 24 8) s) ∧
    (isMember s = true → h.recov = {} → h.delivered < e.seq → (∀ x ∈ h.recv, x.seq ≠ e.seq) →
      let k := setHall s { h with recv := h.recv ++ [e] }
      let u := setHall k { k.hall with acked := receivedTop k }
      gotEvent m e s = if h.acked < u.hall.acked then sendHall u m 1 (bytesOfNat 8 u.hall.acked) else u) ∧
    (h.token = none → (gotAck m n s).hall = { h with acks := Map.put h.acks m (max n (Map.look h.acks m 0)) }) ∧
    (isMember s = false ∨ next ≠ h.acked + 1 → gotToken next st s = s) ∧
    (isMember s = true → next = h.acked + 1 →
      let acks := (others s).foldl (fun a m => Map.put a m (max st (Map.look a m 0))) h.acks
      let u := deliver (applyKept (setHall s { h with recov := {}, acks := acks })) st
      gotToken next st s = if isMember u then visit (setHall u { u.hall with token := some (u.hall.repl.view, next, st), among := none }) else u) ∧
    (isMember s = false → gotStable st s = s) ∧ (isMember s = true → gotStable st s = deliver s (min st h.acked)) ∧
    (isMember s = true → inView s m = true → m < h.self → h.repl.members ≠ 0 →
      let u := setHall s { h with recov := { halted := h.recov.halted, routes := routesNow s }, token := none, awaiting := false, among := none }
      gotRecover m s = sendHall u m 5 (bytesOfNat 8 h.repl.view ++ bytesOfNat 8 h.acked ++ bytesOfNat 8 h.delivered)) ∧
    (h.repl.members ≠ 0 → inView s m = false ∨ h.self ≤ m → gotRecover m s = s) ∧
    (h.recov.active = true → inView s m = true →
      (m, next, st) ∈ (gotReply m next st s).hall.recov.replies ∧ { gotReply m next st s with hall := s.hall } = s)

/-- Channel 0 keeps its order, and what each HALL flit does. -/
def Obligations.HallForms : Prop := Statements.HallOrder ∧ Statements.HallForms

/-- R363, R371, R374: the timers of the hall. A visit ends once every ACK awaited covers what was assigned: STABLE goes to the others, the
token to the next member, and the events are delivered. A wait for an ACK that lasts too long, or a token that does not come, starts
recovery: the member gives its token up and sends RECOVER to every other member of the view. The timers are events that may come at any step
(log entry 53), and have no effect in a DECOMMISSIONED package (log entry 74). -/
def Statements.HallTimers : Prop :=
  ∀ (s : State) (v next st : Nat),
    let h := s.hall
    let begun := setHall s { h with recov := { active := true, halted := h.recov.halted }, token := none, awaiting := false, among := none }
    let asked := (others begun).foldl (fun s m => sendHall s m 4 (bytesOfNat 8 h.repl.view)) begun
    let l := h.among.getD (others s)
    let told := (others s).foldl (fun s m => sendHall s m 3 (bytesOfNat 8 v ++ bytesOfNat 8 (next - 1))) s
    let heir := nextMember told l
    let sent := sendHall told heir 2 (bytesOfNat 8 v ++ bytesOfNat 8 next ++ bytesOfNat 8 (next - 1))
    (h.awaiting = true → isMember s = true → s.pkg.life ≠ .decommissioned → Comes .ackWaitTimeout s fun t => t = asked) ∧
    (h.awaiting = false ∨ s.pkg.life = .decommissioned → Comes .ackWaitTimeout s fun t => t = s) ∧
    (isMember s = true → s.pkg.life ≠ .decommissioned → Comes .tokenTimeout s fun t => t = asked) ∧
    (s.pkg.life = .decommissioned → Comes .tokenTimeout s fun t => t = s) ∧
    (h.repl.members ≠ 0 → isMember s = false → Comes .tokenTimeout s fun t => t = s) ∧
    (h.awaiting = false → endVisit s = s) ∧
    (h.token = some (v, next, st) → (∃ x ∈ l, Map.look h.acks x 0 + 1 < next) → endVisit s = s) ∧
    (h.token = some (v, next, st) → h.awaiting = true → (∀ x ∈ l, next ≤ Map.look h.acks x 0 + 1) →
      (heir = told.hall.self → endVisit s =
        deliver (setHall told { told.hall with token := some (v, next, next - 1), awaiting := false, among := none }) (next - 1)) ∧
      (heir ≠ told.hall.self → endVisit s =
        deliver (setHall sent { sent.hall with token := none, awaiting := false, among := none }) (next - 1))) ∧
    (h.token.isSome = true → h.awaiting = false → Comes (.token 24 {}) s fun t => t = visit s)

/-- R371, R374: the collector goes on only where it and its repliers are more than half of the view, and otherwise halts scheduling, until a route to
a member of the view changes, and tells its wing. It starts the token once it has every event that a replier has, and asks a replier with
the longest run for the others (log entry 51, as for the halt). Timers are events (log entry 53), none in a DECOMMISSIONED package (log entry 74). A
member of the view that no route reaches is posted as lost; a joiner whose source is out of reach asks for what was not forwarded, or
starts again. -/
def Statements.RecoveryEvents : Prop :=
  ∀ (s : State) (m : Nat),
    let h := s.hall
    let j := h.joiner
    let top := listMax (h.acked :: h.recov.replies.map fun r => r.2.1)
    (h.recov.active = false ∨ isMember s = false ∨ s.pkg.life = .decommissioned → Comes .recoveryCollect s fun t => t = s) ∧
    (h.recov.active = true → isMember s = true → s.pkg.life ≠ .decommissioned → 2 * (h.recov.replies.length + 1) ≤ (membersOf s).length →
      Comes .recoveryCollect s fun t =>
        t = packageClass (setHall s { h with recov := { h.recov with active := false, halted := true, routes := routesNow s } }) 0x22 7 0) ∧
    (h.recov.active = true → isMember s = true → s.pkg.life ≠ .decommissioned → (membersOf s).length < 2 * (h.recov.replies.length + 1) →
      ((∀ r ∈ h.recov.replies, r.2.1 ≤ h.acked) → Comes .recoveryCollect s fun t => t = startToken s h.acked) ∧
      (h.acked < top → Comes .recoveryCollect s fun t => ∃ r ∈ h.recov.replies, r.2.1 = top ∧
        t = sendSnap (setHall s { h with recov := { h.recov with want := some top } }) r.1 4 (bytesOfNat 8 (h.acked + 1) ++ bytesOfNat 8 top))) ∧
    (h.recov.halted = true → h.recov.active = false → (routesNow s ≠ h.recov.routes → restartHalted s = startRecovery s) ∧
      (routesNow s = h.recov.routes → restartHalted s = s)) ∧
    (portOf s m ≠ 24 ∨ m = h.self ∨ s.pkg.life = .decommissioned → Comes (.suspect m) s fun t => t = s) ∧
    (portOf s m = 24 → m ≠ h.self → s.pkg.life ≠ .decommissioned → isMember s = true →
      (inView s m = true → Comes (.suspect m) s fun t => t = postEvent s { kind := 6, pay := payOf (bytesOfNat 1 m) }) ∧
      (inView s m = false → Comes (.suspect m) s fun t => t = s)) ∧
    (portOf s m = 24 → m ≠ h.self → s.pkg.life ≠ .decommissioned → isMember s = false →
      (j.source = m → j.phase = 3 → h.recv ≠ [] → Comes (.suspect m) s fun t => t = fetchTail s) ∧
      (j.source = m → j.phase = 1 ∨ j.phase = 2 ∨ (j.phase = 3 ∧ h.recv = []) → Comes (.suspect m) s fun t => t = abortFill s) ∧
      (j.source ≠ m ∨ j.phase = 0 ∨ 3 < j.phase → Comes (.suspect m) s fun t => t = s))

/-- R364, R366, R371: delivery. Events are delivered in order and with no gap; during a halt, events of other kinds are kept. BLOCK suspends
its context and UNBLOCK ends that; PRIO sets a queue's priority; FINISH of a rank frees its rows; FAULT ends its kernel; each only where
the context it names is known (log entry 51). LOSS and FENCEOUT take a member of the view out. -/
def Statements.HallDelivery : Prop :=
  ∀ (s : State) (e : HEvent) (r : KRow) (n : Nat),
    let h := s.hall
    let m := fieldAt e.pay 0 1
    let known : Prop := knownCtx s e = true
    let its : Prop := known ∧ r.ctx = e.ctx ∧ r.world = e.world
    let done := { r with finished := r.finished ++ [m], stepReq := r.stepReq || fieldAt e.pay 1 1 % 2 == 1 }
    let halted : Prop := h.repl.halt = true ∨ h.recov.halted = true
    (n ≤ h.delivered → deliver s n = s) ∧
    ((∀ x ∈ h.recv, x.seq ≠ h.delivered + 1) → deliver s n = s) ∧
    (halted → haltKind e.kind = false → takeEvent s e = setHall s { h with kept := h.kept ++ [e] }) ∧
    (¬ halted ∨ haltKind e.kind = true → takeEvent s e = runEvent s e) ∧
    (e.kind = 3 ∨ e.kind = 4 ∨ e.kind = 10 → ¬ known → applyEvent s e = s) ∧
    (e.kind = 3 → known → applyEvent s e = preemptCtx (setSuspended s e.ctx true (fieldAt e.pay 0 4)) e.ctx (fieldAt e.pay 0 4)) ∧
    (e.kind = 4 → known → applyEvent s e = tryWaiting (setSuspended s e.ctx false 0)) ∧
    (e.kind = 10 → known → applyEvent s e = tryWaiting (setRepl s { h.repl with
      queues := Map.put h.repl.queues (queueKey e.ctx (fieldAt e.pay 2 1) (m % 16)) (fieldAt e.pay 1 1 % 8) })) ∧
    (Map.look (setSuspended s e.ctx true n).hall.repl.ctxs e.ctx {}).suspended = true ∧
    (Map.look (setSuspended s e.ctx false 0).hall.repl.ctxs e.ctx {}).suspended = false ∧
    (∀ c, c ≠ e.ctx → Map.look (setSuspended s e.ctx true n).hall.repl.ctxs c {} = Map.look h.repl.ctxs c {}) ∧
    (e.kind = 2 ∨ e.kind = 5 → Map.find h.repl.kernels e.kernel = none → applyEvent s e = s) ∧
    (e.kind = 2 ∨ e.kind = 5 → Map.find h.repl.kernels e.kernel = some r → ¬ its → applyEvent s e = s) ∧
    (e.kind = 5 → Map.find h.repl.kernels e.kernel = some r → its → applyEvent s e = tryWaiting (endKernel s e.kernel 9)) ∧
    (e.kind = 2 → Map.find h.repl.kernels e.kernel = some r → m ∈ r.finished ∨ kNrank r < m → applyEvent s e = s) ∧
    (e.kind = 2 → Map.find h.repl.kernels e.kernel = some r → its → m ∉ r.finished → m ≤ kNrank r → applyEvent s e =
      tryWaiting (settleKernel (reopenGrid (freeRows (setRowK s e.kernel done) e.kernel (some m)) e.kernel) e.kernel)) ∧
    (∀ p ∈ (freeRows s e.kernel (some n)).hall.repl.place, ¬ (p.2.kernel = e.kernel ∧ p.2.rank = n)) ∧
    (e.kind = 6 ∨ e.kind = 8 → inView s m = false → applyEvent s e = s) ∧
    (e.kind = 7 → inView s m = true → applyEvent s e = s) ∧
    (e.kind = 6 ∨ e.kind = 8 → inView s m = true → m ≠ h.self → applyEvent s e = removeMember s m (e.kind == 8))

/-- The hall's timers and recovery, and the delivery of events. -/
def Obligations.HallTimers : Prop := Statements.HallTimers ∧ Statements.RecoveryEvents ∧ Statements.HallDelivery
end

