-- ==== Sys2Proof/Laws/Bits.lean ====
section
/-!
SUPPORT. Laws/Bits.lean: the fields of a word as quotients of its value, for the encodings (R2, R26, R30).
-/
namespace Sys2Proof.Laws

/-- The value of two fields side by side. -/
theorem toNat_fields {n m : Nat} (x : BitVec n) (y : BitVec m) : (x ++ y).toNat = x.toNat * 2 ^ m + y.toNat := by
  rw [BitVec.toNat_append, Nat.shiftLeft_eq, Nat.mul_comm, Nat.two_pow_add_eq_or_of_lt y.isLt]
/-- A field's value. -/
theorem fld_toNat (w : Word) (lo n : Nat) : (fld w lo n).toNat = w.toNat / 2 ^ lo % 2 ^ n := by
  simp [fld, Nat.shiftRight_eq_div_pow]
/-- A field is known by its value. -/
theorem fld_eq {w : Word} {lo n : Nat} {x : BitVec n} (h : w.toNat / 2 ^ lo % 2 ^ n = x.toNat) : fld w lo n = x :=
  BitVec.eq_of_toNat_eq (by rw [fld_toNat, h])
/-- A field above the lower part, and one inside it. -/
theorem extract_left {n m lo k : Nat} (x : BitVec n) (y : BitVec m) (h : m ≤ lo) :
    (x ++ y).extractLsb' lo k = x.extractLsb' (lo - m) k := by
  ext i hi; simp [BitVec.getLsbD_append, show ¬ lo + i < m by omega, show lo + i - m = lo - m + i by omega]
theorem extract_right {n m lo k : Nat} (x : BitVec n) (y : BitVec m) (h : lo + k ≤ m) :
    (x ++ y).extractLsb' lo k = y.extractLsb' lo k := by
  ext i hi; simp [BitVec.getLsbD_append, show lo + i < m by omega]
theorem extract_all {n : Nat} (x : BitVec n) : x.extractLsb' 0 n = x := by
  ext i; simp
/-- Walking from the last part of a word down to a field: past a part, and at the part itself. -/
theorem past {n m lo k : Nat} {x : BitVec n} {y : BitVec m} {z : BitVec k} (h : x.extractLsb' (lo - m) k = z)
    (hm : m ≤ lo := by decide) : (x ++ y).extractLsb' lo k = z := (extract_left x y hm).trans h
theorem here {n k : Nat} {x : BitVec n} {y : BitVec k} : (x ++ y).extractLsb' 0 k = y :=
  (extract_right x y (Nat.le_of_eq (Nat.zero_add k))).trans (extract_all y)
/-- Bytes laid out little-endian give the word back. -/
theorem wordOfBytes_fields (w : Word) : wordOfBytes (fld w 0 8) (fld w 8 8) (fld w 16 8) (fld w 24 8) = w := by
  apply BitVec.eq_of_toNat_eq
  have := w.isLt
  simp only [wordOfBytes, toNat_fields, fld_toNat]
  omega

end Sys2Proof.Laws
end

