-- ==== Sys2Proof/Laws/Dispatch.lean ====
section
/-!
SUPPORT. Laws/Dispatch.lean: the meaning that exec gives to each instruction, one equation a constructor.
-/
namespace Sys2Proof.Machine
set_option Elab.async false

@[simp] theorem exec_nop (st : BitVec 2) (z : State) : exec (.nop st) z = execNop st z := rfl
@[simp] theorem exec_mov (st : BitVec 2) (d : BitVec 7) (b : BitVec 7) (c : BitVec 1) (z : State) : exec (.mov st d b c) z = execMov st d b c z := rfl
@[simp] theorem exec_limm (st : BitVec 2) (d : BitVec 7) (i0 : BitVec 15) (z : State) : exec (.limm st d i0) z = execLimm st d i0 z := rfl
@[simp] theorem exec_limmh (st : BitVec 2) (d : BitVec 7) (i0 : BitVec 15) (z : State) : exec (.limmh st d i0) z = execLimmh st d i0 z := rfl
@[simp] theorem exec_iadd (st : BitVec 2) (d : BitVec 7) (a : BitVec 7) (b : BitVec 7) (c : BitVec 1) (z : State) : exec (.iadd st d a b c) z = execIadd st d a b c z := rfl
@[simp] theorem exec_isub (st : BitVec 2) (d : BitVec 7) (a : BitVec 7) (b : BitVec 7) (c : BitVec 1) (z : State) : exec (.isub st d a b c) z = execIsub st d a b c z := rfl
@[simp] theorem exec_iaddi (st : BitVec 2) (d : BitVec 7) (a : BitVec 7) (i0 : BitVec 8) (z : State) : exec (.iaddi st d a i0) z = execIaddi st d a i0 z := rfl
@[simp] theorem exec_iadd64 (st : BitVec 2) (d : BitVec 7) (a : BitVec 7) (b : BitVec 7) (c : BitVec 1) (z : State) : exec (.iadd64 st d a b c) z = execIadd64 st d a b c z := rfl
@[simp] theorem exec_imul (st : BitVec 2) (d : BitVec 7) (a : BitVec 7) (b : BitVec 7) (c : BitVec 1) (z : State) : exec (.imul st d a b c) z = execImul st d a b c z := rfl
@[simp] theorem exec_imulhi (st : BitVec 2) (d : BitVec 7) (a : BitVec 7) (b : BitVec 7) (c : BitVec 1) (z : State) : exec (.imulhi st d a b c) z = execImulhi st d a b c z := rfl
@[simp] theorem exec_imulhu (st : BitVec 2) (d : BitVec 7) (a : BitVec 7) (b : BitVec 7) (c : BitVec 1) (z : State) : exec (.imulhu st d a b c) z = execImulhu st d a b c z := rfl
@[simp] theorem exec_imad (st : BitVec 2) (d : BitVec 7) (a : BitVec 7) (b : BitVec 7) (c : BitVec 1) (z : State) : exec (.imad st d a b c) z = execImad st d a b c z := rfl
@[simp] theorem exec_imin (st : BitVec 2) (d : BitVec 7) (a : BitVec 7) (b : BitVec 7) (c : BitVec 1) (z : State) : exec (.imin st d a b c) z = execImin st d a b c z := rfl
@[simp] theorem exec_imax (st : BitVec 2) (d : BitVec 7) (a : BitVec 7) (b : BitVec 7) (c : BitVec 1) (z : State) : exec (.imax st d a b c) z = execImax st d a b c z := rfl
@[simp] theorem exec_iminu (st : BitVec 2) (d : BitVec 7) (a : BitVec 7) (b : BitVec 7) (c : BitVec 1) (z : State) : exec (.iminu st d a b c) z = execIminu st d a b c z := rfl
@[simp] theorem exec_imaxu (st : BitVec 2) (d : BitVec 7) (a : BitVec 7) (b : BitVec 7) (c : BitVec 1) (z : State) : exec (.imaxu st d a b c) z = execImaxu st d a b c z := rfl
@[simp] theorem exec_iabs (st : BitVec 2) (d : BitVec 7) (a : BitVec 7) (z : State) : exec (.iabs st d a) z = execIabs st d a z := rfl
@[simp] theorem exec_ineg (st : BitVec 2) (d : BitVec 7) (a : BitVec 7) (z : State) : exec (.ineg st d a) z = execIneg st d a z := rfl
@[simp] theorem exec_and (st : BitVec 2) (d : BitVec 7) (a : BitVec 7) (b : BitVec 7) (c : BitVec 1) (z : State) : exec (.and st d a b c) z = execAnd st d a b c z := rfl
@[simp] theorem exec_or (st : BitVec 2) (d : BitVec 7) (a : BitVec 7) (b : BitVec 7) (c : BitVec 1) (z : State) : exec (.or st d a b c) z = execOr st d a b c z := rfl
@[simp] theorem exec_xor (st : BitVec 2) (d : BitVec 7) (a : BitVec 7) (b : BitVec 7) (c : BitVec 1) (z : State) : exec (.xor st d a b c) z = execXor st d a b c z := rfl
@[simp] theorem exec_andn (st : BitVec 2) (d : BitVec 7) (a : BitVec 7) (b : BitVec 7) (c : BitVec 1) (z : State) : exec (.andn st d a b c) z = execAndn st d a b c z := rfl
@[simp] theorem exec_not (st : BitVec 2) (d : BitVec 7) (a : BitVec 7) (z : State) : exec (.not st d a) z = execNot st d a z := rfl
@[simp] theorem exec_shl (st : BitVec 2) (d : BitVec 7) (a : BitVec 7) (b : BitVec 7) (c : BitVec 1) (z : State) : exec (.shl st d a b c) z = execShl st d a b c z := rfl
@[simp] theorem exec_shr (st : BitVec 2) (d : BitVec 7) (a : BitVec 7) (b : BitVec 7) (c : BitVec 1) (z : State) : exec (.shr st d a b c) z = execShr st d a b c z := rfl
@[simp] theorem exec_sar (st : BitVec 2) (d : BitVec 7) (a : BitVec 7) (b : BitVec 7) (c : BitVec 1) (z : State) : exec (.sar st d a b c) z = execSar st d a b c z := rfl
@[simp] theorem exec_shli (st : BitVec 2) (d : BitVec 7) (a : BitVec 7) (i0 : BitVec 8) (z : State) : exec (.shli st d a i0) z = execShli st d a i0 z := rfl
@[simp] theorem exec_shri (st : BitVec 2) (d : BitVec 7) (a : BitVec 7) (i0 : BitVec 8) (z : State) : exec (.shri st d a i0) z = execShri st d a i0 z := rfl
@[simp] theorem exec_sari (st : BitVec 2) (d : BitVec 7) (a : BitVec 7) (i0 : BitVec 8) (z : State) : exec (.sari st d a i0) z = execSari st d a i0 z := rfl
@[simp] theorem exec_popc (st : BitVec 2) (d : BitVec 7) (a : BitVec 7) (z : State) : exec (.popc st d a) z = execPopc st d a z := rfl
@[simp] theorem exec_clz (st : BitVec 2) (d : BitVec 7) (a : BitVec 7) (z : State) : exec (.clz st d a) z = execClz st d a z := rfl
@[simp] theorem exec_brev (st : BitVec 2) (d : BitVec 7) (a : BitVec 7) (z : State) : exec (.brev st d a) z = execBrev st d a z := rfl
@[simp] theorem exec_bfe (st : BitVec 2) (d : BitVec 7) (a : BitVec 7) (b : BitVec 7) (c : BitVec 1) (z : State) : exec (.bfe st d a b c) z = execBfe st d a b c z := rfl
@[simp] theorem exec_bfi (st : BitVec 2) (d : BitVec 7) (a : BitVec 7) (b : BitVec 7) (c : BitVec 1) (z : State) : exec (.bfi st d a b c) z = execBfi st d a b c z := rfl
@[simp] theorem exec_icmp (st : BitVec 2) (p : BitVec 3) (c : BitVec 4) (a : BitVec 7) (b : BitVec 7) (u : BitVec 1) (z : State) : exec (.icmp st p c a b u) z = execIcmp st p c a b u z := rfl
@[simp] theorem exec_sel (st : BitVec 2) (d : BitVec 7) (a : BitVec 7) (n : BitVec 1) (p : BitVec 3) (z : State) : exec (.sel st d a n p) z = execSel st d a n p z := rfl
@[simp] theorem exec_plut (st : BitVec 2) (d : BitVec 3) (t : BitVec 4) (a : BitVec 3) (b : BitVec 3) (z : State) : exec (.plut st d t a b) z = execPlut st d t a b z := rfl
@[simp] theorem exec_fadd (st : BitVec 2) (d : BitVec 7) (a : BitVec 7) (b : BitVec 7) (c : BitVec 1) (z : State) : exec (.fadd st d a b c) z = execFadd st d a b c z := rfl
@[simp] theorem exec_fsub (st : BitVec 2) (d : BitVec 7) (a : BitVec 7) (b : BitVec 7) (c : BitVec 1) (z : State) : exec (.fsub st d a b c) z = execFsub st d a b c z := rfl
@[simp] theorem exec_fmul (st : BitVec 2) (d : BitVec 7) (a : BitVec 7) (b : BitVec 7) (c : BitVec 1) (z : State) : exec (.fmul st d a b c) z = execFmul st d a b c z := rfl
@[simp] theorem exec_ffma (st : BitVec 2) (d : BitVec 7) (a : BitVec 7) (b : BitVec 7) (c : BitVec 1) (z : State) : exec (.ffma st d a b c) z = execFfma st d a b c z := rfl
@[simp] theorem exec_fmin (st : BitVec 2) (d : BitVec 7) (a : BitVec 7) (b : BitVec 7) (c : BitVec 1) (z : State) : exec (.fmin st d a b c) z = execFmin st d a b c z := rfl
@[simp] theorem exec_fmax (st : BitVec 2) (d : BitVec 7) (a : BitVec 7) (b : BitVec 7) (c : BitVec 1) (z : State) : exec (.fmax st d a b c) z = execFmax st d a b c z := rfl
@[simp] theorem exec_fabs (st : BitVec 2) (d : BitVec 7) (a : BitVec 7) (z : State) : exec (.fabs st d a) z = execFabs st d a z := rfl
@[simp] theorem exec_fneg (st : BitVec 2) (d : BitVec 7) (a : BitVec 7) (z : State) : exec (.fneg st d a) z = execFneg st d a z := rfl
@[simp] theorem exec_fcmp (st : BitVec 2) (p : BitVec 3) (c : BitVec 4) (a : BitVec 7) (b : BitVec 7) (u : BitVec 1) (z : State) : exec (.fcmp st p c a b u) z = execFcmp st p c a b u z := rfl
@[simp] theorem exec_frcp (st : BitVec 2) (d : BitVec 7) (a : BitVec 7) (z : State) : exec (.frcp st d a) z = execFrcp st d a z := rfl
@[simp] theorem exec_frsq (st : BitVec 2) (d : BitVec 7) (a : BitVec 7) (z : State) : exec (.frsq st d a) z = execFrsq st d a z := rfl
@[simp] theorem exec_fsqrt (st : BitVec 2) (d : BitVec 7) (a : BitVec 7) (z : State) : exec (.fsqrt st d a) z = execFsqrt st d a z := rfl
@[simp] theorem exec_fexp2 (st : BitVec 2) (d : BitVec 7) (a : BitVec 7) (z : State) : exec (.fexp2 st d a) z = execFexp2 st d a z := rfl
@[simp] theorem exec_flog2 (st : BitVec 2) (d : BitVec 7) (a : BitVec 7) (z : State) : exec (.flog2 st d a) z = execFlog2 st d a z := rfl
@[simp] theorem exec_fsint (st : BitVec 2) (d : BitVec 7) (a : BitVec 7) (z : State) : exec (.fsint st d a) z = execFsint st d a z := rfl
@[simp] theorem exec_fcost (st : BitVec 2) (d : BitVec 7) (a : BitVec 7) (z : State) : exec (.fcost st d a) z = execFcost st d a z := rfl
@[simp] theorem exec_frnd (st : BitVec 2) (d : BitVec 7) (a : BitVec 7) (m : BitVec 2) (z : State) : exec (.frnd st d a m) z = execFrnd st d a m z := rfl
@[simp] theorem exec_fclass (st : BitVec 2) (d : BitVec 7) (a : BitVec 7) (z : State) : exec (.fclass st d a) z = execFclass st d a z := rfl
@[simp] theorem exec_pbadd (st : BitVec 2) (d : BitVec 7) (a : BitVec 7) (b : BitVec 7) (c : BitVec 1) (z : State) : exec (.pbadd st d a b c) z = execPbadd st d a b c z := rfl
@[simp] theorem exec_pbmul (st : BitVec 2) (d : BitVec 7) (a : BitVec 7) (b : BitVec 7) (c : BitVec 1) (z : State) : exec (.pbmul st d a b c) z = execPbmul st d a b c z := rfl
@[simp] theorem exec_pbfma (st : BitVec 2) (d : BitVec 7) (a : BitVec 7) (b : BitVec 7) (c : BitVec 1) (z : State) : exec (.pbfma st d a b c) z = execPbfma st d a b c z := rfl
@[simp] theorem exec_phadd (st : BitVec 2) (d : BitVec 7) (a : BitVec 7) (b : BitVec 7) (c : BitVec 1) (z : State) : exec (.phadd st d a b c) z = execPhadd st d a b c z := rfl
@[simp] theorem exec_phmul (st : BitVec 2) (d : BitVec 7) (a : BitVec 7) (b : BitVec 7) (c : BitVec 1) (z : State) : exec (.phmul st d a b c) z = execPhmul st d a b c z := rfl
@[simp] theorem exec_phfma (st : BitVec 2) (d : BitVec 7) (a : BitVec 7) (b : BitVec 7) (c : BitVec 1) (z : State) : exec (.phfma st d a b c) z = execPhfma st d a b c z := rfl
@[simp] theorem exec_cvt (st : BitVec 2) (d : BitVec 7) (a : BitVec 7) (m : BitVec 2) (t : BitVec 3) (u : BitVec 3) (z : State) : exec (.cvt st d a m t u) z = execCvt st d a m t u z := rfl
@[simp] theorem exec_bsplit (st : BitVec 2) (d : BitVec 7) (a : BitVec 7) (z : State) : exec (.bsplit st d a) z = execBsplit st d a z := rfl
@[simp] theorem exec_pack2 (st : BitVec 2) (d : BitVec 7) (a : BitVec 7) (b : BitVec 7) (c : BitVec 1) (z : State) : exec (.pack2 st d a b c) z = execPack2 st d a b c z := rfl
@[simp] theorem exec_unpk2 (st : BitVec 2) (d : BitVec 7) (a : BitVec 7) (q : BitVec 2) (h : BitVec 1) (z : State) : exec (.unpk2 st d a q h) z = execUnpk2 st d a q h z := rfl
@[simp] theorem exec_qnt (st : BitVec 2) (d : BitVec 7) (a : BitVec 7) (p : BitVec 3) (k : BitVec 3) (z : State) : exec (.qnt st d a p k) z = execQnt st d a p k z := rfl
@[simp] theorem exec_dqnt (st : BitVec 2) (d : BitVec 7) (a : BitVec 7) (f : BitVec 2) (m : BitVec 3) (k : BitVec 3) (z : State) : exec (.dqnt st d a f m k) z = execDqnt st d a f m k z := rfl
@[simp] theorem exec_niget (st : BitVec 2) (d : BitVec 7) (a : BitVec 7) (m : BitVec 3) (z : State) : exec (.niget st d a m) z = execNiget st d a m z := rfl
@[simp] theorem exec_niput (st : BitVec 2) (d : BitVec 7) (a : BitVec 7) (k : BitVec 3) (z : State) : exec (.niput st d a k) z = execNiput st d a k z := rfl
@[simp] theorem exec_sacc (st : BitVec 2) (d : BitVec 7) (a : BitVec 7) (b : BitVec 7) (c : BitVec 1) (z : State) : exec (.sacc st d a b c) z = execSacc st d a b c z := rfl
@[simp] theorem exec_lds (st : BitVec 2) (d : BitVec 7) (a : BitVec 7) (o : BitVec 8) (z : State) : exec (.lds st d a o) z = execLds st d a o z := rfl
@[simp] theorem exec_sts (st : BitVec 2) (d : BitVec 7) (a : BitVec 7) (o : BitVec 8) (z : State) : exec (.sts st d a o) z = execSts st d a o z := rfl
@[simp] theorem exec_lds64 (st : BitVec 2) (d : BitVec 7) (a : BitVec 7) (o : BitVec 8) (z : State) : exec (.lds64 st d a o) z = execLds64 st d a o z := rfl
@[simp] theorem exec_sts64 (st : BitVec 2) (d : BitVec 7) (a : BitVec 7) (o : BitVec 8) (z : State) : exec (.sts64 st d a o) z = execSts64 st d a o z := rfl
@[simp] theorem exec_ldw (st : BitVec 2) (d : BitVec 7) (a : BitVec 7) (o : BitVec 8) (z : State) : exec (.ldw st d a o) z = execLdw st d a o z := rfl
@[simp] theorem exec_stw (st : BitVec 2) (d : BitVec 7) (a : BitVec 7) (o : BitVec 8) (z : State) : exec (.stw st d a o) z = execStw st d a o z := rfl
@[simp] theorem exec_ldsp (st : BitVec 2) (d : BitVec 7) (a : BitVec 7) (o : BitVec 8) (z : State) : exec (.ldsp st d a o) z = execLdsp st d a o z := rfl
@[simp] theorem exec_stsp (st : BitVec 2) (d : BitVec 7) (a : BitVec 7) (o : BitVec 8) (z : State) : exec (.stsp st d a o) z = execStsp st d a o z := rfl
@[simp] theorem exec_ldd (st : BitVec 2) (d : BitVec 7) (a : BitVec 7) (o : BitVec 8) (z : State) : exec (.ldd st d a o) z = execLdd st d a o z := rfl
@[simp] theorem exec_std (st : BitVec 2) (d : BitVec 7) (a : BitVec 7) (o : BitVec 8) (z : State) : exec (.std st d a o) z = execStd st d a o z := rfl
@[simp] theorem exec_ldc (st : BitVec 2) (d : BitVec 7) (a : BitVec 7) (o : BitVec 8) (z : State) : exec (.ldc st d a o) z = execLdc st d a o z := rfl
@[simp] theorem exec_atom (st : BitVec 2) (d : BitVec 7) (a : BitVec 7) (f : BitVec 4) (p : BitVec 2) (z : State) : exec (.atom st d a f p) z = execAtom st d a f p z := rfl
@[simp] theorem exec_cas (st : BitVec 2) (d : BitVec 7) (a : BitVec 7) (p : BitVec 2) (z : State) : exec (.cas st d a p) z = execCas st d a p z := rfl
@[simp] theorem exec_shfli (st : BitVec 2) (d : BitVec 7) (a : BitVec 7) (m : BitVec 2) (c : BitVec 6) (z : State) : exec (.shfli st d a m c) z = execShfli st d a m c z := rfl
@[simp] theorem exec_shfl (st : BitVec 2) (d : BitVec 7) (a : BitVec 7) (b : BitVec 7) (c : BitVec 1) (z : State) : exec (.shfl st d a b c) z = execShfl st d a b c z := rfl
@[simp] theorem exec_vote (st : BitVec 2) (p : BitVec 3) (o : BitVec 2) (n : BitVec 1) (q : BitVec 3) (z : State) : exec (.vote st p o n q) z = execVote st p o n q z := rfl
@[simp] theorem exec_ballot (st : BitVec 2) (d : BitVec 7) (h : BitVec 2) (n : BitVec 1) (p : BitVec 3) (z : State) : exec (.ballot st d h n p) z = execBallot st d h n p z := rfl
@[simp] theorem exec_rdlane (st : BitVec 2) (d : BitVec 7) (a : BitVec 7) (i0 : BitVec 7) (z : State) : exec (.rdlane st d a i0) z = execRdlane st d a i0 z := rfl
@[simp] theorem exec_wrlane (st : BitVec 2) (d : BitVec 7) (a : BitVec 7) (i0 : BitVec 7) (z : State) : exec (.wrlane st d a i0) z = execWrlane st d a i0 z := rfl
@[simp] theorem exec_matchKeys (st : BitVec 2) (d : BitVec 7) (a : BitVec 7) (b : BitVec 7) (c : BitVec 1) (z : State) : exec (.matchKeys st d a b c) z = execMatchKeys st d a b c z := rfl
@[simp] theorem exec_gen (st : BitVec 2) (d : BitVec 7) (a : BitVec 7) (g : BitVec 3) (z : State) : exec (.gen st d a g) z = execGen st d a g z := rfl
@[simp] theorem exec_gent (st : BitVec 2) (d : BitVec 7) (a : BitVec 7) (g : BitVec 3) (z : State) : exec (.gent st d a g) z = execGent st d a g z := rfl
@[simp] theorem exec_svc (st : BitVec 2) (d : BitVec 5) (n : BitVec 15) (z : State) : exec (.svc st d n) z = execSvc st d n z := rfl
@[simp] theorem exec_laneid (st : BitVec 2) (d : BitVec 7) (z : State) : exec (.laneid st d) z = execLaneid st d z := rfl
@[simp] theorem exec_brk (st : BitVec 2) (n : BitVec 15) (z : State) : exec (.brk st n) z = execBrk st n z := rfl
@[simp] theorem exec_snop (st : BitVec 2) (z : State) : exec (.snop st) z = execSnop st z := rfl
@[simp] theorem exec_smov (st : BitVec 2) (d : BitVec 7) (b : BitVec 7) (z : State) : exec (.smov st d b) z = execSmov st d b z := rfl
@[simp] theorem exec_slimm (st : BitVec 2) (d : BitVec 7) (i0 : BitVec 15) (z : State) : exec (.slimm st d i0) z = execSlimm st d i0 z := rfl
@[simp] theorem exec_slimmh (st : BitVec 2) (d : BitVec 7) (i0 : BitVec 15) (z : State) : exec (.slimmh st d i0) z = execSlimmh st d i0 z := rfl
@[simp] theorem exec_sadd (st : BitVec 2) (d : BitVec 7) (a : BitVec 7) (b : BitVec 7) (z : State) : exec (.sadd st d a b) z = execSadd st d a b z := rfl
@[simp] theorem exec_ssub (st : BitVec 2) (d : BitVec 7) (a : BitVec 7) (b : BitVec 7) (z : State) : exec (.ssub st d a b) z = execSsub st d a b z := rfl
@[simp] theorem exec_saddi (st : BitVec 2) (d : BitVec 7) (a : BitVec 7) (i0 : BitVec 8) (z : State) : exec (.saddi st d a i0) z = execSaddi st d a i0 z := rfl
@[simp] theorem exec_sadd64 (st : BitVec 2) (d : BitVec 7) (a : BitVec 7) (b : BitVec 7) (z : State) : exec (.sadd64 st d a b) z = execSadd64 st d a b z := rfl
@[simp] theorem exec_smul (st : BitVec 2) (d : BitVec 7) (a : BitVec 7) (b : BitVec 7) (z : State) : exec (.smul st d a b) z = execSmul st d a b z := rfl
@[simp] theorem exec_smulhi (st : BitVec 2) (d : BitVec 7) (a : BitVec 7) (b : BitVec 7) (u : BitVec 1) (z : State) : exec (.smulhi st d a b u) z = execSmulhi st d a b u z := rfl
@[simp] theorem exec_sand (st : BitVec 2) (d : BitVec 7) (a : BitVec 7) (b : BitVec 7) (z : State) : exec (.sand st d a b) z = execSand st d a b z := rfl
@[simp] theorem exec_sor (st : BitVec 2) (d : BitVec 7) (a : BitVec 7) (b : BitVec 7) (z : State) : exec (.sor st d a b) z = execSor st d a b z := rfl
@[simp] theorem exec_sxor (st : BitVec 2) (d : BitVec 7) (a : BitVec 7) (b : BitVec 7) (z : State) : exec (.sxor st d a b) z = execSxor st d a b z := rfl
@[simp] theorem exec_sshl (st : BitVec 2) (d : BitVec 7) (a : BitVec 7) (b : BitVec 7) (z : State) : exec (.sshl st d a b) z = execSshl st d a b z := rfl
@[simp] theorem exec_sshr (st : BitVec 2) (d : BitVec 7) (a : BitVec 7) (b : BitVec 7) (z : State) : exec (.sshr st d a b) z = execSshr st d a b z := rfl
@[simp] theorem exec_ssar (st : BitVec 2) (d : BitVec 7) (a : BitVec 7) (b : BitVec 7) (z : State) : exec (.ssar st d a b) z = execSsar st d a b z := rfl
@[simp] theorem exec_sshli (st : BitVec 2) (d : BitVec 7) (a : BitVec 7) (i0 : BitVec 8) (z : State) : exec (.sshli st d a i0) z = execSshli st d a i0 z := rfl
@[simp] theorem exec_sshri (st : BitVec 2) (d : BitVec 7) (a : BitVec 7) (i0 : BitVec 8) (z : State) : exec (.sshri st d a i0) z = execSshri st d a i0 z := rfl
@[simp] theorem exec_smin (st : BitVec 2) (d : BitVec 7) (a : BitVec 7) (b : BitVec 7) (u : BitVec 1) (z : State) : exec (.smin st d a b u) z = execSmin st d a b u z := rfl
@[simp] theorem exec_smax (st : BitVec 2) (d : BitVec 7) (a : BitVec 7) (b : BitVec 7) (u : BitVec 1) (z : State) : exec (.smax st d a b u) z = execSmax st d a b u z := rfl
@[simp] theorem exec_spopc (st : BitVec 2) (d : BitVec 7) (a : BitVec 7) (z : State) : exec (.spopc st d a) z = execSpopc st d a z := rfl
@[simp] theorem exec_sclz (st : BitVec 2) (d : BitVec 7) (a : BitVec 7) (z : State) : exec (.sclz st d a) z = execSclz st d a z := rfl
@[simp] theorem exec_scmp (st : BitVec 2) (p : BitVec 3) (c : BitVec 4) (a : BitVec 7) (b : BitVec 7) (z : State) : exec (.scmp st p c a b) z = execScmp st p c a b z := rfl
@[simp] theorem exec_ssel (st : BitVec 2) (d : BitVec 7) (a : BitVec 7) (p : BitVec 3) (n : BitVec 1) (z : State) : exec (.ssel st d a p n) z = execSsel st d a p n z := rfl
@[simp] theorem exec_sfadd (st : BitVec 2) (d : BitVec 7) (a : BitVec 7) (b : BitVec 7) (z : State) : exec (.sfadd st d a b) z = execSfadd st d a b z := rfl
@[simp] theorem exec_sfmul (st : BitVec 2) (d : BitVec 7) (a : BitVec 7) (b : BitVec 7) (z : State) : exec (.sfmul st d a b) z = execSfmul st d a b z := rfl
@[simp] theorem exec_sffma (st : BitVec 2) (d : BitVec 7) (a : BitVec 7) (b : BitVec 7) (z : State) : exec (.sffma st d a b) z = execSffma st d a b z := rfl
@[simp] theorem exec_sldc (st : BitVec 2) (d : BitVec 7) (a : BitVec 7) (i0 : BitVec 8) (z : State) : exec (.sldc st d a i0) z = execSldc st d a i0 z := rfl
@[simp] theorem exec_slds (st : BitVec 2) (d : BitVec 7) (a : BitVec 7) (i0 : BitVec 8) (z : State) : exec (.slds st d a i0) z = execSlds st d a i0 z := rfl
@[simp] theorem exec_ssts (st : BitVec 2) (d : BitVec 7) (a : BitVec 7) (i0 : BitVec 8) (z : State) : exec (.ssts st d a i0) z = execSsts st d a i0 z := rfl
@[simp] theorem exec_srd (st : BitVec 2) (d : BitVec 7) (c : BitVec 7) (l : BitVec 1) (z : State) : exec (.srd st d c l) z = execSrd st d c l z := rfl
@[simp] theorem exec_swr (st : BitVec 2) (a : BitVec 7) (c : BitVec 7) (z : State) : exec (.swr st a c) z = execSwr st a c z := rfl
@[simp] theorem exec_bra (st : BitVec 2) (p : BitVec 3) (n : BitVec 1) (o : BitVec 18) (z : State) : exec (.bra st p n o) z = execBra st p n o z := rfl
@[simp] theorem exec_br (st : BitVec 2) (p : BitVec 3) (n : BitVec 1) (o : BitVec 18) (z : State) : exec (.br st p n o) z = execBr st p n o z := rfl
@[simp] theorem exec_join (st : BitVec 2) (z : State) : exec (.join st) z = execJoin st z := rfl
@[simp] theorem exec_jmp (st : BitVec 2) (o : BitVec 18) (z : State) : exec (.jmp st o) z = execJmp st o z := rfl
@[simp] theorem exec_call (st : BitVec 2) (o : BitVec 18) (z : State) : exec (.call st o) z = execCall st o z := rfl
@[simp] theorem exec_ret (st : BitVec 2) (z : State) : exec (.ret st) z = execRet st z := rfl
@[simp] theorem exec_brx (st : BitVec 2) (a : BitVec 7) (z : State) : exec (.brx st a) z = execBrx st a z := rfl
@[simp] theorem exec_lhead (st : BitVec 2) (p : BitVec 3) (n : BitVec 1) (z : State) : exec (.lhead st p n) z = execLhead st p n z := rfl
@[simp] theorem exec_exit (st : BitVec 2) (z : State) : exec (.exit st) z = execExit st z := rfl
@[simp] theorem exec_sleep (st : BitVec 2) (i0 : BitVec 15) (z : State) : exec (.sleep st i0) z = execSleep st i0 z := rfl
@[simp] theorem exec_emrd (st : BitVec 2) (d : BitVec 5) (z : State) : exec (.emrd st d) z = execEmrd st d z := rfl
@[simp] theorem exec_emwr (st : BitVec 2) (a : BitVec 5) (z : State) : exec (.emwr st a) z = execEmwr st a z := rfl
@[simp] theorem exec_emandReg (st : BitVec 2) (a : BitVec 5) (z : State) : exec (.emandReg st a) z = execEmandReg st a z := rfl
@[simp] theorem exec_emandPred (st : BitVec 2) (p : BitVec 3) (n : BitVec 1) (z : State) : exec (.emandPred st p n) z = execEmandPred st p n z := rfl
@[simp] theorem exec_xlate (st : BitVec 2) (a : BitVec 6) (m : BitVec 1) (w : BitVec 1) (r : BitVec 1) (x : BitVec 3) (z : State) : exec (.xlate st a m w r x) z = execXlate st a m w r x z := rfl
@[simp] theorem exec_xrd (st : BitVec 2) (d : BitVec 5) (n : BitVec 3) (z : State) : exec (.xrd st d n) z = execXrd st d n z := rfl
@[simp] theorem exec_xinv (st : BitVec 2) (m : BitVec 8) (z : State) : exec (.xinv st m) z = execXinv st m z := rfl
@[simp] theorem exec_fence (st : BitVec 2) (c : BitVec 3) (k : BitVec 2) (z : State) : exec (.fence st c k) z = execFence st c k z := rfl
@[simp] theorem exec_ackrd (st : BitVec 2) (d : BitVec 7) (z : State) : exec (.ackrd st d) z = execAckrd st d z := rfl
@[simp] theorem exec_icinv (st : BitVec 2) (c : BitVec 3) (l : BitVec 1) (z : State) : exec (.icinv st c l) z = execIcinv st c l z := rfl
@[simp] theorem exec_region (st : BitVec 2) (i0 : BitVec 8) (z : State) : exec (.region st i0) z = execRegion st i0 z := rfl
@[simp] theorem exec_regend (st : BitVec 2) (z : State) : exec (.regend st) z = execRegend st z := rfl
@[simp] theorem exec_cpy (st : BitVec 2) (d : BitVec 7) (a : BitVec 4) (k : BitVec 4) (f : BitVec 4) (z : State) : exec (.cpy st d a k f) z = execCpy st d a k f z := rfl
@[simp] theorem exec_cpyg (st : BitVec 2) (d : BitVec 7) (a : BitVec 4) (k : BitVec 4) (f : BitVec 4) (z : State) : exec (.cpyg st d a k f) z = execCpyg st d a k f z := rfl
@[simp] theorem exec_cpyr (st : BitVec 2) (d : BitVec 7) (a : BitVec 4) (k : BitVec 4) (f : BitVec 4) (z : State) : exec (.cpyr st d a k f) z = execCpyr st d a k f z := rfl
@[simp] theorem exec_cpya (st : BitVec 2) (d : BitVec 7) (a : BitVec 4) (k : BitVec 4) (f : BitVec 4) (z : State) : exec (.cpya st d a k f) z = execCpya st d a k f z := rfl
@[simp] theorem exec_cbatch (st : BitVec 2) (d : BitVec 7) (z : State) : exec (.cbatch st d) z = execCbatch st d z := rfl
@[simp] theorem exec_waitb (st : BitVec 2) (a : BitVec 7) (z : State) : exec (.waitb st a) z = execWaitb st a z := rfl
@[simp] theorem exec_testc (st : BitVec 2) (d : BitVec 7) (a : BitVec 7) (b : BitVec 7) (z : State) : exec (.testc st d a b) z = execTestc st d a b z := rfl
@[simp] theorem exec_waitc (st : BitVec 2) (a : BitVec 7) (b : BitVec 7) (z : State) : exec (.waitc st a b) z = execWaitc st a b z := rfl
@[simp] theorem exec_mma (st : BitVec 2) (d : BitVec 7) (a : BitVec 4) (k : BitVec 4) (f : BitVec 4) (z : State) : exec (.mma st d a k f) z = execMma st d a k f z := rfl
@[simp] theorem exec_mmai (st : BitVec 2) (d : BitVec 7) (a : BitVec 4) (k : BitVec 4) (f : BitVec 4) (z : State) : exec (.mmai st d a k f) z = execMmai st d a k f z := rfl
@[simp] theorem exec_ldst (st : BitVec 2) (d : BitVec 7) (a : BitVec 4) (k : BitVec 4) (f : BitVec 4) (z : State) : exec (.ldst st d a k f) z = execLdst st d a k f z := rfl
@[simp] theorem exec_accz (st : BitVec 2) (d : BitVec 7) (a : BitVec 4) (k : BitVec 4) (f : BitVec 4) (z : State) : exec (.accz st d a k f) z = execAccz st d a k f z := rfl
@[simp] theorem exec_accrd (st : BitVec 2) (d : BitVec 7) (a : BitVec 4) (k : BitVec 4) (f : BitVec 4) (z : State) : exec (.accrd st d a k f) z = execAccrd st d a k f z := rfl
@[simp] theorem exec_accwr (st : BitVec 2) (d : BitVec 7) (a : BitVec 4) (k : BitVec 4) (f : BitVec 4) (z : State) : exec (.accwr st d a k f) z = execAccwr st d a k f z := rfl
@[simp] theorem exec_sacct (st : BitVec 2) (d : BitVec 7) (a : BitVec 4) (k : BitVec 4) (f : BitVec 4) (z : State) : exec (.sacct st d a k f) z = execSacct st d a k f z := rfl
@[simp] theorem exec_opfence (st : BitVec 2) (z : State) : exec (.opfence st) z = execOpfence st z := rfl
@[simp] theorem exec_waitm (st : BitVec 2) (a : BitVec 7) (z : State) : exec (.waitm st a) z = execWaitm st a z := rfl
@[simp] theorem exec_mseq (st : BitVec 2) (d : BitVec 7) (a : BitVec 7) (z : State) : exec (.mseq st d a) z = execMseq st d a z := rfl
@[simp] theorem exec_tailp (st : BitVec 2) (a : BitVec 7) (r : BitVec 1) (z : State) : exec (.tailp st a r) z = execTailp st a r z := rfl
@[simp] theorem exec_gset (st : BitVec 2) (a : BitVec 5) (g : BitVec 3) (z : State) : exec (.gset st a g) z = execGset st a g z := rfl
@[simp] theorem exec_grd (st : BitVec 2) (d : BitVec 5) (g : BitVec 3) (z : State) : exec (.grd st d g) z = execGrd st d g z := rfl
@[simp] theorem exec_gstep (st : BitVec 2) (z : State) : exec (.gstep st) z = execGstep st z := rfl
@[simp] theorem exec_kset (st : BitVec 2) (a : BitVec 7) (k : BitVec 4) (m : BitVec 2) (z : State) : exec (.kset st a k m) z = execKset st a k m z := rfl
@[simp] theorem exec_krd (st : BitVec 2) (d : BitVec 7) (z : State) : exec (.krd st d) z = execKrd st d z := rfl
@[simp] theorem exec_kclr (st : BitVec 2) (k : BitVec 4) (z : State) : exec (.kclr st k) z = execKclr st k z := rfl
@[simp] theorem exec_bar (st : BitVec 2) (i0 : BitVec 3) (z : State) : exec (.bar st i0) z = execBar st i0 z := rfl
@[simp] theorem exec_barc (st : BitVec 2) (z : State) : exec (.barc st) z = execBarc st z := rfl
@[simp] theorem exec_barm (st : BitVec 2) (a : BitVec 5) (i0 : BitVec 3) (z : State) : exec (.barm st a i0) z = execBarm st a i0 z := rfl
@[simp] theorem exec_arrive (st : BitVec 2) (i0 : BitVec 3) (z : State) : exec (.arrive st i0) z = execArrive st i0 z := rfl
@[simp] theorem exec_await (st : BitVec 2) (i0 : BitVec 3) (z : State) : exec (.await st i0) z = execAwait st i0 z := rfl
@[simp] theorem exec_barg (st : BitVec 2) (z : State) : exec (.barg st) z = execBarg st z := rfl
@[simp] theorem exec_barinit (st : BitVec 2) (a : BitVec 5) (i0 : BitVec 3) (z : State) : exec (.barinit st a i0) z = execBarinit st a i0 z := rfl
@[simp] theorem exec_barrd (st : BitVec 2) (d : BitVec 7) (k : BitVec 2) (i0 : BitVec 3) (z : State) : exec (.barrd st d k i0) z = execBarrd st d k i0 z := rfl
@[simp] theorem exec_qpush (st : BitVec 2) (a : BitVec 3) (q : BitVec 4) (z : State) : exec (.qpush st a q) z = execQpush st a q z := rfl
@[simp] theorem exec_launch (st : BitVec 2) (a : BitVec 3) (z : State) : exec (.launch st a) z = execLaunch st a z := rfl
@[simp] theorem exec_shape (st : BitVec 2) (a : BitVec 5) (z : State) : exec (.shape st a) z = execShape st a z := rfl
@[simp] theorem exec_arm (st : BitVec 2) (o : BitVec 2) (a : BitVec 7) (t : BitVec 4) (c : BitVec 3) (z : State) : exec (.arm st o a t c) z = execArm st o a t c z := rfl
@[simp] theorem exec_hring (st : BitVec 2) (a : BitVec 5) (j : BitVec 4) (f : BitVec 1) (n : BitVec 1) (z : State) : exec (.hring st a j f n) z = execHring st a j f n z := rfl
@[simp] theorem exec_hpost (st : BitVec 2) (a : BitVec 3) (z : State) : exec (.hpost st a) z = execHpost st a z := rfl
@[simp] theorem exec_mapft (st : BitVec 2) (o : BitVec 2) (a : BitVec 5) (z : State) : exec (.mapft st o a) z = execMapft st o a z := rfl
@[simp] theorem exec_fqpost (st : BitVec 2) (a : BitVec 5) (z : State) : exec (.fqpost st a) z = execFqpost st a z := rfl
@[simp] theorem exec_tlbinv (st : BitVec 2) (a : BitVec 5) (z : State) : exec (.tlbinv st a) z = execTlbinv st a z := rfl
@[simp] theorem exec_trap (st : BitVec 2) (n : BitVec 16) (z : State) : exec (.trap st n) z = execTrap st n z := rfl
@[simp] theorem exec_rft (st : BitVec 2) (r : BitVec 1) (z : State) : exec (.rft st r) z = execRft st r z := rfl
@[simp] theorem exec_srdp (st : BitVec 2) (d : BitVec 7) (c : BitVec 7) (z : State) : exec (.srdp st d c) z = execSrdp st d c z := rfl
@[simp] theorem exec_swrp (st : BitVec 2) (a : BitVec 7) (c : BitVec 7) (z : State) : exec (.swrp st a c) z = execSwrp st a c z := rfl
@[simp] theorem exec_sleepw (st : BitVec 2) (c : BitVec 2) (a : BitVec 7) (b : BitVec 7) (z : State) : exec (.sleepw st c a b) z = execSleepw st c a b z := rfl
@[simp] theorem exec_fqtake (st : BitVec 2) (d : BitVec 4) (w : BitVec 1) (z : State) : exec (.fqtake st d w) z = execFqtake st d w z := rfl
@[simp] theorem exec_svctake (st : BitVec 2) (d : BitVec 4) (w : BitVec 1) (z : State) : exec (.svctake st d w) z = execSvctake st d w z := rfl
@[simp] theorem exec_svcdone (st : BitVec 2) (a : BitVec 7) (b : BitVec 7) (z : State) : exec (.svcdone st a b) z = execSvcdone st a b z := rfl
@[simp] theorem exec_groupWaitEnds (g : Nat) (z : State) : exec (.groupWaitEnds g) z = execGroupWaitEnds g z := rfl
@[simp] theorem exec_storePerformed (g : Nat) (i0 : Nat) (z : State) : exec (.storePerformed g i0) z = execStorePerformed g i0 z := rfl
@[simp] theorem exec_notify (f : Nat) (slot : Nat) (val : Word) (z : State) : exec (.notify f slot val) z = execNotify f slot val z := rfl
@[simp] theorem exec_launchCmd (c : CmdRef) (z : State) : exec (.launchCmd c) z = execLaunchCmd c z := rfl
@[simp] theorem exec_copy (c : CmdRef) (z : State) : exec (.copy c) z = execCopy c z := rfl
@[simp] theorem exec_wait (c : CmdRef) (z : State) : exec (.wait c) z = execWait c z := rfl
@[simp] theorem exec_waitReevaluate (c : CmdRef) (z : State) : exec (.waitReevaluate c) z = execWaitReevaluate c z := rfl
@[simp] theorem exec_signal (c : CmdRef) (z : State) : exec (.signal c) z = execSignal c z := rfl
@[simp] theorem exec_graph (c : CmdRef) (z : State) : exec (.graph c) z = execGraph c z := rfl
@[simp] theorem exec_graphRunStart (ctx : Nat) (slot : Nat) (z : State) : exec (.graphRunStart ctx slot) z = execGraphRunStart ctx slot z := rfl
@[simp] theorem exec_cond (c : CmdRef) (z : State) : exec (.cond c) z = execCond c z := rfl
@[simp] theorem exec_commandComplete (c : CmdRef) (z : State) : exec (.commandComplete c) z = execCommandComplete c z := rfl
@[simp] theorem exec_queueOff (ctx : Nat) (q : Nat) (z : State) : exec (.queueOff ctx q) z = execQueueOff ctx q z := rfl
@[simp] theorem exec_completionRecord (ctx : Nat) (i0 : Nat) (z : State) : exec (.completionRecord ctx i0) z = execCompletionRecord ctx i0 z := rfl
@[simp] theorem exec_serviceSliceBoundary (die : Nat) (z : State) : exec (.serviceSliceBoundary die) z = execServiceSliceBoundary die z := rfl
@[simp] theorem exec_create (f : Nat) (a0 : Addr) (a1 : Addr) (a2 : Addr) (a3 : Addr) (z : State) : exec (.create f a0 a1 a2 a3) z = execCreate f a0 a1 a2 a3 z := rfl
@[simp] theorem exec_setattr (f : Nat) (a0 : Addr) (a1 : Addr) (a2 : Addr) (a3 : Addr) (z : State) : exec (.setattr f a0 a1 a2 a3) z = execSetattr f a0 a1 a2 a3 z := rfl
@[simp] theorem exec_map (f : Nat) (a0 : Addr) (a1 : Addr) (a2 : Addr) (a3 : Addr) (z : State) : exec (.map f a0 a1 a2 a3) z = execMap f a0 a1 a2 a3 z := rfl
@[simp] theorem exec_unmap (f : Nat) (a0 : Addr) (a1 : Addr) (a2 : Addr) (a3 : Addr) (z : State) : exec (.unmap f a0 a1 a2 a3) z = execUnmap f a0 a1 a2 a3 z := rfl
@[simp] theorem exec_sealCtx (f : Nat) (a0 : Addr) (a1 : Addr) (a2 : Addr) (a3 : Addr) (z : State) : exec (.sealCtx f a0 a1 a2 a3) z = execSealCtx f a0 a1 a2 a3 z := rfl
@[simp] theorem exec_suspend (f : Nat) (a0 : Addr) (a1 : Addr) (a2 : Addr) (a3 : Addr) (z : State) : exec (.suspend f a0 a1 a2 a3) z = execSuspend f a0 a1 a2 a3 z := rfl
@[simp] theorem exec_resume (f : Nat) (a0 : Addr) (a1 : Addr) (a2 : Addr) (a3 : Addr) (z : State) : exec (.resume f a0 a1 a2 a3) z = execResume f a0 a1 a2 a3 z := rfl
@[simp] theorem exec_ckpt (f : Nat) (a0 : Addr) (a1 : Addr) (a2 : Addr) (a3 : Addr) (z : State) : exec (.ckpt f a0 a1 a2 a3) z = execCkpt f a0 a1 a2 a3 z := rfl
@[simp] theorem exec_restore (f : Nat) (a0 : Addr) (a1 : Addr) (a2 : Addr) (a3 : Addr) (z : State) : exec (.restore f a0 a1 a2 a3) z = execRestore f a0 a1 a2 a3 z := rfl
@[simp] theorem exec_destroy (f : Nat) (a0 : Addr) (a1 : Addr) (a2 : Addr) (a3 : Addr) (z : State) : exec (.destroy f a0 a1 a2 a3) z = execDestroy f a0 a1 a2 a3 z := rfl
@[simp] theorem exec_wipeComplete (ctx : Nat) (z : State) : exec (.wipeComplete ctx) z = execWipeComplete ctx z := rfl
@[simp] theorem exec_claim (f : Nat) (a0 : Addr) (a1 : Addr) (a2 : Addr) (a3 : Addr) (z : State) : exec (.claim f a0 a1 a2 a3) z = execClaim f a0 a1 a2 a3 z := rfl
@[simp] theorem exec_unclaim (f : Nat) (a0 : Addr) (a1 : Addr) (a2 : Addr) (a3 : Addr) (z : State) : exec (.unclaim f a0 a1 a2 a3) z = execUnclaim f a0 a1 a2 a3 z := rfl
@[simp] theorem exec_update (f : Nat) (a0 : Addr) (a1 : Addr) (a2 : Addr) (a3 : Addr) (z : State) : exec (.update f a0 a1 a2 a3) z = execUpdate f a0 a1 a2 a3 z := rfl
@[simp] theorem exec_updateQuiesceTimeout (z : State) : exec (.updateQuiesceTimeout) z = execUpdateQuiesceTimeout z := rfl
@[simp] theorem exec_flip (f : Nat) (val : Addr) (z : State) : exec (.flip f val) z = execFlip f val z := rfl
@[simp] theorem exec_biasFlipComplete (frame : Nat) (z : State) : exec (.biasFlipComplete frame) z = execBiasFlipComplete frame z := rfl
@[simp] theorem exec_errconsWrite (f : Nat) (val : Word) (z : State) : exec (.errconsWrite f val) z = execErrconsWrite f val z := rfl
@[simp] theorem exec_registerWrite (f : Nat) (off : Nat) (val : Addr) (z : State) : exec (.registerWrite f off val) z = execRegisterWrite f off val z := rfl
@[simp] theorem exec_attestationRequest (f : Nat) (nonce : List Byte) (ctx : Option Nat) (z : State) : exec (.attestationRequest f nonce ctx) z = execAttestationRequest f nonce ctx z := rfl
@[simp] theorem exec_hostWrite (dev : Bool) (addr : Nat) (bytes : List Byte) (z : State) : exec (.hostWrite dev addr bytes) z = execHostWrite dev addr bytes z := rfl
@[simp] theorem exec_hostRead (addr : Nat) (n : Nat) (z : State) : exec (.hostRead addr n) z = execHostRead addr n z := rfl
@[simp] theorem exec_atsInvalidation (ld : Nat) (addr : Nat) (n : Nat) (z : State) : exec (.atsInvalidation ld addr n) z = execAtsInvalidation ld addr n z := rfl
@[simp] theorem exec_atsInvalidationTimeout (i0 : Nat) (z : State) : exec (.atsInvalidationTimeout i0) z = execAtsInvalidationTimeout i0 z := rfl
@[simp] theorem exec_gangPlace (kern : Nat) (rank : Nat) (z : State) : exec (.gangPlace kern rank) z = execGangPlace kern rank z := rfl
@[simp] theorem exec_gangRelease (gang : Nat) (z : State) : exec (.gangRelease gang) z = execGangRelease gang z := rfl
@[simp] theorem exec_blockRetire (blk : Nat) (z : State) : exec (.blockRetire blk) z = execBlockRetire blk z := rfl
@[simp] theorem exec_preempt (blocks : List Nat) (bound : Nat) (z : State) : exec (.preempt blocks bound) z = execPreempt blocks bound z := rfl
@[simp] theorem exec_gangResume (gang : Nat) (z : State) : exec (.gangResume gang) z = execGangResume gang z := rfl
@[simp] theorem exec_holdDrain (blk : Nat) (z : State) : exec (.holdDrain blk) z = execHoldDrain blk z := rfl
@[simp] theorem exec_copyCommandStart (blk : Nat) (z : State) : exec (.copyCommandStart blk) z = execCopyCommandStart blk z := rfl
@[simp] theorem exec_copyChunkDone (blk : Nat) (seq : Nat) (chunk : Nat) (z : State) : exec (.copyChunkDone blk seq chunk) z = execCopyChunkDone blk seq chunk z := rfl
@[simp] theorem exec_copyCommandComplete (blk : Nat) (seq : Nat) (z : State) : exec (.copyCommandComplete blk seq) z = execCopyCommandComplete blk seq z := rfl
@[simp] theorem exec_orderedReductionApply (i0 : Nat) (z : State) : exec (.orderedReductionApply i0) z = execOrderedReductionApply i0 z := rfl
@[simp] theorem exec_matrixCommandStart (blk : Nat) (z : State) : exec (.matrixCommandStart blk) z = execMatrixCommandStart blk z := rfl
@[simp] theorem exec_matrixCommandComplete (blk : Nat) (seq : Nat) (z : State) : exec (.matrixCommandComplete blk seq) z = execMatrixCommandComplete blk seq z := rfl
@[simp] theorem exec_softError (mem : MemName) (addr : Nat) (unc : Bool) (z : State) : exec (.softError mem addr unc) z = execSoftError mem addr unc z := rfl
@[simp] theorem exec_correctedErrorThreshold (ctx : Nat) (z : State) : exec (.correctedErrorThreshold ctx) z = execCorrectedErrorThreshold ctx z := rfl
@[simp] theorem exec_portEnable (p : Nat) (z : State) : exec (.portEnable p) z = execPortEnable p z := rfl
@[simp] theorem exec_trainingComplete (p : Nat) (lanes : Nat) (agree : Bool) (far : Nat) (z : State) : exec (.trainingComplete p lanes agree far) z = execTrainingComplete p lanes agree far z := rfl
@[simp] theorem exec_trainingTimeout (p : Nat) (z : State) : exec (.trainingTimeout p) z = execTrainingTimeout p z := rfl
@[simp] theorem exec_retrainTimer (p : Nat) (z : State) : exec (.retrainTimer p) z = execRetrainTimer p z := rfl
@[simp] theorem exec_laneFailure (p : Nat) (z : State) : exec (.laneFailure p) z = execLaneFailure p z := rfl
@[simp] theorem exec_lossOfLock (p : Nat) (z : State) : exec (.lossOfLock p) z = execLossOfLock p z := rfl
@[simp] theorem exec_portRetire (p : Nat) (z : State) : exec (.portRetire p) z = execPortRetire p z := rfl
@[simp] theorem exec_idle (p : Nat) (fl : Flit) (z : State) : exec (.idle p fl) z = execIdle p fl z := rfl
@[simp] theorem exec_pause (p : Nat) (fl : Flit) (z : State) : exec (.pause p fl) z = execPause p fl z := rfl
@[simp] theorem exec_retry (p : Nat) (fl : Flit) (z : State) : exec (.retry p fl) z = execRetry p fl z := rfl
@[simp] theorem exec_snap (p : Nat) (fl : Flit) (z : State) : exec (.snap p fl) z = execSnap p fl z := rfl
@[simp] theorem exec_barr (p : Nat) (fl : Flit) (z : State) : exec (.barr p fl) z = execBarr p fl z := rfl
@[simp] theorem exec_whead (p : Nat) (fl : Flit) (z : State) : exec (.whead p fl) z = execWhead p fl z := rfl
@[simp] theorem exec_wacc (p : Nat) (fl : Flit) (z : State) : exec (.wacc p fl) z = execWacc p fl z := rfl
@[simp] theorem exec_data (p : Nat) (fl : Flit) (z : State) : exec (.data p fl) z = execData p fl z := rfl
@[simp] theorem exec_rreq (p : Nat) (fl : Flit) (z : State) : exec (.rreq p fl) z = execRreq p fl z := rfl
@[simp] theorem exec_rhead (p : Nat) (fl : Flit) (z : State) : exec (.rhead p fl) z = execRhead p fl z := rfl
@[simp] theorem exec_atomFlit (p : Nat) (fl : Flit) (z : State) : exec (.atomFlit p fl) z = execAtomFlit p fl z := rfl
@[simp] theorem exec_atomr (p : Nat) (fl : Flit) (z : State) : exec (.atomr p fl) z = execAtomr p fl z := rfl
@[simp] theorem exec_ack (p : Nat) (fl : Flit) (z : State) : exec (.ack p fl) z = execAck p fl z := rfl
@[simp] theorem exec_radd (p : Nat) (fl : Flit) (z : State) : exec (.radd p fl) z = execRadd p fl z := rfl
@[simp] theorem exec_operationTimeout (dst : Nat) (tag : Nat) (z : State) : exec (.operationTimeout dst tag) z = execOperationTimeout dst tag z := rfl
@[simp] theorem exec_hallEvent (p : Nat) (fl : Flit) (z : State) : exec (.hallEvent p fl) z = execHallEvent p fl z := rfl
@[simp] theorem exec_hallAck (p : Nat) (fl : Flit) (z : State) : exec (.hallAck p fl) z = execHallAck p fl z := rfl
@[simp] theorem exec_token (p : Nat) (fl : Flit) (z : State) : exec (.token p fl) z = execToken p fl z := rfl
@[simp] theorem exec_stable (p : Nat) (fl : Flit) (z : State) : exec (.stable p fl) z = execStable p fl z := rfl
@[simp] theorem exec_recover (p : Nat) (fl : Flit) (z : State) : exec (.recover p fl) z = execRecover p fl z := rfl
@[simp] theorem exec_reply (p : Nat) (fl : Flit) (z : State) : exec (.reply p fl) z = execReply p fl z := rfl
@[simp] theorem exec_ackWaitTimeout (z : State) : exec (.ackWaitTimeout) z = execAckWaitTimeout z := rfl
@[simp] theorem exec_tokenTimeout (z : State) : exec (.tokenTimeout) z = execTokenTimeout z := rfl
@[simp] theorem exec_recoveryCollect (z : State) : exec (.recoveryCollect) z = execRecoveryCollect z := rfl
@[simp] theorem exec_suspect (m : Nat) (z : State) : exec (.suspect m) z = execSuspect m z := rfl
@[simp] theorem exec_wingFailover (z : State) : exec (.wingFailover) z = execWingFailover z := rfl
@[simp] theorem exec_firstHeartbeat (kind : Nat) (z : State) : exec (.firstHeartbeat kind) z = execFirstHeartbeat kind z := rfl
@[simp] theorem exec_provisioningToken (tok : List Byte) (z : State) : exec (.provisioningToken tok) z = execProvisioningToken tok z := rfl
@[simp] theorem exec_deploymentToken (tok : List Byte) (z : State) : exec (.deploymentToken tok) z = execDeploymentToken tok z := rfl
@[simp] theorem exec_rmaToken (tok : List Byte) (z : State) : exec (.rmaToken tok) z = execRmaToken tok z := rfl
@[simp] theorem exec_repairToken (tok : List Byte) (z : State) : exec (.repairToken tok) z = execRepairToken tok z := rfl
@[simp] theorem exec_decommissionToken (tok : List Byte) (z : State) : exec (.decommissionToken tok) z = execDecommissionToken tok z := rfl
@[simp] theorem exec_packageReset (z : State) : exec (.packageReset) z = execPackageReset z := rfl
@[simp] theorem exec_budgetPeriod (unit : BudgetUnit) (z : State) : exec (.budgetPeriod unit) z = execBudgetPeriod unit z := rfl
@[simp] theorem exec_stateTableChange (item : TableItem) (z : State) : exec (.stateTableChange item) z = execStateTableChange item z := rfl
@[simp] theorem exec_flitFailsCrc (p : Nat) (z : State) : exec (.flitFailsCrc p) z = execFlitFailsCrc p z := rfl
@[simp] theorem exec_logicalDeviceBind (ld : Nat) (bound : Bool) (windows : List (Nat × Nat)) (route : BindRoute)
    (z : State) : exec (.logicalDeviceBind ld bound windows route) z = execLogicalDeviceBind ld bound windows route z := rfl
@[simp] theorem exec_powerLoss (z : State) : exec (.powerLoss) z = execPowerLoss z := rfl

end Sys2Proof.Machine
end

