-- ==== Sys2Proof/Laws/State.lean ====
section
/-!
SUPPORT. Laws/State.lean: what each setter of the state changes, one lemma a field, and what the maps then answer.
-/
namespace Sys2Proof.Machine
set_option Elab.async false

@[simp] theorem setGrp_cur (s : State) (g : Nat) (x : Group) : (setGrp s g x).cur = s.cur := rfl
@[simp] theorem setGrp_barrel (s : State) (g : Nat) (x : Group) : (setGrp s g x).barrel = s.barrel := rfl
@[simp] theorem setGrp_agenda (s : State) (g : Nat) (x : Group) : (setGrp s g x).agenda = s.agenda := rfl
@[simp] theorem setGrp_due (s : State) (g : Nat) (x : Group) : (setGrp s g x).due = s.due := rfl
@[simp] theorem setGrp_out (s : State) (g : Nat) (x : Group) : (setGrp s g x).out = s.out := rfl
@[simp] theorem setGrp_fresh (s : State) (g : Nat) (x : Group) : (setGrp s g x).fresh = s.fresh := rfl
@[simp] theorem setGrp_nextId (s : State) (g : Nat) (x : Group) : (setGrp s g x).nextId = s.nextId := rfl
@[simp] theorem setGrp_time (s : State) (g : Nat) (x : Group) : (setGrp s g x).time = s.time := rfl
@[simp] theorem setGrp_groups (s : State) (g : Nat) (x : Group) : (setGrp s g x).groups = Map.put s.groups g x := rfl
@[simp] theorem setGrp_blocks (s : State) (g : Nat) (x : Group) : (setGrp s g x).blocks = s.blocks := rfl
@[simp] theorem setGrp_gangs (s : State) (g : Nat) (x : Group) : (setGrp s g x).gangs = s.gangs := rfl
@[simp] theorem setGrp_kerns (s : State) (g : Nat) (x : Group) : (setGrp s g x).kerns = s.kerns := rfl
@[simp] theorem setGrp_cores (s : State) (g : Nat) (x : Group) : (setGrp s g x).cores = s.cores := rfl
@[simp] theorem setGrp_dev (s : State) (g : Nat) (x : Group) : (setGrp s g x).dev = s.dev := rfl
@[simp] theorem setGrp_host (s : State) (g : Nat) (x : Group) : (setGrp s g x).host = s.host := rfl
@[simp] theorem setGrp_die (s : State) (g : Nat) (x : Group) : (setGrp s g x).die = s.die := rfl
@[simp] theorem setGrp_log (s : State) (g : Nat) (x : Group) : (setGrp s g x).log = s.log := rfl
@[simp] theorem setGrp_rels (s : State) (g : Nat) (x : Group) : (setGrp s g x).rels = s.rels := rfl
@[simp] theorem setGrp_stored (s : State) (g : Nat) (x : Group) : (setGrp s g x).stored = s.stored := rfl
@[simp] theorem setGrp_poison (s : State) (g : Nat) (x : Group) : (setGrp s g x).poison = s.poison := rfl
@[simp] theorem setGrp_own (s : State) (g : Nat) (x : Group) : (setGrp s g x).own = s.own := rfl
@[simp] theorem setGrp_tlb (s : State) (g : Nat) (x : Group) : (setGrp s g x).tlb = s.tlb := rfl
@[simp] theorem setGrp_ctxs (s : State) (g : Nat) (x : Group) : (setGrp s g x).ctxs = s.ctxs := rfl
@[simp] theorem setGrp_fns (s : State) (g : Nat) (x : Group) : (setGrp s g x).fns = s.fns := rfl
@[simp] theorem setGrp_ldevs (s : State) (g : Nat) (x : Group) : (setGrp s g x).ldevs = s.ldevs := rfl
@[simp] theorem setGrp_ats (s : State) (g : Nat) (x : Group) : (setGrp s g x).ats = s.ats := rfl
@[simp] theorem setGrp_flips (s : State) (g : Nat) (x : Group) : (setGrp s g x).flips = s.flips := rfl
@[simp] theorem setGrp_services (s : State) (g : Nat) (x : Group) : (setGrp s g x).services = s.services := rfl
@[simp] theorem setGrp_faults (s : State) (g : Nat) (x : Group) : (setGrp s g x).faults = s.faults := rfl
@[simp] theorem setGrp_links (s : State) (g : Nat) (x : Group) : (setGrp s g x).links = s.links := rfl
@[simp] theorem setGrp_hall (s : State) (g : Nat) (x : Group) : (setGrp s g x).hall = s.hall := rfl
@[simp] theorem setGrp_pkg (s : State) (g : Nat) (x : Group) : (setGrp s g x).pkg = s.pkg := rfl
@[simp] theorem setGrp_written (s : State) (g : Nat) (x : Group) : (setGrp s g x).written = s.written := rfl
@[simp] theorem setBlk_cur (s : State) (b : Nat) (x : Block) : (setBlk s b x).cur = s.cur := rfl
@[simp] theorem setBlk_barrel (s : State) (b : Nat) (x : Block) : (setBlk s b x).barrel = s.barrel := rfl
@[simp] theorem setBlk_agenda (s : State) (b : Nat) (x : Block) : (setBlk s b x).agenda = s.agenda := rfl
@[simp] theorem setBlk_due (s : State) (b : Nat) (x : Block) : (setBlk s b x).due = s.due := rfl
@[simp] theorem setBlk_out (s : State) (b : Nat) (x : Block) : (setBlk s b x).out = s.out := rfl
@[simp] theorem setBlk_fresh (s : State) (b : Nat) (x : Block) : (setBlk s b x).fresh = s.fresh := rfl
@[simp] theorem setBlk_nextId (s : State) (b : Nat) (x : Block) : (setBlk s b x).nextId = s.nextId := rfl
@[simp] theorem setBlk_time (s : State) (b : Nat) (x : Block) : (setBlk s b x).time = s.time := rfl
@[simp] theorem setBlk_groups (s : State) (b : Nat) (x : Block) : (setBlk s b x).groups = s.groups := rfl
@[simp] theorem setBlk_blocks (s : State) (b : Nat) (x : Block) : (setBlk s b x).blocks = Map.put s.blocks b x := rfl
@[simp] theorem setBlk_gangs (s : State) (b : Nat) (x : Block) : (setBlk s b x).gangs = s.gangs := rfl
@[simp] theorem setBlk_kerns (s : State) (b : Nat) (x : Block) : (setBlk s b x).kerns = s.kerns := rfl
@[simp] theorem setBlk_cores (s : State) (b : Nat) (x : Block) : (setBlk s b x).cores = s.cores := rfl
@[simp] theorem setBlk_dev (s : State) (b : Nat) (x : Block) : (setBlk s b x).dev = s.dev := rfl
@[simp] theorem setBlk_host (s : State) (b : Nat) (x : Block) : (setBlk s b x).host = s.host := rfl
@[simp] theorem setBlk_die (s : State) (b : Nat) (x : Block) : (setBlk s b x).die = s.die := rfl
@[simp] theorem setBlk_log (s : State) (b : Nat) (x : Block) : (setBlk s b x).log = s.log := rfl
@[simp] theorem setBlk_rels (s : State) (b : Nat) (x : Block) : (setBlk s b x).rels = s.rels := rfl
@[simp] theorem setBlk_stored (s : State) (b : Nat) (x : Block) : (setBlk s b x).stored = s.stored := rfl
@[simp] theorem setBlk_poison (s : State) (b : Nat) (x : Block) : (setBlk s b x).poison = s.poison := rfl
@[simp] theorem setBlk_own (s : State) (b : Nat) (x : Block) : (setBlk s b x).own = s.own := rfl
@[simp] theorem setBlk_tlb (s : State) (b : Nat) (x : Block) : (setBlk s b x).tlb = s.tlb := rfl
@[simp] theorem setBlk_ctxs (s : State) (b : Nat) (x : Block) : (setBlk s b x).ctxs = s.ctxs := rfl
@[simp] theorem setBlk_fns (s : State) (b : Nat) (x : Block) : (setBlk s b x).fns = s.fns := rfl
@[simp] theorem setBlk_ldevs (s : State) (b : Nat) (x : Block) : (setBlk s b x).ldevs = s.ldevs := rfl
@[simp] theorem setBlk_ats (s : State) (b : Nat) (x : Block) : (setBlk s b x).ats = s.ats := rfl
@[simp] theorem setBlk_flips (s : State) (b : Nat) (x : Block) : (setBlk s b x).flips = s.flips := rfl
@[simp] theorem setBlk_services (s : State) (b : Nat) (x : Block) : (setBlk s b x).services = s.services := rfl
@[simp] theorem setBlk_faults (s : State) (b : Nat) (x : Block) : (setBlk s b x).faults = s.faults := rfl
@[simp] theorem setBlk_links (s : State) (b : Nat) (x : Block) : (setBlk s b x).links = s.links := rfl
@[simp] theorem setBlk_hall (s : State) (b : Nat) (x : Block) : (setBlk s b x).hall = s.hall := rfl
@[simp] theorem setBlk_pkg (s : State) (b : Nat) (x : Block) : (setBlk s b x).pkg = s.pkg := rfl
@[simp] theorem setBlk_written (s : State) (b : Nat) (x : Block) : (setBlk s b x).written = s.written := rfl
@[simp] theorem setGang_cur (s : State) (q : Nat) (x : Gang) : (setGang s q x).cur = s.cur := rfl
@[simp] theorem setGang_barrel (s : State) (q : Nat) (x : Gang) : (setGang s q x).barrel = s.barrel := rfl
@[simp] theorem setGang_agenda (s : State) (q : Nat) (x : Gang) : (setGang s q x).agenda = s.agenda := rfl
@[simp] theorem setGang_due (s : State) (q : Nat) (x : Gang) : (setGang s q x).due = s.due := rfl
@[simp] theorem setGang_out (s : State) (q : Nat) (x : Gang) : (setGang s q x).out = s.out := rfl
@[simp] theorem setGang_fresh (s : State) (q : Nat) (x : Gang) : (setGang s q x).fresh = s.fresh := rfl
@[simp] theorem setGang_nextId (s : State) (q : Nat) (x : Gang) : (setGang s q x).nextId = s.nextId := rfl
@[simp] theorem setGang_time (s : State) (q : Nat) (x : Gang) : (setGang s q x).time = s.time := rfl
@[simp] theorem setGang_groups (s : State) (q : Nat) (x : Gang) : (setGang s q x).groups = s.groups := rfl
@[simp] theorem setGang_blocks (s : State) (q : Nat) (x : Gang) : (setGang s q x).blocks = s.blocks := rfl
@[simp] theorem setGang_gangs (s : State) (q : Nat) (x : Gang) : (setGang s q x).gangs = Map.put s.gangs q x := rfl
@[simp] theorem setGang_kerns (s : State) (q : Nat) (x : Gang) : (setGang s q x).kerns = s.kerns := rfl
@[simp] theorem setGang_cores (s : State) (q : Nat) (x : Gang) : (setGang s q x).cores = s.cores := rfl
@[simp] theorem setGang_dev (s : State) (q : Nat) (x : Gang) : (setGang s q x).dev = s.dev := rfl
@[simp] theorem setGang_host (s : State) (q : Nat) (x : Gang) : (setGang s q x).host = s.host := rfl
@[simp] theorem setGang_die (s : State) (q : Nat) (x : Gang) : (setGang s q x).die = s.die := rfl
@[simp] theorem setGang_log (s : State) (q : Nat) (x : Gang) : (setGang s q x).log = s.log := rfl
@[simp] theorem setGang_rels (s : State) (q : Nat) (x : Gang) : (setGang s q x).rels = s.rels := rfl
@[simp] theorem setGang_stored (s : State) (q : Nat) (x : Gang) : (setGang s q x).stored = s.stored := rfl
@[simp] theorem setGang_poison (s : State) (q : Nat) (x : Gang) : (setGang s q x).poison = s.poison := rfl
@[simp] theorem setGang_own (s : State) (q : Nat) (x : Gang) : (setGang s q x).own = s.own := rfl
@[simp] theorem setGang_tlb (s : State) (q : Nat) (x : Gang) : (setGang s q x).tlb = s.tlb := rfl
@[simp] theorem setGang_ctxs (s : State) (q : Nat) (x : Gang) : (setGang s q x).ctxs = s.ctxs := rfl
@[simp] theorem setGang_fns (s : State) (q : Nat) (x : Gang) : (setGang s q x).fns = s.fns := rfl
@[simp] theorem setGang_ldevs (s : State) (q : Nat) (x : Gang) : (setGang s q x).ldevs = s.ldevs := rfl
@[simp] theorem setGang_ats (s : State) (q : Nat) (x : Gang) : (setGang s q x).ats = s.ats := rfl
@[simp] theorem setGang_flips (s : State) (q : Nat) (x : Gang) : (setGang s q x).flips = s.flips := rfl
@[simp] theorem setGang_services (s : State) (q : Nat) (x : Gang) : (setGang s q x).services = s.services := rfl
@[simp] theorem setGang_faults (s : State) (q : Nat) (x : Gang) : (setGang s q x).faults = s.faults := rfl
@[simp] theorem setGang_links (s : State) (q : Nat) (x : Gang) : (setGang s q x).links = s.links := rfl
@[simp] theorem setGang_hall (s : State) (q : Nat) (x : Gang) : (setGang s q x).hall = s.hall := rfl
@[simp] theorem setGang_pkg (s : State) (q : Nat) (x : Gang) : (setGang s q x).pkg = s.pkg := rfl
@[simp] theorem setGang_written (s : State) (q : Nat) (x : Gang) : (setGang s q x).written = s.written := rfl
@[simp] theorem setKern_cur (s : State) (k : Nat) (x : Kern) : (setKern s k x).cur = s.cur := rfl
@[simp] theorem setKern_barrel (s : State) (k : Nat) (x : Kern) : (setKern s k x).barrel = s.barrel := rfl
@[simp] theorem setKern_agenda (s : State) (k : Nat) (x : Kern) : (setKern s k x).agenda = s.agenda := rfl
@[simp] theorem setKern_due (s : State) (k : Nat) (x : Kern) : (setKern s k x).due = s.due := rfl
@[simp] theorem setKern_out (s : State) (k : Nat) (x : Kern) : (setKern s k x).out = s.out := rfl
@[simp] theorem setKern_fresh (s : State) (k : Nat) (x : Kern) : (setKern s k x).fresh = s.fresh := rfl
@[simp] theorem setKern_nextId (s : State) (k : Nat) (x : Kern) : (setKern s k x).nextId = s.nextId := rfl
@[simp] theorem setKern_time (s : State) (k : Nat) (x : Kern) : (setKern s k x).time = s.time := rfl
@[simp] theorem setKern_groups (s : State) (k : Nat) (x : Kern) : (setKern s k x).groups = s.groups := rfl
@[simp] theorem setKern_blocks (s : State) (k : Nat) (x : Kern) : (setKern s k x).blocks = s.blocks := rfl
@[simp] theorem setKern_gangs (s : State) (k : Nat) (x : Kern) : (setKern s k x).gangs = s.gangs := rfl
@[simp] theorem setKern_kerns (s : State) (k : Nat) (x : Kern) : (setKern s k x).kerns = Map.put s.kerns k x := rfl
@[simp] theorem setKern_cores (s : State) (k : Nat) (x : Kern) : (setKern s k x).cores = s.cores := rfl
@[simp] theorem setKern_dev (s : State) (k : Nat) (x : Kern) : (setKern s k x).dev = s.dev := rfl
@[simp] theorem setKern_host (s : State) (k : Nat) (x : Kern) : (setKern s k x).host = s.host := rfl
@[simp] theorem setKern_die (s : State) (k : Nat) (x : Kern) : (setKern s k x).die = s.die := rfl
@[simp] theorem setKern_log (s : State) (k : Nat) (x : Kern) : (setKern s k x).log = s.log := rfl
@[simp] theorem setKern_rels (s : State) (k : Nat) (x : Kern) : (setKern s k x).rels = s.rels := rfl
@[simp] theorem setKern_stored (s : State) (k : Nat) (x : Kern) : (setKern s k x).stored = s.stored := rfl
@[simp] theorem setKern_poison (s : State) (k : Nat) (x : Kern) : (setKern s k x).poison = s.poison := rfl
@[simp] theorem setKern_own (s : State) (k : Nat) (x : Kern) : (setKern s k x).own = s.own := rfl
@[simp] theorem setKern_tlb (s : State) (k : Nat) (x : Kern) : (setKern s k x).tlb = s.tlb := rfl
@[simp] theorem setKern_ctxs (s : State) (k : Nat) (x : Kern) : (setKern s k x).ctxs = s.ctxs := rfl
@[simp] theorem setKern_fns (s : State) (k : Nat) (x : Kern) : (setKern s k x).fns = s.fns := rfl
@[simp] theorem setKern_ldevs (s : State) (k : Nat) (x : Kern) : (setKern s k x).ldevs = s.ldevs := rfl
@[simp] theorem setKern_ats (s : State) (k : Nat) (x : Kern) : (setKern s k x).ats = s.ats := rfl
@[simp] theorem setKern_flips (s : State) (k : Nat) (x : Kern) : (setKern s k x).flips = s.flips := rfl
@[simp] theorem setKern_services (s : State) (k : Nat) (x : Kern) : (setKern s k x).services = s.services := rfl
@[simp] theorem setKern_faults (s : State) (k : Nat) (x : Kern) : (setKern s k x).faults = s.faults := rfl
@[simp] theorem setKern_links (s : State) (k : Nat) (x : Kern) : (setKern s k x).links = s.links := rfl
@[simp] theorem setKern_hall (s : State) (k : Nat) (x : Kern) : (setKern s k x).hall = s.hall := rfl
@[simp] theorem setKern_pkg (s : State) (k : Nat) (x : Kern) : (setKern s k x).pkg = s.pkg := rfl
@[simp] theorem setKern_written (s : State) (k : Nat) (x : Kern) : (setKern s k x).written = s.written := rfl
@[simp] theorem setCore_cur (s : State) (c : Nat) (x : Core) : (setCore s c x).cur = s.cur := rfl
@[simp] theorem setCore_barrel (s : State) (c : Nat) (x : Core) : (setCore s c x).barrel = s.barrel := rfl
@[simp] theorem setCore_agenda (s : State) (c : Nat) (x : Core) : (setCore s c x).agenda = s.agenda := rfl
@[simp] theorem setCore_due (s : State) (c : Nat) (x : Core) : (setCore s c x).due = s.due := rfl
@[simp] theorem setCore_out (s : State) (c : Nat) (x : Core) : (setCore s c x).out = s.out := rfl
@[simp] theorem setCore_fresh (s : State) (c : Nat) (x : Core) : (setCore s c x).fresh = s.fresh := rfl
@[simp] theorem setCore_nextId (s : State) (c : Nat) (x : Core) : (setCore s c x).nextId = s.nextId := rfl
@[simp] theorem setCore_time (s : State) (c : Nat) (x : Core) : (setCore s c x).time = s.time := rfl
@[simp] theorem setCore_groups (s : State) (c : Nat) (x : Core) : (setCore s c x).groups = s.groups := rfl
@[simp] theorem setCore_blocks (s : State) (c : Nat) (x : Core) : (setCore s c x).blocks = s.blocks := rfl
@[simp] theorem setCore_gangs (s : State) (c : Nat) (x : Core) : (setCore s c x).gangs = s.gangs := rfl
@[simp] theorem setCore_kerns (s : State) (c : Nat) (x : Core) : (setCore s c x).kerns = s.kerns := rfl
@[simp] theorem setCore_cores (s : State) (c : Nat) (x : Core) : (setCore s c x).cores = Map.put s.cores c x := rfl
@[simp] theorem setCore_dev (s : State) (c : Nat) (x : Core) : (setCore s c x).dev = s.dev := rfl
@[simp] theorem setCore_host (s : State) (c : Nat) (x : Core) : (setCore s c x).host = s.host := rfl
@[simp] theorem setCore_die (s : State) (c : Nat) (x : Core) : (setCore s c x).die = s.die := rfl
@[simp] theorem setCore_log (s : State) (c : Nat) (x : Core) : (setCore s c x).log = s.log := rfl
@[simp] theorem setCore_rels (s : State) (c : Nat) (x : Core) : (setCore s c x).rels = s.rels := rfl
@[simp] theorem setCore_stored (s : State) (c : Nat) (x : Core) : (setCore s c x).stored = s.stored := rfl
@[simp] theorem setCore_poison (s : State) (c : Nat) (x : Core) : (setCore s c x).poison = s.poison := rfl
@[simp] theorem setCore_own (s : State) (c : Nat) (x : Core) : (setCore s c x).own = s.own := rfl
@[simp] theorem setCore_tlb (s : State) (c : Nat) (x : Core) : (setCore s c x).tlb = s.tlb := rfl
@[simp] theorem setCore_ctxs (s : State) (c : Nat) (x : Core) : (setCore s c x).ctxs = s.ctxs := rfl
@[simp] theorem setCore_fns (s : State) (c : Nat) (x : Core) : (setCore s c x).fns = s.fns := rfl
@[simp] theorem setCore_ldevs (s : State) (c : Nat) (x : Core) : (setCore s c x).ldevs = s.ldevs := rfl
@[simp] theorem setCore_ats (s : State) (c : Nat) (x : Core) : (setCore s c x).ats = s.ats := rfl
@[simp] theorem setCore_flips (s : State) (c : Nat) (x : Core) : (setCore s c x).flips = s.flips := rfl
@[simp] theorem setCore_services (s : State) (c : Nat) (x : Core) : (setCore s c x).services = s.services := rfl
@[simp] theorem setCore_faults (s : State) (c : Nat) (x : Core) : (setCore s c x).faults = s.faults := rfl
@[simp] theorem setCore_links (s : State) (c : Nat) (x : Core) : (setCore s c x).links = s.links := rfl
@[simp] theorem setCore_hall (s : State) (c : Nat) (x : Core) : (setCore s c x).hall = s.hall := rfl
@[simp] theorem setCore_pkg (s : State) (c : Nat) (x : Core) : (setCore s c x).pkg = s.pkg := rfl
@[simp] theorem setCore_written (s : State) (c : Nat) (x : Core) : (setCore s c x).written = s.written := rfl
@[simp] theorem setCtx_cur (s : State) (c : Nat) (x : Ctx) : (setCtx s c x).cur = s.cur := rfl
@[simp] theorem setCtx_barrel (s : State) (c : Nat) (x : Ctx) : (setCtx s c x).barrel = s.barrel := rfl
@[simp] theorem setCtx_agenda (s : State) (c : Nat) (x : Ctx) : (setCtx s c x).agenda = s.agenda := rfl
@[simp] theorem setCtx_due (s : State) (c : Nat) (x : Ctx) : (setCtx s c x).due = s.due := rfl
@[simp] theorem setCtx_out (s : State) (c : Nat) (x : Ctx) : (setCtx s c x).out = s.out := rfl
@[simp] theorem setCtx_fresh (s : State) (c : Nat) (x : Ctx) : (setCtx s c x).fresh = s.fresh := rfl
@[simp] theorem setCtx_nextId (s : State) (c : Nat) (x : Ctx) : (setCtx s c x).nextId = s.nextId := rfl
@[simp] theorem setCtx_time (s : State) (c : Nat) (x : Ctx) : (setCtx s c x).time = s.time := rfl
@[simp] theorem setCtx_groups (s : State) (c : Nat) (x : Ctx) : (setCtx s c x).groups = s.groups := rfl
@[simp] theorem setCtx_blocks (s : State) (c : Nat) (x : Ctx) : (setCtx s c x).blocks = s.blocks := rfl
@[simp] theorem setCtx_gangs (s : State) (c : Nat) (x : Ctx) : (setCtx s c x).gangs = s.gangs := rfl
@[simp] theorem setCtx_kerns (s : State) (c : Nat) (x : Ctx) : (setCtx s c x).kerns = s.kerns := rfl
@[simp] theorem setCtx_cores (s : State) (c : Nat) (x : Ctx) : (setCtx s c x).cores = s.cores := rfl
@[simp] theorem setCtx_dev (s : State) (c : Nat) (x : Ctx) : (setCtx s c x).dev = s.dev := rfl
@[simp] theorem setCtx_host (s : State) (c : Nat) (x : Ctx) : (setCtx s c x).host = s.host := rfl
@[simp] theorem setCtx_die (s : State) (c : Nat) (x : Ctx) : (setCtx s c x).die = s.die := rfl
@[simp] theorem setCtx_log (s : State) (c : Nat) (x : Ctx) : (setCtx s c x).log = s.log := rfl
@[simp] theorem setCtx_rels (s : State) (c : Nat) (x : Ctx) : (setCtx s c x).rels = s.rels := rfl
@[simp] theorem setCtx_stored (s : State) (c : Nat) (x : Ctx) : (setCtx s c x).stored = s.stored := rfl
@[simp] theorem setCtx_poison (s : State) (c : Nat) (x : Ctx) : (setCtx s c x).poison = s.poison := rfl
@[simp] theorem setCtx_own (s : State) (c : Nat) (x : Ctx) : (setCtx s c x).own = s.own := rfl
@[simp] theorem setCtx_tlb (s : State) (c : Nat) (x : Ctx) : (setCtx s c x).tlb = s.tlb := rfl
@[simp] theorem setCtx_ctxs (s : State) (c : Nat) (x : Ctx) : (setCtx s c x).ctxs = Map.put s.ctxs c x := rfl
@[simp] theorem setCtx_fns (s : State) (c : Nat) (x : Ctx) : (setCtx s c x).fns = s.fns := rfl
@[simp] theorem setCtx_ldevs (s : State) (c : Nat) (x : Ctx) : (setCtx s c x).ldevs = s.ldevs := rfl
@[simp] theorem setCtx_ats (s : State) (c : Nat) (x : Ctx) : (setCtx s c x).ats = s.ats := rfl
@[simp] theorem setCtx_flips (s : State) (c : Nat) (x : Ctx) : (setCtx s c x).flips = s.flips := rfl
@[simp] theorem setCtx_services (s : State) (c : Nat) (x : Ctx) : (setCtx s c x).services = s.services := rfl
@[simp] theorem setCtx_faults (s : State) (c : Nat) (x : Ctx) : (setCtx s c x).faults = s.faults := rfl
@[simp] theorem setCtx_links (s : State) (c : Nat) (x : Ctx) : (setCtx s c x).links = s.links := rfl
@[simp] theorem setCtx_hall (s : State) (c : Nat) (x : Ctx) : (setCtx s c x).hall = s.hall := rfl
@[simp] theorem setCtx_pkg (s : State) (c : Nat) (x : Ctx) : (setCtx s c x).pkg = s.pkg := rfl
@[simp] theorem setCtx_written (s : State) (c : Nat) (x : Ctx) : (setCtx s c x).written = s.written := rfl
@[simp] theorem setFn_cur (s : State) (f : Nat) (x : Fn) : (setFn s f x).cur = s.cur := rfl
@[simp] theorem setFn_barrel (s : State) (f : Nat) (x : Fn) : (setFn s f x).barrel = s.barrel := rfl
@[simp] theorem setFn_agenda (s : State) (f : Nat) (x : Fn) : (setFn s f x).agenda = s.agenda := rfl
@[simp] theorem setFn_due (s : State) (f : Nat) (x : Fn) : (setFn s f x).due = s.due := rfl
@[simp] theorem setFn_out (s : State) (f : Nat) (x : Fn) : (setFn s f x).out = s.out := rfl
@[simp] theorem setFn_fresh (s : State) (f : Nat) (x : Fn) : (setFn s f x).fresh = s.fresh := rfl
@[simp] theorem setFn_nextId (s : State) (f : Nat) (x : Fn) : (setFn s f x).nextId = s.nextId := rfl
@[simp] theorem setFn_time (s : State) (f : Nat) (x : Fn) : (setFn s f x).time = s.time := rfl
@[simp] theorem setFn_groups (s : State) (f : Nat) (x : Fn) : (setFn s f x).groups = s.groups := rfl
@[simp] theorem setFn_blocks (s : State) (f : Nat) (x : Fn) : (setFn s f x).blocks = s.blocks := rfl
@[simp] theorem setFn_gangs (s : State) (f : Nat) (x : Fn) : (setFn s f x).gangs = s.gangs := rfl
@[simp] theorem setFn_kerns (s : State) (f : Nat) (x : Fn) : (setFn s f x).kerns = s.kerns := rfl
@[simp] theorem setFn_cores (s : State) (f : Nat) (x : Fn) : (setFn s f x).cores = s.cores := rfl
@[simp] theorem setFn_dev (s : State) (f : Nat) (x : Fn) : (setFn s f x).dev = s.dev := rfl
@[simp] theorem setFn_host (s : State) (f : Nat) (x : Fn) : (setFn s f x).host = s.host := rfl
@[simp] theorem setFn_die (s : State) (f : Nat) (x : Fn) : (setFn s f x).die = s.die := rfl
@[simp] theorem setFn_log (s : State) (f : Nat) (x : Fn) : (setFn s f x).log = s.log := rfl
@[simp] theorem setFn_rels (s : State) (f : Nat) (x : Fn) : (setFn s f x).rels = s.rels := rfl
@[simp] theorem setFn_stored (s : State) (f : Nat) (x : Fn) : (setFn s f x).stored = s.stored := rfl
@[simp] theorem setFn_poison (s : State) (f : Nat) (x : Fn) : (setFn s f x).poison = s.poison := rfl
@[simp] theorem setFn_own (s : State) (f : Nat) (x : Fn) : (setFn s f x).own = s.own := rfl
@[simp] theorem setFn_tlb (s : State) (f : Nat) (x : Fn) : (setFn s f x).tlb = s.tlb := rfl
@[simp] theorem setFn_ctxs (s : State) (f : Nat) (x : Fn) : (setFn s f x).ctxs = s.ctxs := rfl
@[simp] theorem setFn_fns (s : State) (f : Nat) (x : Fn) : (setFn s f x).fns = Map.put s.fns f x := rfl
@[simp] theorem setFn_ldevs (s : State) (f : Nat) (x : Fn) : (setFn s f x).ldevs = s.ldevs := rfl
@[simp] theorem setFn_ats (s : State) (f : Nat) (x : Fn) : (setFn s f x).ats = s.ats := rfl
@[simp] theorem setFn_flips (s : State) (f : Nat) (x : Fn) : (setFn s f x).flips = s.flips := rfl
@[simp] theorem setFn_services (s : State) (f : Nat) (x : Fn) : (setFn s f x).services = s.services := rfl
@[simp] theorem setFn_faults (s : State) (f : Nat) (x : Fn) : (setFn s f x).faults = s.faults := rfl
@[simp] theorem setFn_links (s : State) (f : Nat) (x : Fn) : (setFn s f x).links = s.links := rfl
@[simp] theorem setFn_hall (s : State) (f : Nat) (x : Fn) : (setFn s f x).hall = s.hall := rfl
@[simp] theorem setFn_pkg (s : State) (f : Nat) (x : Fn) : (setFn s f x).pkg = s.pkg := rfl
@[simp] theorem setFn_written (s : State) (f : Nat) (x : Fn) : (setFn s f x).written = s.written := rfl
@[simp] theorem setSvc_cur (s : State) (d : Nat) (x : Service) : (setSvc s d x).cur = s.cur := rfl
@[simp] theorem setSvc_barrel (s : State) (d : Nat) (x : Service) : (setSvc s d x).barrel = s.barrel := rfl
@[simp] theorem setSvc_agenda (s : State) (d : Nat) (x : Service) : (setSvc s d x).agenda = s.agenda := rfl
@[simp] theorem setSvc_due (s : State) (d : Nat) (x : Service) : (setSvc s d x).due = s.due := rfl
@[simp] theorem setSvc_out (s : State) (d : Nat) (x : Service) : (setSvc s d x).out = s.out := rfl
@[simp] theorem setSvc_fresh (s : State) (d : Nat) (x : Service) : (setSvc s d x).fresh = s.fresh := rfl
@[simp] theorem setSvc_nextId (s : State) (d : Nat) (x : Service) : (setSvc s d x).nextId = s.nextId := rfl
@[simp] theorem setSvc_time (s : State) (d : Nat) (x : Service) : (setSvc s d x).time = s.time := rfl
@[simp] theorem setSvc_groups (s : State) (d : Nat) (x : Service) : (setSvc s d x).groups = s.groups := rfl
@[simp] theorem setSvc_blocks (s : State) (d : Nat) (x : Service) : (setSvc s d x).blocks = s.blocks := rfl
@[simp] theorem setSvc_gangs (s : State) (d : Nat) (x : Service) : (setSvc s d x).gangs = s.gangs := rfl
@[simp] theorem setSvc_kerns (s : State) (d : Nat) (x : Service) : (setSvc s d x).kerns = s.kerns := rfl
@[simp] theorem setSvc_cores (s : State) (d : Nat) (x : Service) : (setSvc s d x).cores = s.cores := rfl
@[simp] theorem setSvc_dev (s : State) (d : Nat) (x : Service) : (setSvc s d x).dev = s.dev := rfl
@[simp] theorem setSvc_host (s : State) (d : Nat) (x : Service) : (setSvc s d x).host = s.host := rfl
@[simp] theorem setSvc_die (s : State) (d : Nat) (x : Service) : (setSvc s d x).die = s.die := rfl
@[simp] theorem setSvc_log (s : State) (d : Nat) (x : Service) : (setSvc s d x).log = s.log := rfl
@[simp] theorem setSvc_rels (s : State) (d : Nat) (x : Service) : (setSvc s d x).rels = s.rels := rfl
@[simp] theorem setSvc_stored (s : State) (d : Nat) (x : Service) : (setSvc s d x).stored = s.stored := rfl
@[simp] theorem setSvc_poison (s : State) (d : Nat) (x : Service) : (setSvc s d x).poison = s.poison := rfl
@[simp] theorem setSvc_own (s : State) (d : Nat) (x : Service) : (setSvc s d x).own = s.own := rfl
@[simp] theorem setSvc_tlb (s : State) (d : Nat) (x : Service) : (setSvc s d x).tlb = s.tlb := rfl
@[simp] theorem setSvc_ctxs (s : State) (d : Nat) (x : Service) : (setSvc s d x).ctxs = s.ctxs := rfl
@[simp] theorem setSvc_fns (s : State) (d : Nat) (x : Service) : (setSvc s d x).fns = s.fns := rfl
@[simp] theorem setSvc_ldevs (s : State) (d : Nat) (x : Service) : (setSvc s d x).ldevs = s.ldevs := rfl
@[simp] theorem setSvc_ats (s : State) (d : Nat) (x : Service) : (setSvc s d x).ats = s.ats := rfl
@[simp] theorem setSvc_flips (s : State) (d : Nat) (x : Service) : (setSvc s d x).flips = s.flips := rfl
@[simp] theorem setSvc_services (s : State) (d : Nat) (x : Service) : (setSvc s d x).services = Map.put s.services d x := rfl
@[simp] theorem setSvc_faults (s : State) (d : Nat) (x : Service) : (setSvc s d x).faults = s.faults := rfl
@[simp] theorem setSvc_links (s : State) (d : Nat) (x : Service) : (setSvc s d x).links = s.links := rfl
@[simp] theorem setSvc_hall (s : State) (d : Nat) (x : Service) : (setSvc s d x).hall = s.hall := rfl
@[simp] theorem setSvc_pkg (s : State) (d : Nat) (x : Service) : (setSvc s d x).pkg = s.pkg := rfl
@[simp] theorem setSvc_written (s : State) (d : Nat) (x : Service) : (setSvc s d x).written = s.written := rfl
@[simp] theorem setFaults_cur (s : State) (p : Nat) (x : FaultQueue) : (setFaults s p x).cur = s.cur := rfl
@[simp] theorem setFaults_barrel (s : State) (p : Nat) (x : FaultQueue) : (setFaults s p x).barrel = s.barrel := rfl
@[simp] theorem setFaults_agenda (s : State) (p : Nat) (x : FaultQueue) : (setFaults s p x).agenda = s.agenda := rfl
@[simp] theorem setFaults_due (s : State) (p : Nat) (x : FaultQueue) : (setFaults s p x).due = s.due := rfl
@[simp] theorem setFaults_out (s : State) (p : Nat) (x : FaultQueue) : (setFaults s p x).out = s.out := rfl
@[simp] theorem setFaults_fresh (s : State) (p : Nat) (x : FaultQueue) : (setFaults s p x).fresh = s.fresh := rfl
@[simp] theorem setFaults_nextId (s : State) (p : Nat) (x : FaultQueue) : (setFaults s p x).nextId = s.nextId := rfl
@[simp] theorem setFaults_time (s : State) (p : Nat) (x : FaultQueue) : (setFaults s p x).time = s.time := rfl
@[simp] theorem setFaults_groups (s : State) (p : Nat) (x : FaultQueue) : (setFaults s p x).groups = s.groups := rfl
@[simp] theorem setFaults_blocks (s : State) (p : Nat) (x : FaultQueue) : (setFaults s p x).blocks = s.blocks := rfl
@[simp] theorem setFaults_gangs (s : State) (p : Nat) (x : FaultQueue) : (setFaults s p x).gangs = s.gangs := rfl
@[simp] theorem setFaults_kerns (s : State) (p : Nat) (x : FaultQueue) : (setFaults s p x).kerns = s.kerns := rfl
@[simp] theorem setFaults_cores (s : State) (p : Nat) (x : FaultQueue) : (setFaults s p x).cores = s.cores := rfl
@[simp] theorem setFaults_dev (s : State) (p : Nat) (x : FaultQueue) : (setFaults s p x).dev = s.dev := rfl
@[simp] theorem setFaults_host (s : State) (p : Nat) (x : FaultQueue) : (setFaults s p x).host = s.host := rfl
@[simp] theorem setFaults_die (s : State) (p : Nat) (x : FaultQueue) : (setFaults s p x).die = s.die := rfl
@[simp] theorem setFaults_log (s : State) (p : Nat) (x : FaultQueue) : (setFaults s p x).log = s.log := rfl
@[simp] theorem setFaults_rels (s : State) (p : Nat) (x : FaultQueue) : (setFaults s p x).rels = s.rels := rfl
@[simp] theorem setFaults_stored (s : State) (p : Nat) (x : FaultQueue) : (setFaults s p x).stored = s.stored := rfl
@[simp] theorem setFaults_poison (s : State) (p : Nat) (x : FaultQueue) : (setFaults s p x).poison = s.poison := rfl
@[simp] theorem setFaults_own (s : State) (p : Nat) (x : FaultQueue) : (setFaults s p x).own = s.own := rfl
@[simp] theorem setFaults_tlb (s : State) (p : Nat) (x : FaultQueue) : (setFaults s p x).tlb = s.tlb := rfl
@[simp] theorem setFaults_ctxs (s : State) (p : Nat) (x : FaultQueue) : (setFaults s p x).ctxs = s.ctxs := rfl
@[simp] theorem setFaults_fns (s : State) (p : Nat) (x : FaultQueue) : (setFaults s p x).fns = s.fns := rfl
@[simp] theorem setFaults_ldevs (s : State) (p : Nat) (x : FaultQueue) : (setFaults s p x).ldevs = s.ldevs := rfl
@[simp] theorem setFaults_ats (s : State) (p : Nat) (x : FaultQueue) : (setFaults s p x).ats = s.ats := rfl
@[simp] theorem setFaults_flips (s : State) (p : Nat) (x : FaultQueue) : (setFaults s p x).flips = s.flips := rfl
@[simp] theorem setFaults_services (s : State) (p : Nat) (x : FaultQueue) : (setFaults s p x).services = s.services := rfl
@[simp] theorem setFaults_faults (s : State) (p : Nat) (x : FaultQueue) : (setFaults s p x).faults = Map.put s.faults p x := rfl
@[simp] theorem setFaults_links (s : State) (p : Nat) (x : FaultQueue) : (setFaults s p x).links = s.links := rfl
@[simp] theorem setFaults_hall (s : State) (p : Nat) (x : FaultQueue) : (setFaults s p x).hall = s.hall := rfl
@[simp] theorem setFaults_pkg (s : State) (p : Nat) (x : FaultQueue) : (setFaults s p x).pkg = s.pkg := rfl
@[simp] theorem setFaults_written (s : State) (p : Nat) (x : FaultQueue) : (setFaults s p x).written = s.written := rfl
@[simp] theorem setOwn_cur (s : State) (f : Nat) (x : Own) : (setOwn s f x).cur = s.cur := rfl
@[simp] theorem setOwn_barrel (s : State) (f : Nat) (x : Own) : (setOwn s f x).barrel = s.barrel := rfl
@[simp] theorem setOwn_agenda (s : State) (f : Nat) (x : Own) : (setOwn s f x).agenda = s.agenda := rfl
@[simp] theorem setOwn_due (s : State) (f : Nat) (x : Own) : (setOwn s f x).due = s.due := rfl
@[simp] theorem setOwn_out (s : State) (f : Nat) (x : Own) : (setOwn s f x).out = s.out := rfl
@[simp] theorem setOwn_fresh (s : State) (f : Nat) (x : Own) : (setOwn s f x).fresh = s.fresh := rfl
@[simp] theorem setOwn_nextId (s : State) (f : Nat) (x : Own) : (setOwn s f x).nextId = s.nextId := rfl
@[simp] theorem setOwn_time (s : State) (f : Nat) (x : Own) : (setOwn s f x).time = s.time := rfl
@[simp] theorem setOwn_groups (s : State) (f : Nat) (x : Own) : (setOwn s f x).groups = s.groups := rfl
@[simp] theorem setOwn_blocks (s : State) (f : Nat) (x : Own) : (setOwn s f x).blocks = s.blocks := rfl
@[simp] theorem setOwn_gangs (s : State) (f : Nat) (x : Own) : (setOwn s f x).gangs = s.gangs := rfl
@[simp] theorem setOwn_kerns (s : State) (f : Nat) (x : Own) : (setOwn s f x).kerns = s.kerns := rfl
@[simp] theorem setOwn_cores (s : State) (f : Nat) (x : Own) : (setOwn s f x).cores = s.cores := rfl
@[simp] theorem setOwn_dev (s : State) (f : Nat) (x : Own) : (setOwn s f x).dev = s.dev := rfl
@[simp] theorem setOwn_host (s : State) (f : Nat) (x : Own) : (setOwn s f x).host = s.host := rfl
@[simp] theorem setOwn_die (s : State) (f : Nat) (x : Own) : (setOwn s f x).die = s.die := rfl
@[simp] theorem setOwn_log (s : State) (f : Nat) (x : Own) : (setOwn s f x).log = s.log := rfl
@[simp] theorem setOwn_rels (s : State) (f : Nat) (x : Own) : (setOwn s f x).rels = s.rels := rfl
@[simp] theorem setOwn_stored (s : State) (f : Nat) (x : Own) : (setOwn s f x).stored = s.stored := rfl
@[simp] theorem setOwn_poison (s : State) (f : Nat) (x : Own) : (setOwn s f x).poison = s.poison := rfl
@[simp] theorem setOwn_own (s : State) (f : Nat) (x : Own) : (setOwn s f x).own = Map.put s.own f x := rfl
@[simp] theorem setOwn_tlb (s : State) (f : Nat) (x : Own) : (setOwn s f x).tlb = s.tlb := rfl
@[simp] theorem setOwn_ctxs (s : State) (f : Nat) (x : Own) : (setOwn s f x).ctxs = s.ctxs := rfl
@[simp] theorem setOwn_fns (s : State) (f : Nat) (x : Own) : (setOwn s f x).fns = s.fns := rfl
@[simp] theorem setOwn_ldevs (s : State) (f : Nat) (x : Own) : (setOwn s f x).ldevs = s.ldevs := rfl
@[simp] theorem setOwn_ats (s : State) (f : Nat) (x : Own) : (setOwn s f x).ats = s.ats := rfl
@[simp] theorem setOwn_flips (s : State) (f : Nat) (x : Own) : (setOwn s f x).flips = s.flips := rfl
@[simp] theorem setOwn_services (s : State) (f : Nat) (x : Own) : (setOwn s f x).services = s.services := rfl
@[simp] theorem setOwn_faults (s : State) (f : Nat) (x : Own) : (setOwn s f x).faults = s.faults := rfl
@[simp] theorem setOwn_links (s : State) (f : Nat) (x : Own) : (setOwn s f x).links = s.links := rfl
@[simp] theorem setOwn_hall (s : State) (f : Nat) (x : Own) : (setOwn s f x).hall = s.hall := rfl
@[simp] theorem setOwn_pkg (s : State) (f : Nat) (x : Own) : (setOwn s f x).pkg = s.pkg := rfl
@[simp] theorem setOwn_written (s : State) (f : Nat) (x : Own) : (setOwn s f x).written = s.written := rfl
@[simp] theorem setHall_cur (s : State) (x : Hall) : (setHall s x).cur = s.cur := rfl
@[simp] theorem setHall_barrel (s : State) (x : Hall) : (setHall s x).barrel = s.barrel := rfl
@[simp] theorem setHall_agenda (s : State) (x : Hall) : (setHall s x).agenda = s.agenda := rfl
@[simp] theorem setHall_due (s : State) (x : Hall) : (setHall s x).due = s.due := rfl
@[simp] theorem setHall_out (s : State) (x : Hall) : (setHall s x).out = s.out := rfl
@[simp] theorem setHall_fresh (s : State) (x : Hall) : (setHall s x).fresh = s.fresh := rfl
@[simp] theorem setHall_nextId (s : State) (x : Hall) : (setHall s x).nextId = s.nextId := rfl
@[simp] theorem setHall_time (s : State) (x : Hall) : (setHall s x).time = s.time := rfl
@[simp] theorem setHall_groups (s : State) (x : Hall) : (setHall s x).groups = s.groups := rfl
@[simp] theorem setHall_blocks (s : State) (x : Hall) : (setHall s x).blocks = s.blocks := rfl
@[simp] theorem setHall_gangs (s : State) (x : Hall) : (setHall s x).gangs = s.gangs := rfl
@[simp] theorem setHall_kerns (s : State) (x : Hall) : (setHall s x).kerns = s.kerns := rfl
@[simp] theorem setHall_cores (s : State) (x : Hall) : (setHall s x).cores = s.cores := rfl
@[simp] theorem setHall_dev (s : State) (x : Hall) : (setHall s x).dev = s.dev := rfl
@[simp] theorem setHall_host (s : State) (x : Hall) : (setHall s x).host = s.host := rfl
@[simp] theorem setHall_die (s : State) (x : Hall) : (setHall s x).die = s.die := rfl
@[simp] theorem setHall_log (s : State) (x : Hall) : (setHall s x).log = s.log := rfl
@[simp] theorem setHall_rels (s : State) (x : Hall) : (setHall s x).rels = s.rels := rfl
@[simp] theorem setHall_stored (s : State) (x : Hall) : (setHall s x).stored = s.stored := rfl
@[simp] theorem setHall_poison (s : State) (x : Hall) : (setHall s x).poison = s.poison := rfl
@[simp] theorem setHall_own (s : State) (x : Hall) : (setHall s x).own = s.own := rfl
@[simp] theorem setHall_tlb (s : State) (x : Hall) : (setHall s x).tlb = s.tlb := rfl
@[simp] theorem setHall_ctxs (s : State) (x : Hall) : (setHall s x).ctxs = s.ctxs := rfl
@[simp] theorem setHall_fns (s : State) (x : Hall) : (setHall s x).fns = s.fns := rfl
@[simp] theorem setHall_ldevs (s : State) (x : Hall) : (setHall s x).ldevs = s.ldevs := rfl
@[simp] theorem setHall_ats (s : State) (x : Hall) : (setHall s x).ats = s.ats := rfl
@[simp] theorem setHall_flips (s : State) (x : Hall) : (setHall s x).flips = s.flips := rfl
@[simp] theorem setHall_services (s : State) (x : Hall) : (setHall s x).services = s.services := rfl
@[simp] theorem setHall_faults (s : State) (x : Hall) : (setHall s x).faults = s.faults := rfl
@[simp] theorem setHall_links (s : State) (x : Hall) : (setHall s x).links = s.links := rfl
@[simp] theorem setHall_hall (s : State) (x : Hall) : (setHall s x).hall = x := rfl
@[simp] theorem setHall_pkg (s : State) (x : Hall) : (setHall s x).pkg = s.pkg := rfl
@[simp] theorem setHall_written (s : State) (x : Hall) : (setHall s x).written = s.written := rfl
@[simp] theorem setLinks_cur (s : State) (x : Links) : (setLinks s x).cur = s.cur := rfl
@[simp] theorem setLinks_barrel (s : State) (x : Links) : (setLinks s x).barrel = s.barrel := rfl
@[simp] theorem setLinks_agenda (s : State) (x : Links) : (setLinks s x).agenda = s.agenda := rfl
@[simp] theorem setLinks_due (s : State) (x : Links) : (setLinks s x).due = s.due := rfl
@[simp] theorem setLinks_out (s : State) (x : Links) : (setLinks s x).out = s.out := rfl
@[simp] theorem setLinks_fresh (s : State) (x : Links) : (setLinks s x).fresh = s.fresh := rfl
@[simp] theorem setLinks_nextId (s : State) (x : Links) : (setLinks s x).nextId = s.nextId := rfl
@[simp] theorem setLinks_time (s : State) (x : Links) : (setLinks s x).time = s.time := rfl
@[simp] theorem setLinks_groups (s : State) (x : Links) : (setLinks s x).groups = s.groups := rfl
@[simp] theorem setLinks_blocks (s : State) (x : Links) : (setLinks s x).blocks = s.blocks := rfl
@[simp] theorem setLinks_gangs (s : State) (x : Links) : (setLinks s x).gangs = s.gangs := rfl
@[simp] theorem setLinks_kerns (s : State) (x : Links) : (setLinks s x).kerns = s.kerns := rfl
@[simp] theorem setLinks_cores (s : State) (x : Links) : (setLinks s x).cores = s.cores := rfl
@[simp] theorem setLinks_dev (s : State) (x : Links) : (setLinks s x).dev = s.dev := rfl
@[simp] theorem setLinks_host (s : State) (x : Links) : (setLinks s x).host = s.host := rfl
@[simp] theorem setLinks_die (s : State) (x : Links) : (setLinks s x).die = s.die := rfl
@[simp] theorem setLinks_log (s : State) (x : Links) : (setLinks s x).log = s.log := rfl
@[simp] theorem setLinks_rels (s : State) (x : Links) : (setLinks s x).rels = s.rels := rfl
@[simp] theorem setLinks_stored (s : State) (x : Links) : (setLinks s x).stored = s.stored := rfl
@[simp] theorem setLinks_poison (s : State) (x : Links) : (setLinks s x).poison = s.poison := rfl
@[simp] theorem setLinks_own (s : State) (x : Links) : (setLinks s x).own = s.own := rfl
@[simp] theorem setLinks_tlb (s : State) (x : Links) : (setLinks s x).tlb = s.tlb := rfl
@[simp] theorem setLinks_ctxs (s : State) (x : Links) : (setLinks s x).ctxs = s.ctxs := rfl
@[simp] theorem setLinks_fns (s : State) (x : Links) : (setLinks s x).fns = s.fns := rfl
@[simp] theorem setLinks_ldevs (s : State) (x : Links) : (setLinks s x).ldevs = s.ldevs := rfl
@[simp] theorem setLinks_ats (s : State) (x : Links) : (setLinks s x).ats = s.ats := rfl
@[simp] theorem setLinks_flips (s : State) (x : Links) : (setLinks s x).flips = s.flips := rfl
@[simp] theorem setLinks_services (s : State) (x : Links) : (setLinks s x).services = s.services := rfl
@[simp] theorem setLinks_faults (s : State) (x : Links) : (setLinks s x).faults = s.faults := rfl
@[simp] theorem setLinks_links (s : State) (x : Links) : (setLinks s x).links = x := rfl
@[simp] theorem setLinks_hall (s : State) (x : Links) : (setLinks s x).hall = s.hall := rfl
@[simp] theorem setLinks_pkg (s : State) (x : Links) : (setLinks s x).pkg = s.pkg := rfl
@[simp] theorem setLinks_written (s : State) (x : Links) : (setLinks s x).written = s.written := rfl
@[simp] theorem setPkg_cur (s : State) (x : Pkg) : (setPkg s x).cur = s.cur := rfl
@[simp] theorem setPkg_barrel (s : State) (x : Pkg) : (setPkg s x).barrel = s.barrel := rfl
@[simp] theorem setPkg_agenda (s : State) (x : Pkg) : (setPkg s x).agenda = s.agenda := rfl
@[simp] theorem setPkg_due (s : State) (x : Pkg) : (setPkg s x).due = s.due := rfl
@[simp] theorem setPkg_out (s : State) (x : Pkg) : (setPkg s x).out = s.out := rfl
@[simp] theorem setPkg_fresh (s : State) (x : Pkg) : (setPkg s x).fresh = s.fresh := rfl
@[simp] theorem setPkg_nextId (s : State) (x : Pkg) : (setPkg s x).nextId = s.nextId := rfl
@[simp] theorem setPkg_time (s : State) (x : Pkg) : (setPkg s x).time = s.time := rfl
@[simp] theorem setPkg_groups (s : State) (x : Pkg) : (setPkg s x).groups = s.groups := rfl
@[simp] theorem setPkg_blocks (s : State) (x : Pkg) : (setPkg s x).blocks = s.blocks := rfl
@[simp] theorem setPkg_gangs (s : State) (x : Pkg) : (setPkg s x).gangs = s.gangs := rfl
@[simp] theorem setPkg_kerns (s : State) (x : Pkg) : (setPkg s x).kerns = s.kerns := rfl
@[simp] theorem setPkg_cores (s : State) (x : Pkg) : (setPkg s x).cores = s.cores := rfl
@[simp] theorem setPkg_dev (s : State) (x : Pkg) : (setPkg s x).dev = s.dev := rfl
@[simp] theorem setPkg_host (s : State) (x : Pkg) : (setPkg s x).host = s.host := rfl
@[simp] theorem setPkg_die (s : State) (x : Pkg) : (setPkg s x).die = s.die := rfl
@[simp] theorem setPkg_log (s : State) (x : Pkg) : (setPkg s x).log = s.log := rfl
@[simp] theorem setPkg_rels (s : State) (x : Pkg) : (setPkg s x).rels = s.rels := rfl
@[simp] theorem setPkg_stored (s : State) (x : Pkg) : (setPkg s x).stored = s.stored := rfl
@[simp] theorem setPkg_poison (s : State) (x : Pkg) : (setPkg s x).poison = s.poison := rfl
@[simp] theorem setPkg_own (s : State) (x : Pkg) : (setPkg s x).own = s.own := rfl
@[simp] theorem setPkg_tlb (s : State) (x : Pkg) : (setPkg s x).tlb = s.tlb := rfl
@[simp] theorem setPkg_ctxs (s : State) (x : Pkg) : (setPkg s x).ctxs = s.ctxs := rfl
@[simp] theorem setPkg_fns (s : State) (x : Pkg) : (setPkg s x).fns = s.fns := rfl
@[simp] theorem setPkg_ldevs (s : State) (x : Pkg) : (setPkg s x).ldevs = s.ldevs := rfl
@[simp] theorem setPkg_ats (s : State) (x : Pkg) : (setPkg s x).ats = s.ats := rfl
@[simp] theorem setPkg_flips (s : State) (x : Pkg) : (setPkg s x).flips = s.flips := rfl
@[simp] theorem setPkg_services (s : State) (x : Pkg) : (setPkg s x).services = s.services := rfl
@[simp] theorem setPkg_faults (s : State) (x : Pkg) : (setPkg s x).faults = s.faults := rfl
@[simp] theorem setPkg_links (s : State) (x : Pkg) : (setPkg s x).links = s.links := rfl
@[simp] theorem setPkg_hall (s : State) (x : Pkg) : (setPkg s x).hall = s.hall := rfl
@[simp] theorem setPkg_pkg (s : State) (x : Pkg) : (setPkg s x).pkg = x := rfl
@[simp] theorem setPkg_written (s : State) (x : Pkg) : (setPkg s x).written = s.written := rfl
@[simp] theorem setDev_cur (s : State) (x : Memory) : (setDev s x).cur = s.cur := rfl
@[simp] theorem setDev_barrel (s : State) (x : Memory) : (setDev s x).barrel = s.barrel := rfl
@[simp] theorem setDev_agenda (s : State) (x : Memory) : (setDev s x).agenda = s.agenda := rfl
@[simp] theorem setDev_due (s : State) (x : Memory) : (setDev s x).due = s.due := rfl
@[simp] theorem setDev_out (s : State) (x : Memory) : (setDev s x).out = s.out := rfl
@[simp] theorem setDev_fresh (s : State) (x : Memory) : (setDev s x).fresh = s.fresh := rfl
@[simp] theorem setDev_nextId (s : State) (x : Memory) : (setDev s x).nextId = s.nextId := rfl
@[simp] theorem setDev_time (s : State) (x : Memory) : (setDev s x).time = s.time := rfl
@[simp] theorem setDev_groups (s : State) (x : Memory) : (setDev s x).groups = s.groups := rfl
@[simp] theorem setDev_blocks (s : State) (x : Memory) : (setDev s x).blocks = s.blocks := rfl
@[simp] theorem setDev_gangs (s : State) (x : Memory) : (setDev s x).gangs = s.gangs := rfl
@[simp] theorem setDev_kerns (s : State) (x : Memory) : (setDev s x).kerns = s.kerns := rfl
@[simp] theorem setDev_cores (s : State) (x : Memory) : (setDev s x).cores = s.cores := rfl
@[simp] theorem setDev_dev (s : State) (x : Memory) : (setDev s x).dev = x := rfl
@[simp] theorem setDev_host (s : State) (x : Memory) : (setDev s x).host = s.host := rfl
@[simp] theorem setDev_die (s : State) (x : Memory) : (setDev s x).die = s.die := rfl
@[simp] theorem setDev_log (s : State) (x : Memory) : (setDev s x).log = s.log := rfl
@[simp] theorem setDev_rels (s : State) (x : Memory) : (setDev s x).rels = s.rels := rfl
@[simp] theorem setDev_stored (s : State) (x : Memory) : (setDev s x).stored = s.stored := rfl
@[simp] theorem setDev_poison (s : State) (x : Memory) : (setDev s x).poison = s.poison := rfl
@[simp] theorem setDev_own (s : State) (x : Memory) : (setDev s x).own = s.own := rfl
@[simp] theorem setDev_tlb (s : State) (x : Memory) : (setDev s x).tlb = s.tlb := rfl
@[simp] theorem setDev_ctxs (s : State) (x : Memory) : (setDev s x).ctxs = s.ctxs := rfl
@[simp] theorem setDev_fns (s : State) (x : Memory) : (setDev s x).fns = s.fns := rfl
@[simp] theorem setDev_ldevs (s : State) (x : Memory) : (setDev s x).ldevs = s.ldevs := rfl
@[simp] theorem setDev_ats (s : State) (x : Memory) : (setDev s x).ats = s.ats := rfl
@[simp] theorem setDev_flips (s : State) (x : Memory) : (setDev s x).flips = s.flips := rfl
@[simp] theorem setDev_services (s : State) (x : Memory) : (setDev s x).services = s.services := rfl
@[simp] theorem setDev_faults (s : State) (x : Memory) : (setDev s x).faults = s.faults := rfl
@[simp] theorem setDev_links (s : State) (x : Memory) : (setDev s x).links = s.links := rfl
@[simp] theorem setDev_hall (s : State) (x : Memory) : (setDev s x).hall = s.hall := rfl
@[simp] theorem setDev_pkg (s : State) (x : Memory) : (setDev s x).pkg = s.pkg := rfl
@[simp] theorem setDev_written (s : State) (x : Memory) : (setDev s x).written = s.written := rfl
@[simp] theorem setHost_cur (s : State) (x : Memory) : (setHost s x).cur = s.cur := rfl
@[simp] theorem setHost_barrel (s : State) (x : Memory) : (setHost s x).barrel = s.barrel := rfl
@[simp] theorem setHost_agenda (s : State) (x : Memory) : (setHost s x).agenda = s.agenda := rfl
@[simp] theorem setHost_due (s : State) (x : Memory) : (setHost s x).due = s.due := rfl
@[simp] theorem setHost_out (s : State) (x : Memory) : (setHost s x).out = s.out := rfl
@[simp] theorem setHost_fresh (s : State) (x : Memory) : (setHost s x).fresh = s.fresh := rfl
@[simp] theorem setHost_nextId (s : State) (x : Memory) : (setHost s x).nextId = s.nextId := rfl
@[simp] theorem setHost_time (s : State) (x : Memory) : (setHost s x).time = s.time := rfl
@[simp] theorem setHost_groups (s : State) (x : Memory) : (setHost s x).groups = s.groups := rfl
@[simp] theorem setHost_blocks (s : State) (x : Memory) : (setHost s x).blocks = s.blocks := rfl
@[simp] theorem setHost_gangs (s : State) (x : Memory) : (setHost s x).gangs = s.gangs := rfl
@[simp] theorem setHost_kerns (s : State) (x : Memory) : (setHost s x).kerns = s.kerns := rfl
@[simp] theorem setHost_cores (s : State) (x : Memory) : (setHost s x).cores = s.cores := rfl
@[simp] theorem setHost_dev (s : State) (x : Memory) : (setHost s x).dev = s.dev := rfl
@[simp] theorem setHost_host (s : State) (x : Memory) : (setHost s x).host = x := rfl
@[simp] theorem setHost_die (s : State) (x : Memory) : (setHost s x).die = s.die := rfl
@[simp] theorem setHost_log (s : State) (x : Memory) : (setHost s x).log = s.log := rfl
@[simp] theorem setHost_rels (s : State) (x : Memory) : (setHost s x).rels = s.rels := rfl
@[simp] theorem setHost_stored (s : State) (x : Memory) : (setHost s x).stored = s.stored := rfl
@[simp] theorem setHost_poison (s : State) (x : Memory) : (setHost s x).poison = s.poison := rfl
@[simp] theorem setHost_own (s : State) (x : Memory) : (setHost s x).own = s.own := rfl
@[simp] theorem setHost_tlb (s : State) (x : Memory) : (setHost s x).tlb = s.tlb := rfl
@[simp] theorem setHost_ctxs (s : State) (x : Memory) : (setHost s x).ctxs = s.ctxs := rfl
@[simp] theorem setHost_fns (s : State) (x : Memory) : (setHost s x).fns = s.fns := rfl
@[simp] theorem setHost_ldevs (s : State) (x : Memory) : (setHost s x).ldevs = s.ldevs := rfl
@[simp] theorem setHost_ats (s : State) (x : Memory) : (setHost s x).ats = s.ats := rfl
@[simp] theorem setHost_flips (s : State) (x : Memory) : (setHost s x).flips = s.flips := rfl
@[simp] theorem setHost_services (s : State) (x : Memory) : (setHost s x).services = s.services := rfl
@[simp] theorem setHost_faults (s : State) (x : Memory) : (setHost s x).faults = s.faults := rfl
@[simp] theorem setHost_links (s : State) (x : Memory) : (setHost s x).links = s.links := rfl
@[simp] theorem setHost_hall (s : State) (x : Memory) : (setHost s x).hall = s.hall := rfl
@[simp] theorem setHost_pkg (s : State) (x : Memory) : (setHost s x).pkg = s.pkg := rfl
@[simp] theorem setHost_written (s : State) (x : Memory) : (setHost s x).written = s.written := rfl
@[simp] theorem setDie_cur (s : State) (k : Nat) (x : Memory) : (setDie s k x).cur = s.cur := rfl
@[simp] theorem setDie_barrel (s : State) (k : Nat) (x : Memory) : (setDie s k x).barrel = s.barrel := rfl
@[simp] theorem setDie_agenda (s : State) (k : Nat) (x : Memory) : (setDie s k x).agenda = s.agenda := rfl
@[simp] theorem setDie_due (s : State) (k : Nat) (x : Memory) : (setDie s k x).due = s.due := rfl
@[simp] theorem setDie_out (s : State) (k : Nat) (x : Memory) : (setDie s k x).out = s.out := rfl
@[simp] theorem setDie_fresh (s : State) (k : Nat) (x : Memory) : (setDie s k x).fresh = s.fresh := rfl
@[simp] theorem setDie_nextId (s : State) (k : Nat) (x : Memory) : (setDie s k x).nextId = s.nextId := rfl
@[simp] theorem setDie_time (s : State) (k : Nat) (x : Memory) : (setDie s k x).time = s.time := rfl
@[simp] theorem setDie_groups (s : State) (k : Nat) (x : Memory) : (setDie s k x).groups = s.groups := rfl
@[simp] theorem setDie_blocks (s : State) (k : Nat) (x : Memory) : (setDie s k x).blocks = s.blocks := rfl
@[simp] theorem setDie_gangs (s : State) (k : Nat) (x : Memory) : (setDie s k x).gangs = s.gangs := rfl
@[simp] theorem setDie_kerns (s : State) (k : Nat) (x : Memory) : (setDie s k x).kerns = s.kerns := rfl
@[simp] theorem setDie_cores (s : State) (k : Nat) (x : Memory) : (setDie s k x).cores = s.cores := rfl
@[simp] theorem setDie_dev (s : State) (k : Nat) (x : Memory) : (setDie s k x).dev = s.dev := rfl
@[simp] theorem setDie_host (s : State) (k : Nat) (x : Memory) : (setDie s k x).host = s.host := rfl
@[simp] theorem setDie_die (s : State) (k : Nat) (x : Memory) : (setDie s k x).die = Map.put s.die k x := rfl
@[simp] theorem setDie_log (s : State) (k : Nat) (x : Memory) : (setDie s k x).log = s.log := rfl
@[simp] theorem setDie_rels (s : State) (k : Nat) (x : Memory) : (setDie s k x).rels = s.rels := rfl
@[simp] theorem setDie_stored (s : State) (k : Nat) (x : Memory) : (setDie s k x).stored = s.stored := rfl
@[simp] theorem setDie_poison (s : State) (k : Nat) (x : Memory) : (setDie s k x).poison = s.poison := rfl
@[simp] theorem setDie_own (s : State) (k : Nat) (x : Memory) : (setDie s k x).own = s.own := rfl
@[simp] theorem setDie_tlb (s : State) (k : Nat) (x : Memory) : (setDie s k x).tlb = s.tlb := rfl
@[simp] theorem setDie_ctxs (s : State) (k : Nat) (x : Memory) : (setDie s k x).ctxs = s.ctxs := rfl
@[simp] theorem setDie_fns (s : State) (k : Nat) (x : Memory) : (setDie s k x).fns = s.fns := rfl
@[simp] theorem setDie_ldevs (s : State) (k : Nat) (x : Memory) : (setDie s k x).ldevs = s.ldevs := rfl
@[simp] theorem setDie_ats (s : State) (k : Nat) (x : Memory) : (setDie s k x).ats = s.ats := rfl
@[simp] theorem setDie_flips (s : State) (k : Nat) (x : Memory) : (setDie s k x).flips = s.flips := rfl
@[simp] theorem setDie_services (s : State) (k : Nat) (x : Memory) : (setDie s k x).services = s.services := rfl
@[simp] theorem setDie_faults (s : State) (k : Nat) (x : Memory) : (setDie s k x).faults = s.faults := rfl
@[simp] theorem setDie_links (s : State) (k : Nat) (x : Memory) : (setDie s k x).links = s.links := rfl
@[simp] theorem setDie_hall (s : State) (k : Nat) (x : Memory) : (setDie s k x).hall = s.hall := rfl
@[simp] theorem setDie_pkg (s : State) (k : Nat) (x : Memory) : (setDie s k x).pkg = s.pkg := rfl
@[simp] theorem setDie_written (s : State) (k : Nat) (x : Memory) : (setDie s k x).written = s.written := rfl
@[simp] theorem setPoison_cur (s : State) (x : List (MemName × Nat)) : (setPoison s x).cur = s.cur := rfl
@[simp] theorem setPoison_barrel (s : State) (x : List (MemName × Nat)) : (setPoison s x).barrel = s.barrel := rfl
@[simp] theorem setPoison_agenda (s : State) (x : List (MemName × Nat)) : (setPoison s x).agenda = s.agenda := rfl
@[simp] theorem setPoison_due (s : State) (x : List (MemName × Nat)) : (setPoison s x).due = s.due := rfl
@[simp] theorem setPoison_out (s : State) (x : List (MemName × Nat)) : (setPoison s x).out = s.out := rfl
@[simp] theorem setPoison_fresh (s : State) (x : List (MemName × Nat)) : (setPoison s x).fresh = s.fresh := rfl
@[simp] theorem setPoison_nextId (s : State) (x : List (MemName × Nat)) : (setPoison s x).nextId = s.nextId := rfl
@[simp] theorem setPoison_time (s : State) (x : List (MemName × Nat)) : (setPoison s x).time = s.time := rfl
@[simp] theorem setPoison_groups (s : State) (x : List (MemName × Nat)) : (setPoison s x).groups = s.groups := rfl
@[simp] theorem setPoison_blocks (s : State) (x : List (MemName × Nat)) : (setPoison s x).blocks = s.blocks := rfl
@[simp] theorem setPoison_gangs (s : State) (x : List (MemName × Nat)) : (setPoison s x).gangs = s.gangs := rfl
@[simp] theorem setPoison_kerns (s : State) (x : List (MemName × Nat)) : (setPoison s x).kerns = s.kerns := rfl
@[simp] theorem setPoison_cores (s : State) (x : List (MemName × Nat)) : (setPoison s x).cores = s.cores := rfl
@[simp] theorem setPoison_dev (s : State) (x : List (MemName × Nat)) : (setPoison s x).dev = s.dev := rfl
@[simp] theorem setPoison_host (s : State) (x : List (MemName × Nat)) : (setPoison s x).host = s.host := rfl
@[simp] theorem setPoison_die (s : State) (x : List (MemName × Nat)) : (setPoison s x).die = s.die := rfl
@[simp] theorem setPoison_log (s : State) (x : List (MemName × Nat)) : (setPoison s x).log = s.log := rfl
@[simp] theorem setPoison_rels (s : State) (x : List (MemName × Nat)) : (setPoison s x).rels = s.rels := rfl
@[simp] theorem setPoison_stored (s : State) (x : List (MemName × Nat)) : (setPoison s x).stored = s.stored := rfl
@[simp] theorem setPoison_poison (s : State) (x : List (MemName × Nat)) : (setPoison s x).poison = x := rfl
@[simp] theorem setPoison_own (s : State) (x : List (MemName × Nat)) : (setPoison s x).own = s.own := rfl
@[simp] theorem setPoison_tlb (s : State) (x : List (MemName × Nat)) : (setPoison s x).tlb = s.tlb := rfl
@[simp] theorem setPoison_ctxs (s : State) (x : List (MemName × Nat)) : (setPoison s x).ctxs = s.ctxs := rfl
@[simp] theorem setPoison_fns (s : State) (x : List (MemName × Nat)) : (setPoison s x).fns = s.fns := rfl
@[simp] theorem setPoison_ldevs (s : State) (x : List (MemName × Nat)) : (setPoison s x).ldevs = s.ldevs := rfl
@[simp] theorem setPoison_ats (s : State) (x : List (MemName × Nat)) : (setPoison s x).ats = s.ats := rfl
@[simp] theorem setPoison_flips (s : State) (x : List (MemName × Nat)) : (setPoison s x).flips = s.flips := rfl
@[simp] theorem setPoison_services (s : State) (x : List (MemName × Nat)) : (setPoison s x).services = s.services := rfl
@[simp] theorem setPoison_faults (s : State) (x : List (MemName × Nat)) : (setPoison s x).faults = s.faults := rfl
@[simp] theorem setPoison_links (s : State) (x : List (MemName × Nat)) : (setPoison s x).links = s.links := rfl
@[simp] theorem setPoison_hall (s : State) (x : List (MemName × Nat)) : (setPoison s x).hall = s.hall := rfl
@[simp] theorem setPoison_pkg (s : State) (x : List (MemName × Nat)) : (setPoison s x).pkg = s.pkg := rfl
@[simp] theorem setPoison_written (s : State) (x : List (MemName × Nat)) : (setPoison s x).written = s.written := rfl
@[simp] theorem setTlb_cur (s : State) (x : List TlbEntry) : (setTlb s x).cur = s.cur := rfl
@[simp] theorem setTlb_barrel (s : State) (x : List TlbEntry) : (setTlb s x).barrel = s.barrel := rfl
@[simp] theorem setTlb_agenda (s : State) (x : List TlbEntry) : (setTlb s x).agenda = s.agenda := rfl
@[simp] theorem setTlb_due (s : State) (x : List TlbEntry) : (setTlb s x).due = s.due := rfl
@[simp] theorem setTlb_out (s : State) (x : List TlbEntry) : (setTlb s x).out = s.out := rfl
@[simp] theorem setTlb_fresh (s : State) (x : List TlbEntry) : (setTlb s x).fresh = s.fresh := rfl
@[simp] theorem setTlb_nextId (s : State) (x : List TlbEntry) : (setTlb s x).nextId = s.nextId := rfl
@[simp] theorem setTlb_time (s : State) (x : List TlbEntry) : (setTlb s x).time = s.time := rfl
@[simp] theorem setTlb_groups (s : State) (x : List TlbEntry) : (setTlb s x).groups = s.groups := rfl
@[simp] theorem setTlb_blocks (s : State) (x : List TlbEntry) : (setTlb s x).blocks = s.blocks := rfl
@[simp] theorem setTlb_gangs (s : State) (x : List TlbEntry) : (setTlb s x).gangs = s.gangs := rfl
@[simp] theorem setTlb_kerns (s : State) (x : List TlbEntry) : (setTlb s x).kerns = s.kerns := rfl
@[simp] theorem setTlb_cores (s : State) (x : List TlbEntry) : (setTlb s x).cores = s.cores := rfl
@[simp] theorem setTlb_dev (s : State) (x : List TlbEntry) : (setTlb s x).dev = s.dev := rfl
@[simp] theorem setTlb_host (s : State) (x : List TlbEntry) : (setTlb s x).host = s.host := rfl
@[simp] theorem setTlb_die (s : State) (x : List TlbEntry) : (setTlb s x).die = s.die := rfl
@[simp] theorem setTlb_log (s : State) (x : List TlbEntry) : (setTlb s x).log = s.log := rfl
@[simp] theorem setTlb_rels (s : State) (x : List TlbEntry) : (setTlb s x).rels = s.rels := rfl
@[simp] theorem setTlb_stored (s : State) (x : List TlbEntry) : (setTlb s x).stored = s.stored := rfl
@[simp] theorem setTlb_poison (s : State) (x : List TlbEntry) : (setTlb s x).poison = s.poison := rfl
@[simp] theorem setTlb_own (s : State) (x : List TlbEntry) : (setTlb s x).own = s.own := rfl
@[simp] theorem setTlb_tlb (s : State) (x : List TlbEntry) : (setTlb s x).tlb = x := rfl
@[simp] theorem setTlb_ctxs (s : State) (x : List TlbEntry) : (setTlb s x).ctxs = s.ctxs := rfl
@[simp] theorem setTlb_fns (s : State) (x : List TlbEntry) : (setTlb s x).fns = s.fns := rfl
@[simp] theorem setTlb_ldevs (s : State) (x : List TlbEntry) : (setTlb s x).ldevs = s.ldevs := rfl
@[simp] theorem setTlb_ats (s : State) (x : List TlbEntry) : (setTlb s x).ats = s.ats := rfl
@[simp] theorem setTlb_flips (s : State) (x : List TlbEntry) : (setTlb s x).flips = s.flips := rfl
@[simp] theorem setTlb_services (s : State) (x : List TlbEntry) : (setTlb s x).services = s.services := rfl
@[simp] theorem setTlb_faults (s : State) (x : List TlbEntry) : (setTlb s x).faults = s.faults := rfl
@[simp] theorem setTlb_links (s : State) (x : List TlbEntry) : (setTlb s x).links = s.links := rfl
@[simp] theorem setTlb_hall (s : State) (x : List TlbEntry) : (setTlb s x).hall = s.hall := rfl
@[simp] theorem setTlb_pkg (s : State) (x : List TlbEntry) : (setTlb s x).pkg = s.pkg := rfl
@[simp] theorem setTlb_written (s : State) (x : List TlbEntry) : (setTlb s x).written = s.written := rfl
@[simp] theorem setFresh_cur (s : State) (n : Nat) : (setFresh s n).cur = s.cur := rfl
@[simp] theorem setFresh_barrel (s : State) (n : Nat) : (setFresh s n).barrel = s.barrel := rfl
@[simp] theorem setFresh_agenda (s : State) (n : Nat) : (setFresh s n).agenda = s.agenda := rfl
@[simp] theorem setFresh_due (s : State) (n : Nat) : (setFresh s n).due = s.due := rfl
@[simp] theorem setFresh_out (s : State) (n : Nat) : (setFresh s n).out = s.out := rfl
@[simp] theorem setFresh_fresh (s : State) (n : Nat) : (setFresh s n).fresh = n := rfl
@[simp] theorem setFresh_nextId (s : State) (n : Nat) : (setFresh s n).nextId = s.nextId := rfl
@[simp] theorem setFresh_time (s : State) (n : Nat) : (setFresh s n).time = s.time := rfl
@[simp] theorem setFresh_groups (s : State) (n : Nat) : (setFresh s n).groups = s.groups := rfl
@[simp] theorem setFresh_blocks (s : State) (n : Nat) : (setFresh s n).blocks = s.blocks := rfl
@[simp] theorem setFresh_gangs (s : State) (n : Nat) : (setFresh s n).gangs = s.gangs := rfl
@[simp] theorem setFresh_kerns (s : State) (n : Nat) : (setFresh s n).kerns = s.kerns := rfl
@[simp] theorem setFresh_cores (s : State) (n : Nat) : (setFresh s n).cores = s.cores := rfl
@[simp] theorem setFresh_dev (s : State) (n : Nat) : (setFresh s n).dev = s.dev := rfl
@[simp] theorem setFresh_host (s : State) (n : Nat) : (setFresh s n).host = s.host := rfl
@[simp] theorem setFresh_die (s : State) (n : Nat) : (setFresh s n).die = s.die := rfl
@[simp] theorem setFresh_log (s : State) (n : Nat) : (setFresh s n).log = s.log := rfl
@[simp] theorem setFresh_rels (s : State) (n : Nat) : (setFresh s n).rels = s.rels := rfl
@[simp] theorem setFresh_stored (s : State) (n : Nat) : (setFresh s n).stored = s.stored := rfl
@[simp] theorem setFresh_poison (s : State) (n : Nat) : (setFresh s n).poison = s.poison := rfl
@[simp] theorem setFresh_own (s : State) (n : Nat) : (setFresh s n).own = s.own := rfl
@[simp] theorem setFresh_tlb (s : State) (n : Nat) : (setFresh s n).tlb = s.tlb := rfl
@[simp] theorem setFresh_ctxs (s : State) (n : Nat) : (setFresh s n).ctxs = s.ctxs := rfl
@[simp] theorem setFresh_fns (s : State) (n : Nat) : (setFresh s n).fns = s.fns := rfl
@[simp] theorem setFresh_ldevs (s : State) (n : Nat) : (setFresh s n).ldevs = s.ldevs := rfl
@[simp] theorem setFresh_ats (s : State) (n : Nat) : (setFresh s n).ats = s.ats := rfl
@[simp] theorem setFresh_flips (s : State) (n : Nat) : (setFresh s n).flips = s.flips := rfl
@[simp] theorem setFresh_services (s : State) (n : Nat) : (setFresh s n).services = s.services := rfl
@[simp] theorem setFresh_faults (s : State) (n : Nat) : (setFresh s n).faults = s.faults := rfl
@[simp] theorem setFresh_links (s : State) (n : Nat) : (setFresh s n).links = s.links := rfl
@[simp] theorem setFresh_hall (s : State) (n : Nat) : (setFresh s n).hall = s.hall := rfl
@[simp] theorem setFresh_pkg (s : State) (n : Nat) : (setFresh s n).pkg = s.pkg := rfl
@[simp] theorem setFresh_written (s : State) (n : Nat) : (setFresh s n).written = s.written := rfl
@[simp] theorem setAgenda_cur (s : State) (x : List Instr) : (setAgenda s x).cur = s.cur := rfl
@[simp] theorem setAgenda_barrel (s : State) (x : List Instr) : (setAgenda s x).barrel = s.barrel := rfl
@[simp] theorem setAgenda_agenda (s : State) (x : List Instr) : (setAgenda s x).agenda = x := rfl
@[simp] theorem setAgenda_due (s : State) (x : List Instr) : (setAgenda s x).due = s.due := rfl
@[simp] theorem setAgenda_out (s : State) (x : List Instr) : (setAgenda s x).out = s.out := rfl
@[simp] theorem setAgenda_fresh (s : State) (x : List Instr) : (setAgenda s x).fresh = s.fresh := rfl
@[simp] theorem setAgenda_nextId (s : State) (x : List Instr) : (setAgenda s x).nextId = s.nextId := rfl
@[simp] theorem setAgenda_time (s : State) (x : List Instr) : (setAgenda s x).time = s.time := rfl
@[simp] theorem setAgenda_groups (s : State) (x : List Instr) : (setAgenda s x).groups = s.groups := rfl
@[simp] theorem setAgenda_blocks (s : State) (x : List Instr) : (setAgenda s x).blocks = s.blocks := rfl
@[simp] theorem setAgenda_gangs (s : State) (x : List Instr) : (setAgenda s x).gangs = s.gangs := rfl
@[simp] theorem setAgenda_kerns (s : State) (x : List Instr) : (setAgenda s x).kerns = s.kerns := rfl
@[simp] theorem setAgenda_cores (s : State) (x : List Instr) : (setAgenda s x).cores = s.cores := rfl
@[simp] theorem setAgenda_dev (s : State) (x : List Instr) : (setAgenda s x).dev = s.dev := rfl
@[simp] theorem setAgenda_host (s : State) (x : List Instr) : (setAgenda s x).host = s.host := rfl
@[simp] theorem setAgenda_die (s : State) (x : List Instr) : (setAgenda s x).die = s.die := rfl
@[simp] theorem setAgenda_log (s : State) (x : List Instr) : (setAgenda s x).log = s.log := rfl
@[simp] theorem setAgenda_rels (s : State) (x : List Instr) : (setAgenda s x).rels = s.rels := rfl
@[simp] theorem setAgenda_stored (s : State) (x : List Instr) : (setAgenda s x).stored = s.stored := rfl
@[simp] theorem setAgenda_poison (s : State) (x : List Instr) : (setAgenda s x).poison = s.poison := rfl
@[simp] theorem setAgenda_own (s : State) (x : List Instr) : (setAgenda s x).own = s.own := rfl
@[simp] theorem setAgenda_tlb (s : State) (x : List Instr) : (setAgenda s x).tlb = s.tlb := rfl
@[simp] theorem setAgenda_ctxs (s : State) (x : List Instr) : (setAgenda s x).ctxs = s.ctxs := rfl
@[simp] theorem setAgenda_fns (s : State) (x : List Instr) : (setAgenda s x).fns = s.fns := rfl
@[simp] theorem setAgenda_ldevs (s : State) (x : List Instr) : (setAgenda s x).ldevs = s.ldevs := rfl
@[simp] theorem setAgenda_ats (s : State) (x : List Instr) : (setAgenda s x).ats = s.ats := rfl
@[simp] theorem setAgenda_flips (s : State) (x : List Instr) : (setAgenda s x).flips = s.flips := rfl
@[simp] theorem setAgenda_services (s : State) (x : List Instr) : (setAgenda s x).services = s.services := rfl
@[simp] theorem setAgenda_faults (s : State) (x : List Instr) : (setAgenda s x).faults = s.faults := rfl
@[simp] theorem setAgenda_links (s : State) (x : List Instr) : (setAgenda s x).links = s.links := rfl
@[simp] theorem setAgenda_hall (s : State) (x : List Instr) : (setAgenda s x).hall = s.hall := rfl
@[simp] theorem setAgenda_pkg (s : State) (x : List Instr) : (setAgenda s x).pkg = s.pkg := rfl
@[simp] theorem setAgenda_written (s : State) (x : List Instr) : (setAgenda s x).written = s.written := rfl
@[simp] theorem emit_cur (s : State) (o : Out) : (emit s o).cur = s.cur := rfl
@[simp] theorem emit_barrel (s : State) (o : Out) : (emit s o).barrel = s.barrel := rfl
@[simp] theorem emit_agenda (s : State) (o : Out) : (emit s o).agenda = s.agenda := rfl
@[simp] theorem emit_due (s : State) (o : Out) : (emit s o).due = s.due := rfl
@[simp] theorem emit_out (s : State) (o : Out) : (emit s o).out = s.out ++ [o] := rfl
@[simp] theorem emit_fresh (s : State) (o : Out) : (emit s o).fresh = s.fresh := rfl
@[simp] theorem emit_nextId (s : State) (o : Out) : (emit s o).nextId = s.nextId := rfl
@[simp] theorem emit_time (s : State) (o : Out) : (emit s o).time = s.time := rfl
@[simp] theorem emit_groups (s : State) (o : Out) : (emit s o).groups = s.groups := rfl
@[simp] theorem emit_blocks (s : State) (o : Out) : (emit s o).blocks = s.blocks := rfl
@[simp] theorem emit_gangs (s : State) (o : Out) : (emit s o).gangs = s.gangs := rfl
@[simp] theorem emit_kerns (s : State) (o : Out) : (emit s o).kerns = s.kerns := rfl
@[simp] theorem emit_cores (s : State) (o : Out) : (emit s o).cores = s.cores := rfl
@[simp] theorem emit_dev (s : State) (o : Out) : (emit s o).dev = s.dev := rfl
@[simp] theorem emit_host (s : State) (o : Out) : (emit s o).host = s.host := rfl
@[simp] theorem emit_die (s : State) (o : Out) : (emit s o).die = s.die := rfl
@[simp] theorem emit_log (s : State) (o : Out) : (emit s o).log = s.log := rfl
@[simp] theorem emit_rels (s : State) (o : Out) : (emit s o).rels = s.rels := rfl
@[simp] theorem emit_stored (s : State) (o : Out) : (emit s o).stored = s.stored := rfl
@[simp] theorem emit_poison (s : State) (o : Out) : (emit s o).poison = s.poison := rfl
@[simp] theorem emit_own (s : State) (o : Out) : (emit s o).own = s.own := rfl
@[simp] theorem emit_tlb (s : State) (o : Out) : (emit s o).tlb = s.tlb := rfl
@[simp] theorem emit_ctxs (s : State) (o : Out) : (emit s o).ctxs = s.ctxs := rfl
@[simp] theorem emit_fns (s : State) (o : Out) : (emit s o).fns = s.fns := rfl
@[simp] theorem emit_ldevs (s : State) (o : Out) : (emit s o).ldevs = s.ldevs := rfl
@[simp] theorem emit_ats (s : State) (o : Out) : (emit s o).ats = s.ats := rfl
@[simp] theorem emit_flips (s : State) (o : Out) : (emit s o).flips = s.flips := rfl
@[simp] theorem emit_services (s : State) (o : Out) : (emit s o).services = s.services := rfl
@[simp] theorem emit_faults (s : State) (o : Out) : (emit s o).faults = s.faults := rfl
@[simp] theorem emit_links (s : State) (o : Out) : (emit s o).links = s.links := rfl
@[simp] theorem emit_hall (s : State) (o : Out) : (emit s o).hall = s.hall := rfl
@[simp] theorem emit_pkg (s : State) (o : Out) : (emit s o).pkg = s.pkg := rfl
@[simp] theorem emit_written (s : State) (o : Out) : (emit s o).written = s.written := rfl
@[simp] theorem setCg_cur (s : State) (x : Group) : (setCg s x).cur = s.cur := rfl
@[simp] theorem setCg_barrel (s : State) (x : Group) : (setCg s x).barrel = s.barrel := rfl
@[simp] theorem setCg_agenda (s : State) (x : Group) : (setCg s x).agenda = s.agenda := rfl
@[simp] theorem setCg_due (s : State) (x : Group) : (setCg s x).due = s.due := rfl
@[simp] theorem setCg_out (s : State) (x : Group) : (setCg s x).out = s.out := rfl
@[simp] theorem setCg_fresh (s : State) (x : Group) : (setCg s x).fresh = s.fresh := rfl
@[simp] theorem setCg_nextId (s : State) (x : Group) : (setCg s x).nextId = s.nextId := rfl
@[simp] theorem setCg_time (s : State) (x : Group) : (setCg s x).time = s.time := rfl
@[simp] theorem setCg_groups (s : State) (x : Group) : (setCg s x).groups = Map.put s.groups s.cur x := rfl
@[simp] theorem setCg_blocks (s : State) (x : Group) : (setCg s x).blocks = s.blocks := rfl
@[simp] theorem setCg_gangs (s : State) (x : Group) : (setCg s x).gangs = s.gangs := rfl
@[simp] theorem setCg_kerns (s : State) (x : Group) : (setCg s x).kerns = s.kerns := rfl
@[simp] theorem setCg_cores (s : State) (x : Group) : (setCg s x).cores = s.cores := rfl
@[simp] theorem setCg_dev (s : State) (x : Group) : (setCg s x).dev = s.dev := rfl
@[simp] theorem setCg_host (s : State) (x : Group) : (setCg s x).host = s.host := rfl
@[simp] theorem setCg_die (s : State) (x : Group) : (setCg s x).die = s.die := rfl
@[simp] theorem setCg_log (s : State) (x : Group) : (setCg s x).log = s.log := rfl
@[simp] theorem setCg_rels (s : State) (x : Group) : (setCg s x).rels = s.rels := rfl
@[simp] theorem setCg_stored (s : State) (x : Group) : (setCg s x).stored = s.stored := rfl
@[simp] theorem setCg_poison (s : State) (x : Group) : (setCg s x).poison = s.poison := rfl
@[simp] theorem setCg_own (s : State) (x : Group) : (setCg s x).own = s.own := rfl
@[simp] theorem setCg_tlb (s : State) (x : Group) : (setCg s x).tlb = s.tlb := rfl
@[simp] theorem setCg_ctxs (s : State) (x : Group) : (setCg s x).ctxs = s.ctxs := rfl
@[simp] theorem setCg_fns (s : State) (x : Group) : (setCg s x).fns = s.fns := rfl
@[simp] theorem setCg_ldevs (s : State) (x : Group) : (setCg s x).ldevs = s.ldevs := rfl
@[simp] theorem setCg_ats (s : State) (x : Group) : (setCg s x).ats = s.ats := rfl
@[simp] theorem setCg_flips (s : State) (x : Group) : (setCg s x).flips = s.flips := rfl
@[simp] theorem setCg_services (s : State) (x : Group) : (setCg s x).services = s.services := rfl
@[simp] theorem setCg_faults (s : State) (x : Group) : (setCg s x).faults = s.faults := rfl
@[simp] theorem setCg_links (s : State) (x : Group) : (setCg s x).links = s.links := rfl
@[simp] theorem setCg_hall (s : State) (x : Group) : (setCg s x).hall = s.hall := rfl
@[simp] theorem setCg_pkg (s : State) (x : Group) : (setCg s x).pkg = s.pkg := rfl
@[simp] theorem setCg_written (s : State) (x : Group) : (setCg s x).written = s.written := rfl
@[simp] theorem setCp_cur (s : State) (x : Path) : (setCp s x).cur = s.cur := rfl
@[simp] theorem setCp_barrel (s : State) (x : Path) : (setCp s x).barrel = s.barrel := rfl
@[simp] theorem setCp_agenda (s : State) (x : Path) : (setCp s x).agenda = s.agenda := rfl
@[simp] theorem setCp_due (s : State) (x : Path) : (setCp s x).due = s.due := rfl
@[simp] theorem setCp_out (s : State) (x : Path) : (setCp s x).out = s.out := rfl
@[simp] theorem setCp_fresh (s : State) (x : Path) : (setCp s x).fresh = s.fresh := rfl
@[simp] theorem setCp_nextId (s : State) (x : Path) : (setCp s x).nextId = s.nextId := rfl
@[simp] theorem setCp_time (s : State) (x : Path) : (setCp s x).time = s.time := rfl
@[simp] theorem setCp_groups (s : State) (x : Path) : (setCp s x).groups = Map.put s.groups s.cur (setPath (cg s) x) := rfl
@[simp] theorem setCp_blocks (s : State) (x : Path) : (setCp s x).blocks = s.blocks := rfl
@[simp] theorem setCp_gangs (s : State) (x : Path) : (setCp s x).gangs = s.gangs := rfl
@[simp] theorem setCp_kerns (s : State) (x : Path) : (setCp s x).kerns = s.kerns := rfl
@[simp] theorem setCp_cores (s : State) (x : Path) : (setCp s x).cores = s.cores := rfl
@[simp] theorem setCp_dev (s : State) (x : Path) : (setCp s x).dev = s.dev := rfl
@[simp] theorem setCp_host (s : State) (x : Path) : (setCp s x).host = s.host := rfl
@[simp] theorem setCp_die (s : State) (x : Path) : (setCp s x).die = s.die := rfl
@[simp] theorem setCp_log (s : State) (x : Path) : (setCp s x).log = s.log := rfl
@[simp] theorem setCp_rels (s : State) (x : Path) : (setCp s x).rels = s.rels := rfl
@[simp] theorem setCp_stored (s : State) (x : Path) : (setCp s x).stored = s.stored := rfl
@[simp] theorem setCp_poison (s : State) (x : Path) : (setCp s x).poison = s.poison := rfl
@[simp] theorem setCp_own (s : State) (x : Path) : (setCp s x).own = s.own := rfl
@[simp] theorem setCp_tlb (s : State) (x : Path) : (setCp s x).tlb = s.tlb := rfl
@[simp] theorem setCp_ctxs (s : State) (x : Path) : (setCp s x).ctxs = s.ctxs := rfl
@[simp] theorem setCp_fns (s : State) (x : Path) : (setCp s x).fns = s.fns := rfl
@[simp] theorem setCp_ldevs (s : State) (x : Path) : (setCp s x).ldevs = s.ldevs := rfl
@[simp] theorem setCp_ats (s : State) (x : Path) : (setCp s x).ats = s.ats := rfl
@[simp] theorem setCp_flips (s : State) (x : Path) : (setCp s x).flips = s.flips := rfl
@[simp] theorem setCp_services (s : State) (x : Path) : (setCp s x).services = s.services := rfl
@[simp] theorem setCp_faults (s : State) (x : Path) : (setCp s x).faults = s.faults := rfl
@[simp] theorem setCp_links (s : State) (x : Path) : (setCp s x).links = s.links := rfl
@[simp] theorem setCp_hall (s : State) (x : Path) : (setCp s x).hall = s.hall := rfl
@[simp] theorem setCp_pkg (s : State) (x : Path) : (setCp s x).pkg = s.pkg := rfl
@[simp] theorem setCp_written (s : State) (x : Path) : (setCp s x).written = s.written := rfl
@[simp] theorem setCb_cur (s : State) (x : Block) : (setCb s x).cur = s.cur := rfl
@[simp] theorem setCb_barrel (s : State) (x : Block) : (setCb s x).barrel = s.barrel := rfl
@[simp] theorem setCb_agenda (s : State) (x : Block) : (setCb s x).agenda = s.agenda := rfl
@[simp] theorem setCb_due (s : State) (x : Block) : (setCb s x).due = s.due := rfl
@[simp] theorem setCb_out (s : State) (x : Block) : (setCb s x).out = s.out := rfl
@[simp] theorem setCb_fresh (s : State) (x : Block) : (setCb s x).fresh = s.fresh := rfl
@[simp] theorem setCb_nextId (s : State) (x : Block) : (setCb s x).nextId = s.nextId := rfl
@[simp] theorem setCb_time (s : State) (x : Block) : (setCb s x).time = s.time := rfl
@[simp] theorem setCb_groups (s : State) (x : Block) : (setCb s x).groups = s.groups := rfl
@[simp] theorem setCb_blocks (s : State) (x : Block) : (setCb s x).blocks = Map.put s.blocks (cg s).blk x := rfl
@[simp] theorem setCb_gangs (s : State) (x : Block) : (setCb s x).gangs = s.gangs := rfl
@[simp] theorem setCb_kerns (s : State) (x : Block) : (setCb s x).kerns = s.kerns := rfl
@[simp] theorem setCb_cores (s : State) (x : Block) : (setCb s x).cores = s.cores := rfl
@[simp] theorem setCb_dev (s : State) (x : Block) : (setCb s x).dev = s.dev := rfl
@[simp] theorem setCb_host (s : State) (x : Block) : (setCb s x).host = s.host := rfl
@[simp] theorem setCb_die (s : State) (x : Block) : (setCb s x).die = s.die := rfl
@[simp] theorem setCb_log (s : State) (x : Block) : (setCb s x).log = s.log := rfl
@[simp] theorem setCb_rels (s : State) (x : Block) : (setCb s x).rels = s.rels := rfl
@[simp] theorem setCb_stored (s : State) (x : Block) : (setCb s x).stored = s.stored := rfl
@[simp] theorem setCb_poison (s : State) (x : Block) : (setCb s x).poison = s.poison := rfl
@[simp] theorem setCb_own (s : State) (x : Block) : (setCb s x).own = s.own := rfl
@[simp] theorem setCb_tlb (s : State) (x : Block) : (setCb s x).tlb = s.tlb := rfl
@[simp] theorem setCb_ctxs (s : State) (x : Block) : (setCb s x).ctxs = s.ctxs := rfl
@[simp] theorem setCb_fns (s : State) (x : Block) : (setCb s x).fns = s.fns := rfl
@[simp] theorem setCb_ldevs (s : State) (x : Block) : (setCb s x).ldevs = s.ldevs := rfl
@[simp] theorem setCb_ats (s : State) (x : Block) : (setCb s x).ats = s.ats := rfl
@[simp] theorem setCb_flips (s : State) (x : Block) : (setCb s x).flips = s.flips := rfl
@[simp] theorem setCb_services (s : State) (x : Block) : (setCb s x).services = s.services := rfl
@[simp] theorem setCb_faults (s : State) (x : Block) : (setCb s x).faults = s.faults := rfl
@[simp] theorem setCb_links (s : State) (x : Block) : (setCb s x).links = s.links := rfl
@[simp] theorem setCb_hall (s : State) (x : Block) : (setCb s x).hall = s.hall := rfl
@[simp] theorem setCb_pkg (s : State) (x : Block) : (setCb s x).pkg = s.pkg := rfl
@[simp] theorem setCb_written (s : State) (x : Block) : (setCb s x).written = s.written := rfl

/-! ### Maps -/

@[simp] theorem look_put_same {α : Type} (m : Map α) (k : Nat) (v d : α) : Map.look (Map.put m k v) k d = v := by
  induction m with
  | nil => simp [Map.put, Map.look]
  | cons e r ih =>
    obtain ⟨k', v'⟩ := e
    simp only [Map.put]
    split
    · simp [Map.look]
    · split
      · simp [Map.look]
      · rename_i h; simp [Map.look, ih, Ne.symm h]
theorem look_put_other {α : Type} (m : Map α) {k j : Nat} (v d : α) (h : j ≠ k) :
    Map.look (Map.put m k v) j d = Map.look m j d := by
  induction m with
  | nil => simp [Map.put, Map.look, Ne.symm h]
  | cons e r ih =>
    obtain ⟨k', v'⟩ := e
    simp only [Map.put]
    split
    · simp [Map.look, Ne.symm h]
    · split
      · subst_vars; simp [Map.look, Ne.symm h]
      · simp only [Map.look, ih]
@[simp] theorem put_put {α : Type} (m : Map α) (k : Nat) (v w : α) : Map.put (Map.put m k v) k w = Map.put m k w := by
  induction m with
  | nil => simp [Map.put]
  | cons e r ih =>
    obtain ⟨k', v'⟩ := e
    by_cases h : k < k'
    · simp [Map.put, h]
    · by_cases h' : k = k'
      · simp [Map.put, h']
      · simp [Map.put, h, h', ih]

/-! ### Records after a setter -/

@[simp] theorem grpOf_setGrp (s : State) (k : Nat) (x : Group) : grpOf (setGrp s k x) k = x := look_put_same _ _ _ _
theorem grpOf_setGrp_other (s : State) {k j : Nat} (x : Group) (h : j ≠ k) : grpOf (setGrp s k x) j = grpOf s j := look_put_other _ _ _ h
@[simp] theorem grpOf_setBlk (s : State) (b : Nat) (x : Block) (j : Nat) : grpOf (setBlk s b x) j = grpOf s j := rfl
@[simp] theorem grpOf_setGang (s : State) (q : Nat) (x : Gang) (j : Nat) : grpOf (setGang s q x) j = grpOf s j := rfl
@[simp] theorem grpOf_setKern (s : State) (k : Nat) (x : Kern) (j : Nat) : grpOf (setKern s k x) j = grpOf s j := rfl
@[simp] theorem grpOf_setCore (s : State) (c : Nat) (x : Core) (j : Nat) : grpOf (setCore s c x) j = grpOf s j := rfl
@[simp] theorem grpOf_setCtx (s : State) (c : Nat) (x : Ctx) (j : Nat) : grpOf (setCtx s c x) j = grpOf s j := rfl
@[simp] theorem grpOf_setFn (s : State) (f : Nat) (x : Fn) (j : Nat) : grpOf (setFn s f x) j = grpOf s j := rfl
@[simp] theorem grpOf_setSvc (s : State) (d : Nat) (x : Service) (j : Nat) : grpOf (setSvc s d x) j = grpOf s j := rfl
@[simp] theorem grpOf_setFaults (s : State) (p : Nat) (x : FaultQueue) (j : Nat) : grpOf (setFaults s p x) j = grpOf s j := rfl
@[simp] theorem grpOf_setOwn (s : State) (f : Nat) (x : Own) (j : Nat) : grpOf (setOwn s f x) j = grpOf s j := rfl
@[simp] theorem grpOf_setHall (s : State) (x : Hall) (j : Nat) : grpOf (setHall s x) j = grpOf s j := rfl
@[simp] theorem grpOf_setLinks (s : State) (x : Links) (j : Nat) : grpOf (setLinks s x) j = grpOf s j := rfl
@[simp] theorem grpOf_setPkg (s : State) (x : Pkg) (j : Nat) : grpOf (setPkg s x) j = grpOf s j := rfl
@[simp] theorem grpOf_setDev (s : State) (x : Memory) (j : Nat) : grpOf (setDev s x) j = grpOf s j := rfl
@[simp] theorem grpOf_setHost (s : State) (x : Memory) (j : Nat) : grpOf (setHost s x) j = grpOf s j := rfl
@[simp] theorem grpOf_setDie (s : State) (k : Nat) (x : Memory) (j : Nat) : grpOf (setDie s k x) j = grpOf s j := rfl
@[simp] theorem grpOf_setPoison (s : State) (x : List (MemName × Nat)) (j : Nat) : grpOf (setPoison s x) j = grpOf s j := rfl
@[simp] theorem grpOf_setTlb (s : State) (x : List TlbEntry) (j : Nat) : grpOf (setTlb s x) j = grpOf s j := rfl
@[simp] theorem grpOf_setFresh (s : State) (n : Nat) (j : Nat) : grpOf (setFresh s n) j = grpOf s j := rfl
@[simp] theorem grpOf_setAgenda (s : State) (x : List Instr) (j : Nat) : grpOf (setAgenda s x) j = grpOf s j := rfl
@[simp] theorem grpOf_emit (s : State) (o : Out) (j : Nat) : grpOf (emit s o) j = grpOf s j := rfl
@[simp] theorem grpOf_setCb (s : State) (x : Block) (j : Nat) : grpOf (setCb s x) j = grpOf s j := rfl
@[simp] theorem blkOf_setBlk (s : State) (k : Nat) (x : Block) : blkOf (setBlk s k x) k = x := look_put_same _ _ _ _
theorem blkOf_setBlk_other (s : State) {k j : Nat} (x : Block) (h : j ≠ k) : blkOf (setBlk s k x) j = blkOf s j := look_put_other _ _ _ h
@[simp] theorem blkOf_setGrp (s : State) (g : Nat) (x : Group) (j : Nat) : blkOf (setGrp s g x) j = blkOf s j := rfl
@[simp] theorem blkOf_setGang (s : State) (q : Nat) (x : Gang) (j : Nat) : blkOf (setGang s q x) j = blkOf s j := rfl
@[simp] theorem blkOf_setKern (s : State) (k : Nat) (x : Kern) (j : Nat) : blkOf (setKern s k x) j = blkOf s j := rfl
@[simp] theorem blkOf_setCore (s : State) (c : Nat) (x : Core) (j : Nat) : blkOf (setCore s c x) j = blkOf s j := rfl
@[simp] theorem blkOf_setCtx (s : State) (c : Nat) (x : Ctx) (j : Nat) : blkOf (setCtx s c x) j = blkOf s j := rfl
@[simp] theorem blkOf_setFn (s : State) (f : Nat) (x : Fn) (j : Nat) : blkOf (setFn s f x) j = blkOf s j := rfl
@[simp] theorem blkOf_setSvc (s : State) (d : Nat) (x : Service) (j : Nat) : blkOf (setSvc s d x) j = blkOf s j := rfl
@[simp] theorem blkOf_setFaults (s : State) (p : Nat) (x : FaultQueue) (j : Nat) : blkOf (setFaults s p x) j = blkOf s j := rfl
@[simp] theorem blkOf_setOwn (s : State) (f : Nat) (x : Own) (j : Nat) : blkOf (setOwn s f x) j = blkOf s j := rfl
@[simp] theorem blkOf_setHall (s : State) (x : Hall) (j : Nat) : blkOf (setHall s x) j = blkOf s j := rfl
@[simp] theorem blkOf_setLinks (s : State) (x : Links) (j : Nat) : blkOf (setLinks s x) j = blkOf s j := rfl
@[simp] theorem blkOf_setPkg (s : State) (x : Pkg) (j : Nat) : blkOf (setPkg s x) j = blkOf s j := rfl
@[simp] theorem blkOf_setDev (s : State) (x : Memory) (j : Nat) : blkOf (setDev s x) j = blkOf s j := rfl
@[simp] theorem blkOf_setHost (s : State) (x : Memory) (j : Nat) : blkOf (setHost s x) j = blkOf s j := rfl
@[simp] theorem blkOf_setDie (s : State) (k : Nat) (x : Memory) (j : Nat) : blkOf (setDie s k x) j = blkOf s j := rfl
@[simp] theorem blkOf_setPoison (s : State) (x : List (MemName × Nat)) (j : Nat) : blkOf (setPoison s x) j = blkOf s j := rfl
@[simp] theorem blkOf_setTlb (s : State) (x : List TlbEntry) (j : Nat) : blkOf (setTlb s x) j = blkOf s j := rfl
@[simp] theorem blkOf_setFresh (s : State) (n : Nat) (j : Nat) : blkOf (setFresh s n) j = blkOf s j := rfl
@[simp] theorem blkOf_setAgenda (s : State) (x : List Instr) (j : Nat) : blkOf (setAgenda s x) j = blkOf s j := rfl
@[simp] theorem blkOf_emit (s : State) (o : Out) (j : Nat) : blkOf (emit s o) j = blkOf s j := rfl
@[simp] theorem blkOf_setCg (s : State) (x : Group) (j : Nat) : blkOf (setCg s x) j = blkOf s j := rfl
@[simp] theorem blkOf_setCp (s : State) (x : Path) (j : Nat) : blkOf (setCp s x) j = blkOf s j := rfl
@[simp] theorem gangOf_setGang (s : State) (k : Nat) (x : Gang) : gangOf (setGang s k x) k = x := look_put_same _ _ _ _
theorem gangOf_setGang_other (s : State) {k j : Nat} (x : Gang) (h : j ≠ k) : gangOf (setGang s k x) j = gangOf s j := look_put_other _ _ _ h
@[simp] theorem gangOf_setGrp (s : State) (g : Nat) (x : Group) (j : Nat) : gangOf (setGrp s g x) j = gangOf s j := rfl
@[simp] theorem gangOf_setBlk (s : State) (b : Nat) (x : Block) (j : Nat) : gangOf (setBlk s b x) j = gangOf s j := rfl
@[simp] theorem gangOf_setKern (s : State) (k : Nat) (x : Kern) (j : Nat) : gangOf (setKern s k x) j = gangOf s j := rfl
@[simp] theorem gangOf_setCore (s : State) (c : Nat) (x : Core) (j : Nat) : gangOf (setCore s c x) j = gangOf s j := rfl
@[simp] theorem gangOf_setCtx (s : State) (c : Nat) (x : Ctx) (j : Nat) : gangOf (setCtx s c x) j = gangOf s j := rfl
@[simp] theorem gangOf_setFn (s : State) (f : Nat) (x : Fn) (j : Nat) : gangOf (setFn s f x) j = gangOf s j := rfl
@[simp] theorem gangOf_setSvc (s : State) (d : Nat) (x : Service) (j : Nat) : gangOf (setSvc s d x) j = gangOf s j := rfl
@[simp] theorem gangOf_setFaults (s : State) (p : Nat) (x : FaultQueue) (j : Nat) : gangOf (setFaults s p x) j = gangOf s j := rfl
@[simp] theorem gangOf_setOwn (s : State) (f : Nat) (x : Own) (j : Nat) : gangOf (setOwn s f x) j = gangOf s j := rfl
@[simp] theorem gangOf_setHall (s : State) (x : Hall) (j : Nat) : gangOf (setHall s x) j = gangOf s j := rfl
@[simp] theorem gangOf_setLinks (s : State) (x : Links) (j : Nat) : gangOf (setLinks s x) j = gangOf s j := rfl
@[simp] theorem gangOf_setPkg (s : State) (x : Pkg) (j : Nat) : gangOf (setPkg s x) j = gangOf s j := rfl
@[simp] theorem gangOf_setDev (s : State) (x : Memory) (j : Nat) : gangOf (setDev s x) j = gangOf s j := rfl
@[simp] theorem gangOf_setHost (s : State) (x : Memory) (j : Nat) : gangOf (setHost s x) j = gangOf s j := rfl
@[simp] theorem gangOf_setDie (s : State) (k : Nat) (x : Memory) (j : Nat) : gangOf (setDie s k x) j = gangOf s j := rfl
@[simp] theorem gangOf_setPoison (s : State) (x : List (MemName × Nat)) (j : Nat) : gangOf (setPoison s x) j = gangOf s j := rfl
@[simp] theorem gangOf_setTlb (s : State) (x : List TlbEntry) (j : Nat) : gangOf (setTlb s x) j = gangOf s j := rfl
@[simp] theorem gangOf_setFresh (s : State) (n : Nat) (j : Nat) : gangOf (setFresh s n) j = gangOf s j := rfl
@[simp] theorem gangOf_setAgenda (s : State) (x : List Instr) (j : Nat) : gangOf (setAgenda s x) j = gangOf s j := rfl
@[simp] theorem gangOf_emit (s : State) (o : Out) (j : Nat) : gangOf (emit s o) j = gangOf s j := rfl
@[simp] theorem gangOf_setCg (s : State) (x : Group) (j : Nat) : gangOf (setCg s x) j = gangOf s j := rfl
@[simp] theorem gangOf_setCp (s : State) (x : Path) (j : Nat) : gangOf (setCp s x) j = gangOf s j := rfl
@[simp] theorem gangOf_setCb (s : State) (x : Block) (j : Nat) : gangOf (setCb s x) j = gangOf s j := rfl
@[simp] theorem kernOf_setKern (s : State) (k : Nat) (x : Kern) : kernOf (setKern s k x) k = x := look_put_same _ _ _ _
theorem kernOf_setKern_other (s : State) {k j : Nat} (x : Kern) (h : j ≠ k) : kernOf (setKern s k x) j = kernOf s j := look_put_other _ _ _ h
@[simp] theorem kernOf_setGrp (s : State) (g : Nat) (x : Group) (j : Nat) : kernOf (setGrp s g x) j = kernOf s j := rfl
@[simp] theorem kernOf_setBlk (s : State) (b : Nat) (x : Block) (j : Nat) : kernOf (setBlk s b x) j = kernOf s j := rfl
@[simp] theorem kernOf_setGang (s : State) (q : Nat) (x : Gang) (j : Nat) : kernOf (setGang s q x) j = kernOf s j := rfl
@[simp] theorem kernOf_setCore (s : State) (c : Nat) (x : Core) (j : Nat) : kernOf (setCore s c x) j = kernOf s j := rfl
@[simp] theorem kernOf_setCtx (s : State) (c : Nat) (x : Ctx) (j : Nat) : kernOf (setCtx s c x) j = kernOf s j := rfl
@[simp] theorem kernOf_setFn (s : State) (f : Nat) (x : Fn) (j : Nat) : kernOf (setFn s f x) j = kernOf s j := rfl
@[simp] theorem kernOf_setSvc (s : State) (d : Nat) (x : Service) (j : Nat) : kernOf (setSvc s d x) j = kernOf s j := rfl
@[simp] theorem kernOf_setFaults (s : State) (p : Nat) (x : FaultQueue) (j : Nat) : kernOf (setFaults s p x) j = kernOf s j := rfl
@[simp] theorem kernOf_setOwn (s : State) (f : Nat) (x : Own) (j : Nat) : kernOf (setOwn s f x) j = kernOf s j := rfl
@[simp] theorem kernOf_setHall (s : State) (x : Hall) (j : Nat) : kernOf (setHall s x) j = kernOf s j := rfl
@[simp] theorem kernOf_setLinks (s : State) (x : Links) (j : Nat) : kernOf (setLinks s x) j = kernOf s j := rfl
@[simp] theorem kernOf_setPkg (s : State) (x : Pkg) (j : Nat) : kernOf (setPkg s x) j = kernOf s j := rfl
@[simp] theorem kernOf_setDev (s : State) (x : Memory) (j : Nat) : kernOf (setDev s x) j = kernOf s j := rfl
@[simp] theorem kernOf_setHost (s : State) (x : Memory) (j : Nat) : kernOf (setHost s x) j = kernOf s j := rfl
@[simp] theorem kernOf_setDie (s : State) (k : Nat) (x : Memory) (j : Nat) : kernOf (setDie s k x) j = kernOf s j := rfl
@[simp] theorem kernOf_setPoison (s : State) (x : List (MemName × Nat)) (j : Nat) : kernOf (setPoison s x) j = kernOf s j := rfl
@[simp] theorem kernOf_setTlb (s : State) (x : List TlbEntry) (j : Nat) : kernOf (setTlb s x) j = kernOf s j := rfl
@[simp] theorem kernOf_setFresh (s : State) (n : Nat) (j : Nat) : kernOf (setFresh s n) j = kernOf s j := rfl
@[simp] theorem kernOf_setAgenda (s : State) (x : List Instr) (j : Nat) : kernOf (setAgenda s x) j = kernOf s j := rfl
@[simp] theorem kernOf_emit (s : State) (o : Out) (j : Nat) : kernOf (emit s o) j = kernOf s j := rfl
@[simp] theorem kernOf_setCg (s : State) (x : Group) (j : Nat) : kernOf (setCg s x) j = kernOf s j := rfl
@[simp] theorem kernOf_setCp (s : State) (x : Path) (j : Nat) : kernOf (setCp s x) j = kernOf s j := rfl
@[simp] theorem kernOf_setCb (s : State) (x : Block) (j : Nat) : kernOf (setCb s x) j = kernOf s j := rfl
@[simp] theorem coreOf_setCore (s : State) (k : Nat) (x : Core) : coreOf (setCore s k x) k = x := look_put_same _ _ _ _
theorem coreOf_setCore_other (s : State) {k j : Nat} (x : Core) (h : j ≠ k) : coreOf (setCore s k x) j = coreOf s j := look_put_other _ _ _ h
@[simp] theorem coreOf_setGrp (s : State) (g : Nat) (x : Group) (j : Nat) : coreOf (setGrp s g x) j = coreOf s j := rfl
@[simp] theorem coreOf_setBlk (s : State) (b : Nat) (x : Block) (j : Nat) : coreOf (setBlk s b x) j = coreOf s j := rfl
@[simp] theorem coreOf_setGang (s : State) (q : Nat) (x : Gang) (j : Nat) : coreOf (setGang s q x) j = coreOf s j := rfl
@[simp] theorem coreOf_setKern (s : State) (k : Nat) (x : Kern) (j : Nat) : coreOf (setKern s k x) j = coreOf s j := rfl
@[simp] theorem coreOf_setCtx (s : State) (c : Nat) (x : Ctx) (j : Nat) : coreOf (setCtx s c x) j = coreOf s j := rfl
@[simp] theorem coreOf_setFn (s : State) (f : Nat) (x : Fn) (j : Nat) : coreOf (setFn s f x) j = coreOf s j := rfl
@[simp] theorem coreOf_setSvc (s : State) (d : Nat) (x : Service) (j : Nat) : coreOf (setSvc s d x) j = coreOf s j := rfl
@[simp] theorem coreOf_setFaults (s : State) (p : Nat) (x : FaultQueue) (j : Nat) : coreOf (setFaults s p x) j = coreOf s j := rfl
@[simp] theorem coreOf_setOwn (s : State) (f : Nat) (x : Own) (j : Nat) : coreOf (setOwn s f x) j = coreOf s j := rfl
@[simp] theorem coreOf_setHall (s : State) (x : Hall) (j : Nat) : coreOf (setHall s x) j = coreOf s j := rfl
@[simp] theorem coreOf_setLinks (s : State) (x : Links) (j : Nat) : coreOf (setLinks s x) j = coreOf s j := rfl
@[simp] theorem coreOf_setPkg (s : State) (x : Pkg) (j : Nat) : coreOf (setPkg s x) j = coreOf s j := rfl
@[simp] theorem coreOf_setDev (s : State) (x : Memory) (j : Nat) : coreOf (setDev s x) j = coreOf s j := rfl
@[simp] theorem coreOf_setHost (s : State) (x : Memory) (j : Nat) : coreOf (setHost s x) j = coreOf s j := rfl
@[simp] theorem coreOf_setDie (s : State) (k : Nat) (x : Memory) (j : Nat) : coreOf (setDie s k x) j = coreOf s j := rfl
@[simp] theorem coreOf_setPoison (s : State) (x : List (MemName × Nat)) (j : Nat) : coreOf (setPoison s x) j = coreOf s j := rfl
@[simp] theorem coreOf_setTlb (s : State) (x : List TlbEntry) (j : Nat) : coreOf (setTlb s x) j = coreOf s j := rfl
@[simp] theorem coreOf_setFresh (s : State) (n : Nat) (j : Nat) : coreOf (setFresh s n) j = coreOf s j := rfl
@[simp] theorem coreOf_setAgenda (s : State) (x : List Instr) (j : Nat) : coreOf (setAgenda s x) j = coreOf s j := rfl
@[simp] theorem coreOf_emit (s : State) (o : Out) (j : Nat) : coreOf (emit s o) j = coreOf s j := rfl
@[simp] theorem coreOf_setCg (s : State) (x : Group) (j : Nat) : coreOf (setCg s x) j = coreOf s j := rfl
@[simp] theorem coreOf_setCp (s : State) (x : Path) (j : Nat) : coreOf (setCp s x) j = coreOf s j := rfl
@[simp] theorem coreOf_setCb (s : State) (x : Block) (j : Nat) : coreOf (setCb s x) j = coreOf s j := rfl
@[simp] theorem ctxOf_setCtx (s : State) (k : Nat) (x : Ctx) : ctxOf (setCtx s k x) k = x := look_put_same _ _ _ _
theorem ctxOf_setCtx_other (s : State) {k j : Nat} (x : Ctx) (h : j ≠ k) : ctxOf (setCtx s k x) j = ctxOf s j := look_put_other _ _ _ h
@[simp] theorem ctxOf_setGrp (s : State) (g : Nat) (x : Group) (j : Nat) : ctxOf (setGrp s g x) j = ctxOf s j := rfl
@[simp] theorem ctxOf_setBlk (s : State) (b : Nat) (x : Block) (j : Nat) : ctxOf (setBlk s b x) j = ctxOf s j := rfl
@[simp] theorem ctxOf_setGang (s : State) (q : Nat) (x : Gang) (j : Nat) : ctxOf (setGang s q x) j = ctxOf s j := rfl
@[simp] theorem ctxOf_setKern (s : State) (k : Nat) (x : Kern) (j : Nat) : ctxOf (setKern s k x) j = ctxOf s j := rfl
@[simp] theorem ctxOf_setCore (s : State) (c : Nat) (x : Core) (j : Nat) : ctxOf (setCore s c x) j = ctxOf s j := rfl
@[simp] theorem ctxOf_setFn (s : State) (f : Nat) (x : Fn) (j : Nat) : ctxOf (setFn s f x) j = ctxOf s j := rfl
@[simp] theorem ctxOf_setSvc (s : State) (d : Nat) (x : Service) (j : Nat) : ctxOf (setSvc s d x) j = ctxOf s j := rfl
@[simp] theorem ctxOf_setFaults (s : State) (p : Nat) (x : FaultQueue) (j : Nat) : ctxOf (setFaults s p x) j = ctxOf s j := rfl
@[simp] theorem ctxOf_setOwn (s : State) (f : Nat) (x : Own) (j : Nat) : ctxOf (setOwn s f x) j = ctxOf s j := rfl
@[simp] theorem ctxOf_setHall (s : State) (x : Hall) (j : Nat) : ctxOf (setHall s x) j = ctxOf s j := rfl
@[simp] theorem ctxOf_setLinks (s : State) (x : Links) (j : Nat) : ctxOf (setLinks s x) j = ctxOf s j := rfl
@[simp] theorem ctxOf_setPkg (s : State) (x : Pkg) (j : Nat) : ctxOf (setPkg s x) j = ctxOf s j := rfl
@[simp] theorem ctxOf_setDev (s : State) (x : Memory) (j : Nat) : ctxOf (setDev s x) j = ctxOf s j := rfl
@[simp] theorem ctxOf_setHost (s : State) (x : Memory) (j : Nat) : ctxOf (setHost s x) j = ctxOf s j := rfl
@[simp] theorem ctxOf_setDie (s : State) (k : Nat) (x : Memory) (j : Nat) : ctxOf (setDie s k x) j = ctxOf s j := rfl
@[simp] theorem ctxOf_setPoison (s : State) (x : List (MemName × Nat)) (j : Nat) : ctxOf (setPoison s x) j = ctxOf s j := rfl
@[simp] theorem ctxOf_setTlb (s : State) (x : List TlbEntry) (j : Nat) : ctxOf (setTlb s x) j = ctxOf s j := rfl
@[simp] theorem ctxOf_setFresh (s : State) (n : Nat) (j : Nat) : ctxOf (setFresh s n) j = ctxOf s j := rfl
@[simp] theorem ctxOf_setAgenda (s : State) (x : List Instr) (j : Nat) : ctxOf (setAgenda s x) j = ctxOf s j := rfl
@[simp] theorem ctxOf_emit (s : State) (o : Out) (j : Nat) : ctxOf (emit s o) j = ctxOf s j := rfl
@[simp] theorem ctxOf_setCg (s : State) (x : Group) (j : Nat) : ctxOf (setCg s x) j = ctxOf s j := rfl
@[simp] theorem ctxOf_setCp (s : State) (x : Path) (j : Nat) : ctxOf (setCp s x) j = ctxOf s j := rfl
@[simp] theorem ctxOf_setCb (s : State) (x : Block) (j : Nat) : ctxOf (setCb s x) j = ctxOf s j := rfl
@[simp] theorem fnOf_setFn (s : State) (k : Nat) (x : Fn) : fnOf (setFn s k x) k = x := look_put_same _ _ _ _
theorem fnOf_setFn_other (s : State) {k j : Nat} (x : Fn) (h : j ≠ k) : fnOf (setFn s k x) j = fnOf s j := look_put_other _ _ _ h
@[simp] theorem fnOf_setGrp (s : State) (g : Nat) (x : Group) (j : Nat) : fnOf (setGrp s g x) j = fnOf s j := rfl
@[simp] theorem fnOf_setBlk (s : State) (b : Nat) (x : Block) (j : Nat) : fnOf (setBlk s b x) j = fnOf s j := rfl
@[simp] theorem fnOf_setGang (s : State) (q : Nat) (x : Gang) (j : Nat) : fnOf (setGang s q x) j = fnOf s j := rfl
@[simp] theorem fnOf_setKern (s : State) (k : Nat) (x : Kern) (j : Nat) : fnOf (setKern s k x) j = fnOf s j := rfl
@[simp] theorem fnOf_setCore (s : State) (c : Nat) (x : Core) (j : Nat) : fnOf (setCore s c x) j = fnOf s j := rfl
@[simp] theorem fnOf_setCtx (s : State) (c : Nat) (x : Ctx) (j : Nat) : fnOf (setCtx s c x) j = fnOf s j := rfl
@[simp] theorem fnOf_setSvc (s : State) (d : Nat) (x : Service) (j : Nat) : fnOf (setSvc s d x) j = fnOf s j := rfl
@[simp] theorem fnOf_setFaults (s : State) (p : Nat) (x : FaultQueue) (j : Nat) : fnOf (setFaults s p x) j = fnOf s j := rfl
@[simp] theorem fnOf_setOwn (s : State) (f : Nat) (x : Own) (j : Nat) : fnOf (setOwn s f x) j = fnOf s j := rfl
@[simp] theorem fnOf_setHall (s : State) (x : Hall) (j : Nat) : fnOf (setHall s x) j = fnOf s j := rfl
@[simp] theorem fnOf_setLinks (s : State) (x : Links) (j : Nat) : fnOf (setLinks s x) j = fnOf s j := rfl
@[simp] theorem fnOf_setPkg (s : State) (x : Pkg) (j : Nat) : fnOf (setPkg s x) j = fnOf s j := rfl
@[simp] theorem fnOf_setDev (s : State) (x : Memory) (j : Nat) : fnOf (setDev s x) j = fnOf s j := rfl
@[simp] theorem fnOf_setHost (s : State) (x : Memory) (j : Nat) : fnOf (setHost s x) j = fnOf s j := rfl
@[simp] theorem fnOf_setDie (s : State) (k : Nat) (x : Memory) (j : Nat) : fnOf (setDie s k x) j = fnOf s j := rfl
@[simp] theorem fnOf_setPoison (s : State) (x : List (MemName × Nat)) (j : Nat) : fnOf (setPoison s x) j = fnOf s j := rfl
@[simp] theorem fnOf_setTlb (s : State) (x : List TlbEntry) (j : Nat) : fnOf (setTlb s x) j = fnOf s j := rfl
@[simp] theorem fnOf_setFresh (s : State) (n : Nat) (j : Nat) : fnOf (setFresh s n) j = fnOf s j := rfl
@[simp] theorem fnOf_setAgenda (s : State) (x : List Instr) (j : Nat) : fnOf (setAgenda s x) j = fnOf s j := rfl
@[simp] theorem fnOf_emit (s : State) (o : Out) (j : Nat) : fnOf (emit s o) j = fnOf s j := rfl
@[simp] theorem fnOf_setCg (s : State) (x : Group) (j : Nat) : fnOf (setCg s x) j = fnOf s j := rfl
@[simp] theorem fnOf_setCp (s : State) (x : Path) (j : Nat) : fnOf (setCp s x) j = fnOf s j := rfl
@[simp] theorem fnOf_setCb (s : State) (x : Block) (j : Nat) : fnOf (setCb s x) j = fnOf s j := rfl
@[simp] theorem svcOf_setSvc (s : State) (k : Nat) (x : Service) : svcOf (setSvc s k x) k = x := look_put_same _ _ _ _
theorem svcOf_setSvc_other (s : State) {k j : Nat} (x : Service) (h : j ≠ k) : svcOf (setSvc s k x) j = svcOf s j := look_put_other _ _ _ h
@[simp] theorem svcOf_setGrp (s : State) (g : Nat) (x : Group) (j : Nat) : svcOf (setGrp s g x) j = svcOf s j := rfl
@[simp] theorem svcOf_setBlk (s : State) (b : Nat) (x : Block) (j : Nat) : svcOf (setBlk s b x) j = svcOf s j := rfl
@[simp] theorem svcOf_setGang (s : State) (q : Nat) (x : Gang) (j : Nat) : svcOf (setGang s q x) j = svcOf s j := rfl
@[simp] theorem svcOf_setKern (s : State) (k : Nat) (x : Kern) (j : Nat) : svcOf (setKern s k x) j = svcOf s j := rfl
@[simp] theorem svcOf_setCore (s : State) (c : Nat) (x : Core) (j : Nat) : svcOf (setCore s c x) j = svcOf s j := rfl
@[simp] theorem svcOf_setCtx (s : State) (c : Nat) (x : Ctx) (j : Nat) : svcOf (setCtx s c x) j = svcOf s j := rfl
@[simp] theorem svcOf_setFn (s : State) (f : Nat) (x : Fn) (j : Nat) : svcOf (setFn s f x) j = svcOf s j := rfl
@[simp] theorem svcOf_setFaults (s : State) (p : Nat) (x : FaultQueue) (j : Nat) : svcOf (setFaults s p x) j = svcOf s j := rfl
@[simp] theorem svcOf_setOwn (s : State) (f : Nat) (x : Own) (j : Nat) : svcOf (setOwn s f x) j = svcOf s j := rfl
@[simp] theorem svcOf_setHall (s : State) (x : Hall) (j : Nat) : svcOf (setHall s x) j = svcOf s j := rfl
@[simp] theorem svcOf_setLinks (s : State) (x : Links) (j : Nat) : svcOf (setLinks s x) j = svcOf s j := rfl
@[simp] theorem svcOf_setPkg (s : State) (x : Pkg) (j : Nat) : svcOf (setPkg s x) j = svcOf s j := rfl
@[simp] theorem svcOf_setDev (s : State) (x : Memory) (j : Nat) : svcOf (setDev s x) j = svcOf s j := rfl
@[simp] theorem svcOf_setHost (s : State) (x : Memory) (j : Nat) : svcOf (setHost s x) j = svcOf s j := rfl
@[simp] theorem svcOf_setDie (s : State) (k : Nat) (x : Memory) (j : Nat) : svcOf (setDie s k x) j = svcOf s j := rfl
@[simp] theorem svcOf_setPoison (s : State) (x : List (MemName × Nat)) (j : Nat) : svcOf (setPoison s x) j = svcOf s j := rfl
@[simp] theorem svcOf_setTlb (s : State) (x : List TlbEntry) (j : Nat) : svcOf (setTlb s x) j = svcOf s j := rfl
@[simp] theorem svcOf_setFresh (s : State) (n : Nat) (j : Nat) : svcOf (setFresh s n) j = svcOf s j := rfl
@[simp] theorem svcOf_setAgenda (s : State) (x : List Instr) (j : Nat) : svcOf (setAgenda s x) j = svcOf s j := rfl
@[simp] theorem svcOf_emit (s : State) (o : Out) (j : Nat) : svcOf (emit s o) j = svcOf s j := rfl
@[simp] theorem svcOf_setCg (s : State) (x : Group) (j : Nat) : svcOf (setCg s x) j = svcOf s j := rfl
@[simp] theorem svcOf_setCp (s : State) (x : Path) (j : Nat) : svcOf (setCp s x) j = svcOf s j := rfl
@[simp] theorem svcOf_setCb (s : State) (x : Block) (j : Nat) : svcOf (setCb s x) j = svcOf s j := rfl
@[simp] theorem faultsOf_setFaults (s : State) (k : Nat) (x : FaultQueue) : faultsOf (setFaults s k x) k = x := look_put_same _ _ _ _
theorem faultsOf_setFaults_other (s : State) {k j : Nat} (x : FaultQueue) (h : j ≠ k) : faultsOf (setFaults s k x) j = faultsOf s j := look_put_other _ _ _ h
@[simp] theorem faultsOf_setGrp (s : State) (g : Nat) (x : Group) (j : Nat) : faultsOf (setGrp s g x) j = faultsOf s j := rfl
@[simp] theorem faultsOf_setBlk (s : State) (b : Nat) (x : Block) (j : Nat) : faultsOf (setBlk s b x) j = faultsOf s j := rfl
@[simp] theorem faultsOf_setGang (s : State) (q : Nat) (x : Gang) (j : Nat) : faultsOf (setGang s q x) j = faultsOf s j := rfl
@[simp] theorem faultsOf_setKern (s : State) (k : Nat) (x : Kern) (j : Nat) : faultsOf (setKern s k x) j = faultsOf s j := rfl
@[simp] theorem faultsOf_setCore (s : State) (c : Nat) (x : Core) (j : Nat) : faultsOf (setCore s c x) j = faultsOf s j := rfl
@[simp] theorem faultsOf_setCtx (s : State) (c : Nat) (x : Ctx) (j : Nat) : faultsOf (setCtx s c x) j = faultsOf s j := rfl
@[simp] theorem faultsOf_setFn (s : State) (f : Nat) (x : Fn) (j : Nat) : faultsOf (setFn s f x) j = faultsOf s j := rfl
@[simp] theorem faultsOf_setSvc (s : State) (d : Nat) (x : Service) (j : Nat) : faultsOf (setSvc s d x) j = faultsOf s j := rfl
@[simp] theorem faultsOf_setOwn (s : State) (f : Nat) (x : Own) (j : Nat) : faultsOf (setOwn s f x) j = faultsOf s j := rfl
@[simp] theorem faultsOf_setHall (s : State) (x : Hall) (j : Nat) : faultsOf (setHall s x) j = faultsOf s j := rfl
@[simp] theorem faultsOf_setLinks (s : State) (x : Links) (j : Nat) : faultsOf (setLinks s x) j = faultsOf s j := rfl
@[simp] theorem faultsOf_setPkg (s : State) (x : Pkg) (j : Nat) : faultsOf (setPkg s x) j = faultsOf s j := rfl
@[simp] theorem faultsOf_setDev (s : State) (x : Memory) (j : Nat) : faultsOf (setDev s x) j = faultsOf s j := rfl
@[simp] theorem faultsOf_setHost (s : State) (x : Memory) (j : Nat) : faultsOf (setHost s x) j = faultsOf s j := rfl
@[simp] theorem faultsOf_setDie (s : State) (k : Nat) (x : Memory) (j : Nat) : faultsOf (setDie s k x) j = faultsOf s j := rfl
@[simp] theorem faultsOf_setPoison (s : State) (x : List (MemName × Nat)) (j : Nat) : faultsOf (setPoison s x) j = faultsOf s j := rfl
@[simp] theorem faultsOf_setTlb (s : State) (x : List TlbEntry) (j : Nat) : faultsOf (setTlb s x) j = faultsOf s j := rfl
@[simp] theorem faultsOf_setFresh (s : State) (n : Nat) (j : Nat) : faultsOf (setFresh s n) j = faultsOf s j := rfl
@[simp] theorem faultsOf_setAgenda (s : State) (x : List Instr) (j : Nat) : faultsOf (setAgenda s x) j = faultsOf s j := rfl
@[simp] theorem faultsOf_emit (s : State) (o : Out) (j : Nat) : faultsOf (emit s o) j = faultsOf s j := rfl
@[simp] theorem faultsOf_setCg (s : State) (x : Group) (j : Nat) : faultsOf (setCg s x) j = faultsOf s j := rfl
@[simp] theorem faultsOf_setCp (s : State) (x : Path) (j : Nat) : faultsOf (setCp s x) j = faultsOf s j := rfl
@[simp] theorem faultsOf_setCb (s : State) (x : Block) (j : Nat) : faultsOf (setCb s x) j = faultsOf s j := rfl
@[simp] theorem ownOf_setOwn (s : State) (k : Nat) (x : Own) : ownOf (setOwn s k x) k = x := look_put_same _ _ _ _
theorem ownOf_setOwn_other (s : State) {k j : Nat} (x : Own) (h : j ≠ k) : ownOf (setOwn s k x) j = ownOf s j := look_put_other _ _ _ h
@[simp] theorem ownOf_setGrp (s : State) (g : Nat) (x : Group) (j : Nat) : ownOf (setGrp s g x) j = ownOf s j := rfl
@[simp] theorem ownOf_setBlk (s : State) (b : Nat) (x : Block) (j : Nat) : ownOf (setBlk s b x) j = ownOf s j := rfl
@[simp] theorem ownOf_setGang (s : State) (q : Nat) (x : Gang) (j : Nat) : ownOf (setGang s q x) j = ownOf s j := rfl
@[simp] theorem ownOf_setKern (s : State) (k : Nat) (x : Kern) (j : Nat) : ownOf (setKern s k x) j = ownOf s j := rfl
@[simp] theorem ownOf_setCore (s : State) (c : Nat) (x : Core) (j : Nat) : ownOf (setCore s c x) j = ownOf s j := rfl
@[simp] theorem ownOf_setCtx (s : State) (c : Nat) (x : Ctx) (j : Nat) : ownOf (setCtx s c x) j = ownOf s j := rfl
@[simp] theorem ownOf_setFn (s : State) (f : Nat) (x : Fn) (j : Nat) : ownOf (setFn s f x) j = ownOf s j := rfl
@[simp] theorem ownOf_setSvc (s : State) (d : Nat) (x : Service) (j : Nat) : ownOf (setSvc s d x) j = ownOf s j := rfl
@[simp] theorem ownOf_setFaults (s : State) (p : Nat) (x : FaultQueue) (j : Nat) : ownOf (setFaults s p x) j = ownOf s j := rfl
@[simp] theorem ownOf_setHall (s : State) (x : Hall) (j : Nat) : ownOf (setHall s x) j = ownOf s j := rfl
@[simp] theorem ownOf_setLinks (s : State) (x : Links) (j : Nat) : ownOf (setLinks s x) j = ownOf s j := rfl
@[simp] theorem ownOf_setPkg (s : State) (x : Pkg) (j : Nat) : ownOf (setPkg s x) j = ownOf s j := rfl
@[simp] theorem ownOf_setDev (s : State) (x : Memory) (j : Nat) : ownOf (setDev s x) j = ownOf s j := rfl
@[simp] theorem ownOf_setHost (s : State) (x : Memory) (j : Nat) : ownOf (setHost s x) j = ownOf s j := rfl
@[simp] theorem ownOf_setDie (s : State) (k : Nat) (x : Memory) (j : Nat) : ownOf (setDie s k x) j = ownOf s j := rfl
@[simp] theorem ownOf_setPoison (s : State) (x : List (MemName × Nat)) (j : Nat) : ownOf (setPoison s x) j = ownOf s j := rfl
@[simp] theorem ownOf_setTlb (s : State) (x : List TlbEntry) (j : Nat) : ownOf (setTlb s x) j = ownOf s j := rfl
@[simp] theorem ownOf_setFresh (s : State) (n : Nat) (j : Nat) : ownOf (setFresh s n) j = ownOf s j := rfl
@[simp] theorem ownOf_setAgenda (s : State) (x : List Instr) (j : Nat) : ownOf (setAgenda s x) j = ownOf s j := rfl
@[simp] theorem ownOf_emit (s : State) (o : Out) (j : Nat) : ownOf (emit s o) j = ownOf s j := rfl
@[simp] theorem ownOf_setCg (s : State) (x : Group) (j : Nat) : ownOf (setCg s x) j = ownOf s j := rfl
@[simp] theorem ownOf_setCp (s : State) (x : Path) (j : Nat) : ownOf (setCp s x) j = ownOf s j := rfl
@[simp] theorem ownOf_setCb (s : State) (x : Block) (j : Nat) : ownOf (setCb s x) j = ownOf s j := rfl

/-! ### The current group, its path, its block -/

@[simp] theorem cg_setCg (s : State) (x : Group) : cg (setCg s x) = x := look_put_same _ _ _ _
@[simp] theorem setCg_setCg (s : State) (x y : Group) : setCg (setCg s x) y = setCg s y := by
  simp [setCg, setGrp]
@[simp] theorem grpOf_setCg_other (s : State) {j : Nat} (x : Group) (h : j ≠ s.cur) : grpOf (setCg s x) j = grpOf s j :=
  look_put_other _ _ _ h
@[simp] theorem pathOf_setPath (g : Group) (p : Path) : pathOf (setPath g p) = p := by
  by_cases h : (g.two && g.onB) = true
  · rw [setPath, if_pos h]; exact if_pos h
  · rw [setPath, if_neg h]; exact if_neg h
@[simp] theorem cp_setCp (s : State) (p : Path) : cp (setCp s p) = p := by simp [cp, setCp]
@[simp] theorem cg_setCp (s : State) (p : Path) : cg (setCp s p) = setPath (cg s) p := by simp [setCp]
theorem setPath_b {g : Group} (p : Path) (h : (g.two && g.onB) = true) : setPath g p = { g with pathB := p } := if_pos h
theorem setPath_a {g : Group} (p : Path) (h : ¬ (g.two && g.onB) = true) : setPath g p = { g with pathA := p } := if_neg h
@[simp] theorem setPath_setPath (g : Group) (p q : Path) : setPath (setPath g p) q = setPath g q := by
  by_cases h : (g.two && g.onB) = true
  · rw [setPath_b p h, setPath_b q h, setPath_b (g := { g with pathB := p }) q h]
  · rw [setPath_a p h, setPath_a q h, setPath_a (g := { g with pathA := p }) q h]

@[simp] theorem setPath_blk (g : Group) (p : Path) : (setPath g p).blk = g.blk := by unfold setPath; split <;> rfl
@[simp] theorem setPath_index (g : Group) (p : Path) : (setPath g p).index = g.index := by unfold setPath; split <;> rfl
@[simp] theorem setPath_role (g : Group) (p : Path) : (setPath g p).role = g.role := by unfold setPath; split <;> rfl
@[simp] theorem setPath_width (g : Group) (p : Path) : (setPath g p).width = g.width := by unfold setPath; split <;> rfl
@[simp] theorem setPath_allot (g : Group) (p : Path) : (setPath g p).allot = g.allot := by unfold setPath; split <;> rfl
@[simp] theorem setPath_core (g : Group) (p : Path) : (setPath g p).core = g.core := by unfold setPath; split <;> rfl
@[simp] theorem setPath_half (g : Group) (p : Path) : (setPath g p).half = g.half := by unfold setPath; split <;> rfl
@[simp] theorem setPath_slot (g : Group) (p : Path) : (setPath g p).slot = g.slot := by unfold setPath; split <;> rfl
@[simp] theorem setPath_entry (g : Group) (p : Path) : (setPath g p).entry = g.entry := by unfold setPath; split <;> rfl
@[simp] theorem setPath_state (g : Group) (p : Path) : (setPath g p).state = g.state := by unfold setPath; split <;> rfl
@[simp] theorem setPath_two (g : Group) (p : Path) : (setPath g p).two = g.two := by unfold setPath; split <;> rfl
@[simp] theorem setPath_lastB (g : Group) (p : Path) : (setPath g p).lastB = g.lastB := by unfold setPath; split <;> rfl
@[simp] theorem setPath_onB (g : Group) (p : Path) : (setPath g p).onB = g.onB := by unfold setPath; split <;> rfl
@[simp] theorem setPath_pairM (g : Group) (p : Path) : (setPath g p).pairM = g.pairM := by unfold setPath; split <;> rfl
@[simp] theorem setPath_pairS (g : Group) (p : Path) : (setPath g p).pairS = g.pairS := by unfold setPath; split <;> rfl
@[simp] theorem setPath_live (g : Group) (p : Path) : (setPath g p).live = g.live := by unfold setPath; split <;> rfl
@[simp] theorem setPath_v (g : Group) (p : Path) : (setPath g p).v = g.v := by unfold setPath; split <;> rfl
@[simp] theorem setPath_s (g : Group) (p : Path) : (setPath g p).s = g.s := by unfold setPath; split <;> rfl
@[simp] theorem setPath_p (g : Group) (p : Path) : (setPath g p).p = g.p := by unfold setPath; split <;> rfl
@[simp] theorem setPath_x (g : Group) (p : Path) : (setPath g p).x = g.x := by unfold setPath; split <;> rfl
@[simp] theorem setPath_g (g : Group) (p : Path) : (setPath g p).g = g.g := by unfold setPath; split <;> rfl
@[simp] theorem setPath_pend (g : Group) (p : Path) : (setPath g p).pend = g.pend := by unfold setPath; split <;> rfl
@[simp] theorem setPath_early (g : Group) (p : Path) : (setPath g p).early = g.early := by unfold setPath; split <;> rfl
@[simp] theorem setPath_sup (g : Group) (p : Path) : (setPath g p).sup = g.sup := by unfold setPath; split <;> rfl
@[simp] theorem setPath_trap (g : Group) (p : Path) : (setPath g p).trap = g.trap := by unfold setPath; split <;> rfl
@[simp] theorem setPath_region (g : Group) (p : Path) : (setPath g p).region = g.region := by unfold setPath; split <;> rfl
@[simp] theorem setPath_batch (g : Group) (p : Path) : (setPath g p).batch = g.batch := by unfold setPath; split <;> rfl
@[simp] theorem setPath_ack (g : Group) (p : Path) : (setPath g p).ack = g.ack := by unfold setPath; split <;> rfl
@[simp] theorem setPath_item (g : Group) (p : Path) : (setPath g p).item = g.item := by unfold setPath; split <;> rfl
@[simp] theorem setPath_cychi (g : Group) (p : Path) : (setPath g p).cychi = g.cychi := by unfold setPath; split <;> rfl
@[simp] theorem setPath_bargs (g : Group) (p : Path) : (setPath g p).bargs = g.bargs := by unfold setPath; split <;> rfl
@[simp] theorem setPath_owed (g : Group) (p : Path) : (setPath g p).owed = g.owed := by unfold setPath; split <;> rfl
@[simp] theorem setPath_spill (g : Group) (p : Path) : (setPath g p).spill = g.spill := by unfold setPath; split <;> rfl
@[simp] theorem setPath_stores (g : Group) (p : Path) : (setPath g p).stores = g.stores := by unfold setPath; split <;> rfl
@[simp] theorem setPath_born (g : Group) (p : Path) : (setPath g p).born = g.born := by unfold setPath; split <;> rfl
@[simp] theorem setPath_view (g : Group) (p : Path) : (setPath g p).view = g.view := by unfold setPath; split <;> rfl
@[simp] theorem setPath_port (g : Group) (p : Path) : (setPath g p).port = g.port := by unfold setPath; split <;> rfl
@[simp] theorem setPath_heard (g : Group) (p : Path) : (setPath g p).heard = g.heard := by unfold setPath; split <;> rfl
@[simp] theorem setPath_heardTop (g : Group) (p : Path) : (setPath g p).heardTop = g.heardTop := by unfold setPath; split <;> rfl
@[simp] theorem setPath_heardDone (g : Group) (p : Path) : (setPath g p).heardDone = g.heardDone := by unfold setPath; split <;> rfl
@[simp] theorem setPath_olds (g : Group) (p : Path) : (setPath g p).olds = g.olds := by unfold setPath; split <;> rfl
@[simp] theorem setPath_answered (g : Group) (p : Path) : (setPath g p).answered = g.answered := by unfold setPath; split <;> rfl
@[simp] theorem cg_setBlk (s : State) (b : Nat) (x : Block) : cg (setBlk s b x) = cg s := rfl
@[simp] theorem cp_setBlk (s : State) (b : Nat) (x : Block) : cp (setBlk s b x) = cp s := rfl
@[simp] theorem emask_setBlk (s : State) (b : Nat) (x : Block) : emask (setBlk s b x) = emask s := rfl
@[simp] theorem cg_setGang (s : State) (q : Nat) (x : Gang) : cg (setGang s q x) = cg s := rfl
@[simp] theorem cp_setGang (s : State) (q : Nat) (x : Gang) : cp (setGang s q x) = cp s := rfl
@[simp] theorem emask_setGang (s : State) (q : Nat) (x : Gang) : emask (setGang s q x) = emask s := rfl
@[simp] theorem cg_setKern (s : State) (k : Nat) (x : Kern) : cg (setKern s k x) = cg s := rfl
@[simp] theorem cp_setKern (s : State) (k : Nat) (x : Kern) : cp (setKern s k x) = cp s := rfl
@[simp] theorem emask_setKern (s : State) (k : Nat) (x : Kern) : emask (setKern s k x) = emask s := rfl
@[simp] theorem cg_setCore (s : State) (c : Nat) (x : Core) : cg (setCore s c x) = cg s := rfl
@[simp] theorem cp_setCore (s : State) (c : Nat) (x : Core) : cp (setCore s c x) = cp s := rfl
@[simp] theorem emask_setCore (s : State) (c : Nat) (x : Core) : emask (setCore s c x) = emask s := rfl
@[simp] theorem cg_setCtx (s : State) (c : Nat) (x : Ctx) : cg (setCtx s c x) = cg s := rfl
@[simp] theorem cp_setCtx (s : State) (c : Nat) (x : Ctx) : cp (setCtx s c x) = cp s := rfl
@[simp] theorem emask_setCtx (s : State) (c : Nat) (x : Ctx) : emask (setCtx s c x) = emask s := rfl
@[simp] theorem cg_setFn (s : State) (f : Nat) (x : Fn) : cg (setFn s f x) = cg s := rfl
@[simp] theorem cp_setFn (s : State) (f : Nat) (x : Fn) : cp (setFn s f x) = cp s := rfl
@[simp] theorem emask_setFn (s : State) (f : Nat) (x : Fn) : emask (setFn s f x) = emask s := rfl
@[simp] theorem cg_setSvc (s : State) (d : Nat) (x : Service) : cg (setSvc s d x) = cg s := rfl
@[simp] theorem cp_setSvc (s : State) (d : Nat) (x : Service) : cp (setSvc s d x) = cp s := rfl
@[simp] theorem emask_setSvc (s : State) (d : Nat) (x : Service) : emask (setSvc s d x) = emask s := rfl
@[simp] theorem cg_setFaults (s : State) (p : Nat) (x : FaultQueue) : cg (setFaults s p x) = cg s := rfl
@[simp] theorem cp_setFaults (s : State) (p : Nat) (x : FaultQueue) : cp (setFaults s p x) = cp s := rfl
@[simp] theorem emask_setFaults (s : State) (p : Nat) (x : FaultQueue) : emask (setFaults s p x) = emask s := rfl
@[simp] theorem cg_setOwn (s : State) (f : Nat) (x : Own) : cg (setOwn s f x) = cg s := rfl
@[simp] theorem cp_setOwn (s : State) (f : Nat) (x : Own) : cp (setOwn s f x) = cp s := rfl
@[simp] theorem emask_setOwn (s : State) (f : Nat) (x : Own) : emask (setOwn s f x) = emask s := rfl
@[simp] theorem cg_setHall (s : State) (x : Hall) : cg (setHall s x) = cg s := rfl
@[simp] theorem cp_setHall (s : State) (x : Hall) : cp (setHall s x) = cp s := rfl
@[simp] theorem emask_setHall (s : State) (x : Hall) : emask (setHall s x) = emask s := rfl
@[simp] theorem cg_setLinks (s : State) (x : Links) : cg (setLinks s x) = cg s := rfl
@[simp] theorem cp_setLinks (s : State) (x : Links) : cp (setLinks s x) = cp s := rfl
@[simp] theorem emask_setLinks (s : State) (x : Links) : emask (setLinks s x) = emask s := rfl
@[simp] theorem cg_setPkg (s : State) (x : Pkg) : cg (setPkg s x) = cg s := rfl
@[simp] theorem cp_setPkg (s : State) (x : Pkg) : cp (setPkg s x) = cp s := rfl
@[simp] theorem emask_setPkg (s : State) (x : Pkg) : emask (setPkg s x) = emask s := rfl
@[simp] theorem cg_setDev (s : State) (x : Memory) : cg (setDev s x) = cg s := rfl
@[simp] theorem cp_setDev (s : State) (x : Memory) : cp (setDev s x) = cp s := rfl
@[simp] theorem emask_setDev (s : State) (x : Memory) : emask (setDev s x) = emask s := rfl
@[simp] theorem cg_setHost (s : State) (x : Memory) : cg (setHost s x) = cg s := rfl
@[simp] theorem cp_setHost (s : State) (x : Memory) : cp (setHost s x) = cp s := rfl
@[simp] theorem emask_setHost (s : State) (x : Memory) : emask (setHost s x) = emask s := rfl
@[simp] theorem cg_setDie (s : State) (k : Nat) (x : Memory) : cg (setDie s k x) = cg s := rfl
@[simp] theorem cp_setDie (s : State) (k : Nat) (x : Memory) : cp (setDie s k x) = cp s := rfl
@[simp] theorem emask_setDie (s : State) (k : Nat) (x : Memory) : emask (setDie s k x) = emask s := rfl
@[simp] theorem cg_setPoison (s : State) (x : List (MemName × Nat)) : cg (setPoison s x) = cg s := rfl
@[simp] theorem cp_setPoison (s : State) (x : List (MemName × Nat)) : cp (setPoison s x) = cp s := rfl
@[simp] theorem emask_setPoison (s : State) (x : List (MemName × Nat)) : emask (setPoison s x) = emask s := rfl
@[simp] theorem cg_setTlb (s : State) (x : List TlbEntry) : cg (setTlb s x) = cg s := rfl
@[simp] theorem cp_setTlb (s : State) (x : List TlbEntry) : cp (setTlb s x) = cp s := rfl
@[simp] theorem emask_setTlb (s : State) (x : List TlbEntry) : emask (setTlb s x) = emask s := rfl
@[simp] theorem cg_setFresh (s : State) (n : Nat) : cg (setFresh s n) = cg s := rfl
@[simp] theorem cp_setFresh (s : State) (n : Nat) : cp (setFresh s n) = cp s := rfl
@[simp] theorem emask_setFresh (s : State) (n : Nat) : emask (setFresh s n) = emask s := rfl
@[simp] theorem cg_setAgenda (s : State) (x : List Instr) : cg (setAgenda s x) = cg s := rfl
@[simp] theorem cp_setAgenda (s : State) (x : List Instr) : cp (setAgenda s x) = cp s := rfl
@[simp] theorem emask_setAgenda (s : State) (x : List Instr) : emask (setAgenda s x) = emask s := rfl
@[simp] theorem cg_emit (s : State) (o : Out) : cg (emit s o) = cg s := rfl
@[simp] theorem cp_emit (s : State) (o : Out) : cp (emit s o) = cp s := rfl
@[simp] theorem emask_emit (s : State) (o : Out) : emask (emit s o) = emask s := rfl
@[simp] theorem cg_setCb (s : State) (x : Block) : cg (setCb s x) = cg s := rfl
@[simp] theorem cp_setCb (s : State) (x : Block) : cp (setCb s x) = cp s := rfl
@[simp] theorem emask_setCb (s : State) (x : Block) : emask (setCb s x) = emask s := rfl

end Sys2Proof.Machine
end

