-- ==== Sys2Proof/Laws/Issue.lean ====
section
/-!
SUPPORT. Laws/Issue.lean: what issue comes to where a word may issue: the state its own effect starts from, and what completing
it adds.
-/
namespace Sys2Proof.Machine
set_option Elab.async false

theorem issueTrap_none {i : Info} {s : State} (h : MayIssue i s) : issueTrap i s = none := by
  have hb : (i.reads ++ i.writes).any (fun u => overAllot (cg s) u.1) = false := by
    rw [List.any_eq_false]; intro u hu; simp [h.allotted u hu]
  have hl : lateUses s (cg s) (emask s) (i.reads ++ i.writes) = [] := by
    have h1 := h.readsOnTime
    have h2 := h.writesOnTime
    simp only [lateUses, List.map_append, List.filter_append, List.append_eq_nil_iff]
    exact ⟨h1, h2⟩
  have hv := h.version
  have hp : (i.priv && !superOf s) = false := by
    cases hq : i.priv <;> simp [h.privileged, hq]
  have hs : (!i.valid || (i.kslot && (ck s).hdr.version == 1)) = false := by
    cases hq : i.kslot <;> simp [h.defined, h.slots, hq]
  unfold issueTrap
  simp only [Nat.not_lt.mpr hv, if_false, hs, hp, hb, hl, Bool.false_eq_true, List.isEmpty_nil, Bool.not_true, Bool.and_false]
  split <;> rfl
theorem region_free {i : Info} {s : State} (h : MayIssue i s) : (i.noRegion && (cg s).region.isSome) = false := by
  cases hq : i.noRegion <;> simp [h.region, hq]
/-- Issue of a word that may issue is its own effect, then completion. -/
theorem issue_eq {i : Info} {s : State} (h : MayIssue i s) (act : State → Act) :
    issue i s act = match act (entered i s) with
      | .done e => .next (settled i s e)
      | .trap t => .next (takeTrap s s.cur t)
      | .trapIn s2 t => .next (takeTrap (setCg s2 { setPath (cg s2) { pathOf (cg s2) with pc := (cp s).pc } with early := [] }) s.cur t)
      | .wait e w => .next (waitingAt s e w) := by
  have hr := region_free h
  have he : setCg s { cg s with early := lateUses s (cg s) (emask s) i.reads } = setCg s { cg s with early := [] } := by
    rw [h.readsOnTime]
  unfold issue
  rw [issueTrap_none h]
  simp only [hr, Bool.false_and, Bool.false_eq_true, if_false, he, entered, settled, waitingAt, cp] <;> rfl
theorem issue_done {i : Info} {s e : State} {act : State → Act} (h : MayIssue i s) (ha : act (entered i s) = .done e) :
    issue i s act = .next (settled i s e) := by rw [issue_eq h, ha]
theorem issue_trap {i : Info} {s : State} {t : TrapReq} {act : State → Act} (h : MayIssue i s)
    (ha : act (entered i s) = .trap t) : issue i s act = .next (takeTrap s s.cur t) := by rw [issue_eq h, ha]
theorem issue_wait {i : Info} {s e : State} {w : Wait} {act : State → Act} (h : MayIssue i s)
    (ha : act (entered i s) = .wait e w) : issue i s act = .next (waitingAt s e w) := by rw [issue_eq h, ha]

/-! ### The state an effect starts from -/

theorem entered_eq (i : Info) (s : State) :
    entered i s = setCg s (setPath { cg s with early := [] } { cp s with pc := (cp s).pc + 4, stall := i.stall }) := by
  have h : cp (setCg s { cg s with early := [] }) = cp s := by rw [cp, cg_setCg]; rfl
  rw [entered, advance, h, setCp, cg_setCg]; exact setCg_setCg _ _ _
theorem cg_entered (i : Info) (s : State) :
    cg (entered i s) = setPath { cg s with early := [] } { cp s with pc := (cp s).pc + 4, stall := i.stall } := by
  rw [entered_eq, cg_setCg]
theorem cp_entered (i : Info) (s : State) :
    cp (entered i s) = { cp s with pc := (cp s).pc + 4, stall := i.stall } := by rw [cp, cg_entered, pathOf_setPath]
@[simp] theorem emask_entered (i : Info) (s : State) : emask (entered i s) = emask s := by
  rw [emask, cp_entered, cg_entered, setPath_width]; rfl
@[simp] theorem width_entered (i : Info) (s : State) : (cg (entered i s)).width = (cg s).width := by simp [cg_entered]
@[simp] theorem cur_entered (i : Info) (s : State) : (entered i s).cur = s.cur := by rw [entered_eq]; rfl
@[simp] theorem fresh_entered (i : Info) (s : State) : (entered i s).fresh = s.fresh := by rw [entered_eq]; rfl
@[simp] theorem blkOf_entered (i : Info) (s : State) (b : Nat) : blkOf (entered i s) b = blkOf s b := by rw [entered_eq]; rfl
@[simp] theorem kernOf_entered (i : Info) (s : State) (b : Nat) : kernOf (entered i s) b = kernOf s b := by rw [entered_eq]; rfl
@[simp] theorem cb_entered (i : Info) (s : State) : cb (entered i s) = cb s := by simp [cb, cg_entered]
@[simp] theorem kernFor_entered (i : Info) (s : State) (b : Block) : kernFor (entered i s) b = kernFor s b := by rw [entered_eq]; rfl
@[simp] theorem ck_entered (i : Info) (s : State) : ck (entered i s) = ck s := by simp [ck]
@[simp] theorem early_entered (i : Info) (s : State) (r : Reg) (t : Nat) : isEarly (cg (entered i s)) r t = false := by
  simp [isEarly, cg_entered]
@[simp] theorem rv_entered (i : Info) (s : State) (r t : Nat) : rv (entered i s) r t = laneReg s r t := by
  simp [rv, laneReg, cg_entered, isEarly]
@[simp] theorem rs_entered (i : Info) (s : State) (n : Nat) : rs (entered i s) n = uniReg s n := by
  simp [rs, uniReg, cg_entered, isEarly]
@[simp] theorem rx_entered (i : Info) (s : State) (n : Nat) : rx (entered i s) n = xlatReg s n := by
  simp [rx, xlatReg, cg_entered, isEarly]
@[simp] theorem rg_entered (i : Info) (s : State) (n : Nat) : rg (entered i s) n = genReg s n := by
  simp [rg, genReg, cg_entered, isEarly]
@[simp] theorem rb_entered (i : Info) (s : State) (b : BitVec 7) (c : BitVec 1) (t : Nat) :
    rb (entered i s) b c t = operandB s b c t := by simp [rb, operandB]
@[simp] theorem rs64_entered (i : Info) (s : State) (n : Nat) : rs64 (entered i s) n = uniPair s n := by
  simp [rs64, uniPair, cat64]

/-! ### What completing adds -/

/-- The group of a completed word (R37, R150), where no write was early. -/
def noted (i : Info) (s : State) (g : Group) : Group :=
  let passes := if i.lane then (cg s).width / 32 else 1
  let ready := slotCycle s (cg s) + passes - 1 + i.latency
  let news := (i.writes.map fun u => Pending.mk u.1 (useMask (cg s) (emask s) u.1 u.2) ready).filter fun p => p.threads != 0
  { g with pend := (g.pend.filter fun p => decide (slotCycle s (cg s) < p.ready)) ++ (if i.latency = 0 then [] else news)
           early := []
           region := g.region.map fun r => { r with
      written := (r.written ++ (i.writes.filter fun u => useMask (cg s) (emask s) u.1 u.2 != 0).map Prod.fst).eraseDups }
           loads := g.loads.filter fun l => l.since == s.time || !(i.writes.any fun u => u.1 == l.reg) }
/-- Its wait is over (R38). -/
def waitOver (g : Group) : Group := setPath g { pathOf g with wait := none }
def woken (g : Group) : Group := if g.state == .waiting && !anyWait g then { g with state := .runnable } else g
theorem setCg_twice (e : State) (g g' : Group) (n : Nat) :
    setCg (setFresh (setCg e g) n) g' = setFresh (setCg e g') n := by
  show setFresh (setCg (setCg e g) g') n = _
  rw [setCg_setCg]
theorem settled_eq {i : Info} {s : State} (h : MayIssue i s) (e : State) :
    settled i s e = setFresh (setCg e (woken (waitOver (noted i s (cg e))))) (e.fresh + 2) := by
  unfold settled complete endWait
  simp only [h.writesOnTime, cg_setFresh, cg_setCg]
  exact setCg_twice _ _ _ _
theorem waitOver_b {g : Group} (h : (g.two && g.onB) = true) : waitOver g = { g with pathB := { g.pathB with wait := none } } := by
  rw [waitOver, setPath_b _ h, pathOf, if_pos h]
theorem waitOver_a {g : Group} (h : ¬ (g.two && g.onB) = true) : waitOver g = { g with pathA := { g.pathA with wait := none } } := by
  rw [waitOver, setPath_a _ h, pathOf, if_neg h]
/-- Waking changes no more than the state of the group. -/
theorem woken_cases (g : Group) : woken g = g ∨ woken g = { g with state := .runnable } := by
  unfold woken; split
  · exact .inr rfl
  · exact .inl rfl
/-- What completing changes of a group: the issuing path's wait, the pending writes, the region's note, and waking. -/
theorem settled_path (i : Info) (s : State) (g : Group) :
    pathOf (woken (waitOver (noted i s g))) = { pathOf g with wait := none } := by
  have h : pathOf (waitOver (noted i s g)) = { pathOf g with wait := none } := pathOf_setPath _ _
  rcases woken_cases (waitOver (noted i s g)) with e | e <;> rw [e]
  · exact h
  · exact h
theorem settled_resting (i : Info) (s : State) (g : Group) :
    restingPath (woken (waitOver (noted i s g))) = restingPath g := by
  have h : restingPath (waitOver (noted i s g)) = restingPath g := by
    by_cases hb : (g.two && g.onB) = true
    · rw [waitOver_b (g := noted i s g) hb]; simp only [restingPath, noted, hb]; rfl
    · rw [waitOver_a (g := noted i s g) hb]; simp only [restingPath, noted, hb]; rfl
  rcases woken_cases (waitOver (noted i s g)) with e | e <;> rw [e]
  · exact h
  · exact h
theorem settled_rest (i : Info) (s : State) (g : Group) :
    { woken (waitOver (noted i s g)) with pathA := g.pathA, pathB := g.pathB, pend := g.pend, early := g.early
                                          state := g.state, region := g.region, loads := g.loads } = g := by
  have h : { waitOver (noted i s g) with pathA := g.pathA, pathB := g.pathB, pend := g.pend, early := g.early
                                         state := g.state, region := g.region, loads := g.loads } = g := by
    by_cases hb : (g.two && g.onB) = true
    · rw [waitOver_b (g := noted i s g) hb]; rfl
    · rw [waitOver_a (g := noted i s g) hb]; rfl
  rcases woken_cases (waitOver (noted i s g)) with e | e <;> rw [e]
  · exact h
  · exact h
theorem settled_state (i : Info) (s : State) (g : Group) (h : g.state = .runnable) :
    (woken (waitOver (noted i s g))).state = .runnable := by
  have h2 : (waitOver (noted i s g)).state = .runnable := by rw [waitOver, setPath_state]; exact h
  rcases woken_cases (waitOver (noted i s g)) with e | e <;> rw [e]
  exact h2

/-! ### Words that only write registers -/

theorem setPath_rest (g : Group) (p : Path) :
    { setPath g p with pathA := g.pathA, pathB := g.pathB } = g ∧ restingPath (setPath g p) = restingPath g := by
  by_cases hb : (g.two && g.onB) = true
  · rw [setPath_b p hb]; exact ⟨rfl, by simp only [restingPath, hb]; rfl⟩
  · rw [setPath_a p hb]; exact ⟨rfl, by simp only [restingPath, hb]; rfl⟩
/-- Bytes seen depend on memories, on the spill stacks of groups, and on the group's own stores. -/
theorem byteSeen_congr {s t : State} (hm : { t with groups := s.groups, fresh := s.fresh } = s)
    (hg : ∀ g, (grpOf t g).spill = (grpOf s g).spill) (hs : (cg t).stores = (cg s).stores) (n : MemName) (a : Nat) :
    byteSeen t n a = byteSeen s n a := by
  have hb : t.blocks = s.blocks := (congrArg State.blocks hm :)
  have hd : t.die = s.die := (congrArg State.die hm :)
  have hv : t.dev = s.dev := (congrArg State.dev hm :)
  have hh : t.host = s.host := (congrArg State.host hm :)
  have hk : ∀ b, blkOf t b = blkOf s b := fun b => by simp only [blkOf, hb]
  have hom : homeByte t n a = homeByte s n a := by
    cases n <;> simp only [homeByte, memOf, hk, hd, hv, hh, hg]
  simp only [byteSeen, viewByte, hs, hom]
theorem restored_stores (g y : Group) : (restored g y).stores = y.stores := rfl
theorem restored_spill (g y : Group) : (restored g y).spill = y.spill := rfl
/-- The state after a word whose own effect only writes registers. -/
def regsDone (i : Info) (s : State) (v : Map (List Word)) (u : Map Word) (p : Map Mask) (x : Map XReg) (g : Map (BitVec 128)) :
    State :=
  settled i s (setCg (entered i s) { cg (entered i s) with v := v, s := u, p := p, x := x, g := g })
theorem regsDone_cg {i : Info} {s : State} (h : MayIssue i s) (v : Map (List Word)) (u : Map Word) (p : Map Mask)
    (x : Map XReg) (g : Map (BitVec 128)) :
    cg (regsDone i s v u p x g) = woken (waitOver (noted i s { cg (entered i s) with v := v, s := u, p := p, x := x, g := g })) := by
  rw [regsDone, settled_eq h, cg_setFresh, cg_setCg, cg_setCg]
theorem regsDone_regs {i : Info} {s : State} (h : MayIssue i s) (v : Map (List Word)) (u : Map Word) (p : Map Mask)
    (x : Map XReg) (g : Map (BitVec 128)) :
    (cg (regsDone i s v u p x g)).v = v ∧ (cg (regsDone i s v u p x g)).s = u ∧ (cg (regsDone i s v u p x g)).p = p ∧
      (cg (regsDone i s v u p x g)).x = x ∧ (cg (regsDone i s v u p x g)).g = g := by
  have hr := settled_rest i s { cg (entered i s) with v := v, s := u, p := p, x := x, g := g }
  rw [regsDone_cg h]
  exact ⟨congrArg Group.v hr, congrArg Group.s hr, congrArg Group.p hr, congrArg Group.x hr, congrArg Group.g hr⟩
theorem regsDone_only {i : Info} {s : State} (h : MayIssue i s) (v : Map (List Word)) (u : Map Word) (p : Map Mask)
    (x : Map XReg) (g : Map (BitVec 128)) {vs us ps xs gs : List Nat}
    (hv : ∀ r, r ∉ vs → Map.look v r [] = Map.look (cg s).v r []) (hu : ∀ n, n ∉ us → Map.look u n 0 = Map.look (cg s).s n 0)
    (hp : ∀ n, n ∉ ps → n ≠ 0 → Map.look p n 0 = Map.look (cg s).p n 0)
    (hx : ∀ n, n ∉ xs → Map.look x n {} = Map.look (cg s).x n {}) (hg : ∀ n, n ∉ gs → Map.look g n 0 = Map.look (cg s).g n 0) :
    OnlyRegs i s (regsDone i s v u p x g) vs us ps xs gs := by
  obtain ⟨e1, e2, e3, e4, e5⟩ := regsDone_regs h v u p x g
  have hc := regsDone_cg h v u p x g
  have hr := settled_rest i s { cg (entered i s) with v := v, s := u, p := p, x := x, g := g }
  have hq := setPath_rest { cg s with early := [] } { cp s with pc := (cp s).pc + 4, stall := i.stall }
  have hm : { regsDone i s v u p x g with groups := s.groups, fresh := s.fresh } = s := by
    rw [regsDone, settled_eq h, entered_eq]; rfl
  have ho : ∀ g', g' ≠ s.cur → grpOf (regsDone i s v u p x g) g' = grpOf s g' := fun g' hg' => by
    have hn : g' ≠ (setCg (entered i s) { cg (entered i s) with v := v, s := u, p := p, x := x, g := g }).cur := by
      rw [setCg_cur, cur_entered]; exact hg'
    rw [regsDone, settled_eq h, grpOf_setFresh, grpOf_setCg_other _ _ hn, grpOf_setCg_other _ _ (by rw [cur_entered]; exact hg'),
      entered_eq, grpOf_setCg_other _ _ hg']
  have hcur : (regsDone i s v u p x g).cur = s.cur := (congrArg State.cur hm :)
  have hk : restored (cg s) (cg (regsDone i s v u p x g)) = cg s := by
    have hr2 := hr
    rw [← hc] at hr2
    have hq1 := hq.1
    rw [← cg_entered] at hq1
    exact (congrArg (restored (cg s)) hr2 :).trans (congrArg (restored (cg s)) hq1 :)
  refine ⟨hm, ho, ?_, ?_, ?_, ?_, ?_, ?_, ?_, hk, ?_, ?_⟩
  · intro r hr th; simp only [laneReg, e1, hv r hr]
  · intro n hn; simp only [uniReg, e2, hu n hn]
  · intro n hn th
    by_cases h0 : n = 0
    · simp [predReg, h0]
    · simp only [predReg, e3, hp n hn h0]
  · intro n hn; simp only [xlatReg, e4, hx n hn]
  · intro n hn; simp only [genReg, e5, hg n hn]
  · rw [cp, hc, settled_path]
    have : pathOf { cg (entered i s) with v := v, s := u, p := p, x := x, g := g } = cp (entered i s) := rfl
    rw [this, cp_entered]
  · rw [hc, settled_resting]
    have : restingPath { cg (entered i s) with v := v, s := u, p := p, x := x, g := g } = restingPath (cg (entered i s)) := rfl
    rw [this, cg_entered, hq.2]; rfl
  · intro hrun; rw [hc]; apply settled_state
    show (cg (entered i s)).state = _
    rw [cg_entered, setPath_state]; exact hrun
  · intro n a
    have h1 := congrArg Group.stores hk
    have h2 := congrArg Group.spill hk
    rw [restored_stores] at h1
    rw [restored_spill, cg, hcur] at h2
    refine byteSeen_congr hm (fun g' => ?_) h1 n a
    by_cases hg' : g' = s.cur
    · rw [hg']; exact h2
    · rw [ho g' hg']

end Sys2Proof.Machine
end

