-- ==== Sys2Proof/Laws/Memory.lean ====
section
/-!
SUPPORT. Laws/Memory.lean: every operation over a memory keeps its canonical form, and what a byte reads as after each.
-/
namespace Sys2Proof.Machine
set_option Elab.async false

theorem wfAbove_mono {lo hi : Nat} {m : Memory} (h : wfAbove hi m = true) (hl : lo ≤ hi) : wfAbove lo m = true := by
  cases m with
  | nil => rfl
  | cons c r => simp only [wfAbove, Bool.and_eq_true, decide_eq_true_eq] at *; exact ⟨⟨by omega, h.1.2⟩, h.2⟩
theorem readB_below {lo : Nat} {m : Memory} (h : wfAbove lo m = true) {a : Nat} (ha : a < lo) : readB m a = 0 := by
  induction m generalizing lo with
  | nil => rfl
  | cons c r ih =>
    simp only [wfAbove, Bool.and_eq_true, decide_eq_true_eq] at h
    rw [readB, if_neg (by omega)]
    exact ih h.2 (by omega)
theorem wfAbove_writeB {lo : Nat} {m : Memory} (h : wfAbove lo m = true) {a : Nat} (ha : lo ≤ a) (b : Byte) :
    wfAbove lo (writeB m a b) = true := by
  induction m generalizing lo with
  | nil =>
    rw [writeB]
    split
    · rfl
    · simp only [wfAbove, Bool.and_eq_true, decide_eq_true_eq]; exact ⟨⟨ha, by simpa using ‹¬ b = 0›⟩, trivial⟩
  | cons c r ih =>
    simp only [wfAbove, Bool.and_eq_true, decide_eq_true_eq] at h
    rw [writeB]
    split
    · split
      · simp only [wfAbove, Bool.and_eq_true, decide_eq_true_eq]; exact h
      · simp only [wfAbove, Bool.and_eq_true, decide_eq_true_eq]
        exact ⟨⟨ha, by simpa using ‹¬ b = 0›⟩, ⟨by omega, h.1.2⟩, h.2⟩
    · split
      · split
        · exact wfAbove_mono h.2 (by omega)
        · simp only [wfAbove, Bool.and_eq_true, decide_eq_true_eq]
          exact ⟨⟨ha, by simpa using ‹¬ b = 0›⟩, by rw [‹a = c.1›]; exact h.2⟩
      · simp only [wfAbove, Bool.and_eq_true, decide_eq_true_eq]
        exact ⟨h.1, ih h.2 (by omega)⟩
theorem readB_writeB {lo : Nat} {m : Memory} (h : wfAbove lo m = true) (a : Nat) (b : Byte) (x : Nat) :
    readB (writeB m a b) x = if x = a then b else readB m x := by
  induction m generalizing lo with
  | nil =>
    rw [writeB]
    split
    · split
      · exact (‹b = 0›).symm
      · rfl
    · split
      · rw [readB, if_pos (Eq.symm ‹x = a›)]
      · exact if_neg (fun e : a = x => ‹¬ x = a› e.symm)
  | cons c r ih =>
    simp only [wfAbove, Bool.and_eq_true, decide_eq_true_eq] at h
    by_cases hx : x = a
    · subst hx
      rw [writeB, if_pos rfl]
      split
      · split
        · rw [readB, if_neg (by omega), readB_below h.2 (by omega)]; exact (‹b = 0›).symm
        · rw [readB, if_pos rfl]
      · split
        · split
          · rw [readB_below h.2 (by omega)]; exact (‹b = 0›).symm
          · rw [readB, if_pos rfl]
        · rw [readB, if_neg (fun e => ‹¬ x = c.1› e.symm), ih h.2, if_pos rfl]
    · rw [if_neg hx, writeB]
      split
      · split
        · rfl
        · rw [readB, if_neg (fun e => hx e.symm)]
      · split
        · split
          · rw [readB, if_neg (by omega)]
          · rw [readB, if_neg (fun e => hx e.symm), readB, if_neg (by omega)]
        · rw [readB, readB, ih h.2, if_neg hx]

theorem wf_writeB {m : Memory} (h : m.wf = true) (a : Nat) (b : Byte) : Memory.wf (writeB m a b) = true :=
  wfAbove_writeB h (Nat.zero_le a) b
/-- Every store keeps the canonical form. -/
theorem wf_writeBytes {m : Memory} (h : m.wf = true) (a : Nat) (bs : List Byte) : Memory.wf (writeBytes m a bs) = true := by
  induction bs generalizing m a with
  | nil => exact h
  | cons b bs ih => exact ih (wf_writeB h a b) (a + 1)
/-- What a byte reads as after a store. -/
theorem readB_writeBytes {m : Memory} (h : m.wf = true) (a : Nat) (bs : List Byte) (x : Nat) :
    readB (writeBytes m a bs) x = if a ≤ x ∧ x < a + bs.length then byteAt bs (x - a) else readB m x := by
  induction bs generalizing m a with
  | nil => rw [if_neg (by simp only [List.length_nil]; omega)]; rfl
  | cons b bs ih =>
    rw [writeBytes, ih (wf_writeB h a b), readB_writeB h]
    simp only [List.length_cons]
    by_cases h1 : x = a
    · subst h1
      rw [if_neg (by omega), if_pos rfl, if_pos (by omega), Nat.sub_self]; rfl
    · rw [if_neg h1]
      by_cases h2 : a + 1 ≤ x ∧ x < a + 1 + bs.length
      · rw [if_pos h2, if_pos (by omega)]
        have : x - a = x - (a + 1) + 1 := by omega
        rw [this]; rfl
      · rw [if_neg h2, if_neg (by omega)]
/-- Dropping cells keeps the canonical form. -/
theorem wfAbove_filter {lo : Nat} {m : Memory} (h : wfAbove lo m = true) (p : Host.Cell → Bool) :
    wfAbove lo (m.filter p) = true := by
  induction m generalizing lo with
  | nil => rfl
  | cons c r ih =>
    simp only [wfAbove, Bool.and_eq_true, decide_eq_true_eq] at h
    rw [List.filter_cons]
    split
    · simp only [wfAbove, Bool.and_eq_true, decide_eq_true_eq]; exact ⟨h.1, ih h.2⟩
    · exact wfAbove_mono (ih h.2) (by omega)
theorem wf_zeroRange {m : Memory} (h : m.wf = true) (a n : Nat) : Memory.wf (zeroRange m a n) = true := wfAbove_filter h _
theorem readB_zeroRange (m : Memory) (a n x : Nat) :
    readB (zeroRange m a n) x = if a ≤ x ∧ x < a + n then 0 else readB m x := by
  induction m with
  | nil => simp [zeroRange, readB]
  | cons c r ih =>
    rw [zeroRange, List.filter_cons]
    by_cases hc : c.1 < a ∨ a + n ≤ c.1
    · rw [if_pos (by simpa using hc), readB, readB, ← zeroRange, ih]
      split <;> split <;> first | rfl | omega
    · rw [if_neg (by simpa using hc), ← zeroRange, ih, readB]
      split <;> first | rfl | rw [if_neg (by omega)]
/-- Listed bytes in any order become a memory in canonical form. -/
theorem wf_canonMem (m : Memory) : Memory.wf (canonMem m) = true := by
  have h : ∀ (l : Memory) (x : Memory), x.wf = true → Memory.wf (l.foldl (fun x c => writeB x c.1 c.2) x) = true := by
    intro l
    induction l with
    | nil => exact fun x hx => hx
    | cons c r ih => exact fun x hx => ih _ (wf_writeB hx c.1 c.2)
  exact h m [] rfl

/-- The memories of the state after reset are in canonical form. -/
theorem reset_memories : State.reset.dev.wf = true ∧ State.reset.host.wf = true ∧ State.reset.die = [] := ⟨rfl, rfl, rfl⟩

end Sys2Proof.Machine
end

