-- ==== Sys2Proof/Laws/Kept.lean ====
section
/-!
SUPPORT. Laws/Kept.lean: what no operation undoes, the fuses of the package and the canonical form of its memories; its lemmas for
Machine files Ops, Scratch, Waits, Launch, Integer, Ordering, Blocks, Page, Submit.
-/
namespace Sys2Proof.Machine
set_option Elab.async false

/-- The package p has lost nothing that the package q holds in fuses: the key, the version floor, having left RAW, having
reached DECOMMISSIONED, and, within the bounds of a key's leaves, the leaf position. -/
structure PkgFrom (q p : Pkg) : Prop where
  key : p.keyHash = q.keyHash
  version : q.minVersion ≤ p.minVersion
  life : (q.life ≠ .raw → p.life ≠ .raw) ∧ (q.life = .decommissioned → p.life = .decommissioned)
  leaf : q.attLeaf ≤ 2 ^ 16 ∧ q.idLeaf ≤ 2 ^ 20 → p.attLeaf ≤ 2 ^ 16 ∧ p.idLeaf ≤ 2 ^ 20 ∧
    q.idKeys * 2 ^ 40 + q.idLeaf * 2 ^ 16 + q.attLeaf ≤ p.idKeys * 2 ^ 40 + p.idLeaf * 2 ^ 16 + p.attLeaf
/-- What `Kept` says, over the fields it speaks of. -/
def KeptParts (q : Pkg) (c : Prop) (p : Pkg) (d h : Memory) (m : Map Memory) : Prop :=
  PkgFrom q p ∧ (c → Memory.wf d = true ∧ Memory.wf h = true ∧ ∀ e ∈ m, Memory.wf e.2 = true)
/-- The state s has lost nothing of the fuses of q, and, where c holds, its memories are canonical. -/
def Kept (q : Pkg) (c : Prop) (s : State) : Prop := KeptParts q c s.pkg s.dev s.host s.die
variable {q0 : Pkg} {c0 : Prop}
/-- Every state an outcome answers with is `Kept`. -/
def KeptOut (q : Pkg) (c : Prop) : Host.Outcome State Fault Refusal → Prop
  | .next t => Kept q c t
  | _ => True
/-- Every state an own effect goes on with is `Kept`. -/
def KeptAct (q : Pkg) (c : Prop) : Act → Prop
  | .done t => Kept q c t
  | .trap _ => True
  | .trapIn t _ => Kept q c t
  | .wait t _ => Kept q c t
/-- The state after a fetch is `Kept`. -/
def KeptFetch (q : Pkg) (c : Prop) : Fetched → Prop
  | .word t _ => Kept q c t
  | .trap t _ => Kept q c t

theorem keptOut_next {t} (h : Kept q0 c0 t) : KeptOut q0 c0 (.next t) := h
theorem keptOut_fault {f} : KeptOut q0 c0 (.fault f) := trivial
theorem keptAct_done {t} (h : Kept q0 c0 t) : KeptAct q0 c0 (.done t) := h
theorem keptAct_trap {t} : KeptAct q0 c0 (.trap t) := trivial
theorem keptAct_trapIn {t q} (h : Kept q0 c0 t) : KeptAct q0 c0 (.trapIn t q) := h
theorem keptAct_wait {t w} (h : Kept q0 c0 t) : KeptAct q0 c0 (.wait t w) := h
theorem keptFetch_word {t w} (h : Kept q0 c0 t) : KeptFetch q0 c0 (.word t w) := h
theorem keptFetch_trap {t w} (h : Kept q0 c0 t) : KeptFetch q0 c0 (.trap t w) := h
theorem kept_parts {s : State} (h : Kept q0 c0 s) : KeptParts q0 c0 s.pkg s.dev s.host s.die := h
theorem kept_parts_pkg {s : State} {p : Pkg} (h : Kept q0 c0 s) (hp : PkgFrom q0 s.pkg → PkgFrom q0 p) : KeptParts q0 c0 p s.dev s.host s.die := ⟨hp h.1, h.2⟩
theorem kept_mk {cur barrel agenda due out fresh nextId time groups blocks gangs kerns cores dev host die log rels stored poison own tlb ctxs fns ldevs ats flips services faults links hall pkg written} : Kept q0 c0 (State.mk cur barrel agenda due out fresh nextId time groups blocks gangs kerns cores dev host die log rels stored poison own tlb ctxs fns ldevs ats flips services faults links hall pkg written) = KeptParts q0 c0 pkg dev host die := rfl
theorem kept_of_kept {a : State} {f : State → State} (h : Kept q0 c0 a) (hf : ∀ s, Kept q0 c0 s → Kept q0 c0 (f s)) : Kept q0 c0 (f a) := hf a h
theorem kept_fst {α} {p : State × α} {s b} (h : Kept q0 c0 p.1) (e : p = (s, b)) : Kept q0 c0 s := by subst e; exact h
theorem kept_snd {α} {p : α × State} {s b} (h : Kept q0 c0 p.2) (e : p = (b, s)) : Kept q0 c0 s := by subst e; exact h
theorem kept_some {o : Option State} {t} (h : ∀ t, o = some t → Kept q0 c0 t) (e : o = some t) : Kept q0 c0 t := h t e
theorem kept_some1 {α} {o : Option (State × α)} {t b} (h : ∀ t, o = some t → Kept q0 c0 t.1) (e : o = some (t, b)) : Kept q0 c0 t := h _ e
theorem kept_some2 {α} {o : Option (α × State)} {t b} (h : ∀ t, o = some t → Kept q0 c0 t.2) (e : o = some (b, t)) : Kept q0 c0 t := h _ e
theorem kept_getD {o : Option State} {t} (h : ∀ t, o = some t → Kept q0 c0 t) (e : Kept q0 c0 t) : Kept q0 c0 (o.getD t) := by
  cases o with
  | none => exact e
  | some x => exact h x rfl
theorem kept_foldl {α} {f : State → α → State} {l : List α} {s} (h : Kept q0 c0 s) (hf : ∀ s x, Kept q0 c0 s → Kept q0 c0 (f s x)) : Kept q0 c0 (l.foldl f s) := by
  induction l generalizing s with
  | nil => exact h
  | cons a l ih => exact ih (hf _ _ h)

theorem pkgFrom_leaf {p p' : Pkg} {l : Life} {a i k : Nat} (h : PkgFrom q0 p) (e1 : p'.keyHash = p.keyHash) (e2 : p'.minVersion = p.minVersion) (e3 : p'.life = l)
    (e4 : p'.attLeaf = a) (e5 : p'.idLeaf = i) (e6 : p'.idKeys = k) (hl : (q0.life ≠ .raw → l ≠ .raw) ∧ (q0.life = .decommissioned → l = .decommissioned))
    (hk : p.attLeaf ≤ 2 ^ 16 ∧ p.idLeaf ≤ 2 ^ 20 → a ≤ 2 ^ 16 ∧ i ≤ 2 ^ 20 ∧
      p.idKeys * 2 ^ 40 + p.idLeaf * 2 ^ 16 + p.attLeaf ≤ k * 2 ^ 40 + i * 2 ^ 16 + a) : PkgFrom q0 p' := by
  subst e3 e4 e5 e6
  refine ⟨e1 ▸ h.key, e2 ▸ h.version, hl, fun hq => ?_⟩
  obtain ⟨h1, h2, h3⟩ := h.leaf hq
  obtain ⟨h4, h5, h6⟩ := hk ⟨h1, h2⟩
  exact ⟨h4, h5, Nat.le_trans h3 h6⟩
theorem pkgFrom_same {p p' : Pkg} (h : PkgFrom q0 p) (e1 : p'.keyHash = p.keyHash) (e2 : p'.minVersion = p.minVersion) (e3 : p'.life = p.life)
    (e4 : p'.attLeaf = p.attLeaf) (e5 : p'.idLeaf = p.idLeaf) (e6 : p'.idKeys = p.idKeys) : PkgFrom q0 p' :=
  pkgFrom_leaf h e1 e2 e3 e4 e5 e6 h.life fun hb => ⟨hb.1, hb.2, Nat.le_refl _⟩
theorem kept_of_some {a t : State} (h : Kept q0 c0 a) (e : some a = some t) : Kept q0 c0 t := by cases e; exact h
theorem kept_of_some1 {α} {a : State} {b : α} {t} (h : Kept q0 c0 a) (e : some (a, b) = some t) : Kept q0 c0 t.1 := by cases e; exact h
theorem kept_of_some2 {α} {a : State} {b : α} {t} (h : Kept q0 c0 a) (e : some (b, a) = some t) : Kept q0 c0 t.2 := by cases e; exact h
theorem kept_of_none {α} {t : α} {P : Prop} (e : none = some t) : P := by cases e

theorem keptFetch_word_of {f : Fetched} {t w} (h : KeptFetch q0 c0 f) (e : f = .word t w) : Kept q0 c0 t := by rw [e] at h; exact h
theorem keptFetch_trap_of {f : Fetched} {t w} (h : KeptFetch q0 c0 f) (e : f = .trap t w) : Kept q0 c0 t := by rw [e] at h; exact h
theorem keptAct_done_of {a : Act} {t} (h : KeptAct q0 c0 a) (e : a = .done t) : Kept q0 c0 t := by rw [e] at h; exact h
theorem keptAct_trapIn_of {a : Act} {t q} (h : KeptAct q0 c0 a) (e : a = .trapIn t q) : Kept q0 c0 t := by rw [e] at h; exact h
theorem keptAct_wait_of {a : Act} {t w} (h : KeptAct q0 c0 a) (e : a = .wait t w) : Kept q0 c0 t := by rw [e] at h; exact h
theorem map_put_mem {α : Type} {m : Map α} {k : Nat} {v : α} {e : Nat × α} (h : e ∈ Map.put m k v) : e ∈ m ∨ e.2 = v := by
  induction m with
  | nil => simp [Map.put] at h; simp [h]
  | cons a r ih =>
    simp only [Map.put] at h
    split at h
    · simp at h; rcases h with h | h | h <;> simp [h]
    · split at h
      · simp at h; rcases h with h | h <;> simp [h]
      · simp at h; rcases h with h | h
        · simp [h]
        · rcases ih h with h | h <;> simp [h]
theorem map_look_mem {α : Type} {m : Map α} {k : Nat} {d : α} {P : α → Prop} (hd : P d) (h : ∀ e ∈ m, P e.2) : P (Map.look m k d) := by
  induction m with
  | nil => exact hd
  | cons a r ih =>
    simp only [Map.look]
    split
    · exact h _ (by simp)
    · exact ih fun e he => h e (by simp [he])
theorem kept_setGrp (s : State) (g : Nat) (x : Group) (h0 : Kept q0 c0 s) : Kept q0 c0 (setGrp s g x) := h0
theorem kept_setBlk (s : State) (b : Nat) (x : Block) (h0 : Kept q0 c0 s) : Kept q0 c0 (setBlk s b x) := h0
theorem kept_setGang (s : State) (q : Nat) (x : Gang) (h0 : Kept q0 c0 s) : Kept q0 c0 (setGang s q x) := h0
theorem kept_setKern (s : State) (k : Nat) (x : Kern) (h0 : Kept q0 c0 s) : Kept q0 c0 (setKern s k x) := h0
theorem kept_setCore (s : State) (c : Nat) (x : Core) (h0 : Kept q0 c0 s) : Kept q0 c0 (setCore s c x) := h0
theorem kept_setCtx (s : State) (c : Nat) (x : Ctx) (h0 : Kept q0 c0 s) : Kept q0 c0 (setCtx s c x) := h0
theorem kept_setFn (s : State) (f : Nat) (x : Fn) (h0 : Kept q0 c0 s) : Kept q0 c0 (setFn s f x) := h0
theorem kept_setSvc (s : State) (d : Nat) (x : Service) (h0 : Kept q0 c0 s) : Kept q0 c0 (setSvc s d x) := h0
theorem kept_setFaults (s : State) (p : Nat) (x : FaultQueue) (h0 : Kept q0 c0 s) : Kept q0 c0 (setFaults s p x) := h0
theorem kept_setOwn (s : State) (f : Nat) (x : Own) (h0 : Kept q0 c0 s) : Kept q0 c0 (setOwn s f x) := h0
theorem kept_setHall (s : State) (h : Hall) (h0 : Kept q0 c0 s) : Kept q0 c0 (setHall s h) := h0
theorem kept_setLinks (s : State) (l : Links) (h0 : Kept q0 c0 s) : Kept q0 c0 (setLinks s l) := h0
theorem kept_setPkg {s : State} {p : Pkg} (h0 : Kept q0 c0 s) (hp : PkgFrom q0 s.pkg → PkgFrom q0 p) : Kept q0 c0 (setPkg s p) := ⟨hp h0.1, h0.2⟩
theorem kept_setDev {s : State} {m : Memory} (h0 : Kept q0 c0 s) (hm : Memory.wf s.dev = true → Memory.wf m = true) : Kept q0 c0 (setDev s m) :=
  ⟨h0.1, fun c => ⟨hm (h0.2 c).1, (h0.2 c).2⟩⟩
theorem kept_setHost {s : State} {m : Memory} (h0 : Kept q0 c0 s) (hm : Memory.wf s.host = true → Memory.wf m = true) : Kept q0 c0 (setHost s m) :=
  ⟨h0.1, fun c => ⟨(h0.2 c).1, hm (h0.2 c).2.1, (h0.2 c).2.2⟩⟩
theorem kept_setDie {s : State} {k : Nat} {m : Memory} (h0 : Kept q0 c0 s) (hm : Memory.wf (Map.look s.die k []) = true → Memory.wf m = true) : Kept q0 c0 (setDie s k m) := by
  refine ⟨h0.1, fun c => ⟨(h0.2 c).1, (h0.2 c).2.1, fun e he => (map_put_mem he).elim ((h0.2 c).2.2 e) fun h => ?_⟩⟩
  exact h ▸ hm (map_look_mem (P := fun x => Memory.wf x = true) rfl (h0.2 c).2.2)
theorem kept_setPoison (s : State) (p : List (MemName × Nat)) (h0 : Kept q0 c0 s) : Kept q0 c0 (setPoison s p) := h0
theorem kept_setTlb (s : State) (t : List TlbEntry) (h0 : Kept q0 c0 s) : Kept q0 c0 (setTlb s t) := h0
theorem kept_setFresh (s : State) (n : Nat) (h0 : Kept q0 c0 s) : Kept q0 c0 (setFresh s n) := h0
theorem kept_setAgenda (s : State) (a : List Instr) (h0 : Kept q0 c0 s) : Kept q0 c0 (setAgenda s a) := h0
theorem kept_emit (s : State) (o : Out) (h0 : Kept q0 c0 s) : Kept q0 c0 (emit s o) := h0
theorem kept_setCg (s : State) (g : Group) (h0 : Kept q0 c0 s) : Kept q0 c0 (setCg s g) := h0
theorem kept_setCp (s : State) (p : Path) (h0 : Kept q0 c0 s) : Kept q0 c0 (setCp s p) := h0
theorem kept_setCb (s : State) (b : Block) (h0 : Kept q0 c0 s) : Kept q0 c0 (setCb s b) := h0
theorem kept_wv (s : State) (r : Nat) (m : Mask) (f : Nat → Word) (h0 : Kept q0 c0 s) : Kept q0 c0 (wv s r m f) := h0
theorem kept_ws (s : State) (n : Nat) (w : Word) (h0 : Kept q0 c0 s) : Kept q0 c0 (ws s n w) := h0
theorem kept_wp (s : State) (n : Nat) (m : Mask) (val : Mask) (h0 : Kept q0 c0 s) : Kept q0 c0 (wp s n m val) := by
  unfold wp
  with_reducible repeat' first | assumption | apply kept_setCg | split
theorem kept_wx (s : State) (n : Nat) (x : XReg) (h0 : Kept q0 c0 s) : Kept q0 c0 (wx s n x) := h0
theorem kept_wg (s : State) (n : Nat) (d : BitVec 128) (h0 : Kept q0 c0 s) : Kept q0 c0 (wg s n d) := h0
theorem kept_wsList (a0 : State) (a1 : Nat) (a2 : List Word) (h0 : Kept q0 c0 a0) : Kept q0 c0 (wsList a0 a1 a2) := by
  fun_induction wsList a0 a1 a2 <;> (with_reducible repeat' first | apply_assumption)
theorem kept_cleanPoison (s : State) (n : MemName) (a len : Nat) (h0 : Kept q0 c0 s) : Kept q0 c0 (cleanPoison s n a len) := h0
theorem kept_noteStored (s : State) (n : MemName) (a len : Nat) (h0 : Kept q0 c0 s) : Kept q0 c0 (noteStored s n a len) := by
  unfold noteStored
  with_reducible repeat' first | assumption | (simp only [kept_mk]; first | apply kept_parts | apply kept_parts_pkg) | split
theorem kept_setMem {s : State} {n : MemName} {m : Memory} (h0 : Kept q0 c0 s) (hm : Memory.wf (memOf s n) = true → Memory.wf m = true) : Kept q0 c0 (setMem s n m) := by
  cases n <;> try exact h0
  · exact kept_setDie h0 hm
  · exact kept_setDev h0 hm
  · exact kept_setHost h0 hm
theorem kept_homeWrite (s : State) (n : MemName) (a : Nat) (bs : List Byte) (h0 : Kept q0 c0 s) : Kept q0 c0 (homeWrite s n a bs) :=
  kept_cleanPoison _ _ _ _ (kept_noteStored _ _ _ _ (kept_setMem h0 fun h => wf_writeBytes h a bs))
theorem kept_tlbLook (s : State) (ctx va : Nat) (h0 : Kept q0 c0 s) : Kept q0 c0 (tlbLook s ctx va).2 := by
  unfold tlbLook
  try dsimp only
  with_reducible repeat' first | assumption | apply kept_setTlb | split
theorem kept_dropTlb (s : State) (ctx page n : Nat) (h0 : Kept q0 c0 s) : Kept q0 c0 (dropTlb s ctx page n) := h0
theorem kept_putLeaf (s : State) (ctx : Nat) (l : Leaf) (h0 : Kept q0 c0 s) : Kept q0 c0 (putLeaf s ctx l) := h0
theorem kept_vaWrite (a0 : State) (a1 : Nat) (a2 : Nat) (a3 : List Byte) (h0 : Kept q0 c0 a0) : Kept q0 c0 (vaWrite a0 a1 a2 a3) := by
  fun_induction vaWrite a0 a1 a2 a3 with
  | case1 => exact h0
  | case2 s ctx va b bs s' ih =>
    apply ih
    show Kept q0 c0 (match vaAt s ctx va false true with | some (m, a) => homeWrite s m a [b] | none => s)
    split
    · exact kept_homeWrite _ _ _ _ h0
    · exact h0
theorem kept_postEvent (s : State) (e : HEvent) (h0 : Kept q0 c0 s) : Kept q0 c0 (postEvent s e) := by
  unfold postEvent
  try dsimp only
  with_reducible repeat' first | assumption | apply kept_setHall | split
theorem kept_hostRecord (s : State) (f : Nat) (e : ErrRec) (prot : Bool) (h0 : Kept q0 c0 s) : Kept q0 c0 (hostRecord s f e prot) := by
  unfold hostRecord
  try dsimp only
  with_reducible repeat' first | assumption | apply kept_setFn | apply kept_homeWrite | apply kept_emit | split
theorem kept_logRecord (s : State) (e : ErrRec) (prot : Bool) (h0 : Kept q0 c0 s) : Kept q0 c0 (logRecord s e prot) := by
  unfold logRecord
  try dsimp only
  with_reducible repeat' first | assumption | apply keptAct_trap | apply kept_setPkg | (simp only [kept_mk]; first | apply kept_parts | apply kept_parts_pkg) | exact fun hp => pkgFrom_same hp rfl rfl rfl rfl rfl rfl | split | intro _ _ _ | intro _ _ | intro _
theorem kept_routeRecord (s : State) (cls : Nat) (e : ErrRec) (h0 : Kept q0 c0 s) : Kept q0 c0 (routeRecord s cls e) := by
  unfold routeRecord
  try dsimp only
  with_reducible repeat' first | assumption | apply keptAct_trap | apply kept_hostRecord | apply kept_homeWrite | apply kept_setSvc | apply kept_logRecord | (simp only [kept_mk]; first | apply kept_parts | apply kept_parts_pkg) | split | intro _ _ _ | intro _ _ | intro _
theorem kept_settleBlock (s : State) (b : Nat) (h0 : Kept q0 c0 s) : Kept q0 c0 (settleBlock s b) := h0
theorem kept_settleGang (s : State) (q : Nat) (h0 : Kept q0 c0 s) : Kept q0 c0 (settleGang s q) := by
  unfold settleGang
  try dsimp only
  with_reducible repeat' first | assumption | apply keptAct_trap | apply kept_setGang | (simp only [kept_mk]; first | apply kept_parts | apply kept_parts_pkg) | apply keptAct_done | exact keptAct_trap | apply keptAct_trapIn | apply keptAct_wait | split | intro _ _ _ | intro _ _ | intro _
theorem kept_chargeBudget (s : State) (ctx kind unit amount : Nat) (h0 : Kept q0 c0 s) : Kept q0 c0 (chargeBudget s ctx kind unit amount) := by
  unfold chargeBudget
  try dsimp only
  with_reducible repeat' first | assumption | apply kept_setCtx | split
theorem kept_portPut (s : State) (p : Nat) (fl : Flit) (h0 : Kept q0 c0 s) : Kept q0 c0 (portPut s p fl) := by
  unfold portPut
  with_reducible repeat' first | assumption | apply kept_chargeBudget | apply kept_emit | apply kept_setLinks | split
theorem kept_dropQueued (s : State) (p : Nat) (fl : Flit) (h0 : Kept q0 c0 s) : Kept q0 c0 (dropQueued s p fl) := h0
theorem kept_portFlush (p : Nat) (a0 : Nat) (a1 : State) (h0 : Kept q0 c0 a1) : Kept q0 c0 (portFlush p a0 a1) := by
  fun_induction portFlush p a0 a1 <;> (with_reducible repeat' first | apply kept_portPut | apply_assumption)
theorem kept_portSend (s : State) (p : Nat) (fl : Flit) (h0 : Kept q0 c0 s) : Kept q0 c0 (portSend s p fl) := by
  unfold portSend
  with_reducible repeat' first | assumption | apply kept_portFlush | apply kept_setLinks
theorem kept_sendOn (s : State) (p : Nat) (fl : Flit) (h0 : Kept q0 c0 s) : Kept q0 c0 (sendOn s p fl) := by
  unfold sendOn
  with_reducible repeat' first | assumption | apply kept_portSend | split
theorem kept_sendFlit (s : State) (fl : Flit) (h0 : Kept q0 c0 s) : Kept q0 c0 (sendFlit s fl) := by
  unfold sendFlit
  with_reducible repeat' first | assumption | apply kept_sendOn
theorem kept_sendCh0 (s : State) (fl : Flit) (h0 : Kept q0 c0 s) : Kept q0 c0 (sendCh0 s fl) := by
  unfold sendCh0
  with_reducible repeat' first | assumption | apply kept_setLinks | apply kept_sendFlit
theorem kept_recordRank (s : State) (k e m r : Nat) (h0 : Kept q0 c0 s) : Kept q0 c0 (recordRank s k e m r) := by
  unfold recordRank
  try dsimp only
  with_reducible repeat' first | assumption | apply keptAct_trap | apply kept_setKern | (simp only [kept_mk]; first | apply kept_parts | apply kept_parts_pkg) | split | intro _ _ _ | intro _ _ | intro _
theorem kept_arriveRanks (s : State) (k e : Nat) (h0 : Kept q0 c0 s) : Kept q0 c0 (arriveRanks s k e) := by
  unfold arriveRanks
  try dsimp only
  with_reducible repeat' first | assumption | apply keptAct_trap | apply kept_setKern | apply kept_recordRank | apply kept_sendCh0 | (simp only [kept_mk]; first | apply kept_parts | apply kept_parts_pkg) | apply kept_foldl | apply keptAct_done | exact keptAct_trap | apply keptAct_trapIn | apply keptAct_wait | split | intro _ _ _ | intro _ _ | intro _
theorem kept_enterEpisode (s : State) (k e : Nat) (h0 : Kept q0 c0 s) : Kept q0 c0 (enterEpisode s k e) := by
  unfold enterEpisode
  try dsimp only
  with_reducible repeat' first | assumption | apply kept_arriveRanks | apply kept_setKern | split
theorem kept_sendRelease (s : State) (k e : Nat) (h0 : Kept q0 c0 s) : Kept q0 c0 (sendRelease s k e) := by
  unfold sendRelease
  with_reducible repeat' first | assumption | apply kept_sendCh0 | apply kept_foldl | intro _ _ _
theorem kept_completeGrid (s : State) (k e : Nat) (h0 : Kept q0 c0 s) : Kept q0 c0 (completeGrid s k e) := by
  unfold completeGrid
  try dsimp only
  with_reducible repeat' first | assumption | apply keptAct_trap | apply kept_enterEpisode | apply kept_sendRelease | apply keptAct_done | exact keptAct_trap | apply keptAct_trapIn | apply keptAct_wait | split | intro _ _ _ | intro _ _ | intro _
theorem kept_settleGrid (s : State) (k : Nat) (h0 : Kept q0 c0 s) : Kept q0 c0 (settleGrid s k) := by
  unfold settleGrid
  with_reducible repeat' first | assumption | apply kept_completeGrid | apply kept_arriveRanks
theorem kept_settleAll (s : State) (b : Nat) (h0 : Kept q0 c0 s) : Kept q0 c0 (settleAll s b) := by
  unfold settleAll
  with_reducible repeat' first | assumption | apply kept_settleGrid | apply kept_settleGang | apply kept_settleBlock
theorem kept_fatalBlock (s : State) (b : Nat) (r : TrapReport) (h0 : Kept q0 c0 s) : Kept q0 c0 (fatalBlock s b r) := by
  unfold fatalBlock
  try dsimp only
  with_reducible repeat' first | assumption | apply keptAct_trap | apply kept_setGrp | apply kept_setBlk | apply kept_logRecord | apply kept_routeRecord | apply kept_postEvent | apply kept_settleAll | (simp only [kept_mk]; first | apply kept_parts | apply kept_parts_pkg) | apply kept_foldl | apply keptAct_done | exact keptAct_trap | apply keptAct_trapIn | apply keptAct_wait | split | intro _ _ _ | intro _ _ | intro _
theorem kept_takeTrap (s : State) (gid : Nat) (t : TrapReq) (h0 : Kept q0 c0 s) : Kept q0 c0 (takeTrap s gid t) := by
  unfold takeTrap
  try dsimp only
  with_reducible repeat' first | assumption | apply keptAct_trap | apply kept_setGrp | apply kept_setBlk | apply kept_fatalBlock | (simp only [kept_mk]; first | apply kept_parts | apply kept_parts_pkg) | split | intro _ _ _ | intro _ _ | intro _
theorem kept_regionRestart (s : State) (gid : Nat) (rg : OpenRegion) (h0 : Kept q0 c0 s) : Kept q0 c0 (regionRestart s gid rg) := h0
theorem kept_advance (i : Info) (s : State) (h0 : Kept q0 c0 s) : Kept q0 c0 (advance i s) := h0
theorem kept_complete (i : Info) (s0 s : State) (h1 : Kept q0 c0 s) : Kept q0 c0 (complete i s0 s) := by
  unfold complete
  try dsimp only
  with_reducible repeat' first | assumption | apply keptAct_trap | apply kept_setFresh | apply kept_setCg | (simp only [kept_mk]; first | apply kept_parts | apply kept_parts_pkg) | apply kept_foldl | apply keptAct_done | exact keptAct_trap | apply keptAct_trapIn | apply keptAct_wait | split | intro _ _ _ | intro _ _ | intro _
theorem kept_endWait (s : State) (h0 : Kept q0 c0 s) : Kept q0 c0 (endWait s) := h0
theorem kept_issue (i : Info) (s : State) (act : State → Act) (h0 : Kept q0 c0 s) (f0 : ∀ y0, Kept q0 c0 y0 → KeptAct q0 c0 (act y0)) : KeptOut q0 c0 (issue i s act) := by
  unfold issue
  split
  · exact keptOut_next (kept_takeTrap _ _ _ h0)
  · split
    · exact keptOut_next (kept_takeTrap _ _ _ h0)
    · have hk : ∀ g, KeptAct q0 c0 (act (advance i (setCg s g))) := fun g => f0 _ (kept_advance _ _ (kept_setCg _ _ h0))
      dsimp only
      split
      · exact keptOut_next (kept_endWait _ (kept_complete _ _ _ (keptAct_done_of (hk _) ‹_›)))
      · exact keptOut_next (kept_takeTrap _ _ _ h0)
      · exact keptOut_next (kept_takeTrap _ _ _ (kept_setCg _ _ (keptAct_trapIn_of (hk _) ‹_›)))
      · exact keptOut_next (kept_setCg _ _ (keptAct_wait_of (hk _) ‹_›))
theorem kept_logWrite (s : State) (e : Written) (len : Nat) (h0 : Kept q0 c0 s) : Kept q0 c0 (logWrite s e len) := by
  unfold logWrite
  try dsimp only
  with_reducible repeat' first | assumption | apply keptAct_trap | (simp only [kept_mk]; first | apply kept_parts | apply kept_parts_pkg) | apply kept_foldl | apply keptAct_done | exact keptAct_trap | apply keptAct_trapIn | apply keptAct_wait | split | intro _ _ _ | intro _ _ | intro _
theorem kept_engineBytes (s : State) (blk seq : Nat) (n : MemName) (a : Nat) (bs : List Byte) (h0 : Kept q0 c0 s) : Kept q0 c0 (engineBytes s blk seq n a bs) := by
  unfold engineBytes
  with_reducible repeat' first | assumption | apply kept_homeWrite | apply kept_logWrite
theorem kept_freeSpan (n blk seq : Nat) (s : State) (x : Span) (h0 : Kept q0 c0 s) : Kept q0 c0 (freeSpan n blk seq s x) := by
  unfold freeSpan
  with_reducible repeat' first | assumption | apply kept_engineBytes | apply kept_setBlk | split
theorem kept_freeSpans (s : State) (blk seq : Nat) (xs : List Span) (h0 : Kept q0 c0 s) : Kept q0 c0 (freeSpans s blk seq xs) := by
  unfold freeSpans
  with_reducible repeat' first | assumption | apply kept_setFresh | apply kept_freeSpan | apply kept_foldl
theorem kept_freeResults (a0 : Nat) (a1 : State) (a2 : Nat) (a3 : Nat) (a4 : List Span) (h0 : Kept q0 c0 a1) : Kept q0 c0 (freeResults a0 a1 a2 a3 a4) := by
  fun_induction freeResults a0 a1 a2 a3 a4 <;> (try dsimp only) <;> (with_reducible repeat' first | assumption | apply keptAct_trap | apply kept_freeSpans | apply_assumption | (refine kept_fst ?_ ‹_ = (_, _)›; apply_assumption) | split | intro _ _ _ | intro _ _ | intro _)
theorem kept_disturbBlock (w : View) (n : MemName) (a len : Nat) (s : State) (e : Nat × Block) (h0 : Kept q0 c0 s) : Kept q0 c0 (disturbBlock w n a len s e) := by
  unfold disturbBlock
  try dsimp only
  with_reducible repeat' first | assumption | apply kept_setBlk | apply kept_freeResults | apply kept_foldl | split | intro _ _ _
theorem kept_disturb (s : State) (w : View) (n : MemName) (a len : Nat) (h0 : Kept q0 c0 s) : Kept q0 c0 (disturb s w n a len) := by
  unfold disturb
  with_reducible repeat' first | assumption | apply kept_disturbBlock | apply kept_foldl
theorem kept_peekBefore (s : State) (g h : Nat) (n : MemName) (a len : Nat) (h0 : Kept q0 c0 s) : Kept q0 c0 (peekBefore s g h n a len) := by
  unfold peekBefore
  try dsimp only
  with_reducible repeat' first | assumption | apply keptAct_trap | (simp only [kept_mk]; first | apply kept_parts | apply kept_parts_pkg) | apply keptAct_done | exact keptAct_trap | apply keptAct_trapIn | apply keptAct_wait | split | intro _ _ _ | intro _ _ | intro _
theorem kept_noteRead (s : State) (g : Nat) (n : MemName) (a len : Nat) (x : Sight) (h0 : Kept q0 c0 s) : Kept q0 c0 (noteRead s g n a len x) := by
  unfold noteRead
  try dsimp only
  with_reducible repeat' first | assumption | apply keptAct_trap | apply kept_setGrp | apply kept_peekBefore | (simp only [kept_mk]; first | apply kept_parts | apply kept_parts_pkg) | split | intro _ _ _ | intro _ _ | intro _
theorem kept_noteReads (s0 s : State) (es : List (MemName × Nat × Nat)) (h0 : Kept q0 c0 s0) (h1 : Kept q0 c0 s) : Kept q0 c0 (noteReads s0 s es) := by
  unfold noteReads
  with_reducible repeat' first | assumption | apply kept_noteRead | apply kept_foldl | intro _ _ _
theorem kept_wakeGroup (n : MemName) (a len : Nat) (s : State) (e : Nat × Group) (h0 : Kept q0 c0 s) : Kept q0 c0 (wakeGroup n a len s e) := by
  unfold wakeGroup
  try dsimp only
  with_reducible repeat' first | assumption | apply kept_noteRead | apply kept_setGrp | split
theorem kept_wakeWords (s : State) (n : MemName) (a len : Nat) (h0 : Kept q0 c0 s) : Kept q0 c0 (wakeWords s n a len) := by
  unfold wakeWords
  with_reducible repeat' first | assumption | apply kept_wakeGroup | apply kept_foldl
theorem kept_loadAgain (g : Nat) (s : State) (l : OpenLoad) (h0 : Kept q0 c0 s) : Kept q0 c0 (loadAgain g s l) := by
  unfold loadAgain
  try dsimp only
  with_reducible repeat' first | assumption | apply keptAct_trap | apply kept_setGrp | split | intro _ _ _ | intro _ _ | intro _
theorem kept_loadsAgain (n : MemName) (a len : Nat) (s : State) (e : Nat × Group) (h0 : Kept q0 c0 s) : Kept q0 c0 (loadsAgain n a len s e) := by
  unfold loadsAgain
  try dsimp only
  with_reducible repeat' first | assumption | apply keptAct_trap | apply kept_loadAgain | apply kept_foldl | split | intro _ _ _ | intro _ _ | intro _
theorem kept_reload (s : State) (n : MemName) (a len : Nat) (h0 : Kept q0 c0 s) : Kept q0 c0 (reload s n a len) := by
  unfold reload
  try dsimp only
  with_reducible repeat' first | assumption | apply keptAct_trap | apply kept_loadsAgain | apply kept_foldl | split | intro _ _ _ | intro _ _ | intro _
theorem kept_agentWrite (s : State) (e : Written) (w : View) (bs : List Byte) (h0 : Kept q0 c0 s) : Kept q0 c0 (agentWrite s e w bs) := by
  unfold agentWrite
  try dsimp only
  with_reducible repeat' first | assumption | apply keptAct_trap | apply kept_homeWrite | apply kept_logWrite | apply kept_wakeWords | apply kept_reload | apply kept_disturb | split | intro _ _ _ | intro _ _ | intro _
theorem kept_groupWrite (s : State) (g : Nat) (n : MemName) (a : Nat) (bs : List Byte) (h0 : Kept q0 c0 s) : Kept q0 c0 (groupWrite s g n a bs) := by
  unfold groupWrite
  with_reducible repeat' first | assumption | apply kept_agentWrite
theorem kept_copyWrite (s : State) (blk seq g : Nat) (n : MemName) (a : Nat) (bs : List Byte) (h0 : Kept q0 c0 s) : Kept q0 c0 (copyWrite s blk seq g n a bs) := by
  unfold copyWrite
  with_reducible repeat' first | assumption | apply kept_agentWrite
theorem kept_openLoads (s0 s : State) (es : List (Reg × Nat × MemName × Nat × Nat)) (h0 : Kept q0 c0 s0) (h1 : Kept q0 c0 s) : Kept q0 c0 (openLoads s0 s es) := by
  unfold openLoads
  try dsimp only
  with_reducible repeat' first | assumption | apply keptAct_trap | apply kept_setCg | (simp only [kept_mk]; first | apply kept_parts | apply kept_parts_pkg) | apply keptAct_done | exact keptAct_trap | apply keptAct_trapIn | apply keptAct_wait | split | intro _ _ _ | intro _ _ | intro _
theorem kept_storeBytes (s : State) (n : MemName) (a : Nat) (bs : List Byte) (h0 : Kept q0 c0 s) : Kept q0 c0 (storeBytes s n a bs) := by
  unfold storeBytes
  try dsimp only
  with_reducible repeat' first | assumption | apply keptAct_trap | apply kept_setCg | (simp only [kept_mk]; first | apply kept_parts | apply kept_parts_pkg) | split | intro _ _ _ | intro _ _ | intro _
theorem kept_tellPeekers (s : State) (p : PendStore) (h0 : Kept q0 c0 s) : Kept q0 c0 (tellPeekers s p) := by
  unfold tellPeekers
  try dsimp only
  with_reducible repeat' first | assumption | apply keptAct_trap | apply kept_setGrp | apply kept_foldl | apply keptAct_done | exact keptAct_trap | apply keptAct_trapIn | apply keptAct_wait | split | intro _ _ _ | intro _ _ | intro _
theorem kept_performAll (g : Nat) (a0 : State) (a1 : List PendStore) (h0 : Kept q0 c0 a0) : Kept q0 c0 (performAll g a0 a1) := by
  fun_induction performAll g a0 a1 <;> (with_reducible repeat' first | apply kept_tellPeekers | apply kept_groupWrite | apply_assumption)
theorem kept_performSome (a0 : Nat) (a1 : State) (a2 : Nat) (a3 : (PendStore → Bool)) (h0 : Kept q0 c0 a1) : Kept q0 c0 (performSome a0 a1 a2 a3) := by
  fun_induction performSome a0 a1 a2 a3 <;> (try dsimp only) <;> (with_reducible repeat' first | assumption | apply keptAct_trap | apply kept_performAll | apply kept_setGrp | (simp only [kept_mk]; first | apply kept_parts | apply kept_parts_pkg) | apply kept_foldl | apply keptAct_done | exact keptAct_trap | apply keptAct_trapIn | apply keptAct_wait | apply_assumption | (refine kept_fst ?_ ‹_ = (_, _)›; apply_assumption) | split | intro _ _ _ | intro _ _ | intro _)
theorem kept_performOf (s : State) (g : Nat) (sel : PendStore → Bool) (h0 : Kept q0 c0 s) : Kept q0 c0 (performOf s g sel) := by
  unfold performOf
  try dsimp only
  with_reducible repeat' first | assumption | apply keptAct_trap | apply kept_performSome | split | intro _ _ _ | intro _ _ | intro _
theorem kept_performMates (s : State) (g : Nat) (sel : PendStore → Bool) (h0 : Kept q0 c0 s) : Kept q0 c0 (performMates s g sel) := by
  unfold performMates
  try dsimp only
  with_reducible repeat' first | assumption | apply keptAct_trap | apply kept_performOf | apply kept_foldl | apply keptAct_done | exact keptAct_trap | apply keptAct_trapIn | apply keptAct_wait | split | intro _ _ _ | intro _ _ | intro _
theorem kept_performBefore (s : State) (g : Nat) (n : MemName) (a len : Nat) (h0 : Kept q0 c0 s) : Kept q0 c0 (performBefore s g n a len) := by
  unfold performBefore
  try dsimp only
  with_reducible repeat' first | assumption | apply keptAct_trap | apply kept_performOf | apply kept_performMates | split | intro _ _ _ | intro _ _ | intro _
theorem kept_performStores (s : State) (g : Nat) (h0 : Kept q0 c0 s) : Kept q0 c0 (performStores s g) := by
  unfold performStores
  try dsimp only
  with_reducible repeat' first | assumption | apply keptAct_trap | apply kept_performOf | apply kept_performMates | apply keptAct_done | exact keptAct_trap | apply keptAct_trapIn | apply keptAct_wait | split | intro _ _ _ | intro _ _ | intro _
theorem kept_addRelease (s : State) (g : Nat) (more : View) (r : Release) (h0 : Kept q0 c0 s) : Kept q0 c0 (addRelease s g more r) := by
  unfold addRelease
  try dsimp only
  with_reducible repeat' first | assumption | apply keptAct_trap | (simp only [kept_mk]; first | apply kept_parts | apply kept_parts_pkg) | split | intro _ _ _ | intro _ _ | intro _
theorem kept_recordRelease (s : State) (g scope why : Nat) (h0 : Kept q0 c0 s) : Kept q0 c0 (recordRelease s g scope why) := by
  unfold recordRelease
  try dsimp only
  with_reducible repeat' first | assumption | apply keptAct_trap | apply kept_addRelease | split | intro _ _ _ | intro _ _ | intro _
theorem kept_releaseGrp (s : State) (g scope : Nat) (h0 : Kept q0 c0 s) : Kept q0 c0 (releaseGrp s g scope) := by
  unfold releaseGrp
  with_reducible repeat' first | assumption | apply kept_recordRelease | apply kept_performStores | split
theorem kept_release (s : State) (scope : Nat) (h0 : Kept q0 c0 s) : Kept q0 c0 (release s scope) := by
  unfold release
  with_reducible repeat' first | assumption | apply kept_releaseGrp
theorem kept_seeView (s : State) (g : Nat) (w : View) (h0 : Kept q0 c0 s) : Kept q0 c0 (seeView s g w) := by
  unfold seeView
  try dsimp only
  with_reducible repeat' first | assumption | apply keptAct_trap | apply kept_setGrp | (simp only [kept_mk]; first | apply kept_parts | apply kept_parts_pkg) | split | intro _ _ _ | intro _ _ | intro _
theorem kept_seePort (s : State) (g : Nat) (saw : List Nat) (h0 : Kept q0 c0 s) : Kept q0 c0 (seePort s g saw) := by
  unfold seePort
  try dsimp only
  with_reducible repeat' first | assumption | apply keptAct_trap | apply kept_setGrp | (simp only [kept_mk]; first | apply kept_parts | apply kept_parts_pkg) | split | intro _ _ _ | intro _ _ | intro _
theorem kept_seeCopies (s : State) (g : Nat) (p : Nat → Bool) (h0 : Kept q0 c0 s) : Kept q0 c0 (seeCopies s g p) := h0
theorem kept_acquireGrp (s : State) (g scope : Nat) (all : Bool) (h0 : Kept q0 c0 s) : Kept q0 c0 (acquireGrp s g scope all) := by
  unfold acquireGrp
  try dsimp only
  with_reducible repeat' first | assumption | apply keptAct_trap | apply kept_performOf | apply kept_performMates | apply kept_setGrp | (simp only [kept_mk]; first | apply kept_parts | apply kept_parts_pkg) | apply kept_foldl | apply keptAct_done | exact keptAct_trap | apply keptAct_trapIn | apply keptAct_wait | split | intro _ _ _ | intro _ _ | intro _
theorem kept_acquire (s : State) (scope : Nat) (h0 : Kept q0 c0 s) : Kept q0 c0 (acquire s scope) := by
  unfold acquire
  with_reducible repeat' first | assumption | apply kept_acquireGrp
theorem kept_pageWrite (s : State) (ctx off n x : Nat) (h0 : Kept q0 c0 s) : Kept q0 c0 (pageWrite s ctx off n x) := by
  unfold pageWrite
  with_reducible repeat' first | assumption | apply kept_vaWrite
theorem kept_setQueue (s : State) (ctx q : Nat) (x : Queue) (h0 : Kept q0 c0 s) : Kept q0 c0 (setQueue s ctx q x) := h0
theorem kept_setHring (s : State) (ctx j : Nat) (x : HRing) (h0 : Kept q0 c0 s) : Kept q0 c0 (setHring s ctx j x) := h0
theorem kept_spoilTrace (s : State) (k : Nat) (h0 : Kept q0 c0 s) : Kept q0 c0 (spoilTrace s k) := by
  unfold spoilTrace
  try dsimp only
  with_reducible repeat' first | assumption | apply keptAct_trap | apply kept_setFresh | apply kept_vaWrite | (simp only [kept_mk]; first | apply kept_parts | apply kept_parts_pkg) | apply keptAct_done | exact keptAct_trap | apply keptAct_trapIn | apply keptAct_wait | split | intro _ _ _ | intro _ _ | intro _
theorem kept_traceAppend (s : State) (k kind rank thread index item : Nat) (h0 : Kept q0 c0 s) : Kept q0 c0 (traceAppend s k kind rank thread index item) := by
  unfold traceAppend
  try dsimp only
  with_reducible repeat' first | assumption | apply keptAct_trap | apply kept_spoilTrace | apply kept_vaWrite | split | intro _ _ _ | intro _ _ | intro _
theorem kept_setDiverged (s : State) (k key : Nat) (h0 : Kept q0 c0 s) : Kept q0 c0 (setDiverged s k key) := by
  unfold setDiverged
  with_reducible repeat' first | assumption | apply kept_setKern | apply kept_vaWrite
theorem kept_waitFor (s : State) (w : Wait) (k : State → Act) (h0 : Kept q0 c0 s) (f0 : ∀ y0, Kept q0 c0 y0 → KeptAct q0 c0 (k y0)) : KeptAct q0 c0 (waitFor s w k) := by
  unfold waitFor
  with_reducible repeat' first | assumption | apply keptAct_wait | apply f0 | split
theorem kept_postSubmit (s : State) (l : Launcher) (i prio seq : Nat) (h0 : Kept q0 c0 s) : Kept q0 c0 (postSubmit s l i prio seq) := by
  unfold postSubmit
  with_reducible repeat' first | assumption | apply kept_postEvent | apply kept_setHall
theorem kept_ringSignal (s : State) (ctx j : Nat) (h0 : Kept q0 c0 s) : Kept q0 c0 (ringSignal s ctx j) := h0
theorem kept_ringWrite (s : State) (ctx j : Nat) (ws : List Word) (h0 : Kept q0 c0 s) : Kept q0 c0 (ringWrite s ctx j ws) := by
  unfold ringWrite
  try dsimp only
  with_reducible repeat' first | assumption | apply kept_vaWrite | apply kept_pageWrite | apply kept_setHring | apply kept_ringSignal | split
theorem kept_ringFlush (s : State) (ctx j : Nat) (h0 : Kept q0 c0 s) : Kept q0 c0 (ringFlush s ctx j) := by
  unfold ringFlush
  with_reducible repeat' first | assumption | apply kept_ringSignal | split
theorem kept_tryRecord (s : State) (ctx j : Nat) (ws : List Word) (h0 : Kept q0 c0 s) : ∀ t, tryRecord s ctx j ws = some t → Kept q0 c0 t := by
  unfold tryRecord
  with_reducible repeat' first | assumption | apply kept_ringWrite | refine kept_of_some ?_ ‹some _ = some _› | exact kept_of_none ‹none = some _› | split | intro _ _
theorem kept_laneOut (s : State) (d : BitVec 7) (f : Nat → Word) (h0 : Kept q0 c0 s) : KeptAct q0 c0 (laneOut s d f) := h0
theorem kept_uniOut (s : State) (d : BitVec 7) (w : Word) (h0 : Kept q0 c0 s) : KeptAct q0 c0 (uniOut s d w) := h0
theorem kept_predOut (s : State) (p : BitVec 3) (val : Mask) (h0 : Kept q0 c0 s) : KeptAct q0 c0 (predOut s p val) := by
  unfold predOut
  with_reducible repeat' first | assumption | apply kept_wp | apply keptAct_done
theorem kept_execMov (st : BitVec 2) (d : BitVec 7) (b : BitVec 7) (c : BitVec 1) (s : State) (h0 : Kept q0 c0 s) : KeptOut q0 c0 (execMov st d b c s) := by
  unfold execMov
  with_reducible repeat' first | assumption | apply kept_issue | apply kept_laneOut | intro _ _
theorem kept_execLimm (st : BitVec 2) (d : BitVec 7) (i : BitVec 15) (s : State) (h0 : Kept q0 c0 s) : KeptOut q0 c0 (execLimm st d i s) := by
  unfold execLimm
  with_reducible repeat' first | assumption | apply kept_issue | apply kept_laneOut | intro _ _
theorem kept_execLimmh (st : BitVec 2) (d : BitVec 7) (i : BitVec 15) (s : State) (h0 : Kept q0 c0 s) : KeptOut q0 c0 (execLimmh st d i s) := by
  unfold execLimmh
  with_reducible repeat' first | assumption | apply kept_issue | apply kept_laneOut | intro _ _
theorem kept_execIadd (st : BitVec 2) (d : BitVec 7) (a : BitVec 7) (b : BitVec 7) (c : BitVec 1) (s : State) (h0 : Kept q0 c0 s) : KeptOut q0 c0 (execIadd st d a b c s) := by
  unfold execIadd
  with_reducible repeat' first | assumption | apply kept_issue | apply kept_laneOut | intro _ _
theorem kept_execIsub (st : BitVec 2) (d : BitVec 7) (a : BitVec 7) (b : BitVec 7) (c : BitVec 1) (s : State) (h0 : Kept q0 c0 s) : KeptOut q0 c0 (execIsub st d a b c s) := by
  unfold execIsub
  with_reducible repeat' first | assumption | apply kept_issue | apply kept_laneOut | intro _ _
theorem kept_execIaddi (st : BitVec 2) (d : BitVec 7) (a : BitVec 7) (i : BitVec 8) (s : State) (h0 : Kept q0 c0 s) : KeptOut q0 c0 (execIaddi st d a i s) := by
  unfold execIaddi
  with_reducible repeat' first | assumption | apply kept_issue | apply kept_laneOut | intro _ _
theorem kept_execIadd64 (st : BitVec 2) (d : BitVec 7) (a : BitVec 7) (b : BitVec 7) (c : BitVec 1) (s : State) (h0 : Kept q0 c0 s) : KeptOut q0 c0 (execIadd64 st d a b c s) := by
  unfold execIadd64
  with_reducible repeat' first | assumption | apply kept_issue | apply kept_wv | apply keptAct_done | intro _ _
theorem kept_execImul (st : BitVec 2) (d : BitVec 7) (a : BitVec 7) (b : BitVec 7) (c : BitVec 1) (s : State) (h0 : Kept q0 c0 s) : KeptOut q0 c0 (execImul st d a b c s) := by
  unfold execImul
  with_reducible repeat' first | assumption | apply kept_issue | apply kept_laneOut | intro _ _
theorem kept_execImulhi (st : BitVec 2) (d : BitVec 7) (a : BitVec 7) (b : BitVec 7) (c : BitVec 1) (s : State) (h0 : Kept q0 c0 s) : KeptOut q0 c0 (execImulhi st d a b c s) := by
  unfold execImulhi
  with_reducible repeat' first | assumption | apply kept_issue | apply kept_laneOut | intro _ _
theorem kept_execImulhu (st : BitVec 2) (d : BitVec 7) (a : BitVec 7) (b : BitVec 7) (c : BitVec 1) (s : State) (h0 : Kept q0 c0 s) : KeptOut q0 c0 (execImulhu st d a b c s) := by
  unfold execImulhu
  with_reducible repeat' first | assumption | apply kept_issue | apply kept_laneOut | intro _ _
theorem kept_execImad (st : BitVec 2) (d : BitVec 7) (a : BitVec 7) (b : BitVec 7) (c : BitVec 1) (s : State) (h0 : Kept q0 c0 s) : KeptOut q0 c0 (execImad st d a b c s) := by
  unfold execImad
  with_reducible repeat' first | assumption | apply kept_issue | apply kept_laneOut | intro _ _
theorem kept_execImin (st : BitVec 2) (d : BitVec 7) (a : BitVec 7) (b : BitVec 7) (c : BitVec 1) (s : State) (h0 : Kept q0 c0 s) : KeptOut q0 c0 (execImin st d a b c s) := by
  unfold execImin
  with_reducible repeat' first | assumption | apply kept_issue | apply kept_laneOut | intro _ _
theorem kept_execImax (st : BitVec 2) (d : BitVec 7) (a : BitVec 7) (b : BitVec 7) (c : BitVec 1) (s : State) (h0 : Kept q0 c0 s) : KeptOut q0 c0 (execImax st d a b c s) := by
  unfold execImax
  with_reducible repeat' first | assumption | apply kept_issue | apply kept_laneOut | intro _ _
theorem kept_execIminu (st : BitVec 2) (d : BitVec 7) (a : BitVec 7) (b : BitVec 7) (c : BitVec 1) (s : State) (h0 : Kept q0 c0 s) : KeptOut q0 c0 (execIminu st d a b c s) := by
  unfold execIminu
  with_reducible repeat' first | assumption | apply kept_issue | apply kept_laneOut | intro _ _
theorem kept_execImaxu (st : BitVec 2) (d : BitVec 7) (a : BitVec 7) (b : BitVec 7) (c : BitVec 1) (s : State) (h0 : Kept q0 c0 s) : KeptOut q0 c0 (execImaxu st d a b c s) := by
  unfold execImaxu
  with_reducible repeat' first | assumption | apply kept_issue | apply kept_laneOut | intro _ _
theorem kept_execIabs (st : BitVec 2) (d : BitVec 7) (a : BitVec 7) (s : State) (h0 : Kept q0 c0 s) : KeptOut q0 c0 (execIabs st d a s) := by
  unfold execIabs
  with_reducible repeat' first | assumption | apply kept_issue | apply kept_laneOut | intro _ _
theorem kept_execIneg (st : BitVec 2) (d : BitVec 7) (a : BitVec 7) (s : State) (h0 : Kept q0 c0 s) : KeptOut q0 c0 (execIneg st d a s) := by
  unfold execIneg
  with_reducible repeat' first | assumption | apply kept_issue | apply kept_laneOut | intro _ _
theorem kept_execAnd (st : BitVec 2) (d : BitVec 7) (a : BitVec 7) (b : BitVec 7) (c : BitVec 1) (s : State) (h0 : Kept q0 c0 s) : KeptOut q0 c0 (execAnd st d a b c s) := by
  unfold execAnd
  with_reducible repeat' first | assumption | apply kept_issue | apply kept_laneOut | intro _ _
theorem kept_execOr (st : BitVec 2) (d : BitVec 7) (a : BitVec 7) (b : BitVec 7) (c : BitVec 1) (s : State) (h0 : Kept q0 c0 s) : KeptOut q0 c0 (execOr st d a b c s) := by
  unfold execOr
  with_reducible repeat' first | assumption | apply kept_issue | apply kept_laneOut | intro _ _
theorem kept_execXor (st : BitVec 2) (d : BitVec 7) (a : BitVec 7) (b : BitVec 7) (c : BitVec 1) (s : State) (h0 : Kept q0 c0 s) : KeptOut q0 c0 (execXor st d a b c s) := by
  unfold execXor
  with_reducible repeat' first | assumption | apply kept_issue | apply kept_laneOut | intro _ _
theorem kept_execAndn (st : BitVec 2) (d : BitVec 7) (a : BitVec 7) (b : BitVec 7) (c : BitVec 1) (s : State) (h0 : Kept q0 c0 s) : KeptOut q0 c0 (execAndn st d a b c s) := by
  unfold execAndn
  with_reducible repeat' first | assumption | apply kept_issue | apply kept_laneOut | intro _ _
theorem kept_execNot (st : BitVec 2) (d : BitVec 7) (a : BitVec 7) (s : State) (h0 : Kept q0 c0 s) : KeptOut q0 c0 (execNot st d a s) := by
  unfold execNot
  with_reducible repeat' first | assumption | apply kept_issue | apply kept_laneOut | intro _ _
theorem kept_execShl (st : BitVec 2) (d : BitVec 7) (a : BitVec 7) (b : BitVec 7) (c : BitVec 1) (s : State) (h0 : Kept q0 c0 s) : KeptOut q0 c0 (execShl st d a b c s) := by
  unfold execShl
  with_reducible repeat' first | assumption | apply kept_issue | apply kept_laneOut | intro _ _
theorem kept_execShr (st : BitVec 2) (d : BitVec 7) (a : BitVec 7) (b : BitVec 7) (c : BitVec 1) (s : State) (h0 : Kept q0 c0 s) : KeptOut q0 c0 (execShr st d a b c s) := by
  unfold execShr
  with_reducible repeat' first | assumption | apply kept_issue | apply kept_laneOut | intro _ _
theorem kept_execSar (st : BitVec 2) (d : BitVec 7) (a : BitVec 7) (b : BitVec 7) (c : BitVec 1) (s : State) (h0 : Kept q0 c0 s) : KeptOut q0 c0 (execSar st d a b c s) := by
  unfold execSar
  with_reducible repeat' first | assumption | apply kept_issue | apply kept_laneOut | intro _ _
theorem kept_execShli (st : BitVec 2) (d : BitVec 7) (a : BitVec 7) (i : BitVec 8) (s : State) (h0 : Kept q0 c0 s) : KeptOut q0 c0 (execShli st d a i s) := by
  unfold execShli
  with_reducible repeat' first | assumption | apply kept_issue | apply kept_laneOut | intro _ _
theorem kept_execShri (st : BitVec 2) (d : BitVec 7) (a : BitVec 7) (i : BitVec 8) (s : State) (h0 : Kept q0 c0 s) : KeptOut q0 c0 (execShri st d a i s) := by
  unfold execShri
  with_reducible repeat' first | assumption | apply kept_issue | apply kept_laneOut | intro _ _
theorem kept_execSari (st : BitVec 2) (d : BitVec 7) (a : BitVec 7) (i : BitVec 8) (s : State) (h0 : Kept q0 c0 s) : KeptOut q0 c0 (execSari st d a i s) := by
  unfold execSari
  with_reducible repeat' first | assumption | apply kept_issue | apply kept_laneOut | intro _ _
theorem kept_execPopc (st : BitVec 2) (d : BitVec 7) (a : BitVec 7) (s : State) (h0 : Kept q0 c0 s) : KeptOut q0 c0 (execPopc st d a s) := by
  unfold execPopc
  with_reducible repeat' first | assumption | apply kept_issue | apply kept_laneOut | intro _ _
theorem kept_execClz (st : BitVec 2) (d : BitVec 7) (a : BitVec 7) (s : State) (h0 : Kept q0 c0 s) : KeptOut q0 c0 (execClz st d a s) := by
  unfold execClz
  with_reducible repeat' first | assumption | apply kept_issue | apply kept_laneOut | intro _ _
theorem kept_execBrev (st : BitVec 2) (d : BitVec 7) (a : BitVec 7) (s : State) (h0 : Kept q0 c0 s) : KeptOut q0 c0 (execBrev st d a s) := by
  unfold execBrev
  with_reducible repeat' first | assumption | apply kept_issue | apply kept_laneOut | intro _ _
theorem kept_execBfe (st : BitVec 2) (d : BitVec 7) (a : BitVec 7) (b : BitVec 7) (c : BitVec 1) (s : State) (h0 : Kept q0 c0 s) : KeptOut q0 c0 (execBfe st d a b c s) := by
  unfold execBfe
  with_reducible repeat' first | assumption | apply kept_issue | apply kept_laneOut | intro _ _
theorem kept_execBfi (st : BitVec 2) (d : BitVec 7) (a : BitVec 7) (b : BitVec 7) (c : BitVec 1) (s : State) (h0 : Kept q0 c0 s) : KeptOut q0 c0 (execBfi st d a b c s) := by
  unfold execBfi
  with_reducible repeat' first | assumption | apply kept_issue | apply kept_laneOut | intro _ _
theorem kept_execIcmp (st : BitVec 2) (p : BitVec 3) (c : BitVec 4) (a : BitVec 7) (b : BitVec 7) (u : BitVec 1) (s : State) (h0 : Kept q0 c0 s) : KeptOut q0 c0 (execIcmp st p c a b u s) := by
  unfold execIcmp
  with_reducible repeat' first | assumption | apply kept_issue | apply kept_predOut | intro _ _
theorem kept_execSel (st : BitVec 2) (d : BitVec 7) (a : BitVec 7) (n : BitVec 1) (p : BitVec 3) (s : State) (h0 : Kept q0 c0 s) : KeptOut q0 c0 (execSel st d a n p s) := by
  unfold execSel
  with_reducible repeat' first | assumption | apply kept_issue | apply kept_wv | apply keptAct_done | intro _ _
theorem kept_execPlut (st : BitVec 2) (d : BitVec 3) (t : BitVec 4) (a : BitVec 3) (b : BitVec 3) (s : State) (h0 : Kept q0 c0 s) : KeptOut q0 c0 (execPlut st d t a b s) := by
  unfold execPlut
  with_reducible repeat' first | assumption | apply kept_issue | apply kept_predOut | intro _ _
theorem kept_execSmov (st : BitVec 2) (d : BitVec 7) (b : BitVec 7) (s : State) (h0 : Kept q0 c0 s) : KeptOut q0 c0 (execSmov st d b s) := by
  unfold execSmov
  with_reducible repeat' first | assumption | apply kept_issue | apply kept_uniOut | intro _ _
theorem kept_execSlimm (st : BitVec 2) (d : BitVec 7) (i : BitVec 15) (s : State) (h0 : Kept q0 c0 s) : KeptOut q0 c0 (execSlimm st d i s) := by
  unfold execSlimm
  with_reducible repeat' first | assumption | apply kept_issue | apply kept_uniOut | intro _ _
theorem kept_execSlimmh (st : BitVec 2) (d : BitVec 7) (i : BitVec 15) (s : State) (h0 : Kept q0 c0 s) : KeptOut q0 c0 (execSlimmh st d i s) := by
  unfold execSlimmh
  with_reducible repeat' first | assumption | apply kept_issue | apply kept_uniOut | intro _ _
theorem kept_execSadd (st : BitVec 2) (d : BitVec 7) (a : BitVec 7) (b : BitVec 7) (s : State) (h0 : Kept q0 c0 s) : KeptOut q0 c0 (execSadd st d a b s) := by
  unfold execSadd
  with_reducible repeat' first | assumption | apply kept_issue | apply kept_uniOut | intro _ _
theorem kept_execSsub (st : BitVec 2) (d : BitVec 7) (a : BitVec 7) (b : BitVec 7) (s : State) (h0 : Kept q0 c0 s) : KeptOut q0 c0 (execSsub st d a b s) := by
  unfold execSsub
  with_reducible repeat' first | assumption | apply kept_issue | apply kept_uniOut | intro _ _
theorem kept_execSaddi (st : BitVec 2) (d : BitVec 7) (a : BitVec 7) (i : BitVec 8) (s : State) (h0 : Kept q0 c0 s) : KeptOut q0 c0 (execSaddi st d a i s) := by
  unfold execSaddi
  with_reducible repeat' first | assumption | apply kept_issue | apply kept_uniOut | intro _ _
theorem kept_execSmul (st : BitVec 2) (d : BitVec 7) (a : BitVec 7) (b : BitVec 7) (s : State) (h0 : Kept q0 c0 s) : KeptOut q0 c0 (execSmul st d a b s) := by
  unfold execSmul
  with_reducible repeat' first | assumption | apply kept_issue | apply kept_uniOut | intro _ _
theorem kept_execSmulhi (st : BitVec 2) (d : BitVec 7) (a : BitVec 7) (b : BitVec 7) (u : BitVec 1) (s : State) (h0 : Kept q0 c0 s) : KeptOut q0 c0 (execSmulhi st d a b u s) := by
  unfold execSmulhi
  with_reducible repeat' first | assumption | apply kept_issue | apply kept_uniOut | intro _ _
theorem kept_execSand (st : BitVec 2) (d : BitVec 7) (a : BitVec 7) (b : BitVec 7) (s : State) (h0 : Kept q0 c0 s) : KeptOut q0 c0 (execSand st d a b s) := by
  unfold execSand
  with_reducible repeat' first | assumption | apply kept_issue | apply kept_uniOut | intro _ _
theorem kept_execSor (st : BitVec 2) (d : BitVec 7) (a : BitVec 7) (b : BitVec 7) (s : State) (h0 : Kept q0 c0 s) : KeptOut q0 c0 (execSor st d a b s) := by
  unfold execSor
  with_reducible repeat' first | assumption | apply kept_issue | apply kept_uniOut | intro _ _
theorem kept_execSxor (st : BitVec 2) (d : BitVec 7) (a : BitVec 7) (b : BitVec 7) (s : State) (h0 : Kept q0 c0 s) : KeptOut q0 c0 (execSxor st d a b s) := by
  unfold execSxor
  with_reducible repeat' first | assumption | apply kept_issue | apply kept_uniOut | intro _ _
theorem kept_execSshl (st : BitVec 2) (d : BitVec 7) (a : BitVec 7) (b : BitVec 7) (s : State) (h0 : Kept q0 c0 s) : KeptOut q0 c0 (execSshl st d a b s) := by
  unfold execSshl
  with_reducible repeat' first | assumption | apply kept_issue | apply kept_uniOut | intro _ _
theorem kept_execSshr (st : BitVec 2) (d : BitVec 7) (a : BitVec 7) (b : BitVec 7) (s : State) (h0 : Kept q0 c0 s) : KeptOut q0 c0 (execSshr st d a b s) := by
  unfold execSshr
  with_reducible repeat' first | assumption | apply kept_issue | apply kept_uniOut | intro _ _
theorem kept_execSsar (st : BitVec 2) (d : BitVec 7) (a : BitVec 7) (b : BitVec 7) (s : State) (h0 : Kept q0 c0 s) : KeptOut q0 c0 (execSsar st d a b s) := by
  unfold execSsar
  with_reducible repeat' first | assumption | apply kept_issue | apply kept_uniOut | intro _ _
theorem kept_execSshli (st : BitVec 2) (d : BitVec 7) (a : BitVec 7) (i : BitVec 8) (s : State) (h0 : Kept q0 c0 s) : KeptOut q0 c0 (execSshli st d a i s) := by
  unfold execSshli
  with_reducible repeat' first | assumption | apply kept_issue | apply kept_uniOut | intro _ _
theorem kept_execSshri (st : BitVec 2) (d : BitVec 7) (a : BitVec 7) (i : BitVec 8) (s : State) (h0 : Kept q0 c0 s) : KeptOut q0 c0 (execSshri st d a i s) := by
  unfold execSshri
  with_reducible repeat' first | assumption | apply kept_issue | apply kept_uniOut | intro _ _
theorem kept_execSmin (st : BitVec 2) (d : BitVec 7) (a : BitVec 7) (b : BitVec 7) (u : BitVec 1) (s : State) (h0 : Kept q0 c0 s) : KeptOut q0 c0 (execSmin st d a b u s) := by
  unfold execSmin
  with_reducible repeat' first | assumption | apply kept_issue | apply kept_uniOut | intro _ _
theorem kept_execSmax (st : BitVec 2) (d : BitVec 7) (a : BitVec 7) (b : BitVec 7) (u : BitVec 1) (s : State) (h0 : Kept q0 c0 s) : KeptOut q0 c0 (execSmax st d a b u s) := by
  unfold execSmax
  with_reducible repeat' first | assumption | apply kept_issue | apply kept_uniOut | intro _ _
theorem kept_execSpopc (st : BitVec 2) (d : BitVec 7) (a : BitVec 7) (s : State) (h0 : Kept q0 c0 s) : KeptOut q0 c0 (execSpopc st d a s) := by
  unfold execSpopc
  with_reducible repeat' first | assumption | apply kept_issue | apply kept_uniOut | intro _ _
theorem kept_execSclz (st : BitVec 2) (d : BitVec 7) (a : BitVec 7) (s : State) (h0 : Kept q0 c0 s) : KeptOut q0 c0 (execSclz st d a s) := by
  unfold execSclz
  with_reducible repeat' first | assumption | apply kept_issue | apply kept_uniOut | intro _ _
theorem kept_execSadd64 (st : BitVec 2) (d : BitVec 7) (a : BitVec 7) (b : BitVec 7) (s : State) (h0 : Kept q0 c0 s) : KeptOut q0 c0 (execSadd64 st d a b s) := by
  unfold execSadd64
  with_reducible repeat' first | assumption | apply kept_issue | apply kept_ws | apply keptAct_done | intro _ _
theorem kept_execScmp (st : BitVec 2) (p : BitVec 3) (c : BitVec 4) (a : BitVec 7) (b : BitVec 7) (s : State) (h0 : Kept q0 c0 s) : KeptOut q0 c0 (execScmp st p c a b s) := by
  unfold execScmp
  with_reducible repeat' first | assumption | apply kept_issue | apply kept_predOut | intro _ _
theorem kept_execSsel (st : BitVec 2) (d : BitVec 7) (a : BitVec 7) (p : BitVec 3) (n : BitVec 1) (s : State) (h0 : Kept q0 c0 s) : KeptOut q0 c0 (execSsel st d a p n s) := by
  unfold execSsel
  with_reducible repeat' first | assumption | apply kept_issue | apply kept_ws | apply keptAct_done | split | intro _ _
theorem kept_releaseFence (s : State) (scope : Nat) (h0 : Kept q0 c0 s) : Kept q0 c0 (releaseFence s scope) := by
  unfold releaseFence
  with_reducible repeat' first | assumption | apply kept_release | apply kept_setCb
theorem kept_releaseOnce (s : State) (scope : Nat) (h0 : Kept q0 c0 s) : Kept q0 c0 (releaseOnce s scope) := by
  unfold releaseOnce
  with_reducible repeat' first | assumption | apply kept_releaseFence | split
theorem kept_fenceRelease (s : State) (scope upto : Nat) (full : Bool) (h0 : Kept q0 c0 s) : Kept q0 c0 (fenceRelease s scope upto full) := by
  unfold fenceRelease
  try dsimp only
  with_reducible repeat' first | assumption | apply keptAct_trap | apply kept_addRelease | apply kept_performStores | apply kept_setCb | (simp only [kept_mk]; first | apply kept_parts | apply kept_parts_pkg) | split | intro _ _ _ | intro _ _ | intro _
theorem kept_fenceThen (s : State) (scope : Nat) (full : Bool) (k : State → Act) (h0 : Kept q0 c0 s) (f0 : ∀ y0, Kept q0 c0 y0 → KeptAct q0 c0 (k y0)) : KeptAct q0 c0 (fenceThen s scope full k) := by
  unfold fenceThen
  try dsimp only
  with_reducible repeat' first | assumption | apply keptAct_trap | apply kept_waitFor | apply kept_performStores | apply kept_fenceRelease | apply kept_setCb | (simp only [kept_mk]; first | apply kept_parts | apply kept_parts_pkg) | apply keptAct_done | exact keptAct_trap | apply keptAct_trapIn | apply keptAct_wait | apply f0 | split | intro _ _ _ | intro _ _ | intro _
theorem kept_execFence (st : BitVec 2) (c : BitVec 3) (k : BitVec 2) (s : State) (h0 : Kept q0 c0 s) : KeptOut q0 c0 (execFence st c k s) := by
  unfold execFence
  try dsimp only
  with_reducible repeat' first | assumption | apply keptAct_trap | apply kept_issue | apply kept_acquire | apply kept_fenceThen | apply kept_acquireGrp | apply keptOut_next | exact keptOut_fault | apply keptAct_done | exact keptAct_trap | apply keptAct_trapIn | apply keptAct_wait | split | intro _ _ _ | intro _ _ | intro _
theorem kept_execAckrd (st : BitVec 2) (d : BitVec 7) (s : State) (h0 : Kept q0 c0 s) : KeptOut q0 c0 (execAckrd st d s) := by
  unfold execAckrd
  with_reducible repeat' first | assumption | apply kept_issue | apply kept_uniOut | intro _ _
theorem kept_icinvCores (s : State) (scope : Nat) (lb : Bool) (h0 : Kept q0 c0 s) : Kept q0 c0 (icinvCores s scope lb) := h0
theorem kept_execIcinv (st : BitVec 2) (c : BitVec 3) (l : BitVec 1) (s : State) (h0 : Kept q0 c0 s) : KeptOut q0 c0 (execIcinv st c l s) := by
  unfold execIcinv
  try dsimp only
  with_reducible repeat' first | assumption | apply keptAct_trap | apply kept_issue | apply kept_fenceThen | apply kept_icinvCores | apply keptOut_next | exact keptOut_fault | apply keptAct_done | exact keptAct_trap | apply keptAct_trapIn | apply keptAct_wait | split | intro _ _ _ | intro _ _ | intro _
theorem kept_blankLog (s : State) (m : MemName) (a n : Nat) (h0 : Kept q0 c0 s) : Kept q0 c0 (blankLog s m a n) := by
  unfold blankLog
  with_reducible repeat' first | assumption | (simp only [kept_mk]; first | apply kept_parts | apply kept_parts_pkg) | split
theorem kept_wipeRange (s : State) (m : MemName) (a n : Nat) (h0 : Kept q0 c0 s) : Kept q0 c0 (wipeRange s m a n) := by
  exact kept_cleanPoison _ _ _ _ (kept_blankLog _ _ _ _ (kept_setMem h0 fun h => wf_zeroRange h a n))
theorem kept_wipeFrame (s : State) (f : Nat) (h0 : Kept q0 c0 s) : Kept q0 c0 (wipeFrame s f) := by
  unfold wipeFrame
  with_reducible repeat' first | assumption | apply kept_wipeRange
theorem kept_setLarder (s : State) (p : Nat) (l : List Nat) (h0 : Kept q0 c0 s) : Kept q0 c0 (setLarder s p l) := by
  unfold setLarder
  with_reducible repeat' first | assumption | apply kept_setPkg | exact fun hp => pkgFrom_same hp rfl rfl rfl rfl rfl rfl
theorem kept_takeFrame (s : State) (ctx p key use : Nat) (h0 : Kept q0 c0 s) : Kept q0 c0 (takeFrame s ctx p key use).2 := by
  unfold takeFrame
  with_reducible repeat' first | assumption | apply kept_setLarder | apply kept_wipeFrame | apply kept_setFresh | apply kept_setCtx | apply kept_setOwn
theorem kept_returnFrame (s : State) (ctx f : Nat) (h0 : Kept q0 c0 s) : Kept q0 c0 (returnFrame s ctx f) := by
  unfold returnFrame
  with_reducible repeat' first | assumption | apply kept_setOwn | apply kept_wipeFrame | apply kept_setCtx | apply kept_setLarder
theorem kept_usePage (s : State) (ctx : Nat) (l : Leaf) (h0 : Kept q0 c0 s) : Kept q0 c0 (usePage s ctx l) := by
  unfold usePage
  with_reducible repeat' first | assumption | apply kept_dropTlb | apply kept_setOwn | apply kept_putLeaf | split
theorem kept_demoteRegs (s : State) (ctx page n : Nat) (h0 : Kept q0 c0 s) : Kept q0 c0 (demoteRegs s ctx page n) := by
  unfold demoteRegs
  try dsimp only
  with_reducible repeat' first | assumption | apply keptAct_trap | (simp only [kept_mk]; first | apply kept_parts | apply kept_parts_pkg) | apply keptAct_done | exact keptAct_trap | apply keptAct_trapIn | apply keptAct_wait | split | intro _ _ _ | intro _ _ | intro _
theorem kept_staleCopies (s : State) (ctx page n : Nat) (sel : Cmd → Bool) (h0 : Kept q0 c0 s) : Kept q0 c0 (staleCopies s ctx page n sel) := by
  unfold staleCopies
  try dsimp only
  with_reducible repeat' first | assumption | apply keptAct_trap | (simp only [kept_mk]; first | apply kept_parts | apply kept_parts_pkg) | apply keptAct_done | exact keptAct_trap | apply keptAct_trapIn | apply keptAct_wait | split | intro _ _ _ | intro _ _ | intro _
theorem kept_invalidate (s : State) (ctx page n : Nat) (h0 : Kept q0 c0 s) : Kept q0 c0 (invalidate s ctx page n) := by
  unfold invalidate
  try dsimp only
  with_reducible repeat' first | assumption | apply keptAct_trap | apply kept_staleCopies | apply kept_demoteRegs | apply kept_dropTlb | apply keptAct_done | exact keptAct_trap | apply keptAct_trapIn | apply keptAct_wait | split | intro _ _ _ | intro _ _ | intro _
theorem kept_invalidateAll (s : State) (ctx page n : Nat) (h0 : Kept q0 c0 s) : Kept q0 c0 (invalidateAll s ctx page n) := by
  unfold invalidateAll
  try dsimp only
  with_reducible repeat' first | assumption | apply keptAct_trap | apply kept_staleCopies | apply kept_invalidate | apply keptAct_done | exact keptAct_trap | apply keptAct_trapIn | apply keptAct_wait | split | intro _ _ _ | intro _ _ | intro _
theorem kept_dropBanks (s : State) (h0 : Kept q0 c0 s) : Kept q0 c0 (dropBanks s) := by
  unfold dropBanks
  try dsimp only
  with_reducible repeat' first | assumption | apply keptAct_trap | (simp only [kept_mk]; first | apply kept_parts | apply kept_parts_pkg) | apply keptAct_done | exact keptAct_trap | apply keptAct_trapIn | apply keptAct_wait | split | intro _ _ _ | intro _ _ | intro _
theorem kept_removeBlock (s : State) (b : Nat) (h0 : Kept q0 c0 s) : Kept q0 c0 (removeBlock s b) := by
  unfold removeBlock
  with_reducible repeat' first | assumption | apply kept_setCtx | apply kept_setGang | apply kept_setLinks | apply kept_setKern | apply kept_dropBanks | apply kept_settleGrid | apply kept_settleGang | (simp only [kept_mk]; first | apply kept_parts | apply kept_parts_pkg) | split
theorem kept_removeAll (a0 : State) (a1 : List Nat) (h0 : Kept q0 c0 a0) : Kept q0 c0 (removeAll a0 a1) := by
  fun_induction removeAll a0 a1 <;> (with_reducible repeat' first | apply kept_removeBlock | apply_assumption)
theorem kept_retractPage (ctx : Nat) (s : State) (l : Leaf) (h0 : Kept q0 c0 s) : Kept q0 c0 (retractPage ctx s l) := by
  unfold retractPage
  try dsimp only
  with_reducible repeat' first | assumption | apply keptAct_trap | apply kept_putLeaf | apply kept_invalidateAll | apply kept_returnFrame | (simp only [kept_mk]; first | apply kept_parts | apply kept_parts_pkg) | split | intro _ _ _ | intro _ _ | intro _
theorem kept_squashBlock (s : State) (b : Nat) (h0 : Kept q0 c0 s) : Kept q0 c0 (squashBlock s b) := by
  unfold squashBlock
  try dsimp only
  with_reducible repeat' first | assumption | apply kept_removeBlock | apply kept_retractPage | apply kept_foldl | split
theorem kept_commitBlock (s : State) (b : Nat) (h0 : Kept q0 c0 s) : Kept q0 c0 (commitBlock s b) := by
  unfold commitBlock
  try dsimp only
  with_reducible repeat' first | assumption | apply kept_usePage | apply kept_setBlk | apply kept_fatalBlock | apply kept_foldl | split | intro _ _ _
theorem kept_completeCmd (s : State) (f status : Nat) (h0 : Kept q0 c0 s) : Kept q0 c0 (completeCmd s f status) := h0
theorem kept_beginTeardown (s : State) (ctx : Nat) (h0 : Kept q0 c0 s) : Kept q0 c0 (beginTeardown s ctx) := by
  unfold beginTeardown
  try dsimp only
  with_reducible repeat' first | assumption | apply keptAct_trap | apply kept_setCtx | apply kept_completeCmd | apply kept_removeAll | apply kept_setLinks | (simp only [kept_mk]; first | apply kept_parts | apply kept_parts_pkg) | apply keptAct_done | exact keptAct_trap | apply keptAct_trapIn | apply keptAct_wait | split | intro _ _ _ | intro _ _ | intro _
theorem kept_execXlate (st : BitVec 2) (a : BitVec 6) (m w r : BitVec 1) (x : BitVec 3) (s : State) (h0 : Kept q0 c0 s) : KeptOut q0 c0 (execXlate st a m w r x s) := by
  unfold execXlate
  try dsimp only
  with_reducible repeat' first | assumption | apply keptAct_trap | apply kept_issue | apply kept_wx | apply kept_tlbLook | apply kept_usePage | apply keptAct_done | apply keptAct_trapIn | split | intro _ _
theorem kept_execXrd (st : BitVec 2) (d : BitVec 5) (n : BitVec 3) (s : State) (h0 : Kept q0 c0 s) : KeptOut q0 c0 (execXrd st d n s) := by
  unfold execXrd
  with_reducible repeat' first | assumption | apply kept_issue | apply kept_wsList | apply keptAct_done | intro _ _
theorem kept_execXinv (st : BitVec 2) (m : BitVec 8) (s : State) (h0 : Kept q0 c0 s) : KeptOut q0 c0 (execXinv st m s) := by
  unfold execXinv
  with_reducible repeat' first | assumption | apply kept_issue | apply kept_wx | apply kept_foldl | apply keptAct_done | intro _ _
theorem kept_mapPage (s : State) (touch : Bool) (ctx part va : Nat) (spec : Bool) (owner : Nat × Nat) (h0 : Kept q0 c0 s) : Kept q0 c0 (mapPage s touch ctx part va spec owner).1 := by
  unfold mapPage
  try dsimp only
  with_reducible repeat' first | assumption | apply kept_takeFrame | apply kept_returnFrame | apply kept_homeWrite | apply kept_dropTlb | apply kept_putLeaf | split
theorem kept_failContext (s : State) (ctx part va : Nat) (h0 : Kept q0 c0 s) : Kept q0 c0 (failContext s ctx part va) := by
  unfold failContext
  try dsimp only
  with_reducible repeat' first | assumption | apply keptAct_trap | apply kept_routeRecord | apply kept_beginTeardown | (simp only [kept_mk]; first | apply kept_parts | apply kept_parts_pkg) | apply keptAct_done | exact keptAct_trap | apply keptAct_trapIn | apply keptAct_wait | split | intro _ _ _ | intro _ _ | intro _
theorem kept_execMapft (st o : BitVec 2) (a : BitVec 5) (s : State) (h0 : Kept q0 c0 s) : KeptOut q0 c0 (execMapft st o a s) := by
  unfold execMapft
  try dsimp only
  with_reducible repeat' first | assumption | apply keptAct_trap | apply kept_issue | apply kept_failContext | apply kept_mapPage | apply kept_storeBytes | apply keptAct_done | split | intro _ _
theorem kept_postFault (s : State) (p : Addr) (access info : Word) (h0 : Kept q0 c0 s) : Kept q0 c0 (postFault s p access info).1 := by
  unfold postFault
  try dsimp only
  with_reducible repeat' first | assumption | apply keptAct_trap | apply kept_setFaults | (simp only [kept_mk]; first | apply kept_parts | apply kept_parts_pkg) | split | intro _ _ _ | intro _ _ | intro _
theorem kept_execFqpost (st : BitVec 2) (a : BitVec 5) (s : State) (h0 : Kept q0 c0 s) : KeptOut q0 c0 (execFqpost st a s) := by
  unfold execFqpost
  try dsimp only
  with_reducible repeat' first | assumption | apply keptAct_trap | apply kept_issue | apply kept_waitFor | apply kept_postFault | apply keptAct_done | apply keptAct_wait | split | intro _ _
theorem kept_execFqtake (st : BitVec 2) (d : BitVec 4) (w : BitVec 1) (s : State) (h0 : Kept q0 c0 s) : KeptOut q0 c0 (execFqtake st d w s) := by
  unfold execFqtake
  try dsimp only
  with_reducible repeat' first | assumption | apply keptAct_trap | apply kept_issue | apply kept_setFaults | apply kept_wsList | apply kept_uniOut | apply keptAct_done | apply keptAct_wait | split | intro _ _
theorem kept_answerFaults (s : State) (ctx page n : Nat) (h0 : Kept q0 c0 s) : Kept q0 c0 (answerFaults s ctx page n) := h0
theorem kept_execTlbinv (st : BitVec 2) (a : BitVec 5) (s : State) (h0 : Kept q0 c0 s) : KeptOut q0 c0 (execTlbinv st a s) := by
  unfold execTlbinv
  try dsimp only
  with_reducible repeat' first | assumption | apply keptAct_trap | apply kept_issue | apply kept_invalidate | apply kept_waitFor | apply kept_answerFaults | apply kept_staleCopies | (simp only [kept_mk]; first | apply kept_parts | apply kept_parts_pkg) | apply keptOut_next | exact keptOut_fault | apply keptAct_done | exact keptAct_trap | apply keptAct_trapIn | apply keptAct_wait | split | intro _ _ _ | intro _ _ | intro _
theorem kept_holdEffect (s : State) (e : HeldEffect) (h0 : Kept q0 c0 s) : Kept q0 c0 (holdEffect s e) := h0
theorem kept_inTurn (s : State) (k : State → Act) (h0 : Kept q0 c0 s) (f0 : ∀ y0, Kept q0 c0 y0 → KeptAct q0 c0 (k y0)) : KeptAct q0 c0 (inTurn s k) := by
  unfold inTurn
  with_reducible repeat' first | assumption | apply kept_waitFor
theorem kept_pushQueue (s : State) (ctx q img : Nat) (h0 : Kept q0 c0 s) : Kept q0 c0 (pushQueue s ctx q img) := by
  unfold pushQueue
  with_reducible repeat' first | assumption | apply kept_vaWrite | apply kept_pageWrite | apply kept_setQueue
theorem kept_execQpush (st : BitVec 2) (a : BitVec 3) (q : BitVec 4) (s : State) (h0 : Kept q0 c0 s) : KeptOut q0 c0 (execQpush st a q s) := by
  unfold execQpush
  try dsimp only
  with_reducible repeat' first | assumption | apply keptAct_trap | apply kept_issue | apply kept_inTurn | apply kept_fenceThen | apply kept_holdEffect | apply kept_waitFor | apply kept_pushQueue | (simp only [kept_mk]; first | apply kept_parts | apply kept_parts_pkg) | apply keptOut_next | exact keptOut_fault | apply keptAct_done | exact keptAct_trap | apply keptAct_trapIn | apply keptAct_wait | split | intro _ _ _ | intro _ _ | intro _
theorem kept_queueRecord (s : State) (ctx : Nat) (r : WaitRec) (h0 : Kept q0 c0 s) : Kept q0 c0 (queueRecord s ctx r) := h0
theorem kept_launchChild (s : State) (k ctx img : Nat) (h0 : Kept q0 c0 s) : Kept q0 c0 (launchChild s k ctx img) := by
  unfold launchChild
  with_reducible repeat' first | assumption | apply kept_postSubmit | apply kept_queueRecord | split
theorem kept_execLaunch (st : BitVec 2) (a : BitVec 3) (s : State) (h0 : Kept q0 c0 s) : KeptOut q0 c0 (execLaunch st a s) := by
  unfold execLaunch
  try dsimp only
  with_reducible repeat' first | assumption | apply keptAct_trap | apply kept_issue | apply kept_inTurn | apply kept_fenceThen | apply kept_holdEffect | apply kept_waitFor | apply kept_launchChild | apply keptOut_next | exact keptOut_fault | apply keptAct_done | exact keptAct_trap | apply keptAct_trapIn | apply keptAct_wait | split | intro _ _ _ | intro _ _ | intro _
theorem kept_setGraph (s : State) (ctx m : Nat) (g : Graph) (h0 : Kept q0 c0 s) : Kept q0 c0 (setGraph s ctx m g) := h0
theorem kept_setCond (s : State) (ctx m c : Nat) (w : Word) (h0 : Kept q0 c0 s) : Kept q0 c0 (setCond s ctx m c w) := by
  unfold setCond
  with_reducible repeat' first | assumption | apply kept_pageWrite | apply kept_setGraph
theorem kept_armCond (s : State) (ctx slot c o : Nat) (w : Word) (h0 : Kept q0 c0 s) : Kept q0 c0 (armCond s ctx slot c o w) := by
  unfold armCond
  with_reducible repeat' first | assumption | apply kept_setCond
theorem kept_execArm (st o : BitVec 2) (a : BitVec 7) (t : BitVec 4) (c : BitVec 3) (s : State) (h0 : Kept q0 c0 s) : KeptOut q0 c0 (execArm st o a t c s) := by
  unfold execArm
  with_reducible repeat' first | assumption | apply kept_issue | apply kept_inTurn | apply kept_holdEffect | apply kept_armCond | apply keptAct_done | split | intro _ _
theorem kept_appendBatch (s : State) (ctx part : Nat) (x : Batch) (h0 : Kept q0 c0 s) : Kept q0 c0 (appendBatch s ctx part x) := h0
theorem kept_execHring (st : BitVec 2) (a : BitVec 5) (j : BitVec 4) (f n : BitVec 1) (s : State) (h0 : Kept q0 c0 s) : KeptOut q0 c0 (execHring st a j f n s) := by
  unfold execHring
  try dsimp only
  with_reducible repeat' first | assumption | apply keptAct_trap | apply kept_issue | apply kept_ws | apply kept_ringFlush | apply kept_inTurn | apply kept_fenceThen | apply kept_holdEffect | apply kept_waitFor | apply kept_ringWrite | (simp only [kept_mk]; first | apply kept_parts | apply kept_parts_pkg) | apply keptOut_next | exact keptOut_fault | apply keptAct_done | exact keptAct_trap | apply keptAct_trapIn | apply keptAct_wait | split | intro _ _ _ | intro _ _ | intro _
theorem kept_postResolve (s : State) (ctx : Nat) (image : Addr) (count param : Word) (h0 : Kept q0 c0 s) : Kept q0 c0 (postResolve s ctx image count param) := by
  unfold postResolve
  with_reducible repeat' first | assumption | apply kept_postEvent
theorem kept_shapeRelease (s : State) (g ctx : Nat) (image : Addr) (count param : Word) (h0 : Kept q0 c0 s) : Kept q0 c0 (shapeRelease s g ctx image count param) := by
  unfold shapeRelease
  try dsimp only
  with_reducible repeat' first | assumption | apply keptAct_trap | apply kept_addRelease | split | intro _ _ _ | intro _ _ | intro _
theorem kept_execShape (st : BitVec 2) (a : BitVec 5) (s : State) (h0 : Kept q0 c0 s) : KeptOut q0 c0 (execShape st a s) := by
  unfold execShape
  try dsimp only
  with_reducible repeat' first | assumption | apply keptAct_trap | apply kept_issue | apply kept_holdEffect | apply kept_inTurn | apply kept_fenceThen | apply kept_waitFor | apply kept_shapeRelease | apply kept_postResolve | apply keptOut_next | exact keptOut_fault | apply keptAct_done | exact keptAct_trap | apply keptAct_trapIn | apply keptAct_wait | split | intro _ _ _ | intro _ _ | intro _
theorem kept_execHpost (st : BitVec 2) (a : BitVec 3) (s : State) (h0 : Kept q0 c0 s) : KeptOut q0 c0 (execHpost st a s) := by
  unfold execHpost
  try dsimp only
  with_reducible repeat' first | assumption | apply keptAct_trap | apply kept_issue | apply kept_waitFor | apply kept_postEvent | apply keptAct_done | split | intro _ _
theorem kept_performEffect (s : State) (k ctx : Nat) (e : HeldEffect) (h0 : Kept q0 c0 s) : ∀ t, performEffect s k ctx e = some t → Kept q0 c0 t := by
  unfold performEffect
  try dsimp only
  with_reducible repeat' first | assumption | apply keptAct_trap | apply kept_ws | apply kept_pushQueue | apply kept_launchChild | apply kept_armCond | apply kept_ringFlush | apply kept_ringWrite | apply kept_performStores | apply kept_shapeRelease | apply kept_postResolve | apply kept_appendBatch | refine kept_of_some ?_ ‹some _ = some _› | exact kept_of_none ‹none = some _› | split | intro _ _ _ | intro _ _ | intro _

end Sys2Proof.Machine
end

