-- ==== Sys2Proof/Laws/KeptWords.lean ====
section
/-!
SUPPORT. Laws/KeptWords.lean: the lemmas of Laws/Kept.lean for Machine files Window, Copy, Generator, Tile, Transfer, Array, Barrier, Control, Turn, Gangs.
-/
namespace Sys2Proof.Machine
set_option Elab.async false
variable {q0 : Pkg} {c0 : Prop}
theorem kept_notePlaces (s : State) (n : Nat) (ps : List Place) (h0 : Kept q0 c0 s) : Kept q0 c0 (notePlaces s n ps) := by
  unfold notePlaces
  try dsimp only
  with_reducible repeat' first | assumption | apply keptAct_trap | apply kept_noteReads | apply keptAct_done | exact keptAct_trap | apply keptAct_trapIn | apply keptAct_wait | split | intro _ _ _ | intro _ _ | intro _
theorem kept_noteLoads (s : State) (sp : Space) (d n : Nat) (es : List (Nat × Nat)) (h0 : Kept q0 c0 s) : Kept q0 c0 (noteLoads s sp d n es) := by
  unfold noteLoads
  try dsimp only
  with_reducible repeat' first | assumption | apply keptAct_trap | apply kept_openLoads | apply kept_notePlaces | apply keptAct_done | exact keptAct_trap | apply keptAct_trapIn | apply keptAct_wait | split | intro _ _ _ | intro _ _ | intro _
theorem kept_storePlace (s : State) (bs : List Byte) (a0 : Place) (h0 : Kept q0 c0 s) : Kept q0 c0 (storePlace s bs a0) := by
  unfold storePlace
  with_reducible repeat' first | assumption | apply kept_storeBytes | split
theorem kept_checked (s : State) (sp : Space) (u : Use) (n : Nat) (es : List (Nat × Nat)) (go : State → Act) (h0 : Kept q0 c0 s) (f0 : ∀ y0, Kept q0 c0 y0 → KeptAct q0 c0 (go y0)) : KeptAct q0 c0 (checked s sp u n es go) := by
  unfold checked
  try dsimp only
  with_reducible repeat' first | assumption | apply keptAct_trap | apply keptAct_done | exact keptAct_trap | apply keptAct_trapIn | apply keptAct_wait | apply f0 | split | intro _ _ _ | intro _ _ | intro _
theorem kept_laneLoad (s : State) (sp : Space) (d a : BitVec 7) (o : BitVec 8) (h0 : Kept q0 c0 s) : KeptAct q0 c0 (laneLoad s sp d a o) := by
  unfold laneLoad
  try dsimp only
  with_reducible repeat' first | assumption | apply keptAct_trap | apply kept_checked | apply kept_laneOut | apply kept_noteLoads | apply keptAct_done | exact keptAct_trap | apply keptAct_trapIn | apply keptAct_wait | split | intro _ _ _ | intro _ _ | intro _
theorem kept_storeLanes (sp : Space) (n : Nat) (val : Nat → List Byte) (a0 : State) (a1 : List (Nat × Nat)) (h0 : Kept q0 c0 a0) : Kept q0 c0 (storeLanes sp n val a0 a1) := by
  fun_induction storeLanes sp n val a0 a1 <;> (with_reducible repeat' first | apply kept_storePlace | apply_assumption)
theorem kept_laneStore (s : State) (sp : Space) (n : Nat) (a : BitVec 7) (o : BitVec 8) (val : Nat → List Byte) (h0 : Kept q0 c0 s) : KeptAct q0 c0 (laneStore s sp n a o val) := by
  unfold laneStore
  with_reducible repeat' first | assumption | apply kept_checked | apply kept_storeLanes | apply keptAct_done | intro _ _
theorem kept_execLds (st : BitVec 2) (d a : BitVec 7) (o : BitVec 8) (s : State) (h0 : Kept q0 c0 s) : KeptOut q0 c0 (execLds st d a o s) := by
  unfold execLds
  with_reducible repeat' first | assumption | apply kept_issue | apply kept_laneLoad | intro _ _
theorem kept_execSts (st : BitVec 2) (d a : BitVec 7) (o : BitVec 8) (s : State) (h0 : Kept q0 c0 s) : KeptOut q0 c0 (execSts st d a o s) := by
  unfold execSts
  with_reducible repeat' first | assumption | apply kept_issue | apply kept_laneStore | intro _ _
theorem kept_execLds64 (st : BitVec 2) (d a : BitVec 7) (o : BitVec 8) (s : State) (h0 : Kept q0 c0 s) : KeptOut q0 c0 (execLds64 st d a o s) := by
  unfold execLds64
  try dsimp only
  with_reducible repeat' first | assumption | apply keptAct_trap | apply kept_issue | apply kept_checked | apply kept_wv | apply kept_noteLoads | apply keptOut_next | exact keptOut_fault | apply keptAct_done | exact keptAct_trap | apply keptAct_trapIn | apply keptAct_wait | split | intro _ _ _ | intro _ _ | intro _
theorem kept_execSts64 (st : BitVec 2) (d a : BitVec 7) (o : BitVec 8) (s : State) (h0 : Kept q0 c0 s) : KeptOut q0 c0 (execSts64 st d a o s) := by
  unfold execSts64
  with_reducible repeat' first | assumption | apply kept_issue | apply kept_laneStore | intro _ _
theorem kept_execLdw (st : BitVec 2) (d a : BitVec 7) (o : BitVec 8) (s : State) (h0 : Kept q0 c0 s) : KeptOut q0 c0 (execLdw st d a o s) := by
  unfold execLdw
  with_reducible repeat' first | assumption | apply kept_issue | apply kept_laneLoad | intro _ _
theorem kept_execStw (st : BitVec 2) (d a : BitVec 7) (o : BitVec 8) (s : State) (h0 : Kept q0 c0 s) : KeptOut q0 c0 (execStw st d a o s) := by
  unfold execStw
  with_reducible repeat' first | assumption | apply kept_issue | apply kept_laneStore | intro _ _
theorem kept_execLdsp (st : BitVec 2) (d a : BitVec 7) (o : BitVec 8) (s : State) (h0 : Kept q0 c0 s) : KeptOut q0 c0 (execLdsp st d a o s) := by
  unfold execLdsp
  with_reducible repeat' first | assumption | apply kept_issue | apply kept_laneLoad | intro _ _
theorem kept_execStsp (st : BitVec 2) (d a : BitVec 7) (o : BitVec 8) (s : State) (h0 : Kept q0 c0 s) : KeptOut q0 c0 (execStsp st d a o s) := by
  unfold execStsp
  with_reducible repeat' first | assumption | apply kept_issue | apply kept_laneStore | intro _ _
theorem kept_execLdd (st : BitVec 2) (d a : BitVec 7) (o : BitVec 8) (s : State) (h0 : Kept q0 c0 s) : KeptOut q0 c0 (execLdd st d a o s) := by
  unfold execLdd
  with_reducible repeat' first | assumption | apply kept_issue | apply kept_laneLoad | intro _ _
theorem kept_execStd (st : BitVec 2) (d a : BitVec 7) (o : BitVec 8) (s : State) (h0 : Kept q0 c0 s) : KeptOut q0 c0 (execStd st d a o s) := by
  unfold execStd
  with_reducible repeat' first | assumption | apply kept_issue | apply kept_laneStore | intro _ _
theorem kept_execLdc (st : BitVec 2) (d a : BitVec 7) (o : BitVec 8) (s : State) (h0 : Kept q0 c0 s) : KeptOut q0 c0 (execLdc st d a o s) := by
  unfold execLdc
  with_reducible repeat' first | assumption | apply kept_issue | apply kept_laneLoad | intro _ _
theorem kept_execSldc (st : BitVec 2) (d a : BitVec 7) (i : BitVec 8) (s : State) (h0 : Kept q0 c0 s) : KeptOut q0 c0 (execSldc st d a i s) := by
  unfold execSldc
  try dsimp only
  with_reducible repeat' first | assumption | apply keptAct_trap | apply kept_issue | apply kept_uniOut | split | intro _ _
theorem kept_execSlds (st : BitVec 2) (d a : BitVec 7) (i : BitVec 8) (s : State) (h0 : Kept q0 c0 s) : KeptOut q0 c0 (execSlds st d a i s) := by
  unfold execSlds
  try dsimp only
  with_reducible repeat' first | assumption | apply keptAct_trap | apply kept_issue | apply kept_uniOut | apply kept_openLoads | apply kept_notePlaces | apply keptOut_next | exact keptOut_fault | apply keptAct_done | exact keptAct_trap | apply keptAct_trapIn | apply keptAct_wait | split | intro _ _ _ | intro _ _ | intro _
theorem kept_execSsts (st : BitVec 2) (d a : BitVec 7) (i : BitVec 8) (s : State) (h0 : Kept q0 c0 s) : KeptOut q0 c0 (execSsts st d a i s) := by
  unfold execSsts
  with_reducible repeat' first | assumption | apply keptAct_trap | apply kept_issue | apply kept_storePlace | apply keptAct_done | split | intro _ _
theorem kept_atomStep (sp : Space) (new : Nat → Word → Option Word) (s : State) (e : Nat × Nat) (h0 : Kept q0 c0 s) : Kept q0 c0 (atomStep sp new s e) := by
  unfold atomStep
  try dsimp only
  with_reducible repeat' first | assumption | apply kept_performBefore | apply kept_noteRead | apply kept_setCg | apply kept_agentWrite | split
theorem kept_turnAgain (s : State) (h0 : Kept q0 c0 s) : Kept q0 c0 (turnAgain s) := h0
theorem kept_atomPasses (s : State) (sp : Space) (es : List (Nat × Nat)) (new : Nat → Word → Option Word) (fin : State → (Nat → Word) → Act) (h0 : Kept q0 c0 s) (f0 : ∀ y0 y1, Kept q0 c0 y0 → KeptAct q0 c0 (fin y0 y1)) : KeptAct q0 c0 (atomPasses s sp es new fin) := by
  unfold atomPasses
  try dsimp only
  with_reducible repeat' first | assumption | apply kept_atomStep | apply kept_turnAgain | apply kept_setCg | apply kept_foldl | apply keptAct_wait | apply f0 | split
theorem kept_atomic (s : State) (a : BitVec 7) (p : BitVec 2) (new : Nat → Word → Option Word) (fin : State → (Nat → Word) → Act) (h0 : Kept q0 c0 s) (f0 : ∀ y0 y1, Kept q0 c0 y0 → KeptAct q0 c0 (fin y0 y1)) : KeptAct q0 c0 (atomic s a p new fin) := by
  unfold atomic
  with_reducible repeat' first | assumption | apply kept_atomPasses | apply kept_checked | split | intro _ _
theorem kept_execAtom (st : BitVec 2) (d a : BitVec 7) (f : BitVec 4) (p : BitVec 2) (s : State) (h0 : Kept q0 c0 s) : KeptOut q0 c0 (execAtom st d a f p s) := by
  unfold execAtom
  with_reducible repeat' first | assumption | apply kept_issue | apply kept_atomic | apply kept_laneOut | intro _ _
theorem kept_execCas (st : BitVec 2) (d a : BitVec 7) (p : BitVec 2) (s : State) (h0 : Kept q0 c0 s) : KeptOut q0 c0 (execCas st d a p s) := by
  unfold execCas
  with_reducible repeat' first | assumption | apply kept_issue | apply kept_atomic | apply kept_wv | apply keptAct_done | intro _ _ _ | intro _ _
theorem kept_execShfli (st : BitVec 2) (d a : BitVec 7) (m : BitVec 2) (c : BitVec 6) (s : State) (h0 : Kept q0 c0 s) : KeptOut q0 c0 (execShfli st d a m c s) := by
  unfold execShfli
  with_reducible repeat' first | assumption | apply kept_issue | apply kept_laneOut | intro _ _
theorem kept_execShfl (st : BitVec 2) (d a b : BitVec 7) (c : BitVec 1) (s : State) (h0 : Kept q0 c0 s) : KeptOut q0 c0 (execShfl st d a b c s) := by
  unfold execShfl
  with_reducible repeat' first | assumption | apply kept_issue | apply kept_laneOut | intro _ _
theorem kept_execVote (st : BitVec 2) (p : BitVec 3) (o : BitVec 2) (n : BitVec 1) (q : BitVec 3) (s : State) (h0 : Kept q0 c0 s) : KeptOut q0 c0 (execVote st p o n q s) := by
  unfold execVote
  with_reducible repeat' first | assumption | apply kept_issue | apply kept_predOut | intro _ _
theorem kept_execBallot (st : BitVec 2) (d : BitVec 7) (h : BitVec 2) (n : BitVec 1) (p : BitVec 3) (s : State) (h0 : Kept q0 c0 s) : KeptOut q0 c0 (execBallot st d h n p s) := by
  unfold execBallot
  with_reducible repeat' first | assumption | apply kept_issue | apply kept_laneOut | intro _ _
theorem kept_execRdlane (st : BitVec 2) (d a i : BitVec 7) (s : State) (h0 : Kept q0 c0 s) : KeptOut q0 c0 (execRdlane st d a i s) := by
  unfold execRdlane
  with_reducible repeat' first | assumption | apply keptAct_trap | apply kept_issue | apply kept_uniOut | apply keptAct_done | split | intro _ _
theorem kept_execWrlane (st : BitVec 2) (d a i : BitVec 7) (s : State) (h0 : Kept q0 c0 s) : KeptOut q0 c0 (execWrlane st d a i s) := by
  unfold execWrlane
  with_reducible repeat' first | assumption | apply keptAct_trap | apply kept_issue | apply kept_wv | apply keptAct_done | split | intro _ _
theorem kept_execMatchKeys (st : BitVec 2) (d a b : BitVec 7) (c : BitVec 1) (s : State) (h0 : Kept q0 c0 s) : KeptOut q0 c0 (execMatchKeys st d a b c s) := by
  unfold execMatchKeys
  with_reducible repeat' first | assumption | apply kept_issue | apply kept_laneOut | intro _ _
theorem kept_ringMoved (s : State) (blk : Nat) (h0 : Kept q0 c0 s) : Kept q0 c0 (ringMoved s blk) := by
  unfold ringMoved
  with_reducible repeat' first | assumption | apply kept_wakeWords
theorem kept_appendCmd (s : State) (matrix : Bool) (c : Cmd) (h0 : Kept q0 c0 s) : Kept q0 c0 (appendCmd s matrix c) := by
  unfold appendCmd
  with_reducible repeat' first | assumption | apply kept_groupWrite | apply kept_ringMoved | apply kept_setCb
theorem kept_appendCopy (s : State) (img : Nat) (h0 : Kept q0 c0 s) : Kept q0 c0 (appendCopy s img) := by
  unfold appendCopy
  with_reducible repeat' first | assumption | apply kept_setCg | apply kept_setCb | apply kept_appendCmd
theorem kept_copyCommand (i : Instr) (kind : Nat) (d : BitVec 7) (a k f : BitVec 4) (s : State) (h0 : Kept q0 c0 s) : KeptOut q0 c0 (copyCommand i kind d a k f s) := by
  unfold copyCommand
  try dsimp only
  with_reducible repeat' first | assumption | apply keptAct_trap | apply kept_issue | apply kept_waitFor | apply kept_releaseOnce | apply kept_appendCopy | apply kept_uniOut | split | intro _ _
theorem kept_execCpy (st : BitVec 2) (d : BitVec 7) (a k f : BitVec 4) (s : State) (h0 : Kept q0 c0 s) : KeptOut q0 c0 (execCpy st d a k f s) := by
  unfold execCpy
  with_reducible repeat' first | assumption | apply kept_copyCommand
theorem kept_execCpyg (st : BitVec 2) (d : BitVec 7) (a k f : BitVec 4) (s : State) (h0 : Kept q0 c0 s) : KeptOut q0 c0 (execCpyg st d a k f s) := by
  unfold execCpyg
  with_reducible repeat' first | assumption | apply kept_copyCommand
theorem kept_execCpyr (st : BitVec 2) (d : BitVec 7) (a k f : BitVec 4) (s : State) (h0 : Kept q0 c0 s) : KeptOut q0 c0 (execCpyr st d a k f s) := by
  unfold execCpyr
  with_reducible repeat' first | assumption | apply kept_copyCommand
theorem kept_execCpya (st : BitVec 2) (d : BitVec 7) (a k f : BitVec 4) (s : State) (h0 : Kept q0 c0 s) : KeptOut q0 c0 (execCpya st d a k f s) := by
  unfold execCpya
  with_reducible repeat' first | assumption | apply kept_copyCommand
theorem kept_execCbatch (st : BitVec 2) (d : BitVec 7) (s : State) (h0 : Kept q0 c0 s) : KeptOut q0 c0 (execCbatch st d s) := by
  unfold execCbatch
  with_reducible repeat' first | assumption | apply kept_issue | apply kept_uniOut | apply kept_setCg | intro _ _
theorem kept_reportCmd (s : State) (matrix : Bool) (unit : Nat) (c : Cmd) (t : TrapCode) (h0 : Kept q0 c0 s) : KeptAct q0 c0 (reportCmd s matrix unit c t) := h0
theorem kept_execWaitb (st : BitVec 2) (a : BitVec 7) (s : State) (h0 : Kept q0 c0 s) : KeptOut q0 c0 (execWaitb st a s) := by
  unfold execWaitb
  with_reducible refine kept_issue _ _ _ h0 fun s h0 => ?_
  split
  · exact keptAct_trap
  · with_reducible refine kept_waitFor _ _ _ h0 fun s h => ?_
    split
    · exact kept_reportCmd _ _ _ _ _ h
    · exact keptAct_done (kept_acquire _ _ (kept_seeCopies _ _ _ h))
theorem kept_acquireChunks (s : State) (a b : BitVec 7) (h0 : Kept q0 c0 s) : Kept q0 c0 (acquireChunks s a b) := by
  unfold acquireChunks
  try dsimp only
  with_reducible repeat' first | assumption | apply keptAct_trap | apply kept_acquire | apply kept_seePort | apply keptAct_done | exact keptAct_trap | apply keptAct_trapIn | apply keptAct_wait | split | intro _ _ _ | intro _ _ | intro _
theorem kept_execTestc (st : BitVec 2) (d a b : BitVec 7) (s : State) (h0 : Kept q0 c0 s) : KeptOut q0 c0 (execTestc st d a b s) := by
  unfold execTestc
  with_reducible repeat' first | assumption | apply keptAct_trap | apply kept_issue | apply kept_uniOut | apply kept_acquireChunks | split | intro _ _
theorem kept_execWaitc (st : BitVec 2) (a b : BitVec 7) (s : State) (h0 : Kept q0 c0 s) : KeptOut q0 c0 (execWaitc st a b s) := by
  unfold execWaitc
  with_reducible repeat' first | assumption | apply keptAct_trap | apply kept_issue | apply kept_waitFor | apply kept_acquireChunks | apply keptAct_done | split | intro _ _
theorem kept_genLanes (s : State) (tr : Bool) (d a : BitVec 7) (g : BitVec 3) (h0 : Kept q0 c0 s) : KeptAct q0 c0 (genLanes s tr d a g) := by
  unfold genLanes
  try dsimp only
  with_reducible repeat' first | assumption | apply keptAct_trap | apply kept_laneOut | apply kept_notePlaces | apply keptAct_done | split
theorem kept_execGen (st : BitVec 2) (d a : BitVec 7) (g : BitVec 3) (s : State) (h0 : Kept q0 c0 s) : KeptOut q0 c0 (execGen st d a g s) := by
  unfold execGen
  with_reducible repeat' first | assumption | apply kept_issue | apply kept_genLanes | intro _ _
theorem kept_execGent (st : BitVec 2) (d a : BitVec 7) (g : BitVec 3) (s : State) (h0 : Kept q0 c0 s) : KeptOut q0 c0 (execGent st d a g s) := by
  unfold execGent
  with_reducible repeat' first | assumption | apply kept_issue | apply kept_genLanes | intro _ _
theorem kept_execGset (st : BitVec 2) (a : BitVec 5) (g : BitVec 3) (s : State) (h0 : Kept q0 c0 s) : KeptOut q0 c0 (execGset st a g s) := by
  unfold execGset
  with_reducible repeat' first | assumption | apply kept_issue | apply kept_wg | apply keptAct_done | intro _ _
theorem kept_execGrd (st : BitVec 2) (d : BitVec 5) (g : BitVec 3) (s : State) (h0 : Kept q0 c0 s) : KeptOut q0 c0 (execGrd st d g s) := by
  unfold execGrd
  with_reducible repeat' first | assumption | apply kept_issue | apply kept_wsList | apply keptAct_done | intro _ _
theorem kept_execGstep (st : BitVec 2) (s : State) (h0 : Kept q0 c0 s) : KeptOut q0 c0 (execGstep st s) := by
  unfold execGstep
  with_reducible repeat' first | assumption | apply kept_issue | apply kept_setCb | apply keptAct_done | intro _ _
theorem kept_finishCopy (s : State) (blk : Nat) (c : Cmd) (st : CmdStatus) (acksBack : Nat) (h0 : Kept q0 c0 s) : Kept q0 c0 (finishCopy s blk c st acksBack) := by
  unfold finishCopy
  try dsimp only
  with_reducible repeat' first | assumption | apply keptAct_trap | apply kept_setGrp | apply kept_settleGrid | apply kept_ringMoved | apply kept_setBlk | (simp only [kept_mk]; first | apply kept_parts | apply kept_parts_pkg) | split | intro _ _ _ | intro _ _ | intro _
theorem kept_settleCopy (a0 : Nat) (a1 : State) (a2 : Nat) (h0 : Kept q0 c0 a1) : Kept q0 c0 (settleCopy a0 a1 a2) := by
  fun_induction settleCopy a0 a1 a2 with
  | case1 => exact h0
  | case2 =>
    rename_i ih
    exact ih (kept_finishCopy _ _ _ _ _ h0)
  | case3 => exact h0
  | case4 => exact h0
theorem kept_settleGuards (s : State) (blk : Nat) (h0 : Kept q0 c0 s) : Kept q0 c0 (settleGuards s blk) := by
  unfold settleGuards
  with_reducible repeat' first | assumption | apply kept_settleCopy | apply kept_ringMoved | apply kept_setBlk
theorem kept_observe (s : State) (w : View) (h0 : Kept q0 c0 s) : Kept q0 c0 (observe s w) := h0
theorem kept_observeUpTo (s : State) (n : Nat) (h0 : Kept q0 c0 s) : Kept q0 c0 (observeUpTo s n) := h0
theorem kept_observeOne (s : State) (n : Nat) (h0 : Kept q0 c0 s) : Kept q0 c0 (observeOne s n) := h0
theorem kept_appendMatrix (s : State) (img : Nat) (h0 : Kept q0 c0 s) : Kept q0 c0 (appendMatrix s img) := by
  unfold appendMatrix
  with_reducible repeat' first | assumption | apply kept_appendCmd | apply kept_ringMoved | apply kept_setCb
theorem kept_slotTrap (s : State) (c : Cmd) (h0 : Kept q0 c0 s) : KeptAct q0 c0 (slotTrap s c) := h0
theorem kept_matrixCommand (i : Instr) (kind : Nat) (d : BitVec 7) (a k f : BitVec 4) (s : State) (h0 : Kept q0 c0 s) : KeptOut q0 c0 (matrixCommand i kind d a k f s) := by
  unfold matrixCommand
  try dsimp only
  with_reducible repeat' first | assumption | apply keptAct_trap | apply kept_issue | apply kept_waitFor | apply kept_releaseOnce | apply kept_slotTrap | apply kept_appendMatrix | apply kept_uniOut | split | intro _ _
theorem kept_execMma (st : BitVec 2) (d : BitVec 7) (a k f : BitVec 4) (s : State) (h0 : Kept q0 c0 s) : KeptOut q0 c0 (execMma st d a k f s) := by
  unfold execMma
  with_reducible repeat' first | assumption | apply kept_matrixCommand
theorem kept_execMmai (st : BitVec 2) (d : BitVec 7) (a k f : BitVec 4) (s : State) (h0 : Kept q0 c0 s) : KeptOut q0 c0 (execMmai st d a k f s) := by
  unfold execMmai
  with_reducible repeat' first | assumption | apply kept_matrixCommand
theorem kept_execLdst (st : BitVec 2) (d : BitVec 7) (a k f : BitVec 4) (s : State) (h0 : Kept q0 c0 s) : KeptOut q0 c0 (execLdst st d a k f s) := by
  unfold execLdst
  with_reducible repeat' first | assumption | apply kept_matrixCommand
theorem kept_execAccz (st : BitVec 2) (d : BitVec 7) (a k f : BitVec 4) (s : State) (h0 : Kept q0 c0 s) : KeptOut q0 c0 (execAccz st d a k f s) := by
  unfold execAccz
  with_reducible repeat' first | assumption | apply kept_matrixCommand
theorem kept_execAccrd (st : BitVec 2) (d : BitVec 7) (a k f : BitVec 4) (s : State) (h0 : Kept q0 c0 s) : KeptOut q0 c0 (execAccrd st d a k f s) := by
  unfold execAccrd
  with_reducible repeat' first | assumption | apply kept_matrixCommand
theorem kept_execAccwr (st : BitVec 2) (d : BitVec 7) (a k f : BitVec 4) (s : State) (h0 : Kept q0 c0 s) : KeptOut q0 c0 (execAccwr st d a k f s) := by
  unfold execAccwr
  with_reducible repeat' first | assumption | apply kept_matrixCommand
theorem kept_execSacct (st : BitVec 2) (d : BitVec 7) (a k f : BitVec 4) (s : State) (h0 : Kept q0 c0 s) : KeptOut q0 c0 (execSacct st d a k f s) := by
  unfold execSacct
  with_reducible repeat' first | assumption | apply kept_matrixCommand
theorem kept_publish (s : State) (matrix : Bool) (h0 : Kept q0 c0 s) : Kept q0 c0 (publish s matrix) := by
  unfold publish
  try dsimp only
  with_reducible repeat' first | assumption | apply keptAct_trap | apply kept_appendCmd | apply kept_appendMatrix | apply kept_appendCopy | apply keptAct_done | exact keptAct_trap | apply keptAct_trapIn | apply keptAct_wait | split | intro _ _ _ | intro _ _ | intro _
theorem kept_publishAll (matrix : Bool) (a0 : Nat) (a1 : State) (h0 : Kept q0 c0 a1) : Kept q0 c0 (publishAll matrix a0 a1) := by
  fun_induction publishAll matrix a0 a1 <;> (with_reducible repeat' first | apply kept_publish | apply_assumption)
theorem kept_publishOr (s : State) (matrix : Bool) (d : Nat) (h0 : Kept q0 c0 s) : KeptAct q0 c0 (publishOr s matrix d) := by
  unfold publishOr
  try dsimp only
  with_reducible repeat' first | assumption | apply keptAct_trap | apply kept_slotTrap | apply kept_publishAll | apply keptAct_done | exact keptAct_trap | apply keptAct_trapIn | apply keptAct_wait | split | intro _ _ _ | intro _ _ | intro _
theorem kept_execTailp (st : BitVec 2) (a : BitVec 7) (r : BitVec 1) (s : State) (h0 : Kept q0 c0 s) : KeptOut q0 c0 (execTailp st a r s) := by
  unfold execTailp
  try dsimp only
  with_reducible repeat' first | assumption | apply keptAct_trap | apply kept_issue | apply kept_publishOr | apply kept_releaseFence | (simp only [kept_mk]; first | apply kept_parts | apply kept_parts_pkg) | apply keptOut_next | exact keptOut_fault | apply keptAct_done | exact keptAct_trap | apply keptAct_trapIn | apply keptAct_wait | split | intro _ _ _ | intro _ _ | intro _
theorem kept_portSees (s : State) (upto : Nat) (h0 : Kept q0 c0 s) : Kept q0 c0 (portSees s upto) := by
  unfold portSees
  try dsimp only
  with_reducible repeat' first | assumption | apply keptAct_trap | apply kept_setCg | (simp only [kept_mk]; first | apply kept_parts | apply kept_parts_pkg) | split | intro _ _ _ | intro _ _ | intro _
theorem kept_execOpfence (st : BitVec 2) (s : State) (h0 : Kept q0 c0 s) : KeptOut q0 c0 (execOpfence st s) := by
  unfold execOpfence
  try dsimp only
  with_reducible repeat' first | assumption | apply keptAct_trap | apply kept_issue | apply kept_waitFor | apply kept_portSees | apply kept_performStores | apply keptOut_next | exact keptOut_fault | apply keptAct_done | exact keptAct_trap | apply keptAct_trapIn | apply keptAct_wait | split | intro _ _ _ | intro _ _ | intro _
theorem kept_execWaitm (st : BitVec 2) (a : BitVec 7) (s : State) (h0 : Kept q0 c0 s) : KeptOut q0 c0 (execWaitm st a s) := by
  unfold execWaitm
  with_reducible repeat' first | assumption | apply keptAct_trap | apply kept_issue | apply kept_waitFor | apply kept_reportCmd | apply kept_acquire | apply kept_observeUpTo | apply keptAct_done | split | intro _ _
theorem kept_execMseq (st : BitVec 2) (d a : BitVec 7) (s : State) (h0 : Kept q0 c0 s) : KeptOut q0 c0 (execMseq st d a s) := by
  unfold execMseq
  try dsimp only
  with_reducible repeat' first | assumption | apply keptAct_trap | apply kept_issue | apply kept_uniOut | apply kept_acquire | apply kept_observeOne | split | intro _ _
theorem kept_setGuard (s : State) (k : Nat) (g : Guard) (h0 : Kept q0 c0 s) : Kept q0 c0 (setGuard s k g) := h0
theorem kept_execKset (st : BitVec 2) (a : BitVec 7) (k : BitVec 4) (m : BitVec 2) (s : State) (h0 : Kept q0 c0 s) : KeptOut q0 c0 (execKset st a k m s) := by
  unfold execKset
  with_reducible repeat' first | assumption | apply kept_issue | apply kept_settleGuards | apply kept_setGuard | apply keptAct_done | intro _ _
theorem kept_execKrd (st : BitVec 2) (d : BitVec 7) (s : State) (h0 : Kept q0 c0 s) : KeptOut q0 c0 (execKrd st d s) := by
  unfold execKrd
  with_reducible repeat' first | assumption | apply kept_issue | apply kept_uniOut | intro _ _
theorem kept_execKclr (st : BitVec 2) (k : BitVec 4) (s : State) (h0 : Kept q0 c0 s) : KeptOut q0 c0 (execKclr st k s) := by
  unfold execKclr
  with_reducible repeat' first | assumption | apply kept_issue | apply kept_settleGuards | apply kept_setGuard | apply keptAct_done | intro _ _
theorem kept_memLoc (s : State) (b : Block) (x : XReg) (off : Nat) (r w : Bool) (h0 : Kept q0 c0 s) : Kept q0 c0 (memLoc s b x off r w).1 := by
  unfold memLoc
  try dsimp only
  with_reducible repeat' first | assumption | apply kept_usePage | apply kept_tlbLook | split
theorem kept_endLoc (s : State) (blk : Nat) (c : Cmd) (e : Endpoint) (off : Nat) (r w : Bool) (h0 : Kept q0 c0 s) : Kept q0 c0 (endLoc s blk c e off r w).1 := by
  unfold endLoc
  try dsimp only
  with_reducible repeat' first | assumption | apply keptAct_trap | (refine kept_fst ?_ ‹_ = (_, _)›; apply kept_memLoc) | apply kept_memLoc | split | intro _ _ _ | intro _ _ | intro _
theorem kept_readSource (blk : Nat) (c : Cmd) (e : Endpoint) (a0 : Nat) (a1 : Nat) (a2 : State) (h0 : Kept q0 c0 a2) : Kept q0 c0 (readSource blk c e a0 a1 a2).1 := by
  fun_induction readSource blk c e a0 a1 a2 <;> (with_reducible repeat' first | (refine kept_fst ?_ ‹_ = (_, _)›; apply kept_endLoc) | apply_assumption | (refine kept_fst ?_ ‹_ = (_, _)›; apply_assumption))
theorem kept_stage (s : State) (blk : Nat) (c : Cmd) (e : HeldEntry) (h0 : Kept q0 c0 s) : Kept q0 c0 (stage s blk c e) := by
  unfold stage
  with_reducible repeat' first | assumption | apply kept_setBlk | apply kept_chargeBudget | (simp only [kept_mk]; first | apply kept_parts | apply kept_parts_pkg)
theorem kept_engineWrite (s : State) (blk : Nat) (c : Cmd) (m : MemName) (a va : Nat) (bs : List Byte) (h0 : Kept q0 c0 s) : Kept q0 c0 (engineWrite s blk c m a va bs) := by
  unfold engineWrite
  try dsimp only
  with_reducible repeat' first | assumption | apply keptAct_trap | apply kept_stage | apply kept_copyWrite | split | intro _ _ _ | intro _ _ | intro _
theorem kept_readPiece (s : State) (blk img : Nat) (c : Cmd) (p : Piece) (h0 : Kept q0 c0 s) : Kept q0 c0 (readPiece s blk img c p).1 := by
  unfold readPiece
  try dsimp only
  with_reducible repeat' first | assumption | apply keptAct_trap | (refine kept_fst ?_ ‹_ = (_, _)›; apply kept_readSource) | (refine kept_fst ?_ ‹_ = (_, _)›; apply kept_endLoc) | split
theorem kept_readPieces (blk img : Nat) (c : Cmd) (a0 : List Piece) (a1 : State) (h0 : Kept q0 c0 a1) : Kept q0 c0 (readPieces blk img c a0 a1).1 := by
  fun_induction readPieces blk img c a0 a1 <;> (with_reducible repeat' first | assumption | (refine kept_fst ?_ ‹_ = (_, _)›; apply kept_readPiece) | (refine kept_fst ?_ ‹_ = (_, _)›; apply_assumption))
theorem kept_runPieces (blk img : Nat) (c : Cmd) (rs : List (MemName × Nat × Nat)) (ps : List Piece) (s : State) (h0 : Kept q0 c0 s) : Kept q0 c0 (runPieces blk img c rs ps s).1 := by
  unfold runPieces
  with_reducible repeat' first | assumption | apply kept_readPieces | apply kept_engineWrite | apply kept_foldl | split | intro _ _ _
theorem kept_runCopy (s : State) (blk : Nat) (c : Cmd) (ps : List Piece) (h0 : Kept q0 c0 s) : Kept q0 c0 (runCopy s blk c ps).1 := by
  unfold runCopy
  with_reducible repeat' first | assumption | apply kept_setFresh | apply kept_runPieces
theorem kept_putOp (s : State) (o : SrcOp) (h0 : Kept q0 c0 s) : Kept q0 c0 (putOp s o) := h0
theorem kept_sendHead (s : State) (o : SrcOp) (h0 : Kept q0 c0 s) : Kept q0 c0 (sendHead s o) := by
  unfold sendHead
  with_reducible repeat' first | assumption | apply kept_sendOn | apply kept_putOp
theorem kept_addOp (s : State) (o : SrcOp) (h0 : Kept q0 c0 s) : Kept q0 c0 (addOp s o) := h0
theorem kept_startOp (s : State) (o : SrcOp) (h0 : Kept q0 c0 s) : Kept q0 c0 (startOp s o) := by
  unfold startOp
  try dsimp only
  with_reducible repeat' first | assumption | apply kept_addOp | apply kept_sendHead | split
theorem kept_startPut (s : State) (o : SrcOp) (a : Nat) (bs : List Byte) (h0 : Kept q0 c0 s) : Kept q0 c0 (startPut s o a bs) := by
  unfold startPut
  with_reducible repeat' first | assumption | apply kept_startOp
theorem kept_startGet (s : State) (o : SrcOp) (a n : Nat) (m : MemName) (l : Nat) (h0 : Kept q0 c0 s) : Kept q0 c0 (startGet s o a n m l) := by
  unfold startGet
  with_reducible repeat' first | assumption | apply kept_startOp
theorem kept_startAtom (s : State) (o : SrcOp) (a f : Nat) (w64 : Bool) (v c : BitVec 64) (ret : Option Nat) (h0 : Kept q0 c0 s) : Kept q0 c0 (startAtom s o a f w64 v c ret) := by
  unfold startAtom
  with_reducible repeat' first | assumption | apply kept_startOp
theorem kept_startRadd (s : State) (o : SrcOp) (a : Nat) (bs : List Byte) (turn f base : Nat) (h0 : Kept q0 c0 s) : Kept q0 c0 (startRadd s o a bs turn f base) := by
  unfold startRadd
  try dsimp only
  with_reducible repeat' first | assumption | apply kept_addOp | apply kept_sendHead | apply kept_foldl | split | intro _ _ _
theorem kept_endCopy (s : State) (blk seq : Nat) (st : CmdStatus) (addr acksBack : Nat) (h0 : Kept q0 c0 s) : Kept q0 c0 (endCopy s blk seq st addr acksBack) := by
  unfold endCopy
  with_reducible repeat' first | assumption | apply kept_finishCopy | split
theorem kept_setCopyCmd (s : State) (blk : Nat) (c : Cmd) (h0 : Kept q0 c0 s) : Kept q0 c0 (setCopyCmd s blk c) := h0
theorem kept_heldError (s : State) (blk : Nat) (e : HeldEntry) (st : CmdStatus) (h0 : Kept q0 c0 s) : Kept q0 c0 (heldError s blk e st) := by
  unfold heldError
  try dsimp only
  with_reducible repeat' first | assumption | apply kept_setCopyCmd | apply kept_finishCopy | apply kept_setBlk | split
theorem kept_atomHome (s : State) (m : MemName) (a f : Nat) (w64 : Bool) (v c : BitVec 64) (h0 : Kept q0 c0 s) : Kept q0 c0 (atomHome s m a f w64 v c).1 := by
  unfold atomHome
  with_reducible repeat' first | assumption | apply kept_homeWrite
theorem kept_atomPlace (s : State) (blk img : Nat) (c : Cmd) (h0 : Kept q0 c0 s) : Kept q0 c0 (atomPlace s blk img c).1 := by
  unfold atomPlace
  with_reducible repeat' first | assumption | (refine kept_fst ?_ ‹_ = (_, _)›; apply kept_endLoc) | apply kept_endLoc | split
theorem kept_runAtom (s : State) (blk img : Nat) (c : Cmd) (h0 : Kept q0 c0 s) : Kept q0 c0 (runAtom s blk img c).1 := by
  unfold runAtom
  try dsimp only
  with_reducible repeat' first | assumption | (refine kept_fst ?_ ‹_ = (_, _)›; apply kept_atomPlace) | apply kept_atomHome | apply kept_copyWrite | split
theorem kept_raddPlace (s : State) (blk : Nat) (c : Cmd) (e : Endpoint) (off : Nat) (val : Option Word) (h0 : Kept q0 c0 s) : Kept q0 c0 (raddPlace s blk c e off val).1 := by
  unfold raddPlace
  with_reducible repeat' first | assumption | (refine kept_fst ?_ ‹_ = (_, _)›; apply kept_endLoc) | split
theorem kept_raddWords (blk : Nat) (c : Cmd) (e : Endpoint) (rs : List (MemName × Nat × Nat)) (a0 : Nat) (a1 : List Word) (a2 : State) (h0 : Kept q0 c0 a2) : Kept q0 c0 (raddWords blk c e rs a0 a1 a2).1 := by
  induction a1 generalizing a0 a2 with
  | nil => exact h0
  | cons x r ih =>
    unfold raddWords
    have h1 := kept_raddPlace a2 blk c e a0 (some x) h0
    split <;> (have h2 := kept_fst h1 ‹_›)
    · exact h2
    · have h3 := ih (a0 + 4) _ h2
      dsimp only
      split
      · exact kept_fst h3 ‹_›
      · exact h3
theorem kept_raddMake (s : State) (blk img : Nat) (c : Cmd) (h0 : Kept q0 c0 s) : Kept q0 c0 (raddMake s blk img c).1 := by
  unfold raddMake
  try dsimp only
  with_reducible repeat' first | assumption | (refine kept_fst ?_ ‹_ = (_, _)›; apply kept_readSource) | (refine kept_fst ?_ ‹_ = (_, _)›; apply kept_raddWords) | apply kept_raddWords | (refine kept_fst ?_ ‹_ = (_, _)›; apply kept_raddPlace) | split
theorem kept_addContribution (s : State) (x : Contribution) (h0 : Kept q0 c0 s) : Kept q0 c0 (addContribution s x) := h0
theorem kept_stagePut (blk : Nat) (c : Cmd) (s : State) (e : Nat × List Byte) (h0 : Kept q0 c0 s) : Kept q0 c0 (stagePut blk c s e) := by
  unfold stagePut
  with_reducible repeat' first | assumption | apply kept_stage
theorem kept_putRows (blk img : Nat) (c : Cmd) (a0 : List Piece) (a1 : State) (h0 : Kept q0 c0 a1) : Kept q0 c0 (putRows blk img c a0 a1).1 := by
  fun_induction putRows blk img c a0 a1 <;> (with_reducible repeat' first | assumption | apply keptAct_trap | (refine kept_fst ?_ ‹_ = (_, _)›; apply kept_readSource) | (refine kept_fst ?_ ‹_ = (_, _)›; apply_assumption))
theorem kept_podCheck (s : State) (blk : Nat) (p : Nat × Nat) (r w : Bool) (h0 : Kept q0 c0 s) : Kept q0 c0 (podCheck s blk p r w).1 := by
  unfold podCheck
  try dsimp only
  with_reducible repeat' first | assumption | apply keptAct_trap | (refine kept_snd ?_ ‹_ = (_, _)›; apply kept_tlbLook) | apply kept_tlbLook | split | intro _ _ _ | intro _ _ | intro _
theorem kept_podChecks (blk : Nat) (r w : Bool) (a0 : List (Nat × Nat)) (a1 : State) (h0 : Kept q0 c0 a1) : Kept q0 c0 (podChecks blk r w a0 a1).1 := by
  fun_induction podChecks blk r w a0 a1 <;> (try dsimp only) <;> (with_reducible repeat' first | assumption | apply keptAct_trap | (refine kept_fst ?_ ‹_ = (_, _)›; apply kept_podCheck) | apply kept_podCheck | apply_assumption | (refine kept_fst ?_ ‹_ = (_, _)›; apply_assumption) | split | intro _ _ _ | intro _ _ | intro _)
theorem kept_putStaged (blk : Nat) (l : List (Nat × List Byte)) (e : Option (CmdStatus × Nat)) (lost : List Nat) (s : State) (h0 : Kept q0 c0 s) : Kept q0 c0 (putStaged blk l e lost s).1 := by
  unfold putStaged
  try dsimp only
  with_reducible repeat' first | assumption | apply keptAct_trap | (refine kept_fst ?_ ‹_ = (_, _)›; apply kept_podChecks) | apply kept_podChecks | apply keptAct_done | exact keptAct_trap | apply keptAct_trapIn | apply keptAct_wait | split | intro _ _ _ | intro _ _ | intro _
theorem kept_stageCmd (s : State) (blk : Nat) (c : Cmd) (h0 : Kept q0 c0 s) : Kept q0 c0 (stageCmd s blk c).1 := by
  unfold stageCmd
  try dsimp only
  with_reducible repeat' first | assumption | apply keptAct_trap | apply kept_atomic | (refine kept_fst ?_ ‹_ = (_, _)›; apply kept_podChecks) | apply kept_podChecks | apply kept_stage | (refine kept_fst ?_ ‹_ = (_, _)›; apply kept_atomPlace) | apply kept_atomPlace | (refine kept_fst ?_ ‹_ = (_, _)›; apply kept_readSource) | apply kept_readSource | (refine kept_fst ?_ ‹_ = (_, _)›; apply kept_putRows) | apply kept_putRows | (refine kept_fst ?_ ‹_ = (_, _)›; apply kept_putStaged) | apply kept_putStaged | apply kept_stagePut | (refine kept_fst ?_ ‹_ = (_, _)›; apply kept_raddMake) | apply kept_raddMake | apply kept_ws | (refine kept_fst ?_ ‹_ = (_, _)›; apply kept_runCopy) | apply kept_runCopy | (simp only [kept_mk]; first | apply kept_parts | apply kept_parts_pkg) | apply kept_foldl | apply keptAct_done | exact keptAct_trap | apply keptAct_trapIn | apply keptAct_wait | split | intro _ _ _ | intro _ _ | intro _
theorem kept_startRemote (s : State) (blk : Nat) (c : Cmd) (h0 : Kept q0 c0 s) : Kept q0 c0 (startRemote s blk c) := by
  unfold startRemote
  try dsimp only
  with_reducible repeat' first | assumption | apply kept_endCopy | apply kept_startAtom | apply kept_startGet | apply kept_putRows | apply kept_startRadd | apply kept_startPut | apply kept_foldl | split | intro _ _ _
theorem kept_uncountCmd (s : State) (c : Cmd) (h0 : Kept q0 c0 s) : Kept q0 c0 (uncountCmd s c).1 := by
  unfold uncountCmd
  try dsimp only
  with_reducible repeat' first | assumption | apply keptAct_trap | apply kept_settleGrid | apply kept_setGrp | (simp only [kept_mk]; first | apply kept_parts | apply kept_parts_pkg) | split | intro _ _ _ | intro _ _ | intro _
theorem kept_startCopy (s : State) (blk : Nat) (c : Cmd) (h0 : Kept q0 c0 s) : Kept q0 c0 (startCopy s blk c) := by
  unfold startCopy
  try dsimp only
  with_reducible repeat' first | assumption | apply kept_chargeBudget | apply kept_setCopyCmd | apply kept_uncountCmd | (refine kept_fst ?_ ‹_ = (_, _)›; apply kept_stageCmd) | apply kept_startRemote | (refine kept_fst ?_ ‹_ = (_, _)›; apply kept_raddMake) | apply kept_addContribution | split
theorem kept_execCopyCommandStart (blk : Nat) (s : State) (h0 : Kept q0 c0 s) : KeptOut q0 c0 (execCopyCommandStart blk s) := by
  unfold execCopyCommandStart
  try dsimp only
  with_reducible repeat' first | assumption | apply kept_settleCopy | apply kept_startCopy | apply keptOut_next | exact keptOut_fault | split
theorem kept_execCopyChunkDone (blk seq chunk : Nat) (s : State) (h0 : Kept q0 c0 s) : KeptOut q0 c0 (execCopyChunkDone blk seq chunk s) := by
  unfold execCopyChunkDone
  try dsimp only
  with_reducible repeat' first | assumption | (refine kept_fst ?_ ‹_ = (_, _)›; apply kept_runCopy) | apply kept_setBlk | apply keptOut_next | exact keptOut_fault | split
theorem kept_execCopyCommandComplete (blk seq : Nat) (s : State) (h0 : Kept q0 c0 s) : KeptOut q0 c0 (execCopyCommandComplete blk seq s) := by
  unfold execCopyCommandComplete
  try dsimp only
  with_reducible repeat' first | assumption | apply keptAct_trap | apply kept_settleCopy | apply kept_finishCopy | (refine kept_fst ?_ ‹_ = (_, _)›; apply kept_runAtom) | apply kept_runAtom | (refine kept_fst ?_ ‹_ = (_, _)›; apply kept_runCopy) | apply kept_runCopy | apply kept_endCopy | apply keptOut_next | exact keptOut_fault | apply keptAct_done | exact keptAct_trap | apply keptAct_trapIn | apply keptAct_wait | split | intro _ _ _ | intro _ _ | intro _
theorem kept_dropEntry (s : State) (blk seq : Nat) (h0 : Kept q0 c0 s) : Kept q0 c0 (dropEntry s blk seq) := by
  unfold dropEntry
  try dsimp only
  with_reducible repeat' first | assumption | apply keptAct_trap | apply kept_settleGrid | apply kept_setBlk | (simp only [kept_mk]; first | apply kept_parts | apply kept_parts_pkg) | apply keptAct_done | exact keptAct_trap | apply keptAct_trapIn | apply keptAct_wait | split | intro _ _ _ | intro _ _ | intro _
theorem kept_applyWords (s : State) (ws : List RaddWord) (h0 : Kept q0 c0 s) : Kept q0 c0 (applyWords s ws) := by
  unfold applyWords
  with_reducible repeat' first | assumption | apply kept_setFresh | apply kept_homeWrite | apply kept_foldl | intro _ _ _
theorem kept_sendReply (s : State) (op : Nat) (fl : Flit) (h0 : Kept q0 c0 s) : Kept q0 c0 (sendReply s op fl) := by
  unfold sendReply
  with_reducible repeat' first | assumption | apply kept_sendOn | apply kept_setLinks
theorem kept_ackFlits (s : State) (world ctx dst op : Nat) (a0 : Nat) (a1 : List Nat) (h0 : Kept q0 c0 s) : Kept q0 c0 (ackFlits s world ctx dst op a0 a1) := by
  fun_induction ackFlits s world ctx dst op a0 a1 <;> (with_reducible repeat' first | apply kept_sendReply | apply_assumption)
theorem kept_contributionDone (s : State) (c : Contribution) (st : CmdStatus) (addr : Nat) (h0 : Kept q0 c0 s) : Kept q0 c0 (contributionDone s c st addr) := by
  unfold contributionDone
  try dsimp only
  with_reducible repeat' first | assumption | apply kept_setLinks | apply kept_ackFlits | apply kept_dropEntry | apply kept_heldError | apply kept_endCopy | apply kept_foldl | split | intro _ _ _
theorem kept_execOrderedReductionApply (i : Nat) (s : State) (h0 : Kept q0 c0 s) : KeptOut q0 c0 (execOrderedReductionApply i s) := by
  unfold execOrderedReductionApply
  try dsimp only
  with_reducible repeat' first | assumption | apply kept_setLinks | apply kept_contributionDone | apply kept_applyWords | apply kept_homeWrite | apply keptOut_next | exact keptOut_fault | split
theorem kept_markSent (s : State) (blk seq : Nat) (h0 : Kept q0 c0 s) : Kept q0 c0 (markSent s blk seq) := h0
theorem kept_drainRemote (s : State) (blk : Nat) (e : HeldEntry) (h0 : Kept q0 c0 s) : Kept q0 c0 (drainRemote s blk e) := by
  unfold drainRemote
  try dsimp only
  with_reducible repeat' first | assumption | apply kept_dropEntry | apply kept_heldError | apply kept_markSent | apply kept_startAtom | apply kept_startRadd | apply kept_startPut | split
theorem kept_useDrained (s : State) (blk : Nat) (e : HeldEntry) (h0 : Kept q0 c0 s) : Kept q0 c0 (useDrained s blk e) := by
  unfold useDrained
  try dsimp only
  with_reducible repeat' first | assumption | apply kept_usePage | apply kept_foldl | split | intro _ _ _
theorem kept_drainLocal (s : State) (blk : Nat) (e : HeldEntry) (h0 : Kept q0 c0 s) : Kept q0 c0 (drainLocal s blk e) := by
  unfold drainLocal
  try dsimp only
  with_reducible repeat' first | assumption | apply kept_dropEntry | apply kept_heldError | apply kept_useDrained | apply kept_atomHome | apply kept_endCopy | apply kept_copyWrite | apply kept_addContribution | apply kept_markSent | split
theorem kept_execHoldDrain (blk : Nat) (s : State) (h0 : Kept q0 c0 s) : KeptOut q0 c0 (execHoldDrain blk s) := by
  unfold execHoldDrain
  try dsimp only
  with_reducible repeat' first | assumption | (refine kept_some ?_ ‹_ = some _›; apply kept_performEffect) | apply kept_setBlk | apply kept_drainRemote | apply kept_drainLocal | apply keptOut_next | exact keptOut_fault | split
theorem kept_writeRun (blk : Nat) (v : MView) (n : Nat) (s : State) (e : Nat × Nat × List (Option Byte)) (h0 : Kept q0 c0 s) : Kept q0 c0 (writeRun blk v n s e) := by
  unfold writeRun
  with_reducible repeat' first | assumption | apply kept_engineBytes | apply kept_disturbBlock | apply kept_wakeWords | apply kept_foldl
theorem kept_writeOut (s : State) (blk : Nat) (v : MView) (o : MOut) (h0 : Kept q0 c0 s) : Kept q0 c0 (writeOut s blk v o) := by
  unfold writeOut
  with_reducible repeat' first | assumption | apply kept_setBlk | apply kept_setFresh | apply kept_writeRun | apply kept_foldl
theorem kept_execMatrixCommandStart (blk : Nat) (s : State) (h0 : Kept q0 c0 s) : KeptOut q0 c0 (execMatrixCommandStart blk s) := by
  unfold execMatrixCommandStart
  try dsimp only
  with_reducible repeat' first | assumption | apply keptAct_trap | apply kept_chargeBudget | apply kept_setBlk | apply kept_ringMoved | (simp only [kept_mk]; first | apply kept_parts | apply kept_parts_pkg) | apply keptOut_next | exact keptOut_fault | split | intro _ _ _ | intro _ _ | intro _
theorem kept_runMatrix (s : State) (blk : Nat) (c : Cmd) (h0 : Kept q0 c0 s) : Kept q0 c0 (runMatrix s blk c) := by
  unfold runMatrix
  try dsimp only
  with_reducible repeat' first | assumption | apply keptAct_trap | apply kept_freeSpans | apply kept_writeOut | apply kept_freeResults | apply kept_ringMoved | apply kept_setBlk | (simp only [kept_mk]; first | apply kept_parts | apply kept_parts_pkg) | apply kept_foldl | apply keptAct_done | exact keptAct_trap | apply keptAct_trapIn | apply keptAct_wait | split | intro _ _ _ | intro _ _ | intro _
theorem kept_execMatrixCommandComplete (blk seq : Nat) (s : State) (h0 : Kept q0 c0 s) : KeptOut q0 c0 (execMatrixCommandComplete blk seq s) := by
  unfold execMatrixCommandComplete
  with_reducible repeat' first | assumption | apply kept_runMatrix | apply keptOut_next | exact keptOut_fault | split
theorem kept_setBar (s : State) (i : Nat) (x : BarSlot) (h0 : Kept q0 c0 s) : Kept q0 c0 (setBar s i x) := h0
theorem kept_barmaskIn (i : Nat) (s : State) (g : Nat) (h0 : Kept q0 c0 s) : Kept q0 c0 (barmaskIn i s g) := by
  unfold barmaskIn
  try dsimp only
  with_reducible repeat' first | assumption | apply kept_takeTrap | apply kept_setGrp | split
theorem kept_barReset (s : State) (i : Nat) (self : Bool) (h0 : Kept q0 c0 s) : Kept q0 c0 (barReset s i self) := by
  unfold barReset
  with_reducible repeat' first | assumption | apply kept_setBar | apply kept_barmaskIn | apply kept_foldl
theorem kept_arriveSlot (s : State) (i : Nat) (mask member : Mask) (after : State → Act) (h0 : Kept q0 c0 s) (f0 : ∀ y0, Kept q0 c0 y0 → KeptAct q0 c0 (after y0)) : KeptAct q0 c0 (arriveSlot s i mask member after) := by
  unfold arriveSlot
  try dsimp only
  with_reducible repeat' first | assumption | apply keptAct_trap | apply kept_setCg | apply kept_barReset | apply kept_settleBlock | apply kept_setBar | apply keptAct_trapIn | apply keptAct_wait | apply f0 | split
theorem kept_oneArm (s : State) (k : Act) (g0 : KeptAct q0 c0 k) : KeptAct q0 c0 (oneArm s k) := by
  unfold oneArm
  with_reducible repeat' first | assumption | apply keptAct_trap | split
theorem kept_meetSlot (s : State) (i : Nat) (h0 : Kept q0 c0 s) : KeptAct q0 c0 (meetSlot s i) := by
  unfold meetSlot
  try dsimp only
  with_reducible repeat' first | assumption | apply keptAct_trap | apply kept_acquire | apply kept_seeView | apply kept_setBar | (simp only [kept_mk]; first | apply kept_parts | apply kept_parts_pkg) | apply keptAct_done | exact keptAct_trap | apply keptAct_trapIn | apply keptAct_wait | split | intro _ _ _ | intro _ _ | intro _
theorem kept_arriveAndWait (s : State) (i : Nat) (mask member : Mask) (h0 : Kept q0 c0 s) : KeptAct q0 c0 (arriveAndWait s i mask member) := by
  unfold arriveAndWait
  with_reducible repeat' first | assumption | apply kept_oneArm | apply kept_waitFor | apply kept_meetSlot | apply kept_arriveSlot | apply kept_releaseFence | split | intro _ _
theorem kept_execBar (st : BitVec 2) (i : BitVec 3) (s : State) (h0 : Kept q0 c0 s) : KeptOut q0 c0 (execBar st i s) := by
  unfold execBar
  with_reducible repeat' first | assumption | apply kept_issue | apply kept_arriveAndWait | intro _ _
theorem kept_execBarm (st : BitVec 2) (a : BitVec 5) (i : BitVec 3) (s : State) (h0 : Kept q0 c0 s) : KeptOut q0 c0 (execBarm st a i s) := by
  unfold execBarm
  with_reducible repeat' first | assumption | apply kept_issue | apply kept_arriveAndWait | intro _ _
theorem kept_execArrive (st : BitVec 2) (i : BitVec 3) (s : State) (h0 : Kept q0 c0 s) : KeptOut q0 c0 (execArrive st i s) := by
  unfold execArrive
  with_reducible repeat' first | assumption | apply kept_issue | apply kept_oneArm | apply kept_arriveSlot | apply kept_releaseFence | apply keptAct_done | intro _ _
theorem kept_execAwait (st : BitVec 2) (i : BitVec 3) (s : State) (h0 : Kept q0 c0 s) : KeptOut q0 c0 (execAwait st i s) := by
  unfold execAwait
  with_reducible repeat' first | assumption | apply kept_issue | apply kept_oneArm | apply kept_setCg | apply kept_waitFor | apply kept_meetSlot | apply keptAct_trapIn | split | intro _ _
theorem kept_meetGang (s : State) (h0 : Kept q0 c0 s) : KeptAct q0 c0 (meetGang s) := by
  unfold meetGang
  try dsimp only
  with_reducible repeat' first | assumption | apply keptAct_trap | apply kept_acquire | apply kept_seeView | apply keptAct_done | exact keptAct_trap | apply keptAct_trapIn | apply keptAct_wait | split | intro _ _ _ | intro _ _ | intro _
theorem kept_meetGrid (s : State) (h0 : Kept q0 c0 s) : KeptAct q0 c0 (meetGrid s) := by
  unfold meetGrid
  try dsimp only
  with_reducible repeat' first | assumption | apply keptAct_trap | apply kept_acquire | apply kept_seeView | apply keptAct_done | exact keptAct_trap | apply keptAct_trapIn | apply keptAct_wait | split | intro _ _ _ | intro _ _ | intro _
theorem kept_execBarc (st : BitVec 2) (s : State) (h0 : Kept q0 c0 s) : KeptOut q0 c0 (execBarc st s) := by
  unfold execBarc
  with_reducible repeat' first | assumption | apply kept_issue | apply kept_oneArm | apply kept_waitFor | apply kept_meetGang | apply kept_releaseFence | apply kept_settleGang | apply kept_setGang | split | intro _ _
theorem kept_execBarg (st : BitVec 2) (s : State) (h0 : Kept q0 c0 s) : KeptOut q0 c0 (execBarg st s) := by
  unfold execBarg
  with_reducible refine kept_issue _ _ _ h0 fun s h0 => kept_oneArm _ _ ?_
  split
  · exact kept_waitFor _ _ _ h0 fun _ h => kept_meetGrid _ h
  · refine kept_waitFor _ _ _ (kept_releaseOnce _ _ h0) fun s h => ?_
    dsimp only
    exact kept_waitFor _ _ _ (kept_settleGrid _ _ (kept_setCg _ _ (kept_setKern _ _ _ h))) fun _ h => kept_meetGrid _ h
theorem kept_execBarinit (st : BitVec 2) (a : BitVec 5) (i : BitVec 3) (s : State) (h0 : Kept q0 c0 s) : KeptOut q0 c0 (execBarinit st a i s) := by
  unfold execBarinit
  with_reducible repeat' first | assumption | apply kept_issue | apply kept_oneArm | apply kept_barReset | apply kept_setBar | apply keptAct_done | split | intro _ _
theorem kept_execBarrd (st : BitVec 2) (d : BitVec 7) (k : BitVec 2) (i : BitVec 3) (s : State) (h0 : Kept q0 c0 s) : KeptOut q0 c0 (execBarrd st d k i s) := by
  unfold execBarrd
  with_reducible repeat' first | assumption | apply kept_issue | apply kept_oneArm | apply kept_uniOut | intro _ _
theorem kept_captureLoop (s : State) (target : Addr) (h0 : Kept q0 c0 s) : Kept q0 c0 (captureLoop s target) := by
  unfold captureLoop
  try dsimp only
  with_reducible repeat' first | assumption | apply keptAct_trap | apply kept_ws | apply kept_setCore | apply keptAct_done | exact keptAct_trap | apply keptAct_trapIn | apply keptAct_wait | split | intro _ _ _ | intro _ _ | intro _
theorem kept_jumpTo (s : State) (a : Addr) (h0 : Kept q0 c0 s) : Kept q0 c0 (jumpTo s a) := h0
theorem kept_branchTo (s : State) (a : Addr) (h0 : Kept q0 c0 s) : Kept q0 c0 (branchTo s a) := by
  unfold branchTo
  with_reducible repeat' first | assumption | apply kept_jumpTo | apply kept_captureLoop
theorem kept_execBra (st : BitVec 2) (p : BitVec 3) (n : BitVec 1) (o : BitVec 18) (s : State) (h0 : Kept q0 c0 s) : KeptOut q0 c0 (execBra st p n o s) := by
  unfold execBra
  with_reducible repeat' first | assumption | apply kept_issue | apply kept_branchTo | apply keptAct_done | split | intro _ _
theorem kept_splitPath (s : State) (q : Mask) (target : Addr) (h0 : Kept q0 c0 s) : KeptAct q0 c0 (splitPath s q target) := by
  unfold splitPath
  try dsimp only
  with_reducible repeat' first | assumption | apply keptAct_trap | apply kept_branchTo | apply kept_setCg | apply kept_captureLoop | apply kept_setCp | apply keptAct_done | split
theorem kept_execBr (st : BitVec 2) (p : BitVec 3) (n : BitVec 1) (o : BitVec 18) (s : State) (h0 : Kept q0 c0 s) : KeptOut q0 c0 (execBr st p n o s) := by
  unfold execBr
  with_reducible repeat' first | assumption | apply kept_issue | apply kept_splitPath | intro _ _
theorem kept_joinPath (s : State) (h0 : Kept q0 c0 s) : Kept q0 c0 (joinPath s) := by
  unfold joinPath
  try dsimp only
  with_reducible repeat' first | assumption | apply kept_setCp | apply kept_setCg | split
theorem kept_execJoin (st : BitVec 2) (s : State) (h0 : Kept q0 c0 s) : KeptOut q0 c0 (execJoin st s) := by
  unfold execJoin
  with_reducible repeat' first | assumption | apply kept_issue | apply kept_joinPath | apply keptAct_done | intro _ _
theorem kept_execJmp (st : BitVec 2) (o : BitVec 18) (s : State) (h0 : Kept q0 c0 s) : KeptOut q0 c0 (execJmp st o s) := by
  unfold execJmp
  with_reducible repeat' first | assumption | apply kept_issue | apply kept_branchTo | apply keptAct_done | intro _ _
theorem kept_execCall (st : BitVec 2) (o : BitVec 18) (s : State) (h0 : Kept q0 c0 s) : KeptOut q0 c0 (execCall st o s) := by
  unfold execCall
  try dsimp only
  with_reducible repeat' first | assumption | apply keptAct_trap | apply kept_issue | apply kept_branchTo | apply kept_setCp | apply keptAct_done | split | intro _ _
theorem kept_execRet (st : BitVec 2) (s : State) (h0 : Kept q0 c0 s) : KeptOut q0 c0 (execRet st s) := by
  unfold execRet
  try dsimp only
  with_reducible repeat' first | assumption | apply keptAct_trap | apply kept_issue | apply kept_setCp | apply keptAct_done | split | intro _ _
theorem kept_execBrx (st : BitVec 2) (a : BitVec 7) (s : State) (h0 : Kept q0 c0 s) : KeptOut q0 c0 (execBrx st a s) := by
  unfold execBrx
  try dsimp only
  with_reducible repeat' first | assumption | apply keptAct_trap | apply kept_issue | apply kept_jumpTo | (refine kept_snd ?_ ‹_ = (_, _)›; apply kept_tlbLook) | apply kept_tlbLook | (simp only [kept_mk]; first | apply kept_parts | apply kept_parts_pkg) | apply keptOut_next | exact keptOut_fault | apply keptAct_done | exact keptAct_trap | apply keptAct_trapIn | apply keptAct_wait | split | intro _ _ _ | intro _ _ | intro _
theorem kept_retireGroup (s : State) (h0 : Kept q0 c0 s) : Kept q0 c0 (retireGroup s) := by
  unfold retireGroup
  with_reducible repeat' first | assumption | apply kept_recordRelease | apply kept_performStores | apply kept_settleAll | apply kept_setCg
theorem kept_endPath (s : State) (a0 : List StackEntry) (h0 : Kept q0 c0 s) : Kept q0 c0 (endPath s a0) := by
  fun_induction endPath s a0 <;> (with_reducible repeat' first | assumption | apply kept_setCp | apply kept_retireGroup | apply kept_setCg)
theorem kept_execExit (st : BitVec 2) (s : State) (h0 : Kept q0 c0 s) : KeptOut q0 c0 (execExit st s) := by
  unfold execExit
  with_reducible repeat' first | assumption | apply kept_issue | apply kept_setCg | apply kept_endPath | apply keptAct_done | intro _ _
theorem kept_execSleep (st : BitVec 2) (i : BitVec 15) (s : State) (h0 : Kept q0 c0 s) : KeptOut q0 c0 (execSleep st i s) := by
  unfold execSleep
  with_reducible repeat' first | assumption | apply kept_issue | apply kept_waitFor | apply keptAct_done | split | intro _ _
theorem kept_execSleepw (st : BitVec 2) (c : BitVec 2) (a b : BitVec 7) (s : State) (h0 : Kept q0 c0 s) : KeptOut q0 c0 (execSleepw st c a b s) := by
  unfold execSleepw
  try dsimp only
  with_reducible repeat' first | assumption | apply keptAct_trap | apply kept_issue | apply kept_acquire | apply kept_waitFor | apply kept_noteRead | apply keptAct_done | split | intro _ _
theorem kept_execEmrd (st : BitVec 2) (d : BitVec 5) (s : State) (h0 : Kept q0 c0 s) : KeptOut q0 c0 (execEmrd st d s) := by
  unfold execEmrd
  with_reducible repeat' first | assumption | apply kept_issue | apply kept_wsList | apply keptAct_done | intro _ _
theorem kept_execEmwr (st : BitVec 2) (a : BitVec 5) (s : State) (h0 : Kept q0 c0 s) : KeptOut q0 c0 (execEmwr st a s) := by
  unfold execEmwr
  with_reducible repeat' first | assumption | apply kept_issue | apply kept_setCp | apply keptAct_done | intro _ _
theorem kept_execEmandReg (st : BitVec 2) (a : BitVec 5) (s : State) (h0 : Kept q0 c0 s) : KeptOut q0 c0 (execEmandReg st a s) := by
  unfold execEmandReg
  with_reducible repeat' first | assumption | apply kept_issue | apply kept_setCp | apply keptAct_done | intro _ _
theorem kept_execEmandPred (st : BitVec 2) (p : BitVec 3) (n : BitVec 1) (s : State) (h0 : Kept q0 c0 s) : KeptOut q0 c0 (execEmandPred st p n s) := by
  unfold execEmandPred
  with_reducible repeat' first | assumption | apply kept_issue | apply kept_setCp | apply keptAct_done | intro _ _
theorem kept_markHeaded (s : State) (m : Mask) (h0 : Kept q0 c0 s) : Kept q0 c0 (markHeaded s m) := by
  unfold markHeaded
  try dsimp only
  with_reducible repeat' first | assumption | apply keptAct_trap | apply kept_setCg | (simp only [kept_mk]; first | apply kept_parts | apply kept_parts_pkg) | split | intro _ _ _ | intro _ _ | intro _
theorem kept_takeItem (s : State) (t : Nat) (h0 : Kept q0 c0 s) : Kept q0 c0 (takeItem s t) := by
  unfold takeItem
  try dsimp only
  with_reducible repeat' first | assumption | apply keptAct_trap | apply kept_markHeaded | apply kept_setDiverged | apply kept_setCg | apply kept_setCb | apply kept_setKern | apply kept_traceAppend | apply kept_setCp | (simp only [kept_mk]; first | apply kept_parts | apply kept_parts_pkg) | split | intro _ _ _ | intro _ _ | intro _
theorem kept_loopHead (s : State) (handled : Mask) (a0 : List Nat) (h0 : Kept q0 c0 s) : KeptAct q0 c0 (loopHead s handled a0) := by
  fun_induction loopHead s handled a0 <;> (with_reducible repeat' first | apply kept_takeItem | apply_assumption)
theorem kept_execLhead (st : BitVec 2) (p : BitVec 3) (n : BitVec 1) (s : State) (h0 : Kept q0 c0 s) : KeptOut q0 c0 (execLhead st p n s) := by
  unfold execLhead
  try dsimp only
  with_reducible repeat' first | assumption | apply keptAct_trap | apply kept_issue | apply kept_loopHead | apply kept_markHeaded | apply keptOut_next | exact keptOut_fault | apply keptAct_done | exact keptAct_trap | apply keptAct_trapIn | apply keptAct_wait | split | intro _ _ _ | intro _ _ | intro _
theorem kept_execRegion (st : BitVec 2) (i : BitVec 8) (s : State) (h0 : Kept q0 c0 s) : KeptOut q0 c0 (execRegion st i s) := by
  unfold execRegion
  try dsimp only
  with_reducible repeat' first | assumption | apply keptAct_trap | apply kept_issue | apply kept_setCg | (simp only [kept_mk]; first | apply kept_parts | apply kept_parts_pkg) | apply keptAct_done | split | intro _ _
theorem kept_execRegend (st : BitVec 2) (s : State) (h0 : Kept q0 c0 s) : KeptOut q0 c0 (execRegend st s) := by
  unfold execRegend
  with_reducible repeat' first | assumption | apply kept_issue | apply kept_setCg | apply keptAct_done | intro _ _
theorem kept_execTrap (st : BitVec 2) (n : BitVec 16) (s : State) (h0 : Kept q0 c0 s) : KeptOut q0 c0 (execTrap st n s) := by
  unfold execTrap
  with_reducible repeat' first | assumption | apply keptAct_trap | apply kept_issue | intro _ _
theorem kept_execBrk (st : BitVec 2) (n : BitVec 15) (s : State) (h0 : Kept q0 c0 s) : KeptOut q0 c0 (execBrk st n s) := by
  unfold execBrk
  with_reducible repeat' first | assumption | apply keptAct_trap | apply kept_issue | apply keptAct_done | split | intro _ _
theorem kept_leaveHandler (s : State) (restart : Bool) (h0 : Kept q0 c0 s) : Kept q0 c0 (leaveHandler s restart) := by
  unfold leaveHandler
  try dsimp only
  with_reducible repeat' first | assumption | apply keptAct_trap | apply kept_setCg | apply kept_regionRestart | (simp only [kept_mk]; first | apply kept_parts | apply kept_parts_pkg) | split | intro _ _ _ | intro _ _ | intro _
theorem kept_execRft (st : BitVec 2) (r : BitVec 1) (s : State) (h0 : Kept q0 c0 s) : KeptOut q0 c0 (execRft st r s) := by
  unfold execRft
  with_reducible repeat' first | assumption | apply kept_issue | apply kept_leaveHandler | apply keptAct_done | intro _ _
theorem kept_acquireShape (s : State) (h0 : Kept q0 c0 s) : Kept q0 c0 (acquireShape s) := by
  unfold acquireShape
  try dsimp only
  with_reducible repeat' first | assumption | apply keptAct_trap | apply kept_acquire | apply kept_seeView | split | intro _ _ _ | intro _ _ | intro _
theorem kept_execSrd (st : BitVec 2) (d c : BitVec 7) (l : BitVec 1) (s : State) (h0 : Kept q0 c0 s) : KeptOut q0 c0 (execSrd st d c l s) := by
  unfold execSrd
  try dsimp only
  with_reducible repeat' first | assumption | apply keptAct_trap | apply kept_issue | apply kept_setCg | apply kept_wv | apply kept_ws | apply kept_waitFor | apply kept_acquireShape | (simp only [kept_mk]; first | apply kept_parts | apply kept_parts_pkg) | apply keptOut_next | exact keptOut_fault | apply keptAct_done | exact keptAct_trap | apply keptAct_trapIn | apply keptAct_wait | split | intro _ _ _ | intro _ _ | intro _
theorem kept_execSwr (st : BitVec 2) (a c : BitVec 7) (s : State) (h0 : Kept q0 c0 s) : KeptOut q0 c0 (execSwr st a c s) := by
  unfold execSwr
  with_reducible repeat' first | assumption | apply kept_issue | apply kept_setCb | apply keptAct_done | intro _ _
theorem kept_execSrdp (st : BitVec 2) (d c : BitVec 7) (s : State) (h0 : Kept q0 c0 s) : KeptOut q0 c0 (execSrdp st d c s) := by
  unfold execSrdp
  with_reducible repeat' first | assumption | apply kept_issue | apply kept_ws | apply keptAct_done | intro _ _
theorem kept_execSwrp (st : BitVec 2) (a c : BitVec 7) (s : State) (h0 : Kept q0 c0 s) : KeptOut q0 c0 (execSwrp st a c s) := by
  unfold execSwrp
  with_reducible repeat' first | assumption | apply kept_issue | apply kept_setCg | apply keptAct_done | intro _ _
theorem kept_execLaneid (st : BitVec 2) (d : BitVec 7) (s : State) (h0 : Kept q0 c0 s) : KeptOut q0 c0 (execLaneid st d s) := by
  unfold execLaneid
  with_reducible repeat' first | assumption | apply kept_issue | apply kept_laneOut | intro _ _
theorem kept_execNop (st : BitVec 2) (s : State) (h0 : Kept q0 c0 s) : KeptOut q0 c0 (execNop st s) := by
  unfold execNop
  with_reducible repeat' first | assumption | apply kept_issue | apply keptAct_done
theorem kept_execSnop (st : BitVec 2) (s : State) (h0 : Kept q0 c0 s) : KeptOut q0 c0 (execSnop st s) := by
  unfold execSnop
  with_reducible repeat' first | assumption | apply kept_issue | apply keptAct_done
theorem kept_execGroupWaitEnds (g : Nat) (s : State) (h0 : Kept q0 c0 s) : KeptOut q0 c0 (execGroupWaitEnds g s) := by
  unfold execGroupWaitEnds
  try dsimp only
  with_reducible repeat' first | assumption | apply kept_setGrp | apply keptOut_next | exact keptOut_fault | split
theorem kept_fetchWord (s : State) (h0 : Kept q0 c0 s) : KeptFetch q0 c0 (fetchWord s) := by
  unfold fetchWord
  try dsimp only
  with_reducible repeat' first | assumption | apply keptAct_trap | (refine kept_snd ?_ ‹_ = (_, _)›; apply kept_tlbLook) | apply kept_tlbLook | apply kept_usePage | apply kept_setCore | (simp only [kept_mk]; first | apply kept_parts | apply kept_parts_pkg) | apply keptAct_done | exact keptAct_trap | apply keptAct_trapIn | apply keptAct_wait | apply keptFetch_word | apply keptFetch_trap | split | intro _ _ _ | intro _ _ | intro _
theorem kept_fillMiss (s : State) (onB : Bool) (h0 : Kept q0 c0 s) : Kept q0 c0 (fillMiss s onB) := by
  unfold fillMiss
  with_reducible repeat' first | assumption | (refine keptFetch_word_of ?_ ‹_ = Fetched.word _ _›; apply kept_fetchWord) | apply kept_setCg | split
theorem kept_beginTurn (s : State) (gid : Nat) (h0 : Kept q0 c0 s) : Kept q0 c0 (beginTurn s gid).1 := by
  unfold beginTurn
  try dsimp only
  with_reducible repeat' first | assumption | apply keptAct_trap | apply kept_setCg | apply kept_fillMiss | (simp only [kept_mk]; first | apply kept_parts | apply kept_parts_pkg) | apply kept_foldl | apply keptAct_done | exact keptAct_trap | apply keptAct_trapIn | apply keptAct_wait | split | intro _ _ _ | intro _ _ | intro _
theorem kept_closeRegion (s : State) (h0 : Kept q0 c0 s) : Kept q0 c0 (closeRegion s) := by
  unfold closeRegion
  try dsimp only
  with_reducible repeat' first | assumption | apply kept_setCg | split
theorem kept_fetchInstr (s : State) (h0 : Kept q0 c0 s) : Kept q0 c0 (fetchInstr s).1 := by
  unfold fetchInstr
  with_reducible repeat' first | assumption | (refine keptFetch_word_of ?_ ‹_ = Fetched.word _ _›; apply kept_fetchWord) | (refine keptFetch_trap_of ?_ ‹_ = Fetched.trap _ _›; apply kept_fetchWord) | apply kept_closeRegion | split
theorem kept_failRank (s : State) (k r part : Nat) (t : TrapCode) (page : Option Nat) (h0 : Kept q0 c0 s) : Kept q0 c0 (failRank s k r part t page) := by
  unfold failRank
  try dsimp only
  with_reducible repeat' first | assumption | apply keptAct_trap | apply kept_setKern | apply kept_routeRecord | apply kept_postEvent | (simp only [kept_mk]; first | apply kept_parts | apply kept_parts_pkg) | split | intro _ _ _ | intro _ _ | intro _
theorem kept_readKernel (s : State) (k r : Nat) (h0 : Kept q0 c0 s) : Kept q0 c0 (readKernel s k r) := h0
theorem kept_nextGang (s : State) (k r : Nat) (h0 : Kept q0 c0 s) : ∀ t, nextGang s k r = some t → Kept q0 c0 t.2 := by
  unfold nextGang
  try dsimp only
  with_reducible repeat' first | assumption | apply keptAct_trap | apply kept_setKern | apply kept_setDiverged | (simp only [kept_mk]; first | apply kept_parts | apply kept_parts_pkg) | apply keptAct_done | exact keptAct_trap | apply keptAct_trapIn | apply keptAct_wait | refine kept_of_some2 ?_ ‹some (_, _) = some _› | exact kept_of_none ‹none = some _› | split | intro _ _ _ | intro _ _ | intro _
theorem kept_addBlock (s : State) (b : Block) (h : Header) (places : List (Nat × Nat × Nat × Nat)) (h0 : Kept q0 c0 s) : Kept q0 c0 (addBlock s b h places) := by
  unfold addBlock
  try dsimp only
  with_reducible repeat' first | assumption | apply keptAct_trap | apply kept_setGang | apply kept_setBlk | (simp only [kept_mk]; first | apply kept_parts | apply kept_parts_pkg) | apply kept_foldl | apply keptAct_done | exact keptAct_trap | apply keptAct_trapIn | apply keptAct_wait | split | intro _ _ _ | intro _ _ | intro _
theorem kept_addBlocks (h : Header) (a0 : State) (a1 : List (Block × List (Nat × Nat × Nat × Nat))) (h0 : Kept q0 c0 a0) : Kept q0 c0 (addBlocks h a0 a1) := by
  fun_induction addBlocks h a0 a1 <;> (with_reducible repeat' first | apply_assumption)
theorem kept_placeGang (s : State) (k r q cluster base : Nat) (places : List (List (Nat × Nat × Nat × Nat))) (h0 : Kept q0 c0 s) : Kept q0 c0 (placeGang s k r q cluster base places) := by
  unfold placeGang
  try dsimp only
  with_reducible repeat' first | assumption | apply kept_setGang | apply kept_addBlocks | apply kept_setKern | apply kept_traceAppend | (simp only [kept_mk]; first | apply kept_parts | apply kept_parts_pkg) | split
theorem kept_tryPlace (s : State) (k r : Nat) (h0 : Kept q0 c0 s) : Kept q0 c0 (tryPlace s k r) := by
  unfold tryPlace
  with_reducible repeat' first | assumption | (refine kept_some2 ?_ ‹_ = some (_, _)›; apply kept_nextGang) | apply kept_placeGang | split
theorem kept_execGangPlace (kern rank : Nat) (s : State) (h0 : Kept q0 c0 s) : KeptOut q0 c0 (execGangPlace kern rank s) := by
  unfold execGangPlace
  try dsimp only
  with_reducible repeat' first | assumption | apply keptAct_trap | apply kept_dropBanks | apply kept_tryPlace | apply kept_failRank | apply kept_readKernel | apply keptOut_next | exact keptOut_fault | split | intro _ _ _ | intro _ _ | intro _
theorem kept_fillBank (k : Nat) (s : State) (core : Nat) (h0 : Kept q0 c0 s) : Kept q0 c0 (fillBank k s core) := by
  unfold fillBank
  try dsimp only
  with_reducible repeat' first | assumption | apply kept_setCore | split
theorem kept_releaseBlock (s : State) (b : Nat) (h0 : Kept q0 c0 s) : Kept q0 c0 (releaseBlock s b) := h0
theorem kept_execGangRelease (gang : Nat) (s : State) (h0 : Kept q0 c0 s) : KeptOut q0 c0 (execGangRelease gang s) := by
  unfold execGangRelease
  try dsimp only
  with_reducible repeat' first | assumption | apply kept_dropBanks | apply kept_failRank | apply kept_removeAll | apply kept_fillBank | apply kept_setGang | apply kept_releaseBlock | apply kept_foldl | apply keptOut_next | exact keptOut_fault | split
theorem kept_finishRank (s : State) (k r : Nat) (h0 : Kept q0 c0 s) : Kept q0 c0 (finishRank s k r) := by
  unfold finishRank
  with_reducible repeat' first | assumption | apply kept_postEvent | apply kept_setKern | split
theorem kept_retireRelease (s : State) (b : Nat) (h0 : Kept q0 c0 s) : Kept q0 c0 (retireRelease s b) := by
  unfold retireRelease
  try dsimp only
  with_reducible repeat' first | assumption | apply keptAct_trap | (simp only [kept_mk]; first | apply kept_parts | apply kept_parts_pkg) | apply keptAct_done | exact keptAct_trap | apply keptAct_trapIn | apply keptAct_wait | split | intro _ _ _ | intro _ _ | intro _
theorem kept_execBlockRetire (blk : Nat) (s : State) (h0 : Kept q0 c0 s) : KeptOut q0 c0 (execBlockRetire blk s) := by
  unfold execBlockRetire
  try dsimp only
  with_reducible repeat' first | assumption | apply keptAct_trap | apply kept_setKern | apply kept_finishRank | apply kept_removeBlock | apply kept_retireRelease | (simp only [kept_mk]; first | apply kept_parts | apply kept_parts_pkg) | apply keptOut_next | exact keptOut_fault | split | intro _ _ _ | intro _ _ | intro _
theorem kept_withdraw (s : State) (b : Nat) (h0 : Kept q0 c0 s) : Kept q0 c0 (withdraw s b) := h0
theorem kept_saveBlock (region : Bool) (s : State) (b : Nat) (h0 : Kept q0 c0 s) : Kept q0 c0 (saveBlock region s b) := by
  unfold saveBlock
  with_reducible repeat' first | assumption | apply kept_withdraw | apply kept_performStores | apply kept_setGrp | apply kept_setBlk | apply kept_foldl | split | intro _ _ _
theorem kept_flushGang (s : State) (q : Gang) (h0 : Kept q0 c0 s) : Kept q0 c0 (flushGang s q) := by
  unfold flushGang
  try dsimp only
  with_reducible repeat' first | assumption | apply keptAct_trap | apply kept_setKern | apply kept_removeAll | (simp only [kept_mk]; first | apply kept_parts | apply kept_parts_pkg) | apply keptAct_done | exact keptAct_trap | apply keptAct_trapIn | apply keptAct_wait | split | intro _ _ _ | intro _ _ | intro _
theorem kept_preemptGang (bound : Nat) (s : State) (id : Nat) (h0 : Kept q0 c0 s) : Kept q0 c0 (preemptGang bound s id) := by
  unfold preemptGang
  try dsimp only
  with_reducible repeat' first | assumption | apply kept_flushGang | apply kept_setGang | apply kept_saveBlock | apply kept_foldl | split
theorem kept_preemptCtx (s : State) (ctx bound : Nat) (h0 : Kept q0 c0 s) : Kept q0 c0 (preemptCtx s ctx bound) := by
  unfold preemptCtx
  with_reducible repeat' first | assumption | apply kept_preemptGang | apply kept_foldl
theorem kept_execPreempt (blocks : List Nat) (bound : Nat) (s : State) (h0 : Kept q0 c0 s) : KeptOut q0 c0 (execPreempt blocks bound s) := by
  unfold execPreempt
  with_reducible repeat' first | assumption | apply kept_preemptGang | apply kept_foldl | apply keptOut_next | exact keptOut_fault | split
theorem kept_resumeBlock (cluster base : Nat) (s : State) (e : Nat × List (Nat × Nat × Nat × Nat)) (h0 : Kept q0 c0 s) : Kept q0 c0 (resumeBlock cluster base s e) := h0
theorem kept_restartGroups (s : State) (gs : List Nat) (h0 : Kept q0 c0 s) : Kept q0 c0 (restartGroups s gs) := by
  unfold restartGroups
  try dsimp only
  with_reducible repeat' first | assumption | apply keptAct_trap | apply kept_regionRestart | apply kept_foldl | apply keptAct_done | exact keptAct_trap | apply keptAct_trapIn | apply keptAct_wait | split | intro _ _ _ | intro _ _ | intro _
theorem kept_resumeGang (s : State) (id : Nat) (cluster base : Nat) (places : List (List (Nat × Nat × Nat × Nat))) (h0 : Kept q0 c0 s) : Kept q0 c0 (resumeGang s id cluster base places) := by
  unfold resumeGang
  try dsimp only
  with_reducible repeat' first | assumption | apply keptAct_trap | apply kept_resumeBlock | apply kept_setGang | apply kept_restartGroups | apply kept_traceAppend | (simp only [kept_mk]; first | apply kept_parts | apply kept_parts_pkg) | apply kept_foldl | apply keptAct_done | exact keptAct_trap | apply keptAct_trapIn | apply keptAct_wait | split | intro _ _ _ | intro _ _ | intro _
theorem kept_execGangResume (gang : Nat) (s : State) (h0 : Kept q0 c0 s) : KeptOut q0 c0 (execGangResume gang s) := by
  unfold execGangResume
  try dsimp only
  with_reducible repeat' first | assumption | apply keptAct_trap | apply kept_dropBanks | apply kept_resumeGang | apply kept_failRank | apply kept_fillBank | apply kept_foldl | apply keptOut_next | exact keptOut_fault | split | intro _ _ _ | intro _ _ | intro _

end Sys2Proof.Machine
end

