-- ==== Sys2Proof/Laws/KeptUnits.lean ====
section
/-!
SUPPORT. Laws/KeptUnits.lean: the lemmas of Laws/Kept.lean for Machine files Service, Queue, Contexts, Floating, Trust, Porch, Link.
-/
namespace Sys2Proof.Machine
set_option Elab.async false
variable {q0 : Pkg} {c0 : Prop}
theorem kept_execSvc (st : BitVec 2) (d : BitVec 5) (n : BitVec 15) (s : State) (h0 : Kept q0 c0 s) : KeptOut q0 c0 (execSvc st d n s) := by
  unfold execSvc
  try dsimp only
  with_reducible repeat' first | assumption | apply kept_issue | apply kept_setCg | apply kept_wv | apply kept_inTurn | apply kept_holdEffect | apply kept_waitFor | apply kept_appendBatch | (simp only [kept_mk]; first | apply kept_parts | apply kept_parts_pkg) | apply keptAct_done | apply keptAct_trapIn | apply keptAct_wait | split | intro _ _
theorem kept_takeInto (s : State) (die : Nat) (h0 : Kept q0 c0 s) : ∀ t, takeInto s die = some t → Kept q0 c0 t.1 := by
  unfold takeInto
  try dsimp only
  with_reducible repeat' first | assumption | apply kept_setCtx | apply kept_homeWrite | apply kept_setSvc | apply kept_foldl | refine kept_of_some1 ?_ ‹some (_, _) = some _› | exact kept_of_none ‹none = some _› | split | intro _ _
theorem kept_noBatch (s : State) (die : Nat) (h0 : Kept q0 c0 s) : Kept q0 c0 (noBatch s die) := by
  unfold noBatch
  try dsimp only
  with_reducible repeat' first | assumption | apply kept_setSvc | split
theorem kept_execSvctake (st : BitVec 2) (d : BitVec 4) (w : BitVec 1) (s : State) (h0 : Kept q0 c0 s) : KeptOut q0 c0 (execSvctake st d w s) := by
  unfold execSvctake
  with_reducible repeat' first | assumption | apply kept_issue | (refine kept_some1 ?_ ‹_ = some (_, _)›; apply kept_takeInto) | apply kept_ws | apply kept_wsList | apply kept_noBatch | apply keptAct_done | apply keptAct_wait | split | intro _ _
theorem kept_answerBatch (s : State) (die i : Nat) (a : Area) (status : Nat) (h0 : Kept q0 c0 s) : Kept q0 c0 (answerBatch s die i a status) := by
  unfold answerBatch
  try dsimp only
  with_reducible repeat' first | assumption | apply kept_setSvc | apply kept_chargeBudget | apply kept_setGrp | split
theorem kept_execSvcdone (st : BitVec 2) (a b : BitVec 7) (s : State) (h0 : Kept q0 c0 s) : KeptOut q0 c0 (execSvcdone st a b s) := by
  unfold execSvcdone
  try dsimp only
  with_reducible repeat' first | assumption | apply kept_issue | apply kept_answerBatch | apply keptAct_done | split | intro _ _
theorem kept_raiseClass (s : State) (ctx cls unit severity : Nat) (h0 : Kept q0 c0 s) : Kept q0 c0 (raiseClass s ctx cls unit severity) := by
  unfold raiseClass
  with_reducible repeat' first | assumption | apply kept_routeRecord
theorem kept_putQueue (s : State) (ctx q : Nat) (x : Queue) (h0 : Kept q0 c0 s) : Kept q0 c0 (putQueue s ctx q x) := by
  unfold putQueue
  with_reducible repeat' first | assumption | apply kept_raiseClass | apply kept_setQueue | apply kept_pageWrite | split
theorem kept_postPrio (s : State) (ctx q p : Nat) (h0 : Kept q0 c0 s) : Kept q0 c0 (postPrio s ctx q p) := by
  unfold postPrio
  with_reducible repeat' first | assumption | apply kept_postEvent
theorem kept_takePrio (s : State) (ctx q prio : Nat) (x : Queue) (h0 : Kept q0 c0 s) : Kept q0 c0 (takePrio s ctx q prio x) := by
  unfold takePrio
  try dsimp only
  with_reducible repeat' first | assumption | apply keptAct_trap | apply kept_putQueue | apply kept_postPrio | (simp only [kept_mk]; first | apply kept_parts | apply kept_parts_pkg) | split | intro _ _ _ | intro _ _ | intro _
theorem kept_actNotify (s : State) (ctx q : Nat) (h0 : Kept q0 c0 s) : Kept q0 c0 (actNotify s ctx q) := by
  unfold actNotify
  extract_lets x0 s1
  have h1 : Kept q0 c0 s1 := kept_setCtx _ _ _ h0
  clear_value s1
  split
  · split
    · exact h1
    · exact kept_takePrio _ _ _ _ _ h1
  · split
    · exact kept_putQueue _ _ _ _ h1
    · exact kept_takePrio _ _ _ _ _ h1
theorem kept_latchQueue (s : State) (ctx q : Nat) (h0 : Kept q0 c0 s) : Kept q0 c0 (latchQueue s ctx q) := h0
theorem kept_execNotify (f slot : Nat) (val : Word) (s : State) (h0 : Kept q0 c0 s) : KeptOut q0 c0 (execNotify f slot val s) := by
  unfold execNotify
  with_reducible repeat' first | assumption | apply kept_setPkg | apply kept_actNotify | apply kept_latchQueue | apply keptOut_next | exact keptOut_fault | exact fun hp => pkgFrom_same hp rfl rfl rfl rfl rfl rfl | split
theorem kept_actLatched (s : State) (ctx : Nat) (h0 : Kept q0 c0 s) : Kept q0 c0 (actLatched s ctx) := by
  unfold actLatched
  try dsimp only
  with_reducible repeat' first | assumption | apply kept_actNotify | apply kept_setQueue | apply kept_foldl | split | intro _ _ _
theorem kept_outCmd (s : State) (ctx q seq e : Nat) (h0 : Kept q0 c0 s) : Kept q0 c0 (outCmd s ctx q seq e) := by
  unfold outCmd
  try dsimp only
  with_reducible repeat' first | assumption | apply kept_putQueue | apply kept_queueRecord | split
theorem kept_detachNodes (s : State) (ctx slot : Nat) (h0 : Kept q0 c0 s) : Kept q0 c0 (detachNodes s ctx slot) := h0
theorem kept_outNode (s : State) (ctx slot i e : Nat) (h0 : Kept q0 c0 s) : Kept q0 c0 (outNode s ctx slot i e) := by
  unfold outNode
  try dsimp only
  with_reducible repeat' first | assumption | apply keptAct_trap | apply kept_setGraph | apply kept_detachNodes | apply kept_setCtx | apply kept_queueRecord | apply kept_outCmd | (simp only [kept_mk]; first | apply kept_parts | apply kept_parts_pkg) | split | intro _ _ _ | intro _ _ | intro _
theorem kept_outcome (s : State) (c : CmdRef) (e : Nat) (h0 : Kept q0 c0 s) : Kept q0 c0 (outcome s c e) := by
  unfold outcome
  with_reducible repeat' first | assumption | apply kept_outCmd | apply kept_outNode | split
theorem kept_startCmd (s : State) (c : CmdRef) (kind : Nat) (body : State → Nat → Nat → State) (h0 : Kept q0 c0 s) (f0 : ∀ y0 y1 y2, Kept q0 c0 y0 → Kept q0 c0 (body y0 y1 y2)) : Kept q0 c0 (startCmd s c kind body) := by
  unfold startCmd
  try dsimp only
  with_reducible repeat' first | assumption | apply kept_putQueue | apply kept_outCmd | apply kept_setGraph | apply kept_outNode | apply f0 | split
theorem kept_execLaunchCmd (c : CmdRef) (s : State) (h0 : Kept q0 c0 s) : KeptOut q0 c0 (execLaunchCmd c s) := by
  unfold execLaunchCmd
  with_reducible repeat' first | assumption | apply kept_startCmd | apply kept_postSubmit | apply keptOut_next | exact keptOut_fault | split | intro _ _ _
theorem kept_copyGranule (s0 : State) (ctx src dst n : Nat) (s : State) (i : Nat) (h1 : Kept q0 c0 s) : Kept q0 c0 (copyGranule s0 ctx src dst n s i) := by
  unfold copyGranule
  with_reducible repeat' first | assumption | apply kept_homeWrite | split
theorem kept_execCopy (c : CmdRef) (s : State) (h0 : Kept q0 c0 s) : KeptOut q0 c0 (execCopy c s) := by
  unfold execCopy
  with_reducible repeat' first | assumption | apply kept_startCmd | apply kept_chargeBudget | apply kept_setFresh | apply kept_copyGranule | apply kept_outcome | apply kept_foldl | apply keptOut_next | exact keptOut_fault | split | intro _
theorem kept_execWait (c : CmdRef) (s : State) (h0 : Kept q0 c0 s) : KeptOut q0 c0 (execWait c s) := by
  unfold execWait
  with_reducible repeat' first | assumption | apply kept_startCmd | apply kept_outcome | apply keptOut_next | exact keptOut_fault | split | intro _
theorem kept_endOldWait (s : State) (ctx : Nat) (x : OldWait) (h0 : Kept q0 c0 s) : Kept q0 c0 (endOldWait s ctx x) := by
  unfold endOldWait
  try dsimp only
  with_reducible repeat' first | assumption | apply keptAct_trap | apply kept_setCtx | apply kept_queueRecord | (simp only [kept_mk]; first | apply kept_parts | apply kept_parts_pkg) | split | intro _ _ _ | intro _ _ | intro _
theorem kept_execWaitReevaluate (c : CmdRef) (s : State) (h0 : Kept q0 c0 s) : KeptOut q0 c0 (execWaitReevaluate c s) := by
  unfold execWaitReevaluate
  try dsimp only
  with_reducible repeat' first | assumption | apply keptAct_trap | apply kept_startCmd | apply kept_outcome | apply kept_outNode | apply kept_endOldWait | apply keptOut_next | exact keptOut_fault | apply keptAct_done | exact keptAct_trap | apply keptAct_trapIn | apply keptAct_wait | split | intro _ _ _ | intro _ _ | intro _
theorem kept_execSignal (c : CmdRef) (s : State) (h0 : Kept q0 c0 s) : KeptOut q0 c0 (execSignal c s) := by
  unfold execSignal
  with_reducible repeat' first | assumption | apply kept_startCmd | apply kept_homeWrite | apply kept_outcome | apply keptOut_next | exact keptOut_fault | split | intro _
theorem kept_metWaits (s : State) (h0 : Kept q0 c0 s) : Kept q0 c0 (metWaits s) := by
  unfold metWaits
  try dsimp only
  with_reducible repeat' first | assumption | apply keptAct_trap | (simp only [kept_mk]; first | apply kept_parts | apply kept_parts_pkg) | apply keptAct_done | exact keptAct_trap | apply keptAct_trapIn | apply keptAct_wait | split | intro _ _ _ | intro _ _ | intro _
theorem kept_execGraph (c : CmdRef) (s : State) (h0 : Kept q0 c0 s) : KeptOut q0 c0 (execGraph c s) := by
  unfold execGraph
  with_reducible repeat' first | assumption | apply kept_startCmd | apply kept_setGraph | apply kept_setCond | apply kept_foldl | apply keptOut_next | exact keptOut_fault | split | intro _
theorem kept_execGraphRunStart (ctx slot : Nat) (s : State) (h0 : Kept q0 c0 s) : KeptOut q0 c0 (execGraphRunStart ctx slot s) := by
  unfold execGraphRunStart
  try dsimp only
  with_reducible repeat' first | assumption | apply kept_setGraph | apply kept_outCmd | apply keptOut_next | exact keptOut_fault | split
theorem kept_execCond (c : CmdRef) (s : State) (h0 : Kept q0 c0 s) : KeptOut q0 c0 (execCond c s) := by
  unfold execCond
  with_reducible repeat' first | assumption | apply kept_startCmd | apply kept_outNode | apply kept_setGraph | apply keptOut_next | exact keptOut_fault | split | intro _
theorem kept_settleRun (s : State) (ctx slot : Nat) (h0 : Kept q0 c0 s) : Kept q0 c0 (settleRun s ctx slot) := by
  unfold settleRun
  try dsimp only
  with_reducible repeat' first | assumption | apply kept_setGraph | apply kept_outCmd | split
theorem kept_execCommandComplete (c : CmdRef) (s : State) (h0 : Kept q0 c0 s) : KeptOut q0 c0 (execCommandComplete c s) := by
  unfold execCommandComplete
  try dsimp only
  with_reducible repeat' first | assumption | apply kept_putQueue | apply kept_settleRun | apply kept_setGraph | apply keptOut_next | exact keptOut_fault | split
theorem kept_execQueueOff (ctx q : Nat) (s : State) (h0 : Kept q0 c0 s) : KeptOut q0 c0 (execQueueOff ctx q s) := by
  unfold execQueueOff
  try dsimp only
  with_reducible repeat' first | assumption | apply keptAct_trap | apply kept_putQueue | apply kept_actNotify | apply kept_setQueue | (simp only [kept_mk]; first | apply kept_parts | apply kept_parts_pkg) | apply keptOut_next | exact keptOut_fault | apply keptAct_done | exact keptAct_trap | apply keptAct_trapIn | apply keptAct_wait | split | intro _ _ _ | intro _ _ | intro _
theorem kept_recordedRef (s : State) (c : CmdRef) (h0 : Kept q0 c0 s) : Kept q0 c0 (recordedRef s c) := by
  unfold recordedRef
  with_reducible repeat' first | assumption | apply kept_setQueue | apply kept_setGraph | split
theorem kept_execCompletionRecord (ctx i : Nat) (s : State) (h0 : Kept q0 c0 s) : KeptOut q0 c0 (execCompletionRecord ctx i s) := by
  unfold execCompletionRecord
  try dsimp only
  with_reducible repeat' first | assumption | (refine kept_some ?_ ‹_ = some _›; apply kept_tryRecord) | apply kept_setCtx | apply kept_recordedRef | apply keptOut_next | exact keptOut_fault | split
theorem kept_returnBatch (part : Nat) (s : State) (e : Nat × Area) (h0 : Kept q0 c0 s) : Kept q0 c0 (returnBatch part s e) := by
  unfold returnBatch
  try dsimp only
  with_reducible repeat' first | assumption | apply kept_setCtx | split
theorem kept_endSlice (s : State) (die : Nat) (h0 : Kept q0 c0 s) : Kept q0 c0 (endSlice s die) := by
  unfold endSlice
  with_reducible repeat' first | assumption | apply kept_removeAll | apply kept_returnBatch | apply kept_setFaults | apply kept_setSvc | apply kept_foldl
theorem kept_startService (die gang : Nat) (s : State) (j : Nat) (h0 : Kept q0 c0 s) : Kept q0 c0 (startService die gang s j) := by
  unfold startService
  try dsimp only
  with_reducible repeat' first | assumption | apply kept_addBlock | apply kept_setBlk | (simp only [kept_mk]; first | apply kept_parts | apply kept_parts_pkg) | split
theorem kept_startSlice (s : State) (die part : Nat) (h0 : Kept q0 c0 s) : Kept q0 c0 (startSlice s die part) := by
  unfold startSlice
  try dsimp only
  with_reducible repeat' first | assumption | apply kept_wipeRange | apply kept_setCore | apply kept_setSvc | apply kept_setKern | apply kept_setGang | apply kept_startService | (simp only [kept_mk]; first | apply kept_parts | apply kept_parts_pkg) | apply kept_foldl | split
theorem kept_execServiceSliceBoundary (die : Nat) (s : State) (h0 : Kept q0 c0 s) : KeptOut q0 c0 (execServiceSliceBoundary die s) := by
  unfold execServiceSliceBoundary
  try dsimp only
  with_reducible repeat' first | assumption | apply kept_endSlice | apply kept_startSlice | apply keptOut_next | exact keptOut_fault | split
theorem kept_serve (s : State) (f : Nat) (ok : Bool) (body : State → State) (h0 : Kept q0 c0 s) (f0 : ∀ y0, Kept q0 c0 y0 → Kept q0 c0 (body y0)) : Kept q0 c0 (serve s f ok body) := by
  unfold serve
  with_reducible repeat' first | assumption | apply kept_completeCmd | apply f0 | split
theorem kept_command (i : Instr) (f : Nat) (a0 a1 a2 a3 : Addr) (s : State) (body : State → State) (h0 : Kept q0 c0 s) (f0 : ∀ y0, Kept q0 c0 y0 → Kept q0 c0 (body y0)) : KeptOut q0 c0 (command i f a0 a1 a2 a3 s body) := by
  unfold command
  try dsimp only
  with_reducible repeat' first | assumption | apply kept_setFn | apply kept_setPkg | apply keptOut_next | exact keptOut_fault | apply f0 | exact fun hp => pkgFrom_same hp rfl rfl rfl rfl rfl rfl | split
theorem kept_onCtx (s : State) (f ctx : Nat) (sts : List CtxState) (body : Ctx → State) (h0 : Kept q0 c0 s) (f0 : ∀ y0, Kept q0 c0 (body y0)) : Kept q0 c0 (onCtx s f ctx sts body) := by
  unfold onCtx
  try dsimp only
  with_reducible repeat' first | assumption | apply kept_completeCmd | apply f0 | split
theorem kept_assignPart (world : Nat) (s : State) (p : Nat) (h0 : Kept q0 c0 s) : Kept q0 c0 (assignPart world s p) := by
  unfold assignPart
  with_reducible repeat' first | assumption | apply kept_wipeRange | apply kept_wipeFrame | apply kept_setPkg | apply kept_foldl | exact fun hp => pkgFrom_same hp rfl rfl rfl rfl rfl rfl | split
theorem kept_forgetCtx (s : State) (id : Nat) (h0 : Kept q0 c0 s) : Kept q0 c0 (forgetCtx s id) := by
  unfold forgetCtx
  try dsimp only
  with_reducible repeat' first | assumption | apply keptAct_trap | apply kept_setHall | (simp only [kept_mk]; first | apply kept_parts | apply kept_parts_pkg) | apply keptAct_done | exact keptAct_trap | apply keptAct_trapIn | apply keptAct_wait | split | intro _ _ _ | intro _ _ | intro _
theorem kept_createCtx (s : State) (f : Nat) (a : Args) (h0 : Kept q0 c0 s) : Kept q0 c0 (createCtx s f a) := by
  unfold createCtx
  try dsimp only
  with_reducible repeat' first | assumption | apply keptAct_trap | apply kept_completeCmd | apply kept_forgetCtx | apply kept_assignPart | apply kept_setFresh | apply kept_setCtx | apply kept_setFn | (simp only [kept_mk]; first | apply kept_parts | apply kept_parts_pkg) | apply kept_foldl | apply keptAct_done | exact keptAct_trap | apply keptAct_trapIn | apply keptAct_wait | split | intro _ _ _ | intro _ _ | intro _
theorem kept_execCreate (f : Nat) (a0 a1 a2 a3 : Addr) (s : State) (h0 : Kept q0 c0 s) : KeptOut q0 c0 (execCreate f a0 a1 a2 a3 s) := by
  unfold execCreate
  with_reducible repeat' first | assumption | apply kept_command | apply kept_serve | apply kept_createCtx | intro _ _
theorem kept_execSetattr (f : Nat) (a0 a1 a2 a3 : Addr) (s : State) (h0 : Kept q0 c0 s) : KeptOut q0 c0 (execSetattr f a0 a1 a2 a3 s) := by
  unfold execSetattr
  try dsimp only
  with_reducible repeat' first | assumption | apply kept_command | apply kept_serve | apply kept_onCtx | apply kept_completeCmd | apply kept_setCtx | split | intro _
theorem kept_claimFrame (world key : Nat) (s : State) (f : Nat) (h0 : Kept q0 c0 s) : Kept q0 c0 (claimFrame world key s f) := by
  unfold claimFrame
  with_reducible repeat' first | assumption | apply kept_setOwn | apply kept_wipeFrame | split
theorem kept_execMap (f : Nat) (a0 a1 a2 a3 : Addr) (s : State) (h0 : Kept q0 c0 s) : KeptOut q0 c0 (execMap f a0 a1 a2 a3 s) := by
  unfold execMap
  with_reducible repeat' first | assumption | apply kept_command | apply kept_serve | apply kept_onCtx | apply kept_claimFrame | apply kept_completeCmd | apply kept_dropTlb | apply kept_setCtx | apply kept_foldl | split | intro _
theorem kept_disownFrame (s : State) (f : Nat) (h0 : Kept q0 c0 s) : Kept q0 c0 (disownFrame s f) := by
  unfold disownFrame
  with_reducible repeat' first | assumption | apply kept_setOwn | apply kept_wipeFrame
theorem kept_execUnmap (f : Nat) (a0 a1 a2 a3 : Addr) (s : State) (h0 : Kept q0 c0 s) : KeptOut q0 c0 (execUnmap f a0 a1 a2 a3 s) := by
  unfold execUnmap
  try dsimp only
  with_reducible repeat' first | assumption | apply keptAct_trap | apply kept_command | apply kept_serve | apply kept_onCtx | apply kept_completeCmd | apply kept_disownFrame | apply kept_dropTlb | apply kept_setCtx | (simp only [kept_mk]; first | apply kept_parts | apply kept_parts_pkg) | apply kept_foldl | apply keptOut_next | exact keptOut_fault | apply keptAct_done | exact keptAct_trap | apply keptAct_trapIn | apply keptAct_wait | split | intro _ _ _ | intro _ _ | intro _
theorem kept_pageHeader (s : State) (ctx : Nat) (h0 : Kept q0 c0 s) : Kept q0 c0 (pageHeader s ctx) := by
  unfold pageHeader
  with_reducible repeat' first | assumption | apply kept_pageWrite
theorem kept_execSealCtx (f : Nat) (a0 a1 a2 a3 : Addr) (s : State) (h0 : Kept q0 c0 s) : KeptOut q0 c0 (execSealCtx f a0 a1 a2 a3 s) := by
  unfold execSealCtx
  try dsimp only
  with_reducible repeat' first | assumption | apply kept_command | apply kept_serve | apply kept_onCtx | apply kept_completeCmd | apply kept_setCtx | apply kept_actLatched | apply kept_pageHeader | split | intro _
theorem kept_endSuspend (s : State) (f ctx : Nat) (h0 : Kept q0 c0 s) : Kept q0 c0 (endSuspend s f ctx) := by
  unfold endSuspend
  with_reducible repeat' first | assumption | apply kept_completeCmd | apply kept_setCtx | split
theorem kept_execSuspend (f : Nat) (a0 a1 a2 a3 : Addr) (s : State) (h0 : Kept q0 c0 s) : KeptOut q0 c0 (execSuspend f a0 a1 a2 a3 s) := by
  unfold execSuspend
  with_reducible repeat' first | assumption | apply kept_endSuspend | apply kept_command | apply kept_serve | apply kept_onCtx | apply kept_preemptCtx | apply kept_setCtx | apply kept_postEvent | apply keptOut_next | split | intro _
theorem kept_execResume (f : Nat) (a0 a1 a2 a3 : Addr) (s : State) (h0 : Kept q0 c0 s) : KeptOut q0 c0 (execResume f a0 a1 a2 a3 s) := by
  unfold execResume
  with_reducible repeat' first | assumption | apply kept_command | apply kept_serve | apply kept_onCtx | apply kept_actLatched | apply kept_setCtx | apply kept_completeCmd | apply kept_postEvent | intro _
theorem kept_execCkpt (f : Nat) (a0 a1 a2 a3 : Addr) (s : State) (h0 : Kept q0 c0 s) : KeptOut q0 c0 (execCkpt f a0 a1 a2 a3 s) := by
  unfold execCkpt
  with_reducible repeat' first | assumption | apply kept_command | apply kept_serve | apply kept_onCtx | apply kept_completeCmd | apply kept_vaWrite | (simp only [kept_mk]; first | apply kept_parts | apply kept_parts_pkg) | split | intro _
theorem kept_keepKern (ctx world : Nat) (kern : Nat → Nat) (s : State) (e : Nat × Kern) (h0 : Kept q0 c0 s) : Kept q0 c0 (keepKern ctx world kern s e) := by
  unfold keepKern
  try dsimp only
  with_reducible repeat' first | assumption | apply keptAct_trap | apply kept_setKern | (simp only [kept_mk]; first | apply kept_parts | apply kept_parts_pkg) | split | intro _ _ _ | intro _ _ | intro _
theorem kept_loadSaved (s : State) (ctx : Nat) (x : Saved) (h0 : Kept q0 c0 s) : Kept q0 c0 (loadSaved s ctx x) := by
  unfold loadSaved
  try dsimp only
  with_reducible repeat' first | assumption | apply keptAct_trap | apply kept_removeAll | apply kept_keepKern | apply kept_setHall | apply kept_setKern | apply kept_setCtx | (simp only [kept_mk]; first | apply kept_parts | apply kept_parts_pkg) | apply kept_foldl | apply keptAct_done | exact keptAct_trap | apply keptAct_trapIn | apply keptAct_wait | split | intro _ _ _ | intro _ _ | intro _
theorem kept_execRestore (f : Nat) (a0 a1 a2 a3 : Addr) (s : State) (h0 : Kept q0 c0 s) : KeptOut q0 c0 (execRestore f a0 a1 a2 a3 s) := by
  unfold execRestore
  try dsimp only
  with_reducible repeat' first | assumption | apply kept_command | apply kept_serve | apply kept_onCtx | apply kept_completeCmd | apply kept_loadSaved | split | intro _
theorem kept_execDestroy (f : Nat) (a0 a1 a2 a3 : Addr) (s : State) (h0 : Kept q0 c0 s) : KeptOut q0 c0 (execDestroy f a0 a1 a2 a3 s) := by
  unfold execDestroy
  with_reducible repeat' first | assumption | apply kept_command | apply kept_serve | apply kept_onCtx | apply kept_beginTeardown | apply kept_setCtx | intro _
theorem kept_wipeOwned (ctx : Nat) (s : State) (f : Nat) (h0 : Kept q0 c0 s) : Kept q0 c0 (wipeOwned ctx s f) := by
  unfold wipeOwned
  try dsimp only
  with_reducible repeat' first | assumption | apply kept_returnFrame | apply kept_disownFrame | split
theorem kept_leavePart (ctx : Nat) (s : State) (p : Nat) (h0 : Kept q0 c0 s) : Kept q0 c0 (leavePart ctx s p) := by
  unfold leavePart
  with_reducible repeat' first | assumption | apply kept_setPkg | apply kept_wipeRange | exact fun hp => pkgFrom_same hp rfl rfl rfl rfl rfl rfl | split
theorem kept_dropFlips (fs : List Nat) (s : State) (h0 : Kept q0 c0 s) : Kept q0 c0 (dropFlips fs s) := by
  unfold dropFlips
  with_reducible repeat' first | assumption | apply kept_setFn | (simp only [kept_mk]; first | apply kept_parts | apply kept_parts_pkg) | apply kept_foldl | intro _ _ _
theorem kept_wipeCtx (s : State) (ctx : Nat) (h0 : Kept q0 c0 s) : Kept q0 c0 (wipeCtx s ctx) := by
  unfold wipeCtx
  try dsimp only
  with_reducible repeat' first | assumption | apply keptAct_trap | apply kept_wipeOwned | apply kept_leavePart | apply kept_dropFlips | apply kept_hostRecord | apply kept_setLinks | apply kept_setHall | apply kept_forgetCtx | apply kept_completeCmd | (simp only [kept_mk]; first | apply kept_parts | apply kept_parts_pkg) | apply kept_foldl | apply keptAct_done | exact keptAct_trap | apply keptAct_trapIn | apply keptAct_wait | split | intro _ _ _ | intro _ _ | intro _
theorem kept_execWipeComplete (ctx : Nat) (s : State) (h0 : Kept q0 c0 s) : KeptOut q0 c0 (execWipeComplete ctx s) := by
  unfold execWipeComplete
  with_reducible repeat' first | assumption | apply kept_wipeCtx | apply keptOut_next | exact keptOut_fault | split
theorem kept_execFadd (st : BitVec 2) (d : BitVec 7) (a : BitVec 7) (b : BitVec 7) (c : BitVec 1) (s : State) (h0 : Kept q0 c0 s) : KeptOut q0 c0 (execFadd st d a b c s) := by
  unfold execFadd
  with_reducible repeat' first | assumption | apply kept_issue | apply kept_laneOut | intro _ _
theorem kept_execFsub (st : BitVec 2) (d : BitVec 7) (a : BitVec 7) (b : BitVec 7) (c : BitVec 1) (s : State) (h0 : Kept q0 c0 s) : KeptOut q0 c0 (execFsub st d a b c s) := by
  unfold execFsub
  with_reducible repeat' first | assumption | apply kept_issue | apply kept_laneOut | intro _ _
theorem kept_execFmul (st : BitVec 2) (d : BitVec 7) (a : BitVec 7) (b : BitVec 7) (c : BitVec 1) (s : State) (h0 : Kept q0 c0 s) : KeptOut q0 c0 (execFmul st d a b c s) := by
  unfold execFmul
  with_reducible repeat' first | assumption | apply kept_issue | apply kept_laneOut | intro _ _
theorem kept_execFfma (st : BitVec 2) (d : BitVec 7) (a : BitVec 7) (b : BitVec 7) (c : BitVec 1) (s : State) (h0 : Kept q0 c0 s) : KeptOut q0 c0 (execFfma st d a b c s) := by
  unfold execFfma
  with_reducible repeat' first | assumption | apply kept_issue | apply kept_laneOut | intro _ _
theorem kept_execFmin (st : BitVec 2) (d : BitVec 7) (a : BitVec 7) (b : BitVec 7) (c : BitVec 1) (s : State) (h0 : Kept q0 c0 s) : KeptOut q0 c0 (execFmin st d a b c s) := by
  unfold execFmin
  with_reducible repeat' first | assumption | apply kept_issue | apply kept_laneOut | intro _ _
theorem kept_execFmax (st : BitVec 2) (d : BitVec 7) (a : BitVec 7) (b : BitVec 7) (c : BitVec 1) (s : State) (h0 : Kept q0 c0 s) : KeptOut q0 c0 (execFmax st d a b c s) := by
  unfold execFmax
  with_reducible repeat' first | assumption | apply kept_issue | apply kept_laneOut | intro _ _
theorem kept_execFabs (st : BitVec 2) (d : BitVec 7) (a : BitVec 7) (s : State) (h0 : Kept q0 c0 s) : KeptOut q0 c0 (execFabs st d a s) := by
  unfold execFabs
  with_reducible repeat' first | assumption | apply kept_issue | apply kept_laneOut | intro _ _
theorem kept_execFrcp (st : BitVec 2) (d : BitVec 7) (a : BitVec 7) (s : State) (h0 : Kept q0 c0 s) : KeptOut q0 c0 (execFrcp st d a s) := by
  unfold execFrcp
  with_reducible repeat' first | assumption | apply kept_issue | apply kept_laneOut | intro _ _
theorem kept_execFrsq (st : BitVec 2) (d : BitVec 7) (a : BitVec 7) (s : State) (h0 : Kept q0 c0 s) : KeptOut q0 c0 (execFrsq st d a s) := by
  unfold execFrsq
  with_reducible repeat' first | assumption | apply kept_issue | apply kept_laneOut | intro _ _
theorem kept_execFsqrt (st : BitVec 2) (d : BitVec 7) (a : BitVec 7) (s : State) (h0 : Kept q0 c0 s) : KeptOut q0 c0 (execFsqrt st d a s) := by
  unfold execFsqrt
  with_reducible repeat' first | assumption | apply kept_issue | apply kept_laneOut | intro _ _
theorem kept_execFexp2 (st : BitVec 2) (d : BitVec 7) (a : BitVec 7) (s : State) (h0 : Kept q0 c0 s) : KeptOut q0 c0 (execFexp2 st d a s) := by
  unfold execFexp2
  with_reducible repeat' first | assumption | apply kept_issue | apply kept_laneOut | intro _ _
theorem kept_execFlog2 (st : BitVec 2) (d : BitVec 7) (a : BitVec 7) (s : State) (h0 : Kept q0 c0 s) : KeptOut q0 c0 (execFlog2 st d a s) := by
  unfold execFlog2
  with_reducible repeat' first | assumption | apply kept_issue | apply kept_laneOut | intro _ _
theorem kept_execFsint (st : BitVec 2) (d : BitVec 7) (a : BitVec 7) (s : State) (h0 : Kept q0 c0 s) : KeptOut q0 c0 (execFsint st d a s) := by
  unfold execFsint
  with_reducible repeat' first | assumption | apply kept_issue | apply kept_laneOut | intro _ _
theorem kept_execFcost (st : BitVec 2) (d : BitVec 7) (a : BitVec 7) (s : State) (h0 : Kept q0 c0 s) : KeptOut q0 c0 (execFcost st d a s) := by
  unfold execFcost
  with_reducible repeat' first | assumption | apply kept_issue | apply kept_laneOut | intro _ _
theorem kept_execFrnd (st : BitVec 2) (d : BitVec 7) (a : BitVec 7) (m : BitVec 2) (s : State) (h0 : Kept q0 c0 s) : KeptOut q0 c0 (execFrnd st d a m s) := by
  unfold execFrnd
  with_reducible repeat' first | assumption | apply kept_issue | apply kept_laneOut | intro _ _
theorem kept_execFclass (st : BitVec 2) (d : BitVec 7) (a : BitVec 7) (s : State) (h0 : Kept q0 c0 s) : KeptOut q0 c0 (execFclass st d a s) := by
  unfold execFclass
  with_reducible repeat' first | assumption | apply kept_issue | apply kept_laneOut | intro _ _
theorem kept_execPbadd (st : BitVec 2) (d : BitVec 7) (a : BitVec 7) (b : BitVec 7) (c : BitVec 1) (s : State) (h0 : Kept q0 c0 s) : KeptOut q0 c0 (execPbadd st d a b c s) := by
  unfold execPbadd
  with_reducible repeat' first | assumption | apply kept_issue | apply kept_laneOut | intro _ _
theorem kept_execPbmul (st : BitVec 2) (d : BitVec 7) (a : BitVec 7) (b : BitVec 7) (c : BitVec 1) (s : State) (h0 : Kept q0 c0 s) : KeptOut q0 c0 (execPbmul st d a b c s) := by
  unfold execPbmul
  with_reducible repeat' first | assumption | apply kept_issue | apply kept_laneOut | intro _ _
theorem kept_execPbfma (st : BitVec 2) (d : BitVec 7) (a : BitVec 7) (b : BitVec 7) (c : BitVec 1) (s : State) (h0 : Kept q0 c0 s) : KeptOut q0 c0 (execPbfma st d a b c s) := by
  unfold execPbfma
  with_reducible repeat' first | assumption | apply kept_issue | apply kept_laneOut | intro _ _
theorem kept_execPhadd (st : BitVec 2) (d : BitVec 7) (a : BitVec 7) (b : BitVec 7) (c : BitVec 1) (s : State) (h0 : Kept q0 c0 s) : KeptOut q0 c0 (execPhadd st d a b c s) := by
  unfold execPhadd
  with_reducible repeat' first | assumption | apply kept_issue | apply kept_laneOut | intro _ _
theorem kept_execPhmul (st : BitVec 2) (d : BitVec 7) (a : BitVec 7) (b : BitVec 7) (c : BitVec 1) (s : State) (h0 : Kept q0 c0 s) : KeptOut q0 c0 (execPhmul st d a b c s) := by
  unfold execPhmul
  with_reducible repeat' first | assumption | apply kept_issue | apply kept_laneOut | intro _ _
theorem kept_execPhfma (st : BitVec 2) (d : BitVec 7) (a : BitVec 7) (b : BitVec 7) (c : BitVec 1) (s : State) (h0 : Kept q0 c0 s) : KeptOut q0 c0 (execPhfma st d a b c s) := by
  unfold execPhfma
  with_reducible repeat' first | assumption | apply kept_issue | apply kept_laneOut | intro _ _
theorem kept_execCvt (st : BitVec 2) (d : BitVec 7) (a : BitVec 7) (m : BitVec 2) (t : BitVec 3) (u : BitVec 3) (s : State) (h0 : Kept q0 c0 s) : KeptOut q0 c0 (execCvt st d a m t u s) := by
  unfold execCvt
  with_reducible repeat' first | assumption | apply kept_issue | apply kept_laneOut | intro _ _
theorem kept_execPack2 (st : BitVec 2) (d : BitVec 7) (a : BitVec 7) (b : BitVec 7) (c : BitVec 1) (s : State) (h0 : Kept q0 c0 s) : KeptOut q0 c0 (execPack2 st d a b c s) := by
  unfold execPack2
  with_reducible repeat' first | assumption | apply kept_issue | apply kept_laneOut | intro _ _
theorem kept_execSacc (st : BitVec 2) (d : BitVec 7) (a : BitVec 7) (b : BitVec 7) (c : BitVec 1) (s : State) (h0 : Kept q0 c0 s) : KeptOut q0 c0 (execSacc st d a b c s) := by
  unfold execSacc
  with_reducible repeat' first | assumption | apply kept_issue | apply kept_laneOut | intro _ _
theorem kept_execDqnt (st : BitVec 2) (d : BitVec 7) (a : BitVec 7) (f : BitVec 2) (m : BitVec 3) (k : BitVec 3) (s : State) (h0 : Kept q0 c0 s) : KeptOut q0 c0 (execDqnt st d a f m k s) := by
  unfold execDqnt
  with_reducible repeat' first | assumption | apply kept_issue | apply kept_laneOut | intro _ _
theorem kept_execFneg (st : BitVec 2) (d : BitVec 7) (a : BitVec 7) (s : State) (h0 : Kept q0 c0 s) : KeptOut q0 c0 (execFneg st d a s) := by
  unfold execFneg
  with_reducible repeat' first | assumption | apply kept_issue | apply kept_laneOut | intro _ _
theorem kept_execFcmp (st : BitVec 2) (p : BitVec 3) (c : BitVec 4) (a : BitVec 7) (b : BitVec 7) (u : BitVec 1) (s : State) (h0 : Kept q0 c0 s) : KeptOut q0 c0 (execFcmp st p c a b u s) := by
  unfold execFcmp
  with_reducible repeat' first | assumption | apply kept_issue | apply kept_predOut | intro _ _
theorem kept_execUnpk2 (st : BitVec 2) (d : BitVec 7) (a : BitVec 7) (q : BitVec 2) (h : BitVec 1) (s : State) (h0 : Kept q0 c0 s) : KeptOut q0 c0 (execUnpk2 st d a q h s) := by
  unfold execUnpk2
  with_reducible repeat' first | assumption | apply kept_issue | apply kept_laneOut | intro _ _
theorem kept_execBsplit (st : BitVec 2) (d : BitVec 7) (a : BitVec 7) (s : State) (h0 : Kept q0 c0 s) : KeptOut q0 c0 (execBsplit st d a s) := by
  unfold execBsplit
  with_reducible repeat' first | assumption | apply kept_issue | apply kept_wv | apply keptAct_done | intro _ _
theorem kept_execQnt (st : BitVec 2) (d : BitVec 7) (a : BitVec 7) (p : BitVec 3) (k : BitVec 3) (s : State) (h0 : Kept q0 c0 s) : KeptOut q0 c0 (execQnt st d a p k s) := by
  unfold execQnt
  with_reducible repeat' first | assumption | apply kept_issue | apply kept_wv | apply kept_wp | apply keptAct_done | intro _ _
theorem kept_execNiput (st : BitVec 2) (d : BitVec 7) (a : BitVec 7) (k : BitVec 3) (s : State) (h0 : Kept q0 c0 s) : KeptOut q0 c0 (execNiput st d a k s) := by
  unfold execNiput
  with_reducible repeat' first | assumption | apply kept_issue | apply kept_laneOut | intro _ _
theorem kept_execNiget (st : BitVec 2) (d : BitVec 7) (a : BitVec 7) (m : BitVec 3) (s : State) (h0 : Kept q0 c0 s) : KeptOut q0 c0 (execNiget st d a m s) := by
  unfold execNiget
  with_reducible repeat' first | assumption | apply kept_issue | apply kept_laneOut | intro _ _
theorem kept_execSfadd (st : BitVec 2) (d : BitVec 7) (a : BitVec 7) (b : BitVec 7) (s : State) (h0 : Kept q0 c0 s) : KeptOut q0 c0 (execSfadd st d a b s) := by
  unfold execSfadd
  with_reducible repeat' first | assumption | apply kept_issue | apply kept_uniOut | intro _ _
theorem kept_execSfmul (st : BitVec 2) (d : BitVec 7) (a : BitVec 7) (b : BitVec 7) (s : State) (h0 : Kept q0 c0 s) : KeptOut q0 c0 (execSfmul st d a b s) := by
  unfold execSfmul
  with_reducible repeat' first | assumption | apply kept_issue | apply kept_uniOut | intro _ _
theorem kept_execSffma (st : BitVec 2) (d : BitVec 7) (a : BitVec 7) (b : BitVec 7) (s : State) (h0 : Kept q0 c0 s) : KeptOut q0 c0 (execSffma st d a b s) := by
  unfold execSffma
  with_reducible repeat' first | assumption | apply kept_issue | apply kept_uniOut | intro _ _
theorem kept_setClaim (s : State) (ctx cls o : Nat) (h0 : Kept q0 c0 s) : Kept q0 c0 (setClaim s ctx cls o) := h0
theorem kept_execClaim (f : Nat) (a0 a1 a2 a3 : Addr) (s : State) (h0 : Kept q0 c0 s) : KeptOut q0 c0 (execClaim f a0 a1 a2 a3 s) := by
  unfold execClaim
  with_reducible repeat' first | assumption | apply kept_command | apply kept_serve | apply kept_onCtx | apply kept_completeCmd | apply kept_setClaim | split | intro _
theorem kept_execUnclaim (f : Nat) (a0 a1 a2 a3 : Addr) (s : State) (h0 : Kept q0 c0 s) : KeptOut q0 c0 (execUnclaim f a0 a1 a2 a3 s) := by
  unfold execUnclaim
  with_reducible repeat' first | assumption | apply kept_command | apply kept_serve | apply kept_onCtx | apply kept_completeCmd | apply kept_setClaim | split | intro _
theorem kept_terminateCtx (s : State) (ctx unit : Nat) (h0 : Kept q0 c0 s) : Kept q0 c0 (terminateCtx s ctx unit) := by
  unfold terminateCtx
  try dsimp only
  with_reducible repeat' first | assumption | apply kept_beginTeardown | apply kept_hostRecord | split
theorem kept_packageClass (s : State) (cls unit severity : Nat) (h0 : Kept q0 c0 s) : Kept q0 c0 (packageClass s cls unit severity) := by
  unfold packageClass
  try dsimp only
  with_reducible repeat' first | assumption | apply keptAct_trap | apply kept_logRecord | split | intro _ _ _ | intro _ _ | intro _
theorem kept_measureImage (s : State) (reg : Nat) (img : List Byte) (h0 : Kept q0 c0 s) : Kept q0 c0 (measureImage s reg img) := by
  unfold measureImage
  with_reducible repeat' first | assumption | apply kept_setPkg | exact fun hp => pkgFrom_same hp rfl rfl rfl rfl rfl rfl
theorem kept_flushNotes (s : State) (h0 : Kept q0 c0 s) : Kept q0 c0 (flushNotes s) := by
  unfold flushNotes
  with_reducible repeat' first | assumption | apply kept_setAgenda | apply kept_setPkg | exact fun hp => pkgFrom_same hp rfl rfl rfl rfl rfl rfl
theorem kept_swapWings (s : State) (u : Update) (h0 : Kept q0 c0 s) : Kept q0 c0 (swapWings s u) := by
  unfold swapWings
  try dsimp only
  with_reducible repeat' first | assumption | apply keptAct_trap | apply kept_setPkg | apply kept_measureImage | apply kept_logRecord | apply kept_completeCmd | apply kept_flushNotes | (simp only [kept_mk]; first | apply kept_parts | apply kept_parts_pkg) | exact fun hp => pkgFrom_same hp rfl rfl rfl rfl rfl rfl | split | intro _ _ _ | intro _ _ | intro _
theorem kept_tryUpdate (s : State) (h0 : Kept q0 c0 s) : Kept q0 c0 (tryUpdate s) := by
  unfold tryUpdate
  with_reducible repeat' first | assumption | apply kept_swapWings | split
theorem kept_startUpdate (s : State) (f : Nat) (a : Args) (h0 : Kept q0 c0 s) : Kept q0 c0 (startUpdate s f a) := by
  unfold startUpdate
  try dsimp only
  with_reducible repeat' first | assumption | apply kept_completeCmd | apply kept_tryUpdate | apply kept_setPkg | apply kept_measureImage | apply kept_setSvc | exact fun hp => pkgFrom_same hp rfl rfl rfl rfl rfl rfl | split
theorem kept_execUpdate (f : Nat) (a0 a1 a2 a3 : Addr) (s : State) (h0 : Kept q0 c0 s) : KeptOut q0 c0 (execUpdate f a0 a1 a2 a3 s) := by
  unfold execUpdate
  with_reducible repeat' first | assumption | apply kept_tryUpdate | apply kept_command | apply kept_serve | apply kept_completeCmd | apply kept_startUpdate | apply keptOut_next | split | intro _ _
theorem kept_execUpdateQuiesceTimeout (s : State) (h0 : Kept q0 c0 s) : KeptOut q0 c0 (execUpdateQuiesceTimeout s) := by
  unfold execUpdateQuiesceTimeout
  with_reducible repeat' first | assumption | apply kept_completeCmd | apply kept_flushNotes | apply kept_setPkg | apply keptOut_next | exact keptOut_fault | exact fun hp => pkgFrom_same hp rfl rfl rfl rfl rfl rfl | split
theorem kept_undoSuspend (s : State) (e : Nat × Ctx) (h0 : Kept q0 c0 s) : Kept q0 c0 (undoSuspend s e) := by
  unfold undoSuspend
  with_reducible repeat' first | assumption | apply kept_setCtx | apply kept_setGang | apply kept_completeCmd | apply kept_postEvent | apply kept_foldl | split | intro _ _ _
theorem kept_execWingFailover (s : State) (h0 : Kept q0 c0 s) : KeptOut q0 c0 (execWingFailover s) := by
  unfold execWingFailover
  try dsimp only
  with_reducible repeat' first | assumption | apply keptAct_trap | apply kept_setPkg | apply kept_undoSuspend | apply kept_completeCmd | apply kept_flushNotes | (simp only [kept_mk]; first | apply kept_parts | apply kept_parts_pkg) | apply kept_foldl | apply keptOut_next | exact keptOut_fault | apply keptAct_done | exact keptAct_trap | apply keptAct_trapIn | apply keptAct_wait | exact fun hp => pkgFrom_same hp rfl rfl rfl rfl rfl rfl | split | intro _ _ _ | intro _ _ | intro _
theorem kept_execFirstHeartbeat (kind : Nat) (s : State) (h0 : Kept q0 c0 s) : KeptOut q0 c0 (execFirstHeartbeat kind s) := by
  unfold execFirstHeartbeat
  split
  · dsimp only
    split
    · exact h0
    · exact kept_setPkg h0 fun hp => ⟨hp.key, Nat.le_trans hp.version (Nat.le_max_left _ _), hp.life, hp.leaf⟩
  · exact keptOut_fault
theorem kept_attKey (s : State) (h0 : Kept q0 c0 s) : ∀ t, attKey s = some t → Kept q0 c0 t := by
  intro t e
  unfold attKey at e
  split at e
  · exact kept_of_some h0 e
  · split at e
    · cases e
      refine kept_setPkg h0 fun hp => pkgFrom_leaf (a := 0) (i := s.pkg.idLeaf + 1) (k := s.pkg.idKeys) hp rfl rfl rfl rfl rfl rfl hp.life fun hb => ?_
      omega
    · cases e
theorem kept_execAttestationRequest (f : Nat) (nonce : List Byte) (ctx : Option Nat) (s : State) (h0 : Kept q0 c0 s) : KeptOut q0 c0 (execAttestationRequest f nonce ctx s) := by
  unfold execAttestationRequest
  split
  · dsimp only
    split
    · exact keptOut_next (kept_emit _ _ h0)
    · split
      · exact keptOut_next (kept_emit _ _ h0)
      · split
        · exact keptOut_next (kept_emit _ _ h0)
        · rename_i s' e
          have h := kept_attKey s h0 s' e
          have hl : s'.pkg.attLeaf < 2 ^ 16 := by
            unfold attKey at e
            split at e
            · cases e; assumption
            · split at e
              · cases e; simp [setPkg, newAttKey]
              · cases e
          refine keptOut_next (kept_emit _ _ (kept_setPkg h fun hp => pkgFrom_leaf (a := s'.pkg.attLeaf + 1) (i := s'.pkg.idLeaf) (k := s'.pkg.idKeys) hp rfl rfl rfl rfl rfl rfl hp.life fun hb => ?_))
          omega
  · exact keptOut_fault
theorem kept_execRegisterWrite (f off : Nat) (val : Addr) (s : State) (h0 : Kept q0 c0 s) : KeptOut q0 c0 (execRegisterWrite f off val s) := by
  unfold execRegisterWrite
  with_reducible repeat' first | assumption | apply kept_setFn | apply keptOut_next | exact keptOut_fault | split
theorem kept_execErrconsWrite (f : Nat) (val : Word) (s : State) (h0 : Kept q0 c0 s) : KeptOut q0 c0 (execErrconsWrite f val s) := by
  unfold execErrconsWrite
  with_reducible repeat' first | assumption | apply kept_setFn | apply keptOut_next | exact keptOut_fault | split
theorem kept_wiped (s : State) (h0 : Kept q0 c0 s) : Kept q0 c0 (wiped s) := by
  exact ⟨pkgFrom_same h0.1 rfl rfl rfl rfl rfl rfl, fun c => ⟨rfl, (h0.2 c).2.1, by intro e he; cases he⟩⟩
theorem kept_toLife (s : State) (l : Life) (h0 : Kept q0 c0 s) (hl : l ≠ .raw) (hd : s.pkg.life ≠ .decommissioned) : Kept q0 c0 (toLife s l) := by
  unfold toLife
  dsimp only
  refine kept_wiped _ ?_
  have h1 : Kept q0 c0 (setPkg s { s.pkg with life := l }) := kept_setPkg h0 fun hp => ⟨hp.key, hp.version, ⟨fun _ => hl, fun hq => absurd (hp.life.2 hq) hd⟩, hp.leaf⟩
  split
  · refine kept_setPkg h1 fun hp => pkgFrom_leaf (a := 0) (i := 1) (k := s.pkg.idKeys + 1) hp rfl rfl rfl rfl rfl rfl hp.life fun hb => ?_
    have ha : s.pkg.attLeaf ≤ 2 ^ 16 := hb.1
    have hi : s.pkg.idLeaf ≤ 2 ^ 20 := hb.2
    refine ⟨Nat.zero_le _, by omega, ?_⟩
    show s.pkg.idKeys * 2 ^ 40 + s.pkg.idLeaf * 2 ^ 16 + s.pkg.attLeaf ≤ _
    omega
  · exact h1
theorem kept_useToken (s : State) (kind : Nat) (tok : List Byte) (src : List Life) (dst : Life) (h0 : Kept q0 c0 s) (hl : dst ≠ .raw) (hs : src.contains .decommissioned = false) : KeptOut q0 c0 (useToken s kind tok src dst) := by
  unfold useToken
  split
  · split
    · split
      · refine keptOut_next (kept_toLife _ _ h0 hl fun e => ?_)
        rename_i h _
        rw [e, hs] at h
        simp at h
      · exact keptOut_next (kept_emit _ _ h0)
    · exact h0
  · exact keptOut_fault
theorem kept_execProvisioningToken (tok : List Byte) (s : State) (h0 : Kept q0 c0 s) : KeptOut q0 c0 (execProvisioningToken tok s) := by
  unfold execProvisioningToken
  with_reducible repeat' first | assumption | apply kept_useToken | decide
theorem kept_execDeploymentToken (tok : List Byte) (s : State) (h0 : Kept q0 c0 s) : KeptOut q0 c0 (execDeploymentToken tok s) := by
  unfold execDeploymentToken
  with_reducible repeat' first | assumption | apply kept_useToken | decide
theorem kept_execRmaToken (tok : List Byte) (s : State) (h0 : Kept q0 c0 s) : KeptOut q0 c0 (execRmaToken tok s) := by
  unfold execRmaToken
  with_reducible repeat' first | assumption | apply kept_useToken | decide
theorem kept_execRepairToken (tok : List Byte) (s : State) (h0 : Kept q0 c0 s) : KeptOut q0 c0 (execRepairToken tok s) := by
  unfold execRepairToken
  with_reducible repeat' first | assumption | apply kept_useToken | decide
theorem kept_execDecommissionToken (tok : List Byte) (s : State) (h0 : Kept q0 c0 s) : KeptOut q0 c0 (execDecommissionToken tok s) := by
  unfold execDecommissionToken
  with_reducible repeat' first | assumption | apply kept_useToken | decide
theorem kept_execPackageReset (s : State) (h0 : Kept q0 c0 s) : KeptOut q0 c0 (execPackageReset s) := by
  unfold execPackageReset
  with_reducible repeat' first | assumption | apply kept_wiped | apply keptOut_next
theorem kept_execPowerLoss (s : State) (h0 : Kept q0 c0 s) : KeptOut q0 c0 (execPowerLoss s) := by
  unfold execPowerLoss
  with_reducible repeat' first | assumption | apply kept_wiped | apply kept_setPkg | apply keptOut_next | exact fun hp => pkgFrom_same hp rfl rfl rfl rfl rfl rfl
theorem kept_refill (s : State) (kind unit : Nat) (h0 : Kept q0 c0 s) : Kept q0 c0 (refill s kind unit) := h0
theorem kept_execBudgetPeriod (unit : BudgetUnit) (s : State) (h0 : Kept q0 c0 s) : KeptOut q0 c0 (execBudgetPeriod unit s) := by
  unfold execBudgetPeriod
  with_reducible repeat' first | assumption | apply kept_refill | apply kept_portFlush | apply keptOut_next | exact keptOut_fault | split
theorem kept_carveDie (s : State) (die : Nat) (units : List Nat) (h0 : Kept q0 c0 s) : Kept q0 c0 (carveDie s die units) := by
  unfold carveDie
  try dsimp only
  with_reducible repeat' first | assumption | apply kept_wipeRange | apply kept_setPkg | apply kept_foldl | exact fun hp => pkgFrom_same hp rfl rfl rfl rfl rfl rfl | split | intro _ _ _
theorem kept_setLarderFrames (s : State) (p : Nat) (frames : List Nat) (h0 : Kept q0 c0 s) : Kept q0 c0 (setLarderFrames s p frames) := by
  unfold setLarderFrames
  with_reducible repeat' first | assumption | apply kept_setOwn | apply kept_wipeFrame | apply kept_setLarder | apply kept_foldl | intro _ _ _
theorem kept_wingClaim (s : State) (ctx cls owner : Nat) (h0 : Kept q0 c0 s) : Kept q0 c0 (wingClaim s ctx cls owner) := by
  unfold wingClaim
  try dsimp only
  with_reducible repeat' first | assumption | apply kept_setClaim | split
theorem kept_execStorePerformed (g i : Nat) (s : State) (h0 : Kept q0 c0 s) : KeptOut q0 c0 (execStorePerformed g i s) := by
  unfold execStorePerformed
  try dsimp only
  with_reducible repeat' first | assumption | apply kept_performMates | apply kept_performAll | apply kept_setGrp | apply keptOut_next | exact keptOut_fault | split
theorem kept_execLogicalDeviceBind (ld : Nat) (bound : Bool) (windows : List (Nat × Nat)) (route : BindRoute) (s : State) (h0 : Kept q0 c0 s) : KeptOut q0 c0 (execLogicalDeviceBind ld bound windows route s) := by
  unfold execLogicalDeviceBind
  with_reducible repeat' first | assumption | (simp only [kept_mk]; first | apply kept_parts | apply kept_parts_pkg) | apply keptOut_next | exact keptOut_fault | split
theorem kept_hostPut (a0 : State) (a1 : Nat) (a2 : List Byte) (h0 : Kept q0 c0 a0) : Kept q0 c0 (hostPut a0 a1 a2) := by
  fun_induction hostPut a0 a1 a2 <;> (with_reducible repeat' first | apply kept_homeWrite | apply_assumption | split)
theorem kept_execHostWrite (dev : Bool) (addr : Nat) (bytes : List Byte) (s : State) (h0 : Kept q0 c0 s) : KeptOut q0 c0 (execHostWrite dev addr bytes s) := by
  unfold execHostWrite
  with_reducible repeat' first | assumption | apply kept_hostPut | apply kept_homeWrite | apply keptOut_next | exact keptOut_fault | split
theorem kept_execHostRead (addr n : Nat) (s : State) (h0 : Kept q0 c0 s) : KeptOut q0 c0 (execHostRead addr n s) := by
  unfold execHostRead
  with_reducible repeat' first | assumption | apply kept_emit | apply kept_setFresh | apply keptOut_next | exact keptOut_fault | split
theorem kept_execFlip (f : Nat) (raw : Addr) (s : State) (h0 : Kept q0 c0 s) : KeptOut q0 c0 (execFlip f raw s) := by
  unfold execFlip
  try dsimp only
  with_reducible repeat' first | assumption | apply kept_setFn | apply kept_setOwn | (simp only [kept_mk]; first | apply kept_parts | apply kept_parts_pkg) | apply keptOut_next | exact keptOut_fault | split
theorem kept_execBiasFlipComplete (frame : Nat) (s : State) (h0 : Kept q0 c0 s) : KeptOut q0 c0 (execBiasFlipComplete frame s) := by
  unfold execBiasFlipComplete
  with_reducible repeat' first | assumption | apply kept_setOwn | apply kept_setFn | (simp only [kept_mk]; first | apply kept_parts | apply kept_parts_pkg) | apply keptOut_next | exact keptOut_fault | split
theorem kept_execAtsInvalidation (ld addr n : Nat) (s : State) (h0 : Kept q0 c0 s) : KeptOut q0 c0 (execAtsInvalidation ld addr n s) := by
  unfold execAtsInvalidation
  try dsimp only
  with_reducible repeat' first | assumption | apply keptAct_trap | apply kept_invalidate | apply kept_invalidateAll | apply kept_emit | (simp only [kept_mk]; first | apply kept_parts | apply kept_parts_pkg) | apply kept_foldl | apply keptOut_next | exact keptOut_fault | apply keptAct_done | exact keptAct_trap | apply keptAct_trapIn | apply keptAct_wait | split | intro _ _ _ | intro _ _ | intro _
theorem kept_abortCopy (st : CmdStatus) (s : State) (c : Nat × Nat) (h0 : Kept q0 c0 s) : Kept q0 c0 (abortCopy st s c) := by
  unfold abortCopy
  with_reducible repeat' first | assumption | apply kept_setLinks | apply kept_endCopy | split
theorem kept_abortOp (s : State) (o : Nat × Nat) (h0 : Kept q0 c0 s) : Kept q0 c0 (abortOp s o) := h0
theorem kept_abortHeld (s : State) (h : Nat × Nat) (h0 : Kept q0 c0 s) : Kept q0 c0 (abortHeld s h) := by
  unfold abortHeld
  try dsimp only
  with_reducible repeat' first | assumption | apply keptAct_trap | apply kept_dropEntry | apply kept_heldError | apply keptAct_done | exact keptAct_trap | apply keptAct_trapIn | apply keptAct_wait | split | intro _ _ _ | intro _ _ | intro _
theorem kept_execAtsInvalidationTimeout (i : Nat) (s : State) (h0 : Kept q0 c0 s) : KeptOut q0 c0 (execAtsInvalidationTimeout i s) := by
  unfold execAtsInvalidationTimeout
  try dsimp only
  with_reducible repeat' first | assumption | apply keptAct_trap | apply kept_abortHeld | apply kept_abortOp | apply kept_abortCopy | apply kept_emit | (simp only [kept_mk]; first | apply kept_parts | apply kept_parts_pkg) | apply kept_foldl | apply keptOut_next | exact keptOut_fault | split | intro _ _ _ | intro _ _ | intro _
theorem kept_breakEntry (s : State) (ctx a : Nat) (h0 : Kept q0 c0 s) : Kept q0 c0 (breakEntry s ctx a) := by
  unfold breakEntry
  try dsimp only
  with_reducible repeat' first | assumption | apply keptAct_trap | apply kept_routeRecord | apply kept_setCtx | (simp only [kept_mk]; first | apply kept_parts | apply kept_parts_pkg) | apply keptAct_done | exact keptAct_trap | apply keptAct_trapIn | apply keptAct_wait | split | intro _ _ _ | intro _ _ | intro _
theorem kept_execSoftError (mem : MemName) (addr : Nat) (unc : Bool) (s : State) (h0 : Kept q0 c0 s) : KeptOut q0 c0 (execSoftError mem addr unc s) := by
  unfold execSoftError
  try dsimp only
  with_reducible repeat' first | assumption | apply keptAct_trap | apply kept_breakEntry | apply kept_setPoison | (simp only [kept_mk]; first | apply kept_parts | apply kept_parts_pkg) | apply keptOut_next | exact keptOut_fault | apply keptAct_done | exact keptAct_trap | apply keptAct_trapIn | apply keptAct_wait | split | intro _ _ _ | intro _ _ | intro _
theorem kept_execCorrectedErrorThreshold (ctx : Nat) (s : State) (h0 : Kept q0 c0 s) : KeptOut q0 c0 (execCorrectedErrorThreshold ctx s) := by
  unfold execCorrectedErrorThreshold
  try dsimp only
  with_reducible repeat' first | assumption | apply keptAct_trap | apply kept_raiseClass | apply kept_setCtx | (simp only [kept_mk]; first | apply kept_parts | apply kept_parts_pkg) | apply keptOut_next | exact keptOut_fault | split | intro _ _ _ | intro _ _ | intro _
theorem kept_setPort (s : State) (p : Nat) (x : Port) (h0 : Kept q0 c0 s) : Kept q0 c0 (setPort s p x) := h0
theorem kept_rerouteFrom (s : State) (p : Nat) (h0 : Kept q0 c0 s) : Kept q0 c0 (rerouteFrom s p) := by
  unfold rerouteFrom
  try dsimp only
  with_reducible repeat' first | assumption | apply keptAct_trap | apply kept_setLinks | apply kept_setPort | apply kept_sendFlit | (simp only [kept_mk]; first | apply kept_parts | apply kept_parts_pkg) | apply kept_foldl | apply keptAct_done | exact keptAct_trap | apply keptAct_trapIn | apply keptAct_wait | split | intro _ _ _ | intro _ _ | intro _
theorem kept_retirePort (s : State) (p : Nat) (h0 : Kept q0 c0 s) : Kept q0 c0 (retirePort s p) := by
  unfold retirePort
  with_reducible repeat' first | assumption | apply kept_packageClass | apply kept_rerouteFrom | apply kept_setPort | split
theorem kept_execPortEnable (p : Nat) (s : State) (h0 : Kept q0 c0 s) : KeptOut q0 c0 (execPortEnable p s) := by
  unfold execPortEnable
  try dsimp only
  with_reducible repeat' first | assumption | apply keptAct_trap | apply kept_setPort | (simp only [kept_mk]; first | apply kept_parts | apply kept_parts_pkg) | apply keptOut_next | exact keptOut_fault | split | intro _ _ _ | intro _ _ | intro _
theorem kept_trainingFails (s : State) (p : Nat) (h0 : Kept q0 c0 s) : Kept q0 c0 (trainingFails s p) := by
  unfold trainingFails
  try dsimp only
  with_reducible repeat' first | assumption | apply kept_setPort | apply kept_retirePort | split
theorem kept_linkStarts (s : State) (p : Nat) (h0 : Kept q0 c0 s) : Kept q0 c0 (linkStarts s p) := by
  unfold linkStarts
  with_reducible repeat' first | assumption | apply kept_emit | apply kept_rerouteFrom | apply kept_portFlush | apply kept_foldl | intro _ _ _
theorem kept_execTrainingTimeout (p : Nat) (s : State) (h0 : Kept q0 c0 s) : KeptOut q0 c0 (execTrainingTimeout p s) := by
  unfold execTrainingTimeout
  with_reducible repeat' first | assumption | apply kept_trainingFails | apply keptOut_next | exact keptOut_fault | split
theorem kept_execRetrainTimer (p : Nat) (s : State) (h0 : Kept q0 c0 s) : KeptOut q0 c0 (execRetrainTimer p s) := by
  unfold execRetrainTimer
  with_reducible repeat' first | assumption | apply kept_setPort | apply keptOut_next | exact keptOut_fault | split
theorem kept_loseLock (s : State) (p : Nat) (h0 : Kept q0 c0 s) : Kept q0 c0 (loseLock s p) := by
  unfold loseLock
  try dsimp only
  with_reducible repeat' first | assumption | apply kept_setPort | split
theorem kept_execLossOfLock (p : Nat) (s : State) (h0 : Kept q0 c0 s) : KeptOut q0 c0 (execLossOfLock p s) := by
  unfold execLossOfLock
  with_reducible repeat' first | assumption | apply kept_loseLock | apply keptOut_next | exact keptOut_fault | split
theorem kept_execLaneFailure (p : Nat) (s : State) (h0 : Kept q0 c0 s) : KeptOut q0 c0 (execLaneFailure p s) := by
  unfold execLaneFailure
  with_reducible repeat' first | assumption | apply kept_setPort | apply kept_loseLock | apply keptOut_next | exact keptOut_fault | split
theorem kept_execPortRetire (p : Nat) (s : State) (h0 : Kept q0 c0 s) : KeptOut q0 c0 (execPortRetire p s) := by
  unfold execPortRetire
  try dsimp only
  with_reducible repeat' first | assumption | apply keptAct_trap | apply kept_retirePort | apply keptOut_next | exact keptOut_fault | split | intro _ _ _ | intro _ _ | intro _
theorem kept_sendRetry (s : State) (p : Nat) (h0 : Kept q0 c0 s) : Kept q0 c0 (sendRetry s p) := by
  unfold sendRetry
  with_reducible repeat' first | assumption | apply kept_portSend
theorem kept_takeLack (s : State) (p : Nat) (fl : Flit) (h0 : Kept q0 c0 s) : Kept q0 c0 (takeLack s p fl) := by
  unfold takeLack
  with_reducible repeat' first | assumption | apply kept_portFlush | apply kept_setPort
theorem kept_settlePause (s : State) (p : Nat) (h0 : Kept q0 c0 s) : Kept q0 c0 (settlePause s p) := by
  unfold settlePause
  try dsimp only
  with_reducible repeat' first | assumption | apply kept_portSend | apply kept_setPort | split
theorem kept_idlePort (s : State) (p : Nat) (h0 : Kept q0 c0 s) : Kept q0 c0 (idlePort s p) := by
  unfold idlePort
  try dsimp only
  with_reducible repeat' first | assumption | apply keptAct_trap | apply kept_settlePause | apply kept_portSend | split | intro _ _ _ | intro _ _ | intro _
theorem kept_idlePorts (s : State) (h0 : Kept q0 c0 s) : Kept q0 c0 (idlePorts s) := by
  unfold idlePorts
  with_reducible repeat' first | assumption | apply kept_setLinks | apply kept_idlePort | apply kept_foldl
theorem kept_deliverFlit (s : State) (fl : Flit) (body : State → State) (h0 : Kept q0 c0 s) (f0 : ∀ y0, Kept q0 c0 y0 → Kept q0 c0 (body y0)) : Kept q0 c0 (deliverFlit s fl body) := by
  unfold deliverFlit
  with_reducible repeat' first | assumption | apply kept_setPort | apply f0 | split
theorem kept_acceptFlit (p : Nat) (fl : Flit) (s : State) (body : State → State) (h0 : Kept q0 c0 s) (f0 : ∀ y0, Kept q0 c0 y0 → Kept q0 c0 (body y0)) : Kept q0 c0 (acceptFlit p fl s body) := by
  unfold acceptFlit
  with_reducible repeat' first | assumption | apply kept_setLinks | apply kept_settlePause | apply kept_deliverFlit | apply kept_portSend | split
theorem kept_receive (p : Nat) (fl : Flit) (ok : Bool) (s : State) (body : State → State) (h0 : Kept q0 c0 s) (f0 : ∀ y0, Kept q0 c0 y0 → Kept q0 c0 (body y0)) : KeptOut q0 c0 (receive p fl ok s body) := by
  unfold receive
  try dsimp only
  with_reducible repeat' first | assumption | apply keptAct_trap | apply kept_dropQueued | apply kept_chargeBudget | apply kept_sendRetry | apply kept_takeLack | apply kept_acceptFlit | apply kept_setPort | (simp only [kept_mk]; first | apply kept_parts | apply kept_parts_pkg) | apply keptOut_next | exact keptOut_fault | apply f0 | split | intro _ _ _ | intro _ _ | intro _
theorem kept_takePause (p : Nat) (fl : Flit) (s : State) (h0 : Kept q0 c0 s) : Kept q0 c0 (takePause p fl s) := by
  unfold takePause
  with_reducible repeat' first | assumption | apply kept_portFlush | apply kept_setPort
theorem kept_execIdle (p : Nat) (fl : Flit) (s : State) (h0 : Kept q0 c0 s) : KeptOut q0 c0 (execIdle p fl s) := by
  unfold execIdle
  with_reducible repeat' first | assumption | apply kept_receive | apply kept_takePause
theorem kept_execPause (p : Nat) (fl : Flit) (s : State) (h0 : Kept q0 c0 s) : KeptOut q0 c0 (execPause p fl s) := by
  unfold execPause
  with_reducible repeat' first | assumption | apply kept_receive | apply kept_takePause
theorem kept_replayFrom (p n : Nat) (s : State) (h0 : Kept q0 c0 s) : Kept q0 c0 (replayFrom p n s) := by
  unfold replayFrom
  with_reducible repeat' first | assumption | apply kept_emit | apply kept_foldl | intro _ _ _
theorem kept_takeRetry (p : Nat) (fl : Flit) (s : State) (h0 : Kept q0 c0 s) : Kept q0 c0 (takeRetry p fl s) := by
  unfold takeRetry
  try dsimp only
  with_reducible repeat' first | assumption | apply kept_setPort | apply kept_loseLock | apply kept_replayFrom | split
theorem kept_execRetry (p : Nat) (fl : Flit) (s : State) (h0 : Kept q0 c0 s) : KeptOut q0 c0 (execRetry p fl s) := by
  unfold execRetry
  with_reducible repeat' first | assumption | apply kept_receive | apply kept_takeRetry
theorem kept_execFlitFailsCrc (p : Nat) (s : State) (h0 : Kept q0 c0 s) : KeptOut q0 c0 (execFlitFailsCrc p s) := by
  unfold execFlitFailsCrc
  try dsimp only
  with_reducible repeat' first | assumption | apply keptAct_trap | apply kept_sendRetry | apply keptOut_next | exact keptOut_fault | split | intro _ _ _ | intro _ _ | intro _
theorem kept_noteOp (s : State) (fl : Flit) (h0 : Kept q0 c0 s) : Kept q0 c0 (noteOp s fl) := h0
theorem kept_answerAgain (s : State) (x : Seen) (h0 : Kept q0 c0 s) : Kept q0 c0 (answerAgain s x) := by
  unfold answerAgain
  with_reducible repeat' first | assumption | apply kept_setLinks | apply kept_sendOn | apply kept_foldl | intro _ _ _
theorem kept_headCheck (s : State) (fl : Flit) (va n : Nat) (r w spec : Bool) (h0 : Kept q0 c0 s) : Kept q0 c0 (headCheck s fl va n r w spec).1 := by
  unfold headCheck
  try dsimp only
  with_reducible repeat' first | assumption | apply kept_tlbLook | apply kept_usePage | split
theorem kept_addDst (s : State) (d : DstOp) (h0 : Kept q0 c0 s) : Kept q0 c0 (addDst s d) := h0
theorem kept_takeHead (fl : Flit) (body : State → State) (s : State) (h0 : Kept q0 c0 s) (f0 : ∀ y0, Kept q0 c0 y0 → Kept q0 c0 (body y0)) : Kept q0 c0 (takeHead fl body s) := by
  unfold takeHead
  with_reducible repeat' first | assumption | apply kept_answerAgain | apply kept_noteOp | apply f0 | split
theorem kept_takePut (fl : Flit) (s : State) (h0 : Kept q0 c0 s) : Kept q0 c0 (takePut fl s) := by
  unfold takePut
  try dsimp only
  with_reducible repeat' first | assumption | (refine kept_fst ?_ ‹_ = (_, _)›; apply kept_headCheck) | apply kept_sendReply | apply kept_addDst | split
theorem kept_execWhead (p : Nat) (fl : Flit) (s : State) (h0 : Kept q0 c0 s) : KeptOut q0 c0 (execWhead p fl s) := by
  unfold execWhead
  with_reducible repeat' first | assumption | apply kept_receive | apply kept_takeHead | apply kept_takePut | intro _ _
theorem kept_refuseRadd (s : State) (fl : Flit) (e : Byte) (h0 : Kept q0 c0 s) : Kept q0 c0 (refuseRadd s fl e) := by
  unfold refuseRadd
  with_reducible repeat' first | assumption | apply kept_sendReply | apply kept_setLinks
theorem kept_takeRadd (fl : Flit) (s : State) (h0 : Kept q0 c0 s) : Kept q0 c0 (takeRadd fl s) := by
  unfold takeRadd
  try dsimp only
  with_reducible repeat' first | assumption | (refine kept_fst ?_ ‹_ = (_, _)›; apply kept_headCheck) | apply kept_refuseRadd | apply kept_sendReply | apply kept_addDst | split
theorem kept_execRadd (p : Nat) (fl : Flit) (s : State) (h0 : Kept q0 c0 s) : KeptOut q0 c0 (execRadd p fl s) := by
  unfold execRadd
  with_reducible repeat' first | assumption | apply kept_receive | apply kept_takeHead | apply kept_takeRadd | intro _ _
theorem kept_sendReplies (s : State) (op : Nat) (fls : List Flit) (h0 : Kept q0 c0 s) : Kept q0 c0 (sendReplies s op fls) := by
  unfold sendReplies
  with_reducible repeat' first | assumption | apply kept_sendReply | apply kept_foldl | intro _ _ _
theorem kept_takeGet (fl : Flit) (s : State) (h0 : Kept q0 c0 s) : Kept q0 c0 (takeGet fl s) := by
  unfold takeGet
  try dsimp only
  with_reducible repeat' first | assumption | (refine kept_fst ?_ ‹_ = (_, _)›; apply kept_headCheck) | apply kept_sendReply | apply kept_sendReplies | split
theorem kept_execRreq (p : Nat) (fl : Flit) (s : State) (h0 : Kept q0 c0 s) : KeptOut q0 c0 (execRreq p fl s) := by
  unfold execRreq
  with_reducible repeat' first | assumption | apply kept_receive | apply kept_takeHead | apply kept_takeGet | intro _ _
theorem kept_takeAtom (fl : Flit) (s : State) (h0 : Kept q0 c0 s) : Kept q0 c0 (takeAtom fl s) := by
  unfold takeAtom
  try dsimp only
  with_reducible repeat' first | assumption | apply kept_sendReply | (refine kept_fst ?_ ‹_ = (_, _)›; apply kept_headCheck) | apply kept_atomHome | split
theorem kept_execAtomFlit (p : Nat) (fl : Flit) (s : State) (h0 : Kept q0 c0 s) : KeptOut q0 c0 (execAtomFlit p fl s) := by
  unfold execAtomFlit
  with_reducible repeat' first | assumption | apply kept_receive | apply kept_takeHead | apply kept_takeAtom | intro _ _
theorem kept_putDst (s : State) (d : DstOp) (h0 : Kept q0 c0 s) : Kept q0 c0 (putDst s d) := h0
theorem kept_dropDst (s : State) (d : DstOp) (h0 : Kept q0 c0 s) : Kept q0 c0 (dropDst s d) := h0
theorem kept_putGranules (s : State) (d : DstOp) (lo hi : Nat) (h0 : Kept q0 c0 s) : Kept q0 c0 (putGranules s d lo hi) := by
  unfold putGranules
  with_reducible repeat' first | assumption | apply kept_homeWrite | apply kept_foldl | split | intro _ _ _
theorem kept_ackRange (s : State) (d : DstOp) (lo hi : Nat) (h0 : Kept q0 c0 s) : Kept q0 c0 (ackRange s d lo hi) := by
  unfold ackRange
  with_reducible repeat' first | assumption | apply kept_ackFlits
theorem kept_performPut (s : State) (d : DstOp) (h0 : Kept q0 c0 s) : Kept q0 c0 (performPut s d) := by
  unfold performPut
  try dsimp only
  with_reducible repeat' first | assumption | apply kept_putGranules | apply kept_dropDst | apply kept_ackRange | apply kept_putDst | split
theorem kept_performRadd (s : State) (d : DstOp) (h0 : Kept q0 c0 s) : Kept q0 c0 (performRadd s d) := by
  unfold performRadd
  try dsimp only
  with_reducible repeat' first | assumption | apply kept_putDst | apply kept_dropDst | apply kept_ackRange | apply kept_addContribution | apply kept_foldl | split | intro _ _ _
theorem kept_takeData (fl : Flit) (s : State) (h0 : Kept q0 c0 s) : Kept q0 c0 (takeData fl s) := by
  unfold takeData
  try dsimp only
  with_reducible repeat' first | assumption | apply kept_performPut | apply kept_performRadd | split
theorem kept_dropOp (s : State) (o : SrcOp) (h0 : Kept q0 c0 s) : Kept q0 c0 (dropOp s o) := h0
theorem kept_uncount (s : State) (o : SrcOp) (n : Nat) (h0 : Kept q0 c0 s) : Kept q0 c0 (uncount s o n) := by
  unfold uncount
  with_reducible repeat' first | assumption | apply kept_setGrp | apply kept_setBlk | apply kept_settleGrid | split
theorem kept_failCopy (s : State) (blk seq : Nat) (st : CmdStatus) (addr : Nat) (h0 : Kept q0 c0 s) : Kept q0 c0 (failCopy s blk seq st addr) := by
  unfold failCopy
  with_reducible repeat' first | assumption | apply kept_setCopyCmd | apply kept_endCopy | split
theorem kept_drainDone (s : State) (o : SrcOp) (h0 : Kept q0 c0 s) : Kept q0 c0 (drainDone s o) := by
  unfold drainDone
  with_reducible repeat' first | assumption | apply kept_settleGrid | apply kept_dropEntry | split
theorem kept_failOp (s : State) (o : SrcOp) (st : CmdStatus) (h0 : Kept q0 c0 s) : Kept q0 c0 (failOp s o st) := by
  unfold failOp
  try dsimp only
  with_reducible repeat' first | assumption | apply kept_setLinks | apply kept_drainDone | apply kept_heldError | apply kept_uncount | apply kept_failCopy | apply kept_foldl | split | intro _ _ _
theorem kept_sendData (s : State) (o : SrcOp) (h0 : Kept q0 c0 s) : Kept q0 c0 (sendData s o) := by
  unfold sendData
  try dsimp only
  with_reducible repeat' first | assumption | apply keptAct_trap | apply kept_putOp | apply kept_sendOn | (simp only [kept_mk]; first | apply kept_parts | apply kept_parts_pkg) | apply kept_foldl | apply keptAct_done | exact keptAct_trap | apply keptAct_trapIn | apply keptAct_wait | split | intro _ _ _ | intro _ _ | intro _
theorem kept_acceptPart (s : State) (o : SrcOp) (h0 : Kept q0 c0 s) : Kept q0 c0 (acceptPart s o) := by
  unfold acceptPart
  try dsimp only
  with_reducible repeat' first | assumption | apply kept_putOp | apply kept_sendData | apply kept_sendHead | apply kept_foldl | split | intro _ _ _
theorem kept_takeWacc (fl : Flit) (s : State) (h0 : Kept q0 c0 s) : Kept q0 c0 (takeWacc fl s) := by
  unfold takeWacc
  try dsimp only
  with_reducible repeat' first | assumption | apply kept_failOp | apply kept_sendData | apply kept_acceptPart | split
theorem kept_execWacc (p : Nat) (fl : Flit) (s : State) (h0 : Kept q0 c0 s) : KeptOut q0 c0 (execWacc p fl s) := by
  unfold execWacc
  with_reducible repeat' first | assumption | apply kept_receive | apply kept_takeWacc
theorem kept_takeRhead (fl : Flit) (s : State) (h0 : Kept q0 c0 s) : Kept q0 c0 (takeRhead fl s) := by
  unfold takeRhead
  try dsimp only
  with_reducible repeat' first | assumption | apply kept_putOp | apply kept_failOp | split
theorem kept_execRhead (p : Nat) (fl : Flit) (s : State) (h0 : Kept q0 c0 s) : KeptOut q0 c0 (execRhead p fl s) := by
  unfold execRhead
  with_reducible repeat' first | assumption | apply kept_receive | apply kept_takeRhead
theorem kept_landGet (s : State) (o : SrcOp) (bs : List Byte) (h0 : Kept q0 c0 s) : Kept q0 c0 (landGet s o bs) := by
  unfold landGet
  with_reducible repeat' first | assumption | apply kept_engineWrite | apply kept_copyWrite | apply kept_foldl | split | intro _ _ _
theorem kept_landChunks (s : State) (o : SrcOp) (h0 : Kept q0 c0 s) : Kept q0 c0 (landChunks s o) := by
  unfold landChunks
  with_reducible repeat' first | assumption | apply kept_setBlk | split
theorem kept_takeGetData (fl : Flit) (s : State) (h0 : Kept q0 c0 s) : Kept q0 c0 (takeGetData fl s) := by
  unfold takeGetData
  try dsimp only
  with_reducible repeat' first | assumption | apply kept_putOp | apply kept_landChunks | apply kept_dropOp | apply kept_landGet | split
theorem kept_execData (p : Nat) (fl : Flit) (s : State) (h0 : Kept q0 c0 s) : KeptOut q0 c0 (execData p fl s) := by
  unfold execData
  with_reducible repeat' first | assumption | apply kept_receive | apply kept_takeData | apply kept_takeGetData | split
theorem kept_takeAtomr (fl : Flit) (s : State) (h0 : Kept q0 c0 s) : Kept q0 c0 (takeAtomr fl s) := by
  unfold takeAtomr
  try dsimp only
  with_reducible repeat' first | assumption | apply kept_failOp | apply kept_copyWrite | apply kept_drainDone | apply kept_uncount | apply kept_dropOp | apply kept_endCopy | split
theorem kept_execAtomr (p : Nat) (fl : Flit) (s : State) (h0 : Kept q0 c0 s) : KeptOut q0 c0 (execAtomr p fl s) := by
  unfold execAtomr
  with_reducible repeat' first | assumption | apply kept_receive | apply kept_takeAtomr
theorem kept_takeAck (src : Nat) (s : State) (t : Nat) (h0 : Kept q0 c0 s) : Kept q0 c0 (takeAck src s t) := by
  unfold takeAck
  try dsimp only
  with_reducible repeat' first | assumption | apply keptAct_trap | apply kept_uncount | apply kept_putOp | apply kept_drainDone | apply kept_dropOp | (simp only [kept_mk]; first | apply kept_parts | apply kept_parts_pkg) | apply keptAct_done | exact keptAct_trap | apply keptAct_trapIn | apply keptAct_wait | split | intro _ _ _ | intro _ _ | intro _
theorem kept_execAck (p : Nat) (fl : Flit) (s : State) (h0 : Kept q0 c0 s) : KeptOut q0 c0 (execAck p fl s) := by
  unfold execAck
  with_reducible repeat' first | assumption | apply kept_receive | apply kept_takeAck | apply kept_foldl | intro _ _
theorem kept_execOperationTimeout (dst tag : Nat) (s : State) (h0 : Kept q0 c0 s) : KeptOut q0 c0 (execOperationTimeout dst tag s) := by
  unfold execOperationTimeout
  with_reducible repeat' first | assumption | apply kept_sendHead | apply keptOut_next | exact keptOut_fault | split
theorem kept_dropMember (s : State) (m : Nat) (h0 : Kept q0 c0 s) : Kept q0 c0 (dropMember s m) := by
  unfold dropMember
  with_reducible repeat' first | assumption | apply kept_failOp | apply kept_setLinks | apply kept_foldl | split | intro _ _ _

end Sys2Proof.Machine
end

