-- ==== Sys2Proof/Laws/KeptDevice.lean ====
section
/-!
SUPPORT. Laws/KeptDevice.lean: the lemmas of Laws/Kept.lean for Machine files Replica, Hall, Dispatch, Schedule.
-/
namespace Sys2Proof.Machine
set_option Elab.async false
variable {q0 : Pkg} {c0 : Prop}
theorem kept_setRepl (s : State) (r : Repl) (h0 : Kept q0 c0 s) : Kept q0 c0 (setRepl s r) := h0
theorem kept_takeRow (m ctx k r : Nat) (s : State) (c : Nat) (h0 : Kept q0 c0 s) : Kept q0 c0 (takeRow m ctx k r s c) := h0
theorem kept_setRowK (s : State) (k : Nat) (r : KRow) (h0 : Kept q0 c0 s) : Kept q0 c0 (setRowK s k r) := h0
theorem kept_openKern (s : State) (k : Nat) (r : KRow) (h0 : Kept q0 c0 s) : Kept q0 c0 (openKern s k r) := h0
theorem kept_startRank (s : State) (k rank : Nat) (h0 : Kept q0 c0 s) : Kept q0 c0 (startRank s k rank) := by
  unfold startRank
  with_reducible repeat' first | assumption | apply kept_openKern | apply kept_setKern | split
theorem kept_placeRank (k : Nat) (s : State) (e : Nat × Nat) (h0 : Kept q0 c0 s) : Kept q0 c0 (placeRank k s e) := by
  unfold placeRank
  try dsimp only
  with_reducible repeat' first | assumption | apply keptAct_trap | apply kept_takeRow | apply kept_startRank | apply kept_foldl | split | intro _ _ _ | intro _ _ | intro _
theorem kept_placeRanks (s : State) (k : Nat) (ranks : List Nat) (h0 : Kept q0 c0 s) : ∀ t, placeRanks s k ranks = some t → Kept q0 c0 t := by
  unfold placeRanks
  try dsimp only
  with_reducible repeat' first | assumption | apply kept_placeRank | apply kept_setRowK | apply kept_foldl | refine kept_of_some ?_ ‹some _ = some _› | exact kept_of_none ‹none = some _› | split | intro _ _
theorem kept_freeRows (s : State) (k : Nat) (rank : Option Nat) (h0 : Kept q0 c0 s) : Kept q0 c0 (freeRows s k rank) := h0
theorem kept_killHere (s : State) (k : Nat) (h0 : Kept q0 c0 s) : Kept q0 c0 (killHere s k) := by
  unfold killHere
  try dsimp only
  with_reducible repeat' first | assumption | apply keptAct_trap | apply kept_setKern | apply kept_squashBlock | apply kept_removeBlock | (simp only [kept_mk]; first | apply kept_parts | apply kept_parts_pkg) | apply kept_foldl | apply keptAct_done | exact keptAct_trap | apply keptAct_trapIn | apply keptAct_wait | split | intro _ _ _ | intro _ _ | intro _
theorem kept_endLaunch (s : State) (k err : Nat) (h0 : Kept q0 c0 s) : Kept q0 c0 (endLaunch s k err) := by
  unfold endLaunch
  try dsimp only
  with_reducible repeat' first | assumption | apply kept_setHall | apply kept_outcome | apply kept_queueRecord | split
theorem kept_endKernel (s : State) (k err : Nat) (h0 : Kept q0 c0 s) : Kept q0 c0 (endKernel s k err) := by
  unfold endKernel
  with_reducible repeat' first | assumption | apply kept_freeRows | apply kept_killHere | apply kept_endLaunch | apply kept_setRepl
theorem kept_settleKernel (s : State) (k : Nat) (h0 : Kept q0 c0 s) : Kept q0 c0 (settleKernel s k) := by
  unfold settleKernel
  try dsimp only
  with_reducible repeat' first | assumption | apply kept_setRepl | apply kept_endKernel | split
theorem kept_tryKernel (s : State) (k : Nat) (h0 : Kept q0 c0 s) : Kept q0 c0 (tryKernel s k) := by
  unfold tryKernel
  split
  · exact kept_endKernel _ _ _ h0
  · exact kept_getD (kept_placeRanks _ _ _ h0) h0
theorem kept_tryList (a0 : List Nat) (a1 : List Nat) (a2 : State) (h0 : Kept q0 c0 a2) : Kept q0 c0 (tryList a0 a1 a2) := by
  fun_induction tryList a0 a1 a2 <;> (with_reducible repeat' first | apply kept_tryKernel | apply_assumption)
theorem kept_tryWaiting (s : State) (h0 : Kept q0 c0 s) : Kept q0 c0 (tryWaiting s) := by
  unfold tryWaiting
  with_reducible repeat' first | assumption | apply kept_tryList
theorem kept_updatePred (s : State) (ctx image t seq : Nat) (h0 : Kept q0 c0 s) : Kept q0 c0 (updatePred s ctx image t seq) := h0
theorem kept_resolveHere (s : State) (k t : Nat) (old : KRow) (h0 : Kept q0 c0 s) : Kept q0 c0 (resolveHere s k t old) := by
  unfold resolveHere
  with_reducible repeat' first | assumption | apply kept_setKern | apply kept_commitBlock | apply kept_squashBlock | apply kept_settleGrid | apply kept_finishRank | apply kept_foldl | split | intro _ _ _
theorem kept_reopenGrid (s : State) (k : Nat) (h0 : Kept q0 c0 s) : Kept q0 c0 (reopenGrid s k) := by
  unfold reopenGrid
  try dsimp only
  with_reducible repeat' first | assumption | apply keptAct_trap | apply kept_settleGrid | apply kept_setKern | (simp only [kept_mk]; first | apply kept_parts | apply kept_parts_pkg) | apply keptAct_done | exact keptAct_trap | apply keptAct_trapIn | apply keptAct_wait | split | intro _ _ _ | intro _ _ | intro _
theorem kept_resolveKernel (s : State) (k t : Nat) (p : Word) (seq : Nat) (h0 : Kept q0 c0 s) : Kept q0 c0 (resolveKernel s k t p seq) := by
  unfold resolveKernel
  try dsimp only
  with_reducible repeat' first | assumption | apply keptAct_trap | apply kept_updatePred | apply kept_endKernel | apply kept_setRowK | apply kept_resolveHere | apply kept_settleKernel | apply kept_reopenGrid | apply kept_freeRows | (simp only [kept_mk]; first | apply kept_parts | apply kept_parts_pkg) | apply kept_foldl | apply keptAct_done | exact keptAct_trap | apply keptAct_trapIn | apply keptAct_wait | split | intro _ _ _ | intro _ _ | intro _
theorem kept_resolveFatal (s : State) (ctx : Nat) (h0 : Kept q0 c0 s) : Kept q0 c0 (resolveFatal s ctx) := by
  unfold resolveFatal
  with_reducible repeat' first | assumption | apply kept_terminateCtx
theorem kept_applyResolve (s : State) (e : HEvent) (h0 : Kept q0 c0 s) : Kept q0 c0 (applyResolve s e) := by
  unfold applyResolve
  try dsimp only
  with_reducible repeat' first | assumption | apply kept_tryWaiting | apply kept_resolveKernel | apply kept_resolveFatal | apply kept_setRepl | split
theorem kept_tryNew (s : State) (k : Nat) (h0 : Kept q0 c0 s) : Kept q0 c0 (tryNew s k) := by
  unfold tryNew
  with_reducible repeat' first | assumption | apply kept_endKernel | apply kept_settleKernel | apply kept_tryKernel | split
theorem kept_applySubmit (s : State) (e0 e1 : HEvent) (h0 : Kept q0 c0 s) : Kept q0 c0 (applySubmit s e0 e1) := by
  unfold applySubmit
  extract_lets k c mine hh s1 rr s2 r0 np r1 hit rr2 s3 r2 bad s4
  have h1 : Kept q0 c0 s1 := by
    show Kept q0 c0 (if mine then setHall s _ else s)
    split
    · exact kept_setHall _ _ h0
    · exact h0
  split
  · exact kept_endLaunch _ _ _ h1
  · split
    · exact kept_endLaunch _ _ _ (kept_setRepl _ _ h1)
    · have h2 : Kept q0 c0 s2 := kept_setRepl _ _ h1
      have h3 : Kept q0 c0 s3 := by
        show Kept q0 c0 (match hit with | some x => _ | none => s2)
        clear_value hit
        split
        · exact kept_updatePred _ _ _ _ _ (kept_setRepl _ _ h2)
        · exact h2
      have h4 : Kept q0 c0 s4 := kept_openKern _ _ _ (kept_setRowK _ _ _ h3)
      split
      · exact kept_endKernel _ _ _ h4
      · exact kept_tryNew _ _ h4
theorem kept_applyFinish (s : State) (e : HEvent) (h0 : Kept q0 c0 s) : Kept q0 c0 (applyFinish s e) := by
  unfold applyFinish
  try dsimp only
  with_reducible repeat' first | assumption | apply keptAct_trap | apply kept_reopenGrid | apply kept_freeRows | apply kept_setRowK | apply kept_tryWaiting | apply kept_settleKernel | (simp only [kept_mk]; first | apply kept_parts | apply kept_parts_pkg) | split | intro _ _ _ | intro _ _ | intro _
theorem kept_applyFault (s : State) (e : HEvent) (h0 : Kept q0 c0 s) : Kept q0 c0 (applyFault s e) := by
  unfold applyFault
  with_reducible repeat' first | assumption | apply kept_tryWaiting | apply kept_endKernel | split
theorem kept_setSuspended (s : State) (ctx : Nat) (b : Bool) (bound : Nat) (h0 : Kept q0 c0 s) : Kept q0 c0 (setSuspended s ctx b bound) := h0
theorem kept_applyBlock (s : State) (e : HEvent) (h0 : Kept q0 c0 s) : Kept q0 c0 (applyBlock s e) := by
  unfold applyBlock
  with_reducible repeat' first | assumption | apply kept_preemptCtx | apply kept_setSuspended | split
theorem kept_applyUnblock (s : State) (e : HEvent) (h0 : Kept q0 c0 s) : Kept q0 c0 (applyUnblock s e) := by
  unfold applyUnblock
  with_reducible repeat' first | assumption | apply kept_tryWaiting | apply kept_setSuspended | split
theorem kept_applyPrio (s : State) (e : HEvent) (h0 : Kept q0 c0 s) : Kept q0 c0 (applyPrio s e) := by
  unfold applyPrio
  with_reducible repeat' first | assumption | apply kept_tryWaiting | apply kept_setRepl | split
theorem kept_loseRanks (s : State) (k : Nat) (h0 : Kept q0 c0 s) : Kept q0 c0 (loseRanks s k) := by
  unfold loseRanks
  dsimp only
  split
  · exact kept_reopenGrid _ _ (kept_setRowK _ _ _ h0)
  · split
    · rename_i e
      split at e
      · exact kept_reopenGrid _ _ (kept_placeRanks _ _ _ h0 _ e)
      · cases e
    · exact kept_tryNew _ _ (kept_setKern _ _ _ (kept_openKern _ _ _ (kept_setRowK _ _ _ (kept_freeRows _ _ _ (kept_killHere _ _ h0)))))
theorem kept_setFarPorts (s : State) (m : Nat) (old : List PortState) (new : PortState) (h0 : Kept q0 c0 s) : Kept q0 c0 (setFarPorts s m old new) := h0
theorem kept_unbindMember (s : State) (m : Nat) (h0 : Kept q0 c0 s) : Kept q0 c0 (unbindMember s m) := by
  unfold unbindMember
  try dsimp only
  with_reducible repeat' first | assumption | apply keptAct_trap | apply kept_setHall | apply kept_forgetCtx | (simp only [kept_mk]; first | apply kept_parts | apply kept_parts_pkg) | apply kept_foldl | apply keptAct_done | exact keptAct_trap | apply keptAct_trapIn | apply keptAct_wait | split | intro _ _ _ | intro _ _ | intro _
theorem kept_removeMember (s : State) (m : Nat) (fence : Bool) (h0 : Kept q0 c0 s) : Kept q0 c0 (removeMember s m fence) := by
  unfold removeMember
  try dsimp only
  with_reducible repeat' first | assumption | apply keptAct_trap | apply kept_setRepl | apply kept_setFarPorts | apply kept_rerouteFrom | apply kept_unbindMember | apply kept_dropMember | apply kept_tryWaiting | apply kept_loseRanks | (simp only [kept_mk]; first | apply kept_parts | apply kept_parts_pkg) | apply kept_foldl | apply keptAct_done | exact keptAct_trap | apply keptAct_trapIn | apply keptAct_wait | split | intro _ _ _ | intro _ _ | intro _
theorem kept_addMember (s : State) (m seq : Nat) (h0 : Kept q0 c0 s) : Kept q0 c0 (addMember s m seq) := by
  unfold addMember
  with_reducible repeat' first | assumption | apply kept_setRepl | apply kept_setHall | apply kept_tryWaiting | apply kept_setLinks | apply kept_setFarPorts | split
theorem kept_sendHall (s : State) (dst form : Nat) (bs : List Byte) (h0 : Kept q0 c0 s) : Kept q0 c0 (sendHall s dst form bs) := by
  unfold sendHall
  with_reducible repeat' first | assumption | apply kept_sendCh0
theorem kept_sendSnap (s : State) (dst form : Nat) (bs : List Byte) (h0 : Kept q0 c0 s) : Kept q0 c0 (sendSnap s dst form bs) := by
  unfold sendSnap
  with_reducible repeat' first | assumption | apply kept_setLinks | apply kept_portSend
theorem kept_tryJoin (s : State) (h0 : Kept q0 c0 s) : Kept q0 c0 (tryJoin s) := by
  unfold tryJoin
  try dsimp only
  with_reducible repeat' first | assumption | apply kept_sendSnap | apply kept_setHall | split
theorem kept_wipeHall (s : State) (after : Nat) (out : Bool) (h0 : Kept q0 c0 s) : Kept q0 c0 (wipeHall s after out) := by
  unfold wipeHall
  with_reducible repeat' first | assumption | apply kept_terminateCtx | apply kept_setHall | apply kept_setLinks | (simp only [kept_mk]; first | apply kept_parts | apply kept_parts_pkg) | apply kept_foldl | intro _ _ _
theorem kept_fencedSelf (s : State) (fence : Bool) (h0 : Kept q0 c0 s) : Kept q0 c0 (fencedSelf s fence) := by
  unfold fencedSelf
  with_reducible repeat' first | assumption | apply kept_packageClass | apply kept_setLinks | apply kept_tryJoin | apply kept_wipeHall | split
theorem kept_abortFill (s : State) (h0 : Kept q0 c0 s) : Kept q0 c0 (abortFill s) := by
  unfold abortFill
  with_reducible repeat' first | assumption | apply kept_tryJoin | apply kept_wipeHall
theorem kept_postFence (s : State) (m : Nat) (h0 : Kept q0 c0 s) : Kept q0 c0 (postFence s m) := by
  unfold postFence
  with_reducible repeat' first | assumption | apply kept_postEvent
theorem kept_condemn (s : State) (v : List Nat) (ts : List Tally) (d : BitVec 256) (h0 : Kept q0 c0 s) : Kept q0 c0 (condemn s v ts d) := by
  unfold condemn
  try dsimp only
  with_reducible repeat' first | assumption | apply kept_setRepl | apply kept_postFence | apply kept_foldl | split
theorem kept_postDigest (s : State) (c halt : Nat) (h0 : Kept q0 c0 s) : Kept q0 c0 (postDigest s c halt) := by
  unfold postDigest
  with_reducible repeat' first | assumption | apply kept_postEvent
theorem kept_haltHall (s : State) (c : Nat) (h0 : Kept q0 c0 s) : Kept q0 c0 (haltHall s c) := by
  unfold haltHall
  with_reducible repeat' first | assumption | apply kept_packageClass | apply kept_setRepl | split
theorem kept_joinVote (s : State) (c : Nat) (d : BitVec 256) (h0 : Kept q0 c0 s) : Kept q0 c0 (joinVote s c d) := by
  unfold joinVote
  try dsimp only
  with_reducible repeat' first | assumption | apply kept_sendSnap | apply kept_setHall | apply kept_abortFill | split
theorem kept_settleVote (s : State) (c : Nat) (h0 : Kept q0 c0 s) : Kept q0 c0 (settleVote s c) := by
  unfold settleVote
  try dsimp only
  with_reducible repeat' first | assumption | apply kept_setHall | apply kept_setRepl | apply kept_joinVote | apply kept_condemn | apply kept_haltHall | split
theorem kept_settleVotes (s : State) (was : Nat) (e : HEvent) (h0 : Kept q0 c0 s) : Kept q0 c0 (settleVotes s was e) := by
  unfold settleVotes
  try dsimp only
  with_reducible repeat' first | assumption | apply kept_settleVote | apply kept_postDigest | apply kept_foldl | split | intro _ _ _
theorem kept_applyDigest (s : State) (e : HEvent) (h0 : Kept q0 c0 s) : Kept q0 c0 (applyDigest s e) := by
  unfold applyDigest
  try dsimp only
  with_reducible repeat' first | assumption | apply keptAct_trap | apply kept_setRepl | (simp only [kept_mk]; first | apply kept_parts | apply kept_parts_pkg) | apply keptAct_done | exact keptAct_trap | apply keptAct_trapIn | apply keptAct_wait | split | intro _ _ _ | intro _ _ | intro _
theorem kept_joined (s : State) (h0 : Kept q0 c0 s) : Kept q0 c0 (joined s) := by
  unfold joined
  try dsimp only
  with_reducible repeat' first | assumption | apply kept_setHall | apply kept_sendHall | apply kept_postDigest | apply kept_foldl | split | intro _ _ _
theorem kept_applyEvent (s : State) (e : HEvent) (h0 : Kept q0 c0 s) : Kept q0 c0 (applyEvent s e) := by
  unfold applyEvent
  try dsimp only
  with_reducible repeat' first | assumption | apply kept_setHall | apply kept_applySubmit | apply kept_applyFinish | apply kept_applyBlock | apply kept_applyUnblock | apply kept_applyFault | apply kept_fencedSelf | apply kept_removeMember | apply kept_addMember | apply kept_joined | apply kept_applyResolve | apply kept_applyPrio | apply kept_applyDigest | split
theorem kept_haltVote (s : State) (changed : Bool) (was seq : Nat) (h0 : Kept q0 c0 s) : Kept q0 c0 (haltVote s changed was seq) := by
  unfold haltVote
  try dsimp only
  with_reducible repeat' first | assumption | apply keptAct_trap | apply kept_condemn | apply kept_setRepl | (simp only [kept_mk]; first | apply kept_parts | apply kept_parts_pkg) | apply keptAct_done | exact keptAct_trap | apply keptAct_trapIn | apply keptAct_wait | split | intro _ _ _ | intro _ _ | intro _
theorem kept_afterEvent (s : State) (view was : Nat) (e : HEvent) (h0 : Kept q0 c0 s) : Kept q0 c0 (afterEvent s view was e) := by
  unfold afterEvent
  try dsimp only
  with_reducible repeat' first | assumption | apply keptAct_trap | apply kept_haltVote | apply kept_settleVotes | apply kept_postDigest | apply kept_setHall | (simp only [kept_mk]; first | apply kept_parts | apply kept_parts_pkg) | split | intro _ _ _ | intro _ _ | intro _
theorem kept_runEvent (s : State) (e : HEvent) (h0 : Kept q0 c0 s) : Kept q0 c0 (runEvent s e) := by
  unfold runEvent
  try dsimp only
  with_reducible repeat' first | assumption | apply keptAct_trap | apply kept_applyEvent | apply kept_afterEvent | apply kept_setRepl | (simp only [kept_mk]; first | apply kept_parts | apply kept_parts_pkg) | split | intro _ _ _ | intro _ _ | intro _
theorem kept_takeEvent (s : State) (e : HEvent) (h0 : Kept q0 c0 s) : Kept q0 c0 (takeEvent s e) := by
  unfold takeEvent
  with_reducible repeat' first | assumption | apply kept_setHall | apply kept_runEvent | split
theorem kept_applyKept (s : State) (h0 : Kept q0 c0 s) : Kept q0 c0 (applyKept s) := by
  unfold applyKept
  with_reducible repeat' first | assumption | apply kept_takeEvent | apply kept_setHall | apply kept_foldl | split
theorem kept_deliverOne (s : State) (e : HEvent) (h0 : Kept q0 c0 s) : Kept q0 c0 (deliverOne s e) := by
  unfold deliverOne
  try dsimp only
  with_reducible repeat' first | assumption | apply keptAct_trap | apply kept_setHall | apply kept_sendSnap | apply kept_applyKept | apply kept_takeEvent | (simp only [kept_mk]; first | apply kept_parts | apply kept_parts_pkg) | apply kept_foldl | apply keptAct_done | exact keptAct_trap | apply keptAct_trapIn | apply keptAct_wait | split | intro _ _ _ | intro _ _ | intro _
theorem kept_deliverUpTo (a0 : Nat) (a1 : Nat) (a2 : State) (h0 : Kept q0 c0 a2) : Kept q0 c0 (deliverUpTo a0 a1 a2) := by
  fun_induction deliverUpTo a0 a1 a2 <;> (with_reducible repeat' first | apply kept_deliverOne | apply_assumption)
theorem kept_deliver (s : State) (top : Nat) (h0 : Kept q0 c0 s) : Kept q0 c0 (deliver s top) := by
  unfold deliver
  with_reducible repeat' first | assumption | apply kept_deliverUpTo
theorem kept_keepRecv (s : State) (e : HEvent) (h0 : Kept q0 c0 s) : Kept q0 c0 (keepRecv s e) := by
  unfold keepRecv
  with_reducible repeat' first | assumption | apply kept_setHall | split
theorem kept_noteAcked (s : State) (h0 : Kept q0 c0 s) : Kept q0 c0 (noteAcked s) := h0
theorem kept_refill256 (s : State) (h0 : Kept q0 c0 s) : Kept q0 c0 (refill256 s) := h0
theorem kept_assignOne (s : State) (h0 : Kept q0 c0 s) : Kept q0 c0 (assignOne s) := by
  unfold assignOne
  with_reducible repeat' first | assumption | apply kept_keepRecv | apply kept_setHall | apply kept_noteAcked | apply kept_sendHall | apply kept_foldl | split | intro _ _ _
theorem kept_assignAll (a0 : Nat) (a1 : Nat) (a2 : State) (h0 : Kept q0 c0 a2) : Kept q0 c0 (assignAll a0 a1 a2) := by
  fun_induction assignAll a0 a1 a2 with
  | case1 => exact h0
  | case2 => exact h0
  | case3 => exact h0
  | case4 =>
    rename_i ih
    apply ih
    split
    · exact kept_assignOne _ (kept_assignOne _ h0)
    · exact kept_assignOne _ h0
theorem kept_endVisit (s : State) (h0 : Kept q0 c0 s) : Kept q0 c0 (endVisit s) := by
  unfold endVisit
  try dsimp only
  with_reducible repeat' first | assumption | apply kept_sendHall | apply kept_setHall | apply kept_deliver | apply kept_foldl | split | intro _ _ _
theorem kept_visit (s : State) (h0 : Kept q0 c0 s) : Kept q0 c0 (visit s) := by
  unfold visit
  with_reducible repeat' first | assumption | apply kept_endVisit | apply kept_refill256 | apply kept_assignAll | apply kept_setHall
theorem kept_postLoss (s : State) (m : Nat) (h0 : Kept q0 c0 s) : Kept q0 c0 (postLoss s m) := by
  unfold postLoss
  with_reducible repeat' first | assumption | apply kept_postEvent
theorem kept_startToken (s : State) (top : Nat) (h0 : Kept q0 c0 s) : Kept q0 c0 (startToken s top) := by
  unfold startToken
  with_reducible repeat' first | assumption | apply kept_sendHall | apply kept_postLoss | apply kept_applyKept | apply kept_setHall | apply kept_visit | apply kept_foldl | intro _ _ _
theorem kept_continueFetch (s : State) (h0 : Kept q0 c0 s) : Kept q0 c0 (continueFetch s) := by
  unfold continueFetch
  with_reducible repeat' first | assumption | apply kept_startToken | split
theorem kept_fetchTail (s : State) (h0 : Kept q0 c0 s) : Kept q0 c0 (fetchTail s) := by
  unfold fetchTail
  try dsimp only
  with_reducible repeat' first | assumption | apply kept_sendSnap | apply kept_setHall | split
theorem kept_joinerEvent (e : HEvent) (s : State) (h0 : Kept q0 c0 s) : Kept q0 c0 (joinerEvent e s) := by
  unfold joinerEvent
  try dsimp only
  with_reducible repeat' first | assumption | apply kept_abortFill | apply kept_deliver | apply kept_fetchTail | split
theorem kept_gotEvent (src : Nat) (e : HEvent) (s : State) (h0 : Kept q0 c0 s) : Kept q0 c0 (gotEvent src e s) := by
  unfold gotEvent
  with_reducible repeat' first | assumption | apply kept_joinerEvent | apply kept_keepRecv | apply kept_noteAcked | apply kept_sendHall | apply kept_continueFetch | split
theorem kept_gotAck (src n : Nat) (s : State) (h0 : Kept q0 c0 s) : Kept q0 c0 (gotAck src n s) := by
  unfold gotAck
  with_reducible repeat' first | assumption | apply kept_endVisit | apply kept_setHall
theorem kept_gotToken (next st : Nat) (s : State) (h0 : Kept q0 c0 s) : Kept q0 c0 (gotToken next st s) := by
  unfold gotToken
  try dsimp only
  with_reducible repeat' first | assumption | apply kept_deliver | apply kept_applyKept | apply kept_setHall | apply kept_visit | split
theorem kept_gotStable (st : Nat) (s : State) (h0 : Kept q0 c0 s) : Kept q0 c0 (gotStable st s) := by
  unfold gotStable
  with_reducible repeat' first | assumption | apply kept_deliver | split
theorem kept_formView (s : State) (h0 : Kept q0 c0 s) : Kept q0 c0 (formView s) := by
  unfold formView
  with_reducible repeat' first | assumption | apply kept_setHall | split
theorem kept_startRecovery (s : State) (h0 : Kept q0 c0 s) : Kept q0 c0 (startRecovery s) := by
  unfold startRecovery
  try dsimp only
  with_reducible repeat' first | assumption | apply kept_formView | apply kept_setHall | apply kept_sendHall | apply kept_foldl | split | intro _ _ _
theorem kept_gotRecover (src : Nat) (s : State) (h0 : Kept q0 c0 s) : Kept q0 c0 (gotRecover src s) := by
  unfold gotRecover
  try dsimp only
  with_reducible repeat' first | assumption | apply keptAct_trap | apply kept_formView | apply kept_setHall | apply kept_sendHall | (simp only [kept_mk]; first | apply kept_parts | apply kept_parts_pkg) | split | intro _ _ _ | intro _ _ | intro _
theorem kept_gotReply (src got del : Nat) (s : State) (h0 : Kept q0 c0 s) : Kept q0 c0 (gotReply src got del s) := by
  unfold gotReply
  try dsimp only
  with_reducible repeat' first | assumption | apply kept_setHall | split
theorem kept_collect (s : State) (h0 : Kept q0 c0 s) : Kept q0 c0 (collect s) := by
  unfold collect
  try dsimp only
  with_reducible repeat' first | assumption | apply keptAct_trap | apply kept_packageClass | apply kept_setHall | apply kept_startToken | apply kept_sendSnap | (simp only [kept_mk]; first | apply kept_parts | apply kept_parts_pkg) | apply keptAct_done | exact keptAct_trap | apply keptAct_trapIn | apply keptAct_wait | split | intro _ _ _ | intro _ _ | intro _
theorem kept_execRecoveryCollect (s : State) (h0 : Kept q0 c0 s) : KeptOut q0 c0 (execRecoveryCollect s) := by
  unfold execRecoveryCollect
  try dsimp only
  with_reducible repeat' first | assumption | apply keptAct_trap | apply kept_collect | apply keptOut_next | exact keptOut_fault | split | intro _ _ _ | intro _ _ | intro _
theorem kept_execAckWaitTimeout (s : State) (h0 : Kept q0 c0 s) : KeptOut q0 c0 (execAckWaitTimeout s) := by
  unfold execAckWaitTimeout
  try dsimp only
  with_reducible repeat' first | assumption | apply keptAct_trap | apply kept_startRecovery | apply keptOut_next | exact keptOut_fault | split | intro _ _ _ | intro _ _ | intro _
theorem kept_execTokenTimeout (s : State) (h0 : Kept q0 c0 s) : KeptOut q0 c0 (execTokenTimeout s) := by
  unfold execTokenTimeout
  try dsimp only
  with_reducible repeat' first | assumption | apply keptAct_trap | apply kept_startRecovery | apply keptOut_next | exact keptOut_fault | split | intro _ _ _ | intro _ _ | intro _
theorem kept_execSuspect (m : Nat) (s : State) (h0 : Kept q0 c0 s) : KeptOut q0 c0 (execSuspect m s) := by
  unfold execSuspect
  try dsimp only
  with_reducible repeat' first | assumption | apply keptAct_trap | apply kept_postLoss | apply kept_fetchTail | apply kept_abortFill | apply keptOut_next | exact keptOut_fault | split | intro _ _ _ | intro _ _ | intro _
theorem kept_sendParts (a0 : Nat) (a1 : Nat) (a2 : List Byte) (a3 : Nat) (a4 : State) (h0 : Kept q0 c0 a4) : Kept q0 c0 (sendParts a0 a1 a2 a3 a4) := by
  fun_induction sendParts a0 a1 a2 a3 a4 <;> (with_reducible repeat' first | apply kept_sendSnap | apply_assumption)
theorem kept_serveSnap (src : Nat) (s : State) (h0 : Kept q0 c0 s) : Kept q0 c0 (serveSnap src s) := by
  unfold serveSnap
  with_reducible repeat' first | assumption | apply kept_sendParts | apply kept_sendSnap | apply kept_setHall | apply kept_foldl | split | intro _ _ _
theorem kept_takePart (src total : Nat) (bs : List Byte) (s : State) (h0 : Kept q0 c0 s) : Kept q0 c0 (takePart src total bs s) := by
  unfold takePart
  try dsimp only
  with_reducible repeat' first | assumption | apply kept_setHall | split
theorem kept_takeTail (src : Nat) (e : HEvent) (s : State) (h0 : Kept q0 c0 s) : Kept q0 c0 (takeTail src e s) := by
  unfold takeTail
  try dsimp only
  with_reducible repeat' first | assumption | apply kept_abortFill | apply kept_deliverOne | apply kept_keepRecv | apply kept_noteAcked | split
theorem kept_serveJoin (src n : Nat) (s : State) (h0 : Kept q0 c0 s) : Kept q0 c0 (serveJoin src n s) := by
  unfold serveJoin
  with_reducible repeat' first | assumption | apply kept_postEvent | split
theorem kept_serveEvents (src lo hi : Nat) (s : State) (h0 : Kept q0 c0 s) : Kept q0 c0 (serveEvents src lo hi s) := by
  unfold serveEvents
  with_reducible repeat' first | assumption | apply kept_sendHall | apply kept_foldl | intro _ _ _
theorem kept_takeSnap (fl : Flit) (s : State) (h0 : Kept q0 c0 s) : Kept q0 c0 (takeSnap fl s) := by
  unfold takeSnap
  try dsimp only
  with_reducible repeat' first | assumption | apply kept_serveSnap | apply kept_takePart | apply kept_takeTail | apply kept_serveJoin | apply kept_serveEvents | split
theorem kept_takeHall (fl : Flit) (s : State) (h0 : Kept q0 c0 s) : Kept q0 c0 (takeHall fl s) := by
  unfold takeHall
  try dsimp only
  with_reducible repeat' first | assumption | apply kept_gotEvent | apply kept_gotAck | apply kept_gotToken | apply kept_gotStable | apply kept_gotRecover | apply kept_gotReply | split
theorem kept_takeBarr (fl : Flit) (s : State) (h0 : Kept q0 c0 s) : Kept q0 c0 (takeBarr fl s) := by
  unfold takeBarr
  try dsimp only
  with_reducible repeat' first | assumption | apply keptAct_trap | apply kept_settleGrid | apply kept_enterEpisode | apply kept_sendCh0 | apply kept_recordRank | split | intro _ _ _ | intro _ _ | intro _
theorem kept_takeZero (fl : Flit) (s : State) (h0 : Kept q0 c0 s) : Kept q0 c0 (takeZero fl s) := by
  unfold takeZero
  with_reducible repeat' first | assumption | apply kept_takeHall | apply kept_takeSnap | apply kept_takeBarr | split
theorem kept_releaseHeld (a0 : Nat) (a1 : Nat) (a2 : State) (h0 : Kept q0 c0 a2) : Kept q0 c0 (releaseHeld a0 a1 a2) := by
  fun_induction releaseHeld a0 a1 a2 <;> (with_reducible repeat' first | apply kept_takeZero | apply_assumption)
theorem kept_startCh0 (s : State) (fl : Flit) (h0 : Kept q0 c0 s) : Kept q0 c0 (startCh0 s fl) := by
  unfold startCh0
  with_reducible repeat' first | assumption | apply kept_setLinks | split
theorem kept_inOrder (fl : Flit) (s : State) (h0 : Kept q0 c0 s) : Kept q0 c0 (inOrder fl s) := by
  unfold inOrder
  try dsimp only
  with_reducible repeat' first | assumption | apply keptAct_trap | apply kept_startCh0 | apply kept_releaseHeld | apply kept_takeZero | apply kept_setLinks | (simp only [kept_mk]; first | apply kept_parts | apply kept_parts_pkg) | apply keptAct_done | exact keptAct_trap | apply keptAct_trapIn | apply keptAct_wait | split | intro _ _ _ | intro _ _ | intro _
theorem kept_execHallEvent (p : Nat) (fl : Flit) (s : State) (h0 : Kept q0 c0 s) : KeptOut q0 c0 (execHallEvent p fl s) := by
  unfold execHallEvent
  with_reducible repeat' first | assumption | apply kept_receive | apply kept_inOrder
theorem kept_execHallAck (p : Nat) (fl : Flit) (s : State) (h0 : Kept q0 c0 s) : KeptOut q0 c0 (execHallAck p fl s) := by
  unfold execHallAck
  with_reducible repeat' first | assumption | apply kept_receive | apply kept_inOrder
theorem kept_execToken (p : Nat) (fl : Flit) (s : State) (h0 : Kept q0 c0 s) : KeptOut q0 c0 (execToken p fl s) := by
  unfold execToken
  try dsimp only
  with_reducible repeat' first | assumption | apply keptAct_trap | apply kept_visit | apply kept_receive | apply kept_inOrder | apply keptOut_next | exact keptOut_fault | split | intro _ _ _ | intro _ _ | intro _
theorem kept_execStable (p : Nat) (fl : Flit) (s : State) (h0 : Kept q0 c0 s) : KeptOut q0 c0 (execStable p fl s) := by
  unfold execStable
  with_reducible repeat' first | assumption | apply kept_receive | apply kept_inOrder
theorem kept_execRecover (p : Nat) (fl : Flit) (s : State) (h0 : Kept q0 c0 s) : KeptOut q0 c0 (execRecover p fl s) := by
  unfold execRecover
  with_reducible repeat' first | assumption | apply kept_receive | apply kept_inOrder
theorem kept_execReply (p : Nat) (fl : Flit) (s : State) (h0 : Kept q0 c0 s) : KeptOut q0 c0 (execReply p fl s) := by
  unfold execReply
  with_reducible repeat' first | assumption | apply kept_receive | apply kept_inOrder
theorem kept_execSnap (p : Nat) (fl : Flit) (s : State) (h0 : Kept q0 c0 s) : KeptOut q0 c0 (execSnap p fl s) := by
  unfold execSnap
  with_reducible repeat' first | assumption | apply kept_receive | apply kept_inOrder
theorem kept_execBarr (p : Nat) (fl : Flit) (s : State) (h0 : Kept q0 c0 s) : KeptOut q0 c0 (execBarr p fl s) := by
  unfold execBarr
  with_reducible repeat' first | assumption | apply kept_receive | apply kept_inOrder
theorem kept_execTrainingComplete (p lanes : Nat) (agree : Bool) (far : Nat) (s : State) (h0 : Kept q0 c0 s) : KeptOut q0 c0 (execTrainingComplete p lanes agree far s) := by
  unfold execTrainingComplete
  try dsimp only
  with_reducible repeat' first | assumption | apply kept_setPort | apply kept_tryJoin | apply kept_linkStarts | apply kept_trainingFails | apply keptOut_next | exact keptOut_fault | split
theorem kept_reroute (s : State) (h0 : Kept q0 c0 s) : Kept q0 c0 (reroute s) := by
  unfold reroute
  try dsimp only
  with_reducible repeat' first | assumption | apply keptAct_trap | apply kept_rerouteFrom | split | intro _ _ _ | intro _ _ | intro _
theorem kept_restartHalted (s : State) (h0 : Kept q0 c0 s) : Kept q0 c0 (restartHalted s) := by
  unfold restartHalted
  try dsimp only
  with_reducible repeat' first | assumption | apply keptAct_trap | apply kept_startRecovery | split | intro _ _ _ | intro _ _ | intro _
theorem kept_bindWindows (s : State) (ws : List Nat) (h0 : Kept q0 c0 s) : Kept q0 c0 (bindWindows s ws) := by
  unfold bindWindows
  try dsimp only
  with_reducible repeat' first | assumption | apply keptAct_trap | apply kept_setPkg | (simp only [kept_mk]; first | apply kept_parts | apply kept_parts_pkg) | apply keptAct_done | exact keptAct_trap | apply keptAct_trapIn | apply keptAct_wait | exact fun hp => pkgFrom_same hp rfl rfl rfl rfl rfl rfl | split | intro _ _ _ | intro _ _ | intro _
theorem kept_carveFirmware (s : State) (frames : List Nat) (h0 : Kept q0 c0 s) : Kept q0 c0 (carveFirmware s frames) := by
  unfold carveFirmware
  try dsimp only
  with_reducible repeat' first | assumption | apply keptAct_trap | apply kept_setOwn | apply kept_wipeFrame | apply kept_foldl | apply keptAct_done | exact keptAct_trap | apply keptAct_trapIn | apply keptAct_wait | split | intro _ _ _ | intro _ _ | intro _
theorem kept_execStateTableChange (item : TableItem) (s : State) (h0 : Kept q0 c0 s) : KeptOut q0 c0 (execStateTableChange item s) := by
  unfold execStateTableChange
  try dsimp only
  with_reducible repeat' first | assumption | apply keptAct_trap | apply kept_setPkg | apply kept_carveDie | apply kept_setLarderFrames | apply kept_reroute | apply kept_setHall | apply kept_setCtx | apply kept_wingClaim | apply kept_forgetCtx | apply kept_ws | apply kept_bindWindows | apply kept_carveFirmware | (simp only [kept_mk]; first | apply kept_parts | apply kept_parts_pkg) | apply keptOut_next | exact keptOut_fault | apply keptAct_done | exact keptAct_trap | apply keptAct_trapIn | apply keptAct_wait | exact fun hp => pkgFrom_same hp rfl rfl rfl rfl rfl rfl | split | intro _ _ _ | intro _ _ | intro _
theorem kept_exec (i : Instr) (s : State) (h : Kept q0 c0 s) : KeptOut q0 c0 (exec i s) :=
  match i with
  | .nop _ => kept_execNop _ _ h
  | .mov _ _ _ _ => kept_execMov _ _ _ _ _ h
  | .limm _ _ _ => kept_execLimm _ _ _ _ h
  | .limmh _ _ _ => kept_execLimmh _ _ _ _ h
  | .iadd _ _ _ _ _ => kept_execIadd _ _ _ _ _ _ h
  | .isub _ _ _ _ _ => kept_execIsub _ _ _ _ _ _ h
  | .iaddi _ _ _ _ => kept_execIaddi _ _ _ _ _ h
  | .iadd64 _ _ _ _ _ => kept_execIadd64 _ _ _ _ _ _ h
  | .imul _ _ _ _ _ => kept_execImul _ _ _ _ _ _ h
  | .imulhi _ _ _ _ _ => kept_execImulhi _ _ _ _ _ _ h
  | .imulhu _ _ _ _ _ => kept_execImulhu _ _ _ _ _ _ h
  | .imad _ _ _ _ _ => kept_execImad _ _ _ _ _ _ h
  | .imin _ _ _ _ _ => kept_execImin _ _ _ _ _ _ h
  | .imax _ _ _ _ _ => kept_execImax _ _ _ _ _ _ h
  | .iminu _ _ _ _ _ => kept_execIminu _ _ _ _ _ _ h
  | .imaxu _ _ _ _ _ => kept_execImaxu _ _ _ _ _ _ h
  | .iabs _ _ _ => kept_execIabs _ _ _ _ h
  | .ineg _ _ _ => kept_execIneg _ _ _ _ h
  | .and _ _ _ _ _ => kept_execAnd _ _ _ _ _ _ h
  | .or _ _ _ _ _ => kept_execOr _ _ _ _ _ _ h
  | .xor _ _ _ _ _ => kept_execXor _ _ _ _ _ _ h
  | .andn _ _ _ _ _ => kept_execAndn _ _ _ _ _ _ h
  | .not _ _ _ => kept_execNot _ _ _ _ h
  | .shl _ _ _ _ _ => kept_execShl _ _ _ _ _ _ h
  | .shr _ _ _ _ _ => kept_execShr _ _ _ _ _ _ h
  | .sar _ _ _ _ _ => kept_execSar _ _ _ _ _ _ h
  | .shli _ _ _ _ => kept_execShli _ _ _ _ _ h
  | .shri _ _ _ _ => kept_execShri _ _ _ _ _ h
  | .sari _ _ _ _ => kept_execSari _ _ _ _ _ h
  | .popc _ _ _ => kept_execPopc _ _ _ _ h
  | .clz _ _ _ => kept_execClz _ _ _ _ h
  | .brev _ _ _ => kept_execBrev _ _ _ _ h
  | .bfe _ _ _ _ _ => kept_execBfe _ _ _ _ _ _ h
  | .bfi _ _ _ _ _ => kept_execBfi _ _ _ _ _ _ h
  | .icmp _ _ _ _ _ _ => kept_execIcmp _ _ _ _ _ _ _ h
  | .sel _ _ _ _ _ => kept_execSel _ _ _ _ _ _ h
  | .plut _ _ _ _ _ => kept_execPlut _ _ _ _ _ _ h
  | .fadd _ _ _ _ _ => kept_execFadd _ _ _ _ _ _ h
  | .fsub _ _ _ _ _ => kept_execFsub _ _ _ _ _ _ h
  | .fmul _ _ _ _ _ => kept_execFmul _ _ _ _ _ _ h
  | .ffma _ _ _ _ _ => kept_execFfma _ _ _ _ _ _ h
  | .fmin _ _ _ _ _ => kept_execFmin _ _ _ _ _ _ h
  | .fmax _ _ _ _ _ => kept_execFmax _ _ _ _ _ _ h
  | .fabs _ _ _ => kept_execFabs _ _ _ _ h
  | .fneg _ _ _ => kept_execFneg _ _ _ _ h
  | .fcmp _ _ _ _ _ _ => kept_execFcmp _ _ _ _ _ _ _ h
  | .frcp _ _ _ => kept_execFrcp _ _ _ _ h
  | .frsq _ _ _ => kept_execFrsq _ _ _ _ h
  | .fsqrt _ _ _ => kept_execFsqrt _ _ _ _ h
  | .fexp2 _ _ _ => kept_execFexp2 _ _ _ _ h
  | .flog2 _ _ _ => kept_execFlog2 _ _ _ _ h
  | .fsint _ _ _ => kept_execFsint _ _ _ _ h
  | .fcost _ _ _ => kept_execFcost _ _ _ _ h
  | .frnd _ _ _ _ => kept_execFrnd _ _ _ _ _ h
  | .fclass _ _ _ => kept_execFclass _ _ _ _ h
  | .pbadd _ _ _ _ _ => kept_execPbadd _ _ _ _ _ _ h
  | .pbmul _ _ _ _ _ => kept_execPbmul _ _ _ _ _ _ h
  | .pbfma _ _ _ _ _ => kept_execPbfma _ _ _ _ _ _ h
  | .phadd _ _ _ _ _ => kept_execPhadd _ _ _ _ _ _ h
  | .phmul _ _ _ _ _ => kept_execPhmul _ _ _ _ _ _ h
  | .phfma _ _ _ _ _ => kept_execPhfma _ _ _ _ _ _ h
  | .cvt _ _ _ _ _ _ => kept_execCvt _ _ _ _ _ _ _ h
  | .bsplit _ _ _ => kept_execBsplit _ _ _ _ h
  | .pack2 _ _ _ _ _ => kept_execPack2 _ _ _ _ _ _ h
  | .unpk2 _ _ _ _ _ => kept_execUnpk2 _ _ _ _ _ _ h
  | .qnt _ _ _ _ _ => kept_execQnt _ _ _ _ _ _ h
  | .dqnt _ _ _ _ _ _ => kept_execDqnt _ _ _ _ _ _ _ h
  | .niget _ _ _ _ => kept_execNiget _ _ _ _ _ h
  | .niput _ _ _ _ => kept_execNiput _ _ _ _ _ h
  | .sacc _ _ _ _ _ => kept_execSacc _ _ _ _ _ _ h
  | .lds _ _ _ _ => kept_execLds _ _ _ _ _ h
  | .sts _ _ _ _ => kept_execSts _ _ _ _ _ h
  | .lds64 _ _ _ _ => kept_execLds64 _ _ _ _ _ h
  | .sts64 _ _ _ _ => kept_execSts64 _ _ _ _ _ h
  | .ldw _ _ _ _ => kept_execLdw _ _ _ _ _ h
  | .stw _ _ _ _ => kept_execStw _ _ _ _ _ h
  | .ldsp _ _ _ _ => kept_execLdsp _ _ _ _ _ h
  | .stsp _ _ _ _ => kept_execStsp _ _ _ _ _ h
  | .ldd _ _ _ _ => kept_execLdd _ _ _ _ _ h
  | .std _ _ _ _ => kept_execStd _ _ _ _ _ h
  | .ldc _ _ _ _ => kept_execLdc _ _ _ _ _ h
  | .atom _ _ _ _ _ => kept_execAtom _ _ _ _ _ _ h
  | .cas _ _ _ _ => kept_execCas _ _ _ _ _ h
  | .shfli _ _ _ _ _ => kept_execShfli _ _ _ _ _ _ h
  | .shfl _ _ _ _ _ => kept_execShfl _ _ _ _ _ _ h
  | .vote _ _ _ _ _ => kept_execVote _ _ _ _ _ _ h
  | .ballot _ _ _ _ _ => kept_execBallot _ _ _ _ _ _ h
  | .rdlane _ _ _ _ => kept_execRdlane _ _ _ _ _ h
  | .wrlane _ _ _ _ => kept_execWrlane _ _ _ _ _ h
  | .matchKeys _ _ _ _ _ => kept_execMatchKeys _ _ _ _ _ _ h
  | .gen _ _ _ _ => kept_execGen _ _ _ _ _ h
  | .gent _ _ _ _ => kept_execGent _ _ _ _ _ h
  | .svc _ _ _ => kept_execSvc _ _ _ _ h
  | .laneid _ _ => kept_execLaneid _ _ _ h
  | .brk _ _ => kept_execBrk _ _ _ h
  | .snop _ => kept_execSnop _ _ h
  | .smov _ _ _ => kept_execSmov _ _ _ _ h
  | .slimm _ _ _ => kept_execSlimm _ _ _ _ h
  | .slimmh _ _ _ => kept_execSlimmh _ _ _ _ h
  | .sadd _ _ _ _ => kept_execSadd _ _ _ _ _ h
  | .ssub _ _ _ _ => kept_execSsub _ _ _ _ _ h
  | .saddi _ _ _ _ => kept_execSaddi _ _ _ _ _ h
  | .sadd64 _ _ _ _ => kept_execSadd64 _ _ _ _ _ h
  | .smul _ _ _ _ => kept_execSmul _ _ _ _ _ h
  | .smulhi _ _ _ _ _ => kept_execSmulhi _ _ _ _ _ _ h
  | .sand _ _ _ _ => kept_execSand _ _ _ _ _ h
  | .sor _ _ _ _ => kept_execSor _ _ _ _ _ h
  | .sxor _ _ _ _ => kept_execSxor _ _ _ _ _ h
  | .sshl _ _ _ _ => kept_execSshl _ _ _ _ _ h
  | .sshr _ _ _ _ => kept_execSshr _ _ _ _ _ h
  | .ssar _ _ _ _ => kept_execSsar _ _ _ _ _ h
  | .sshli _ _ _ _ => kept_execSshli _ _ _ _ _ h
  | .sshri _ _ _ _ => kept_execSshri _ _ _ _ _ h
  | .smin _ _ _ _ _ => kept_execSmin _ _ _ _ _ _ h
  | .smax _ _ _ _ _ => kept_execSmax _ _ _ _ _ _ h
  | .spopc _ _ _ => kept_execSpopc _ _ _ _ h
  | .sclz _ _ _ => kept_execSclz _ _ _ _ h
  | .scmp _ _ _ _ _ => kept_execScmp _ _ _ _ _ _ h
  | .ssel _ _ _ _ _ => kept_execSsel _ _ _ _ _ _ h
  | .sfadd _ _ _ _ => kept_execSfadd _ _ _ _ _ h
  | .sfmul _ _ _ _ => kept_execSfmul _ _ _ _ _ h
  | .sffma _ _ _ _ => kept_execSffma _ _ _ _ _ h
  | .sldc _ _ _ _ => kept_execSldc _ _ _ _ _ h
  | .slds _ _ _ _ => kept_execSlds _ _ _ _ _ h
  | .ssts _ _ _ _ => kept_execSsts _ _ _ _ _ h
  | .srd _ _ _ _ => kept_execSrd _ _ _ _ _ h
  | .swr _ _ _ => kept_execSwr _ _ _ _ h
  | .bra _ _ _ _ => kept_execBra _ _ _ _ _ h
  | .br _ _ _ _ => kept_execBr _ _ _ _ _ h
  | .join _ => kept_execJoin _ _ h
  | .jmp _ _ => kept_execJmp _ _ _ h
  | .call _ _ => kept_execCall _ _ _ h
  | .ret _ => kept_execRet _ _ h
  | .brx _ _ => kept_execBrx _ _ _ h
  | .lhead _ _ _ => kept_execLhead _ _ _ _ h
  | .exit _ => kept_execExit _ _ h
  | .sleep _ _ => kept_execSleep _ _ _ h
  | .emrd _ _ => kept_execEmrd _ _ _ h
  | .emwr _ _ => kept_execEmwr _ _ _ h
  | .emandReg _ _ => kept_execEmandReg _ _ _ h
  | .emandPred _ _ _ => kept_execEmandPred _ _ _ _ h
  | .xlate _ _ _ _ _ _ => kept_execXlate _ _ _ _ _ _ _ h
  | .xrd _ _ _ => kept_execXrd _ _ _ _ h
  | .xinv _ _ => kept_execXinv _ _ _ h
  | .fence _ _ _ => kept_execFence _ _ _ _ h
  | .ackrd _ _ => kept_execAckrd _ _ _ h
  | .icinv _ _ _ => kept_execIcinv _ _ _ _ h
  | .region _ _ => kept_execRegion _ _ _ h
  | .regend _ => kept_execRegend _ _ h
  | .cpy _ _ _ _ _ => kept_execCpy _ _ _ _ _ _ h
  | .cpyg _ _ _ _ _ => kept_execCpyg _ _ _ _ _ _ h
  | .cpyr _ _ _ _ _ => kept_execCpyr _ _ _ _ _ _ h
  | .cpya _ _ _ _ _ => kept_execCpya _ _ _ _ _ _ h
  | .cbatch _ _ => kept_execCbatch _ _ _ h
  | .waitb _ _ => kept_execWaitb _ _ _ h
  | .testc _ _ _ _ => kept_execTestc _ _ _ _ _ h
  | .waitc _ _ _ => kept_execWaitc _ _ _ _ h
  | .mma _ _ _ _ _ => kept_execMma _ _ _ _ _ _ h
  | .mmai _ _ _ _ _ => kept_execMmai _ _ _ _ _ _ h
  | .ldst _ _ _ _ _ => kept_execLdst _ _ _ _ _ _ h
  | .accz _ _ _ _ _ => kept_execAccz _ _ _ _ _ _ h
  | .accrd _ _ _ _ _ => kept_execAccrd _ _ _ _ _ _ h
  | .accwr _ _ _ _ _ => kept_execAccwr _ _ _ _ _ _ h
  | .sacct _ _ _ _ _ => kept_execSacct _ _ _ _ _ _ h
  | .opfence _ => kept_execOpfence _ _ h
  | .waitm _ _ => kept_execWaitm _ _ _ h
  | .mseq _ _ _ => kept_execMseq _ _ _ _ h
  | .tailp _ _ _ => kept_execTailp _ _ _ _ h
  | .gset _ _ _ => kept_execGset _ _ _ _ h
  | .grd _ _ _ => kept_execGrd _ _ _ _ h
  | .gstep _ => kept_execGstep _ _ h
  | .kset _ _ _ _ => kept_execKset _ _ _ _ _ h
  | .krd _ _ => kept_execKrd _ _ _ h
  | .kclr _ _ => kept_execKclr _ _ _ h
  | .bar _ _ => kept_execBar _ _ _ h
  | .barc _ => kept_execBarc _ _ h
  | .barm _ _ _ => kept_execBarm _ _ _ _ h
  | .arrive _ _ => kept_execArrive _ _ _ h
  | .await _ _ => kept_execAwait _ _ _ h
  | .barg _ => kept_execBarg _ _ h
  | .barinit _ _ _ => kept_execBarinit _ _ _ _ h
  | .barrd _ _ _ _ => kept_execBarrd _ _ _ _ _ h
  | .qpush _ _ _ => kept_execQpush _ _ _ _ h
  | .launch _ _ => kept_execLaunch _ _ _ h
  | .shape _ _ => kept_execShape _ _ _ h
  | .arm _ _ _ _ _ => kept_execArm _ _ _ _ _ _ h
  | .hring _ _ _ _ _ => kept_execHring _ _ _ _ _ _ h
  | .hpost _ _ => kept_execHpost _ _ _ h
  | .mapft _ _ _ => kept_execMapft _ _ _ _ h
  | .fqpost _ _ => kept_execFqpost _ _ _ h
  | .tlbinv _ _ => kept_execTlbinv _ _ _ h
  | .trap _ _ => kept_execTrap _ _ _ h
  | .rft _ _ => kept_execRft _ _ _ h
  | .srdp _ _ _ => kept_execSrdp _ _ _ _ h
  | .swrp _ _ _ => kept_execSwrp _ _ _ _ h
  | .sleepw _ _ _ _ => kept_execSleepw _ _ _ _ _ h
  | .fqtake _ _ _ => kept_execFqtake _ _ _ _ h
  | .svctake _ _ _ => kept_execSvctake _ _ _ _ h
  | .svcdone _ _ _ => kept_execSvcdone _ _ _ _ h
  | .groupWaitEnds _ => kept_execGroupWaitEnds _ _ h
  | .storePerformed _ _ => kept_execStorePerformed _ _ _ h
  | .notify _ _ _ => kept_execNotify _ _ _ _ h
  | .launchCmd _ => kept_execLaunchCmd _ _ h
  | .copy _ => kept_execCopy _ _ h
  | .wait _ => kept_execWait _ _ h
  | .waitReevaluate _ => kept_execWaitReevaluate _ _ h
  | .signal _ => kept_execSignal _ _ h
  | .graph _ => kept_execGraph _ _ h
  | .graphRunStart _ _ => kept_execGraphRunStart _ _ _ h
  | .cond _ => kept_execCond _ _ h
  | .commandComplete _ => kept_execCommandComplete _ _ h
  | .queueOff _ _ => kept_execQueueOff _ _ _ h
  | .completionRecord _ _ => kept_execCompletionRecord _ _ _ h
  | .serviceSliceBoundary _ => kept_execServiceSliceBoundary _ _ h
  | .create _ _ _ _ _ => kept_execCreate _ _ _ _ _ _ h
  | .setattr _ _ _ _ _ => kept_execSetattr _ _ _ _ _ _ h
  | .map _ _ _ _ _ => kept_execMap _ _ _ _ _ _ h
  | .unmap _ _ _ _ _ => kept_execUnmap _ _ _ _ _ _ h
  | .sealCtx _ _ _ _ _ => kept_execSealCtx _ _ _ _ _ _ h
  | .suspend _ _ _ _ _ => kept_execSuspend _ _ _ _ _ _ h
  | .resume _ _ _ _ _ => kept_execResume _ _ _ _ _ _ h
  | .ckpt _ _ _ _ _ => kept_execCkpt _ _ _ _ _ _ h
  | .restore _ _ _ _ _ => kept_execRestore _ _ _ _ _ _ h
  | .destroy _ _ _ _ _ => kept_execDestroy _ _ _ _ _ _ h
  | .wipeComplete _ => kept_execWipeComplete _ _ h
  | .claim _ _ _ _ _ => kept_execClaim _ _ _ _ _ _ h
  | .unclaim _ _ _ _ _ => kept_execUnclaim _ _ _ _ _ _ h
  | .update _ _ _ _ _ => kept_execUpdate _ _ _ _ _ _ h
  | .updateQuiesceTimeout => kept_execUpdateQuiesceTimeout _ h
  | .flip _ _ => kept_execFlip _ _ _ h
  | .biasFlipComplete _ => kept_execBiasFlipComplete _ _ h
  | .errconsWrite _ _ => kept_execErrconsWrite _ _ _ h
  | .registerWrite _ _ _ => kept_execRegisterWrite _ _ _ _ h
  | .attestationRequest _ _ _ => kept_execAttestationRequest _ _ _ _ h
  | .hostWrite _ _ _ => kept_execHostWrite _ _ _ _ h
  | .hostRead _ _ => kept_execHostRead _ _ _ h
  | .atsInvalidation _ _ _ => kept_execAtsInvalidation _ _ _ _ h
  | .atsInvalidationTimeout _ => kept_execAtsInvalidationTimeout _ _ h
  | .gangPlace _ _ => kept_execGangPlace _ _ _ h
  | .gangRelease _ => kept_execGangRelease _ _ h
  | .blockRetire _ => kept_execBlockRetire _ _ h
  | .preempt _ _ => kept_execPreempt _ _ _ h
  | .gangResume _ => kept_execGangResume _ _ h
  | .holdDrain _ => kept_execHoldDrain _ _ h
  | .copyCommandStart _ => kept_execCopyCommandStart _ _ h
  | .copyChunkDone _ _ _ => kept_execCopyChunkDone _ _ _ _ h
  | .copyCommandComplete _ _ => kept_execCopyCommandComplete _ _ _ h
  | .orderedReductionApply _ => kept_execOrderedReductionApply _ _ h
  | .matrixCommandStart _ => kept_execMatrixCommandStart _ _ h
  | .matrixCommandComplete _ _ => kept_execMatrixCommandComplete _ _ _ h
  | .softError _ _ _ => kept_execSoftError _ _ _ _ h
  | .correctedErrorThreshold _ => kept_execCorrectedErrorThreshold _ _ h
  | .portEnable _ => kept_execPortEnable _ _ h
  | .trainingComplete _ _ _ _ => kept_execTrainingComplete _ _ _ _ _ h
  | .trainingTimeout _ => kept_execTrainingTimeout _ _ h
  | .retrainTimer _ => kept_execRetrainTimer _ _ h
  | .laneFailure _ => kept_execLaneFailure _ _ h
  | .lossOfLock _ => kept_execLossOfLock _ _ h
  | .portRetire _ => kept_execPortRetire _ _ h
  | .idle _ _ => kept_execIdle _ _ _ h
  | .pause _ _ => kept_execPause _ _ _ h
  | .retry _ _ => kept_execRetry _ _ _ h
  | .snap _ _ => kept_execSnap _ _ _ h
  | .barr _ _ => kept_execBarr _ _ _ h
  | .whead _ _ => kept_execWhead _ _ _ h
  | .wacc _ _ => kept_execWacc _ _ _ h
  | .data _ _ => kept_execData _ _ _ h
  | .rreq _ _ => kept_execRreq _ _ _ h
  | .rhead _ _ => kept_execRhead _ _ _ h
  | .atomFlit _ _ => kept_execAtomFlit _ _ _ h
  | .atomr _ _ => kept_execAtomr _ _ _ h
  | .ack _ _ => kept_execAck _ _ _ h
  | .radd _ _ => kept_execRadd _ _ _ h
  | .operationTimeout _ _ => kept_execOperationTimeout _ _ _ h
  | .hallEvent _ _ => kept_execHallEvent _ _ _ h
  | .hallAck _ _ => kept_execHallAck _ _ _ h
  | .token _ _ => kept_execToken _ _ _ h
  | .stable _ _ => kept_execStable _ _ _ h
  | .recover _ _ => kept_execRecover _ _ _ h
  | .reply _ _ => kept_execReply _ _ _ h
  | .ackWaitTimeout => kept_execAckWaitTimeout _ h
  | .tokenTimeout => kept_execTokenTimeout _ h
  | .recoveryCollect => kept_execRecoveryCollect _ h
  | .suspect _ => kept_execSuspect _ _ h
  | .wingFailover => kept_execWingFailover _ h
  | .firstHeartbeat _ => kept_execFirstHeartbeat _ _ h
  | .provisioningToken _ => kept_execProvisioningToken _ _ h
  | .deploymentToken _ => kept_execDeploymentToken _ _ h
  | .rmaToken _ => kept_execRmaToken _ _ h
  | .repairToken _ => kept_execRepairToken _ _ h
  | .decommissionToken _ => kept_execDecommissionToken _ _ h
  | .packageReset => kept_execPackageReset _ h
  | .budgetPeriod _ => kept_execBudgetPeriod _ _ h
  | .stateTableChange _ => kept_execStateTableChange _ _ h
  | .flitFailsCrc _ => kept_execFlitFailsCrc _ _ h
  | .logicalDeviceBind _ _ _ _ => kept_execLogicalDeviceBind _ _ _ _ _ h
  | .powerLoss => kept_execPowerLoss _ h
theorem kept_runFlit (fl : Flit) (s : State) (h0 : Kept q0 c0 s) : KeptOut q0 c0 (runFlit fl s) := by
  unfold runFlit
  with_reducible repeat' first | assumption | apply kept_execHallEvent | apply kept_execHallAck | apply kept_execToken | apply kept_execStable | apply kept_execRecover | apply kept_execReply | apply kept_execSnap | apply kept_execBarr | apply kept_execWhead | apply kept_execWacc | apply kept_execData | apply kept_execRreq | apply kept_execRhead | apply kept_execAtomFlit | apply kept_execAtomr | apply kept_execAck | apply kept_execRadd | apply keptOut_next | split
theorem kept_runStart (kind : Nat) (c : CmdRef) (s : State) (h0 : Kept q0 c0 s) : KeptOut q0 c0 (runStart kind c s) := by
  unfold runStart
  with_reducible repeat' first | assumption | apply kept_execCopy | apply kept_execWait | apply kept_execSignal | apply kept_execGraph | apply kept_execCond | apply kept_execLaunchCmd | split
theorem kept_runDue (d : Due) (s : State) (h0 : Kept q0 c0 s) : KeptOut q0 c0 (runDue d s) := by
  unfold runDue
  with_reducible repeat' first | assumption | apply kept_execStorePerformed | apply kept_execGroupWaitEnds | apply kept_execGangPlace | apply kept_execGangRelease | apply kept_execGangResume | apply kept_execBlockRetire | apply kept_execHoldDrain | apply kept_execCopyCommandStart | apply kept_execCopyChunkDone | apply kept_execCopyCommandComplete | apply kept_execMatrixCommandStart | apply kept_execMatrixCommandComplete | apply kept_execOrderedReductionApply | apply kept_runStart | apply kept_execWaitReevaluate | apply kept_execCommandComplete | apply kept_execQueueOff | apply kept_execGraphRunStart | apply kept_execCompletionRecord | apply kept_execSuspend | apply kept_execWipeComplete | apply kept_execCorrectedErrorThreshold | apply kept_runFlit | apply kept_execToken | apply kept_execBiasFlipComplete | apply kept_execAtsInvalidationTimeout | apply kept_execUpdate | apply kept_exec | apply kept_execServiceSliceBoundary | apply kept_execBudgetPeriod | split
theorem kept_settleItems (s : State) (h0 : Kept q0 c0 s) : Kept q0 c0 (settleItems s) := by
  unfold settleItems
  try dsimp only
  with_reducible repeat' first | assumption | apply kept_setDiverged | apply kept_foldl | split | intro _ _ _
theorem kept_settle (s : State) (h0 : Kept q0 c0 s) : Kept q0 c0 (settle s) := by
  unfold settle
  try dsimp only
  with_reducible repeat' first | assumption | apply keptAct_trap | apply kept_restartHalted | apply kept_metWaits | apply kept_settleItems | split | intro _ _ _ | intro _ _ | intro _
theorem kept_afterStep (o : Host.Outcome State Fault Refusal) (h : KeptOut q0 c0 o) : KeptOut q0 c0 (afterStep o) := by
  unfold afterStep
  cases o
  · exact kept_settle _ h
  · trivial
  · trivial

end Sys2Proof.Machine
end

