-- ==== Sys2Proof/Laws/Registers.lean ====
section
/-!
SUPPORT. Laws/Registers.lean: the words that write lane, uniform and predicate registers, one lemma for each shape.
-/
namespace Sys2Proof.Machine
set_option Elab.async false

/-- The threads' values of a lane register after a write in the threads of a mask. -/
def laneNew (s : State) (r : Nat) (m : Mask) (f : Nat → Word) : List Word :=
  (List.range (cg s).width).map fun t => if bitOf m t then f t else laneReg s r t
theorem laneNew_get (s : State) (r : Nat) (m : Mask) (f : Nat → Word) {t : Nat} (h : t < (cg s).width) :
    (laneNew s r m f).getD t 0 = if bitOf m t then f t else laneReg s r t := by
  simp [laneNew, List.getD_eq_getElem?_getD, h]
theorem entered_fields (i : Info) (s : State) :
    (cg (entered i s)).v = (cg s).v ∧ (cg (entered i s)).s = (cg s).s ∧ (cg (entered i s)).p = (cg s).p ∧
      (cg (entered i s)).x = (cg s).x ∧ (cg (entered i s)).g = (cg s).g := by simp [cg_entered]
/-- Rewrites of one kind of register after entry, as regsDone. -/
theorem regsDone_v (i : Info) (s : State) (v : Map (List Word)) :
    settled i s (setCg (entered i s) { cg (entered i s) with v := v }) = regsDone i s v (cg s).s (cg s).p (cg s).x (cg s).g := by
  obtain ⟨-, e2, e3, e4, e5⟩ := entered_fields i s
  rw [regsDone, ← e2, ← e3, ← e4, ← e5]
theorem regsDone_u (i : Info) (s : State) (u : Map Word) :
    settled i s (setCg (entered i s) { cg (entered i s) with s := u }) = regsDone i s (cg s).v u (cg s).p (cg s).x (cg s).g := by
  obtain ⟨e1, -, e3, e4, e5⟩ := entered_fields i s
  rw [regsDone, ← e1, ← e3, ← e4, ← e5]
theorem regsDone_p (i : Info) (s : State) (p : Map Mask) :
    settled i s (setCg (entered i s) { cg (entered i s) with p := p }) = regsDone i s (cg s).v (cg s).s p (cg s).x (cg s).g := by
  obtain ⟨e1, e2, -, e4, e5⟩ := entered_fields i s
  rw [regsDone, ← e1, ← e2, ← e4, ← e5]
theorem wv_entered (i : Info) (s : State) (r : Nat) (m : Mask) (f : Nat → Word) :
    wv (entered i s) r m f = setCg (entered i s) { cg (entered i s) with v := Map.put (cg s).v r (laneNew s r m f) } := by
  have h : Map.put (cg (entered i s)).v r ((List.range (cg (entered i s)).width).map fun t =>
      if bitOf m t then f t else (Map.look (cg (entered i s)).v r []).getD t 0) = Map.put (cg s).v r (laneNew s r m f) := by
    rw [(entered_fields i s).1, width_entered]; rfl
  exact congrArg (fun v => setCg (entered i s) { cg (entered i s) with v := v }) h
theorem not_in_one {r d : Nat} (h : r ∉ [d]) : r ≠ d := fun e => h (by simp [e])

theorem lane_result {ins : Instr} {s : State} {d : Nat} {f : Nat → Word} {act : State → Act}
    (he : exec ins s = issue (info ins) s act)
    (ha : act (entered (info ins) s) = .done (wv (entered (info ins) s) d (emask s) f)) : LaneResult ins s d f := by
  intro h
  refine ⟨_, he.trans (issue_done h ha), ?_, ?_⟩
  · intro th hth
    rw [wv_entered, regsDone_v, laneReg, (regsDone_regs h _ _ _ _ _).1, look_put_same, laneNew_get _ _ _ _ hth]
  · rw [wv_entered, regsDone_v]
    exact regsDone_only h _ _ _ _ _ (fun r hr => look_put_other _ _ _ (not_in_one hr)) (fun _ _ => rfl) (fun _ _ _ => rfl)
      (fun _ _ => rfl) (fun _ _ => rfl)
theorem not_in_two {r d e : Nat} (h : r ∉ [d, e]) : r ≠ d ∧ r ≠ e :=
  ⟨fun x => h (by simp [x]), fun x => h (by simp [x])⟩
theorem lane_pair_result {ins : Instr} {s : State} {d : Nat} {f : Nat → BitVec 64} {lo hi : Nat → Word} {act : State → Act}
    (he : exec ins s = issue (info ins) s act)
    (ha : act (entered (info ins) s) = .done (wv (wv (entered (info ins) s) d (emask s) lo) (d + 1) (emask s) hi))
    (hf : ∀ t, f t = hi t ++ lo t) : LanePairResult ins s d f := by
  intro h
  refine ⟨_, he.trans (issue_done h ha), ?_⟩
  have hw : wv (wv (entered (info ins) s) d (emask s) lo) (d + 1) (emask s) hi = setCg (entered (info ins) s)
      { cg (entered (info ins) s) with
        v := Map.put (Map.put (cg s).v d (laneNew s d (emask s) lo)) (d + 1) (laneNew s (d + 1) (emask s) hi) } := by
    rw [wv_entered, wv]
    have hl : Map.look (Map.put (cg s).v d (laneNew s d (emask s) lo)) (d + 1) [] = Map.look (cg s).v (d + 1) [] :=
      look_put_other _ _ _ (Nat.succ_ne_self d)
    simp only [cg_setCg, setCg_setCg, hl]
    rw [width_entered]; rfl
  rw [hw, regsDone_v]
  have hv := (regsDone_regs h (Map.put (Map.put (cg s).v d (laneNew s d (emask s) lo)) (d + 1) (laneNew s (d + 1) (emask s) hi))
    (cg s).s (cg s).p (cg s).x (cg s).g).1
  refine ⟨fun th hth => ?_, ?_⟩
  · rw [lanePair, laneReg, laneReg, hv, look_put_same, look_put_other _ _ _ (Ne.symm (Nat.succ_ne_self d)), look_put_same,
      laneNew_get _ _ _ _ hth, laneNew_get _ _ _ _ hth, lanePair, hf]
    split <;> rfl
  · exact regsDone_only h _ _ _ _ _
      (fun r hr => by rw [look_put_other _ _ _ (not_in_two hr).2, look_put_other _ _ _ (not_in_two hr).1]) (fun _ _ => rfl)
      (fun _ _ _ => rfl) (fun _ _ => rfl) (fun _ _ => rfl)
theorem ws_entered (i : Info) (s : State) (n : Nat) (w : Word) :
    ws (entered i s) n w = setCg (entered i s) { cg (entered i s) with s := Map.put (cg s).s n w } := by
  rw [ws, (entered_fields i s).2.1]
theorem uni_result {ins : Instr} {s : State} {d : Nat} {w : Word} {act : State → Act}
    (he : exec ins s = issue (info ins) s act)
    (ha : act (entered (info ins) s) = .done (ws (entered (info ins) s) d w)) : UniResult ins s d w := by
  intro h
  refine ⟨_, he.trans (issue_done h ha), ?_, ?_⟩
  · rw [ws_entered, regsDone_u, uniReg, (regsDone_regs h _ _ _ _ _).2.1, look_put_same]
  · rw [ws_entered, regsDone_u]
    exact regsDone_only h _ _ _ _ _ (fun _ _ => rfl) (fun r hr => look_put_other _ _ _ (not_in_one hr)) (fun _ _ _ => rfl)
      (fun _ _ => rfl) (fun _ _ => rfl)
/-- A word that changes no register. -/
theorem none_result {ins : Instr} {s : State} {act : State → Act} (he : exec ins s = issue (info ins) s act)
    (ha : act (entered (info ins) s) = .done (entered (info ins) s)) (h : MayIssue (info ins) s) :
    ∃ t, exec ins s = .next t ∧ OnlyRegs (info ins) s t [] [] [] [] [] := by
  refine ⟨_, he.trans (issue_done h ha), ?_⟩
  have e : settled (info ins) s (entered (info ins) s) =
      settled (info ins) s (setCg (entered (info ins) s) { cg (entered (info ins) s) with v := (cg s).v }) := by
    rw [← (entered_fields (info ins) s).1, entered_eq]
    have : ∀ g : Group, { g with v := g.v } = g := fun _ => rfl
    rw [cg_setCg, setCg_setCg]
  rw [e, regsDone_v]
  exact regsDone_only h _ _ _ _ _ (fun _ _ => rfl) (fun _ _ => rfl) (fun _ _ _ => rfl) (fun _ _ => rfl) (fun _ _ => rfl)
theorem uni_pair_result {ins : Instr} {s : State} {d : Nat} {w : BitVec 64} {lo hi : Word} {act : State → Act}
    (he : exec ins s = issue (info ins) s act)
    (ha : act (entered (info ins) s) = .done (ws (ws (entered (info ins) s) d lo) (d + 1) hi)) (hf : w = hi ++ lo) :
    UniPairResult ins s d w := by
  intro h
  refine ⟨_, he.trans (issue_done h ha), ?_⟩
  have hw : ws (ws (entered (info ins) s) d lo) (d + 1) hi = setCg (entered (info ins) s)
      { cg (entered (info ins) s) with s := Map.put (Map.put (cg s).s d lo) (d + 1) hi } := by
    rw [ws_entered, ws]; simp only [cg_setCg, setCg_setCg]
  rw [hw, regsDone_u]
  have hv := (regsDone_regs h (cg s).v (Map.put (Map.put (cg s).s d lo) (d + 1) hi) (cg s).p (cg s).x (cg s).g).2.1
  refine ⟨?_, ?_⟩
  · rw [uniPair, uniReg, uniReg, hv, look_put_same, look_put_other _ _ _ (Ne.symm (Nat.succ_ne_self d)), look_put_same, hf]
  · exact regsDone_only h _ _ _ _ _ (fun _ _ => rfl)
      (fun r hr => by rw [look_put_other _ _ _ (not_in_two hr).2, look_put_other _ _ _ (not_in_two hr).1])
      (fun _ _ _ => rfl) (fun _ _ => rfl) (fun _ _ => rfl)

/-! ### Masks and predicates -/

theorem bitOf_foldl (l : List Nat) (m : Mask) (t : Nat) :
    bitOf (l.foldl (fun m t => m ||| BitVec.ofNat 128 (2 ^ t)) m) t = (bitOf m t || (decide (t < 128) && l.contains t)) := by
  induction l generalizing m with
  | nil => simp
  | cons a l ih =>
    rw [List.foldl_cons, ih]
    simp only [bitOf, BitVec.getLsbD_or, BitVec.getLsbD_ofNat, Nat.testBit_two_pow, List.contains_cons]
    by_cases h : a = t
    · subst h; cases BitVec.getLsbD m a <;> cases decide (a < 128) <;> simp
    · have h1 : decide (a = t) = false := by simp [h]
      have h2 : (t == a) = false := by simp [Ne.symm h]
      rw [h1, h2]; simp
theorem bitOf_maskOf (l : List Nat) (t : Nat) : bitOf (maskOf l) t = (decide (t < 128) && l.contains t) := by
  rw [maskOf, bitOf_foldl]; simp [bitOf]
theorem bitOf_lt {m : Mask} {t : Nat} (h : bitOf m t = true) : t < 128 := by
  rcases Nat.lt_or_ge t 128 with hn | hn
  · exact hn
  · simp [bitOf, BitVec.getLsbD_of_ge m t hn] at h
/-- The threads of the group a test holds in. -/
theorem bitOf_threads (w t : Nat) (f : Nat → Bool) :
    bitOf (maskOf ((List.range w).filter f)) t = (decide (t < 128) && decide (t < w) && f t) := by
  rw [bitOf_maskOf]
  by_cases h1 : t < w <;> by_cases h2 : f t = true <;> simp [h1, h2]
theorem bitOf_full {w t : Nat} (h : t < w) (h2 : t < 128) : bitOf (fullMask w) t = true := by
  simp [bitOf, fullMask, BitVec.getLsbD_ofNat, h2, Nat.testBit_two_pow_sub_one, h]
theorem bitOf_and (m n : Mask) (t : Nat) : bitOf (m &&& n) t = (bitOf m t && bitOf n t) := by simp [bitOf]
/-- An active thread is a thread of the group. -/
theorem active_lt {s : State} {t : Nat} (h : bitOf (emask s) t = true) : t < (cg s).width ∧ t < 128 := by
  have h2 := bitOf_lt h
  rw [emask, bitOf_and, Bool.and_eq_true] at h
  have h3 := h.2
  simp only [bitOf, fullMask, BitVec.getLsbD_ofNat, Nat.testBit_two_pow_sub_one, Bool.and_eq_true, decide_eq_true_eq] at h3
  exact ⟨h3.2, h2⟩
theorem wp_entered (i : Info) (s : State) (n : Nat) (m v : Mask) (hn : n ≠ 0) :
    wp (entered i s) n m v = setCg (entered i s)
      { cg (entered i s) with p := Map.put (cg s).p n ((Map.look (cg s).p n 0 &&& ~~~m) ||| (v &&& m)) } := by
  have h : Map.put (cg (entered i s)).p n ((Map.look (cg (entered i s)).p n 0 &&& ~~~m) ||| (v &&& m)) =
      Map.put (cg s).p n ((Map.look (cg s).p n 0 &&& ~~~m) ||| (v &&& m)) := by rw [(entered_fields i s).2.2.1]
  rw [wp, if_neg hn]
  exact congrArg (fun p => setCg (entered i s) { cg (entered i s) with p := p }) h
theorem pred_result {ins : Instr} {s : State} {p : Nat} {val : Mask} {f : Nat → Bool} {act : State → Act}
    (he : exec ins s = issue (info ins) s act)
    (ha : act (entered (info ins) s) = .done (wp (entered (info ins) s) p (emask s) val))
    (hf : ∀ t, t < (cg s).width → t < 128 → bitOf val t = f t) : PredResult ins s p f := by
  intro h
  by_cases hn : p = 0
  · subst hn
    have ha' : act (entered (info ins) s) = .done (entered (info ins) s) := by rw [ha, wp, if_pos rfl]
    obtain ⟨t, h1, h2⟩ := none_result he ha' h
    refine ⟨t, h1, fun th _ => by simp [predReg], ?_⟩
    exact { h2 with predicate := fun n _ => h2.predicate n (by simp) }
  · refine ⟨_, he.trans (issue_done h ha), ?_, ?_⟩
    · intro th hth
      rw [wp_entered _ _ _ _ _ hn, regsDone_p, predReg, (regsDone_regs h _ _ _ _ _).2.2.1, look_put_same, predReg]
      simp only [hn, if_false, Bool.false_or, (by simp [hn] : (p == 0) = false)]
      by_cases hb : bitOf (emask s) th = true
      · rw [if_pos hb, ← hf th hth (bitOf_lt hb)]
        simp only [bitOf] at hb ⊢
        simp [hb]
      · rw [if_neg hb]
        have hb' : (emask s).getLsbD th = false := by simpa [bitOf] using hb
        by_cases h128 : th < 128
        · simp only [bitOf, BitVec.getLsbD_or, BitVec.getLsbD_and, BitVec.getLsbD_not, hb', h128]; simp
        · simp [bitOf, BitVec.getLsbD_of_ge _ th (Nat.le_of_not_lt h128)]
    · rw [wp_entered _ _ _ _ _ hn, regsDone_p]
      exact regsDone_only h _ _ _ _ _ (fun _ _ => rfl) (fun _ _ => rfl) (fun r hr _ => look_put_other _ _ _ (not_in_one hr))
        (fun _ _ => rfl) (fun _ _ => rfl)
/-- A predicate as a word reads it. -/
theorem rp_entered (i : Info) (s : State) (n : Nat) {t : Nat} (h : t < (cg s).width) (h2 : t < 128) :
    bitOf (rp (entered i s) n) t = predReg s n t := by
  unfold rp
  split
  · rename_i h0; subst h0; simp [predReg, bitOf_full h2 h2]
  · rename_i h0
    simp only [early_entered, Bool.false_eq_true, if_false, width_entered, (entered_fields i s).2.2.1]
    rw [bitOf_threads]; simp [h, h2, predReg, h0]

end Sys2Proof.Machine
end

