-- ==== Sys2Proof/Laws/Paths.lean ====
section
/-!
SUPPORT. Laws/Paths.lean: the words that only move their own path, and what capturing a loop changes.
-/
namespace Sys2Proof.Machine
set_option Elab.async false

theorem loopless_setLoop (c : Core) (half : Nat) (l : Option LoopBuf) : loopless (setLoop c half l) = loopless c := by
  unfold setLoop; split <;> rfl
/-- Capturing a loop changes no more than the loop buffers of one core. -/
theorem captureLoop_cases (s : State) (a : Addr) :
    captureLoop s a = s ∨ ∃ c half l, captureLoop s a = setCore s c (setLoop (coreOf s c) half l) := by
  simp only [captureLoop]
  split
  · split
    · exact .inr ⟨_, _, _, rfl⟩
    · exact .inl rfl
  · exact .inl rfl
theorem captureLoop_frame (s : State) (a : Addr) :
    { captureLoop s a with cores := s.cores } = s ∧ ∀ c, loopless (coreOf (captureLoop s a) c) = loopless (coreOf s c) := by
  rcases captureLoop_cases s a with h | ⟨c, half, l, h⟩ <;> rw [h]
  · exact ⟨rfl, fun _ => rfl⟩
  · refine ⟨rfl, fun c' => ?_⟩
    by_cases hc : c' = c
    · rw [hc, coreOf_setCore, loopless_setLoop]
    · rw [coreOf_setCore_other _ _ hc]
theorem byteSeen_congr2 {s t : State} (hm : { t with groups := s.groups, fresh := s.fresh, cores := s.cores } = s)
    (hg : ∀ g, (grpOf t g).spill = (grpOf s g).spill) (hs : (cg t).stores = (cg s).stores) (n : MemName) (a : Nat) :
    byteSeen t n a = byteSeen s n a := by
  have h := byteSeen_congr (s := s) (t := { t with cores := s.cores }) hm hg hs n a
  exact h
theorem restored_repathed (g y : Group) (h : repathed g y = g) : restored g y = g := by
  rw [← h]; rfl
/-- Completion after an own effect e that leaves the machine but cores, and moves the path to p. -/
theorem path_only {i : Info} {s e : State} {p : Path} (h : MayIssue i s)
    (hm : { e with groups := (entered i s).groups, cores := (entered i s).cores } = entered i s)
    (hc : ∀ c, loopless (coreOf e c) = loopless (coreOf s c))
    (hg : ∀ g, g ≠ s.cur → grpOf e g = grpOf s g) (hp : cg e = setPath (cg (entered i s)) p) :
    OnlyPath s (settled i s e) { p with wait := none } := by
  have ecur : e.cur = s.cur := by have := congrArg State.cur hm; simpa using this
  have hset := settled_eq h e
  have hcg : cg (settled i s e) = woken (waitOver (noted i s (cg e))) := by rw [hset, cg_setFresh, cg_setCg]
  have hpath := settled_path i s (cg e)
  have hrest := settled_resting i s (cg e)
  have hr := settled_rest i s (cg e)
  have hq := setPath_rest (cg (entered i s)) p
  have hq0 := setPath_rest { cg s with early := [] } { cp s with pc := (cp s).pc + 4, stall := i.stall }
  rw [← cg_entered] at hq0
  have hrep : repathed (cg s) (cg (settled i s e)) = cg s := by
    rw [← hcg] at hr
    have h1 := congrArg (repathed (cg s)) hr
    have h2 := congrArg (repathed (cg s)) hq.1
    have h3 := congrArg (repathed (cg s)) hq0.1
    have h4 : repathed (cg s) (cg (settled i s e)) = repathed (cg s) (cg e) := h1
    rw [h4, hp]
    exact h2.trans h3
  have hm2 : { settled i s e with groups := s.groups, fresh := s.fresh, cores := s.cores } = s := by
    rw [hset]
    have h1 := congrArg (fun z : State => { z with groups := s.groups, fresh := s.fresh, cores := s.cores }) hm
    refine Eq.trans ?_ (h1.trans ?_)
    · rfl
    · rw [entered_eq]; rfl
  have hcores : ∀ c, coreOf (settled i s e) c = coreOf e c := fun c => by rw [hset]; rfl
  have hgr : ∀ g, g ≠ s.cur → grpOf (settled i s e) g = grpOf s g := fun g' hg' => by
    rw [hset, grpOf_setFresh, grpOf_setCg_other _ _ (by rw [ecur]; exact hg')]; exact hg g' hg'
  have hcur : (settled i s e).cur = s.cur := by rw [hset]; exact ecur
  refine ⟨hm2, fun c => by rw [hcores c]; exact hc c, hgr, hrep, ?_, ?_, ?_⟩
  · rw [cp, hcg, hpath, hp, pathOf_setPath]
  · rw [hcg, hrest, hp, hq.2, cg_entered, (setPath_rest _ _).2]; rfl
  · intro n a
    have h1 := congrArg Group.stores hrep
    have h2 := congrArg Group.spill hrep
    have h1' : (cg (settled i s e)).stores = (cg s).stores := h1
    have h2' : (cg (settled i s e)).spill = (cg s).spill := h2
    refine byteSeen_congr2 hm2 (fun g' => ?_) h1' n a
    by_cases hg' : g' = s.cur
    · rw [hg']; rw [cg, hcur] at h2'; exact h2'
    · rw [hgr g' hg']
/-- A word whose own effect sets its path to p, whatever loop it captures. -/
theorem path_result {ins : Instr} {s : State} {p : Path} {act : State → Act} (he : exec ins s = issue (info ins) s act)
    (e : State) (ha : MayIssue (info ins) s → act (entered (info ins) s) = .done e)
    (hm : { e with groups := (entered (info ins) s).groups, cores := (entered (info ins) s).cores } = entered (info ins) s)
    (hc : ∀ c, loopless (coreOf e c) = loopless (coreOf s c))
    (hg : ∀ g, g ≠ s.cur → grpOf e g = grpOf s g) (hp : cg e = setPath (cg (entered (info ins) s)) p) :
    PathResult ins s { p with wait := none } := fun h =>
  ⟨_, he.trans (issue_done h (ha h)), path_only h hm hc hg hp⟩
/-- Setting the path after entry, with and without capturing a loop. -/
theorem setCp_facts (i : Info) (s : State) (p : Path) :
    { setCp (entered i s) p with groups := (entered i s).groups, cores := (entered i s).cores } = entered i s ∧
    (∀ c, loopless (coreOf (setCp (entered i s) p) c) = loopless (coreOf s c)) ∧
    (∀ g, g ≠ s.cur → grpOf (setCp (entered i s) p) g = grpOf s g) ∧
    cg (setCp (entered i s) p) = setPath (cg (entered i s)) p := by
  refine ⟨rfl, fun c => ?_, fun g hg => ?_, cg_setCp _ _⟩
  · have : coreOf (setCp (entered i s) p) c = coreOf s c := by rw [entered_eq]; rfl
    rw [this]
  · rw [setCp, grpOf_setCg_other _ _ (by rw [cur_entered]; exact hg), entered_eq, grpOf_setCg_other _ _ hg]
theorem captured_facts (i : Info) (s : State) (a : Addr) (p : Path) :
    { setCp (captureLoop (entered i s) a) p with groups := (entered i s).groups, cores := (entered i s).cores } = entered i s ∧
    (∀ c, loopless (coreOf (setCp (captureLoop (entered i s) a) p) c) = loopless (coreOf s c)) ∧
    (∀ g, g ≠ s.cur → grpOf (setCp (captureLoop (entered i s) a) p) g = grpOf s g) ∧
    cg (setCp (captureLoop (entered i s) a) p) = setPath (cg (entered i s)) p := by
  obtain ⟨h1, h2⟩ := captureLoop_frame (entered i s) a
  have hgrp : (captureLoop (entered i s) a).groups = (entered i s).groups := (congrArg State.groups h1 :)
  have hcur : (captureLoop (entered i s) a).cur = s.cur := ((congrArg State.cur h1 :)).trans (cur_entered i s)
  have hcg : cg (captureLoop (entered i s) a) = cg (entered i s) := by
    simp only [cg, grpOf, hgrp, hcur, cur_entered]
  refine ⟨?_, fun c => ?_, fun g hg => ?_, ?_⟩
  · have := congrArg (fun z : State => { z with groups := (entered i s).groups }) h1
    exact this
  · have h3 : coreOf (setCp (captureLoop (entered i s) a) p) c = coreOf (captureLoop (entered i s) a) c := rfl
    have h4 : coreOf (entered i s) c = coreOf s c := by rw [entered_eq]; rfl
    rw [h3, h2, h4]
  · rw [setCp, grpOf_setCg_other _ _ (by rw [hcur]; exact hg)]
    have : grpOf (captureLoop (entered i s) a) g = grpOf (entered i s) g := by simp only [grpOf, hgrp]
    rw [this, entered_eq, grpOf_setCg_other _ _ hg]
  · rw [setCp, cg_setCg, hcg]

end Sys2Proof.Machine
end

