-- ==== Sys2Proof/Laws/PerInstr.lean ====
section
/-!
SUPPORT. Laws/PerInstr.lean: the family Stall: the stall count that issue takes from an instruction (R38) is bits [23:22] of its
word (R26). An event has no word.
-/
namespace Sys2Proof.Laws.Stall
set_option Elab.async false
open Sys2Proof.Machine

/-- A field's value. -/
theorem of_field {w : Word} {x : BitVec 2} (h : w.extractLsb' 22 2 = x) : x.toNat = (fld w 22 2).toNat :=
  congrArg BitVec.toNat h.symm
/-- The stall count of issue is the stall field of the word. -/
def Statement (i : Instr) : Prop := ∀ w, encode i = some w → (info i).stall = (fld w 22 2).toNat

theorem nop (st : BitVec 2) : Statement (.nop st) := by
  rintro _ ⟨⟩; exact of_field (past here)
theorem mov (st : BitVec 2) (d : BitVec 7) (b : BitVec 7) (c : BitVec 1) : Statement (.mov st d b c) := by
  rintro _ ⟨⟩; exact of_field (past (past (past (past here))))
theorem limm (st : BitVec 2) (d : BitVec 7) (i : BitVec 15) : Statement (.limm st d i) := by
  rintro _ ⟨⟩; exact of_field (past (past here))
theorem limmh (st : BitVec 2) (d : BitVec 7) (i : BitVec 15) : Statement (.limmh st d i) := by
  rintro _ ⟨⟩; exact of_field (past (past here))
theorem iadd (st : BitVec 2) (d : BitVec 7) (a : BitVec 7) (b : BitVec 7) (c : BitVec 1) : Statement (.iadd st d a b c) := by
  rintro _ ⟨⟩; exact of_field (past (past (past (past here))))
theorem isub (st : BitVec 2) (d : BitVec 7) (a : BitVec 7) (b : BitVec 7) (c : BitVec 1) : Statement (.isub st d a b c) := by
  rintro _ ⟨⟩; exact of_field (past (past (past (past here))))
theorem iaddi (st : BitVec 2) (d : BitVec 7) (a : BitVec 7) (i : BitVec 8) : Statement (.iaddi st d a i) := by
  rintro _ ⟨⟩; exact of_field (past (past (past here)))
theorem iadd64 (st : BitVec 2) (d : BitVec 7) (a : BitVec 7) (b : BitVec 7) (c : BitVec 1) : Statement (.iadd64 st d a b c) := by
  rintro _ ⟨⟩; exact of_field (past (past (past (past here))))
theorem imul (st : BitVec 2) (d : BitVec 7) (a : BitVec 7) (b : BitVec 7) (c : BitVec 1) : Statement (.imul st d a b c) := by
  rintro _ ⟨⟩; exact of_field (past (past (past (past here))))
theorem imulhi (st : BitVec 2) (d : BitVec 7) (a : BitVec 7) (b : BitVec 7) (c : BitVec 1) : Statement (.imulhi st d a b c) := by
  rintro _ ⟨⟩; exact of_field (past (past (past (past here))))
theorem imulhu (st : BitVec 2) (d : BitVec 7) (a : BitVec 7) (b : BitVec 7) (c : BitVec 1) : Statement (.imulhu st d a b c) := by
  rintro _ ⟨⟩; exact of_field (past (past (past (past here))))
theorem imad (st : BitVec 2) (d : BitVec 7) (a : BitVec 7) (b : BitVec 7) (c : BitVec 1) : Statement (.imad st d a b c) := by
  rintro _ ⟨⟩; exact of_field (past (past (past (past here))))
theorem imin (st : BitVec 2) (d : BitVec 7) (a : BitVec 7) (b : BitVec 7) (c : BitVec 1) : Statement (.imin st d a b c) := by
  rintro _ ⟨⟩; exact of_field (past (past (past (past here))))
theorem imax (st : BitVec 2) (d : BitVec 7) (a : BitVec 7) (b : BitVec 7) (c : BitVec 1) : Statement (.imax st d a b c) := by
  rintro _ ⟨⟩; exact of_field (past (past (past (past here))))
theorem iminu (st : BitVec 2) (d : BitVec 7) (a : BitVec 7) (b : BitVec 7) (c : BitVec 1) : Statement (.iminu st d a b c) := by
  rintro _ ⟨⟩; exact of_field (past (past (past (past here))))
theorem imaxu (st : BitVec 2) (d : BitVec 7) (a : BitVec 7) (b : BitVec 7) (c : BitVec 1) : Statement (.imaxu st d a b c) := by
  rintro _ ⟨⟩; exact of_field (past (past (past (past here))))
theorem iabs (st : BitVec 2) (d : BitVec 7) (a : BitVec 7) : Statement (.iabs st d a) := by
  rintro _ ⟨⟩; exact of_field (past (past (past here)))
theorem ineg (st : BitVec 2) (d : BitVec 7) (a : BitVec 7) : Statement (.ineg st d a) := by
  rintro _ ⟨⟩; exact of_field (past (past (past here)))
theorem and (st : BitVec 2) (d : BitVec 7) (a : BitVec 7) (b : BitVec 7) (c : BitVec 1) : Statement (.and st d a b c) := by
  rintro _ ⟨⟩; exact of_field (past (past (past (past here))))
theorem or (st : BitVec 2) (d : BitVec 7) (a : BitVec 7) (b : BitVec 7) (c : BitVec 1) : Statement (.or st d a b c) := by
  rintro _ ⟨⟩; exact of_field (past (past (past (past here))))
theorem xor (st : BitVec 2) (d : BitVec 7) (a : BitVec 7) (b : BitVec 7) (c : BitVec 1) : Statement (.xor st d a b c) := by
  rintro _ ⟨⟩; exact of_field (past (past (past (past here))))
theorem andn (st : BitVec 2) (d : BitVec 7) (a : BitVec 7) (b : BitVec 7) (c : BitVec 1) : Statement (.andn st d a b c) := by
  rintro _ ⟨⟩; exact of_field (past (past (past (past here))))
theorem not (st : BitVec 2) (d : BitVec 7) (a : BitVec 7) : Statement (.not st d a) := by
  rintro _ ⟨⟩; exact of_field (past (past (past here)))
theorem shl (st : BitVec 2) (d : BitVec 7) (a : BitVec 7) (b : BitVec 7) (c : BitVec 1) : Statement (.shl st d a b c) := by
  rintro _ ⟨⟩; exact of_field (past (past (past (past here))))
theorem shr (st : BitVec 2) (d : BitVec 7) (a : BitVec 7) (b : BitVec 7) (c : BitVec 1) : Statement (.shr st d a b c) := by
  rintro _ ⟨⟩; exact of_field (past (past (past (past here))))
theorem sar (st : BitVec 2) (d : BitVec 7) (a : BitVec 7) (b : BitVec 7) (c : BitVec 1) : Statement (.sar st d a b c) := by
  rintro _ ⟨⟩; exact of_field (past (past (past (past here))))
theorem shli (st : BitVec 2) (d : BitVec 7) (a : BitVec 7) (i : BitVec 8) : Statement (.shli st d a i) := by
  rintro _ ⟨⟩; exact of_field (past (past (past here)))
theorem shri (st : BitVec 2) (d : BitVec 7) (a : BitVec 7) (i : BitVec 8) : Statement (.shri st d a i) := by
  rintro _ ⟨⟩; exact of_field (past (past (past here)))
theorem sari (st : BitVec 2) (d : BitVec 7) (a : BitVec 7) (i : BitVec 8) : Statement (.sari st d a i) := by
  rintro _ ⟨⟩; exact of_field (past (past (past here)))
theorem popc (st : BitVec 2) (d : BitVec 7) (a : BitVec 7) : Statement (.popc st d a) := by
  rintro _ ⟨⟩; exact of_field (past (past (past here)))
theorem clz (st : BitVec 2) (d : BitVec 7) (a : BitVec 7) : Statement (.clz st d a) := by
  rintro _ ⟨⟩; exact of_field (past (past (past here)))
theorem brev (st : BitVec 2) (d : BitVec 7) (a : BitVec 7) : Statement (.brev st d a) := by
  rintro _ ⟨⟩; exact of_field (past (past (past here)))
theorem bfe (st : BitVec 2) (d : BitVec 7) (a : BitVec 7) (b : BitVec 7) (c : BitVec 1) : Statement (.bfe st d a b c) := by
  rintro _ ⟨⟩; exact of_field (past (past (past (past here))))
theorem bfi (st : BitVec 2) (d : BitVec 7) (a : BitVec 7) (b : BitVec 7) (c : BitVec 1) : Statement (.bfi st d a b c) := by
  rintro _ ⟨⟩; exact of_field (past (past (past (past here))))
theorem icmp (st : BitVec 2) (p : BitVec 3) (c : BitVec 4) (a : BitVec 7) (b : BitVec 7) (u : BitVec 1) : Statement (.icmp st p c a b u) := by
  rintro _ ⟨⟩; exact of_field (past (past (past (past (past here)))))
theorem sel (st : BitVec 2) (d : BitVec 7) (a : BitVec 7) (n : BitVec 1) (p : BitVec 3) : Statement (.sel st d a n p) := by
  rintro _ ⟨⟩; exact of_field (past (past (past (past (past here)))))
theorem plut (st : BitVec 2) (d : BitVec 3) (t : BitVec 4) (a : BitVec 3) (b : BitVec 3) : Statement (.plut st d t a b) := by
  rintro _ ⟨⟩; exact of_field (past (past (past (past (past (past (past here)))))))
theorem fadd (st : BitVec 2) (d : BitVec 7) (a : BitVec 7) (b : BitVec 7) (c : BitVec 1) : Statement (.fadd st d a b c) := by
  rintro _ ⟨⟩; exact of_field (past (past (past (past here))))
theorem fsub (st : BitVec 2) (d : BitVec 7) (a : BitVec 7) (b : BitVec 7) (c : BitVec 1) : Statement (.fsub st d a b c) := by
  rintro _ ⟨⟩; exact of_field (past (past (past (past here))))
theorem fmul (st : BitVec 2) (d : BitVec 7) (a : BitVec 7) (b : BitVec 7) (c : BitVec 1) : Statement (.fmul st d a b c) := by
  rintro _ ⟨⟩; exact of_field (past (past (past (past here))))
theorem ffma (st : BitVec 2) (d : BitVec 7) (a : BitVec 7) (b : BitVec 7) (c : BitVec 1) : Statement (.ffma st d a b c) := by
  rintro _ ⟨⟩; exact of_field (past (past (past (past here))))
theorem fmin (st : BitVec 2) (d : BitVec 7) (a : BitVec 7) (b : BitVec 7) (c : BitVec 1) : Statement (.fmin st d a b c) := by
  rintro _ ⟨⟩; exact of_field (past (past (past (past here))))
theorem fmax (st : BitVec 2) (d : BitVec 7) (a : BitVec 7) (b : BitVec 7) (c : BitVec 1) : Statement (.fmax st d a b c) := by
  rintro _ ⟨⟩; exact of_field (past (past (past (past here))))
theorem fabs (st : BitVec 2) (d : BitVec 7) (a : BitVec 7) : Statement (.fabs st d a) := by
  rintro _ ⟨⟩; exact of_field (past (past (past here)))
theorem fneg (st : BitVec 2) (d : BitVec 7) (a : BitVec 7) : Statement (.fneg st d a) := by
  rintro _ ⟨⟩; exact of_field (past (past (past here)))
theorem fcmp (st : BitVec 2) (p : BitVec 3) (c : BitVec 4) (a : BitVec 7) (b : BitVec 7) (u : BitVec 1) : Statement (.fcmp st p c a b u) := by
  rintro _ ⟨⟩; exact of_field (past (past (past (past (past here)))))
theorem frcp (st : BitVec 2) (d : BitVec 7) (a : BitVec 7) : Statement (.frcp st d a) := by
  rintro _ ⟨⟩; exact of_field (past (past (past here)))
theorem frsq (st : BitVec 2) (d : BitVec 7) (a : BitVec 7) : Statement (.frsq st d a) := by
  rintro _ ⟨⟩; exact of_field (past (past (past here)))
theorem fsqrt (st : BitVec 2) (d : BitVec 7) (a : BitVec 7) : Statement (.fsqrt st d a) := by
  rintro _ ⟨⟩; exact of_field (past (past (past here)))
theorem fexp2 (st : BitVec 2) (d : BitVec 7) (a : BitVec 7) : Statement (.fexp2 st d a) := by
  rintro _ ⟨⟩; exact of_field (past (past (past here)))
theorem flog2 (st : BitVec 2) (d : BitVec 7) (a : BitVec 7) : Statement (.flog2 st d a) := by
  rintro _ ⟨⟩; exact of_field (past (past (past here)))
theorem fsint (st : BitVec 2) (d : BitVec 7) (a : BitVec 7) : Statement (.fsint st d a) := by
  rintro _ ⟨⟩; exact of_field (past (past (past here)))
theorem fcost (st : BitVec 2) (d : BitVec 7) (a : BitVec 7) : Statement (.fcost st d a) := by
  rintro _ ⟨⟩; exact of_field (past (past (past here)))
theorem frnd (st : BitVec 2) (d : BitVec 7) (a : BitVec 7) (m : BitVec 2) : Statement (.frnd st d a m) := by
  rintro _ ⟨⟩; exact of_field (past (past (past (past here))))
theorem fclass (st : BitVec 2) (d : BitVec 7) (a : BitVec 7) : Statement (.fclass st d a) := by
  rintro _ ⟨⟩; exact of_field (past (past (past here)))
theorem pbadd (st : BitVec 2) (d : BitVec 7) (a : BitVec 7) (b : BitVec 7) (c : BitVec 1) : Statement (.pbadd st d a b c) := by
  rintro _ ⟨⟩; exact of_field (past (past (past (past here))))
theorem pbmul (st : BitVec 2) (d : BitVec 7) (a : BitVec 7) (b : BitVec 7) (c : BitVec 1) : Statement (.pbmul st d a b c) := by
  rintro _ ⟨⟩; exact of_field (past (past (past (past here))))
theorem pbfma (st : BitVec 2) (d : BitVec 7) (a : BitVec 7) (b : BitVec 7) (c : BitVec 1) : Statement (.pbfma st d a b c) := by
  rintro _ ⟨⟩; exact of_field (past (past (past (past here))))
theorem phadd (st : BitVec 2) (d : BitVec 7) (a : BitVec 7) (b : BitVec 7) (c : BitVec 1) : Statement (.phadd st d a b c) := by
  rintro _ ⟨⟩; exact of_field (past (past (past (past here))))
theorem phmul (st : BitVec 2) (d : BitVec 7) (a : BitVec 7) (b : BitVec 7) (c : BitVec 1) : Statement (.phmul st d a b c) := by
  rintro _ ⟨⟩; exact of_field (past (past (past (past here))))
theorem phfma (st : BitVec 2) (d : BitVec 7) (a : BitVec 7) (b : BitVec 7) (c : BitVec 1) : Statement (.phfma st d a b c) := by
  rintro _ ⟨⟩; exact of_field (past (past (past (past here))))
theorem cvt (st : BitVec 2) (d : BitVec 7) (a : BitVec 7) (m : BitVec 2) (t : BitVec 3) (u : BitVec 3) : Statement (.cvt st d a m t u) := by
  rintro _ ⟨⟩; exact of_field (past (past (past (past (past here)))))
theorem bsplit (st : BitVec 2) (d : BitVec 7) (a : BitVec 7) : Statement (.bsplit st d a) := by
  rintro _ ⟨⟩; exact of_field (past (past (past here)))
theorem pack2 (st : BitVec 2) (d : BitVec 7) (a : BitVec 7) (b : BitVec 7) (c : BitVec 1) : Statement (.pack2 st d a b c) := by
  rintro _ ⟨⟩; exact of_field (past (past (past (past here))))
theorem unpk2 (st : BitVec 2) (d : BitVec 7) (a : BitVec 7) (q : BitVec 2) (h : BitVec 1) : Statement (.unpk2 st d a q h) := by
  rintro _ ⟨⟩; exact of_field (past (past (past (past (past here)))))
theorem qnt (st : BitVec 2) (d : BitVec 7) (a : BitVec 7) (p : BitVec 3) (k : BitVec 3) : Statement (.qnt st d a p k) := by
  rintro _ ⟨⟩; exact of_field (past (past (past (past (past here)))))
theorem dqnt (st : BitVec 2) (d : BitVec 7) (a : BitVec 7) (f : BitVec 2) (m : BitVec 3) (k : BitVec 3) : Statement (.dqnt st d a f m k) := by
  rintro _ ⟨⟩; exact of_field (past (past (past (past (past here)))))
theorem niget (st : BitVec 2) (d : BitVec 7) (a : BitVec 7) (m : BitVec 3) : Statement (.niget st d a m) := by
  rintro _ ⟨⟩; exact of_field (past (past (past (past here))))
theorem niput (st : BitVec 2) (d : BitVec 7) (a : BitVec 7) (k : BitVec 3) : Statement (.niput st d a k) := by
  rintro _ ⟨⟩; exact of_field (past (past (past (past here))))
theorem sacc (st : BitVec 2) (d : BitVec 7) (a : BitVec 7) (b : BitVec 7) (c : BitVec 1) : Statement (.sacc st d a b c) := by
  rintro _ ⟨⟩; exact of_field (past (past (past (past here))))
theorem lds (st : BitVec 2) (d : BitVec 7) (a : BitVec 7) (o : BitVec 8) : Statement (.lds st d a o) := by
  rintro _ ⟨⟩; exact of_field (past (past (past here)))
theorem sts (st : BitVec 2) (d : BitVec 7) (a : BitVec 7) (o : BitVec 8) : Statement (.sts st d a o) := by
  rintro _ ⟨⟩; exact of_field (past (past (past here)))
theorem lds64 (st : BitVec 2) (d : BitVec 7) (a : BitVec 7) (o : BitVec 8) : Statement (.lds64 st d a o) := by
  rintro _ ⟨⟩; exact of_field (past (past (past here)))
theorem sts64 (st : BitVec 2) (d : BitVec 7) (a : BitVec 7) (o : BitVec 8) : Statement (.sts64 st d a o) := by
  rintro _ ⟨⟩; exact of_field (past (past (past here)))
theorem ldw (st : BitVec 2) (d : BitVec 7) (a : BitVec 7) (o : BitVec 8) : Statement (.ldw st d a o) := by
  rintro _ ⟨⟩; exact of_field (past (past (past here)))
theorem stw (st : BitVec 2) (d : BitVec 7) (a : BitVec 7) (o : BitVec 8) : Statement (.stw st d a o) := by
  rintro _ ⟨⟩; exact of_field (past (past (past here)))
theorem ldsp (st : BitVec 2) (d : BitVec 7) (a : BitVec 7) (o : BitVec 8) : Statement (.ldsp st d a o) := by
  rintro _ ⟨⟩; exact of_field (past (past (past here)))
theorem stsp (st : BitVec 2) (d : BitVec 7) (a : BitVec 7) (o : BitVec 8) : Statement (.stsp st d a o) := by
  rintro _ ⟨⟩; exact of_field (past (past (past here)))
theorem ldd (st : BitVec 2) (d : BitVec 7) (a : BitVec 7) (o : BitVec 8) : Statement (.ldd st d a o) := by
  rintro _ ⟨⟩; exact of_field (past (past (past here)))
theorem std (st : BitVec 2) (d : BitVec 7) (a : BitVec 7) (o : BitVec 8) : Statement (.std st d a o) := by
  rintro _ ⟨⟩; exact of_field (past (past (past here)))
theorem ldc (st : BitVec 2) (d : BitVec 7) (a : BitVec 7) (o : BitVec 8) : Statement (.ldc st d a o) := by
  rintro _ ⟨⟩; exact of_field (past (past (past here)))
theorem atom (st : BitVec 2) (d : BitVec 7) (a : BitVec 7) (f : BitVec 4) (p : BitVec 2) : Statement (.atom st d a f p) := by
  rintro _ ⟨⟩; exact of_field (past (past (past (past (past here)))))
theorem cas (st : BitVec 2) (d : BitVec 7) (a : BitVec 7) (p : BitVec 2) : Statement (.cas st d a p) := by
  rintro _ ⟨⟩; exact of_field (past (past (past (past (past here)))))
theorem shfli (st : BitVec 2) (d : BitVec 7) (a : BitVec 7) (m : BitVec 2) (c : BitVec 6) : Statement (.shfli st d a m c) := by
  rintro _ ⟨⟩; exact of_field (past (past (past (past here))))
theorem shfl (st : BitVec 2) (d : BitVec 7) (a : BitVec 7) (b : BitVec 7) (c : BitVec 1) : Statement (.shfl st d a b c) := by
  rintro _ ⟨⟩; exact of_field (past (past (past (past here))))
theorem vote (st : BitVec 2) (p : BitVec 3) (o : BitVec 2) (n : BitVec 1) (q : BitVec 3) : Statement (.vote st p o n q) := by
  rintro _ ⟨⟩; exact of_field (past (past (past (past (past (past here))))))
theorem ballot (st : BitVec 2) (d : BitVec 7) (h : BitVec 2) (n : BitVec 1) (p : BitVec 3) : Statement (.ballot st d h n p) := by
  rintro _ ⟨⟩; exact of_field (past (past (past (past (past here)))))
theorem rdlane (st : BitVec 2) (d : BitVec 7) (a : BitVec 7) (i : BitVec 7) : Statement (.rdlane st d a i) := by
  rintro _ ⟨⟩; exact of_field (past (past (past (past here))))
theorem wrlane (st : BitVec 2) (d : BitVec 7) (a : BitVec 7) (i : BitVec 7) : Statement (.wrlane st d a i) := by
  rintro _ ⟨⟩; exact of_field (past (past (past (past here))))
theorem matchKeys (st : BitVec 2) (d : BitVec 7) (a : BitVec 7) (b : BitVec 7) (c : BitVec 1) : Statement (.matchKeys st d a b c) := by
  rintro _ ⟨⟩; exact of_field (past (past (past (past here))))
theorem gen (st : BitVec 2) (d : BitVec 7) (a : BitVec 7) (g : BitVec 3) : Statement (.gen st d a g) := by
  rintro _ ⟨⟩; exact of_field (past (past (past (past here))))
theorem gent (st : BitVec 2) (d : BitVec 7) (a : BitVec 7) (g : BitVec 3) : Statement (.gent st d a g) := by
  rintro _ ⟨⟩; exact of_field (past (past (past (past here))))
theorem svc (st : BitVec 2) (d : BitVec 5) (n : BitVec 15) : Statement (.svc st d n) := by
  rintro _ ⟨⟩; exact of_field (past (past (past here)))
theorem laneid (st : BitVec 2) (d : BitVec 7) : Statement (.laneid st d) := by
  rintro _ ⟨⟩; exact of_field (past (past here))
theorem brk (st : BitVec 2) (n : BitVec 15) : Statement (.brk st n) := by
  rintro _ ⟨⟩; exact of_field (past (past here))
theorem snop (st : BitVec 2) : Statement (.snop st) := by
  rintro _ ⟨⟩; exact of_field (past here)
theorem smov (st : BitVec 2) (d : BitVec 7) (b : BitVec 7) : Statement (.smov st d b) := by
  rintro _ ⟨⟩; exact of_field (past (past (past (past here))))
theorem slimm (st : BitVec 2) (d : BitVec 7) (i : BitVec 15) : Statement (.slimm st d i) := by
  rintro _ ⟨⟩; exact of_field (past (past here))
theorem slimmh (st : BitVec 2) (d : BitVec 7) (i : BitVec 15) : Statement (.slimmh st d i) := by
  rintro _ ⟨⟩; exact of_field (past (past here))
theorem sadd (st : BitVec 2) (d : BitVec 7) (a : BitVec 7) (b : BitVec 7) : Statement (.sadd st d a b) := by
  rintro _ ⟨⟩; exact of_field (past (past (past (past here))))
theorem ssub (st : BitVec 2) (d : BitVec 7) (a : BitVec 7) (b : BitVec 7) : Statement (.ssub st d a b) := by
  rintro _ ⟨⟩; exact of_field (past (past (past (past here))))
theorem saddi (st : BitVec 2) (d : BitVec 7) (a : BitVec 7) (i : BitVec 8) : Statement (.saddi st d a i) := by
  rintro _ ⟨⟩; exact of_field (past (past (past here)))
theorem sadd64 (st : BitVec 2) (d : BitVec 7) (a : BitVec 7) (b : BitVec 7) : Statement (.sadd64 st d a b) := by
  rintro _ ⟨⟩; exact of_field (past (past (past (past here))))
theorem smul (st : BitVec 2) (d : BitVec 7) (a : BitVec 7) (b : BitVec 7) : Statement (.smul st d a b) := by
  rintro _ ⟨⟩; exact of_field (past (past (past (past here))))
theorem smulhi (st : BitVec 2) (d : BitVec 7) (a : BitVec 7) (b : BitVec 7) (u : BitVec 1) : Statement (.smulhi st d a b u) := by
  rintro _ ⟨⟩; exact of_field (past (past (past (past here))))
theorem sand (st : BitVec 2) (d : BitVec 7) (a : BitVec 7) (b : BitVec 7) : Statement (.sand st d a b) := by
  rintro _ ⟨⟩; exact of_field (past (past (past (past here))))
theorem sor (st : BitVec 2) (d : BitVec 7) (a : BitVec 7) (b : BitVec 7) : Statement (.sor st d a b) := by
  rintro _ ⟨⟩; exact of_field (past (past (past (past here))))
theorem sxor (st : BitVec 2) (d : BitVec 7) (a : BitVec 7) (b : BitVec 7) : Statement (.sxor st d a b) := by
  rintro _ ⟨⟩; exact of_field (past (past (past (past here))))
theorem sshl (st : BitVec 2) (d : BitVec 7) (a : BitVec 7) (b : BitVec 7) : Statement (.sshl st d a b) := by
  rintro _ ⟨⟩; exact of_field (past (past (past (past here))))
theorem sshr (st : BitVec 2) (d : BitVec 7) (a : BitVec 7) (b : BitVec 7) : Statement (.sshr st d a b) := by
  rintro _ ⟨⟩; exact of_field (past (past (past (past here))))
theorem ssar (st : BitVec 2) (d : BitVec 7) (a : BitVec 7) (b : BitVec 7) : Statement (.ssar st d a b) := by
  rintro _ ⟨⟩; exact of_field (past (past (past (past here))))
theorem sshli (st : BitVec 2) (d : BitVec 7) (a : BitVec 7) (i : BitVec 8) : Statement (.sshli st d a i) := by
  rintro _ ⟨⟩; exact of_field (past (past (past here)))
theorem sshri (st : BitVec 2) (d : BitVec 7) (a : BitVec 7) (i : BitVec 8) : Statement (.sshri st d a i) := by
  rintro _ ⟨⟩; exact of_field (past (past (past here)))
theorem smin (st : BitVec 2) (d : BitVec 7) (a : BitVec 7) (b : BitVec 7) (u : BitVec 1) : Statement (.smin st d a b u) := by
  rintro _ ⟨⟩; exact of_field (past (past (past (past here))))
theorem smax (st : BitVec 2) (d : BitVec 7) (a : BitVec 7) (b : BitVec 7) (u : BitVec 1) : Statement (.smax st d a b u) := by
  rintro _ ⟨⟩; exact of_field (past (past (past (past here))))
theorem spopc (st : BitVec 2) (d : BitVec 7) (a : BitVec 7) : Statement (.spopc st d a) := by
  rintro _ ⟨⟩; exact of_field (past (past (past here)))
theorem sclz (st : BitVec 2) (d : BitVec 7) (a : BitVec 7) : Statement (.sclz st d a) := by
  rintro _ ⟨⟩; exact of_field (past (past (past here)))
theorem scmp (st : BitVec 2) (p : BitVec 3) (c : BitVec 4) (a : BitVec 7) (b : BitVec 7) : Statement (.scmp st p c a b) := by
  rintro _ ⟨⟩; exact of_field (past (past (past (past (past here)))))
theorem ssel (st : BitVec 2) (d : BitVec 7) (a : BitVec 7) (p : BitVec 3) (n : BitVec 1) : Statement (.ssel st d a p n) := by
  rintro _ ⟨⟩; exact of_field (past (past (past (past (past here)))))
theorem sfadd (st : BitVec 2) (d : BitVec 7) (a : BitVec 7) (b : BitVec 7) : Statement (.sfadd st d a b) := by
  rintro _ ⟨⟩; exact of_field (past (past (past (past here))))
theorem sfmul (st : BitVec 2) (d : BitVec 7) (a : BitVec 7) (b : BitVec 7) : Statement (.sfmul st d a b) := by
  rintro _ ⟨⟩; exact of_field (past (past (past (past here))))
theorem sffma (st : BitVec 2) (d : BitVec 7) (a : BitVec 7) (b : BitVec 7) : Statement (.sffma st d a b) := by
  rintro _ ⟨⟩; exact of_field (past (past (past (past here))))
theorem sldc (st : BitVec 2) (d : BitVec 7) (a : BitVec 7) (i : BitVec 8) : Statement (.sldc st d a i) := by
  rintro _ ⟨⟩; exact of_field (past (past (past here)))
theorem slds (st : BitVec 2) (d : BitVec 7) (a : BitVec 7) (i : BitVec 8) : Statement (.slds st d a i) := by
  rintro _ ⟨⟩; exact of_field (past (past (past here)))
theorem ssts (st : BitVec 2) (d : BitVec 7) (a : BitVec 7) (i : BitVec 8) : Statement (.ssts st d a i) := by
  rintro _ ⟨⟩; exact of_field (past (past (past here)))
theorem srd (st : BitVec 2) (d : BitVec 7) (c : BitVec 7) (l : BitVec 1) : Statement (.srd st d c l) := by
  rintro _ ⟨⟩; exact of_field (past (past (past (past here))))
theorem swr (st : BitVec 2) (a : BitVec 7) (c : BitVec 7) : Statement (.swr st a c) := by
  rintro _ ⟨⟩; exact of_field (past (past (past (past here))))
theorem bra (st : BitVec 2) (p : BitVec 3) (n : BitVec 1) (o : BitVec 18) : Statement (.bra st p n o) := by
  rintro _ ⟨⟩; exact of_field (past (past (past here)))
theorem br (st : BitVec 2) (p : BitVec 3) (n : BitVec 1) (o : BitVec 18) : Statement (.br st p n o) := by
  rintro _ ⟨⟩; exact of_field (past (past (past here)))
theorem join (st : BitVec 2) : Statement (.join st) := by
  rintro _ ⟨⟩; exact of_field (past here)
theorem jmp (st : BitVec 2) (o : BitVec 18) : Statement (.jmp st o) := by
  rintro _ ⟨⟩; exact of_field (past (past here))
theorem call (st : BitVec 2) (o : BitVec 18) : Statement (.call st o) := by
  rintro _ ⟨⟩; exact of_field (past (past here))
theorem ret (st : BitVec 2) : Statement (.ret st) := by
  rintro _ ⟨⟩; exact of_field (past here)
theorem brx (st : BitVec 2) (a : BitVec 7) : Statement (.brx st a) := by
  rintro _ ⟨⟩; exact of_field (past (past (past here)))
theorem lhead (st : BitVec 2) (p : BitVec 3) (n : BitVec 1) : Statement (.lhead st p n) := by
  rintro _ ⟨⟩; exact of_field (past (past (past (past here))))
theorem exit (st : BitVec 2) : Statement (.exit st) := by
  rintro _ ⟨⟩; exact of_field (past here)
theorem sleep (st : BitVec 2) (i : BitVec 15) : Statement (.sleep st i) := by
  rintro _ ⟨⟩; exact of_field (past (past here))
theorem emrd (st : BitVec 2) (d : BitVec 5) : Statement (.emrd st d) := by
  rintro _ ⟨⟩; exact of_field (past (past here))
theorem emwr (st : BitVec 2) (a : BitVec 5) : Statement (.emwr st a) := by
  rintro _ ⟨⟩; exact of_field (past (past (past here)))
theorem emandReg (st : BitVec 2) (a : BitVec 5) : Statement (.emandReg st a) := by
  rintro _ ⟨⟩; exact of_field (past (past (past here)))
theorem emandPred (st : BitVec 2) (p : BitVec 3) (n : BitVec 1) : Statement (.emandPred st p n) := by
  rintro _ ⟨⟩; exact of_field (past (past (past (past here))))
theorem xlate (st : BitVec 2) (a : BitVec 6) (m : BitVec 1) (w : BitVec 1) (r : BitVec 1) (x : BitVec 3) : Statement (.xlate st a m w r x) := by
  rintro _ ⟨⟩; exact of_field (past (past (past (past (past (past (past here)))))))
theorem xrd (st : BitVec 2) (d : BitVec 5) (n : BitVec 3) : Statement (.xrd st d n) := by
  rintro _ ⟨⟩; exact of_field (past (past (past here)))
theorem xinv (st : BitVec 2) (m : BitVec 8) : Statement (.xinv st m) := by
  rintro _ ⟨⟩; exact of_field (past (past here))
theorem fence (st : BitVec 2) (c : BitVec 3) (k : BitVec 2) : Statement (.fence st c k) := by
  rintro _ ⟨⟩; exact of_field (past (past (past (past here))))
theorem ackrd (st : BitVec 2) (d : BitVec 7) : Statement (.ackrd st d) := by
  rintro _ ⟨⟩; exact of_field (past (past here))
theorem icinv (st : BitVec 2) (c : BitVec 3) (l : BitVec 1) : Statement (.icinv st c l) := by
  rintro _ ⟨⟩; exact of_field (past (past (past (past here))))
theorem region (st : BitVec 2) (i : BitVec 8) : Statement (.region st i) := by
  rintro _ ⟨⟩; exact of_field (past (past here))
theorem regend (st : BitVec 2) : Statement (.regend st) := by
  rintro _ ⟨⟩; exact of_field (past here)
theorem cpy (st : BitVec 2) (d : BitVec 7) (a : BitVec 4) (k : BitVec 4) (f : BitVec 4) : Statement (.cpy st d a k f) := by
  rintro _ ⟨⟩; exact of_field (past (past (past (past (past here)))))
theorem cpyg (st : BitVec 2) (d : BitVec 7) (a : BitVec 4) (k : BitVec 4) (f : BitVec 4) : Statement (.cpyg st d a k f) := by
  rintro _ ⟨⟩; exact of_field (past (past (past (past (past here)))))
theorem cpyr (st : BitVec 2) (d : BitVec 7) (a : BitVec 4) (k : BitVec 4) (f : BitVec 4) : Statement (.cpyr st d a k f) := by
  rintro _ ⟨⟩; exact of_field (past (past (past (past (past here)))))
theorem cpya (st : BitVec 2) (d : BitVec 7) (a : BitVec 4) (k : BitVec 4) (f : BitVec 4) : Statement (.cpya st d a k f) := by
  rintro _ ⟨⟩; exact of_field (past (past (past (past (past here)))))
theorem cbatch (st : BitVec 2) (d : BitVec 7) : Statement (.cbatch st d) := by
  rintro _ ⟨⟩; exact of_field (past (past here))
theorem waitb (st : BitVec 2) (a : BitVec 7) : Statement (.waitb st a) := by
  rintro _ ⟨⟩; exact of_field (past (past (past here)))
theorem testc (st : BitVec 2) (d : BitVec 7) (a : BitVec 7) (b : BitVec 7) : Statement (.testc st d a b) := by
  rintro _ ⟨⟩; exact of_field (past (past (past (past here))))
theorem waitc (st : BitVec 2) (a : BitVec 7) (b : BitVec 7) : Statement (.waitc st a b) := by
  rintro _ ⟨⟩; exact of_field (past (past (past (past here))))
theorem mma (st : BitVec 2) (d : BitVec 7) (a : BitVec 4) (k : BitVec 4) (f : BitVec 4) : Statement (.mma st d a k f) := by
  rintro _ ⟨⟩; exact of_field (past (past (past (past (past here)))))
theorem mmai (st : BitVec 2) (d : BitVec 7) (a : BitVec 4) (k : BitVec 4) (f : BitVec 4) : Statement (.mmai st d a k f) := by
  rintro _ ⟨⟩; exact of_field (past (past (past (past (past here)))))
theorem ldst (st : BitVec 2) (d : BitVec 7) (a : BitVec 4) (k : BitVec 4) (f : BitVec 4) : Statement (.ldst st d a k f) := by
  rintro _ ⟨⟩; exact of_field (past (past (past (past (past here)))))
theorem accz (st : BitVec 2) (d : BitVec 7) (a : BitVec 4) (k : BitVec 4) (f : BitVec 4) : Statement (.accz st d a k f) := by
  rintro _ ⟨⟩; exact of_field (past (past (past (past (past here)))))
theorem accrd (st : BitVec 2) (d : BitVec 7) (a : BitVec 4) (k : BitVec 4) (f : BitVec 4) : Statement (.accrd st d a k f) := by
  rintro _ ⟨⟩; exact of_field (past (past (past (past (past here)))))
theorem accwr (st : BitVec 2) (d : BitVec 7) (a : BitVec 4) (k : BitVec 4) (f : BitVec 4) : Statement (.accwr st d a k f) := by
  rintro _ ⟨⟩; exact of_field (past (past (past (past (past here)))))
theorem sacct (st : BitVec 2) (d : BitVec 7) (a : BitVec 4) (k : BitVec 4) (f : BitVec 4) : Statement (.sacct st d a k f) := by
  rintro _ ⟨⟩; exact of_field (past (past (past (past (past here)))))
theorem opfence (st : BitVec 2) : Statement (.opfence st) := by
  rintro _ ⟨⟩; exact of_field (past here)
theorem waitm (st : BitVec 2) (a : BitVec 7) : Statement (.waitm st a) := by
  rintro _ ⟨⟩; exact of_field (past (past (past here)))
theorem mseq (st : BitVec 2) (d : BitVec 7) (a : BitVec 7) : Statement (.mseq st d a) := by
  rintro _ ⟨⟩; exact of_field (past (past (past here)))
theorem tailp (st : BitVec 2) (a : BitVec 7) (r : BitVec 1) : Statement (.tailp st a r) := by
  rintro _ ⟨⟩; exact of_field (past (past (past (past here))))
theorem gset (st : BitVec 2) (a : BitVec 5) (g : BitVec 3) : Statement (.gset st a g) := by
  rintro _ ⟨⟩; exact of_field (past (past (past (past here))))
theorem grd (st : BitVec 2) (d : BitVec 5) (g : BitVec 3) : Statement (.grd st d g) := by
  rintro _ ⟨⟩; exact of_field (past (past (past here)))
theorem gstep (st : BitVec 2) : Statement (.gstep st) := by
  rintro _ ⟨⟩; exact of_field (past here)
theorem kset (st : BitVec 2) (a : BitVec 7) (k : BitVec 4) (m : BitVec 2) : Statement (.kset st a k m) := by
  rintro _ ⟨⟩; exact of_field (past (past (past (past (past here)))))
theorem krd (st : BitVec 2) (d : BitVec 7) : Statement (.krd st d) := by
  rintro _ ⟨⟩; exact of_field (past (past here))
theorem kclr (st : BitVec 2) (k : BitVec 4) : Statement (.kclr st k) := by
  rintro _ ⟨⟩; exact of_field (past (past (past here)))
theorem bar (st : BitVec 2) (i : BitVec 3) : Statement (.bar st i) := by
  rintro _ ⟨⟩; exact of_field (past (past here))
theorem barc (st : BitVec 2) : Statement (.barc st) := by
  rintro _ ⟨⟩; exact of_field (past here)
theorem barm (st : BitVec 2) (a : BitVec 5) (i : BitVec 3) : Statement (.barm st a i) := by
  rintro _ ⟨⟩; exact of_field (past (past (past (past here))))
theorem arrive (st : BitVec 2) (i : BitVec 3) : Statement (.arrive st i) := by
  rintro _ ⟨⟩; exact of_field (past (past here))
theorem await (st : BitVec 2) (i : BitVec 3) : Statement (.await st i) := by
  rintro _ ⟨⟩; exact of_field (past (past here))
theorem barg (st : BitVec 2) : Statement (.barg st) := by
  rintro _ ⟨⟩; exact of_field (past here)
theorem barinit (st : BitVec 2) (a : BitVec 5) (i : BitVec 3) : Statement (.barinit st a i) := by
  rintro _ ⟨⟩; exact of_field (past (past (past (past here))))
theorem barrd (st : BitVec 2) (d : BitVec 7) (k : BitVec 2) (i : BitVec 3) : Statement (.barrd st d k i) := by
  rintro _ ⟨⟩; exact of_field (past (past (past (past here))))
theorem qpush (st : BitVec 2) (a : BitVec 3) (q : BitVec 4) : Statement (.qpush st a q) := by
  rintro _ ⟨⟩; exact of_field (past (past (past (past (past here)))))
theorem launch (st : BitVec 2) (a : BitVec 3) : Statement (.launch st a) := by
  rintro _ ⟨⟩; exact of_field (past (past (past here)))
theorem shape (st : BitVec 2) (a : BitVec 5) : Statement (.shape st a) := by
  rintro _ ⟨⟩; exact of_field (past (past (past here)))
theorem arm (st : BitVec 2) (o : BitVec 2) (a : BitVec 7) (t : BitVec 4) (c : BitVec 3) : Statement (.arm st o a t c) := by
  rintro _ ⟨⟩; exact of_field (past (past (past (past (past (past here))))))
theorem hring (st : BitVec 2) (a : BitVec 5) (j : BitVec 4) (f : BitVec 1) (n : BitVec 1) : Statement (.hring st a j f n) := by
  rintro _ ⟨⟩; exact of_field (past (past (past (past (past (past (past here)))))))
theorem hpost (st : BitVec 2) (a : BitVec 3) : Statement (.hpost st a) := by
  rintro _ ⟨⟩; exact of_field (past (past (past here)))
theorem mapft (st : BitVec 2) (o : BitVec 2) (a : BitVec 5) : Statement (.mapft st o a) := by
  rintro _ ⟨⟩; exact of_field (past (past (past (past here))))
theorem fqpost (st : BitVec 2) (a : BitVec 5) : Statement (.fqpost st a) := by
  rintro _ ⟨⟩; exact of_field (past (past (past here)))
theorem tlbinv (st : BitVec 2) (a : BitVec 5) : Statement (.tlbinv st a) := by
  rintro _ ⟨⟩; exact of_field (past (past (past here)))
theorem trap (st : BitVec 2) (n : BitVec 16) : Statement (.trap st n) := by
  rintro _ ⟨⟩; exact of_field (past (past here))
theorem rft (st : BitVec 2) (r : BitVec 1) : Statement (.rft st r) := by
  rintro _ ⟨⟩; exact of_field (past (past here))
theorem srdp (st : BitVec 2) (d : BitVec 7) (c : BitVec 7) : Statement (.srdp st d c) := by
  rintro _ ⟨⟩; exact of_field (past (past (past (past here))))
theorem swrp (st : BitVec 2) (a : BitVec 7) (c : BitVec 7) : Statement (.swrp st a c) := by
  rintro _ ⟨⟩; exact of_field (past (past (past (past here))))
theorem sleepw (st : BitVec 2) (c : BitVec 2) (a : BitVec 7) (b : BitVec 7) : Statement (.sleepw st c a b) := by
  rintro _ ⟨⟩; exact of_field (past (past (past (past (past here)))))
theorem fqtake (st : BitVec 2) (d : BitVec 4) (w : BitVec 1) : Statement (.fqtake st d w) := by
  rintro _ ⟨⟩; exact of_field (past (past (past here)))
theorem svctake (st : BitVec 2) (d : BitVec 4) (w : BitVec 1) : Statement (.svctake st d w) := by
  rintro _ ⟨⟩; exact of_field (past (past (past here)))
theorem svcdone (st : BitVec 2) (a : BitVec 7) (b : BitVec 7) : Statement (.svcdone st a b) := by
  rintro _ ⟨⟩; exact of_field (past (past (past (past here))))
theorem groupWaitEnds (g : Nat) : Statement (.groupWaitEnds g) := nofun
theorem storePerformed (g : Nat) (i : Nat) : Statement (.storePerformed g i) := nofun
theorem notify (f : Nat) (slot : Nat) (val : Word) : Statement (.notify f slot val) := nofun
theorem launchCmd (c : CmdRef) : Statement (.launchCmd c) := nofun
theorem copy (c : CmdRef) : Statement (.copy c) := nofun
theorem wait (c : CmdRef) : Statement (.wait c) := nofun
theorem waitReevaluate (c : CmdRef) : Statement (.waitReevaluate c) := nofun
theorem signal (c : CmdRef) : Statement (.signal c) := nofun
theorem graph (c : CmdRef) : Statement (.graph c) := nofun
theorem graphRunStart (ctx : Nat) (slot : Nat) : Statement (.graphRunStart ctx slot) := nofun
theorem cond (c : CmdRef) : Statement (.cond c) := nofun
theorem commandComplete (c : CmdRef) : Statement (.commandComplete c) := nofun
theorem queueOff (ctx : Nat) (q : Nat) : Statement (.queueOff ctx q) := nofun
theorem completionRecord (ctx : Nat) (i : Nat) : Statement (.completionRecord ctx i) := nofun
theorem serviceSliceBoundary (die : Nat) : Statement (.serviceSliceBoundary die) := nofun
theorem create (f : Nat) (a0 : Addr) (a1 : Addr) (a2 : Addr) (a3 : Addr) : Statement (.create f a0 a1 a2 a3) := nofun
theorem setattr (f : Nat) (a0 : Addr) (a1 : Addr) (a2 : Addr) (a3 : Addr) : Statement (.setattr f a0 a1 a2 a3) := nofun
theorem map (f : Nat) (a0 : Addr) (a1 : Addr) (a2 : Addr) (a3 : Addr) : Statement (.map f a0 a1 a2 a3) := nofun
theorem unmap (f : Nat) (a0 : Addr) (a1 : Addr) (a2 : Addr) (a3 : Addr) : Statement (.unmap f a0 a1 a2 a3) := nofun
theorem sealCtx (f : Nat) (a0 : Addr) (a1 : Addr) (a2 : Addr) (a3 : Addr) : Statement (.sealCtx f a0 a1 a2 a3) := nofun
theorem suspend (f : Nat) (a0 : Addr) (a1 : Addr) (a2 : Addr) (a3 : Addr) : Statement (.suspend f a0 a1 a2 a3) := nofun
theorem resume (f : Nat) (a0 : Addr) (a1 : Addr) (a2 : Addr) (a3 : Addr) : Statement (.resume f a0 a1 a2 a3) := nofun
theorem ckpt (f : Nat) (a0 : Addr) (a1 : Addr) (a2 : Addr) (a3 : Addr) : Statement (.ckpt f a0 a1 a2 a3) := nofun
theorem restore (f : Nat) (a0 : Addr) (a1 : Addr) (a2 : Addr) (a3 : Addr) : Statement (.restore f a0 a1 a2 a3) := nofun
theorem destroy (f : Nat) (a0 : Addr) (a1 : Addr) (a2 : Addr) (a3 : Addr) : Statement (.destroy f a0 a1 a2 a3) := nofun
theorem wipeComplete (ctx : Nat) : Statement (.wipeComplete ctx) := nofun
theorem claim (f : Nat) (a0 : Addr) (a1 : Addr) (a2 : Addr) (a3 : Addr) : Statement (.claim f a0 a1 a2 a3) := nofun
theorem unclaim (f : Nat) (a0 : Addr) (a1 : Addr) (a2 : Addr) (a3 : Addr) : Statement (.unclaim f a0 a1 a2 a3) := nofun
theorem update (f : Nat) (a0 : Addr) (a1 : Addr) (a2 : Addr) (a3 : Addr) : Statement (.update f a0 a1 a2 a3) := nofun
theorem updateQuiesceTimeout : Statement (.updateQuiesceTimeout) := nofun
theorem flip (f : Nat) (val : Addr) : Statement (.flip f val) := nofun
theorem biasFlipComplete (frame : Nat) : Statement (.biasFlipComplete frame) := nofun
theorem errconsWrite (f : Nat) (val : Word) : Statement (.errconsWrite f val) := nofun
theorem registerWrite (f : Nat) (off : Nat) (val : Addr) : Statement (.registerWrite f off val) := nofun
theorem attestationRequest (f : Nat) (nonce : List Byte) (ctx : Option Nat) : Statement (.attestationRequest f nonce ctx) := nofun
theorem hostWrite (dev : Bool) (addr : Nat) (bytes : List Byte) : Statement (.hostWrite dev addr bytes) := nofun
theorem hostRead (addr : Nat) (n : Nat) : Statement (.hostRead addr n) := nofun
theorem atsInvalidation (ld : Nat) (addr : Nat) (n : Nat) : Statement (.atsInvalidation ld addr n) := nofun
theorem atsInvalidationTimeout (i : Nat) : Statement (.atsInvalidationTimeout i) := nofun
theorem gangPlace (kern : Nat) (rank : Nat) : Statement (.gangPlace kern rank) := nofun
theorem gangRelease (gang : Nat) : Statement (.gangRelease gang) := nofun
theorem blockRetire (blk : Nat) : Statement (.blockRetire blk) := nofun
theorem preempt (blocks : List Nat) (bound : Nat) : Statement (.preempt blocks bound) := nofun
theorem gangResume (gang : Nat) : Statement (.gangResume gang) := nofun
theorem holdDrain (blk : Nat) : Statement (.holdDrain blk) := nofun
theorem copyCommandStart (blk : Nat) : Statement (.copyCommandStart blk) := nofun
theorem copyChunkDone (blk : Nat) (seq : Nat) (chunk : Nat) : Statement (.copyChunkDone blk seq chunk) := nofun
theorem copyCommandComplete (blk : Nat) (seq : Nat) : Statement (.copyCommandComplete blk seq) := nofun
theorem orderedReductionApply (i : Nat) : Statement (.orderedReductionApply i) := nofun
theorem matrixCommandStart (blk : Nat) : Statement (.matrixCommandStart blk) := nofun
theorem matrixCommandComplete (blk : Nat) (seq : Nat) : Statement (.matrixCommandComplete blk seq) := nofun
theorem softError (mem : MemName) (addr : Nat) (unc : Bool) : Statement (.softError mem addr unc) := nofun
theorem correctedErrorThreshold (ctx : Nat) : Statement (.correctedErrorThreshold ctx) := nofun
theorem portEnable (p : Nat) : Statement (.portEnable p) := nofun
theorem trainingComplete (p : Nat) (lanes : Nat) (agree : Bool) (far : Nat) : Statement (.trainingComplete p lanes agree far) := nofun
theorem trainingTimeout (p : Nat) : Statement (.trainingTimeout p) := nofun
theorem retrainTimer (p : Nat) : Statement (.retrainTimer p) := nofun
theorem laneFailure (p : Nat) : Statement (.laneFailure p) := nofun
theorem lossOfLock (p : Nat) : Statement (.lossOfLock p) := nofun
theorem portRetire (p : Nat) : Statement (.portRetire p) := nofun
theorem idle (p : Nat) (fl : Flit) : Statement (.idle p fl) := nofun
theorem pause (p : Nat) (fl : Flit) : Statement (.pause p fl) := nofun
theorem retry (p : Nat) (fl : Flit) : Statement (.retry p fl) := nofun
theorem snap (p : Nat) (fl : Flit) : Statement (.snap p fl) := nofun
theorem barr (p : Nat) (fl : Flit) : Statement (.barr p fl) := nofun
theorem whead (p : Nat) (fl : Flit) : Statement (.whead p fl) := nofun
theorem wacc (p : Nat) (fl : Flit) : Statement (.wacc p fl) := nofun
theorem data (p : Nat) (fl : Flit) : Statement (.data p fl) := nofun
theorem rreq (p : Nat) (fl : Flit) : Statement (.rreq p fl) := nofun
theorem rhead (p : Nat) (fl : Flit) : Statement (.rhead p fl) := nofun
theorem atomFlit (p : Nat) (fl : Flit) : Statement (.atomFlit p fl) := nofun
theorem atomr (p : Nat) (fl : Flit) : Statement (.atomr p fl) := nofun
theorem ack (p : Nat) (fl : Flit) : Statement (.ack p fl) := nofun
theorem radd (p : Nat) (fl : Flit) : Statement (.radd p fl) := nofun
theorem operationTimeout (dst : Nat) (tag : Nat) : Statement (.operationTimeout dst tag) := nofun
theorem hallEvent (p : Nat) (fl : Flit) : Statement (.hallEvent p fl) := nofun
theorem hallAck (p : Nat) (fl : Flit) : Statement (.hallAck p fl) := nofun
theorem token (p : Nat) (fl : Flit) : Statement (.token p fl) := nofun
theorem stable (p : Nat) (fl : Flit) : Statement (.stable p fl) := nofun
theorem recover (p : Nat) (fl : Flit) : Statement (.recover p fl) := nofun
theorem reply (p : Nat) (fl : Flit) : Statement (.reply p fl) := nofun
theorem ackWaitTimeout : Statement (.ackWaitTimeout) := nofun
theorem tokenTimeout : Statement (.tokenTimeout) := nofun
theorem recoveryCollect : Statement (.recoveryCollect) := nofun
theorem suspect (m : Nat) : Statement (.suspect m) := nofun
theorem wingFailover : Statement (.wingFailover) := nofun
theorem firstHeartbeat (kind : Nat) : Statement (.firstHeartbeat kind) := nofun
theorem provisioningToken (tok : List Byte) : Statement (.provisioningToken tok) := nofun
theorem deploymentToken (tok : List Byte) : Statement (.deploymentToken tok) := nofun
theorem rmaToken (tok : List Byte) : Statement (.rmaToken tok) := nofun
theorem repairToken (tok : List Byte) : Statement (.repairToken tok) := nofun
theorem decommissionToken (tok : List Byte) : Statement (.decommissionToken tok) := nofun
theorem packageReset : Statement (.packageReset) := nofun
theorem budgetPeriod (unit : BudgetUnit) : Statement (.budgetPeriod unit) := nofun
theorem stateTableChange (item : TableItem) : Statement (.stateTableChange item) := nofun
theorem flitFailsCrc (p : Nat) : Statement (.flitFailsCrc p) := nofun
theorem logicalDeviceBind (ld : Nat) (bound : Bool) (windows : List (Nat × Nat)) (route : BindRoute) :
    Statement (.logicalDeviceBind ld bound windows route) := nofun
theorem powerLoss : Statement (.powerLoss) := nofun

end Sys2Proof.Laws.Stall
end

