-- ==== Sys2Proof/Tests/Slice0.lean ====
section
/-!
SUPPORT. Tests/Slice0.lean: the spec's worked encodings, an ill-formed term for each check of WellFormed, worked values of the
spec, and for each statement of Certificates/Slice0 states and operands that meet its hypotheses.
-/
namespace Sys2Proof.Tests
open Sys2Proof Sys2Proof.Machine
set_option Elab.async false
set_option exponentiation.threshold 600

/-! ### Encodings: the words that the spec's rules and listings give for an assembly line -/

def laneWords0 : List (Word × Instr) :=
  [
    (0x0101800F, .mov 0 3 7 1), (0x0202000A, .limm 0 4 10), (0x04048802, .iadd 0 9 8 1 0), (0x0503010A, .isub 0 6 1 5 0),
    (0x060285FF, .iaddi 0 5 5 255), (0x07020605, .iadd64 0 4 6 2 1), (0x08428308, .imul 1 5 3 4 0),
    (0x0A410113, .imulhu 1 2 1 9 1), (0x0B028308, .imad 0 5 3 4 0), (0x1B018203, .shri 0 3 2 3),
    (0x20010109, .bfe 0 2 1 4 1), (0x2209040A, .icmp 0 1 2 4 5 0), (0x2303880A, .sel 0 7 8 1 2),
    (0x241C0104, .plut 0 3 8 1 2), (0x28010206, .fadd 0 2 2 3 0), (0x2B050510, .ffma 0 10 5 8 0),
    (0x2D008101, .fmax 0 1 1 0 1), (0x2E010200, .fabs 0 2 2), (0x3011040D, .fcmp 0 2 2 4 6 1), (0x31428300, .frcp 1 5 3),
    (0x36028400, .fsint 0 5 4), (0x38018203, .frnd 0 3 2 3), (0x39020300, .fclass 0 4 3), (0x3A03060E, .pbadd 0 6 6 7 0)
  ]
theorem test_laneWords0 : ∀ p ∈ laneWords0, (decodeWord p.1).toOption = some p.2 ∧ encode p.2 = some p.1 := by decide
def laneWords1 : List (Word × Instr) :=
  [
    (0x3F04060E, .phfma 0 8 6 7 0), (0x40010142, .cvt 0 2 1 1 0 2), (0x41020100, .bsplit 0 4 1),
    (0x42040206, .pack2 0 8 2 3 0), (0x43040802, .unpk2 0 8 8 1 0), (0x4445021A, .qnt 1 10 2 3 2),
    (0x45058C0A, .dqnt 0 11 12 0 1 2), (0x46060A01, .niget 0 12 10 1), (0x48048709, .sacc 0 9 7 4 1),
    (0x50040404, .lds 0 8 4 4), (0x51048401, .sts 0 9 4 1), (0x52030201, .lds64 0 6 2 1), (0x53030200, .sts64 0 6 2 0),
    (0x54010602, .ldw 0 2 6 2), (0x55010600, .stw 0 2 6 0), (0x56018000, .ldsp 0 3 0 0), (0x57018001, .stsp 0 3 0 1),
    (0x58050100, .ldd 0 10 1 0), (0x59050100, .std 0 10 1 0), (0x5A010002, .ldc 0 2 0 2), (0x5B028304, .atom 0 5 3 0 1),
    (0x5C030200, .cas 0 6 2 0), (0x600182C1, .shfli 0 3 2 3 1), (0x61018212, .shfl 0 3 2 9 0)
  ]
theorem test_laneWords1 : ∀ p ∈ laneWords1, (decodeWord p.1).toOption = some p.2 ∧ encode p.2 = some p.1 := by decide
def laneWords2 : List (Word × Instr) :=
  [
    (0x620A0300, .vote 0 1 1 0 3), (0x63020002, .ballot 0 4 0 0 2), (0x64028703, .rdlane 0 5 7 3),
    (0x65038503, .wrlane 0 7 5 3), (0x66018201, .matchKeys 0 3 2 0 1), (0x68041E00, .gen 0 8 30 0),
    (0x69058403, .gent 0 11 4 3), (0x6C040012, .svc 0 2 18), (0x6D008000, .laneid 0 1), (0x6E000007, .brk 0 7)
  ]
theorem test_laneWords2 : ∀ p ∈ laneWords2, (decodeWord p.1).toOption = some p.2 ∧ encode p.2 = some p.1 := by decide
def uniformWords0 : List (Word × Instr) :=
  [
    (0x81080012, .smov 0 16 9), (0x8200FFFE, .slimm 0 1 32766), (0x8402040A, .sadd 0 4 4 5), (0x85028508, .ssub 0 5 5 4),
    (0x89030105, .smulhi 0 6 1 2 1), (0x8A098B0A, .sand 0 19 11 5), (0x960A8812, .scmp 0 1 5 8 9),
    (0x97018A20, .ssel 0 3 10 1 0), (0x981DB974, .sfadd 0 59 57 58), (0x9A43040A, .sffma 1 6 4 5),
    (0x9B048800, .sldc 0 9 8 0), (0x9C020202, .slds 0 4 2 2), (0x9D020202, .ssts 0 4 2 2), (0x9E020002, .srd 0 4 1 0),
    (0xA0080003, .bra 0 1 0 3), (0xA1080003, .br 0 1 0 3), (0xA2000000, .join 0), (0xA3000002, .jmp 0 2),
    (0xA6000C00, .brx 0 12), (0xA7002000, .lhead 0 2 0), (0xA900000A, .sleep 0 10), (0xAC000021, .emandPred 0 1 0),
    (0xB0000809, .xlate 0 4 0 0 1 1), (0xB1060001, .xrd 0 3 1)
  ]
theorem test_uniformWords0 : ∀ p ∈ uniformWords0, (decodeWord p.1).toOption = some p.2 ∧ encode p.2 = some p.1 := by decide
def uniformWords1 : List (Word × Instr) :=
  [
    (0xB2000006, .xinv 0 6), (0xB3000008, .fence 0 1 0), (0xB4020000, .ackrd 0 4), (0xB5000018, .icinv 0 3 0),
    (0xB6000005, .region 0 5), (0xB8009000, .cpy 0 1 2 0 0), (0xBA011801, .cpyr 0 2 3 0 1), (0xBC018000, .cbatch 0 3),
    (0xBD000300, .waitb 0 3), (0xBE03040A, .testc 0 6 4 5), (0xBF00040A, .waitc 0 4 5), (0xC0011800, .mma 0 2 3 0 0),
    (0xC1009000, .mmai 0 1 2 0 0), (0xC2009000, .ldst 0 1 2 0 0), (0xC3028800, .accz 0 5 1 0 0),
    (0xC401A021, .accrd 0 3 4 2 1), (0xC501A001, .accwr 0 3 4 0 1), (0xC6032800, .sacct 0 6 5 0 0),
    (0xC7000000, .opfence 0), (0xC8000300, .waitm 0 3), (0xC9030200, .mseq 0 6 2), (0xCA000500, .tailp 0 5 0),
    (0xCC000803, .gset 0 2 3), (0xCD060003, .grd 0 3 3)
  ]
theorem test_uniformWords1 : ∀ p ∈ uniformWords1, (decodeWord p.1).toOption = some p.2 ∧ encode p.2 = some p.1 := by decide
def uniformWords2 : List (Word × Instr) :=
  [
    (0xCE000000, .gstep 0), (0xD0000031, .kset 0 0 3 1), (0xD1020000, .krd 0 4), (0xD2000030, .kclr 0 3),
    (0xD3000000, .bar 0 0), (0xD4000000, .barc 0), (0xD5000802, .barm 0 2 2), (0xD6000003, .arrive 0 3),
    (0xD7000003, .await 0 3), (0xD8000000, .barg 0), (0xD9000C01, .barinit 0 3 1), (0xDA020003, .barrd 0 4 0 3),
    (0xDB002030, .qpush 0 2 3), (0xDC003000, .launch 0 3), (0xDD001400, .shape 0 5), (0xDE100954, .arm 0 1 9 5 2),
    (0xDF000C18, .hring 0 3 1 1 0), (0xE0001000, .hpost 0 1), (0xE1001000, .mapft 0 0 4), (0xE2001000, .fqpost 0 4),
    (0xE3001400, .tlbinv 0 5), (0xE4000000, .trap 0 0), (0xE5000000, .rft 0 0), (0xE8100812, .sleepw 0 1 8 9)
  ]
theorem test_uniformWords2 : ∀ p ∈ uniformWords2, (decodeWord p.1).toOption = some p.2 ∧ encode p.2 = some p.1 := by decide
def uniformWords3 : List (Word × Instr) :=
  [
    (0xE9040001, .fqtake 0 1 1), (0xEA080001, .svctake 0 2 1), (0xEB001028, .svcdone 0 16 20)
  ]
theorem test_uniformWords3 : ∀ p ∈ uniformWords3, (decodeWord p.1).toOption = some p.2 ∧ encode p.2 = some p.1 := by decide

def refusal : Except DecodeError Instr → Option DecodeError
  | .error e => some e
  | .ok _ => none
/-- R30: a reserved field that is not zero; R35: opcodes with no row. -/
theorem test_decode_refuses : (refusal (decodeWord 0x00000001) = some .reservedField) ∧
    refusal (decodeWord 0x7F000000) = some .unallocatedOpcode ∧ refusal (decodeWord 0xFF000000) = some .unallocatedOpcode ∧
    refusal (decodeBytes [0, 0, 0]) = some .truncated := by decide

/-! ### WellFormed: each check refuses a term that it is about -/

def goodFlit : Flit := { pay := List.replicate 112 0 }
theorem test_illformed_lane : ∀ i ∈ [Instr.iadd64 0 1 2 4 0, .iadd64 0 2 1 4 0, .iadd64 0 2 4 1 0, .icmp 0 1 12 0 0 0, .fcmp 0 1 14 0 0 0,
    .cvt 0 1 1 0 0 0, .cvt 0 1 1 0 5 1, .bsplit 0 1 0, .qnt 0 1 1 1 7, .dqnt 0 1 1 3 0 0, .dqnt 0 1 1 0 0 7, .dqnt 0 1 1 0 3 0,
    .niput 0 1 1 7, .lds64 0 1 0 0, .sts64 0 1 0 0, .atom 0 1 1 15 0, .atom 0 1 1 0 3, .cas 0 1 0 0, .cas 0 2 0 3], wellFormed i = false := by
  decide
theorem test_illformed_uniform : ∀ i ∈ [Instr.sadd64 0 1 2 4, .sadd64 0 2 1 4, .sadd64 0 2 4 1, .scmp 0 1 12 0 0, .srd 0 1 27 1, .srd 0 1 0 0,
    .swr 0 1 23, .swr 0 1 27, .xlate 0 0 1 1 0 0, .xlate 0 0 1 0 1 0, .fence 0 6 0, .fence 0 0 3, .icinv 0 5 0, .cpy 0 1 0 0 2, .cpyg 0 1 0 0 1,
    .cpyr 0 1 0 0 3, .cpya 0 1 0 0 9, .mma 0 1 0 0 2, .mmai 0 1 0 0 1, .ldst 0 1 0 0 1, .accz 0 1 0 0 1, .accrd 0 1 0 0 3, .accwr 0 1 0 0 3,
    .sacct 0 1 0 0 1, .kset 0 0 0 0, .kset 0 0 1 3, .kset 0 1 1 0, .kclr 0 0, .barrd 0 1 3 0, .barrd 0 1 1 1, .hring 0 0 0 0 1, .hring 0 1 0 1 1,
    .mapft 0 3 0, .srdp 0 1 10, .swrp 0 1 2, .swrp 0 1 8], wellFormed i = false := by decide
theorem test_illformed_events : ∀ i ∈ [Instr.notify 0 64 0, .serviceSliceBoundary 4, .attestationRequest 0 [] none, .portEnable 24,
    .trainingComplete 24 8 true 0, .trainingComplete 0 9 true 0, .trainingComplete 0 8 true 256, .trainingTimeout 24, .retrainTimer 24,
    .laneFailure 24, .lossOfLock 24, .portRetire 24, .suspect 256, .flitFailsCrc 24], wellFormed i = false := by decide
theorem test_illformed_flits : (∀ f ∈ [fun p fl => Instr.idle p fl, .pause, .retry, .snap, .barr, .whead, .wacc, .data, .rreq, .rhead,
      .atomFlit, .atomr, .ack, .radd, .hallEvent, .hallAck, .token, .stable, .recover, .reply],
      wellFormed (f 0 goodFlit) = true ∧ wellFormed (f 24 goodFlit) = false ∧ wellFormed (f 0 {}) = false) ∧
    ∀ fl ∈ [{ goodFlit with dst := 256 }, { goodFlit with src := 256 }, { goodFlit with world := 64 }, { goodFlit with ctx := 1024 },
      { goodFlit with tag := 16777216 }, { goodFlit with lseq := 65536 }, { goodFlit with lack := 65536 }], flitOk fl = false := by decide

/-! ### States that meet the statements' hypotheses -/

/-- A word may issue, as a check that runs. -/
def mayIssueInfo (x : Info) (s : State) : Bool :=
  decide (x.version ≤ (ck s).hdr.version) && x.valid && (!x.kslot || (ck s).hdr.version != 1) && (!x.priv || superOf s)
    && (x.reads ++ x.writes).all (fun u => !overAllot (cg s) u.1) && (lateUses s (cg s) (emask s) x.reads).isEmpty
    && (lateUses s (cg s) (emask s) x.writes).isEmpty && (!x.noRegion || (cg s).region.isNone)
theorem may_issue_info {x : Info} {s : State} (h : mayIssueInfo x s = true) : MayIssue x s := by
  simp only [mayIssueInfo, Bool.and_eq_true, decide_eq_true_eq, List.all_eq_true, List.isEmpty_iff, Bool.or_eq_true,
    Bool.not_eq_true', bne_iff_ne, Option.isNone_iff_eq_none] at h
  obtain ⟨⟨⟨⟨⟨⟨⟨h1, h2⟩, h3⟩, h4⟩, h5⟩, h6⟩, h7⟩, h8⟩ := h
  exact ⟨h1, h2, fun e => h3.resolve_left (by simp [e]), fun e => h4.resolve_left (by simp [e]), h5, h6, h7,
    fun e => h8.resolve_left (by simp [e])⟩
def mayIssue (i : Instr) (s : State) : Bool := mayIssueInfo (info i) s
theorem may_issue {i : Instr} {s : State} (h : mayIssue i s = true) : MayIssue (info i) s := may_issue_info h
theorem bits_of {m : Mask} {f : Nat → Bool} (h : ∀ t : Fin 128, bitOf m t = f t) (k : ∀ t, 128 ≤ t → f t = false) (t : Nat) :
    bitOf m t = f t := by
  rcases Nat.lt_or_ge t 128 with l | l
  · exact h ⟨t, l⟩
  · rw [k t l]; exact BitVec.getLsbD_of_ge m t l

/-- One group of 32 threads at its first word (log entry 3). -/
def base : State := { State.reset.withFetchWord 32 0 with cur := 2 }
def withGroup (f : Group → Group) : State := setCg base (f (cg base))
def withBlock (f : Block → Block) : State := setCb base (f (cb base))
def withPath (f : Machine.Path → Machine.Path) : State := withGroup fun g => { g with pathA := f g.pathA }
def withHeader (s : State) (f : Header → Header) : State := setKern s 0 { kernOf s 0 with hdr := f (kernOf s 0).hdr }
def withCtx (f : Ctx → Ctx) : State := setCtx base 0 (f (ctxOf base 0))
/-- The same group in supervisor mode; its block in kernel mode on a service core. -/
def sup : State := withGroup fun g => { g with sup := true }
def svc : State := setCb (withGroup fun g => { g with core := 384 }) { cb base with kmode := true }
def userWords0 : List Instr :=
  [
    .nop 0, .mov 0 0 0 0, .limm 0 0 0, .limmh 0 0 0, .iadd 0 0 0 0 0, .isub 0 0 0 0 0, .iaddi 0 0 0 0, .iadd64 0 0 0 0 0,
    .imul 0 0 0 0 0, .imulhi 0 0 0 0 0, .imulhu 0 0 0 0 0, .imad 0 0 0 0 0, .imin 0 0 0 0 0, .imax 0 0 0 0 0,
    .iminu 0 0 0 0 0, .imaxu 0 0 0 0 0, .iabs 0 0 0, .ineg 0 0 0, .and 0 0 0 0 0, .or 0 0 0 0 0, .xor 0 0 0 0 0,
    .andn 0 0 0 0 0, .not 0 0 0, .shl 0 0 0 0 0, .shr 0 0 0 0 0, .sar 0 0 0 0 0, .shli 0 0 0 0, .shri 0 0 0 0,
    .sari 0 0 0 0, .popc 0 0 0, .clz 0 0 0, .brev 0 0 0, .bfe 0 0 0 0 0, .bfi 0 0 0 0 0, .icmp 0 0 0 0 0 0, .sel 0 0 0 0 0,
    .plut 0 0 0 0 0, .fadd 0 0 0 0 0, .fsub 0 0 0 0 0, .fmul 0 0 0 0 0, .ffma 0 0 0 0 0, .fmin 0 0 0 0 0, .fmax 0 0 0 0 0,
    .fabs 0 0 0, .fneg 0 0 0, .fcmp 0 0 0 0 0 0, .frcp 0 0 0, .frsq 0 0 0, .fsqrt 0 0 0, .fexp2 0 0 0
  ]
def userWords1 : List Instr :=
  [
    .flog2 0 0 0, .fsint 0 0 0, .fcost 0 0 0, .frnd 0 0 0 0, .fclass 0 0 0, .pbadd 0 0 0 0 0, .pbmul 0 0 0 0 0,
    .pbfma 0 0 0 0 0, .phadd 0 0 0 0 0, .phmul 0 0 0 0 0, .phfma 0 0 0 0 0, .cvt 0 0 0 0 1 0, .bsplit 0 0 0,
    .pack2 0 0 0 0 0, .unpk2 0 0 0 0 0, .qnt 0 0 0 0 0, .dqnt 0 0 0 0 0 0, .niget 0 0 0 0, .niput 0 0 0 0, .sacc 0 0 0 0 0,
    .lds 0 0 0 0, .sts 0 0 0 0, .lds64 0 0 0 0, .sts64 0 0 0 0, .ldw 0 0 0 0, .stw 0 0 0 0, .ldsp 0 0 0 0, .stsp 0 0 0 0,
    .ldd 0 0 0 0, .std 0 0 0 0, .ldc 0 0 0 0, .atom 0 0 0 0 0, .cas 0 0 0 0, .shfli 0 0 0 0 0, .shfl 0 0 0 0 0,
    .vote 0 0 0 0 0, .ballot 0 0 0 0 0, .rdlane 0 0 0 0, .wrlane 0 0 0 0, .matchKeys 0 0 0 0 0, .gen 0 0 0 0, .gent 0 0 0 0,
    .svc 0 0 0, .laneid 0 0, .brk 0 0, .snop 0, .smov 0 0 0, .slimm 0 0 0, .slimmh 0 0 0, .sadd 0 0 0 0
  ]
def userWords2 : List Instr :=
  [
    .ssub 0 0 0 0, .saddi 0 0 0 0, .sadd64 0 0 0 0, .smul 0 0 0 0, .smulhi 0 0 0 0 0, .sand 0 0 0 0, .sor 0 0 0 0,
    .sxor 0 0 0 0, .sshl 0 0 0 0, .sshr 0 0 0 0, .ssar 0 0 0 0, .sshli 0 0 0 0, .sshri 0 0 0 0, .smin 0 0 0 0 0,
    .smax 0 0 0 0 0, .spopc 0 0 0, .sclz 0 0 0, .scmp 0 0 0 0 0, .ssel 0 0 0 0 0, .sfadd 0 0 0 0, .sfmul 0 0 0 0,
    .sffma 0 0 0 0, .sldc 0 0 0 0, .slds 0 0 0 0, .ssts 0 0 0 0, .srd 0 0 0 1, .swr 0 0 24, .bra 0 0 0 0, .br 0 0 0 0,
    .join 0, .jmp 0 0, .call 0 0, .ret 0, .brx 0 0, .lhead 0 0 0, .exit 0, .sleep 0 0, .emrd 0 0, .emwr 0 0, .emandReg 0 0,
    .emandPred 0 0 0, .xlate 0 0 0 0 0 0, .xrd 0 0 0, .xinv 0 0, .fence 0 0 0, .ackrd 0 0, .icinv 0 0 0, .region 0 0,
    .regend 0, .cpy 0 0 0 0 0
  ]
def userWords3 : List Instr :=
  [
    .cpyg 0 0 0 0 0, .cpyr 0 0 0 0 0, .cpya 0 0 0 0 0, .cbatch 0 0, .waitb 0 0, .testc 0 0 0 0, .waitc 0 0 0,
    .mma 0 0 0 0 0, .mmai 0 0 0 0 0, .ldst 0 0 0 0 0, .accz 0 0 0 0 0, .accrd 0 0 0 0 0, .accwr 0 0 0 0 0, .sacct 0 0 0 0 0,
    .opfence 0, .waitm 0 0, .mseq 0 0 0, .tailp 0 0 0, .gset 0 0 0, .grd 0 0 0, .gstep 0, .kset 0 0 1 0, .krd 0 0,
    .kclr 0 1, .bar 0 0, .barc 0, .barm 0 0 0, .arrive 0 0, .await 0 0, .barg 0, .barinit 0 0 0, .barrd 0 0 0 0,
    .qpush 0 0 0, .launch 0 0, .shape 0 0, .arm 0 0 0 0 0, .hring 0 0 0 0 0, .trap 0 0, .sleepw 0 0 0 0
  ]
def supervisorWords : List Instr :=
  [
    .hpost 0 0, .mapft 0 0 0, .fqpost 0 0, .tlbinv 0 0, .rft 0 0, .srdp 0 0 0, .swrp 0 0 1, .fqtake 0 0 0, .svctake 0 0 0,
    .svcdone 0 0 0
  ]
theorem witness_words0 : ∀ i ∈ userWords0, MayIssue (info i) base := fun i hi =>
  may_issue ((by decide : ∀ i ∈ userWords0, mayIssue i base = true) i hi)
theorem witness_words1 : ∀ i ∈ userWords1, MayIssue (info i) base := fun i hi =>
  may_issue ((by decide : ∀ i ∈ userWords1, mayIssue i base = true) i hi)
theorem witness_words2 : ∀ i ∈ userWords2, MayIssue (info i) base := fun i hi =>
  may_issue ((by decide : ∀ i ∈ userWords2, mayIssue i base = true) i hi)
theorem witness_words3 : ∀ i ∈ userWords3, MayIssue (info i) base := fun i hi =>
  may_issue ((by decide : ∀ i ∈ userWords3, mayIssue i base = true) i hi)
theorem witness_supervisor : ∀ i ∈ supervisorWords, MayIssue (info i) sup ∧ MayIssue (info i) svc := fun i hi =>
  ⟨may_issue ((by decide : ∀ i ∈ supervisorWords, mayIssue i sup = true) i hi),
    may_issue ((by decide : ∀ i ∈ supervisorWords, mayIssue i svc = true) i hi)⟩

/-- PredicateWords: for every code and operands there is the function of the threads that the statement speaks of. -/
theorem witness_PredicateWords : (∀ (code : Nat) (x y : Nat → Word), ∃ f : Nat → Bool, ∀ t, f t = true ↔ condHolds code (x t) (y t)) ∧
    condHolds 0 1 1 ∧ condHolds 6 0 0xFFFFFFFF ∧ condHolds 2 0xFFFFFFFF 0 ∧ condHolds 10 1 1 ∧
    ∀ P : Prop, ∃ f : Nat → Bool, ∀ t, f t = true ↔ P := by
  refine ⟨fun code x y => ⟨fun t => @decide _ (Classical.propDecidable (condHolds code (x t) (y t))), fun t => by simp⟩, ?_, ?_, ?_, ?_,
    fun P => ⟨fun _ => @decide _ (Classical.propDecidable P), fun t => by simp⟩⟩
  · exact .inl ⟨rfl, rfl⟩
  · exact .inr <| .inr <| .inr <| .inr <| .inr <| .inr <| .inl ⟨rfl, by decide⟩
  · exact .inr <| .inr <| .inl ⟨rfl, by decide⟩
  · exact .inr <| .inr <| .inr <| .inr <| .inr <| .inr <| .inr <| .inr <| .inr <| .inr <| .inl ⟨rfl, by decide⟩
theorem witness_UniformWords : emask base ≠ 0 ∧ (31#7).toNat < (cg base).width := by decide
/-- ConditionalMoves, Jumps: unnegated p0 holds, negated it does not. -/
theorem witness_test : (((0#3).toNat = 0 ∧ (0#1) = 0) ∨ ∃ th, bitOf (emask base) th = true ∧ (predReg base 0 th != ((0#1) == 1)) = true) ∧
    ¬ (((0#3).toNat = 0 ∧ (1#1) = 0) ∨ ∃ th, bitOf (emask base) th = true ∧ (predReg base 0 th != ((1#1) == 1)) = true) :=
  ⟨.inl ⟨rfl, rfl⟩, by rintro (⟨-, h⟩ | ⟨th, -, h⟩) <;> simp [predReg] at h⟩
theorem witness_MatchWord : ∀ t, bitOf (emask base) t = true →
    bitOf (emask base) 0 = true ∧ operandB base 0 0 0 ++ laneReg base 0 0 = operandB base 0 0 t ++ laneReg base 0 t ∧
      ∀ u, bitOf (emask base) u = true → operandB base 0 0 u ++ laneReg base 0 u = operandB base 0 0 t ++ laneReg base 0 t → 0 ≤ u :=
  fun _ _ => ⟨by decide, rfl, fun _ _ _ => Nat.zero_le _⟩
def translated : State := wx base 7 { base := 64, limit := 64, r := true, valid := true }
theorem witness_TranslationReadings : (xlatReg translated 7).valid = true ∧ (xlatReg base 7).valid = false ∧
    mayIssue (.xrd 0 0 7) translated = true ∧ (0x80#8).getLsbD 7 = true ∧ (0x80#8).getLsbD 0 = false := by decide

/-! Control flow and traps -/

def called (n : Nat) : State := withPath fun p => { p with rstack := List.replicate n 0x84 }
def fetched : State := setCore base 0 { coreOf base 0 with icache := [(icKey 0 (codeBase (ck base)), 0)] }
/-- The same with nothing in the instruction cache. -/
def cold : State := setCore base 0 { coreOf base 0 with icache := [] }
theorem witness_Jumps : mayIssue (.call 0 0) (called 15) = true ∧ (cp (called 15)).rstack.length < 16 ∧
    (cp (called 1)).rstack = [0x84] ∧ mayIssue (.ret 0) (called 1) = true ∧
    (uniReg fetched 0).toNat % 4 = 0 ∧ (Map.find (coreOf fetched 0).icache (icKey 0 (codeBase (ck fetched)))).isSome = true ∧
    mayIssue (.brx 0 0) fetched = true ∧ Map.find (coreOf cold 0).icache (icKey 0 (codeBase (ck cold))) = none ∧ mayIssue (.brx 0 0) cold = true ∧
    checkLeaf cold (cb cold).world (tlbLook cold 0 (codeBase (ck cold)).toNat).1 (codeBase (ck cold)).toNat false false true = none := by
  decide
/-- A group whose thread 0 alone has p1; the same inside a stack entry, and with two arms. -/
def forked : State := withGroup fun g => { g with p := [(1, 1)] }
def nested (two : Bool) (l : List StackEntry) : State :=
  setCg forked { cg forked with two := two, pathA := { (cg forked).pathA with stack := l } }
theorem witness_Divergence : (∀ th, bitOf (emask base) th = (bitOf (emask base) th && (predReg base 0 th != ((0#1) == 1)))) ∧
    emask base ≠ 0 ∧ emask base &&& ~~~ emask base = 0 ∧
    (∀ th, bitOf (0 : Mask) th = (bitOf (emask base) th && (predReg base 0 th != ((1#1) == 1)))) ∧
    (∀ th, bitOf (1 : Mask) th = (bitOf (emask forked) th && (predReg forked 1 th != ((0#1) == 1)))) ∧
    emask forked &&& ~~~ 1 ≠ 0 ∧ (cg forked).two = false ∧ (cp forked).stack = [] ∧ mayIssue (.br 0 1 0 0) forked = true ∧
    mayIssue (.br 0 1 0 0) (nested false (List.replicate 15 {})) = true ∧ (cp (nested false (List.replicate 15 {}))).stack.length < 16 ∧
    mayIssue (.br 0 1 0 0) (nested true []) = true ∧ (cg (nested true [])).two = true := by
  refine ⟨fun th => by simp [predReg], by decide, by decide, fun th => by simp [predReg, bitOf], bits_of (by decide) ?_, by decide⟩
  intro t h
  rw [show bitOf (emask forked) t = false from BitVec.getLsbD_of_ge _ _ h]; rfl
def otherArm (b : Machine.Path) : State := withGroup fun g => { g with two := true, pathB := b }
theorem witness_Joins : (cp (nested false [{}])).stack = [{}] ∧ ({} : StackEntry).second = false ∧ mayIssue (.join 0) (nested false [{}]) = true ∧
    (cp (nested false [{ second := true }])).stack = [{ second := true }] ∧ mayIssue (.join 0) (nested false [{ second := true }]) = true ∧
    (cp base).stack = [] ∧ (cg base).two = false ∧
    (cg (otherArm {})).two = true ∧ (restingPath (cg (otherArm {}))).st = .running ∧ mayIssue (.join 0) (otherArm {}) = true ∧
    (restingPath (cg (otherArm { st := .parked 0 }))).st ≠ .running ∧ mayIssue (.join 0) (otherArm { st := .parked 0 }) = true ∧
    (restingPath (cg (otherArm { st := .ended }))).st ≠ .running := by decide
theorem witness_ThreadsEnd : mayIssue (.exit 0) (nested false [{}]) = true ∧ mayIssue (.exit 0) (nested false [{ second := true, cont := some 0x84 }]) = true ∧
    mayIssue (.exit 0) (otherArm {}) = true ∧ mayIssue (.exit 0) (otherArm { st := .parked 0x84 }) = true ∧
    (restingPath (cg (otherArm { st := .parked 0x84 }))).st = .parked 0x84 ∧ mayIssue (.exit 0) (otherArm { st := .ended }) = true ∧
    mayIssue (.exit 0) base = true := by decide
theorem witness_ExecuteMask : emask base ≠ 0 ∧ (31#7).toNat < (cg base).width ∧ mayIssue (.wrlane 0 0 0 31) base = true := by decide
theorem witness_IssueBookkeeping : mayIssue (.iadd 0 1 2 3 0) base = true ∧ (.v 1, .active) ∈ (info (.iadd 0 1 2 3 0)).writes ∧
    (info (.iadd 0 1 2 3 0)).latency ≠ 0 ∧ useMask (cg base) (emask base) (.v 1) .active ≠ 0 := by decide
/-- A header of version 1; a checking context in which v1 is pending. -/
def old : State := withHeader base fun h => { h with version := 1 }
def pending : State := setCg (withCtx fun c => { c with check := true }) { cg base with pend := [⟨.v 1, 1, 12⟩] }
def allotted (n : Nat) : State := withGroup fun g => { g with allot := n }
theorem witness_DecodeTraps : (encode (.gen 0 0 0 0)).isSome = true ∧ (ck old).hdr.version < (info (.gen 0 0 0 0)).version ∧
    wellFormed (.kclr 0 0) = false ∧ (encode (.kclr 0 0)).isSome = true ∧
    (info (.srdp 0 0 0)).priv = true ∧ superOf base = false ∧ wellFormed (.srdp 0 0 0) = true ∧ (info (.srdp 0 0 0)).version ≤ (ck base).hdr.version ∧
    overAllot (cg (allotted 1)) (.v 8) = true ∧ (.v 8, .active) ∈ (info (.iadd 0 8 0 0 0)).writes ∧ overAllot (cg (allotted 1)) (.v 7) = false ∧
    (cctx pending).check = true ∧ lateUses pending (cg pending) (emask pending) ((info (.iadd 0 2 1 1 0)).reads ++ (info (.iadd 0 2 1 1 0)).writes) ≠ [] ∧
    (∀ u ∈ (info (.iadd 0 2 1 1 0)).reads ++ (info (.iadd 0 2 1 1 0)).writes, overAllot (cg pending) u.1 = false) ∧ emask pending ≠ 0 := by decide
/-- A kernel that owns its traps and names a handler. -/
def owned : State := withHeader (withCtx fun c => { c with claims := [(trapNum .brk, 1)] }) fun h => { h with handler := 8 }
theorem witness_Traps : claimOwner (cctx owned) (trapNum .brk) = 1 ∧ (ck owned).hdr.handler ≠ 0xFFFFFFFF ∧ (cg owned).sup = false ∧
    (cb owned).kmode = false ∧ claimOwner (cctx (withCtx fun c => { c with claims := [(trapNum .brk, 3)] })) (trapNum .brk) ≠ 1 ∧ (ck base).hdr.handler = 0xFFFFFFFF ∧ (cb base).spec = false ∧
    (cb (withBlock fun b => { b with spec := true })).spec = true ∧ (cg sup).sup = true ∧ (cb svc).kmode = true := by decide
def regioned : State := setCg sup { cg sup with region := some { start := 0x80, mask := 1, live := 1 } }
theorem witness_TrapWords : mayIssue (.trap 0 65535) base = true ∧ mayIssue (.brk 0 0) base = true ∧ emask base ≠ 0 ∧
    mayIssue (.brk 0 0) (withPath fun p => { p with mask := 0 }) = true ∧ emask (withPath fun p => { p with mask := 0 }) = 0 ∧
    mayIssue (.rft 0 0) sup = true ∧ (cg sup).region = none ∧ mayIssue (.rft 0 1) regioned = true ∧ (cg regioned).region.isSome = true := by decide
/-- A kernel of a predicted shape that is not resolved. -/
def unshaped : State :=
  let s := withHeader base fun h => { h with policy := 1 }
  setHall s { s.hall with repl := { s.hall.repl with kernels := [(0, {})] } }
theorem witness_SpecialState : (∃ m : Nat → Word, ∀ th, m th = srdValue base 0 th) ∧ mayIssue (.srd 0 1 0 1) base = true ∧
    mayIssue (.srd 0 1 26 0) base = true ∧ (shapeOf base (cb base).kern).isSome = true ∧ mayIssue (.srd 0 1 19 0) base = true ∧
    (shapeOf unshaped (cb unshaped).kern).isSome = false ∧ mayIssue (.srd 0 1 6 1) unshaped = true ∧
    mayIssue (.swr 0 1 26) base = true ∧ mayIssue (.swrp 0 1 7) sup = true := ⟨⟨_, fun _ => rfl⟩, by decide⟩

/-! Waiting, memory and commands -/

def waiting (w : Wait) : State := withGroup fun g => { g with state := .waiting, pathA := { g.pathA with wait := some w } }
/-- One thread; a window of 512 bytes shared as a cluster window, 4 bytes of spill stack, 8 of constants; uniform registers given. -/
def room (regs : Map Word) : State :=
  withHeader (withGroup fun g => { g with live := 1, s := regs, x := [(0, { valid := true, limit := 65536 })]
                                          pathA := { g.pathA with mask := 1, scope := 1 } })
    fun h => { h with winbytes := 512, window := 1, spill := 128, constlen := 8, nregion := 1, regions := [(0, 1)] }
theorem room_thread (t : Nat) (h : bitOf (emask (room [])) t = true) : t = 0 := by
  have e : bitOf 1#128 t = decide (t = 0) := bits_of (f := fun t => decide (t = 0)) (by decide) (fun t l => decide_eq_false (by omega)) t
  rw [show emask (room []) = 1#128 by decide, e] at h; exact of_decide_eq_true h
def mayAccess (s : State) (sp : Space) (u : Use) (n a : Nat) : Bool :=
  a % n == 0 && (awaitsCommit s sp u [(0, a)]).isNone && match placeOf s sp u 0 a n with
    | .at m x => u == .store || !eccAt s (cg s).stores m x n
    | .bank _ => true
    | .bad _ => false
theorem may_access {sp : Space} {u : Use} {n : Nat} {f : Nat → Nat}
    (ha : accesses (room []) f = [(0, f 0)]) (h : mayAccess (room []) sp u n (f 0) = true) : MayAccess (room []) sp u n f := by
  simp only [mayAccess, Bool.and_eq_true, beq_iff_eq, Option.isNone_iff_eq_none] at h
  refine ⟨fun t ht c e => ?_, fun t ht => ?_, fun t ht hu m a e => ?_, ?_⟩
  · rw [room_thread t ht] at e; simp [e] at h
  · rw [room_thread t ht]; exact h.1.1
  · rw [room_thread t ht] at e; rw [e] at h; simpa [hu] using h.2
  · rw [ha]; exact h.1.2
theorem witness_WaitingWords : (cp (waiting (.sleep 0))).wait = some (.sleep 0) ∧ 0 ≤ (waiting (.sleep 0)).time ∧
    mayIssue (.sleep 0 1) (waiting (.sleep 0)) = true ∧ (cp base).wait = none ∧ mayIssue (.sleep 0 32767) base = true ∧
    (uniReg (room [(1, 508)]) 1).toNat % 4 = 0 ∧ (winLoc (room [(1, 508)]) (uniReg (room [(1, 508)]) 1).toNat 4).isSome = true ∧
    waitHolds (room [(1, 508)]) (.word 0 508 0) = true ∧ waitHolds (room [(1, 508)]) (.word 1 508 0) = false ∧
    mayIssue (.sleepw 0 1 1 2) (room [(1, 508)]) = true ∧
    (cp (waiting .wordMet)).wait = some .wordMet ∧ mayIssue (.sleepw 0 1 1 2) (waiting .wordMet) = true ∧
    (ck (room [])).hdr.regions[0]? = some (0, 1) ∧ 0 < (ck (room [])).hdr.nregion ∧
    (codeOffset (ck (room [])) (cp (room [])).pc).toNat / 4 = 0 ∧ (cg (room [])).two = false ∧ (cp (room [])).stack = [] ∧
    mayIssue (.region 0 0) (room []) = true ∧ mayIssue (.fence 0 5 1) (withGroup fun g => { g with ack := 1 }) = true ∧
    (cg (withGroup fun g => { g with ack := 1 })).ack ≠ 0 ∧ (cp (waiting .drained)).wait = some .drained ∧
    (cp (waiting (.fenced true 3))).wait = some (.fenced true 3) ∧ (∀ k : BitVec 2, k ≠ 3 → mayIssue (.fence 0 1 k) base = true) ∧
    mayIssue (.icinv 0 4 1) base = true ∧ mayIssue (.icinv 0 0 1) base = true ∧ mayIssue (.opfence 0) base = true := by decide
theorem witness_Loads : MayAccess (room []) .blk .load 4 (fun _ => 508) ∧ MayAccess (room []) .clu .load 4 (fun _ => 508) ∧
    MayAccess (room []) .spill .load 4 (fun _ => 0) ∧ MayAccess (room []) .die .load 4 (fun _ => 22020092) ∧
    MayAccess (room []) .const .load 4 (fun _ => 4) ∧ MayAccess (room []) .blk .load 8 (fun _ => 504) ∧
    (∀ t, ((laneReg (room []) 0 t).toNat + 4 * (127#8).toNat) % 2 ^ 32 = 508) ∧
    blkPlace (room []) .load 508 4 = .at (.win 1) 508 ∧ eccAt (room []) (cg (room [])).stores (.win 1) 508 4 = false := by
  refine ⟨may_access (by decide) (by decide), may_access (by decide) (by decide), may_access (by decide) (by decide),
    may_access (by decide) (by decide), may_access (by decide) (by decide), may_access (by decide) (by decide), fun t => by
      rw [show laneReg (room []) 0 t = 0#32 from rfl]; decide, by decide⟩
/-- A store of the group not yet performed; one performed and in the log. -/
def storing (p : PendStore) : State := withGroup fun g => { g with stores := [p] }
def pendingStore (at_ : Nat) (b : Byte) : PendStore := { mem := .ring 1, addr := at_, bytes := [b] }
theorem witness_ReadValues : (∀ i, i < 4 → earlyRead (storing (pendingStore 4095 7)) (cg (storing (pendingStore 4095 7))).view (.ring 1) (4092 + i) = false) ∧
    (seenStores (storing (pendingStore 4095 7)) 2).any (storeHits (.ring 1) 4092 4) = true ∧
    (∀ i, i < 4 → earlyRead base (cg base).view (.ring 1) (4092 + i) = false) ∧ (seenStores base 2).any (storeHits (.ring 1) 4092 4) = false ∧
    peeks base 2 (.ring 1) 4092 4 = [] ∧ (∀ e ∈ hits (.ring 1) 4092 4 base.log, mustSee 2 (cg base).born (cg base).view e = true) := by decide
theorem witness_LaneStores : MayAccess (room []) .blk .store 4 (fun _ => 508) ∧ MayAccess (room []) .clu .store 4 (fun _ => 508) ∧
    MayAccess (room []) .spill .store 4 (fun _ => 0) ∧ MayAccess (room []) .die .store 4 (fun _ => 22020092) ∧
    MayAccess (room []) .blk .store 8 (fun _ => 504) ∧ blkPlace (room []) .store 508 4 = .at (.win 1) 508 := by
  refine ⟨may_access (by decide) (by decide), may_access (by decide) (by decide), may_access (by decide) (by decide),
    may_access (by decide) (by decide), may_access (by decide) (by decide), by decide⟩
/-- A group of 64 threads, of which 0 and 32 are active. -/
def wide : State :=
  let m : Mask := 1 + 2 ^ 32
  setCg (room []) { cg (room []) with width := 64, live := m, pathA := { (cg (room [])).pathA with mask := m, scope := m } }
def between (n : Nat) : State := setCg wide { cg wide with state := .waiting, pathA := { (cg wide).pathA with wait := some (.pass n) } }
def lanes (s : State) : List (Nat × Nat) := accesses s fun t => (laneReg s 0 t).toNat
theorem witness_Atomics : MayAccess (room []) .blk .atomic 4 (fun t => (laneReg (room []) 0 t).toNat) ∧
    passNow (room []) = none ∧ lanes (room []) = [(0, 0)] ∧
    mayIssue (.atom 0 1 0 11 0) (room []) = true ∧ mayIssue (.cas 0 2 0 0) (room []) = true ∧
    passNow (between 0) = some 0 ∧ (lanes (between 0)).find? (fun e => decide (0 < e.1 / 32)) = some (32, 0) ∧
    passNow (between 1) = some 1 ∧ (∀ e ∈ lanes (between 1), e.1 / 32 ≤ 1) ∧ mayIssue (.atom 0 1 0 11 0) (between 0) = true ∧
    mayIssue (.atom 0 1 0 11 0) (between 1) = true ∧ mayIssue (.cas 0 2 0 0) (between 0) = true ∧ mayIssue (.cas 0 2 0 0) (between 1) = true ∧
    placeOf (room []) .blk .atomic 0 508 4 = .at (.win 1) 508 ∧
    (let v := performBefore (room []) 2 (.win 1) 508 4
     (∀ i, i < 4 → earlyRead v (cg v).view (.win 1) (508 + i) = false) ∧ (∀ e ∈ v.blocks, e.2.touches = []) ∧ (memOf v (.win 1)).wf = true) ∧
    (accessTrap (room []) .blk .load 4 [(0, 512)]).map TrapReq.code = some .bound ∧
    (accessTrap (room []) .blk .store 4 [(0, 0xFFFFF000)]).map TrapReq.code = some .prot ∧
    (accessTrap (room []) .blk .load 4 [(0, 2)]).map TrapReq.code = some .align := by
  exact ⟨may_access (by decide) (by decide), by decide⟩
/-- A generator of constant kind, one whose format is none; a present page. -/
def generating (x : BitVec 128) : State := withGroup fun g => { g with g := [(0, x)] }
theorem witness_GeneratorWords : genValid (genReg (generating 1) 0) = true ∧ genKind (genReg (generating 1) 0) ≠ 4 ∧
    genValid (genReg (generating 4) 0) = true ∧ genKind (genReg (generating 4) 0) = 4 ∧ mayIssue (.gen 0 0 0 0) (generating 4) = true ∧
    mayIssue (.gent 0 0 0 0) (generating 4) = true ∧ mayIssue (.gent 0 0 0 0) (generating 0x18) = true ∧
    genValid (genReg (generating 0x18) 0) = false ∧ emask (generating 0x18) ≠ 0 ∧ mayIssue (.gen 0 0 0 0) (generating 0x18) = true ∧
    (uniPair base 0).toNat < 2 ^ 56 ∧ (tlbLook base 0 0).1.isSome = true ∧
    checkLeaf base (cb base).world (tlbLook base 0 0).1 0 true true false = none ∧ (cb base).spec = false ∧
    (cb (withBlock fun b => { b with spec := true })).spec = true ∧ mayIssue (.xlate 0 0 0 1 1 0) base = true ∧
    mayIssue (.xlate 0 0 1 0 0 0) base = true := by decide
def copyImage (s : State) (kind : Nat) (f : BitVec 4) : Nat := cmdImage s 0 kind 0 f
def copySound (s : State) (i : Instr) (kind : Nat) : Bool :=
  mayIssue i s && !copyMalformed s (copyImage s kind 0) && (lateUses s (cg s) (emask s) ((cRegs (copyImage s kind 0)).map fun n => (.x n, .active))).isEmpty
def matrixSound (s : State) (i : Instr) (kind : Nat) : Bool :=
  mayIssue i s && fullGroup s && !matrixMalformed s (copyImage s kind 0) 1 && (slotError (cb s) 1).isNone
    && (lateUses s (cg s) (emask s) ((mGenRegs (copyImage s kind 0)).map fun n => (.g n, .active))).isEmpty
theorem witness_CommandWords : copySound (room [(3, 4), (5, 4)]) (.cpy 0 9 0 0 0) 0 = true ∧
    copySound (room [(2, 0x80000), (5, 4)]) (.cpyg 0 9 0 0 0) 1 = true ∧ copySound (room [(4, 0x80000), (5, 4)]) (.cpyr 0 9 0 0 0) 2 = true ∧
    copySound (room [(2, 0x80000)]) (.cpya 0 9 0 0 0) 3 = true ∧ matrixSound (room []) (.mma 0 9 0 0 0) 0 = true ∧
    matrixSound (room [(4, 0x10000), (7, 0x100)]) (.mmai 0 9 0 0 0) 1 = true ∧ matrixSound (room []) (.ldst 0 9 0 0 0) 2 = true ∧
    matrixSound (room []) (.accz 0 9 0 0 0) 3 = true ∧ matrixSound (room []) (.accrd 0 9 0 0 0) 4 = true ∧
    matrixSound (room []) (.accwr 0 9 0 0 0) 5 = true ∧ matrixSound (room [(7, 8)]) (.sacct 0 9 0 0 0) 6 = true := by decide

/-! Rings, barriers, work and services -/

def matrixRing (r : Ring) : State := setCb (room [(0, 1), (1, 64)]) { cb (room [(0, 1), (1, 64)]) with matrix := r }
def chunked : State := setCb (room [(1, 1)]) { cb (room [(1, 1)]) with chunks := [(0, 1)] }
def copyRing (r : Ring) : State := setCb (room [(0, 1), (1, 64)]) { cb (room [(0, 1), (1, 64)]) with copy := r }
/-- A ring image in the slot of the first command. -/
def published (ws : List Word) : State :=
  setCb (room []) { cb (room []) with ringMem := writeBytes [] (slotAddr false 1) (ws.flatMap fun w => bytesOfNat 4 w.toNat) }
def slotImage (s : State) : Nat := natOfWords (wordsOf 8 (homeBytes s (.ring 1) (slotAddr false 1) 32))
theorem witness_RingAppend : (cb (room [])).ringMem.wf = true ∧ ({ img := List.replicate 8 0 } : Cmd).img.length = 8 := by decide
theorem witness_TailWords : mayIssue (.tailp 0 1 0) (copyRing {}) = true ∧ mayIssue (.tailp 0 1 1) (matrixRing {}) = true ∧
    (uniReg (matrixRing {}) 1).toNat < 2 ^ 31 ∧ (uniReg (matrixRing {}) 1).toNat ≤ 64 ∧ (uniReg (copyRing {}) 1).toNat ≤ 64 ∧
    (∀ c ∈ (cb (matrixRing { tail := 1, done := 1, cmds := [{ seq := 1, phase := .done .ok }] })).matrix.cmds, cmdError c = none) ∧
    2 ^ 31 ≤ ((uniReg (copyRing { tail := 2 }) 0).toNat + 2 ^ 32 - 2 % 2 ^ 32) % 2 ^ 32 ∧
    64 < ((uniReg (copyRing { tail := 64, done := 0 }) 0).toNat + 2 ^ 32 - 2 % 2 ^ 32) % 2 ^ 32 ∧
    copyMalformed (published [0, 0, 0, 4, 0, 4, 0, 0]) (slotImage (published [0, 0, 0, 4, 0, 4, 0, 0])) = false ∧
    copyMalformed (published [15, 0, 0, 0, 0, 0, 0, 0]) (slotImage (published [15, 0, 0, 0, 0, 0, 0, 0])) = true ∧
    matrixMalformed (published [3, 0, 0, 0, 0, 0, 0, 0]) (copyImage (room []) 3 0) 1 = false ∧ fullGroup (published []) = true := by decide
theorem witness_ChunkWords : (uniReg chunked 0).toNat % 512 = 0 ∧ (uniReg chunked 1).getLsbD 0 = true ∧ 0 < (ck chunked).hdr.winbytes ∧
    Map.look (cb chunked).chunks 0 0 ≠ 0 ∧ Map.look (cb (room [(1, 1)])).chunks 0 0 = 0 ∧ mayIssue (.testc 0 2 0 1) chunked = true ∧
    mayIssue (.waitc 0 0 1) chunked = true ∧ mayIssue (.waitc 0 0 1) (matrixRing {}) = true ∧ (uniReg (matrixRing {}) 0).toNat % 512 ≠ 0 ∧
    mayIssue (.cbatch 0 2) (room []) = true ∧ back32 (cg (room [])).batch (uniReg (room []) 0) = some 0 ∧ mayIssue (.waitb 0 0) (room []) = true ∧
    (∀ c ∈ (cb (room [])).copy.cmds, cmdDone c = true) ∧ back32 (cg (copyRing {})).batch (uniReg (copyRing {}) 0) = none ∧
    (let s := copyRing { cmds := [{ grp := 2 }] }
     back32 (cg s).batch (uniReg s 2) = some 0 ∧ (∃ c ∈ (cb s).copy.cmds, (c.grp = s.cur ∧ c.batch ≤ 0) ∧ cmdDone c = false) ∧
       mayIssue (.waitb 0 2) s = true) := by decide
theorem witness_MatrixWaits : back32 (cb (matrixRing { tail := 1, done := 1 })).matrix.tail (uniReg (matrixRing { tail := 1, done := 1 }) 0) = some 1 ∧
    back32 (cb (matrixRing { tail := 1 })).matrix.tail (uniReg (matrixRing { tail := 1 }) 0) = some 1 ∧
    (cb (matrixRing { tail := 1 })).matrix.done < 1 ∧ mayIssue (.waitm 0 0) (matrixRing { tail := 1 }) = true ∧
    mayIssue (.waitm 0 0) (matrixRing { tail := 1, done := 1 }) = true ∧ back32 (cb (matrixRing {})).matrix.tail (uniReg (matrixRing {}) 0) = none ∧
    (uniReg (room []) 0).toNat = 0 ∧ (cb (room [])).matrix.tail % 2 ^ 32 < 2 ^ 31 ∧
    (64 ≤ (65 + 2 ^ 32 - (uniReg (matrixRing { tail := 65 }) 0).toNat) % 2 ^ 32 ∧ mayIssue (.mseq 0 2 0) (matrixRing { tail := 65 }) = true) ∧
    ((cb (matrixRing { tail := 64, cmds := [{ seq := 1, phase := .done .ok }] })).matrix.cmds.find? (fun c => c.seq + 63 == 64)).map Cmd.phase = some (.done .ok) ∧
    mayIssue (.mseq 0 2 0) (matrixRing { tail := 1, cmds := [{ seq := 1 }] }) = true ∧ cmdDone { seq := 1 } = false ∧
    (cb (matrixRing { tail := 1 })).matrix.cmds.find? (fun c => c.seq + 0 == 1) = none ∧
    2 ^ 31 ≤ (0 + 2 ^ 32 - (uniReg (matrixRing {}) 0).toNat) % 2 ^ 32 ∧ mayIssue (.mseq 0 2 0) (matrixRing {}) = true := by decide
theorem witness_GuardWords : (∀ w ∈ [Instr.kset 0 0 1 0, .kset 0 0 15 1, .kset 0 1 1 2], mayIssue w base = true) ∧ mayIssue (.kclr 0 15) base = true ∧
    Map.find ({} : Guard).res 0 = none ∧ Map.find ({ res := [(0, true)] } : Guard).res 0 = some true := by decide
def single : State := withGroup fun g => { g with s := [(0, 1)] }
theorem witness_BarrierWords : (cg single).two = false ∧ (cp single).wait = none ∧ (cg single).owed.contains 7 = false ∧
    bitOf ((barOf (cb single) 7).members &&& existGroups single (cb single)) (cg single).index = true ∧
    bitOf (barOf (cb single) 7).arrived (cg single).index = false ∧ (barOf (cb single) 7).filling = false ∧
    bitOf ((uniPair single 2 ++ uniPair single 0) &&& existGroups single (cb single)) (cg single).index = true ∧ (cg single).ack = 0 ∧
    (∀ i ∈ [Instr.bar 0 7, .barm 0 0 7, .arrive 0 7, .await 0 7, .barc 0, .barg 0, .barinit 0 0 7, .barrd 0 1 0 7],
      mayIssue i single = true ∧ mayIssue i (otherArm {}) = true) ∧ (cg (otherArm {})).two = true ∧
    (∀ w ∈ [Wait.barrier 7, .cluster, .grid 1], (cp (waiting w)).wait = some w ∧
      ∀ i ∈ [Instr.bar 0 7, .barm 0 0 7, .barc 0, .barg 0], mayIssue i (waiting w) = true) := by decide
/-- A context with a queue fed by the device and a host ring, its page at 0; uniform registers given. -/
def working (regs : Map Word) : State :=
  let s := setCtx base 0 { ctxOf base 0 with queues := [(15, { fed := true, enable := true })], leaves := (ctxOf base 0).leaves ++
    [{ va := 65536, cls := 1, w := true, r := true }] }
  setDev (setCg s { cg s with s := regs }) (writeBytes (writeBytes s.dev 0x9E0 [0, 0, 1, 0]) 0x9E8 [0, 0, 0, 1])
def heldBack (s : State) : State := setCb s { cb s with spec := true }
/-- Under REPLAY the next item is thread 1's, which the other arm holds; the code is one LHEAD. -/
def replayed : State :=
  let s := setKern (withGroup fun g => { g with p := [(1, 1)], two := true, pathB := { pc := 0x80, mask := 2, scope := 2 } }) 0
    { kernOf forked 0 with mode := 2, args := [0, 0, 0, 0, 0, 0, 0, 0x1000] }
  setDev s (writeBytes (writeBytes (writeBytes s.dev 0x80 [0, 0x10, 0, 0xA7]) 0x1000 [1, 0, 0, 0, 0, 0, 0, 0, 1]) 0x1040 [2, 0, 0, 0, 0, 8])
/-- A block whose held writes have not drained. -/
def undrained (regs : Map Word) : State := setCb (working regs) { cb (working regs) with effects := [.arm 0 0 0 1] }
theorem witness_LoopHeads : (0 : Mask) = (match (cp base).wait with
      | some (.item h) => h
      | _ => 0) ∧
    threadsOf 32 (emask base &&& predNeg base 0 1) = [] ∧ mayIssue (.lhead 0 0 1) base = true ∧
    (match loopHead (entered (info (.lhead 0 1 0)) forked) 0 [0] with | .done _ => true | _ => false) = true ∧ mayIssue (.lhead 0 1 0) forked = true ∧
    (match loopHead (entered (info (.lhead 0 1 0)) replayed) 0 [0] with | .wait _ _ => true | _ => false) = true ∧
    threadsOf 32 (emask forked &&& predNeg forked 1 0) = [0] ∧ itemBlocked forked 0 = false ∧
    threadsOf 32 (emask replayed &&& predNeg replayed 1 0) = [0] ∧ itemBlocked replayed 0 = true ∧
    mayIssue (.lhead 0 1 0) replayed = true ∧ (ck base).mode = 0 ∧ (cb base).qend.toNat ≤ (cb base).qnext.toNat ∧
    (cb (withBlock fun b => { b with qend := 1 })).qnext.toNat < (cb (withBlock fun b => { b with qend := 1 })).qend.toNat := by decide
theorem witness_WorkWords : (cp base).wait = none ∧ ((cb (working [])).held = [] ∧ (cb (working [])).effects = []) ∧
    (queueOf (working [(0, 5)]) 0 15).fed = true ∧ (queueOf (working [(0, 5)]) 0 15).enable = true ∧ qKind (imageAt (working [(0, 5)]) 0) = 5 ∧
    (queueTrap (working [(0, 5)]) 0 15).isNone = true ∧ queueRoom (working [(0, 5)]) 0 15 = true ∧ mayIssue (.qpush 0 0 15) (working [(0, 5)]) = true ∧
    (cb (heldBack (working []))).spec = true ∧ (queueTrap (heldBack (working [(0, 5)])) 0 15).isNone = true ∧
    mayIssue (.qpush 0 0 15) (heldBack (working [(0, 5)])) = true ∧
    qKind (imageAt (working [(0, 1)]) 0) = 1 ∧ qFence (imageAt (working [(0, 1)]) 0) = false ∧ bitsOf (imageAt (working [(0, 1)]) 0) 31 16 = 0 ∧
    mayIssue (.launch 0 0) (working [(0, 1)]) = true ∧ mayIssue (.launch 0 0) (heldBack (working [(0, 1)])) = true ∧
    childCount (working []) 0 < 256 ∧ hallFull (working []) = false ∧ mayIssue (.arm 0 3 0 15 7) base = true ∧
    ringEnabled (working []) 0 15 = true ∧ hringFull (working []) 0 15 = false ∧ (hringTrap (working []) 0 15).isNone = true ∧
    mayIssue (.hring 0 0 15 1 0) (working []) = true ∧ mayIssue (.hring 0 0 15 1 1) (working []) = true ∧
    (uniPair (working [(0, 128)]) 0).toNat % 128 = 0 ∧ (uniPair (working [(0, 128)]) 0).toNat < 2 ^ 56 ∧ mayIssue (.shape 0 0) (working [(0, 128)]) = true ∧
    mayIssue (.shape 0 0) (heldBack (working [(0, 128)])) = true ∧
    (¬ ((cb (undrained [])).spec = true ∨ ((cb (undrained [])).held = [] ∧ (cb (undrained [])).effects = []))) ∧
    ringEnabled (undrained []) 0 15 = true ∧ qKind (imageAt (undrained [(0, 1)]) 0) = 1 ∧
    (∀ i ∈ [Instr.qpush 0 0 15, .launch 0 0, .arm 0 3 0 15 7, .hring 0 0 15 1 0, .shape 0 0], mayIssue i (undrained [(0, 1)]) = true) ∧
    inKernelMode (setCg svc { cg svc with s := [(4, 0x400)] }) = true ∧ recordOk (imageAt (setCg svc { cg svc with s := [(4, 0x400)] }) 0) = true := by
  decide
def serving' (regs : Map Word) : State :=
  withHeader (setCg svc { cg svc with s := regs }) fun h => { h with winbytes := 8 }
def answering : State := setCg (waiting (.answer 7)) { cg (waiting (.answer 7)) with answered := [(7, (0, [5]))] }
def batched : State := setCtx svc 0 { ctxOf svc 0 with calls := [(0, [{ grp := 2, threads := 1 }])] }
def taken : State := setSvc (setCg svc { cg svc with s := [(0, 0x8000001F)] }) 0 { svcOf svc 0 with areas := [(31, {})] }
def faulted : State := setFaults svc 0 { seq := 1, entries := [{ words := [0] }] }
def sliced : State := setPkg base { base.pkg with slices := [(5, 1)] }
theorem witness_ServiceWords : (uniReg (room [(2, 508)]) 2).toNat + 4 ≤ (ck (room [(2, 508)])).hdr.winbytes ∧ (cb (room [])).kmode = false ∧
    mayIssue (.mapft 0 0 0) (setCg (room [(2, 508)]) { cg (room [(2, 508)]) with sup := true }) = true ∧
    inKernelMode (serving' [(2, 4)]) = true ∧ (uniReg (serving' [(2, 4)]) 2).toNat + 4 ≤ (ck (serving' [(2, 4)])).hdr.winbytes ∧
    mayIssue (.mapft 0 1 0) (serving' [(2, 4)]) = true ∧ mayIssue (.mapft 0 2 0) (serving' [(2, 4)]) = true ∧
    (cb sup).kmode = false ∧ (cb sup).spec = false ∧ (faultsOf sup (cb sup).part).entries.length < 64 ∧ mayIssue (.fqpost 0 0) sup = true ∧
    mayIssue (.fqpost 0 0) (setCg sup { cg (waiting (.faultAnswer 0 0)) with sup := true }) = true ∧
    (cp (waiting (.faultAnswer 0 0))).wait = some (.faultAnswer 0 0) ∧ (faultsOf (waiting (.faultAnswer 0 0)) 0).entries.any (fun e => e.seq == 0) = false ∧
    (faultToTake faulted 0).isSome = true ∧ mayIssue (.fqtake 0 0 1) faulted = true ∧ (faultToTake svc 0).isSome = false ∧
    (uniReg (serving' [(3, 16384)]) 3).toNat ≤ 16384 ∧ (ctxOf (serving' [(3, 16384)]) 0).st = .sealed ∧
    mayIssue (.tlbinv 0 0) (serving' [(3, 16384)]) = true ∧ (cp (serving' [])).wait = none ∧
    (cp (waiting (.copiesDone 0 1 0 [] []))).wait = some (.copiesDone 0 1 0 [] []) ∧ mayIssue (.svc 0 0 0) (heldBack base) = true ∧
    ((cb base).held = [] ∧ (cb base).effects = []) ∧ emask base ≠ 0 ∧ (Map.look (cctx base).calls (cb base).part []).length < 16 ∧
    mayIssue (.svc 0 0 0) base = true ∧ (cp answering).wait = some (.answer 7) ∧ Map.find (cg answering).answered 7 = some (0, [5]) ∧
    (takeInto batched 0).isSome = true ∧ mayIssue (.svctake 0 0 1) batched = true ∧ (takeInto svc 0).isSome = false ∧
    uniReg taken 0 = BitVec.ofNat 32 (2 ^ 31 + 31) ∧ (Map.find (svcOf taken 0).areas 31).isSome = true ∧ mayIssue (.svcdone 0 0 1) taken = true ∧
    nextSlice (endSlice sliced 0) 0 = some 5 ∧ nextSlice (endSlice base 3) 3 = none := by decide

/-! Groups, gangs and engines -/

def ended : State :=
  setCg base { cg base with state := .retired, live := 0 }
def unbound (s : State) (m : MemName) (a n : Nat) : Bool :=
  s.blocks.all fun e => e.2.touches.all fun c => c.reads.all fun x => !spanMeets e.1 e.2 m a n x
theorem unread_of {s : State} {m : MemName} {a n : Nat} (h : unbound s m a n = true) : unread s m a n := by
  simp only [unbound, List.all_eq_true, Bool.not_eq_true'] at h
  exact h
theorem witness_GroupEvents : (grpOf (waiting (.sleep 0)) 2).state = .waiting ∧
    (armOrder (grpOf (waiting (.sleep 0)) 2)).any (pathReady { waiting (.sleep 0) with cur := 2 }) = true ∧
    (let s := storing (pendingStore 4095 7)
     (grpOf s 2).stores[0]? = some (pendingStore 4095 7) ∧ (∀ q ∈ (grpOf s 2).stores.take 0, storeMeets (pendingStore 4095 7) q = false) ∧
       (∀ h ∈ s.groups, h.1 ≠ 2 → h.2.stores = []) ∧ (memOf s (.ring 1)).wf = true) ∧ unread (storing (pendingStore 4095 7)) (.ring 1) 4095 1 ∧
    canRetire ended 1 = true ∧ (ended.blocks.map Prod.fst).Nodup ∧ (∃ g ∈ (blkOf base 1).groups, (grpOf base g).state ≠ .retired ∨ (grpOf base g).ack ≠ 0) ∧
    (base.pkg.power = true) := by
  refine ⟨by decide, by decide, by decide, unread_of (by decide), by decide, by decide, ⟨2, by decide, .inl (by decide)⟩, rfl⟩
/-- A kernel with its first gang still to place, and a cluster for it. -/
def placing (cs : List Nat) : State :=
  let s := setKern base 0 { kernOf base 0 with todo := [(0, [0])] }
  setHall s { s.hall with repl := { s.hall.repl with place := cs.map fun c => (c, { kernel := 0 }) } }
def placed : State := setGang base 0 { gangOf base 0 with released := false }
def saved : State := setGang (setCg (placing [0]) { cg base with state := .preempted }) 0 { gangOf base 0 with saved := true }
def fits (s : State) (js : List Nat) : Bool := (gangFit s 0 0 js).isSome
def unread' (s : State) : State := setKern s 0 { kernOf s 0 with read := [] }
set_option maxRecDepth 8000 in
theorem witness_GangEvents : distributes (placing [0]) 0 = true ∧ (Map.look (kernOf (placing [0]) 0).todo 0 []).isEmpty = false ∧
    outranked (placing [0]) 0 0 = false ∧ dropBanks (placing [0]) = placing [0] ∧ Machine.heldBack (placing [0]) 0 0 0 = false ∧
    (kernOf (placing [0]) 0).read.contains 0 = true ∧ nextGang (placing [0]) 0 0 = some (0, placing [0]) ∧ fits (placing [0]) [0] = true ∧
    fits (placing []) [0] = false ∧ dropBanks (placing []) = placing [] ∧ nextGang (placing []) 0 0 = some (0, placing []) ∧
    (kernOf (unread' (placing [0])) 0).read.contains 0 = false ∧ outranked (unread' (placing [0])) 0 0 = false ∧
    (rankClusters (dropBanks (unread' (placing [0]))) 0 0).head? = some 0 ∧
    (Map.find placed.gangs 0).isSome = true ∧ (gangOf placed 0).released = false ∧ (gangOf placed 0).saved = false ∧
    gangError (dropBanks placed) 0 = none ∧ 1 ∈ (gangOf placed 0).blocks ∧
    2 ∈ (blkOf placed 1).groups ∧ (Map.find placed.groups 2).isSome = true ∧ (∀ d ∈ (gangOf placed 0).blocks, 2 ∈ (blkOf placed d).groups → d = 1) ∧
    (Map.find base.gangs 0).isSome = true ∧
    (gangOf base 0).saved = false ∧ (gangOf base 0).draining = false ∧ (gangOf base 0).released = true ∧
    within 0 (estimate base (gangOf base 0) .drain) = false ∧ within 100000 (estimate base (gangOf base 0) .save) = true ∧
    within 0 (estimate (withBlock fun b => { b with progress := 65535 }) (gangOf base 0) .drain) = true ∧
    (gangOf saved 0).saved = true ∧ (gangOf saved 0).released = true ∧ chooseMethod saved (gangOf saved 0) 0 ≠ .blockFlush ∧
    distributes saved 0 = true ∧ (gangOf saved 0).blocks.all (blockQuiet saved) = true ∧ Machine.heldBack saved 0 0 0 = false ∧
    (gangFit (dropBanks saved) 0 0 ((gangOf saved 0).blocks.map (gangPos (dropBanks saved)))).any (fun f =>
      (bankError (resumeGang (dropBanks saved) 0 f.1 f.2.1 f.2.2) 0).isNone) = true ∧ (grpOf saved 2).state = .preempted := by decide
/-- A kernel of a higher priority, with a gang to place, in the same partition. -/
def rivalled : State :=
  let s := setKern (placing [0]) 1 { kernOf (placing [0]) 0 with todo := [(0, [0])] }
  setHall s { s.hall with repl := { s.hall.repl with place := [(0, { kernel := 0 }), (1, { kernel := 1 })]
                                                     kernels := [(0, { origin := 0 }), (1, { origin := 0 })] } }
set_option maxRecDepth 20000 in
theorem witness_refusedImage : refuseCode (placing [0]) 0 0 ≠ 0 := by
  unfold refuseCode
  simp only
  rw [if_pos (Or.inl (by decide))]
  decide
theorem witness_outranked : outranked rivalled 1 0 = true := by decide
def copying (c : Cmd) : State :=
  setCb (room []) { cb (room []) with copy := { tail := 1, cmds := [{ c with seq := 1, img := [0x1000, 0, 0, 4, 0, 4, 0, 0] }] }, chunks := [(0, 1)] }
def moving : Cmd := { seq := 1, img := [0x1000, 0, 0, 4, 0, 4, 0, 0], phase := .started, chunks := [0] }
theorem witness_CopyEvents : copyReady (settleCopy 64 base 1) 1 = none ∧
    (copyReady (settleCopy 64 (copying { chunks := [0] }) 1) 1).isSome = true ∧ stages (copying {}) 1 (natOfWords moving.img) = false ∧
    cRemote (natOfWords moving.img) [] = false ∧ cRadd (natOfWords moving.img) = false ∧
    (blkOf (copying moving) 1).copy.cmds.find? (fun c => c.seq == 1) = some moving ∧ movesRows moving = true ∧ 0 ∈ moving.chunks ∧ selfOverlap (copying moving) 1 moving = false ∧
    (runCopy (copying moving) 1 moving ((piecesOf (natOfWords moving.img) moving).filter fun p => pieceChunk (natOfWords moving.img) p == 0)).2 = none ∧
    copyCan (copying moving) 1 moving = true ∧ cKind (natOfWords moving.img) ≠ 3 ∧
    (runCopy (copying moving) 1 moving (piecesLeft (natOfWords moving.img) moving)).2 = none ∧
    (blkOf (copying moving) 1).spec = false ∧ (cSrc (natOfWords moving.img)).space = 0 ∧ (cDst (natOfWords moving.img)).space = 0 ∧
    gangHeld (copying moving) 1 = [] ∧ (∀ k ∈ List.range 4, eccAt (copying moving) [] (.win 1) k 1 = false ∧ earlyRead (copying moving) (grpOf (copying moving) moving.grp).view (.win 1) k = false) := by
  decide
def addend : RaddWord := { pa := 256, key := 1, val := some 1 }
def contribution : Contribution := { words := [addend], turn := { pa := 260, key := 1 }, want := 1 }
def contributed (t : BitVec 8) (c : Contribution) : State :=
  let s := setLinks base { base.links with contribs := [c] }
  setDev s (writeBytes s.dev 260 [t])
def gone (c : Contribution) : State := setCtx (contributed 1 c) 0 { ctxOf base 0 with st := .teardown }
def held (own : Own) : State :=
  { withBlock (fun b => { b with held := [{ seq := 1, key := 1, addr := 65532, data := [1, 2, 3, 4] }] }) with own := [(0, own)] }
def effective : State := withBlock fun b => { b with effects := [.arm 0 0 0 1] }
def getting : State := setLinks base { base.links with src := [{ kind := 1, blk := 1 }] }
theorem witness_OrderedReductions : (contributed 0 contribution).links.contribs[0]? = some contribution ∧ contribution.words = [addend] ∧
    contribDead (contributed 0 contribution) contribution = false ∧ (homeWord (contributed 0 contribution) .dev 260).toNat ≠ 1 ∧
    contribDead (contributed 1 contribution) contribution = false ∧ (homeWord (contributed 1 contribution) .dev 260).toNat = 1 ∧
    raddFault (contributed 1 contribution) contribution = none ∧ (raddFault (contributed 1 contribution) { contribution with words := [{ addend with key := 2 }] }).isSome = true ∧
    contribDead (gone { contribution with remote := some (1, 0) }) { contribution with remote := some (1, 0) } = true ∧
    (contributed 1 contribution).dev.wf = true ∧ (256 + 4 ≤ 260 ∨ 260 + 4 ≤ 256) ∧ unread (contributed 1 contribution) .dev 256 4 ∧
    unread (contributed 1 contribution) .dev 260 4 := by
  refine ⟨by decide, by decide, by decide, by decide, by decide, by decide, by decide, by decide, by decide, by decide, by decide,
    unread_of (by decide), unread_of (by decide)⟩
theorem witness_HeldWrites :
    (cb (held {})).spec = false ∧ (gangOf (held {}) 0).saved = false ∧ (cb (held {})).trapped = false ∧ getUnderWay (held {}) 1 = false ∧
    getUnderWay getting 1 = true ∧
    (nextHeld (cb (held { key := 1, world := 1 }))).map HeldEntry.seq = some 1 ∧ (ownOf (held { key := 1, world := 1 }) 0).world = (cb (held {})).world ∧
    (ownOf (held { key := 2, world := 1 }) 0).key ≠ 1 ∧ unread (held { key := 1, world := 1 }) .dev 65532 4 ∧ (held {}).dev.wf = true ∧
    (cb effective).held = [] ∧ (cb effective).effects = [.arm 0 0 0 1] ∧
    (performEffect (setBlk effective 1 { cb effective with effects := [] }) 0 0 (.arm 0 0 0 1)).isSome = true ∧
    (cb (heldBack base)).spec = true := by
  refine ⟨by decide, by decide, by decide, by decide, by decide, by decide, by decide,
    by decide, unread_of (by decide), by decide, by decide, by decide, by decide, by decide⟩
def matrixCmd (kind : Word) : Cmd := { seq := 1, img := [kind, 0, 0, 0, 0, 0, 0, 0], phase := .started }
def computing (kind : Word) : State :=
  setCb (room []) { cb (room []) with matrix := { tail := 1, cmds := [matrixCmd kind] }, touches := [{ seq := 1, st := 1 }] }
def queuedMatrix : State := setCb (room []) { cb (room []) with matrix := { tail := 1, cmds := [{ matrixCmd 3 with phase := .queued }] } }
set_option maxRecDepth 8000 in
theorem witness_MatrixCommands : (∀ a ∈ List.range 4, hits (.win 1) a 4 (computing 0).log = []) ∧ (matrixNext queuedMatrix 1).isSome = true ∧
    (blkOf (computing 0) 1).matrix.cmds.find? (fun c => c.seq == 1) = some (matrixCmd 0) ∧ cKind (natOfWords (matrixCmd 0).img) = 0 ∧
    (blkOf (computing 2) 1).matrix.cmds.find? (fun c => c.seq == 1) = some (matrixCmd 2) ∧ cKind (natOfWords (matrixCmd 2).img) = 2 ∧
    (blkOf (computing 3) 1).matrix.cmds.find? (fun c => c.seq == 1) = some (matrixCmd 3) ∧ cKind (natOfWords (matrixCmd 3).img) = 3 ∧
    (blkOf (computing 0) 1).touches.find? (fun t => t.seq == 1) = some { seq := 1, st := 1 } ∧
    rivals (blkOf (computing 0) 1) { seq := 1, st := 1 } = [] ∧ matrixEcc (computing 0) (blkOf (computing 0) 1) 1 { seq := 1, st := 1 } = none ∧
    (blkOf (computing 0) 1).slots.wf = true ∧ mGenSide (natOfWords (matrixCmd 0).img) 3 = none ∧ mGenSide (natOfWords (matrixCmd 0).img) 5 = none ∧
    (endpointAt (natOfWords (matrixCmd 2).img) 3).space = 0 := by decide

/-! Queues, contexts, the package, the links and the hall -/

/-- Queue 0 of context 0, its ring in the context's first page, with one command image in it. -/
def queued (x : Queue) (img : Nat) : State :=
  let s := withCtx fun c => { c with queues := [(0, x)] }
  setDev s (writeBytes s.dev 0x4000 (bytesOfNat 64 img))
def ready : Queue := { st := .running, base := 0x4000, tail := 1 }
def waitImg (v : Nat) : Nat := 3 + 2 ^ 64 * 0x8000 + 2 ^ 128 * v
def copyImg : Nat := 2 + 2 ^ 64 * 0x8000 + 2 ^ 128 * 0x9000 + 2 ^ 192 * 64
def signalImg : Nat := 4 + 2 ^ 64 * 0x8000 + 2 ^ 128 * 5 + 2 ^ 192
def graphImg : Nat := 5 + 2 ^ 64 * 0x8000 + 2 ^ 136
def begun (x : Queue) (img : Nat) : State :=
  putQueue (queued x img) 0 0 { x with st := .running, head := 1, cmds := [{ seq := 0, img := imageWords img }] }
set_option maxRecDepth 8000 in
theorem witness_QueueCommands : canStart base 0 0 = false ∧ canStart (queued ready (waitImg 0)) 0 0 = true ∧
    commandError (queued ready (waitImg 0)) 0 false (cmdImg (queued ready (waitImg 0)) 0 0 0) false = 0 ∧
    waitOk (queued ready (waitImg 0)) 0 (waitImg 0) = true ∧ waitOk (begun ready (waitImg 0)) 0 (waitImg 0) = true ∧
    canStart (queued ready (waitImg 1)) 0 0 = true ∧ waitOk (queued ready (waitImg 1)) 0 (waitImg 1) = false ∧
    commandError (queued ready (waitImg 1)) 0 false (waitImg 1) false = 0 ∧
    canStart (queued { ready with st := .stalled } (waitImg 0)) 0 0 = true ∧ qKind (waitImg 0) = 3 ∧
    canStart (queued ready (waitImg 0 + 2 ^ 64)) 0 0 = true ∧ commandError (queued ready (waitImg 0 + 2 ^ 64)) 0 false (waitImg 0 + 2 ^ 64) false ≠ 0 ∧
    canStart (queued ready signalImg) 0 0 = true ∧ commandError (queued ready signalImg) 0 false signalImg false = 0 ∧ qKind signalImg = 4 ∧
    vaMem (begun ready signalImg) 0 0x8000 = some (.dev, 0x8000) ∧
    canStart (queued ready graphImg) 0 0 = true ∧ commandError (queued ready graphImg) 0 false graphImg false = 0 ∧ qKind graphImg = 5 ∧
    (queueOf (begun ready signalImg) 0 0).st ≠ .off ∧
    (∃ r ∈ (queueOf (begun ready signalImg) 0 0).cmds, r.seq = 0 ∧ r.out = none) := by decide
/-- A kernel image of one role, 32 threads and two words, with its checksum. -/
def headed : State :=
  let s := queued ready (1 + 2 ^ 64 * 0x8000 + 2 ^ 160 + 2 ^ 192 + 2 ^ 208)
  setDev s (writeBytes s.dev 0x8000 (bytesOfNat 128 0x42A994D500000000000000000000000000000000000000000000000000000000FFFFFFFF000000880000000000000000000000000000000000000000000000000002010000000000000000000000008800000000000000880000000000000088000000020000008000000000000000000000000000010020000100034942594B))
set_option maxRecDepth 8000 in
theorem witness_launch : canStart headed 0 0 = true ∧ qKind (cmdImg headed 0 0 0) = 1 ∧
    commandError headed 0 false (cmdImg headed 0 0 0) false = 0 := by decide +kernel
set_option maxRecDepth 8000 in
theorem witness_QueueCopies : canStart (queued ready copyImg) 0 0 = true ∧ qKind copyImg = 2 ∧
    commandError (queued ready copyImg) 0 false (cmdImg (queued ready copyImg) 0 0 0) false = 0 ∧
    vaMem (queued ready copyImg) 0 (0x9000 + 64 * 0) = some (.dev, 0x9000) ∧
    (∀ j < 64, vaMem (queued ready copyImg) 0 (0x8000 + 64 * 0 + j) = some (.dev, 0x8000 + j) ∧
      eccAt (queued ready copyImg) [] .dev (0x8000 + j) 1 = false ∧ earlyRead (queued ready copyImg) {} .dev (0x8000 + j) = false) := by decide
def graphed (g : Graph) (img : Nat) : State :=
  let s := withCtx fun c => { c with graphs := [(0, g)] }
  setDev s (writeBytes s.dev 0x8000 (bytesOfNat 64 img))
def free255 : Nat := 255 * 2 ^ 16 + 255 * 2 ^ 24
def running : Graph := { running := true, array := 0x8000, nodes := 1, limit := 1 }
def condNode (st : Nat) : Graph := { running with inRun := true, list := [{ img := imageWords (6 + free255), st := st }] }
set_option maxRecDepth 8000 in
theorem witness_GraphRuns : (graphOf (graphed running free255) 0 0).running = true ∧ (ctxOf (graphed running free255) 0).st = .sealed ∧
    (bitsOf (natOfBytes (vaRead (graphed running free255) 0 0x8000 64)) 23 16 = 255 ∧
      bitsOf (natOfBytes (vaRead (graphed running free255) 0 0x8000 64)) 31 24 = 255) ∧
    bitsOf (natOfBytes (vaRead (graphed running 0) 0 0x8000 64)) 23 16 = 0 ∧
    nodeReady (graphed (condNode 1) 0) 0 0 0 = false ∧ nodeReady (graphed (condNode 0) 0) 0 0 0 = true ∧
    qKind (natOfWords (imageWords (6 + free255))) = 6 ∧ commandError (graphed (condNode 1) 0) 0 true (6 + free255) false = 0 ∧
    commandError (graphed (condNode 1) 0) 0 true (6 + free255 + 2 ^ 68) false ≠ 0 := by decide
def ended' (r : RunCmd) : State := queued { ready with head := 1, cmds := [r] } (waitImg 0)
def finished : RunCmd := { seq := 0, img := imageWords (waitImg 0), out := some 0, recorded := true }
def recording (bs : List Byte) : State :=
  let s := withCtx fun c => { c with records := [{ ring := 1, words := [1, 2, 3, 4] }], rings := [(1, { prod := 16 })] }
  setDev s (writeBytes s.dev 0x828 bs)
set_option maxRecDepth 8000 in
theorem witness_QueueCompletion :
    (queueOf (ended' finished) 0 0).cmds.find? (fun r => r.seq == 0 && r.out.isSome && r.recorded && !r.fin) = some finished ∧
    finished.out = some 0 ∧ (queueOf (ended' finished) 0 0).done = 0 ∧
    (queueOf base 0 0).cmds.find? (fun r => r.seq == 0 && r.out.isSome && r.recorded && !r.fin) = none ∧
    ((graphOf (graphed { condNode 1 with list := [{ st := 1, out := some 0, recorded := true }] } 0) 0 0).list.getD 0 {}).st = 1 ∧
    (queueOf (queued { closing := true } 0) 0 0).closing = true ∧ (queueOf (queued { closing := true } 0) 0 0).latched = false ∧
    (queueOf base 0 0).closing = false ∧ (ctxOf (recording []) 0).records[0]? = some { ring := 1, words := [1, 2, 3, 4] } ∧
    (tryRecord (recording []) 0 1 [1, 2, 3, 4]).isSome = true ∧ tryRecord (recording [0, 0, 0, 1]) 0 1 [1, 2, 3, 4] = none := by decide
def notified (st : CtxState) (cfg : List Byte) (tail : List Byte) (x : Queue) : State :=
  let s := withCtx fun c => { c with st := st, fn := 3, slot := 0, queues := [(2, x)] }
  setDev s (writeBytes (writeBytes s.dev 0x488 cfg) 0x490 tail)
set_option maxRecDepth 8000 in
theorem witness_Notifications : (setPkg base { base.pkg with update := some {} }).pkg.update.isSome = true ∧ base.pkg.update = none ∧
    (setPkg base { base.pkg with noWing := true }).pkg.noWing = true ∧ base.pkg.noWing = false ∧
    (ctxOf (notified .sealed [0, 1] [1] {}) 0).st = .sealed ∧
    (queueOf (notified .sealed [0, 1] [1] { st := .halted }) 0 2).st = .halted ∧ (queueOf (notified .sealed [0, 1] [1] { st := .halted }) 0 2).closing = false ∧
    pageRead (notified .sealed [0, 1] [1] { closing := true }) 0 0x488 4 / 256 % 2 = 1 ∧
    (queueOf (notified .sealed [0, 1] [1] { closing := true }) 0 2).closing = true ∧
    notifyCtx base 9 9 = none ∧ notifyCtx (notified .sealed [0, 1] [1] {}) 3 0 = some 0 ∧
    notifyCtx (notified .assembling [] [] {}) 3 0 = some 0 ∧ notifyCtx (notified .suspended [] [] {}) 3 0 = some 0 ∧
    pageRead (notified .sealed [0, 1] [1] {}) 0 0x488 4 / 256 % 2 = 1 ∧ pageRead (notified .sealed [0, 1] [1] {}) 0 0x488 4 / 128 % 2 = 0 ∧
    (queueOf (notified .sealed [0, 1] [1] {}) 0 2).st = .off ∧ pageRead (notified .sealed [0, 1] [1] {}) 0 0x490 8 = 1 ∧
    pageRead (notified .sealed [] [] ready) 0 0x488 4 / 256 % 2 = 0 ∧ (queueOf (notified .sealed [] [] ready) 0 2).st ≠ .off := by decide
/-- Function 3's logical device, its context 5 allotted, the life cycle DEPLOYED. -/
def deployed (cs : Map Ctx) : State := { base with ctxs := cs, pkg := { base.pkg with life := .deployed, allots := [(5, 3)], world := [] } }
def device (st : CtxState) : State := deployed [(0, { st := st, world := 1, keys := [1], secrets := [0], parts := 1, fn := 3, ld := 3, leaves := (ctxOf base 0).leaves })]
theorem witness_CommandsServed : (fnOf (setFn (deployed []) 3 { busy := true }) 3).busy = true ∧ (deployed []).pkg.waitingCmds.head? = none ∧
    (deployed []).pkg.update.map Update.fn ≠ some 3 ∧ (ctxOf (deployed []) 0).suspendFn ≠ some 3 ∧
    coreBusy (setPkg (deployed []) { (deployed []).pkg with update := some { fn := 0 } }) = true ∧ base.pkg.life ≠ .deployed ∧
    Serves (deployed []) 3 ∧ (1024 : Addr).toNat / 2 ^ 10 ≠ 0 ∧ isCommand 3 0 0 0 1024 (.create 3 0 0 0 1024) :=
  ⟨by decide, by decide, by decide, by decide, by decide, by decide, ⟨by decide, by decide, by decide, by decide, by decide⟩, by decide, .inl rfl⟩
set_option maxRecDepth 8000 in
theorem witness_ContextCreation : Serves (deployed []) 3 ∧ namedBits (argsOf 1 1 0 5) 0x33F 0xFFFFFF 0x7F 0x3FF = true ∧
    namedBits (argsOf 0 0 65 5) 0x33F 0xFFFFFF 0x7F 0x3FF = true ∧ namedBits (argsOf 2 1 64 5) 0x33F 0xFFFFFF 0x7F 0x3FF = true ∧
    partsOf (1 : Addr).toNat = [0] ∧ Map.look (deployed []).pkg.world 0 0 = 0 ∧
    Map.look (setPkg (deployed []) { (deployed []).pkg with world := [(0, 2)] }).pkg.world 0 0 = 2 ∧
    (Map.look { deployed [] with ldevs := [(3, { vfs := [64] })] }.ldevs 3 {}).vfs.contains 64 = true ∧
    (Map.look (deployed []).ldevs 3 {}).vfs.contains 64 = false ∧
    (∀ m < 256, (deployed []).hall.repl.members.getLsbD m = false) ∧
    Map.find (deployed []).pkg.allots 5 = some 3 ∧ Map.find (deployed []).pkg.allots 6 ≠ some 3 ∧ Map.find (deployed []).ctxs 5 = none ∧
    1 ≤ (freeKeys (deployed [])).length ∧ freeSlotOf (deployed []) 3 = some 0 := by
  refine ⟨⟨by decide, by decide, by decide, by decide, by decide⟩, by decide, by decide, by decide, by decide, by decide, by decide, by decide, by decide,
    by decide, by decide, by decide⟩
def mapping (d : Nat) : Leaf := proposal (argsOf 0 0x100000 (BitVec.ofNat 64 d) 0x106)
set_option maxRecDepth 8000 in
theorem witness_ContextMaps : Serves (device .assembling) 3 ∧ Holds (device .assembling) 3 0 .assembling ∧
    (bitsOf 1 15 8 = 0 ∧ bitsOf 1 5 4 ≠ 3 ∧ bitsOf 1 31 16 ≤ 16384 ∧ bitsOf 1 3 0 = (ctxOf (device .assembling) 0).keys.length) ∧
    bitsOf 2 3 0 ≠ (ctxOf (device .assembling) 0).keys.length ∧ namedBits (argsOf 0 0x100000 0x10000 0x106) 0x3FF (2 ^ 64 - 1) (2 ^ 64 - 1) 0x3FFCE = true ∧
    mapStatus (serving (device .assembling) 3 0 0x100000 0x10000 0x106) 0 (ctxOf (device .assembling) 0) (mapping 0x10000) = 0 ∧
    leafFrames (mapping 0x10000) = [1] ∧
    mapStatus (serving (device .assembling) 3 0 0x100000 0x8000 0x106) 0 (ctxOf (device .assembling) 0) (mapping 0x8000) ≠ 0 ∧
    walk (device .assembling) 0 0x100000 = none ∧ (walk (device .assembling) 0 0).isSome = true := by
  refine ⟨by unfold Serves; decide, by unfold Holds; decide, ?_⟩
  decide
theorem witness_ContextLives : Serves (device .assembling) 3 ∧ Holds (device .assembling) 3 0 .assembling ∧ Holds (device .sealed) 3 0 .sealed ∧
    Holds (device .suspended) 3 0 .suspended ∧ gangsOf { device .sealed with gangs := [] } 0 = [] ∧
    (walk (device .assembling) 0 0).any (fun l => leafPresent l && l.r && l.w && decide (l.cls ≤ 1)) = true ∧
    walk (device .assembling) 0 0x100000 = none ∧ (∀ q, (queueOf (device .assembling) 0 q).latched = false) ∧
    (ctxOf (device .teardown) 0).st = .teardown ∧ ((device .teardown).ctxs.map Prod.fst).Pairwise (· < ·) := by
  refine ⟨by unfold Serves; decide, by unfold Holds; decide, by unfold Holds; decide, by unfold Holds; decide, by decide, by decide, by decide,
    fun q => rfl, by decide, by decide⟩
/-- The record that CKPT writes for a suspended context without blocks: 72 bytes. -/
def suspendedCtx : State := { device .suspended with gangs := [], blocks := [], groups := [] }
set_option maxRecDepth 8000 in
theorem witness_Checkpoints : Serves suspendedCtx 3 ∧ Holds suspendedCtx 3 0 .suspended ∧
    recordBytes (serving suspendedCtx 3 0 0x4000 72 0) 0 = 72 ∧ rangeMapped (serving suspendedCtx 3 0 0x4000 72 0) 0 0x4000 72 true = true ∧
    rangeMapped (serving suspendedCtx 3 0 0x100000 72 0) 0 0x100000 72 true = false ∧
    restoreStatus (ctxOf suspendedCtx 0) (vaRead (serving suspendedCtx 3 0 0x4000 0 0) 0 0x4000 64) ≠ 0 := by
  refine ⟨by unfold Serves; decide, by unfold Holds; decide, by decide, by decide, by decide, ?_⟩
  unfold restoreStatus
  simp only
  rw [if_pos (Or.inl (by decide))]
  decide
theorem length_bytesOfNat (n x : Nat) : (bytesOfNat n x).length = n := by
  induction n generalizing x with
  | zero => rfl
  | succ n ih => simp [bytesOfNat, ih]
theorem natOfBytes_bytesOfNat (n x : Nat) : natOfBytes (bytesOfNat n x) = x % 256 ^ n := by
  induction n generalizing x with
  | zero => simp [bytesOfNat, natOfBytes, Nat.mod_one]
  | succ n ih =>
    simp only [bytesOfNat, natOfBytes, ih, BitVec.toNat_ofNat]
    exact (Nat.pow_succ' ▸ Nat.mod_mul (a := 256) (b := 256 ^ n) (x := x)).symm
/-- A record that restores: the right mark, version, world, step and size, under the tag of its key, whatever the tags are. -/
theorem witness_restores : ∃ bs : List Byte, bs.length = 64 ∧ restoreStatus (ctxOf suspendedCtx 0) bs = 0 := by
  let h : List Byte := bytesOfNat 4 0x4B435043 ++ bytesOfNat 2 1 ++ bytesOfNat 2 1 ++ bytesOfNat 40 0
  let t : List Byte := bytesOfNat 16 (Config.recordTag 0 (h ++ [])).toNat
  have lt : t.length = 16 := length_bytesOfNat ..
  have lh : h.length = 48 := by decide
  have e : (h ++ t).take 48 ++ (h ++ t).drop 64 = h ++ [] := by
    rw [List.take_left' lh, List.drop_eq_nil_of_le (by simp [lh, lt])]
  have f : fieldAt (h ++ t) 48 16 = (Config.recordTag 0 (h ++ [])).toNat := by
    have := (Config.recordTag 0 (h ++ [])).isLt
    rw [fieldAt, List.drop_left' lh, List.take_of_length_le (by omega), natOfBytes_bytesOfNat]
    omega
  have g (i n : Nat) (hi : i + n ≤ 48) : fieldAt (h ++ t) i n = fieldAt h i n := by
    rw [fieldAt, fieldAt, List.drop_append_of_le_length (by omega), List.take_append_of_le_length (by simp; omega)]
  refine ⟨h ++ t, by simp [lh, lt], ?_⟩
  unfold restoreStatus
  rw [f, e, g 0 4 (by decide), g 4 2 (by decide), g 6 1 (by decide), g 40 8 (by decide), g 32 8 (by decide), g 28 4 (by decide)]
  rw [if_neg, if_neg (by decide), if_neg (by decide), if_neg (by decide)]
  simp only [show (ctxOf suspendedCtx 0).secrets = [0] from rfl, List.any_cons, beq_self_eq_true, Bool.true_or]
  decide
theorem witness_Claims : Serves (device .sealed) 3 ∧ Holds (device .sealed) 3 0 .sealed ∧ claimClass 0 = false ∧ claimClass 1 = true ∧
    CtxState.sealed ∈ liveStates ∧ ownerOf (ctxOf (device .sealed) 0) 15 = 0 ∧ claimClass 15 = true ∧ ownerOf (ctxOf (device .sealed) 0) 1 = 1 ∧
    ownerOf (ctxOf (setClaim (device .sealed) 0 1 2) 0) 1 = 2 ∧ Holds (setClaim (device .sealed) 0 1 2) 3 0 .sealed ∧
    Serves (setClaim (device .sealed) 0 1 2) 3 := by
  refine ⟨by unfold Serves; decide, by unfold Holds; decide, by decide, by decide, by decide, by decide, by decide, by decide, by decide,
    by unfold Holds; decide, by unfold Serves; decide⟩
def windowed : State := { deployed [] with ldevs := [(0, { windows := [(0, 4096)] })] }
def trainingPort (p : Port) : State := setPort base 2 p
theorem witness_Updates : Serves windowed 0 ∧ namedBits (argsOf 0 64 2 0) (2 ^ 64 - 1) 0xFFFFFFFF 0x33 0 = true ∧
    namedBits (argsOf 0 64 3 0) (2 ^ 64 - 1) 0xFFFFFFFF 0x33 0 = true ∧ Serves (deployed []) 3 ∧
    ((Map.look windowed.ldevs 0 {}).windows.any fun w => decide (w.1 ≤ 0) && decide (0 + 64 ≤ w.1 + w.2)) = true ∧
    ((Map.look windowed.ldevs 0 {}).windows.any fun w => decide (w.1 ≤ 4096) && decide (4096 + 64 ≤ w.1 + w.2)) = false ∧
    portsQuiet windowed = true ∧ portsQuiet (trainingPort { st := .training }) = false ∧
    (setPkg base { base.pkg with update := some { fn := 3 } }).pkg.update = some { fn := 3 } ∧
    (∀ kind < 3, ∀ img, Config.signatureOk windowed.pkg.keyHash 0 img = true → Config.imageKind img = kind → imageOk windowed kind img = true) ∧
    (∀ kind img, Config.signatureOk windowed.pkg.keyHash 0 img = false → imageOk windowed kind img = false) ∧
    (∀ img, Config.imageTable img = (setPkg windowed { windowed.pkg with tableMajor := Config.imageTable img }).pkg.tableMajor) ∧
    (setPkg base { base.pkg with standbyDown := true }).pkg.standbyDown = true ∧ base.pkg.standbyDown = false ∧ base.pkg.noWing = false ∧
    imageOf windowed 2 = [] ∧ imageOf (setPkg base { base.pkg with secImage := [1] }) 2 ≠ [] := by
  refine ⟨by unfold Serves; decide, by decide, by decide, by unfold Serves; decide, by decide, by decide, by decide, by decide, by decide,
    fun kind _ img a b => ?_, fun kind img a => by simp [imageOk, a], fun _ => rfl, by decide⟩
  simp [imageOk, a, b, show windowed.pkg.minVersion = 0 from by decide]
theorem witness_Attestation : base.pkg.life ≠ .deployed ∧ (device .sealed).pkg.life = .deployed ∧
    (ctxOf (device .sealed) 0).ld = fnDevice (device .sealed) 3 ∧ (ctxOf (device .sealed) 0).st = .sealed ∧ (device .sealed).pkg.idLeaf < 2 ^ 20 ∧
    (device .sealed).pkg.attLeaf < 2 ^ 16 ∧ 2 ^ 20 ≤ (setPkg (device .sealed) { (device .sealed).pkg with idLeaf := 2 ^ 20 }).pkg.idLeaf ∧
    2 ^ 16 ≤ (setPkg (device .sealed) { (device .sealed).pkg with attLeaf := 2 ^ 16 }).pkg.attLeaf := by decide
theorem witness_PackageState : base.pkg.life ∈ [Life.raw] ∧ (deployed []).pkg.life ∈ [Life.deployed] ∧
    (∀ e ∈ (deployed []).ctxs, e.2.st = .free) ∧ ¬ (∀ e ∈ (device .sealed).ctxs, e.2.st = .free) ∧
    base.hall.recov.halted = false ∧ (portAt base 24).sendQ = [] ∧ (Map.find base.ctxs 0).isSome = true ∧
    partBusy base 0 = true ∧ partBusy base 1 = false ∧ claimClass 0x11 = true ∧ claimClass 0x12 = false ∧ claimClass 0x23 = true ∧
    claimClass 0x24 = false ∧ ownerOf (ctxOf base 0) 15 = 0 ∧
    Map.find (ctxOf (withCtx fun c => { c with left := [(3, -2)] }) 0).left (budgetKey 0 3) = some (-2) := by decide
/-- Context 0 after corrected errors in its partition. -/
def correctedCtx (n : Nat) : State := withCtx fun c => { c with corrected := List.replicate n 0 }
theorem corrected_of (n : Nat) : correctedIn (correctedCtx n) 0 = n := by
  have ht : recent (correctedCtx n) 0 = true := by
    rw [recent, show (correctedCtx n).time = 0 from (by decide : base.time = 0)]; decide
  rw [correctedIn, show (ctxOf (correctedCtx n) 0).corrected = List.replicate n 0 from rfl, List.filter_replicate, if_pos ht, List.length_replicate]
theorem witness_HostAccesses : base.dev.wf = true ∧ unread base .dev (24 * 2 ^ 35 - 4) 4 ∧
    24 * 2 ^ 35 - 4 + 4 ≤ 24 * 2 ^ 35 ∧ 24 * 2 ^ 35 < 24 * 2 ^ 35 - 3 + 4 ∧ (∀ k < 4, eccAt base [] .dev (0 + k) 1 = false) ∧
    hostMay base 0 = true ∧ hostMay base 65536 = false ∧ (walk base 0 0).isSome = true ∧ walk base 0 0x100000 = none ∧
    (Map.find base.ctxs 0).isSome = true ∧
    256 < correctedIn (correctedCtx 257) 0 ∧ correctedIn (correctedCtx 256) 0 ≤ 256 := by
  refine ⟨by decide, unread_of (by decide), by decide, by decide, by decide, by decide, by decide, by decide, by decide, by decide, ?_, ?_⟩
  · exact Nat.lt_of_lt_of_eq (by decide) (corrected_of 257).symm
  · exact Nat.le_of_eq (corrected_of 256)
def flipping (o : Own) : State := setOwn (device .sealed) 0 o
theorem witness_BiasFlips : (fnOf (device .sealed) 3).flipst ≠ 1 ∧ (fnOf (setFn base 3 { flipst := 1 }) 3).flipst = 1 ∧
    flipOwned base 3 0 0 = false ∧ flipOwned (flipping { key := 1, world := 1, use := 2 }) 3 0 0 = true ∧
    bitsOf (2 ^ 63) 63 63 = 1 ∧ bitsOf (2 ^ 63) 51 16 = 0 ∧ bitsOf (2 ^ 63) 9 0 = 0 ∧
    flipOwned (flipping { key := 1, world := 1, use := 2, bias := 1 }) 3 0 0 = true ∧
    ({ base with flips := [{ fn := 3, frame := 0, cmds := [(1, 0)] }] } : State).flips.find? (fun x => x.frame == 0) = some { fn := 3, frame := 0, cmds := [(1, 0)] } ∧
    flipReady base { fn := 3, frame := 0, cmds := [(1, 0)] } = true ∧
    flipReady (setCb base { cb base with copy := { tail := 1, cmds := [{ phase := .started }] } }) { fn := 3, frame := 0, cmds := [(1, 0)] } = false ∧
    hostPages base 0 0 65536 = [] ∧ ({ base with ats := [{ cmds := [(1, 0)] }] } : State).ats[0]? = some { cmds := [(1, 0)] } := by decide
def hostLeaf : Leaf := { va := 0x100000, frame := 0, cls := 1, r := true, w := true }
def copyingHost : State :=
  setCb (withCtx fun c => { c with leaves := [hostLeaf] })
    { cb base with copy := { tail := 1, cmds := [{ img := [0x1000, 0, 0x100000, 4, 0, 4, 0, 0], phase := .started, touched := [16] }] } }
theorem witness_AtsInvalidations : (((hostPages copyingHost 0 0 65536).filter fun p => p.2.2).flatMap fun p =>
    touchingCopies copyingHost p.1 p.2.1 1).eraseDups ≠ [] ∧ hostPages base 0 0 65536 = [] ∧
    ({ base with ats := [{ ops := [(1, 5)] }] } : State).ats[0]? = some { ops := [(1, 5)] } ∧ base.ats[0]? = none := by decide
theorem witness_PortStates : (portAt base 2).st = .down ∧ (portAt (trainingPort { st := .training }) 2).st = .training ∧
    (portAt (trainingPort { st := .training, fails := 7 }) 2).fails = 7 ∧ (portAt base 24).sendQ = [] ∧
    isMember (setHall base { base.hall with repl := { base.hall.repl with members := 1 } }) = true ∧ (portAt (trainingPort { fails := 7 }) 2).fails = 7 ∧
    linkUp (portAt (trainingPort { st := .up }) 2) = true ∧ linkUp (portAt (trainingPort { st := .degraded, lanes := 6 }) 2) = true ∧
    linkUp (portAt base 2) = false ∧ (portAt (trainingPort { st := .retired }) 2).st = .retired := by decide
def arriving (kind vc : Nat) (lseq dst : Nat) : Flit := { kind := kind, vc := vc, lseq := lseq, dst := dst, src := 1 }
/-- A flit under its CRC, and one under another. -/
theorem witness_crc (fl : Flit) : { fl with crc := flitCrc fl }.crc = flitCrc { fl with crc := flitCrc fl } ∧
    { fl with crc := flitCrc fl + 1 }.crc ≠ flitCrc { fl with crc := flitCrc fl + 1 } :=
  ⟨by unfold flitCrc; rfl, by rw [show flitCrc { fl with crc := flitCrc fl + 1 } = flitCrc fl by unfold flitCrc; rfl]; simp⟩
def upPort : State := trainingPort { st := .up }
def nowTaken (s : State) (p : Nat) (fl : Flit) : State :=
  let u := takeLack s p fl
  setPort u p { portAt u p with rxSeq := (portAt u p).rxSeq + 1 }
theorem witness_LinkFlits : linkUp (portAt base 2) = false ∧ (portAt base 2).st ≠ .fenced ∧
    linkUp (portAt upPort 2) = true ∧ (portAt (trainingPort { st := .fenced }) 2).st = .fenced ∧
    (arriving 7 1 1 0).lseq = (portAt (takeLack upPort 2 (arriving 7 1 1 0)) 2).rxSeq ∧
    (arriving 7 1 9 0).lseq ≠ (portAt (takeLack upPort 2 (arriving 7 1 9 0)) 2).rxSeq ∧
    (portAt (nowTaken upPort 2 (arriving 7 1 1 0)) 2).st ≠ .fenced ∧ passesFence (arriving 1 0 1 0) = true ∧ passesFence (arriving 7 1 1 0) = false ∧
    (arriving 7 1 1 0).dst = upPort.hall.self ∧ (arriving 7 1 1 1).dst ≠ upPort.hall.self ∧
    headHeld upPort (arriving 7 1 1 0) = false ∧
    (∀ k ∈ [0, 12, 13], (arriving k 3 0 0).vc = 3) ∧
    ((portAt (trainingPort { st := .up, retries := 15, retryOf := 0 }) 2).retries ≠ 0 ∧
      (portAt (trainingPort { st := .up, retries := 15, retryOf := 0 }) 2).retryOf = fieldAt (arriving 13 3 0 0).pay 0 2) ∧
    (portAt (trainingPort { st := .up, retries := 1, retryOf := 0 }) 2).retries < 15 ∧ (portAt upPort 2).retries = 0 ∧ (portAt upPort 2).sendQ = [] ∧
    (portAt (trainingPort { replay := [arriving 7 1 1 1, arriving 8 1 2 1] }) 2).replay = [arriving 7 1 1 1] ++ arriving 8 1 2 1 :: [] ∧
    [arriving 7 1 1 1].all (fun f => f.lseq != (arriving 8 1 2 1).lseq) = true := by decide
/-- A head flit of one granule at virtual address a, of context 0 and world 1. -/
def headed' (kind a fn : Nat) : Flit :=
  { kind := kind, vc := 1, src := 1, tag := 5, world := 1, pay := bytesOfNat 8 a ++ bytesOfNat 2 fn ++ bytesOfNat 6 0xFFFFFFFF ++ bytesOfNat 48 3 }
theorem witness_RemoteTargets : seenOp base (headed' 4 0x8000 1) = none ∧
    seenOp (noteOp base (headed' 4 0x8000 1)) (headed' 4 0x8000 1) = some { src := 1, tag := 5 } ∧
    (headCheck base (headed' 4 0x8000 1) 0x8000 64 false true false).2 = .inr (.dev, 0x8000) ∧
    (headCheck base (headed' 4 0x100000 1) 0x100000 64 false true false).2 = .inl (statusByte .page) ∧
    (headCheck base (headed' 7 0x8000 1) 0x8000 64 true false false).2 = .inr (.dev, 0x8000) ∧ headGranules (headed' 4 0x8000 1) = 1 ∧
    ((maskedWords 1 0xFFFF 0xFFFF).any fun o => eccAt base [] .dev (0x8000 + o) 4) = false ∧
    (headCheck base (headed' 9 0x8000 1) 0x8000 4 true true false).2 = .inr (.dev, 0x8000) ∧ fieldAt (headed' 9 0x8000 1).pay 8 1 < 8 ∧
    headVa (headed' 9 0x8000 1) % 4 = 0 := by decide
def operating (o : SrcOp) : State := setLinks base { base.links with src := [o] }
def answer (kind : Nat) (pay : List Byte) : Flit := { kind := kind, vc := 2, src := 1, tag := 5, pay := pay }
def anOp (kind : Nat) : SrcOp := { dst := 1, tag := 5, kind := kind, blk := 1, grp := 2, unacked := [5] }
theorem witness_RemoteSources : (∀ k ∈ [0, 1, 2, 3], findOp (operating (anOp k)) (answer 5 [0]) = some (anOp k)) ∧
    findOp base (answer 5 [0]) = none ∧ fieldAt (answer 5 [0]).pay 0 1 = 0 ∧ fieldAt (answer 5 [2]).pay 0 1 ≠ 0 ∧
    findOp (operating { anOp 1 with okHead := true, inbuf := [1], len := 1 }) (answer 6 [1]) = some { anOp 1 with okHead := true, inbuf := [1], len := 1 } ∧
    64 * 1 ≤ ([1] ++ padPay (answer 6 [1]).pay).length ∧
    ([] ++ padPay (answer 6 [1]).pay).length < 64 * 2 ∧
    (operating (anOp 0)).links.src.find? (fun o => o.dst == 1 && o.unacked.contains 5) = some (anOp 0) ∧ (Map.find (operating (anOp 0)).blocks 1).isSome = true ∧
    base.links.src.find? (fun o => o.dst == 1 && o.unacked.contains 5) = none ∧
    gangHeld (operating (anOp 1)) 1 = [] ∧ (blkOf (operating (anOp 1)) 1).spec = false ∧
    (operating { anOp 0 with started := true }).links.src.find? (fun o => o.dst == 1 && o.tag == 5) = some { anOp 0 with started := true } ∧
    (anOp 0).started = false ∧
    portOf (setPkg upPort { base.pkg with routes := [(1, [2])] }) 1 ≠ 24 := by decide
/-- A member of a view of members 0 and 1. -/
def inHall (h : Hall) : State := setHall base { h with repl := { h.repl with members := 3, view := 1 } }
theorem witness_HallForms : startsCh0 base { kind := 1, src := 1, pay := [4] } = false ∧ (takeZero { kind := 1, src := 1, pay := [4] } base).links.ch0Held = [] ∧ base.links.ch0Held = [] ∧
    ((2 ^ 24 - 1) + 2 ^ 24 - 0 % 2 ^ 24) % 2 ^ 24 = 2 ^ 24 - 1 ∧ 2 ^ 23 ≤ 2 ^ 24 - 1 ∧ isMember (inHall {}) = true ∧ isMember base = false ∧ (inHall {}).hall.recov = {} ∧
    (∀ k < 6, fieldAt [BitVec.ofNat 8 k] 0 1 = k) ∧
    (inHall {}).hall.delivered < 1 ∧ (∀ x ∈ (inHall {}).hall.recv, x.seq ≠ 1) ∧ (inHall {}).hall.token = none ∧ inView (inHall { self := 1 }) 0 = true ∧
    1 = (inHall {}).hall.acked + 1 ∧ 7 ≠ (inHall {}).hall.acked + 1 ∧
    isMember (inHall { self := 1 }) = true ∧ 0 < (inHall { self := 1 }).hall.self ∧ (inHall { self := 1 }).hall.repl.members ≠ 0 ∧
    (inHall {}).hall.self ≤ 1 ∧ inView (inHall {}) 9 = false ∧
    (inHall { recov := { active := true } }).hall.recov.active = true ∧ inView (inHall {}) 1 = true := by decide
/-- A member that is not in the view yet, at a phase of its joining from member 1. -/
def joining (phase : Nat) (recv : List HEvent) : State :=
  setHall base { base.hall with recv := recv, joiner := { phase := phase, source := 1 }, repl := { base.hall.repl with members := 2 } }
theorem witness_HallTimers : (inHall {}).hall.awaiting = false ∧ (inHall { awaiting := true }).hall.awaiting = true ∧ isMember (inHall { awaiting := true }) = true ∧
    (joining 1 []).hall.repl.members ≠ 0 ∧ isMember (joining 1 []) = false ∧
    (inHall { token := some (1, 3, 0) }).hall.token = some (1, 3, 0) ∧
    (∃ x ∈ (inHall { token := some (1, 3, 0) }).hall.among.getD (others (inHall { token := some (1, 3, 0) })), Map.look (inHall {}).hall.acks x 0 + 1 < 3) ∧
    (let s := inHall { token := some (1, 3, 0), awaiting := true, acks := [(1, 2)] }
     s.hall.token = some (1, 3, 0) ∧ s.hall.awaiting = true ∧ (∀ x ∈ s.hall.among.getD (others s), 3 ≤ Map.look s.hall.acks x 0 + 1) ∧
       nextMember s (s.hall.among.getD (others s)) ≠ s.hall.self) ∧
    others (setHall base { base.hall with repl := { base.hall.repl with members := 1 }, token := some (1, 1, 0) }) = [] ∧
    nextMember (inHall {}) [] = (inHall {}).hall.self := by decide
theorem witness_RecoveryEvents : (membersOf (inHall {})).length = 2 ∧ (inHall {}).hall.recov.active = false ∧ isMember (inHall { recov := { active := true } }) = true ∧
    2 * (([] : List (Nat × Nat × Nat)).length + 1) ≤ (membersOf (inHall { recov := { active := true } })).length ∧
    (membersOf (inHall { recov := { active := true, replies := [(1, 0, 0)] } })).length < 2 * ([(1, 0, 0)].length + 1) ∧
    (∀ r ∈ [(1, 0, 0)], r.2.1 ≤ (inHall {}).hall.acked) ∧ (inHall {}).hall.acked < listMax ((inHall {}).hall.acked :: [(1, 7, 0)].map fun r => r.2.1) ∧
    portOf (inHall {}) 1 = 24 ∧ 1 ≠ (inHall {}).hall.self ∧ inView (inHall {}) 1 = true ∧ inView (inHall {}) 2 = false ∧
    (∀ k ∈ [0, 1, 2, 3], (joining k []).hall.joiner.phase = k ∧ (joining k []).hall.joiner.source = 1 ∧ portOf (joining k []) 1 = 24 ∧
      isMember (joining k []) = false ∧ 1 ≠ (joining k []).hall.self) ∧ (joining 3 [{ seq := 5 }]).hall.recv ≠ [] ∧ (joining 3 []).hall.recv = [] ∧
    portOf (setPkg upPort { base.pkg with routes := [(1, [2])] }) 1 ≠ 24 := by decide
/-- A member that context 0 of world 1 is bound at, with kernels given. -/
def boundHere (ks : Map KRow) : State := inHall { repl := { kernels := ks } }
def faultOf : HEvent := { kind := 5, kernel := 7, ctx := 0, world := 1 }
def rowOf : KRow := { ctx := 0, world := 1, finished := [3] }
theorem witness_HallDelivery : (inHall { repl := { halt := true } }).hall.repl.halt = true ∧ haltKind 1 = false ∧ haltKind 6 = true ∧
    (inHall {}).hall.repl.halt = false ∧ (inHall {}).hall.recov.halted = false ∧
    knownCtx (inHall {}) { faultOf with world := 2 } = false ∧ Map.find (inHall {}).hall.repl.kernels 7 = none ∧
    knownCtx (boundHere [(7, rowOf)]) faultOf = true ∧ Map.find (boundHere [(7, rowOf)]).hall.repl.kernels 7 = some rowOf ∧
    rowOf.ctx = faultOf.ctx ∧ rowOf.world = faultOf.world ∧ 3 ∈ rowOf.finished ∧ kNrank rowOf < 1 ∧ 0 ∉ rowOf.finished ∧
    (∀ x ∈ (inHall {}).hall.recv, x.seq ≠ (inHall {}).hall.delivered + 1) ∧
    inView (inHall {}) (fieldAt (bytesOfNat 1 1) 0 1) = true ∧ fieldAt (bytesOfNat 1 1) 0 1 ≠ (inHall {}).hall.self ∧
    inView (inHall {}) (fieldAt (bytesOfNat 1 9) 0 1) = false := by decide

/-! Traps of words -/

theorem witness_ControlTraps :
    (let s := nested false (List.replicate 16 {})
     (∀ t : Fin 128, bitOf 1#128 t = (bitOf (emask s) t && (predReg s 1 t != ((0#1) == 1)))) ∧ emask s &&& ~~~ 1 ≠ 0 ∧
       (cp s).stack.length = 16 ∧ mayIssue (.br 0 1 0 0) s = true) ∧
    16 ≤ (cp (called 16)).rstack.length ∧ mayIssue (.call 0 0) (called 16) = true ∧ (cp base).rstack = [] ∧ mayIssue (.ret 0) base = true ∧
    (uniReg (room [(0, 2)]) 0).toNat % 4 ≠ 0 ∧ mayIssue (.brx 0 0) (room [(0, 2)]) = true ∧ mayIssue (.sleepw 0 1 0 2) (room [(0, 2)]) = true ∧
    (let s := setCg svc { cg svc with s := [(0, 0xFFFFFF00)] }
     (uniReg s 0).toNat % 4 = 0 ∧ (cb s).kmode = true ∧
       serviceWord s (BitVec.ofNat 64 ((ck s).image + 0x80) + (uniReg s 0).signExtend 64) = none ∧ mayIssue (.brx 0 0) s = true) ∧
    (let s := setCg cold { cg cold with s := [(0, 0x40000000)] }
     let d : Addr := BitVec.ofNat 64 ((ck s).image + 0x80) + (uniReg s 0).signExtend 64
     (uniReg s 0).toNat % 4 = 0 ∧ (cb s).kmode = false ∧ Map.find (coreOf s (cg s).core).icache (icKey (cb s).ctx d) = none ∧
       checkLeaf s (cb s).world (tlbLook s (cb s).ctx d.toNat).1 d.toNat false false true = some .page ∧ mayIssue (.brx 0 0) s = true) ∧
    (uniReg (room [(0, 512)]) 0).toNat % 4 = 0 ∧ winLoc (room [(0, 512)]) 512 4 = none ∧ mayIssue (.sleepw 0 1 0 2) (room [(0, 512)]) = true ∧
    (ck base).hdr.nregion ≤ (0#8).toNat ∧ mayIssue (.region 0 0) base = true ∧ (cg base).width ≤ (32#7).toNat ∧ emask base ≠ 0 ∧
    mayIssue (.rdlane 0 0 0 32) base = true ∧ mayIssue (.wrlane 0 0 0 32) base = true := by decide
/-- A command word's image, and its words with the registers that the image names. -/
def copyReads (s : State) (i : Instr) (kind : Nat) : Info :=
  { info i with reads := (info i).reads ++ (cRegs (copyImage s kind 0)).map fun n => (.x n, .active) }
def matrixReads (s : State) (i : Instr) (kind : Nat) : Info :=
  { info i with reads := (info i).reads ++ (mGenRegs (copyImage s kind 0)).map fun n => (.g n, .active) }
/-- A matrix ring whose first slot holds an error that nothing has reported, all its commands being done. -/
def failing : Ring := { tail := 64, done := 64, cmds := [{ seq := 1, phase := .done .ecc, reported := false }] }
def partMask (s : State) : State := setCg s { cg s with live := 3 }
theorem witness_CommandTraps :
    mayIssueInfo (copyReads (room [(3, 1)]) (.cpy 0 9 0 0 0) 0) (room [(3, 1)]) = true ∧
    copyMalformed (entered (copyReads (room [(3, 1)]) (.cpy 0 9 0 0 0) 0) (room [(3, 1)])) (copyImage (room [(3, 1)]) 0 0) = true ∧
    mayIssueInfo (matrixReads (partMask (room [])) (.mma 0 9 0 0 0) 0) (partMask (room [])) = true ∧ fullGroup (partMask (room [])) = false ∧
    mayIssueInfo (matrixReads (room []) (.mmai 0 9 0 0 0) 1) (room []) = true ∧ fullGroup (room []) = true ∧
    matrixMalformed (room []) (copyImage (room []) 1 0) 1 = true ∧
    (let s := matrixRing failing
     matrixMalformed s (copyImage s 3 0) 65 = false ∧ waitHolds s (.ring true 0) = true ∧ mayIssueInfo (matrixReads s (.accz 0 9 0 0 0) 3) s = true ∧
       (slotError (cb s) 65).map cmdError = some (some .ecc)) ∧
    (let s := setCg (matrixRing failing) { cg (matrixRing failing) with s := [(0, 65)] }
     mayIssueInfo { info (.tailp 0 0 1) with reads := (info (.tailp 0 0 1)).reads ++ tailReads s true 0 } s = true ∧
       (uniReg s 0).toNat + 2 ^ 32 - (cb s).matrix.tail % 2 ^ 32 = 2 ^ 32 + 1 ∧ (slotError (cb s) (64 + 1 + 0)).isSome = true) ∧
    (let c : Cmd := { seq := 1, grp := 2, batch := 0, phase := .done .page, reported := false }
     let s := copyRing { tail := 1, done := 1, cmds := [c] }
     mayIssue (.waitb 0 2) s = true ∧ back32 (cg s).batch (uniReg s 2) = some 0 ∧ (cb s).copy.cmds = [c] ∧ (c.grp = s.cur ∧ c.batch ≤ 0) ∧
       cmdDone c = true ∧ cmdError c = some .page) ∧
    (let c : Cmd := { seq := 1, phase := .done .ecc, reported := false }
     let s := matrixRing { tail := 1, done := 1, cmds := [c] }
     mayIssue (.waitm 0 0) s = true ∧ back32 (cb s).matrix.tail (uniReg s 0) = some 1 ∧ (cb s).matrix.cmds = [c] ∧ cmdError c = some .ecc) ∧
    (uniReg (room [(0, 1)]) 0).toNat % 512 ≠ 0 ∧ mayIssue (.testc 0 2 0 1) (room [(0, 1)]) = true ∧
    (let s := room [(0, 512), (1, 1)]
     (uniReg s 0).toNat % 512 = 0 ∧ (uniReg s 1).getLsbD 0 = true ∧ (ck s).hdr.winbytes ≤ 512 + 512 * 0 ∧ mayIssue (.testc 0 2 0 1) s = true ∧
       mayIssue (.waitc 0 0 1) s = true) := by decide
/-- A group that owes the BARMASK of slot 7; one that has arrived there; a slot filling with another mask. -/
def owing : State := setCg single { cg single with owed := [7] }
def barred (b : BarSlot) : State := setBar single 7 { barOf (cb single) 7 with filling := b.filling, arrived := b.arrived, mask := b.mask }
theorem witness_BarrierTraps : (cg owing).owed.contains (7#3).toNat = true ∧ (cg owing).two = false ∧ (cp owing).wait = none ∧
    (∀ i ∈ [Instr.bar 0 7, .barm 0 0 7, .arrive 0 7, .await 0 7], mayIssue i owing = true) ∧
    bitOf ((uniPair base 2 ++ uniPair base 0) &&& existGroups base (cb base)) (cg base).index = false ∧ mayIssue (.barm 0 0 7) base = true ∧
    bitOf (barOf (cb (barred { arrived := 1, filling := true })) 7).arrived (cg (barred { arrived := 1, filling := true })).index = true ∧
    mayIssue (.bar 0 7) (barred { arrived := 1, filling := true }) = true ∧
    (let s := barred { filling := true, mask := 0 }
     let slot := barOf (cb s) 7
     slot.filling = true ∧ bitOf slot.arrived (cg s).index = false ∧ bitOf (slot.members &&& existGroups s (cb s)) (cg s).index = true ∧
       slot.mask &&& existGroups s (cb s) ≠ slot.members &&& existGroups s (cb s) ∧ mayIssue (.bar 0 7) s = true ∧ mayIssue (.arrive 0 7) s = true) ∧
    (∀ g ∈ (cb base).groups, bitOf (barOf (cb base) 7).arrived (grpOf base g).index = false) := by decide
theorem witness_WorkTraps :
    (queueOf base 0 15).fed = false ∧ mayIssue (.qpush 0 0 15) base = true ∧ ((cb base).held = [] ∧ (cb base).effects = []) ∧
    (queueOf (working []) 0 15).fed = true ∧ (queueOf (working []) 0 15).enable = true ∧ qKind (imageAt (working []) 0) = 0 ∧
    mayIssue (.qpush 0 0 15) (working []) = true ∧
    (let s := setCtx (working [(0, 5)]) 0 { ctxOf (working [(0, 5)]) 0 with queues := [(15, { fed := true, enable := true, base := 0x40000000 })] }
     qKind (imageAt s 0) = 5 ∧ (queueTrap s 0 15).isSome = true ∧ mayIssue (.qpush 0 0 15) s = true) ∧
    qKind (imageAt base 0) ≠ 1 ∧ mayIssue (.launch 0 0) base = true ∧ ringEnabled base 0 15 = false ∧ mayIssue (.hring 0 0 15 1 0) base = true ∧
    (let s := setCtx (working []) 0 { ctxOf (working []) 0 with leaves := (ctxOf base 0).leaves }
     ringEnabled s 0 15 = true ∧ (hringTrap s 0 15).isSome = true ∧ mayIssue (.hring 0 0 15 1 0) s = true) ∧
    (uniPair (working [(0, 64)]) 0).toNat % 128 ≠ 0 ∧ mayIssue (.shape 0 0) (working [(0, 64)]) = true ∧
    inKernelMode sup = false ∧ mayIssue (.hpost 0 0) sup = true ∧ inKernelMode svc = true ∧ recordOk (imageAt svc 0) = false ∧
    mayIssue (.hpost 0 0) svc = true := by decide
theorem witness_ServiceTraps :
    (let s := serving' [(1, 0x01000000)]
     2 ^ 56 ≤ (uniPair s 0).toNat ∧ ∀ i ∈ [Instr.mapft 0 1 0, .fqpost 0 0, .tlbinv 0 0], mayIssue i s = true) ∧
    (uniReg (serving' [(2, 2)]) 2).toNat % 4 ≠ 0 ∧ mayIssue (.mapft 0 1 0) (serving' [(2, 2)]) = true ∧
    (ck (serving' [(2, 8)])).hdr.winbytes < (uniReg (serving' [(2, 8)]) 2).toNat + 4 ∧ mayIssue (.mapft 0 1 0) (serving' [(2, 8)]) = true ∧
    (cb (serving' [])).kmode = true ∧ mayIssue (.mapft 0 0 0) (serving' []) = true ∧ 4 ≤ (ck (serving' [])).hdr.winbytes ∧
    mayIssue (.fqpost 0 0) svc = true ∧ (uniReg svc 3).toNat = 0 ∧ mayIssue (.tlbinv 0 0) svc = true ∧
    (let s := setCg sup { cg sup with s := [(3, 1)] }
     (uniReg s 3).toNat = 1 ∧ inKernelMode s = false ∧ mayIssue (.tlbinv 0 0) s = true ∧ mayIssue (.fqtake 0 0 1) s = true) ∧
    (let s := serving' [(2, 1), (3, 1)]
     inKernelMode s = true ∧ (ctxOf s 1).st = .free ∧ mayIssue (.tlbinv 0 0) s = true) ∧
    (let s := heldBack sup
     (cb s).kmode = false ∧ (cb s).spec = true ∧ (cp s).wait = none ∧ mayIssue (.fqpost 0 0) s = true) ∧
    (let s := setFaults sup 0 { seq := 64, entries := List.replicate 64 { words := [0] } }
     (faultsOf s (cb s).part).entries.length = 64 ∧ (cb s).spec = false ∧ mayIssue (.fqpost 0 0) s = true) ∧
    (let s := setFaults (setCg sup { cg (waiting (.faultAnswer 0 0)) with sup := true }) 0 { seq := 1, entries := [{ words := [0] }] }
     (cp s).wait = some (.faultAnswer 0 0) ∧ (faultsOf s 0).entries.any (fun e => e.seq == 0) = true ∧ mayIssue (.fqpost 0 0) s = true) ∧
    emask (undrained []) ≠ 0 ∧ (cb (undrained [])).effects ≠ [] ∧ (cp (undrained [])).wait = none ∧ mayIssue (.svc 0 0 0) (undrained []) = true ∧
    (let s := withCtx fun c => { c with calls := [(0, List.replicate 16 {})] }
     (Map.look (cctx s).calls (cb s).part []).length = 16 ∧ mayIssue (.svc 0 0 0) s = true) ∧
    Map.find (cg (waiting (.answer 7))).answered 7 = none ∧ mayIssue (.svc 0 0 0) (waiting (.answer 7)) = true ∧
    (let s := setCg answering { cg answering with answered := [(7, (3, []))] }
     (cp s).wait = some (.answer 7) ∧ Map.find (cg s).answered 7 = some (3, []) ∧ mayIssue (.svc 0 0 0) s = true) ∧
    uniReg svc 0 = 0 ∧ (svcOf svc (cb svc).die).areas = [] ∧ mayIssue (.svcdone 0 0 1) svc = true := by decide
theorem one_thread (t : Nat) : bitOf 1#128 t = decide (t = 0) :=
  bits_of (f := fun t => decide (t = 0)) (by decide) (fun t l => decide_eq_false (by omega)) t
/-- The first trap of a group of one thread. -/
theorem first_trap {s : State} {cause : TrapCode → Nat → Prop} {c : TrapCode} (l r : List TrapCode)
    (hm : emask s = 1#128) (hn : ∀ b ∈ l, ¬ cause b 0) (hc : cause c 0) :
    FirstTrap s (l ++ c :: r) cause c 0 1#128 where
  first := ⟨l, r, rfl, fun b hb t ht => by rw [hm, one_thread, decide_eq_true_eq] at ht; subst ht; exact hn b hb⟩
  lowest := ⟨by rw [hm]; rfl, hc, fun _ _ _ => Nat.zero_le _⟩
  threads t := by rw [hm, one_thread, decide_eq_true_eq]; exact ⟨fun h => ⟨h, h ▸ hc⟩, fun h => h.1⟩
theorem access_trap {s : State} {sp : Space} {u : Use} {n a : Nat} {c : TrapCode} (l r : List TrapCode) (hm : emask s = 1#128)
    (hn : ∀ b ∈ l, placeOf s sp u 0 a n ≠ .bad b ∧ (b = .align → a % n = 0) ∧ b ≠ .ecc)
    (hc : accessCause s sp u n (fun _ => a) c 0) : FirstTrap s (l ++ c :: r) (accessCause s sp u n fun _ => a) c 0 1#128 :=
  first_trap l r hm (fun b hb h => by
    obtain ⟨h1, h2, h3⟩ := hn b hb
    rcases h with ⟨e, h⟩ | ⟨e, h⟩ | ⟨e, h⟩ | ⟨e, -⟩
    · exact h1 (e ▸ h)
    · exact h1 (e ▸ h)
    · exact h (h2 e)
    · exact h3 e) hc
/-- The group of one thread with a value in lane register 0; the word that value names holds an uncorrectable error. -/
def lane0 (x : Word) : State := setCg (room []) { cg (room []) with v := [(0, [x])] }
def poisoned : State := { setCg (room []) { cg (room []) with v := [(0, [508])], s := [(0, 508)] } with poison := [(.win 1, 508)] }
theorem witness_AccessTraps :
    FirstTrap (lane0 0xFFFFF000) [.prot, .bound, .align, .ecc] (accessCause (lane0 0xFFFFF000) .blk .store 4 fun _ => 0xFFFFF000) .prot 0 1#128 ∧
    FirstTrap (lane0 512) [.prot, .bound, .align, .ecc] (accessCause (lane0 512) .blk .load 4 fun _ => 512) .bound 0 1#128 ∧
    FirstTrap (lane0 2) [.prot, .bound, .align, .ecc] (accessCause (lane0 2) .blk .atomic 4 fun _ => 2) .align 0 1#128 ∧
    FirstTrap poisoned [.prot, .bound, .align, .ecc] (accessCause poisoned .blk .load 4 fun _ => 508) .ecc 0 1#128 ∧
    FirstTrap (lane0 8) [.prot, .bound, .align, .ecc] (accessCause (lane0 8) .const .load 4 fun _ => 8) .bound 0 1#128 ∧
    FirstTrap (lane0 0x80000000) [.prot, .bound, .align, .ecc] (accessCause (lane0 0x80000000) .die .load 4 fun _ => 0x80000000) .bound 0 1#128 ∧
    (∀ i ∈ [Instr.lds 0 1 0 0, .sts 0 1 0 0, .lds64 0 2 0 0, .sts64 0 2 0 0, .ldw 0 1 0 0, .stw 0 1 0 0, .ldsp 0 1 0 0, .stsp 0 1 0 0,
      .ldd 0 1 0 0, .std 0 1 0 0, .ldc 0 1 0 0, .atom 0 1 0 11 0, .cas 0 2 0 0],
      ∀ s ∈ [lane0 0xFFFFF000, lane0 512, lane0 2, lane0 8, lane0 0x80000000, poisoned], mayIssue i s = true ∧ passNow s = none) ∧
    (∀ i ∈ [Instr.sldc 0 1 0 0, .slds 0 1 0 0, .ssts 0 1 0 0], ∀ s ∈ [room [(0, 2)], room [(0, 8)], room [(0, 512)], poisoned], mayIssue i s = true) ∧
    (ck (room [])).hdr.constlen = 8 ∧ blkPlace (room []) .load 512 4 = .bad .bound ∧ blkPlace (room []) .store 0xFFFFF000 4 = .bad .prot ∧
    blkPlace (room []) .load 2 4 = .at (.win 1) 2 ∧ blkPlace poisoned .load 508 4 = .at (.win 1) 508 ∧
    eccAt poisoned (cg poisoned).stores (.win 1) 508 4 = true :=
  ⟨access_trap [] _ rfl nofun (.inl ⟨rfl, by decide⟩),
    access_trap [.prot] _ rfl (by decide) (.inr (.inl ⟨rfl, by decide⟩)),
    access_trap [.prot, .bound] _ rfl (by decide) (.inr (.inr (.inl ⟨rfl, by decide⟩))),
    access_trap [.prot, .bound, .align] _ rfl (by decide) (.inr (.inr (.inr ⟨rfl, by decide, .win 1, 508, by decide, by decide⟩))),
    access_trap [.prot] _ rfl (by decide) (.inr (.inl ⟨rfl, by decide⟩)),
    access_trap [.prot] _ rfl (by decide) (.inr (.inl ⟨rfl, by decide⟩)), by decide⟩
/-- A generator of kind 4 whose table lies at the last word of the window, and one past it. -/
def phase (x : BitVec 128) : State := setCg poisoned { cg poisoned with g := [(0, x)] }
theorem witness_TranslationTraps :
    (genValid (genReg (phase 0x4004) 0) = true ∧ genKind (genReg (phase 0x4004) 0) = 4 ∧ mayIssue (.gen 0 0 0 0) (phase 0x4004) = true ∧
      mayIssue (.gent 0 0 0 0) (phase 0x4004) = true) ∧
    (genValid (genReg (phase 0x3F84) 0) = true ∧ genKind (genReg (phase 0x3F84) 0) = 4) ∧
    (let s := phase (0x4004)
     FirstTrap s [.bound, .ecc] (fun c _ => (c = .bound ∧ (ck s).hdr.winbytes < 512 + 4) ∨
       (c = .ecc ∧ eccAt s (cg s).stores (.win (cg s).blk) 512 4 = true)) .bound 0 1#128) ∧
    genTable (0x4004) 0 = 512 ∧ genTable (0x3F84) 1 = 508 ∧
    (let s := phase (0x3F84)
     FirstTrap s [.bound, .ecc] (fun c _ => (c = .bound ∧ (ck s).hdr.winbytes < 508 + 4) ∨
       (c = .ecc ∧ eccAt s (cg s).stores (.win (cg s).blk) 508 4 = true)) .ecc 0 1#128) ∧
    2 ^ 56 ≤ (uniPair (room [(1, 0x01000000)]) 0).toNat ∧ mayIssue (.xlate 0 0 0 1 1 0) (room [(1, 0x01000000)]) = true ∧
    (let s := room [(0, 0x40000000)]
     (uniPair s 0).toNat < 2 ^ 56 ∧ checkLeaf s (cb s).world (tlbLook s (cb s).ctx (uniPair s 0).toNat).1 (uniPair s 0).toNat true true false = some .page ∧
       mayIssue (.xlate 0 0 0 1 1 0) s = true) := by
  refine ⟨by decide, by decide, first_trap [] _ rfl nofun (.inl ⟨rfl, by decide⟩), by decide, by decide, ?_, by decide⟩
  refine first_trap [.bound] _ rfl (fun b hb h => ?_) (.inr ⟨rfl, by decide⟩)
  rcases h with ⟨-, h⟩ | ⟨e, -⟩
  · exact absurd h (by decide)
  · rw [e] at hb; exact absurd hb (by decide)

/-! Forms met only in states of their own -/

def unserved (p : Pkg → Pkg) : State := setPkg (device .sealed) (p (device .sealed).pkg)
theorem witness_groupForms : midway (grpOf base 2) = false ∧ (cb (withBlock fun b => { b with trapped := true })).trapped = true ∧
    (gangOf (setGang base 0 { gangOf base 0 with saved := true }) (cb base).gang).saved = true ∧ base.hall.recov.halted = false ∧
    (let s := setSvc (setCg svc { cg svc with s := [(0, 0xFFFFFF80)] }) 0 { svcOf svc 0 with image := [0, 0, 0, 0] }
     (cb s).kmode = true ∧ (serviceWord s (BitVec.ofNat 64 ((ck s).image + 0x80) + (uniReg s 0).signExtend 64)).isSome = true ∧
       mayIssue (.brx 0 0) s = true) ∧
    (let s := nested false [{ second := true }, {}]
     (cp s).stack.dropWhile (fun e => e.second && e.cont.isNone) = [{}] ∧ mayIssue (.exit 0) s = true) ∧
    (cp (nested false [{ second := true }])).stack.dropWhile (fun e => e.second && e.cont.isNone) = [] ∧ (cg base).loads = [] ∧
    mayIssue (.exit 0) (nested false [{ second := true }]) = true ∧
    (∀ i ∈ [Instr.cpy 0 9 0 1 0, .mma 0 9 0 15 0], guardField i ≠ 0 ∧ (encode i).isSome = true) ∧ (ck old).hdr.version = 1 ∧
    (∀ i ∈ [Instr.atom 0 1 0 0 0, .launch 0 0, .bar 0 0], outsideRegions i = true ∧ wellFormed i = true) ∧ (cg regioned).region.isSome = true := by decide
/-- The predicted shape of `unshaped`, resolved. -/
def resolved : State :=
  setHall unshaped { unshaped.hall with repl := { unshaped.hall.repl with kernels := [(0, { resolved := some (7, 9) })] } }
theorem none_read (s : State) (h : s.groups.all (fun e => e.2.stores.all fun p => !p.peeked.contains s.cur) = true) : NoneRead s := by
  simpa [NoneRead] using h
/-- A gang that holds a copy's four bytes for die scratch; the same word read twice over. -/
def holding : State := withBlock fun b => { b with held := [{ seq := 1, stamp := 1, mem := .die 0, addr := 64, data := [1, 2, 3, 4] }] }
theorem witness_readForms : (∀ c : BitVec 5, ∃ m : Nat → Word, ∀ th, m th = srdValue base c.toNat th) ∧ NoneRead resolved ∧ NoneRead base ∧
    (ck resolved).hdr.policy ≠ 0 ∧ (shapeOf resolved (cb resolved).kern).isSome = true ∧ mayIssue (.srd 0 1 6 1) resolved = true ∧
    mayIssue (.srd 0 1 7 0) resolved = true ∧ (cg (room [])).stores = [] ∧
    (∃ e ∈ heldIn holding (cg holding).blk (.die 0), (e.addr ≤ 64 ∧ 64 < e.addr + e.data.length) ∧
      ∀ f ∈ heldIn holding (cg holding).blk (.die 0), f.stamp ≤ e.stamp) ∧
    (∀ e ∈ heldIn holding (cg holding).blk (.die 0), ¬ (e.addr ≤ 68 ∧ 68 < e.addr + e.data.length)) := by
  refine ⟨fun c => ⟨_, fun _ => rfl⟩, none_read _ (by decide), none_read _ (by decide), by decide⟩
theorem witness_commandForms :
    (let s := published [0, 0, 0, 4, 0, 4, 0, 0]
     mayIssueInfo { info (.tailp 0 0 0) with reads := (info (.tailp 0 0 0)).reads ++ tailReads s false 0 } s = true) ∧
    (let s := partMask (published [0, 0, 0, 0, 0, 0, 0, 0])
     fullGroup s = false ∧ cKind (slotImage s) ≤ 1 ∧ mayIssueInfo { info (.tailp 0 0 1) with reads := (info (.tailp 0 0 1)).reads ++ tailReads s true 0 } s = true) ∧
    matrixMalformed (published [15, 0, 0, 0, 0, 0, 0, 0]) (slotImage (published [15, 0, 0, 0, 0, 0, 0, 0])) 1 = true ∧
    (cp (waiting (.fenced false 3))).wait = some (.fenced false 3) ∧ mayIssue (.opfence 0) (waiting (.fenced false 3)) = true ∧
    (blkOf (copying moving) 1).held = [] := by decide
/-- A graph of two nodes that both run, the second a WAIT; one it left behind. -/
def waitNode : Node := { img := imageWords (waitImg 0), st := 1 }
def twoNodes : Graph := { running with inRun := true, nodes := 2, list := [{ img := imageWords signalImg, st := 1 }, waitNode] }
def leftWait : OldWait := { slot := 0, index := 1, node := waitNode }
set_option maxRecDepth 8000 in
theorem witness_queueForms : ((graphOf (graphed twoNodes 0) 0 0).list.getD 0 {}).st = 1 ∧ ((graphOf (graphed twoNodes 0) 0 0).list.getD 0 {}).out = none ∧
    (graphOf (graphed twoNodes 0) 0 0).list[1]? = some waitNode ∧ waitNode.st = 1 ∧ waitNode.out = none ∧ qKind (natOfWords waitNode.img) = 3 ∧
    (let s := withCtx fun c => { c with oldWaits := [leftWait] }
     (graphOf s 0 0).running = false ∧ (graphOf s 0 0).list = [] ∧ oldReady s 0 0 1 = some leftWait) ∧
    (let s := { queued ready (copyImg + 2 ^ 134) with poison := [(.dev, 0x8004)] }
     vaMem s 0 (0x8000 + 64 * 0 + 0) = some (.dev, 0x8000) ∧ eccAt s [] .dev 0x8000 1 = false ∧ eccAt s [] .dev 0x8004 1 = true ∧
       vaMem s 0 (0x9000 + 64 * 0) = some (.dev, 0x9000)) ∧
    ¬ (0x8000 ≤ 0x9000 + 64 * 0 + 0 ∧ 0x9000 + 64 * 0 + 0 < 0x8000 + 64) ∧ (0x8000 ≤ 0x8040 + 64 * 0 + 0 ∧ 0x8040 + 64 * 0 + 0 < 0x8000 + 128) ∧
    (let x := queueOf (queued { closing := true, latched := true } 0) 0 0
     x.closing = true ∧ (∀ r ∈ x.cmds, r.fin = true) ∧ x.latched = true ∧ (ctxOf (queued { closing := true, latched := true } 0) 0).st = .sealed) ∧
    (let s := setCtx (queued { closing := true, latched := true } 0) 0 { ctxOf (queued { closing := true, latched := true } 0) 0 with st := .suspended }
     (queueOf s 0 0).closing = true ∧ (ctxOf s 0).st ≠ .sealed) ∧
    (∀ st ∈ [QState.ready, .running, .stalled, .halted], let s := notified .sealed [0x10, 1] [1] { st := st }
     (ctxOf s 0).st = .sealed ∧ pageRead s 0 0x488 4 / 256 % 2 = 1 ∧ (queueOf s 0 2).st ≠ .off ∧ (queueOf s 0 2).closing = false ∧
       pageRead s 0 0x488 4 / 16 % 8 ≠ (queueOf s 0 2).prio ∧ notifyCtx s 3 0 = some 0) := by decide
/-- The package in each case that the wing's events ask for. -/
def packaged (f : Pkg → Pkg) : State := setPkg base (f base.pkg)
def tableCtx : State := withCtx fun c => { c with leaves := [{ va := 0, frame := 0 }, { va := 0x40000000, frame := 1 }] }
theorem witness_packageForms : base.pkg.noWing = false ∧ (packaged fun p => { p with noWing := true, lostCmds := [.resume 0 0 0 0 0] }).pkg.noWing = true ∧
    (packaged fun p => { p with standbyDown := true }).pkg.standbyDown = true ∧
    imageOf (packaged fun p => { p with secImage := [1], life := .decommissioned }) 2 ≠ [] ∧
    (packaged fun p => { p with secImage := [1], life := .decommissioned }).pkg.life = .decommissioned ∧ base.pkg.life ≠ .decommissioned ∧
    wingActs base = true ∧ wingActs (packaged fun p => { p with noWing := true }) = false ∧ wingActs (packaged fun p => { p with update := some {} }) = false ∧
    wingActs (packaged fun p => { p with life := .decommissioned }) = false ∧ TableItem.windows [] ≠ .wingStops ∧
    (let s : State := { base with ctxs := [], own := [] }
     s.pkg.windowsBound = false ∧ s.own = [] ∧ s.ctxs = []) ∧
    ((List.range 24).reverse.length = 24 ∧ (∀ x ∈ (List.range 24).reverse, x < 24) ∧ (List.range 24).reverse.Nodup) ∧
    (packaged fun p => { p with windowsBound := true }).pkg.windowsBound = true ∧ base.ctxs ≠ [] ∧ (ownOf base 5).use = 0 ∧
    (ownOf (flipping { key := 1, world := 1, use := 2 }) 0).use ≠ 0 ∧
    (Map.find base.ctxs 0).isSome = true ∧ (Map.find base.ctxs 9).isNone = true ∧ (partsOf (ctxOf base 0).parts.toNat).contains (memPart base .dev 0) = true ∧
    (∃ l ∈ (ctxOf tableCtx 0).leaves, l.broken = false ∧ l.va ≤ 5 ∧ 5 < l.va + pageSize l.level) ∧
    (∃ l ∈ (ctxOf tableCtx 0).leaves, l.broken = false ∧ l.level < 1 ∧ l.va / pageSize 1 = 0x40000000 / pageSize 1) ∧
    (∀ l ∈ (ctxOf tableCtx 0).leaves, ¬ (l.broken = false ∧ l.va ≤ 0x10000 ∧ 0x10000 < l.va + pageSize l.level)) := by decide
/-- A write to a host page that a block holds. -/
def holdingHost : State :=
  setCb (withCtx fun c => { c with leaves := [hostLeaf] }) { cb base with held := [{ seq := 1, mem := .host, va := 0x100000, data := [1] }] }
theorem witness_linkForms : (hostPages holdingHost 0 0 65536).any (fun p => p.2.2) = true ∧
    (((hostPages holdingHost 0 0 65536).filter fun p => p.2.2).flatMap fun p => heldOnPage holdingHost p.1 p.2.1).eraseDups = [(1, 1)] ∧
    ({ base with ats := [{ held := [(1, 1)] }] } : State).ats[0]? = some { held := [(1, 1)] } ∧
    (portAt (trainingPort { st := .training, fails := 7, sendQ := [] }) 2).fails = 7 ∧ (portAt (trainingPort { st := .fenced }) 2).st = .fenced ∧
    (blkOf (operating (anOp 1)) 1).held = [] ∧ (anOp 0).dst ≠ (operating (anOp 0)).hall.self ∧ portWorks (operating (anOp 0)) (anOp 0).port = false ∧
    (let s := setLinks base { base.links with ch0Held := [arriving 1 0 7 0] }
     (∃ f ∈ s.links.ch0Held, f.src = (arriving 1 0 9 0).src ∧ f.tag = (arriving 1 0 9 0).tag)) ∧
    (∀ f ∈ base.links.ch0Held, ¬ (f.src = 1 ∧ f.tag = 5)) ∧ startsCh0 base { arriving 1 0 7 0 with tag := 5 } = false ∧ inView (inHall {}) 9 = false ∧
    (let s := inHall { recov := { halted := true, routes := [3] } }
     s.hall.recov.halted = true ∧ s.hall.recov.active = false ∧ routesNow s ≠ s.hall.recov.routes) ∧
    (let s := inHall { recov := { halted := true, routes := [24] } }
     s.hall.recov.halted = true ∧ routesNow s = s.hall.recov.routes) ∧
    (setPkg (inHall {}) { base.pkg with life := .decommissioned }).pkg.life = .decommissioned ∧ (inHall {}).pkg.life ≠ .decommissioned := by decide

/-! Steps -/

theorem witness_StepRunsDecoded : base.pkg.power = true ∧ (State.reset.withFetchWord 32 0).agenda = [] ∧ (State.reset.withFetchWord 32 0).due = [] ∧
    (State.reset.withFetchWord 32 0).barrel = [2] ∧ (grpOf base 2).state = .runnable ∧ (grpOf base 2).two = false ∧ (grpOf base 2).pathA.st = .running ∧
    (grpOf base 2).pathA.stall = 0 ∧ (grpOf base 2).pathA.wait = none ∧ 0 < (grpOf (withPath fun p => { p with stall := 1 }) 2).pathA.stall ∧
    (beginTurn { base with barrel := [] } 2).2 = true ∧ wordAtHand { base with barrel := [] } false = true ∧ wordAtHand cold false = false ∧
    (beginTurn { withPath (fun p => { p with stall := 1 }) with barrel := [] } 2).2 = false ∧
    (grpOf (between 1) 2).state = .waiting ∧ inPass (pathOf (grpOf (between 1) 2)) = true ∧
    (match fetchWord (closeRegion (beginTurn { base with barrel := [] } 2).1) with | .word _ w => w == 0 | .trap _ _ => false) = true := by
  decide
theorem witness_StepOrder : (setPkg base { base.pkg with power := false }).pkg.power = false ∧ encode (.packageReset) = none ∧
    (encode (.fadd 0 0 0 0 0)).isSome = true ∧ encode (.fadd 0 0 0 0 0) ≠ none ∧ encode .packageReset ≠ some 0 ∧ linkUp (portAt base 23) = false ∧
    (kernOf base 0).mode ≠ 2 ∧ (kernOf base 1).mode ≠ 2 ∧
    (setAgenda base [.packageReset]).agenda = .packageReset :: [] ∧ { base with agenda := [], due := [], barrel := [] }.barrel = [] := by decide
theorem witness_MemoryCanonical : Memory.wf [] = true ∧ Memory.wf [(0, 1), (65535, 2)] = true ∧ 0 + [(1 : Byte)].length ≤ 1 := by decide
theorem witness_EventsNeedPower : encode (.hostRead 0 4) = none ∧ Instr.hostRead 0 4 ≠ .packageReset ∧ Instr.hostRead 0 4 ≠ .powerLoss ∧
    (setPkg base { base.pkg with power := false }).pkg.power = false := by decide

/-- A port serves its request channel by deficit round-robin (R353): with weights 2 and 1 two partitions' flits leave as A A B A B. -/
def drrStart : State :=
  let fl (dst tag : Nat) : Flit := { dst := dst, tag := tag, vc := 1, kind := 6 }
  { State.reset with
    blocks := [(1, { part := 3 }), (2, { part := 5 })]
    links := { src := [{ dst := 9, tag := 1, blk := 1 }, { dst := 9, tag := 2, blk := 2 }]
               ports := [(4, { st := .up, sendQ := [fl 9 1, fl 9 2, fl 9 1, fl 9 2, fl 9 1] })] }
    pkg := { State.reset.pkg with weights := [(3, 2), (5, 1)] } }
theorem test_deficit_round_robin :
    (portFlush 4 5 drrStart).out.map (fun o => match o with | .flit _ fl => fl.tag | _ => 0) = [1, 1, 2, 1, 2] := by decide
theorem witness_MemoriesStayCanonical : (∃ t, step State.reset = .next t) ∧ canonicalMemories State.reset ∧
    (let s := State.reset.withFetchWord 32 1
     (match step s with | .next _ => true | _ => false) = true ∧ s.dev.wf = true ∧ s.dev ≠ [] ∧ s.host.wf = true ∧ s.die = []) :=
  ⟨⟨_, rfl⟩, ⟨rfl, rfl, nofun⟩, by decide⟩
theorem witness_FusesOnlyAdvance : (∀ l ∈ [Life.deployed, .decommissioned], let s := setPkg State.reset { State.reset.pkg with life := l, attLeaf := 2 ^ 16, idLeaf := 2 ^ 20 }
    (∃ t, step s = .next t) ∧ s.pkg.life ≠ .raw ∧ s.pkg.life = l ∧ s.pkg.attLeaf ≤ 2 ^ 16 ∧ s.pkg.idLeaf ≤ 2 ^ 20) ∧
    leavesWithin State.reset := by
  refine ⟨?_, by decide, by decide⟩
  intro l hl
  refine ⟨⟨_, rfl⟩, ?_, rfl, Nat.le_refl _, Nat.le_refl _⟩
  rcases List.mem_cons.1 hl with h | h
  · rw [h]; decide
  · rw [List.mem_singleton.1 h]; decide
theorem witness_ResetInvariants : canonicalMemories State.reset ∧ (State.reset.withFetchWord 32 1).dev ≠ [] := ⟨⟨rfl, rfl, nofun⟩, by decide⟩

end Sys2Proof.Tests
end

