-- ==== Sys2Proof/Proofs/Joins.lean ====
section
/-!
PROOFS. Proofs/Joins.lean: JOIN (R143), what it makes of the issuing path in each of its cases, and what completing leaves of a word
whose own effect replaces the whole group.
-/
namespace Sys2Proof.Machine

/-! ### Completion of a word whose own effect replaces the current group -/

theorem cg_settled_setCg {i : Info} {s : State} (h : MayIssue i s) (g : Group) :
    cg (settled i s (setCg (entered i s) g)) = woken (waitOver (noted i s g)) := by
  rw [settled_eq h, cg_setFresh, cg_setCg, cg_setCg]
theorem cp_settled_setCg {i : Info} {s : State} (h : MayIssue i s) (g : Group) :
    cp (settled i s (setCg (entered i s) g)) = { pathOf g with wait := none } := by
  rw [cp, cg_settled_setCg h, settled_path]
/-- But for paths and the marks of issue, the group is the one put in its place. -/
theorem repathed_settled_setCg {i : Info} {s : State} (h : MayIssue i s) (g : Group) :
    repathed g (cg (settled i s (setCg (entered i s) g))) = g := by
  rw [cg_settled_setCg h]; exact settled_rest i s g
theorem two_settled_setCg {i : Info} {s : State} (h : MayIssue i s) (g : Group) :
    (cg (settled i s (setCg (entered i s) g))).two = g.two :=
  (congrArg Group.two (repathed_settled_setCg h g) :)
theorem machine_settled_setCg {i : Info} {s : State} (h : MayIssue i s) (g : Group) :
    { settled i s (setCg (entered i s) g) with groups := s.groups, fresh := s.fresh } = s := by
  rw [settled_eq h, entered_eq]; rfl
theorem cur_settled_setCg {i : Info} {s : State} (h : MayIssue i s) (g : Group) :
    (settled i s (setCg (entered i s) g)).cur = s.cur :=
  (congrArg State.cur (machine_settled_setCg h g) :)
theorem grpOf_settled_setCg_other {i : Info} {s : State} (h : MayIssue i s) (g : Group) {n : Nat} (hn : n ≠ s.cur) :
    grpOf (settled i s (setCg (entered i s) g)) n = grpOf s n := by
  rw [settled_eq h, entered_eq, setCg_setCg, setCg_setCg, grpOf_setFresh, grpOf_setCg_other _ _ hn]
theorem laneReg_settled_setCg {i : Info} {s : State} (h : MayIssue i s) {g : Group} (hv : g.v = (cg s).v) (r th : Nat) :
    laneReg (settled i s (setCg (entered i s) g)) r th = laneReg s r th := by
  have hk : (cg (settled i s (setCg (entered i s) g))).v = g.v := (congrArg Group.v (repathed_settled_setCg h g) :)
  rw [laneReg, hk, hv, laneReg]
theorem uniReg_settled_setCg {i : Info} {s : State} (h : MayIssue i s) {g : Group} (hs : g.s = (cg s).s) (r : Nat) :
    uniReg (settled i s (setCg (entered i s) g)) r = uniReg s r := by
  have hk : (cg (settled i s (setCg (entered i s) g))).s = g.s := (congrArg Group.s (repathed_settled_setCg h g) :)
  rw [uniReg, hk, hs, uniReg]
theorem byteSeen_settled_setCg {i : Info} {s : State} (h : MayIssue i s) {g : Group} (hst : g.stores = (cg s).stores)
    (hsp : g.spill = (cg s).spill) (m : MemName) (a : Nat) :
    byteSeen (settled i s (setCg (entered i s) g)) m a = byteSeen s m a := by
  have hrest := repathed_settled_setCg h g
  have hstores : (cg (settled i s (setCg (entered i s) g))).stores = (cg s).stores := (congrArg Group.stores hrest :).trans hst
  have hspill : (cg (settled i s (setCg (entered i s) g))).spill = (cg s).spill := (congrArg Group.spill hrest :).trans hsp
  refine byteSeen_congr (machine_settled_setCg h g) (fun n => ?_) hstores m a
  by_cases hn : n = s.cur
  · rw [cg, cur_settled_setCg h] at hspill
    rw [hn, hspill, cg]
  · rw [grpOf_settled_setCg_other h g hn]

/-! ### What a JOIN finds on entry -/

@[simp] theorem stack_cp_entered (i : Info) (s : State) : (cp (entered i s)).stack = (cp s).stack := by rw [cp_entered]
@[simp] theorem two_cg_entered (i : Info) (s : State) : (cg (entered i s)).two = (cg s).two := by simp [cg_entered]
@[simp] theorem live_cg_entered (i : Info) (s : State) : (cg (entered i s)).live = (cg s).live := by simp [cg_entered]
@[simp] theorem pairM_cg_entered (i : Info) (s : State) : (cg (entered i s)).pairM = (cg s).pairM := by simp [cg_entered]
@[simp] theorem pairS_cg_entered (i : Info) (s : State) : (cg (entered i s)).pairS = (cg s).pairS := by simp [cg_entered]
@[simp] theorem v_cg_entered (i : Info) (s : State) : (cg (entered i s)).v = (cg s).v := by simp [cg_entered]
@[simp] theorem s_cg_entered (i : Info) (s : State) : (cg (entered i s)).s = (cg s).s := by simp [cg_entered]
@[simp] theorem stores_cg_entered (i : Info) (s : State) : (cg (entered i s)).stores = (cg s).stores := by simp [cg_entered]
@[simp] theorem spill_cg_entered (i : Info) (s : State) : (cg (entered i s)).spill = (cg s).spill := by simp [cg_entered]
@[simp] theorem restingPath_cg_entered (i : Info) (s : State) : restingPath (cg (entered i s)) = restingPath (cg s) := by
  rw [cg_entered, (setPath_rest _ _).2]; rfl
theorem setPath_pathOf (g : Group) : setPath g (pathOf g) = g := by
  by_cases hb : (g.two && g.onB) = true
  · rw [setPath_b _ hb, pathOf, if_pos hb]
  · rw [setPath_a _ hb, pathOf, if_neg hb]
theorem setCp_cp_entered (i : Info) (s : State) : setCp (entered i s) (cp (entered i s)) = entered i s := by
  rw [setCp, cp, setPath_pathOf, cg_entered, entered_eq, setCg_setCg]

/-! ### The cases of JOIN (R143) -/

theorem otherPath_eq_restingPath {g : Group} (h : g.two = true) : otherPath g = restingPath g := by
  simp only [otherPath, restingPath, h, Bool.true_and]
theorem pathOf_mergePaths (g : Group) (rs : List Addr) (pc : Addr) (stall : Nat) :
    pathOf (mergePaths g rs pc stall) = { pc := pc, mask := g.pairM &&& g.live, scope := g.pairS, stall := stall, rstack := rs } := rfl
theorem joinPath_of_first_side {s : State} {e : StackEntry} {l : List StackEntry} (hs : (cp s).stack = e :: l)
    (h2 : e.second = false) :
    joinPath s = setCp s { cp s with stack := { e with cont := some (cp s).pc, second := true } :: l
                                     mask := e.f &&& (cg s).live, scope := e.f, pc := e.fpc } := by
  simp only [joinPath, hs, h2, Bool.false_eq_true, if_false]
theorem joinPath_of_second_side {s : State} {e : StackEntry} {l : List StackEntry} (hs : (cp s).stack = e :: l)
    (h2 : e.second = true) :
    joinPath s = setCp s { cp s with stack := l, mask := e.m &&& (cg s).live, scope := e.s } := by
  simp only [joinPath, hs, h2, if_true]
theorem joinPath_of_one_path {s : State} (hs : (cp s).stack = []) (h2 : (cg s).two = false) : joinPath s = s := by
  simp only [joinPath, hs, h2, Bool.false_eq_true, if_false]
theorem joinPath_of_partner_running {s : State} (hs : (cp s).stack = []) (h2 : (cg s).two = true)
    (hr : (restingPath (cg s)).st = .running) : joinPath s = setCp s { cp s with st := .parked (cp s).pc } := by
  simp only [joinPath, hs, h2, otherPath_eq_restingPath h2, hr, if_true]
theorem joinPath_of_partner_stopped {s : State} (hs : (cp s).stack = []) (h2 : (cg s).two = true)
    (hr : (restingPath (cg s)).st ≠ .running) :
    joinPath s = setCg s (mergePaths (cg s) (cp s).rstack (cp s).pc (cp s).stall) := by
  cases hst : (restingPath (cg s)).st with
  | running => exact absurd hst hr
  | parked _ | ended => simp only [joinPath, hs, h2, otherPath_eq_restingPath h2, hst, if_true]

/-- A JOIN that does no more than to set its own path to p. -/
theorem join_pathResult (st : BitVec 2) {s : State} {p : Path}
    (hj : joinPath (entered (info (.join st)) s) = setCp (entered (info (.join st)) s) p) :
    PathResult (.join st) s { p with wait := none } := by
  obtain ⟨hm, hc, hg, hp⟩ := setCp_facts (info (.join st)) s p
  exact path_result (act := fun s => .done (joinPath s)) (exec_join st s) _ (fun _ => congrArg Act.done hj) hm hc hg hp

theorem join_first_side (st : BitVec 2) {s : State} {e : StackEntry} {l : List StackEntry} (hs : (cp s).stack = e :: l)
    (h2 : e.second = false) :
    PathResult (.join st) s { cp s with
      pc := e.fpc, mask := e.f &&& (cg s).live, scope := e.f, stall := st.toNat, wait := none
      stack := { e with second := true, cont := some ((cp s).pc + 4) } :: l } := by
  have hj := joinPath_of_first_side ((stack_cp_entered (info (.join st)) s).trans hs) h2
  rw [cp_entered, live_cg_entered] at hj
  exact join_pathResult st hj
theorem join_second_side (st : BitVec 2) {s : State} {e : StackEntry} {l : List StackEntry} (hs : (cp s).stack = e :: l)
    (h2 : e.second = true) :
    PathResult (.join st) s { cp s with
      pc := (cp s).pc + 4, mask := e.m &&& (cg s).live, scope := e.s, stack := l, stall := st.toNat, wait := none } := by
  have hj := joinPath_of_second_side ((stack_cp_entered (info (.join st)) s).trans hs) h2
  rw [cp_entered, live_cg_entered] at hj
  exact join_pathResult st hj
theorem join_one_path (st : BitVec 2) {s : State} (hs : (cp s).stack = []) (h2 : (cg s).two = false) :
    PathResult (.join st) s { cp s with pc := (cp s).pc + 4, stall := st.toNat, wait := none } := by
  have hj := joinPath_of_one_path ((stack_cp_entered (info (.join st)) s).trans hs) ((two_cg_entered _ s).trans h2)
  have hsame := setCp_cp_entered (info (.join st)) s
  rw [cp_entered] at hsame
  exact join_pathResult st (hj.trans hsame.symm)
theorem join_partner_running (st : BitVec 2) {s : State} (hs : (cp s).stack = []) (h2 : (cg s).two = true)
    (hr : (restingPath (cg s)).st = .running) :
    PathResult (.join st) s { cp s with
      pc := (cp s).pc + 4, st := .parked ((cp s).pc + 4), stall := st.toNat, wait := none } := by
  have hj := joinPath_of_partner_running ((stack_cp_entered (info (.join st)) s).trans hs) ((two_cg_entered _ s).trans h2)
    (by rw [restingPath_cg_entered, hr])
  rw [cp_entered] at hj
  exact join_pathResult st hj
/-- merge of R143: the path is new but for its address, stall count and return stack, and registers and bytes stay. -/
theorem join_partner_stopped (st : BitVec 2) {s : State} (hs : (cp s).stack = []) (h2 : (cg s).two = true)
    (hr : (restingPath (cg s)).st ≠ .running) (h : MayIssue (info (.join st)) s) :
    ∃ t, exec (.join st) s = .next t ∧ (cg t).two = false ∧
      cp t = { pc := (cp s).pc + 4, mask := (cg s).pairM &&& (cg s).live, scope := (cg s).pairS
               stall := st.toNat, rstack := (cp s).rstack } ∧
      (∀ r th, laneReg t r th = laneReg s r th) ∧ (∀ r, uniReg t r = uniReg s r) ∧
      ∀ m a, byteSeen t m a = byteSeen s m a := by
  have hj := joinPath_of_partner_stopped ((stack_cp_entered (info (.join st)) s).trans hs) ((two_cg_entered _ s).trans h2)
    (by rw [restingPath_cg_entered]; exact hr)
  have hexec := issue_done (act := fun s => .done (joinPath s)) h (congrArg Act.done hj)
  refine ⟨_, (exec_join st s).trans hexec, ?_, ?_, ?_, ?_, ?_⟩
  · exact two_settled_setCg h _
  · rw [cp_settled_setCg h, cp_entered, pathOf_mergePaths, pairM_cg_entered, pairS_cg_entered, live_cg_entered]; rfl
  · exact laneReg_settled_setCg h (v_cg_entered _ s)
  · exact uniReg_settled_setCg h (s_cg_entered _ s)
  · exact byteSeen_settled_setCg h (stores_cg_entered _ s) (spill_cg_entered _ s)

/-- Settles O23: each case of R143 sets the issuing path alone, and the last makes one path of the two. -/
theorem joins : Obligations.Joins := by
  intro s st e l
  exact ⟨rfl, join_first_side st, join_second_side st, join_one_path st, join_partner_running st, join_partner_stopped st⟩

end Sys2Proof.Machine
end

