-- ==== Sys2Proof/Proofs/ShiftsAndSelects.lean ====
section
/-!
PROOFS. Proofs/ShiftsAndSelects.lean: the shifts of both sets (R177) and the conditional moves SEL and SSEL (R184).
-/
namespace Sys2Proof.Machine

/-! ### Words that end in a lane or a uniform result -/

theorem laneResult_of_laneOut {ins : Instr} {s : State} {d : BitVec 7} {f : Nat → Word} {g : State → Nat → Word}
    (he : exec ins s = issue (info ins) s fun s => laneOut s d (g s)) (hg : ∀ t, g (entered (info ins) s) t = f t) :
    LaneResult ins s d.toNat f :=
  lane_result he (by rw [laneOut, emask_entered, funext hg])
theorem uniResult_of_uniOut {ins : Instr} {s : State} {d : BitVec 7} {w : Word} {g : State → Word}
    (he : exec ins s = issue (info ins) s fun s => uniOut s d (g s)) (hg : g (entered (info ins) s) = w) :
    UniResult ins s d.toNat w :=
  uni_result he (by rw [uniOut, hg])

/-! ### The value rules of R177 -/

theorem shlW_eq (x : Word) (n : Nat) : shlW x n = if 32 ≤ n then 0 else BitVec.ofNat 32 (x.toNat * 2 ^ n) := by
  rw [shlW]
  split
  · rfl
  · exact BitVec.eq_of_toNat_eq (by rw [BitVec.toNat_shiftLeft, BitVec.toNat_ofNat, Nat.shiftLeft_eq])
theorem shrW_eq (x : Word) (n : Nat) : shrW x n = if 32 ≤ n then 0 else BitVec.ofNat 32 (x.toNat / 2 ^ n) := by
  rw [shrW]
  split
  · rfl
  · have hlt : x.toNat / 2 ^ n < 2 ^ 32 := Nat.lt_of_le_of_lt (Nat.div_le_self _ _) x.isLt
    exact BitVec.eq_of_toNat_eq (by
      rw [BitVec.toNat_ushiftRight, BitVec.toNat_ofNat, Nat.shiftRight_eq_div_pow, Nat.mod_eq_of_lt hlt])
theorem sarW_eq (x : Word) (n : Nat) : sarW x n = BitVec.ofInt 32 (x.toInt / 2 ^ min n 31) := by
  rw [sarW, ← BitVec.ofInt_toInt (x := x.sshiftRight _), BitVec.toInt_sshiftRight, Int.shiftRight_eq_div_pow]
  norm_cast

/-! ### Shifts, by where the amount comes from; val is the value rule of an operation op -/

section
variable {ins : Instr} {s : State} {d a b : BitVec 7} {c : BitVec 1} {i : BitVec 8} {op val : Word → Nat → Word}

theorem laneResult_shift_by_operand
    (he : exec ins s = issue (info ins) s fun s => laneOut s d fun t => op (rv s a.toNat t) (rb s b c t).toNat)
    (hop : ∀ x n, op x n = val x n) :
    LaneResult ins s d.toNat fun t => val (laneReg s a.toNat t) (operandB s b c t).toNat :=
  laneResult_of_laneOut he fun t => by rw [rv_entered, rb_entered, hop]
theorem laneResult_shift_by_imm
    (he : exec ins s = issue (info ins) s fun s => laneOut s d fun t => op (rv s a.toNat t) i.toNat)
    (hop : ∀ x n, op x n = val x n) :
    LaneResult ins s d.toNat fun t => val (laneReg s a.toNat t) i.toNat :=
  laneResult_of_laneOut he fun t => by rw [rv_entered, hop]
theorem uniResult_shift_by_register
    (he : exec ins s = issue (info ins) s fun s => uniOut s d (op (rs s a.toNat) (rs s b.toNat).toNat))
    (hop : ∀ x n, op x n = val x n) :
    UniResult ins s d.toNat (val (uniReg s a.toNat) (uniReg s b.toNat).toNat) :=
  uniResult_of_uniOut he (by rw [rs_entered, rs_entered, hop])
theorem uniResult_shift_by_imm
    (he : exec ins s = issue (info ins) s fun s => uniOut s d (op (rs s a.toNat) i.toNat))
    (hop : ∀ x n, op x n = val x n) :
    UniResult ins s d.toNat (val (uniReg s a.toNat) i.toNat) :=
  uniResult_of_uniOut he (by rw [rs_entered, hop])
end

theorem latency_shifts (st : BitVec 2) (d a b : BitVec 7) (c : BitVec 1) (i : BitVec 8) :
    ∀ j ∈ [Instr.shl st d a b c, .shr st d a b c, .sar st d a b c, .shli st d a i, .shri st d a i, .sari st d a i,
      .sshl st d a b, .sshr st d a b, .ssar st d a b, .sshli st d a i, .sshri st d a i], (info j).latency = 12 := by
  simp only [List.forall_mem_cons, info, List.not_mem_nil, false_imp_iff, implies_true, and_self]

/-- Settles O16: each shift is its operation of the model, whose value is the one R177 gives for the full amount. -/
theorem shifts : Obligations.Shifts := by
  intro s st d a b c i shl shr sar
  exact ⟨laneResult_shift_by_operand (exec_shl ..) shlW_eq, laneResult_shift_by_operand (exec_shr ..) shrW_eq,
    laneResult_shift_by_operand (exec_sar ..) sarW_eq, laneResult_shift_by_imm (exec_shli ..) shlW_eq,
    laneResult_shift_by_imm (exec_shri ..) shrW_eq, laneResult_shift_by_imm (exec_sari ..) sarW_eq,
    uniResult_shift_by_register (exec_sshl ..) shlW_eq, uniResult_shift_by_register (exec_sshr ..) shrW_eq,
    uniResult_shift_by_register (exec_ssar ..) sarW_eq, uniResult_shift_by_imm (exec_sshli ..) shlW_eq,
    uniResult_shift_by_imm (exec_sshri ..) shrW_eq, latency_shifts st d a b c i, rfl⟩

/-! ### Conditional moves (R184) -/

/-- A predicate after negation, as a word reads it in its active threads. -/
theorem predNeg_entered_of_active {s : State} {p t : Nat} (i : Info) (n : BitVec 1) (hact : bitOf (emask s) t = true) :
    bitOf (predNeg (entered i s) p n) t = (predReg s p t != (n == 1)) := by
  obtain ⟨hwidth, h128⟩ := active_lt hact
  rw [predNeg, ← rp_entered i s p hwidth h128]
  cases n == 1 with
  | false => rw [if_neg Bool.false_ne_true, Bool.bne_false]
  | true => rw [if_pos rfl, Bool.bne_true, bitOf, BitVec.getLsbD_not, decide_eq_true h128, Bool.true_and, bitOf]

/-- The test of BRA (R141), which SSEL makes too. -/
def branchTest (s : State) (p : BitVec 3) (n : BitVec 1) : Prop :=
  (p.toNat = 0 ∧ n = 0) ∨ ∃ th, bitOf (emask s) th = true ∧ (predReg s p.toNat th != (n == 1)) = true

theorem ne_zero_iff_bitOf (m : Mask) : m ≠ 0 ↔ ∃ t, bitOf m t = true := by
  constructor
  · intro h
    refine Classical.byContradiction fun hno => h (BitVec.eq_of_getLsbD_eq fun t _ => ?_)
    have hclear : bitOf m t = false := Bool.eq_false_iff.mpr fun ht => hno ⟨t, ht⟩
    exact hclear.trans BitVec.getLsbD_zero.symm
  · rintro ⟨t, ht⟩ rfl
    exact Bool.false_ne_true (BitVec.getLsbD_zero.symm.trans ht)

theorem predAny_entered_iff (i : Info) (s : State) (p : BitVec 3) (n : BitVec 1) :
    predAny (entered i s) p.toNat n = true ↔ branchTest s p n := by
  have hbit : ∀ t, bitOf (emask s &&& predNeg (entered i s) p.toNat n) t = true ↔
      bitOf (emask s) t = true ∧ (predReg s p.toNat t != (n == 1)) = true := fun t => by
    rw [bitOf_and, Bool.and_eq_true]
    exact and_congr_right fun hact => by rw [predNeg_entered_of_active i n hact]
  rw [predAny, emask_entered, Bool.or_eq_true, Bool.and_eq_true, beq_iff_eq, beq_iff_eq, bne_iff_ne, ne_zero_iff_bitOf,
    exists_congr hbit, branchTest]

/-- A write in the threads of m and q is a write in those of m that keeps the old value outside q. -/
theorem laneNew_and (s : State) (r : Nat) (m q : Mask) (f : Nat → Word) :
    laneNew s r (m &&& q) f = laneNew s r m fun t => if bitOf q t then f t else laneReg s r t := by
  refine List.map_congr_left fun t _ => ?_
  rw [bitOf_and]
  cases bitOf m t <;> rfl

theorem laneNew_congr {s : State} {r : Nat} {m : Mask} {f g : Nat → Word} (h : ∀ t, bitOf m t = true → f t = g t) :
    laneNew s r m f = laneNew s r m g := by
  refine List.map_congr_left fun t _ => ?_
  split
  · exact h t ‹_›
  · rfl

theorem laneResult_sel (s : State) (st : BitVec 2) (d a : BitVec 7) (n : BitVec 1) (p : BitVec 3) :
    LaneResult (.sel st d a n p) s d.toNat fun t =>
      if predReg s p.toNat t != (n == 1) then laneReg s a.toNat t else laneReg s d.toNat t := by
  refine lane_result (exec_sel ..) (congrArg Act.done ?_)
  rw [emask_entered, wv_entered, wv_entered, laneNew_and, laneNew_congr]
  intro t hact
  rw [predNeg_entered_of_active _ n hact, rv_entered]

theorem uniResult_ssel_of_test {s : State} (st : BitVec 2) (d a : BitVec 7) {p : BitVec 3} {n : BitVec 1}
    (h : branchTest s p n) : UniResult (.ssel st d a p n) s d.toNat (uniReg s a.toNat) :=
  uni_result (exec_ssel ..) (by rw [if_pos ((predAny_entered_iff _ s p n).mpr h), rs_entered])

/-- A word that changes no register leaves any uniform register its value. -/
theorem uniResult_unchanged {ins : Instr} {s : State} {act : State → Act} (he : exec ins s = issue (info ins) s act)
    (ha : act (entered (info ins) s) = .done (entered (info ins) s)) (d : Nat) : UniResult ins s d (uniReg s d) := by
  intro h
  obtain ⟨t, ht, honly⟩ := none_result he ha h
  exact ⟨t, ht, honly.uniform d List.not_mem_nil, { honly with uniform := fun n _ => honly.uniform n List.not_mem_nil }⟩

theorem uniResult_ssel_of_not_test {s : State} (st : BitVec 2) (d a : BitVec 7) {p : BitVec 3} {n : BitVec 1}
    (h : ¬ branchTest s p n) : UniResult (.ssel st d a p n) s d.toNat (uniReg s d.toNat) :=
  uniResult_unchanged (exec_ssel ..) (by rw [if_neg (mt (predAny_entered_iff _ s p n).mp h)]) d.toNat

/-- Settles O17: SEL writes where its predicate holds of the active threads, SSEL where the test of BRA holds. -/
theorem conditionalMoves : Obligations.ConditionalMoves := by
  intro s st d a n p test
  exact ⟨laneResult_sel s st d a n p, uniResult_ssel_of_test st d a, uniResult_ssel_of_not_test st d a, rfl,
    List.Subset.refl _, rfl, List.Subset.refl _, rfl, rfl, rfl, rfl⟩

end Sys2Proof.Machine
end

