-- ==== Sys2Proof/Proofs/Exchange.lean ====
section
/-!
PROOFS. Proofs/Exchange.lean: the lane words in which a thread takes a value by what other threads hold: SHFLI and SHFL (R227)
and MATCH (R231).
-/
namespace Sys2Proof.Machine

/-! ### Shuffles (R227) -/

/-- The model tests whether the source is outside the group, the rule whether it is inside. -/
theorem shflValue_entered (i : Info) (s : State) (a t : Nat) (src : Int) :
    shflValue (entered i s) a t src =
      if 0 ≤ src ∧ src < (cg s).width then laneReg s a src.toNat else laneReg s a t := by
  rw [shflValue, rv_entered, rv_entered, width_entered]
  by_cases hin : 0 ≤ src ∧ src < (cg s).width
  · rw [if_pos hin, if_neg (by omega)]
  · rw [if_neg hin, if_pos (by omega)]

/-- Settles O18: in each form the source's value, or the thread's own, is the one the model's shflValue picks. -/
theorem shuffles : Obligations.Shuffles := by
  intro s st d a b c m k other
  have hshfli := laneResult_of_laneOut (exec_shfli st d a m k s) fun t =>
    shflValue_entered _ s a.toNat t (shfliSource m.toNat k.toNat t)
  have hshfl := laneResult_of_laneOut (exec_shfl st d a b c s) fun t => by
    rw [rb_entered, shflValue_entered]
  exact ⟨hshfli, hshfl, rfl, rfl, rfl, rfl⟩

/-! ### MATCH (R231) -/

/-- A search through the threads of a mask finds the lowest one that passes. -/
theorem find?_threadsOf_eq_some {w : Nat} {m : Mask} {q : Nat → Bool} {u : Nat} :
    (threadsOf w m).find? q = some u ↔
      u < w ∧ bitOf m u = true ∧ q u = true ∧ ∀ v, v < u → bitOf m v = true → q v = false := by
  simp only [threadsOf, List.find?_filter, List.find?_range_eq_some, List.mem_range, Bool.not_eq_true', decide_eq_true_eq,
    decide_eq_false_iff_not, not_and, Bool.not_eq_true]
  rw [and_left_comm, and_assoc]

/-- u is the lowest active thread whose key is that of t. -/
def LowestMatch (s : State) (key : Nat → BitVec 64) (t u : Nat) : Prop :=
  bitOf (emask s) u = true ∧ key u = key t ∧ ∀ v, bitOf (emask s) v = true → key v = key t → u ≤ v

theorem find?_key_of_lowestMatch {s : State} {key : Nat → BitVec 64} {t u : Nat} (h : LowestMatch s key t u) :
    (threadsOf (cg s).width (emask s)).find? (fun v => key v == key t) = some u := by
  obtain ⟨hact, hkey, hlow⟩ := h
  refine find?_threadsOf_eq_some.mpr ⟨(active_lt hact).1, hact, beq_iff_eq.mpr hkey, fun v hv hvact => ?_⟩
  exact beq_eq_false_iff_ne.mpr fun hvkey => Nat.not_le.mpr hv (hlow v hvact hvkey)

/-- A lane result asks for the values of the active threads alone. -/
theorem laneResult_of_laneOut_of_active {ins : Instr} {s : State} {d : BitVec 7} {f : Nat → Word} {g : State → Nat → Word}
    (he : exec ins s = issue (info ins) s fun s => laneOut s d (g s))
    (hg : ∀ t, bitOf (emask s) t = true → g (entered (info ins) s) t = f t) : LaneResult ins s d.toNat f :=
  lane_result he (by rw [laneOut, emask_entered, wv_entered, wv_entered, laneNew_congr hg])

theorem laneResult_matchKeys {s : State} (st : BitVec 2) (d : BitVec 7) {a b : BitVec 7} {c : BitVec 1} {f : Nat → Nat}
    (hf : ∀ t, bitOf (emask s) t = true → LowestMatch s (fun u => operandB s b c u ++ laneReg s a.toNat u) t (f t)) :
    LaneResult (.matchKeys st d a b c) s d.toNat fun t => BitVec.ofNat 32 (f t) := by
  refine laneResult_of_laneOut_of_active (exec_matchKeys st d a b c s) fun t hact => ?_
  simp only [cat64, rb_entered, rv_entered, width_entered, emask_entered, find?_key_of_lowestMatch (hf t hact), Option.getD_some]

/-- The b operand is read in the active threads, lane or uniform (R27). -/
theorem threads_bUse (b : BitVec 7) (c : BitVec 1) (k : Nat) : (bUse b c k).2 = .active := by
  rw [bUse]; split <;> rfl

theorem threads_reads_matchKeys (st : BitVec 2) (d a b : BitVec 7) (c : BitVec 1) :
    (info (.matchKeys st d a b c)).reads.map Prod.snd = [.active, .active] :=
  congrArg (fun x => [Threads.active, x]) (threads_bUse b c 0)

/-- Settles O19: the search through the active threads, in ascending order, ends at the lowest one with the same key. -/
theorem matchWord : Obligations.MatchWord := by
  intro s st d a b c f key
  refine ⟨laneResult_matchKeys st d, ?_, rfl, rfl⟩
  rw [threads_reads_matchKeys, List.cons_subset]
  exact ⟨List.mem_singleton_self _, List.Subset.refl _⟩

end Sys2Proof.Machine
end

