-- ==== Sys2Proof/Proofs/TranslationRegisters.lean ====
section
/-!
PROOFS. Proofs/TranslationRegisters.lean: words that write a run of uniform registers, or make a list of translation registers
invalid; with them XRD (R331) and XINV (R332).
-/
namespace Sys2Proof.Machine

theorem setCg_cg_entered (i : Info) (s : State) : setCg (entered i s) (cg (entered i s)) = entered i s := by
  rw [cg_entered, entered_eq, setCg_setCg]

/-! ### Runs of uniform registers -/

/-- The uniform registers u after the words vs are written to those from n on, as wsList writes them. -/
def putRun : Map Word → Nat → List Word → Map Word
  | u, _, [] => u
  | u, n, w :: vs => putRun (Map.put u n w) (n + 1) vs
theorem look_putRun_of_notMem {u : Map Word} {n k : Nat} {vs : List Word} (hk : k ∉ List.range' n vs.length) :
    Map.look (putRun u n vs) k 0 = Map.look u k 0 := by
  induction vs generalizing u n with
  | nil => rfl
  | cons w vs ih =>
    obtain ⟨hne, hrest⟩ := not_or.mp (mt List.mem_cons.mpr hk)
    rw [putRun, ih hrest, look_put_other _ _ _ hne]
theorem look_putRun_add (u : Map Word) (n : Nat) {j : Nat} {vs : List Word} (hj : j < vs.length) :
    Map.look (putRun u n vs) (n + j) 0 = vs.getD j 0 := by
  induction vs generalizing u n j with
  | nil => exact absurd hj (Nat.not_lt_zero j)
  | cons w vs ih =>
    cases j with
    | zero =>
      have hbefore : n ∉ List.range' (n + 1) vs.length := by rw [List.mem_range'_1]; omega
      rw [Nat.add_zero, putRun, look_putRun_of_notMem hbefore, look_put_same, List.getD_cons_zero]
    | succ j =>
      have hshift : n + (j + 1) = n + 1 + j := by omega
      rw [hshift, putRun, ih _ _ (Nat.lt_of_succ_lt_succ hj), List.getD_cons_succ]
theorem wsList_setCg (s : State) (g : Group) (n : Nat) (vs : List Word) :
    wsList (setCg s g) n vs = setCg s { g with s := putRun g.s n vs } := by
  induction vs generalizing g n with
  | nil => rfl
  | cons w vs ih => rw [wsList, ws, cg_setCg, setCg_setCg, ih]; rfl
theorem wsList_entered (i : Info) (s : State) (n : Nat) (vs : List Word) :
    wsList (entered i s) n vs = setCg (entered i s) { cg (entered i s) with s := putRun (cg s).s n vs } := by
  have h := wsList_setCg (entered i s) (cg (entered i s)) n vs
  rwa [setCg_cg_entered, (entered_fields i s).2.1] at h

/-- A word whose own effect writes l words to the uniform registers from n on. -/
theorem uni_run_result {ins : Instr} {s : State} {n l : Nat} {vs : List Word} {act : State → Act}
    (he : exec ins s = issue (info ins) s act)
    (ha : act (entered (info ins) s) = .done (wsList (entered (info ins) s) n vs)) (hl : vs.length = l)
    (h : MayIssue (info ins) s) :
    ∃ t, exec ins s = .next t ∧ (∀ j, j < l → uniReg t (n + j) = vs.getD j 0) ∧
      OnlyRegs (info ins) s t [] (List.range' n l) [] [] [] := by
  subst hl
  refine ⟨_, he.trans (issue_done h ha), ?_⟩
  rw [wsList_entered, regsDone_u]
  refine ⟨fun j hj => ?_, ?_⟩
  · rw [uniReg, (regsDone_regs h _ _ _ _ _).2.1, look_putRun_add _ _ hj]
  · exact regsDone_only h _ _ _ _ _ (fun _ _ => rfl) (fun _ hk => look_putRun_of_notMem hk) (fun _ _ _ => rfl)
      (fun _ _ => rfl) (fun _ _ => rfl)

/-! ### XRD (R331) -/

/-- What XRD writes of a register: base, limit and flags if it is valid, else zeros. -/
def xrdWords (r : XReg) : List Word :=
  if r.valid then [lowWord r.base, highWord r.base, BitVec.ofNat 32 r.limit, xrdFlags r] else [0, 0, 0, 0]
theorem length_xrdWords (r : XReg) : (xrdWords r).length = 4 := by
  rw [xrdWords]; split <;> rfl
theorem flag_eq_mul (b : Bool) (n : Nat) : (if b then n else 0) = n * (if b then 1 else 0) := by
  cases b with
  | false => exact (Nat.mul_zero n).symm
  | true => exact (Nat.mul_one n).symm
theorem xrdFlags_eq {r : XReg} (hv : r.valid = true) :
    xrdFlags r = BitVec.ofNat 32 (1 + 2 * (if r.remote then 1 else 0) + 4 * (if r.r then 1 else 0) +
      8 * (if r.w then 1 else 0) + 16 * (if r.x then 1 else 0) + 32 * (r.cls % 4) + 256 * (r.key % 256) +
      65536 * (r.level % 4)) := by
  dsimp only [xrdFlags]
  rw [hv, if_pos rfl, flag_eq_mul r.remote 2, flag_eq_mul r.r 4, flag_eq_mul r.w 8, flag_eq_mul r.x 16, Nat.mul_comm 32,
    Nat.mul_comm 256, Nat.mul_comm 65536]
theorem xrd_result (st : BitVec 2) (d : BitVec 5) (x : BitVec 3) {s : State} (h : MayIssue (info (.xrd st d x)) s) :
    ∃ t, exec (.xrd st d x) s = .next t ∧
      (∀ j, j < 4 → uniReg t (4 * d.toNat + j) = (xrdWords (xlatReg s x.toNat)).getD j 0) ∧
      OnlyRegs (info (.xrd st d x)) s t [] (List.range' (4 * d.toNat) 4) [] [] [] :=
  uni_run_result (exec_xrd st d x s) (by rw [rx_entered]; rfl) (length_xrdWords _) h

/-! ### XINV (R332) -/

/-- The translation registers that a mask names. -/
def maskRegs (m : BitVec 8) : List Nat := (List.range 8).filter fun j => m.getLsbD j
/-- The translation registers x after those of a list become invalid. -/
def invalidated (x : Map XReg) (js : List Nat) : Map XReg := js.foldl (fun x j => Map.put x j {}) x
theorem look_invalidated (x : Map XReg) (js : List Nat) (k : Nat) :
    Map.look (invalidated x js) k {} = if k ∈ js then {} else Map.look x k {} := by
  induction js generalizing x with
  | nil => rfl
  | cons j js ih =>
    rw [invalidated, List.foldl_cons, ← invalidated, ih]
    by_cases hj : k = j
    · subst hj; rw [look_put_same, ite_self, if_pos List.mem_cons_self]
    · rw [look_put_other _ _ _ hj]; simp only [List.mem_cons, hj, false_or]
theorem foldl_wx_setCg (s : State) (g : Group) (js : List Nat) :
    js.foldl (fun s j => wx s j {}) (setCg s g) = setCg s { g with x := invalidated g.x js } := by
  induction js generalizing g with
  | nil => rfl
  | cons j js ih => rw [List.foldl_cons, wx, cg_setCg, setCg_setCg, ih]; rfl
theorem foldl_wx_entered (i : Info) (s : State) (js : List Nat) :
    js.foldl (fun s j => wx s j {}) (entered i s) =
      setCg (entered i s) { cg (entered i s) with x := invalidated (cg s).x js } := by
  have h := foldl_wx_setCg (entered i s) (cg (entered i s)) js
  rwa [setCg_cg_entered, (entered_fields i s).2.2.2.1] at h
theorem regsDone_x (i : Info) (s : State) (x : Map XReg) :
    settled i s (setCg (entered i s) { cg (entered i s) with x := x }) = regsDone i s (cg s).v (cg s).s (cg s).p x (cg s).g := by
  obtain ⟨hv, hs, hp, -, hg⟩ := entered_fields i s
  rw [regsDone, ← hv, ← hs, ← hp, ← hg]
theorem xinv_result (st : BitVec 2) (m : BitVec 8) {s : State} (h : MayIssue (info (.xinv st m)) s) :
    ∃ t, exec (.xinv st m) s = .next t ∧ (∀ k, xlatReg t k = if k ∈ maskRegs m then {} else xlatReg s k) ∧
      OnlyRegs (info (.xinv st m)) s t [] [] [] (List.range 8) [] := by
  refine ⟨_, (exec_xinv st m s).trans (issue_done h rfl), ?_⟩
  rw [← maskRegs, foldl_wx_entered, regsDone_x]
  refine ⟨fun k => ?_, ?_⟩
  · rw [xlatReg, (regsDone_regs h _ _ _ _ _).2.2.2.1, look_invalidated, xlatReg]
  · refine regsDone_only h _ _ _ _ _ (fun _ _ => rfl) (fun _ _ => rfl) (fun _ _ _ => rfl) (fun k hk => ?_) (fun _ _ => rfl)
    have hother : k ∉ maskRegs m := fun hmem => hk (List.mem_filter.mp hmem).1
    rw [look_invalidated, if_neg hother]

/-- Settles O20: XRD writes the words of xrdWords, in which no physical address stands, and XINV leaves the registers of its mask
as the invalid one. -/
theorem translationReadings : Obligations.TranslationReadings := by
  intro s st x d m r bit
  refine ⟨fun h => ?_, fun h => ?_, rfl, rfl, rfl⟩
  · obtain ⟨t, ht, hwords, honly⟩ := xrd_result st d x h
    refine ⟨t, ht, fun hv => ?_, fun hv j hj => ?_, honly⟩
    · have hvalid : xrdWords r = [lowWord r.base, highWord r.base, BitVec.ofNat 32 r.limit, xrdFlags r] := if_pos hv
      rw [hvalid] at hwords
      exact ⟨hwords 0 (by decide), hwords 1 (by decide), hwords 2 (by decide), (hwords 3 (by decide)).trans (xrdFlags_eq hv)⟩
    · have hzeros : xrdWords r = List.replicate 4 0 := if_neg (Bool.eq_false_iff.mp hv)
      rw [hwords j hj, hzeros, List.getD_eq_getElem?_getD, List.getElem?_replicate_of_lt hj, Option.getD_some]
  · obtain ⟨t, ht, hregs, honly⟩ := xinv_result st m h
    refine ⟨t, ht, fun j hj hset => ?_, fun j _ hclear => ?_, honly⟩
    · have hnamed : j ∈ maskRegs m := List.mem_filter.mpr ⟨List.mem_range.mpr hj, hset⟩
      rw [hregs j, if_pos hnamed]; exact ⟨rfl, rfl⟩
    · have hother : j ∉ maskRegs m := fun hmem => Bool.eq_false_iff.mp hclear (List.mem_filter.mp hmem).2
      rw [hregs j, if_neg hother]

end Sys2Proof.Machine
end

