-- ==== Sys2Proof/Proofs/Encoding.lean ====
section
/-!
PROOFS. Proofs/Encoding.lean: the encoder and the decoder are inverse to one another (R26 to R35), and the spec's worked encodings.
-/
namespace Sys2Proof
open Laws

theorem whenClean_ok {c : Bool} {i j : Instr} : whenClean c i = .ok j ↔ c = true ∧ i = j := by
  cases c with
  | true => exact ⟨fun h => ⟨rfl, Except.ok.inj h⟩, fun h => congrArg Except.ok h.2⟩
  | false => exact ⟨nofun, nofun⟩

/-! ### Fields of a word whose value is given part by part -/

theorem fld_ofNat (w : Word) (lo n : Nat) : fld w lo n = BitVec.ofNat n (w.toNat / 2 ^ lo) :=
  BitVec.eq_of_toNat_eq (by rw [fld_toNat, BitVec.toNat_ofNat])
theorem div_past {a m lo : Nat} (y : BitVec m) (h : m ≤ lo) : (a * 2 ^ m + y.toNat) / 2 ^ lo = a / 2 ^ (lo - m) := by
  obtain ⟨k, rfl⟩ := Nat.exists_eq_add_of_le h
  rw [Nat.add_sub_cancel_left, Nat.pow_add, ← Nat.div_div_eq_div_mul, Nat.mul_comm a, Nat.mul_add_div (Nat.two_pow_pos m),
    Nat.div_eq_of_lt y.isLt, Nat.add_zero]
theorem div_here (x : Nat) : x / 2 ^ 0 = x := by rw [Nat.pow_zero, Nat.div_one]
theorem ofNat_here {a m : Nat} (y : BitVec m) : BitVec.ofNat m (a * 2 ^ m + y.toNat) = y :=
  BitVec.eq_of_toNat_eq (by rw [BitVec.toNat_ofNat, Nat.mul_comm, Nat.mul_add_mod, Nat.mod_eq_of_lt y.isLt])
/-- The top byte holds the set's bit (R26) above the opcode. -/
theorem set_of_byte {w : Word} {n : Nat} (h : fld w 24 8 = BitVec.ofNat 8 n) : fld w 31 1 = BitVec.ofNat 1 (n / 128) := by
  have hn := congrArg BitVec.toNat h
  rw [fld_toNat, BitVec.toNat_ofNat] at hn
  refine fld_eq ?_
  rw [BitVec.toNat_ofNat]; omega
theorem op_of_byte {w : Word} {n : Nat} (h : fld w 24 8 = BitVec.ofNat 8 n) : (fld w 24 7).toNat = n % 128 := by
  have hn := congrArg BitVec.toNat h
  rw [fld_toNat, BitVec.toNat_ofNat] at hn
  rw [fld_toNat]; omega

/-- EMAND's two forms differ in the lowest bit. -/
theorem fld_lowBit (w : Word) (k : Nat) : fld w 0 1 = (fld w 0 (k + 1)).extractLsb' 0 1 := by
  refine fld_eq ?_
  rw [BitVec.extractLsb'_toNat, fld_toNat, Nat.shiftRight_zero, Nat.mod_mod_of_dvd _ (Nat.pow_dvd_pow 2 (Nat.le_add_left 1 k))]

/-! ### The word of an instruction decodes to it -/

theorem decodeLane_of_encode {w : Word} {i : Instr} (hset : fld w 31 1 = 0) (h : encode i = some w) : decodeLane w = .ok i := by
  cases i <;> injection h <;> rename_i h
  all_goals
    have hw := congrArg BitVec.toNat h
    rw [toNat_fields] at hw
    simp only [-Nat.reducePow, -BitVec.reduceToNat, toNat_fields] at hw
    have hbyte := fld_ofNat w 24 8
    simp only [-Nat.reducePow, -BitVec.reduceToNat, ← hw, div_past, div_here, Nat.reduceLeDiff, Nat.reduceSub] at hbyte
    rw [set_of_byte hbyte] at hset
    simp only [BitVec.reduceToNat, Nat.reduceDiv, BitVec.ofNat_eq_ofNat, BitVec.reduceEq] at hset
  all_goals
    have hop := op_of_byte hbyte
    simp only [BitVec.reduceToNat, Nat.reduceMod] at hop
    rw [decodeLane, hop]
    first
      | refine Eq.trans (b := whenClean _ _) rfl (whenClean_ok.mpr ⟨?_, ?_⟩)
      | refine Eq.trans (b := Except.ok _) rfl (congrArg Except.ok ?_)
  all_goals
    simp only [-Nat.reducePow, -BitVec.reduceToNat, fld_ofNat, ← hw, div_past, ofNat_here, div_here, Nat.reduceLeDiff, Nat.reduceSub]
    try rfl

theorem decodeUniform_of_encode {w : Word} {i : Instr} (hset : fld w 31 1 = 1) (h : encode i = some w) : decodeUniform w = .ok i := by
  cases i <;> injection h <;> rename_i h
  all_goals
    have hw := congrArg BitVec.toNat h
    rw [toNat_fields] at hw
    simp only [-Nat.reducePow, -BitVec.reduceToNat, toNat_fields] at hw
    have hbyte := fld_ofNat w 24 8
    simp only [-Nat.reducePow, -BitVec.reduceToNat, ← hw, div_past, div_here, Nat.reduceLeDiff, Nat.reduceSub] at hbyte
    rw [set_of_byte hbyte] at hset
    simp only [BitVec.reduceToNat, Nat.reduceDiv, BitVec.ofNat_eq_ofNat, BitVec.reduceEq] at hset
  all_goals
    have hop := op_of_byte hbyte
    simp only [BitVec.reduceToNat, Nat.reduceMod] at hop
    rw [decodeUniform, hop]
  case' emandPred st p n =>
    have hlow : fld w 0 4 = 1#4 := by
      simp only [-Nat.reducePow, -BitVec.reduceToNat, fld_ofNat, ← hw, ofNat_here, div_here]
    have hbranch : (fld w 0 1 == 1) = true := by rw [fld_lowBit w 3, hlow]; rfl
    refine Eq.trans (b := if _ then whenClean _ _ else _) rfl ((if_pos hbranch).trans (whenClean_ok.mpr ⟨?_, ?_⟩))
  case' emandReg st a =>
    have hlow : fld w 0 10 = 0#10 := by
      simp only [-Nat.reducePow, -BitVec.reduceToNat, fld_ofNat, ← hw, ofNat_here, div_here]
    have hbranch : ¬ (fld w 0 1 == 1) = true := by rw [fld_lowBit w 9, hlow]; decide
    refine Eq.trans (b := if _ then _ else whenClean _ _) rfl ((if_neg hbranch).trans (whenClean_ok.mpr ⟨?_, ?_⟩))
  any_goals
    first
      | refine Eq.trans (b := whenClean _ _) rfl (whenClean_ok.mpr ⟨?_, ?_⟩)
      | refine Eq.trans (b := Except.ok _) rfl (congrArg Except.ok ?_)
  all_goals
    simp only [-Nat.reducePow, -BitVec.reduceToNat, fld_ofNat, ← hw, div_past, ofNat_here, div_here, Nat.reduceLeDiff, Nat.reduceSub]
    try rfl

/-! ### A word that decodes is its instruction's word -/

theorem fld_append (w : Word) {hi lo n m : Nat} (h : hi = lo + m) : fld w hi n ++ fld w lo m = fld w lo (n + m) := by
  subst h
  refine BitVec.eq_of_getLsbD_eq fun i hi => ?_
  simp only [fld, BitVec.getLsbD_append, BitVec.getLsbD_extractLsb']
  by_cases him : i < m
  · simp [him, hi]
  · have hhigh : i - m < n := by omega
    have hbit : lo + m + (i - m) = lo + i := by omega
    simp [him, hi, hhigh, hbit]
theorem fld_append_zero {w : Word} {hi lo n m : Nat} (hz : (fld w lo m == 0) = true) (h : hi = lo + m) :
    fld w hi n ++ 0#m = fld w lo (n + m) := by
  have hzero : fld w lo m = 0#m := eq_of_beq hz
  rw [← hzero, fld_append w h]
theorem fld_all (w : Word) : fld w 0 32 = w := extract_all w
/-- The top byte holds the set's bit (R26) above the opcode. -/
theorem topByte_eq (w : Word) {n k : Nat} (hset : fld w 31 1 = BitVec.ofNat 1 k) (hop : (fld w 24 7).toNat = n) :
    fld w 24 8 = BitVec.ofNat 8 (k % 2 * 128 + n) := by
  have hsplit : fld w 24 8 = fld w 31 1 ++ fld w 24 7 := (fld_append w (lo := 24) (m := 7) rfl).symm
  have hlt := (fld w 24 7).isLt
  refine BitVec.eq_of_toNat_eq ?_
  rw [hsplit, toNat_fields, hset, BitVec.toNat_ofNat, BitVec.toNat_ofNat]
  omega
theorem and_left_of {a b : Bool} (h : (a && b) = true) : a = true := (Bool.and_eq_true_iff.mp h).1
theorem and_right_of {a b : Bool} (h : (a && b) = true) : b = true := (Bool.and_eq_true_iff.mp h).2
theorem encode_of_clean {w : Word} {c : Bool} {i j : Instr} (h : whenClean c j = .ok i) (hj : c = true → encode j = some w) :
    encode i = some w := by
  obtain ⟨hc, rfl⟩ := whenClean_ok.mp h
  exact hj hc
theorem encode_of_ok {w : Word} {i j : Instr} (h : Except.ok (ε := DecodeError) j = .ok i) (hj : encode j = some w) :
    encode i = some w := Except.ok.inj h ▸ hj

theorem encode_of_decodeLane {w : Word} {i : Instr} (hset : fld w 31 1 = 0) (h : decodeLane w = .ok i) : encode i = some w := by
  unfold decodeLane at h
  split at h
  all_goals
    rename_i hop
    first
      | refine encode_of_clean h fun hclean => ?_
      | refine encode_of_ok h ?_
      | exact nomatch h
  all_goals
    have hbyte := topByte_eq w (k := 0) hset hop
    simp only [Nat.reduceAdd, Nat.reduceMul, Nat.reduceMod] at hbyte
    refine congrArg some ?_
    rw [← hbyte]
    repeat first
      | rw [fld_append w (by decide)]
      | rw [fld_append_zero hclean (by decide)]
      | rw [fld_append_zero (and_left_of hclean) (by decide)]
      | rw [fld_append_zero (and_right_of hclean) (by decide)]
      | rw [fld_append_zero (and_left_of (and_left_of hclean)) (by decide)]
      | rw [fld_append_zero (and_right_of (and_left_of hclean)) (by decide)]
    exact fld_all w

theorem encode_of_emand {w : Word} {i : Instr} (hbyte : fld w 24 8 = 0xAC#8)
    (h : (if fld w 0 1 == 1 then
        whenClean (fld w 0 4 == 1 && fld w 8 14 == 0) (.emandPred (fld w 22 2) (fld w 5 3) (fld w 4 1))
      else whenClean (fld w 0 10 == 0 && fld w 15 7 == 0) (.emandReg (fld w 22 2) (fld w 10 5))) = .ok i) :
    encode i = some w := by
  split at h
  · refine encode_of_clean h fun hclean => congrArg some ?_
    have hlow : fld w 0 4 = 1#4 := eq_of_beq (and_left_of hclean)
    rw [← hbyte, fld_append w (by decide), fld_append_zero (and_right_of hclean) (by decide), fld_append w (by decide),
      fld_append w (by decide), ← hlow, fld_append w (by decide)]
    exact fld_all w
  · refine encode_of_clean h fun hclean => congrArg some ?_
    rw [← hbyte, fld_append w (by decide), fld_append_zero (and_right_of hclean) (by decide), fld_append w (by decide),
      fld_append_zero (and_left_of hclean) (by decide)]
    exact fld_all w

theorem encode_of_decodeUniform {w : Word} {i : Instr} (hset : fld w 31 1 = 1) (h : decodeUniform w = .ok i) : encode i = some w := by
  unfold decodeUniform at h
  split at h
  case h_45 hop => exact encode_of_emand (topByte_eq w (k := 1) hset hop) h
  all_goals
    rename_i hop
    first
      | refine encode_of_clean h fun hclean => ?_
      | refine encode_of_ok h ?_
      | exact nomatch h
  all_goals
    have hbyte := topByte_eq w (k := 1) hset hop
    simp only [Nat.reduceAdd, Nat.reduceMul, Nat.reduceMod] at hbyte
    refine congrArg some ?_
    rw [← hbyte]
    repeat first
      | rw [fld_append w (by decide)]
      | rw [fld_append_zero hclean (by decide)]
      | rw [fld_append_zero (and_left_of hclean) (by decide)]
      | rw [fld_append_zero (and_right_of hclean) (by decide)]
      | rw [fld_append_zero (and_left_of (and_left_of hclean)) (by decide)]
      | rw [fld_append_zero (and_right_of (and_left_of hclean)) (by decide)]
    exact fld_all w

/-! ### Both sets -/

theorem fld_set (w : Word) : fld w 31 1 = 0 ∨ fld w 31 1 = 1 := BitVec.eq_zero_or_eq_one _
theorem decodeWord_of_encode {w : Word} {i : Instr} (h : encode i = some w) : decodeWord w = .ok i := by
  rcases fld_set w with hset | hset
  · rw [decodeWord, hset]; exact decodeLane_of_encode hset h
  · rw [decodeWord, hset]; exact decodeUniform_of_encode hset h
theorem encode_of_decodeWord {w : Word} {i : Instr} (h : decodeWord w = .ok i) : encode i = some w := by
  rcases fld_set w with hset | hset
  · rw [decodeWord, hset] at h; exact encode_of_decodeLane hset h
  · rw [decodeWord, hset] at h; exact encode_of_decodeUniform hset h

/-- Settles O2: in each direction by the opcode, whose branch of the decoder reads the fields that the encoder lays side by side. -/
theorem roundTrip : Obligations.RoundTrip :=
  ⟨fun _ _ h => decodeWord_of_encode h, fun _ _ h => encode_of_decodeWord h⟩

/-- Settles O1: eight of the words are written from the fields of their instructions, and the last two have no instruction. -/
theorem decodingRight : Obligations.DecodingRight := by
  refine ⟨?_, ?_, ?_, ?_, ?_, ?_, ?_, ?_, rfl, rfl⟩
  all_goals exact decodeWord_of_encode rfl

end Sys2Proof
end

