-- ==== Sys2Proof/Proofs/Invariants.lean ====
section
/-!
PROOFS. Proofs/Invariants.lean: what every step keeps of the fuses and of the memories' form (R380, R389, R390), what holds of them
after reset, and what the canonical form of a memory is for (R2, R216).
-/
namespace Sys2Proof.Machine

/-! ### One step keeps what `Kept` speaks of -/

section
variable {q : Pkg} {c : Prop} {s t : State}

theorem pkgFrom_refl (p : Pkg) : PkgFrom p p :=
  ⟨rfl, Nat.le_refl _, ⟨id, id⟩, fun h => ⟨h.1, h.2, Nat.le_refl _⟩⟩
theorem kept_withoutPower (h : Kept q c s) : KeptOut q c (withoutPower s) := by
  unfold withoutPower
  split
  · exact kept_exec _ _ h
  · exact keptOut_fault
theorem kept_fromOutside (i : Instr) (h : Kept q c s) : KeptOut q c (fromOutside i s) := by
  unfold fromOutside
  split
  · exact keptOut_next h
  · exact kept_exec i s h
theorem kept_turn (g : Nat) (h : Kept q c s) : KeptOut q c (turn g s) := by
  have hbegin := kept_beginTurn s g h
  unfold turn
  split
  next u hu => exact keptOut_next (kept_fst hbegin hu)
  next u hu =>
    have hfetch := kept_fetchInstr u (kept_fst hbegin hu)
    split
    next v i hv => exact kept_exec i v (kept_fst hfetch hv)
    next v r hv => exact keptOut_next (kept_takeTrap v v.cur r (kept_fst hfetch hv))
theorem kept_setDue (ds : List Due) (h : Kept q c s) : Kept q c { s with due := ds } := h
theorem kept_setTime (n : Nat) (b : List Nat) (h : Kept q c s) : Kept q c { s with time := n, barrel := b } := h
theorem kept_endPeriod (h : Kept q c s) : Kept q c (endPeriod s) :=
  kept_setDue _ (kept_idlePorts _ (kept_setTime _ _ h))
theorem keptOut_step (h : Kept q c s) : KeptOut q c (step s) := by
  unfold step
  split
  · exact kept_withoutPower h
  · split
    next i r _ => exact kept_afterStep _ (kept_fromOutside i (s := { s with agenda := r }) h)
    · split
      next d r _ => exact kept_afterStep _ (kept_runDue d { s with due := r } h)
      · split
        next g r _ => exact kept_afterStep _ (kept_turn g (s := { s with barrel := r }) h)
        · exact keptOut_next (kept_endPeriod h)
theorem kept_step (ht : step s = .next t) (h : Kept q c s) : Kept q c t := by
  have hout := keptOut_step h
  rwa [ht] at hout
end

/-- Every step starts from a state that has lost nothing of its own fuses. -/
theorem kept_step_of {c : Prop} {s t : State} (ht : step s = .next t) (h : c → canonicalMemories s) : Kept s.pkg c t :=
  kept_step ht ⟨pkgFrom_refl s.pkg, h⟩

/-- Settles O7: the canonical form is part of what `Kept` says, which every step keeps. -/
theorem memoriesStayCanonical : Obligations.MemoriesStayCanonical := by
  intro s t ht h
  exact (kept_step_of ht id).2 h

/-- Settles O8: the fuses are the other part of what `Kept` says. -/
theorem fusesOnlyAdvance : Obligations.FusesOnlyAdvance := by
  intro s t ht
  obtain ⟨hkey, hversion, ⟨hraw, hdecommissioned⟩, hleaf⟩ := (kept_step_of ht (c := False) False.elim).1
  refine ⟨hkey, hversion, hraw, hdecommissioned, fun hin => ?_⟩
  obtain ⟨hatt, hid, hposition⟩ := hleaf hin
  exact ⟨⟨hatt, hid⟩, hposition⟩

/-! ### After reset, and where a word is placed -/

theorem canonicalMemories_withFetchWord {s : State} (n w : Nat) (h : canonicalMemories s) :
    canonicalMemories (s.withFetchWord n w) := by
  obtain ⟨hdev, hhost, hdie⟩ := h
  exact ⟨wf_writeBytes hdev _ _, hhost, hdie⟩

/-- Settles O9: placing a word stores four bytes and touches no leaf index. -/
theorem resetInvariants : Obligations.ResetInvariants := by
  obtain ⟨hdev, hhost, hdie⟩ := reset_memories
  refine ⟨⟨hdev, hhost, by rw [hdie]; exact nofun⟩, ⟨Nat.zero_le _, Nat.zero_le _⟩, fun s n w h => ⟨?_, rfl⟩⟩
  exact canonicalMemories_withFetchWord n w h

/-! ### Canonical memories (R2, R216) -/

theorem readB_listed {lo : Nat} {x : Host.Cell} {m : Memory} (h : wfAbove lo (x :: m) = true) :
    readB (x :: m) x.1 ≠ 0 ∧ lo ≤ x.1 := by
  simp only [wfAbove, Bool.and_eq_true, decide_eq_true_eq] at h
  obtain ⟨⟨hlo, hne⟩, -⟩ := h
  rw [readB, if_pos rfl]
  exact ⟨by simpa using hne, hlo⟩
theorem wfAbove_tail {lo : Nat} {x : Host.Cell} {m : Memory} (h : wfAbove lo (x :: m) = true) : wfAbove (x.1 + 1) m = true := by
  simp only [wfAbove, Bool.and_eq_true, decide_eq_true_eq] at h
  exact h.2
/-- Two canonical memories list the same byte first if they read alike. -/
theorem first_le_of_readB_eq {lo : Nat} {x y : Host.Cell} {m n : Memory} (hm : wfAbove lo (x :: m) = true)
    (hn : wfAbove lo (y :: n) = true) (h : ∀ k, readB (x :: m) k = readB (y :: n) k) : y.1 ≤ x.1 := by
  refine Nat.le_of_not_lt fun hlt => (readB_listed hm).1 ?_
  have htail := readB_below (wfAbove_tail hn) (Nat.lt_succ_of_lt hlt)
  rw [h, readB, if_neg (Nat.ne_of_gt hlt), htail]
theorem eq_of_readB_eq {lo : Nat} {m n : Memory} (hm : wfAbove lo m = true) (hn : wfAbove lo n = true)
    (h : ∀ k, readB m k = readB n k) : m = n := by
  induction m generalizing lo n with
  | nil =>
    cases n with
    | nil => rfl
    | cons y n => exact absurd (h y.1).symm (readB_listed hn).1
  | cons x m ih =>
    cases n with
    | nil => exact absurd (h x.1) (readB_listed hm).1
    | cons y n =>
      have haddr : x.1 = y.1 :=
        Nat.le_antisymm (first_le_of_readB_eq hn hm fun k => (h k).symm) (first_le_of_readB_eq hm hn h)
      have hbyte : x.2 = y.2 := by
        have hx := h x.1
        rwa [readB, if_pos rfl, haddr, readB, if_pos rfl] at hx
      have hx : x = y := Prod.ext haddr hbyte
      subst hx
      refine congrArg (x :: ·) (ih (wfAbove_tail hm) (wfAbove_tail hn) fun k => ?_)
      by_cases hk : x.1 = k
      · subst hk
        rw [readB_below (wfAbove_tail hm) (Nat.lt_succ_self _), readB_below (wfAbove_tail hn) (Nat.lt_succ_self _)]
      · have hrest := h k
        rwa [readB, if_neg hk, readB, if_neg hk] at hrest
theorem writeBytes_comm {m : Memory} (hm : m.wf = true) {a b : Nat} {x y : List Byte}
    (hab : a + x.length ≤ b ∨ b + y.length ≤ a) :
    writeBytes (writeBytes m a x) b y = writeBytes (writeBytes m b y) a x := by
  refine eq_of_readB_eq (wf_writeBytes (wf_writeBytes hm a x) b y) (wf_writeBytes (wf_writeBytes hm b y) a x) fun k => ?_
  rw [readB_writeBytes (wf_writeBytes hm a x), readB_writeBytes hm, readB_writeBytes (wf_writeBytes hm b y), readB_writeBytes hm]
  by_cases hy : b ≤ k ∧ k < b + y.length
  · rw [if_pos hy, if_pos hy, if_neg (by omega)]
  · rw [if_neg hy, if_neg hy]
theorem byteAt_readBytes {m : Memory} {a n j : Nat} (h : j < n) : byteAt (readBytes m a n) j = readB m (a + j) := by
  rw [byteAt, readBytes, List.getD_eq_getElem?_getD, List.getElem?_map, List.getElem?_range h, Option.map_some, Option.getD_some]
theorem length_readBytes (m : Memory) (a n : Nat) : (readBytes m a n).length = n := by
  rw [readBytes, List.length_map, List.length_range]
theorem writeBytes_readBytes {m : Memory} (hm : m.wf = true) (a n : Nat) : writeBytes m a (readBytes m a n) = m := by
  refine eq_of_readB_eq (wf_writeBytes hm _ _) hm fun k => ?_
  rw [readB_writeBytes hm]
  split
  next hk =>
    rw [length_readBytes] at hk
    rw [byteAt_readBytes (by omega), Nat.add_sub_cancel' hk.1]
  · rfl

/-- Settles O6: canonical memories are known by what they read. -/
theorem memoryCanonical : Obligations.MemoryCanonical := by
  intro m n a b x y hm hn
  exact ⟨eq_of_readB_eq hm hn, writeBytes_comm hm, writeBytes_readBytes hm a x.length⟩

end Sys2Proof.Machine
end

