-- ==== Sys2Proof/Proofs/Power.lean ====
section
/-!
PROOFS. Proofs/Power.lean: an event that finds the package without power (R390).
-/
namespace Sys2Proof.Machine

theorem noPower_of_ite {s : State} (h : s.pkg.power = false) (o : Host.Outcome State Fault Refusal) :
    (if s.pkg.power then o else .fault .noPower) = .fault .noPower :=
  if_neg (Bool.eq_false_iff.mp h)

/-- The same of an event that first asks whether it goes on with what another one has begun. -/
theorem noPower_of_resumed {s : State} (h : s.pkg.power = false) (b : Bool) (t : State) (o : Host.Outcome State Fault Refusal) :
    (if s.pkg.power && b then .next t else if s.pkg.power then o else .fault .noPower) = .fault .noPower := by
  rw [h, Bool.false_and, if_neg Bool.false_ne_true, if_neg Bool.false_ne_true]
theorem exec_suspend_noPower {s : State} (h : s.pkg.power = false) (f : Nat) (a0 a1 a2 a3 : Addr) :
    exec (.suspend f a0 a1 a2 a3) s = .fault .noPower := by
  rw [exec_suspend, execSuspend, Bool.and_assoc]
  exact noPower_of_resumed h _ _ _
theorem exec_update_noPower {s : State} (h : s.pkg.power = false) (f : Nat) (a0 a1 a2 a3 : Addr) :
    exec (.update f a0 a1 a2 a3) s = .fault .noPower := noPower_of_resumed h _ _ _
theorem exec_token_noPower {s : State} (h : s.pkg.power = false) (p : Nat) (fl : Flit) :
    exec (.token p fl) s = .fault .noPower := by
  rw [exec_token, execToken, Bool.and_assoc, Bool.and_assoc]
  exact noPower_of_resumed h _ _ _

/-- Settles O10: an event asks for power before anything else, itself or in what its kind has in common. -/
theorem eventsNeedPower : Obligations.EventsNeedPower := by
  intro i s hencode hreset hloss hpower
  cases i
  case packageReset => exact absurd rfl hreset
  case powerLoss => exact absurd rfl hloss
  case suspend => exact exec_suspend_noPower hpower ..
  case update => exact exec_update_noPower hpower ..
  case token => exact exec_token_noPower hpower ..
  all_goals first
    | exact absurd hencode (Option.some_ne_none _)
    | exact noPower_of_ite hpower _

end Sys2Proof.Machine
end

