-- ==== Sys2Proof/Proofs/LaneArithmetic.lean ====
section
/-!
PROOFS. Proofs/LaneArithmetic.lean: the integer words of the lane set (R171 to R180), by the operands they read, and their value rules.
-/
namespace Sys2Proof.Machine

/-! ### Lane words by the operands they read -/

section
variable {ins : Instr} {s : State} {d a b : BitVec 7} {c : BitVec 1}

theorem laneResult_unary {op val : Word → Word}
    (he : exec ins s = issue (info ins) s fun s => laneOut s d fun t => op (rv s a.toNat t)) (hop : ∀ x, op x = val x) :
    LaneResult ins s d.toNat fun t => val (laneReg s a.toNat t) :=
  laneResult_of_laneOut he fun t => by rw [rv_entered, hop]
theorem laneResult_binary {op val : Word → Word → Word}
    (he : exec ins s = issue (info ins) s fun s => laneOut s d fun t => op (rv s a.toNat t) (rb s b c t))
    (hop : ∀ x y, op x y = val x y) :
    LaneResult ins s d.toNat fun t => val (laneReg s a.toNat t) (operandB s b c t) :=
  laneResult_of_laneOut he fun t => by rw [rv_entered, rb_entered, hop]
theorem laneResult_ternary {op val : Word → Word → Word → Word}
    (he : exec ins s = issue (info ins) s fun s => laneOut s d fun t => op (rv s a.toNat t) (rb s b c t) (rv s d.toNat t))
    (hop : ∀ x y z, op x y z = val x y z) :
    LaneResult ins s d.toNat fun t => val (laneReg s a.toNat t) (operandB s b c t) (laneReg s d.toNat t) :=
  laneResult_of_laneOut he fun t => by rw [rv_entered, rv_entered, rb_entered, hop]
end

/-! ### The value rules of R173 to R175 -/

theorem mulHi_eq (x y : Word) : mulHi x y = BitVec.ofInt 32 (x.toInt * y.toInt / 2 ^ 32) := by
  rw [mulHi, wordOfInt, show (2 : Int) ^ 32 = 4294967296 by decide]
theorem mulHu_eq (x y : Word) : mulHu x y = BitVec.ofNat 32 (x.toNat * y.toNat / 2 ^ 32) := rfl
theorem minS_eq (x y : Word) : minS x y = if x.toInt < y.toInt then x else y := by
  simp only [minS, BitVec.slt_iff_toInt_lt]
theorem maxS_eq (x y : Word) : maxS x y = if y.toInt < x.toInt then x else y := by
  simp only [maxS, BitVec.slt_iff_toInt_lt]
theorem minU_eq (x y : Word) : minU x y = if x.toNat < y.toNat then x else y := by
  simp only [minU, BitVec.ult_iff_toNat_lt]
theorem maxU_eq (x y : Word) : maxU x y = if y.toNat < x.toNat then x else y := by
  simp only [maxU, BitVec.ult_iff_toNat_lt]
theorem absW_eq (x : Word) : absW x = if x.toInt < 0 then -x else x := by
  simp only [absW, BitVec.msb_eq_toInt, decide_eq_true_eq]

/-- The sum of IADD64 in thread t (R172). -/
def sum64 (s : State) (a b : BitVec 7) (c : BitVec 1) (t : Nat) : BitVec 64 :=
  lanePair s a.toNat t + if c = 1 then uniPair s b.toNat else lanePair s b.toNat t
theorem lanePair_sum (s : State) (i : Info) (a b : BitVec 7) (c : BitVec 1) (t : Nat) :
    cat64 (rv (entered i s) (a.toNat + 1) t) (rv (entered i s) a.toNat t) +
        (if c == 1 then rs64 (entered i s) b.toNat else cat64 (rv (entered i s) (b.toNat + 1) t) (rv (entered i s) b.toNat t)) =
      lanePair s a.toNat t + if c = 1 then uniPair s b.toNat else lanePair s b.toNat t := by
  simp only [rv_entered, rs64_entered, beq_iff_eq, cat64, lanePair]
theorem highWord_append_lowWord (x : BitVec 64) : highWord x ++ lowWord x = x := by
  rw [highWord, lowWord]
  exact (BitVec.extractLsb'_append_extractLsb'_eq_extractLsb' (by decide)).trans (Laws.extract_all x)

theorem laneArithmetic_values : Statements.LaneArithmetic := by
  intro s st d a b c i
  refine ⟨?_, ?_, ?_, ?_, ?_, ?_, ?_, ?_, ?_, ?_, ?_, ?_, ?_, ?_⟩
  · exact laneResult_binary (op := (· + ·)) (exec_iadd ..) fun _ _ => rfl
  · exact laneResult_binary (op := (· - ·)) (exec_isub ..) fun _ _ => rfl
  · exact laneResult_unary (op := (· + i.signExtend 32)) (exec_iaddi ..) fun _ => rfl
  · refine lane_pair_result (lo := fun t => lowWord (sum64 s a b c t)) (hi := fun t => highWord (sum64 s a b c t))
      (exec_iadd64 ..) ?_ fun t => (highWord_append_lowWord _).symm
    simp only [lanePair_sum, emask_entered, sum64]
  · exact laneResult_binary (op := (· * ·)) (exec_imul ..) fun _ _ => rfl
  · exact laneResult_binary (exec_imulhi ..) mulHi_eq
  · exact laneResult_binary (exec_imulhu ..) mulHu_eq
  · exact laneResult_ternary (op := fun x y z => x * y + z) (exec_imad ..) fun _ _ _ => rfl
  · exact laneResult_binary (exec_imin ..) minS_eq
  · exact laneResult_binary (exec_imax ..) maxS_eq
  · exact laneResult_binary (exec_iminu ..) minU_eq
  · exact laneResult_binary (exec_imaxu ..) maxU_eq
  · exact laneResult_unary (exec_iabs ..) absW_eq
  · exact laneResult_unary (op := (- ·)) (exec_ineg ..) fun _ => rfl

/-! ### Numbers written bit by bit -/

/-- A number collected from its top bit down. -/
theorem testBit_foldl_double (f : Nat → Bool) (n k : Nat) :
    ((List.range n).foldl (fun a i => 2 * a + if f i then 1 else 0) 0).testBit k = (decide (k < n) && f (n - 1 - k)) := by
  induction n generalizing k with
  | zero => rw [List.range_zero, List.foldl_nil, Nat.zero_testBit]; rfl
  | succ n ih =>
    rw [List.range_succ, List.foldl_append, List.foldl_cons, List.foldl_nil]
    cases k with
    | zero => cases hf : f n <;> simp [hf, Nat.testBit_zero]
    | succ k =>
      have hhalf : ∀ x, (2 * x + if f n then 1 else 0) / 2 = x := fun x => by split <;> omega
      have hindex : n + 1 - 1 - (k + 1) = n - 1 - k := by omega
      rw [Nat.testBit_succ, hhalf, ih, hindex]
      simp only [Nat.add_lt_add_iff_right]
/-- A number summed from the powers of its bits. -/
theorem sumBits_lt (f : Nat → Bool) (n : Nat) : (List.range n).foldl (fun a i => a + if f i then 2 ^ i else 0) 0 < 2 ^ n := by
  induction n with
  | zero => rw [List.range_zero, List.foldl_nil]; exact Nat.one_pos
  | succ n ih =>
    rw [List.range_succ, List.foldl_append, List.foldl_cons, List.foldl_nil, Nat.pow_succ]
    split <;> omega
theorem testBit_sumBits (f : Nat → Bool) (n k : Nat) :
    ((List.range n).foldl (fun a i => a + if f i then 2 ^ i else 0) 0).testBit k = (decide (k < n) && f k) := by
  induction n with
  | zero => rw [List.range_zero, List.foldl_nil, Nat.zero_testBit]; rfl
  | succ n ih =>
    have hlt := sumBits_lt f n
    rw [List.range_succ, List.foldl_append, List.foldl_cons, List.foldl_nil]
    have hor : ∀ x, x < 2 ^ n → x + (if f n then 2 ^ n else 0) = (if f n then 2 ^ n else 0) ||| x := fun x hx => by
      split
      · rw [Nat.add_comm]; simpa using Nat.two_pow_add_eq_or_of_lt hx 1
      · simp
    rw [hor _ hlt, Nat.testBit_or, ih]
    by_cases hk : k = n
    · subst hk; cases hf : f k <;> simp
    · have hsucc : decide (k < n + 1) = decide (k < n) := decide_eq_decide.mpr (by omega)
      rw [hsucc]
      cases hf : f n <;> simp [Ne.symm hk]

theorem getLsbD_brevW (x : Word) {k : Nat} (hk : k < 32) : (brevW x).getLsbD k = x.getLsbD (31 - k) := by
  rw [brevW, BitVec.getLsbD_ofNat, testBit_foldl_double, decide_eq_true hk, Bool.true_and, Bool.true_and]

theorem laneLogic : Statements.LaneLogic := by
  intro s st d a b c
  refine ⟨?_, ?_, ?_, ?_, ?_, ?_, ?_, ?_, fun x k => getLsbD_brevW x⟩
  · exact laneResult_binary (op := (· &&& ·)) (exec_and ..) fun _ _ => rfl
  · exact laneResult_binary (op := (· ||| ·)) (exec_or ..) fun _ _ => rfl
  · exact laneResult_binary (op := (· ^^^ ·)) (exec_xor ..) fun _ _ => rfl
  · exact laneResult_binary (op := (· &&& ~~~ ·)) (exec_andn ..) fun _ _ => rfl
  · exact laneResult_unary (op := (~~~ ·)) (exec_not ..) fun _ => rfl
  · exact laneResult_unary (op := popcW) (exec_popc ..) fun _ => rfl
  · exact laneResult_unary (op := clzW) (exec_clz ..) fun _ => rfl
  · exact laneResult_unary (op := brevW) (exec_brev ..) fun _ => rfl

/-! ### Bit fields (R179, R180) -/

theorem posField_eq (y : Word) : (y.extractLsb' 0 8).toNat = y.toNat % 256 := by
  rw [BitVec.extractLsb'_toNat, Nat.shiftRight_zero]
theorem lenField_eq (y : Word) : (y.extractLsb' 8 8).toNat = y.toNat / 256 % 256 := by
  rw [BitVec.extractLsb'_toNat, Nat.shiftRight_eq_div_pow]
/-- Sign extension of the low n bits is the balanced remainder. -/
theorem sextNat_wrapNat {n : Nat} (hn : 0 < n) (hn32 : n ≤ 32) (x : Int) : sextNat n (wrapNat 32 x) = Int.bmod x (2 ^ n) := by
  have hdvd : ((2 ^ n : Nat) : Int) ∣ ((2 ^ 32 : Nat) : Int) := Int.natCast_dvd_natCast.mpr (Nat.pow_dvd_pow 2 hn32)
  have hlow : ((wrapNat 32 x % 2 ^ n : Nat) : Int) = x % (2 ^ n : Nat) := by
    rw [wrapNat, Int.natCast_emod, Int.toNat_of_nonneg (Int.emod_nonneg _ (by decide)), Int.emod_emod_of_dvd _ hdvd]
  have hhalf : 2 ^ n = 2 * 2 ^ (n - 1) := by rw [← Nat.pow_succ', Nat.succ_eq_add_one, Nat.sub_add_cancel hn]
  rw [sextNat, if_neg (Nat.ne_of_gt hn), Int.bmod, ← hlow]
  generalize wrapNat 32 x % 2 ^ n = y
  generalize 2 ^ (n - 1) = p at hhalf
  rw [hhalf]
  split <;> split <;> omega
theorem bfeW_eq (x y : Word) :
    bfeW x y = (let pos := (y.extractLsb' 0 8).toNat
      let len := min (y.extractLsb' 8 8).toNat 32
      if len = 0 then 0
      else if y.getLsbD 16 then BitVec.ofInt 32 (Int.bmod (x.toInt / 2 ^ min pos 31) (2 ^ len))
      else BitVec.ofNat 32 (x.toNat / 2 ^ pos % 2 ^ len)) := by
  rw [bfeW, posField_eq, lenField_eq]
  generalize y.toNat % 256 = pos
  generalize hl : min (y.toNat / 256 % 256) 32 = len
  have hlen : len ≤ 32 := hl ▸ Nat.min_le_right ..
  by_cases h0 : len = 0
  · simp only [if_pos h0]
  simp only [if_neg h0]
  split
  · rw [wordOfInt, sextNat_wrapNat (Nat.pos_of_ne_zero h0) hlen, Int.natCast_pow]; rfl
  · split
    · rw [Nat.div_eq_of_lt (Nat.lt_of_lt_of_le x.isLt (Nat.pow_le_pow_right Nat.two_pos ‹_›))]
    · rfl
theorem getLsbD_bfiW (z x y : Word) {k : Nat} (hk : k < 32) :
    (bfiW z x y).getLsbD k = (let pos := (y.extractLsb' 0 8).toNat
      let len := min (y.extractLsb' 8 8).toNat 32
      if pos ≤ k ∧ k < pos + len then x.getLsbD (k - pos) else z.getLsbD k) := by
  rw [bfiW, posField_eq, lenField_eq, BitVec.getLsbD_ofNat, decide_eq_true hk, Bool.true_and]
  exact (testBit_sumBits _ 32 k).trans (by rw [decide_eq_true hk, Bool.true_and])

theorem laneBitFields : Statements.LaneBitFields := by
  intro s st d a b c
  refine ⟨?_, ?_, fun z x y k => getLsbD_bfiW z x y⟩
  · exact laneResult_binary (exec_bfe ..) bfeW_eq
  · exact laneResult_ternary (op := fun x y z => bfiW z x y) (exec_bfi ..) fun _ _ _ => rfl

/-- Settles O11: each word is its operation of the model, whose value is the one the rules give. -/
theorem laneArithmetic : Obligations.LaneArithmetic := ⟨laneArithmetic_values, laneLogic, laneBitFields⟩

end Sys2Proof.Machine
end

