-- ==== Sys2Proof/Proofs/LaneFloating.lean ====
section
/-!
PROOFS. Proofs/LaneFloating.lean: the single-precision, packed 16-bit and conversion words of the lane set (R190 to R203).
-/
namespace Sys2Proof.Machine

/-- The low 31 bits of a word. -/
theorem clearSign_eq (x : Word) : BitVec.ofNat 32 (x.toNat % 2147483648) = x &&& 0x7FFFFFFF := by
  refine BitVec.eq_of_toNat_eq ?_
  rw [BitVec.toNat_ofNat, BitVec.toNat_and, Nat.mod_eq_of_lt (by omega)]
  exact (Nat.and_two_pow_sub_one_eq_mod _ 31).symm

theorem laneResult_number {ins : Instr} {s : State} {d a : BitVec 7} (g : Nat → Nat)
    (he : exec ins s = issue (info ins) s fun s => laneOut s d fun t => .ofNat 32 (g (rv s a.toNat t).toNat)) :
    LaneResult ins s d.toNat fun t => .ofNat 32 (g (laneReg s a.toNat t).toNat) :=
  laneResult_unary (op := fun x => .ofNat 32 (g x.toNat)) he fun _ => rfl

theorem laneFloat : Statements.LaneFloat := by
  intro s st d a b c m x y z
  refine ⟨?_, ?_, ?_, ?_, ?_, ?_, ?_, ?_, ?_, ?_, ?_, ?_, ?_, ?_, ?_, ?_, ?_⟩
  · exact laneResult_binary (op := fun x y => .ofNat 32 (fAdd fp32 x.toNat y.toNat)) (exec_fadd ..) fun _ _ => rfl
  · exact laneResult_binary (op := fun x y => .ofNat 32 (fSub fp32 x.toNat y.toNat)) (exec_fsub ..) fun _ _ => rfl
  · exact laneResult_binary (op := fun x y => .ofNat 32 (fMul fp32 x.toNat y.toNat)) (exec_fmul ..) fun _ _ => rfl
  · exact laneResult_ternary (op := fun x y z => .ofNat 32 (fFma fp32 x.toNat y.toNat z.toNat)) (exec_ffma ..) fun _ _ _ => rfl
  · exact laneResult_binary (op := fun x y => .ofNat 32 (fMinBits x.toNat y.toNat)) (exec_fmin ..) fun _ _ => rfl
  · exact laneResult_binary (op := fun x y => .ofNat 32 (fMaxBits x.toNat y.toNat)) (exec_fmax ..) fun _ _ => rfl
  · exact laneResult_unary (op := fun x => .ofNat 32 (x.toNat % 2147483648)) (exec_fabs ..) clearSign_eq
  · exact laneResult_unary (op := (· ^^^ 0x80000000)) (exec_fneg ..) fun _ => rfl
  · exact laneResult_unary (op := fun x => .ofNat 32 (fRnd (rmodeOf m) x.toNat)) (exec_frnd ..) fun _ => rfl
  · exact laneResult_number fClass (exec_fclass ..)
  · exact laneResult_number fRcp (exec_frcp ..)
  · exact laneResult_number fRsq (exec_frsq ..)
  · exact laneResult_number fSqrt (exec_fsqrt ..)
  · exact laneResult_number fExp2 (exec_fexp2 ..)
  · exact laneResult_number fLog2 (exec_flog2 ..)
  · exact laneResult_number fSint (exec_fsint ..)
  · exact laneResult_number fCost (exec_fcost ..)

/-! ### Two values a word (R198 to R200) -/

section
variable {ins : Instr} {s : State} {d a b : BitVec 7} {c : BitVec 1}

theorem laneResult_packed {g : Nat → Nat → Nat}
    (he : exec ins s = issue (info ins) s fun s => laneOut s d fun t =>
      .ofNat 32 (packed2 (fun x y _ => g x y) (rv s a.toNat t).toNat (rb s b c t).toNat 0)) :
    LaneResult ins s d.toNat fun t =>
      .ofNat 32 (g ((laneReg s a.toNat t).toNat % 2 ^ 16) ((operandB s b c t).toNat % 2 ^ 16) +
        2 ^ 16 * g ((laneReg s a.toNat t).toNat / 2 ^ 16) ((operandB s b c t).toNat / 2 ^ 16)) :=
  laneResult_binary (op := fun x y => .ofNat 32 (packed2 (fun x y _ => g x y) x.toNat y.toNat 0)) he fun _ _ => rfl
theorem laneResult_packed3 {g : Nat → Nat → Nat → Nat}
    (he : exec ins s = issue (info ins) s fun s => laneOut s d fun t =>
      .ofNat 32 (packed2 g (rv s a.toNat t).toNat (rb s b c t).toNat (rv s d.toNat t).toNat)) :
    LaneResult ins s d.toNat fun t =>
      .ofNat 32 (g ((laneReg s a.toNat t).toNat % 2 ^ 16) ((operandB s b c t).toNat % 2 ^ 16) ((laneReg s d.toNat t).toNat % 2 ^ 16) +
        2 ^ 16 * g ((laneReg s a.toNat t).toNat / 2 ^ 16) ((operandB s b c t).toNat / 2 ^ 16) ((laneReg s d.toNat t).toNat / 2 ^ 16)) :=
  laneResult_ternary (op := fun x y z => .ofNat 32 (packed2 g x.toNat y.toNat z.toNat)) he fun _ _ _ => rfl
end

theorem lanePacked : Statements.LanePacked := by
  intro s st d a b c h m q v u x y z both
  refine ⟨?_, ?_, ?_, ?_, ?_, ?_, ?_, ?_, ?_⟩
  · exact laneResult_packed (exec_pbadd ..)
  · exact laneResult_packed (exec_pbmul ..)
  · exact laneResult_packed3 (exec_pbfma ..)
  · exact laneResult_packed (exec_phadd ..)
  · exact laneResult_packed (exec_phmul ..)
  · exact laneResult_packed3 (exec_phfma ..)
  · exact laneResult_unary (op := fun x => .ofNat 32 (cvtBits v.toNat u.toNat (rmodeOf m) x.toNat)) (exec_cvt ..) fun _ => rfl
  · refine laneResult_unary (op := fun x => .ofNat 32 (unpack q.toNat (if h == 1 then x.toNat / 65536 else x.toNat % 65536)))
      (val := fun x => .ofNat 32 (unpack q.toNat (if h = 1 then x.toNat / 2 ^ 16 else x.toNat % 2 ^ 16))) (exec_unpk2 ..) fun x => ?_
    simp only [beq_iff_eq, Nat.reducePow]
  · refine lane_pair_result (exec_bsplit ..) ?_ fun _ => rfl
    simp only [rv_entered, emask_entered]
    rfl

/-- Settles O12: each word is the model's operation on the operands' patterns. -/
theorem laneFloating : Obligations.LaneFloating := ⟨laneFloat, lanePacked⟩

end Sys2Proof.Machine
end

