-- ==== Sys2Proof/Proofs/LaneMoves.lean ====
section
/-!
PROOFS. Proofs/LaneMoves.lean: moves, packing, ballots and the nested-integer words of the lane set (R170, R201, R204 to R210, R229).
-/
namespace Sys2Proof.Machine

/-! ### Words put together from fields -/

theorem append_eq_ofNat {n m : Nat} (x : BitVec n) (y : BitVec m) : x ++ y = BitVec.ofNat (n + m) (x.toNat * 2 ^ m + y.toNat) := by
  refine BitVec.eq_of_toNat_eq ?_
  rw [← Nat.shiftLeft_eq, Nat.shiftLeft_add_eq_or_of_lt y.isLt, ← BitVec.toNat_append, BitVec.ofNat_toNat, BitVec.setWidth_eq]
theorem packLow_eq (x y : Word) :
    BitVec.ofNat 32 (y.toNat % 65536 * 65536 + x.toNat % 65536) = y.extractLsb' 0 16 ++ x.extractLsb' 0 16 := by
  rw [append_eq_ofNat]; rfl
theorem topByte_toNat (w : Word) : (w.extractLsb' 24 8).toNat = w.toNat / 16777216 := by
  rw [BitVec.extractLsb'_toNat, Nat.shiftRight_eq_div_pow]; omega
theorem nextByte_toNat (w : Word) : (w.extractLsb' 16 8).toNat = w.toNat / 65536 % 256 := by
  rw [BitVec.extractLsb'_toNat, Nat.shiftRight_eq_div_pow]
theorem wrapNat_eq_toNat (n : Nat) (x : Int) : wrapNat n x = (BitVec.ofInt n x).toNat := BitVec.toNat_ofInt ..|>.symm
theorem planeWord_lt (k i : Nat) (codes : List Int) : planeWord k i codes < 2 ^ 16 := by
  rw [planeWord]
  split
  · have hbit : ∀ x l : Nat, x % 2 * 2 ^ l = if decide (x % 2 = 1) then 2 ^ l else 0 := fun x l => by
      rcases Nat.mod_two_eq_zero_or_one x with h | h <;> simp [h]
    simp only [hbit]
    exact sumBits_lt _ 16
  · decide
theorem putPlane_eq (w : Word) {p : Nat} (hp : p < 2 ^ 16) :
    BitVec.ofNat 32 (w.toNat / 65536 * 65536 + p) = w.extractLsb' 16 16 ++ BitVec.ofNat 16 p := by
  rw [append_eq_ofNat, BitVec.toNat_ofNat, Nat.mod_eq_of_lt hp, BitVec.extractLsb'_toNat, Nat.shiftRight_eq_div_pow,
    Nat.mod_eq_of_lt (by omega)] <;> rfl
theorem putTop_eq (w : Word) (x : Int) :
    BitVec.ofNat 32 (wrapNat 8 x * 16777216 + w.toNat % 16777216) = BitVec.ofInt 8 x ++ w.extractLsb' 0 24 := by
  rw [append_eq_ofNat, wrapNat_eq_toNat]; rfl
theorem laneBlock_entered (i : Info) (s : State) (r t : Nat) :
    laneBlock (entered i s) r t = (List.range 16).map fun j => laneReg s r (t / 16 * 16 + j) := by
  simp only [laneBlock, rv_entered]

/-! ### The ballot (R229) -/

theorem words128_getD (x : BitVec 128) (h : BitVec 2) : (words128 x).getD h.toNat 0 = x.extractLsb' (32 * h.toNat) 32 := by
  have hh := h.isLt
  match h.toNat, hh with
  | 0, _ | 1, _ | 2, _ | 3, _ => rfl
theorem ballotWord_eq (i : Info) (s : State) (p : Nat) (n : BitVec 1) (h : BitVec 2) :
    (words128 (emask s &&& predNeg (entered i s) p n)).getD h.toNat 0 =
      BitVec.ofNat 32 ((List.range 32).foldl (fun x j =>
        x + if bitOf (emask s) (32 * h.toNat + j) && (predReg s p (32 * h.toNat + j) != (n == 1)) then 2 ^ j else 0) 0) := by
  rw [words128_getD]
  refine BitVec.eq_of_getLsbD_eq fun k hk => ?_
  rw [BitVec.getLsbD_extractLsb', BitVec.getLsbD_ofNat, testBit_sumBits, decide_eq_true hk]
  simp only [Bool.true_and]
  refine (bitOf_and ..).trans ?_
  cases hact : bitOf (emask s) (32 * h.toNat + k) with
  | false => rfl
  | true => rw [predNeg_entered_of_active i n hact]

theorem laneMoves_plain : Statements.LaneMoves := by
  intro s st d a b c n i p q
  refine ⟨?_, ?_, ?_, ?_, ?_, ?_⟩
  · exact laneResult_of_laneOut (exec_mov ..) fun _ => rb_entered ..
  · exact laneResult_of_laneOut (exec_limm ..) fun _ => rfl
  · exact laneResult_unary (op := limmhW i) (exec_limmh ..) fun _ => rfl
  · exact laneResult_of_laneOut (exec_laneid ..) fun _ => rfl
  · exact laneResult_binary (op := fun x y => .ofNat 32 (y.toNat % 65536 * 65536 + x.toNat % 65536)) (exec_pack2 ..) packLow_eq
  · exact laneResult_of_laneOut (exec_ballot ..) fun _ => by rw [emask_entered]; exact ballotWord_eq _ s _ n q

/-! ### A word that writes a lane register and a predicate (R206) -/

theorem bitOf_merge (x m v : Mask) (t : Nat) :
    bitOf ((x &&& ~~~m) ||| (v &&& m)) t = if bitOf m t then bitOf v t else bitOf x t := by
  by_cases hm : bitOf m t = true
  · have h128 := bitOf_lt hm
    rw [if_pos hm]
    rw [bitOf] at hm
    simp only [bitOf, BitVec.getLsbD_or, BitVec.getLsbD_and, BitVec.getLsbD_not, hm, Bool.not_true, Bool.and_false, Bool.and_true,
      Bool.false_or]
  · rw [if_neg hm]
    rw [bitOf, Bool.not_eq_true] at hm
    by_cases h128 : t < 128
    · simp only [bitOf, BitVec.getLsbD_or, BitVec.getLsbD_and, BitVec.getLsbD_not, hm, decide_eq_true h128, Bool.not_false,
        Bool.and_true, Bool.and_false, Bool.or_false]
    · simp only [bitOf, BitVec.getLsbD_of_ge _ t (Nat.le_of_not_lt h128)]
theorem lane_pred_result {ins : Instr} {s : State} {d p : Nat} {f : Nat → Word} {val : Mask} {g : Nat → Bool} {act : State → Act}
    (he : exec ins s = issue (info ins) s act)
    (ha : act (entered (info ins) s) = .done (wp (wv (entered (info ins) s) d (emask s) f) p (emask s) val))
    (hg : ∀ t, bitOf (emask s) t = true → bitOf val t = g t) (h : MayIssue (info ins) s) :
    ∃ t, exec ins s = .next t ∧
      (∀ th, th < (cg s).width → laneReg t d th = if bitOf (emask s) th then f th else laneReg s d th) ∧
      (∀ th, th < (cg s).width → predReg t p th =
        if p = 0 then true else if bitOf (emask s) th then g th else predReg s p th) ∧
      OnlyRegs (info ins) s t [d] [] [p] [] [] := by
  by_cases hp : p = 0
  · subst hp
    obtain ⟨t, hexec, hlane, honly⟩ := lane_result he (ha.trans (by rw [wp, if_pos rfl])) h
    exact ⟨t, hexec, hlane, fun _ _ => rfl, { honly with predicate := fun n _ => honly.predicate n List.not_mem_nil }⟩
  · have hw : wp (wv (entered (info ins) s) d (emask s) f) p (emask s) val = setCg (entered (info ins) s)
        { cg (entered (info ins) s) with
          v := Map.put (cg s).v d (laneNew s d (emask s) f)
          p := Map.put (cg s).p p ((Map.look (cg s).p p 0 &&& ~~~emask s) ||| (val &&& emask s)) } := by
      rw [wv_entered, wp, if_neg hp]
      simp only [cg_setCg, setCg_setCg, (entered_fields (info ins) s).2.2.1]
    refine ⟨_, he.trans (issue_done h ha), ?_⟩
    rw [hw]
    obtain ⟨-, hs, -, hx, hg'⟩ := entered_fields (info ins) s
    have hr : settled (info ins) s (setCg (entered (info ins) s) { cg (entered (info ins) s) with
          v := Map.put (cg s).v d (laneNew s d (emask s) f)
          p := Map.put (cg s).p p ((Map.look (cg s).p p 0 &&& ~~~emask s) ||| (val &&& emask s)) }) =
        regsDone (info ins) s (Map.put (cg s).v d (laneNew s d (emask s) f)) (cg s).s
          (Map.put (cg s).p p ((Map.look (cg s).p p 0 &&& ~~~emask s) ||| (val &&& emask s))) (cg s).x (cg s).g := by
      rw [regsDone, ← hs, ← hx, ← hg']
    rw [hr]
    obtain ⟨hv, -, hpred, -, -⟩ := regsDone_regs h (Map.put (cg s).v d (laneNew s d (emask s) f)) (cg s).s
      (Map.put (cg s).p p ((Map.look (cg s).p p 0 &&& ~~~emask s) ||| (val &&& emask s))) (cg s).x (cg s).g
    refine ⟨fun th hth => ?_, fun th _ => ?_, regsDone_only h _ _ _ _ _ (fun r hr => look_put_other _ _ _ (not_in_one hr))
      (fun _ _ => rfl) (fun r hr _ => look_put_other _ _ _ (not_in_one hr)) (fun _ _ => rfl) (fun _ _ => rfl)⟩
    · rw [laneReg, hv, look_put_same, laneNew_get _ _ _ _ hth]
    · rw [if_neg hp, predReg, hpred, look_put_same, bitOf_merge, beq_eq_false_iff_ne.mpr hp, Bool.false_or]
      by_cases hact : bitOf (emask s) th = true
      · rw [if_pos hact, if_pos hact, hg th hact]
      · rw [if_neg hact, if_neg hact, predReg, beq_eq_false_iff_ne.mpr hp, Bool.false_or]

/-! ### Nested integers -/

theorem qntWord_eq (x : Int) {e p : Nat} (he : e < 2 ^ 8) (hp : p < 2 ^ 16) :
    BitVec.ofNat 32 (wrapNat 8 x * 16777216 + e * 65536 + p) = BitVec.ofInt 8 x ++ BitVec.ofNat 8 e ++ BitVec.ofNat 16 p := by
  rw [append_eq_ofNat, append_eq_ofNat, wrapNat_eq_toNat, BitVec.toNat_ofNat, BitVec.toNat_ofNat, BitVec.toNat_ofNat,
    Nat.mod_eq_of_lt he, Nat.mod_eq_of_lt hp, Nat.mod_eq_of_lt (by have := (BitVec.ofInt 8 x).isLt; omega), Nat.add_mul, Nat.mul_assoc] <;> rfl
theorem qnt_scale_lt (k : Nat) (xs : List FVal) : (qnt k xs).1 < 2 ^ 8 := by
  rw [qnt]
  split
  · exact show 255 < 2 ^ 8 by decide
  · change qntScale k xs < 2 ^ 8
    rw [qntScale]
    cases hfind : (List.range 255).find? fun c => xs.all (qntFits k c) with
    | none => decide
    | some c => exact Nat.lt_trans (List.mem_range.mp (List.mem_of_find?_eq_some hfind)) (by decide)

theorem bitValue_eq (w : Word) (j : Nat) : w.toNat / 2 ^ j % 2 = if w.getLsbD j then 1 else 0 := by
  simp only [BitVec.getLsbD, Nat.testBit_eq_decide_div_mod_eq, decide_eq_true_eq]
  split <;> omega

theorem laneNested : Statements.LaneNested := by
  intro s st d a b c p k m f block q
  refine ⟨?_, ?_, ?_, ?_, ?_⟩
  · refine laneResult_of_laneOut (exec_dqnt ..) fun t => ?_
    simp only [rv_entered, topByte_toNat, nextByte_toNat, beq_iff_eq]
  · refine laneResult_of_laneOut (exec_niput ..) fun t => ?_
    simp only [rv_entered, laneBlock_entered, topByte_toNat]
    exact putPlane_eq _ (planeWord_lt ..)
  · refine laneResult_of_laneOut (exec_niget ..) fun t => ?_
    simp only [rv_entered, laneBlock_entered]
    refine (putTop_eq ..).trans ?_
    simp only [bitValue_eq]
    rfl
  · exact laneResult_ternary (op := fun x y z => .ofNat 32 (saccBits z.toNat x.toInt y.toNat)) (exec_sacc ..) fun _ _ _ => rfl
  · refine lane_pred_result (val := threadMask (entered (info (.qnt st d a p k)) s) fun t => (q t).2.2) (exec_qnt st d a p k s) ?_ ?_
    · simp only [emask_entered, laneBlock_entered, qntWord_eq _ (qnt_scale_lt ..) (planeWord_lt ..)]
      rfl
    · intro t hact
      obtain ⟨hwidth, h128⟩ := active_lt hact
      rw [threadMask, bitOf_threads, width_entered, decide_eq_true hwidth, decide_eq_true h128, Bool.true_and, Bool.true_and]

/-- Settles O13: each word is the model's operation, its fields put together as the rules lay them out. -/
theorem laneMoves : Obligations.LaneMoves := ⟨laneMoves_plain, laneNested⟩

end Sys2Proof.Machine
end

