-- ==== Sys2Proof/Proofs/PredicateWords.lean ====
section
/-!
PROOFS. Proofs/PredicateWords.lean: the words that write a predicate (R181 to R185, R193, R228).
-/
namespace Sys2Proof.Machine

theorem predResult_of_predOut {ins : Instr} {s : State} {p : BitVec 3} {f : Nat → Bool} {v : State → Mask}
    (he : exec ins s = issue (info ins) s fun s => predOut s p (v s))
    (hf : ∀ t, t < (cg s).width → t < 128 → bitOf (v (entered (info ins) s)) t = f t) : PredResult ins s p.toNat f :=
  pred_result he (by rw [predOut, emask_entered]) hf
/-- A test asked of each thread. -/
theorem predResult_of_test {ins : Instr} {s : State} {p : BitVec 3} {f : Nat → Bool} {test : State → Nat → Bool}
    (he : exec ins s = issue (info ins) s fun s => predOut s p (threadMask s (test s)))
    (hf : ∀ t, t < (cg s).width → t < 128 → test (entered (info ins) s) t = f t) : PredResult ins s p.toNat f :=
  predResult_of_predOut he fun t hwidth h128 => by
    rw [threadMask, bitOf_threads, width_entered, decide_eq_true hwidth, decide_eq_true h128, hf t hwidth h128]; rfl
/-- A test asked once for every thread. -/
theorem predResult_of_once {ins : Instr} {s : State} {p : BitVec 3} {f : Nat → Bool} {b : State → Bool}
    (he : exec ins s = issue (info ins) s fun s => predOut s p (if b s then fullMask 128 else 0))
    (hf : ∀ t, b (entered (info ins) s) = f t) : PredResult ins s p.toNat f :=
  predResult_of_predOut he fun t _ h128 => by
    rw [← hf t]
    split
    case isTrue h => rw [h, bitOf_full h128 h128]
    case isFalse h => rw [Bool.eq_false_iff.mpr h]; exact BitVec.getLsbD_zero

theorem intCond_iff (c : Nat) (x y : Word) : intCond c x y = true ↔ condHolds c x y := by
  match c with
  | 0 | 1 | 10 | 11 => simp [intCond, condHolds]
  | 2 | 4 => simp [intCond, condHolds, BitVec.slt_iff_toInt_lt]
  | 3 | 5 => simp [intCond, condHolds, BitVec.sle_iff_toInt_le]
  | 6 | 8 => simp [intCond, condHolds, BitVec.ult_iff_toNat_lt]
  | 7 | 9 => simp [intCond, condHolds, BitVec.ule_iff_toNat_le]
  | _ + 12 => simp [intCond, condHolds]

/-! ### VOTE (R228) -/

theorem and_eq_zero_iff (m q : Mask) : m &&& q = 0 ↔ ∀ t, bitOf m t = true → bitOf q t = false := by
  refine (Classical.not_not.symm.trans (not_congr (ne_zero_iff_bitOf (m &&& q)))).trans ?_
  simp [bitOf_and]
theorem and_not_eq_zero_iff (m q : Mask) : m &&& ~~~q = 0 ↔ ∀ t, bitOf m t = true → bitOf q t = true := by
  rw [and_eq_zero_iff]
  refine forall₂_congr fun t ht => ?_
  rw [bitOf, BitVec.getLsbD_not, decide_eq_true (bitOf_lt ht), Bool.true_and, Bool.not_eq_false', bitOf]
/-- VOTE's test on a predicate that has the value g in each active thread. -/
theorem voteHolds_iff {m q : Mask} {g : Nat → Bool} (hg : ∀ t, bitOf m t = true → bitOf q t = g t) (o : BitVec 2) :
    voteHolds o.toNat m q = true ↔
      (o.toNat = 0 ∧ ∀ t, bitOf m t = true → g t = true) ∨ (o.toNat = 1 ∧ ∃ t, bitOf m t = true ∧ g t = true) ∨
      (o.toNat = 2 ∧ ((∀ t, bitOf m t = true → g t = true) ∨ ∀ t, bitOf m t = true → g t = false)) ∨
      (o.toNat = 3 ∧ ∀ t, bitOf m t = true → g t = false) := by
  have hall : (m &&& ~~~q) = 0 ↔ ∀ t, bitOf m t = true → g t = true :=
    (and_not_eq_zero_iff m q).trans (forall₂_congr fun t ht => by rw [hg t ht])
  have hnone : (m &&& q) = 0 ↔ ∀ t, bitOf m t = true → g t = false :=
    (and_eq_zero_iff m q).trans (forall₂_congr fun t ht => by rw [hg t ht])
  have hany : (m &&& q) ≠ 0 ↔ ∃ t, bitOf m t = true ∧ g t = true := by
    rw [ne_eq, hnone]; simp
  have ho := o.isLt
  match o.toNat, ho with
  | 0, _ => simpa [voteHolds] using hall
  | 1, _ => simpa [voteHolds] using hany
  | 2, _ => simpa [voteHolds] using or_congr hall hnone
  | 3, _ => simpa [voteHolds] using hnone

/-- Settles O14: each word is a test asked of each thread, or once for all of them. -/
theorem predicateWords : Obligations.PredicateWords := by
  intro s st a b c n p q r k o f x y
  refine ⟨fun hf => ?_, ?_, ?_, fun hf => ?_, fun hf => ?_⟩
  · refine predResult_of_test (exec_icmp ..) fun t _ _ => ?_
    rw [rv_entered, rb_entered, Bool.eq_iff_iff, hf t, intCond_iff]
  · exact predResult_of_test (exec_fcmp ..) fun t _ _ => by rw [rv_entered, rb_entered]
  · exact predResult_of_test (exec_plut ..) fun t hwidth h128 => by
      rw [rp_entered _ _ _ hwidth h128, rp_entered _ _ _ hwidth h128]
  · refine predResult_of_once (exec_scmp ..) fun t => ?_
    rw [rs_entered, rs_entered, Bool.eq_iff_iff, hf t, intCond_iff]
  · refine predResult_of_once (exec_vote ..) fun t => ?_
    rw [emask_entered, Bool.eq_iff_iff, hf t]
    exact voteHolds_iff (fun th hact => predNeg_entered_of_active _ n hact) o

end Sys2Proof.Machine
end

