-- ==== Sys2Proof/Proofs/UniformWords.lean ====
section
/-!
PROOFS. Proofs/UniformWords.lean: the uniform set's arithmetic, and the uniform words that read elsewhere (R170 to R178, R186, R230, R246,
R306, R318).
-/
namespace Sys2Proof.Machine

section
variable {ins : Instr} {s : State} {d a b : BitVec 7}

theorem uniResult_unary {op : Word → Word} {w : Word} (he : exec ins s = issue (info ins) s fun s => uniOut s d (op (rs s a.toNat)))
    (hop : op (uniReg s a.toNat) = w) : UniResult ins s d.toNat w :=
  uniResult_of_uniOut he (by rw [rs_entered, hop])
theorem uniResult_binary {op : Word → Word → Word} {w : Word}
    (he : exec ins s = issue (info ins) s fun s => uniOut s d (op (rs s a.toNat) (rs s b.toNat)))
    (hop : op (uniReg s a.toNat) (uniReg s b.toNat) = w) : UniResult ins s d.toNat w :=
  uniResult_of_uniOut he (by rw [rs_entered, rs_entered, hop])
end

theorem uniformArithmetic : Statements.UniformArithmetic := by
  intro s st d a b u i j x y
  refine ⟨?_, ?_, ?_, ?_, ?_, ?_, ?_, ?_, ?_, ?_, ?_, ?_, ?_, ?_, ?_, ?_, ?_, ?_, ?_⟩
  · exact uniResult_unary (op := id) (exec_smov ..) rfl
  · exact uniResult_of_uniOut (exec_slimm ..) rfl
  · exact uniResult_unary (op := limmhW j) (exec_slimmh ..) rfl
  · exact uniResult_binary (op := (· + ·)) (exec_sadd ..) rfl
  · exact uniResult_binary (op := (· - ·)) (exec_ssub ..) rfl
  · exact uniResult_unary (op := (· + i.signExtend 32)) (exec_saddi ..) rfl
  · exact uni_pair_result (exec_sadd64 ..) rfl (by rw [rs64_entered, rs64_entered, highWord_append_lowWord])
  · exact uniResult_binary (op := (· * ·)) (exec_smul ..) rfl
  · refine uniResult_binary (op := fun x y => if u == 1 then mulHu x y else mulHi x y) (exec_smulhi ..) ?_
    simp only [beq_iff_eq, mulHi_eq, mulHu_eq, x, y]
  · exact uniResult_binary (op := (· &&& ·)) (exec_sand ..) rfl
  · exact uniResult_binary (op := (· ||| ·)) (exec_sor ..) rfl
  · exact uniResult_binary (op := (· ^^^ ·)) (exec_sxor ..) rfl
  · refine uniResult_binary (op := fun x y => if u == 1 then minU x y else minS x y) (exec_smin ..) ?_
    simp only [beq_iff_eq, minU_eq, minS_eq, x, y]
    by_cases hu : u = 1 <;> simp only [hu, if_true, if_false]
  · refine uniResult_binary (op := fun x y => if u == 1 then maxU x y else maxS x y) (exec_smax ..) ?_
    simp only [beq_iff_eq, maxU_eq, maxS_eq, x, y]
    by_cases hu : u = 1 <;> simp only [hu, if_true, if_false]
  · exact uniResult_unary (op := popcW) (exec_spopc ..) rfl
  · exact uniResult_unary (op := clzW) (exec_sclz ..) rfl
  · exact uniResult_binary (op := fun x y => .ofNat 32 (fAdd fp32 x.toNat y.toNat)) (exec_sfadd ..) rfl
  · exact uniResult_binary (op := fun x y => .ofNat 32 (fMul fp32 x.toNat y.toNat)) (exec_sfmul ..) rfl
  · exact uniResult_of_uniOut (exec_sffma ..) (by rw [rs_entered, rs_entered, rs_entered])

/-! ### Words that read elsewhere -/

theorem append_words (x : BitVec 128) :
    (x.extractLsb' 96 32 ++ x.extractLsb' 64 32) ++ (x.extractLsb' 32 32 ++ x.extractLsb' 0 32) = x := by
  rw [BitVec.extractLsb'_append_extractLsb'_eq_extractLsb' (by decide), BitVec.extractLsb'_append_extractLsb'_eq_extractLsb' (by decide),
    BitVec.extractLsb'_append_extractLsb'_eq_extractLsb' (by decide)]
  exact Laws.extract_all x
theorem grd_result {s : State} {st : BitVec 2} {e : BitVec 5} {g : BitVec 3} (h : MayIssue (info (.grd st e g)) s) :
    ∃ t, exec (.grd st e g) s = .next t ∧ uniPair t (4 * e.toNat + 2) ++ uniPair t (4 * e.toNat) = genReg s g.toNat ∧
      OnlyRegs (info (.grd st e g)) s t [] [4 * e.toNat, 4 * e.toNat + 1, 4 * e.toNat + 2, 4 * e.toNat + 3] [] [] [] := by
  obtain ⟨t, hexec, hval, honly⟩ := uni_run_result (exec_grd ..) rfl (l := 4) rfl h
  refine ⟨t, hexec, ?_, honly⟩
  have h0 := hval 0 (by decide)
  have h1 := hval 1 (by decide)
  have h2 := hval 2 (by decide)
  have h3 := hval 3 (by decide)
  rw [uniPair, uniPair, h1, h2, h3, show uniReg t (4 * e.toNat) = _ from h0, rg_entered]
  exact append_words _

theorem ack_cg_entered (i : Info) (s : State) : (cg (entered i s)).ack = (cg s).ack := by
  rw [cg_entered, setPath_ack]
theorem rdlane_result {s : State} {st : BitVec 2} {d a l : BitVec 7} (hact : emask s ≠ 0) (hlane : l.toNat < (cg s).width) :
    UniResult (.rdlane st d a l) s d.toNat (laneReg s a.toNat l.toNat) := by
  have hmask : (emask s == 0) = false := beq_eq_false_iff_ne.mpr hact
  refine uni_result (act := fun s => if emask s == 0 then .done s else if (cg s).width ≤ l.toNat then .trap { code := .bound }
    else uniOut s d (rv s a.toNat l.toNat)) ?_ ?_
  · refine (exec_rdlane ..).trans ?_
    rw [execRdlane, hmask]
    rfl
  · simp only [emask_entered, hmask, width_entered, if_neg (Nat.not_le.mpr hlane), Bool.false_eq_true, if_false, uniOut, rv_entered]

theorem uniformReadings : Statements.UniformReadings := by
  intro s st d a l g e
  refine ⟨rdlane_result, ?_, ?_, grd_result⟩
  · exact uniResult_of_uniOut (exec_ackrd ..) (by rw [ack_cg_entered])
  · exact uniResult_of_uniOut (exec_krd ..) (by rw [cb_entered]; rfl)

/-- Settles O15. -/
theorem uniformWords : Obligations.UniformWords := ⟨uniformArithmetic, uniformReadings⟩

end Sys2Proof.Machine
end

