-- ==== Sys2Proof/Proofs/Jumps.lean ====
section
/-!
PROOFS. Proofs/Jumps.lean: the words that move their path (R141, R144), and the cached translations a word looks up.
-/
namespace Sys2Proof.Machine

/-! ### A word whose own effect sets its path -/

theorem cg_captureLoop (s : State) (a : Addr) : cg (captureLoop s a) = cg s := by
  rcases captureLoop_cases s a with h | ⟨c, half, l, h⟩ <;> rw [h]
  rfl
theorem cp_captureLoop (s : State) (a : Addr) : cp (captureLoop s a) = cp s := by rw [cp, cg_captureLoop, cp]
theorem pathResult_of_setCp {ins : Instr} {s : State} {p : Path} {act : State → Act} (he : exec ins s = issue (info ins) s act)
    (ha : act (entered (info ins) s) = .done (setCp (entered (info ins) s) p)) : PathResult ins s { p with wait := none } := by
  obtain ⟨hm, hc, hg, hp⟩ := setCp_facts (info ins) s p
  exact path_result he _ (fun _ => ha) hm hc hg hp
theorem pathResult_of_captured {ins : Instr} {s : State} {p : Path} {a : Addr} {act : State → Act}
    (he : exec ins s = issue (info ins) s act)
    (ha : act (entered (info ins) s) = .done (setCp (captureLoop (entered (info ins) s) a) p)) :
    PathResult ins s { p with wait := none } := by
  obtain ⟨hm, hc, hg, hp⟩ := captured_facts (info ins) s a p
  exact path_result he _ (fun _ => ha) hm hc hg hp
theorem pathResult_of_branchTo {ins : Instr} {s : State} {a : Addr} {act : State → Act} (he : exec ins s = issue (info ins) s act)
    (ha : act (entered (info ins) s) = .done (branchTo (entered (info ins) s) a)) :
    PathResult ins s { cp s with pc := a, stall := (info ins).stall, wait := none } :=
  pathResult_of_captured (p := { cp s with pc := a, stall := (info ins).stall }) he
    (by rw [ha, branchTo, jumpTo, cp_captureLoop, cp_entered])
theorem setCp_setCp (s : State) (p q : Path) : setCp (setCp s p) q = setCp s q := by
  simp only [setCp, cg_setCg, setPath_setPath, setCg_setCg]
/-- The same where the own effect changes its path before it captures the loop. -/
theorem pathResult_of_setCp_captured {ins : Instr} {s : State} {p q : Path} {a : Addr} {act : State → Act}
    (he : exec ins s = issue (info ins) s act)
    (ha : act (entered (info ins) s) = .done (setCp (captureLoop (setCp (entered (info ins) s) q) a) p)) :
    PathResult ins s { p with wait := none } := by
  obtain ⟨hm, hc, hg, hp⟩ := setCp_facts (info ins) s p
  rcases captureLoop_cases (setCp (entered (info ins) s) q) a with hsame | ⟨c, half, l, hset⟩
  · exact pathResult_of_setCp he (by rw [ha, hsame, setCp_setCp])
  · have he' : setCp (captureLoop (setCp (entered (info ins) s) q) a) p =
        setCore (setCp (entered (info ins) s) p) c (setLoop (coreOf (setCp (entered (info ins) s) p) c) half l) := by
      rw [hset, ← setCp_setCp (entered (info ins) s) q p]; rfl
    refine path_result he _ (fun _ => ha.trans (congrArg Act.done he')) ?_ (fun c' => ?_) hg hp
    · exact congrArg (fun z : State => { z with cores := (entered (info ins) s).cores }) hm
    · rw [← hc c']
      by_cases hcc : c' = c
      · rw [hcc, coreOf_setCore, loopless_setLoop]
      · rw [coreOf_setCore_other _ _ hcc]
theorem pathResult_of_unchanged {ins : Instr} {s : State} {act : State → Act} (he : exec ins s = issue (info ins) s act)
    (ha : act (entered (info ins) s) = .done (entered (info ins) s)) :
    PathResult ins s { cp s with pc := (cp s).pc + 4, stall := (info ins).stall, wait := none } :=
  pathResult_of_setCp (p := { cp s with pc := (cp s).pc + 4, stall := (info ins).stall }) he
    (by rw [ha, ← cp_entered, setCp_cp_entered])
theorem wordPc_entered (i : Info) (s : State) : wordPc (entered i s) = (cp s).pc := by
  rw [wordPc, cp_entered]; exact BitVec.add_sub_cancel _ _
theorem sbTarget_entered (i : Info) (s : State) (o : BitVec 18) :
    sbTarget (entered i s) o = (cp s).pc + o.signExtend 64 * 4 := by rw [sbTarget, wordPc_entered]

/-! ### Cached translations -/

/-- A look-up finds what it finds in the same tables, and changes no more than the cached translations. -/
theorem tlbLook_entered (i : Info) (s : State) (ctx va : Nat) :
    tlbLook (entered i s) ctx va = ((tlbLook s ctx va).1, { entered i s with tlb := (tlbLook s ctx va).2.tlb }) := by
  have htlb : (entered i s).tlb = s.tlb := by rw [entered_eq]; rfl
  have hwalk : walk (entered i s) ctx va = walk s ctx va := by rw [entered_eq]; rfl
  rw [tlbLook, tlbLook, htlb, hwalk]
  cases s.tlb.find? fun e => e.ctx == ctx && e.page == va / 2 ^ 16 with
  | none => rfl
  | some e => dsimp only; rw [← htlb]
theorem checkLeaf_tlb (s : State) (t : List TlbEntry) (world : Nat) (l : Option Leaf) (va : Nat) (r w x : Bool) :
    checkLeaf { s with tlb := t } world l va r w x = checkLeaf s world l va r w x := rfl
theorem checkLeaf_entered (i : Info) (s : State) (world : Nat) (l : Option Leaf) (va : Nat) (r w x : Bool) :
    checkLeaf (entered i s) world l va r w x = checkLeaf s world l va r w x := by rw [entered_eq]; rfl
theorem mayIssue_tlb {i : Info} {s : State} (h : MayIssue i s) (t : List TlbEntry) : MayIssue i { s with tlb := t } :=
  ⟨h.version, h.defined, h.slots, h.privileged, h.allotted, h.readsOnTime, h.writesOnTime, h.region⟩
theorem entered_tlb (i : Info) (s : State) (t : List TlbEntry) : entered i { s with tlb := t } = { entered i s with tlb := t } := by
  rw [entered_eq, entered_eq]; rfl
theorem settled_tlb (i : Info) (s e : State) (t : List TlbEntry) : settled i { s with tlb := t } e = settled i s e := rfl
/-- A jump after a look-up: the cached translations may change, and the path. -/
theorem onlyPath_after_tlbLook {i : Info} {s : State} (h : MayIssue i s) (t : List TlbEntry) (p : Path) :
    OnlyPath { s with tlb := t } (settled i s (setCp { entered i s with tlb := t } p)) { p with wait := none } := by
  obtain ⟨hm, hc, hg, hp⟩ := setCp_facts i { s with tlb := t } p
  rw [← entered_tlb, ← settled_tlb i s _ t]
  exact path_only (mayIssue_tlb h t) hm hc hg hp

/-! ### BRX (R144) -/

/-- The address of a register's offset into the code (R144). -/
def codeAddr (s : State) (a : BitVec 7) : Addr := BitVec.ofNat 64 ((ck s).image + 0x80) + (uniReg s a.toNat).signExtend 64
/-- BRX's own effect on a target. -/
def brxAct (s : State) (target : Addr) : Act :=
  if (cb s).kmode then
    if (serviceWord s target).isSome then .done (jumpTo s target) else .trap { code := .page, addr := target, hasPage := true }
  else if (Map.find (coreOf s (cg s).core).icache (icKey (cb s).ctx target)).isSome then .done (jumpTo s target)
  else match checkLeaf (tlbLook s (cb s).ctx target.toNat).2 (cb s).world (tlbLook s (cb s).ctx target.toNat).1 target.toNat false false true with
    | some t => .trap { code := t, addr := target, hasPage := true }
    | none => .done (jumpTo (tlbLook s (cb s).ctx target.toNat).2 target)
theorem exec_brx_eq (st : BitVec 2) (a : BitVec 7) (s : State) :
    exec (.brx st a) s = issue (info (.brx st a)) s fun s =>
      if (rs s a.toNat).toNat % 4 ≠ 0 then .trap { code := .align, addr := codeBase (ck s) + (rs s a.toNat).signExtend 64 }
      else brxAct s (codeBase (ck s) + (rs s a.toNat).signExtend 64) := rfl
section
variable {s : State} {st : BitVec 2} {a : BitVec 7}

theorem brxAct_of_aligned (ha : (uniReg s a.toNat).toNat % 4 = 0) :
    (if (rs (entered (info (.brx st a)) s) a.toNat).toNat % 4 ≠ 0
      then Act.trap { code := .align, addr := codeBase (ck (entered (info (.brx st a)) s)) +
        (rs (entered (info (.brx st a)) s) a.toNat).signExtend 64 }
      else brxAct (entered (info (.brx st a)) s) (codeBase (ck (entered (info (.brx st a)) s)) +
        (rs (entered (info (.brx st a)) s) a.toNat).signExtend 64)) = brxAct (entered (info (.brx st a)) s) (codeAddr s a) := by
  rw [rs_entered, ck_entered, if_neg (not_not_intro ha)]; rfl
theorem brx_pathResult (ha : (uniReg s a.toNat).toNat % 4 = 0)
    (hb : brxAct (entered (info (.brx st a)) s) (codeAddr s a) = .done (jumpTo (entered (info (.brx st a)) s) (codeAddr s a))) :
    PathResult (.brx st a) s { cp s with pc := codeAddr s a, stall := st.toNat, wait := none } :=
  pathResult_of_setCp (p := { cp s with pc := codeAddr s a, stall := st.toNat }) (exec_brx_eq st a s)
    ((brxAct_of_aligned ha).trans (hb.trans (by rw [jumpTo, cp_entered]; rfl)))
theorem serviceWord_entered (i : Info) (s : State) (d : Addr) : serviceWord (entered i s) d = serviceWord s d := by
  rw [serviceWord, serviceWord, cb_entered, entered_eq]; rfl
theorem icache_entered (i : Info) (s : State) : (coreOf (entered i s) (cg (entered i s)).core).icache = (coreOf s (cg s).core).icache := by
  have hcore : (cg (entered i s)).core = (cg s).core := by simp [cg_entered]
  rw [hcore, entered_eq]; rfl
theorem brx_kernel (ha : (uniReg s a.toNat).toNat % 4 = 0) (hk : (cb s).kmode = true)
    (hw : (serviceWord s (codeAddr s a)).isSome = true) :
    PathResult (.brx st a) s { cp s with pc := codeAddr s a, stall := st.toNat, wait := none } :=
  brx_pathResult ha (by rw [brxAct, cb_entered, if_pos hk, serviceWord_entered, if_pos hw])
theorem brx_cached (ha : (uniReg s a.toNat).toNat % 4 = 0) (hk : (cb s).kmode = false)
    (hi : (Map.find (coreOf s (cg s).core).icache (icKey (cb s).ctx (codeAddr s a))).isSome = true) :
    PathResult (.brx st a) s { cp s with pc := codeAddr s a, stall := st.toNat, wait := none } :=
  brx_pathResult ha (by rw [brxAct, cb_entered, hk, if_neg Bool.false_ne_true, icache_entered, if_pos hi])
theorem brx_checked (ha : (uniReg s a.toNat).toNat % 4 = 0) (hk : (cb s).kmode = false)
    (hi : Map.find (coreOf s (cg s).core).icache (icKey (cb s).ctx (codeAddr s a)) = none)
    (hc : checkLeaf s (cb s).world (tlbLook s (cb s).ctx (codeAddr s a).toNat).1 (codeAddr s a).toNat false false true = none)
    (h : MayIssue (info (.brx st a)) s) :
    ∃ t, exec (.brx st a) s = .next t ∧ OnlyPath { s with tlb := (tlbLook s (cb s).ctx (codeAddr s a).toNat).2.tlb } t
      { cp s with pc := codeAddr s a, stall := st.toNat, wait := none } := by
  have hact : brxAct (entered (info (.brx st a)) s) (codeAddr s a) = .done (setCp
      { entered (info (.brx st a)) s with tlb := (tlbLook s (cb s).ctx (codeAddr s a).toNat).2.tlb }
      { cp s with pc := codeAddr s a, stall := st.toNat }) := by
    rw [brxAct, cb_entered, hk, if_neg Bool.false_ne_true, icache_entered, hi, if_neg (by exact Bool.false_ne_true), tlbLook_entered]
    simp only [checkLeaf_tlb, checkLeaf_entered, hc]
    rw [jumpTo, ← entered_tlb, cp_entered]; rfl
  exact ⟨_, (exec_brx_eq st a s).trans (issue_done h ((brxAct_of_aligned ha).trans hact)), onlyPath_after_tlbLook h _ _⟩
end

/-- Settles O21: each jump sets its own path, and BRX the cached translations too where it has to look its page up. -/
theorem jumps : Obligations.Jumps := by
  intro s st p n o a q target test dest
  refine ⟨fun ht => ?_, fun ht => ?_, ?_, fun hd => ?_, fun x l hr => ?_, brx_kernel, brx_cached, brx_checked⟩
  · exact pathResult_of_branchTo (exec_bra ..) (by rw [if_pos ((predAny_entered_iff ..).mpr ht), sbTarget_entered])
  · exact pathResult_of_unchanged (exec_bra ..) (by rw [if_neg (mt (predAny_entered_iff ..).mp ht)])
  · exact pathResult_of_branchTo (exec_jmp ..) (by rw [sbTarget_entered])
  · exact pathResult_of_setCp_captured (a := target) (q := { cp s with pc := (cp s).pc + 4, rstack := ((cp s).pc + 4) :: (cp s).rstack, stall := st.toNat })
      (p := { cp s with pc := target, rstack := ((cp s).pc + 4) :: (cp s).rstack, stall := st.toNat }) (exec_call ..)
      (by simp only [cp_entered, if_neg (Nat.not_le.mpr hd), branchTo, jumpTo, cp_captureLoop, cp_setCp, sbTarget, wordPc,
            BitVec.add_sub_cancel]; rfl)
  · exact pathResult_of_setCp (p := { cp s with pc := x, rstack := l, stall := st.toNat }) (exec_ret ..) (by simp only [cp_entered, hr]; rfl)

end Sys2Proof.Machine
end

