-- ==== Sys2Proof/Proofs/Completion.lean ====
section
/-!
PROOFS. Proofs/Completion.lean: what issue adds to a word's own effect (R37 to R39, R150), whatever that effect does to the machine.
-/
namespace Sys2Proof.Machine

/-! ### The state on entry -/

theorem machine_entered (i : Info) (s : State) : { entered i s with groups := s.groups } = s := by rw [entered_eq]; rfl
theorem grpOf_entered_other (i : Info) (s : State) {n : Nat} (hn : n ≠ s.cur) : grpOf (entered i s) n = grpOf s n := by
  rw [entered_eq, grpOf_setCg_other _ _ hn]
theorem repathed_entered (i : Info) (s : State) : repathed (cg s) (cg (entered i s)) = cg s := by
  have h := (setPath_rest { cg s with early := [] } { cp s with pc := (cp s).pc + 4, stall := i.stall }).1
  rw [← cg_entered] at h
  exact (congrArg (repathed (cg s)) h :)
theorem laneReg_entered (i : Info) (s : State) (r th : Nat) : laneReg (entered i s) r th = laneReg s r th := by
  rw [laneReg, v_cg_entered, laneReg]
theorem uniReg_entered (i : Info) (s : State) (r : Nat) : uniReg (entered i s) r = uniReg s r := by
  rw [uniReg, s_cg_entered, uniReg]
theorem spill_entered (i : Info) (s : State) (n : Nat) : (grpOf (entered i s) n).spill = (grpOf s n).spill := by
  by_cases hn : n = s.cur
  · have h := spill_cg_entered i s
    rw [cg, cur_entered] at h
    rw [hn, h, cg]
  · rw [grpOf_entered_other i s hn]
theorem byteSeen_entered (i : Info) (s : State) (m : MemName) (a : Nat) : byteSeen (entered i s) m a = byteSeen s m a :=
  byteSeen_congr (congrArg (fun z : State => { z with fresh := s.fresh }) (machine_entered i s)) (spill_entered i s)
    (stores_cg_entered i s) m a

/-! ### The state after completion -/

section
variable {i : Info} {s : State} (h : MayIssue i s) (e : State)
include h

theorem cg_settled : cg (settled i s e) = woken (waitOver (noted i s (cg e))) := by
  rw [settled_eq h, cg_setFresh, cg_setCg]
theorem machine_settled : { settled i s e with groups := e.groups, fresh := e.fresh } = e := by rw [settled_eq h]; rfl
theorem fresh_settled : (settled i s e).fresh = e.fresh + 2 := by rw [settled_eq h]; rfl
theorem cur_settled : (settled i s e).cur = e.cur := by rw [settled_eq h]; rfl
theorem grpOf_settled_other {n : Nat} (hn : n ≠ e.cur) : grpOf (settled i s e) n = grpOf e n := by
  rw [settled_eq h, grpOf_setFresh, grpOf_setCg_other _ _ hn]
theorem repathed_settled : repathed (cg e) (cg (settled i s e)) = cg e := by
  rw [cg_settled h]; exact settled_rest i s (cg e)
theorem cp_settled : cp (settled i s e) = { cp e with wait := none } := by rw [cp, cg_settled h, settled_path, cp]
theorem restingPath_settled : restingPath (cg (settled i s e)) = restingPath (cg e) := by rw [cg_settled h, settled_resting]
theorem laneReg_settled (r th : Nat) : laneReg (settled i s e) r th = laneReg e r th := by
  have hv : (cg (settled i s e)).v = (cg e).v := (congrArg Group.v (repathed_settled h e) :)
  rw [laneReg, hv, laneReg]
theorem uniReg_settled (r : Nat) : uniReg (settled i s e) r = uniReg e r := by
  have hs : (cg (settled i s e)).s = (cg e).s := (congrArg Group.s (repathed_settled h e) :)
  rw [uniReg, hs, uniReg]
theorem spill_settled (n : Nat) : (grpOf (settled i s e) n).spill = (grpOf e n).spill := by
  by_cases hn : n = e.cur
  · have hs : (cg (settled i s e)).spill = (cg e).spill := (congrArg Group.spill (repathed_settled h e) :)
    rw [cg, cur_settled h] at hs
    rw [hn, hs, cg]
  · rw [grpOf_settled_other h e hn]
theorem byteSeen_settled (m : MemName) (a : Nat) : byteSeen (settled i s e) m a = byteSeen e m a := by
  have hst : (cg (settled i s e)).stores = (cg e).stores := (congrArg Group.stores (repathed_settled h e) :)
  exact byteSeen_congr (machine_settled h e) (spill_settled h e) hst m a
end

theorem waitOver_pend (g : Group) : (waitOver g).pend = g.pend := setPath_pend ..
theorem waitOver_region (g : Group) : (waitOver g).region = g.region := setPath_region ..
theorem woken_pend (g : Group) : (woken g).pend = g.pend := by rcases woken_cases g with h | h <;> rw [h]
theorem woken_region (g : Group) : (woken g).region = g.region := by rcases woken_cases g with h | h <;> rw [h]
theorem region_settled {i : Info} {s : State} (h : MayIssue i s) (e : State) :
    (cg (settled i s e)).region = (cg e).region.map fun r => { r with
      written := (r.written ++ (i.writes.filter fun w => useMask (cg s) (emask s) w.1 w.2 != 0).map Prod.fst).eraseDups } := by
  rw [cg_settled h, woken_region, waitOver_region, noted]
/-- A register written in some thread is pending, unless its class is 0 (R37). -/
theorem pending_settled {i : Info} {s : State} (h : MayIssue i s) (e : State) {w : Reg × Threads} (hw : w ∈ i.writes)
    (hl : i.latency ≠ 0) (hm : useMask (cg s) (emask s) w.1 w.2 ≠ 0) :
    { reg := w.1, threads := useMask (cg s) (emask s) w.1 w.2
      ready := 16 * s.time + (cg s).slot + (if i.lane then (cg s).width / 32 else 1) - 1 + i.latency } ∈
      (cg (settled i s e)).pend := by
  rw [cg_settled h, woken_pend, waitOver_pend, noted]
  refine List.mem_append_right _ ?_
  rw [if_neg hl]
  exact List.mem_filter.mpr ⟨List.mem_map_of_mem hw, bne_iff_ne.mpr hm⟩

/-- Settles O26: entering moves the path alone, and completing adds the marks of issue to whatever the own effect leaves. -/
theorem issueBookkeeping : Obligations.IssueBookkeeping := fun i s e h =>
  ⟨machine_entered i s, fun _ hx => grpOf_entered_other i s hx, repathed_entered i s, cp_entered i s, restingPath_cg_entered i s,
    machine_settled h e, fresh_settled h e, fun _ hx => grpOf_settled_other h e hx, repathed_settled h e, cp_settled h e,
    restingPath_settled h e, region_settled h e, fun _ hw hl hm => pending_settled h e hw hl hm⟩

end Sys2Proof.Machine
end

