-- ==== Sys2Proof/Proofs/Divergence.lean ====
section
/-!
PROOFS. Proofs/Divergence.lean: BR (R142), by which of its two sides have threads.
-/
namespace Sys2Proof.Machine

section
variable {s : State} {st : BitVec 2} {p : BitVec 3} {n : BitVec 1} {o : BitVec 18} {taken : Mask}

/-- taken holds the active threads of s in which the predicate, after negation, holds. -/
def BranchMask (s : State) (p : BitVec 3) (n : BitVec 1) (taken : Mask) : Prop :=
  ∀ th, bitOf taken th = (bitOf (emask s) th && (predReg s p.toNat th != (n == 1)))

theorem mask_ext {m q : Mask} (h : ∀ t, bitOf m t = bitOf q t) : m = q := BitVec.eq_of_getLsbD_eq fun t _ => h t
theorem takenMask_eq (i : Info) (ht : BranchMask s p n taken) : emask (entered i s) &&& predNeg (entered i s) p.toNat n = taken := by
  refine mask_ext fun t => ?_
  rw [bitOf_and, emask_entered, ht t]
  cases hact : bitOf (emask s) t with
  | false => rfl
  | true => rw [predNeg_entered_of_active i n hact]
theorem restMask_eq (i : Info) (ht : BranchMask s p n taken) :
    emask (entered i s) &&& ~~~predNeg (entered i s) p.toNat n = emask s &&& ~~~taken := by
  have hnot : ∀ (m : Mask) {t : Nat}, t < 128 → bitOf (~~~m) t = !bitOf m t := fun m t h128 => by
    rw [bitOf, BitVec.getLsbD_not, decide_eq_true h128, Bool.true_and, bitOf]
  refine mask_ext fun t => ?_
  rw [bitOf_and, bitOf_and, emask_entered]
  cases hact : bitOf (emask s) t with
  | false => rfl
  | true =>
    obtain ⟨-, h128⟩ := active_lt hact
    rw [hnot _ h128, hnot _ h128, ht t, hact, predNeg_entered_of_active i n hact, Bool.true_and, Bool.true_and, Bool.true_and]
/-- What BR does on entry, by its two sides. -/
theorem splitPath_entered (i : Info) (ht : BranchMask s p n taken) (o : BitVec 18) :
    splitPath (entered i s) (predNeg (entered i s) p.toNat n) (sbTarget (entered i s) o) =
      let e := entered i s
      let target := (cp s).pc + o.signExtend 64 * 4
      if taken = 0 then .done e
      else if emask s &&& ~~~taken = 0 then .done (branchTo e target)
      else if (cg s).two = false ∧ (cp s).stack = [] then
        .done (setCg (captureLoop e target) { cg e with
          pairM := (cp s).mask, pairS := (cp s).scope, two := true, onB := false, lastB := true
          pathA := { pc := target, mask := taken, scope := taken, stall := i.stall, rstack := (cp s).rstack }
          pathB := { pc := (cp s).pc + 4, mask := emask s &&& ~~~taken, scope := emask s &&& ~~~taken, stall := i.stall, rstack := (cp s).rstack } })
      else if 16 ≤ (cp s).stack.length then .trap { code := .bound }
      else .done (setCp (captureLoop e target) { cp s with
        pc := target, mask := taken, scope := taken, stall := i.stall
        stack := { m := (cp s).mask, s := (cp s).scope, f := emask s &&& ~~~taken, fpc := (cp s).pc + 4, second := false, cont := none }
          :: (cp s).stack }) := by
  have hpair : (!(cg (entered i s)).two && (cp s).stack.isEmpty) = true ↔ (cg s).two = false ∧ (cp s).stack = [] := by
    rw [two_cg_entered, Bool.and_eq_true, Bool.not_eq_true', List.isEmpty_iff]
  simp only [splitPath, takenMask_eq i ht, restMask_eq i ht, sbTarget_entered, beq_iff_eq, cp_entered, hpair]

theorem br_none (ht : BranchMask s p n taken) (h0 : taken = 0) :
    PathResult (.br st p n o) s { cp s with pc := (cp s).pc + 4, stall := st.toNat, wait := none } :=
  pathResult_of_unchanged (exec_br ..) ((splitPath_entered _ ht o).trans (if_pos h0))
theorem br_all (ht : BranchMask s p n taken) (h0 : taken ≠ 0) (hr : emask s &&& ~~~taken = 0) :
    PathResult (.br st p n o) s { cp s with pc := (cp s).pc + o.signExtend 64 * 4, stall := st.toNat, wait := none } :=
  pathResult_of_branchTo (exec_br ..) ((splitPath_entered _ ht o).trans ((if_neg h0).trans (if_pos hr)))
theorem br_inside (ht : BranchMask s p n taken) (h0 : taken ≠ 0) (hr : emask s &&& ~~~taken ≠ 0)
    (hin : (cg s).two = true ∨ (cp s).stack ≠ []) (hl : (cp s).stack.length < 16) :
    PathResult (.br st p n o) s { cp s with
      pc := (cp s).pc + o.signExtend 64 * 4, mask := taken, scope := taken, stall := st.toNat, wait := none
      stack := { m := (cp s).mask, s := (cp s).scope, f := emask s &&& ~~~taken, fpc := (cp s).pc + 4, second := false, cont := none }
        :: (cp s).stack } := by
  have hpair : ¬ ((cg s).two = false ∧ (cp s).stack = []) := fun hno =>
    hin.elim (fun h2 => Bool.false_ne_true (hno.1.symm.trans h2)) fun hs => hs hno.2
  exact pathResult_of_captured (exec_br ..) ((splitPath_entered _ ht o).trans
    ((if_neg h0).trans ((if_neg hr).trans ((if_neg hpair).trans (if_neg (Nat.not_le.mpr hl))))))

theorem byteSeen_captured (i : Info) (s : State) (a : Addr) {g : Group} (hst : g.stores = (cg s).stores) (hsp : g.spill = (cg s).spill)
    (m : MemName) (x : Nat) : byteSeen (setCg (captureLoop (entered i s) a) g) m x = byteSeen s m x := by
  obtain ⟨hframe, -⟩ := captureLoop_frame (entered i s) a
  have hgroups : (captureLoop (entered i s) a).groups = (entered i s).groups := (congrArg State.groups hframe :)
  have hcur : (captureLoop (entered i s) a).cur = s.cur := (congrArg State.cur hframe :).trans (cur_entered i s)
  refine byteSeen_congr2 ?_ (fun n => ?_) (by rw [cg_setCg, hst]) m x
  · have hm := congrArg (fun z : State => { z with groups := s.groups, fresh := s.fresh, cores := s.cores }) hframe
    refine Eq.trans ?_ (hm.trans ?_)
    · rfl
    · rw [entered_eq]; rfl
  · by_cases hn : n = s.cur
    · have h := cg_setCg (captureLoop (entered i s) a) g
      rw [cg, show (setCg (captureLoop (entered i s) a) g).cur = s.cur from hcur] at h
      rw [hn, h, hsp, cg]
    · rw [grpOf_setCg_other _ _ (by rw [hcur]; exact hn)]
      have h : grpOf (captureLoop (entered i s) a) n = grpOf (entered i s) n := by simp only [grpOf, hgroups]
      rw [h, spill_entered]
theorem br_split (ht : BranchMask s p n taken) (h0 : taken ≠ 0) (hr : emask s &&& ~~~taken ≠ 0) (h2 : (cg s).two = false)
    (hs : (cp s).stack = []) (h : MayIssue (info (.br st p n o)) s) :
    ∃ t, exec (.br st p n o) s = .next t ∧ (cg t).two = true ∧ (cg t).onB = false ∧ (cg t).pairM = (cp s).mask ∧
      (cg t).pairS = (cp s).scope ∧
      (cg t).pathA = { pc := (cp s).pc + o.signExtend 64 * 4, mask := taken, scope := taken, stall := st.toNat, rstack := (cp s).rstack } ∧
      (cg t).pathB = { pc := (cp s).pc + 4, mask := emask s &&& ~~~taken, scope := emask s &&& ~~~taken, stall := st.toNat
                       rstack := (cp s).rstack } ∧
      (∀ r th, laneReg t r th = laneReg s r th) ∧ (∀ r, uniReg t r = uniReg s r) ∧ ∀ m a, byteSeen t m a = byteSeen s m a := by
  have hexec := issue_done (act := fun s => splitPath s (predNeg s p.toNat n) (sbTarget s o)) h ((splitPath_entered (info (.br st p n o)) ht o).trans
    ((if_neg h0).trans ((if_neg hr).trans (if_pos ⟨h2, hs⟩))))
  refine ⟨_, (exec_br ..).trans hexec, ?_⟩
  generalize he : setCg (captureLoop _ _) _ = e
  have hcg := congrArg cg he
  rw [cg_setCg] at hcg
  have hrep := repathed_settled h e
  have htwo : (cg (settled (info (.br st p n o)) s e)).two = true := (congrArg Group.two hrep :).trans (by rw [← hcg])
  have honB : (cg (settled (info (.br st p n o)) s e)).onB = false := (congrArg Group.onB hrep :).trans (by rw [← hcg])
  have hcp := cp_settled h e
  have hrest := restingPath_settled h e
  rw [cp, pathOf, htwo, honB, cp, ← hcg] at hcp
  rw [restingPath, htwo, honB, ← hcg] at hrest
  refine ⟨htwo, honB, (congrArg Group.pairM hrep :).trans (by rw [← hcg]), (congrArg Group.pairS hrep :).trans (by rw [← hcg]),
    hcp, hrest, fun r th => ?_, fun r => ?_, fun m a => ?_⟩
  · rw [laneReg_settled h, laneReg, ← hcg]; exact laneReg_entered ..
  · rw [uniReg_settled h, uniReg, ← hcg]; exact uniReg_entered ..
  · rw [byteSeen_settled h, ← he]
    refine byteSeen_captured (info (.br st p n o)) s _ ?_ ?_ m a
    · exact stores_cg_entered (info (.br st p n o)) s
    · exact spill_cg_entered (info (.br st p n o)) s
end

/-- Settles O22: each clause is one case of the split. -/
theorem divergence : Obligations.Divergence := fun _ _ _ _ _ _ ht =>
  ⟨br_none ht, br_all ht, br_inside ht, br_split ht⟩

end Sys2Proof.Machine
end

