-- ==== Sys2Proof/Proofs/ExecuteMask.lean ====
section
/-!
PROOFS. Proofs/ExecuteMask.lean: the words that read and narrow the execute mask (R146), and WRLANE (R230).
-/
namespace Sys2Proof.Machine

/-- Four uniform registers as one value, by pairs. -/
theorem rs128_entered (i : Info) (s : State) (n : Nat) : rs128 (entered i s) n = uniPair s (n + 2) ++ uniPair s n := by
  rw [rs128, rs_entered, rs_entered, rs_entered, rs_entered, uniPair, uniPair]
  refine BitVec.eq_of_toNat_eq ?_
  simp only [BitVec.toNat_append, Nat.shiftLeft_or_distrib, ← Nat.shiftLeft_add, Nat.or_assoc]

section
variable {s : State} {st : BitVec 2}

theorem emrd_result {a : BitVec 5} (h : MayIssue (info (.emrd st a)) s) : ∃ t, exec (.emrd st a) s = .next t ∧
    uniPair t (4 * a.toNat + 2) ++ uniPair t (4 * a.toNat) = emask s ∧
    OnlyRegs (info (.emrd st a)) s t [] [4 * a.toNat, 4 * a.toNat + 1, 4 * a.toNat + 2, 4 * a.toNat + 3] [] [] [] := by
  obtain ⟨t, hexec, hval, honly⟩ := uni_run_result (exec_emrd ..) rfl (l := 4) rfl h
  refine ⟨t, hexec, ?_, honly⟩
  have h0 : uniReg t (4 * a.toNat) = _ := hval 0 (by decide)
  have h1 := hval 1 (by decide)
  have h2 := hval 2 (by decide)
  have h3 := hval 3 (by decide)
  rw [uniPair, uniPair, h0, h1, h2, h3, emask_entered]
  exact append_words _
/-- A word that gives its path a new mask. -/
theorem pathResult_of_mask {ins : Instr} {m : Mask} {act : State → Act} (he : exec ins s = issue (info ins) s act)
    (ha : act (entered (info ins) s) = .done (setCp (entered (info ins) s) { cp (entered (info ins) s) with mask := m })) :
    PathResult ins s { cp s with pc := (cp s).pc + 4, stall := (info ins).stall, wait := none, mask := m } :=
  pathResult_of_setCp (p := { cp s with pc := (cp s).pc + 4, stall := (info ins).stall, mask := m }) he (by rw [ha, cp_entered])
theorem emwr_result {a : BitVec 5} :
    PathResult (.emwr st a) s { cp s with
      pc := (cp s).pc + 4, stall := st.toNat, wait := none
      mask := (uniPair s (4 * a.toNat + 2) ++ uniPair s (4 * a.toNat)) &&& (cp s).scope &&& (cg s).live } :=
  pathResult_of_mask (exec_emwr ..) (by rw [← rs128_entered, cp_entered, live_cg_entered])
theorem emandReg_result {a : BitVec 5} :
    PathResult (.emandReg st a) s { cp s with
      pc := (cp s).pc + 4, stall := st.toNat, wait := none
      mask := (cp s).mask &&& (uniPair s (4 * a.toNat + 2) ++ uniPair s (4 * a.toNat)) } :=
  pathResult_of_mask (exec_emandReg ..) (by rw [← rs128_entered, cp_entered])
/-- The threads left are those active before in which the predicate, after negation, holds. -/
theorem emandPred_result {p : BitVec 3} {n : BitVec 1} (h : MayIssue (info (.emandPred st p n)) s) :
    ∃ t, exec (.emandPred st p n) s = .next t ∧
      (∀ th, bitOf (emask t) th = (bitOf (emask s) th && (predReg s p.toNat th != (n == 1)))) ∧
      OnlyPath s t { cp s with pc := (cp s).pc + 4, stall := st.toNat, wait := none, mask := (cp t).mask } := by
  let i := info (.emandPred st p n)
  obtain ⟨t, hexec, honly⟩ := pathResult_of_mask (m := (cp s).mask &&& predNeg (entered i s) p.toNat n) (exec_emandPred st p n s)
    (by rw [cp_entered]) h
  have hmask : (cp t).mask = (cp s).mask &&& predNeg (entered i s) p.toNat n := congrArg Path.mask honly.path
  have hwidth : (cg t).width = (cg s).width := (congrArg Group.width honly.group :)
  refine ⟨t, hexec, fun th => ?_, by rw [hmask]; exact honly⟩
  rw [emask, hmask, hwidth, BitVec.and_assoc, BitVec.and_comm (predNeg _ _ _), ← BitVec.and_assoc, bitOf_and, ← emask]
  cases hact : bitOf (emask s) th with
  | false => rfl
  | true => rw [predNeg_entered_of_active i n hact]
theorem wrlane_result {d u l : BitVec 7} (hact : emask s ≠ 0) (hlane : l.toNat < (cg s).width)
    (h : MayIssue (info (.wrlane st d u l)) s) : ∃ t, exec (.wrlane st d u l) s = .next t ∧
      laneReg t d.toNat l.toNat = (if bitOf (emask s) l.toNat then uniReg s u.toNat else laneReg s d.toNat l.toNat) ∧
      (∀ th, th < (cg s).width → th ≠ l.toNat → laneReg t d.toNat th = laneReg s d.toNat th) ∧
      OnlyRegs (info (.wrlane st d u l)) s t [d.toNat] [] [] [] [] := by
  have hmask : (emask s == 0) = false := beq_eq_false_iff_ne.mpr hact
  obtain ⟨t, hexec, hlanes, honly⟩ := lane_result (d := d.toNat)
    (f := fun th => if bitOf (maskOf [l.toNat]) th then uniReg s u.toNat else laneReg s d.toNat th) (exec_wrlane st d u l s) (by
      simp only [emask_entered, hmask, width_entered, if_neg (Nat.not_le.mpr hlane), Bool.false_eq_true, if_false, rs_entered, wv_entered,
        laneNew_and]) h
  refine ⟨t, hexec, ?_, fun th hth hne => ?_, honly⟩
  · rw [hlanes _ hlane]
    by_cases hb : bitOf (emask s) l.toNat = true
    · have hone : bitOf (maskOf [l.toNat]) l.toNat = true := by simp [bitOf_maskOf, bitOf_lt hb]
      rw [if_pos hb, if_pos hb]; exact if_pos hone
    · rw [if_neg hb, if_neg hb]
  · have hother : bitOf (maskOf [l.toNat]) th = false := by simp [bitOf_maskOf, hne]
    rw [hlanes _ hth]
    simp only [hother, Bool.false_eq_true, if_false, ite_self]
end

/-- Settles O25: the mask words set their path's mask, and WRLANE is a lane word in one thread. -/
theorem executeMask : Obligations.ExecuteMask := fun _ _ _ _ _ _ _ _ =>
  ⟨emrd_result, emwr_result, emandReg_result, emandPred_result, wrlane_result⟩

end Sys2Proof.Machine
end

