-- ==== Sys2Proof/Proofs/ResetState.lean ====
section
/-!
PROOFS. Proofs/ResetState.lean: the state after reset (R377, R389, R390).
-/
namespace Sys2Proof.Machine

theorem reset_byte (n : MemName) (a : Nat) : homeByte State.reset n a = 0 := by
  cases n with
  | ring b =>
    have hcount : ∀ k, byteAt (bytesOfNat 4 0) k = 0 := by
      intro k
      match k with
      | 0 | 1 | 2 | 3 => rfl
      | _ + 4 => rfl
    have hempty : blkOf State.reset b = {} := rfl
    simp only [homeByte, hempty, hcount, ite_self]
    exact ite_self _
  | _ => rfl
theorem reset_partitions : ∀ p, p < 24 → Map.look State.reset.pkg.carve p 0 = 21 ∧ Map.look State.reset.pkg.slices p 1 = 0 ∧
    larderOf State.reset p = [] ∧ Map.look State.reset.pkg.pmap p 24 = p := by decide

/-- Settles O5, field by field. -/
theorem resetState : Obligations.ResetState :=
  ⟨rfl, rfl, rfl, rfl, rfl, rfl, rfl, rfl, rfl, rfl, rfl, rfl, rfl, rfl, rfl, rfl, rfl, rfl, rfl, rfl, rfl, rfl, rfl, reset_byte, rfl, rfl,
    fun _ => rfl, fun _ => rfl, fun _ => rfl, reset_partitions⟩

end Sys2Proof.Machine
end

