-- ==== Sys2Proof/Proofs/DecodeTraps.lean ====
section
/-!
PROOFS. Proofs/DecodeTraps.lean: the traps of decoding and issue (R30 to R32, R40, R152). A command word reads the translation registers
that its image names, which are no registers of its own word: in an open region of a checking context such a register, read before it is
readable, raises STALLCHK before R152's ILLOP.
-/
namespace Sys2Proof.Machine

/-- One group of 32 threads at its first word. -/
def oneGroup : State := { State.reset.withFetchWord 32 0 with cur := 2 }
/-- The same in an open region of a checking context; the image in s0 to s7 names x0 as the source's translation register, which is not
readable yet. -/
def lateSource : State :=
  let s := setCtx oneGroup 0 { ctxOf oneGroup 0 with check := true }
  setCg s { cg s with s := [(2, 0x80000)], region := some {}, pend := [{ reg := .x 0, threads := 1, ready := 1000 }] }

/-- What the word's trap reports. -/
def reportedCode (o : Host.Outcome State Fault Refusal) : Option TrapCode :=
  match o with
  | .next t => (cb t).report.map TrapReport.code
  | _ => none
theorem lateSource_cpya : reportedCode (exec (.cpya 0 0 0 0 0) lateSource) = some .stallchk := by decide
theorem lateSource_illop : reportedCode (.next (takeTrap lateSource lateSource.cur { code := .illop })) = some .illop := by decide

/-- Refutes O27: CPYA with a late translation register, in an open region of a checking context, raises STALLCHK, not ILLOP. -/
theorem not_decodeTraps : ¬ Obligations.DecodeTraps := by
  rintro ⟨h, -⟩
  obtain ⟨-, -, -, hissued⟩ := h (.cpya 0 0 0 0 0) 0xBB000000 lateSource (by decide) (by decide)
  obtain ⟨-, -, hregion, -⟩ := hissued (by decide) (by decide) (by decide)
  have hillop := hregion (by decide) (by decide) (.inr (by decide)) rfl (by decide)
  have hcode := congrArg reportedCode hillop
  rw [lateSource_cpya, lateSource_illop] at hcode
  exact absurd hcode (by decide)

end Sys2Proof.Machine
end

