-- ==== Sys2Proof/Proofs/ServiceWords.lean ====
section
/-!
PROOFS. Proofs/ServiceWords.lean: an SVC that takes its answer (R338). The statement has every answer of the batch's number gone from the
group's list; SVC takes one answer from it, and a state whose list holds two under one number keeps the other.
-/
namespace Sys2Proof.Machine

/-- One group that waits for the answer of batch 5, with two answers under that number. -/
def answeredTwice : State :=
  let s := { State.reset.withFetchWord 32 0 with cur := 2 }
  let s := setCg s { cg s with answered := [(5, (0, [])), (5, (0, []))] }
  setCp s { cp s with wait := some (.answer 5) }

/-- Whether an outcome's issuing group has an answer of batch 5. -/
def keepsAnswer (o : Host.Outcome State Fault Refusal) : Bool :=
  match o with
  | .next t => (Map.find (cg t).answered 5).isSome
  | _ => false
theorem answeredTwice_keepsAnswer : keepsAnswer (exec (.svc 0 0 0) answeredTwice) = true := by decide

theorem answeredTwice_mayIssue : MayIssue (info (.svc 0 0 0)) answeredTwice where
  version := by decide
  defined := by decide
  slots := by decide
  privileged := by decide
  allotted := by decide
  readsOnTime := by decide
  writesOnTime := by decide
  region := by decide

/-- Refutes O40: SVC takes one of two answers under one number, so an answer of that number is still there. -/
theorem not_serviceWords : ¬ Obligations.ServiceWords := by
  rintro ⟨h, -, -⟩
  obtain ⟨-, -, -, -, hsvc, -⟩ := h answeredTwice 0 0 0 0 0 0 0 0 0 {} (answeredTwice, []) {} [] 0 5 [] []
  obtain ⟨-, htaken⟩ := hsvc answeredTwice_mayIssue (by decide)
  obtain ⟨t, hnext, -, hgone⟩ := htaken (by decide) (by decide)
  have hkeeps := answeredTwice_keepsAnswer
  rw [hnext] at hkeeps
  simp [keepsAnswer, hgone] at hkeeps

end Sys2Proof.Machine
end

