-- ==== Sys2Proof/Proofs/GroupEvents.lean ====
section
/-!
PROOFS. Proofs/GroupEvents.lean: a pending store is performed (R136, R236). The statement asks of a store to any memory that its bytes are
at their home afterwards; a translation table has a name among the memories but holds no bytes, so a store to one leaves none there.
-/
namespace Sys2Proof.Machine

/-- A store of one byte to a translation table. -/
def tableStore : PendStore := { mem := .table 0, addr := 0, bytes := [1] }
/-- One group with that store pending. -/
def storesToTable : State :=
  let s := { State.reset.withFetchWord 32 0 with cur := 2 }
  setCg s { cg s with stores := [tableStore] }
theorem tableByte_zero (s : State) (a : Nat) : homeByte s (.table 0) a = 0 := rfl

/-- Refutes O41: a pending store to a translation table does not become that memory's byte. -/
theorem not_groupEvents : ¬ Obligations.GroupEvents := by
  rintro ⟨h, -⟩
  obtain ⟨-, hperformed⟩ := h storesToTable 2 0 tableStore
  obtain ⟨t, -, -, hhome, -⟩ := hperformed (by decide) (by decide) (by decide) (by decide) (by intro b hb; cases hb)
    (by unfold unread; decide) (by decide)
  have hbyte : homeByte t (.table 0) 0 = 1 := hhome 0 (by decide)
  rw [tableByte_zero] at hbyte
  exact absurd hbyte (by decide)

end Sys2Proof.Machine
end

