-- ==== Sys2Proof/Proofs/Sending.lean ====
section
/-!
PROOFS. Proofs/Sending.lean: what sending a flit leaves unchanged (R342 to R350). Whatever is queued, sent or rerouted, only the ports,
the channel-0 counters, the link budgets and the output change, and of a port neither its state nor its lanes, failures and far side.
-/
namespace Sys2Proof.Machine

/-- Of a port, what no flit that is sent changes. -/
def linkState (x : Port) : PortState × Nat × Nat × Nat := (x.st, x.lanes, x.fails, x.far)

/-- The second state differs from the first in nothing but what was sent. -/
structure Sends (s t : State) : Prop where
  rest : t = { s with links := { s.links with ports := t.links.ports, ch0Tx := t.links.ch0Tx }, ctxs := t.ctxs, out := t.out }
  ctx : ∀ c, ctxOf t c = { ctxOf s c with left := (ctxOf t c).left }
  port : ∀ p, linkState (portAt t p) = linkState (portAt s p)

theorem Sends.refl (s : State) : Sends s s := ⟨rfl, fun _ => rfl, fun _ => rfl⟩
theorem Sends.trans {s t u : State} (h : Sends s t) (k : Sends t u) : Sends s u where
  rest := by rw [k.rest, h.rest]
  ctx c := by rw [k.ctx, h.ctx]
  port p := (k.port p).trans (h.port p)

/-- A loop of sends sends. -/
theorem Sends.foldl {α : Type} {f : State → α → State} (hf : ∀ s a, Sends s (f s a)) (l : List α) : ∀ s, Sends s (l.foldl f s) := by
  induction l with
  | nil => exact Sends.refl
  | cons a l ih => exact fun s => (hf s a).trans (ih _)

section
variable {s t : State} (h : Sends s t)
include h
theorem Sends.hall : t.hall = s.hall := (congrArg State.hall h.rest :)
theorem Sends.pkg : t.pkg = s.pkg := (congrArg State.pkg h.rest :)
theorem Sends.dev : t.dev = s.dev := (congrArg State.dev h.rest :)
theorem Sends.host : t.host = s.host := (congrArg State.host h.rest :)
theorem Sends.groups : t.groups = s.groups := (congrArg State.groups h.rest :)
theorem Sends.blocks : t.blocks = s.blocks := (congrArg State.blocks h.rest :)
theorem Sends.gangs : t.gangs = s.gangs := (congrArg State.gangs h.rest :)
theorem Sends.kerns : t.kerns = s.kerns := (congrArg State.kerns h.rest :)
theorem Sends.links : t.links = { s.links with ports := t.links.ports, ch0Tx := t.links.ch0Tx } := (congrArg State.links h.rest :)
end

theorem sends_setPort {s : State} {p : Nat} {x : Port} (hx : linkState x = linkState (portAt s p)) : Sends s (setPort s p x) where
  rest := rfl
  ctx _ := rfl
  port q := by
    by_cases hq : q = p
    · subst hq; simpa [setPort, portAt, look_put_same] using hx
    · simp [setPort, portAt, look_put_other _ _ _ hq]
theorem sends_emit (s : State) (o : Out) : Sends s (emit s o) := ⟨rfl, fun _ => rfl, fun _ => rfl⟩
theorem sends_ch0Tx (s : State) (m : Map Nat) : Sends s (setLinks s { s.links with ch0Tx := m }) := ⟨rfl, fun _ => rfl, fun _ => rfl⟩
theorem ctxOf_setCtx_left (s : State) (k : Nat) (l : Map Int) (c : Nat) :
    ctxOf (setCtx s k { ctxOf s k with left := l }) c = { ctxOf s c with left := (ctxOf (setCtx s k { ctxOf s k with left := l }) c).left } := by
  by_cases hc : c = k
  · subst hc; simp
  · simp [ctxOf_setCtx_other _ _ hc]
theorem sends_chargeBudget (s : State) (ctx kind unit n : Nat) : Sends s (chargeBudget s ctx kind unit n) := by
  unfold chargeBudget
  dsimp only
  split
  · exact Sends.refl s
  · exact ⟨rfl, ctxOf_setCtx_left s ctx _, fun _ => rfl⟩

theorem sends_paid (s : State) (free : Bool) (ctx kind unit n : Nat) :
    Sends s (if free = true then s else chargeBudget s ctx kind unit n) := by
  split
  · exact Sends.refl s
  · exact sends_chargeBudget s ctx kind unit n

theorem sends_dropQueued (s : State) (p : Nat) (fl : Flit) : Sends s (dropQueued s p fl) := by
  refine sends_setPort ?_
  dsimp only
  split <;> rfl
theorem sends_put {s u : State} (h : Sends s u) {p : Nat} {x : Port} (hx : linkState x = linkState (portAt s p)) (o : Out) :
    Sends s (emit (setLinks u { u.links with ports := Map.put u.links.ports p x }) o) :=
  h.trans ((sends_setPort (hx.trans (h.port p).symm)).trans (sends_emit _ o))
theorem sends_portPut (s : State) (p : Nat) (fl : Flit) : Sends s (portPut s p fl) := by
  refine sends_put (sends_paid s _ _ _ _ _) ?_ _
  dsimp only
  split <;> rfl
theorem sends_portFlush (p : Nat) : ∀ (n : Nat) (s : State), Sends s (portFlush p n s)
  | 0, s => Sends.refl s
  | n + 1, s => by
    unfold portFlush
    split
    · exact ((sends_dropQueued s p _).trans (sends_portPut _ p _)).trans (sends_portFlush p n _)
    · exact Sends.refl s
theorem sends_portSend (s : State) (p : Nat) (fl : Flit) : Sends s (portSend s p fl) :=
  Sends.trans (sends_setPort (p := p) (x := { portAt s p with sendQ := (portAt s p).sendQ ++ [fl] }) rfl) (sends_portFlush p _ _)
theorem sends_sendOn (s : State) (p : Nat) (fl : Flit) : Sends s (sendOn s p fl) := by
  unfold sendOn
  split
  · exact sends_portSend s 24 fl
  · split
    · exact sends_portSend s p fl
    · split
      · exact sends_portSend s 24 fl
      · exact Sends.refl s
theorem sends_sendFlit (s : State) (fl : Flit) : Sends s (sendFlit s fl) := sends_sendOn s _ fl
theorem sends_sendCh0 (s : State) (fl : Flit) : Sends s (sendCh0 s fl) := (sends_ch0Tx s _).trans (sends_sendFlit _ _)
theorem sends_sendHall (s : State) (m form : Nat) (bs : List Byte) : Sends s (sendHall s m form bs) := sends_sendCh0 s _
theorem sends_sendSnap (s : State) (m form : Nat) (bs : List Byte) : Sends s (sendSnap s m form bs) :=
  (sends_ch0Tx s _).trans (sends_portSend _ _ _)
theorem sends_sendRetry (s : State) (p : Nat) : Sends s (sendRetry s p) := sends_portSend s p _

end Sys2Proof.Machine
end

