-- ==== Sys2Proof/Proofs/HallForms.lean ====
section
/-!
PROOFS. Proofs/HallForms.lean: channel 0 keeps its order, and the forms of a HALL flit (R350, R362 to R364, R371).
-/
namespace Sys2Proof.Machine

theorem startCh0_of_not {s : State} {fl : Flit} (h : startsCh0 s fl = false) : startCh0 s fl = s := by simp [startCh0, h]
theorem releaseHeld_of_empty (n src : Nat) {s : State} (h : s.links.ch0Held = []) : releaseHeld n src s = s := by
  cases n with
  | zero => rfl
  | succ n => simp [releaseHeld, h]

/-- What `inOrder` does with a flit that starts nothing afresh. -/
theorem inOrder_eq {s : State} {fl : Flit} (h : startsCh0 s fl = false) :
    let n := Map.look s.links.ch0Rx fl.src 0
    let d := (fl.tag + 2 ^ 24 - n % 2 ^ 24) % 2 ^ 24
    inOrder fl s =
      if d = 0 then
        releaseHeld (s.links.ch0Held.length + 1) fl.src (takeZero fl (setLinks s { s.links with ch0Rx := Map.put s.links.ch0Rx fl.src (n + 1) }))
      else if d < 2 ^ 23 ∧ (s.links.ch0Held.any fun f => f.src == fl.src && f.tag == fl.tag) = false then
        setLinks s { s.links with ch0Held := s.links.ch0Held ++ [fl] }
      else s := by
  simp only [inOrder, startCh0_of_not h]

theorem hallOrder : Statements.HallOrder := by
  intro s fl hfresh
  dsimp only
  rw [inOrder_eq hfresh]
  refine ⟨fun hd _ hheld => ?_, fun hd hlate => ?_, fun hd _ ⟨f, hf, hsrc, htag⟩ => ?_, fun hd hearly hnew => ?_⟩
  · rw [if_pos hd, releaseHeld_of_empty _ _ hheld]
  · rw [if_neg hd, if_neg (by omega)]
  · have hany : (s.links.ch0Held.any fun f => f.src == fl.src && f.tag == fl.tag) = true :=
      List.any_eq_true.2 ⟨f, hf, by simp [hsrc, htag]⟩
    rw [if_neg hd, if_neg (by simp [hany])]
  · have hany : (s.links.ch0Held.any fun f => f.src == fl.src && f.tag == fl.tag) = false :=
      List.any_eq_false.2 fun f hf => by simpa using hnew f hf
    rw [if_neg hd, if_pos ⟨hearly, hany⟩]
    exact ⟨rfl, rfl, rfl⟩

theorem formView_of_members {s : State} (h : s.hall.repl.members ≠ 0) : formView s = s :=
  if_neg fun hc => h hc.1
theorem members_of_isMember {s : State} (h : isMember s = true) : s.hall.repl.members ≠ 0 := by
  intro h0
  simp [isMember, inView, h0] at h
theorem continueFetch_of_none {s : State} (h : s.hall.recov = {}) : continueFetch s = s := by simp [continueFetch, h]
theorem keepRecv_of_new {s : State} {e : HEvent} (h : s.hall.delivered < e.seq) (hnew : ∀ x ∈ s.hall.recv, x.seq ≠ e.seq) :
    keepRecv s e = setHall s { s.hall with recv := s.hall.recv ++ [e] } := by
  have hany : (s.hall.recv.any fun x => x.seq == e.seq) = false := List.any_eq_false.2 fun x hx => by simpa using hnew x hx
  exact if_neg fun hold => hold.elim (Nat.not_le.mpr h) (by simp [hany])
theorem endVisit_of_no_token {s : State} (h : s.hall.token = none) : endVisit s = s := by simp [endVisit, h]

/-- An event that this member has not had, outside a recovery. -/
theorem gotEvent_of_new {s : State} {e : HEvent} (m : Nat) (hm : isMember s = true) (hr : s.hall.recov = {})
    (hd : s.hall.delivered < e.seq) (hnew : ∀ x ∈ s.hall.recv, x.seq ≠ e.seq) :
    let k := setHall s { s.hall with recv := s.hall.recv ++ [e] }
    let u := setHall k { k.hall with acked := receivedTop k }
    gotEvent m e s = if s.hall.acked < u.hall.acked then sendHall u m 1 (bytesOfNat 8 u.hall.acked) else u := by
  intro k u
  have hrun : noteAcked (keepRecv s e) = u := by rw [keepRecv_of_new hd hnew]; rfl
  unfold gotEvent
  rw [if_neg (by simp [hm]), hrun]
  dsimp only
  split
  · exact continueFetch_of_none ((congrArg Hall.recov (sends_sendHall u m 1 _).hall).trans hr)
  · exact continueFetch_of_none hr

theorem hallForms_forms : Statements.HallForms := by
  intro s fl e m next st n
  refine ⟨fun h => by simp [takeZero, h], fun h => by simp [takeZero, h], fun h => by simp [takeZero, h], fun h => ?_,
    fun h => by simp only [takeHall, h], fun h => by simp only [takeHall, h], fun h => by simp only [takeHall, h],
    fun h => by simp only [takeHall, h], fun h => by simp only [takeHall, h], fun h => by simp only [takeHall, h],
    gotEvent_of_new m, fun h => ?_, fun h => ?_, fun hm hnext => ?_, fun h => ?_, fun h => ?_, fun hm hv hlow hmem => ?_, fun hmem h => ?_, fun ha hv => ?_⟩
  · unfold takeBarr
    simp only [h]
    split <;> rfl
  · unfold gotAck
    rw [endVisit_of_no_token (by exact h)]
    rfl
  · exact if_pos h
  · exact if_neg (by simp [hm, hnext])
  · simp [gotStable, h]
  · simp [gotStable, h]
  · have hneg : ¬ (isMember s = false ∨ inView s m = false ∨ s.hall.self ≤ m) := by simp [hm, hv, hlow]
    unfold gotRecover
    rw [formView_of_members hmem, if_neg hneg]
    rfl
  · unfold gotRecover
    rw [formView_of_members hmem, if_pos (.inr h)]
  · have hneg : ¬ (s.hall.recov.active = false ∨ inView s m = false) := by simp [ha, hv]
    unfold gotReply
    rw [if_neg hneg]
    exact ⟨by simp [setHall], rfl⟩

/-- Settles O59: the order of channel 0 by cases of the distance, and each HALL form through the function that takes it. -/
theorem hallForms : Obligations.HallForms := ⟨hallOrder, hallForms_forms⟩

end Sys2Proof.Machine
end

