-- ==== Sys2Proof/Proofs/HallTimers.lean ====
section
/-!
PROOFS. Proofs/HallTimers.lean: the hall's timers, recovery and delivery (R363, R364, R366, R371, R374).
-/
namespace Sys2Proof.Machine

/-! ### Recovery -/

/-- RECOVER to members of the view, one after the other, names the view that the hall had at the start. -/
theorem askAll_eq (v : Nat) : ∀ (l : List Nat) (s : State), s.hall.repl.view = v →
    l.foldl (fun s m => sendHall s m 4 (bytesOfNat 8 s.hall.repl.view)) s = l.foldl (fun s m => sendHall s m 4 (bytesOfNat 8 v)) s
  | [], _, _ => rfl
  | m :: l, s, h => by
    simp only [List.foldl_cons, h]
    exact askAll_eq v l _ (by rw [(sends_sendHall s m 4 _).hall, h])
theorem startRecovery_of_member {s : State} (h : isMember s = true) :
    let begun := setHall s { s.hall with recov := { active := true, halted := s.hall.recov.halted }, token := none, awaiting := false, among := none }
    startRecovery s = (others begun).foldl (fun s m => sendHall s m 4 (bytesOfNat 8 s.hall.repl.view)) begun := by
  unfold startRecovery
  rw [formView_of_members (members_of_isMember h), if_neg (by simp [h])]
theorem startRecovery_asks {s : State} (h : isMember s = true) :
    let begun := setHall s { s.hall with recov := { active := true, halted := s.hall.recov.halted }, token := none, awaiting := false, among := none }
    startRecovery s = (others begun).foldl (fun u m => sendHall u m 4 (bytesOfNat 8 s.hall.repl.view)) begun := by
  rw [startRecovery_of_member h]
  exact askAll_eq s.hall.repl.view _ _ rfl
theorem startRecovery_of_not_member {s : State} (hm : s.hall.repl.members ≠ 0) (h : isMember s = false) : startRecovery s = s := by
  unfold startRecovery
  rw [formView_of_members hm, if_pos h]

/-! ### Visits -/

theorem endVisit_of_not_awaiting {s : State} (h : s.hall.awaiting = false) : endVisit s = s := by
  unfold endVisit
  split
  · rfl
  · exact if_pos (.inl h)
theorem endVisit_of_ack_missing {s : State} {v next st : Nat} (ht : s.hall.token = some (v, next, st))
    (h : ∃ x ∈ s.hall.among.getD (others s), Map.look s.hall.acks x 0 + 1 < next) : endVisit s = s := by
  obtain ⟨x, hx, hlow⟩ := h
  have hall : ((s.hall.among.getD (others s)).all fun m => decide (next ≤ Map.look s.hall.acks m 0 + 1)) = false :=
    List.all_eq_false.2 ⟨x, hx, by simpa using hlow⟩
  simp [endVisit, ht, hall]
/-- A visit whose ACKs are all there: STABLE to the others, the token to the next member or kept, and delivery. -/
theorem endVisit_of_acks {s : State} {v next st : Nat} (ht : s.hall.token = some (v, next, st)) (ha : s.hall.awaiting = true)
    (h : ∀ x ∈ s.hall.among.getD (others s), next ≤ Map.look s.hall.acks x 0 + 1) :
    let told := (others s).foldl (fun s m => sendHall s m 3 (bytesOfNat 8 v ++ bytesOfNat 8 (next - 1))) s
    let heir := nextMember told (s.hall.among.getD (others s))
    let sent := sendHall told heir 2 (bytesOfNat 8 v ++ bytesOfNat 8 next ++ bytesOfNat 8 (next - 1))
    endVisit s = deliver (if heir = told.hall.self then setHall told { told.hall with token := some (v, next, next - 1), awaiting := false, among := none }
      else setHall sent { sent.hall with token := none, awaiting := false, among := none }) (next - 1) := by
  have hall : ((s.hall.among.getD (others s)).all fun m => decide (next ≤ Map.look s.hall.acks m 0 + 1)) = true := by simpa using h
  unfold endVisit
  simp only [ht]
  rw [if_neg (by simp [ha, hall])]

theorem hallTimers_timers : Statements.HallTimers := by
  intro s v next st
  refine ⟨fun ha hm hl hp => ?_, fun h hp => ?_, fun hm hl hp => ?_, fun h hp => ?_, fun hmem h hp => ?_, endVisit_of_not_awaiting,
    endVisit_of_ack_missing, fun ht ha hacks => ⟨fun heir => ?_, fun heir => ?_⟩, fun ht ha hp => ?_⟩
  · exact ⟨_, by simp [execAckWaitTimeout, hp, ha, hl], startRecovery_asks hm⟩
  · refine ⟨s, ?_, rfl⟩
    rcases h with h | h <;> simp [execAckWaitTimeout, hp, h]
  · exact ⟨_, by simp [execTokenTimeout, hp, hl], startRecovery_asks hm⟩
  · exact ⟨s, by simp [execTokenTimeout, hp, h], rfl⟩
  · exact ⟨s, by simp [execTokenTimeout, hp, startRecovery_of_not_member hmem h], rfl⟩
  · rw [endVisit_of_acks ht ha hacks, if_pos heir]
  · rw [endVisit_of_acks ht ha hacks, if_neg heir]
  · exact ⟨_, by simp [execToken, hp, ht, ha], rfl⟩

/-! ### Collection and suspicion -/

theorem foldl_max_le (n : Nat) : ∀ (l : List Nat) (a : Nat), l.foldl max a ≤ n ↔ a ≤ n ∧ ∀ x ∈ l, x ≤ n
  | [], a => by simp
  | b :: l, a => by rw [List.foldl_cons, foldl_max_le n l, Nat.max_le, and_assoc, List.forall_mem_cons]
theorem foldl_max_mem : ∀ (l : List Nat) (a : Nat), l.foldl max a = a ∨ l.foldl max a ∈ l
  | [], _ => .inl rfl
  | b :: l, a => by
    rw [List.foldl_cons]
    rcases foldl_max_mem l (max a b) with h | h
    · rw [h, List.mem_cons]
      omega
    · exact .inr (List.mem_cons_of_mem b h)
theorem listMax_le_iff {l : List Nat} {n : Nat} : listMax l ≤ n ↔ ∀ x ∈ l, x ≤ n := by simp [listMax, foldl_max_le]
/-- The longest run among a number and the replies', where it is more than the number, is some reply's. -/
theorem reply_of_listMax {n : Nat} {rs : List (Nat × Nat × Nat)} (h : n < listMax (n :: rs.map fun r => r.2.1)) :
    ∃ r, rs.find? (fun x => x.2.1 == listMax (n :: rs.map fun r => r.2.1)) = some r := by
  have hcases := foldl_max_mem (n :: rs.map fun r => r.2.1) 0
  rw [← listMax, List.mem_cons] at hcases
  have hmem : listMax (n :: rs.map fun r => r.2.1) ∈ rs.map fun r => r.2.1 :=
    (hcases.resolve_left (by omega)).resolve_left (by omega)
  obtain ⟨r, hr, htop⟩ := List.mem_map.1 hmem
  exact Option.isSome_iff_exists.1 (List.find?_isSome.2 ⟨r, hr, by simpa using htop⟩)

theorem collect_of_minority {s : State} (ha : s.hall.recov.active = true) (hm : isMember s = true)
    (h : 2 * (s.hall.recov.replies.length + 1) ≤ (membersOf s).length) :
    collect s = packageClass (setHall s { s.hall with recov := { s.hall.recov with active := false, halted := true, routes := routesNow s } }) 0x22 7 0 := by
  unfold collect
  rw [if_neg (by simp [ha, hm]), if_pos h]
theorem collect_of_complete {s : State} (ha : s.hall.recov.active = true) (hm : isMember s = true)
    (h : (membersOf s).length < 2 * (s.hall.recov.replies.length + 1)) (hall : ∀ r ∈ s.hall.recov.replies, r.2.1 ≤ s.hall.acked) :
    collect s = startToken s s.hall.acked := by
  have htop : listMax (s.hall.acked :: s.hall.recov.replies.map fun x => x.2.1) ≤ s.hall.acked :=
    listMax_le_iff.2 (List.forall_mem_cons.2 ⟨Nat.le_refl _, List.forall_mem_map.2 hall⟩)
  have hmax : listMax (s.hall.acked :: s.hall.recov.replies.map fun x => x.2.1) = s.hall.acked :=
    Nat.le_antisymm htop (listMax_le_iff.1 (Nat.le_refl _) _ List.mem_cons_self)
  unfold collect
  rw [if_neg (by simp [ha, hm]), if_neg (by omega)]
  dsimp only
  rw [if_pos htop, hmax]
theorem collect_of_missing {s : State} (ha : s.hall.recov.active = true) (hm : isMember s = true)
    (h : (membersOf s).length < 2 * (s.hall.recov.replies.length + 1)) :
    let top := listMax (s.hall.acked :: s.hall.recov.replies.map fun x => x.2.1)
    s.hall.acked < top → ∃ r ∈ s.hall.recov.replies, r.2.1 = top ∧
      collect s = sendSnap (setHall s { s.hall with recov := { s.hall.recov with want := some top } }) r.1 4
        (bytesOfNat 8 (s.hall.acked + 1) ++ bytesOfNat 8 top) := by
  intro top hlow
  obtain ⟨r, hr⟩ := reply_of_listMax hlow
  refine ⟨r, List.mem_of_find?_eq_some hr, by simpa using List.find?_some hr, ?_⟩
  unfold collect
  rw [if_neg (by simp [ha, hm]), if_neg (by omega)]
  dsimp only
  rw [if_neg (by omega), hr]
  rfl

theorem recoveryEvents : Statements.RecoveryEvents := by
  intro s m
  refine ⟨fun h hp => ?_, fun ha hm hl hfew hp => ?_, fun ha hm hl hmany => ⟨fun hall hp => ?_, fun hlow hp => ?_⟩,
    fun hh ha => ⟨fun hr => ?_, fun hr => ?_⟩, fun h hp => ?_, fun hr hself hl hm => ⟨fun hv hp => ?_, fun hv hp => ?_⟩,
    fun hr hself hl hm => ⟨fun hsrc hphase hrecv hp => ?_, fun hsrc hphase hp => ?_, fun h hp => ?_⟩⟩
  · refine ⟨s, ?_, rfl⟩
    rcases h with h | h | h <;> simp [execRecoveryCollect, hp, collect, h]
  · exact ⟨_, by simp [execRecoveryCollect, hp, hl], collect_of_minority ha hm hfew⟩
  · exact ⟨_, by simp [execRecoveryCollect, hp, hl], collect_of_complete ha hm hmany hall⟩
  · exact ⟨_, by simp [execRecoveryCollect, hp, hl], collect_of_missing ha hm hmany hlow⟩
  · simp [restartHalted, hh, ha, hr]
  · simp [restartHalted, hh, ha, hr]
  · refine ⟨s, ?_, rfl⟩
    rcases h with h | h | h <;> simp [execSuspect, hp, h]
  · exact ⟨postLoss s m, by simp [execSuspect, hp, hr, hself, hl, hm, hv], rfl⟩
  · exact ⟨s, by simp [execSuspect, hp, hr, hself, hl, hm, hv], rfl⟩
  · exact ⟨_, by simp [execSuspect, hp, hr, hself, hl, hm, hsrc, hphase, hrecv], rfl⟩
  · refine ⟨_, ?_, rfl⟩
    rcases hphase with h | h | ⟨h, hrecv⟩
    · simp [execSuspect, hp, hr, hself, hl, hm, hsrc, h]
    · simp [execSuspect, hp, hr, hself, hl, hm, hsrc, h]
    · simp [execSuspect, hp, hr, hself, hl, hm, hsrc, h, hrecv]
  · refine ⟨s, ?_, rfl⟩
    have hneg : ¬ ((s.hall.joiner.phase = 1 ∨ s.hall.joiner.phase = 2 ∨ s.hall.joiner.phase = 3) ∧ s.hall.joiner.source = m) := by
      rintro ⟨hphase, hsrc⟩
      omega
    simp [execSuspect, hp, hr, hself, hl, hm, hneg]

/-! ### Delivery -/

theorem haltedHere_iff (s : State) : haltedHere s = true ↔ s.hall.repl.halt = true ∨ s.hall.recov.halted = true := by
  simp [haltedHere]
theorem applyEvent_kind {s : State} {e : HEvent} :
    (e.kind = 2 → applyEvent s e = applyFinish s e) ∧ (e.kind = 3 → applyEvent s e = applyBlock s e) ∧
    (e.kind = 4 → applyEvent s e = applyUnblock s e) ∧ (e.kind = 5 → applyEvent s e = applyFault s e) ∧
    (e.kind = 10 → applyEvent s e = applyPrio s e) :=
  ⟨fun h => by simp only [applyEvent, h], fun h => by simp only [applyEvent, h], fun h => by simp only [applyEvent, h],
    fun h => by simp only [applyEvent, h], fun h => by simp only [applyEvent, h]⟩
theorem deliver_of_reached {s : State} {n : Nat} (h : n ≤ s.hall.delivered) : deliver s n = s := by
  simp [deliver, deliverUpTo, h]
theorem deliver_of_gap {s : State} (n : Nat) (h : ∀ x ∈ s.hall.recv, x.seq ≠ s.hall.delivered + 1) : deliver s n = s := by
  have hnone : s.hall.recv.find? (fun e => e.seq == s.hall.delivered + 1) = none := List.find?_eq_none.2 fun x hx => by simpa using h x hx
  simp [deliver, deliverUpTo, hnone]

theorem hallDelivery : Statements.HallDelivery := by
  intro s e r n
  obtain ⟨hfinish, hblock, hunblock, hfault, hprio⟩ := applyEvent_kind (s := s) (e := e)
  refine ⟨deliver_of_reached, deliver_of_gap n, fun hh hk => ?_, fun h => ?_, fun hk hn => ?_, fun hk hc => ?_, fun hk hc => ?_, fun hk hc => ?_,
    ?_, ?_, fun c hc => ?_, fun hk hf => ?_, fun hk hf hits => ?_, fun hk hf hits => ?_, fun hk hf hm => ?_, fun hk hf hits hm hr => ?_, ?_,
    fun hk hv => ?_, fun hk hv => ?_, fun hk hv hself => ?_⟩
  · simp [takeEvent, (haltedHere_iff s).2 hh, hk]
  · have hneg : ¬ ((haltedHere s && !haltKind e.kind) = true) := by
      rw [Bool.and_eq_true, haltedHere_iff]
      rintro ⟨hh, hk⟩
      rcases h with h | h
      · exact h hh
      · simp [h] at hk
    exact if_neg hneg
  · rcases hk with hk | hk | hk
    · rw [hblock hk]; exact if_neg hn
    · rw [hunblock hk]; exact if_neg hn
    · rw [hprio hk]; exact if_pos (by simpa using hn)
  · rw [hblock hk]; exact if_pos hc
  · rw [hunblock hk]; exact if_pos hc
  · rw [hprio hk]; exact if_neg (by simpa using hc)
  · simp [setSuspended, setRepl, look_put_same]
  · simp [setSuspended, setRepl, look_put_same]
  · simp [setSuspended, setRepl, look_put_other _ _ _ hc]
  · rcases hk with hk | hk
    · rw [hfinish hk]; simp [applyFinish, hf]
    · rw [hfault hk]; simp [applyFault, hf]
  · have hbad : knownCtx s e = false ∨ r.ctx ≠ e.ctx ∨ r.world ≠ e.world := by
      refine Classical.byContradiction fun hno => hits ?_
      simpa only [not_or, Bool.not_eq_false, ne_eq, Classical.not_not] using hno
    rcases hk with hk | hk
    · rw [hfinish hk]; simp only [applyFinish, hf]
      exact if_pos (hbad.imp_right (Or.imp_right .inl))
    · rw [hfault hk]; simp only [applyFault, hf]
      exact if_pos hbad
  · obtain ⟨hc, hctx, hworld⟩ := hits
    rw [hfault hk]; simp only [applyFault, hf]
    exact if_neg (by simp [hc, hctx, hworld])
  · rw [hfinish hk]; simp only [applyFinish, hf]
    refine if_pos ?_
    rcases hm with hm | hm
    · exact .inr (.inr (.inr (.inl (by simpa using hm))))
    · exact .inr (.inr (.inr (.inr hm)))
  · obtain ⟨hc, hctx, hworld⟩ := hits
    rw [hfinish hk]; simp only [applyFinish, hf]
    exact if_neg (by simp [hc, hctx, hworld, hm, hr])
  · intro p hp
    simpa [Decidable.imp_iff_not_or] using (List.mem_filter.1 hp).2
  · rcases hk with hk | hk <;> simp [applyEvent, hk, hv]
  · simp [applyEvent, hk, hv]
  · rcases hk with hk | hk <;> simp [applyEvent, hk, hv, hself]

/-- Settles O60: the timers, the collector's cases, and delivery by the kind of the event. -/
theorem hallTimers : Obligations.HallTimers := ⟨hallTimers_timers, recoveryEvents, hallDelivery⟩

end Sys2Proof.Machine
end

