-- ==== Sys2Proof/Proofs/LinkFlits.lean ====
section
/-!
PROOFS. Proofs/LinkFlits.lean: a port takes flits in link order, asks again for others, and replays (R343 to R349).
-/
namespace Sys2Proof.Machine

theorem sends_takeLack_hall (s : State) (p : Nat) (fl : Flit) : (takeLack s p fl).hall = s.hall :=
  (sends_portFlush p _ _).hall

/-! ### Receipt -/

section
variable {s : State} {p : Nat} {fl : Flit} (body : State → State) (hp : p < 24) (hpow : s.pkg.power = true)
include hp hpow

theorem receive_of_shut (h : linkRuns (portAt s p) = false) : receive p fl true s body = .next s := by
  simp [receive, hpow, show p ≠ 24 by omega, h]
theorem receive_of_crc (h : linkRuns (portAt s p) = true) (hc : fl.crc ≠ flitCrc fl) : receive p fl true s body = .next (sendRetry s p) := by
  simp [receive, hpow, show p ≠ 24 by omega, h, hc]
theorem receive_of_control (h : linkRuns (portAt s p) = true) (hc : fl.crc = flitCrc fl) (hv : fl.vc = 3) :
    receive p fl true s body = .next (body (takeLack s p fl)) := by
  simp [receive, hpow, show p ≠ 24 by omega, h, hv, ← hc]
theorem receive_of_order (h : linkRuns (portAt s p) = true) (hc : fl.crc = flitCrc fl) (hv : fl.vc ≠ 3) :
    receive p fl true s body = if fl.lseq ≠ (portAt (takeLack s p fl) p).rxSeq then .next (sendRetry (takeLack s p fl) p)
      else .next (acceptFlit p fl (setPort (takeLack s p fl) p { portAt (takeLack s p fl) p with
        rxSeq := ((portAt (takeLack s p fl) p).rxSeq + 1) % 65536 }) body) := by
  simp [receive, hpow, show p ≠ 24 by omega, h, hv, ← hc]
end

theorem linkRuns_iff (x : Port) : linkRuns x = true ↔ linkUp x = true ∨ x.st = .fenced := by simp [linkRuns]
theorem linkRuns_false {x : Port} (h : ¬ (linkUp x = true ∨ x.st = .fenced)) : linkRuns x = false := by
  rw [← Bool.not_eq_true, linkRuns_iff]; exact h

/-- A flit counted at its port: fenced off, delivered, held for a flipping frame, or sent on. -/
theorem acceptFlit_fenced {s : State} {p : Nat} {fl : Flit} (body : State → State)
    (h : ¬ ((portAt s p).st = .fenced → passesFence fl = true)) : acceptFlit p fl s body = s := by
  obtain ⟨hf, hn⟩ := Classical.not_imp.1 h
  exact if_pos (by simp [hf, hn])
theorem acceptFlit_passes {s : State} {p : Nat} {fl : Flit} (body : State → State)
    (h : (portAt s p).st = .fenced → passesFence fl = true) :
    let kept := setLinks s { s.links with transit := s.links.transit ++ [(p, fl)] }
    acceptFlit p fl s body =
      settlePause (if fl.dst = kept.hall.self then deliverFlit kept fl body else portSend kept (portOf kept fl.dst) fl) p := by
  refine if_neg ?_
  rw [Bool.and_eq_true, beq_iff_eq, Bool.not_eq_true']
  rintro ⟨hf, hn⟩
  simp [h hf] at hn

/-- What an in-order port does with a flit of channels 0 to 2, whatever the flit's own meaning. -/
theorem receive_cases {s : State} {p : Nat} {fl : Flit} (body : State → State) (hp : p < 24) (hpow : s.pkg.power = true) (hv : fl.vc ≠ 3) :
    let u := takeLack s p fl
    let x := portAt u p
    let counted := setPort u p { x with rxSeq := (x.rxSeq + 1) % 65536 }
    let kept := setLinks counted { counted.links with transit := counted.links.transit ++ [(p, fl)] }
    let open_ : Prop := linkUp (portAt s p) = true ∨ (portAt s p).st = .fenced
    let passes : Prop := (portAt counted p).st = .fenced → passesFence fl = true
    (¬ open_ → receive p fl true s body = .next s) ∧
    (open_ → fl.crc ≠ flitCrc fl → receive p fl true s body = .next (sendRetry s p)) ∧
    (open_ → fl.crc = flitCrc fl →
      (fl.lseq ≠ x.rxSeq → receive p fl true s body = .next (sendRetry u p)) ∧
      (fl.lseq = x.rxSeq → ¬ passes → receive p fl true s body = .next counted) ∧
      (fl.lseq = x.rxSeq → passes → fl.dst = s.hall.self → headHeld kept fl = false → receive p fl true s body = .next (settlePause (body kept) p)) ∧
      (fl.lseq = x.rxSeq → passes → fl.dst = s.hall.self → headHeld kept fl = true → receive p fl true s body =
        .next (settlePause (setPort kept 24 { portAt kept 24 with sendQ := (portAt kept 24).sendQ ++ [fl] }) p)) ∧
      (fl.lseq = x.rxSeq → passes → fl.dst ≠ s.hall.self → receive p fl true s body =
        .next (settlePause (portSend kept (portOf kept fl.dst) fl) p))) := by
  intro u x counted kept open_ passes
  have hself : kept.hall.self = s.hall.self := congrArg Hall.self (sends_takeLack_hall s p fl)
  refine ⟨fun h => receive_of_shut body hp hpow (linkRuns_false h), fun h hc => receive_of_crc body hp hpow ((linkRuns_iff _).2 h) hc,
    fun h hc => ?_⟩
  have horder := receive_of_order body hp hpow ((linkRuns_iff _).2 h) hc hv
  refine ⟨fun hl => ?_, fun hl hn => ?_, fun hl hpass hd hh => ?_, fun hl hpass hd hh => ?_, fun hl hpass hd => ?_⟩
  · rw [horder, if_pos hl]
  · rw [horder, if_neg (not_not_intro hl), acceptFlit_fenced body hn]
  · rw [horder, if_neg (not_not_intro hl), acceptFlit_passes body hpass, if_pos (hd.trans hself.symm)]
    simp only [deliverFlit, counted, kept, x, u] at hh ⊢
    rw [if_neg (by simp [hh])]
  · rw [horder, if_neg (not_not_intro hl), acceptFlit_passes body hpass, if_pos (hd.trans hself.symm)]
    simp only [deliverFlit, counted, kept, x, u] at hh ⊢
    rw [if_pos hh]
  · rw [horder, if_neg (not_not_intro hl), acceptFlit_passes body hpass, if_neg (fun h => hd (h.trans hself))]

/-- The flit that an instruction takes, its kind and channel, and what is done with it at its destination. -/
def TakesFlit (i : Instr) (p : Nat) (fl : Flit) (kind vc : Nat) (body : State → State) : Prop :=
  (i = .whead p fl ∧ kind = 4 ∧ vc = 1 ∧ body = takeHead fl (takePut fl)) ∨ (i = .wacc p fl ∧ kind = 5 ∧ vc = 2 ∧ body = takeWacc fl) ∨
    (i = .data p fl ∧ kind = 6 ∧ vc = 1 ∧ body = takeData fl) ∨ (i = .data p fl ∧ kind = 6 ∧ vc = 2 ∧ body = takeGetData fl) ∨
    (i = .rreq p fl ∧ kind = 7 ∧ vc = 1 ∧ body = takeHead fl (takeGet fl)) ∨ (i = .rhead p fl ∧ kind = 8 ∧ vc = 2 ∧ body = takeRhead fl) ∨
    (i = .atomFlit p fl ∧ kind = 9 ∧ vc = 1 ∧ body = takeHead fl (takeAtom fl)) ∨ (i = .atomr p fl ∧ kind = 10 ∧ vc = 2 ∧ body = takeAtomr fl) ∨
    (i = .ack p fl ∧ kind = 11 ∧ vc = 2 ∧ body = fun s => (ackTags fl).foldl (takeAck fl.src) s) ∨
    (i = .radd p fl ∧ kind = 14 ∧ vc = 1 ∧ body = takeHead fl (takeRadd fl)) ∨
    (i = .snap p fl ∧ kind = 2 ∧ vc = 0 ∧ body = inOrder fl) ∨ (i = .barr p fl ∧ kind = 3 ∧ vc = 0 ∧ body = inOrder fl) ∨
    (i = .hallEvent p fl ∧ kind = 1 ∧ vc = 0 ∧ fieldAt fl.pay 0 1 = 0 ∧ body = inOrder fl) ∨
    (i = .hallAck p fl ∧ kind = 1 ∧ vc = 0 ∧ fieldAt fl.pay 0 1 = 1 ∧ body = inOrder fl) ∨
    (i = .token p fl ∧ kind = 1 ∧ vc = 0 ∧ fieldAt fl.pay 0 1 = 2 ∧ body = inOrder fl) ∨
    (i = .stable p fl ∧ kind = 1 ∧ vc = 0 ∧ fieldAt fl.pay 0 1 = 3 ∧ body = inOrder fl) ∨
    (i = .recover p fl ∧ kind = 1 ∧ vc = 0 ∧ fieldAt fl.pay 0 1 = 4 ∧ body = inOrder fl) ∨
    (i = .reply p fl ∧ kind = 1 ∧ vc = 0 ∧ fieldAt fl.pay 0 1 = 5 ∧ body = inOrder fl)

theorem TakesFlit.not_control {i : Instr} {p : Nat} {fl : Flit} {kind vc : Nat} {body : State → State}
    (h : TakesFlit i p fl kind vc body) : vc ≠ 3 := by
  unfold TakesFlit at h
  omega
theorem isFlit_of {fl : Flit} {kind vc : Nat} (hk : fl.kind = kind) (hv : fl.vc = vc) : isFlit fl kind vc = true := by simp [isFlit, hk, hv]
theorem isHall_of {fl : Flit} {form : Nat} (hk : fl.kind = 1) (hv : fl.vc = 0) (hf : fieldAt fl.pay 0 1 = form) : isHall fl form = true := by
  simp [isHall, isFlit, hk, hv, hf]

theorem exec_takesFlit {i : Instr} {p : Nat} {fl : Flit} {kind vc : Nat} {body : State → State} (s : State)
    (h : TakesFlit i p fl kind vc body) (hp : p < 24) (hk : fl.kind = kind) (hv : fl.vc = vc) : exec i s = receive p fl true s body := by
  have hne : (p == 24) = false := by simp; omega
  rcases h with ⟨rfl, rfl, rfl, rfl⟩ | ⟨rfl, rfl, rfl, rfl⟩ | ⟨rfl, rfl, rfl, rfl⟩ | ⟨rfl, rfl, rfl, rfl⟩ | ⟨rfl, rfl, rfl, rfl⟩ | ⟨rfl, rfl, rfl, rfl⟩ |
    ⟨rfl, rfl, rfl, rfl⟩ | ⟨rfl, rfl, rfl, rfl⟩ | ⟨rfl, rfl, rfl, rfl⟩ | ⟨rfl, rfl, rfl, rfl⟩ | ⟨rfl, rfl, rfl, rfl⟩ | ⟨rfl, rfl, rfl, rfl⟩ |
    ⟨rfl, rfl, rfl, hf, rfl⟩ | ⟨rfl, rfl, rfl, hf, rfl⟩ | ⟨rfl, rfl, rfl, hf, rfl⟩ | ⟨rfl, rfl, rfl, hf, rfl⟩ | ⟨rfl, rfl, rfl, hf, rfl⟩ | ⟨rfl, rfl, rfl, hf, rfl⟩
  · rw [exec_whead, execWhead, isFlit_of hk hv]
  · rw [exec_wacc, execWacc, isFlit_of hk hv]
  · simp only [exec_data, execData, isFlit_of hk hv, hv, Bool.true_or]
    rfl
  · simp only [exec_data, execData, isFlit_of hk hv, hv, Bool.or_true]
    rfl
  · rw [exec_rreq, execRreq, isFlit_of hk hv]
  · rw [exec_rhead, execRhead, isFlit_of hk hv]
  · rw [exec_atomFlit, execAtomFlit, isFlit_of hk hv]
  · rw [exec_atomr, execAtomr, isFlit_of hk hv]
  · rw [exec_ack, execAck, isFlit_of hk hv]
  · rw [exec_radd, execRadd, isFlit_of hk hv]
  · rw [exec_snap, execSnap, isFlit_of hk hv]
  · rw [exec_barr, execBarr, isFlit_of hk hv]
  · rw [exec_hallEvent, execHallEvent, isHall_of hk hv hf]
  · rw [exec_hallAck, execHallAck, isHall_of hk hv hf]
  · rw [exec_token, execToken, isHall_of hk hv hf, hne]
    simp
  · rw [exec_stable, execStable, isHall_of hk hv hf]
  · rw [exec_recover, execRecover, isHall_of hk hv hf]
  · rw [exec_reply, execReply, isHall_of hk hv hf]

theorem flitReceipt : Statements.FlitReceipt := by
  intro s p fl i kind vc body u x counted kept open_ passes h hp hk hv
  have hexec := exec_takesFlit s (show TakesFlit i p fl kind vc body from h) hp hk hv
  have hnot : fl.vc ≠ 3 := fun h3 => TakesFlit.not_control (show TakesFlit i p fl kind vc body from h) (hv.symm.trans h3)
  refine ⟨fun ho hpow => ?_, fun ho hc hpow => ?_, fun ho hc => ⟨fun hl hpow => ?_, fun hl hn hpow => ?_, fun hl hpass hd hh hpow => ?_,
    fun hl hpass hd hh hpow => ?_, fun hl hpass hd hpow => ?_⟩⟩ <;>
    obtain ⟨hshut, hcrc, hopen⟩ := receive_cases (s := s) body hp hpow hnot <;> rw [hexec]
  · exact ⟨_, hshut ho, rfl⟩
  · exact ⟨_, hcrc ho hc, rfl⟩
  all_goals obtain ⟨hlate, hfence, htake, hheld, hon⟩ := hopen ho hc
  · exact ⟨_, hlate hl, rfl⟩
  · exact ⟨_, hfence hl hn, rfl⟩
  · exact ⟨_, htake hl hpass hd hh, rfl⟩
  · exact ⟨_, hheld hl hpass hd hh, rfl⟩
  · exact ⟨_, hon hl hpass hd, rfl⟩

/-! ### Control flits -/

theorem dropWhile_of_all {l₁ l₂ : List Flit} {x : Flit} {n : Nat} (hx : x.lseq = n) (h : l₁.all (fun f => f.lseq != n) = true) :
    (l₁ ++ x :: l₂).dropWhile (fun f => f.lseq != n) = x :: l₂ := by
  rw [List.dropWhile_append_of_pos (List.all_eq_true.1 h)]
  simp [hx]
theorem foldl_emit_flits (p : Nat) : ∀ (l : List Flit) (s : State), l.foldl (fun s f => emit s (.flit p f)) s = { s with out := s.out ++ l.map (.flit p ·) }
  | [], s => by simp
  | f :: l, s => by
    rw [List.foldl_cons, foldl_emit_flits p l]
    simp [emit]
theorem takeRetry_again {s : State} {p : Nat} {fl : Flit} (h : (portAt s p).retries ≠ 0 ∧ (portAt s p).retryOf = fieldAt fl.pay 0 2) :
    let n := fieldAt fl.pay 0 2
    let u := setPort s p { portAt s p with retries := (portAt s p).retries + 1, retryOf := n }
    takeRetry p fl s = if 15 ≤ (portAt s p).retries then loseLock u p else replayFrom p n u := by
  simp only [takeRetry, if_pos h, show 16 ≤ (portAt s p).retries + 1 ↔ 15 ≤ (portAt s p).retries by omega]
theorem takeRetry_first {s : State} {p : Nat} {fl : Flit} (h : ¬ ((portAt s p).retries ≠ 0 ∧ (portAt s p).retryOf = fieldAt fl.pay 0 2)) :
    takeRetry p fl s = replayFrom p (fieldAt fl.pay 0 2) (setPort s p { portAt s p with retries := 1, retryOf := fieldAt fl.pay 0 2 }) := by
  simp only [takeRetry, if_neg h]
  exact if_neg (by decide)
theorem portAt_setPort (s : State) (p : Nat) (x : Port) : portAt (setPort s p x) p = x := by simp [portAt, setPort, look_put_same]
theorem loseLock_up {s : State} {p : Nat} (h : linkUp (portAt s p) = true) :
    (portAt (loseLock s p) p).st = .training ∧ (loseLock s p).out = s.out := by
  unfold loseLock
  dsimp only
  rw [if_pos h, portAt_setPort]
  exact ⟨rfl, rfl⟩
theorem exec_control {i : Instr} {p : Nat} {fl : Flit} {body : State → State} (s : State) (hv : fl.vc = 3)
    (h : (i = .idle p fl ∧ fl.kind = 0 ∧ body = takePause p fl) ∨ (i = .pause p fl ∧ fl.kind = 12 ∧ body = takePause p fl) ∨
      (i = .retry p fl ∧ fl.kind = 13 ∧ body = takeRetry p fl)) : exec i s = receive p fl true s body := by
  rcases h with ⟨rfl, hk, rfl⟩ | ⟨rfl, hk, rfl⟩ | ⟨rfl, hk, rfl⟩ <;>
    exact congrArg (fun ok => receive p fl ok s _) (isFlit_of hk hv)

theorem linkControl : Statements.LinkControl := by
  intro s p fl l₁ l₂ x i body u n y open_ again
  refine ⟨fun hv hp hi => ⟨fun ho hpow => ?_, fun ho hc hpow => ?_, fun ho hc hpow => ?_⟩, fun ha hlong hup => ?_, fun ha hfew => ?_,
    takeRetry_first, fun hq => ?_, fun hall => ?_, fun hall => ?_, fun hrep hall => ?_⟩
  · exact ⟨_, (exec_control s hv hi).trans (receive_of_shut body hp hpow (linkRuns_false ho)), rfl⟩
  · exact ⟨_, (exec_control s hv hi).trans (receive_of_crc body hp hpow ((linkRuns_iff _).2 ho) hc), rfl⟩
  · exact ⟨_, (exec_control s hv hi).trans (receive_of_control body hp hpow ((linkRuns_iff _).2 ho) hc hv), rfl⟩
  · rw [takeRetry_again ha, if_pos hlong]
    exact loseLock_up (by rw [portAt_setPort]; exact hup)
  · rw [takeRetry_again ha, if_neg (Nat.not_le.2 hfew)]
  · unfold takePause
    dsimp only
    rw [hq]
    exact congrArg Port.pauseSeen (portAt_setPort s p _)
  · have hany : ((l₁ ++ x :: l₂).any fun f => f.lseq == x.lseq) = true := by simp
    rw [trimReplay, if_pos hany, dropWhile_of_all rfl hall]
    rfl
  · have hany : (l₁.any fun f => f.lseq == fl.lack) = false := List.any_eq_false.2 fun f hf => by simpa using hall f hf
    rw [trimReplay, if_neg (by simp [hany])]
  · unfold replayFrom
    rw [hrep, dropWhile_of_all rfl hall, foldl_emit_flits]
    exact ⟨rfl, rfl⟩

/-- Settles O57: receipt by the cases of the port, whatever the flit does, and the control flits each by its function. -/
theorem linkFlits : Obligations.LinkFlits := ⟨flitReceipt, linkControl⟩

end Sys2Proof.Machine
end

