-- ==== Sys2Proof/Proofs/Attestation.lean ====
section
/-!
PROOFS. Proofs/Attestation.lean: quotes (R380, R382), and writes to a function's registers (R355, R387).
-/
namespace Sys2Proof.Machine

/-- Whether a quote for a context, or for none, may be asked for over a function. -/
def quoteAllowed (s : State) (f : Nat) (ctx : Option Nat) : Bool :=
  ctx.all fun c => (ctxOf s c).ld == fnDevice s f && ((ctxOf s c).st == .sealed || (ctxOf s c).st == .suspended)
theorem quoteAllowed_iff (s : State) (f : Nat) (ctx : Option Nat) : quoteAllowed s f ctx = true ↔
    ∀ c, ctx = some c → (ctxOf s c).ld = fnDevice s f ∧ ((ctxOf s c).st = .sealed ∨ (ctxOf s c).st = .suspended) := by
  cases ctx <;> simp [quoteAllowed]
/-- A quote signed with the current attestation key. -/
def signQuote (s : State) (f : Nat) (nonce : List Byte) (ctx : Option Nat) : State :=
  let body := quoteBody s nonce ctx
  let leaf := s.pkg.idKeys * 2 ^ 40 + s.pkg.idLeaf * 2 ^ 16 + s.pkg.attLeaf
  let t := setPkg s { s.pkg with attLeaf := s.pkg.attLeaf + 1 }
  emit t (.quote f (body ++ quoteSig leaf body ++ t.pkg.attCert))
theorem execAttestationRequest_eq {s : State} (hp : s.pkg.power = true) (f : Nat) (nonce : List Byte) (ctx : Option Nat) :
    execAttestationRequest f nonce ctx s =
      if s.pkg.life ≠ .deployed ∨ quoteAllowed s f ctx = false then .next (emit s (.spdmError f 1))
      else if 2 ^ 20 ≤ s.pkg.idLeaf then .next (emit s (.spdmError f 0x0E))
      else match attKey s with
        | none => .next (emit s (.spdmError f 0x0E))
        | some s => .next (signQuote s f nonce ctx) := if_pos hp
theorem quoteSig_length (leaf : Nat) (body : List Byte) : (quoteSig leaf body).length = 2692 := by simp [quoteSig]
theorem certBytes_length (idKey leaf : Nat) : (certBytes idKey leaf).length = 2820 := by simp [certBytes]
theorem newAttKey_attCert (s : State) : (setPkg s (newAttKey s.pkg)).pkg.attCert = certBytes s.pkg.idKeys s.pkg.idLeaf := by
  simp only [setPkg, newAttKey]
theorem signQuote_attCert (s : State) (f : Nat) (nonce : List Byte) (ctx : Option Nat) :
    (signQuote s f nonce ctx).pkg.attCert = s.pkg.attCert := rfl
theorem signQuote_out (s : State) (f : Nat) (nonce : List Byte) (ctx : Option Nat) : ∃ sig, sig.length = 2692 ∧
    (signQuote s f nonce ctx).out = s.out ++ [.quote f (quoteBody s nonce ctx ++ sig ++ (signQuote s f nonce ctx).pkg.attCert)] :=
  ⟨_, quoteSig_length _ _, rfl⟩

theorem attestation_quotes : Statements.Attestation := by
  intro s f nonce ctx allowed
  have hiff := quoteAllowed_iff s f ctx
  refine ⟨fun h hp => ?_, fun hl ha hi hp => ?_, fun hl ha hi hp => ?_⟩ <;>
    simp only [exec_attestationRequest, execAttestationRequest_eq hp]
  · have hneg : s.pkg.life ≠ .deployed ∨ quoteAllowed s f ctx = false :=
      h.imp_right fun hn => Bool.eq_false_iff.2 fun ht => hn (hiff.1 ht)
    exact ⟨_, if_pos hneg, rfl⟩
  · rw [if_neg (by simp [hl, hiff.2 ha]), if_pos hi]
    exact ⟨_, rfl, rfl⟩
  · rw [if_neg (by simp [hl, hiff.2 ha]), if_neg (Nat.not_le.2 hi)]
    by_cases hk : s.pkg.attLeaf < 2 ^ 16
    · have hkey : attKey s = some s := if_pos hk
      rw [hkey]
      exact ⟨_, rfl, signQuote_out s f nonce ctx, fun _ => ⟨rfl, rfl, rfl⟩, fun h => absurd hk (Nat.not_lt.2 h), rfl⟩
    · have hkey : attKey s = some (setPkg s (newAttKey s.pkg)) := by rw [attKey, if_neg hk, if_pos hi]
      rw [hkey]
      refine ⟨_, rfl, signQuote_out (setPkg s (newAttKey s.pkg)) f nonce ctx, fun h => absurd h hk, fun _ => ⟨rfl, rfl, ?_⟩, rfl⟩
      rw [signQuote_attCert, newAttKey_attCert, certBytes_length]

/-- A function's registers changed, and nothing else. -/
theorem setFn_keeps (s : State) (f : Nat) (y : Fn) :
    ({ setFn s f y with fns := s.fns } = s ∧ ∀ g, g ≠ f → fnOf (setFn s f y) g = fnOf s g) ∧ fnOf (setFn s f y) f = y :=
  ⟨⟨rfl, fun _ hg => fnOf_setFn_other s y hg⟩, fnOf_setFn s f y⟩

theorem execRegisterWrite_msix {s : State} (hp : s.pkg.power = true) (f : Nat) {off : Nat} (x : Addr) (h : 0x3000 ≤ off ∧ off < 0x4000) :
    execRegisterWrite f off x s = .next (setFn s f { fnOf s f with regs := Map.put (fnOf s f).regs off x }) := by
  simp only [execRegisterWrite, hp, h, if_true, and_self]
theorem execRegisterWrite_virtual {s : State} (hp : s.pkg.power = true) {f off : Nat} (x : Addr) (hf : 16 ≤ f) (h : ¬ (0x3000 ≤ off ∧ off < 0x4000)) :
    execRegisterWrite f off x s = .next s := by
  simp only [execRegisterWrite, hp, h, hf, if_true, if_false]
/-- A register of a physical function outside its table of vectors. -/
theorem execRegisterWrite_physical {s : State} (hp : s.pkg.power = true) {f off : Nat} (x : Addr) (hf : f < 16) (h : ¬ (0x3000 ≤ off ∧ off < 0x4000)) :
    execRegisterWrite f off x s =
      if off = 0x0008 then .next (setFn s f { fnOf s f with arg0 := x })
      else if off = 0x0010 then .next (setFn s f { fnOf s f with arg1 := x })
      else if off = 0x0018 then .next (setFn s f { fnOf s f with arg2 := x })
      else if off = 0x0020 then .next (setFn s f { fnOf s f with arg3 := x })
      else if off = 0x4000 then .next (setFn s f { fnOf s f with errBase := x.toNat / 4096 * 4096 })
      else if off = 0x4008 then .next (setFn s f { fnOf s f with errCfg := x.toNat % 2 ^ 17 })
      else .next s := by
  simp only [execRegisterWrite, hp, h, Nat.not_le.2 hf, if_true, if_false]

theorem functionRegisters : Statements.FunctionRegisters := by
  intro s f off x w keeps
  refine ⟨fun hlo hhi hp => ?_, fun hf ho hp => ?_, fun hf => ⟨?_, ?_, ?_, ?_, ?_, ?_, fun hn ho hp => ?_, fun hp => ?_⟩, fun hf hp => ?_⟩
  · obtain ⟨hkeep, hreg⟩ := setFn_keeps s f { fnOf s f with regs := Map.put (fnOf s f).regs off x }
    exact ⟨_, execRegisterWrite_msix hp f x ⟨hlo, hhi⟩, hkeep, by rw [hreg, look_put_same]⟩
  · exact ⟨s, execRegisterWrite_virtual hp x hf (by omega), rfl⟩
  iterate 6
    rintro rfl hp
    exact ⟨_, execRegisterWrite_physical hp x hf (by decide), setFn_keeps s f _⟩
  · simp only [List.mem_cons, List.not_mem_nil, or_false, not_or] at hn
    obtain ⟨h8, h16, h24, h32, hbase, hcfg⟩ := hn
    refine ⟨s, (execRegisterWrite_physical hp x hf (by omega)).trans ?_, rfl⟩
    rw [if_neg h8, if_neg h16, if_neg h24, if_neg h32, if_neg hbase, if_neg hcfg]
  · exact ⟨_, by simp [execErrconsWrite, hp, Nat.not_le.2 hf], setFn_keeps s f _⟩
  · exact ⟨s, by simp [execErrconsWrite, hp, hf], rfl⟩

/-- Settles O52: quotes by the life-cycle state and the two keys' leaves, register writes by offset. -/
theorem attestation : Obligations.Attestation := ⟨attestation_quotes, functionRegisters⟩

end Sys2Proof.Machine
end

