-- ==== Sys2Proof/Proofs/HomeWrites.lean ====
section
/-!
PROOFS. Proofs/HomeWrites.lean: a write at the home (R216, R234): which memory it changes, what its bytes read as, and what it leaves
unchanged.
-/
namespace Sys2Proof.Machine

/-- A write at the home, its record of poison and stores apart. -/
theorem homeWrite_eq (s : State) (n : MemName) (a : Nat) (bs : List Byte) :
    homeWrite s n a bs = { setMem s n (writeBytes (memOf s n) a bs) with
      stored := (homeWrite s n a bs).stored, poison := (homeWrite s n a bs).poison } := by
  unfold homeWrite noteStored
  split <;> rfl

section
variable (s : State) (n : MemName) (a : Nat) (bs : List Byte)

@[simp] theorem ctxs_homeWrite : (homeWrite s n a bs).ctxs = s.ctxs := by rw [homeWrite_eq]; cases n <;> rfl
@[simp] theorem hall_homeWrite : (homeWrite s n a bs).hall = s.hall := by rw [homeWrite_eq]; cases n <;> rfl
@[simp] theorem pkg_homeWrite : (homeWrite s n a bs).pkg = s.pkg := by rw [homeWrite_eq]; cases n <;> rfl
@[simp] theorem links_homeWrite : (homeWrite s n a bs).links = s.links := by rw [homeWrite_eq]; cases n <;> rfl
@[simp] theorem out_homeWrite : (homeWrite s n a bs).out = s.out := by rw [homeWrite_eq]; cases n <;> rfl
@[simp] theorem own_homeWrite : (homeWrite s n a bs).own = s.own := by rw [homeWrite_eq]; cases n <;> rfl
@[simp] theorem fns_homeWrite : (homeWrite s n a bs).fns = s.fns := by rw [homeWrite_eq]; cases n <;> rfl
@[simp] theorem kerns_homeWrite : (homeWrite s n a bs).kerns = s.kerns := by rw [homeWrite_eq]; cases n <;> rfl
@[simp] theorem gangs_homeWrite : (homeWrite s n a bs).gangs = s.gangs := by rw [homeWrite_eq]; cases n <;> rfl
@[simp] theorem log_homeWrite : (homeWrite s n a bs).log = s.log := by rw [homeWrite_eq]; cases n <;> rfl
@[simp] theorem fresh_homeWrite : (homeWrite s n a bs).fresh = s.fresh := by rw [homeWrite_eq]; cases n <;> rfl
@[simp] theorem time_homeWrite : (homeWrite s n a bs).time = s.time := by rw [homeWrite_eq]; cases n <;> rfl
@[simp] theorem cur_homeWrite : (homeWrite s n a bs).cur = s.cur := by rw [homeWrite_eq]; cases n <;> rfl
@[simp] theorem services_homeWrite : (homeWrite s n a bs).services = s.services := by rw [homeWrite_eq]; cases n <;> rfl
@[simp] theorem ldevs_homeWrite : (homeWrite s n a bs).ldevs = s.ldevs := by rw [homeWrite_eq]; cases n <;> rfl
@[simp] theorem ctxOf_homeWrite (c : Nat) : ctxOf (homeWrite s n a bs) c = ctxOf s c := by simp [ctxOf]

theorem groups_homeWrite {n : MemName} (h : ∀ g, n ≠ .spill g) : (homeWrite s n a bs).groups = s.groups := by
  rw [homeWrite_eq]
  cases n with
  | spill g => exact absurd rfl (h g)
  | _ => rfl
end

/-! ### What a memory holds afterwards -/

/-- What one block's change leaves unchanged in that block is unchanged in every block. -/
theorem field_setBlk {α : Type} (f : Block → α) (s : State) {b : Nat} {y : Block} (h : f y = f (blkOf s b)) (c : Nat) :
    f (blkOf (setBlk s b y) c) = f (blkOf s c) := by
  by_cases hc : c = b
  · rw [hc, blkOf_setBlk, h]
  · rw [blkOf_setBlk_other s y hc]
theorem copy_setMem (s : State) (n : MemName) (m : Memory) (b : Nat) : (blkOf (setMem s n m) b).copy = (blkOf s b).copy := by
  cases n with
  | win c => exact field_setBlk Block.copy s (by rfl) b
  | ring c => exact field_setBlk Block.copy s (by rfl) b
  | slot c => exact field_setBlk Block.copy s (by rfl) b
  | _ => rfl
theorem matrix_setMem (s : State) (n : MemName) (m : Memory) (b : Nat) : (blkOf (setMem s n m) b).matrix = (blkOf s b).matrix := by
  cases n with
  | win c => exact field_setBlk Block.matrix s (by rfl) b
  | ring c => exact field_setBlk Block.matrix s (by rfl) b
  | slot c => exact field_setBlk Block.matrix s (by rfl) b
  | _ => rfl

theorem memOf_setMem_same (s : State) {n : MemName} (m : Memory) (h : ∀ c, n ≠ .table c) : memOf (setMem s n m) n = m := by
  cases n with
  | table c => exact absurd rfl (h c)
  | dev => rfl
  | host => rfl
  | die k => exact look_put_same _ _ _ _
  | _ => simp [memOf, setMem]
theorem memOf_setMem_other (s : State) {n k : MemName} (m : Memory) (h : k ≠ n) : memOf (setMem s n m) k = memOf s k := by
  cases n with
  | table c => rfl
  | dev => cases k with
    | dev => exact absurd rfl h
    | _ => rfl
  | host => cases k with
    | host => exact absurd rfl h
    | _ => rfl
  | die j => cases k with
    | die i => exact look_put_other _ _ _ fun hij => h (by rw [hij])
    | _ => rfl
  | spill g => cases k with
    | spill j => exact congrArg Group.spill (grpOf_setGrp_other s _ fun hj => h (by rw [hj]))
    | _ => rfl
  | win b => cases k with
    | win c => exact congrArg Block.win (blkOf_setBlk_other s _ fun hc => h (by rw [hc]))
    | ring c => exact field_setBlk Block.ringMem s (by rfl) c
    | slot c => exact field_setBlk Block.slots s (by rfl) c
    | _ => rfl
  | ring b => cases k with
    | ring c => exact congrArg Block.ringMem (blkOf_setBlk_other s _ fun hc => h (by rw [hc]))
    | win c => exact field_setBlk Block.win s (by rfl) c
    | slot c => exact field_setBlk Block.slots s (by rfl) c
    | _ => rfl
  | slot b => cases k with
    | slot c => exact congrArg Block.slots (blkOf_setBlk_other s _ fun hc => h (by rw [hc]))
    | win c => exact field_setBlk Block.win s (by rfl) c
    | ring c => exact field_setBlk Block.ringMem s (by rfl) c
    | _ => rfl

theorem memOf_homeWrite (s : State) (n : MemName) (a : Nat) (bs : List Byte) (k : MemName) :
    memOf (homeWrite s n a bs) k = memOf (setMem s n (writeBytes (memOf s n) a bs)) k := by
  rw [homeWrite_eq]; cases k <;> rfl
theorem blkOf_homeWrite (s : State) (n : MemName) (a : Nat) (bs : List Byte) (b : Nat) :
    blkOf (homeWrite s n a bs) b = blkOf (setMem s n (writeBytes (memOf s n) a bs)) b := by rw [homeWrite_eq]; rfl
/-- A byte at its home, of a memory whose bytes are not a ring's counts. -/
theorem homeByte_plain (s : State) {n : MemName} (h : ∀ b, n ≠ .ring b) (x : Nat) : homeByte s n x = readB (memOf s n) x := by
  cases n with
  | ring b => exact absurd rfl (h b)
  | _ => rfl
/-- Bytes of two states whose memories and ring counts agree. -/
theorem homeByte_congr {s t : State} {n : MemName} (hm : memOf t n = memOf s n) (hc : ∀ b, (blkOf t b).copy = (blkOf s b).copy)
    (hx : ∀ b, (blkOf t b).matrix = (blkOf s b).matrix) (x : Nat) : homeByte t n x = homeByte s n x := by
  cases n with
  | ring b => simp only [homeByte, hc, hx]; rw [show (blkOf t b).ringMem = (blkOf s b).ringMem from hm]
  | _ => exact congrArg (readB · x) hm

theorem homeByte_homeWrite_other (s : State) {n k : MemName} (a : Nat) (bs : List Byte) (h : k ≠ n) (x : Nat) :
    homeByte (homeWrite s n a bs) k x = homeByte s k x :=
  homeByte_congr (by rw [memOf_homeWrite, memOf_setMem_other s _ h]) (fun b => by rw [blkOf_homeWrite, copy_setMem])
    (fun b => by rw [blkOf_homeWrite, matrix_setMem]) x
theorem homeByte_homeWrite_same (s : State) {n : MemName} (a : Nat) (bs : List Byte) (hring : ∀ b, n ≠ .ring b) (htable : ∀ c, n ≠ .table c)
    (hwf : (memOf s n).wf = true) (x : Nat) :
    homeByte (homeWrite s n a bs) n x = if a ≤ x ∧ x < a + bs.length then byteAt bs (x - a) else homeByte s n x := by
  rw [homeByte_plain _ hring, homeByte_plain _ hring, memOf_homeWrite, memOf_setMem_same s _ htable, readB_writeBytes hwf]
theorem wf_homeWrite (s : State) {n : MemName} (a : Nat) (bs : List Byte) (k : MemName) (hwf : (memOf s k).wf = true) :
    (memOf (homeWrite s n a bs) k).wf = true := by
  rw [memOf_homeWrite]
  by_cases h : k = n
  · subst h
    cases k with
    | table c => rfl
    | _ => rw [memOf_setMem_same s _ (by simp)]; exact wf_writeBytes hwf a bs
  · rw [memOf_setMem_other s _ h]; exact hwf

/-- A list of bytes, byte by byte. -/
theorem map_byteAt (bs : List Byte) : ((List.range bs.length).map fun i => byteAt bs i) = bs := by
  refine List.ext_getElem (by simp) fun i h1 h2 => ?_
  rw [List.getElem_map, List.getElem_range]
  simp [byteAt, h2]

end Sys2Proof.Machine
end

