-- ==== Sys2Proof/Proofs/Maps.lean ====
section
/-!
PROOFS. Proofs/Maps.lean: the finite maps of the model: what a lookup finds after a change of one entry or of every entry; and loops that
keep something.
-/
namespace Sys2Proof.Machine

theorem look_eq_find {α : Type} (m : Map α) (k : Nat) (d : α) : Map.look m k d = (Map.find m k).getD d := by
  induction m with
  | nil => rfl
  | cons e m ih =>
    simp only [Map.look, Map.find]
    split
    · rfl
    · exact ih
theorem look_of_find {α : Type} {m : Map α} {k : Nat} {v : α} (h : Map.find m k = some v) (d : α) : Map.look m k d = v := by
  rw [look_eq_find, h]; rfl
theorem look_of_find_none {α : Type} {m : Map α} {k : Nat} (h : Map.find m k = none) (d : α) : Map.look m k d = d := by
  rw [look_eq_find, h]; rfl
theorem mem_of_find {α : Type} {m : Map α} {k : Nat} {v : α} (h : Map.find m k = some v) : (k, v) ∈ m := by
  induction m with
  | nil => simp [Map.find] at h
  | cons e m ih =>
    simp only [Map.find] at h
    split at h
    next hk => simp only [Option.some.injEq] at h; subst hk h; exact List.mem_cons_self
    next => exact List.mem_cons_of_mem e (ih h)
@[simp] theorem find_put_same {α : Type} (m : Map α) (k : Nat) (v : α) : Map.find (Map.put m k v) k = some v := by
  induction m with
  | nil => simp [Map.put, Map.find]
  | cons e m ih =>
    simp only [Map.put]
    split
    · simp [Map.find]
    · split
      · simp [Map.find]
      · next h1 h2 => simp only [Map.find, if_neg (Ne.symm h2)]; exact ih
theorem find_put_other {α : Type} (m : Map α) {k j : Nat} (v : α) (h : j ≠ k) : Map.find (Map.put m k v) j = Map.find m j := by
  induction m with
  | nil => simp [Map.put, Map.find, Ne.symm h]
  | cons e m ih =>
    simp only [Map.put]
    split
    · simp [Map.find, Ne.symm h]
    · split
      · next h1 h2 => subst h2; simp [Map.find, Ne.symm h]
      · simp only [Map.find, ih]
theorem find_map {α : Type} (f : α → α) (m : Map α) (k : Nat) :
    Map.find (m.map fun e => (e.1, f e.2)) k = (Map.find m k).map f := by
  induction m with
  | nil => rfl
  | cons e m ih =>
    simp only [List.map_cons, Map.find]
    split
    · rfl
    · exact ih
/-- A change of every entry, seen under one key. -/
theorem look_map {α : Type} (f : α → α) (m : Map α) {k : Nat} (d : α) (h : (Map.find m k).isSome = true ∨ f d = d) :
    Map.look (m.map fun e => (e.1, f e.2)) k d = f (Map.look m k d) := by
  rw [look_eq_find, look_eq_find, find_map]
  cases hm : Map.find m k with
  | none => simpa [hm] using h.elim (fun hs => absurd hs (by simp [hm])) Eq.symm
  | some v => rfl
theorem find_map_fst {α : Type} {m : Map α} (f : Nat × α → α) (k : Nat) :
    Map.find (m.map fun e => (e.1, f e)) k = (Map.find m k).map fun v => f (k, v) := by
  induction m with
  | nil => rfl
  | cons e m ih =>
    simp only [List.map_cons, Map.find]
    split
    next h => subst h; rfl
    next => exact ih

/-- A loop whose every round keeps something keeps it. -/
theorem foldl_keeps {σ α β : Type} (p : σ → β) {f : σ → α → σ} (h : ∀ s a, p (f s a) = p s) (l : List α) : ∀ s, p (l.foldl f s) = p s := by
  induction l with
  | nil => exact fun _ => rfl
  | cons a l ih => exact fun s => (ih (f s a)).trans (h s a)

/-- A fold whose steps leave the state alone. -/
theorem foldl_unchanged {σ α : Type} {f : σ → α → σ} {s : σ} (l : List α) (h : ∀ a ∈ l, f s a = s) : l.foldl f s = s := by
  induction l with
  | nil => rfl
  | cons a l ih => rw [List.foldl_cons, h a List.mem_cons_self, ih fun x hx => h x (List.mem_cons_of_mem a hx)]

theorem find_append {α : Type} (m m' : Map α) (k : Nat) : Map.find (m ++ m') k = (Map.find m k).or (Map.find m' k) := by
  induction m with
  | nil => rfl
  | cons e m ih =>
    rw [List.cons_append, Map.find, Map.find, ih]
    split <;> rfl
/-- The keys of a map, in ascending order, stay so. -/
theorem sorted_put {α : Type} {m : Map α} (h : (m.map Prod.fst).Pairwise (· < ·)) (k : Nat) (v : α) :
    ((Map.put m k v).map Prod.fst).Pairwise (· < ·) ∧ ∀ j ∈ (Map.put m k v).map Prod.fst, j = k ∨ j ∈ m.map Prod.fst := by
  induction m with
  | nil => simp [Map.put]
  | cons e m ih =>
    obtain ⟨j, w⟩ := e
    obtain ⟨hhead, htail⟩ := List.pairwise_cons.1 h
    obtain ⟨hsorted, hmem⟩ := ih htail
    unfold Map.put
    split
    · next hk =>
      refine ⟨List.pairwise_cons.2 ⟨List.forall_mem_cons.2 ⟨hk, fun i hi => Nat.lt_trans hk (hhead i hi)⟩, h⟩, fun i hi => ?_⟩
      exact (List.mem_cons.1 hi).imp_right id
    · next hk =>
      split
      · next hkj =>
        subst hkj
        exact ⟨h, fun i hi => .inr hi⟩
      · next hkj =>
        refine ⟨List.pairwise_cons.2 ⟨fun i hi => ?_, hsorted⟩, fun i hi => ?_⟩
        · rcases hmem i hi with rfl | hi
          · show j < i
            omega
          · exact hhead i hi
        · rcases List.mem_cons.1 hi with rfl | hi
          · exact .inr List.mem_cons_self
          · exact (hmem i hi).imp_right (List.mem_cons_of_mem _)
theorem find_del_sorted {α : Type} {m : Map α} (h : (m.map Prod.fst).Pairwise (· < ·)) (k : Nat) : Map.find (Map.del m k) k = none := by
  induction m with
  | nil => rfl
  | cons e m ih =>
    obtain ⟨j, w⟩ := e
    obtain ⟨hhead, htail⟩ := List.pairwise_cons.1 h
    rw [Map.del]
    split
    · next hj =>
      subst hj
      cases hf : Map.find m j with
      | none => rfl
      | some v => exact absurd (hhead j (List.mem_map_of_mem (mem_of_find hf))) (Nat.lt_irrefl j)
    · next hj => rw [Map.find, if_neg hj, ih htail]

end Sys2Proof.Machine
end

