-- ==== Sys2Proof/Proofs/HostAccesses.lean ====
section
/-!
PROOFS. Proofs/HostAccesses.lean: host reads and writes (R247, R333), and memory errors (R219, R324, R383).
-/
namespace Sys2Proof.Machine

/-! ### Host accesses -/

/-- One byte of a host write to device memory. -/
theorem hostPut_cons (s : State) (a : Nat) (b : Byte) (bs : List Byte) :
    hostPut s a (b :: bs) = hostPut (if hostMay s a = true then homeWrite s .dev a [b] else s) (a + 1) bs := rfl
theorem hostMay_homeWrite (s : State) (n : MemName) (a : Nat) (bs : List Byte) (x : Nat) :
    hostMay (homeWrite s n a bs) x = hostMay s x := by
  unfold hostMay ownOf
  rw [own_homeWrite]
theorem hostPut_rest (a : Nat) (bs : List Byte) (s : State) :
    (hostPut s a bs).groups = s.groups ∧ (hostPut s a bs).ctxs = s.ctxs ∧ (∀ n x, n ≠ .dev → homeByte (hostPut s a bs) n x = homeByte s n x) := by
  induction bs generalizing a s with
  | nil => exact ⟨rfl, rfl, fun _ _ _ => rfl⟩
  | cons b bs ih =>
    rw [hostPut_cons]
    obtain ⟨hg, hc, hb⟩ := ih (a + 1) (if hostMay s a = true then homeWrite s .dev a [b] else s)
    refine ⟨hg.trans ?_, hc.trans ?_, fun n x hn => (hb n x hn).trans ?_⟩ <;> split
    · exact groups_homeWrite s a [b] (by simp)
    · rfl
    · exact ctxs_homeWrite s .dev a [b]
    · rfl
    · exact homeByte_homeWrite_other s a [b] hn x
    · rfl
theorem wf_hostStep (s : State) (a : Nat) (b : Byte) (hwf : (memOf s .dev).wf = true) :
    (memOf (if hostMay s a = true then homeWrite s .dev a [b] else s) .dev).wf = true := by
  split
  · exact wf_homeWrite s a [b] _ hwf
  · exact hwf
theorem homeByte_hostPut (x : Nat) (a : Nat) (bs : List Byte) (s : State) (hwf : (memOf s .dev).wf = true) :
    homeByte (hostPut s a bs) .dev x =
      if (a ≤ x ∧ x < a + bs.length) ∧ hostMay s x = true then byteAt bs (x - a) else homeByte s .dev x := by
  induction bs generalizing a s with
  | nil => rw [if_neg (by simp only [List.length_nil]; omega)]; rfl
  | cons b bs ih =>
    rw [hostPut_cons, ih (a + 1) _ (wf_hostStep s a b hwf)]
    have hmay : hostMay (if hostMay s a = true then homeWrite s .dev a [b] else s) x = hostMay s x := by
      split
      · exact hostMay_homeWrite s .dev a [b] x
      · rfl
    rw [hmay, List.length_cons]
    have hstep : homeByte (if hostMay s a = true then homeWrite s .dev a [b] else s) .dev x =
        if x = a ∧ hostMay s x = true then b else homeByte s .dev x := by
      by_cases hm : hostMay s a = true
      · rw [if_pos hm, homeByte_homeWrite_same s a [b] (by simp) (by simp) hwf]
        by_cases hx : x = a
        · subst hx; simp [hm, byteAt]
        · rw [if_neg (by simp; omega), if_neg (by simp [hx])]
      · rw [if_neg hm, if_neg (by rintro ⟨rfl, h⟩; exact hm h)]
    rw [hstep]
    by_cases hm : hostMay s x = true
    · by_cases hx : x = a
      · subst hx
        rw [if_neg fun h => Nat.not_succ_le_self x h.1.1, if_pos ⟨rfl, hm⟩, if_pos ⟨⟨Nat.le_refl x, by omega⟩, hm⟩, Nat.sub_self]
        rfl
      · by_cases hr : a + 1 ≤ x ∧ x < a + 1 + bs.length
        · rw [if_pos ⟨hr, hm⟩, if_pos ⟨by omega, hm⟩, show x - a = (x - (a + 1)) + 1 by omega]
          simp [byteAt]
        · rw [if_neg (fun h => hr h.1), if_neg (fun h => hx h.1), if_neg (fun h => hr ⟨by omega, by omega⟩)]
    · rw [if_neg (fun h => hm h.2), if_neg (fun h => hm h.2), if_neg (fun h => hm h.2)]

theorem hostAccesses_bytes : Statements.HostAccesses := by
  intro s dev a n bs m
  refine ⟨fun hwf hdev hp => ?_, fun hdev hlong hp => ?_, fun hok hp => ?_, fun hp => ?_⟩
  · cases dev with
    | true =>
      have hexec : execHostWrite true a bs s = .next (hostPut s a bs) := by
        rw [execHostWrite, if_pos hp, if_neg (by simpa using hdev rfl)]
        rfl
      obtain ⟨hg, hc, hother⟩ := hostPut_rest a bs s
      have hdevwf : (memOf s .dev).wf = true := hwf
      refine ⟨_, hexec, fun k hk => ?_, fun n x hx => ?_, hg, hc⟩
      · rw [show m = .dev from rfl, homeByte_hostPut (a + k) a bs s hdevwf]
        cases hm : hostMay s (a + k) <;> simp [hk]
      · by_cases hn : n = .dev
        · subst hn
          rw [homeByte_hostPut x a bs s hdevwf, if_neg]
          rintro ⟨hr, -⟩
          exact absurd hx (by simp [m]; omega)
        · exact hother n x hn
    | false =>
      have hexec : execHostWrite false a bs s = .next (homeWrite s .host a bs) := by simp [execHostWrite, hp]
      have hhostwf : (memOf s .host).wf = true := hwf
      refine ⟨_, hexec, fun k hk => ?_, fun n x hx => ?_, groups_homeWrite s a bs (by simp), ctxs_homeWrite s .host a bs⟩
      · rw [show m = .host from rfl, homeByte_homeWrite_same s a bs (by simp) (by simp) hhostwf, if_pos ⟨by omega, by omega⟩, if_neg (by simp),
          Nat.add_sub_cancel_left]
      · by_cases hn : n = .host
        · subst hn
          rw [homeByte_homeWrite_same s a bs (by simp) (by simp) hhostwf, if_neg]
          intro hr
          exact absurd hx (by simp [m]; omega)
        · exact homeByte_homeWrite_other s a bs hn x
  · exact ⟨s, by rw [exec_hostWrite, execHostWrite, if_pos hp, if_pos (by simpa [hdev] using hlong)], rfl⟩
  · refine ⟨_, if_pos hp, ?_⟩
    congr 2
    refine List.map_congr_left fun k hk => ?_
    obtain ⟨he, hmay⟩ := hok k (List.mem_range.1 hk)
    simp [he, hmay]
  · exact ⟨_, if_pos hp, _, rfl, by simp⟩

/-! ### Memory errors -/

theorem ctxs_hostRecord (s : State) (f : Nat) (e : ErrRec) (prot : Bool) : (hostRecord s f e prot).ctxs = s.ctxs := by
  unfold hostRecord
  dsimp only
  split
  · rfl
  · split
    · rfl
    · rw [show ∀ u o, (emit u o).ctxs = u.ctxs from fun _ _ => rfl, setFn_ctxs, ctxs_homeWrite]
theorem ctxs_routeRecord (s : State) (cls : Nat) (e : ErrRec) : (routeRecord s cls e).ctxs = s.ctxs := by
  unfold routeRecord
  dsimp only
  split
  · exact ctxs_hostRecord s _ _ _
  · split
    · rw [ctxs_homeWrite]
      rfl
    · rfl
theorem time_hostRecord (s : State) (f : Nat) (e : ErrRec) (prot : Bool) : (hostRecord s f e prot).time = s.time := by
  unfold hostRecord
  dsimp only
  split
  · rfl
  · split
    · rfl
    · rw [show ∀ u o, (emit u o).time = u.time from fun _ _ => rfl, setFn_time, time_homeWrite]
theorem time_routeRecord (s : State) (cls : Nat) (e : ErrRec) : (routeRecord s cls e).time = s.time := by
  unfold routeRecord
  dsimp only
  split
  · exact time_hostRecord s _ _ _
  · split
    · rw [time_homeWrite]
      rfl
    · rfl
theorem correctedIn_raiseClass (s : State) (ctx cls unit sev c : Nat) : correctedIn (raiseClass s ctx cls unit sev) c = correctedIn s c := by
  unfold raiseClass correctedIn recent ctxOf
  rw [ctxs_routeRecord, time_routeRecord]

/-- An uncorrectable error stays in its word, once. -/
theorem softError_poison {s : State} (hp : s.pkg.power = true) {m : MemName} (a : Nat) (hh : m ≠ .host) (ht : ∀ c, m ≠ .table c) :
    execSoftError m a true s = .next (if s.poison.contains (m, a / 4 * 4) then s else setPoison s ((m, a / 4 * 4) :: s.poison)) := by
  unfold execSoftError
  dsimp only
  rw [if_pos hp, if_neg hh, if_pos rfl]
  cases m with
  | table c => exact absurd rfl (ht c)
  | _ => rfl
theorem eccAt_of_poison {s : State} {m : MemName} {a : Nat} (h : (m, a / 4 * 4) ∈ s.poison) : eccAt s [] m a 1 = true := by
  refine List.any_eq_true.2 ⟨_, h, ?_⟩
  simp
  omega

theorem recent_now (s : State) : recent s s.time = true := by simp [recent]
theorem correctedIn_countError (s : State) (p : Nat) (c : Ctx) :
    ((countError s p c).corrected.filter (recent s)).length =
      (c.corrected.filter (recent s)).length + (if (partsOf c.parts.toNat).contains p then 1 else 0) := by
  unfold countError
  split
  · simp [recent_now, List.filter_filter]
  · rfl
theorem countError_rest (s : State) (p : Nat) (c : Ctx) : { countError s p c with corrected := c.corrected } = c := by
  unfold countError
  split <;> rfl

/-- Whether an entry of a translation table, at a level and for an address, has a leaf under it. -/
def underEntry (a : Nat) (l : Leaf) : Bool :=
  let va := a % 2 ^ 56
  let level := a / 2 ^ 56
  !l.broken && if level = 0 then decide (l.va ≤ va) && decide (va < l.va + pageSize l.level)
    else decide (l.level < level) && l.va / entrySpan level == va / entrySpan level
theorem breakEntry_of_none {s : State} {ctx a : Nat} (h : (ctxOf s ctx).leaves.find? (underEntry a) = none) : breakEntry s ctx a = s := by
  unfold breakEntry
  dsimp only
  split
  · rfl
  next l hl =>
    have hsome : (ctxOf s ctx).leaves.find? (underEntry a) = some l := hl
    rw [h] at hsome
    cases hsome
/-- The entries that an error breaks, the record of it apart. -/
theorem breakEntry_of_some {s : State} {ctx a : Nat} {l : Leaf} (h : (ctxOf s ctx).leaves.find? (underEntry a) = some l) :
    ∃ e, breakEntry s ctx a = routeRecord (setCtx s ctx { ctxOf s ctx with
      leaves := (ctxOf s ctx).leaves.map fun l => if underEntry a l = true then { l with broken := true } else l }) 15 e := by
  unfold breakEntry
  dsimp only
  split
  next hnone =>
    have hno : (ctxOf s ctx).leaves.find? (underEntry a) = none := hnone
    rw [h] at hno
    cases hno
  next => exact ⟨_, rfl⟩
theorem softError_corrected {s : State} (hp : s.pkg.power = true) {m : MemName} (a : Nat) (hh : m ≠ .host) :
    execSoftError m a false s = .next { s with ctxs := s.ctxs.map fun e => (e.1, countError s (memPart s m a) e.2) } := by
  unfold execSoftError
  dsimp only
  rw [if_pos hp, if_neg hh]
  rfl
theorem softError_table {s : State} (hp : s.pkg.power = true) (ctx a : Nat) :
    execSoftError (.table ctx) a true s = .next (breakEntry s ctx a) := by
  unfold execSoftError
  dsimp only
  rw [if_pos hp, if_neg (by simp)]
  rfl

theorem memoryErrors : Statements.MemoryErrors := by
  intro s m a ctx p va level span hit
  have hunder (l : Leaf) : underEntry a l = true ↔ hit l := by
    simp only [underEntry, hit, Bool.and_eq_true, Bool.not_eq_true']
    refine and_congr_right fun _ => ?_
    split <;> simp [va, level, span, entrySpan]
  refine ⟨fun hh ht hp => ?_, fun hh hc hp => ?_, fun hp => ?_, fun hno hp => ?_, fun hsome hp => ?_, fun hc hmany hp => ?_, fun h hp => ?_⟩
  · refine ⟨_, softError_poison hp a hh ht, ?_⟩
    by_cases hmem : (m, a / 4 * 4) ∈ s.poison
    · rw [if_pos (List.contains_iff_mem.2 hmem)]
      exact ⟨hmem, fun _ he => he, rfl, eccAt_of_poison hmem⟩
    · rw [if_neg (fun h => hmem (List.contains_iff_mem.1 h))]
      exact ⟨List.mem_cons_self, fun _ he => List.mem_cons_of_mem _ he, rfl, eccAt_of_poison List.mem_cons_self⟩
  · have hctx : ctxOf { s with ctxs := s.ctxs.map fun e => (e.1, countError s p e.2) } ctx = countError s p (ctxOf s ctx) :=
      look_map (countError s p) s.ctxs {} (.inl hc)
    refine ⟨_, softError_corrected hp a hh, ?_, ?_, rfl⟩
    · unfold correctedIn
      rw [hctx]
      exact correctedIn_countError s p (ctxOf s ctx)
    · rw [hctx]
      exact countError_rest s p (ctxOf s ctx)
  · exact ⟨s, by simp [execSoftError, hp], rfl⟩
  · refine ⟨_, softError_table hp ctx a, breakEntry_of_none (List.find?_eq_none.2 fun l hl => ?_)⟩
    rw [hunder]
    exact hno l hl
  · obtain ⟨l, hl, hlhit⟩ := hsome
    obtain ⟨x, hx⟩ := Option.isSome_iff_exists.1 (List.find?_isSome.2 ⟨l, hl, (hunder l).2 hlhit⟩)
    obtain ⟨e, he⟩ := breakEntry_of_some hx
    have hctx (c : Nat) : ctxOf (breakEntry s ctx a) c = ctxOf (setCtx s ctx { ctxOf s ctx with
        leaves := (ctxOf s ctx).leaves.map fun l => if underEntry a l = true then { l with broken := true } else l }) c := by
      rw [he]
      unfold ctxOf
      rw [ctxs_routeRecord]
    refine ⟨_, softError_table hp ctx a, ?_, fun i y hy => ⟨fun hyhit => ?_, fun hyno => ?_⟩, fun c hc => ?_⟩
    · rw [hctx, ctxOf_setCtx, List.length_map]
    · rw [hctx, ctxOf_setCtx, List.getElem?_map, hy, Option.map_some, if_pos ((hunder y).2 hyhit)]
    · rw [hctx, ctxOf_setCtx, List.getElem?_map, hy, Option.map_some, if_neg (fun h => hyno ((hunder y).1 h))]
    · rw [hctx, ctxOf_setCtx_other s _ hc]
  · refine ⟨_, (if_pos hp).trans (if_pos ⟨hc, hmany⟩), rfl, fun c hne => ?_, ?_⟩
    · rw [correctedIn_raiseClass]
      unfold correctedIn
      rw [ctxOf_setCtx_other s _ hne]
      rfl
    · rw [correctedIn_raiseClass]
      unfold correctedIn
      rw [ctxOf_setCtx]
      rfl
  · refine ⟨s, if_pos hp |>.trans (if_neg ?_), rfl⟩
    rintro ⟨hs, hm⟩
    rcases h with h | h
    · simp [Option.isNone_iff_eq_none.1 h] at hs
    · omega

/-- Settles O54: host accesses byte by byte, errors by the kind of the word. -/
theorem hostAccesses : Obligations.HostAccesses := ⟨hostAccesses_bytes, memoryErrors⟩

end Sys2Proof.Machine
end

