-- ==== Sys2Proof/Proofs/PortStates.lean ====
section
/-!
PROOFS. Proofs/PortStates.lean: the states of a port (R342, R343, R347, R383).
-/
namespace Sys2Proof.Machine

/-- A port's entry changed, and nothing else. -/
theorem setPort_same (s : State) (p : Nat) (x : Port) :
    { setPort s p x with links := s.links } = s ∧ ∀ q, q ≠ p → portAt (setPort s p x) q = portAt s q :=
  ⟨rfl, fun _ hq => look_put_other _ _ _ hq⟩
theorem linkState_setPort (s : State) {p : Nat} {x : Port} (q : Nat) (h : linkState x = linkState (portAt s p)) :
    linkState (portAt (setPort s p x) q) = linkState (portAt s q) := (sends_setPort h).port q

/-! ### Flits that lose their route -/

/-- Rerouting moves flits only: no port's state, no record of the package and nothing of the hall changes. -/
theorem rerouteFrom_rest (s : State) (p : Nat) :
    (rerouteFrom s p).pkg = s.pkg ∧ (rerouteFrom s p).hall = s.hall ∧ ∀ q, linkState (portAt (rerouteFrom s p) q) = linkState (portAt s q) := by
  unfold rerouteFrom
  dsimp only
  have hsends (u : State) (l : List Flit) : Sends u (l.foldl sendFlit u) := Sends.foldl sends_sendFlit l u
  refine ⟨(hsends _ _).pkg, (hsends _ _).hall, fun q => ((hsends _ _).port q).trans ?_⟩
  exact (linkState_setPort _ q (by rfl)).trans rfl
theorem retirePort_facts {s : State} {p : Nat} (h : (portAt s p).st ≠ .retired) :
    (portAt (retirePort s p) p).st = .retired ∧ s.pkg.log.length < (retirePort s p).pkg.log.length := by
  unfold retirePort
  rw [if_neg h]
  obtain ⟨hpkg, -, hport⟩ := rerouteFrom_rest (setPort s p { portAt s p with st := .retired }) p
  refine ⟨?_, ?_⟩
  · have hst := hport p
    rw [portAt_setPort] at hst
    exact congrArg Prod.fst hst
  · simp only [packageClass, logRecord, setPkg, hpkg]
    simp [setPort, setLinks]

/-! ### Training -/

theorem trainingFails_down {s : State} {p : Nat} (h : (portAt s p).fails ≠ 7) :
    trainingFails s p = setPort s p { portAt s p with st := .down, fails := (portAt s p).fails + 1 } := if_neg (by omega)
theorem trainingFails_retired {s : State} {p : Nat} (h : (portAt s p).fails = 7) :
    (portAt (trainingFails s p) p).st = .retired ∧ s.pkg.log.length < (trainingFails s p).pkg.log.length := by
  have heq : trainingFails s p = retirePort (setPort s p { portAt s p with st := .down, fails := (portAt s p).fails + 1 }) p := if_pos (by omega)
  rw [heq]
  exact retirePort_facts (by rw [portAt_setPort]; simp)
theorem foldl_emit_sends (p : Nat) (l : List Flit) (s : State) : Sends s (l.foldl (fun s fl => emit s (.flit p fl)) s) :=
  Sends.foldl (fun s _ => sends_emit s _) l s
theorem linkStarts_rest (s : State) (p : Nat) :
    (linkStarts s p).hall = s.hall ∧ ∀ q, linkState (portAt (linkStarts s p) q) = linkState (portAt s q) := by
  unfold linkStarts
  dsimp only
  obtain ⟨-, hhall, hport⟩ := rerouteFrom_rest (portFlush p (portAt s p).sendQ.length ((portAt s p).replay.foldl (fun s fl => emit s (.flit p fl)) s)) 24
  have hsends := (foldl_emit_sends p (portAt s p).replay s).trans (sends_portFlush p (portAt s p).sendQ.length _)
  exact ⟨hhall.trans hsends.hall, fun q => (hport q).trans (hsends.port q)⟩
theorem tryJoin_of_member {s : State} (h : isMember s = true) : tryJoin s = s := if_pos (.inr h)
theorem trainingComplete_passes {s : State} {p lanes far : Nat} (hp : s.pkg.power = true) (ht : (portAt s p).st = .training)
    (hlo : 6 ≤ lanes) (hhi : lanes ≤ 8) (hm : isMember s = true) :
    ∃ t, execTrainingComplete p lanes true far s = .next t ∧
      linkState (portAt t p) = (if lanes = 8 then .up else .degraded, lanes, 0, far) := by
  refine ⟨_, by rw [execTrainingComplete, if_pos hp, if_neg (by simp [ht]), if_pos (by simpa using hlo)], ?_⟩
  obtain ⟨hhall, hport⟩ := linkStarts_rest (setPort s p { portAt s p with
    st := if 8 ≤ lanes then .up else .degraded, lanes := min lanes 8, fails := 0, far := far }) p
  rw [tryJoin_of_member (by rw [isMember, inView, hhall]; exact hm), hport p, portAt_setPort]
  have h8 : (8 ≤ lanes) = (lanes = 8) := by rw [eq_iff_iff]; omega
  simp [linkState, h8, hhi]
theorem trainingComplete_fails {s : State} {p lanes far : Nat} {agree : Bool} (hp : s.pkg.power = true) (ht : (portAt s p).st = .training)
    (h : agree = false ∨ lanes < 6) : execTrainingComplete p lanes agree far s = .next (trainingFails s p) := by
  rw [execTrainingComplete, if_pos hp, if_neg (by simp [ht]), if_neg (by rcases h with h | h <;> simp [h])]
theorem trainingTimeout_fails {s : State} {p : Nat} (hp : s.pkg.power = true) (ht : (portAt s p).st = .training) :
    execTrainingTimeout p s = .next (trainingFails s p) := by rw [execTrainingTimeout, if_pos hp, if_pos ht]

/-! ### The events, with power -/

section
variable {s : State} (hp : s.pkg.power = true) (p : Nat)
include hp
theorem execPortEnable_eq : execPortEnable p s =
    .next (if p < 24 ∧ (portAt s p).st = .down ∧ wingActs s = true then setPort s p { portAt s p with st := .training } else s) := if_pos hp
theorem execTrainingComplete_idle (lanes far : Nat) (agree : Bool) (h : (portAt s p).st ≠ .training) :
    execTrainingComplete p lanes agree far s = .next s := (if_pos hp).trans (if_pos h)
theorem execTrainingTimeout_eq : execTrainingTimeout p s = .next (if (portAt s p).st = .training then trainingFails s p else s) := if_pos hp
theorem execRetrainTimer_eq : execRetrainTimer p s =
    .next (if p < 24 ∧ (portAt s p).st = .down ∧ 0 < (portAt s p).fails then setPort s p { portAt s p with st := .training } else s) := if_pos hp
theorem execLossOfLock_eq : execLossOfLock p s =
    .next (if linkUp (portAt s p) = true then setPort s p { portAt s p with st := .training, retries := 0 } else s) := if_pos hp
theorem execLaneFailure_eq : execLaneFailure p s =
    .next (if linkUp (portAt s p) = false then s
      else if 7 ≤ (portAt s p).lanes then setPort s p { portAt s p with st := .degraded, lanes := (portAt s p).lanes - 1 }
      else if linkUp (portAt s p) = true then setPort s p { portAt s p with st := .training, retries := 0 } else s) := if_pos hp
theorem execFlitFailsCrc_eq : execFlitFailsCrc p s = .next (if linkRuns (portAt s p) = true then sendRetry s p else s) := if_pos hp
theorem execPortRetire_eq : execPortRetire p s = .next (if p < 24 ∧ wingActs s = true then retirePort s p else s) := if_pos hp
end

/-- Settles O56: every transition by the port's state, its lanes and its failures. -/
theorem portStates : Obligations.PortStates := by
  intro s p lanes far agree x st same
  have hset (y : Port) : portAt (setPort s p y) p = y ∧ same (setPort s p y) := ⟨portAt_setPort s p y, setPort_same s p y⟩
  have hnot : linkUp x = true → linkUp (portAt s p) ≠ false := fun h => by rw [h]; simp
  refine ⟨fun hlt hd hw hp => ?_, fun h hp => ?_, fun ht => ⟨fun ha hlo hhi _ _ _ _ hm hp => ?_, fun h hf => ⟨fun hp => ?_, fun hp => ?_⟩,
    fun hf _ => ⟨fun hp => ?_, fun h hp => ?_⟩⟩, fun ht => ⟨fun hp => ?_, fun hp => ?_⟩, fun hlt hd hf hp => ?_, fun h hp => ?_,
    fun hup => ⟨fun hp => ?_, fun hl hp => ?_, fun hl hp => ?_⟩, fun h hp => ?_, fun hdown => ⟨fun hp => ?_, fun hp => ?_, fun hf hp => ?_⟩,
    fun hlt hr _ hw hp => ?_, fun h hp => ?_⟩
  · exact ⟨_, (execPortEnable_eq hp p).trans (congrArg _ (if_pos ⟨hlt, hd, hw⟩)), congrArg Port.st (hset _).1, (hset _).2⟩
  · refine ⟨s, (execPortEnable_eq hp p).trans (congrArg _ (if_neg ?_)), rfl⟩
    rintro ⟨-, hd, hw⟩
    exact h.elim (fun hn => hn hd) (fun hn => by simp [hn] at hw)
  · subst ha
    obtain ⟨t, hexec, hlink⟩ := trainingComplete_passes (far := far) hp ht hlo hhi hm
    simp only [linkState, Prod.mk.injEq] at hlink
    exact ⟨t, hexec, hlink⟩
  · exact ⟨_, (trainingComplete_fails hp ht h).trans (congrArg _ (trainingFails_down hf)), congrArg Port.st (hset _).1,
      congrArg Port.fails (hset _).1, (hset _).2⟩
  · exact ⟨_, (trainingTimeout_fails hp ht).trans (congrArg _ (trainingFails_down hf)), congrArg Port.st (hset _).1,
      congrArg Port.fails (hset _).1, (hset _).2⟩
  · exact ⟨_, trainingTimeout_fails hp ht, trainingFails_retired hf⟩
  · exact ⟨_, trainingComplete_fails hp ht h, trainingFails_retired hf⟩
  · exact ⟨s, execTrainingComplete_idle hp p lanes far agree ht, rfl⟩
  · exact ⟨s, (execTrainingTimeout_eq hp p).trans (congrArg _ (if_neg ht)), rfl⟩
  · exact ⟨_, (execRetrainTimer_eq hp p).trans (congrArg _ (if_pos ⟨hlt, hd, hf⟩)), congrArg Port.st (hset _).1, (hset _).2⟩
  · refine ⟨s, (execRetrainTimer_eq hp p).trans (congrArg _ (if_neg ?_)), rfl⟩
    rintro ⟨-, hd, hf⟩
    exact h.elim (fun hn => Nat.lt_irrefl 0 (hn ▸ hf)) (fun hn => hn hd)
  · exact ⟨_, (execLossOfLock_eq hp p).trans (congrArg _ (if_pos hup)), congrArg Port.st (hset _).1, (hset _).2⟩
  · exact ⟨_, (execLaneFailure_eq hp p).trans (congrArg _ ((if_neg (hnot hup)).trans (if_pos hl))), congrArg Port.st (hset _).1,
      congrArg Port.lanes (hset _).1, (hset _).2⟩
  · exact ⟨_, (execLaneFailure_eq hp p).trans (congrArg _ ((if_neg (hnot hup)).trans ((if_neg (Nat.not_le.2 hl)).trans (if_pos hup)))),
      congrArg Port.st (hset _).1, (hset _).2⟩
  · exact ⟨_, (execFlitFailsCrc_eq hp p).trans (congrArg _ (if_pos ((linkRuns_iff _).2 h))), rfl⟩
  · exact ⟨s, (execLossOfLock_eq hp p).trans (congrArg _ (if_neg (fun hup => hnot hup hdown))), rfl⟩
  · exact ⟨s, (execLaneFailure_eq hp p).trans (congrArg _ (if_pos hdown)), rfl⟩
  · refine ⟨s, (execFlitFailsCrc_eq hp p).trans (congrArg _ (if_neg fun h => ?_)), rfl⟩
    exact ((linkRuns_iff _).1 h).elim (fun hup => hnot hup hdown) hf
  · exact ⟨_, (execPortRetire_eq hp p).trans (congrArg _ (if_pos ⟨hlt, hw⟩)), retirePort_facts hr⟩
  · refine ⟨s, (execPortRetire_eq hp p).trans (congrArg _ ?_), rfl⟩
    rcases h with h | h
    · rw [show retirePort s p = s from if_pos h, ite_self]
    · exact if_neg (by simp [h])

end Sys2Proof.Machine
end

