-- ==== Sys2Proof/Proofs/ContextCreation.lean ====
section
/-!
PROOFS. Proofs/ContextCreation.lean: CREATE (R75). The new context's step counter is 0 only where the hall's rows hold at most one row of its
identifier: what is left of an earlier context is dropped by one deletion, which leaves a second row of the same key.
-/
namespace Sys2Proof.Machine

/-- A package that may create context 0, whose hall still holds two rows of that identifier. -/
def twoRows : State :=
  let s := State.reset
  let s := setPkg s { s.pkg with life := .deployed, allots := [(0, 0)] }
  setHall s { s.hall with repl := { s.hall.repl with ctxs := [(0, {}), (0, { step := 5 })] } }

/-- The step counter that the hall keeps of context 0 after an outcome. -/
def hallStep (o : Host.Outcome State Fault Refusal) : Option (BitVec 64) :=
  match o with
  | .next t => some (Map.look t.hall.repl.ctxs 0 {}).step
  | _ => none
set_option maxRecDepth 4000 in
theorem twoRows_step : hallStep (exec (.create 0 1 1 0 0) twoRows) = some 5 := by decide

set_option maxRecDepth 4000 in
/-- Refutes O48: CREATE leaves the second of two rows, with its step counter. -/
theorem not_contextCreation : ¬ Obligations.ContextCreation := by
  rintro ⟨-, h⟩
  obtain ⟨-, hgood⟩ := h twoRows 0 0 1 1 0 0 (by unfold Serves; decide) (by decide)
  obtain ⟨-, hfree⟩ := hgood (.inl (by decide)) (by decide) (by decide)
  obtain ⟨-, hcreate⟩ := hfree (by decide)
  obtain ⟨t, hnext, -, -, -, -, -, -, -, -, -, -, -, hstep, -⟩ := hcreate (by decide) (by decide) (by decide) (by decide) (by decide)
  have hkept := twoRows_step
  rw [hnext] at hkept
  have hzero : (Map.look t.hall.repl.ctxs 0 {}).step = 0 := hstep fun m _ _ hm => absurd hm (by simp [twoRows, setHall, setPkg, State.reset])
  have hfive : some (Map.look t.hall.repl.ctxs 0 {}).step = some 5 := hkept
  rw [hzero] at hfive
  exact absurd hfive (by decide)

end Sys2Proof.Machine
end

