-- ==== Sys2Proof/Proofs/Commands.lean ====
section
/-!
PROOFS. Proofs/Commands.lean: how the security core serves a command (R75, R389): the checks before its own effect, in their order.
-/
namespace Sys2Proof.Machine

/-! ### Operands -/

/-- An operand without a bit above its field. -/
theorem within64_low {x k : Nat} (h : x < 2 ^ k) : within64 x (2 ^ k - 1) = true := by
  refine beq_iff_eq.2 (BitVec.eq_of_getLsbD_eq fun i hi => ?_)
  simp only [BitVec.getLsbD_and, BitVec.getLsbD_not, BitVec.getLsbD_ofNat, hi, decide_true, Bool.true_and,
    Nat.testBit_two_pow_sub_one]
  by_cases hk : i < k
  · simp [hk]
  · rw [Nat.testBit_lt_two_pow (Nat.lt_of_lt_of_le h (Nat.pow_le_pow_right (by decide) (Nat.le_of_not_lt hk))), Bool.false_and]
    exact BitVec.getLsbD_zero.symm
theorem within64_all (a : Addr) : within64 a.toNat allBits = true := within64_low a.isLt
theorem within64_zero {a : Addr} (h : a = 0) : within64 a.toNat 0 = true := by subst h; decide
theorem within64_ctx {a : Addr} (h : a.toNat < 1024) : within64 a.toNat 0x3FF = true := within64_low (k := 10) h
theorem namedBits_of {a0 a1 a2 a3 : Addr} {m0 m1 m2 m3 : Nat} (h0 : within64 a0.toNat m0 = true) (h1 : within64 a1.toNat m1 = true)
    (h2 : within64 a2.toNat m2 = true) (h3 : within64 a3.toNat m3 = true) : namedBits (argsOf a0 a1 a2 a3) m0 m1 m2 m3 = true := by
  simp [namedBits, argsOf, h0, h1, h2, h3]

/-! ### Serving -/

section
variable {s : State} {f : Nat} (h : Serves s f) (a0 a1 a2 a3 : Addr)
include h

/-- A command that is served at once has its body's effect, with its operands in place. -/
theorem command_served (hp : s.pkg.power = true) (i : Instr) (body : State → State) : command i f a0 a1 a2 a3 s body = .next (body (serving s f a0 a1 a2 a3)) := by
  obtain ⟨hf, hbusy, hcore, hwait, -⟩ := h
  simp [command, hp, hbusy, hcore, hwait, Nat.not_le.2 hf, serving]
theorem serve_deployed {ok : Bool} (hok : ok = true) (body : State → State) :
    serve (serving s f a0 a1 a2 a3) f ok body = body (serving s f a0 a1 a2 a3) := by
  obtain ⟨-, -, -, -, hlife⟩ := h
  rw [serve, if_neg (by simp [serving, hlife]), if_neg (by simp [hok])]
end

section
variable (s : State) (f : Nat) (a0 a1 a2 a3 : Addr)
@[simp] theorem ctxOf_serving (c : Nat) : ctxOf (serving s f a0 a1 a2 a3) c = ctxOf s c := rfl
@[simp] theorem ctxs_serving : (serving s f a0 a1 a2 a3).ctxs = s.ctxs := rfl
@[simp] theorem pkg_serving : (serving s f a0 a1 a2 a3).pkg = s.pkg := rfl
@[simp] theorem hall_serving : (serving s f a0 a1 a2 a3).hall = s.hall := rfl
end
/-- A context that the function holds in one of the states asked for. -/
theorem onCtx_holds {s u : State} {f ctx : Nat} {st : CtxState} {sts : List CtxState} (h : Holds s f ctx st) (hu : u.ctxs = s.ctxs) (hst : st ∈ sts)
    (body : Ctx → State) : onCtx u f ctx sts body = body (ctxOf u ctx) := by
  obtain ⟨hsome, hld, hstate⟩ := h
  have hctx : ctxOf u ctx = ctxOf s ctx := by unfold ctxOf; rw [hu]
  refine if_pos ?_
  simp [hu, hctx, hsome, hld, hstate, hst]
/-- A context in another state. -/
theorem onCtx_other {s u : State} {f ctx : Nat} {st : CtxState} {sts : List CtxState} (h : Holds s f ctx st) (hu : u.ctxs = s.ctxs) (hst : st ∉ sts)
    (body : Ctx → State) : onCtx u f ctx sts body = completeCmd u f 1 := by
  obtain ⟨hsome, hld, hstate⟩ := h
  have hctx : ctxOf u ctx = ctxOf s ctx := by unfold ctxOf; rw [hu]
  refine if_neg ?_
  simp [hctx, hstate, hst]

section
variable (s : State) (f status : Nat)
@[simp] theorem ctxOf_completeCmd (c : Nat) : ctxOf (completeCmd s f status) c = ctxOf s c := rfl
@[simp] theorem ctxs_completeCmd : (completeCmd s f status).ctxs = s.ctxs := rfl
@[simp] theorem hall_completeCmd : (completeCmd s f status).hall = s.hall := rfl
@[simp] theorem gangs_completeCmd : (completeCmd s f status).gangs = s.gangs := rfl
@[simp] theorem pkg_completeCmd : (completeCmd s f status).pkg = s.pkg := rfl
@[simp] theorem own_completeCmd : (completeCmd s f status).own = s.own := rfl
end
theorem completed_completeCmd (s : State) (f status : Nat) : Completed (completeCmd s f status) f status := by
  simp [Completed, completeCmd]

end Sys2Proof.Machine
end

