-- ==== Sys2Proof/Proofs/Checkpoints.lean ====
section
/-!
PROOFS. Proofs/Checkpoints.lean: CKPT and RESTORE (R80, R81), and the claim table (R384).
-/
namespace Sys2Proof.Machine

/-! ### The record -/

theorem bytesOfNat_length : ∀ (n x : Nat), (bytesOfNat n x).length = n
  | 0, _ => rfl
  | n + 1, x => congrArg (· + 1) (bytesOfNat_length n (x / 256))
theorem natOfBytes_of_bytesOfNat : ∀ (n x : Nat), natOfBytes (bytesOfNat n x) = x % 256 ^ n
  | 0, x => by simp [bytesOfNat, natOfBytes, Nat.mod_one]
  | n + 1, x => by
    rw [bytesOfNat, natOfBytes, natOfBytes_of_bytesOfNat n, Nat.pow_succ', Nat.mod_mul]
    simp

/-- A field of a record, between what stands before it and after it. -/
theorem fieldAt_append (pre post : List Byte) (n x : Nat) : fieldAt (pre ++ (bytesOfNat n x ++ post)) pre.length n = x % 256 ^ n := by
  rw [fieldAt, List.drop_left, List.take_append_of_le_length (Nat.le_of_eq (bytesOfNat_length n x).symm),
    List.take_of_length_le (Nat.le_of_eq (bytesOfNat_length n x)), natOfBytes_of_bytesOfNat]

theorem recordHeader_length (s : State) (ctx datatag : Nat) : (recordHeader s ctx datatag).length = 48 := by
  simp [recordHeader, bytesOfNat_length]
theorem makeRecord_length (s : State) (ctx datatag : Nat) : (makeRecord s ctx datatag).length = recordBytes s ctx := by
  have hn : 64 ≤ recordBytes s ctx := by unfold recordBytes; omega
  simp only [makeRecord, List.length_append, recordHeader_length, bytesOfNat_length, List.length_map, List.length_range]
  omega
/-- A record's first four fields of the header, and what follows the size. -/
theorem makeRecord_parts (s : State) (ctx datatag : Nat) : ∃ pre post : List Byte, pre.length = 32 ∧ pre.take 4 = bytesOfNat 4 0x4B435043 ∧
    makeRecord s ctx datatag = pre ++ (bytesOfNat 8 datatag ++ (bytesOfNat 8 (ctxOf s ctx).step.toNat ++ post)) := by
  let body := (List.range (recordBytes s ctx - 64)).map (Config.cipherByte ((ctxOf s ctx).secrets.headD 0) (savedOf s ctx))
  let tag := bytesOfNat 16 (Config.recordTag ((ctxOf s ctx).secrets.headD 0) (recordHeader s ctx datatag ++ body)).toNat
  refine ⟨bytesOfNat 4 0x4B435043 ++ (bytesOfNat 2 1 ++ bytesOfNat 2 ((ctxOf s ctx).world + 64 * ctx) ++ bytesOfNat 12 0
    ++ bytesOfNat 4 (64 + genBytes s ctx) ++ bytesOfNat 4 64 ++ bytesOfNat 4 (recordBytes s ctx)), tag ++ body, ?_, ?_, ?_⟩
  · simp [bytesOfNat_length]
  · rw [List.take_append_of_le_length (Nat.le_of_eq (bytesOfNat_length _ _).symm), List.take_of_length_le (Nat.le_of_eq (bytesOfNat_length _ _))]
  · simp only [makeRecord, tag, body, recordHeader, List.append_assoc]
theorem makeRecord_fields (s : State) (ctx datatag : Nat) : (makeRecord s ctx datatag).take 4 = bytesOfNat 4 0x4B435043 ∧
    fieldAt (makeRecord s ctx datatag) 40 8 = (ctxOf s ctx).step.toNat ∧ fieldAt (makeRecord s ctx datatag) 32 8 = datatag % 2 ^ 64 := by
  obtain ⟨pre, post, hlen, hmark, heq⟩ := makeRecord_parts s ctx datatag
  have htag := fieldAt_append pre (bytesOfNat 8 (ctxOf s ctx).step.toNat ++ post) 8 datatag
  have hstep := fieldAt_append (pre ++ bytesOfNat 8 datatag) post 8 (ctxOf s ctx).step.toNat
  rw [hlen] at htag
  rw [List.length_append, hlen, bytesOfNat_length, List.append_assoc] at hstep
  refine ⟨?_, ?_, ?_⟩
  · rw [heq, List.take_append_of_le_length (by omega), hmark]
  · rw [heq, hstep]
    exact Nat.mod_eq_of_lt (ctxOf s ctx).step.isLt
  · rw [heq, htag, show 256 ^ 8 = 2 ^ 64 by decide]

/-! ### CKPT and RESTORE -/

section
variable {s : State} {f : Nat} (hs : Serves s f) (hp : s.pkg.power = true) {a0 : Addr} (a1 a2 a3 : Addr) (hc : a0.toNat < 1024)
include hs hp hc
theorem exec_ckpt_suspended (h : Holds s f a0.toNat .suspended) :
    let u := serving s f a0 a1 a2 a3
    exec (.ckpt f a0 a1 a2 a3) s = .next (if a2.toNat < recordBytes u a0.toNat then completeCmd u f 8
      else if rangeMapped u a0.toNat a1.toNat (recordBytes u a0.toNat) true = false then completeCmd u f 4
      else completeCmd (vaWrite { u with written := (makeRecord u a0.toNat a3.toNat, savedOf u a0.toNat) :: u.written } a0.toNat a1.toNat
        (makeRecord u a0.toNat a3.toNat)) f 0) := by
  have hops : namedBits (argsOf a0 a1 a2 a3) 0x3FF allBits allBits allBits = true :=
    namedBits_of (within64_ctx hc) (within64_all a1) (within64_all a2) (within64_all a3)
  rw [exec_ckpt, execCkpt, command_served hs a0 a1 a2 a3 hp, serve_deployed hs a0 a1 a2 a3 hops]
  exact congrArg _ (onCtx_holds h (ctxs_serving s f a0 a1 a2 a3) (by simp) _)
theorem exec_restore_holds {st : CtxState} (hst : st = .assembling ∨ st = .suspended) (h : Holds s f a0.toNat st) (h2 : a2 = 0) (h3 : a3 = 0) :
    let u := serving s f a0 a1 a2 a3
    let x := vaRead u a0.toNat a1.toNat (max 64 (fieldAt (vaRead u a0.toNat a1.toNat 64) 28 4))
    let saved := ((u.written.find? fun e => e.1 == x).map Prod.snd).getD (Config.openRecord x)
    exec (.restore f a0 a1 a2 a3) s = .next (if restoreStatus (ctxOf s a0.toNat) x = 0 then
      completeCmd (loadSaved u a0.toNat { saved with step := BitVec.ofNat 64 (fieldAt x 40 8) }) f 0
      else completeCmd u f (restoreStatus (ctxOf s a0.toNat) x)) := by
  have hops : namedBits (argsOf a0 a1 a2 a3) 0x3FF allBits 0 0 = true :=
    namedBits_of (within64_ctx hc) (within64_all a1) (within64_zero h2) (within64_zero h3)
  rw [exec_restore, execRestore, command_served hs a0 a1 a2 a3 hp, serve_deployed hs a0 a1 a2 a3 hops]
  refine congrArg _ ((onCtx_holds h (ctxs_serving s f a0 a1 a2 a3) (by simpa using hst) _).trans ?_)
  dsimp only [argsOf, ctxOf_serving]
  split
  next h0 => rw [if_pos h0]
  next hne => rw [if_neg hne]
end

theorem step_loadSaved (s : State) (ctx : Nat) (x : Saved) : (ctxOf (loadSaved s ctx x) ctx).step = x.step := by
  unfold loadSaved
  dsimp only
  rw [ctxOf_setCtx]
theorem hallStep_loadSaved (s : State) (ctx : Nat) (x : Saved) : (Map.look (loadSaved s ctx x).hall.repl.ctxs ctx {}).step = x.step := by
  unfold loadSaved
  dsimp only
  rw [setCtx_hall, foldl_keeps State.hall fun _ _ => setKern_hall _ _ _]
  exact congrArg CtxRow.step (look_put_same _ _ _ _)

theorem checkpoints_records : Statements.Checkpoints := by
  intro s f a0 a1 a2 a3 st ctx u n r x saved hs hc
  refine ⟨fun h hsmall hp => ?_, fun h hbig hmap hp => ?_, fun h hbig hmap hp => ?_, ⟨makeRecord_length u ctx a3.toNat, ?_⟩,
    fun hst h h2 h3 => ⟨fun hbad hp => ?_, fun hgood hp => ?_⟩⟩
  · exact ⟨_, (exec_ckpt_suspended hs hp a1 a2 a3 hc h).trans (congrArg _ (if_pos hsmall)), rfl⟩
  · exact ⟨_, (exec_ckpt_suspended hs hp a1 a2 a3 hc h).trans (congrArg _ ((if_neg (Nat.not_lt.2 hbig)).trans (if_pos hmap))), rfl⟩
  · exact ⟨_, (exec_ckpt_suspended hs hp a1 a2 a3 hc h).trans (congrArg _ ((if_neg (Nat.not_lt.2 hbig)).trans (if_neg (by simp [u, n, ctx] at hmap; simp [hmap])))), rfl⟩
  · obtain ⟨hmark, hstep, htag⟩ := makeRecord_fields u ctx a3.toNat
    exact ⟨hmark, hstep, htag.trans (Nat.mod_eq_of_lt a3.isLt)⟩
  · exact ⟨_, (exec_restore_holds hs hp a1 a2 a3 hc hst h h2 h3).trans (congrArg _ (if_neg hbad)), rfl⟩
  · refine ⟨_, (exec_restore_holds hs hp a1 a2 a3 hc hst h h2 h3).trans (congrArg _ (if_pos hgood)), completed_completeCmd _ _ _, ?_, ?_, ?_⟩
    · rw [ctxOf_completeCmd, step_loadSaved]
    · rw [hall_completeCmd, hallStep_loadSaved]
    · rw [gangs_completeCmd]

/-! ### Claims -/

theorem ownerOf_setClaim (s : State) (ctx cls o : Nat) (h : cls ≠ 0x22 ∧ cls ≠ 0x23) : ownerOf (ctxOf (setClaim s ctx cls o) ctx) cls = o := by
  simp only [setClaim, ctxOf_setCtx, ownerOf, claimOwner, look_put_same]
  exact if_neg (by omega)
theorem ownerOf_setClaim_other (s : State) (ctx cls o : Nat) {x : Nat} (h : x ≠ cls) :
    ownerOf (ctxOf (setClaim s ctx cls o) ctx) x = ownerOf (ctxOf s ctx) x := by
  simp only [setClaim, ctxOf_setCtx, ownerOf, claimOwner, look_put_other _ _ _ h]
theorem ctxOf_setClaim_other (s : State) {ctx : Nat} (cls o : Nat) {x : Nat} (h : x ≠ ctx) : ctxOf (setClaim s ctx cls o) x = ctxOf s x :=
  ctxOf_setCtx_other s _ h
/-- A class whose owner is not the hardware is none of the two that always are. -/
theorem class_of_owner {c : Ctx} {cls : Nat} (h : ownerOf c cls ≠ 4) : cls ≠ 0x22 ∧ cls ≠ 0x23 := by
  refine ⟨fun h22 => h (if_pos (.inl h22)), fun h23 => h (if_pos (.inr h23))⟩

section
variable {s : State} {f : Nat} (hs : Serves s f) (hp : s.pkg.power = true) {a0 a1 : Addr} (a2 a3 : Addr) (hc : a0.toNat < 1024)
  (hcls : a1.toNat < 256) {st : CtxState} (hst : st ∈ liveStates) (h : Holds s f a0.toNat st)
include hs hp hc hcls hst h
theorem exec_claim_holds (h2 : a2.toNat < 8) (h3 : a3 = 0) :
    let u := serving s f a0 a1 a2 a3
    exec (.claim f a0 a1 a2 a3) s = .next (if claimClass a1.toNat = false ∨ (a2.toNat ≠ 2 ∧ a2.toNat ≠ 3) then completeCmd u f 4
      else if ownerOf (ctxOf s a0.toNat) a1.toNat ≠ 0 then completeCmd u f 9
      else completeCmd (setClaim u a0.toNat a1.toNat a2.toNat) f 0) := by
  have hops : namedBits (argsOf a0 a1 a2 a3) 0x3FF 0xFF 0x7 0 = true :=
    namedBits_of (within64_ctx hc) (within64_low (k := 8) hcls) (within64_low (k := 3) h2) (within64_zero h3)
  rw [exec_claim, execClaim, command_served hs a0 a1 a2 a3 hp, serve_deployed hs a0 a1 a2 a3 hops]
  exact congrArg _ (onCtx_holds h (ctxs_serving s f a0 a1 a2 a3) hst _)
theorem exec_unclaim_holds (h2 : a2 = 0) (h3 : a3 = 0) :
    let u := serving s f a0 a1 a2 a3
    exec (.unclaim f a0 a1 a2 a3) s = .next (if claimClass a1.toNat = false then completeCmd u f 4
      else if ownerOf (ctxOf s a0.toNat) a1.toNat = 1 ∨ ownerOf (ctxOf s a0.toNat) a1.toNat = 2 then
        completeCmd (setClaim u a0.toNat a1.toNat 0) f 0
      else completeCmd u f 1) := by
  have hops : namedBits (argsOf a0 a1 a2 a3) 0x3FF 0xFF 0 0 = true :=
    namedBits_of (within64_ctx hc) (within64_low (k := 8) hcls) (within64_zero h2) (within64_zero h3)
  rw [exec_unclaim, execUnclaim, command_served hs a0 a1 a2 a3 hp, serve_deployed hs a0 a1 a2 a3 hops]
  exact congrArg _ (onCtx_holds h (ctxs_serving s f a0 a1 a2 a3) hst _)
end

theorem claims : Statements.Claims := by
  intro s f a0 a1 a2 a3 st ctx cls c u hs hc hcls h3 hst h
  have hgood : claimClass cls = true → a2.toNat = 2 ∨ a2.toNat = 3 → ¬ (claimClass a1.toNat = false ∨ (a2.toNat ≠ 2 ∧ a2.toNat ≠ 3)) := by
    rintro hok h23 (hn | ⟨hn2, hn3⟩)
    · exact absurd hok (by simp [cls, hn])
    · exact h23.elim hn2 hn3
  refine ⟨fun h2 hbad hp => ?_, fun hok h23 => ⟨fun hown hp => ?_, fun hown hp => ?_⟩, fun h2 hok => ⟨fun hown hp => ?_, fun h1 h2' hp => ?_⟩⟩
  · exact ⟨_, (exec_claim_holds hs hp a2 a3 hc hcls hst h h2 h3).trans (congrArg _ (if_pos hbad)), rfl⟩
  · exact ⟨_, (exec_claim_holds hs hp a2 a3 hc hcls hst h (by omega) h3).trans
      (congrArg _ ((if_neg (hgood hok h23)).trans (if_pos hown))), rfl⟩
  · have hkind := class_of_owner (c := c) (cls := cls) (by rw [hown]; decide)
    refine ⟨_, (exec_claim_holds hs hp a2 a3 hc hcls hst h (by omega) h3).trans
      (congrArg _ ((if_neg (hgood hok h23)).trans (if_neg (not_not_intro hown)))), completed_completeCmd _ _ _, ?_, fun x hx => ?_, fun x hx => ?_⟩
    · rw [ctxOf_completeCmd, ownerOf_setClaim _ _ _ _ hkind]
    · rw [ctxOf_completeCmd, ownerOf_setClaim_other _ _ _ _ hx, ctxOf_serving]
    · rw [ctxOf_completeCmd, ctxOf_setClaim_other _ _ _ hx, ctxOf_serving]
  · have hkind := class_of_owner (c := c) (cls := cls) (by omega)
    refine ⟨_, (exec_unclaim_holds hs hp a2 a3 hc hcls hst h h2 h3).trans
      (congrArg _ ((if_neg (by simp [cls] at hok; simp [hok])).trans (if_pos hown))), completed_completeCmd _ _ _, ?_, fun x hx => ?_⟩
    · rw [ctxOf_completeCmd, ownerOf_setClaim _ _ _ _ hkind]
    · rw [ctxOf_completeCmd, ownerOf_setClaim_other _ _ _ _ hx, ctxOf_serving]
  · exact ⟨_, (exec_unclaim_holds hs hp a2 a3 hc hcls hst h h2 h3).trans
      (congrArg _ ((if_neg (by simp [cls] at hok; simp [hok])).trans (if_neg (not_or.2 ⟨h1, h2'⟩)))), rfl⟩

/-- Settles O50: checkpoints by the first condition that fails, and the claim table by a class's owner. -/
theorem checkpoints : Obligations.Checkpoints := ⟨checkpoints_records, claims⟩

end Sys2Proof.Machine
end

