-- ==== Sys2Proof/Proofs/Updates.lean ====
section
/-!
PROOFS. Proofs/Updates.lean: live updates (R379, R385), failovers (R378), and the first heartbeat under an image (R381).
-/
namespace Sys2Proof.Machine

/-! ### UPDATE -/

theorem measure_measureImage (s : State) (reg : Nat) (img : List Byte) : Map.look (measureImage s reg img).pkg.measure reg 0 = Config.shake256 img := by
  simp [measureImage, setPkg]
/-- The wings swapped: no update is left, and the other wing is active. -/
theorem swapWings_facts (s : State) (v : Update) : Completed (swapWings s v) v.fn 0 ∧ (swapWings s v).pkg.update = none ∧
    (swapWings s v).pkg.eastActive = !s.pkg.eastActive := by
  refine ⟨completed_completeCmd _ _ _, ?_, ?_⟩ <;>
    (unfold swapWings; dsimp only; rw [pkg_completeCmd]; simp only [flushNotes]; split <;> rfl)

section
variable {s : State} {f : Nat} (hs : Serves s f) (hp : s.pkg.power = true) (a0 a1 a2 a3 : Addr)
  (hops : namedBits (argsOf a0 a1 a2 a3) allBits 0xFFFFFFFF 0x33 0 = true)
include hs hp hops
theorem exec_update_serves :
    let u := serving s f a0 a1 a2 a3
    exec (.update f a0 a1 a2 a3) s = .next (if f ≠ 0 ∨ a2.toNat % 4 = 3 then completeCmd u f 1
      else if a0.toNat % 64 ≠ 0 ∨ ((Map.look s.ldevs 0 {}).windows.any fun w => decide (w.1 ≤ a0.toNat) && decide (a0.toNat + a1.toNat ≤ w.1 + w.2)) = false
      then completeCmd u f 4
      else startUpdate u f (argsOf a0 a1 a2 a3)) := by
  have hcore := hs.2.2.1
  have hnone : s.pkg.update = none := by
    cases hu : s.pkg.update with
    | none => rfl
    | some v => simp [coreBusy, hu] at hcore
  rw [exec_update, execUpdate, if_neg (by simp [hnone]), command_served hs a0 a1 a2 a3 hp]
  exact congrArg _ (serve_deployed hs a0 a1 a2 a3 hops _)
end

/-- What an accepted slot's image brings, by the kind of the slot. -/
theorem startUpdate_eq (s : State) (f : Nat) (a : Args) :
    let img := homeBytes s .host a.a0 a.a1
    startUpdate s f a = if imageOk s (a.a2 % 4) img = false then completeCmd s f 0x0B
      else if a.a2 % 4 = 0 then
        if Config.imageTable img ≠ s.pkg.tableMajor then completeCmd s f 0x0C
        else tryUpdate (setPkg s { s.pkg with update := some { fn := f, image := img } })
      else if a.a2 % 4 = 1 then completeCmd (measureImage (setPkg s { s.pkg with secNext := img }) 2 img) f 0
      else completeCmd (measureImage (setSvc s (a.a2 / 16 % 4) { svcOf s (a.a2 / 16 % 4) with newImage := some img }) (3 + a.a2 / 16 % 4) img) f 0 := by
  unfold startUpdate
  dsimp only
  refine ite_congr rfl (fun _ => rfl) fun _ => ?_
  split
  next h => rw [if_pos h]
  next h => rw [if_neg (by omega), if_pos h]
  next h0 h1 => rw [if_neg h0, if_neg h1]
theorem tryUpdate_of_some {s : State} {v : Update} (h : s.pkg.update = some v) : tryUpdate s = if portsQuiet s = true then swapWings s v else s := by
  simp [tryUpdate, h]

theorem updates_images : Statements.Updates := by
  intro s f a0 a1 a2 a3 v u img kind die i inWindow
  have hstart (hs : Serves s f) (hops : namedBits (argsOf a0 a1 a2 a3) (2 ^ 64 - 1) 0xFFFFFFFF 0x33 0 = true) (hf : f = 0) (hk : kind ≠ 3)
      (h64 : a0.toNat % 64 = 0) (hw : inWindow = true) (hp : s.pkg.power = true) : exec i s = .next (startUpdate u f (argsOf a0 a1 a2 a3)) := by
    have hgo : ¬ (f ≠ 0 ∨ a2.toNat % 4 = 3) := fun h => h.elim (fun h => h hf) hk
    have hin : ¬ (a0.toNat % 64 ≠ 0 ∨ inWindow = false) := fun h => h.elim (fun h => h h64) (fun h => by simp [hw] at h)
    exact (exec_update_serves hs hp a0 a1 a2 a3 hops).trans (congrArg _ ((if_neg hgo).trans (if_neg hin)))
  have hok : imageOk s kind img = true → ¬ (imageOk u ((argsOf a0 a1 a2 a3).a2 % 4) (homeBytes u .host (argsOf a0 a1 a2 a3).a0 (argsOf a0 a1 a2 a3).a1) = false) :=
    fun h hn => absurd (h.symm.trans hn) (by decide)
  have hkind {n m : Nat} (h : kind = n) (hne : n ≠ m) : ¬ (a2.toNat % 4 = m) := fun hm => hne (h.symm.trans hm)
  have hports (x : Pkg) : portsQuiet (setPkg u x) = portsQuiet s := rfl
  have hwing (hi : imageOk s kind img = true) (h0 : kind = 0) (ht : Config.imageTable img = s.pkg.tableMajor) :
      startUpdate u f (argsOf a0 a1 a2 a3) = let w := setPkg u { u.pkg with update := some { fn := f, image := img } }
        if portsQuiet w = true then swapWings w { fn := f, image := img } else w :=
    ((startUpdate_eq u f _).trans ((if_neg (hok hi)).trans ((if_pos h0).trans (if_neg (not_not_intro ht))))).trans (tryUpdate_of_some rfl)
  have hagain (hv : s.pkg.update = some v) (hf : v.fn = f) (hp : s.pkg.power = true) :
      exec i s = .next (if portsQuiet s = true then swapWings s v else s) := by
    rw [← tryUpdate_of_some hv]
    exact if_pos (by simp [hp, hv, hf])
  refine ⟨fun hs hops => ⟨fun h hp => ?_, fun hf hk => ⟨fun h hp => ?_, fun h64 hw => ⟨fun hi hp => ?_, fun hi h1 hp => ?_, fun hi h2 hp => ?_,
    fun hi h0 ht hp => ?_, fun hi h0 ht => ⟨fun hq hp => ?_, fun hq hp => ?_⟩⟩⟩⟩, fun hv => ⟨fun hf hq hp => ?_, fun hf hq hp => ?_, fun hp => ?_⟩, fun hn hp => ?_⟩
  · exact ⟨_, (exec_update_serves hs hp a0 a1 a2 a3 hops).trans (congrArg _ (if_pos h)), rfl⟩
  · have hgo : ¬ (f ≠ 0 ∨ a2.toNat % 4 = 3) := fun h => h.elim (fun h => h hf) hk
    exact ⟨_, (exec_update_serves hs hp a0 a1 a2 a3 hops).trans (congrArg _ ((if_neg hgo).trans (if_pos h))), rfl⟩
  · exact ⟨_, hstart hs hops hf hk h64 hw hp, (startUpdate_eq u f (argsOf a0 a1 a2 a3)).trans (if_pos hi)⟩
  · have heq : startUpdate u f (argsOf a0 a1 a2 a3) = completeCmd (measureImage (setPkg u { u.pkg with secNext := img }) 2 img) f 0 :=
      (startUpdate_eq u f _).trans ((if_neg (hok hi)).trans ((if_neg (hkind h1 (by decide))).trans (if_pos h1)))
    refine ⟨_, hstart hs hops hf hk h64 hw hp, ?_⟩
    rw [heq]
    exact ⟨completed_completeCmd _ _ _, rfl, rfl, measure_measureImage _ 2 img⟩
  · have heq : startUpdate u f (argsOf a0 a1 a2 a3) =
        completeCmd (measureImage (setSvc u die { svcOf u die with newImage := some img }) (3 + die) img) f 0 :=
      (startUpdate_eq u f _).trans ((if_neg (hok hi)).trans ((if_neg (hkind h2 (by decide))).trans (if_neg (hkind h2 (by decide)))))
    refine ⟨_, hstart hs hops hf hk h64 hw hp, ?_⟩
    rw [heq]
    have hsvc : svcOf (completeCmd (measureImage (setSvc u die { svcOf u die with newImage := some img }) (3 + die) img) f 0) die =
        { svcOf u die with newImage := some img } := look_put_same _ _ _ _
    exact ⟨completed_completeCmd _ _ _, (congrArg Service.newImage hsvc :), (congrArg Service.image hsvc :), measure_measureImage _ (3 + die) img⟩
  · exact ⟨_, hstart hs hops hf hk h64 hw hp, (startUpdate_eq u f _).trans ((if_neg (hok hi)).trans ((if_pos h0).trans (if_pos ht)))⟩
  · have heq := hwing hi h0 ht
    rw [if_neg (by simp [hports, hq])] at heq
    refine ⟨_, hstart hs hops hf hk h64 hw hp, ?_⟩
    rw [heq]
    exact ⟨rfl, rfl, congrArg Fn.busy (fnOf_setFn s f _)⟩
  · have heq := hwing hi h0 ht
    rw [if_pos (by rw [hports, hq])] at heq
    refine ⟨_, hstart hs hops hf hk h64 hw hp, ?_⟩
    rw [heq]
    exact swapWings_facts _ { fn := f, image := img }
  · exact ⟨_, (hagain hv hf hp).trans (congrArg _ (if_pos hq)), rfl⟩
  · exact ⟨_, (hagain hv hf hp).trans (congrArg _ (if_neg (by simp [hq]))), rfl⟩
  · refine ⟨completeCmd (flushNotes (setPkg s { s.pkg with update := none })) v.fn 0x0D, ?_, completed_completeCmd _ _ _, rfl, rfl⟩
    simp [execUpdateQuiesceTimeout, hp, hv]
  · exact ⟨s, by simp [execUpdateQuiesceTimeout, hp, hn], rfl⟩

/-! ### Failover -/

/-- A step that, of all functions, only completes commands with FAILOVER. -/
def FailsOver (s t : State) : Prop := ∀ f, Completed s f 0x0A → Completed t f 0x0A
theorem failsOver_completeCmd (s : State) (g : Nat) : FailsOver s (completeCmd s g 0x0A) := by
  intro f h
  by_cases hf : f = g
  · rw [hf]; exact completed_completeCmd s g 0x0A
  · unfold Completed completeCmd
    rw [fnOf_setFn_other s _ hf]
    exact h
theorem FailsOver.foldl {α : Type} {g : State → α → State} (hg : ∀ s a, FailsOver s (g s a)) (l : List α) : ∀ s, FailsOver s (l.foldl g s) := by
  induction l with
  | nil => exact fun _ _ h => h
  | cons a l ih => exact fun s f h => ih _ f (hg s a f h)
/-- A loop of such steps completes with FAILOVER what any of them does. -/
theorem completed_foldl {α : Type} {g : State → α → State} (hg : ∀ s a, FailsOver s (g s a)) {f : Nat} {a : α}
    (ha : ∀ s, Completed (g s a) f 0x0A) (l : List α) (h : a ∈ l) (s : State) : Completed (l.foldl g s) f 0x0A := by
  obtain ⟨l₁, l₂, rfl⟩ := List.append_of_mem h
  rw [List.foldl_append, List.foldl_cons]
  exact FailsOver.foldl hg l₂ _ f (ha _)

theorem postEvent_rest (s : State) (e : HEvent) : ∃ h, postEvent s e = setHall s h := by
  unfold postEvent
  dsimp only
  split
  · exact ⟨_, rfl⟩
  · exact ⟨_, rfl⟩
theorem stopDraining_rest (l : List Nat) (s : State) : ∃ m, l.foldl (fun s q => setGang s q { gangOf s q with draining := false }) s = { s with gangs := m } := by
  induction l generalizing s with
  | nil => exact ⟨_, rfl⟩
  | cons q l ih =>
    obtain ⟨m, hm⟩ := ih (setGang s q { gangOf s q with draining := false })
    exact ⟨m, hm⟩
/-- A SUSPEND begun and not ended is completed with FAILOVER, its context no longer waiting for it. -/
theorem undoSuspend_some (s : State) {c : Nat} {x : Ctx} {f : Nat} (h : x.suspendFn = some f) :
    ∃ m h', undoSuspend s (c, x) = completeCmd { setCtx s c { ctxOf s c with suspendFn := none } with gangs := m, hall := h' } f 0x0A := by
  unfold undoSuspend
  simp only [h]
  obtain ⟨m, hm⟩ := stopDraining_rest (gangsOf (setCtx s c { ctxOf s c with suspendFn := none }) c) (setCtx s c { ctxOf s c with suspendFn := none })
  rw [hm]
  obtain ⟨h', hh⟩ := postEvent_rest { setCtx s c { ctxOf s c with suspendFn := none } with gangs := m }
    { kind := 4, ctx := c, world := x.world, pay := payOf [] }
  rw [hh]
  exact ⟨m, h', rfl⟩
theorem undoSuspend_none (s : State) {e : Nat × Ctx} (h : e.2.suspendFn = none) : undoSuspend s e = s := by
  unfold undoSuspend
  simp only [h]
theorem undoSuspend_rest (s : State) (e : Nat × Ctx) :
    (undoSuspend s e).pkg = s.pkg ∧ (undoSuspend s e).agenda = s.agenda ∧ FailsOver s (undoSuspend s e) := by
  obtain ⟨c, x⟩ := e
  cases h : x.suspendFn with
  | none => rw [undoSuspend_none s h]; exact ⟨rfl, rfl, fun _ h => h⟩
  | some f =>
    obtain ⟨m, h', heq⟩ := undoSuspend_some s (c := c) h
    rw [heq]
    exact ⟨rfl, rfl, fun g hg => failsOver_completeCmd _ f g hg⟩
theorem completed_undoSuspend (s : State) {e : Nat × Ctx} {f : Nat} (h : e.2.suspendFn = some f) : Completed (undoSuspend s e) f 0x0A := by
  obtain ⟨m, h', heq⟩ := undoSuspend_some s (c := e.1) h
  rw [heq]
  exact completed_completeCmd _ f 0x0A

/-- What undoing leaves of a context: all but the SUSPEND, which it never begins. -/
theorem undoSuspend_ctx (s : State) (e : Nat × Ctx) (c : Nat) :
    { ctxOf (undoSuspend s e) c with suspendFn := none } = { ctxOf s c with suspendFn := none } ∧
    ((ctxOf s c).suspendFn = none → (ctxOf (undoSuspend s e) c).suspendFn = none) ∧
    (e.1 = c → e.2.suspendFn.isSome = true → (ctxOf (undoSuspend s e) c).suspendFn = none) := by
  obtain ⟨k, x⟩ := e
  cases h : x.suspendFn with
  | none => rw [undoSuspend_none s h]; exact ⟨rfl, id, fun _ hs => by simp at hs⟩
  | some f =>
    obtain ⟨m, h', heq⟩ := undoSuspend_some s (c := k) h
    have hctx : ctxOf (undoSuspend s (k, x)) c = ctxOf (setCtx s k { ctxOf s k with suspendFn := none }) c := by rw [heq]; rfl
    rw [hctx]
    by_cases hk : c = k
    · subst hk; simp
    · rw [ctxOf_setCtx_other s _ hk]
      exact ⟨rfl, id, fun he => absurd he.symm hk⟩
theorem undoAll_ctx (l : List (Nat × Ctx)) (c : Nat) : ∀ s : State,
    { ctxOf (l.foldl undoSuspend s) c with suspendFn := none } = { ctxOf s c with suspendFn := none } ∧
    ((ctxOf s c).suspendFn = none ∨ (∃ e ∈ l, e.1 = c ∧ e.2.suspendFn.isSome = true) → (ctxOf (l.foldl undoSuspend s) c).suspendFn = none) := by
  induction l with
  | nil => exact fun s => ⟨rfl, fun h => h.resolve_right (by simp)⟩
  | cons e l ih =>
    intro s
    obtain ⟨hrest, hnone, hthis⟩ := undoSuspend_ctx s e c
    obtain ⟨ihrest, ihnone⟩ := ih (undoSuspend s e)
    refine ⟨ihrest.trans hrest, fun h => ihnone ?_⟩
    rcases h with h | ⟨x, hx, hxc, hxs⟩
    · exact .inl (hnone h)
    · rcases List.mem_cons.1 hx with rfl | hx
      · exact .inl (hthis hxc hxs)
      · exact .inr ⟨x, hx, hxc, hxs⟩
/-- After every context's SUSPEND is undone, none has one. -/
theorem undoAll_of_ctxs (s u : State) (h : u.ctxs = s.ctxs) (c : Nat) :
    (ctxOf (s.ctxs.foldl undoSuspend u) c).suspendFn = none ∧
    { ctxOf (s.ctxs.foldl undoSuspend u) c with suspendFn := none } = { ctxOf s c with suspendFn := none } := by
  have hctx : ctxOf u c = ctxOf s c := by unfold ctxOf; rw [h]
  obtain ⟨hrest, hnone⟩ := undoAll_ctx s.ctxs c u
  refine ⟨hnone ?_, by rw [hrest, hctx]⟩
  cases hs : (ctxOf u c).suspendFn with
  | none => exact .inl rfl
  | some f =>
    refine .inr ?_
    rw [hctx] at hs
    cases hfind : Map.find s.ctxs c with
    | none => simp [ctxOf, look_of_find_none hfind] at hs
    | some x =>
      refine ⟨(c, x), mem_of_find hfind, rfl, ?_⟩
      rw [ctxOf, look_of_find hfind] at hs
      simp [hs]

/-- The commands that a failed wing had passed on and not begun. -/
def lostCommands (s : State) : List Instr := if s.pkg.noWing = true then s.pkg.lostCmds else s.pkg.waitingCmds
/-- The package once the standby wing has taken over. -/
def takenOver (s : State) : State :=
  setPkg s { s.pkg with eastActive := !s.pkg.eastActive, noWing := false, lostCmds := [], update := none
                        waitingCmds := if s.pkg.noWing = true then s.pkg.waitingCmds else [] }
/-- The takeover with every lost command and every SUSPEND completed. -/
def failedOver (s : State) : State :=
  s.ctxs.foldl undoSuspend ((lostCommands s).foldl (fun s c => completeCmd s (cmdFn c) 0x0A) (takenOver s))
/-- A live update, where there is one, completed with FAILOVER. -/
def updateLost (s : State) (v : Option Update) : State := match v with
  | some v => completeCmd s v.fn 0x0A
  | none => s
theorem execWingFailover_eq {s : State} (hp : s.pkg.power = true) : execWingFailover s =
    .next (if s.pkg.standbyDown = true then setPkg s { s.pkg with noWing := true } else flushNotes (updateLost (failedOver s) s.pkg.update)) := by
  unfold execWingFailover
  rw [if_pos hp]
  split
  · rfl
  · dsimp only
    cases h : s.pkg.update <;> rfl

theorem updateLost_rest (s : State) (v : Option Update) : (updateLost s v).pkg = s.pkg ∧ (updateLost s v).agenda = s.agenda ∧
    (∀ c, ctxOf (updateLost s v) c = ctxOf s c) ∧ FailsOver s (updateLost s v) := by
  cases v with
  | none => exact ⟨rfl, rfl, fun _ => rfl, fun _ h => h⟩
  | some v => exact ⟨rfl, rfl, fun _ => rfl, failsOver_completeCmd s v.fn⟩
/-- Completing the lost commands writes their functions' registers. -/
theorem completeLost_rest (l : List Instr) (s : State) : (l.foldl (fun s c => completeCmd s (cmdFn c) 0x0A) s).pkg = s.pkg ∧
    (l.foldl (fun s c => completeCmd s (cmdFn c) 0x0A) s).agenda = s.agenda ∧ (l.foldl (fun s c => completeCmd s (cmdFn c) 0x0A) s).ctxs = s.ctxs :=
  ⟨foldl_keeps State.pkg (f := fun s c => completeCmd s (cmdFn c) 0x0A) (fun _ _ => rfl) l s,
    foldl_keeps State.agenda (f := fun s c => completeCmd s (cmdFn c) 0x0A) (fun _ _ => rfl) l s,
    foldl_keeps State.ctxs (f := fun s c => completeCmd s (cmdFn c) 0x0A) (fun _ _ => rfl) l s⟩
theorem failedOver_rest (s : State) : (failedOver s).pkg = (takenOver s).pkg ∧ (failedOver s).agenda = s.agenda := by
  obtain ⟨hpkg, hagenda, -⟩ := completeLost_rest (lostCommands s) (takenOver s)
  exact ⟨(foldl_keeps State.pkg (f := undoSuspend) (fun s e => (undoSuspend_rest s e).1) _ _).trans hpkg,
    (foldl_keeps State.agenda (f := undoSuspend) (fun s e => (undoSuspend_rest s e).2.1) _ _).trans hagenda⟩
theorem failedOver_ctx (s : State) (c : Nat) : (ctxOf (failedOver s) c).suspendFn = none ∧
    { ctxOf (failedOver s) c with suspendFn := none } = { ctxOf s c with suspendFn := none } :=
  undoAll_of_ctxs s _ (completeLost_rest (lostCommands s) (takenOver s)).2.2 c
theorem failedOver_completes (s : State) : (∀ e ∈ s.ctxs, ∀ f, e.2.suspendFn = some f → Completed (failedOver s) f 0x0A) ∧
    ∀ i ∈ lostCommands s, Completed (failedOver s) (cmdFn i) 0x0A := by
  have hundo (s : State) (e : Nat × Ctx) : FailsOver s (undoSuspend s e) := (undoSuspend_rest s e).2.2
  refine ⟨fun e he f hf => completed_foldl hundo (fun s => completed_undoSuspend s hf) _ he _, fun i hi => ?_⟩
  exact FailsOver.foldl hundo _ _ _ (completed_foldl (fun s c => failsOver_completeCmd s (cmdFn c)) (fun s => completed_completeCmd s _ _) _ hi _)

theorem flushNotes_rest (s : State) : (flushNotes s).pkg = { s.pkg with waitingNotes := [] } ∧
    (flushNotes s).agenda = s.agenda ++ s.pkg.waitingNotes.map (fun n => .notify n.1 n.2.1 n.2.2) ∧
    (∀ c, ctxOf (flushNotes s) c = ctxOf s c) ∧ ∀ {f st}, Completed s f st → Completed (flushNotes s) f st :=
  ⟨rfl, rfl, fun _ => rfl, fun h => h⟩

theorem wingEvents : Statements.WingEvents := by
  intro s k lost
  refine ⟨fun hp => ?_, fun hd hp => ?_, fun hd hp => ?_, fun hi hl hp => ?_, fun h hp => ?_⟩
  · exact ⟨_, (if_pos hp).trans (if_pos rfl), rfl⟩
  · exact ⟨_, (execWingFailover_eq hp).trans (congrArg _ (if_pos hd)), rfl⟩
  · obtain ⟨hupkg, huagenda, huctx, hufails⟩ := updateLost_rest (failedOver s) s.pkg.update
    obtain ⟨hpkg, hagenda⟩ := failedOver_rest s
    obtain ⟨hsus, hlost⟩ := failedOver_completes s
    refine ⟨_, (execWingFailover_eq hp).trans (congrArg _ (if_neg (by simp [hd]))), ?_⟩
    obtain ⟨hcp, hca, hcc, hcf⟩ := flushNotes_rest (updateLost (failedOver s) s.pkg.update)
    rw [hupkg, hpkg] at hcp
    have hkeeps : FailsOver (failedOver s) (flushNotes (updateLost (failedOver s) s.pkg.update)) := fun g hg => hcf (hufails g hg)
    refine ⟨congrArg Pkg.eastActive hcp, congrArg Pkg.noWing hcp, congrArg Pkg.waitingCmds hcp, congrArg Pkg.lostCmds hcp,
      congrArg Pkg.update hcp, congrArg Pkg.waitingNotes hcp, ?_, fun c => ?_, fun e he f hf => hkeeps _ (hsus e he f hf),
      (congrArg Pkg.minVersion hcp :), (congrArg Pkg.world hcp :), fun i hi => hkeeps _ (hlost i hi), fun v hv => hcf ?_⟩
    · rw [hca, huagenda, hagenda, hupkg, hpkg]; rfl
    · rw [hcc, huctx]; exact failedOver_ctx s c
    · rw [hv]; exact completed_completeCmd _ v.fn 0x0A
  · refine ⟨_, (if_pos hp).trans (if_neg (by simp [hi, hl])), rfl, rfl, rfl⟩
  · exact ⟨s, (if_pos hp).trans (if_pos (by simpa using h)), rfl⟩

/-- Settles O51: UPDATE by the kind of its image and the ports, failover as a takeover that completes what was lost. -/
theorem updates : Obligations.Updates := ⟨updates_images, wingEvents⟩

end Sys2Proof.Machine
end

