-- ==== Sys2Proof/Proofs/Settling.lean ====
section
/-!
PROOFS. Proofs/Settling.lean: what settling a grid barrier, waking groups and ending a copy leave unchanged (R253, R279, R357). Settling a
grid changes kernels and sends; waking changes groups only; an ended copy is a done command of its block.
-/
namespace Sys2Proof.Machine

/-- A kernel without the count of its grid barrier. -/
def gridless (x : Kern) : Kern := { x with episode := 0, rankArr := [], sentArr := [], met := {}, join := {} }

/-- The second state differs from the first in nothing but the counts of its grid barriers and what was sent. -/
structure Settles (s t : State) : Prop where
  sends : Sends { s with kerns := t.kerns } t
  kern : ∀ k, gridless (kernOf t k) = gridless (kernOf s k)

theorem Settles.refl (s : State) : Settles s s := ⟨Sends.refl s, fun _ => rfl⟩
theorem Settles.of_sends {s t : State} (h : Sends s t) : Settles s t where
  sends := by rw [h.kerns]; exact h
  kern k := by rw [kernOf, h.kerns]; rfl
theorem Sends.with_kerns {s t : State} (h : Sends s t) (m : Map Kern) : Sends { s with kerns := m } { t with kerns := m } where
  rest := by rw [h.rest]
  ctx c := h.ctx c
  port p := h.port p
theorem Settles.trans {s t u : State} (h : Settles s t) (k : Settles t u) : Settles s u where
  sends := Sends.trans (h.sends.with_kerns u.kerns) k.sends
  kern j := (k.kern j).trans (h.kern j)
theorem Settles.ite {s t u : State} {p : Prop} [Decidable p] (ht : Settles s t) (hu : Settles s u) : Settles s (if p then t else u) := by
  split <;> assumption
theorem Settles.foldl {α : Type} {f : State → α → State} (hf : ∀ s a, Settles s (f s a)) (l : List α) : ∀ s, Settles s (l.foldl f s) := by
  induction l with
  | nil => exact Settles.refl
  | cons a l ih => exact fun s => (hf s a).trans (ih _)

section
variable {s t : State} (h : Settles s t)
include h
theorem Settles.rest : t = { s with kerns := t.kerns, links := { s.links with ports := t.links.ports, ch0Tx := t.links.ch0Tx }
                                    ctxs := t.ctxs, out := t.out } := h.sends.rest
theorem Settles.ctx (c : Nat) : ctxOf t c = { ctxOf s c with left := (ctxOf t c).left } := h.sends.ctx c
theorem Settles.blocks : t.blocks = s.blocks := (congrArg State.blocks h.rest :)
theorem Settles.groups : t.groups = s.groups := (congrArg State.groups h.rest :)
theorem Settles.ats : t.ats = s.ats := (congrArg State.ats h.rest :)
theorem Settles.fns : t.fns = s.fns := (congrArg State.fns h.rest :)
theorem Settles.dev : t.dev = s.dev := (congrArg State.dev h.rest :)
theorem Settles.links : t.links = { s.links with ports := t.links.ports, ch0Tx := t.links.ch0Tx } := (congrArg State.links h.rest :)
end

theorem settles_setKern (s : State) (k : Nat) (x : Kern) (hx : gridless x = gridless (kernOf s k)) : Settles s (setKern s k x) where
  sends := Sends.refl _
  kern j := by
    by_cases hj : j = k
    · subst hj; simpa [setKern, kernOf, look_put_same] using hx
    · simp [setKern, kernOf, look_put_other _ _ _ hj]
theorem settles_recordRank (s : State) (k e m r : Nat) : Settles s (recordRank s k e m r) := by
  unfold recordRank
  dsimp only
  split
  · exact Settles.refl s
  · exact settles_setKern s k _ rfl
theorem settles_arriveRanks (s : State) (k e : Nat) : Settles s (arriveRanks s k e) := by
  refine Settles.foldl (fun s p => ?_) _ s
  dsimp only
  split
  · exact (settles_setKern s k _ (by rfl)).trans (Settles.ite (settles_recordRank _ k e _ _) (Settles.of_sends (sends_sendCh0 _ _)))
  · exact Settles.refl s
theorem settles_enterEpisode (s : State) (k e : Nat) : Settles s (enterEpisode s k e) := by
  unfold enterEpisode
  dsimp only
  split
  · exact (settles_setKern s k _ (by rfl)).trans (settles_arriveRanks _ k _)
  · exact Settles.refl s
theorem settles_sendRelease (s : State) (k e : Nat) : Settles s (sendRelease s k e) :=
  Settles.of_sends (Sends.foldl (fun s _ => sends_sendCh0 s _) _ s)
theorem settles_completeGrid (s : State) (k e : Nat) : Settles s (completeGrid s k e) := by
  unfold completeGrid
  dsimp only
  split
  · exact (settles_sendRelease s k e).trans (settles_enterEpisode _ k e)
  · exact Settles.refl s
theorem settles_settleGrid (s : State) (k : Nat) : Settles s (settleGrid s k) :=
  (settles_arriveRanks s k _).trans (settles_completeGrid _ k _)

theorem blocks_settleGrid (s : State) (k : Nat) : (settleGrid s k).blocks = s.blocks := (settles_settleGrid s k).blocks
@[simp] theorem blkOf_settleGrid (s : State) (k b : Nat) : blkOf (settleGrid s k) b = blkOf s b := by
  unfold blkOf
  rw [blocks_settleGrid]

/-- The second state differs from the first in nothing but its groups. -/
def GroupsOnly (s t : State) : Prop := t = { s with groups := t.groups }
theorem GroupsOnly.refl (s : State) : GroupsOnly s s := rfl
theorem GroupsOnly.trans {s t u : State} (h : GroupsOnly s t) (k : GroupsOnly t u) : GroupsOnly s u := by
  rw [GroupsOnly, k, h]
theorem GroupsOnly.foldl {α : Type} {f : State → α → State} (hf : ∀ s a, GroupsOnly s (f s a)) (l : List α) :
    ∀ s, GroupsOnly s (l.foldl f s) := by
  induction l with
  | nil => exact GroupsOnly.refl
  | cons a l ih => exact fun s => (hf s a).trans (ih _)

section
variable {s t : State} (h : GroupsOnly s t)
include h
theorem GroupsOnly.blocks : t.blocks = s.blocks := (congrArg State.blocks h :)
theorem GroupsOnly.links : t.links = s.links := (congrArg State.links h :)
theorem GroupsOnly.ats : t.ats = s.ats := (congrArg State.ats h :)
end

theorem groupsOnly_setGrp (s : State) (g : Nat) (x : Group) : GroupsOnly s (setGrp s g x) := rfl
theorem groupsOnly_noteRead (s : State) (g : Nat) (n : MemName) (a len : Nat) (x : Sight) : GroupsOnly s (noteRead s g n a len x) := by
  unfold noteRead
  cases x <;> rfl
theorem groupsOnly_wakeGroup (n : MemName) (a len : Nat) (s : State) (e : Nat × Group) : GroupsOnly s (wakeGroup n a len s e) := by
  unfold wakeGroup
  split
  · exact GroupsOnly.refl s
  · dsimp only
    split
    · exact (groupsOnly_noteRead s e.1 _ _ 4 .newest).trans (groupsOnly_setGrp _ e.1 _)
    · exact GroupsOnly.refl s
theorem groupsOnly_wakeWords (s : State) (n : MemName) (a len : Nat) : GroupsOnly s (wakeWords s n a len) :=
  GroupsOnly.foldl (groupsOnly_wakeGroup n a len) s.groups s

end Sys2Proof.Machine
end

