-- ==== Sys2Proof/Proofs/BiasFlips.lean ====
section
/-!
PROOFS. Proofs/BiasFlips.lean: bias flips, and ATS invalidations with their time limit (R334, R355, R357, R358). Nothing that aborts a copy,
an operation or a held write brings another one back.
-/
namespace Sys2Proof.Machine

/-! ### Flips -/

theorem execFlip_eq {s : State} (hp : s.pkg.power = true) (f : Nat) (v : Addr) {frame ctx : Nat}
    (hf : frame = bitsOf (flipFields v).toNat 51 16) (hc : ctx = bitsOf (flipFields v).toNat 9 0) :
    execFlip f v s = if (fnOf s f).flipst = 1 then .next s
      else if flipOwned s f ctx frame = false ∨ 2 ≤ (ownOf s frame).bias then .next (setFn s f { fnOf s f with flip := flipFields v, flipst := 3 })
      else if (ownOf s frame).bias = (if bitsOf (flipFields v).toNat 63 63 == 1 then 0 else 1) then
        .next (setFn s f { fnOf s f with flip := flipFields v, flipst := 2 })
      else .next (setFn { setOwn s frame { ownOf s frame with bias := if bitsOf (flipFields v).toNat 63 63 == 1 then 3 else 2 } with
        flips := s.flips ++ [{ fn := f, frame := frame, toDevice := bitsOf (flipFields v).toNat 63 63 == 1
                               cmds := copiesOnFrame (setOwn s frame { ownOf s frame with bias := if bitsOf (flipFields v).toNat 63 63 == 1 then 3 else 2 }) frame }] }
        f { fnOf s f with flip := flipFields v, flipst := 1 }) := by
  subst hf hc
  exact if_pos hp
/-- The register's reserved bits read zero (R334). -/
theorem flipFields_reserved (v : Addr) : flipFields v &&& 0x7FF000000000FC00 = 0 := by
  rw [flipFields, BitVec.and_assoc]
  exact BitVec.and_zero
theorem bias_other {b : Nat} {d : Bool} (h : b = (if d then 1 else 0)) : ¬ 2 ≤ b ∧ b ≠ (if d then 0 else 1) := by
  cases d <;> simp [h]
theorem execBiasFlipComplete_eq {s : State} (hp : s.pkg.power = true) {frame : Nat} {x : FlipOp}
    (hx : s.flips.find? (fun x => x.frame == frame) = some x) : execBiasFlipComplete frame s =
    if flipReady s x then .next (setFn { setOwn s frame { ownOf s frame with bias := if x.toDevice then 0 else 1 } with
      flips := s.flips.filter fun y => y.frame != frame } x.fn { fnOf s x.fn with flipst := 2 }) else .next s := by
  unfold execBiasFlipComplete
  rw [if_pos hp, hx]
  rfl

theorem biasFlips_flips : Statements.BiasFlips := by
  intro s f frame ctx v x o w toDev
  refine ⟨flipFields_reserved v, fun hframe hctx => ⟨fun h1 hp => ?_, fun h1 h2 hp => ?_, fun h1 h2 h3 hp => ?_, fun h1 h2 h3 hp => ?_⟩,
    fun hx => ⟨fun h hp => ?_, fun h hp => ?_⟩⟩
  · exact ⟨s, (execFlip_eq hp f v hframe hctx).trans (if_pos h1), rfl⟩
  · exact ⟨_, (execFlip_eq hp f v hframe hctx).trans ((if_neg h1).trans (if_pos h2)), rfl⟩
  · have hlow : ¬ (flipOwned s f ctx frame = false ∨ 2 ≤ (ownOf s frame).bias) := by
      have : (ownOf s frame).bias ≤ 1 := by rw [h3]; split <;> decide
      simp [h2]; omega
    exact ⟨_, (execFlip_eq hp f v hframe hctx).trans ((if_neg h1).trans ((if_neg hlow).trans (if_pos h3))), rfl⟩
  · obtain ⟨hlow, hother⟩ := bias_other h3
    refine ⟨_, (execFlip_eq hp f v hframe hctx).trans ((if_neg h1).trans ((if_neg (fun h => h.elim (by simp [h2]) hlow)).trans (if_neg hother))), ?_⟩
    refine ⟨by rw [fnOf_setFn], by rw [fnOf_setFn], ?_, fun y hy => ?_, rfl, rfl⟩
    · exact congrArg Own.bias (look_put_same s.own frame _ _)
    · exact look_put_other s.own _ _ hy
  · exact ⟨s, (execBiasFlipComplete_eq hp hx).trans (if_neg (by simp [h])), rfl⟩
  · refine ⟨_, (execBiasFlipComplete_eq hp hx).trans (if_pos h), ?_, ?_, fun y hy => ?_, rfl⟩
    · exact congrArg Own.bias (look_put_same s.own frame _ _)
    · rw [fnOf_setFn]
    · have := (List.mem_filter.1 hy).2
      simpa using this

/-! ### Invalidations -/

theorem execAtsInvalidation_eq {s : State} (hp : s.pkg.power = true) (ld a n : Nat) :
    let ps := hostPages s ld a n
    let mine := ps.filter fun p => p.2.2
    let cmds := (mine.flatMap fun p => touchingCopies s p.1 p.2.1 1).eraseDups
    let ops := (mine.flatMap fun p => touchingOps s p.1 p.2.1 1).eraseDups
    let held := (mine.flatMap fun p => heldOnPage s p.1 p.2.1).eraseDups
    let u := ps.foldl (fun s p => if p.2.2 then invalidate s p.1 p.2.1 1 else invalidateAll s p.1 p.2.1 1) s
    execAtsInvalidation ld a n s = if cmds.isEmpty && ops.isEmpty && held.isEmpty then .next (emit u (.atsDone ld a n))
      else .next { u with ats := u.ats ++ [{ ld := ld, addr := a, n := n, cmds := cmds, ops := ops, held := held }] } := if_pos hp

/-- What dropping the translations of a page does to the state. -/
def dropped (s : State) (p : Nat × Nat × Bool) : State := if p.2.2 then invalidate s p.1 p.2.1 1 else invalidateAll s p.1 p.2.1 1
theorem dropped_rest (s : State) (p : Nat × Nat × Bool) : (dropped s p).ats = s.ats ∧ (dropped s p).out = s.out := by
  unfold dropped
  split <;> exact ⟨rfl, rfl⟩
theorem tlb_dropped (s : State) (p : Nat × Nat × Bool) :
    (dropped s p).tlb = s.tlb.filter fun e => !(e.ctx == p.1 && decide (p.2.1 ≤ e.page) && decide (e.page < p.2.1 + 1)) := by
  unfold dropped
  split <;> rfl
theorem mem_tlb_dropped {s : State} {p : Nat × Nat × Bool} {e : TlbEntry} (h : e ∈ (dropped s p).tlb) :
    e ∈ s.tlb ∧ ¬ (e.ctx = p.1 ∧ e.page = p.2.1) := by
  rw [tlb_dropped, List.mem_filter] at h
  obtain ⟨hmem, hkept⟩ := h
  refine ⟨hmem, fun ⟨hc, hg⟩ => ?_⟩
  simp [hc, hg] at hkept
theorem mem_tlb_droppedAll (ps : List (Nat × Nat × Bool)) : ∀ (s : State) (e : TlbEntry), e ∈ (ps.foldl dropped s).tlb →
    e ∈ s.tlb ∧ ∀ p ∈ ps, ¬ (e.ctx = p.1 ∧ e.page = p.2.1) := by
  induction ps with
  | nil => exact fun s e h => ⟨h, by simp⟩
  | cons p ps ih =>
    intro s e h
    obtain ⟨hmem, hrest⟩ := ih _ e h
    obtain ⟨hs, hp⟩ := mem_tlb_dropped hmem
    exact ⟨hs, List.forall_mem_cons.2 ⟨hp, hrest⟩⟩

/-! ### The time limit -/

/-- No command of the ring with this number is still to complete. -/
def ringGone (r : Ring) (q : Nat) : Bool := match r.cmds.find? (fun c => c.seq == q) with
  | some c => cmdDone c
  | none => true
theorem cmdGone_eq (s : State) (b q : Nat) : cmdGone s b q = ringGone (blkOf s b).copy q := rfl
theorem find_putCmd (r : Ring) (c : Cmd) (q : Nat) : (putCmd r c).cmds.find? (fun e => e.seq == q) =
    (r.cmds.find? (fun e => e.seq == q)).map fun e => if e.seq = c.seq then c else e := by
  have hseq (e : Cmd) : (if e.seq = c.seq then c else e).seq = e.seq := by
    split
    · next h => exact h.symm
    · rfl
  rw [putCmd, List.find?_map]
  exact congrArg (Option.map _) (congrArg (List.find? · r.cmds) (funext fun e => by rw [Function.comp_apply, hseq]))
theorem ringGone_putCmd {r : Ring} {c : Cmd} (hc : cmdDone c = true) {q : Nat} (h : ringGone r q = true ∨ q = c.seq) :
    ringGone (putCmd r c) q = true := by
  unfold ringGone at *
  rw [find_putCmd]
  cases hf : r.cmds.find? (fun e => e.seq == q) with
  | none => rfl
  | some e =>
    rw [hf] at h
    have hq : e.seq = q := by simpa using List.find?_some hf
    by_cases he : e.seq = c.seq
    · simp [he, hc]
    · simpa [he] using h.resolve_right (fun hqc => he (hq.trans hqc))
theorem ringGone_append {r : Ring} {c : Cmd} (hc : cmdDone c = true) {q : Nat} (h : ringGone r q = true) :
    ringGone { r with cmds := r.cmds ++ [c] } q = true := by
  unfold ringGone at *
  cases hf : r.cmds.find? (fun e => e.seq == q) with
  | none =>
    by_cases hq : c.seq = q <;> simp [hf, hq, hc]
  | some e =>
    rw [hf] at h
    simpa [hf] using h

/-- The second state has the ATS invalidations and operations of the first, and every copy and held write that was gone is gone. -/
structure Aborts (s t : State) : Prop where
  ats : t.ats = s.ats
  dst : t.links.dst = s.links.dst
  gone : ∀ b q, cmdGone s b q = true → cmdGone t b q = true
  held : ∀ h, heldGone s h = true → heldGone t h = true

theorem Aborts.refl (s : State) : Aborts s s := ⟨rfl, rfl, fun _ _ h => h, fun _ h => h⟩
theorem Aborts.trans {s t u : State} (h : Aborts s t) (k : Aborts t u) : Aborts s u where
  ats := k.ats.trans h.ats
  dst := k.dst.trans h.dst
  gone b q hq := k.gone b q (h.gone b q hq)
  held x hx := k.held x (h.held x hx)
theorem Aborts.of_blocks {s t : State} (hats : t.ats = s.ats) (hdst : t.links.dst = s.links.dst) (hblocks : t.blocks = s.blocks) : Aborts s t where
  ats := hats
  dst := hdst
  gone b q h := by rw [cmdGone_eq, blkOf, hblocks]; exact h
  held x h := by rw [heldGone, blkOf, hblocks]; exact h
theorem aborts_settleGrid (s : State) (k : Nat) : Aborts s (settleGrid s k) :=
  .of_blocks (settles_settleGrid s k).ats ((congrArg Links.dst (settles_settleGrid s k).links :)) (blocks_settleGrid s k)
theorem aborts_setGrp (s : State) (g : Nat) (x : Group) : Aborts s (setGrp s g x) := .of_blocks rfl rfl rfl
theorem aborts_ringMoved (s : State) (b : Nat) : Aborts s (ringMoved s b) := by
  have h : GroupsOnly s (ringMoved s b) := groupsOnly_wakeWords s (.ring b) 4096 16
  exact .of_blocks h.ats (congrArg Links.dst h.links) h.blocks
theorem aborts_setBlk {s : State} {b : Nat} {y : Block} (hring : ∀ q, ringGone (blkOf s b).copy q = true → ringGone y.copy q = true)
    (hheld : ∀ e ∈ y.held, e ∈ (blkOf s b).held) : Aborts s (setBlk s b y) where
  ats := rfl
  dst := rfl
  gone c q h := by
    by_cases hc : c = b
    · subst hc; rw [cmdGone_eq, blkOf_setBlk]; exact hring q h
    · rwa [cmdGone_eq, blkOf_setBlk_other _ _ hc]
  held x h := by
    by_cases hc : x.1 = b
    · subst hc
      rw [heldGone, blkOf_setBlk]
      rw [heldGone] at h
      simp only [Bool.not_eq_true', List.any_eq_false] at h ⊢
      exact fun e he => h e (hheld e he)
    · rw [heldGone, blkOf_setBlk_other _ _ hc]; exact h

theorem aborts_finishCopy (s : State) (b : Nat) (c : Cmd) (st : CmdStatus) (n : Nat) : Aborts s (finishCopy s b c st n) ∧
    cmdGone (finishCopy s b c st n) b c.seq = true := by
  let u := setGrp s c.grp { grpOf s c.grp with ack := (grpOf s c.grp).ack - n }
  let d : Cmd := { c with phase := .done st, chunks := [], owedAcks := c.owedAcks - n, reported := !(statusTrap st).isSome }
  let y : Block := { countChunks (blkOf u b) c.chunks false with copy := settleRing (putCmd (countChunks (blkOf u b) c.chunks false).copy d) }
  have hset : Aborts u (setBlk u b y) := aborts_setBlk (fun q h => ringGone_putCmd (c := d) rfl (.inl h)) (fun e he => he)
  have hend : Aborts (setBlk u b y) (finishCopy s b c st n) := (aborts_ringMoved _ b).trans (aborts_settleGrid _ _)
  refine ⟨(aborts_setGrp s c.grp _).trans (hset.trans hend), hend.gone b c.seq ?_⟩
  rw [cmdGone_eq, blkOf_setBlk]
  exact ringGone_putCmd (c := d) rfl (.inr rfl)
theorem endCopy_of_find (s : State) {b q : Nat} (st : CmdStatus) (a n : Nat) {c : Cmd}
    (h : (blkOf s b).copy.cmds.find? (fun c => c.seq == q) = some c) : ∃ d : Cmd, d.seq = q ∧ endCopy s b q st a n = finishCopy s b d st n := by
  refine ⟨{ c with errAddr := BitVec.ofNat 64 a }, by simpa using List.find?_some h, ?_⟩
  rw [endCopy, h]
theorem endCopy_of_none (s : State) {b q : Nat} (st : CmdStatus) (a n : Nat)
    (h : (blkOf s b).copy.cmds.find? (fun c => c.seq == q) = none) : endCopy s b q st a n = s := by
  rw [endCopy, h]
theorem aborts_endCopy (s : State) (b q : Nat) (st : CmdStatus) (a n : Nat) : Aborts s (endCopy s b q st a n) ∧
    cmdGone (endCopy s b q st a n) b q = true := by
  cases hc : (blkOf s b).copy.cmds.find? (fun c => c.seq == q) with
  | none =>
    rw [endCopy_of_none s st a n hc]
    exact ⟨Aborts.refl s, by rw [cmdGone, hc]⟩
  | some c =>
    obtain ⟨d, hd, heq⟩ := endCopy_of_find s st a n hc
    rw [heq, ← hd]
    exact aborts_finishCopy s b d st n
theorem abortCopy_of_live (s : State) (c : Nat × Nat) (st : CmdStatus) (h : ¬ cmdGone s c.1 c.2 = true) :
    ∃ l n, abortCopy st s c = endCopy (setLinks s { s.links with src := l }) c.1 c.2 st 0 n := ⟨_, _, if_neg h⟩
theorem aborts_abortCopy (s : State) (c : Nat × Nat) : Aborts s (abortCopy .page s c) ∧ cmdGone (abortCopy .page s c) c.1 c.2 = true := by
  by_cases hgone : cmdGone s c.1 c.2 = true
  · rw [show abortCopy .page s c = s from if_pos hgone]
    exact ⟨Aborts.refl s, hgone⟩
  · obtain ⟨l, n, heq⟩ := abortCopy_of_live s c .page hgone
    obtain ⟨hend, hgone⟩ := aborts_endCopy (setLinks s { s.links with src := l }) c.1 c.2 .page 0 n
    rw [heq]
    have hsrc : Aborts s (setLinks s { s.links with src := l }) := .of_blocks rfl rfl rfl
    exact ⟨hsrc.trans hend, hgone⟩

theorem aborts_heldError (s : State) (b : Nat) (e : HeldEntry) (st : CmdStatus) : Aborts s (heldError s b e st) := by
  unfold heldError
  dsimp only
  split
  · split
    · exact aborts_setBlk (fun q h => ringGone_putCmd rfl (.inl h)) (fun _ h => h)
    · exact (aborts_finishCopy s b _ st 0).1
  · exact aborts_setBlk (fun q h => ringGone_append rfl h) (fun _ h => h)
theorem aborts_dropEntry (s : State) (b q : Nat) : Aborts s (dropEntry s b q) ∧ heldGone (dropEntry s b q) (b, q) = true := by
  have hset : Aborts s (setBlk s b { blkOf s b with held := (blkOf s b).held.filter fun e => e.seq != q }) :=
    aborts_setBlk (fun _ h => h) (fun e he => (List.mem_filter.1 he).1)
  refine ⟨hset.trans (aborts_settleGrid _ _), (aborts_settleGrid _ _).held _ ?_⟩
  simp [heldGone, blkOf_setBlk]
theorem aborts_abortHeld (s : State) (h : Nat × Nat) : Aborts s (abortHeld s h) ∧ heldGone (abortHeld s h) h = true := by
  unfold abortHeld
  split
  · next e _ =>
    obtain ⟨hdrop, hgone⟩ := aborts_dropEntry (heldError s h.1 e .page) h.1 h.2
    exact ⟨(aborts_heldError s h.1 e .page).trans hdrop, hgone⟩
  · next hnone => exact ⟨Aborts.refl s, by simpa [heldGone] using hnone⟩

/-- After a loop of steps each of whose outcomes stays, the outcome of every element holds. -/
theorem foldl_outcomes {α : Type} {R : State → State → Prop} {f : State → α → State} {gone : State → α → Prop} (hrefl : ∀ s, R s s)
    (htrans : ∀ {s t u}, R s t → R t u → R s u) (hf : ∀ s a, R s (f s a) ∧ gone (f s a) a)
    (hkeep : ∀ {s t} a, R s t → gone s a → gone t a) (l : List α) : ∀ s, R s (l.foldl f s) ∧ ∀ a ∈ l, gone (l.foldl f s) a := by
  induction l with
  | nil => exact fun s => ⟨hrefl s, by simp⟩
  | cons a l ih =>
    intro s
    obtain ⟨hrest, hall⟩ := ih (f s a)
    exact ⟨htrans (hf s a).1 hrest, List.forall_mem_cons.2 ⟨hkeep a hrest (hf s a).2, hall⟩⟩

/-- The operation is no more performed here. -/
def OpDead (s : State) (o : Nat × Nat) : Prop := ∀ d ∈ s.links.dst, (d.src, d.tag) = o → d.world = 64
/-- The second state has the ATS invalidations and blocks of the first, and every operation that was dead is dead. -/
def Discards (s t : State) : Prop := t.ats = s.ats ∧ t.blocks = s.blocks ∧ ∀ o, OpDead s o → OpDead t o
theorem discards_abortOp (s : State) (o : Nat × Nat) : Discards s (abortOp s o) ∧ OpDead (abortOp s o) o := by
  have hdst : (abortOp s o).links.dst = s.links.dst.map fun d => if d.src = o.1 ∧ d.tag = o.2 then { d with world := 64 } else d := rfl
  refine ⟨⟨rfl, rfl, fun k hk d hd hdk => ?_⟩, fun d hd hdo => ?_⟩
  · rw [hdst, List.mem_map] at hd
    obtain ⟨e, he, rfl⟩ := hd
    split at hdk
    · next h => rw [if_pos h]
    · next h => rw [if_neg h]; exact hk e he hdk
  · rw [hdst, List.mem_map] at hd
    obtain ⟨e, he, rfl⟩ := hd
    split at hdo
    · next h => rw [if_pos h]
    · next h => exact absurd (Prod.mk.inj hdo) h
theorem discards_abortOps (l : List (Nat × Nat)) (s : State) : Discards s (l.foldl abortOp s) ∧ ∀ o ∈ l, OpDead (l.foldl abortOp s) o :=
  foldl_outcomes (fun _ => ⟨rfl, rfl, fun _ h => h⟩) (fun h k => ⟨k.1.trans h.1, k.2.1.trans h.2.1, fun o ho => k.2.2 o (h.2.2 o ho)⟩)
    discards_abortOp (fun o h ho => h.2.2 o ho) l s
theorem aborts_copies (l : List (Nat × Nat)) (s : State) : Aborts s (l.foldl (abortCopy .page) s) ∧
    ∀ c ∈ l, cmdGone (l.foldl (abortCopy .page) s) c.1 c.2 = true :=
  foldl_outcomes (gone := fun s c => cmdGone s c.1 c.2 = true) Aborts.refl Aborts.trans aborts_abortCopy (fun c h hc => h.gone c.1 c.2 hc) l s
theorem aborts_helds (l : List (Nat × Nat)) (s : State) : Aborts s (l.foldl abortHeld s) ∧
    ∀ h ∈ l, heldGone (l.foldl abortHeld s) h = true :=
  foldl_outcomes (gone := fun s h => heldGone s h = true) Aborts.refl Aborts.trans aborts_abortHeld (fun x h hx => h.held x hx) l s

theorem execAtsInvalidationTimeout_eq {s : State} (hp : s.pkg.power = true) {i : Nat} {x : Ats} (hx : s.ats[i]? = some x) :
    execAtsInvalidationTimeout i s = .next (emit { x.held.foldl abortHeld (x.ops.foldl abortOp (x.cmds.foldl (abortCopy .page) s)) with
      ats := (x.held.foldl abortHeld (x.ops.foldl abortOp (x.cmds.foldl (abortCopy .page) s))).ats.eraseIdx i } (.atsDone x.ld x.addr x.n)) := by
  unfold execAtsInvalidationTimeout
  rw [if_pos hp, hx]

theorem atsInvalidations : Statements.AtsInvalidations := by
  intro s ld a n i x ps mine cmds ops held u
  refine ⟨fun hc ho hh hp => ?_, fun hne hp => ?_, fun p hpm e he => (mem_tlb_droppedAll ps s e he).2 p hpm, fun hx hp => ?_, fun hx hp => ?_⟩
  · exact ⟨_, (execAtsInvalidation_eq hp ld a n).trans (if_pos (by simp only [Bool.and_eq_true, List.isEmpty_iff]; exact ⟨⟨hc, ho⟩, hh⟩)), rfl⟩
  · obtain hnot : ¬ (cmds.isEmpty && ops.isEmpty && held.isEmpty) = true := by
      simp only [Bool.and_eq_true, List.isEmpty_iff]
      rintro ⟨⟨hcopies, hops⟩, hheld⟩
      exact hne.elim (fun h => h hcopies) fun h => h.elim (fun h => h hops) fun h => h hheld
    refine ⟨_, (execAtsInvalidation_eq hp ld a n).trans (if_neg hnot), ?_, ?_, rfl⟩
    · exact congrArg (· ++ _) (foldl_keeps State.ats (f := dropped) (fun s p => (dropped_rest s p).1) ps s)
    · exact foldl_keeps State.out (f := dropped) (fun s p => (dropped_rest s p).2) ps s
  · obtain ⟨hcopies, hcmds⟩ := aborts_copies x.cmds s
    obtain ⟨⟨hats, hblocks, -⟩, hops⟩ := discards_abortOps x.ops (x.cmds.foldl (abortCopy .page) s)
    obtain ⟨hheld, hgone⟩ := aborts_helds x.held (x.ops.foldl abortOp (x.cmds.foldl (abortCopy .page) s))
    refine ⟨_, execAtsInvalidationTimeout_eq hp hx, ?_, by simp [emit], fun c hc => ?_, fun h hh => hgone h hh, fun d hd hdo => ?_⟩
    · exact congrArg (List.eraseIdx · i) (hheld.ats.trans (hats.trans hcopies.ats))
    · refine hheld.gone c.1 c.2 ?_
      rw [cmdGone, blkOf, hblocks]
      exact hcmds c hc
    · have hdst : d ∈ (x.ops.foldl abortOp (x.cmds.foldl (abortCopy .page) s)).links.dst := by rw [← hheld.dst]; exact hd
      simp [dstDead, hops _ hdo d hdst rfl]
  · exact ⟨s, (if_pos hp).trans (by rw [hx]), rfl⟩

/-- Settles O55: a flip by the bias it finds, and an invalidation's time limit as aborts that stay. -/
theorem biasFlips : Obligations.BiasFlips := ⟨biasFlips_flips, atsInvalidations⟩

end Sys2Proof.Machine
end

