-- ==== Sys2Proof/Proofs/PageWrites.lean ====
section
/-!
PROOFS. Proofs/PageWrites.lean: writes through a context's leaves, as those of its control page (R83): made of writes at the home, they leave
unchanged whatever those leave unchanged.
-/
namespace Sys2Proof.Machine

theorem vaWrite_keeps {β : Type} (p : State → β) (h : ∀ s m a bs, p (homeWrite s m a bs) = p s) (bs : List Byte) :
    ∀ (s : State) (ctx va : Nat), p (vaWrite s ctx va bs) = p s := by
  induction bs with
  | nil => exact fun s ctx va => by rw [vaWrite]
  | cons b bs ih =>
    intro s ctx va
    rw [vaWrite, ih]
    cases vaAt s ctx va false true with
    | none => rfl
    | some ma => exact h s ma.1 ma.2 [b]

section
variable (s : State) (ctx off n x : Nat)
theorem pageWrite_keeps {β : Type} (p : State → β) (h : ∀ s m a bs, p (homeWrite s m a bs) = p s) : p (pageWrite s ctx off n x) = p s :=
  vaWrite_keeps p h _ s ctx _
@[simp] theorem ctxs_pageWrite : (pageWrite s ctx off n x).ctxs = s.ctxs := pageWrite_keeps s ctx off n x State.ctxs ctxs_homeWrite
@[simp] theorem hall_pageWrite : (pageWrite s ctx off n x).hall = s.hall := pageWrite_keeps s ctx off n x State.hall hall_homeWrite
@[simp] theorem pkg_pageWrite : (pageWrite s ctx off n x).pkg = s.pkg := pageWrite_keeps s ctx off n x State.pkg pkg_homeWrite
@[simp] theorem fns_pageWrite : (pageWrite s ctx off n x).fns = s.fns := pageWrite_keeps s ctx off n x State.fns fns_homeWrite
@[simp] theorem out_pageWrite : (pageWrite s ctx off n x).out = s.out := pageWrite_keeps s ctx off n x State.out out_homeWrite
@[simp] theorem links_pageWrite : (pageWrite s ctx off n x).links = s.links := pageWrite_keeps s ctx off n x State.links links_homeWrite
@[simp] theorem own_pageWrite : (pageWrite s ctx off n x).own = s.own := pageWrite_keeps s ctx off n x State.own own_homeWrite
@[simp] theorem time_pageWrite : (pageWrite s ctx off n x).time = s.time := pageWrite_keeps s ctx off n x State.time time_homeWrite
@[simp] theorem kerns_pageWrite : (pageWrite s ctx off n x).kerns = s.kerns := pageWrite_keeps s ctx off n x State.kerns kerns_homeWrite
@[simp] theorem gangs_pageWrite : (pageWrite s ctx off n x).gangs = s.gangs := pageWrite_keeps s ctx off n x State.gangs gangs_homeWrite
@[simp] theorem services_pageWrite : (pageWrite s ctx off n x).services = s.services :=
  pageWrite_keeps s ctx off n x State.services services_homeWrite
@[simp] theorem ldevs_pageWrite : (pageWrite s ctx off n x).ldevs = s.ldevs := pageWrite_keeps s ctx off n x State.ldevs ldevs_homeWrite
@[simp] theorem ctxOf_pageWrite (c : Nat) : ctxOf (pageWrite s ctx off n x) c = ctxOf s c := by simp [ctxOf]
@[simp] theorem queueOf_pageWrite (c q : Nat) : queueOf (pageWrite s ctx off n x) c q = queueOf s c q := by simp [queueOf]
end

@[simp] theorem ctxs_pageHeader (s : State) (ctx : Nat) : (pageHeader s ctx).ctxs = s.ctxs := by simp [pageHeader]
@[simp] theorem ctxOf_pageHeader (s : State) (ctx c : Nat) : ctxOf (pageHeader s ctx) c = ctxOf s c := by simp [ctxOf]

/-! ### Reads through leaves -/

/-- A read through a context's leaves depends on the context's world and leaves, on who owns its frames, and on the bytes at their homes. -/
theorem vaAt_congr {s t : State} {ctx : Nat} (hl : (ctxOf t ctx).leaves = (ctxOf s ctx).leaves) (hw : (ctxOf t ctx).world = (ctxOf s ctx).world)
    (ho : t.own = s.own) (va : Nat) (r w : Bool) : vaAt t ctx va r w = vaAt s ctx va r w := by
  have hcheck (world : Nat) (l : Option Leaf) : checkLeaf t world l va r w false = checkLeaf s world l va r w false := by
    unfold checkLeaf ownOf
    rw [ho]
  unfold vaAt walk
  dsimp only
  rw [hl, hw, hcheck]
theorem vaRead_congr {s t : State} {ctx : Nat} (hl : (ctxOf t ctx).leaves = (ctxOf s ctx).leaves) (hw : (ctxOf t ctx).world = (ctxOf s ctx).world)
    (ho : t.own = s.own) (hb : ∀ m a, homeByte t m a = homeByte s m a) (va n : Nat) : vaRead t ctx va n = vaRead s ctx va n := by
  refine List.map_congr_left fun i _ => ?_
  rw [vaAt_congr hl hw ho]
  cases vaAt s ctx (va + i) true false with
  | none => rfl
  | some ma => exact hb ma.1 ma.2
theorem homeByte_setCtx (s : State) (c : Nat) (x : Ctx) (m : MemName) (a : Nat) : homeByte (setCtx s c x) m a = homeByte s m a :=
  homeByte_congr (by cases m <;> rfl) (fun _ => rfl) (fun _ => rfl) a
theorem pageRead_setCtx (s : State) {ctx : Nat} {x : Ctx} (hp : x.cpPage = (ctxOf s ctx).cpPage) (hl : x.leaves = (ctxOf s ctx).leaves)
    (hw : x.world = (ctxOf s ctx).world) (off n : Nat) : pageRead (setCtx s ctx x) ctx off n = pageRead s ctx off n := by
  unfold pageRead
  rw [ctxOf_setCtx, hp, vaRead_congr (s := s) (t := setCtx s ctx x) (by rw [ctxOf_setCtx, hl]) (by rw [ctxOf_setCtx, hw]) rfl (homeByte_setCtx s ctx x)]

/-! ### Records and queues -/

/-- What a record for the host leaves unchanged. -/
theorem hostRecord_keeps {β : Type} (p : State → β) (hw : ∀ s m a bs, p (homeWrite s m a bs) = p s) (hf : ∀ s f x, p (setFn s f x) = p s)
    (ho : ∀ s o, p (emit s o) = p s) (s : State) (f : Nat) (e : ErrRec) (prot : Bool) : p (hostRecord s f e prot) = p s := by
  unfold hostRecord
  dsimp only
  split
  · rfl
  · split
    · exact hf s f _
    · rw [ho, hf, hw]
/-- What no record of an error changes. -/
theorem routeRecord_keeps {β : Type} (p : State → β) (hw : ∀ s m a bs, p (homeWrite s m a bs) = p s) (hf : ∀ s f x, p (setFn s f x) = p s)
    (ho : ∀ s o, p (emit s o) = p s) (hs : ∀ s d x, p (setSvc s d x) = p s) (hl : ∀ s e b, p (logRecord s e b) = p s)
    (s : State) (cls : Nat) (e : ErrRec) : p (routeRecord s cls e) = p s := by
  unfold routeRecord
  dsimp only
  split
  · exact hostRecord_keeps p hw hf ho s _ _ _
  · split
    · rw [hw, hs]
    · exact hl s e _
theorem hall_routeRecord (s : State) (cls : Nat) (e : ErrRec) : (routeRecord s cls e).hall = s.hall :=
  routeRecord_keeps State.hall hall_homeWrite (fun _ _ _ => rfl) (fun _ _ => rfl) (fun _ _ _ => rfl) (fun _ _ _ => rfl) s cls e
theorem entries_routeRecord (s : State) (cls : Nat) (e : ErrRec) : (routeRecord s cls e).ctxs = s.ctxs :=
  routeRecord_keeps State.ctxs ctxs_homeWrite (fun _ _ _ => rfl) (fun _ _ => rfl) (fun _ _ _ => rfl) (fun _ _ _ => rfl) s cls e

section
variable (s : State) (ctx q : Nat) (x : Queue)
/-- What putting a queue back leaves unchanged: what neither records nor writes to the page change. -/
theorem putQueue_keeps {β : Type} (p : State → β) (hw : ∀ s m a bs, p (homeWrite s m a bs) = p s) :
    p (putQueue s ctx q x) = p (setQueue (if x.st = .halted ∧ (queueOf s ctx q).st ≠ .halted then
      raiseClass s ctx 0x20 8 0 else s) ctx q x) := by
  unfold putQueue
  dsimp only
  rw [pageWrite_keeps _ _ _ _ _ p hw, pageWrite_keeps _ _ _ _ _ p hw, pageWrite_keeps _ _ _ _ _ p hw, pageWrite_keeps _ _ _ _ _ p hw]
theorem ctxs_putQueue : (putQueue s ctx q x).ctxs = (setQueue s ctx q x).ctxs := by
  rw [putQueue_keeps s ctx q x State.ctxs ctxs_homeWrite]
  split
  · unfold setQueue setCtx ctxOf
    dsimp only
    rw [raiseClass, entries_routeRecord]
  · rfl
@[simp] theorem hall_putQueue : (putQueue s ctx q x).hall = s.hall := by
  rw [putQueue_keeps s ctx q x State.hall hall_homeWrite]
  split
  · exact hall_routeRecord s 0x20 _
  · rfl
theorem ctxOf_putQueue (c : Nat) : ctxOf (putQueue s ctx q x) c = ctxOf (setQueue s ctx q x) c := by
  unfold ctxOf
  rw [ctxs_putQueue]
@[simp] theorem queueOf_setQueue : queueOf (setQueue s ctx q x) ctx q = x := by
  rw [queueOf, setQueue, ctxOf_setCtx]
  exact look_put_same _ q x _
@[simp] theorem queueOf_putQueue : queueOf (putQueue s ctx q x) ctx q = x := by
  rw [queueOf, ctxOf_putQueue]
  exact queueOf_setQueue s ctx q x
/-- Of its context a queue that is put back changes itself only. -/
theorem ctxOf_setQueue : ctxOf (setQueue s ctx q x) ctx = { ctxOf s ctx with queues := Map.put (ctxOf s ctx).queues q x } := ctxOf_setCtx _ _ _
theorem ctxOf_putQueue_same : ctxOf (putQueue s ctx q x) ctx = { ctxOf s ctx with queues := Map.put (ctxOf s ctx).queues q x } :=
  (ctxOf_putQueue s ctx q x ctx).trans (ctxOf_setQueue s ctx q x)
end

end Sys2Proof.Machine
end

