-- ==== Sys2Proof/Proofs/ContextMaps.lean ====
section
/-!
PROOFS. Proofs/ContextMaps.lean: SETATTR, MAP and UNMAP (R74, R76), and a context's life from SEAL to the wipe (R75, R82).
-/
namespace Sys2Proof.Machine

/-! ### Frames taken and given back -/

/-- Wiping a frame changes device memory, its errors and what the log says of it. -/
theorem wipeFrame_rest (s : State) (f : Nat) : ∃ m p l, wipeFrame s f = { s with dev := m, poison := p, log := l } := by
  unfold wipeFrame wipeRange cleanPoison blankLog
  split <;> exact ⟨_, _, _, rfl⟩

/-- Of a state, what changing the owners of frames leaves. -/
structure OwnsOnly (s t : State) : Prop where
  ctxs : t.ctxs = s.ctxs
  fns : t.fns = s.fns
theorem OwnsOnly.trans {s t u : State} (h : OwnsOnly s t) (k : OwnsOnly t u) : OwnsOnly s u := ⟨k.ctxs.trans h.ctxs, k.fns.trans h.fns⟩
theorem ownsOnly_disownFrame (s : State) (f : Nat) : OwnsOnly s (disownFrame s f) := by
  obtain ⟨m, p, l, h⟩ := wipeFrame_rest s f
  rw [disownFrame, h]
  exact ⟨rfl, rfl⟩
theorem ownOf_disownFrame (s : State) (f x : Nat) : ownOf (disownFrame s f) x = if x = f then {} else ownOf s x := by
  obtain ⟨m, p, l, h⟩ := wipeFrame_rest s f
  rw [disownFrame, h]
  split
  · next hx => subst hx; exact look_put_same s.own x _ _
  · next hx => exact look_put_other s.own _ _ hx
theorem claimFrame_taken {s : State} {f : Nat} (world key : Nat) (h : (ownOf s f).use ≠ 0) : claimFrame world key s f = s := if_pos h
theorem ownsOnly_claimFrame (world key : Nat) (s : State) (f : Nat) : OwnsOnly s (claimFrame world key s f) := by
  by_cases hu : (ownOf s f).use = 0
  · obtain ⟨m, p, l, h⟩ := wipeFrame_rest s f
    rw [claimFrame, if_neg (not_not_intro hu), h]
    exact ⟨rfl, rfl⟩
  · rw [claimFrame_taken world key hu]
    exact ⟨rfl, rfl⟩
theorem ownOf_claimFrame (world key : Nat) (s : State) (f x : Nat) : ownOf (claimFrame world key s f) x =
    if x = f ∧ (ownOf s f).use = 0 then { key := key, world := world, use := 2 } else ownOf s x := by
  by_cases hu : (ownOf s f).use = 0
  · obtain ⟨m, p, l, h⟩ := wipeFrame_rest s f
    rw [claimFrame, if_neg (not_not_intro hu), h]
    by_cases hx : x = f
    · rw [if_pos ⟨hx, hu⟩, hx]
      exact look_put_same s.own f _ _
    · rw [if_neg fun ⟨hxf, _⟩ => hx hxf]
      exact look_put_other s.own _ _ hx
  · rw [claimFrame_taken world key hu, if_neg fun ⟨_, h0⟩ => hu h0]

theorem disownAll (l : List Nat) : ∀ s : State, OwnsOnly s (l.foldl disownFrame s) ∧
    ∀ x, ownOf (l.foldl disownFrame s) x = if x ∈ l then {} else ownOf s x := by
  induction l with
  | nil => exact fun s => ⟨⟨rfl, rfl⟩, fun x => by simp⟩
  | cons f l ih =>
    intro s
    obtain ⟨hrest, hown⟩ := ih (disownFrame s f)
    refine ⟨(ownsOnly_disownFrame s f).trans hrest, fun x => ?_⟩
    rw [List.foldl_cons, hown, ownOf_disownFrame]
    by_cases hx : x = f <;> by_cases hl : x ∈ l <;> simp [hx, hl]
theorem claimAll (world key : Nat) (l : List Nat) : ∀ s : State, OwnsOnly s (l.foldl (claimFrame world key) s) ∧
    ∀ x, ownOf (l.foldl (claimFrame world key) s) x =
      if x ∈ l ∧ (ownOf s x).use = 0 then { key := key, world := world, use := 2 } else ownOf s x := by
  induction l with
  | nil => exact fun s => ⟨⟨rfl, rfl⟩, fun x => by simp⟩
  | cons f l ih =>
    intro s
    obtain ⟨hrest, hown⟩ := ih (claimFrame world key s f)
    refine ⟨(ownsOnly_claimFrame world key s f).trans hrest, fun x => ?_⟩
    rw [List.foldl_cons, hown, ownOf_claimFrame]
    by_cases hx : x = f
    · subst hx
      by_cases hu : (ownOf s x).use = 0 <;> simp [hu]
    · simp [hx]

theorem mem_insertLeaf (l : Leaf) (ls : List Leaf) : l ∈ insertLeaf l ls ∧ ∀ x ∈ ls, x ∈ insertLeaf l ls := by
  induction ls with
  | nil => simp [insertLeaf]
  | cons y ls ih =>
    obtain ⟨hl, hrest⟩ := ih
    rw [insertLeaf]
    split
    · exact ⟨List.mem_cons_self, fun x hx => List.mem_cons_of_mem _ hx⟩
    · exact ⟨List.mem_cons_of_mem _ hl, List.forall_mem_cons.2 ⟨List.mem_cons_self, fun x hx => List.mem_cons_of_mem _ (hrest x hx)⟩⟩

/-! ### The commands of an ASSEMBLING context -/

section
variable {s : State} {f : Nat} (hs : Serves s f) (hp : s.pkg.power = true) {a0 : Addr} (a1 a2 a3 : Addr)
  (h : Holds s f a0.toNat .assembling)
include hs hp h

theorem exec_map_holds (hops : namedBits (argsOf a0 a1 a2 a3) 0x3FF (2 ^ 64 - 1) (2 ^ 64 - 1) 0x3FFCE = true) :
    let u := serving s f a0 a1 a2 a3
    let c := ctxOf s a0.toNat
    let l := proposal (argsOf a0 a1 a2 a3)
    let t := (leafFrames l).foldl (claimFrame c.world l.key) u
    (mapStatus u a0.toNat c l = 0 → exec (.map f a0 a1 a2 a3) s = .next (completeCmd (dropTlb (setCtx t a0.toNat
      { ctxOf t a0.toNat with leaves := insertLeaf l c.leaves }) a0.toNat (l.va / 65536) (pageSize l.level / 65536)) f 0)) ∧
    (mapStatus u a0.toNat c l ≠ 0 → exec (.map f a0 a1 a2 a3) s = .next (completeCmd u f (mapStatus u a0.toNat c l))) := by
  have hall : namedBits (argsOf a0 a1 a2 a3) 0x3FF allBits allBits 0x3FFCE = true := hops
  rw [exec_map, execMap, command_served hs a0 a1 a2 a3 hp, serve_deployed hs a0 a1 a2 a3 hall]
  refine ⟨fun h0 => congrArg _ ((onCtx_holds h (ctxs_serving s f a0 a1 a2 a3) (by simp) _).trans ?_),
    fun hne => congrArg _ ((onCtx_holds h (ctxs_serving s f a0 a1 a2 a3) (by simp) _).trans ?_)⟩
  all_goals dsimp only; split
  · rfl
  · next hn => exact absurd h0 hn
  · next h0 => exact absurd h0 hne
  · rfl

variable (hc : a0.toNat < 1024)
include hc
theorem exec_setattr_holds (h1 : a1.toNat < 2 ^ 32) (h2 : a2 = 0) (h3 : a3 = 0) :
    let u := serving s f a0 a1 a2 a3
    let w := a1.toNat
    let c := ctxOf s a0.toNat
    exec (.setattr f a0 a1 a2 a3) s = .next (if bitsOf w 15 8 ≠ 0 ∨ bitsOf w 5 4 = 3 ∨ 16384 < bitsOf w 31 16 ∨ bitsOf w 3 0 ≠ c.keys.length then
      completeCmd u f 4
      else completeCmd (setCtx u a0.toNat { c with larder := bitsOf w 31 16, prot := bitsOf w 7 7 == 1, check := bitsOf w 6 6 == 1
                                                   mode := bitsOf w 5 4 }) f 0) := by
  have hops : namedBits (argsOf a0 a1 a2 a3) 0x3FF 0xFFFFFFFF 0 0 = true :=
    namedBits_of (within64_ctx hc) (within64_low (k := 32) h1) (within64_zero h2) (within64_zero h3)
  rw [exec_setattr, execSetattr, command_served hs a0 a1 a2 a3 hp, serve_deployed hs a0 a1 a2 a3 hops]
  exact congrArg _ (onCtx_holds h (ctxs_serving s f a0 a1 a2 a3) (by simp) _)

theorem exec_unmap_holds (h2 : a2 = 0) (h3 : a3 = 0) :
    let u := serving s f a0 a1 a2 a3
    let c := ctxOf s a0.toNat
    (walk s a0.toNat a1.toNat = none → exec (.unmap f a0 a1 a2 a3) s = .next (completeCmd u f 4)) ∧
    ∀ l, walk s a0.toNat a1.toNat = some l → exec (.unmap f a0 a1 a2 a3) s = .next (completeCmd (dropTlb
      (setCtx ((leafFrames l).foldl disownFrame u) a0.toNat { ctxOf ((leafFrames l).foldl disownFrame u) a0.toNat with
        leaves := c.leaves.filter fun k => k.va != l.va || k.broken }) a0.toNat (l.va / 65536) (pageSize l.level / 65536)) f 0) := by
  have hops : namedBits (argsOf a0 a1 a2 a3) 0x3FF allBits 0 0 = true :=
    namedBits_of (within64_ctx hc) (within64_all a1) (within64_zero h2) (within64_zero h3)
  rw [exec_unmap, execUnmap, command_served hs a0 a1 a2 a3 hp, serve_deployed hs a0 a1 a2 a3 hops]
  refine ⟨fun hw => congrArg _ ((onCtx_holds h (ctxs_serving s f a0 a1 a2 a3) (by simp) _).trans ?_),
    fun l hw => congrArg _ ((onCtx_holds h (ctxs_serving s f a0 a1 a2 a3) (by simp) _).trans ?_)⟩
  all_goals
    have hwalk : walk (serving s f a0 a1 a2 a3) (argsOf a0 a1 a2 a3).a0 (argsOf a0 a1 a2 a3).a1 = _ := hw
    simp only [hwalk]
  rfl
end

/-- What a completed command with its context's entry set and translations dropped shows. -/
theorem mapped_rest (t : State) (f ctx page n : Nat) (x : Ctx) :
    let v := completeCmd (dropTlb (setCtx t ctx x) ctx page n) f 0
    Completed v f 0 ∧ ctxOf v ctx = x ∧ ∀ y, ownOf v y = ownOf t y :=
  ⟨completed_completeCmd _ f 0, (ctxOf_completeCmd _ f 0 ctx).trans (ctxOf_setCtx t ctx x), fun _ => rfl⟩

theorem contextMaps_maps : Statements.ContextMaps := by
  intro s f a0 a1 a2 a3 l ctx c u p w hs h hc
  refine ⟨fun h1 h2 h3 => ⟨fun h4 h5 h6 h7 hp => ?_, fun hbad hp => ?_⟩, fun hops => ⟨fun h0 hp => ?_, fun hne hp => ?_⟩,
    fun h2 h3 => ⟨fun hw hp => ?_, fun hw hp => ?_⟩⟩
  · have hgood : ¬ (bitsOf w 15 8 ≠ 0 ∨ bitsOf w 5 4 = 3 ∨ 16384 < bitsOf w 31 16 ∨ bitsOf w 3 0 ≠ c.keys.length) := by
      rintro (h | h | h | h)
      · exact h h4
      · exact h5 h
      · omega
      · exact h h7
    refine ⟨_, (exec_setattr_holds hs hp a1 a2 a3 h hc h1 h2 h3).trans (congrArg _ (if_neg hgood)), completed_completeCmd _ f 0, ?_, ?_, ?_, ?_,
      fun x hx => ?_⟩
    · rw [ctxOf_completeCmd, ctxOf_setCtx]
    · rw [ctxOf_completeCmd, ctxOf_setCtx]
    · rw [ctxOf_completeCmd, ctxOf_setCtx]
    · rw [ctxOf_completeCmd, ctxOf_setCtx]
    · rw [ctxOf_completeCmd, ctxOf_setCtx_other _ _ hx, ctxOf_serving]
  · exact ⟨_, (exec_setattr_holds hs hp a1 a2 a3 h hc h1 h2 h3).trans (congrArg _ (if_pos (.inr (.inr (.inr hbad))))), rfl⟩
  · obtain ⟨-, hown⟩ := claimAll c.world p.key (leafFrames p) u
    obtain ⟨hcompleted, hctx, hkept⟩ := mapped_rest ((leafFrames p).foldl (claimFrame c.world p.key) u) f ctx (p.va / 65536) (pageSize p.level / 65536)
      { ctxOf ((leafFrames p).foldl (claimFrame c.world p.key) u) ctx with leaves := insertLeaf p c.leaves }
    obtain ⟨hmem, hrest⟩ := mem_insertLeaf p c.leaves
    refine ⟨_, (exec_map_holds hs hp a1 a2 a3 h hops).1 h0, hcompleted, ?_, ?_,
      fun x hx => ?_⟩
    · rw [hctx]; exact hmem
    · rw [hctx]; exact hrest
    · rw [hkept, hown]
      have hus : ownOf u x = ownOf s x := rfl
      rw [hus]
      by_cases hu : (ownOf s x).use = 0 <;> simp [hx, hu]
  · exact ⟨_, (exec_map_holds hs hp a1 a2 a3 h hops).2 hne, rfl⟩
  · exact ⟨_, (exec_unmap_holds hs hp a1 a2 a3 h hc h2 h3).1 hw, rfl⟩
  · obtain ⟨-, hown⟩ := disownAll (leafFrames l) u
    obtain ⟨hcompleted, hctx, hkept⟩ := mapped_rest ((leafFrames l).foldl disownFrame u) f ctx (l.va / 65536) (pageSize l.level / 65536)
      { ctxOf ((leafFrames l).foldl disownFrame u) ctx with leaves := c.leaves.filter fun k => k.va != l.va || k.broken }
    refine ⟨_, (exec_unmap_holds hs hp a1 a2 a3 h hc h2 h3).2 l hw, hcompleted, ?_,
      fun x hx => ?_⟩
    · rw [hctx]
    · rw [hkept, hown, if_pos hx]

/-! ### SEAL, SUSPEND and RESUME -/

theorem actLatched_of_none {s : State} {ctx : Nat} (h : ∀ q, (queueOf s ctx q).latched = false) : actLatched s ctx = s :=
  foldl_unchanged _ fun q _ => if_neg (by simp [h q])

/-- The events that a member has posted and not sent. -/
def postedOf (s : State) : List HEvent := s.hall.pending ++ s.hall.backlog
theorem postEvent_posts (s : State) (e : HEvent) : (∃ h, postEvent s e = setHall s h) ∧
    postedOf (postEvent s e) = postedOf s ++ [{ e with origin := s.hall.self }] := by
  unfold postEvent
  dsimp only
  split
  · next h =>
    have hb : s.hall.backlog = [] := List.isEmpty_iff.1 h.2
    exact ⟨⟨_, rfl⟩, by simp [postedOf, setHall, hb]⟩
  · exact ⟨⟨_, rfl⟩, by simp [postedOf, setHall]⟩
theorem preemptCtx_of_none {s : State} {ctx : Nat} (bound : Nat) (h : gangsOf s ctx = []) : preemptCtx s ctx bound = s := by
  rw [preemptCtx, h, List.foldl_nil]
theorem endSuspend_of_none {s : State} (f : Nat) {ctx : Nat} (h : gangsOf s ctx = []) :
    endSuspend s f ctx = completeCmd (setCtx s ctx { ctxOf s ctx with st := .suspended, suspendFn := none, step := genTag s ctx }) f 0 :=
  if_pos (by rw [allSaved, h]; rfl)

section
variable {s : State} {f : Nat} (hs : Serves s f) (hp : s.pkg.power = true) {a0 : Addr} (a1 a2 a3 : Addr) (hc : a0.toNat < 1024)
  (h2 : a2 = 0) (h3 : a3 = 0)
include hs hp hc h2 h3

/-- Whether a command page is one: it lies on a leaf that may be read and written. -/
theorem exec_seal_assembling (h : Holds s f a0.toNat .assembling) :
    let u := serving s f a0 a1 a2 a3
    let c := ctxOf s a0.toNat
    let usable : Bool := match walk s a0.toNat a1.toNat with
      | some l => leafPresent l && l.r && l.w && (l.cls == 0 || l.cls == 1)
      | none => false
    exec (.sealCtx f a0 a1 a2 a3) s = .next (if a1.toNat % 4096 ≠ 0 ∨ usable = false then completeCmd u f 4
      else completeCmd (actLatched (pageHeader (setCtx u a0.toNat
        { c with st := .sealed, cpPage := a1.toNat, measurement := Config.shake256 (sealBytes c a1.toNat) }) a0.toNat) a0.toNat) f 0) := by
  have hops : namedBits (argsOf a0 a1 a2 a3) 0x3FF allBits 0 0 = true :=
    namedBits_of (within64_ctx hc) (within64_all a1) (within64_zero h2) (within64_zero h3)
  rw [exec_sealCtx, execSealCtx, command_served hs a0 a1 a2 a3 hp, serve_deployed hs a0 a1 a2 a3 hops]
  refine congrArg _ ((onCtx_holds h (ctxs_serving s f a0 a1 a2 a3) (by simp) _).trans ?_)
  rfl
theorem exec_seal_other {st : CtxState} (h : Holds s f a0.toNat st) (hst : st ≠ .assembling) :
    exec (.sealCtx f a0 a1 a2 a3) s = .next (completeCmd (serving s f a0 a1 a2 a3) f 1) := by
  have hops : namedBits (argsOf a0 a1 a2 a3) 0x3FF allBits 0 0 = true :=
    namedBits_of (within64_ctx hc) (within64_all a1) (within64_zero h2) (within64_zero h3)
  rw [exec_sealCtx, execSealCtx, command_served hs a0 a1 a2 a3 hp, serve_deployed hs a0 a1 a2 a3 hops]
  exact congrArg _ (onCtx_other h (ctxs_serving s f a0 a1 a2 a3) (by simpa using hst) _)
theorem exec_suspend_sealed (h : Holds s f a0.toNat .sealed) :
    let u := serving s f a0 a1 a2 a3
    let c := ctxOf s a0.toNat
    let v := preemptCtx (setCtx u a0.toNat { c with suspendFn := some f, bound := a1.toNat }) a0.toNat a1.toNat
    exec (.suspend f a0 a1 a2 a3) s = .next (endSuspend (postEvent v
      { kind := 3, ctx := a0.toNat, world := c.world, pay := payOf (bytesOfNat 4 (min a1.toNat 0xFFFFFFFF)) }) f a0.toNat) := by
  have hops : namedBits (argsOf a0 a1 a2 a3) 0x3FF allBits 0 0 = true :=
    namedBits_of (within64_ctx hc) (within64_all a1) (within64_zero h2) (within64_zero h3)
  have hidle : ¬ (s.pkg.power && (fnOf s f).busy && (ctxOf s (a0.toNat % 1024)).suspendFn == some f) = true := by simp [hs.2.1]
  rw [exec_suspend, execSuspend, if_neg hidle, command_served hs a0 a1 a2 a3 hp, serve_deployed hs a0 a1 a2 a3 hops]
  refine congrArg _ ((onCtx_holds h (ctxs_serving s f a0 a1 a2 a3) (by simp) _).trans ?_)
  rfl
theorem exec_resume_suspended (h : Holds s f a0.toNat .suspended) (h1 : a1 = 0) :
    let u := serving s f a0 a1 a2 a3
    let c := ctxOf s a0.toNat
    exec (.resume f a0 a1 a2 a3) s = .next (completeCmd (postEvent (actLatched (setCtx u a0.toNat { c with st := .sealed }) a0.toNat)
      { kind := 4, ctx := a0.toNat, world := c.world, pay := payOf [] }) f 0) := by
  have hops : namedBits (argsOf a0 a1 a2 a3) 0x3FF 0 0 0 = true :=
    namedBits_of (within64_ctx hc) (within64_zero h1) (within64_zero h2) (within64_zero h3)
  rw [exec_resume, execResume, command_served hs a0 a1 a2 a3 hp, serve_deployed hs a0 a1 a2 a3 hops]
  refine congrArg _ ((onCtx_holds h (ctxs_serving s f a0 a1 a2 a3) (by simp) _).trans ?_)
  rfl
theorem exec_destroy_live {st : CtxState} (h : Holds s f a0.toNat st) (hst : st = .assembling ∨ st = .sealed ∨ st = .suspended) (h1 : a1 = 0) :
    let v := beginTeardown (serving s f a0 a1 a2 a3) a0.toNat
    exec (.destroy f a0 a1 a2 a3) s = .next (setCtx v a0.toNat { ctxOf v a0.toNat with destroyFn := some f }) := by
  have hops : namedBits (argsOf a0 a1 a2 a3) 0x3FF 0 0 0 = true :=
    namedBits_of (within64_ctx hc) (within64_zero h1) (within64_zero h2) (within64_zero h3)
  rw [exec_destroy, execDestroy, command_served hs a0 a1 a2 a3 hp, serve_deployed hs a0 a1 a2 a3 hops]
  refine congrArg _ ((onCtx_holds h (ctxs_serving s f a0 a1 a2 a3) (by simpa using hst) _).trans ?_)
  rfl
end

/-! ### DESTROY -/

/-- What removing blocks leaves of a state: of a context all but its calls and what it may still send, the functions, and which kernels are dead. -/
structure Removes (s t : State) : Prop where
  ctx : ∀ c, { ctxOf t c with calls := [], left := [] } = { ctxOf s c with calls := [], left := [] }
  fns : t.fns = s.fns
  dead : ∀ k, (kernOf t k).dead = (kernOf s k).dead
theorem Removes.refl (s : State) : Removes s s := ⟨fun _ => rfl, rfl, fun _ => rfl⟩
theorem Removes.trans {s t u : State} (h : Removes s t) (k : Removes t u) : Removes s u where
  ctx c := (k.ctx c).trans (h.ctx c)
  fns := k.fns.trans h.fns
  dead j := (k.dead j).trans (h.dead j)
theorem Removes.of_same {s t : State} (hc : t.ctxs = s.ctxs) (hf : t.fns = s.fns) (hk : t.kerns = s.kerns) : Removes s t where
  ctx c := by unfold ctxOf; rw [hc]
  fns := hf
  dead k := by unfold kernOf; rw [hk]
theorem Removes.of_settles {s t : State} (h : Settles s t) : Removes s t where
  ctx c := by rw [h.ctx c]
  fns := h.fns
  dead k := (congrArg Kern.dead (h.kern k) :)
theorem removes_setCalls (s : State) (k : Nat) (m : Map (List Batch)) : Removes s (setCtx s k { ctxOf s k with calls := m }) where
  ctx c := by
    by_cases hc : c = k
    · subst hc; rw [ctxOf_setCtx]
    · rw [ctxOf_setCtx_other _ _ hc]
  fns := rfl
  dead _ := rfl
theorem removes_setKern (s : State) (k : Nat) (x : Kern) (h : x.dead = (kernOf s k).dead) : Removes s (setKern s k x) where
  ctx _ := rfl
  fns := rfl
  dead j := by
    by_cases hj : j = k
    · subst hj; simpa [setKern, kernOf, look_put_same] using h
    · simp [setKern, kernOf, look_put_other _ _ _ hj]

section
variable {s u : State} (h : Removes s u)
include h
theorem Removes.then_same {t : State} (hc : t.ctxs = u.ctxs) (hf : t.fns = u.fns) (hk : t.kerns = u.kerns) : Removes s t :=
  h.trans (.of_same hc hf hk)
theorem Removes.then_setKern (k : Nat) (x : Kern) (hx : x.dead = (kernOf s k).dead) : Removes s (setKern u k x) :=
  h.trans (removes_setKern u k x (hx.trans (h.dead k).symm))
theorem Removes.then_settleGang (q : Nat) : Removes s (settleGang u q) := by
  refine h.trans ?_
  unfold settleGang
  dsimp only
  split
  · exact .of_same rfl rfl rfl
  · exact .refl u
theorem Removes.then_settleGrid (k : Nat) : Removes s (settleGrid u k) := h.trans (.of_settles (settles_settleGrid u k))
end
theorem removes_ite {s t u : State} {p : Prop} [Decidable p] (ht : Removes s t) (hu : Removes s u) : Removes s (if p then t else u) := by
  split <;> assumption

/-- The block's groups, errors and place in its gang, gone. -/
theorem removes_removeBlock (s : State) (b : Nat) : Removes s (removeBlock s b) := by
  have hcalls : Removes s (if (ctxOf s (blkOf s b).ctx).calls.isEmpty then s else setCtx s (blkOf s b).ctx { ctxOf s (blkOf s b).ctx with
      calls := (ctxOf s (blkOf s b).ctx).calls.map fun e => (e.1, e.2.filter fun y => !(blkOf s b).groups.contains y.grp) }) :=
    removes_ite (Removes.refl s) (removes_setCalls s (blkOf s b).ctx _)
  unfold removeBlock
  dsimp only
  refine Removes.then_settleGrid ?_ _
  have hkern : ∀ {v : State}, Removes s v → ∀ m, Removes s (dropBanks (setKern v (blkOf s b).kern { kernOf s (blkOf s b).kern with openBlocks := m })) :=
    fun hv m => (hv.then_setKern _ { kernOf s (blkOf s b).kern with openBlocks := m } rfl).then_same rfl rfl rfl
  have hlinks : ∀ {v : State}, Removes s v → ∀ l, Removes s (setLinks v l) := fun hv l => hv.then_same rfl rfl rfl
  refine removes_ite (hkern (hlinks (removes_ite ?_ ?_) _) _) (Removes.then_settleGang (hkern (hlinks (removes_ite ?_ ?_) _) _) _)
  all_goals exact hcalls.then_same rfl rfl rfl

theorem removes_removeAll (bs : List Nat) : ∀ s : State, Removes s (removeAll s bs) := by
  induction bs with
  | nil => exact fun s => by rw [removeAll]; exact Removes.refl s
  | cons b bs ih => exact fun s => by rw [removeAll]; exact (removes_removeBlock s b).trans (ih _)

/-- A kernel as the teardown of a context leaves it. -/
def deadIn (ctx : Nat) (x : Kern) : Kern :=
  if x.ctx = ctx then { x with dead := true, killed := x.killed || x.todo.any (fun t => !t.2.isEmpty), todo := [] } else x
/-- A context whose teardown begins, before its blocks go. -/
def tornCtx (c : Ctx) : Ctx :=
  { c with st := .teardown, suspendFn := none, queues := [], graphs := [], rings := [], records := [], oldWaits := [], calls := [] }
theorem beginTeardown_eq {s : State} {ctx : Nat} (hst : ¬ ((ctxOf s ctx).st = .free ∨ (ctxOf s ctx).st = .teardown))
    (hsus : (ctxOf s ctx).suspendFn = none) : ∃ bs m l, beginTeardown s ctx = setLinks (removeAll
      { setCtx s ctx (tornCtx (ctxOf s ctx)) with kerns := s.kerns.map fun e => (e.1, deadIn ctx e.2), faults := m } bs) l := by
  have hmap : (s.kerns.map fun e => if e.2.ctx = ctx then
      (e.1, { e.2 with dead := true, killed := e.2.killed || e.2.todo.any (fun t => !t.2.isEmpty), todo := [] }) else e) =
      s.kerns.map fun e => (e.1, deadIn ctx e.2) := by
    refine List.map_congr_left fun e _ => ?_
    unfold deadIn
    split <;> rfl
  unfold beginTeardown
  rw [if_neg hst, hsus]
  dsimp only [setCtx]
  rw [hmap]
  exact ⟨_, _, _, rfl⟩
theorem beginTeardown_rest {s : State} {ctx : Nat} (hst : ¬ ((ctxOf s ctx).st = .free ∨ (ctxOf s ctx).st = .teardown))
    (hsus : (ctxOf s ctx).suspendFn = none) : (ctxOf (beginTeardown s ctx) ctx).st = .teardown ∧ (ctxOf (beginTeardown s ctx) ctx).queues = [] ∧
    (beginTeardown s ctx).fns = s.fns ∧
    ∀ k, (kernOf s k).ctx = ctx → (Map.find s.kerns k).isSome = true → (kernOf (beginTeardown s ctx) k).dead = true := by
  obtain ⟨bs, m, l, heq⟩ := beginTeardown_eq hst hsus
  have hrest := removes_removeAll bs { setCtx s ctx (tornCtx (ctxOf s ctx)) with kerns := s.kerns.map fun e => (e.1, deadIn ctx e.2), faults := m }
  have hctx := hrest.ctx ctx
  have htorn : ctxOf { setCtx s ctx (tornCtx (ctxOf s ctx)) with kerns := s.kerns.map fun e => (e.1, deadIn ctx e.2), faults := m } ctx =
      tornCtx (ctxOf s ctx) := ctxOf_setCtx s ctx _
  rw [htorn] at hctx
  rw [heq]
  refine ⟨(congrArg Ctx.st hctx :), (congrArg Ctx.queues hctx :), hrest.fns, fun k hk hfind => (hrest.dead k).trans ?_⟩
  have hlook : kernOf { setCtx s ctx (tornCtx (ctxOf s ctx)) with kerns := s.kerns.map fun e => (e.1, deadIn ctx e.2), faults := m } k =
      deadIn ctx (kernOf s k) := look_map (deadIn ctx) s.kerns _ (.inl hfind)
  rw [hlook, deadIn, if_pos hk]
/-- A security core that is not busy has no SUSPEND under way. -/
theorem suspendFn_of_idle {s : State} (h : coreBusy s = false) (ctx : Nat) : (ctxOf s ctx).suspendFn = none := by
  cases hfind : Map.find s.ctxs ctx with
  | none => rw [ctxOf, look_of_find_none hfind]
  | some x =>
    rw [ctxOf, look_of_find hfind]
    rw [coreBusy, Bool.or_eq_false_iff] at h
    have hx := List.any_eq_false.1 h.2 _ (mem_of_find hfind)
    rw [Bool.or_eq_true, not_or] at hx
    simpa using hx.1

/-! ### The wipe -/

theorem sorted_wipeOwned {s : State} (h : (s.ctxs.map Prod.fst).Pairwise (· < ·)) (ctx f : Nat) :
    ((wipeOwned ctx s f).ctxs.map Prod.fst).Pairwise (· < ·) := by
  obtain ⟨m, p, l, hw⟩ := wipeFrame_rest s f
  unfold wipeOwned
  dsimp only
  split
  · rw [returnFrame, hw]
    exact (sorted_put h ctx _).1
  · split
    · exact h
    · rw [(ownsOnly_disownFrame s f).ctxs]; exact h
theorem ctxs_leavePart (ctx : Nat) (s : State) (p : Nat) : (leavePart ctx s p).ctxs = s.ctxs := by
  unfold leavePart wipeRange cleanPoison blankLog
  split
  · rfl
  · split <;> rfl
theorem sorted_wiped {s : State} (h : (s.ctxs.map Prod.fst).Pairwise (· < ·)) (ctx : Nat) (fs ps : List Nat) :
    ((ps.foldl (leavePart ctx) (fs.foldl (wipeOwned ctx) s)).ctxs.map Prod.fst).Pairwise (· < ·) := by
  rw [foldl_keeps State.ctxs (f := leavePart ctx) (ctxs_leavePart ctx)]
  induction fs generalizing s with
  | nil => exact h
  | cons f fs ih => exact ih (sorted_wipeOwned h ctx f)

/-- The maps that the wipe of a context cleans. -/
def wipedMaps (s : State) : Map Ctx × List TlbEntry × Map Kern := (s.ctxs, s.tlb, s.kerns)
theorem wipedMaps_homeWrite (s : State) (m : MemName) (a : Nat) (bs : List Byte) : wipedMaps (homeWrite s m a bs) = wipedMaps s := by
  rw [homeWrite_eq]
  cases m <;> rfl
theorem wipedMaps_dropFlips (fs : List Nat) (s : State) : wipedMaps (dropFlips fs s) = wipedMaps s :=
  foldl_keeps wipedMaps (f := fun s (x : FlipOp) => setFn s x.fn { fnOf s x.fn with flipst := 3 }) (fun _ _ => rfl) _ s
theorem wipedMaps_cut (s : State) (c : Bool) (f : Nat) (e : ErrRec) (prot : Bool) :
    wipedMaps (if c = true then hostRecord s f e prot else s) = wipedMaps s := by
  split
  · exact hostRecord_keeps wipedMaps wipedMaps_homeWrite (fun _ _ _ => rfl) (fun _ _ => rfl) s f e prot
  · rfl
theorem wipedMaps_forgetCtx (s : State) (c : Nat) : wipedMaps (forgetCtx s c) = wipedMaps s := by
  unfold forgetCtx
  dsimp only
  split <;> rfl

/-- The state once a wiped context's frames, partitions, code, translations and kernels are gone. -/
def wipedOf (s : State) (ctx : Nat) : State :=
  let x := (partsOf (ctxOf s ctx).parts.toNat).foldl (leavePart ctx) (((ctxOf s ctx).leaves.flatMap leafFrames).foldl (wipeOwned ctx) s)
  dropFlips ((ctxOf s ctx).leaves.flatMap leafFrames) { x with
    cores := x.cores.map fun e => (e.1, dropCode ctx e.2)
    tlb := x.tlb.filter fun e => e.ctx != ctx
    kerns := x.kerns.filter fun e => e.2.ctx != ctx }
/-- The state once other members' operations on the context are cut off. -/
def cutOf (s : State) (ctx : Nat) : State :=
  if ((wipedOf s ctx).links.dst.any fun d => d.ctx == ctx) = true then
    hostRecord (wipedOf s ctx) (ctxOf s ctx).ld
      { partition := lowPart (wipedOf s ctx) ctx, unit := 5, severity := 4, kind := 3, ctx := ctx, world := (ctxOf s ctx).world } (ctxOf s ctx).prot
  else wipedOf s ctx
/-- Completes the DESTROY that began a teardown, where there is one. -/
def endDestroy (dfn : Option Nat) (s : State) : State :=
  match dfn with
  | some f => completeCmd s f 0
  | none => s
/-- The end of the wipe: what still names the context forgets it, and its DESTROY completes. -/
def wipeEnd (ctx : Nat) (dfn : Option Nat) (s : State) : State :=
  let s := setLinks s { s.links with dst := s.links.dst.map fun d => if d.ctx = ctx then { d with world := 64 } else d }
  let free (l : Launcher) : Launcher := if l.ctx = ctx then { l with ctx := 1024, ref := none, record := false } else l
  let s := setHall s { s.hall with posted := s.hall.posted.map free, origins := s.hall.origins.map fun e => (e.1, free e.2) }
  let live (v : Service) : Service := { v with areas := v.areas.filter fun x => x.2.ctx != ctx }
  let s := { s with services := s.services.map fun (e : Nat × Service) => (e.1, live e.2) }
  endDestroy dfn (forgetCtx { s with ctxs := Map.del s.ctxs ctx } ctx)
theorem wipeCtx_eq (s : State) (ctx : Nat) : wipeCtx s ctx = wipeEnd ctx (ctxOf s ctx).destroyFn (cutOf s ctx) := rfl
theorem wipeEnd_eq (ctx : Nat) (dfn : Option Nat) (v : State) : ∃ l h m, wipeEnd ctx dfn v =
    endDestroy dfn (forgetCtx { v with links := l, hall := h, services := m, ctxs := Map.del v.ctxs ctx } ctx) :=
  ⟨_, _, _, rfl⟩
theorem wipedMaps_endDestroy (dfn : Option Nat) (s : State) : wipedMaps (endDestroy dfn s) = wipedMaps s := by cases dfn <;> rfl
theorem wipedMaps_cutOf (s : State) (ctx : Nat) (h : (s.ctxs.map Prod.fst).Pairwise (· < ·)) : ((cutOf s ctx).ctxs.map Prod.fst).Pairwise (· < ·) ∧
    (∀ e ∈ (cutOf s ctx).tlb, e.ctx ≠ ctx) ∧ ∀ e ∈ (cutOf s ctx).kerns, e.2.ctx ≠ ctx := by
  have hmaps : wipedMaps (cutOf s ctx) = _ := (wipedMaps_cut _ _ _ _ _).trans (wipedMaps_dropFlips _ _)
  obtain ⟨hctxs, htlb, hkerns⟩ : _ ∧ _ ∧ _ := ⟨congrArg Prod.fst hmaps, congrArg (fun p => p.2.1) hmaps, congrArg (fun p => p.2.2) hmaps⟩
  dsimp only [wipedMaps] at hctxs htlb hkerns
  rw [hctxs, htlb, hkerns]
  exact ⟨sorted_wiped h ctx _ _, fun e he => by simpa using (List.mem_filter.1 he).2, fun e he => by simpa using (List.mem_filter.1 he).2⟩
/-- A wiped context's entry, translations and kernels are gone, and its DESTROY completes. -/
theorem wipeCtx_rest {s : State} {ctx : Nat} (h : (s.ctxs.map Prod.fst).Pairwise (· < ·)) : Map.find (wipeCtx s ctx).ctxs ctx = none ∧
    (∀ e ∈ (wipeCtx s ctx).tlb, e.ctx ≠ ctx) ∧ (∀ e ∈ (wipeCtx s ctx).kerns, e.2.ctx ≠ ctx) ∧
    ∀ f, (ctxOf s ctx).destroyFn = some f → Completed (wipeCtx s ctx) f 0 := by
  obtain ⟨l, hall, m, heq⟩ := wipeEnd_eq ctx (ctxOf s ctx).destroyFn (cutOf s ctx)
  obtain ⟨hsorted, htlb, hkerns⟩ := wipedMaps_cutOf s ctx h
  have hmaps := (wipedMaps_endDestroy (ctxOf s ctx).destroyFn _).trans (wipedMaps_forgetCtx
    { cutOf s ctx with links := l, hall := hall, services := m, ctxs := Map.del (cutOf s ctx).ctxs ctx } ctx)
  rw [← heq, ← wipeCtx_eq] at hmaps
  have hfst := congrArg Prod.fst hmaps
  have hsnd := congrArg (fun p => p.2.1) hmaps
  have hthd := congrArg (fun p => p.2.2) hmaps
  dsimp only [wipedMaps] at hfst hsnd hthd
  rw [hfst, hsnd, hthd]
  refine ⟨find_del_sorted hsorted ctx, htlb, hkerns, fun f hf => ?_⟩
  rw [wipeCtx_eq, heq, hf]
  exact completed_completeCmd _ f 0

theorem contextLives : Statements.ContextLives := by
  intro s f a0 a1 a2 a3 l ctx c u posted hc
  refine ⟨fun hs h2 h3 => ⟨fun h hw hpres hr hwr hcls hal hq hp => ?_, fun h hw hp => ?_, fun h hg hp => ?_, fun h h1 hq hp => ?_,
    fun h h1 hp => ?_, fun st h hst hp => ?_⟩, fun hst hsorted hp => ?_, fun hst hp => ?_⟩
  · have husable : ¬ (a1.toNat % 4096 ≠ 0 ∨ (match walk s a0.toNat a1.toNat with
        | some l => leafPresent l && l.r && l.w && (l.cls == 0 || l.cls == 1)
        | none => false) = false) := by
      rw [show walk s a0.toNat a1.toNat = some l from hw]
      have hclass : l.cls = 0 ∨ l.cls = 1 := by omega
      rcases hclass with hclass | hclass <;> simp [hal, hpres, hr, hwr, hclass]
    have hnone (m : Ctx) (hm : m.queues = c.queues) : ∀ q, (queueOf (pageHeader (setCtx u ctx m) ctx) ctx q).latched = false := fun q => by
      rw [queueOf, ctxOf_pageHeader, ctxOf_setCtx, hm]; exact hq q
    refine ⟨_, (exec_seal_assembling hs hp a1 a2 a3 hc h2 h3 h).trans (congrArg _ (if_neg husable)), completed_completeCmd _ f 0, ?_⟩
    rw [ctxOf_completeCmd, actLatched_of_none (hnone _ (by rfl)), ctxOf_pageHeader, ctxOf_setCtx]
    exact ⟨rfl, rfl, rfl⟩
  · refine ⟨_, (exec_seal_assembling hs hp a1 a2 a3 hc h2 h3 h).trans (congrArg _ (if_pos (.inr ?_))), rfl⟩
    rw [show walk s a0.toNat a1.toNat = none from hw]
  · have hgangs (m : Ctx) : gangsOf (setCtx u ctx m) ctx = [] := hg
    obtain ⟨⟨x, hx⟩, hposts⟩ := postEvent_posts (setCtx u ctx { c with suspendFn := some f, bound := a1.toNat })
      { kind := 3, ctx := ctx, world := c.world, pay := payOf (bytesOfNat 4 (min a1.toNat 0xFFFFFFFF)) }
    have hexec := exec_suspend_sealed hs hp a1 a2 a3 hc h2 h3 h
    dsimp only at hexec
    rw [preemptCtx_of_none _ (hgangs _), endSuspend_of_none f (by rw [hx]; exact hg)] at hexec
    refine ⟨_, hexec, completed_completeCmd _ f 0, ?_, _, hposts, rfl, rfl⟩
    rw [ctxOf_completeCmd, ctxOf_setCtx]
  · have hnone (m : Ctx) (hm : m.queues = c.queues) : ∀ q, (queueOf (setCtx u ctx m) ctx q).latched = false := fun q => by
      rw [queueOf, ctxOf_setCtx, hm]; exact hq q
    obtain ⟨⟨x, hx⟩, hposts⟩ := postEvent_posts (setCtx u ctx { c with st := .sealed }) { kind := 4, ctx := ctx, world := c.world, pay := payOf [] }
    have hexec := exec_resume_suspended hs hp a1 a2 a3 hc h2 h3 h h1
    dsimp only at hexec
    rw [actLatched_of_none (hnone _ (by rfl))] at hexec
    refine ⟨_, hexec, completed_completeCmd _ f 0, ?_, _, hposts, rfl, rfl⟩
    rw [ctxOf_completeCmd, hx]
    exact congrArg Ctx.st (ctxOf_setCtx u ctx _)
  · obtain ⟨st, hholds, hst⟩ : ∃ st, Holds s f ctx st ∧ (st = .assembling ∨ st = .sealed ∨ st = .suspended) := by
      rcases h with h | h | h
      · exact ⟨_, h, .inl rfl⟩
      · exact ⟨_, h, .inr (.inl rfl)⟩
      · exact ⟨_, h, .inr (.inr rfl)⟩
    have hstate : (ctxOf s ctx).st = st := hholds.2.2
    have hlive : ¬ ((ctxOf u ctx).st = .free ∨ (ctxOf u ctx).st = .teardown) := by
      rw [ctxOf_serving, hstate]
      rcases hst with rfl | rfl | rfl <;> decide
    obtain ⟨hteardown, hqueues, hfns, hdead⟩ := beginTeardown_rest hlive (suspendFn_of_idle (s := u) hs.2.2.1 ctx)
    refine ⟨_, exec_destroy_live hs hp a1 a2 a3 hc h2 h3 hholds hst h1, ?_, ?_, ?_, ?_, hdead⟩
    · rw [ctxOf_setCtx]; exact hteardown
    · rw [ctxOf_setCtx]
    · rw [ctxOf_setCtx]; exact hqueues
    · have hbusy : (fnOf u f).busy = true := by rw [show fnOf u f = _ from fnOf_setFn s f _]
      rw [fnOf] at hbusy ⊢
      rw [← hbusy]
      exact congrArg (fun m : Map Fn => (Map.look m f {}).busy) hfns
  · exact ⟨_, exec_seal_other hs hp a1 a2 a3 hc h2 h3 h hst, rfl⟩
  · obtain ⟨hfree, htlb, hkerns, hcompleted⟩ := wipeCtx_rest (ctx := ctx) hsorted
    exact ⟨_, (if_pos hp).trans (if_pos hst), hfree, htlb, hkerns, hcompleted f⟩
  · exact ⟨s, (if_pos hp).trans (if_neg hst), rfl⟩

/-- Settles O49: each command by the context it finds, and the wipe as a deletion from sorted entries. -/
theorem contextMaps : Obligations.ContextMaps := ⟨contextMaps_maps, contextLives⟩

end Sys2Proof.Machine
end

