-- ==== Sys2Proof/Proofs/PackageState.lean ====
section
/-!
PROOFS. Proofs/PackageState.lean: life-cycle tokens, resets and power (R389, R390), and the state table's items (R76, R79, R333, R354, R377).
-/
namespace Sys2Proof.Machine

/-! ### The life cycle -/

theorem toLife_rest (s : State) (l : Life) : (toLife s l).pkg.life = l ∧ (toLife s l).dev = [] ∧ (toLife s l).ctxs = [] ∧ (toLife s l).groups = [] ∧
    (toLife s l).pkg.minVersion = s.pkg.minVersion := by
  unfold toLife
  dsimp only
  split <;> exact ⟨rfl, rfl, rfl, rfl, rfl⟩

section
variable (s : State) (kind : Nat) (tok : List Byte) (src : List Life) (dst : Life)
theorem useToken_eq (hp : s.pkg.power = true) : useToken s kind tok src dst =
    if Config.signatureOk s.pkg.keyHash kind tok = true ∧ s.pkg.life ∈ src then
      if s.pkg.life = .deployed → ∀ e ∈ s.ctxs, e.2.st = .free then .next (toLife s dst) else .next (emit s (.spdmError 0 1))
    else .next s := by
  unfold useToken
  rw [if_pos hp]
  refine ite_congr (by simp) (fun _ => ite_congr ?_ (fun _ => rfl) fun _ => rfl) fun _ => rfl
  simp [← Decidable.imp_iff_not_or, -imp_false]
/-- What a token does, by whether it verifies, the life cycle's state and the contexts. -/
theorem useToken_moves {i : Instr} (hi : exec i s = useToken s kind tok src dst) :
    let free : Prop := s.pkg.life = .deployed → ∀ e ∈ s.ctxs, e.2.st = .free
    (Config.signatureOk s.pkg.keyHash kind tok = true → s.pkg.life ∈ src → free → Comes i s fun t => t.pkg.life = dst ∧ t.dev = [] ∧ t.ctxs = [] ∧
      t.groups = [] ∧ t.pkg.minVersion = s.pkg.minVersion) ∧
    (Config.signatureOk s.pkg.keyHash kind tok = true → s.pkg.life ∈ src → ¬ free → Comes i s fun t => t = emit s (.spdmError 0 1)) ∧
    (Config.signatureOk s.pkg.keyHash kind tok = false ∨ s.pkg.life ∉ src → Comes i s fun t => t = s) := by
  refine ⟨fun hsig hsrc hfree hp => ?_, fun hsig hsrc hfree hp => ?_, fun h hp => ?_⟩
  · exact ⟨_, hi.trans ((useToken_eq s kind tok src dst hp).trans ((if_pos ⟨hsig, hsrc⟩).trans (if_pos hfree))), toLife_rest s dst⟩
  · exact ⟨_, hi.trans ((useToken_eq s kind tok src dst hp).trans ((if_pos ⟨hsig, hsrc⟩).trans (if_neg hfree))), rfl⟩
  · refine ⟨s, hi.trans ((useToken_eq s kind tok src dst hp).trans (if_neg ?_)), rfl⟩
    rintro ⟨hsig, hsrc⟩
    exact h.elim (fun hf => by simp [hf] at hsig) (fun hn => hn hsrc)
end

theorem lifeCycle : Statements.LifeCycle := by
  intro s tok free moves
  refine ⟨useToken_moves s 1 tok _ _ rfl, useToken_moves s 2 tok _ _ rfl, useToken_moves s 3 tok _ _ rfl, useToken_moves s 4 tok _ _ rfl,
    useToken_moves s 5 tok _ _ rfl, ?_⟩
  rintro i (rfl | rfl)
  · exact ⟨_, rfl, rfl, rfl, rfl, rfl, rfl, rfl, rfl, rfl, rfl, rfl, rfl, rfl, rfl, rfl, rfl, rfl, rfl, rfl, rfl, rfl, rfl, rfl, rfl, rfl, rfl⟩
  · exact ⟨_, rfl, rfl, rfl, rfl, rfl, rfl, rfl, rfl, rfl, rfl, rfl, rfl, rfl, rfl, rfl, rfl, rfl, rfl, rfl, rfl, rfl, rfl, rfl, rfl, rfl, rfl⟩

/-! ### The items of the state table -/

/-- An item other than the wing's stop takes effect while a wing may act. -/
theorem ite_acts {α : Type} {s : State} (hp : s.pkg.power = true) (hw : wingActs s = true) {it : TableItem} (hit : it ≠ .wingStops) (a b c d : α) :
    (if s.pkg.power = true then if it = .wingStops then a else if wingActs s = false then b else c else d) = c :=
  (if_pos hp).trans ((if_neg hit).trans (if_neg (by simp [hw])))

/-! Each item while a wing may act. -/
section
variable {s : State} (hp : s.pkg.power = true) (hw : wingActs s = true)
include hp hw
theorem execItem_windows (ws : List Nat) : execStateTableChange (.windows ws) s = .next (bindWindows s ws) := ite_acts hp hw (by simp) _ _ _ _
theorem execItem_firmware (fs : List Nat) : execStateTableChange (.firmware fs) s = .next (carveFirmware s fs) := ite_acts hp hw (by simp) _ _ _ _
theorem execItem_sliceLength (p n : Nat) : execStateTableChange (.sliceLength p n) s =
    .next (if p < 24 ∧ n < 256 then setPkg s { s.pkg with slices := Map.put s.pkg.slices p n } else s) := ite_acts hp hw (by simp) _ _ _ _
theorem execItem_weight (p w : Nat) : execStateTableChange (.weight p w) s =
    .next (if p < 24 ∧ 1 ≤ w ∧ w < 256 then setPkg s { s.pkg with weights := Map.put s.pkg.weights p w } else s) := ite_acts hp hw (by simp) _ _ _ _
theorem execItem_allot (c f : Nat) : execStateTableChange (.allot c f) s =
    .next (if c < 1024 ∧ f < 16 then setPkg s { s.pkg with allots := Map.put s.pkg.allots c f } else s) := ite_acts hp hw (by simp) _ _ _ _
theorem execItem_atsLimit (n : Nat) : execStateTableChange (.atsLimit n) s = .next (setPkg s { s.pkg with atsLimit := n }) :=
  ite_acts hp hw (by simp) _ _ _ _
theorem execItem_memberIndex (m : Nat) : execStateTableChange (.memberIndex m) s =
    .next (if m < 256 then setHall s { s.hall with self := m } else s) := ite_acts hp hw (by simp) _ _ _ _
theorem execItem_configured (ms : List Nat) : execStateTableChange (.configured ms) s =
    .next (setHall s { s.hall with configured := ms.filter fun m => decide (m < 256) }) := ite_acts hp hw (by simp) _ _ _ _
theorem execItem_route (m : Nat) (ports : List Nat) : execStateTableChange (.route m ports) s = .next (if m < 256 then
    reroute (setPkg s { s.pkg with routes := Map.put s.pkg.routes m ((ports.filter fun p => decide (p < 24)).take 4) }) else s) :=
  ite_acts hp hw (by simp) _ _ _ _
theorem execItem_budget (c kind n : Nat) : execStateTableChange (.budget c kind n) s = .next (if (Map.find s.ctxs c).isSome ∧ kind < 5 then
    setCtx s c { ctxOf s c with budget := Map.put (ctxOf s c).budget kind (min n 0xFFFFFFFF) } else s) := ite_acts hp hw (by simp) _ _ _ _
theorem execItem_binding (m c ps w : Nat) : execStateTableChange (.binding m c ps w) s = .next (if m < 256 ∧ c < 1024 then
    if ps % 2 ^ 24 = 0 then
      forgetCtx (setHall s { s.hall with bindings := Map.put s.hall.bindings (1024 * m + c) (ps % 2 ^ 24 + 2 ^ 24 * (w % 64)) }) c
    else setHall s { s.hall with bindings := Map.put s.hall.bindings (1024 * m + c) (ps % 2 ^ 24 + 2 ^ 24 * (w % 64)) } else s) :=
  ite_acts hp hw (by simp) _ _ _ _
theorem execItem_carve (d : Nat) (units : List Nat) : execStateTableChange (.carve d units) s = .next (if d < 4 then carveDie s d units else s) :=
  ite_acts hp hw (by simp) _ _ _ _
theorem execItem_larder (p : Nat) (fs : List Nat) : execStateTableChange (.larder p fs) s =
    .next (if p < 24 then setLarderFrames s p fs else s) := ite_acts hp hw (by simp) _ _ _ _
theorem execItem_fwClaim (c cls o : Nat) : execStateTableChange (.fwClaim c cls o) s = .next (wingClaim s c cls o) :=
  ite_acts hp hw (by simp) _ _ _ _
end

/-- Firmware frames take the owner of none; no other frame changes. -/
theorem ownOf_carveFirmware (s : State) (fs : List Nat) (x : Nat) : ownOf (carveFirmware s fs) x =
    if (x ∈ fs ∧ x * 65536 < 24 * 2 ^ 35) ∧ (ownOf s x).use = 0 then { use := 2 } else ownOf s x := by
  have hone (s : State) (f : Nat) : ownOf (if (ownOf s f).use = 0 then setOwn (wipeFrame s f) f { use := 2 } else s) x =
      if x = f ∧ (ownOf s x).use = 0 then { use := 2 } else ownOf s x := by
    by_cases hu : (ownOf s f).use = 0
    · obtain ⟨m, p, l, h⟩ := wipeFrame_rest s f
      rw [if_pos hu, h]
      by_cases hx : x = f
      · subst hx
        rw [if_pos ⟨rfl, hu⟩]
        exact look_put_same s.own x _ _
      · rw [if_neg fun hc => hx hc.1]
        exact look_put_other s.own _ _ hx
    · rw [if_neg hu, if_neg]
      rintro ⟨rfl, h⟩
      exact hu h
  have hall (l : List Nat) : ∀ s : State, ownOf (l.foldl (fun s f => if (ownOf s f).use = 0 then setOwn (wipeFrame s f) f { use := 2 } else s) s) x =
      if x ∈ l ∧ (ownOf s x).use = 0 then { use := 2 } else ownOf s x := by
    induction l with
    | nil => exact fun s => by simp
    | cons f l ih =>
      intro s
      rw [List.foldl_cons, ih, hone]
      by_cases hx : x = f
      · subst hx
        by_cases hu : (ownOf s x).use = 0 <;> simp [hu]
      · simp [hx]
  rw [carveFirmware, hall]
  exact ite_congr (by simp) (fun _ => rfl) fun _ => rfl

theorem find_range {α : Type} (g : Nat → α) (n q : Nat) : Map.find ((List.range n).map fun p => (p, g p)) q = if q < n then some (g q) else none := by
  induction n with
  | zero => rfl
  | succ n ih =>
    rw [List.range_succ, List.map_append, find_append, ih]
    rcases Nat.lt_trichotomy q n with h | h | h
    · simp [h, Nat.lt_succ_of_lt h]
    · subst h; simp [Map.find]
    · simp [Map.find, show ¬ q < n by omega, show ¬ q < n + 1 by omega, show n ≠ q by omega]
theorem look_windows (ms : List Nat) {q : Nat} (h : q < 24) : Map.look ((List.range 24).map fun p => (p, ms.getD p 0)) q 0 = ms.getD q 0 :=
  look_of_find ((find_range (fun p => ms.getD p 0) 24 q).trans (if_pos h)) 0
/-- A loop that sets some keys of a map. -/
theorem look_foldl_put {α : Type} (g : Nat → α) (d : α) (l : List Nat) (q : Nat) : ∀ m : Map α,
    Map.look (l.foldl (fun m k => Map.put m k (g k)) m) q d = if q ∈ l then g q else Map.look m q d := by
  induction l with
  | nil => exact fun m => by simp
  | cons k l ih =>
    intro m
    rw [List.foldl_cons, ih]
    by_cases hl : q ∈ l
    · simp [hl]
    · by_cases hk : q = k
      · subst hk; simp [look_put_same]
      · simp [hl, hk, look_put_other _ _ _ hk]

theorem wingActs_iff (s : State) : wingActs s = true ↔ s.pkg.update = none ∧ s.pkg.noWing = false ∧ s.pkg.life ≠ .decommissioned := by
  simp [wingActs, and_assoc]

theorem bindings_forgetCtx (s : State) (c : Nat) : (forgetCtx s c).hall.bindings = s.hall.bindings := by
  unfold forgetCtx
  dsimp only
  split <;> rfl
/-- A larder holds none but the frames offered. -/
theorem mem_larder (s : State) (p : Nat) (fs : List Nat) : ∀ x ∈ larderOf (setLarderFrames s p fs) p, x ∈ fs := by
  intro x hx
  unfold setLarderFrames at hx
  dsimp only at hx
  rw [larderOf, setLarder, setPkg, look_put_same, List.mem_append] at hx
  rcases hx with hx | hx
  · simpa using (List.mem_filter.1 hx).2
  · exact (List.mem_filter.1 (List.mem_eraseDups.1 hx)).1

theorem wingClaim_unowned {s : State} {c cls o : Nat} (hc : (Map.find s.ctxs c).isSome = true) (hcls : claimClass cls = true)
    (h : ownerOf (ctxOf s c) cls = 0) (ho : o = 3 ∨ o = 4) : wingClaim s c cls o = setClaim s c cls o := by
  refine (if_neg ?_).trans ((if_neg (by omega)).trans (if_pos ⟨h, ho⟩))
  simp [hcls, Option.isSome_iff_ne_none.1 hc]

/-- Whose budget a unit's period renews, and for which of its units. -/
def budgetKind : BudgetUnit → Nat × Nat
  | .copy u => (0, u)
  | .link u => (1, u)
  | .service u => (2, u)
  | .hold u => (3, u)
  | .matrix u => (4, u)
theorem execBudgetPeriod_eq {s : State} (hp : s.pkg.power = true) (unit : BudgetUnit) : execBudgetPeriod unit s =
    if (budgetKind unit).1 = 1 then .next (portFlush (budgetKind unit).2 (portAt s (budgetKind unit).2).sendQ.length (refill s 1 (budgetKind unit).2))
    else .next (refill s (budgetKind unit).1 (budgetKind unit).2) := by
  cases unit <;> exact if_pos hp
theorem find_refill (s : State) (kind unit : Nat) {c : Nat} {l : Int} (h : Map.find (ctxOf s c).left (budgetKey kind unit) = some l) :
    Map.find (ctxOf (refill s kind unit) c).left (budgetKey kind unit) = some (budgetOf (ctxOf s c) kind + min l 0) := by
  cases hc : Map.find s.ctxs c with
  | none =>
    rw [ctxOf, look_of_find_none hc] at h
    simp [Map.find] at h
  | some x =>
    have hnew : ctxOf (refill s kind unit) c = refillCtx kind unit (ctxOf s c) :=
      look_map (refillCtx kind unit) s.ctxs _ (.inl (by simp [hc]))
    rw [hnew, refillCtx, h]
    exact find_put_same _ _ _

/-- The shares of a die's partitions that change. -/
def recarved (s : State) (d : Nat) (units : List Nat) : List Nat :=
  ((List.range 6).map (· + 6 * d)).filter fun q => units.getD (q - 6 * d) 0 != Map.look s.pkg.carve q 0
theorem carve_foldl (g : Nat → Nat) (l : List Nat) : ∀ s : State,
    (l.foldl (fun s p => setPkg (wipeRange s (.die p) 0 (2 ^ 27)) { (wipeRange s (.die p) 0 (2 ^ 27)).pkg with
      carve := Map.put (wipeRange s (.die p) 0 (2 ^ 27)).pkg.carve p (g p) }) s).pkg.carve = l.foldl (fun m k => Map.put m k (g k)) s.pkg.carve := by
  induction l with
  | nil => exact fun s => rfl
  | cons p l ih =>
    intro s
    rw [List.foldl_cons, List.foldl_cons, ih]
    have hpkg : (wipeRange s (.die p) 0 (2 ^ 27)).pkg = s.pkg := by
      unfold wipeRange cleanPoison blankLog
      split <;> rfl
    simp only [setPkg, hpkg]
theorem carve_carved (s : State) (d : Nat) (units : List Nat) {q : Nat} (hlo : 6 * d ≤ q) (hhi : q < 6 * d + 6) :
    Map.look ((recarved s d units).foldl (fun s p => setPkg (wipeRange s (.die p) 0 (2 ^ 27)) { (wipeRange s (.die p) 0 (2 ^ 27)).pkg with
      carve := Map.put (wipeRange s (.die p) 0 (2 ^ 27)).pkg.carve p (units.getD (p - 6 * d) 0) }) s).pkg.carve q 0 = units.getD (q - 6 * d) 0 := by
  rw [carve_foldl (fun p => units.getD (p - 6 * d) 0), look_foldl_put (fun p => units.getD (p - 6 * d) 0)]
  split
  · rfl
  · next h =>
    refine Classical.byContradiction fun hne => h (List.mem_filter.2 ⟨List.mem_map.2 ⟨q - 6 * d, by simp; omega, by omega⟩, ?_⟩)
    simpa using fun he => hne he.symm

theorem stateTable : Statements.StateTable := by
  intro s it p n m c f k d w port ports ms units vs cls o b at_ ws unit changed kind change
  refine ⟨wingActs_iff s, fun hw hit hp => ?_, fun hb hlen hlt hnd hown hctxs hw hp => ?_, fun h hw hp => ?_, fun hw hp => ?_, fun h1 h2 hw hp => ?_,
    fun h1 h2 h3 hw hp => ?_, fun h1 h2 hw hp => ?_, fun hw hp => ?_, fun h1 hw hp => ?_, fun hw hp => ?_, fun h1 h2 hw hp => ?_,
    fun h1 h2 hw hp => ?_, fun h1 h2 hw hp => ?_, fun hd => ⟨fun h hw hp => ?_, fun h1 h2 hw hp => ?_⟩, fun h1 hw hp => ?_,
    fun h1 h2 h3 h4 hw hp => ?_, fun l h1 h2 hp => ?_, fun h1 hp => ?_, fun h1 hp => ?_⟩
  · exact ⟨s, (if_pos hp).trans ((if_neg hit).trans (if_pos hw)), rfl⟩
  · refine ⟨_, (execItem_windows hp hw ms).trans (congrArg _ (if_pos ⟨hb, hlen, by simpa using hlt, hnd, hown, hctxs⟩)), fun q hq => look_windows ms hq, rfl, rfl⟩
  · refine ⟨s, (execItem_windows hp hw ms).trans (congrArg _ (if_neg ?_)), rfl⟩
    rintro ⟨hb, -, -, -, hown, hctxs⟩
    rcases h with h | h | h
    · simp [hb] at h
    · exact h hown
    · exact h hctxs
  · refine ⟨_, execItem_firmware hp hw ms, fun x hx hlt hu => ?_, fun x h => ?_⟩
    · rw [ownOf_carveFirmware, if_pos ⟨⟨hx, by omega⟩, hu⟩]
    · rw [ownOf_carveFirmware, if_neg]
      rintro ⟨⟨hx, -⟩, hu⟩
      exact h.elim (fun hn => hn hx) (fun hn => hn hu)
  · exact ⟨_, (execItem_sliceLength hp hw p n).trans (congrArg _ (if_pos ⟨h1, h2⟩)), look_put_same _ p n 0, rfl⟩
  · exact ⟨_, (execItem_weight hp hw p w).trans (congrArg _ (if_pos ⟨h1, h2, h3⟩)), look_put_same _ p w 0, rfl⟩
  · exact ⟨_, (execItem_allot hp hw c f).trans (congrArg _ (if_pos ⟨h1, h2⟩)), find_put_same _ c f, rfl⟩
  · exact ⟨_, execItem_atsLimit hp hw n, rfl⟩
  · exact ⟨_, (execItem_memberIndex hp hw m).trans (congrArg _ (if_pos h1)), rfl⟩
  · exact ⟨_, execItem_configured hp hw ms, rfl⟩
  · refine ⟨_, (execItem_route hp hw m ports).trans (congrArg _ (if_pos h1)), ?_, ?_⟩
    · rw [reroute, (rerouteFrom_rest _ 24).1]
      exact look_put_same _ m _ []
    · rw [reroute, (rerouteFrom_rest _ 24).2.1]
      rfl
  · refine ⟨_, (execItem_budget hp hw c k n).trans (congrArg _ (if_pos ⟨h1, h2⟩)), ?_⟩
    dsimp only
    rw [ctxOf_setCtx]
    exact look_put_same _ k _ _
  · refine ⟨_, (execItem_binding hp hw m c n w).trans (congrArg _ (if_pos ⟨h1, h2⟩)), ?_⟩
    have hset := look_put_same s.hall.bindings (1024 * m + c) (n % 2 ^ 24 + 2 ^ 24 * (w % 64)) 0
    dsimp only
    split
    · rw [bindings_forgetCtx]; exact hset
    · exact hset
  · exact ⟨s, (execItem_carve hp hw d units).trans (congrArg _ ((if_pos hd).trans (if_pos (h.symm.imp_left id)))), rfl⟩
  · refine ⟨_, (execItem_carve hp hw d units).trans (congrArg _ ((if_pos hd).trans (if_neg ?_))), fun q hlo hhi => ?_⟩
    · exact fun h => h.elim (fun hn => absurd h2 (Nat.not_le.2 hn)) (fun hn => by rw [show _ = false from h1] at hn; exact absurd hn (by simp))
    · exact carve_carved s d units hlo hhi
  · exact ⟨_, (execItem_larder hp hw p ms).trans (congrArg _ (if_pos h1)), mem_larder s p ms⟩
  · refine ⟨_, execItem_fwClaim hp hw c cls o, ?_⟩
    have hkind := class_of_owner (c := ctxOf s c) (cls := cls) (by rw [h3]; decide)
    rw [wingClaim_unowned h2 h1 h3 h4]
    exact ownerOf_setClaim s c cls o hkind
  · refine ⟨_, (execBudgetPeriod_eq hp unit).trans (if_neg h1), ?_⟩
    exact find_refill s kind.1 kind.2 h2
  · exact ⟨_, (execBudgetPeriod_eq hp unit).trans (if_pos h1), rfl⟩
  · refine ⟨_, (if_pos hp).trans (if_neg (Nat.not_le.2 h1)), ?_⟩
    have hnew := look_put_same s.ldevs d (if b = true then
      { bound := true, windows := ws, atomics := at_, port := port % 2, vfs := vs.filter fun v => decide (1 ≤ v) && decide (v ≤ 64) &&
        !(s.ldevs.any fun e => e.1 != d && e.2.vfs.contains v) } else {}) ({} : LDev)
    dsimp only
    rw [hnew]
    cases b with
    | false => exact ⟨rfl, rfl, rfl, rfl, by simp, rfl⟩
    | true =>
      refine ⟨rfl, rfl, rfl, rfl, fun v => ?_, rfl⟩
      simp [and_assoc]

/-- Settles O53: tokens by state and signature, and each item of the state table by its guard. -/
theorem packageState : Obligations.PackageState := ⟨lifeCycle, stateTable⟩

end Sys2Proof.Machine
end

