-- ==== Sys2Proof/Proofs/QueueCompletion.lean ====
section
/-!
PROOFS. Proofs/QueueCompletion.lean: the end of queue commands and queues, completion records (R84, R89, R93), and notifications (R83, R91).
-/
namespace Sys2Proof.Machine

/-! ### Advancing a queue -/

theorem advanceQueue_rest : ∀ (n : Nat) (x : Queue), x.done ≤ (advanceQueue n x).done ∧ (advanceQueue n x).head = x.head ∧ (advanceQueue n x).tail = x.tail
  | 0, x => ⟨Nat.le_refl _, rfl, rfl⟩
  | n + 1, x => by
    rw [advanceQueue]
    split
    · split
      · obtain ⟨hdone, hhead, htail⟩ := advanceQueue_rest n { x with done := x.done + 1, cmds := x.cmds.filter fun y => y.seq != _ }
        exact ⟨Nat.le_of_succ_le hdone, hhead, htail⟩
      · exact ⟨Nat.le_refl _, rfl, rfl⟩
    · exact ⟨Nat.le_refl _, rfl, rfl⟩
/-- The oldest command, complete, is counted. -/
theorem advanceQueue_counts (n : Nat) {x : Queue} {r : RunCmd} (h : x.cmds.find? (fun r => r.seq == x.done) = some r) (hr : r.fin = true ∧ r.out = some 0) :
    x.done < (advanceQueue (n + 1) x).done := by
  rw [advanceQueue, h]
  dsimp only
  rw [if_pos hr]
  exact Nat.lt_of_succ_le (advanceQueue_rest n { x with done := x.done + 1, cmds := x.cmds.filter fun y => y.seq != r.seq }).1
theorem restQueue_rest (x : Queue) : (restQueue x).done = x.done ∧ (restQueue x).head = x.head ∧ (restQueue x).tail = x.tail := by
  unfold restQueue
  split
  · exact ⟨rfl, rfl, rfl⟩
  · split <;> exact ⟨rfl, rfl, rfl⟩
theorem find_finished {cmds : List RunCmd} {n : Nat} {r : RunCmd} (hr : r.seq = n) (hmem : r ∈ cmds) :
    (cmds.map fun y => if y.seq = n then { r with fin := true } else y).find? (fun y => y.seq == n) = some { r with fin := true } := by
  induction cmds with
  | nil => simp at hmem
  | cons y cmds ih =>
    by_cases hy : y.seq = n
    · simp [hy, hr]
    · have hne : r ≠ y := fun h => hy (h ▸ hr)
      simpa [hy] using ih ((List.mem_cons.1 hmem).resolve_left hne)

/-! ### Completion -/

/-- What is recorded once a record is written. -/
def afterRecord (src : Option CmdRef) (s : State) : State := match src with
  | some y => recordedRef s y
  | none => s

section
variable {s : State} (hp : s.pkg.power = true)
include hp
theorem execCommandComplete_cmd (ctx q n : Nat) : (∀ r, (queueOf s ctx q).cmds.find? (fun r => r.seq == n && r.out.isSome && r.recorded && !r.fin) = some r →
    let cmds := (queueOf s ctx q).cmds.map fun y => if y.seq = n then { r with fin := true } else y
    execCommandComplete (.cmd ctx q n) s = .next (putQueue s ctx q (restQueue (advanceQueue cmds.length { queueOf s ctx q with cmds := cmds })))) ∧
    ((queueOf s ctx q).cmds.find? (fun r => r.seq == n && r.out.isSome && r.recorded && !r.fin) = none →
      execCommandComplete (.cmd ctx q n) s = .next s) :=
  ⟨fun r h => (if_pos hp).trans (by dsimp only; rw [h]), fun h => (if_pos hp).trans (by dsimp only; rw [h])⟩
theorem execQueueOff_eq (ctx q : Nat) : execQueueOff ctx q s =
    let x := queueOf s ctx q
    let t := putQueue s ctx q { x with st := .off, closing := false, met := false, cmds := [] }
    if (x.closing && x.cmds.all fun r => r.fin) = true then
      if x.latched = true ∧ (ctxOf s ctx).st = .sealed then .next (actNotify (setQueue t ctx q { queueOf t ctx q with latched := false }) ctx q)
      else .next t
    else .next s := by
  refine (if_pos hp).trans ?_
  dsimp only
  rw [ctxOf_putQueue_same]
theorem execCompletionRecord_waits (ctx i : Nat) {w : WaitRec} (h : (ctxOf s ctx).records[i]? = some w)
    (hrec : tryRecord s ctx w.ring w.words = none) : execCompletionRecord ctx i s = .next s := by
  unfold execCompletionRecord
  rw [if_pos hp]
  simp only [h, hrec, ite_self]
theorem execCompletionRecord_stored (ctx i : Nat) {w : WaitRec} {t : State} (h : (ctxOf s ctx).records[i]? = some w)
    (hfirst : ∀ y ∈ (ctxOf s ctx).records.take i, y.ring ≠ w.ring) (hrec : tryRecord s ctx w.ring w.words = some t) :
    execCompletionRecord ctx i s = .next (afterRecord w.src (setCtx t ctx { ctxOf t ctx with records := (ctxOf t ctx).records.eraseIdx i })) := by
  have hany : ¬ ((ctxOf s ctx).records.take i).any (fun x => x.ring == w.ring) = true := by simpa using hfirst
  unfold execCompletionRecord
  rw [if_pos hp]
  simp only [h, hrec]
  rw [if_neg hany]
  rfl
end

theorem queueCompletion_commands : Statements.QueueCompletion := by
  intro s s' ctx q n m i r w x g rs stored
  refine ⟨fun hr hout hdone hp => ?_, fun h hp => ⟨s, (execCommandComplete_cmd hp ctx q n).2 h, rfl⟩, fun h1 h2 h3 hp => ?_,
    fun hc hfin h hp => ?_, fun hc hfin hl hst => ?_, fun h hp => ?_, fun hw hfirst hrec hp => ?_, fun hw hrec hp => ?_⟩
  · obtain ⟨hmem, hfound⟩ : r ∈ x.cmds ∧ r.seq = n := ⟨List.mem_of_find?_eq_some hr, by
      have := List.find?_some hr
      simp only [Bool.and_eq_true, beq_iff_eq] at this
      exact this.1.1.1⟩
    refine ⟨_, (execCommandComplete_cmd hp ctx q n).1 r hr, ?_⟩
    dsimp only
    rw [queueOf_putQueue]
    let cmds := x.cmds.map fun y => if y.seq = n then { r with fin := true } else y
    obtain ⟨l, hl⟩ : ∃ l, cmds.length = l + 1 :=
      ⟨_, (Nat.succ_pred_eq_of_pos (by simpa [cmds] using List.length_pos_of_mem hmem)).symm⟩
    obtain ⟨hrdone, hrhead, hrtail⟩ := restQueue_rest (advanceQueue cmds.length { x with cmds := cmds })
    obtain ⟨-, hahead, hatail⟩ := advanceQueue_rest cmds.length { x with cmds := cmds }
    have hfind : ({ x with cmds := cmds } : Queue).cmds.find? (fun r => r.seq == ({ x with cmds := cmds } : Queue).done) = some { r with fin := true } := by
      rw [show ({ x with cmds := cmds } : Queue).done = n from hdone]
      exact find_finished hfound hmem
    refine ⟨?_, hrhead.trans hahead, hrtail.trans hatail⟩
    rw [hrdone, hl, ← hdone]
    exact advanceQueue_counts l hfind ⟨rfl, hout⟩
  · exact ⟨_, (if_pos hp).trans (if_pos ⟨h1, h2, h3⟩), rfl⟩
  · refine ⟨_, (execQueueOff_eq hp ctx q).trans ((if_pos (by simpa [x, hc] using hfin)).trans (if_neg ?_)), queueOf_putQueue s ctx q _⟩
    rintro ⟨hl, hst⟩
    exact h.elim (fun hn => by simp [x] at hn; simp [hn] at hl) (fun hn => hn hst)
  · intro off hp
    refine ⟨_, (execQueueOff_eq hp ctx q).trans ((if_pos (by simpa [x, hc] using hfin)).trans (if_pos ⟨hl, hst⟩)), ?_⟩
    rw [queueOf_putQueue]
  · refine ⟨s, (execQueueOff_eq hp ctx q).trans (if_neg ?_), rfl⟩
    rw [Bool.and_eq_true, List.all_eq_true]
    rintro ⟨hc, hall⟩
    rcases h with h | ⟨r, hr, hf⟩
    · rw [h] at hc; exact absurd hc (by decide)
    · rw [hall r hr] at hf; exact absurd hf (by decide)
  · refine ⟨_, execCompletionRecord_stored hp ctx i hw hfirst hrec, ?_⟩
    cases w.src <;> rfl
  · exact ⟨s, execCompletionRecord_waits hp ctx i hw hrec, rfl⟩

/-! ### Notifications -/

theorem queueOf_setHall (s : State) (h : Hall) (c q : Nat) : queueOf (setHall s h) c q = queueOf s c q := rfl

section
variable (s : State) (ctx q p : Nat) (x : Queue)
theorem postPrio_hall : (∃ h, postPrio s ctx q p = setHall s h) := postEvent_rest s _
theorem queueOf_takePrio : queueOf (takePrio s ctx q p x) ctx q = { x with prio := p } := by
  unfold takePrio
  split
  · exact queueOf_putQueue s ctx q _
  · obtain ⟨h, heq⟩ := postPrio_hall (putQueue s ctx q { x with prio := p }) ctx q p
    rw [heq, queueOf_setHall]
    exact queueOf_putQueue s ctx q _
theorem svcw_takePrio : (ctxOf (takePrio s ctx q p x) ctx).svcw = (ctxOf s ctx).svcw := by
  have hput : (ctxOf (putQueue s ctx q { x with prio := p }) ctx).svcw = (ctxOf s ctx).svcw := by rw [ctxOf_putQueue_same]
  unfold takePrio
  split
  · exact hput
  · obtain ⟨h, heq⟩ := postPrio_hall (putQueue s ctx q { x with prio := p }) ctx q p
    rw [heq, ctxOf_setHall]
    exact hput
end
/-- What is posted depends on the hall and the context's world. -/
theorem postPrio_congr {s t : State} {ctx : Nat} (hh : t.hall = s.hall) (hw : (ctxOf t ctx).world = (ctxOf s ctx).world) (q p : Nat) :
    (postPrio t ctx q p).hall = (postPrio s ctx q p).hall := by
  unfold postPrio postEvent
  dsimp only
  rw [hh, hw]
  split <;> rfl
theorem hall_takePrio {s : State} {ctx : Nat} (q : Nat) {p : Nat} {x : Queue} (h : p ≠ x.prio) :
    (takePrio s ctx q p x).hall = (postPrio s ctx q p).hall := by
  unfold takePrio
  rw [if_neg h]
  exact postPrio_congr (hall_putQueue _ _ _ _) (by rw [ctxOf_putQueue_same]) q p

/-- The state once a notification has read the service word. -/
def svcRead (s : State) (ctx : Nat) : State := setCtx s ctx { ctxOf s ctx with svcw := pageRead s ctx 8 4 % 16 }
theorem pageRead_svcRead (s : State) (ctx off n : Nat) : pageRead (svcRead s ctx) ctx off n = pageRead s ctx off n := by
  rw [svcRead]
  exact pageRead_setCtx s (x := { ctxOf s ctx with svcw := pageRead s ctx 8 4 % 16 }) (by rfl) (by rfl) (by rfl) off n
theorem queueOf_svcRead (s : State) (ctx q : Nat) : queueOf (svcRead s ctx) ctx q = queueOf s ctx q := by
  rw [queueOf, svcRead, ctxOf_setCtx]
  rfl
theorem svcw_svcRead (s : State) (ctx : Nat) : (ctxOf (svcRead s ctx) ctx).svcw = pageRead s ctx 8 4 % 16 := by rw [svcRead, ctxOf_setCtx]

/-- A queue as its notification finds it: one that is off begins at its head. -/
def notified (s : State) (ctx q : Nat) : Queue :=
  let a := 0x400 + 64 * q
  let cfg := pageRead s ctx (a + 8) 4
  let x := queueOf s ctx q
  let x := if x.st = .off then
      let h := pageRead s ctx (a + 0x18) 8
      { x with st := QState.ready, base := BitVec.ofNat 64 (pageRead s ctx a 8), n := cfg % 16, fed := cfg / 128 % 2 == 1
               enable := true, head := h, done := h, err := 0, errSeq := 0, met := false, cmds := [] }
    else x
  { x with tail := if x.fed then x.tail else pageRead s ctx (a + 0x10) 8 }
/-- A queue with its new tail: halted where that is out of range. -/
def retailed (x : Queue) : Queue := if badTail x then haltQueue x 5 x.head else restQueue x
theorem prio_retailed (x : Queue) : (retailed x).prio = x.prio := by
  unfold retailed haltQueue restQueue
  split
  · split <;> rfl
  · split
    · rfl
    · split <;> rfl
theorem retailed_eq {x : Queue} (h : x.st ≠ .off) : retailed x =
    if x.tail < x.head ∨ 2 ^ (x.n + 4) < x.tail - x.done then { x with st := .halted, met := false, err := 5, errSeq := x.head }
    else { x with st := if x.st = .running ∧ x.done = x.tail then .ready else if x.st = .ready ∧ x.head < x.tail then .running else x.st } := by
  unfold retailed haltQueue restQueue
  refine ite_congr (by simp [badTail]) (fun _ => if_neg h) fun _ => ?_
  split
  · rfl
  · split <;> rfl
theorem retailed_withPrio {x : Queue} (h : x.st ≠ .off) (p : Nat) : { retailed x with prio := p } =
    if x.tail < x.head ∨ 2 ^ (x.n + 4) < x.tail - x.done then { x with st := .halted, met := false, err := 5, errSeq := x.head, prio := p }
    else { x with st := if x.st = .running ∧ x.done = x.tail then .ready else if x.st = .ready ∧ x.head < x.tail then .running else x.st, prio := p } := by
  rw [retailed_eq h]
  split <;> rfl
theorem notified_off {s : State} {ctx q : Nat} (h : (queueOf s ctx q).st = .off) (hhost : pageRead s ctx (0x400 + 64 * q + 8) 4 / 128 % 2 = 0) :
    notified s ctx q =
      { queueOf s ctx q with
        st := .ready, base := BitVec.ofNat 64 (pageRead s ctx (0x400 + 64 * q) 8), n := pageRead s ctx (0x400 + 64 * q + 8) 4 % 16
        fed := false, enable := true, head := pageRead s ctx (0x400 + 64 * q + 24) 8, done := pageRead s ctx (0x400 + 64 * q + 24) 8
        err := 0, errSeq := 0, met := false, cmds := [], tail := pageRead s ctx (0x400 + 64 * q + 16) 8 } := by
  unfold notified
  dsimp only
  rw [if_pos h, hhost]
  rfl
theorem notified_on {s : State} {ctx q : Nat} (h : (queueOf s ctx q).st ≠ .off) : notified s ctx q =
    { queueOf s ctx q with tail := if (queueOf s ctx q).fed then (queueOf s ctx q).tail else pageRead s ctx (0x400 + 64 * q + 16) 8 } := by
  unfold notified
  dsimp only
  rw [if_neg h]
theorem actNotify_eq (s : State) (ctx q : Nat) : actNotify s ctx q =
    let cfg := pageRead s ctx (0x400 + 64 * q + 8) 4
    if cfg / 256 % 2 = 0 then
      if (queueOf s ctx q).st = .off then svcRead s ctx
      else takePrio (svcRead s ctx) ctx q (cfg / 16 % 8) { queueOf s ctx q with closing := true, enable := false }
    else if (queueOf s ctx q).closing then putQueue (svcRead s ctx) ctx q { queueOf s ctx q with latched := true }
    else takePrio (svcRead s ctx) ctx q (cfg / 16 % 8) (retailed (notified s ctx q)) := by
  have hread := pageRead_svcRead s ctx
  have hqueue := queueOf_svcRead s ctx q
  unfold actNotify
  dsimp only
  rw [show setCtx s ctx { ctxOf s ctx with svcw := pageRead s ctx 8 4 % 16 } = svcRead s ctx from rfl]
  simp only [hread, hqueue]
  rfl

section
variable {s : State} (hp : s.pkg.power = true) (hu : s.pkg.update = none) (hw : s.pkg.noWing = false) {f slot : Nat} (v : Word)
include hp hu hw
theorem execNotify_none (h : notifyCtx s f slot = none) : execNotify f slot v s = .next s := by
  unfold execNotify
  rw [if_pos hp, if_neg (by simp [hu, hw]), h]
theorem execNotify_latched {ctx : Nat} (h : notifyCtx s f slot = some ctx) (hq : v.toNat < 16)
    (hst : (ctxOf s ctx).st = .assembling ∨ (ctxOf s ctx).st = .suspended) : execNotify f slot v s = .next (latchQueue s ctx v.toNat) := by
  unfold execNotify
  rw [if_pos hp, if_neg (by simp [hu, hw]), h]
  dsimp only
  rw [if_neg (Nat.not_le.2 hq)]
  rcases hst with hst | hst <;> rw [hst]
theorem execNotify_sealed {ctx : Nat} (h : notifyCtx s f slot = some ctx) (hq : v.toNat < 16) (hst : (ctxOf s ctx).st = .sealed) :
    execNotify f slot v s = .next (actNotify s ctx v.toNat) := by
  unfold execNotify
  rw [if_pos hp, if_neg (by simp [hu, hw]), h]
  dsimp only
  rw [if_neg (Nat.not_le.2 hq), hst]
end

theorem svcw_actNotify (s : State) (ctx q : Nat) : (ctxOf (actNotify s ctx q) ctx).svcw = pageRead s ctx 8 4 % 16 := by
  rw [actNotify_eq]
  dsimp only
  split
  · split
    · exact svcw_svcRead s ctx
    · rw [svcw_takePrio]; exact svcw_svcRead s ctx
  · split
    · rw [ctxOf_putQueue_same]; exact svcw_svcRead s ctx
    · rw [svcw_takePrio]; exact svcw_svcRead s ctx

theorem notifications : Statements.Notifications := by
  intro s f slot ctx v q x base cfg head tail
  have hone {n : Nat} (h : n % 2 = 1) : ¬ n % 2 = 0 := by omega
  refine ⟨fun h hp => ?_, fun hu hw hn hp => ⟨s, execNotify_none hp hu hw v hn, rfl⟩, fun hu hw hn hq => ⟨fun hst hp => ?_, fun hst hen hoff hcl hhost hp => ?_,
    fun hst hp => ?_, fun hst hen hon hcl hp => ?_, fun hst hprio hon hcl hp => ?_, fun hst hen hcl hp => ?_, fun hst hen hon hp => ?_⟩⟩
  · exact ⟨_, (if_pos hp).trans (if_pos (by simpa using h)), rfl⟩
  · exact ⟨_, execNotify_latched hp hu hw v hn hq hst, congrArg Queue.latched (queueOf_setQueue s ctx q _), rfl⟩
  · have heq : actNotify s ctx q = takePrio (svcRead s ctx) ctx q (cfg / 16 % 8) (retailed (notified s ctx q)) := by
      rw [actNotify_eq]
      exact (if_neg (hone hen)).trans (if_neg (by simp [show (queueOf s ctx q).closing = false from hcl]))
    refine ⟨_, execNotify_sealed hp hu hw v hn hq hst, ?_⟩
    dsimp only
    rw [heq, queueOf_takePrio, notified_off hoff hhost, retailed_eq (by simp)]
    by_cases hbad : tail < head ∨ 2 ^ (cfg % 16 + 4) < tail - head
    · rw [if_pos hbad, if_pos hbad]
      exact ⟨rfl, rfl, rfl, rfl, rfl, rfl, rfl, rfl, fun _ => rfl⟩
    · rw [if_neg hbad, if_neg hbad]
      exact ⟨rfl, rfl, rfl, rfl, rfl, rfl, rfl, by simp [head, tail, base, q], fun h => absurd h hbad⟩
  · exact ⟨_, execNotify_sealed hp hu hw v hn hq hst, svcw_actNotify s ctx q⟩
  · have heq : actNotify s ctx q = takePrio (svcRead s ctx) ctx q (cfg / 16 % 8) (retailed (notified s ctx q)) := by
      rw [actNotify_eq]
      exact (if_neg (hone hen)).trans (if_neg (by simp [show (queueOf s ctx q).closing = false from hcl]))
    refine ⟨_, execNotify_sealed hp hu hw v hn hq hst, ?_⟩
    dsimp only
    rw [heq, queueOf_takePrio, notified_on hon]
    exact retailed_withPrio (x := { x with tail := if x.fed then x.tail else tail }) hon _
  · refine ⟨_, execNotify_sealed hp hu hw v hn hq hst, ?_⟩
    have hsvc := fun p => postPrio_congr (s := s) (t := svcRead s ctx) (ctx := ctx) rfl (by rw [svcRead, ctxOf_setCtx]) q p
    dsimp only
    rw [actNotify_eq]
    dsimp only
    by_cases hen : cfg / 256 % 2 = 0
    · rw [if_pos hen, if_neg hon]
      exact (hall_takePrio (x := { x with closing := true, enable := false }) q hprio).trans (hsvc _)
    · have hopen : ¬ (queueOf s ctx q).closing = true := by simp [show (queueOf s ctx q).closing = false from hcl.resolve_right hen]
      rw [if_neg hen, if_neg hopen]
      exact (hall_takePrio (x := retailed (notified s ctx q)) q (by rw [prio_retailed, notified_on hon]; exact hprio)).trans (hsvc _)
  · have heq : actNotify s ctx q = putQueue (svcRead s ctx) ctx q { x with latched := true } := by
      rw [actNotify_eq]
      exact (if_neg (hone hen)).trans (if_pos hcl)
    refine ⟨_, execNotify_sealed hp hu hw v hn hq hst, ?_⟩
    dsimp only
    rw [heq, queueOf_putQueue]
    exact ⟨rfl, rfl⟩
  · have heq : actNotify s ctx q = takePrio (svcRead s ctx) ctx q (cfg / 16 % 8) { x with closing := true, enable := false } := by
      rw [actNotify_eq]
      exact (if_pos hen).trans (if_neg hon)
    refine ⟨_, execNotify_sealed hp hu hw v hn hq hst, ?_⟩
    dsimp only
    rw [heq, queueOf_takePrio]

/-- Settles O47: a queue that is put back reads as it was put, and a notification by the queue's state. -/
theorem queueCompletion : Obligations.QueueCompletion := ⟨queueCompletion_commands, notifications⟩

end Sys2Proof.Machine
end

