-- ==== Sys2Proof/Proofs/QueueCommands.lean ====
section
/-!
PROOFS. Proofs/QueueCommands.lean: starting queue commands (R84 to R88), the bytes of COPY (R85) and graph runs (R89).
-/
namespace Sys2Proof.Machine

/-! ### Starting a command of a queue -/

section
variable (s : State) (ctx q n : Nat)
/-- The error that a queue command's image has. -/
def startError : Nat := commandError s ctx false (cmdImg s ctx q n) (qKind (cmdImg s ctx q n) == 5 && (graphOf s ctx (bitsOf (cmdImg s ctx q n) 163 160)).running)
/-- The state once a queue command counts as started. -/
def begun : State := putQueue s ctx q { queueOf s ctx q with
  st := .running, met := false, head := n + 1, cmds := (queueOf s ctx q).cmds ++ [{ seq := n, img := imageWords (cmdImg s ctx q n) }] }
variable {s ctx q n} {kind : Nat} {body : State → Nat → Nat → State}
theorem startCmd_idle (h : canStart s ctx q = false ∨ (queueOf s ctx q).head ≠ n) : startCmd s (.cmd ctx q n) kind body = s :=
  if_pos (h.imp_right .inl)
theorem startCmd_begins (hc : canStart s ctx q = true) (hh : (queueOf s ctx q).head = n) (hk : startKind false (qKind (cmdImg s ctx q n)) = kind)
    (hw : ¬ (startError s ctx q n = 0 ∧ kind = 3 ∧ waitOk s ctx (cmdImg s ctx q n) = false ∧ (queueOf s ctx q).met = false)) :
    startCmd s (.cmd ctx q n) kind body =
      if startError s ctx q n = 0 then body (begun s ctx q n) ctx (cmdImg s ctx q n) else outCmd (begun s ctx q n) ctx q n (startError s ctx q n) :=
  (if_neg (by simp [hc, hh, hk])).trans (if_neg hw)
theorem startCmd_stalls (hc : canStart s ctx q = true) (hh : (queueOf s ctx q).head = n) (hk : qKind (cmdImg s ctx q n) = 3)
    (he : startError s ctx q n = 0) (hw : waitOk s ctx (cmdImg s ctx q n) = false) (hm : (queueOf s ctx q).met = false) :
    startCmd s (.cmd ctx q n) 3 body = putQueue s ctx q { queueOf s ctx q with st := .stalled } :=
  (if_neg (by simp [hc, hh, hk, startKind])).trans (if_pos ⟨he, rfl, hw, hm⟩)
end

/-- A command of the queue's own effect, with power. -/
theorem startKind_self {k : Nat} (h : 1 ≤ k ∧ k ≤ 5) : startKind false k = k := if_pos h

/-! ### Outcomes -/

theorem ctxOf_queueRecord (s : State) (ctx : Nat) (r : WaitRec) :
    ctxOf (queueRecord s ctx r) ctx = { ctxOf s ctx with records := (ctxOf s ctx).records ++ [r] } := ctxOf_setCtx _ _ _
theorem queueOf_queueRecord (s : State) (ctx q : Nat) (r : WaitRec) : queueOf (queueRecord s ctx r) ctx q = queueOf s ctx q := by
  rw [queueOf, ctxOf_queueRecord]
  rfl
theorem outCmd_of_find {s : State} {ctx q n : Nat} (e : Nat) {r : RunCmd}
    (h : (queueOf s ctx q).cmds.find? (fun r => r.seq == n && r.out.isNone) = some r) :
    let x : Queue := { queueOf s ctx q with cmds := (queueOf s ctx q).cmds.map fun y =>
      if y.seq = n then { r with out := some e, recorded := !qRec (natOfWords r.img) } else y }
    let t := putQueue s ctx q (if e = 0 then x else haltQueue x e n)
    outCmd s ctx q n e = t ∨ ∃ w, outCmd s ctx q n e = queueRecord t ctx w := by
  unfold outCmd
  dsimp only
  rw [h]
  dsimp only
  split
  · exact .inr ⟨_, rfl⟩
  · exact .inl rfl
/-- Of its context an outcome changes the queue and the records. -/
theorem ctxOf_outCmd (s : State) (ctx q n e : Nat) : ∃ qs rs, ctxOf (outCmd s ctx q n e) ctx = { ctxOf s ctx with queues := qs, records := rs } := by
  cases h : (queueOf s ctx q).cmds.find? (fun r => r.seq == n && r.out.isNone) with
  | none => exact ⟨_, _, by rw [show outCmd s ctx q n e = s by unfold outCmd; dsimp only; rw [h]]⟩
  | some r =>
    rcases outCmd_of_find e h with heq | ⟨w, heq⟩
    · rw [heq, ctxOf_putQueue_same]; exact ⟨_, _, rfl⟩
    · rw [heq, ctxOf_queueRecord, ctxOf_putQueue_same]; exact ⟨_, _, rfl⟩
theorem queueOf_outCmd_fails {s : State} {ctx q n e : Nat} (he : e ≠ 0) (hst : (queueOf s ctx q).st ≠ .off)
    (h : ∃ r ∈ (queueOf s ctx q).cmds, r.seq = n ∧ r.out = none) : (queueOf (outCmd s ctx q n e) ctx q).st = .halted ∧
    (queueOf (outCmd s ctx q n e) ctx q).err = e ∧ (queueOf (outCmd s ctx q n e) ctx q).errSeq = n := by
  obtain ⟨r, hmem, hseq, hout⟩ := h
  obtain ⟨r', hr'⟩ := Option.isSome_iff_exists.1 (List.find?_isSome.2 ⟨r, hmem, by simp [hseq, hout]⟩ :
    ((queueOf s ctx q).cmds.find? (fun r => r.seq == n && r.out.isNone)).isSome = true)
  let x : Queue := { queueOf s ctx q with cmds := (queueOf s ctx q).cmds.map fun y =>
    if y.seq = n then { r' with out := some e, recorded := !qRec (natOfWords r'.img) } else y }
  have hput : queueOf (outCmd s ctx q n e) ctx q = { x with st := .halted, met := false, err := e, errSeq := n } := by
    have hx : (if e = 0 then x else haltQueue x e n) = { x with st := .halted, met := false, err := e, errSeq := n } :=
      (if_neg he).trans (if_neg hst)
    rcases outCmd_of_find e hr' with heq | ⟨w, heq⟩
    · rw [heq, queueOf_putQueue]; exact hx
    · rw [heq, queueOf_queueRecord, queueOf_putQueue]; exact hx
  rw [hput]
  exact ⟨rfl, rfl, rfl⟩

/-! ### The commands -/

theorem graphOf_setGraph (s : State) (ctx m : Nat) (g : Graph) : graphOf (setGraph s ctx m g) ctx m = g := by
  rw [graphOf, setGraph, ctxOf_setCtx]
  exact look_put_same _ m g _
theorem graphOf_setCond (s : State) (ctx m c : Nat) (w : Word) :
    graphOf (setCond s ctx m c w) ctx m = { graphOf s ctx m with c := Map.put (graphOf s ctx m).c c w } := by
  rw [setCond, graphOf, ctxOf_pageWrite]
  exact graphOf_setGraph s ctx m _
/-- Setting conditions of a graph sets those, and nothing else of the graph. -/
theorem graphOf_setConds (ctx m : Nat) (w : Nat → Word) (l : List Nat) : ∀ s : State,
    (∀ i, Map.look (graphOf (l.foldl (fun s i => setCond s ctx m i (w i)) s) ctx m).c i 0 = if i ∈ l then w i else Map.look (graphOf s ctx m).c i 0) ∧
    { graphOf (l.foldl (fun s i => setCond s ctx m i (w i)) s) ctx m with c := [] } = { graphOf s ctx m with c := [] } := by
  induction l with
  | nil => exact fun s => ⟨fun i => by simp, rfl⟩
  | cons k l ih =>
    intro s
    obtain ⟨hc, hrest⟩ := ih (setCond s ctx m k (w k))
    refine ⟨fun i => ?_, ?_⟩
    · rw [List.foldl_cons, hc, graphOf_setCond]
      by_cases hl : i ∈ l
      · simp [hl]
      · by_cases hk : i = k
        · subst hk; simp [look_put_same]
        · simp [hl, hk, look_put_other _ _ _ hk]
    · rw [List.foldl_cons, hrest, graphOf_setCond]

theorem graphOf_started (s : State) (ctx m : Nat) (w : Nat → Word) (g : Graph) :
    let t := (List.range 8).foldl (fun s i => setCond s ctx m i (w i)) (setGraph s ctx m g)
    (graphOf t ctx m).running = g.running ∧ (graphOf t ctx m).queue = g.queue ∧ (graphOf t ctx m).seq = g.seq ∧ (graphOf t ctx m).nodes = g.nodes ∧
    (graphOf t ctx m).limit = g.limit ∧ ∀ i, i < 8 → Map.look (graphOf t ctx m).c i 0 = w i := by
  obtain ⟨hcs, hrest⟩ := graphOf_setConds ctx m w (List.range 8) (setGraph s ctx m g)
  rw [graphOf_setGraph] at hrest
  dsimp only
  generalize graphOf ((List.range 8).foldl (fun s i => setCond s ctx m i (w i)) (setGraph s ctx m g)) ctx m = k at hcs hrest ⊢
  exact ⟨(congrArg Graph.running hrest :), (congrArg Graph.queue hrest :), (congrArg Graph.seq hrest :), (congrArg Graph.nodes hrest :),
    (congrArg Graph.limit hrest :), fun i hi => (hcs i).trans (if_pos (List.mem_range.2 hi))⟩

theorem queueCommands_starts : Statements.QueueCommands := by
  intro s ctx q n e m mem a c x img u err wild new
  refine ⟨fun h => ⟨fun hp => ?_, fun hp => ?_, fun hp => ?_, fun hp => ?_, fun hp => ?_, fun hp => ?_⟩, fun hc hh => ⟨fun he hne i hi hp => ?_, fun he hk hp => ?_,
    fun he hk hw hm hp => ?_, fun he hk hw => ⟨fun hp => ?_, fun hst hp => ?_⟩, fun he hk hmem hp => ?_, fun he hk hm hp => ?_⟩, fun he hst hr => queueOf_outCmd_fails he hst hr⟩
  · exact ⟨_, (if_pos hp).trans (congrArg _ (startCmd_idle h)), rfl⟩
  · exact ⟨_, (if_pos hp).trans (congrArg _ (startCmd_idle h)), rfl⟩
  · exact ⟨_, (if_pos hp).trans (congrArg _ (startCmd_idle h)), rfl⟩
  · exact ⟨_, (if_pos hp).trans (congrArg _ (startCmd_idle h)), rfl⟩
  · exact ⟨_, (if_pos hp).trans (congrArg _ (startCmd_idle h)), rfl⟩
  · refine ⟨_, (if_pos hp).trans (if_neg ?_), rfl⟩
    rintro ⟨-, hh, hc, -⟩
    exact h.elim (fun hn => by simp [hn] at hc) (fun hn => hn hh)
  · have hstart {kind : Nat} (body : State → Nat → Nat → State) (hk : startKind false (qKind img) = kind) :
        startCmd s c kind body = outCmd u ctx q n e := by
      subst he
      exact (startCmd_begins hc hh hk fun h => hne h.1).trans (if_neg hne)
    rcases hi with ⟨rfl, hk⟩ | ⟨rfl, hk⟩ | ⟨rfl, hk⟩ | ⟨rfl, hk⟩ | ⟨rfl, hk⟩
    · exact ⟨_, (if_pos hp).trans (congrArg _ (hstart _ hk)), rfl⟩
    · exact ⟨_, (if_pos hp).trans (congrArg _ (hstart _ (by rw [hk]; rfl))), rfl⟩
    · exact ⟨_, (if_pos hp).trans (congrArg _ (hstart _ (by rw [hk]; rfl))), rfl⟩
    · exact ⟨_, (if_pos hp).trans (congrArg _ (hstart _ (by rw [hk]; rfl))), rfl⟩
    · exact ⟨_, (if_pos hp).trans (congrArg _ (hstart _ (by rw [hk]; rfl))), rfl⟩
  · refine ⟨_, (if_pos hp).trans (congrArg _ ((startCmd_begins hc hh (by rw [show qKind (cmdImg s ctx q n) = 1 from hk]; rfl) (by simp)).trans (if_pos he))), ?_⟩
    have hprio : queueOf (begun s ctx q n) ctx q = _ := queueOf_putQueue s ctx q _
    dsimp only
    rw [show Map.look (ctxOf (begun s ctx q n) ctx).queues (homeQueue (begun s ctx q n) (.cmd ctx q n)).1 {} = _ from hprio]
    rfl
  · exact ⟨_, (if_pos hp).trans (congrArg _ (startCmd_stalls hc hh hk he hw hm)), rfl⟩
  · have hnot : ¬ (startError s ctx q n = 0 ∧ 3 = 3 ∧ waitOk s ctx (cmdImg s ctx q n) = false ∧ (queueOf s ctx q).met = false) := by
      rintro ⟨-, -, hw', hm'⟩
      exact hw.elim (fun h => by rw [show waitOk s ctx img = _ from hw'] at h; exact absurd h (by decide))
        (fun h => by rw [show x.met = _ from hm'] at h; exact absurd h (by decide))
    exact ⟨_, (if_pos hp).trans (congrArg _ ((startCmd_begins hc hh (by rw [show qKind (cmdImg s ctx q n) = 3 from hk]; rfl) hnot).trans (if_pos he))), rfl⟩
  · have hnot : ¬ (startError s ctx q n = 0 ∧ 3 = 3 ∧ waitOk s ctx (cmdImg s ctx q n) = false ∧ (queueOf s ctx q).met = false) := by
      rintro ⟨-, -, hw', hm'⟩
      exact hw.elim (fun h => by rw [show waitOk s ctx img = _ from hw'] at h; exact absurd h (by decide))
        (fun h => by rw [show x.met = _ from hm'] at h; exact absurd h (by decide))
    refine ⟨_, (if_pos hp).trans ((if_pos ⟨hst, hh, hc, hk⟩).trans (congrArg _ ((startCmd_begins hc hh (by
      rw [show qKind (cmdImg s ctx q n) = 3 from hk]; rfl) hnot).trans (if_pos he)))), rfl⟩
  · refine ⟨_, (if_pos hp).trans (congrArg _ ((startCmd_begins hc hh (by rw [show qKind (cmdImg s ctx q n) = 4 from hk]; rfl) (by simp)).trans (if_pos he))), ?_⟩
    dsimp only
    rw [show vaMem (begun s ctx q n) ctx (bitsOf (cmdImg s ctx q n) 127 64) = some (mem, a) from hmem]
    rfl
  · subst hm
    refine ⟨_, (if_pos hp).trans (congrArg _ ((startCmd_begins hc hh (by rw [show qKind (cmdImg s ctx q n) = 5 from hk]; rfl) (by simp)).trans (if_pos he))), ?_⟩
    exact graphOf_started u ctx (bitsOf img 163 160) (fun i => BitVec.ofNat 32 (bitsOf img (152 + i) (152 + i)))
      { running := true, queue := q, seq := n, array := BitVec.ofNat 64 (bitsOf img 127 64), nodes := bitsOf img 135 128 + 1, limit := bitsOf img 151 136 }

/-! ### The bytes of COPY -/

section
variable (s u : State) (ctx src dst len i : Nat) {m : MemName} {a : Nat} (h : vaMem s ctx (dst + 64 * i) = some (m, a))
include h
/-- A granule of a copy is one write, of bytes chosen one by one. -/
theorem copyGranule_writes : ∃ byte : Nat → Byte, copyGranule s ctx src dst len u i = homeWrite u m a ((List.range 64).map byte) ∧
    ∀ j p, vaMem s ctx (src + 64 * i + j) = some p → byte j =
      if (src ≤ dst + 64 * i + j ∧ dst + 64 * i + j < src + len) ∨ eccAt s [] p.1 p.2 1 = true then Config.freeByte s.fresh (dst + 64 * i + j)
      else homeByte s p.1 p.2 := by
  refine ⟨_, by unfold copyGranule; rw [h], fun j p hj => ?_⟩
  dsimp only
  rw [hj]
end
theorem getElem_map_range {α : Type} (f : Nat → α) {n j : Nat} (h : j < n) : ((List.range n).map f)[j]? = some (f j) := by
  rw [List.getElem?_map, List.getElem?_range h]
  rfl

theorem queueCopies : Statements.QueueCopies := by
  intro s u ctx q n i a src dst len m ps c x img started paid
  refine ⟨fun hc hh hk he hp => ?_, fun hdst hsrc hout => ?_, fun hdst => ?_⟩
  · refine ⟨_, (if_pos hp).trans (congrArg _ ((startCmd_begins hc hh (by rw [show qKind (cmdImg s ctx q n) = 2 from hk]; rfl) (by simp)).trans
      (if_pos ?_))), ?_⟩
    · rw [startError, show qKind (cmdImg s ctx q n) = 2 from hk]
      exact he
    · rfl
  · obtain ⟨byte, heq, hbyte⟩ := copyGranule_writes s u ctx src dst len i hdst
    rw [heq]
    refine congrArg _ (List.map_congr_left fun j hj => ?_)
    have hj : j < 64 := List.mem_range.1 hj
    obtain ⟨hmem, hecc⟩ := hsrc j hj
    rw [hbyte j _ hmem, if_neg]
    rintro (⟨h1, h2⟩ | h)
    · omega
    · rw [hecc] at h; exact absurd h (by decide)
  · obtain ⟨byte, heq, hbyte⟩ := copyGranule_writes s u ctx src dst len i hdst
    refine ⟨_, by simp, heq, fun j hj hmem => ⟨fun hout hecc => ?_, fun h => ?_⟩⟩
    · rw [getElem_map_range byte hj, hbyte j _ hmem, if_neg]
      rintro (h | h)
      · exact hout h
      · rw [hecc] at h; exact absurd h (by decide)
    · rw [getElem_map_range byte hj, hbyte j _ hmem, if_pos h]

/-! ### Graph runs -/

section
variable {s : State} {ctx m i kind : Nat} {body : State → Nat → Nat → State}
theorem startNode_idle (h : nodeReady s ctx m i = false) : startCmd s (.node ctx m i) kind body = s := if_pos (.inl h)
/-- The state once a node counts as started. -/
def nodeBegun (s : State) (ctx m i : Nat) : State :=
  setGraph s ctx m (setNode (graphOf s ctx m) i { (graphOf s ctx m).list.getD i {} with st := 1 })
theorem startNode_begins (h : nodeReady s ctx m i = true) (hk : startKind true (qKind (natOfWords ((graphOf s ctx m).list.getD i {}).img)) = kind) :
    let img := natOfWords ((graphOf s ctx m).list.getD i {}).img
    (commandError (nodeBegun s ctx m i) ctx true img false = 0 → startCmd s (.node ctx m i) kind body = body (nodeBegun s ctx m i) ctx img) ∧
    (commandError (nodeBegun s ctx m i) ctx true img false ≠ 0 → startCmd s (.node ctx m i) kind body =
      outNode (nodeBegun s ctx m i) ctx m i (commandError (nodeBegun s ctx m i) ctx true img false)) := by
  have hready : ¬ (nodeReady s ctx m i = false ∨ startKind true (qKind (natOfWords ((graphOf s ctx m).list.getD i {}).img)) ≠ kind) := by
    rw [h, hk]; simp
  refine ⟨fun he => ?_, fun he => ?_⟩
  all_goals unfold startCmd; dsimp only; rw [if_neg hready]; unfold nodeBegun at *; split
  · rfl
  · next hne => exact absurd he hne
  · next h0 => exact absurd h0 he
  · rfl
end

/-- A graph run whose nodes name only predecessors that come before them. -/
def namesEarlier (imgs : List Nat) (n : Nat) : Bool :=
  (List.range n).all fun i => (bitsOf (imgs.getD i 0) 23 16 == 255 || decide (bitsOf (imgs.getD i 0) 23 16 < i))
    && (bitsOf (imgs.getD i 0) 31 24 == 255 || decide (bitsOf (imgs.getD i 0) 31 24 < i))
theorem namesEarlier_iff (imgs : List Nat) (n : Nat) : namesEarlier imgs n = true ↔
    ∀ k, k < n → ∀ p, p = bitsOf (imgs.getD k 0) 23 16 ∨ p = bitsOf (imgs.getD k 0) 31 24 → p = 255 ∨ p < k := by
  unfold namesEarlier
  simp only [List.all_eq_true, List.mem_range, Bool.and_eq_true, Bool.or_eq_true, beq_iff_eq, decide_eq_true_eq]
  refine forall_congr' fun k => imp_congr_right fun _ => ⟨fun ⟨h1, h2⟩ p hp => ?_, fun h => ⟨h _ (.inl rfl), h _ (.inr rfl)⟩⟩
  rcases hp with rfl | rfl
  · exact h1
  · exact h2
theorem execGraphRunStart_eq {s : State} (hp : s.pkg.power = true) {ctx m : Nat} (hr : (graphOf s ctx m).running = true) (hin : (graphOf s ctx m).inRun = false)
    (hst : (ctxOf s ctx).st = .sealed) (hsus : (ctxOf s ctx).suspendFn = none) :
    let g := graphOf s ctx m
    let imgs := (List.range g.nodes).map fun i => natOfBytes (vaRead s ctx (g.array.toNat + 64 * i) 64)
    execGraphRunStart ctx m s = if namesEarlier imgs g.nodes = true then .next (setGraph s ctx m { g with inRun := true, list := imgs.map fun i => { img := imageWords i } })
      else .next (outCmd (setGraph s ctx m { g with running := false }) ctx g.queue g.seq 6) :=
  (if_pos hp).trans (if_pos (by simp [hr, hin, hst, hsus]))

/-- A node that fails ends its graph's run: its started waits go on by themselves, and its command has the error for an outcome. -/
theorem outNode_fails {s : State} {ctx m i e : Nat} (hst : ((graphOf s ctx m).list.getD i {}).st = 1) (hout : ((graphOf s ctx m).list.getD i {}).out = none)
    (he : e ≠ 0) : ∃ t, outNode s ctx m i e = outCmd t ctx (graphOf s ctx m).queue (graphOf s ctx m).seq e ∧ (graphOf t ctx m).running = false ∧
    ∃ l, (ctxOf t ctx).oldWaits = l ++ startedWaits (graphOf s ctx m) m i := by
  let g := graphOf s ctx m
  let n := g.list.getD i {}
  let u := detachNodes s ctx m
  let v := setCtx u ctx { ctxOf u ctx with oldWaits := (ctxOf u ctx).oldWaits ++ startedWaits g m i }
  let t := setGraph v ctx m { setNode g i { n with out := some e, recorded := !qRec (natOfWords n.img) } with running := false, inRun := false, list := [] }
  have hlive : ¬ (n.st ≠ 1 ∨ n.out.isSome = true) := by
    rw [not_or, Classical.not_not, show n.out = none from hout]
    exact ⟨hst, by simp⟩
  have hrun : (graphOf t ctx m).running = false := congrArg Graph.running (graphOf_setGraph v ctx m _)
  have hwaits : (ctxOf t ctx).oldWaits = (ctxOf u ctx).oldWaits ++ startedWaits g m i := by
    rw [show ctxOf t ctx = _ from ctxOf_setCtx v ctx _, show ctxOf v ctx = _ from ctxOf_setCtx u ctx _]
  have hrecord (b : Bool) (w : WaitRec) : ∃ rs, ctxOf (if b = true then queueRecord t ctx w else t) ctx = { ctxOf t ctx with records := rs } := by
    cases b with
    | true => exact ⟨_, ctxOf_queueRecord t ctx w⟩
    | false => exact ⟨_, rfl⟩
  let r : WaitRec := { ring := qRing (natOfWords n.img), words := recordWords false true i g.queue e (qTag (natOfWords n.img)) g.seq, src := none }
  obtain ⟨rs, hctx⟩ := hrecord (qRec (natOfWords n.img)) r
  refine ⟨if qRec (natOfWords n.img) = true then queueRecord t ctx r else t, ?_, ?_, (ctxOf u ctx).oldWaits, ?_⟩
  · unfold outNode
    dsimp only
    rw [if_neg hlive]
    simp only [if_neg he]
    rfl
  · rw [graphOf, hctx]; exact hrun
  · rw [hctx]; exact hwaits

theorem graphRuns : Statements.GraphRuns := by
  intro s ctx m i j e w g c img u imgs ahead
  refine ⟨fun hr hin hst hsus => ⟨fun ha hp => ?_, fun ha hp => ?_⟩, fun h => ⟨fun hp => ?_, fun hp => ?_, fun hp => ?_, fun hp => ?_, fun hp => ?_⟩,
    fun h => ?_, fun h hk => ⟨fun he => ?_, fun he hne hp => ?_⟩, fun h1 h2 hne => ⟨?_, fun y hy hj hyst hyout hyk => ?_⟩, fun hr hl hold hp => ?_⟩
  · refine ⟨_, (execGraphRunStart_eq hp hr hin hst hsus).trans (if_pos ((namesEarlier_iff _ _).2 ha)), ?_⟩
    dsimp only
    rw [graphOf_setGraph]
    exact ⟨rfl, rfl⟩
  · refine ⟨_, (execGraphRunStart_eq hp hr hin hst hsus).trans (if_neg fun h => ?_), rfl⟩
    obtain ⟨k, hk, hn⟩ := ha
    exact hn ((namesEarlier_iff _ _).1 h k hk)
  · exact ⟨_, (if_pos hp).trans (congrArg _ (startNode_idle h)), rfl⟩
  · exact ⟨_, (if_pos hp).trans (congrArg _ (startNode_idle h)), rfl⟩
  · exact ⟨_, (if_pos hp).trans (congrArg _ (startNode_idle h)), rfl⟩
  · exact ⟨_, (if_pos hp).trans (congrArg _ (startNode_idle h)), rfl⟩
  · exact ⟨_, (if_pos hp).trans (congrArg _ (startNode_idle h)), rfl⟩
  · unfold nodeReady at h
    simp only [Bool.and_eq_true, decide_eq_true_eq, beq_iff_eq] at h
    obtain ⟨⟨⟨⟨⟨⟨⟨⟨-, -⟩, hlen⟩, hst⟩, -⟩, -⟩, hp1⟩, hp2⟩, -⟩ := h
    exact ⟨hlen, hst, hp1, hp2⟩
  · intro failed hp
    have hkind : startKind true (qKind (natOfWords ((graphOf s ctx m).list.getD i {}).img)) = 6 := by
      rw [show qKind (natOfWords ((graphOf s ctx m).list.getD i {}).img) = 6 from hk]; rfl
    refine ⟨_, (if_pos hp).trans (congrArg _ ((startNode_begins h hkind).1 he)), ?_⟩
    have hg : graphOf (nodeBegun s ctx m i) ctx m = setNode g i { g.list.getD i {} with st := 1 } := graphOf_setGraph s ctx m _
    have hfailed : (!(if bitsOf img 67 67 = 1 then Map.look (graphOf (nodeBegun s ctx m i) ctx m).c (bitsOf img 66 64) 0 == 0
        else Map.look (graphOf (nodeBegun s ctx m i) ctx m).c (bitsOf img 66 64) 0 != 0)) = failed := by
      rw [hg]
      simp only [failed, setNode]
      split <;> simp [bne]
    exact congrArg (fun b => outNode (setGraph u ctx m (setNode (graphOf u ctx m) i { (graphOf u ctx m).list.getD i {} with condFalse := b })) ctx m i 0) hfailed
  · have hkind : startKind true (qKind (natOfWords ((graphOf s ctx m).list.getD i {}).img)) = 6 := by
      rw [show qKind (natOfWords ((graphOf s ctx m).list.getD i {}).img) = 6 from hk]; rfl
    subst he
    exact ⟨_, (if_pos hp).trans (congrArg _ ((startNode_begins h hkind).2 hne)), rfl⟩
  · obtain ⟨t, heq, hrun, -⟩ := outNode_fails h1 h2 hne
    obtain ⟨qs, rs, hctx⟩ := ctxOf_outCmd t ctx g.queue g.seq e
    rw [heq, graphOf, hctx]
    exact hrun
  · obtain ⟨t, heq, -, l, hwaits⟩ := outNode_fails h1 h2 hne
    obtain ⟨qs, rs, hctx⟩ := ctxOf_outCmd t ctx g.queue g.seq e
    have hget : g.list.getD j {} = y := by rw [List.getD_eq_getElem?_getD, hy]; rfl
    refine ⟨{ slot := m, index := j, queue := g.queue, seq := g.seq, node := g.list.getD j {} }, ?_, rfl, rfl, rfl, rfl, hget⟩
    rw [heq, hctx]
    show _ ∈ (ctxOf t ctx).oldWaits
    rw [hwaits]
    refine List.mem_append_right _ (List.mem_map.2 ⟨j, List.mem_filter.2 ⟨List.mem_range.2 (List.getElem?_eq_some_iff.1 hy).1, ?_⟩, rfl⟩)
    dsimp only
    rw [show (graphOf s ctx m).list.getD j {} = y from hget]
    simp [hj, hyst, hyout, hyk]
  · have hn : nodeOf s ctx m i = {} := by rw [nodeOf, show (graphOf s ctx m).list = [] from hl]; rfl
    refine ⟨_, (if_pos hp).trans ?_, rfl⟩
    rw [hn, if_neg (by simp), hold]

/-- Settles O46: a command by what starts it, COPY byte by byte, and graph runs by their nodes. -/
theorem queueCommands : Obligations.QueueCommands := ⟨queueCommands_starts, queueCopies, graphRuns⟩

end Sys2Proof.Machine
end

