-- ==== Sys2Proof/Proofs/CopyEvents.lean ====
section
/-!
PROOFS. Proofs/CopyEvents.lean: the copy engine's starts, chunks and completions (R271 to R281), and the bytes of a piece read from the window.
-/
namespace Sys2Proof.Machine

/-! ### Starts and chunks -/

/-- A command that may start is the head of its ring, and meets every condition of R278. -/
theorem copyReady_some {u : State} {b : Nat} {c : Cmd} (h : copyReady u b = some c) :
    copyHead (blkOf u b) = some c ∧ guardRes (blkOf u b) (cGuard (natOfWords c.img)) c.gen = some true ∧
    (cOrder (natOfWords c.img) = true → (blkOf u b).copy.done + 1 = c.seq) ∧ (blkOf u b).trapped = false ∧
    (∀ f ∈ touchedFrames u b c, (ownOf u f).bias < 2) ∧ ((blkOf u b).copy.cmds.filter fun y => y.phase == .started).length < 16 := by
  unfold copyReady at h
  dsimp only at h
  split at h
  · simp at h
  · next d hd =>
    split at h
    · next hc =>
      cases h
      simp only [Bool.and_eq_true, Bool.not_eq_true', decide_eq_true_eq, beq_iff_eq, Bool.or_eq_true, List.any_eq_false] at hc
      obtain ⟨⟨⟨⟨⟨⟨⟨⟨⟨⟨-, -⟩, -⟩, htrap⟩, -⟩, hguard⟩, horder⟩, hroom⟩, -⟩, hframes⟩, -⟩ := hc
      refine ⟨hd, hguard, fun ho => horder.resolve_left (by simp [ho]), htrap, fun f hf => ?_, hroom⟩
      exact Nat.lt_of_not_le (hframes f hf)
    · simp at h

theorem blocks_chargeBudget (s : State) (ctx kind unit n : Nat) : (chargeBudget s ctx kind unit n).blocks = s.blocks :=
  (sends_chargeBudget s ctx kind unit n).blocks
/-- Whether a command is staged depends on its block's speculation alone. -/
theorem stages_congr {s t : State} {b : Nat} (h : (blkOf t b).spec = (blkOf s b).spec) (img : Nat) : stages t b img = stages s b img := by
  rw [stages, stages, h]
theorem startCopy_plain {u : State} {b : Nat} {c : Cmd} (h1 : stages u b (natOfWords c.img) = false) (h2 : cRemote (natOfWords c.img) c.xs = false)
    (h3 : cRadd (natOfWords c.img) = false) :
    let v := chargeBudget u (blkOf u b).ctx 0 (blkOf u b).part (copyBytes (natOfWords c.img))
    startCopy u b c = setCopyCmd v b { c with phase := .started, touched := touchedPages v b c } := by
  intro v
  have hspec : (blkOf (setCopyCmd v b { c with phase := .started, touched := touchedPages v b c }) b).spec = (blkOf u b).spec := by
    rw [setCopyCmd, blkOf_setBlk, show blkOf v b = blkOf u b by rw [blkOf, blocks_chargeBudget]; rfl]
  have hstages : ¬ stages (setCopyCmd v b { c with phase := .started, touched := touchedPages v b c }) b (natOfWords c.img) = true := by
    rw [stages_congr hspec, h1]; simp
  exact (if_neg hstages).trans ((if_neg (by simp [h2])).trans (if_neg (by simp [h3])))

theorem execCopyChunkDone_moves {s s' : State} (hp : s.pkg.power = true) {b n x : Nat} {c : Cmd}
    (hc : (blkOf s b).copy.cmds.find? (fun c => c.seq == n) = some c) (hm : movesRows c = true) (hx : x ∈ c.chunks) (ho : selfOverlap s b c = false)
    (hr : runCopy s b c ((piecesOf (natOfWords c.img) c).filter fun p => pieceChunk (natOfWords c.img) p == x) = (s', none)) :
    let k := countChunks (blkOf s' b) [x] false
    execCopyChunkDone b n x s = .next (setBlk s' b { k with copy := putCmd k.copy { c with chunks := c.chunks.erase x } }) := by
  unfold execCopyChunkDone
  rw [if_pos hp, hc]
  dsimp only
  rw [if_pos (by simp [hm, hx, ho]), hr]

theorem copyStarts : Statements.CopyStarts := by
  intro s s' b n x c u img
  refine ⟨fun h hp => ?_, fun h hp => ?_, fun h => ?_, fun h1 h2 h3 => startCopy_plain h1 h2 h3, fun hc hm hx ho hr hp => ?_⟩
  · exact ⟨_, (if_pos hp).trans (by rw [show copyReady (settleCopy 64 s b) b = none from h]), rfl⟩
  · exact ⟨_, (if_pos hp).trans (by rw [show copyReady (settleCopy 64 s b) b = some c from h]), rfl⟩
  · obtain ⟨hhead, hguard, horder, htrap, hframes, hroom⟩ := copyReady_some h
    have hphase := List.find?_some (p := fun c : Cmd => c.phase == .queued) hhead
    exact ⟨List.mem_of_find?_eq_some hhead, by simpa using hphase, hguard, horder, htrap, hframes, hroom⟩
  · refine ⟨_, execCopyChunkDone_moves hp hc hm hx ho hr, ?_, fun y hy => ?_, rfl⟩
    · rw [blkOf_setBlk]
      exact look_put_same _ x _ _
    · rw [blkOf_setBlk]
      exact look_put_other _ _ _ hy

/-! ### Completions -/

section
variable {s : State} (hp : s.pkg.power = true) {b n : Nat} {c : Cmd} (hc : (blkOf s b).copy.cmds.find? (fun c => c.seq == n) = some c)
  (hcan : copyCan s b c = true)
include hp hc hcan
theorem execCopyComplete_outcome {st : CmdStatus} (ho : c.outcome = some st) :
    execCopyCommandComplete b n s = .next (settleCopy 64 (finishCopy s b c st c.owedAcks) b) := by
  unfold execCopyCommandComplete
  rw [if_pos hp, hc]
  dsimp only
  rw [if_pos hcan, ho]
/-- What a local command that completes leaves, by what it ran. -/
theorem execCopyComplete_local (hr : cRemote (natOfWords c.img) c.xs = false) (ho : c.outcome = none) {r : State × Option (CmdStatus × Nat)}
    (hrun : (if cKind (natOfWords c.img) = 3 then runAtom s b (natOfWords c.img) c else runCopy s b c (piecesLeft (natOfWords c.img) c)) = r) :
    execCopyCommandComplete b n s = .next (match r.2 with
      | some (st, a) => endCopy r.1 b n st a 0
      | none => endCopy r.1 b n .ok 0 0) := by
  unfold execCopyCommandComplete
  rw [if_pos hp, hc]
  dsimp only
  rw [if_pos hcan, ho]
  dsimp only
  rw [if_neg (by simp [hr]), hrun]
  cases r.2 <;> rfl
end

/-! ### A piece of a window row -/

/-- A word of memory meets no error where none of its bytes does. -/
theorem eccAt_word {s : State} {m : MemName} {a : Nat} (h : ∀ k, k < 4 → eccAt s [] m (a + k) 1 = false) : eccAt s [] m a 4 = false := by
  rw [eccAt, List.any_eq_false]
  intro p hp hmeet
  simp only [Bool.and_eq_true, beq_iff_eq, decide_eq_true_eq, List.any_nil, Bool.not_false, and_true] at hmeet
  obtain ⟨⟨hm, h1⟩, h2⟩ := hmeet
  have hbyte := h (max a p.2 - a) (by omega)
  rw [eccAt, List.any_eq_false] at hbyte
  refine hbyte p hp ?_
  simp only [Bool.and_eq_true, beq_iff_eq, decide_eq_true_eq, List.any_nil, Bool.not_false, and_true]
  exact ⟨⟨hm, by omega⟩, by omega⟩
/-- A word that no held write and no undefined value meets is its bytes at the home. -/
theorem engineWord_plain {s : State} {b g a : Nat} {m : MemName} (ha : a % 4 = 0) (hheld : gangHeld s b = [])
    (h : ∀ k, k < 4 → eccAt s [] m (a + k) 1 = false ∧ earlyRead s (grpOf s g).view m (a + k) = false) :
    engineWord s b g m a = some ((List.range 4).map fun k => homeByte s m (a + k)) := by
  have hbyte (k : Nat) (hk : k < 4) : (if earlyRead s (grpOf s g).view m (a + k) = true then Config.freeByte s.fresh (a + k) else homeByte s m (a + k)) =
      homeByte s m (a + k) := by rw [(h k hk).2]; rfl
  obtain ⟨d, hd, had⟩ : ∃ d, (d = 0 ∨ d = 4) ∧ a = a / 8 * 8 + d := ⟨a % 8, by omega, by omega⟩
  have hcut (f : Nat → Byte) : (((List.range 8).map f).drop (a - a / 8 * 8)).take 4 = (List.range 4).map fun k => f (d + k) := by
    rw [show a - a / 8 * 8 = d by omega]
    rcases hd with rfl | rfl <;> rfl
  unfold engineWord
  rw [eccAt_word fun k hk => (h k hk).1, hheld]
  refine congrArg some ((hcut _).trans (List.map_congr_left fun k hk => ?_))
  have hplace : a / 8 * 8 + (d + k) = a + k := by omega
  rw [hplace]
  exact hbyte k (List.mem_range.1 hk)

/-- Words read one after another from the window. -/
theorem readSource_window {s : State} {b : Nat} {c : Cmd} {e : Endpoint} (he : e.space = 0) (hheld : gangHeld s b = []) :
    ∀ (n off : Nat), (e.off + off) % 4 = 0 →
    (∀ k, k < 4 * n → eccAt s [] (.win b) (e.off + off + k) 1 = false ∧ earlyRead s (grpOf s c.grp).view (.win b) (e.off + off + k) = false) →
    readSource b c e n off s = (s, .inr ((List.range (4 * n)).map fun k => homeByte s (.win b) (e.off + off + k)))
  | 0, off, _, _ => rfl
  | n + 1, off, hoff, h => by
    have hword := engineWord_plain (g := c.grp) hoff hheld fun k hk => h k (by omega)
    have hrest := readSource_window (c := c) he hheld n (off + 4) (by omega) fun k hk => by
      rw [show e.off + (off + 4) + k = e.off + off + (4 + k) by omega]
      exact h (4 + k) (by omega)
    have hloc : endLoc s b c e off true false = (s, .at (.win b) (e.off + off)) := by
      unfold endLoc
      rw [he]
      rfl
    rw [readSource, hloc]
    dsimp only
    rw [hword]
    dsimp only
    rw [hrest]
    dsimp only
    rw [show 4 * (n + 1) = 4 + 4 * n by omega, List.range_add, List.map_append, List.map_map]
    have htail : ((List.range (4 * n)).map fun k => homeByte s (.win b) (e.off + (off + 4) + k)) =
        (List.range (4 * n)).map ((fun k => homeByte s (.win b) (e.off + off + k)) ∘ fun x => 4 + x) := by
      refine List.map_congr_left fun k _ => ?_
      rw [Function.comp_apply, show e.off + (off + 4) + k = e.off + off + (4 + k) by omega]
    rw [htail]

/-- Bytes that no source range meets are written as they were read. -/
theorem overlapFree_apart {s : State} {rs : List (MemName × Nat × Nat)} {m : MemName} {a : Nat} (bs : List Byte)
    (h : ∀ r ∈ rs, r.1 = m → a + bs.length ≤ r.2.1 ∨ r.2.1 + r.2.2 ≤ a) : overlapFree s rs m a bs = bs := by
  have hno (i : Nat) (hi : i < bs.length) : ¬ rs.any (fun r => r.1 == m && decide (r.2.1 ≤ a + i) && decide (a + i < r.2.1 + r.2.2)) = true := by
    rw [List.any_eq_true]
    rintro ⟨r, hr, hmeet⟩
    simp only [Bool.and_eq_true, beq_iff_eq, decide_eq_true_eq] at hmeet
    obtain ⟨⟨hm, h1⟩, h2⟩ := hmeet
    have := h r hr hm
    omega
  refine (List.map_congr_left fun i hi => if_neg (hno i (List.mem_range.1 hi))).trans (map_byteAt bs)

theorem engineWrite_plain {s : State} {b : Nat} {c : Cmd} (hspec : (blkOf s b).spec = false) (hheld : (blkOf s b).held = []) (m : MemName) (a va : Nat)
    (bs : List Byte) : engineWrite s b c m a va bs = copyWrite s b c.seq c.grp m a bs :=
  if_neg (by simp [hspec, hheld])

/-- One piece, read and found: it is written. -/
theorem runPieces_one {s : State} {b img : Nat} {c : Cmd} {rs : List (MemName × Nat × Nat)} {p : Piece} {x : Move} (h : readPiece s b img c p = (s, .inr x)) :
    runPieces b img c rs [p] s = (engineWrite s b c x.m x.a x.va (overlapFree s rs x.m x.a x.bytes), none) := by
  unfold runPieces
  rw [readPieces, h]
  rfl

theorem copyCompletes : Statements.CopyCompletes := by
  intro s s' b n c st a rs p img src dst home
  refine ⟨fun hc hcan hr => ⟨fun ho hk hrun hp => ?_, fun ho hk hrun hp => ?_, fun ho hk hrun hp => ?_, fun ho hp => ?_⟩,
    fun hspec hk hsp0 hsp1 hlen hsrc hgang hheld hbytes hrs hsp2 => ?_⟩
  · exact ⟨_, execCopyComplete_local hp hc hcan hr ho ((if_neg hk).trans hrun), rfl⟩
  · exact ⟨_, execCopyComplete_local hp hc hcan hr ho ((if_neg hk).trans hrun), rfl⟩
  · exact ⟨_, execCopyComplete_local hp hc hcan hr ho ((if_pos hk).trans hrun), rfl⟩
  · exact ⟨_, execCopyComplete_outcome hp hc hcan ho, rfl⟩
  · have hdst : endLoc s b c (cDst img) (p.row * cDStride img + p.off) false true = (s, .at home dst) := by
      have h02 : (cDst img).space = 0 ∨ (cDst img).space = 2 := by omega
      have hoff : (cDst img).off + (p.row * cDStride img + p.off) = dst := (Nat.add_assoc _ _ _).symm
      unfold endLoc
      dsimp only
      rw [hoff]
      rcases h02 with h0 | h2
      · rw [h0, show home = .win b from if_pos h0]
        rfl
      · rw [h2, show home = dieName (blkOf s b) from if_neg (by omega)]
        rfl
    have hread : readPiece s b img c p = (s, .inr ⟨home, dst, endAddr c (cDst img) (p.row * cDStride img + p.off),
        (List.range p.len).map fun k => homeByte s (.win b) (src + k)⟩) := by
      have hso : rowSource s b c img p.row = some (p.row * cSStride img) := if_neg (by omega)
      have hwords := readSource_window (c := c) hsp0 hgang (p.len / 4) (p.row * cSStride img + p.off) (by rw [← hsrc]; congr 1; omega) fun k hk => by
        rw [show (cSrc img).off + (p.row * cSStride img + p.off) + k = src + k by omega]
        exact hbytes k (by omega)
      unfold readPiece
      dsimp only
      rw [hso]
      dsimp only
      rw [hwords]
      dsimp only
      rw [hdst, show 4 * (p.len / 4) = p.len by omega, show (cSrc img).off + (p.row * cSStride img + p.off) = src from (Nat.add_assoc _ _ _).symm]
    rw [runPieces_one hread, engineWrite_plain hspec hheld, overlapFree_apart _ (by simpa using hrs)]

/-- Settles O43: what may start by the conditions of R278, and a piece of the window word by word. -/
theorem copyEvents_hold : Obligations.CopyEvents := ⟨copyStarts, copyCompletes⟩

end Sys2Proof.Machine
end

