-- ==== Sys2Proof/Proofs/AgentWrites.lean ====
section
/-!
PROOFS. Proofs/AgentWrites.lean: a write by a unit that is no group, to device or host memory (R234, R236): the write at its home, an entry of
the log, and what groups then see; and what entries of a block's held writes leave when they go (R126, R128).
-/
namespace Sys2Proof.Machine

theorem groupsOnly_loadAgain (g : Nat) (s : State) (l : OpenLoad) : GroupsOnly s (loadAgain g s l) := rfl
theorem groupsOnly_reload (s : State) (n : MemName) (a len : Nat) : GroupsOnly s (reload s n a len) := by
  refine GroupsOnly.foldl (fun s e => ?_) s.groups s
  unfold loadsAgain
  dsimp only
  split
  · exact GroupsOnly.refl s
  · exact GroupsOnly.foldl (groupsOnly_loadAgain e.1) _ s
/-- A write to device or host memory reaches no span that a matrix command reads. -/
theorem disturb_plain (s : State) (w : View) {n : MemName} (hn : n = .dev ∨ n = .host) (a len : Nat) : disturb s w n a len = s := by
  have hmiss (b : Nat) (k : Block) (x : Span) : spanMeets b k n a len x = false := by
    unfold spanMeets dieName
    rcases hn with rfl | rfl <;> cases k.kmode <;> simp
  refine foldl_unchanged _ fun e _ => ?_
  unfold disturbBlock
  dsimp only
  refine if_neg ?_
  rw [Bool.not_eq_true, List.any_eq_false]
  intro t _
  rw [List.any_eq_false.2 fun x _ => by simp [hmiss]]
  simp
theorem logWrite_rest (s : State) (e : Written) (len : Nat) : ∃ l, logWrite s e len = { s with log := l } := by
  unfold logWrite
  split
  · exact ⟨_, rfl⟩
  · exact ⟨s.log, rfl⟩
/-- A unit's write, apart from the log and from what groups see. -/
theorem agentWrite_plain (s : State) {e : Written} (he : e.mem = .dev ∨ e.mem = .host) (w : View) (bs : List Byte) :
    ∃ l, GroupsOnly (homeWrite { s with log := l } e.mem e.addr bs) (agentWrite s e w bs) := by
  obtain ⟨l, hl⟩ := logWrite_rest s e bs.length
  refine ⟨l, ?_⟩
  unfold agentWrite
  dsimp only
  rw [hl, disturb_plain _ w he]
  exact (groupsOnly_reload _ _ _ _).trans (groupsOnly_wakeWords _ _ _ _)

/-! ### Entries that go -/

/-- The second state has the device memory and the ordered contributions of the first. -/
structure KeepsTurns (s t : State) : Prop where
  dev : t.dev = s.dev
  contribs : t.links.contribs = s.links.contribs
theorem KeepsTurns.refl (s : State) : KeepsTurns s s := ⟨rfl, rfl⟩
theorem KeepsTurns.trans {s t u : State} (h : KeepsTurns s t) (k : KeepsTurns t u) : KeepsTurns s u := ⟨k.dev.trans h.dev, k.contribs.trans h.contribs⟩
theorem KeepsTurns.foldl {α : Type} {f : State → α → State} (hf : ∀ s a, KeepsTurns s (f s a)) (l : List α) : ∀ s, KeepsTurns s (l.foldl f s) := by
  induction l with
  | nil => exact KeepsTurns.refl
  | cons a l ih => exact fun s => (hf s a).trans (ih _)
theorem Settles.keepsTurns {s t : State} (h : Settles s t) : KeepsTurns s t := ⟨h.dev, (congrArg Links.contribs h.links :)⟩
theorem Sends.keepsTurns {s t : State} (h : Sends s t) : KeepsTurns s t := ⟨h.dev, (congrArg Links.contribs h.links :)⟩
theorem GroupsOnly.keepsTurns {s t : State} (h : GroupsOnly s t) : KeepsTurns s t := ⟨(congrArg State.dev h :), congrArg Links.contribs h.links⟩
theorem keepsTurns_dropEntry (s : State) (b q : Nat) : KeepsTurns s (dropEntry s b q) := by
  refine KeepsTurns.trans ?_ (settles_settleGrid (setBlk s b { blkOf s b with held := (blkOf s b).held.filter fun e => e.seq != q }) _).keepsTurns
  exact ⟨rfl, rfl⟩
theorem keepsTurns_finishCopy (s : State) (b : Nat) (c : Cmd) (st : CmdStatus) (n : Nat) : KeepsTurns s (finishCopy s b c st n) := by
  unfold finishCopy
  dsimp only
  refine KeepsTurns.trans ?_ (settles_settleGrid _ _).keepsTurns
  refine KeepsTurns.trans ?_ (GroupsOnly.keepsTurns (groupsOnly_wakeWords _ _ _ _))
  exact ⟨rfl, rfl⟩
theorem keepsTurns_endCopy (s : State) (b q : Nat) (st : CmdStatus) (a n : Nat) : KeepsTurns s (endCopy s b q st a n) := by
  unfold endCopy
  split
  · exact keepsTurns_finishCopy s b _ st n
  · exact KeepsTurns.refl s
theorem keepsTurns_heldError (s : State) (b : Nat) (e : HeldEntry) (st : CmdStatus) : KeepsTurns s (heldError s b e st) := by
  unfold heldError
  dsimp only
  split
  · split
    · exact ⟨rfl, rfl⟩
    · exact keepsTurns_finishCopy s b _ st 0
  · exact ⟨rfl, rfl⟩
theorem keepsTurns_sendReply (s : State) (op : Nat) (fl : Flit) : KeepsTurns s (sendReply s op fl) := by
  unfold sendReply
  dsimp only
  refine KeepsTurns.trans ?_ (sends_sendOn _ _ _).keepsTurns
  exact ⟨rfl, rfl⟩
theorem keepsTurns_ackFlits (world ctx dst op : Nat) : ∀ (n : Nat) (ts : List Nat) (s : State), KeepsTurns s (ackFlits s world ctx dst op n ts)
  | 0, _, s => KeepsTurns.refl s
  | n + 1, ts, s => by
    rw [ackFlits]
    split
    · exact KeepsTurns.refl s
    · exact (keepsTurns_sendReply s op _).trans (keepsTurns_ackFlits world ctx dst op n _ _)
theorem keepsTurns_contributionDone (s : State) (c : Contribution) (st : CmdStatus) (a : Nat) : KeepsTurns s (contributionDone s c st a) := by
  unfold contributionDone
  split
  · dsimp only
    refine KeepsTurns.trans ?_ (KeepsTurns.foldl (fun s d => keepsTurns_ackFlits _ _ _ _ _ _ s) _ _)
    exact ⟨rfl, rfl⟩
  · dsimp only
    split
    · refine KeepsTurns.trans ?_ (keepsTurns_dropEntry _ _ _)
      split
      · exact KeepsTurns.refl s
      · exact keepsTurns_heldError s c.blk _ st
    · exact KeepsTurns.refl s
  · exact keepsTurns_endCopy s c.blk c.seq st a 0

end Sys2Proof.Machine
end

