-- ==== Sys2Proof/Proofs/HeldWrites.lean ====
section
/-!
PROOFS. Proofs/HeldWrites.lean: ordered reductions (R275) and the drain of a block's held writes and effects (R126, R128).
-/
namespace Sys2Proof.Machine

/-! ### Words of device memory -/

theorem homeByte_dev {s t : State} (h : t.dev = s.dev) (x : Nat) : homeByte t .dev x = homeByte s .dev x := congrArg (readB · x) h
theorem homeWord_congr {s t : State} {m : MemName} {a : Nat} (h : ∀ k, k < 4 → homeByte t m (a + k) = homeByte s m (a + k)) :
    homeWord t m a = homeWord s m a := congrArg wordOf (List.map_congr_left fun k hk => h k (List.mem_range.1 hk))
theorem homeByte_homeWrite_dev {s : State} (hwf : s.dev.wf = true) (a : Nat) (bs : List Byte) (x : Nat) :
    homeByte (homeWrite s .dev a bs) .dev x = if a ≤ x ∧ x < a + bs.length then byteAt bs (x - a) else homeByte s .dev x :=
  homeByte_homeWrite_same (n := .dev) s a bs (by simp) (by simp) hwf x
theorem wordOf_wordBytes (v : Word) : wordOf (wordBytes v) = v := by
  rw [wordOf, wordBytes, natOfBytes_of_bytesOfNat]
  refine BitVec.eq_of_toNat_eq ?_
  rw [BitVec.toNat_ofNat]
  have := v.isLt
  omega
theorem homeWord_homeWrite_dev {s : State} (hwf : s.dev.wf = true) (a : Nat) (v : Word) : homeWord (homeWrite s .dev a (wordBytes v)) .dev a = v := by
  have hlen : (wordBytes v).length = 4 := bytesOfNat_length 4 _
  have hbytes : homeBytes (homeWrite s .dev a (wordBytes v)) .dev a 4 = wordBytes v := by
    refine Eq.trans (List.map_congr_left fun i hi => ?_) (hlen ▸ map_byteAt (wordBytes v))
    have hi : i < 4 := List.mem_range.1 hi
    rw [homeByte_homeWrite_dev hwf, if_pos (by omega), Nat.add_sub_cancel_left]
  rw [homeWord, hbytes, wordOf_wordBytes]
theorem homeWord_homeWrite_dev_other {s : State} (hwf : s.dev.wf = true) {a b : Nat} (v : Word) (h : a + 4 ≤ b ∨ b + 4 ≤ a) :
    homeWord (homeWrite s .dev a (wordBytes v)) .dev b = homeWord s .dev b := by
  have hlen : (wordBytes v).length = 4 := bytesOfNat_length 4 _
  refine homeWord_congr fun k hk => ?_
  rw [homeByte_homeWrite_dev hwf, if_neg (by omega)]

/-! ### Ordered reductions -/

section
variable {s : State} (hp : s.pkg.power = true) {i : Nat} {c : Contribution} (hc : s.links.contribs[i]? = some c)
include hp hc
theorem execReduction_waits (hd : contribDead s c = false) (hw : (homeWord s .dev c.turn.pa).toNat ≠ c.want) :
    execOrderedReductionApply i s = .next s := by
  unfold execOrderedReductionApply
  rw [if_pos hp, hc]
  exact if_neg (by simp [contribDue, hd, hw])
/-- The state with the contribution taken from its list. -/
def contribTaken (s : State) (i : Nat) : State := setLinks s { s.links with contribs := s.links.contribs.eraseIdx i }
theorem execReduction_due (hdue : contribDue s c = true) : execOrderedReductionApply i s =
    if contribDead (contribTaken s i) c = true then .next (contributionDone (contribTaken s i) c .ok 0)
    else match raddFault (contribTaken s i) c with
      | some (st, a) => .next (contributionDone (contribTaken s i) c st a)
      | none =>
        let u := applyWords (contribTaken s i) c.words
        .next (contributionDone (homeWrite u .dev c.turn.pa (wordBytes (homeWord u .dev c.turn.pa + 1))) c .ok 0) := by
  unfold execOrderedReductionApply
  rw [if_pos hp, hc]
  exact if_pos hdue
end

theorem orderedReductions : Statements.OrderedReductions := by
  intro s i v w c a p hc
  have hdone (st : CmdStatus) (x : Nat) := keepsTurns_contributionDone (contribTaken s i) c st x
  have hdead : contribDead (contribTaken s i) c = contribDead s c := rfl
  have hfault : raddFault (contribTaken s i) c = raddFault s c := rfl
  refine ⟨fun hd hw hp => ⟨s, execReduction_waits hp hc hd hw, rfl⟩, fun hd hp => ?_, fun hd hw hf hp => ?_, fun hd hw hf hwords hval hwf hapart hp => ?_⟩
  · have hdue : contribDue s c = true := by simp [contribDue, hd]
    exact ⟨_, (execReduction_due hp hc hdue).trans (if_pos (hdead.trans hd)), (hdone .ok 0).dev, (hdone .ok 0).contribs⟩
  · have hdue : contribDue s c = true := by simp [contribDue, show (homeWord s .dev c.turn.pa).toNat = c.want from hw]
    obtain ⟨⟨st, x⟩, hx⟩ := Option.isSome_iff_exists.1 hf
    refine ⟨_, (execReduction_due hp hc hdue).trans ((if_neg (by rw [hdead, hd]; simp)).trans (by rw [hfault, hx])), (hdone st x).dev, (hdone st x).contribs⟩
  · have hdue : contribDue s c = true := by simp [contribDue, show (homeWord s .dev c.turn.pa).toNat = c.want from hw]
    let z : Word := BitVec.ofNat 32 (fAdd fp32 (homeWord s .dev a).toNat v.toNat)
    let u := setFresh (homeWrite (contribTaken s i) .dev a (wordBytes z)) ((contribTaken s i).fresh + 1)
    have happly : applyWords (contribTaken s i) c.words = u := by
      rw [hwords, applyWords, List.foldl_cons, List.foldl_nil, hval]
      rfl
    refine ⟨_, (execReduction_due hp hc hdue).trans ((if_neg (by rw [hdead, hd]; simp)).trans (by rw [hfault, hf])), ?_⟩
    dsimp only
    rw [happly]
    let x := homeWrite u .dev p (wordBytes (homeWord u .dev p + 1))
    have hufresh (y : Nat) : homeByte u .dev y = homeByte (homeWrite (contribTaken s i) .dev a (wordBytes z)) .dev y := homeByte_dev rfl y
    have huwf : u.dev.wf = true := wf_homeWrite (n := .dev) (contribTaken s i) a (wordBytes z) .dev hwf
    have hz : homeWord u .dev a = z := (homeWord_congr fun k _ => hufresh (a + k)).trans (homeWord_homeWrite_dev hwf a z)
    have hp0 : homeWord u .dev p = homeWord s .dev p :=
      (homeWord_congr fun k _ => hufresh (p + k)).trans (homeWord_homeWrite_dev_other (s := contribTaken s i) hwf z hapart)
    have hdone : KeepsTurns x (contributionDone x c .ok 0) := keepsTurns_contributionDone x c .ok 0
    have hbyte (y : Nat) : homeByte (contributionDone x c .ok 0) .dev y = homeByte x .dev y := homeByte_dev hdone.dev y
    have hlinks : x.links = (contribTaken s i).links := by
      rw [links_homeWrite]
      exact links_homeWrite (contribTaken s i) .dev a (wordBytes z)
    refine ⟨?_, ?_, ?_, fun y hya hyp => ?_⟩
    · exact (homeWord_congr fun k _ => hbyte (a + k)).trans ((homeWord_homeWrite_dev_other huwf _ hapart.symm).trans hz)
    · refine (homeWord_congr fun k _ => hbyte (p + k)).trans ((homeWord_homeWrite_dev huwf p _).trans ?_)
      rw [hp0]
    · rw [hdone.contribs, hlinks]; rfl
    · have hlen (q : Word) : (wordBytes q).length = 4 := bytesOfNat_length 4 _
      rw [hbyte, homeByte_homeWrite_dev huwf, if_neg (by rw [hlen]; omega), hufresh, homeByte_homeWrite_dev (s := contribTaken s i) hwf,
        if_neg (by rw [hlen]; omega)]
      rfl


/-! ### Held writes -/

/-- A use of a page leaves device memory and the blocks as they are. -/
theorem usePage_keeps (s : State) (ctx : Nat) (l : Leaf) : (usePage s ctx l).dev = s.dev ∧ (usePage s ctx l).blocks = s.blocks := by
  unfold usePage
  split <;> exact ⟨rfl, rfl⟩
theorem useDrained_keeps (s : State) (b : Nat) {e : HeldEntry} (he : e.radd = none) : (useDrained s b e).dev = s.dev ∧ (useDrained s b e).blocks = s.blocks := by
  unfold useDrained
  simp only [he, Option.isSome_none, Bool.false_eq_true, if_false]
  split
  · split
    · split
      · exact usePage_keeps s _ _
      · exact ⟨rfl, rfl⟩
    · exact ⟨rfl, rfl⟩
  · exact ⟨rfl, rfl⟩
theorem blkOf_of_blocks {s t : State} (h : t.blocks = s.blocks) (b : Nat) : blkOf t b = blkOf s b := by
  rw [blkOf, h]
  rfl
theorem blkOf_dropEntry (s : State) (b q : Nat) : blkOf (dropEntry s b q) b = { blkOf s b with held := (blkOf s b).held.filter fun e => e.seq != q } := by
  unfold dropEntry
  rw [blkOf_settleGrid, blkOf_setBlk]
theorem copyWrite_dev (s : State) (b q g a : Nat) (bs : List Byte) (hwf : s.dev.wf = true) : blkOf (copyWrite s b q g .dev a bs) = blkOf s ∧
    ∀ x, homeByte (copyWrite s b q g .dev a bs) .dev x = if a ≤ x ∧ x < a + bs.length then byteAt bs (x - a) else homeByte s .dev x := by
  obtain ⟨l, hl⟩ := agentWrite_plain s (e := { mem := .dev, addr := a, old := [], agent := b, cmd := some (false, q) }) (.inl rfl) (grpOf s g).view bs
  refine ⟨?_, fun x => ?_⟩
  · funext j
    refine (congrArg (Map.look · j {}) hl.blocks).trans ?_
    rw [homeWrite_eq]
    rfl
  · exact (homeByte_dev hl.keepsTurns.dev x).trans (homeByte_homeWrite_dev (s := { s with log := l }) hwf a bs x)
theorem all_putCmd_phase (r : Ring) (c : Cmd) {ph : CmdPhase} (hc : c.phase = ph) : ∀ d ∈ (putCmd r c).cmds, d.seq = c.seq → d.phase = ph := by
  intro d hd
  obtain ⟨e, -, rfl⟩ := List.mem_map.1 hd
  split
  · exact fun _ => hc
  · next hne => exact fun h => absurd h hne
theorem blkOf_finishCopy (s : State) (b : Nat) (c : Cmd) (st : CmdStatus) (n : Nat) : (blkOf (finishCopy s b c st n) b).held = (blkOf s b).held ∧
    ∀ d ∈ (blkOf (finishCopy s b c st n) b).copy.cmds, d.seq = c.seq → d.phase = .done st := by
  unfold finishCopy
  dsimp only
  rw [blkOf_settleGrid]
  have hmoved (u : State) : blkOf (ringMoved u b) b = blkOf u b := blkOf_of_blocks (groupsOnly_wakeWords u (.ring b) 4096 16).blocks b
  rw [hmoved, blkOf_setBlk]
  exact ⟨rfl, all_putCmd_phase (blkOf s b).copy { c with phase := .done st, chunks := [], owedAcks := c.owedAcks - n, reported := !(statusTrap st).isSome } rfl⟩
/-- An error of a held write is its command's status; the entries stay. -/
theorem blkOf_heldError (s : State) (b : Nat) (e : HeldEntry) (st : CmdStatus) : (blkOf (heldError s b e st) b).held = (blkOf s b).held ∧
    ∀ c, (blkOf s b).copy.cmds.find? (fun c => c.seq == e.cmdSeq) = some c →
      ∀ d ∈ (blkOf (heldError s b e st) b).copy.cmds, d.seq = c.seq → d.phase = .done st := by
  unfold heldError
  dsimp only
  split
  · next c hc =>
    refine ⟨?_, fun x hx => ?_⟩
    · split
      · simp [setCopyCmd, blkOf_setBlk]
      · exact (blkOf_finishCopy s b _ st 0).1
    · obtain rfl : c = x := Option.some.inj (hc.symm.trans hx)
      split
      · rw [setCopyCmd, blkOf_setBlk]
        exact all_putCmd_phase _ { c with phase := .done st, reported := false, errAddr := _ } rfl
      · exact (blkOf_finishCopy s b { c with errAddr := _ } st 0).2
  · next hnone =>
    rw [blkOf_setBlk]
    exact ⟨rfl, fun c h => absurd h (by rw [hnone]; simp)⟩

section
variable {s : State} (hp : s.pkg.power = true) {b : Nat}
include hp
theorem execHoldDrain_stays (h : (blkOf s b).spec = true ∨ (gangOf s (blkOf s b).gang).saved = true ∨ (blkOf s b).trapped = true ∨ getUnderWay s b = true) :
    execHoldDrain b s = .next s := by
  unfold execHoldDrain
  rw [if_pos hp]
  refine if_pos ?_
  rcases h with h | h | h | h <;> simp [h]
variable (hspec : (blkOf s b).spec = false) (hsaved : (gangOf s (blkOf s b).gang).saved = false) (htrapped : (blkOf s b).trapped = false)
  (hget : getUnderWay s b = false)
include hspec hsaved htrapped hget
theorem execHoldDrain_entry {e : HeldEntry} (he : nextHeld (blkOf s b) = some e) (hr : e.remote = false) : execHoldDrain b s = .next (drainLocal s b e) := by
  have hne : (blkOf s b).held.isEmpty = false := by
    rw [List.isEmpty_eq_false_iff]
    intro h
    simp [nextHeld, h] at he
  unfold execHoldDrain
  simp [hp, hspec, hsaved, htrapped, hget, hne, he, hr]
theorem execHoldDrain_effect {e : HeldEffect} {l : List HeldEffect} (hh : (blkOf s b).held = []) (he : (blkOf s b).effects = e :: l) :
    execHoldDrain b s = .next ((performEffect (setBlk s b { blkOf s b with effects := l }) (blkOf s b).kern (blkOf s b).ctx e).getD s) := by
  unfold execHoldDrain
  rw [if_pos hp]
  refine (if_neg (by simp [hspec, hsaved, htrapped, hget])).trans ((if_pos (by simp [hh])).trans ?_)
  rw [he]
  dsimp only
  cases performEffect (setBlk s b { blkOf s b with effects := l }) (blkOf s b).kern (blkOf s b).ctx e <;> rfl
end

section
variable (s : State) (b : Nat) {e : HeldEntry} (hatomic : e.atomic = none) (hradd : e.radd = none) (hmem : e.mem = .dev)
include hradd hmem
theorem drainLocal_refused (h : (ownOf s (e.addr / 65536)).world ≠ (blkOf s b).world ∨ (ownOf s (e.addr / 65536)).key ≠ e.key) :
    drainLocal s b e = dropEntry (heldError s b e .owner) b e.seq := by
  have hbad : drainRefused s b e = some e.va := by
    unfold drainRefused
    simp only [hradd, hmem]
    rcases h with h | h <;> simp [h]
  unfold drainLocal
  rw [hbad]
include hatomic
theorem drainLocal_written (hw : (ownOf s (e.addr / 65536)).world = (blkOf s b).world) (hk : (ownOf s (e.addr / 65536)).key = e.key) :
    drainLocal s b e = dropEntry (copyWrite (useDrained s b e) b e.cmdSeq e.grp .dev e.addr e.data) b e.seq := by
  have hgood : drainRefused s b e = none := by
    unfold drainRefused
    simp [hradd, hmem, hw, hk]
  unfold drainLocal
  simp only [hgood, hatomic, hradd, hmem]
end

theorem heldWritesDrain : Statements.HeldWritesDrain := by
  intro s s' b e h l k o u
  refine ⟨fun hstays hp => ⟨s, execHoldDrain_stays hp hstays, rfl⟩, fun hspec hsaved htrapped hget => ⟨fun he hr hatomic hradd hmem => ⟨fun hw hk hwf hp => ?_,
    fun hbad hp => ?_⟩, fun hh he => ⟨fun hx hp => ?_, fun hx hp => ?_⟩⟩⟩
  · refine ⟨_, execHoldDrain_entry hp hspec hsaved htrapped hget he hr, ?_⟩
    rw [drainLocal_written s b hatomic hradd hmem hw hk]
    obtain ⟨hdev, hblocks⟩ := useDrained_keeps s b hradd
    obtain ⟨hblk, hbyte⟩ := copyWrite_dev (useDrained s b e) b e.cmdSeq e.grp e.addr e.data (hdev ▸ hwf)
    have hkept : blkOf (useDrained s b e) b = blkOf s b := blkOf_of_blocks hblocks b
    have hdrop := (keepsTurns_dropEntry (copyWrite (useDrained s b e) b e.cmdSeq e.grp .dev e.addr e.data) b e.seq).dev
    refine ⟨?_, fun j hj => ?_, fun x hx => ?_⟩
    · rw [blkOf_dropEntry, hblk, hkept]
    · rw [homeByte_dev hdrop, hbyte, if_pos (by omega), Nat.add_sub_cancel_left]
    · rw [homeByte_dev hdrop, hbyte, if_neg (by omega), homeByte_dev hdev]
  · refine ⟨_, execHoldDrain_entry hp hspec hsaved htrapped hget he hr, ?_⟩
    rw [drainLocal_refused s b hradd hmem hbad]
    obtain ⟨hheld, hcmds⟩ := blkOf_heldError s b e .owner
    refine ⟨?_, (keepsTurns_dropEntry _ b e.seq).dev.trans (keepsTurns_heldError s b e .owner).dev, ?_⟩
    · rw [blkOf_dropEntry, hheld]
    · rw [blkOf_dropEntry]
      split
      · next c hc => exact hcmds c hc
      · trivial
  · refine ⟨s', (execHoldDrain_effect hp hspec hsaved htrapped hget hh he).trans ?_, rfl⟩
    rw [hx]
    rfl
  · refine ⟨s, (execHoldDrain_effect hp hspec hsaved htrapped hget hh he).trans ?_, rfl⟩
    rw [hx]
    rfl

/-- Settles O44: a contribution is refused or added where its turn has come, and a held write goes to its home or to its command's status. -/
theorem heldWrites : Obligations.HeldWrites := ⟨orderedReductions, heldWritesDrain⟩

end Sys2Proof.Machine
end

