-- ==== Sys2Proof/Proofs/RemoteOperations.lean ====
section
/-!
PROOFS. Proofs/RemoteOperations.lean: operations at their destination and at their source (R245, R349, R351, R352).
-/
namespace Sys2Proof.Machine

/-! ### At the destination -/

theorem answerAgain_keeps (s : State) (x : Seen) : (answerAgain s x).dev = s.dev ∧ (answerAgain s x).host = s.host := by
  unfold answerAgain
  dsimp only
  have h := Sends.foldl (fun t fl => sends_sendOn t (backRoute s x.src) fl) x.reply
  exact ⟨(h _).dev, (h _).host⟩
theorem tlbLook_keeps (s : State) (ctx va : Nat) : (tlbLook s ctx va).2.dev = s.dev ∧ (tlbLook s ctx va).2.host = s.host := by
  unfold tlbLook
  dsimp only
  split <;> exact ⟨rfl, rfl⟩
theorem headCheck_refused {s u : State} {fl : Flit} {va n : Nat} {r w spec : Bool} {e : Byte} (h : headCheck s fl va n r w spec = (u, .inl e)) :
    u.dev = s.dev ∧ u.host = s.host := by
  unfold headCheck at h
  dsimp only at h
  split at h
  · obtain rfl : s = u := congrArg Prod.fst h
    exact ⟨rfl, rfl⟩
  · split at h
    · obtain rfl : (tlbLook s fl.ctx va).2 = u := congrArg Prod.fst h
      exact tlbLook_keeps s fl.ctx va
    · exact absurd (congrArg Prod.snd h) (by simp)

theorem remoteTargets : Statements.RemoteTargets := by
  intro s u fl x e m a body va n fn w64 size whole
  refine ⟨fun h => ?_, fun h => ?_, fun h => ?_, fun h => ?_, fun h hecc => ?_, fun hfn hal h hm hecc => ?_⟩
  · have heq : takeHead fl body s = answerAgain s x := by rw [takeHead, h]
    rw [heq]
    exact ⟨rfl, answerAgain_keeps s x⟩
  · rw [takeHead, h]
  · refine ⟨?_, headCheck_refused h⟩
    unfold takePut
    dsimp only
    rw [h]
  · unfold takePut
    dsimp only
    rw [h]
    rfl
  · unfold takeGet
    dsimp only
    rw [h]
    exact if_neg (by rw [hecc]; simp)
  · unfold takeAtom
    dsimp only
    refine (if_neg (by simp only [not_or]; exact ⟨by omega, fun h8 => absurd h8.1 (by omega), fun h => h hal⟩)).trans ?_
    rw [show headCheck s fl (headVa fl) _ true true false = (u, .inr (m, a)) from h]
    dsimp only
    refine (if_neg (by rw [hm]; simp)).trans ((if_neg (by rw [hecc]; simp)).trans ?_)
    rfl

/-! ### At the source -/

theorem flatMap_take_drop {α : Type} (k : Nat) (l : List α) : ∀ n, ((List.range n).flatMap fun i => (l.drop (k * i)).take k) = l.take (k * n)
  | 0 => by simp
  | n + 1 => by
    rw [List.range_succ, List.flatMap_append, flatMap_take_drop k l n, Nat.mul_succ, List.take_add]
    simp
theorem overlayAll_nil (m : MemName) (a : Nat) (bs : List Byte) : overlayAll [] m a bs = bs := by
  unfold overlayAll
  dsimp only [List.foldl_nil]
  rw [flatMap_take_drop, List.drop_take]
  simp only [List.append_assoc]
  rw [List.drop_append_of_le_length (by simp), List.drop_eq_nil_of_le (by simp), List.nil_append, List.take_take, List.take_append_of_le_length (by omega),
    List.take_of_length_le (by omega)]
theorem getBytes_plain {s : State} {o : SrcOp} (h : gangHeld s o.blk = []) (bs : List Byte) : getBytes s o bs = bs := by
  unfold getBytes
  dsimp only
  rw [h]
  split
  · exact overlayAll_nil _ _ bs
  · rfl
theorem landGet_plain {s : State} {o : SrcOp} (hspec : (blkOf s o.blk).spec = false) (hheld : (blkOf s o.blk).held = []) (bs : List Byte) :
    landGet s o bs = copyWrite s o.blk o.seq o.grp o.mem o.addr bs := by
  unfold landGet
  refine if_neg ?_
  unfold stagesGet
  simp [hspec, hheld]
theorem drainDone_of_none (s : State) {o : SrcOp} (h : o.heldSeq = none) : drainDone s o = s := by rw [drainDone, h]
theorem groups_settleGrid (s : State) (k : Nat) : (settleGrid s k).groups = s.groups := (settles_settleGrid s k).groups
/-- An acknowledgement less for its group to wait for, and nothing of the list of operations. -/
theorem uncount_ack {s : State} {o : SrcOp} (hheld : o.heldSeq = none) (hblk : (Map.find s.blocks o.blk).isSome = true) :
    (grpOf (uncount s o 1) o.grp).ack = (grpOf s o.grp).ack - 1 := by
  have hrun : ¬ (o.heldSeq.isSome = true ∨ 1 = 0 ∨ (Map.find s.blocks o.blk).isNone = true) := by
    rw [hheld, ← Option.not_isSome, hblk]
    simp
  unfold uncount
  rw [if_neg hrun]
  dsimp only
  rw [grpOf, groups_settleGrid]
  exact congrArg Group.ack (grpOf_setGrp s o.grp _)

theorem remoteSources : Statements.RemoteSources := by
  intro s fl o d tag status got
  refine ⟨fun ho => ⟨fun hok hk => ⟨fun hst => ?_, fun hst => ?_⟩, fun hk => ⟨fun hst => ?_, fun hst => ?_⟩, fun hk hok hlen => ?_, fun hk hok hlen hspec hheld => ?_,
    fun hk hst => ?_, fun hk hst hlen hheld => ?_⟩, fun h bs => getBytes_plain h bs, fun hd hw => if_pos ⟨hd, hw⟩, fun ho => ?_, fun h => ?_, fun h hheld hblk => ?_,
    fun h hst hroute hp => ?_, fun h hst hp => ?_, fun h hp => ?_⟩
  · unfold takeWacc
    rw [ho]
    exact (if_neg (by simp only [hok, Bool.false_eq_true, false_or]; omega)).trans (if_neg (by simpa using hst))
  · unfold takeWacc
    rw [ho]
    exact (if_neg (by simp only [hok, Bool.false_eq_true, false_or]; omega)).trans (if_pos hst)
  · unfold takeRhead
    rw [ho]
    exact (if_neg (by simpa using hk)).trans (if_pos hst)
  · unfold takeRhead
    rw [ho]
    exact (if_neg (by simpa using hk)).trans (if_neg hst)
  · unfold takeGetData
    rw [ho]
    exact (if_neg (by simp [hk, hok])).trans (if_pos hlen)
  · unfold takeGetData
    rw [ho]
    refine (if_neg (by simp [hk, hok])).trans ((if_neg (Nat.not_lt.2 hlen)).trans ?_)
    rw [landGet_plain (o := { o with inbuf := got }) hspec hheld]
  · unfold takeAtomr
    rw [ho]
    exact (if_neg (by simpa using hk)).trans (if_pos hst)
  · unfold takeAtomr
    rw [ho]
    refine (if_neg (by simpa using hk)).trans ((if_neg (by simpa using hst)).trans ?_)
    dsimp only
    rw [if_pos hlen, if_neg (by simp [hlen]), drainDone_of_none _ hheld]
  · refine ⟨?_, ?_, ?_, ?_⟩
    · rw [takeWacc, ho]
    · rw [takeRhead, ho]
    · rw [takeGetData, ho]
    · rw [takeAtomr, ho]
  · rw [takeAck, h]
  · unfold takeAck
    rw [h]
    dsimp only
    let y : SrcOp := { o with unacked := o.unacked.erase tag }
    have hack : (grpOf (uncount (putOp s y) y 1) o.grp).ack = (grpOf s o.grp).ack - 1 := uncount_ack (s := putOp s y) (o := y) hheld hblk
    refine ⟨?_, fun hlast z hz => ?_⟩
    · split
      · exact hack
      · rw [drainDone_of_none _ (o := { o with unacked := o.unacked.erase tag }) hheld]
        exact hack
    · rw [if_neg (by simp [hlast]), drainDone_of_none _ (o := { o with unacked := o.unacked.erase tag }) hheld] at hz
      have hz := (List.mem_filter.1 hz).2
      intro hsame
      simp [hsame] at hz
  · have hd : o.dst = d := by
      have := List.find?_some h
      simp only [Bool.and_eq_true, beq_iff_eq] at this
      exact this.1
    refine ⟨_, ?_, rfl⟩
    refine (exec_operationTimeout d tag s).trans ?_
    unfold execOperationTimeout
    rw [if_pos hp, h]
    refine if_neg fun hc => hc.elim (fun hs => absurd (hst.symm.trans hs) (by decide)) fun hc => ?_
    exact hroute.elim hc.1 fun hr => hr hc.2
  · refine ⟨_, ?_, rfl⟩
    refine (exec_operationTimeout d tag s).trans ?_
    unfold execOperationTimeout
    rw [if_pos hp, h]
    exact if_pos hst
  · refine ⟨_, ?_, rfl⟩
    refine (exec_operationTimeout d tag s).trans ?_
    unfold execOperationTimeout
    rw [if_pos hp, h]

/-- Settles O58: the cases of each flit at its operation's two ends. -/
theorem remoteOperations : Obligations.RemoteOperations := ⟨remoteTargets, remoteSources⟩

end Sys2Proof.Machine
end

