-- ==== Sys2Proof/Proofs/MatrixCommands.lean ====
section
/-!
PROOFS. Proofs/MatrixCommands.lean: the order of the matrix sequencer, and what MMA, ACCZ and LDST leave (R291 to R297). A command with no
rival and nothing early in what it reads sees each operand at its home.
-/
namespace Sys2Proof.Machine

/-! ### The order of the sequencer -/

theorem matrixNext_some {s : State} {b : Nat} {c : Cmd} (h : matrixNext s b = some c) :
    (Map.find s.blocks b).isSome = true ∧ (settleMatrix (blkOf s b)).matrix.cmds.find? (matrixReady (settleMatrix (blkOf s b))) = some c := by
  unfold matrixNext at h
  dsimp only at h
  split at h
  · next hc =>
    simp only [Bool.and_eq_true] at hc
    exact ⟨hc.1.1.1.1.1, h⟩
  · exact absurd h (by simp)
theorem matrixStarts {s : State} {b : Nat} {c : Cmd} (h : matrixNext s b = some c) : Comes (.matrixCommandStart b) s fun t =>
    (∀ d ∈ (blkOf t b).matrix.cmds, d.seq = c.seq → d.phase = .started) ∧ (blkOf t b).tiles = (blkOf s b).tiles ∧ (blkOf t b).slots = (blkOf s b).slots := by
  intro hp
  obtain ⟨hsome, -⟩ := matrixNext_some h
  refine ⟨setBlk (chargeBudget s (settleMatrix (blkOf s b)).ctx 4 (matrixUnit (settleMatrix (blkOf s b))) 1) b
    (setTouch { settleMatrix (blkOf s b) with matrix := putCmd (settleMatrix (blkOf s b)).matrix { c with phase := .started } } c.seq 1 0), ?_, ?_⟩
  · refine (exec_matrixCommandStart b s).trans ?_
    unfold execMatrixCommandStart
    rw [if_pos hp, if_neg (by simpa [Option.isSome_iff_ne_none] using hsome)]
    dsimp only
    rw [h]
  · dsimp only
    rw [blkOf_setBlk]
    exact ⟨all_putCmd_phase _ { c with phase := .started } rfl, rfl, rfl⟩

/-! ### A command without rivals -/

section
variable {s : State} {b : Nat} {c : Cmd} {g : MTouch} (hm : (blkOf s b).touches.find? (fun t => t.seq == c.seq) = some g)
  (hrivals : rivals (blkOf s b) g = []) (hecc : matrixEcc s (blkOf s b) b g = none)
include hm hrivals hecc
/-- Its effect is what it has computed, its retirement and nothing undefined. -/
theorem runMatrix_alone : (blkOf (runMatrix s b c) b).tiles = (blkOf (writeOut s b { blk := b, t := g, taint := [] } (matrixOut s { blk := b, t := g, taint := [] } c)) b).tiles ∧
    (blkOf (runMatrix s b c) b).slots = (blkOf (writeOut s b { blk := b, t := g, taint := [] } (matrixOut s { blk := b, t := g, taint := [] } c)) b).slots := by
  have htaints : taints b (blkOf s b) g = [] := by rw [taints, hrivals]; rfl
  have hafter : aftermath b (blkOf s b) g = [] := by rw [aftermath, hrivals]; rfl
  have hmoved (u : State) : blkOf (ringMoved u b) b = blkOf u b := blkOf_of_blocks (groupsOnly_wakeWords u (.ring b) 4096 16).blocks b
  unfold runMatrix
  dsimp only
  rw [hm]
  dsimp only [Option.getD_some]
  rw [hafter, htaints, hecc, List.foldl_nil, hmoved, blkOf_setBlk]
  generalize writeOut s b { blk := b, t := g, taint := [] } (matrixOut s { blk := b, t := g, taint := [] } c) = u
  exact ⟨rfl, rfl⟩
end

/-! ### Operands at their home -/

/-- Nothing is undone of a location that is read as of its newest write. -/
theorem undo_newest (a : Nat) {hs : List (Nat × Written)} {lo : Nat} (h : ∀ e, hs.head? = some e → e.1 = lo) (x : Byte) : undo lo a hs x = x := by
  cases hs with
  | nil => rfl
  | cons e l => exact if_pos (Nat.le_of_eq (h e rfl))
theorem hits_falls (n : MemName) (a len : Nat) : ∀ l : List Written, ∀ e ∈ hits n a len l, e.1 ≤ l.length
  | [] => by simp [hits]
  | w :: l => by
    intro e he
    rw [hits] at he
    split at he
    · rcases List.mem_cons.1 he with rfl | he
      · simp
      · exact Nat.le_trans (hits_falls n a len l e he) (by simp)
    · exact Nat.le_trans (hits_falls n a len l e he) (by simp)
/-- The first of the writes to a location is the last one. -/
theorem hits_le_head (n : MemName) (a len : Nat) : ∀ (l : List Written) (e : Nat × Written), (hits n a len l).head? = some e → ∀ x ∈ hits n a len l, x.1 ≤ e.1
  | [], e, h => by simp [hits] at h
  | w :: l, e, h => by
    rw [hits] at h ⊢
    split at h
    · next hw =>
      obtain rfl : (l.length + 1, w) = e := by simpa using h
      rw [if_pos hw]
      intro x hx
      rcases List.mem_cons.1 hx with rfl | hx
      · exact Nat.le_refl _
      · exact Nat.le_trans (hits_falls n a len l x hx) (by simp)
    · next hw =>
      rw [if_neg hw]
      exact hits_le_head n a len l e h

section
variable {s : State} {b : Nat} {g : MTouch}
/-- The write that a command reads a location as of, where it must see the newest one. -/
theorem portCut_newest {n : MemName} {a : Nat} (hsee : ∀ e, (hits n a 4 s.log).head? = some e → mustSee g.grp g.born (portView { blk := b, t := g, taint := [] }) e = true) :
    ∃ lo, portCut s { blk := b, t := g, taint := [] } n a = .cut lo ∧ ∀ e, (hits n a 4 s.log).head? = some e → e.1 = lo := by
  refine ⟨floorOf g.grp g.born (portView { blk := b, t := g, taint := [] }) (hits n a 4 s.log), ?_, fun e he => ?_⟩
  · have hlo : (hits n a 4 s.log).filter (fun e => decide (floorOf g.grp g.born (portView { blk := b, t := g, taint := [] }) (hits n a 4 s.log) < e.1)) = [] := by
      rw [List.filter_eq_nil_iff]
      intro x hx
      cases hl : hits n a 4 s.log with
      | nil => rw [hl] at hx; cases hx
      | cons e l =>
        have hle := hits_le_head n a 4 s.log e (by rw [hl]; rfl) x hx
        have hfloor : floorOf g.grp g.born (portView { blk := b, t := g, taint := [] }) (e :: l) = e.1 := by
          rw [floorOf, List.find?_cons_of_pos (hsee e (by rw [hl]; rfl))]
          rfl
        rw [hfloor]
        simpa using hle
    unfold portCut
    dsimp only
    rw [hlo]
    rfl
  · cases hl : hits n a 4 s.log with
    | nil => rw [hl] at he; cases he
    | cons x l =>
      obtain rfl : x = e := by rw [hl] at he; simpa using he
      rw [floorOf, List.find?_cons_of_pos (hsee x (by rw [hl]; rfl))]
      rfl
variable (hdirty : g.dirty = [])
include hdirty
theorem mByte_slot (a : Nat) : mByte s { blk := b, t := g, taint := [] } 2 a = some (homeByte s (.slot b) a) := by
  unfold mByte
  simp [hdirty, inSpans, spanMem]
variable (hsee : ∀ a e, (hits (.win b) a 4 s.log).head? = some e → mustSee g.grp g.born (portView { blk := b, t := g, taint := [] }) e = true)
include hsee
theorem mByte_window (a : Nat) : mByte s { blk := b, t := g, taint := [] } 0 a = some (homeByte s (.win b) a) := by
  obtain ⟨lo, hcut, hlo⟩ := portCut_newest (hsee (a / 4 * 4))
  unfold mByte
  simp only [inSpans, hdirty, List.any_nil, Bool.false_eq_true, if_false]
  rw [if_neg (by omega)]
  simp only [spanMem, if_pos]
  rw [hcut]
  simp only [underHeld, sightByte]
  rw [undo_newest _ hlo, Nat.div_add_mod']
end

/-! ### Tiles -/

/-- The element that a command's results give a tile place. -/
theorem look_results (f : Nat × Option Word → Word) (z : Nat) (v : Word) : ∀ (l : List (Nat × Option Word)) (m : Map Word), (∀ e ∈ l, e.1 = z → f e = v) →
    Map.look (l.foldl (fun m e => Map.put m e.1 (f e)) m) z 0 = if z ∈ l.map Prod.fst then v else Map.look m z 0
  | [], m, _ => by simp
  | e :: l, m, h => by
    rw [List.foldl_cons, look_results f z v l _ fun x hx => h x (List.mem_cons_of_mem _ hx)]
    by_cases hl : z ∈ l.map Prod.fst
    · rw [if_pos hl, if_pos (by simp only [List.map_cons, List.mem_cons]; exact .inr hl)]
    · by_cases he : e.1 = z
      · rw [if_neg hl, if_pos (by simp [he]), ← he, look_put_same]
        exact h e (by simp) he
      · rw [if_neg hl, if_neg (by simp only [List.map_cons, List.mem_cons]; exact fun h => h.elim (fun h => he h.symm) hl),
          look_put_other _ _ _ (fun h => he h.symm)]
theorem tiles_writeOut (s : State) (b : Nat) (v : MView) {o : MOut} (h : o.bytes = []) :
    (blkOf (writeOut s b v o) b).tiles = o.elems.foldl (fun m e => Map.put m e.1 (e.2.getD (Config.freeWord s.fresh e.1))) (blkOf s b).tiles ∧
      (blkOf (writeOut s b v o) b).slots = (blkOf s b).slots := by
  unfold writeOut
  rw [h]
  dsimp only [byteRuns, List.foldl_nil]
  have hfresh (u : State) (n : Nat) : blkOf (setFresh u n) b = blkOf u b := rfl
  rw [hfresh, blkOf_setBlk]
  exact ⟨rfl, rfl⟩

/-- ACCZ's elements: those of the tiles that its last word names. -/
theorem mem_acczOut {c : Cmd} {e : Nat × Option Word} : e ∈ (acczOut c).elems ↔
    ∃ t x, t < 8 ∧ x < 16384 ∧ imgWord (natOfWords c.img) 7 / 2 ^ t % 2 = 1 ∧ e = (16384 * t + x, some 0) := by
  simp only [acczOut, List.mem_flatMap, List.mem_filter, List.mem_range, List.mem_map, beq_iff_eq]
  constructor
  · rintro ⟨t, ⟨ht, hw⟩, x, hx, rfl⟩
    exact ⟨t, x, ht, hx, hw, rfl⟩
  · rintro ⟨t, x, ht, hx, hw, rfl⟩
    exact ⟨t, ⟨ht, hw⟩, x, hx, rfl⟩

theorem tile_accz (s : State) (b : Nat) (v : MView) (c : Cmd) {i j : Nat} (hi : i < 8) (hj : j < 16384) :
    Map.look (blkOf (writeOut s b v (acczOut c)) b).tiles (16384 * i + j) 0 =
      if imgWord (natOfWords c.img) 7 / 2 ^ i % 2 = 1 then 0 else Map.look (blkOf s b).tiles (16384 * i + j) 0 := by
  rw [(tiles_writeOut s b v rfl).1, look_results _ _ 0 _ _ fun e he _ => ?_]
  · have hiff : 16384 * i + j ∈ (acczOut c).elems.map Prod.fst ↔ imgWord (natOfWords c.img) 7 / 2 ^ i % 2 = 1 := by
      rw [List.mem_map]
      constructor
      · rintro ⟨e, he, hkey⟩
        obtain ⟨t, x, ht, hx, hw, rfl⟩ := mem_acczOut.1 he
        obtain rfl : t = i := by simp only at hkey; omega
        exact hw
      · exact fun hw => ⟨(16384 * i + j, some 0), mem_acczOut.2 ⟨i, j, hi, hj, hw, rfl⟩, rfl⟩
    simp only [hiff]
  · obtain ⟨t, x, -, -, -, rfl⟩ := mem_acczOut.1 he
    rfl

/-- MMA's elements: row and column of its rows, each with the sum of its products. -/
theorem mem_cells {m i j : Nat} : (i, j) ∈ cells m ↔ i < m ∧ j < 128 := by
  simp [cells]
/-- A list of values that are all defined. -/
theorem mapM_defined {α β : Type} (l : List α) (f : α → Option β) (g : α → β) (h : ∀ a, f a = some (g a)) : l.mapM f = some (l.map g) := by
  rw [funext h]
  exact List.mapM_pure
/-- A sum of groups of products that are all defined. -/
theorem foldl_defined {α β : Type} {step : Option α → β → Option α} {f : α → β → α} (h : ∀ a x, step (some a) x = some (f a x)) : ∀ (l : List β) (a : α),
    l.foldl step (some a) = some (l.foldl f a)
  | [], _ => rfl
  | x :: l, a => by rw [List.foldl_cons, h, foldl_defined h l]; rfl
theorem mHalf_defined {s : State} {v : MView} {sp : Nat} {f : Nat → Byte} (h : ∀ a, mByte s v sp a = some (f a)) (a : Nat) :
    mHalf s v sp a = some (natOfBytes [f a, f (a + 1)]) := by
  rw [mHalf, mBytes, mapM_defined _ _ (fun i => f (a + i)) fun i => h (a + i)]
  rfl

section
variable {s : State} {b : Nat} {g : MTouch} {c : Cmd} (hdirty : g.dirty = [])
  (hsee : ∀ a e, (hits (.win b) a 4 s.log).head? = some e → mustSee g.grp g.born (portView { blk := b, t := g, taint := [] }) e = true)
include hdirty hsee
theorem mmaOut_defined (h3 : mGenSide (natOfWords c.img) 3 = none) (h5 : mGenSide (natOfWords c.img) 5 = none) :
    let img := natOfWords c.img
    let w (i : Nat) : Nat := imgWord img i
    let half (m : MemName) (a : Nat) : Nat := natOfBytes [homeByte s m a, homeByte s m (a + 1)]
    let f := if cFn img = 0 then bf16 else fp16
    let x (i j : Nat) : FVal := fval f (half (.win b) (4 * bitsOf (w 3) 21 0 + i * (4 * bitsOf (w 4) 15 0) + 2 * j))
    let y (i j : Nat) : FVal := fval f (half (.slot b) (32768 * bitsOf (w 5) 6 0 + 2 * (128 * i + j)))
    (mmaOut s { blk := b, t := g, taint := [] } c).elems = (cells (mRows img)).map fun p => (16384 * bitsOf (w 7) 2 0 + 128 * p.1 + p.2,
      some (BitVec.ofNat 32 ((List.range 8).foldl (fun a g => accAdd a ((List.range 16).map fun l => fMulVal (x p.1 (16 * g + l)) (y (16 * g + l) p.2)))
        (Map.look (blkOf s b).tiles (16384 * bitsOf (w 7) 2 0 + 128 * p.1 + p.2) 0).toNat))) := by
  intro img w half f x y
  have ha (i : Nat) := mHalf_defined (fun a => mByte_window (s := s) (b := b) hdirty hsee a) i
  have hb (i : Nat) := mHalf_defined (fun a => mByte_slot (s := s) (b := b) hdirty a) i
  refine List.map_congr_left fun p _ => ?_
  refine congrArg (Prod.mk _) ?_
  have hstart : (mElem s { blk := b, t := g, taint := [] } (bitsOf (w 7) 2 0) p.1 p.2).map BitVec.toNat =
    some (Map.look (blkOf s b).tiles (16384 * bitsOf (w 7) 2 0 + 128 * p.1 + p.2) 0).toNat := rfl
  rw [hstart, foldl_defined (f := fun a g => accAdd a ((List.range 16).map fun l => fMulVal (x p.1 (16 * g + l)) (y (16 * g + l) p.2)))]
  · rfl
  · intro a q
    rw [h3, h5]
    dsimp only [Option.bind_eq_bind, Option.bind_some]
    rw [mapM_defined _ _ (fun l => fMulVal (x p.1 (16 * q + l)) (y (16 * q + l) p.2))]
    · rfl
    · intro l
      rw [ha, hb]
      rfl
end

/-! ### Slots -/

theorem byteAt_map_range (f : Nat → Byte) {n i : Nat} (h : i < n) : byteAt ((List.range n).map f) i = f i := by
  rw [byteAt, List.getD_eq_getElem?_getD, List.getElem?_map, List.getElem?_range h]
  rfl

theorem byteRuns_range (sp : Nat) : ∀ (n a : Nat) (x : Nat → Option Byte),
    byteRuns ((List.range (n + 1)).map fun i => (sp, a + i, x i)) = [(sp, a, (List.range (n + 1)).map x)]
  | 0, _, _ => rfl
  | n + 1, a, x => by
    have ih := byteRuns_range sp n (a + 1) fun i => x (i + 1)
    have htail : (fun i => (sp, a + (i + 1), x (i + 1))) = fun i => (sp, a + 1 + i, x (i + 1)) := by
      funext i
      rw [Nat.add_assoc, Nat.add_comm i 1]
    rw [List.range_succ_eq_map, List.map_cons, List.map_map, List.map_cons, List.map_map, byteRuns]
    simp only [Function.comp_def, Nat.succ_eq_add_one]
    rw [htail, ih]
    simp
/-- A write to a slot reaches no span that another block's matrix command reads. -/
theorem disturb_slot (w : View) (b a len : Nat) (l : List (Nat × Block)) (s : State) : l.foldl (disturbBlock w (.slot b) a len) s = s := by
  have hmiss (c : Nat) (k : Block) (x : Span) : spanMeets c k (.slot b) a len x = false := by
    unfold spanMeets dieName
    cases k.kmode <;> simp
  refine foldl_unchanged _ fun e _ => ?_
  unfold disturbBlock
  dsimp only
  refine if_neg ?_
  rw [Bool.not_eq_true, List.any_eq_false]
  intro t _
  rw [List.any_eq_false.2 fun x _ => by simp [hmiss]]
  simp
theorem blkOf_wakeWords (s : State) (n : MemName) (a len b : Nat) : blkOf (wakeWords s n a len) b = blkOf s b :=
  blkOf_of_blocks (groupsOnly_wakeWords s n a len).blocks b
theorem writeRun_slot (b n : Nat) (v : MView) (s : State) (a m : Nat) (f : Nat → Byte) :
    (blkOf (writeRun b v n s (2, a, (List.range m).map fun i => some (f i))) b).slots = writeBytes (blkOf s b).slots a ((List.range m).map f) ∧
      (blkOf (writeRun b v n s (2, a, (List.range m).map fun i => some (f i))) b).tiles = (blkOf s b).tiles := by
  have hbytes : (List.range m).map (fun i => ((((List.range m).map fun i => some (f i)).drop i).head?.getD none).getD (Config.freeByte n (a + i))) = (List.range m).map f := by
    refine List.map_congr_left fun i hi => ?_
    rw [List.head?_drop, List.getElem?_map, List.getElem?_range (List.mem_range.1 hi)]
    rfl
  have hlen : ((List.range m).map fun i => some (f i)).length = m := by simp
  unfold writeRun
  dsimp only
  rw [show spanMem (blkOf s b) b 2 = .slot b from rfl, hlen, hbytes, disturb_slot, blkOf_wakeWords, engineBytes]
  obtain ⟨l, hl⟩ := logWrite_rest s { mem := .slot b, addr := a, old := [], agent := b, cmd := some (true, v.t.seq) } ((List.range m).map f).length
  rw [hl, blkOf_homeWrite, setMem, blkOf_setBlk]
  exact ⟨rfl, rfl⟩

section
variable {s : State} {b : Nat} {g : MTouch} {c : Cmd} (hdirty : g.dirty = [])
  (hsee : ∀ a e, (hits (.win b) a 4 s.log).head? = some e → mustSee g.grp g.born (portView { blk := b, t := g, taint := [] }) e = true)
include hdirty hsee
theorem writeOut_ldst (hspace : (endpointAt (natOfWords c.img) 3).space = 0) :
    let at_ := 32768 * bitsOf (imgWord (natOfWords c.img) 5) 6 0 + 256 * bitsOf (imgWord (natOfWords c.img) 6) 6 0
    let n := 256 * (bitsOf (imgWord (natOfWords c.img) 6) 15 8 + 1)
    let t := writeOut s b { blk := b, t := g, taint := [] } (ldstOut s { blk := b, t := g, taint := [] } c)
    (blkOf t b).slots = writeBytes (blkOf s b).slots at_ ((List.range n).map fun i => homeByte s (.win b) ((endpointAt (natOfWords c.img) 3).off + i)) ∧
      (blkOf t b).tiles = (blkOf s b).tiles := by
  intro at_ n t
  have hbytes : (ldstOut s { blk := b, t := g, taint := [] } c).bytes =
      (List.range n).map fun i => (2, at_ + i, some (homeByte s (.win b) ((endpointAt (natOfWords c.img) 3).off + i))) := by
    refine List.map_congr_left fun i _ => ?_
    rw [show spanSpace (endpointAt (natOfWords c.img) 3) = 0 from if_neg (by omega), mByte_window hdirty hsee]
  obtain ⟨k, hk⟩ : ∃ k, n = k + 1 := ⟨n - 1, by omega⟩
  have hruns : byteRuns (ldstOut s { blk := b, t := g, taint := [] } c).bytes =
      [(2, at_, (List.range n).map fun i => some (homeByte s (.win b) ((endpointAt (natOfWords c.img) 3).off + i)))] := by
    rw [hbytes, hk]
    exact byteRuns_range 2 k at_ _
  have hrun := writeRun_slot b s.fresh { blk := b, t := g, taint := [] } (setBlk s b { blkOf s b with tiles := (blkOf s b).tiles }) at_ n
    fun i => homeByte s (.win b) ((endpointAt (natOfWords c.img) 3).off + i)
  rw [blkOf_setBlk] at hrun
  show (blkOf (writeOut s b _ _) b).slots = _ ∧ (blkOf (writeOut s b _ _) b).tiles = _
  unfold writeOut
  rw [hruns]
  exact hrun
end

/-- Settles O45: the sequencer takes the first ready command, and one without rivals leaves what its operands at their homes give. -/
theorem matrixCommands : Obligations.MatrixCommands := by
  intro s b n c k m img w half f x y tile
  refine ⟨matrixStarts, fun h => ?_, fun g hc hph hm hriv hdirty hecc hwf hsee => ?_⟩
  · obtain ⟨-, hfind⟩ := matrixNext_some h
    obtain ⟨hready, l₁, l₂, hl, hnot⟩ := List.find?_eq_some_iff_append.1 hfind
    exact ⟨hready, l₁, l₂, hl, fun d hd => by simpa using hnot d hd⟩
  obtain rfl : c.seq = n := by simpa using List.find?_some hc
  have hruns : s.pkg.power = true → exec (.matrixCommandComplete b c.seq) s = .next (runMatrix s b c) := by
    intro hp
    refine (exec_matrixCommandComplete b c.seq s).trans ?_
    unfold execMatrixCommandComplete
    rw [if_pos hp, hc]
    dsimp only
    rw [if_pos hph]
  obtain ⟨htiles, hslots⟩ := runMatrix_alone hm hriv hecc
  refine ⟨fun hk hp => ⟨_, hruns hp, ?_⟩, fun hk hspace hp => ⟨_, hruns hp, ?_⟩, fun hk h3 h5 hp => ⟨_, hruns hp, ?_⟩⟩
  · have hout : matrixOut s { blk := b, t := g, taint := [] } c = acczOut c := by
      rw [matrixOut, show cKind (natOfWords c.img) = 3 from hk]
      rfl
    rw [hout] at htiles hslots
    refine ⟨fun i j hi hj => ?_, hslots.trans (tiles_writeOut s b _ rfl).2⟩
    rw [htiles]
    exact tile_accz s b _ c hi hj
  · have hout : matrixOut s { blk := b, t := g, taint := [] } c = ldstOut s { blk := b, t := g, taint := [] } c := by
      rw [matrixOut, show cKind (natOfWords c.img) = 2 from hk]
      rfl
    rw [hout] at htiles hslots
    obtain ⟨hs, ht⟩ := writeOut_ldst (c := c) hdirty hsee hspace
    refine ⟨fun i hi => ?_, htiles.trans ht⟩
    have hlen (f : Nat → Byte) : i < ((List.range (256 * (bitsOf (w 6) 15 8 + 1))).map f).length := by simpa using hi
    rw [hslots, hs, readB_writeBytes hwf]
    refine (if_pos ⟨Nat.le_add_right _ i, Nat.add_lt_add_left (hlen _) _⟩).trans ?_
    rw [show (_ : Nat) + i - _ = i from Nat.add_sub_cancel_left _ i]
    exact byteAt_map_range _ hi
  · have hout : matrixOut s { blk := b, t := g, taint := [] } c = mmaOut s { blk := b, t := g, taint := [] } c := by
      rw [matrixOut, show cKind (natOfWords c.img) = 0 from hk]
      rfl
    rw [hout] at htiles
    have helems := mmaOut_defined (c := c) hdirty hsee h3 h5
    rw [(tiles_writeOut s b _ rfl).1, helems] at htiles
    refine ⟨fun i j hi hj => ?_, fun z hz => ?_⟩
    · rw [htiles, look_results _ _ (BitVec.ofNat 32 ((List.range 8).foldl (fun a g => accAdd a ((List.range 16).map fun l =>
        fMulVal (x i (16 * g + l)) (y (16 * g + l) j))) (Map.look k.tiles (tile (128 * i + j)) 0).toNat)) _ _ fun e he hkey => ?_, if_pos ?_]
      · exact List.mem_map.2 ⟨_, List.mem_map.2 ⟨(i, j), mem_cells.2 ⟨hi, hj⟩, rfl⟩, Nat.add_assoc _ _ _⟩
      · obtain ⟨⟨i', j'⟩, hp, rfl⟩ := List.mem_map.1 he
        have hj' := (mem_cells.1 hp).2
        have hkey : 16384 * bitsOf (w 7) 2 0 + 128 * i' + j' = 16384 * bitsOf (w 7) 2 0 + (128 * i + j) := hkey
        obtain ⟨rfl, rfl⟩ : i' = i ∧ j' = j := by omega
        dsimp only [Option.getD_some]
        rw [Nat.add_assoc]
    · have hkeys : ∀ e ∈ (cells (mRows img)).map (fun p => (16384 * bitsOf (w 7) 2 0 + 128 * p.1 + p.2, some (BitVec.ofNat 32
          ((List.range 8).foldl (fun a g => accAdd a ((List.range 16).map fun l => fMulVal (x p.1 (16 * g + l)) (y (16 * g + l) p.2)))
            (Map.look k.tiles (16384 * bitsOf (w 7) 2 0 + 128 * p.1 + p.2) 0).toNat)))), e.1 ≠ z := by
        intro e he hkey
        obtain ⟨⟨i', j'⟩, hp, rfl⟩ := List.mem_map.1 he
        obtain ⟨hi', hj'⟩ := mem_cells.1 hp
        have hkey : 16384 * bitsOf (w 7) 2 0 + 128 * i' + j' = z := hkey
        have hz : z < 16384 * bitsOf (w 7) 2 0 + 0 ∨ 16384 * bitsOf (w 7) 2 0 + 128 * mRows img ≤ z := hz
        omega
      rw [htiles, look_results _ _ 0 _ _ fun e he hkey => absurd hkey (hkeys e he), if_neg fun hmem => ?_]
      obtain ⟨e, he, hkey⟩ := List.mem_map.1 hmem
      exact hkeys e he hkey

end Sys2Proof.Machine
end

