-- ==== Sys2Proof/Proofs/GangEvents.lean ====
section
/-!
PROOFS. Proofs/GangEvents.lean: gangs are placed, released, pre-empted and resumed (R106 to R111, R163 to R166).
-/
namespace Sys2Proof.Machine

/-! ### Traces -/

section
variable (s : State) (k kind rank thread index item : Nat)
/-- A trace entry is written to memory, or spoils the traces there: it leaves unchanged whatever neither changes. -/
theorem traceAppend_keeps {β : Type} (p : State → β) (hw : ∀ s m a bs, p (homeWrite s m a bs) = p s) (hf : ∀ s n, p (setFresh s n) = p s)
    (hm : ∀ (s : State) (b : Nat × Kern → Bool), p { s with kerns := s.kerns.map fun e => (e.1, { e.2 with spoilt := b e }) } = p s) :
    p (traceAppend s k kind rank thread index item) = p s := by
  unfold traceAppend
  dsimp only
  split
  · rfl
  · split
    · unfold spoilTrace
      dsimp only
      rw [hf, vaWrite_keeps p hw]
      refine Eq.trans (congrArg p ?_) (hm s fun e => e.2.spoilt || decide (e.2.mode = 1 ∧
        vaMem s e.2.ctx (e.2.args.getD 7 0).toNat = vaMem s (kernOf s k).ctx (traceBase s k)))
      refine congrArg (fun m => ({ s with kerns := m } : State)) (List.map_congr_left fun e _ => ?_)
      split
      · next h => rw [decide_eq_true h, Bool.or_true]
      · next h => rw [decide_eq_false h, Bool.or_false]
    · rw [vaWrite_keeps p hw]
      split
      · rw [vaWrite_keeps p hw]
      · rfl
theorem gangs_traceAppend : (traceAppend s k kind rank thread index item).gangs = s.gangs :=
  traceAppend_keeps s k kind rank thread index item State.gangs gangs_homeWrite (fun _ _ => rfl) (fun _ _ => rfl)
theorem todo_traceAppend (j : Nat) : (kernOf (traceAppend s k kind rank thread index item) j).todo = (kernOf s j).todo := by
  refine traceAppend_keeps s k kind rank thread index item (fun s => (kernOf s j).todo) (fun s m a bs => by simp [kernOf]) (fun _ _ => rfl) fun s b => ?_
  unfold kernOf
  dsimp only
  rw [look_eq_find, look_eq_find, find_map_fst]
  cases Map.find s.kerns j <;> rfl
end

/-! ### Placement -/

theorem gangOf_addBlocks (h : Header) (id : Nat) : ∀ (l : List (Block × List (Nat × Nat × Nat × Nat))) (s : State), (∀ e ∈ l, e.1.gang = id) →
    (∃ new : List Nat, new.length = l.length ∧ gangOf (addBlocks h s l) id = { gangOf s id with blocks := (gangOf s id).blocks ++ new }) ∧
      (addBlocks h s l).kerns = s.kerns
  | [], s, _ => ⟨⟨[], rfl, by simp [addBlocks]⟩, rfl⟩
  | e :: l, s, hl => by
    obtain ⟨⟨new, hlen, hgang⟩, hkern⟩ := gangOf_addBlocks h id l (addBlock s e.1 h e.2) fun x hx => hl x (List.mem_cons_of_mem _ hx)
    have hadd : gangOf (addBlock s e.1 h e.2) id = { gangOf s id with blocks := (gangOf s id).blocks ++ [s.nextId] } := by
      rw [← hl e List.mem_cons_self]
      exact gangOf_setGang _ _ _
    refine ⟨⟨s.nextId :: new, by simp [hlen], ?_⟩, hkern⟩
    rw [addBlocks, hgang, hadd]
    simp

/-- The gang that placement makes, and the list of those still to place. -/
theorem placeGang_made (s : State) (k r q c base : Nat) (places : List (List (Nat × Nat × Nat × Nat))) :
    ∃ bs : List Nat, bs.length = (gangBlocks s k r q).length ∧
      gangOf (placeGang s k r q c base places) s.nextId = { kern := k, rank := r, index := q, cluster := c, blocks := bs } ∧
      (kernOf (placeGang s k r q c base places) k).todo = Map.put (kernOf s k).todo r ((Map.look (kernOf s k).todo r []).erase q) := by
  let u := setGang { s with nextId := s.nextId + 1 } s.nextId { kern := k, rank := r, index := q, cluster := c }
  let mk (j : Nat) : Block :=
    { kern := k, gang := s.nextId, logical := (gangBlocks s k r q).getD j 0, rank := r, ctx := (kernOf s k).ctx, world := (kernOf s k).world, part := c / 2
      die := c / 12, cluster := c, base := base + j * coresOf (kernAt s k r).hdr, spec := gangSpec s k r q }
  let l := (List.range (gangBlocks s k r q).length).map fun j => (mk j, places.getD j [])
  obtain ⟨⟨new, hlen, hgang⟩, hkern⟩ := gangOf_addBlocks (kernAt s k r).hdr s.nextId l u (by
    intro e he
    obtain ⟨j, -, rfl⟩ := List.mem_map.1 he
    rfl)
  have hu : gangOf u s.nextId = { kern := k, rank := r, index := q, cluster := c } := gangOf_setGang _ _ _
  let v := addBlocks (kernAt s k r).hdr u l
  have hv : kernOf v k = kernOf s k := by
    show Map.look v.kerns k {} = Map.look s.kerns k {}
    rw [show v.kerns = s.kerns from hkern]
  let y : Kern := { kernOf v k with todo := Map.put (kernOf v k).todo r ((Map.look (kernOf v k).todo r []).erase q)
                                    openBlocks := Map.put (kernOf v k).openBlocks r (Map.look (kernOf v k).openBlocks r 0 + (gangBlocks s k r q).length) }
  have hplace : placeGang s k r q c base places = if (kernOf v k).mode = 1 then traceAppend (setKern v k y) k 1 r 0 q 0 else setKern v k y := rfl
  refine ⟨new, by rw [hlen]; simp [l], ?_, ?_⟩
  · have hgangs : (placeGang s k r q c base places).gangs = v.gangs := by
      rw [hplace]
      split
      · exact gangs_traceAppend _ _ _ _ _ _ _
      · rfl
    rw [gangOf, hgangs]
    exact hgang.trans (by rw [hu]; rfl)
  · have htodo : (kernOf (placeGang s k r q c base places) k).todo = (kernOf (setKern v k y) k).todo := by
      rw [hplace]
      split
      · exact todo_traceAppend _ _ _ _ _ _ _ k
      · rfl
    rw [htodo, kernOf_setKern, ← hv]

section
variable {s : State} (hp : s.pkg.power = true) {k r : Nat}
include hp
theorem execGangPlace_stays (h : distributes s k = false ∨ (Map.look (kernOf s k).todo r []).isEmpty = true ∨ outranked (dropBanks s) k r = true) :
    execGangPlace k r s = .next (dropBanks s) := by
  unfold execGangPlace
  rw [if_pos hp]
  refine if_neg ?_
  rw [show distributes (dropBanks s) k = distributes s k from rfl, show kernOf (dropBanks s) k = kernOf s k from rfl]
  rcases h with h | h | h <;> simp [h]
variable (hd : distributes s k = true) (ht : (Map.look (kernOf s k).todo r []).isEmpty = false) (ho : outranked (dropBanks s) k r = false)
include hd ht ho
theorem execGangPlace_read (hread : (kernOf s k).read.contains r = true) : execGangPlace k r s = .next (tryPlace (dropBanks s) k r) := by
  unfold execGangPlace
  rw [if_pos hp]
  refine (if_pos ?_).trans (if_pos hread)
  rw [show distributes (dropBanks s) k = distributes s k from rfl, show kernOf (dropBanks s) k = kernOf s k from rfl, hd, ht, ho]
  rfl
theorem execGangPlace_unread (hread : (kernOf s k).read.contains r = false) {c : Nat} (hc : (rankClusters (dropBanks s) k r).head? = some c) :
    execGangPlace k r s = .next (if refuseCode (dropBanks s) (kernOf s k).ctx (kernOf s k).image = 0 then tryPlace (readKernel (dropBanks s) k r) k r
      else failRank (dropBanks s) k r (c / 2) .illop none) := by
  obtain ⟨cs, hcs⟩ := List.head?_eq_some_iff.1 hc
  unfold execGangPlace
  rw [if_pos hp]
  refine (if_pos ?_).trans ((if_neg (by rw [show kernOf (dropBanks s) k = kernOf s k from rfl, hread]; simp)).trans ?_)
  · rw [show distributes (dropBanks s) k = distributes s k from rfl, show kernOf (dropBanks s) k = kernOf s k from rfl, hd, ht, ho]
    rfl
  · rw [hcs]
    dsimp only
    by_cases h : refuseCode (dropBanks s) (kernOf s k).ctx (kernOf s k).image = 0
    · rw [if_pos h]
      exact if_neg (not_not_intro h)
    · rw [if_neg h]
      exact if_pos h
end

/-! ### Release -/

theorem fillBank_cores (k : Nat) (s : State) (core : Nat) : ∃ m, fillBank k s core = { s with cores := m } := by
  unfold fillBank
  dsimp only
  split
  · exact ⟨s.cores, rfl⟩
  · exact ⟨_, rfl⟩
theorem fillBanks_cores (k : Nat) : ∀ (l : List Nat) (s : State), ∃ m, l.foldl (fillBank k) s = { s with cores := m }
  | [], s => ⟨s.cores, rfl⟩
  | c :: l, s => by
    obtain ⟨m, hm⟩ := fillBank_cores k s c
    obtain ⟨m', hm'⟩ := fillBanks_cores k l { s with cores := m }
    exact ⟨m', by rw [List.foldl_cons, hm, hm']⟩
theorem find_args (l : List Word) (i : Nat) : ∀ n, Map.find ((List.range n).filterMap fun i => if l.getD i 0 = 0 then none else some (i, l.getD i 0)) i =
    if i < n ∧ l.getD i 0 ≠ 0 then some (l.getD i 0) else none
  | 0 => by simp [Map.find]
  | n + 1 => by
    rw [List.range_succ, List.filterMap_append, find_append, find_args l i n]
    by_cases hz : l.getD n 0 = 0
    · have hlast : [n].filterMap (fun i => if l.getD i 0 = 0 then none else some (i, l.getD i 0)) = [] := by
        simp only [List.filterMap_cons, List.filterMap_nil, if_pos hz]
      have hiff : (i < n ∧ l.getD i 0 ≠ 0) ↔ (i < n + 1 ∧ l.getD i 0 ≠ 0) :=
        ⟨fun h => ⟨by omega, h.2⟩, fun h => ⟨by have : i ≠ n := fun he => h.2 (he ▸ hz); omega, h.2⟩⟩
      rw [hlast, Map.find, Option.or_none]
      simp only [hiff]
    · have hlast : [n].filterMap (fun i => if l.getD i 0 = 0 then none else some (i, l.getD i 0)) = [(n, l.getD n 0)] := by
        simp only [List.filterMap_cons, List.filterMap_nil, if_neg hz]
      rw [hlast]
      by_cases hin : i = n
      · subst hin
        rw [if_neg (by omega), if_pos ⟨by omega, hz⟩, Map.find, if_pos rfl]
        rfl
      · have hiff : (i < n ∧ l.getD i 0 ≠ 0) ↔ (i < n + 1 ∧ l.getD i 0 ≠ 0) := ⟨fun h => ⟨by omega, h.2⟩, fun h => ⟨by omega, h.2⟩⟩
        rw [show Map.find [(n, l.getD n 0)] i = none from if_neg fun h => hin h.symm, Option.or_none]
        simp only [hiff]
theorem releasedGroup_register (k : Kern) (g : Group) (i : Nat) : Map.look (releasedGroup k g).s i 0 = if i < 8 then k.args.getD i 0 else 0 := by
  rw [look_eq_find]
  refine (congrArg (Option.getD · 0) (find_args k.args i 8)).trans ?_
  by_cases hi : i < 8
  · by_cases hz : k.args.getD i 0 = 0
    · rw [if_neg (fun h => h.2 hz), if_pos hi, hz]
      rfl
    · rw [if_pos ⟨hi, hz⟩, if_pos hi]
      rfl
  · rw [if_neg (fun h => hi h.1), if_neg hi]
    rfl

theorem vaAt_place {s : State} {ctx va : Nat} {r w : Bool} {m : MemName} {a : Nat} (h : vaAt s ctx va r w = some (m, a)) : m = .dev ∨ m = .host := by
  unfold vaAt at h
  dsimp only at h
  split at h
  · cases h
  · obtain ⟨l, -, hl⟩ := Option.map_eq_some_iff.1 h
    obtain rfl : leafMem l = m := congrArg Prod.fst hl
    unfold leafMem
    split
    · exact .inl rfl
    · exact .inr rfl

/-- The second state differs from the first in what releasing blocks changes: banks, the blocks' windows and release times, and groups. -/
structure ReleasesBlocks (s t : State) : Prop where
  rest : t = { s with cores := t.cores, blocks := t.blocks, groups := t.groups }
  block : ∀ b, blkOf t b = { blkOf s b with win := (blkOf t b).win, released := (blkOf t b).released }
section
variable {s t : State} (h : ReleasesBlocks s t)
include h
theorem ReleasesBlocks.kernFor (b : Nat) : kernFor t (blkOf t b) = kernFor s (blkOf s b) := by
  rw [h.block b]
  unfold Machine.kernFor kernAt kernOf
  rw [show t.kerns = s.kerns from (congrArg State.kerns h.rest :)]
theorem ReleasesBlocks.groups (b : Nat) : (blkOf t b).groups = (blkOf s b).groups := by rw [h.block b]
theorem ReleasesBlocks.vaRead (ctx va n : Nat) : vaRead t ctx va n = vaRead s ctx va n := by
  have hctx : ctxOf t ctx = ctxOf s ctx := by
    unfold ctxOf
    rw [show t.ctxs = s.ctxs from (congrArg State.ctxs h.rest :)]
  refine List.map_congr_left fun i _ => ?_
  rw [vaAt_congr (s := s) (by rw [hctx]) (by rw [hctx]) (congrArg State.own h.rest :)]
  cases hv : vaAt s ctx (va + i) true false with
  | none => rfl
  | some ma =>
    rcases vaAt_place hv with hm | hm
    · rw [show ma = (.dev, ma.2) from Prod.ext hm rfl]
      exact homeByte_dev (congrArg State.dev h.rest :) ma.2
    · rw [show ma = (.host, ma.2) from Prod.ext hm rfl]
      exact congrArg (readB · ma.2) (congrArg State.host h.rest :)
/-- What the release of a block leaves in it, whatever was released before. -/
theorem ReleasesBlocks.block_released (b : Nat) : (blkOf (releaseBlock t b) b).win = writeBytes [] 0 (Machine.vaRead s (Machine.kernFor s (blkOf s b)).ctx
      ((Machine.kernFor s (blkOf s b)).image + (Machine.kernFor s (blkOf s b)).hdr.dataoff) (Machine.kernFor s (blkOf s b)).hdr.datalen) ∧
    (blkOf (releaseBlock t b) b).released = s.time := by
  have hblk : blkOf (releaseBlock t b) b = { blkOf t b with win := writeBytes [] 0 (Machine.vaRead t (Machine.kernFor t (blkOf t b)).ctx
      ((Machine.kernFor t (blkOf t b)).image + (Machine.kernFor t (blkOf t b)).hdr.dataoff) (Machine.kernFor t (blkOf t b)).hdr.datalen), released := t.time } :=
    blkOf_setBlk t b _
  rw [hblk, h.kernFor, h.vaRead]
  exact ⟨rfl, (congrArg State.time h.rest :)⟩
theorem ReleasesBlocks.step (b : Nat) : ReleasesBlocks s (releaseBlock t b) where
  rest := by
    have hrest := h.rest
    unfold releaseBlock setBlk
    dsimp only
    rw [hrest]
  block d := by
    have hset (y : Block) (hy : y = { blkOf s b with win := y.win, released := y.released }) (m : Map Group) :
        blkOf { setBlk t b y with groups := m } d = { blkOf s d with win := (blkOf { setBlk t b y with groups := m } d).win, released := (blkOf { setBlk t b y with groups := m } d).released } := by
      by_cases hd : d = b
      · subst hd
        rw [show blkOf { setBlk t d y with groups := m } d = y from blkOf_setBlk t d y]
        exact hy
      · rw [show blkOf { setBlk t b y with groups := m } d = blkOf t d from blkOf_setBlk_other t y hd]
        exact h.block d
    refine hset _ ?_ _
    rw [h.block b]
theorem ReleasesBlocks.find_group (b g : Nat) : Map.find (releaseBlock t b).groups g =
    (Map.find t.groups g).map fun x => if (blkOf s b).groups.contains g then releasedGroup (Machine.kernFor s (blkOf s b)) x else x := by
  rw [← h.groups b, ← h.kernFor b, ← find_map_fst fun e => if (blkOf t b).groups.contains e.1 then releasedGroup (Machine.kernFor t (blkOf t b)) e.2 else e.2]
  refine congrArg (Map.find · g) (List.map_congr_left fun e _ => ?_)
  split <;> rfl
end
theorem ReleasesBlocks.of_cores (s : State) (m : Map Core) : ReleasesBlocks s { s with cores := m } := ⟨rfl, fun _ => rfl⟩

section
variable (s : State) {b g : Nat}
/-- A group and its block as their release leaves them. -/
def IsReleased (s : State) (b g : Nat) (t : State) : Prop :=
  Map.find t.groups g = some (releasedGroup (kernFor s (blkOf s b)) (grpOf s g)) ∧
    (blkOf t b).win = writeBytes [] 0 (vaRead s (kernFor s (blkOf s b)).ctx
      ((kernFor s (blkOf s b)).image + (kernFor s (blkOf s b)).hdr.dataoff) (kernFor s (blkOf s b)).hdr.datalen) ∧ (blkOf t b).released = s.time
theorem released_foldl (hg : g ∈ (blkOf s b).groups) : ∀ (l : List Nat) (t : State), (∀ d ∈ l, g ∈ (blkOf s d).groups → d = b) → ReleasesBlocks s t →
    IsReleased s b g t ∨ (Map.find t.groups g = some (grpOf s g) ∧ b ∈ l) → IsReleased s b g (l.foldl releaseBlock t)
  | [], t, _, _, h => h.elim id fun h => absurd h.2 (by simp)
  | d :: l, t, hone, hr, h => by
    refine released_foldl hg l _ (fun d hd => hone d (List.mem_cons_of_mem _ hd)) (hr.step d) ?_
    by_cases hd : d = b
    · subst hd
      refine .inl ⟨?_, hr.block_released d⟩
      have hmem : (blkOf s d).groups.contains g = true := by simpa using hg
      rw [hr.find_group]
      simp only [if_pos hmem]
      rcases h with h | h
      · rw [h.1]; rfl
      · rw [h.1]; rfl
    · have hnot : ¬ (blkOf s d).groups.contains g = true := fun hmem => hd (hone d List.mem_cons_self (by simpa using hmem))
      have hblk : blkOf (releaseBlock t d) b = blkOf t b := blkOf_setBlk_other t _ (Ne.symm hd)
      have hfind : Map.find (releaseBlock t d).groups g = Map.find t.groups g := by
        rw [hr.find_group]
        simp only [if_neg hnot]
        exact Option.map_id'
      refine h.imp (fun h => ?_) fun h => ⟨hfind.trans h.1, (List.mem_cons.1 h.2).resolve_left (Ne.symm hd)⟩
      rw [IsReleased, hfind, hblk]
      exact h
end

section
variable {s : State} (hp : s.pkg.power = true) {id : Nat} (hsome : (Map.find s.gangs id).isSome = true) (hrel : (gangOf s id).released = false)
  (hsaved : (gangOf s id).saved = false)
include hp hsome hrel hsaved
theorem execGangRelease_fails {w : TrapCode × Nat} (h : gangError (dropBanks s) id = some w) : execGangRelease id s =
    .next (failRank (removeAll (dropBanks s) (gangOf s id).blocks) (gangOf s id).kern (gangOf s id).rank ((gangOf s id).cluster / 2) w.1 (some w.2)) := by
  unfold execGangRelease
  rw [if_pos hp]
  refine (if_neg (by rw [hrel, hsaved, ← Option.not_isSome, hsome]; simp)).trans ?_
  dsimp only
  rw [h]
theorem execGangRelease_releases (h : gangError (dropBanks s) id = none) : execGangRelease id s =
    .next (setGang ((gangOf s id).blocks.foldl releaseBlock ((gangCores (dropBanks s) id).foldl (fillBank (gangOf s id).kern) (dropBanks s))) id
      { gangOf s id with released := true }) := by
  unfold execGangRelease
  rw [if_pos hp]
  refine (if_neg (by rw [hrel, hsaved, ← Option.not_isSome, hsome]; simp)).trans ?_
  dsimp only
  rw [h]
end

theorem gangStarts : Statements.GangStarts := by
  intro s s' k r q c base gang b g places w s0 fit
  have hwhole : distributes s0 k = distributes s k := rfl
  refine ⟨fun hd ht ho => ⟨fun hread hnext hback hfit hp => ?_, fun hread hnext hback hp => ?_, fun hread hc hp => ?_⟩, fun ho hp => ?_, fun hsome hrel hsaved => ⟨fun herr hp => ?_,
    fun herr hb hg hfound hone hp => ?_⟩⟩
  · have htry : tryPlace s0 k r = placeGang s' k r q c base places := by
      unfold tryPlace
      rw [hnext]
      exact (if_neg (by rw [hback]; simp)).trans (by rw [show gangFit s' k r (List.range (gangBlocks s' k r q).length) = some (c, base, places) from hfit])
    obtain ⟨bs, hlen, hgang, htodo⟩ := placeGang_made s' k r q c base places
    refine ⟨_, (execGangPlace_read hp hd ht ho hread).trans (congrArg Host.Outcome.next htry), ?_⟩
    dsimp only
    rw [hgang, htodo]
    exact ⟨rfl, rfl, rfl, rfl, rfl, hlen, look_put_same _ _ _ _⟩
  · have htry : tryPlace s0 k r = s0 := by
      unfold tryPlace
      rw [hnext]
      dsimp only
      by_cases hb : heldBack s' k r q = true
      · exact if_pos hb
      · refine (if_neg hb).trans ?_
        rw [show gangFit s' k r (List.range (gangBlocks s' k r q).length) = none from hback.resolve_left hb]
    exact ⟨_, (execGangPlace_read hp hd ht ho hread).trans (congrArg Host.Outcome.next htry), rfl⟩
  · exact ⟨_, execGangPlace_unread hp hd ht ho hread hc, rfl⟩
  · exact ⟨_, execGangPlace_stays hp (.inr (.inr ho)), rfl⟩
  · exact ⟨_, execGangRelease_fails hp hsome hrel hsaved herr, rfl⟩
  · refine ⟨_, execGangRelease_releases hp hsome hrel hsaved herr, ?_⟩
    · obtain ⟨m, hm⟩ : ∃ m, (gangCores (dropBanks s) gang).foldl (fillBank (gangOf s gang).kern) (dropBanks s) = { s with cores := m } :=
        fillBanks_cores (gangOf s gang).kern (gangCores (dropBanks s) gang) (dropBanks s)
      have hstart : Map.find s.groups g = some (grpOf s g) := by
        obtain ⟨x, hx⟩ := Option.isSome_iff_exists.1 hfound
        rw [hx, grpOf, look_of_find hx]
      have hdone : IsReleased s b g ((gangOf s gang).blocks.foldl releaseBlock { s with cores := m }) :=
        released_foldl s hg _ _ hone (ReleasesBlocks.of_cores s m) (.inr ⟨hstart, hb⟩)
      rw [hm]
      generalize (gangOf s gang).blocks.foldl releaseBlock { s with cores := m } = u at hdone
      obtain ⟨hgroup, hwin, htime⟩ := hdone
      have hgrp (x : Gang) : grpOf (setGang u gang x) g = releasedGroup (kernFor s (blkOf s b)) (grpOf s g) := look_of_find hgroup {}
      dsimp only
      rw [hgrp, gangOf_setGang]
      exact ⟨rfl, rfl, rfl, rfl, releasedGroup_register _ _, hwin, htime⟩

/-! ### Pre-emption -/

/-- Draining is preferred to saving, and saving to every flush. -/
theorem methods_drain_save (s : State) (q : Gang) : ∃ l, methods s q = .drain :: .save :: l := ⟨_, rfl⟩
theorem chooseMethod_drain {s : State} {q : Gang} {bound : Nat} (h : within bound (estimate s q .drain) = true) : chooseMethod s q bound = .drain := by
  obtain ⟨l, hl⟩ := methods_drain_save s q
  unfold chooseMethod
  rw [hl]
  dsimp only
  rw [List.find?_cons_of_pos (p := fun m => within bound (estimate s q m)) h]
  rfl
theorem chooseMethod_save {s : State} {q : Gang} {bound : Nat} (hd : within bound (estimate s q .drain) = false)
    (h : within bound (estimate s q .save) = true) : chooseMethod s q bound = .save := by
  obtain ⟨l, hl⟩ := methods_drain_save s q
  unfold chooseMethod
  rw [hl]
  dsimp only
  rw [List.find?_cons_of_neg (p := fun m => within bound (estimate s q m)) (by simp [hd]),
    List.find?_cons_of_pos (p := fun m => within bound (estimate s q m)) h]
  rfl
section
variable {s : State} {id : Nat} (hsome : (Map.find s.gangs id).isSome = true) (bound : Nat)
include hsome
theorem preemptGang_unreleased (h : (gangOf s id).released = false) : preemptGang bound s id = flushGang s (gangOf s id) := by
  unfold preemptGang
  exact (if_neg (by rw [← Option.not_isSome, hsome]; simp)).trans (if_pos h)
theorem preemptGang_saved (hr : (gangOf s id).released = true) (h : (gangOf s id).saved = true) :
    preemptGang bound s id = if chooseMethod s (gangOf s id) bound = .blockFlush then flushGang s (gangOf s id) else s := by
  unfold preemptGang
  exact (if_neg (by rw [← Option.not_isSome, hsome]; simp)).trans ((if_neg (by rw [hr]; simp)).trans (if_pos h))
variable (hr : (gangOf s id).released = true) (hs : (gangOf s id).saved = false)
include hr hs
theorem preemptGang_drains (h : chooseMethod s (gangOf s id) bound = .drain) :
    preemptGang bound s id = setGang s id { gangOf s id with draining := true } := by
  unfold preemptGang
  refine (if_neg (by rw [← Option.not_isSome, hsome]; simp)).trans ((if_neg (by rw [hr]; simp)).trans ((if_neg (by rw [hs]; simp)).trans ?_))
  rw [h]
theorem preemptGang_saves (h : chooseMethod s (gangOf s id) bound = .save) :
    preemptGang bound s id = setGang ((gangOf s id).blocks.foldl (saveBlock false) s) id { gangOf s id with saved := true, draining := false } := by
  unfold preemptGang
  refine (if_neg (by rw [← Option.not_isSome, hsome]; simp)).trans ((if_neg (by rw [hr]; simp)).trans ((if_neg (by rw [hs]; simp)).trans ?_))
  rw [h]
end

/-! ### Resumption -/

theorem length_fitBlocks (s : State) (k : Nat) (h : Header) (first : Nat) : ∀ (js : List Nat) {l : List (List (Nat × Nat × Nat × Nat))},
    fitBlocks s k h first js = some l → l.length = js.length
  | [], l, hl => by
    obtain rfl : [] = l := Option.some.inj hl
    rfl
  | j :: js, l, hl => by
    rw [fitBlocks] at hl
    split at hl
    · next x l' hx hl' =>
      obtain rfl : x :: l' = l := Option.some.inj hl
      rw [List.length_cons, List.length_cons, length_fitBlocks s k h first js hl']
    · cases hl
/-- A gang that fits has a place for each of its blocks. -/
theorem length_gangFit {s : State} {k r c base : Nat} {js : List Nat} {l : List (List (Nat × Nat × Nat × Nat))}
    (h : gangFit s k r js = some (c, base, l)) : l.length = js.length := by
  obtain ⟨c', -, hc⟩ := List.exists_of_findSome?_eq_some h
  obtain ⟨⟨base', l'⟩, hf, heq⟩ := Option.map_eq_some_iff.1 hc
  obtain ⟨rfl, rfl, rfl⟩ : c' = c ∧ base' = base ∧ l' = l := by simpa using heq
  obtain ⟨i, -, hi⟩ := List.exists_of_findSome?_eq_some hf
  dsimp only at hi
  split at hi
  · obtain ⟨l'', hl'', heq⟩ := Option.map_eq_some_iff.1 hi
    obtain ⟨-, rfl⟩ : _ = base' ∧ l'' = l' := by simpa using heq
    exact length_fitBlocks _ _ _ _ _ hl''
  · cases hi

/-- The group of a saved block goes on: it waits where a path still waits. -/
def resumedState (x : Group) : GroupState :=
  if anyWait { x with pathA := reissue x.pathA, pathB := reissue x.pathB } then .waiting else .runnable
theorem resumeGroup_preempted (places : List (Nat × Nat × Nat × Nat)) {x : Group} (h : x.state = .preempted) :
    (resumeGroup places x).state = resumedState x := by
  unfold resumeGroup
  exact (congrArg Group.state (if_pos h) :)
theorem resumeGroup_other (places : List (Nat × Nat × Nat × Nat)) {x : Group} (h : x.state ≠ .preempted) : (resumeGroup places x).state = x.state := by
  unfold resumeGroup
  exact (congrArg Group.state (if_neg h) :)

section
variable (s : State) (cluster base : Nat) (e : Nat × List (Nat × Nat × Nat × Nat))
theorem groups_blkOf_resumeBlock (b : Nat) : (blkOf (resumeBlock cluster base s e) b).groups = (blkOf s b).groups :=
  field_setBlk Block.groups s (b := e.1) (y := { blkOf s e.1 with cluster := cluster, base := base, part := cluster / 2, die := cluster / 12 }) rfl b
theorem find_group_resumeBlock (g : Nat) : Map.find (resumeBlock cluster base s e).groups g =
    (Map.find s.groups g).map fun x => if (blkOf s e.1).groups.contains g then resumeGroup e.2 x else x := by
  rw [← find_map_fst fun x => if (blkOf s e.1).groups.contains x.1 then resumeGroup e.2 x.2 else x.2]
  refine congrArg (Map.find · g) (List.map_congr_left fun x _ => ?_)
  split <;> rfl
theorem gangs_resumeBlock : (resumeBlock cluster base s e).gangs = s.gangs := rfl
end

section
variable {s : State} {g : Nat} {x : Group} (hpre : x.state = .preempted)
include hpre
/-- The group of a resumed block, through the blocks of its gang. -/
theorem resumed_foldl (cluster : Nat) (base : State → Nat → Nat) : ∀ (l : List (Nat × List (Nat × Nat × Nat × Nat))) (t : State),
    (∀ b, (blkOf t b).groups = (blkOf s b).groups) →
    (∃ y, Map.find t.groups g = some y ∧ y.state = resumedState x) ∨
      (Map.find t.groups g = some x ∧ ∃ e ∈ l, g ∈ (blkOf s e.1).groups) →
    ∃ y, Map.find (l.foldl (fun s e => resumeBlock cluster (base s e.1) s e) t).groups g = some y ∧ y.state = resumedState x
  | [], _, _, h => h.elim id fun ⟨_, _, he, _⟩ => absurd he (by simp)
  | e :: l, t, hgroups, h => by
    have hne : resumedState x ≠ .preempted := by unfold resumedState; split <;> simp
    refine resumed_foldl cluster base l (resumeBlock cluster (base t e.1) t e) (fun b => (groups_blkOf_resumeBlock t _ _ e b).trans (hgroups b)) ?_
    rw [find_group_resumeBlock, hgroups]
    by_cases hmem : (blkOf s e.1).groups.contains g = true
    · simp only [if_pos hmem]
      rcases h with ⟨y, hy, hst⟩ | ⟨hx, -⟩
      · exact .inl ⟨resumeGroup e.2 y, by rw [hy]; rfl, (resumeGroup_other e.2 (by rw [hst]; exact hne)).trans hst⟩
      · exact .inl ⟨resumeGroup e.2 x, by rw [hx]; rfl, resumeGroup_preempted e.2 hpre⟩
    · simp only [if_neg hmem]
      refine h.imp (fun ⟨y, hy, hst⟩ => ⟨y, by rw [hy]; rfl, hst⟩) fun ⟨hx, d, hd, hg⟩ => ⟨by rw [hx]; rfl, ?_⟩
      rcases List.mem_cons.1 hd with rfl | hd
      · exact absurd (by simpa using hg) hmem
      · exact ⟨d, hd, hg⟩
end
theorem gangs_restartGroups (gs : List Nat) (s : State) : (restartGroups s gs).gangs = s.gangs := by
  refine foldl_keeps State.gangs (fun s g => ?_) gs s
  split <;> rfl
theorem state_homeWrite (s : State) (m : MemName) (a : Nat) (bs : List Byte) (g : Nat) : (grpOf (homeWrite s m a bs) g).state = (grpOf s g).state := by
  by_cases h : ∃ k, m = .spill k
  · obtain ⟨k, rfl⟩ := h
    rw [homeWrite_eq]
    refine Eq.trans (b := (grpOf (setGrp s k { grpOf s k with spill := writeBytes (memOf s (.spill k)) a bs }) g).state) rfl ?_
    by_cases hg : g = k
    · subst hg
      rw [grpOf_setGrp]
    · rw [grpOf_setGrp_other s _ hg]
  · unfold grpOf
    rw [groups_homeWrite s a bs fun k hk => h ⟨k, hk⟩]

theorem execGangResume_resumes {s : State} (hp : s.pkg.power = true) {id c base : Nat} {places : List (List (Nat × Nat × Nat × Nat))}
    (hmay : mayResume (dropBanks s) (gangOf s id) = true) (ho : outranked (dropBanks s) (gangOf s id).kern (gangOf s id).rank = false)
    (hfit : resumeFit (dropBanks s) (gangOf s id) = some (c, base, places)) (herr : bankError (resumeGang (dropBanks s) id c base places) id = none) :
    execGangResume id s = .next ((gangCores (resumeGang (dropBanks s) id c base places) id).foldl (fillBank (gangOf s id).kern)
      (resumeGang (dropBanks s) id c base places)) := by
  unfold execGangResume
  rw [if_pos hp]
  refine (if_pos ?_).trans ?_
  · rw [show gangOf (dropBanks s) id = gangOf s id from rfl, hmay, ho]
    rfl
  · rw [show gangOf (dropBanks s) id = gangOf s id from rfl, hfit]
    dsimp only
    rw [herr]

/-- A resumed gang, and its groups where no open region is flushed. -/
theorem resumeGang_resumed (s : State) (id c base : Nat) (places : List (List (Nat × Nat × Nat × Nat))) :
    gangOf (resumeGang s id c base places) id = { gangOf s id with saved := false, regionFlushed := false, cluster := c } ∧
      ((gangOf s id).regionFlushed = false → places.length = (gangOf s id).blocks.length → ∀ b ∈ (gangOf s id).blocks, ∀ g ∈ (blkOf s b).groups,
        (grpOf s g).state = .preempted → (grpOf (resumeGang s id c base places) g).state = resumedState (grpOf s g)) := by
  let stopped := ((gangOf s id).blocks.flatMap fun b => (blkOf s b).groups).filter fun g => (grpOf s g).state == .preempted
  let t := ((gangOf s id).blocks.zip places).foldl
    (fun t e => resumeBlock c (base + gangPos t e.1 * coresOf (kernAt s (gangOf s id).kern (gangOf s id).rank).hdr) t e) s
  let u := setGang t id { gangOf s id with saved := false, regionFlushed := false, cluster := c }
  let v := if (gangOf s id).regionFlushed then restartGroups u stopped else u
  have hresume : resumeGang s id c base places = if (kernOf v (gangOf s id).kern).mode = 1 then
    traceAppend v (gangOf s id).kern 1 (gangOf s id).rank 0 (gangOf s id).index 0 else v := rfl
  refine ⟨?_, fun hflushed hlen b hb g hg hpre => ?_⟩
  · have hgangs : (resumeGang s id c base places).gangs = u.gangs := by
      have hv : v.gangs = u.gangs := by
        show (if (gangOf s id).regionFlushed = true then restartGroups u stopped else u).gangs = u.gangs
        split
        · exact gangs_restartGroups stopped u
        · rfl
      rw [hresume]
      split
      · rw [gangs_traceAppend, hv]
      · exact hv
    rw [gangOf, hgangs]
    exact gangOf_setGang t id _
  · have hv : v = u := if_neg (by rw [hflushed]; simp)
    have hstate : (grpOf (resumeGang s id c base places) g).state = (grpOf u g).state := by
      rw [hresume, hv]
      split
      · exact traceAppend_keeps _ _ _ _ _ _ _ (fun s => (grpOf s g).state) (fun s m a bs => state_homeWrite s m a bs g) (fun _ _ => rfl) (fun _ _ => rfl)
      · rfl
    have hfound : Map.find s.groups g = some (grpOf s g) := by
      cases hx : Map.find s.groups g with
      | none =>
        rw [grpOf, look_of_find_none hx] at hpre
        cases hpre
      | some x => rw [grpOf, look_of_find hx]
    have hmem : b ∈ ((gangOf s id).blocks.zip places).map Prod.fst := by
      rw [List.map_fst_zip (Nat.le_of_eq hlen.symm)]
      exact hb
    obtain ⟨e, he, hfst⟩ := List.mem_map.1 hmem
    obtain ⟨y, hy, hst⟩ := resumed_foldl hpre c (fun t d => base + gangPos t d * coresOf (kernAt s (gangOf s id).kern (gangOf s id).rank).hdr)
      ((gangOf s id).blocks.zip places) s (fun _ => rfl) (.inr ⟨hfound, e, he, hfst ▸ hg⟩)
    exact hstate.trans ((congrArg Group.state (look_of_find hy {} :)).trans hst)

theorem preemption : Statements.Preemption := by
  intro s blocks bound id c base g places q
  refine ⟨fun hp => ⟨_, (exec_preempt blocks bound s).trans (if_pos hp), rfl⟩, fun hsome => ⟨preemptGang_unreleased hsome bound, fun hr hs hm => ?_, fun hr hs hm => ?_,
    fun hr hs hd => ?_, fun hr hs hd hsave => ?_⟩, fun hsaved hdist hquiet hback ho hfit herr hp => ?_⟩
  · exact (preemptGang_saved hsome bound hr hs).trans (if_pos hm)
  · exact (preemptGang_saved hsome bound hr hs).trans (if_neg hm)
  · rw [preemptGang_drains hsome bound hr hs (chooseMethod_drain hd), gangOf_setGang]
    exact ⟨rfl, rfl⟩
  · rw [preemptGang_saves hsome bound hr hs (chooseMethod_save hd hsave), gangOf_setGang]
  · have hmay : mayResume (dropBanks s) (gangOf s id) = true := by
      have hback : heldBack (dropBanks s) q.kern q.rank q.index = false := hback
      have hquiet : q.blocks.all (blockQuiet (dropBanks s)) = true := hquiet
      have hdist : distributes (dropBanks s) q.kern = true := hdist
      unfold mayResume
      rw [hsaved, hdist, hquiet, hback]
      rfl
    refine ⟨_, execGangResume_resumes hp hmay ho hfit herr, ?_⟩
    obtain ⟨hgang, hgroups⟩ := resumeGang_resumed (dropBanks s) id c base places
    obtain ⟨m, hm⟩ := fillBanks_cores (gangOf s id).kern (gangCores (resumeGang (dropBanks s) id c base places) id) (resumeGang (dropBanks s) id c base places)
    dsimp only
    rw [hm]
    generalize resumeGang (dropBanks s) id c base places = t at hgang hgroups
    have hgang : gangOf { t with cores := m } id = { gangOf s id with saved := false, regionFlushed := false, cluster := c } := hgang
    rw [hgang]
    refine ⟨rfl, rfl, fun hflushed b hb hg hpre => ?_⟩
    exact hgroups hflushed ((length_gangFit hfit).trans (List.length_map _)) b hb g hg hpre

/-- Settles O42: each event by the step that its conditions select. -/
theorem gangEvents_hold : Obligations.GangEvents := ⟨gangStarts, preemption⟩

end Sys2Proof.Machine
end

