-- ==== Sys2Proof/Proofs/Traps.lean ====
section
/-!
PROOFS. Proofs/Traps.lean: traps that enter the kernel's handler, and fatal ones (R126, R156, R157).
-/
namespace Sys2Proof.Machine

/-! ### A trap that the kernel owns -/

section
variable {s : State} {t : TrapReq} (howner : claimOwner (cctx s) (trapNum t.code) = 1) (hhandler : (ck s).hdr.handler ≠ 0xFFFFFFFF)
  (hsup : (cg s).sup = false) (hkmode : (cb s).kmode = false)
include howner hhandler hsup hkmode
theorem takeTrap_enters : takeTrap s s.cur t = setGrp s s.cur
    { setPath (cg s) { cp s with pc := codeBase (ck s) + BitVec.ofNat 64 (4 * (ck s).hdr.handler), mask := t.threads.getD (cp s).mask, stall := 0, wait := none } with
      trap := { code := BitVec.ofNat 8 (trapNum t.code), pc := if t.after then codeOffset (ck s) (cp s).pc + 4 else codeOffset (ck s) (cp s).pc
                addr := t.addr, info := t.info, mask := (cp s).mask, unit := t.unit }
      sup := true, supArm := if (cg s).two then some (cg s).onB else none, state := .runnable, pend := [] } :=
  if_pos ⟨howner, hhandler, hsup, hkmode⟩
end
/-- What the entry of a handler changes in its group lies on its path, in the trap registers and in supervisor state. -/
theorem entered_group (g : Group) (p : Path) (r : TrapRegs) (arm : Option Bool) :
    pathOf { setPath g p with trap := r, sup := true, supArm := arm, state := .runnable, pend := [] } = p ∧
      restingPath { setPath g p with trap := r, sup := true, supArm := arm, state := .runnable, pend := [] } = restingPath g ∧
      { repathed g { setPath g p with trap := r, sup := true, supArm := arm, state := .runnable, pend := [] } with
        trap := g.trap, sup := g.sup, supArm := g.supArm } = g := by
  by_cases h : (g.two && g.onB) = true
  · rw [setPath_b p h]
    exact ⟨if_pos h, (if_pos h).trans (if_pos h).symm, rfl⟩
  · rw [setPath_a p h]
    exact ⟨if_neg h, (if_neg h).trans (if_neg h).symm, rfl⟩

theorem trapEntry : Statements.TrapEntry := by
  intro s t g p k here howner hhandler hsup hkmode u
  have hu : u = _ := takeTrap_enters howner hhandler hsup hkmode
  have hcg : cg u = _ := (congrArg cg hu).trans (grpOf_setGrp s s.cur _)
  obtain ⟨hpath, hrest, hsame⟩ := entered_group g { p with pc := codeBase k + BitVec.ofNat 64 (4 * k.hdr.handler), mask := t.threads.getD p.mask, stall := 0, wait := none }
    { code := BitVec.ofNat 8 (trapNum t.code), pc := if t.after then codeOffset k p.pc + 4 else codeOffset k p.pc
      addr := t.addr, info := t.info, mask := p.mask, unit := t.unit } (if g.two then some g.onB else none)
  refine ⟨by rw [hu]; rfl, fun x hx => by rw [hu]; exact grpOf_setGrp_other s _ hx, ?_⟩
  rw [show cp u = pathOf (cg u) from rfl, hcg]
  exact ⟨rfl, rfl, rfl, rfl, hpath, hrest, rfl, hsame⟩

/-! ### A fatal trap -/

/-- A block with its groups stopped, those apart that have ended or stand between two passes. -/
def stopGroup (s : State) (g : Nat) : State :=
  if (grpOf s g).state == .retired || midway (grpOf s g) then s else setGrp s g { grpOf s g with state := .trapped }
section
variable (s : State) (g : Nat)
theorem grpOf_stopGroup_other {x : Nat} (h : x ≠ g) : grpOf (stopGroup s g) x = grpOf s x := by
  unfold stopGroup
  split
  · rfl
  · exact grpOf_setGrp_other s _ h
/-- A stopped group keeps all but its state. -/
theorem grpOf_stopGroup (x : Nat) : grpOf (stopGroup s g) x = { grpOf s x with state := (grpOf (stopGroup s g) x).state } := by
  by_cases h : x = g
  · subst h
    unfold stopGroup
    split
    · rfl
    · rw [grpOf_setGrp]
  · rw [grpOf_stopGroup_other s g h]
theorem trapped_stopGroup {x : Nat} (h : (grpOf s x).state = .trapped) : (grpOf (stopGroup s g) x).state = .trapped := by
  by_cases hx : x = g
  · subst hx
    unfold stopGroup
    split
    · exact h
    · rw [grpOf_setGrp]
  · rw [grpOf_stopGroup_other s g hx, h]
theorem stopGroup_stops (hr : (grpOf s g).state ≠ .retired) (hm : midway (grpOf s g) = false) : (grpOf (stopGroup s g) g).state = .trapped := by
  unfold stopGroup
  rw [if_neg (by simp [hr, hm]), grpOf_setGrp]
end
theorem grpOf_stopGroups (gs : List Nat) : ∀ (s : State) (x : Nat), grpOf (gs.foldl stopGroup s) x = { grpOf s x with state := (grpOf (gs.foldl stopGroup s) x).state } := by
  induction gs with
  | nil => exact fun _ _ => rfl
  | cons g gs ih =>
    intro s x
    rw [List.foldl_cons, ih (stopGroup s g) x, grpOf_stopGroup s g x]
theorem trapped_stopGroups (gs : List Nat) : ∀ (s : State) (x : Nat), (grpOf s x).state = .trapped → (grpOf (gs.foldl stopGroup s) x).state = .trapped := by
  induction gs with
  | nil => exact fun _ _ h => h
  | cons g gs ih => exact fun s x h => ih (stopGroup s g) x (trapped_stopGroup s g h)
theorem stopGroups_stops (gs : List Nat) : ∀ (s : State) (x : Nat), x ∈ gs → (grpOf s x).state ≠ .retired → midway (grpOf s x) = false →
    (grpOf (gs.foldl stopGroup s) x).state = .trapped := by
  induction gs with
  | nil => exact fun _ _ h => absurd h (by simp)
  | cons g gs ih =>
    intro s x hx hr hm
    by_cases hxg : x = g
    · subst hxg
      exact trapped_stopGroups gs _ x (stopGroup_stops s x hr hm)
    · refine ih (stopGroup s g) x ((List.mem_cons.1 hx).resolve_left hxg) ?_ ?_
      · rw [grpOf_stopGroup_other s g hxg]; exact hr
      · rw [grpOf_stopGroup_other s g hxg]; exact hm

/-- A block's report, and whether it has trapped. -/
def blockFate (b : Nat) (s : State) : Bool × Option TrapReport := ((blkOf s b).trapped, (blkOf s b).report)
section
variable (s : State) (b : Nat)
theorem blockFate_setBlk {c : Nat} {y : Block} (ht : y.trapped = (blkOf s c).trapped) (hr : y.report = (blkOf s c).report) :
    blockFate b (setBlk s c y) = blockFate b s :=
  Prod.ext (field_setBlk Block.trapped s ht b) (field_setBlk Block.report s hr b)
theorem blockFate_homeWrite (m : MemName) (a : Nat) (bs : List Byte) : blockFate b (homeWrite s m a bs) = blockFate b s := by
  have h : blockFate b (setMem s m (writeBytes (memOf s m) a bs)) = blockFate b s := by
    cases m with
    | win c => exact blockFate_setBlk s b rfl rfl
    | ring c => exact blockFate_setBlk s b rfl rfl
    | slot c => exact blockFate_setBlk s b rfl rfl
    | _ => rfl
  unfold blockFate at *
  rw [blkOf_homeWrite]
  exact h
theorem blockFate_routeRecord (cls : Nat) (e : ErrRec) : blockFate b (routeRecord s cls e) = blockFate b s :=
  routeRecord_keeps (blockFate b) (fun s m a bs => blockFate_homeWrite s b m a bs) (fun _ _ _ => rfl) (fun _ _ => rfl) (fun _ _ _ => rfl) (fun _ _ _ => rfl) s cls e
theorem groups_routeRecord (cls : Nat) (e : ErrRec) : (routeRecord s cls e).groups = s.groups := by
  have hemit (s : State) (f : Nat) (x : Fn) (o : Out) : (emit (setFn s f x) o).groups = s.groups := rfl
  have hhost (s : State) (f : Nat) (prot : Bool) : (hostRecord s f e prot).groups = s.groups := by
    unfold hostRecord
    dsimp only
    split
    · rfl
    · split
      · rfl
      · rw [hemit, groups_homeWrite s _ _ (n := .host) (by simp)]
  unfold routeRecord
  dsimp only
  split
  · exact hhost _ _ _
  · split
    · rw [groups_homeWrite _ _ _ (n := .die _) (by simp)]
      rfl
    · rfl
theorem settleAll_groups : (settleAll s b).groups = s.groups := by
  unfold settleAll
  dsimp only
  rw [groups_settleGrid, settleGang]
  split <;> rfl
theorem settleAll_cur : (settleAll s b).cur = s.cur := by
  unfold settleAll
  dsimp only
  rw [(congrArg State.cur (settles_settleGrid _ _).rest :), settleGang]
  split <;> rfl
theorem blockFate_settleAll (c : Nat) : blockFate c (settleAll s b) = blockFate c s := by
  have hblocks : (settleAll s b).blocks = (settleBlock s b).blocks := by
    unfold settleAll
    dsimp only
    rw [blocks_settleGrid, settleGang]
    split <;> rfl
  have hblk : blkOf (settleAll s b) c = blkOf (settleBlock s b) c := by
    unfold blkOf
    rw [hblocks]
  unfold blockFate
  rw [hblk]
  exact blockFate_setBlk s c rfl rfl
/-- What a fatal trap makes of the groups of its block, and of the block. -/
theorem fatalBlock_stops (r : TrapReport) : (fatalBlock s b r).groups = ((blkOf s b).groups.foldl stopGroup s).groups ∧
    (fatalBlock s b r).cur = s.cur ∧ blockFate b (fatalBlock s b r) = (true, some r) := by
  have hcur : ((blkOf s b).groups.foldl stopGroup s).cur = s.cur := by
    refine foldl_keeps State.cur (fun s g => ?_) _ s
    unfold stopGroup
    split <;> rfl
  have hstopped (y : Block) : blockFate b (setBlk ((blkOf s b).groups.foldl stopGroup s) b { y with trapped := true, report := some r }) = (true, some r) := by
    unfold blockFate
    rw [blkOf_setBlk]
  have hpost (v : State) (e : HEvent) : (postEvent v e).groups = v.groups ∧ (postEvent v e).cur = v.cur ∧ blockFate b (postEvent v e) = blockFate b v := by
    obtain ⟨h, hh⟩ := postEvent_rest v e
    rw [hh]
    exact ⟨rfl, rfl, rfl⟩
  have hroute (v : State) (c : Nat) (e : ErrRec) : (routeRecord v c e).cur = v.cur :=
    routeRecord_keeps State.cur cur_homeWrite (fun _ _ _ => rfl) (fun _ _ => rfl) (fun _ _ _ => rfl) (fun _ _ _ => rfl) v c e
  unfold fatalBlock
  dsimp only
  rw [settleAll_groups, settleAll_cur, blockFate_settleAll]
  by_cases hk : (blkOf s b).kmode = true
  · rw [if_pos hk, if_pos hk]
    exact ⟨rfl, hcur, hstopped _⟩
  · rw [if_neg hk, if_neg hk, (hpost _ _).1, (hpost _ _).2.1, (hpost _ _).2.2, groups_routeRecord, hroute, blockFate_routeRecord]
    exact ⟨rfl, hcur, hstopped _⟩
end

section
variable {s : State} {t : TrapReq}
  (hfatal : claimOwner (cctx s) (trapNum t.code) ≠ 1 ∨ (ck s).hdr.handler = 0xFFFFFFFF ∨ (cg s).sup = true ∨ (cb s).kmode = true)
include hfatal
theorem takeTrap_fatal : takeTrap s s.cur t =
    if (cb s).spec then setBlk (setGrp s s.cur { cg s with state := .trapped }) (cg s).blk { cb s with report := some ((cb s).report.getD
      { grp := s.cur, code := t.code, unit := t.unit, word := (codeOffset (ck s) (cp s).pc).toNat / 4, addr := t.addr, hasPage := t.hasPage }) }
    else fatalBlock (setGrp s s.cur { cg s with state := .trapped }) (cg s).blk
      { grp := s.cur, code := t.code, unit := t.unit, word := (codeOffset (ck s) (cp s).pc).toNat / 4, addr := t.addr, hasPage := t.hasPage } := by
  refine if_neg fun h => ?_
  obtain ⟨howner, hhandler, hsup, hkmode⟩ := h
  rcases hfatal with h | h | h | h
  · exact h howner
  · exact hhandler h
  · exact absurd (hsup.symm.trans h) (by simp)
  · exact absurd (hkmode.symm.trans h) (by simp)
end
/-- A group that keeps all but its state keeps its path and registers. -/
theorem stopped_registers {s u : State} (hg : cg u = { cg s with state := .trapped }) :
    (∀ n th, laneReg u n th = laneReg s n th) ∧ (∀ n, uniReg u n = uniReg s n) ∧ cp u = cp s := by
  unfold laneReg uniReg cp
  rw [hg]
  exact ⟨fun _ _ => rfl, fun _ => rfl, rfl⟩

theorem fatalTrap : Statements.FatalTrap := by
  intro s t g k hfatal u r
  let v := setGrp s s.cur { g with state := .trapped }
  have hu : u = if (cb s).spec then setBlk v g.blk { cb s with report := some ((cb s).report.getD r) } else fatalBlock v g.blk r := takeTrap_fatal hfatal
  have hv : grpOf v s.cur = { g with state := .trapped } := grpOf_setGrp s s.cur _
  obtain ⟨hgroups, hcurf, hfate⟩ := fatalBlock_stops v g.blk r
  generalize fatalBlock v g.blk r = w at hu hgroups hcurf hfate
  clear_value u
  have hspec : (cb s).spec = true → u = setBlk v g.blk { cb s with report := some ((cb s).report.getD r) } := fun h => hu.trans (if_pos h)
  have hnot : (cb s).spec = false → u = w := fun h => hu.trans (if_neg (by rw [h]; simp))
  have hstop : (cb s).spec = false → ∀ x, grpOf u x = grpOf ((cb s).groups.foldl stopGroup v) x := fun h x => by
    rw [hnot h, grpOf, hgroups]
    rfl
  have hcur : u.cur = s.cur := by
    cases h : (cb s).spec with
    | true => rw [hspec h]; rfl
    | false => rw [hnot h, hcurf]; rfl
  have hcg : cg u = { g with state := .trapped } := by
    rw [cg, hcur]
    cases h : (cb s).spec with
    | true => rw [hspec h]; exact hv
    | false =>
      have htrapped := trapped_stopGroups (cb s).groups v s.cur (by rw [hv])
      rw [hstop h, grpOf_stopGroups, htrapped, hv]
  have hblk : (cg u).blk = g.blk := by rw [hcg]
  have hcb (h : (cb s).spec = false) : cb u = blkOf w g.blk := by rw [cb, hblk, hnot h]
  obtain ⟨hlane, huni, hpath⟩ := stopped_registers hcg
  refine ⟨by rw [hcg], hlane, huni, hpath, fun h => ⟨?_, fun x hx => ?_⟩, fun h => ⟨?_, ?_, fun x hx hne hr hm => ?_⟩⟩
  · rw [cb, hblk, hspec h, blkOf_setBlk]
  · rw [hspec h]
    exact grpOf_setGrp_other s _ hx
  · exact (congrArg Block.trapped (hcb h)).trans (congrArg Prod.fst hfate)
  · exact (congrArg Block.report (hcb h)).trans (congrArg Prod.snd hfate)
  · have hx' : grpOf v x = grpOf s x := grpOf_setGrp_other s _ hne
    rw [hstop h]
    exact stopGroups_stops (cb s).groups v x hx (by rw [hx']; exact hr) (by rw [hx']; exact hm)

/-- Settles O28: the two branches of a trap, and what a fatal one does to its block. -/
theorem traps : Obligations.Traps := ⟨trapEntry, fatalTrap⟩

end Sys2Proof.Machine
end

