-- ==== Sys2Proof/Proofs/TrapWords.lean ====
section
/-!
PROOFS. Proofs/TrapWords.lean: TRAP, BRK and RFT (R158, R159), and the traps of the words of control flow (R142, R144, R147, R150, R230).
-/
namespace Sys2Proof.Machine

/-! ### Leaving a handler -/

/-- The group that leaves its handler: at the address and with the mask that the trap kept (R159). -/
def leaving (s : State) (stall : Nat) : Group :=
  { setPath { cg s with early := [] } { cp s with pc := codeBase (ck s) + (cg s).trap.pc.signExtend 64
                                                  mask := (cg s).trap.mask &&& (cg s).live &&& (cp s).scope, stall := stall } with
    sup := false, supArm := none }
theorem leaveHandler_entered (i : Info) (s : State) : leaveHandler (entered i s) false = setCg (entered i s) (leaving s i.stall) := by
  have hset (g : Group) (p q : Path) : setPath (setPath g p) q = setPath g q := setPath_setPath g p q
  unfold leaveHandler leaving
  dsimp only
  rw [if_neg (by simp), cp_entered, ck_entered, cg_entered, setPath_setPath]
  simp only [setPath_trap, setPath_live]
theorem pathOf_leaving (s : State) (n : Nat) : pathOf (leaving s n) = { cp s with
    pc := codeBase (ck s) + (cg s).trap.pc.signExtend 64, mask := (cg s).trap.mask &&& (cg s).live &&& (cp s).scope, stall := n } :=
  (show ∀ g : Group, pathOf { g with sup := false, supArm := none } = pathOf g from fun _ => rfl) _ |>.trans (pathOf_setPath _ _)
theorem leaving_rest (s : State) (n : Nat) : (leaving s n).v = (cg s).v ∧ (leaving s n).s = (cg s).s ∧ (leaving s n).stores = (cg s).stores ∧
    (leaving s n).spill = (cg s).spill ∧ (leaving s n).region = (cg s).region := by
  unfold leaving
  simp only [setPath_v, setPath_s, setPath_stores, setPath_spill, setPath_region, and_self]
theorem leaveHandler_regionless {s : State} (h : (cg s).region = none) : leaveHandler s true = leaveHandler s false := by
  unfold leaveHandler
  dsimp only
  rw [if_pos rfl, h]
  rfl
theorem leaveHandler_restarts {s : State} {r : OpenRegion} (h : (cg s).region = some r) :
    leaveHandler s true = regionRestart (leaveHandler s false) (leaveHandler s false).cur r := by
  unfold leaveHandler
  dsimp only
  rw [if_pos rfl, h]
  rfl
theorem region_cg_entered (i : Info) (s : State) : (cg (entered i s)).region = (cg s).region := by rw [cg_entered, setPath_region]

/-- A group with the registers that its region has written undefined (R153). -/
def unwritten (n : Nat) (g : Group) (l : List Reg) : Group := l.foldl (undefReg n) g
theorem unwritten_keeps (n : Nat) : ∀ (l : List Reg) (g : Group), (∃ v s p x y, unwritten n g l = { g with v := v, s := s, p := p, x := x, g := y }) ∧
    (∀ r, Reg.v r ∉ l → Map.look (unwritten n g l).v r [] = Map.look g.v r []) ∧ ∀ r, Reg.s r ∉ l → Map.look (unwritten n g l).s r 0 = Map.look g.s r 0
  | [], g => ⟨⟨_, _, _, _, _, rfl⟩, fun _ _ => rfl, fun _ _ => rfl⟩
  | w :: l, g => by
    obtain ⟨⟨v, s, p, x, y, hg⟩, hv, hs⟩ := unwritten_keeps n l (undefReg n g w)
    have hfold : unwritten n g (w :: l) = unwritten n (undefReg n g w) l := rfl
    rw [hfold]
    refine ⟨?_, fun r hr => ?_, fun r hr => ?_⟩
    · rw [hg]
      cases w <;> exact ⟨_, _, _, _, _, rfl⟩
    · obtain ⟨hne, hl⟩ := List.ne_and_not_mem_of_not_mem_cons hr
      rw [hv r hl]
      cases w with
      | v k => exact look_put_other _ _ _ fun h => hne (congrArg Reg.v h)
      | _ => rfl
    · obtain ⟨hne, hl⟩ := List.ne_and_not_mem_of_not_mem_cons hr
      rw [hs r hl]
      cases w with
      | s k => exact look_put_other _ _ _ fun h => hne (congrArg Reg.s h)
      | _ => rfl
/-- The group of a region that starts again. -/
def restarting (n : Nat) (g : Group) (r : OpenRegion) : Group :=
  { unwritten n g r.written with two := false, onB := false, lastB := false, live := r.live, pend := [], state := .runnable
                                 pathA := { pc := r.start, mask := r.mask, scope := r.live } }
theorem regionRestart_setCg (s : State) (g : Group) (r : OpenRegion) :
    regionRestart (setCg s g) s.cur r = setFresh (setCg s (restarting s.fresh g r)) (s.fresh + 1) := by
  have hg : grpOf (setCg s g) s.cur = g := cg_setCg s g
  have hset (y : Group) : setGrp (setCg s g) s.cur y = setCg s y := setCg_setCg s g y
  unfold regionRestart
  dsimp only
  rw [hg, hset]
  rfl

section
variable {s : State} {st : BitVec 2} {r : BitVec 1}
theorem exec_rft_leaves (h : MayIssue (info (.rft st r)) s) (hr : r = 0 ∨ (cg s).region = none) :
    exec (.rft st r) s = .next (settled (info (.rft st r)) s (setCg (entered (info (.rft st r)) s) (leaving s st.toNat))) := by
  refine (exec_rft st r s).trans (issue_done h (congrArg Act.done ?_))
  cases hb : r == 1 with
  | false => exact leaveHandler_entered _ s
  | true =>
    have hr : (cg s).region = none := hr.resolve_left fun h0 => by rw [h0] at hb; exact absurd hb (by decide)
    exact (leaveHandler_regionless ((region_cg_entered _ s).trans hr)).trans (leaveHandler_entered _ s)
theorem exec_rft_restarts (h : MayIssue (info (.rft st 1)) s) {x : OpenRegion} (hx : (cg s).region = some x) :
    exec (.rft st 1) s = .next (settled (info (.rft st 1)) s
      (setFresh (setCg (entered (info (.rft st 1)) s) (restarting s.fresh (leaving s st.toNat) x)) (s.fresh + 1))) := by
  refine (exec_rft st 1 s).trans (issue_done h (congrArg Act.done ?_))
  refine (leaveHandler_restarts ((region_cg_entered _ s).trans hx)).trans ?_
  rw [leaveHandler_entered]
  exact (regionRestart_setCg _ _ x).trans (by rw [fresh_entered]; rfl)
end

theorem trapWords_traps : Statements.TrapWords := by
  intro s st n m mask back
  have hleft (r : BitVec 1) (h : MayIssue (info (.rft st r)) s) : (cg (settled (info (.rft st r)) s (setCg (entered (info (.rft st r)) s) (leaving s st.toNat)))).sup = false ∧
      cp (settled (info (.rft st r)) s (setCg (entered (info (.rft st r)) s) (leaving s st.toNat))) = { cp s with pc := back, mask := mask, stall := st.toNat, wait := none } := by
    refine ⟨(congrArg Group.sup (repathed_settled_setCg h (leaving s st.toNat)) :), ?_⟩
    rw [cp_settled_setCg h, pathOf_leaving]
    rfl
  refine ⟨fun h => ?_, fun h hm => ?_, fun h hm => ?_, fun h => ?_, fun h hr => ?_, fun x h hx => ?_⟩
  · exact (exec_trap st n s).trans (issue_trap h rfl)
  · refine (exec_brk st m s).trans (issue_trap h ?_)
    rw [emask_entered]
    exact if_neg (by simpa using hm)
  · refine none_result (exec_brk st m s) ?_ h
    rw [emask_entered]
    exact if_pos (by simpa using hm)
  · obtain ⟨hv, hs, hst, hsp, -⟩ := leaving_rest s st.toNat
    refine ⟨_, exec_rft_leaves h (.inl rfl), (hleft 0 h).1, (hleft 0 h).2, laneReg_settled_setCg h hv, uniReg_settled_setCg h hs, byteSeen_settled_setCg h hst hsp⟩
  · exact ⟨_, exec_rft_leaves h (.inr hr), hleft 1 h⟩
  · refine ⟨_, exec_rft_restarts h hx, ?_⟩
    obtain ⟨⟨v, u, p, y, g, hg⟩, hv, hu⟩ := unwritten_keeps s.fresh x.written (leaving s st.toNat)
    obtain ⟨hlv, hls, -, -, hlr⟩ := leaving_rest s st.toNat
    let e := setFresh (setCg (entered (info (.rft st 1)) s) (restarting s.fresh (leaving s st.toNat) x)) (s.fresh + 1)
    have hcg : cg e = restarting s.fresh (leaving s st.toNat) x := cg_setCg _ _
    have hrest := repathed_settled h e
    rw [hcg] at hrest
    have hregion : (restarting s.fresh (leaving s st.toNat) x).region = some x := by
      rw [restarting, hg]
      exact hlr.trans hx
    refine ⟨?_, (congrArg Group.two hrest :), (congrArg Group.live hrest :), ?_, ?_, ?_, fun r th hr => ?_, fun r hr => ?_⟩
    · refine (congrArg Group.sup hrest :).trans ?_
      rw [restarting, hg]
      rfl
    · rw [region_settled h e, hcg, hregion]
      exact ⟨_, rfl, rfl⟩
    · rw [cg_settled h e, hcg]
      exact settled_state _ _ _ rfl
    · rw [cp_settled h e, cp, hcg]
      rfl
    · have hlane : (cg (settled (info (.rft st 1)) s e)).v = (unwritten s.fresh (leaving s st.toNat) x.written).v := (congrArg Group.v hrest :)
      rw [laneReg, hlane, hv r hr, hlv]
      rfl
    · have huni : (cg (settled (info (.rft st 1)) s e)).s = (unwritten s.fresh (leaving s st.toNat) x.written).s := (congrArg Group.s hrest :)
      rw [uniReg, huni, hu r hr, hls]
      rfl

/-! ### The traps of control flow -/

theorem winLoc_entered (i : Info) (s : State) (a n : Nat) : winLoc (entered i s) a n = winLoc s a n := by
  unfold winLoc
  dsimp only
  rw [ck_entered, show (cg (entered i s)).blk = (cg s).blk by rw [cg_entered, setPath_blk]]

theorem controlTraps : Statements.ControlTraps := by
  intro s st q p n o d a b l j taken c x dest
  refine ⟨fun ht h0 hr hin hlen h => ?_, fun hlen h => ?_, fun hr h => ?_, fun ha h => ?_, fun ha hk hw h => ?_, fun ha hk hi hc h => ?_, fun ha h => ?_, fun ha hw h => ?_,
    fun hbad h => ?_, fun hact hlane => ⟨fun h => ?_, fun h => ?_⟩⟩
  · refine (exec_br st p n o s).trans (issue_trap h ((splitPath_entered _ ht o).trans ?_))
    dsimp only
    rw [if_neg h0, if_neg hr, if_neg (fun h => hin.elim (fun h2 => absurd (h.1.symm.trans h2) (by simp)) (fun hs => hs h.2)), if_pos hlen]
  · refine (exec_call st o s).trans (issue_trap h ?_)
    dsimp only
    rw [cp_entered]
    exact if_pos hlen
  · refine (exec_ret st s).trans (issue_trap h ?_)
    dsimp only
    rw [cp_entered]
    dsimp only
    rw [hr]
  · refine (exec_brx_eq st a s).trans (issue_trap h ?_)
    rw [rs_entered, ck_entered]
    exact if_pos ha
  · refine (exec_brx_eq st a s).trans (issue_trap h ((brxAct_of_aligned ha).trans ?_))
    rw [brxAct, cb_entered, if_pos hk, serviceWord_entered, if_neg (by rw [show serviceWord s (codeAddr s a) = none from hw]; simp)]
    rfl
  · refine (exec_brx_eq st a s).trans (issue_trap h ((brxAct_of_aligned ha).trans ?_))
    rw [brxAct, cb_entered, hk, if_neg Bool.false_ne_true, icache_entered, show Map.find _ (icKey (cb s).ctx (codeAddr s a)) = none from hi,
      if_neg (by exact Bool.false_ne_true), tlbLook_entered]
    simp only [checkLeaf_tlb, checkLeaf_entered]
    rw [show checkLeaf s (cb s).world (tlbLook s (cb s).ctx (codeAddr s a).toNat).1 (codeAddr s a).toNat false false true = some c from hc]
    rfl
  · refine (exec_sleepw st q a b s).trans (issue_trap h ?_)
    dsimp only
    rw [rs_entered]
    exact if_pos ha
  · refine (exec_sleepw st q a b s).trans (issue_trap h ?_)
    dsimp only
    rw [rs_entered]
    refine (if_neg (not_not_intro ha)).trans (if_pos ?_)
    rw [winLoc_entered, show winLoc s (uniReg s a.toNat).toNat 4 = none from hw]
    rfl
  · refine (exec_region st j s).trans (issue_trap h ?_)
    dsimp only
    rw [ck_entered, wordPc_entered, two_cg_entered, stack_cp_entered]
    refine if_pos ?_
    simpa [List.isEmpty_eq_false_iff] using hbad
  · have hmask : (emask s == 0) = false := beq_eq_false_iff_ne.mpr hact
    refine (exec_rdlane st d a l s).trans ?_
    unfold execRdlane
    dsimp only
    rw [hmask]
    refine issue_trap h ?_
    rw [emask_entered, hmask, width_entered]
    exact if_pos hlane
  · have hmask : (emask s == 0) = false := beq_eq_false_iff_ne.mpr hact
    refine (exec_wrlane st d a l s).trans (issue_trap h ?_)
    rw [emask_entered, hmask, width_entered]
    exact if_pos hlane

/-- Settles O29: each word's own effect, evaluated on entry, is the trap that its condition names. -/
theorem trapWords : Obligations.TrapWords := ⟨trapWords_traps, controlTraps⟩

end Sys2Proof.Machine
end

