-- ==== Sys2Proof/Proofs/StepOrder.lean ====
section
/-!
PROOFS. Proofs/StepOrder.lean: the end of a period with a FENCED port. The statement has no port send anything where none is UP or
DEGRADED; a FENCED port runs its link too (R343), and states its pause mask by an IDLE (R347, log entry 64).
-/
namespace Sys2Proof.Machine

/-- The package after reset at time n, with port 0 FENCED. -/
def fencedPort (n : Nat) : State := setPort { State.reset with time := n } 0 { st := .fenced }

theorem portAt_fencedPort (n : Nat) {p : Nat} (hp : p ≠ 0) : portAt (fencedPort n) p = {} := by
  unfold portAt fencedPort setPort
  exact look_put_other (α := Port) [] _ {} hp
theorem linkUp_fencedPort (n p : Nat) : linkUp (portAt (fencedPort n) p) = false := by
  by_cases hp : p = 0
  · subst hp
    rfl
  · rw [portAt_fencedPort n hp]
    rfl

/-- The FENCED port states its pause mask by an IDLE. -/
theorem idlePort_fencedPort : (idlePort (fencedPort 1) 0).out.isEmpty = false := by decide
theorem sends_idlePort_fencedPort : Sends (fencedPort 1) (idlePort (fencedPort 1) 0) := sends_portSend _ _ _
/-- The ports that are DOWN stay silent. -/
theorem idlePort_silent {s : State} {p : Nat} (h : linkRuns (portAt s p) = false) : idlePort s p = s := if_pos h
theorem idlePorts_silent {s : State} : ∀ {l : List Nat}, (∀ p ∈ l, linkRuns (portAt s p) = false) → l.foldl idlePort s = s
  | [], _ => rfl
  | p :: l, h => by
    rw [List.foldl_cons, idlePort_silent (h p List.mem_cons_self)]
    exact idlePorts_silent fun q hq => h q (List.mem_cons_of_mem p hq)
theorem linkRuns_congr {x y : Port} (h : x.st = y.st) : linkRuns x = linkRuns y := by rw [linkRuns, linkRuns, linkUp, linkUp, h]
theorem idlePorts_cons {s : State} (h : s.links.transit = []) :
    idlePorts s = (List.range' 1 23).foldl idlePort (idlePort s 0) := by
  have hkeep : setLinks s { s.links with transit := s.links.transit.filter fun e => stillHere s e.2 } = s := by
    rw [h, List.filter_nil, ← h]
    rfl
  have hrange : List.range 24 = 0 :: List.range' 1 23 := by decide
  unfold idlePorts
  dsimp only
  rw [hkeep, hrange, List.foldl_cons]
theorem idlePorts_fencedPort : idlePorts (fencedPort 1) = idlePort (fencedPort 1) 0 := by
  rw [idlePorts_cons rfl]
  apply idlePorts_silent
  intro p hp
  have hne : p ≠ 0 := by
    have hmem := List.mem_range'_1.mp hp
    omega
  have hst : (portAt (idlePort (fencedPort 1) 0) p).st = (portAt (fencedPort 1) p).st :=
    congrArg Prod.fst (sends_idlePort_fencedPort.port p)
  rw [linkRuns_congr hst, portAt_fencedPort 1 hne]
  rfl

theorem barrelOrder_fencedPort : barrelOrder (fencedPort 0) = [] := by decide
theorem endPeriod_fencedPort : (endPeriod (fencedPort 0)).out = (idlePorts (fencedPort 1)).out := by
  have hperiod : { fencedPort 0 with time := (fencedPort 0).time + 1, barrel := [] } = fencedPort 1 := rfl
  rw [endPeriod, barrelOrder_fencedPort, hperiod]
theorem step_fencedPort : step (fencedPort 0) = .next (endPeriod (fencedPort 0)) := rfl

/-- Refutes O4: with no port UP or DEGRADED, the FENCED one sends an IDLE at the period's end. -/
theorem not_stepOrder : ¬ Obligations.StepOrder := by
  intro h
  obtain ⟨-, -, -, -, -, hperiod, -⟩ := h (fencedPort 0) .packageReset [] (.storePerformed 0 0) []
  obtain ⟨t, hnext, -, -, -, -, -, hquiet⟩ := hperiod rfl rfl rfl rfl
  obtain ⟨-, hout, -⟩ := hquiet fun p _ => linkUp_fencedPort 0 p
  rw [step_fencedPort] at hnext
  have hsent : t.out.isEmpty = false := by
    rw [← Host.Outcome.next.inj hnext, endPeriod_fencedPort, idlePorts_fencedPort, idlePort_fencedPort]
  rw [hout] at hsent
  exact absurd hsent (by decide)

end Sys2Proof.Machine
end

