-- ==== Sys2Proof/Proofs/StepRuns.lean ====
section
/-!
PROOFS. Proofs/StepRuns.lean: a group's turn (R17, R38, R157, R165): which path it takes, what a miss of the instruction cache leaves
(R144), and that the step then is exec of the word fetched.
-/
namespace Sys2Proof.Machine

/-! ### A step is a turn -/

theorem step_turn {s : State} {g : Nat} {r : List Nat} (hpower : s.pkg.power = true) (hagenda : s.agenda = []) (hdue : s.due = [])
    (hbarrel : s.barrel = g :: r) : step s = afterStep (turn g { s with barrel := r }) := by
  unfold step
  simp only [hpower, hagenda, hdue, hbarrel, Bool.true_eq_false, if_false]
theorem turn_idle {g : Nat} {s : State} (h : (beginTurn s g).2 = false) : turn g s = .next (beginTurn s g).1 := by
  unfold turn
  split <;> simp_all
theorem turn_of_fetch {g : Nat} {s u : State} {i : Instr} (h : (beginTurn s g).2 = true)
    (hi : fetchInstr (beginTurn s g).1 = (u, .inl i)) : turn g s = exec i u := by
  have hturn : beginTurn s g = ((beginTurn s g).1, true) := Prod.ext rfl h
  unfold turn
  rw [hturn]
  dsimp only
  rw [hi]
theorem turn_of_trap {g : Nat} {s u : State} {t : TrapReq} (h : (beginTurn s g).2 = true)
    (ht : fetchInstr (beginTurn s g).1 = (u, .inr t)) : turn g s = .next (takeTrap u u.cur t) := by
  have hturn : beginTurn s g = ((beginTurn s g).1, true) := Prod.ext rfl h
  unfold turn
  rw [hturn]
  dsimp only
  rw [ht]
theorem fetchInstr_word {v u : State} {w : Word} {i : Instr} (hword : fetchWord (closeRegion v) = .word u w)
    (hi : decodeWord w = .ok i) : fetchInstr v = (u, .inl i) := by
  rw [fetchInstr, hword]
  dsimp only
  rw [hi]
theorem fetchInstr_illegal {v u : State} {w : Word} (hword : fetchWord (closeRegion v) = .word u w)
    (hi : ∀ j, decodeWord w ≠ .ok j) : fetchInstr v = (u, .inr { code := .illop }) := by
  rw [fetchInstr, hword]
  dsimp only
  cases hd : decodeWord w with
  | ok j => exact absurd hd (hi j)
  | error e => rfl
theorem fetchInstr_trap {v u : State} {t : TrapReq} (htrap : fetchWord (closeRegion v) = .trap u t) : fetchInstr v = (u, .inr t) := by
  rw [fetchInstr, htrap]

/-! ### Fetches -/

/-- No loop buffer and no instruction cache has the word at the path's pc, and it is not the service image's. -/
structure Misses (y : State) : Prop where
  loop : (loopOf (coreOf y (cg y).core) (cg y).half).filter (fun l => l.ctx == (cb y).ctx && inLoop l (cp y).pc) = none
  cache : Map.find (coreOf y (cg y).core).icache (icKey (cb y).ctx (cp y).pc) = none
  kernel : (cb y).kmode = false

/-- What a fetch that misses leaves: the word in the core's instruction cache. -/
def fetched (y : State) (w : Word) (z : State) : State :=
  setCore z (cg y).core { coreOf y (cg y).core with icache := Map.put (coreOf y (cg y).core).icache (icKey (cb y).ctx (cp y).pc) w }

theorem tlbLook_state (y : State) (ctx va : Nat) : (tlbLook y ctx va).2 = { y with tlb := (tlbLook y ctx va).2.tlb } := by
  unfold tlbLook
  dsimp only
  split <;> rfl
theorem tlbLook_eq (y : State) (ctx va : Nat) :
    tlbLook y ctx va = ((tlbLook y ctx va).1, { y with tlb := (tlbLook y ctx va).2.tlb }) := Prod.ext rfl (tlbLook_state y ctx va)
theorem usePage_machine (y : State) (ctx : Nat) (l : Leaf) :
    (usePage y ctx l).cur = y.cur ∧ (usePage y ctx l).groups = y.groups ∧ (usePage y ctx l).blocks = y.blocks := by
  unfold usePage
  split <;> exact ⟨rfl, rfl, rfl⟩
/-- The page that a fetch uses is marked used, of a block that is not speculative. -/
theorem fetched_machine (y : State) (t : List TlbEntry) (w : Word) (l : Leaf) :
    let u := fetched y w (if (cb y).spec then { y with tlb := t } else usePage { y with tlb := t } (cb y).ctx l)
    u.cur = y.cur ∧ u.groups = y.groups ∧ u.blocks = y.blocks := by
  dsimp only
  split
  · exact ⟨rfl, rfl, rfl⟩
  · exact usePage_machine { y with tlb := t } (cb y).ctx l

/-- A fetch that misses reads the page that its leaf names. -/
theorem fetchWord_miss {y : State} {l : Option Leaf} {t : List TlbEntry} (h : Misses y)
    (hl : tlbLook y (cb y).ctx (cp y).pc.toNat = (l, { y with tlb := t }))
    (hcheck : checkLeaf y (cb y).world l (cp y).pc.toNat false false true = none)
    (hecc : eccAt y [] (leafMem (l.getD {})) (leafPa (l.getD {}) (cp y).pc.toNat) 4 = false) :
    let w := homeWord { y with tlb := t } (leafMem (l.getD {})) (leafPa (l.getD {}) (cp y).pc.toNat)
    fetchWord y = .word
      (fetched y w (if (cb y).spec then { y with tlb := t } else usePage { y with tlb := t } (cb y).ctx (l.getD {}))) w := by
  unfold fetchWord
  simp only [h.loop, h.cache, h.kernel, hl, checkLeaf_tlb, hcheck, Bool.false_eq_true, if_false]
  rw [if_neg (by rw [show eccAt { y with tlb := t } [] _ _ 4 = false from hecc]; decide)]
  rfl
/-- One that passes no check traps. -/
theorem checks_of_fetchWord_word {y u : State} {l : Option Leaf} {t : List TlbEntry} {w : Word} (h : Misses y)
    (hl : tlbLook y (cb y).ctx (cp y).pc.toNat = (l, { y with tlb := t })) (hword : fetchWord y = .word u w) :
    checkLeaf y (cb y).world l (cp y).pc.toNat false false true = none ∧
      eccAt y [] (leafMem (l.getD {})) (leafPa (l.getD {}) (cp y).pc.toNat) 4 = false := by
  unfold fetchWord at hword
  simp only [h.loop, h.cache, h.kernel, hl, checkLeaf_tlb, Bool.false_eq_true, if_false] at hword
  cases hcheck : checkLeaf y (cb y).world l (cp y).pc.toNat false false true with
  | some c =>
    rw [hcheck] at hword
    cases hword
  | none =>
    rw [hcheck] at hword
    refine ⟨rfl, Bool.eq_false_iff.mpr fun hecc => ?_⟩
    dsimp only at hword
    rw [if_pos (show eccAt { y with tlb := t } [] _ _ 4 = true from hecc)] at hword
    cases hword

/-- A fetch that misses and does not trap brings the word in, and changes no group and no block. -/
theorem fetchWord_brings {y u : State} {w : Word} (h : Misses y) (hword : fetchWord y = .word u w) :
    (u.cur = y.cur ∧ u.groups = y.groups ∧ u.blocks = y.blocks) ∧
      Map.find (coreOf u (cg y).core).icache (icKey (cb y).ctx (cp y).pc) = some w := by
  have hl := tlbLook_eq y (cb y).ctx (cp y).pc.toNat
  obtain ⟨hcheck, hecc⟩ := checks_of_fetchWord_word h hl hword
  obtain ⟨rfl, rfl⟩ := Fetched.word.inj (hword.symm.trans (fetchWord_miss h hl hcheck hecc))
  refine ⟨fetched_machine y _ _ _, ?_⟩
  unfold fetched
  rw [coreOf_setCore]
  exact find_put_same _ _ _
/-- A fetch from the page of a present leaf reads the word at its home. -/
theorem fetchWord_home {y : State} {l : Leaf} (h : Misses y) (hl : (tlbLook y (cb y).ctx (cp y).pc.toNat).1 = some l)
    (hcheck : checkLeaf y (cb y).world (some l) (cp y).pc.toNat false false true = none)
    (hecc : eccAt y [] (leafMem l) (leafPa l (cp y).pc.toNat) 4 = false) :
    ∃ z, fetchWord y = .word z (homeWord y (leafMem l) (leafPa l (cp y).pc.toNat)) ∧ z.cur = y.cur ∧ z.groups = y.groups ∧
      z.blocks = y.blocks ∧ ((cb y).spec = true → { z with tlb := y.tlb, cores := y.cores } = y) := by
  have hlook := tlbLook_eq y (cb y).ctx (cp y).pc.toNat
  rw [hl] at hlook
  have hfetch := fetchWord_miss h hlook hcheck hecc
  rw [homeWord_congr fun k _ => rfl] at hfetch
  obtain ⟨hcur, hgroups, hblocks⟩ := fetched_machine y _ (homeWord y (leafMem l) (leafPa l (cp y).pc.toNat)) l
  refine ⟨_, hfetch, hcur, hgroups, hblocks, fun hspec => ?_⟩
  rw [if_pos hspec]
  rfl

/-! ### Turns -/

/-- A group that takes turns, of a block that has not trapped and of a gang that is not saved (R157, R165). -/
def TurnsFreely (s : State) (x : Group) : Prop := (blkOf s x.blk).trapped = false ∧ (gangOf s (blkOf s x.blk).gang).saved = false
/-- A group with one path, which may issue. -/
structure OnePath (x : Group) : Prop where
  state : x.state = .runnable
  two : x.two = false
  running : x.pathA.st = .running
  stall : x.pathA.stall = 0
  wait : x.pathA.wait = none

section
variable {s : State} {g : Nat}

theorem beginTurn_midway (h : midway (grpOf s g) = true) : beginTurn s g = ({ s with cur := g }, true) := by
  unfold beginTurn
  exact if_pos h
theorem stopsAs_eq (x : Group) (hst : x.state = .runnable ∨ x.state = .waiting) (hfree : ¬ TurnsFreely s x) :
    stopsAs s x = some (if (blkOf s x.blk).trapped = true then .trapped else .preempted) := by
  unfold stopsAs TurnsFreely at *
  rcases hst with h | h <;> cases ht : (blkOf s x.blk).trapped <;> simp_all
theorem stopsAs_free (x : Group) (hfree : TurnsFreely s x) : stopsAs s x = none := by
  obtain ⟨htrapped, hsaved⟩ := hfree
  unfold stopsAs
  simp [htrapped, hsaved]
theorem beginTurn_stops {x : GroupState} (h : midway (grpOf s g) = false) (hx : stopsAs { s with cur := g } (grpOf s g) = some x) :
    beginTurn s g = (setCg { s with cur := g } { grpOf s g with state := x }, false) := by
  have hcg : cg { s with cur := g } = grpOf s g := rfl
  unfold beginTurn
  simp only [hcg, h, hx, Bool.false_eq_true, if_false]
theorem beginTurn_picks (hmid : midway (grpOf s g) = false) (hfree : TurnsFreely s (grpOf s g)) (hst : (grpOf s g).state = .runnable)
    (hready : (armOrder (grpOf s g)).filter (pathReady { s with cur := g }) = [false])
    (hhand : wordAtHand { s with cur := g } false = true) :
    beginTurn s g =
      (setCg { s with cur := g } { wake (tickGroup (grpOf s g)) with onB := false, lastB := false }, true) := by
  have hcg : cg { s with cur := g } = grpOf s g := rfl
  unfold beginTurn
  simp [hcg, hmid, show stopsAs { s with cur := g } (grpOf s g) = none from stopsAs_free _ hfree, hst, hready, hhand]
theorem beginTurn_fills (hmid : midway (grpOf s g) = false) (hfree : TurnsFreely s (grpOf s g)) (hst : (grpOf s g).state = .runnable)
    (hready : (armOrder (grpOf s g)).filter (pathReady { s with cur := g }) = [false])
    (hhand : wordAtHand { s with cur := g } false = false) :
    beginTurn s g = (setCg (fillMiss { s with cur := g } false) (tickGroup (cg (fillMiss { s with cur := g } false))), false) := by
  have hcg : cg { s with cur := g } = grpOf s g := rfl
  unfold beginTurn
  simp [hcg, hmid, show stopsAs { s with cur := g } (grpOf s g) = none from stopsAs_free _ hfree, hst, hready, hhand]
theorem beginTurn_ticks (hmid : midway (grpOf s g) = false) (hfree : TurnsFreely s (grpOf s g)) (hst : (grpOf s g).state = .runnable)
    (hready : (armOrder (grpOf s g)).filter (pathReady { s with cur := g }) = []) :
    beginTurn s g = (setCg { s with cur := g } (tickGroup (grpOf s g)), false) := by
  have hcg : cg { s with cur := g } = grpOf s g := rfl
  unfold beginTurn
  simp [hcg, hmid, show stopsAs { s with cur := g } (grpOf s g) = none from stopsAs_free _ hfree, hst, hready]
end

theorem midway_runnable {x : Group} (h : x.state = .runnable) : midway x = false := by
  unfold midway
  rw [h]
  rfl
theorem midway_waiting {x : Group} (h : x.state = .waiting) (hpass : inPass (pathOf x) = true) : midway x = true := by
  unfold midway
  rw [h, hpass]
  rfl
theorem tickPath_zero {p : Path} (h : p.stall = 0) : tickPath p = p := by
  unfold tickPath
  rw [h]
  exact congrArg (fun n => { p with stall := n }) h.symm
theorem pathOf_alone {x : Group} (h : x.two = false) : pathOf x = x.pathA := by
  unfold pathOf
  simp [h]
theorem armOrder_alone {x : Group} (h : x.two = false) : armOrder x = [false] := by
  unfold armOrder
  simp [h]
theorem ready_of_onePath {z : State} (h : OnePath (cg z)) : (armOrder (cg z)).filter (pathReady z) = [false] := by
  have hready : pathReady z false = true := by
    unfold pathReady pathOf
    simp [h.two, h.running, h.stall, h.wait]
  rw [armOrder_alone h.two, List.filter_cons_of_pos hready, List.filter_nil]
theorem ready_of_stalled {z : State} (htwo : (cg z).two = false) (h : 0 < (cg z).pathA.stall) :
    (armOrder (cg z)).filter (pathReady z) = [] := by
  have hready : pathReady z false = false := by
    unfold pathReady pathOf
    simp [htwo, Nat.ne_of_gt h]
  rw [armOrder_alone htwo, List.filter_cons_of_neg (by simp [hready]), List.filter_nil]

/-- A group that is not alone at hand misses. -/
theorem misses_of_not_hand {z : State} (h : wordAtHand z false = false) :
    Misses (setCg z { cg z with onB := false }) ∧ ∃ u w, fetchWord (setCg z { cg z with onB := false }) = .word u w := by
  unfold wordAtHand at h
  generalize setCg z { cg z with onB := false } = y at h
  dsimp only at h
  rw [Bool.or_eq_false_iff] at h
  obtain ⟨hk, hm⟩ := h
  cases hf : fetchWord y with
  | trap u t =>
    rw [hf] at hm
    cases hm
  | word u w =>
    rw [hf] at hm
    simp only [Bool.or_eq_false_iff, Option.isSome_eq_false_iff, Option.isNone_iff_eq_none] at hm
    exact ⟨⟨hm.1, hm.2, hk⟩, u, w, rfl⟩
theorem wordAtHand_of_cached {z : State} {w : Word}
    (h : Map.find (coreOf z (cg z).core).icache (icKey (cb z).ctx (pathOf { cg z with onB := false }).pc) = some w) :
    wordAtHand z false = true := by
  have hcb : cb (setCg z { cg z with onB := false }) = cb z := by
    unfold cb
    rw [cg_setCg]
    exact blkOf_setCg z _ _
  have hcp : cp (setCg z { cg z with onB := false }) = pathOf { cg z with onB := false } := by
    unfold cp
    rw [cg_setCg]
  unfold wordAtHand
  dsimp only
  rw [Bool.or_eq_true]
  right
  cases fetchWord (setCg z { cg z with onB := false }) with
  | trap u t => rfl
  | word u t =>
    dsimp only
    rw [hcp, hcb, cg_setCg, coreOf_setCg, h, Option.isSome_some, Bool.or_true]

/-- A miss takes the turn: the group's path counts its stall down, and the word is then at hand (R144). -/
theorem fillMiss_alone {z : State} (h : OnePath (cg z)) (hhand : wordAtHand z false = false) :
    let v := setCg (fillMiss z false) (tickGroup (cg (fillMiss z false)))
    wordAtHand v false = true ∧ cp v = (cg z).pathA ∧ v.blocks = z.blocks := by
  obtain ⟨hmiss, u, w, hword⟩ := misses_of_not_hand hhand
  obtain ⟨⟨hcur, hgroups, hblocks⟩, hcached⟩ := fetchWord_brings hmiss hword
  have hcgu : cg u = { cg z with onB := false } := by
    rw [cg, grpOf, hcur, hgroups]
    exact cg_setCg z _
  have hfill : fillMiss z false = setCg u (cg z) := by
    unfold fillMiss
    dsimp only
    rw [hword]
    dsimp only
    rw [hcgu]
  have htick : tickGroup (cg z) = { cg z with pathB := tickPath (cg z).pathB } := by
    rw [tickGroup, tickPath_zero h.stall]
  have hcp : cp (setCg z { cg z with onB := false }) = (cg z).pathA := by
    unfold cp
    rw [cg_setCg]
    exact pathOf_alone h.two
  have hcb : cb (setCg z { cg z with onB := false }) = blkOf z (cg z).blk := by
    unfold cb
    rw [cg_setCg]
    exact blkOf_setCg z _ _
  rw [hfill, cg_setCg, setCg_setCg, htick]
  rw [hcp, hcb, cg_setCg] at hcached
  have hcbu : cb (setCg u { cg z with pathB := tickPath (cg z).pathB }) = blkOf z (cg z).blk := by
    unfold cb
    rw [cg_setCg, blkOf_setCg]
    exact blkOf_of_blocks hblocks _
  refine ⟨wordAtHand_of_cached (w := w) ?_, ?_, hblocks⟩
  · rw [hcbu, coreOf_setCg, cg_setCg, pathOf_alone (by exact h.two)]
    exact hcached
  · unfold cp
    rw [cg_setCg]
    exact pathOf_alone h.two
/-- What the turn of a path that may issue changes of its group. -/
theorem wake_tickGroup_alone {x : Group} (h : OnePath x) :
    { wake (tickGroup x) with onB := false, lastB := false } = { x with pathB := tickPath x.pathB, onB := false, lastB := false } := by
  unfold wake tickGroup
  rw [tickPath_zero h.stall]
  simp [h.state]

/-- Settles O3: the step is the group's turn, and what it runs is what it fetches. -/
theorem stepRunsDecoded : Obligations.StepRunsDecoded := by
  intro s u g r i w t l z v y x free one hpower hagenda hdue hbarrel
  have hstep := step_turn hpower hagenda hdue hbarrel
  have hmid : x.state = .runnable → midway x = false := midway_runnable
  have honePath : one → OnePath (cg z) := fun ⟨_, hst, htwo, hrun, hstall, hwait⟩ => ⟨hst, htwo, hrun, hstall, hwait⟩
  refine ⟨fun h => ?_, fun h hword hi => ?_, fun h hword hi => ?_, fun h htrap => ?_, fun h hhand => ?_, fun h hhand => ?_,
    fun hst hpass => ?_, fun hmidway hst hfree => ?_, fun hfree hst htwo hstall => ?_, fun hloop hcache hk hl hcheck hecc => ?_⟩
  · rw [hstep, turn_idle h]
    rfl
  · rw [hstep, turn_of_fetch h (fetchInstr_word hword hi)]
  · rw [hstep, turn_of_trap h (fetchInstr_illegal hword hi)]
    rfl
  · rw [hstep, turn_of_trap h (fetchInstr_trap htrap)]
    rfl
  · have hv : v = (setCg z { x with pathB := tickPath x.pathB, onB := false, lastB := false }, true) :=
      (beginTurn_picks (s := { s with barrel := r }) (hmid h.2.1) h.1 h.2.1 (ready_of_onePath (honePath h)) hhand).trans
        (congrArg (fun k => (setCg z k, true)) (wake_tickGroup_alone (honePath h)))
    rw [hv]
    refine ⟨rfl, rfl, ?_, rfl, ?_⟩
    · unfold cp
      rw [cg_setCg]
      exact pathOf_alone h.2.2.1
    · rw [cg_setCg]
      rfl
  · have hv : v = (setCg (fillMiss z false) (tickGroup (cg (fillMiss z false))), false) :=
      beginTurn_fills (s := { s with barrel := r }) (hmid h.2.1) h.1 h.2.1 (ready_of_onePath (honePath h)) hhand
    obtain ⟨hnow, hcp, hblocks⟩ := fillMiss_alone (honePath h) hhand
    rw [hv]
    exact ⟨rfl, hnow, hcp, hblocks⟩
  · exact beginTurn_midway (midway_waiting hst hpass)
  · exact beginTurn_stops hmidway (stopsAs_eq _ hst hfree)
  · have hv : v = (setCg z (tickGroup x), false) :=
      beginTurn_ticks (s := { s with barrel := r }) (hmid hst) hfree hst (ready_of_stalled htwo hstall)
    rw [hv]
    refine ⟨rfl, ?_, rfl⟩
    unfold cp
    rw [cg_setCg]
    exact pathOf_alone htwo
  · exact fetchWord_home ⟨hloop, hcache, hk⟩ hl hcheck hecc

end Sys2Proof.Machine
end

