-- ==== Sys2Proof/Proofs/WorkWords.lean ====
section
/-!
PROOFS. Proofs/WorkWords.lean: an HRING after a store to its ring's registers (R96, R238). The statement asks whether the record's place
is mapped before the word's release; HRING looks after it, and the release may perform a store of the group that moves the ring.
-/
namespace Sys2Proof.Machine

/-- One group of a speculative block, with a store to come that moves host ring 0 of its context from a mapped page to one that is not. -/
def ringMoves : State :=
  let s := { State.reset.withFetchWord 32 0 with cur := 2 }
  let s := { s with dev := writeBytes (writeBytes s.dev 0x802 [1]) 0x80B [1] }
  let s := setCtx s 0 { ctxOf s 0 with leaves := { va := 0x10000, frame := 0, cls := 1, w := true, r := true } :: (ctxOf s 0).leaves }
  let s := setCb s { cb s with spec := true }
  setCg s { cg s with stores := [{ mem := .dev, addr := 0x802, bytes := [2] }] }

/-- Whether an outcome leaves the issuing group TRAPPED. -/
def trapsNow (o : Host.Outcome State Fault Refusal) : Bool :=
  match o with
  | .next t => (cg t).state == .trapped
  | _ => false
theorem ringMoves_traps : trapsNow (exec (.hring 0 0 0 0 0) ringMoves) = true := by decide

theorem ringMoves_mayIssue : MayIssue (info (.hring 0 0 0 0 0)) ringMoves where
  version := by decide
  defined := by decide
  slots := by decide
  privileged := by decide
  allotted := by decide
  readsOnTime := by decide
  writesOnTime := by decide
  region := by decide

/-- Refutes O39: the record's place is mapped before the release, not after it, and HRING traps. -/
theorem not_workWords : ¬ Obligations.WorkWords := by
  rintro ⟨-, h, -⟩
  obtain ⟨-, -, -, -, hring, -⟩ := h ringMoves 0 0 0 0 0 0 0 0 0 0 0
  obtain ⟨hstart, -⟩ := hring (Or.inl rfl) ringMoves_mayIssue (by decide) (fun _ => by decide)
  have hwrites := congrArg trapsNow (hstart (Or.inl (by decide)))
  rw [ringMoves_traps] at hwrites
  exact absurd hwrites (by decide)

end Sys2Proof.Machine
end

