-- ==== Sys2Proof/Proofs/Performing.lean ====
section
/-!
PROOFS. Proofs/Performing.lean: what the performing of stores leaves unchanged (R236, R238): it writes memories, spoils matrix commands,
performs open loads again and ends SLEEPWs; of a group only its lane and uniform registers, its spill memory, its stores, what it has
observed and what its paths wait for may change, of a block its memories and what its matrix commands touch.
-/
namespace Sys2Proof.Machine

/-- Group g with what the performing of stores may change as group y has it. -/
def performed (g y : Group) : Group :=
  { g with v := y.v, s := y.s, spill := y.spill, stores := y.stores, view := y.view, heard := y.heard, heardTop := y.heardTop
           heardDone := y.heardDone, loads := y.loads, pathA := { g.pathA with wait := y.pathA.wait }
           pathB := { g.pathB with wait := y.pathB.wait } }
/-- Block b with what the performing of stores may change as block y has it. -/
def worked (b y : Block) : Block :=
  { b with win := y.win, ringMem := y.ringMem, slots := y.slots, tiles := y.tiles, touches := y.touches }

theorem worked_touches (b : Block) (l : List MTouch) : { b with touches := l } = worked b { b with touches := l } := rfl

/-- The second state comes from the first by the performing of writes. -/
structure Performs (s t : State) : Prop where
  rest : t = { s with dev := t.dev, host := t.host, die := t.die, groups := t.groups, blocks := t.blocks, log := t.log
                      stored := t.stored, poison := t.poison, fresh := t.fresh }
  block : ∀ b, blkOf t b = worked (blkOf s b) (blkOf t b)
  group : ∀ g, grpOf t g = performed (grpOf s g) (grpOf t g)

theorem Performs.refl (s : State) : Performs s s := ⟨rfl, fun _ => rfl, fun _ => rfl⟩
theorem Performs.trans {s t u : State} (h : Performs s t) (k : Performs t u) : Performs s u where
  rest := by rw [k.rest, h.rest]
  block b := by
    rw [k.block, h.block]
    rfl
  group g := by
    rw [k.group, h.group]
    rfl
theorem Performs.foldl {α : Type} {f : State → α → State} (hf : ∀ s a, Performs s (f s a)) (l : List α) :
    ∀ s, Performs s (l.foldl f s) := by
  induction l with
  | nil => exact Performs.refl
  | cons a l ih => exact fun s => (hf s a).trans (ih _)
theorem Performs.ite {s t u : State} {c : Prop} [Decidable c] (h : Performs s t) (k : Performs s u) : Performs s (if c then t else u) := by
  split
  · exact h
  · exact k

/-! ### One change -/

theorem performs_setGrp (s : State) (g : Nat) {x : Group} (h : x = performed (grpOf s g) x) : Performs s (setGrp s g x) := by
  refine ⟨rfl, fun _ => rfl, fun j => ?_⟩
  by_cases hj : j = g
  · rw [hj, grpOf_setGrp]
    exact h
  · rw [grpOf_setGrp_other s x hj]
    rfl
theorem performs_setBlk (s : State) (b : Nat) {y : Block} (h : y = worked (blkOf s b) y) : Performs s (setBlk s b y) := by
  refine ⟨rfl, fun j => ?_, fun _ => rfl⟩
  by_cases hj : j = b
  · rw [hj, blkOf_setBlk]
    exact h
  · rw [blkOf_setBlk_other s y hj]
    rfl
/-- A change of what neither a group nor a block holds. -/
theorem performs_of_memories {s t : State} (hg : t.groups = s.groups) (hb : t.blocks = s.blocks)
    (h : t = { s with dev := t.dev, host := t.host, die := t.die, log := t.log, stored := t.stored, poison := t.poison, fresh := t.fresh }) :
    Performs s t := by
  refine ⟨?_, fun b => ?_, fun g => ?_⟩
  · rw [hg, hb]
    exact h
  · rw [blkOf_of_blocks hb]
    rfl
  · rw [grpOf, hg]
    rfl

theorem performs_homeWrite (s : State) (n : MemName) (a : Nat) (bs : List Byte) : Performs s (homeWrite s n a bs) := by
  have hmem : ∀ m, Performs s (setMem s n m) := by
    intro m
    cases n with
    | win b => exact performs_setBlk s b rfl
    | ring b => exact performs_setBlk s b rfl
    | slot b => exact performs_setBlk s b rfl
    | spill g => exact performs_setGrp s g rfl
    | die k => exact performs_of_memories rfl rfl rfl
    | dev => exact performs_of_memories rfl rfl rfl
    | host => exact performs_of_memories rfl rfl rfl
    | table c => exact Performs.refl s
  rw [homeWrite_eq]
  exact (hmem _).trans (performs_of_memories rfl rfl rfl)
theorem performs_logWrite (s : State) (e : Written) (len : Nat) : Performs s (logWrite s e len) := by
  obtain ⟨l, hl⟩ := logWrite_rest s e len
  rw [hl]
  exact performs_of_memories rfl rfl rfl
theorem performs_engineBytes (s : State) (blk seq : Nat) (n : MemName) (a : Nat) (bs : List Byte) :
    Performs s (engineBytes s blk seq n a bs) := (performs_logWrite s _ _).trans (performs_homeWrite _ n a bs)

/-! ### What a write brings with it -/

theorem performs_freeSpan (n blk seq : Nat) (s : State) (x : Span) : Performs s (freeSpan n blk seq s x) := by
  unfold freeSpan
  dsimp only
  split
  · exact performs_engineBytes s blk seq _ _ _
  · exact performs_engineBytes s blk seq _ _ _
  · exact performs_engineBytes s blk seq _ _ _
  · exact performs_setBlk s blk rfl
theorem performs_freeSpans (s : State) (blk seq : Nat) (xs : List Span) : Performs s (freeSpans s blk seq xs) :=
  (Performs.foldl (performs_freeSpan s.fresh blk seq) xs s).trans (performs_of_memories rfl rfl rfl)
theorem performs_freeResults (n : Nat) : ∀ (s : State) (blk seq : Nat) (xs : List Span), Performs s (freeResults n s blk seq xs) := by
  induction n with
  | zero => exact performs_freeSpans
  | succ n ih =>
    intro s blk seq xs
    unfold freeResults
    dsimp only
    split
    · exact (performs_freeSpans s blk seq xs).trans (ih _ _ _ _)
    · exact performs_freeSpans s blk seq xs
theorem performs_freeEach (n blk : Nat) (l : List MTouch) (s : State) :
    Performs s (l.foldl (fun s t => freeResults n s blk t.seq t.writes) s) :=
  Performs.foldl (fun s t => performs_freeResults n s blk t.seq t.writes) l s
theorem performs_disturb (s : State) (w : View) (n : MemName) (a len : Nat) : Performs s (disturb s w n a len) := by
  refine Performs.foldl (fun s e => ?_) s.blocks s
  unfold disturbBlock
  dsimp only
  split
  · exact (performs_setBlk s e.1 (worked_touches _ _)).trans (performs_freeEach 64 e.1 _ _)
  · exact Performs.refl s

/-! ### What reads and waits leave -/

theorem grpOf_peekBefore (s : State) (g h : Nat) (n : MemName) (a len j : Nat) :
    grpOf (peekBefore s g h n a len) j =
      { grpOf s j with stores := markPeeked g (fun p => p.peeked.contains h && storeHits n a len p) (grpOf s j).stores } :=
  look_map (fun x : Group => { x with stores := markPeeked g (fun p => p.peeked.contains h && storeHits n a len p) x.stores })
    s.groups {} (Or.inr rfl)
theorem performs_peekBefore (s : State) (g h : Nat) (n : MemName) (a len : Nat) : Performs s (peekBefore s g h n a len) := by
  refine ⟨rfl, fun _ => rfl, fun j => ?_⟩
  rw [grpOf_peekBefore]
  rfl
/-- A group that reads a range: its loads of it are final, and it has heard the copy completion count where it reads it. -/
def closedBy (s : State) (g : Nat) (n : MemName) (a len : Nat) : Group :=
  let y := closeLoads n a len (grpOf s g)
  if n == .ring y.blk && decide (a < 4104) && decide (4100 < a + len) then { y with heardDone := (blkOf s y.blk).copy.done } else y
theorem closedBy_performed (s : State) (g : Nat) (n : MemName) (a len : Nat) :
    closedBy s g n a len = performed (grpOf s g) (closedBy s g n a len) := by
  unfold closedBy
  dsimp only
  split <;> rfl
theorem noteRead_newest (s : State) (g : Nat) (n : MemName) (a len : Nat) :
    noteRead s g n a len .newest = setGrp s g { hearWrites (closedBy s g n a len) s.log.length a len (hits n a len s.log) with
      stores := markPeeked g (storeHits n a len) (closedBy s g n a len).stores } := rfl
theorem noteRead_cut (s : State) (g : Nat) (n : MemName) (a len k : Nat) :
    noteRead s g n a len (.cut k) = setGrp s g (hearWrites (closedBy s g n a len) k a len (hits n a len s.log)) := rfl
theorem noteRead_peek (s : State) (g : Nat) (n : MemName) (a len h i : Nat) :
    let y := hearWrites (closedBy s g n a len) s.log.length a len (hits n a len s.log)
    let z := grpOf (peekBefore s g h n a len) h
    noteRead s g n a len (.peek h i) =
      setGrp (setGrp (peekBefore s g h n a len) g { y with heard := Map.put y.heard h (s.log.length + 1) }) h
        { z with stores := peekStore g i z.stores } := rfl

theorem performed_trans {x y z : Group} (h : y = performed x y) (k : z = performed y z) : z = performed x z := by
  rw [k, h]
  rfl
theorem hearWrites_performed (x : Group) (k a len : Nat) (hs : List (Nat × Written)) :
    hearWrites x k a len hs = performed x (hearWrites x k a len hs) := rfl
theorem performs_noteRead (s : State) (g : Nat) (n : MemName) (a len : Nat) (x : Sight) : Performs s (noteRead s g n a len x) := by
  have hclosed := closedBy_performed s g n a len
  cases x with
  | newest =>
    rw [noteRead_newest]
    exact performs_setGrp s g (performed_trans hclosed rfl)
  | cut k =>
    rw [noteRead_cut]
    exact performs_setGrp s g (performed_trans hclosed rfl)
  | peek h i =>
    rw [noteRead_peek]
    refine ⟨rfl, fun _ => rfl, fun j => ?_⟩
    by_cases hj : j = h
    · rw [hj, grpOf_setGrp, grpOf_peekBefore]
      rfl
    · rw [grpOf_setGrp_other _ _ hj]
      by_cases hjg : j = g
      · rw [hjg, grpOf_setGrp]
        exact performed_trans hclosed rfl
      · rw [grpOf_setGrp_other _ _ hjg, grpOf_peekBefore]
        rfl
theorem performed_paths {x : Group} {a b : Path} (ha : a = { x.pathA with wait := a.wait }) (hb : b = { x.pathB with wait := b.wait }) :
    { x with pathA := a, pathB := b } = performed x { x with pathA := a, pathB := b } := by
  unfold performed
  dsimp only
  rw [← ha, ← hb]
/-- A path that the performing of stores lets go on keeps all but its wait. -/
theorem wakePath_wait (s : State) (g : Nat) (n : MemName) (a len : Nat) (p : Path) :
    wakePath s g n a len p = { p with wait := (wakePath s g n a len p).wait } := by
  unfold wakePath
  split <;> rfl
theorem performs_wakeGroup (n : MemName) (a len : Nat) (s : State) (e : Nat × Group) : Performs s (wakeGroup n a len s e) := by
  unfold wakeGroup
  dsimp only
  split
  · exact Performs.refl s
  · split
    · refine (performs_noteRead s e.1 _ _ 4 .newest).trans (performs_setGrp _ e.1 ?_)
      refine performed_paths (wakePath_wait _ _ _ _ _ _) ?_
      split
      · exact wakePath_wait _ _ _ _ _ _
      · rfl
    · exact Performs.refl s
theorem performs_wakeWords (s : State) (n : MemName) (a len : Nat) : Performs s (wakeWords s n a len) :=
  Performs.foldl (performs_wakeGroup n a len) s.groups s
theorem setLoaded_performed (x : Group) (l : OpenLoad) (w : Word) : setLoaded x l w = performed x (setLoaded x l w) := by
  unfold setLoaded
  split <;> rfl
theorem performs_loadAgain (g : Nat) (s : State) (l : OpenLoad) : Performs s (loadAgain g s l) := by
  refine performs_setGrp s g ?_
  rw [hearWrites_performed, setLoaded_performed]
  rfl
theorem performs_reload (s : State) (n : MemName) (a len : Nat) : Performs s (reload s n a len) := by
  refine Performs.foldl (fun s e => ?_) s.groups s
  unfold loadsAgain
  dsimp only
  exact Performs.ite (Performs.refl s) (Performs.foldl (performs_loadAgain e.1) _ s)
theorem performs_tellPeekers (s : State) (p : PendStore) : Performs s (tellPeekers s p) :=
  Performs.foldl (fun s h => performs_setGrp s h rfl) p.peeked s

/-! ### Writes and stores -/

theorem performs_agentWrite (s : State) (e : Written) (w : View) (bs : List Byte) : Performs s (agentWrite s e w bs) :=
  (((performs_logWrite s e _).trans (performs_homeWrite _ _ _ _)).trans (performs_disturb _ w _ _ _)).trans
    ((performs_reload _ _ _ _).trans (performs_wakeWords _ _ _ _))
theorem performs_groupWrite (s : State) (g : Nat) (n : MemName) (a : Nat) (bs : List Byte) : Performs s (groupWrite s g n a bs) :=
  performs_agentWrite s _ _ bs
theorem performs_performAll (g : Nat) : ∀ (l : List PendStore) (s : State), Performs s (performAll g s l)
  | [], s => Performs.refl s
  | p :: r, s => ((performs_groupWrite s g _ _ _).trans (performs_tellPeekers _ p)).trans (performs_performAll g r _)
/-- The stores picked leave the group's list, and are performed. -/
theorem performs_pick (s : State) (g : Nat) (l r : List PendStore) : Performs s (performAll g (setGrp s g { grpOf s g with stores := r }) l) :=
  (performs_setGrp s g rfl).trans (performs_performAll g l _)
theorem performs_performSome (n : Nat) : ∀ (s : State) (g : Nat) (sel : PendStore → Bool), Performs s (performSome n s g sel) := by
  induction n with
  | zero => exact fun s g sel => performs_pick s g _ _
  | succ n ih =>
    intro s g sel
    refine Performs.trans (Performs.foldl (fun s h => ?_) s.groups s) (performs_pick _ g _ _)
    exact Performs.ite (Performs.refl s) (ih s h.1 _)
theorem performs_performOf (s : State) (g : Nat) (sel : PendStore → Bool) : Performs s (performOf s g sel) :=
  performs_performSome _ s g sel
theorem performs_performMates (s : State) (g : Nat) (sel : PendStore → Bool) : Performs s (performMates s g sel) := by
  refine Performs.foldl (fun s h => ?_) s.groups s
  exact Performs.ite (Performs.refl s) (performs_performOf s h.1 _)
theorem performs_performStores (s : State) (g : Nat) : Performs s (performStores s g) :=
  (performs_performMates s g _).trans (performs_performOf _ g _)
theorem performs_performBefore (s : State) (g : Nat) (n : MemName) (a len : Nat) : Performs s (performBefore s g n a len) :=
  (performs_performMates s g _).trans (performs_performOf _ g _)

/-! ### What stays -/

section
variable {s t : State} (h : Performs s t)
include h
theorem Performs.cur : t.cur = s.cur := (congrArg State.cur h.rest :)
theorem Performs.rels : t.rels = s.rels := (congrArg State.rels h.rest :)
theorem Performs.time : t.time = s.time := (congrArg State.time h.rest :)
theorem Performs.gangs : t.gangs = s.gangs := (congrArg State.gangs h.rest :)
theorem Performs.kerns : t.kerns = s.kerns := (congrArg State.kerns h.rest :)
theorem Performs.cg : cg t = performed (cg s) (cg t) := by
  unfold Machine.cg
  rw [h.cur]
  exact h.group s.cur
theorem Performs.cgBlk : (Machine.cg t).blk = (Machine.cg s).blk := (congrArg Group.blk h.cg :)
theorem Performs.cb : cb t = worked (cb s) (cb t) := by
  unfold Machine.cb
  rw [h.cgBlk]
  exact h.block _
end

/-- A release records what it covers, and counts for the block's next command. -/
theorem releaseFence_eq (s : State) {scope : Nat} (h : scope ≠ 0) :
    releaseFence s scope = setCb (recordRelease (performStores s s.cur) s.cur scope 0)
      { cb (recordRelease (performStores s s.cur) s.cur scope 0) with relNext := true } := by
  unfold releaseFence release releaseGrp
  rw [if_neg h]

/-! ### Words that wait or trap past part of their effect -/

section
variable {i : Info} {s : State} {act : State → Act}

theorem issue_trapIn {u : State} {t : TrapReq} (h : MayIssue i s) (ha : act (entered i s) = .trapIn u t) :
    issue i s act = .next (trappedAt s u t) := by
  rw [issue_eq h, ha]
  rfl
theorem issue_waitFor {e m : State} {w : Wait} {k : State → Act} (h : MayIssue i s) (ha : act (entered i s) = waitFor e w k)
    (hk : k e = .done m) :
    issue i s act = if waitHolds e w = true then .next (settled i s m) else .next (waitingAt s e w) := by
  by_cases hw : waitHolds e w = true
  · rw [if_pos hw]
    exact issue_done h (by rw [ha, waitFor, if_pos hw, hk])
  · rw [if_neg hw]
    exact issue_wait h (by rw [ha, waitFor, if_neg hw])
end

theorem wait_cp_entered (i : Info) (s : State) : (cp (entered i s)).wait = (cp s).wait := by rw [cp_entered]
end Sys2Proof.Machine
end

