-- ==== Sys2Proof/Proofs/BarrierWords.lean ====
section
/-!
PROOFS. Proofs/BarrierWords.lean: the barrier words (R253 to R262): arrivals, waits, membership, reading and BARMASK.
-/
namespace Sys2Proof.Machine

/-! ### What the barrier words find after a release -/

/-- The second state has the issuing group's barriers as the first has them. -/
structure SameBarriers (s e : State) : Prop where
  cur : e.cur = s.cur
  owed : (cg e).owed = (cg s).owed
  index : (cg e).index = (cg s).index
  bargs : (cg e).bargs = (cg s).bargs
  blk : (cg e).blk = (cg s).blk
  gang : (cb e).gang = (cb s).gang
  kern : (cb e).kern = (cb s).kern
  bars : (cb e).bars = (cb s).bars
  exist : existGroups e (cb e) = existGroups s (cb s)

theorem SameBarriers.trans {s t u : State} (h : SameBarriers s t) (k : SameBarriers t u) : SameBarriers s u :=
  ⟨k.cur.trans h.cur, k.owed.trans h.owed, k.index.trans h.index, k.bargs.trans h.bargs, k.blk.trans h.blk, k.gang.trans h.gang,
    k.kern.trans h.kern, k.bars.trans h.bars, k.exist.trans h.exist⟩
theorem SameBarriers.barOf {s e : State} (h : SameBarriers s e) (i : Nat) : barOf (cb e) i = barOf (cb s) i := by
  unfold Machine.barOf
  rw [h.bars]

theorem existGroups_congr {s t : State} {b c : Block} (hg : c.groups = b.groups) (h : ∀ g, (grpOf t g).index = (grpOf s g).index) :
    existGroups t c = existGroups s b := by
  unfold existGroups
  rw [hg]
  exact congrArg maskOf (List.map_congr_left fun g _ => h g)
theorem index_entered (i : Info) (s : State) (g : Nat) : (grpOf (entered i s) g).index = (grpOf s g).index := by
  by_cases hg : g = s.cur
  · have hcur : (cg (entered i s)).index = (cg s).index := (congrArg Group.index (repathed_entered i s) :)
    rw [cg, cur_entered] at hcur
    rw [hg]
    exact hcur
  · rw [grpOf_entered_other i s hg]
theorem sameBarriers_entered (i : Info) (s : State) : SameBarriers s (entered i s) := by
  have hgroup := repathed_entered i s
  exact ⟨cur_entered i s, (congrArg Group.owed hgroup :), (congrArg Group.index hgroup :), (congrArg Group.bargs hgroup :),
    (congrArg Group.blk hgroup :), by rw [cb_entered], by rw [cb_entered], by rw [cb_entered],
    existGroups_congr (by rw [cb_entered]) (index_entered i s)⟩
theorem sameBarriers_of_performs {s t : State} (h : Performs s t) : SameBarriers s t :=
  ⟨h.cur, (congrArg Group.owed h.cg :), (congrArg Group.index h.cg :), (congrArg Group.bargs h.cg :), h.cgBlk,
    (congrArg Block.gang h.cb :), (congrArg Block.kern h.cb :), (congrArg Block.bars h.cb :),
    existGroups_congr (congrArg Block.groups h.cb :) fun g => (congrArg Group.index (h.group g) :)⟩
theorem sameBarriers_relNext (s : State) (rs : List Release) :
    SameBarriers s (setCb { s with rels := rs } { cb s with relNext := true }) :=
  have hcb : cb (setCb { s with rels := rs } { cb s with relNext := true }) = { cb s with relNext := true } := blkOf_setBlk _ _ _
  ⟨rfl, rfl, rfl, rfl, rfl, by rw [hcb], by rw [hcb], by rw [hcb], existGroups_congr (by rw [hcb]) fun _ => rfl⟩
theorem sameBarriers_releaseFence (s : State) {scope : Nat} (h : scope ≠ 0) : SameBarriers s (releaseFence s scope) := by
  rw [releaseFence_eq s h]
  exact (sameBarriers_of_performs (performs_performStores s s.cur)).trans (sameBarriers_relNext _ _)
theorem sameBarriers_release (i : Info) (s : State) {scope : Nat} (h : scope ≠ 0) :
    SameBarriers s (releaseFence (entered i s) scope) := (sameBarriers_entered i s).trans (sameBarriers_releaseFence _ h)

/-! ### Arrivals -/

/-- An arrival of the issuing group at slot i with a mask, in the state e after its release. -/
def arrivedAt (s e : State) (i : Nat) (mask : Mask) : State :=
  settleBlock (setBar e i { barOf (cb e) i with
    filling := true
    mask := if (barOf (cb s) i).filling then (barOf (cb s) i).mask else mask &&& existGroups s (cb s)
    arrived := (barOf (cb s) i).arrived ||| maskOf [(cg s).index]
    join := joinView (barOf (cb e) i).join (coverOf e s.cur) }) (cg s).blk

section
variable {s e : State} (h : SameBarriers s e) (i : Nat) (mask : Mask) (after : State → Act)
include h
theorem arriveSlot_owed (howed : (cg s).owed.contains i = true) :
    arriveSlot e i mask mask after = .trapIn (setCg e { cg e with owed := (cg s).owed.erase i }) { code := .barmask } := by
  unfold arriveSlot
  dsimp only
  rw [h.owed, if_pos howed]
theorem arriveSlot_outside (howed : (cg s).owed.contains i = false) (hmember : bitOf (mask &&& existGroups s (cb s)) (cg s).index = false) :
    arriveSlot e i mask mask after = .trap { code := .barmask } := by
  unfold arriveSlot
  dsimp only
  rw [h.owed, h.exist, h.index, if_neg (by simp only [howed, Bool.false_eq_true, not_false_eq_true]), if_pos (by rw [hmember]; rfl)]
theorem arriveSlot_again (howed : (cg s).owed.contains i = false) (hmember : bitOf (mask &&& existGroups s (cb s)) (cg s).index = true)
    (harrived : bitOf (barOf (cb s) i).arrived (cg s).index = true) : arriveSlot e i mask mask after = .wait e (.rearrive i) := by
  unfold arriveSlot
  dsimp only
  rw [h.owed, h.exist, h.index, h.barOf, howed, hmember, harrived]
  rfl
theorem arriveSlot_other (howed : (cg s).owed.contains i = false) (hmember : bitOf (mask &&& existGroups s (cb s)) (cg s).index = true)
    (harrived : bitOf (barOf (cb s) i).arrived (cg s).index = false) (hfilling : (barOf (cb s) i).filling = true)
    (hmask : (barOf (cb s) i).mask &&& existGroups s (cb s) ≠ mask &&& existGroups s (cb s)) :
    arriveSlot e i mask mask after = .trapIn (barReset e i true) { code := .barmask } := by
  unfold arriveSlot
  dsimp only
  rw [h.owed, h.exist, h.index, h.barOf, howed, hmember, harrived, hfilling, bne_iff_ne.mpr hmask]
  rfl
theorem arriveSlot_arrives (howed : (cg s).owed.contains i = false)
    (hmember : bitOf (mask &&& existGroups s (cb s)) (cg s).index = true)
    (harrived : bitOf (barOf (cb s) i).arrived (cg s).index = false)
    (hmask : (barOf (cb s) i).filling = true → (barOf (cb s) i).mask &&& existGroups s (cb s) = mask &&& existGroups s (cb s)) :
    arriveSlot e i mask mask after = after (arrivedAt s e i mask) := by
  have hsame : ((barOf (cb s) i).filling && ((barOf (cb s) i).mask &&& existGroups s (cb s)) != (mask &&& existGroups s (cb s))) = false := by
    cases hf : (barOf (cb s) i).filling with
    | false => rfl
    | true => rw [hmask hf, bne_self_eq_false]; rfl
  unfold arriveSlot arrivedAt
  dsimp only
  rw [h.owed, h.exist, h.index, h.barOf, h.blk, h.cur, howed, hmember, harrived, hsame]
  rfl
end

/-! ### What a completed phase leaves -/

theorem oneArm_alone {s : State} (h : (cg s).two = false) (k : Act) : oneArm s k = k := by
  unfold oneArm
  rw [h]
  rfl
theorem oneArm_two {s : State} (h : (cg s).two = true) (k : Act) : oneArm s k = .trap { code := .illop } := if_pos h

/-- The issuing group of s acquires a completed phase of slot i, in state e. -/
def meetsSlot (s : State) (i : Nat) (e : State) : State :=
  acquire (seeView (setBar e i { barOf (cb e) i with met := Map.del (barOf (cb e) i).met (cg e).index }) s.cur
    (joinView (slotMet e i) (exitView e fun r => r.blk == (cg s).blk))) 1
def meetsGang (s e : State) : State :=
  acquire (seeView e s.cur (joinView (gangOf e (cb s).gang).met (exitView e fun r => r.gang == (cb s).gang))) 2
def meetsGrid (s e : State) : State :=
  acquire (seeView e s.cur (joinView (kernOf e (cb s).kern).met (exitView e fun r => r.kern == (cb s).kern))) 5

theorem meetSlot_eq {s e : State} (hcur : e.cur = s.cur) (hblk : (cg e).blk = (cg s).blk) (i : Nat) :
    meetSlot e i = .done (meetsSlot s i e) := by
  unfold meetSlot meetsSlot
  dsimp only
  rw [← hcur, hblk]
theorem meetGang_eq {s e : State} (hcur : e.cur = s.cur) (hgang : (cb e).gang = (cb s).gang) : meetGang e = .done (meetsGang s e) := by
  unfold meetGang meetsGang
  dsimp only
  rw [hcur, hgang]
theorem meetGrid_eq {s e : State} (hcur : e.cur = s.cur) (hkern : (cb e).kern = (cb s).kern) : meetGrid e = .done (meetsGrid s e) := by
  unfold meetGrid meetsGrid
  dsimp only
  rw [hcur, hkern]

/-! ### BAR, BARM, ARRIVE and AWAIT -/

/-- The conditions under which an arrival at slot i with a mask is recorded. -/
structure MayArrive (s : State) (i : Nat) (mask : Mask) : Prop where
  paid : (cg s).owed.contains i = false
  member : bitOf (mask &&& existGroups s (cb s)) (cg s).index = true
  first : bitOf (barOf (cb s) i).arrived (cg s).index = false
  sameMask : (barOf (cb s) i).filling = true → (barOf (cb s) i).mask &&& existGroups s (cb s) = mask &&& existGroups s (cb s)

theorem sameBarriers_arrivedAt {s e : State} (h : SameBarriers s e) (i : Nat) (mask : Mask) :
    (arrivedAt s e i mask).cur = s.cur ∧ (cg (arrivedAt s e i mask)).blk = (cg s).blk := ⟨h.cur, h.blk⟩
section
variable {w : Info} {s : State} {act : State → Act} {i : Nat} {mask : Mask}

/-- A word that waits on its slot, where it has arrived already. -/
theorem issue_rewaits (h : MayIssue w s) (htwo : (cg s).two = false) (hwait : (cp s).wait = some (.barrier i))
    (hact : act (entered w s) = arriveAndWait (entered w s) i mask mask) :
    issue w s act = if waitHolds (entered w s) (.barrier i) = true then .next (settled w s (meetsSlot s i (entered w s)))
      else .next (waitingAt s (entered w s) (.barrier i)) := by
  have hsame := sameBarriers_entered w s
  refine issue_waitFor (k := fun u => meetSlot u i) h ?_ (meetSlot_eq hsame.cur hsame.blk i)
  rw [hact, arriveAndWait, oneArm_alone (by rw [two_cg_entered, htwo])]
  exact if_pos (by rw [arrivedAlready, wait_cp_entered, hwait]; exact beq_self_eq_true _)
theorem arriveAndWait_entered (htwo : (cg s).two = false) (hwait : (cp s).wait ≠ some (.barrier i)) :
    arriveAndWait (entered w s) i mask mask =
      arriveSlot (releaseFence (entered w s) 1) i mask mask fun u => waitFor u (.barrier i) fun u => meetSlot u i := by
  rw [arriveAndWait, oneArm_alone (by rw [two_cg_entered, htwo])]
  exact if_neg (by rw [arrivedAlready, wait_cp_entered, beq_iff_eq]; exact hwait)
/-- One that arrives, and waits. -/
theorem issue_arrives (h : MayIssue w s) (htwo : (cg s).two = false) (hwait : (cp s).wait ≠ some (.barrier i))
    (hmay : MayArrive s i mask) (hact : act (entered w s) = arriveAndWait (entered w s) i mask mask) :
    issue w s act =
      let e := arrivedAt s (releaseFence (entered w s) 1) i mask
      if waitHolds e (.barrier i) = true then .next (settled w s (meetsSlot s i e)) else .next (waitingAt s e (.barrier i)) := by
  have hsame := sameBarriers_release w s (scope := 1) (by decide)
  obtain ⟨hcur, hblk⟩ := sameBarriers_arrivedAt hsame i mask
  refine issue_waitFor (k := fun u => meetSlot u i) h ?_ (meetSlot_eq hcur hblk i)
  rw [hact, arriveAndWait_entered htwo hwait, arriveSlot_arrives hsame i mask _ hmay.paid hmay.member hmay.first hmay.sameMask]
/-- The traps and the wait of an arrival that is not recorded. -/
theorem arrival_fails {ins : Instr} (hexec : exec ins s = issue (info ins) s act) (h : MayIssue (info ins) s) (k : State → Act)
    (hact : act (entered (info ins) s) = arriveSlot (releaseFence (entered (info ins) s) 1) i mask mask k) :
    let e := releaseFence (entered (info ins) s) 1
    ((cg s).owed.contains i = true →
      exec ins s = .next (trappedAt s (setCg e { cg e with owed := (cg s).owed.erase i }) { code := .barmask })) ∧
    (¬ (cg s).owed.contains i = true → bitOf (mask &&& existGroups s (cb s)) (cg s).index = false →
      exec ins s = .next (takeTrap s s.cur { code := .barmask })) ∧
    (¬ (cg s).owed.contains i = true → bitOf (mask &&& existGroups s (cb s)) (cg s).index = true →
      bitOf (barOf (cb s) i).arrived (cg s).index = true → exec ins s = .next (waitingAt s e (.rearrive i))) ∧
    (¬ (cg s).owed.contains i = true → bitOf (mask &&& existGroups s (cb s)) (cg s).index = true →
      bitOf (barOf (cb s) i).arrived (cg s).index = false → (barOf (cb s) i).filling = true →
      (barOf (cb s) i).mask &&& existGroups s (cb s) ≠ mask &&& existGroups s (cb s) →
      exec ins s = .next (trappedAt s (barReset e i true) { code := .barmask })) := by
  have hsame := sameBarriers_release (info ins) s (scope := 1) (by decide)
  refine ⟨fun howed => ?_, fun howed hmember => ?_, fun howed hmember harrived => ?_, fun howed hmember harrived hfilling hmask => ?_⟩
  · exact hexec.trans (issue_trapIn h (hact.trans (arriveSlot_owed hsame i mask k howed)))
  · exact hexec.trans (issue_trap h (hact.trans (arriveSlot_outside hsame i mask k (Bool.eq_false_iff.mpr howed) hmember)))
  · exact hexec.trans (issue_wait h (hact.trans (arriveSlot_again hsame i mask k (Bool.eq_false_iff.mpr howed) hmember harrived)))
  · exact hexec.trans (issue_trapIn h (hact.trans (arriveSlot_other hsame i mask k (Bool.eq_false_iff.mpr howed) hmember harrived hfilling hmask)))
end

theorem bar_act {s : State} (st : BitVec 2) (i : BitVec 3) :
    arriveAndWait (entered (info (.bar st i)) s) i.toNat (barOf (cb (entered (info (.bar st i)) s)) i.toNat).members
      (barOf (cb (entered (info (.bar st i)) s)) i.toNat).members =
    arriveAndWait (entered (info (.bar st i)) s) i.toNat (barOf (cb s) i.toNat).members (barOf (cb s) i.toNat).members := by
  rw [cb_entered]
theorem barm_act {s : State} (st : BitVec 2) (a : BitVec 5) (i : BitVec 3) :
    arriveAndWait (entered (info (.barm st a i)) s) i.toNat (rs128 (entered (info (.barm st a i)) s) (4 * a.toNat))
      (rs128 (entered (info (.barm st a i)) s) (4 * a.toNat)) =
    arriveAndWait (entered (info (.barm st a i)) s) i.toNat (uniPair s (4 * a.toNat + 2) ++ uniPair s (4 * a.toNat))
      (uniPair s (4 * a.toNat + 2) ++ uniPair s (4 * a.toNat)) := by
  rw [rs128_entered]
theorem arrive_act {s : State} (st : BitVec 2) (i : BitVec 3) (htwo : (cg s).two = false) :
    oneArm (entered (info (.arrive st i)) s) (arriveSlot (releaseFence (entered (info (.arrive st i)) s) 1) i.toNat
      (barOf (cb (entered (info (.arrive st i)) s)) i.toNat).members (barOf (cb (entered (info (.arrive st i)) s)) i.toNat).members .done) =
    arriveSlot (releaseFence (entered (info (.arrive st i)) s) 1) i.toNat (barOf (cb s) i.toNat).members
      (barOf (cb s) i.toNat).members .done := by
  rw [oneArm_alone (by rw [two_cg_entered, htwo]), cb_entered]

theorem await_waits {s : State} {st : BitVec 2} {i : BitVec 3} (h : MayIssue (info (.await st i)) s) (htwo : (cg s).two = false)
    (howed : (cg s).owed.contains i.toNat = false) :
    exec (.await st i) s =
      let e := entered (info (.await st i)) s
      if waitHolds e (.barrier i.toNat) = true then .next (settled (info (.await st i)) s (meetsSlot s i.toNat e))
        else .next (waitingAt s e (.barrier i.toNat)) := by
  have hsame := sameBarriers_entered (info (.await st i)) s
  rw [exec_await, execAwait]
  refine issue_waitFor (k := fun u => meetSlot u i.toNat) h ?_ (meetSlot_eq hsame.cur hsame.blk i.toNat)
  dsimp only
  rw [oneArm_alone (by rw [two_cg_entered, htwo]), hsame.owed, howed]
  rfl
theorem await_owed {s : State} {st : BitVec 2} {i : BitVec 3} (h : MayIssue (info (.await st i)) s) (htwo : (cg s).two = false)
    (howed : (cg s).owed.contains i.toNat = true) :
    exec (.await st i) s = .next (trappedAt s (setCg (entered (info (.await st i)) s)
      { cg (entered (info (.await st i)) s) with owed := (cg s).owed.erase i.toNat }) { code := .barmask }) := by
  rw [exec_await, execAwait]
  refine issue_trapIn h ?_
  dsimp only
  rw [oneArm_alone (by rw [two_cg_entered, htwo]), (sameBarriers_entered _ s).owed, if_pos howed]

/-! ### BARC and BARG -/

theorem settleGang_keeps (s : State) (q : Nat) : (settleGang s q).cur = s.cur ∧ cb (settleGang s q) = cb s := by
  unfold settleGang
  dsimp only
  split <;> exact ⟨rfl, rfl⟩
/-- The arrival of the issuing group of s at the cluster barrier, in the state e after its release. -/
def arrivedGang (s e : State) : State :=
  settleGang (setGang e (cb s).gang { gangOf e (cb s).gang with
    arrived := (gangOf e (cb s).gang).arrived ++ [s.cur], join := joinView (gangOf e (cb s).gang).join (coverOf e s.cur) }) (cb s).gang
theorem barc_rewaits {s : State} {st : BitVec 2} (h : MayIssue (info (.barc st)) s) (htwo : (cg s).two = false)
    (hwait : (cp s).wait = some .cluster) :
    exec (.barc st) s =
      let e := entered (info (.barc st)) s
      if waitHolds e .cluster = true then .next (settled (info (.barc st)) s (meetsGang s e)) else .next (waitingAt s e .cluster) := by
  have hsame := sameBarriers_entered (info (.barc st)) s
  rw [exec_barc, execBarc]
  refine issue_waitFor (k := meetGang) h ?_ (meetGang_eq hsame.cur hsame.gang)
  dsimp only
  rw [oneArm_alone (by rw [two_cg_entered, htwo]), wait_cp_entered, hwait]
  rfl
theorem barc_arrives {s : State} {st : BitVec 2} (h : MayIssue (info (.barc st)) s) (htwo : (cg s).two = false)
    (hwait : (cp s).wait ≠ some .cluster) :
    exec (.barc st) s =
      let e := arrivedGang s (releaseFence (entered (info (.barc st)) s) 2)
      if waitHolds e .cluster = true then .next (settled (info (.barc st)) s (meetsGang s e)) else .next (waitingAt s e .cluster) := by
  have hsame := sameBarriers_release (info (.barc st)) s (scope := 2) (by decide)
  have hkeeps := settleGang_keeps (setGang (releaseFence (entered (info (.barc st)) s) 2) (cb s).gang
    { gangOf (releaseFence (entered (info (.barc st)) s) 2) (cb s).gang with
      arrived := (gangOf (releaseFence (entered (info (.barc st)) s) 2) (cb s).gang).arrived ++ [s.cur]
      join := joinView (gangOf (releaseFence (entered (info (.barc st)) s) 2) (cb s).gang).join
        (coverOf (releaseFence (entered (info (.barc st)) s) 2) s.cur) }) (cb s).gang
  rw [exec_barc, execBarc]
  refine issue_waitFor (k := meetGang) h ?_ (meetGang_eq (hkeeps.1.trans hsame.cur) ((congrArg Block.gang hkeeps.2).trans hsame.gang))
  dsimp only
  rw [oneArm_alone (by rw [two_cg_entered, htwo]), wait_cp_entered, if_neg (by rw [beq_iff_eq]; exact hwait), hsame.gang, hsame.cur]
  rfl

/-- The arrival of the issuing group of s at its next grid episode, in the state e after its release. -/
def arrivedGrid (s e : State) : State :=
  let u := setKern e (cb s).kern { kernOf e (cb s).kern with join := joinView (kernOf e (cb s).kern).join (coverOf e s.cur) }
  settleGrid (setCg u { cg u with bargs := (cg s).bargs + 1 }) (cb s).kern
theorem sameBarriers_releaseOnce (i : Info) (s : State) {scope : Nat} (h : scope ≠ 0) :
    SameBarriers s (releaseOnce (entered i s) scope) := by
  unfold releaseOnce
  split
  · exact sameBarriers_entered i s
  · exact sameBarriers_release i s h
theorem cur_settleGrid (s : State) (k : Nat) : (settleGrid s k).cur = s.cur := (congrArg State.cur (settles_settleGrid s k).rest :)
theorem arrivedGrid_keeps {s e : State} (h : SameBarriers s e) :
    (arrivedGrid s e).cur = s.cur ∧ (cb (arrivedGrid s e)).kern = (cb s).kern := by
  unfold arrivedGrid
  dsimp only
  generalize hu : setCg (setKern e (cb s).kern _) _ = u
  have hcur : u.cur = s.cur := by
    rw [← hu]
    exact h.cur
  have hcb : (cb u).kern = (cb s).kern := by
    rw [← hu, cb, cg_setCg, blkOf_setCg]
    exact h.kern
  refine ⟨(cur_settleGrid u _).trans hcur, ?_⟩
  rw [cb, cg, grpOf, groups_settleGrid, cur_settleGrid, blkOf_settleGrid]
  exact hcb

theorem barg_rewaits {s : State} {st : BitVec 2} {n : Nat} (h : MayIssue (info (.barg st)) s) (htwo : (cg s).two = false)
    (hwait : (cp s).wait = some (.grid n)) :
    exec (.barg st) s =
      let e := entered (info (.barg st)) s
      if waitHolds e (.grid n) = true then .next (settled (info (.barg st)) s (meetsGrid s e)) else .next (waitingAt s e (.grid n)) := by
  have hsame := sameBarriers_entered (info (.barg st)) s
  rw [exec_barg, execBarg]
  refine issue_waitFor (k := meetGrid) h ?_ (meetGrid_eq hsame.cur hsame.kern)
  dsimp only
  rw [oneArm_alone (by rw [two_cg_entered, htwo]), wait_cp_entered, hwait]
theorem barg_arrives {s : State} {st : BitVec 2} (h : MayIssue (info (.barg st)) s) (htwo : (cg s).two = false)
    (hwait : ∀ n, (cp s).wait ≠ some (.grid n)) :
    exec (.barg st) s =
      let e := releaseOnce (entered (info (.barg st)) s) 5
      let u := arrivedGrid s e
      if waitHolds e .acks = true then
        (if waitHolds u (.grid ((cg s).bargs + 1)) = true then .next (settled (info (.barg st)) s (meetsGrid s u))
          else .next (waitingAt s u (.grid ((cg s).bargs + 1))))
      else .next (waitingAt s e .acks) := by
  have hsame := sameBarriers_releaseOnce (info (.barg st)) s (scope := 5) (by decide)
  obtain ⟨hcur, hkern⟩ := arrivedGrid_keeps hsame
  rw [exec_barg, execBarg]
  by_cases hacks : waitHolds (releaseOnce (entered (info (.barg st)) s) 5) .acks = true
  · rw [if_pos hacks]
    refine issue_waitFor (k := meetGrid) h ?_ (meetGrid_eq hcur hkern)
    dsimp only
    rw [oneArm_alone (by rw [two_cg_entered, htwo]), wait_cp_entered]
    split
    · exact absurd ‹_› (hwait _)
    · rw [waitFor, if_pos hacks]
      rw [hsame.bargs, hsame.kern, hsame.cur]
      rfl
  · rw [if_neg hacks]
    refine issue_wait h ?_
    dsimp only
    rw [oneArm_alone (by rw [two_cg_entered, htwo]), wait_cp_entered]
    split
    · exact absurd ‹_› (hwait _)
    · exact if_neg hacks

/-! ### BARINIT and BARRD -/

theorem barinit_done {s : State} {st : BitVec 2} {a : BitVec 5} {i : BitVec 3} (h : MayIssue (info (.barinit st a i)) s)
    (htwo : (cg s).two = false) :
    exec (.barinit st a i) s =
      let z := entered (info (.barinit st a i)) s
      let e := if (barOf (cb s) i.toNat).filling = true then barReset z i.toNat false else z
      .next (settled (info (.barinit st a i)) s (setBar e i.toNat { barOf (cb e) i.toNat with
        members := (uniPair s (4 * a.toNat + 2) ++ uniPair s (4 * a.toNat)) &&& existGroups e (cb e) })) := by
  rw [exec_barinit, execBarinit]
  refine issue_done h ?_
  dsimp only
  rw [oneArm_alone (by rw [two_cg_entered, htwo]), rs128_entered, cb_entered]
theorem departed_entered (i : Info) (s : State) (g : Nat) : departed (entered i s) g = departed s g := by
  unfold departed
  dsimp only
  by_cases hg : g = s.cur
  · subst hg
    have hcg : grpOf (entered i s) s.cur = cg (entered i s) := by rw [cg, cur_entered]
    rw [hcg, cg_entered, setPath_state, setPath_blk, blkOf_entered]
    rfl
  · rw [grpOf_entered_other i s hg, blkOf_entered]
theorem barrdValue_entered (w : Info) (s : State) (k i : Nat) : barrdValue (entered w s) k i = barrdValue s k i := by
  have hindex : ∀ g, (grpOf (entered w s) g).index = (grpOf s g).index := index_entered w s
  have hlive : liveGroups (entered w s) (cb s) = liveGroups s (cb s) := by
    unfold liveGroups
    simp only [departed_entered, hindex]
  have hgang : ∀ q, gangOf (entered w s) q = gangOf s q := fun q => by rw [entered_eq]; rfl
  have hblock : blockLive (entered w s) = blockLive s := by
    funext b
    simp only [blockLive, blkOf_entered, departed_entered]
  have hcluster : ∀ x, blockAtCluster (entered w s) x = blockAtCluster s x := fun x => by
    funext b
    simp only [blockAtCluster, hblock, blkOf_entered, departed_entered]
  unfold barrdValue
  dsimp only
  rw [cb_entered, hlive, ck_entered, hgang, hblock, hcluster]

/-! ### The statements -/

/-- Two paths raise ILLOP. -/
theorem issue_two {w : Info} {s : State} {act : State → Act} {k : Act} (h : MayIssue w s) (htwo : (cg s).two = true)
    (hact : act (entered w s) = oneArm (entered w s) k) : issue w s act = .next (takeTrap s s.cur { code := .illop }) :=
  issue_trap h (by rw [hact, oneArm_two (by rw [two_cg_entered, htwo])])
theorem barrierWords_two {s : State} {st : BitVec 2} {i : BitVec 3} {a : BitVec 5} {d : BitVec 7} {k : BitVec 2} {w : Instr}
    (hw : w = .bar st i ∨ w = .barm st a i ∨ w = .arrive st i ∨ w = .await st i ∨ w = .barc st ∨ w = .barg st ∨ w = .barinit st a i ∨
      w = .barrd st d k i) (htwo : (cg s).two = true) (h : MayIssue (info w) s) :
    exec w s = .next (takeTrap s s.cur { code := .illop }) := by
  rcases hw with rfl | rfl | rfl | rfl | rfl | rfl | rfl | rfl
  · exact (exec_bar ..).trans (issue_two h htwo rfl)
  · exact (exec_barm ..).trans (issue_two h htwo rfl)
  · exact (exec_arrive ..).trans (issue_two h htwo rfl)
  · exact (exec_await ..).trans (issue_two h htwo rfl)
  · exact (exec_barc ..).trans (issue_two h htwo rfl)
  · exact (exec_barg ..).trans (issue_two h htwo rfl)
  · exact (exec_barinit ..).trans (issue_two h htwo rfl)
  · exact (exec_barrd ..).trans (issue_two h htwo rfl)

theorem barrierWords_hold : Statements.BarrierWords := by
  intro s st i a d k at_ blk slot four free arrived metSlot metGang metGrid waits
  have hfree : ∀ {mask}, free mask → MayArrive s i.toNat mask := fun ⟨hpaid, hmember, hfirst, hmask⟩ => ⟨hpaid, hmember, hfirst, hmask⟩
  refine ⟨fun w hw htwo h => barrierWords_two hw htwo h, fun htwo => ⟨fun h hwait hmay => ?_, fun h hwait => ?_, fun h hwait hmay => ?_,
    fun h hwait => ?_, fun h hmay => ?_, fun h howed => await_waits h htwo howed, fun h hwait => barc_arrives h htwo hwait,
    fun h hwait => barc_rewaits h htwo hwait, fun h hwait => barg_arrives h htwo hwait, fun n h hwait => barg_rewaits h htwo hwait,
    fun h => barinit_done h htwo, ?_⟩⟩
  · exact (exec_bar ..).trans (issue_arrives h htwo hwait (hfree hmay) (bar_act st i))
  · exact (exec_bar ..).trans (issue_rewaits h htwo hwait (bar_act st i))
  · exact (exec_barm ..).trans (issue_arrives h htwo hwait (hfree hmay) (barm_act st a i))
  · exact (exec_barm ..).trans (issue_rewaits h htwo hwait (barm_act st a i))
  · have hsame := sameBarriers_release (info (.arrive st i)) s (scope := 1) (by decide)
    obtain ⟨hpaid, hmember, hfirst, hmask⟩ := hfree hmay
    exact (exec_arrive ..).trans (issue_done h ((arrive_act st i htwo).trans
      (arriveSlot_arrives hsame i.toNat _ .done hpaid hmember hfirst hmask)))
  · refine uni_result (exec_barrd ..) ?_
    rw [oneArm_alone (by rw [two_cg_entered, htwo]), barrdValue_entered]
    rfl

/-- A reset with no group to trap discards the phase. -/
theorem barReset_none {u : State} {i : Nat} {self : Bool}
    (h : ∀ g ∈ (cb u).groups, bitOf (barOf (cb u) i).arrived (grpOf u g).index = false ∨ (self = true ∧ g = u.cur)) :
    barReset u i self = setBar u i { barOf (cb u) i with filling := false, arrived := 0, mask := 0, join := {} } := by
  unfold barReset
  dsimp only
  rw [List.filter_eq_nil_iff.mpr ?_, List.foldl_nil]
  intro g hg
  rcases h g hg with harrived | ⟨rfl, rfl⟩
  · rw [show grpOf (setBar u i _) g = grpOf u g from rfl, harrived]
    simp
  · rw [show (setBar u i _).cur = u.cur from rfl]
    simp

theorem barrierTraps_hold : Statements.BarrierTraps := by
  intro s st i a slot four owed paid arrival
  refine ⟨fun h htwo hwait => ?_, fun h htwo hwait => ?_, fun h htwo hwait => ?_,
    fun h htwo howed => await_owed h htwo howed, fun u self h => barReset_none h⟩
  · exact arrival_fails (exec_bar ..) h _ ((bar_act st i).trans (arriveAndWait_entered htwo hwait))
  · exact arrival_fails (exec_barm ..) h _ ((barm_act st a i).trans (arriveAndWait_entered htwo hwait))
  · exact arrival_fails (exec_arrive ..) h _ (arrive_act st i htwo)

/-- Settles O38. -/
theorem barrierWords : Obligations.BarrierWords := ⟨barrierWords_hold, barrierTraps_hold⟩

end Sys2Proof.Machine
end

