-- ==== Sys2Proof/Proofs/CommandWords.lean ====
section
/-!
PROOFS. Proofs/CommandWords.lean: the copy and matrix command words (R267 to R279, R299 to R306): their image, the wait for room in
their ring, and their traps.
-/
namespace Sys2Proof.Machine

/-! ### Images -/

theorem rsList_entered (i : Info) (s : State) (a n : Nat) : rsList (entered i s) a n = (List.range n).map fun j => uniReg s (a + j) := by
  unfold rsList
  simp only [rs_entered]
/-- The image is the same in every state that has the group's uniform registers, none of them read early. -/
theorem cmdImage_entered (i j : Info) (s : State) (a : BitVec 4) (kind : Nat) (k f : BitVec 4) :
    cmdImage (entered i s) a kind k f = cmdImage (entered j s) a kind k f := by
  unfold cmdImage
  rw [rsList_entered, rsList_entered]
theorem cmdImage_ready (i : Info) (s : State) (a : BitVec 4) (kind : Nat) (k f : BitVec 4) :
    cmdImage (setCg s { cg s with early := [] }) a kind k f = cmdImage (entered i s) a kind k f := by
  have hrs : ∀ n, rs (setCg s { cg s with early := [] }) n = uniReg s n := by
    intro n
    unfold rs uniReg
    rw [cg_setCg]
    rfl
  unfold cmdImage
  rw [rsList_entered]
  unfold rsList
  simp only [hrs]

/-! ### What a release leaves of the rings -/

theorem cb_releaseFence (s : State) {scope : Nat} (h : scope ≠ 0) :
    cb (releaseFence s scope) = { worked (cb s) (cb (releaseFence s scope)) with relNext := true } := by
  have hcb := (performs_performStores s s.cur).cb
  rw [releaseFence_eq s h]
  generalize performStores s s.cur = p at hcb ⊢
  have hset : cb (setCb (recordRelease p s.cur scope 0) { cb (recordRelease p s.cur scope 0) with relNext := true }) =
      { cb p with relNext := true } := blkOf_setBlk _ _ _
  rw [hset, hcb]
  rfl
theorem matrix_releaseFence (s : State) {scope : Nat} (h : scope ≠ 0) : (cb (releaseFence s scope)).matrix = (cb s).matrix :=
  (congrArg Block.matrix (cb_releaseFence s h) :)
theorem matrix_releaseOnce (i : Info) (s : State) {scope : Nat} (h : scope ≠ 0) :
    (cb (releaseOnce (entered i s) scope)).matrix = (cb s).matrix := by
  unfold releaseOnce
  split
  · rw [cb_entered]
  · rw [matrix_releaseFence _ h, cb_entered]
theorem slotError_congr {b c : Block} (h : c.matrix = b.matrix) (n : Nat) : slotError c n = slotError b n := by
  unfold slotError
  rw [h]

theorem slotError_releaseOnce (i : Info) (s : State) :
    slotError (cb (releaseOnce (entered i s) 1)) ((cb (releaseOnce (entered i s) 1)).matrix.tail + 1) =
      slotError (cb s) ((cb s).matrix.tail + 1) := by
  have hmatrix := matrix_releaseOnce i s (scope := 1) (by decide)
  rw [slotError_congr hmatrix, hmatrix]

/-! ### Command words past their decoding -/

/-- What a copy command word reads: its own registers, and the translation registers its image names. -/
def copyInfo (i : Instr) (s : State) (a : BitVec 4) (kind : Nat) (k f : BitVec 4) : Info :=
  { info i with reads := (info i).reads ++ (cRegs (cmdImage (entered (info i) s) a kind k f)).map fun n => (.x n, .active) }
def matrixInfo (i : Instr) (s : State) (a : BitVec 4) (kind : Nat) (k f : BitVec 4) : Info :=
  { info i with reads := (info i).reads ++ (mGenRegs (cmdImage (entered (info i) s) a kind k f)).map fun n => (.g n, .active) }

section
variable {s : State} {i : Instr} {kind : Nat} {d : BitVec 7} {a k f : BitVec 4}

theorem copyCommand_malformed (h : MayIssue (copyInfo i s a kind k f) s)
    (hbad : copyMalformed (entered (copyInfo i s a kind k f) s) (cmdImage (entered (info i) s) a kind k f) = true) :
    copyCommand i kind d a k f s = .next (takeTrap s s.cur { code := .entry }) := by
  unfold copyCommand
  dsimp only
  rw [cmdImage_ready (info i)]
  refine issue_trap h ?_
  rw [show cmdImage (entered _ s) a kind k f = _ from cmdImage_entered _ (info i) s a kind k f]
  exact if_pos hbad
theorem copyCommand_joins (h : MayIssue (copyInfo i s a kind k f) s)
    (hok : copyMalformed (entered (copyInfo i s a kind k f) s) (cmdImage (entered (info i) s) a kind k f) = false) :
    let img := cmdImage (entered (info i) s) a kind k f
    let xs := (cRegs img).foldl (fun m n => Map.put m n (xlatReg s n)) ([] : Map XReg)
    let e := releaseOnce (entered (copyInfo i s a kind k f) s) 1
    copyCommand i kind d a k f s = if waitHolds e (.ring false (cAcks img xs)) = true
      then .next (settled (copyInfo i s a kind k f) s (ws (appendCopy e img) d.toNat (BitVec.ofNat 32 (cb (appendCopy e img)).copy.tail)))
      else .next (waitingAt s e (.ring false (cAcks img xs))) := by
  unfold copyCommand
  dsimp only
  rw [cmdImage_ready (info i)]
  refine issue_waitFor (k := fun u => uniOut (appendCopy u (cmdImage (entered (info i) s) a kind k f)) d
    (BitVec.ofNat 32 (cb (appendCopy u (cmdImage (entered (info i) s) a kind k f))).copy.tail)) h ?_ rfl
  rw [show cmdImage (entered _ s) a kind k f = _ from cmdImage_entered _ (info i) s a kind k f]
  simp only [rx_entered]
  exact if_neg (by
    rw [Bool.not_eq_true]
    exact hok)

theorem matrixCommand_illconv (h : MayIssue (matrixInfo i s a kind k f) s) (hkind : kind ≤ 1)
    (hfull : fullGroup (entered (matrixInfo i s a kind k f) s) = false) :
    matrixCommand i kind d a k f s = .next (takeTrap s s.cur { code := .illconv }) := by
  unfold matrixCommand
  dsimp only
  rw [cmdImage_ready (info i)]
  exact issue_trap h (if_pos ⟨hkind, hfull⟩)
theorem matrixCommand_malformed (h : MayIssue (matrixInfo i s a kind k f) s)
    (hfull : kind ≤ 1 → fullGroup (entered (matrixInfo i s a kind k f) s) = true)
    (hbad : matrixMalformed (entered (matrixInfo i s a kind k f) s) (cmdImage (entered (info i) s) a kind k f)
      ((cb s).matrix.tail + 1) = true) :
    matrixCommand i kind d a k f s = .next (takeTrap s s.cur { code := .entry }) := by
  unfold matrixCommand
  dsimp only
  rw [cmdImage_ready (info i)]
  refine issue_trap h ?_
  rw [show cmdImage (entered _ s) a kind k f = _ from cmdImage_entered _ (info i) s a kind k f, cb_entered,
    if_neg fun hc => Bool.false_ne_true (hc.2.symm.trans (hfull hc.1))]
  exact if_pos hbad

variable (h : MayIssue (matrixInfo i s a kind k f) s)
  (hfull : kind ≤ 1 → fullGroup (entered (matrixInfo i s a kind k f) s) = true)
  (hok : matrixMalformed (entered (matrixInfo i s a kind k f) s) (cmdImage (entered (info i) s) a kind k f)
    ((cb s).matrix.tail + 1) = false)
include h hfull hok
theorem matrixCommand_joins (hslot : slotError (cb s) ((cb s).matrix.tail + 1) = none) :
    let img := cmdImage (entered (info i) s) a kind k f
    let e := releaseOnce (entered (matrixInfo i s a kind k f) s) 1
    matrixCommand i kind d a k f s = if waitHolds e (.ring true 0) = true
      then .next (settled (matrixInfo i s a kind k f) s (ws (appendMatrix e img) d.toNat
        (BitVec.ofNat 32 (cb (appendMatrix e img)).matrix.tail)))
      else .next (waitingAt s e (.ring true 0)) := by
  unfold matrixCommand
  dsimp only
  rw [cmdImage_ready (info i)]
  refine issue_waitFor h ((if_neg fun hc => ?_).trans (if_neg ?_)) ?_
  · exact Bool.false_ne_true (hc.2.symm.trans (hfull hc.1))
  · rw [show cmdImage (entered _ s) a kind k f = _ from cmdImage_entered _ (info i) s a kind k f, cb_entered, Bool.not_eq_true]
    exact hok
  · rw [show cmdImage (entered _ s) a kind k f = _ from cmdImage_entered _ (info i) s a kind k f]
    rw [slotError_releaseOnce, hslot]
    rfl
theorem matrixCommand_slotError {c : Cmd} {t : TrapCode} (hslot : slotError (cb s) ((cb s).matrix.tail + 1) = some c)
    (herr : cmdError c = some t) :
    let e := releaseOnce (entered (matrixInfo i s a kind k f) s) 1
    let slot : Addr := BitVec.ofNat 64 (ringBase + slotAddr true c.seq)
    waitHolds e (.ring true 0) = true → matrixCommand i kind d a k f s =
      .next (trappedAt s (setCb e (setRing (cb e) true (putCmd (ringOf (cb e) true) { c with errAddr := slot, reported := true })))
        { code := t, addr := slot }) := by
  intro e slot hroom
  unfold matrixCommand
  dsimp only
  rw [cmdImage_ready (info i)]
  refine issue_trapIn h ((if_neg fun hc => ?_).trans ((if_neg ?_).trans ((if_pos hroom).trans ?_)))
  · exact Bool.false_ne_true (hc.2.symm.trans (hfull hc.1))
  · rw [show cmdImage (entered _ s) a kind k f = _ from cmdImage_entered _ (info i) s a kind k f, cb_entered, Bool.not_eq_true]
    exact hok
  · dsimp only
    rw [slotError_releaseOnce, hslot]
    dsimp only
    rw [slotTrap, herr]
    rfl
end

/-! ### TAILP, WAITB and WAITM -/

theorem findSome?_range_first {α : Type} {g : Nat → Option α} {n m : Nat} {x : α} (hn : n < m) (hx : g n = some x)
    (hfirst : ∀ j, j < n → g j = none) : (List.range m).findSome? g = some x := by
  have hrange : List.range m = List.range n ++ (List.range (m - n)).map (n + ·) := by
    rw [← List.range_add, Nat.add_sub_cancel' (Nat.le_of_lt hn)]
  have hnone : (List.range n).findSome? g = none := List.findSome?_eq_none_iff.mpr fun j hj => hfirst j (List.mem_range.mp hj)
  rw [hrange, List.findSome?_append, hnone, Option.none_or]
  obtain ⟨l, hl⟩ : ∃ l, List.range (m - n) = 0 :: l := by
    cases hm : m - n with
    | zero => omega
    | succ q => exact ⟨_, List.range_succ_eq_map⟩
  rw [hl, List.map_cons, List.findSome?_cons, Nat.add_zero, hx]
theorem tailError_some {b : State} {d n : Nat} {c : Cmd} (hn : n < d) (hslot : slotError (cb b) ((cb b).matrix.tail + 1 + n) = some c)
    (hfirst : ∀ m, m < n → slotError (cb b) ((cb b).matrix.tail + 1 + m) = none) : tailError b true d = some c :=
  findSome?_range_first hn hslot hfirst

/-- The tail that TAILP names, where it is in bounds. -/
theorem tailCount_some {s : State} {m : Bool} {x : Nat} (hnew : (x + 2 ^ 32 - (ringOf (cb s) m).tail % 2 ^ 32) % 2 ^ 32 < 2 ^ 31)
    (hahead : (x + 2 ^ 32 - (ringOf (cb s) m).done % 2 ^ 32) % 2 ^ 32 ≤ 64) :
    tailCount s m x = some ((x + 2 ^ 32 - (ringOf (cb s) m).tail % 2 ^ 32) % 2 ^ 32) := by
  unfold tailCount
  dsimp only
  rw [if_neg (by omega)]

/-- Command c comes before command y in batch order. -/
def BatchBefore (c y : Cmd) : Prop := c.batch < y.batch ∨ c.batch = y.batch ∧ c.seq < y.seq
/-- One step of the scan for the first error. -/
def keepFirst (o : Option Cmd) (c : Cmd) : Option Cmd :=
  match o with
  | none => some c
  | some a => if earlierCmd a c then some a else some c
theorem firstError_eq (l : List Cmd) : firstError l = (l.filter fun c => (cmdError c).isSome).foldl keepFirst none := rfl
theorem keepFirst_keeps {c y : Cmd} (h : y = c ∨ BatchBefore c y) : keepFirst (some c) y = some c := by
  refine if_pos ?_
  rcases h with rfl | h
  · simp [earlierCmd]
  · unfold BatchBefore at h
    simp only [earlierCmd, Bool.or_eq_true, decide_eq_true_eq, Bool.and_eq_true, beq_iff_eq]
    omega
theorem keepFirst_takes {c : Cmd} {o : Option Cmd} (h : ∀ y, o = some y → y = c ∨ BatchBefore c y) : keepFirst o c = some c := by
  cases o with
  | none => rfl
  | some y =>
    rcases h y rfl with rfl | h
    · exact keepFirst_keeps (Or.inl rfl)
    · refine if_neg ?_
      unfold BatchBefore at h
      simp only [earlierCmd, Bool.or_eq_true, decide_eq_true_eq, Bool.and_eq_true, beq_iff_eq]
      omega
/-- What the scan holds after a step is what it held, or the command it came to. -/
theorem keepFirst_cases (o : Option Cmd) (c : Cmd) : keepFirst o c = o ∨ keepFirst o c = some c := by
  cases o with
  | none => exact Or.inr rfl
  | some y =>
    unfold keepFirst
    dsimp only
    split
    · exact Or.inl rfl
    · exact Or.inr rfl
/-- The scan keeps the least command, once it has come to it. -/
theorem firstError_scan {c : Cmd} : ∀ (l : List Cmd) (o : Option Cmd), (∀ y ∈ l, y = c ∨ BatchBefore c y) →
    (∀ y, o = some y → y = c ∨ BatchBefore c y) → (c ∈ l ∨ o = some c) → l.foldl keepFirst o = some c
  | [], o, _, _, hc => hc.elim (fun h => absurd h (by simp)) id
  | x :: l, o, hl, ho, hc => by
    have hx := hl x List.mem_cons_self
    refine firstError_scan l _ (fun y hy => hl y (List.mem_cons_of_mem x hy)) (fun y hy => ?_) ?_
    · rcases keepFirst_cases o x with hk | hk
      · exact ho y (hk.symm.trans hy)
      · rw [hk] at hy
        exact Option.some.inj hy ▸ hx
    · rcases hc with hmem | hsome
      · rcases List.mem_cons.mp hmem with rfl | hmem
        · exact Or.inr (keepFirst_takes ho)
        · exact Or.inl hmem
      · rw [hsome, keepFirst_keeps hx]
        exact Or.inr rfl
theorem firstError_least {l : List Cmd} {c : Cmd} (hc : c ∈ l) (herr : cmdError c ≠ none)
    (hleast : ∀ y ∈ l, cmdError y ≠ none → y = c ∨ BatchBefore c y) : firstError l = some c := by
  rw [firstError_eq]
  refine firstError_scan _ none (fun y hy => ?_) (fun y hy => absurd hy (by simp)) (Or.inl ?_)
  · obtain ⟨hmem, hsome⟩ := List.mem_filter.mp hy
    exact hleast y hmem (by simpa [Option.isSome_iff_ne_none] using hsome)
  · exact List.mem_filter.mpr ⟨hc, Option.isSome_iff_ne_none.mpr herr⟩

theorem find?_sorted {l : List Cmd} {c : Cmd} {p : Cmd → Bool} (hc : c ∈ l) (hp : p c = true)
    (hsorted : l.Pairwise fun y z => y.seq < z.seq) (hfirst : ∀ y ∈ l, y.seq < c.seq → p y = false) : l.find? p = some c := by
  obtain ⟨l₁, l₂, rfl⟩ := List.append_of_mem hc
  have hnone : l₁.find? p = none := List.find?_eq_none.mpr fun y hy => by
    have hlt := (List.pairwise_append.mp hsorted).2.2 y hy c List.mem_cons_self
    rw [hfirst y (List.mem_append_left _ hy) hlt]
    decide
  rw [List.find?_append, hnone, Option.none_or, List.find?_cons_of_pos hp]

/-- The state in which a command of a ring counts as reported. -/
def reportedIn (u : State) (m : Bool) (c : Cmd) : State :=
  setCb u (setRing (cb u) m (putCmd (ringOf (cb u) m) { c with reported := true }))
theorem reportCmd_copy (u : State) (c : Cmd) (t : TrapCode) : reportCmd u false 1 c t = .trapIn (reportedIn u false c)
    { code := t, addr := c.errAddr, unit := 1, hasPage := decide (t ∈ [TrapCode.page, .prot, .owner, .atroute]) } := by
  unfold reportCmd reportedIn
  cases t <;> rfl
theorem reportCmd_matrix (u : State) (unit : Nat) (c : Cmd) (t : TrapCode) :
    reportCmd u true unit c t = .trapIn (reportedIn u true c) { code := t, addr := c.errAddr, unit := unit } := rfl

theorem batch_cg_entered (i : Info) (s : State) : (cg (entered i s)).batch = (cg s).batch :=
  (congrArg Group.batch (repathed_entered i s) :)

/-- What a TAILP does that publishes as many entries as its tail counts, where that is in bounds. -/
def publishCounted (m : Bool) (s : State) : Option Nat → Act
  | none => .trap { code := .bound }
  | some n => publishOr (releaseFence s 1) m n
/-- A TAILP of a ring past its decoding. -/
def publishTail (m : Bool) (d : BitVec 7) (s : State) : Act :=
  match tailCount s m (rs s d.toNat).toNat with
  | none => .trap { code := .bound }
  | some n => publishOr (releaseFence s 1) m n
theorem publishTail_eq (m : Bool) (d : BitVec 7) (s : State) :
    publishTail m d s = publishCounted m s (tailCount s m (rs s d.toNat).toNat) := rfl
theorem publishCounted_some (m : Bool) (s : State) (n : Nat) : publishCounted m s (some n) = publishOr (releaseFence s 1) m n := rfl
/-- What a TAILP reads: its own register, and those that the entries it publishes capture. -/
def tailInfo (s : State) (st : BitVec 2) (d : BitVec 7) (r : BitVec 1) (m : Bool) : Info :=
  { info (.tailp st d r) with reads := (info (.tailp st d r)).reads ++ tailReads s m d.toNat }
theorem exec_tailp_eq (st : BitVec 2) (d : BitVec 7) (r : BitVec 1) (s : State) :
    exec (.tailp st d r) s = issue (tailInfo s st d r (r == 1)) s (publishTail (r == 1) d) := rfl
theorem exec_tailp_matrix (st : BitVec 2) (d : BitVec 7) (s : State) :
    exec (.tailp st d 1) s = issue (tailInfo s st d 1 true) s (publishTail true d) := by
  have hone : ((1 : BitVec 1) == 1) = true := by decide
  exact (exec_tailp_eq st d 1 s).trans (congrArg (fun m => issue (tailInfo s st d 1 m) s (publishTail m d)) hone)
theorem matrix_releaseFence_entered (i : Info) (s : State) : (cb (releaseFence (entered i s) 1)).matrix = (cb s).matrix := by
  rw [matrix_releaseFence _ (by decide), cb_entered]
/-- A command as its slot reports it, with the slot's address. -/
def slotReport (c : Cmd) : Cmd := { c with errAddr := BitVec.ofNat 64 (ringBase + slotAddr true c.seq) }
theorem slotTrap_eq {c : Cmd} {t : TrapCode} (u : State) (herr : cmdError c = some t) :
    slotTrap u c = .trapIn (reportedIn u true (slotReport c)) { code := t, addr := (slotReport c).errAddr } := by
  have hslot : slotTrap u c = reportCmd u true 0 (slotReport c) ((cmdError c).getD .entry) := rfl
  rw [hslot, herr, Option.getD_some]
  exact reportCmd_matrix u 0 (slotReport c) t
theorem publishTail_some {u : State} {m : Bool} {d : BitVec 7} {n : Nat} (h : tailCount u m (rs u d.toNat).toNat = some n) :
    publishTail m d u = publishOr (releaseFence u 1) m n := by
  rw [publishTail_eq, h]
  exact publishCounted_some m u n
theorem publishOr_some {u : State} {m : Bool} {n : Nat} {c : Cmd} (h : tailError u m n = some c) : publishOr u m n = slotTrap u c := by
  unfold publishOr
  rw [h]
/-- The first error in the slots that a TAILP of the matrix ring takes is raised, after its release. -/
theorem publishTail_raises {i : Info} {s : State} {d : BitVec 7} {n m : Nat} {c : Cmd} {t : TrapCode}
    (hcount : tailCount (entered i s) true (uniReg s d.toNat).toNat = some m) (hn : n < m)
    (hslot : slotError (cb s) ((cb s).matrix.tail + 1 + n) = some c)
    (hfirst : ∀ j, j < n → slotError (cb s) ((cb s).matrix.tail + 1 + j) = none) (herr : cmdError c = some t) :
    publishTail true d (entered i s) =
      .trapIn (reportedIn (releaseFence (entered i s) 1) true (slotReport c)) { code := t, addr := (slotReport c).errAddr } := by
  have hmatrix := matrix_releaseFence_entered i s
  have herror : tailError (releaseFence (entered i s) 1) true m = some c := by
    refine tailError_some hn ?_ ?_
    · rw [slotError_congr hmatrix, hmatrix]
      exact hslot
    · rw [hmatrix]
      exact fun j hj => (slotError_congr hmatrix _).trans (hfirst j hj)
  have hcounted : tailCount (entered i s) true (rs (entered i s) d.toNat).toNat = some m := by
    rw [rs_entered]
    exact hcount
  exact ((publishTail_some hcounted).trans (publishOr_some herror)).trans (slotTrap_eq _ herr)
theorem tailCount_entered (i : Info) (s : State) (m : Bool) (x : Nat) : tailCount (entered i s) m x = tailCount s m x := by
  unfold tailCount
  rw [cb_entered]

theorem waitb_raises {s : State} {st : BitVec 2} {d : BitVec 7} {n : Nat} {c : Cmd} {t : TrapCode}
    (h : MayIssue (info (.waitb st d)) s) (hback : back32 (cg s).batch (uniReg s d.toNat) = some n)
    (hdone : ∀ y ∈ (cb s).copy.cmds, y.grp = s.cur ∧ y.batch ≤ n → cmdDone y = true) (hc : c ∈ (cb s).copy.cmds)
    (hmine : c.grp = s.cur ∧ c.batch ≤ n) (herr : cmdError c = some t)
    (hleast : ∀ y ∈ (cb s).copy.cmds, y.grp = s.cur ∧ y.batch ≤ n → cmdError y ≠ none → y = c ∨ BatchBefore c y) :
    exec (.waitb st d) s = .next (trappedAt s (reportedIn (entered (info (.waitb st d)) s) false c)
      { code := t, addr := c.errAddr, unit := 1, hasPage := decide (t ∈ [TrapCode.page, .prot, .owner, .atroute]) }) := by
  have hmineIff : ∀ y : Cmd, (y.grp == s.cur && decide (y.batch ≤ n)) = true ↔ y.grp = s.cur ∧ y.batch ≤ n := by
    intro y
    simp
  have hholds : waitHolds (entered (info (.waitb st d)) s) (.batch n) = true := by
    unfold waitHolds
    dsimp only
    rw [cb_entered, cur_entered, List.all_eq_true]
    intro y hy
    by_cases hm : y.grp = s.cur ∧ y.batch ≤ n
    · rw [hdone y hy hm, Bool.or_true]
    · rw [Bool.eq_false_iff.mpr fun hb => hm ((hmineIff y).mp hb)]
      rfl
  have hfirst : firstError ((cb s).copy.cmds.filter fun y => y.grp == s.cur && decide (y.batch ≤ n)) = some c := by
    refine firstError_least (List.mem_filter.mpr ⟨hc, (hmineIff c).mpr hmine⟩) (by rw [herr]; exact Option.some_ne_none t) ?_
    intro y hy
    obtain ⟨hmem, hm⟩ := List.mem_filter.mp hy
    exact hleast y hmem ((hmineIff y).mp hm)
  rw [exec_waitb, execWaitb]
  refine issue_trapIn h ?_
  rw [batch_cg_entered, rs_entered, hback]
  dsimp only
  rw [waitFor, if_pos hholds, cb_entered, cur_entered, hfirst]
  dsimp only
  rw [herr]
  exact reportCmd_copy _ c t
theorem waitm_raises {s : State} {st : BitVec 2} {d : BitVec 7} {n : Nat} {c : Cmd} {t : TrapCode}
    (h : MayIssue (info (.waitm st d)) s) (hback : back32 (cb s).matrix.tail (uniReg s d.toNat) = some n) (hdone : n ≤ (cb s).matrix.done)
    (hsorted : (cb s).matrix.cmds.Pairwise fun y z => y.seq < z.seq) (hc : c ∈ (cb s).matrix.cmds) (hn : c.seq ≤ n)
    (herr : cmdError c = some t) (hfirst : ∀ y ∈ (cb s).matrix.cmds, y.seq < c.seq → cmdError y = none) :
    exec (.waitm st d) s = .next (trappedAt s (reportedIn (entered (info (.waitm st d)) s) true c)
      { code := t, addr := c.errAddr, unit := 2 }) := by
  have hholds : waitHolds (entered (info (.waitm st d)) s) (.matrix n) = true := by
    unfold waitHolds
    dsimp only
    rw [cb_entered]
    exact decide_eq_true hdone
  have hfind : ((cb s).matrix.cmds.find? fun y => decide (y.seq ≤ n) && (cmdError y).isSome) = some c := by
    refine find?_sorted hc (by rw [herr, decide_eq_true hn]; rfl) hsorted fun y hy hlt => ?_
    rw [hfirst y hy hlt, Option.isSome_none, Bool.and_false]
  rw [exec_waitm, execWaitm]
  refine issue_trapIn h ?_
  rw [cb_entered, rs_entered, hback]
  dsimp only
  rw [waitFor, if_pos hholds, cb_entered, hfind]
  dsimp only
  rw [herr]
  exact reportCmd_matrix _ 2 c t

/-! ### TESTC and WAITC -/

theorem chunkTrap_align {i : Info} {s : State} {a b : BitVec 7} (h : (uniReg s a.toNat).toNat % 512 ≠ 0) :
    chunkTrap (entered i s) a b = some { code := .align, addr := BitVec.ofNat 64 (uniReg s a.toNat).toNat } := by
  unfold chunkTrap
  dsimp only
  rw [rs_entered, if_pos h]
theorem chunkTrap_bound {i : Info} {s : State} {a b : BitVec 7} (h : (uniReg s a.toNat).toNat % 512 = 0)
    (hout : ∃ j, j < 32 ∧ (uniReg s b.toNat).getLsbD j = true ∧ (ck s).hdr.winbytes ≤ (uniReg s a.toNat).toNat + 512 * j) :
    chunkTrap (entered i s) a b = some { code := .bound, addr := BitVec.ofNat 64 (uniReg s a.toNat).toNat } := by
  obtain ⟨j, hj, hbit, hle⟩ := hout
  unfold chunkTrap
  dsimp only
  rw [rs_entered, rs_entered, ck_entered, if_neg (by omega), if_pos]
  exact List.any_eq_true.mpr ⟨j, List.mem_range.mpr hj, by rw [hbit, decide_eq_true hle]; rfl⟩
theorem testc_raises {s : State} {st : BitVec 2} {d a b : BitVec 7} {t : TrapReq}
    (ht : chunkTrap (entered (info (.testc st d a b)) s) a b = some t) : Raises (.testc st d a b) s t := by
  intro h
  rw [exec_testc, execTestc]
  refine issue_trap h ?_
  rw [ht]
theorem waitc_raises {s : State} {st : BitVec 2} {a b : BitVec 7} {t : TrapReq}
    (ht : chunkTrap (entered (info (.waitc st a b)) s) a b = some t) : Raises (.waitc st a b) s t := by
  intro h
  rw [exec_waitc, execWaitc]
  refine issue_trap h ?_
  rw [ht]

/-! ### The statements -/

theorem copyWord_exec {s : State} {i : Instr} {kind : Nat} {st : BitVec 2} {d : BitVec 7} {a k f : BitVec 4}
    (hi : i = .cpy st d a k f ∧ kind = 0 ∨ i = .cpyg st d a k f ∧ kind = 1 ∨ i = .cpyr st d a k f ∧ kind = 2 ∨
      i = .cpya st d a k f ∧ kind = 3) : exec i s = copyCommand i kind d a k f s := by
  rcases hi with ⟨rfl, rfl⟩ | ⟨rfl, rfl⟩ | ⟨rfl, rfl⟩ | ⟨rfl, rfl⟩ <;> rfl
theorem matrixWord_exec {s : State} {i : Instr} {kind : Nat} {st : BitVec 2} {d : BitVec 7} {a k f : BitVec 4}
    (hi : i = .mma st d a k f ∧ kind = 0 ∨ i = .mmai st d a k f ∧ kind = 1 ∨ i = .ldst st d a k f ∧ kind = 2 ∨
      i = .accz st d a k f ∧ kind = 3 ∨ i = .accrd st d a k f ∧ kind = 4 ∨ i = .accwr st d a k f ∧ kind = 5 ∨
      i = .sacct st d a k f ∧ kind = 6) : exec i s = matrixCommand i kind d a k f s := by
  rcases hi with ⟨rfl, rfl⟩ | ⟨rfl, rfl⟩ | ⟨rfl, rfl⟩ | ⟨rfl, rfl⟩ | ⟨rfl, rfl⟩ | ⟨rfl, rfl⟩ | ⟨rfl, rfl⟩ <;> rfl

theorem commandWords_hold : Statements.CommandWords := by
  intro s st d a k f i kind img xs cx mx ce me
  refine ⟨fun hi h hok => ?_, fun hi h hfull hok hslot => ?_⟩
  · exact (copyWord_exec hi).trans (copyCommand_joins h hok)
  · exact (matrixWord_exec hi).trans (matrixCommand_joins h hfull hok hslot)

theorem commandTraps_hold : Statements.CommandTraps := by
  intro s st d e a k f i kind n c t img cx mx me tx slot q raised x new mine
  refine ⟨fun hi h hbad => ?_, fun hi h => ⟨fun hkind hfull => ?_, fun hfull hbad => ?_, fun hfull hok hroom hslot herr => ?_⟩,
    fun h hnew hahead hn hslot hfirst herr => ?_,
    fun h hback hdone hc hmine herr hleast => ?_, fun h hback hdone hsorted hc hn herr hfirst => ?_,
    fun z hx => testc_raises (chunkTrap_align hx),
    fun z hx hout => ⟨testc_raises (chunkTrap_bound hx hout), waitc_raises (chunkTrap_bound hx hout)⟩⟩
  · exact (copyWord_exec hi).trans (copyCommand_malformed h hbad)
  · exact (matrixWord_exec hi).trans (matrixCommand_illconv h hkind hfull)
  · exact (matrixWord_exec hi).trans (matrixCommand_malformed h hfull hbad)
  · exact (matrixWord_exec hi).trans (matrixCommand_slotError (c := c) h hfull hok hslot herr hroom)
  · have hcount := (tailCount_entered tx s true x).trans (tailCount_some (m := true) hnew hahead)
    exact (exec_tailp_matrix st d s).trans (issue_trapIn h (publishTail_raises hcount hn hslot hfirst herr))
  · exact waitb_raises h hback hdone hc hmine herr hleast
  · exact waitm_raises h hback hdone hsorted hc hn herr hfirst

/-- Settles O36. -/
theorem commandWords : Obligations.CommandWords := ⟨commandWords_hold, commandTraps_hold⟩

end Sys2Proof.Machine
end

