-- ==== Sys2Proof/Proofs/Reading.lean ====
section
/-!
PROOFS. Proofs/Reading.lean: what reading leaves (R234 to R240): of the group that reads, what it has observed and its open loads; of any
group, which of its stores count as read. The stores themselves stay, and nothing else changes.
-/
namespace Sys2Proof.Machine

/-- Group g with what reading may change as group y has it. -/
def listened (g y : Group) : Group :=
  { g with view := y.view, heard := y.heard, heardTop := y.heardTop, heardDone := y.heardDone, loads := y.loads, stores := y.stores }
/-- The second state comes from the first by reads of group r. -/
structure Listens (r : Nat) (s t : State) : Prop where
  rest : GroupsOnly s t
  reader : grpOf t r = listened (grpOf s r) (grpOf t r)
  other : ∀ g, g ≠ r → grpOf t g = { grpOf s g with stores := (grpOf t g).stores }
  cells : ∀ g, (grpOf t g).stores.map storeCell = (grpOf s g).stores.map storeCell

theorem Listens.refl (r : Nat) (s : State) : Listens r s s := ⟨GroupsOnly.refl s, rfl, fun _ _ => rfl, fun _ => rfl⟩
theorem Listens.trans {r : Nat} {s t u : State} (h : Listens r s t) (k : Listens r t u) : Listens r s u where
  rest := h.rest.trans k.rest
  reader := by
    rw [k.reader, h.reader]
    rfl
  other g hg := by
    rw [k.other g hg, h.other g hg]
  cells g := (k.cells g).trans (h.cells g)
theorem Listens.foldl {α : Type} {r : Nat} {f : State → α → State} (hf : ∀ s a, Listens r s (f s a)) (l : List α) :
    ∀ s, Listens r s (l.foldl f s) := by
  induction l with
  | nil => exact Listens.refl r
  | cons a l ih => exact fun s => (hf s a).trans (ih _)
theorem Listens.spill {r : Nat} {s t : State} (h : Listens r s t) (g : Nat) : (grpOf t g).spill = (grpOf s g).spill := by
  by_cases hg : g = r
  · rw [hg]
    exact (congrArg Group.spill h.reader :)
  · exact (congrArg Group.spill (h.other g hg) :)

/-! ### Marks on stores -/

theorem map_markPeeked (g : Nat) (sel : PendStore → Bool) (l : List PendStore) : (markPeeked g sel l).map storeCell = l.map storeCell := by
  rw [markPeeked, List.map_map]
  refine List.map_congr_left fun p _ => ?_
  dsimp only [Function.comp]
  split <;> rfl
theorem map_peekStore (g i : Nat) (l : List PendStore) : (peekStore g i l).map storeCell = l.map storeCell := by
  unfold peekStore
  split
  · rfl
  · rw [List.map_append, map_markPeeked, ← List.map_append, List.take_append_drop]

/-! ### One read -/

/-- Reading changes a group itself as Listens says. -/
theorem listens_setGrp {s : State} {r : Nat} {y : Group} (h : y = listened (grpOf s r) y)
    (hc : y.stores.map storeCell = (grpOf s r).stores.map storeCell) : Listens r s (setGrp s r y) where
  rest := groupsOnly_setGrp s r y
  reader := by
    rw [grpOf_setGrp]
    exact h
  other g hg := by rw [grpOf_setGrp_other _ _ hg]
  cells g := by
    by_cases hg : g = r
    · rw [hg, grpOf_setGrp]
      exact hc
    · rw [grpOf_setGrp_other _ _ hg]
/-- New marks on the stores of a group. -/
theorem listens_marks {r : Nat} (s : State) (h : Nat) {l : List PendStore}
    (hc : l.map storeCell = (grpOf s h).stores.map storeCell) : Listens r s (setGrp s h { grpOf s h with stores := l }) where
  rest := groupsOnly_setGrp s h _
  reader := by
    by_cases hr : r = h
    · rw [hr, grpOf_setGrp]
      rfl
    · rw [grpOf_setGrp_other _ _ hr]
      rfl
  other g _ := by
    by_cases hg : g = h
    · rw [hg, grpOf_setGrp]
    · rw [grpOf_setGrp_other _ _ hg]
  cells g := by
    by_cases hg : g = h
    · rw [hg, grpOf_setGrp]
      exact hc
    · rw [grpOf_setGrp_other _ _ hg]
theorem listens_peekBefore {r : Nat} (s : State) (h : Nat) (n : MemName) (a len : Nat) : Listens r s (peekBefore s r h n a len) where
  rest := rfl
  reader := by
    rw [grpOf_peekBefore]
    rfl
  other g _ := by rw [grpOf_peekBefore]
  cells g := by
    rw [grpOf_peekBefore]
    exact map_markPeeked _ _ _
theorem closedBy_listened (s : State) (g : Nat) (n : MemName) (a len : Nat) :
    closedBy s g n a len = listened (grpOf s g) (closedBy s g n a len) ∧ (closedBy s g n a len).stores = (grpOf s g).stores := by
  unfold closedBy
  dsimp only
  split <;> exact ⟨rfl, rfl⟩
theorem listened_trans {x y z : Group} (h : y = listened x y) (k : z = listened y z) : z = listened x z := by
  rw [k, h]
  rfl
theorem listens_noteRead (s : State) (r : Nat) (n : MemName) (a len : Nat) (x : Sight) : Listens r s (noteRead s r n a len x) := by
  obtain ⟨hclosed, hstores⟩ := closedBy_listened s r n a len
  cases x with
  | newest =>
    rw [noteRead_newest]
    refine listens_setGrp (listened_trans hclosed rfl) ?_
    rw [map_markPeeked, hstores]
  | cut k =>
    rw [noteRead_cut]
    refine listens_setGrp (listened_trans hclosed rfl) ?_
    exact congrArg (List.map storeCell) hstores
  | peek h i =>
    rw [noteRead_peek]
    have hmarked := listens_peekBefore (r := r) s h n a len
    have hpeeked : Listens r s (setGrp (peekBefore s r h n a len) r
        { hearWrites (closedBy s r n a len) s.log.length a len (hits n a len s.log) with
          heard := Map.put (hearWrites (closedBy s r n a len) s.log.length a len (hits n a len s.log)).heard h (s.log.length + 1) }) := by
      refine hmarked.trans (listens_setGrp ?_ ?_)
      · rw [grpOf_peekBefore]
        exact listened_trans hclosed rfl
      · rw [hmarked.cells]
        exact congrArg (List.map storeCell) hstores
    by_cases hrh : h = r
    · rw [hrh] at hpeeked hmarked ⊢
      simp only [setGrp, put_put]
      refine hmarked.trans (listens_marks _ r ?_)
      exact map_peekStore _ _ _
    · rw [← grpOf_setGrp_other (peekBefore s r h n a len) _ hrh]
      exact hpeeked.trans (listens_marks _ h (map_peekStore _ _ _))

/-- Bytes at their home, where only groups changed, and none of them its spill memory. -/
theorem homeByte_groupsOnly {s t : State} (h : GroupsOnly s t) (hspill : ∀ g, (grpOf t g).spill = (grpOf s g).spill) (n : MemName) (a : Nat) :
    homeByte t n a = homeByte s n a := by
  have hblk (b : Nat) : blkOf t b = blkOf s b := congrArg (fun l => Map.look l b ({} : Block)) h.blocks
  refine homeByte_congr ?_ (fun b => by rw [hblk]) (fun b => by rw [hblk]) a
  cases n with
  | spill g => exact hspill g
  | win b => exact congrArg Block.win (hblk b)
  | ring b => exact congrArg Block.ringMem (hblk b)
  | slot b => exact congrArg Block.slots (hblk b)
  | die k => exact congrArg (fun l => Map.look l k ([] : Memory)) (congrArg State.die h :)
  | dev => exact (congrArg State.dev h :)
  | host => exact (congrArg State.host h :)
  | table c => rfl
theorem Listens.homeByte {r : Nat} {s t : State} (h : Listens r s t) (n : MemName) (a : Nat) : homeByte t n a = homeByte s n a :=
  homeByte_groupsOnly h.rest h.spill n a

end Sys2Proof.Machine
end

