-- ==== Sys2Proof/Proofs/Accesses.lean ====
section
/-!
PROOFS. Proofs/Accesses.lean: where an access of a word lands, its first trap, and the checks before it goes on (R212 to R219, R126).
-/
namespace Sys2Proof.Machine

/-! ### Where an access lands on entry -/

theorem gangOf_entered (i : Info) (s : State) (g : Nat) : gangOf (entered i s) g = gangOf s g := by
  rw [entered_eq]
  rfl
theorem blkPlace_entered (i : Info) (s : State) (u : Use) (a n : Nat) : blkPlace (entered i s) u a n = blkPlace s u a n := by
  unfold blkPlace
  rw [winLoc_entered]
theorem cluPlace_entered (i : Info) (s : State) (a n : Nat) : cluPlace (entered i s) a n = cluPlace s a n := by
  unfold cluPlace
  simp only [ck_entered, cb_entered, gangOf_entered, blkOf_entered]
theorem diePlace_entered (i : Info) (s : State) (a n : Nat) : diePlace (entered i s) a n = diePlace s a n := by
  unfold diePlace
  rw [cb_entered, entered_eq]
  rfl
theorem spillPlace_entered (i : Info) (s : State) (t a n : Nat) : spillPlace (entered i s) t a n = spillPlace s t a n := by
  unfold spillPlace
  rw [ck_entered, width_entered, cur_entered]
theorem placeOf_entered (i : Info) (s : State) (sp : Space) (u : Use) (t a n : Nat) :
    placeOf (entered i s) sp u t a n = placeOf s sp u t a n := by
  cases sp with
  | blk => exact blkPlace_entered i s u a n
  | clu => exact cluPlace_entered i s a n
  | die => exact diePlace_entered i s a n
  | spill => exact spillPlace_entered i s t a n
  | const => simp only [placeOf, ck_entered]

theorem eccAt_entered (i : Info) (s : State) (l : List PendStore) (m : MemName) (a n : Nat) :
    eccAt (entered i s) l m a n = eccAt s l m a n := by
  rw [entered_eq]
  rfl
theorem eccPlace_entered (i : Info) (s : State) (n : Nat) (p : Place) : eccPlace (entered i s) n p = eccPlace s n p := by
  match p with
  | .at m a => simp only [eccPlace, stores_cg_entered, eccAt_entered]
  | .bank a => rfl
  | .bad t => rfl
theorem accessTrap_entered (i : Info) (s : State) (sp : Space) (u : Use) (n : Nat) (es : List (Nat × Nat)) :
    accessTrap (entered i s) sp u n es = accessTrap s sp u n es := by
  unfold accessTrap
  simp only [placeOf_entered, eccPlace_entered]
theorem awaitsCommit_entered (i : Info) (s : State) (sp : Space) (u : Use) (es : List (Nat × Nat)) :
    awaitsCommit (entered i s) sp u es = awaitsCommit s sp u es := by
  have hblk : (cg (entered i s)).blk = (cg s).blk := (congrArg Group.blk (repathed_entered i s) :)
  have hheld (m : MemName) : heldIn (entered i s) (cg s).blk m = heldIn s (cg s).blk m := by
    rw [entered_eq]
    rfl
  unfold awaitsCommit
  simp only [cb_entered, cluPlace_entered, hblk, hheld]
theorem accesses_entered (i : Info) (s : State) (f : Nat → Nat) : accesses (entered i s) f = accesses s f := by
  rw [accesses, width_entered, emask_entered, accesses]
/-- The address of each thread's access: the address register, with the offset of n bytes a step added. -/
def threadAddr (s : State) (a : BitVec 7) (o : BitVec 8) (n t : Nat) : Nat := ((laneReg s a.toNat t).toNat + n * o.toNat) % 2 ^ 32
theorem laneAddr_entered (i : Info) (s : State) (a : BitVec 7) (o : BitVec 8) (n : Nat) :
    laneAddr (entered i s) a o n = threadAddr s a o n := by
  funext t
  rw [laneAddr, rv_entered, threadAddr]
theorem uniAddr_entered (i : Info) (s : State) (a : BitVec 7) (o : BitVec 8) :
    uniAddr (entered i s) a o = ((uniReg s a.toNat).toNat + 4 * o.toNat) % 2 ^ 32 := by
  rw [uniAddr, rs_entered]

/-! ### The first trap over the active threads (R212) -/

theorem mem_accesses {s : State} {f : Nat → Nat} {e : Nat × Nat} (h : e ∈ accesses s f) :
    bitOf (emask s) e.1 = true ∧ e = (e.1, f e.1) := by
  obtain ⟨t, ht, rfl⟩ := List.mem_map.mp h
  exact ⟨(List.mem_filter.mp ht).2, rfl⟩
theorem trapOn_none {s : State} {f : Nat → Nat} {c : TrapCode} {p : Nat × Nat → Bool}
    (h : ∀ t, bitOf (emask s) t = true → p (t, f t) = false) : trapOn c ((accesses s f).filter p) = none := by
  have hnil : (accesses s f).filter p = [] := List.filter_eq_nil_iff.mpr fun e he => by
    obtain ⟨hact, heq⟩ := mem_accesses he
    rw [heq, h e.1 hact]
    decide
  rw [hnil]
  rfl
theorem trapOn_lowest {s : State} {f : Nat → Nat} {c : TrapCode} {p : Nat × Nat → Bool} {cause : Nat → Prop} {lo : Nat} {ths : Mask}
    (hp : ∀ t, p (t, f t) = true ↔ cause t)
    (hlow : bitOf (emask s) lo = true ∧ cause lo ∧ ∀ t, bitOf (emask s) t = true → cause t → lo ≤ t)
    (hths : ∀ t, bitOf ths t = true ↔ bitOf (emask s) t = true ∧ cause t) :
    trapOn c ((accesses s f).filter p) = some { code := c, addr := BitVec.ofNat 64 (f lo), threads := some ths } := by
  obtain ⟨hact, hcause, hleast⟩ := hlow
  have hmap : (accesses s f).filter p =
      ((threadsOf (cg s).width (emask s)).filter fun t => p (t, f t)).map fun t => (t, f t) := List.filter_map
  have hhead : ((threadsOf (cg s).width (emask s)).filter fun t => p (t, f t)).head? = some lo := by
    rw [List.head?_filter]
    refine find?_threadsOf_eq_some.mpr ⟨(active_lt hact).1, hact, (hp lo).mpr hcause, fun v hv hvact => ?_⟩
    exact Bool.eq_false_iff.mpr fun hpv => Nat.not_le.mpr hv (hleast v hvact ((hp v).mp hpv))
  obtain ⟨l, hl⟩ := List.head?_eq_some_iff.mp hhead
  have hmask : maskOf (lo :: l) = ths := by
    refine mask_ext fun t => Bool.eq_iff_iff.mpr ?_
    rw [bitOf_maskOf, hths, Bool.and_eq_true, decide_eq_true_eq, List.contains_iff_mem, ← hl, List.mem_filter, hp]
    constructor
    · rintro ⟨-, hmem, hc⟩
      exact ⟨(List.mem_filter.mp hmem).2, hc⟩
    · rintro ⟨ht, hc⟩
      exact ⟨(active_lt ht).2, List.mem_filter.mpr ⟨List.mem_range.mpr (active_lt ht).1, ht⟩, hc⟩
  have hfst : (l.map fun t => (t, f t)).map Prod.fst = l := by
    rw [List.map_map]
    exact List.map_id l
  rw [hmap, hl, List.map_cons, trapOn, hfst, hmask]

/-- The first trap over a list of accesses in an order of codes, where p says which accesses have cause for one. -/
def firstOn (p : TrapCode → Nat × Nat → Bool) (es : List (Nat × Nat)) : List TrapCode → Option TrapReq
  | [] => none
  | c :: cs => (trapOn c (es.filter (p c))).or (firstOn p es cs)
theorem firstOn_none {s : State} {f : Nat → Nat} {p : TrapCode → Nat × Nat → Bool}
    (h : ∀ c t, bitOf (emask s) t = true → p c (t, f t) = false) (order : List TrapCode) : firstOn p (accesses s f) order = none := by
  induction order with
  | nil => rfl
  | cons c cs ih => rw [firstOn, trapOn_none (h c), ih, Option.none_or]
theorem firstOn_first {s : State} {f : Nat → Nat} {p : TrapCode → Nat × Nat → Bool} {cause : TrapCode → Nat → Prop}
    {order : List TrapCode} {c : TrapCode} {lo : Nat} {ths : Mask} (hp : ∀ b t, p b (t, f t) = true ↔ cause b t)
    (h : FirstTrap s order cause c lo ths) :
    firstOn p (accesses s f) order = some { code := c, addr := BitVec.ofNat 64 (f lo), threads := some ths } := by
  obtain ⟨⟨l, r, rfl, hnone⟩, hlow, hths⟩ := h
  induction l with
  | nil => rw [List.nil_append, firstOn, trapOn_lowest (hp c) hlow hths, Option.some_or]
  | cons b l ih =>
    have hb : trapOn b ((accesses s f).filter (p b)) = none := trapOn_none fun t ht =>
      Bool.eq_false_iff.mpr fun hpb => hnone b List.mem_cons_self t ht ((hp b t).mp hpb)
    rw [List.cons_append, firstOn, hb, Option.none_or]
    exact ih fun x hx => hnone x (List.mem_cons_of_mem b hx)

/-- Whether an access has cause for a trap. -/
def accessFault (s : State) (sp : Space) (u : Use) (n : Nat) (c : TrapCode) (e : Nat × Nat) : Bool :=
  match c with
  | .prot => placeOf s sp u e.1 e.2 n == .bad .prot
  | .bound => placeOf s sp u e.1 e.2 n == .bad .bound
  | .align => e.2 % n != 0
  | .ecc => u != .store && eccPlace s n (placeOf s sp u e.1 e.2 n)
  | _ => false
theorem eccPlace_iff {s : State} {n : Nat} {p : Place} :
    eccPlace s n p = true ↔ ∃ m a, p = .at m a ∧ eccAt s (cg s).stores m a n = true := by
  match p with
  | .at m a =>
    refine ⟨fun h => ⟨m, a, rfl, h⟩, ?_⟩
    rintro ⟨_, _, ⟨⟩, h⟩
    exact h
  | .bank a => simp [eccPlace]
  | .bad t => simp [eccPlace]
theorem accessFault_iff (s : State) (sp : Space) (u : Use) (n : Nat) (f : Nat → Nat) (c : TrapCode) (t : Nat) :
    accessFault s sp u n c (t, f t) = true ↔ accessCause s sp u n f c t := by
  unfold accessFault accessCause
  cases c <;> simp [eccPlace_iff]
theorem accessTrap_firstOn (s : State) (sp : Space) (u : Use) (n : Nat) (es : List (Nat × Nat)) :
    accessTrap s sp u n es = firstOn (accessFault s sp u n) es [.prot, .bound, .align, .ecc] := by
  simp only [firstOn, Option.or_none]
  rfl
theorem accessTrap_first {s : State} {sp : Space} {u : Use} {n : Nat} {f : Nat → Nat} {c : TrapCode} {lo : Nat} {ths : Mask}
    (h : FirstTrap s [.prot, .bound, .align, .ecc] (accessCause s sp u n f) c lo ths) :
    accessTrap s sp u n (accesses s f) = some { code := c, addr := BitVec.ofNat 64 (f lo), threads := some ths } := by
  rw [accessTrap_firstOn]
  exact firstOn_first (accessFault_iff s sp u n f) h
theorem accessTrap_none {s : State} {sp : Space} {u : Use} {n : Nat} {f : Nat → Nat} (h : MayAccess s sp u n f) :
    accessTrap s sp u n (accesses s f) = none := by
  rw [accessTrap_firstOn]
  refine firstOn_none (fun c t ht => Bool.eq_false_iff.mpr fun hc => ?_) _
  rcases (accessFault_iff s sp u n f c t).mp hc with ⟨-, hbad⟩ | ⟨-, hbad⟩ | ⟨-, hal⟩ | ⟨-, hu, m, a, hat, hecc⟩
  · exact h.place t ht _ hbad
  · exact h.place t ht _ hbad
  · exact hal (h.aligned t ht)
  · exact absurd ((h.sound t ht hu m a hat).symm.trans hecc) (by decide)

/-! ### A word's checks -/

theorem checked_trap {s : State} {sp : Space} {u : Use} {n : Nat} {f : Nat → Nat} {c : TrapCode} {lo : Nat} {ths : Mask}
    (h : FirstTrap s [.prot, .bound, .align, .ecc] (accessCause s sp u n f) c lo ths) (i : Info) (go : State → Act) :
    checked (entered i s) sp u n (accesses s f) go = .trap { code := c, addr := BitVec.ofNat 64 (f lo), threads := some ths } := by
  unfold checked
  rw [accessTrap_entered, accessTrap_first h]
theorem checked_go {s : State} {sp : Space} {u : Use} {n : Nat} {f : Nat → Nat} (h : MayAccess s sp u n f) (i : Info) (go : State → Act) :
    checked (entered i s) sp u n (accesses s f) go = go (entered i s) := by
  unfold checked
  rw [accessTrap_entered, accessTrap_none h, awaitsCommit_entered, h.committed]

/-- A word that checks its accesses raises their first trap. -/
theorem raises_of_checked {ins : Instr} {s : State} {sp : Space} {u : Use} {n : Nat} {f g : Nat → Nat} {act : State → Act}
    {c : TrapCode} {lo : Nat} {ths : Mask} (he : exec ins s = issue (info ins) s act)
    (ha : ∃ go, act (entered (info ins) s) = checked (entered (info ins) s) sp u n (accesses (entered (info ins) s) g) go) (hg : g = f)
    (h : FirstTrap s [.prot, .bound, .align, .ecc] (accessCause s sp u n f) c lo ths) :
    Raises ins s { code := c, addr := BitVec.ofNat 64 (f lo), threads := some ths } := fun hm => by
  obtain ⟨go, ha⟩ := ha
  rw [hg, accesses_entered] at ha
  exact he.trans (issue_trap hm (ha.trans (checked_trap h _ go)))

end Sys2Proof.Machine
end

