-- ==== Sys2Proof/Proofs/Atomics.lean ====
section
/-!
PROOFS. Proofs/Atomics.lean: the first trap of an access (R187, R212 to R222), and ATOM and CAS at the home of their words (R223 to R225).
-/
namespace Sys2Proof.Machine

/-! ### Traps of loads and stores -/

section
variable {ins : Instr} {s : State} {sp : Space} {a : BitVec 7} {o : BitVec 8} {n : Nat} {c : TrapCode} {lo : Nat} {ths : Mask}

theorem laneLoad_checked (s : State) (sp : Space) (d a : BitVec 7) (o : BitVec 8) :
    ∃ go, laneLoad s sp d a o = checked s sp .load 4 (accesses s (laneAddr s a o 4)) go := by
  unfold laneLoad
  exact ⟨_, rfl⟩
theorem laneStore_checked (s : State) (sp : Space) (n : Nat) (a : BitVec 7) (o : BitVec 8) (val : Nat → List Byte) :
    ∃ go, laneStore s sp n a o val = checked s sp .store n (accesses s (laneAddr s a o n)) go := by
  unfold laneStore
  exact ⟨_, rfl⟩
theorem raises_of_laneLoad {d : BitVec 7} (he : exec ins s = issue (info ins) s fun s => laneLoad s sp d a o)
    (h : FirstTrap s [.prot, .bound, .align, .ecc]
      (accessCause s sp .load 4 (threadAddr s a o 4)) c lo ths) :
    Raises ins s { code := c, addr := BitVec.ofNat 64 (threadAddr s a o 4 lo), threads := some ths } :=
  raises_of_checked he (laneLoad_checked _ sp d a o) (laneAddr_entered _ s a o 4) h
theorem raises_of_laneStore {val : State → Nat → List Byte} (he : exec ins s = issue (info ins) s fun s => laneStore s sp n a o (val s))
    (h : FirstTrap s [.prot, .bound, .align, .ecc] (accessCause s sp .store n (threadAddr s a o n)) c lo ths) :
    Raises ins s { code := c, addr := BitVec.ofNat 64 (threadAddr s a o n lo), threads := some ths } :=
  raises_of_checked he (laneStore_checked _ sp n a o _) (laneAddr_entered _ s a o n) h
end

theorem lds64_raises {s : State} {st : BitVec 2} {d a : BitVec 7} {o : BitVec 8} {c : TrapCode} {lo : Nat} {ths : Mask}
    (h : FirstTrap s [.prot, .bound, .align, .ecc] (accessCause s .blk .load 8 (threadAddr s a o 8)) c lo ths) :
    Raises (.lds64 st d a o) s { code := c, addr := BitVec.ofNat 64 (threadAddr s a o 8 lo), threads := some ths } :=
  raises_of_checked (exec_lds64 st d a o s) ⟨_, rfl⟩ (laneAddr_entered _ s a o 8) h

/-! ### Traps of uniform accesses -/

section
variable {s : State} {st : BitVec 2} {d a : BitVec 7} {o : BitVec 8}

theorem sldc_align (h : ((uniReg s a.toNat).toNat + 4 * o.toNat) % 2 ^ 32 % 4 ≠ 0) :
    Raises (.sldc st d a o) s { code := .align, addr := BitVec.ofNat 64 (((uniReg s a.toNat).toNat + 4 * o.toNat) % 2 ^ 32) } := by
  intro hm
  refine (exec_sldc st d a o s).trans (issue_trap hm ?_)
  dsimp only
  rw [uniAddr_entered, if_pos h]
theorem sldc_bound (h : ((uniReg s a.toNat).toNat + 4 * o.toNat) % 2 ^ 32 % 4 = 0)
    (hout : (ck s).hdr.constlen < ((uniReg s a.toNat).toNat + 4 * o.toNat) % 2 ^ 32 + 4) :
    Raises (.sldc st d a o) s { code := .bound, addr := BitVec.ofNat 64 (((uniReg s a.toNat).toNat + 4 * o.toNat) % 2 ^ 32) } := by
  intro hm
  refine (exec_sldc st d a o s).trans (issue_trap hm ?_)
  dsimp only
  rw [uniAddr_entered, ck_entered, if_neg (not_not_intro h), if_pos hout]
end

theorem uniTrap_entered (i : Info) (s : State) (u : Use) (x : Nat) : uniTrap (entered i s) u x = uniTrap s u x := by
  unfold uniTrap
  simp only [blkPlace_entered, eccPlace_entered]
theorem uniTrap_bad {s : State} {u : Use} {x : Nat} {c : TrapCode} (h : blkPlace s u x 4 = .bad c) :
    uniTrap s u x = some { code := c, addr := BitVec.ofNat 64 x } := by
  unfold uniTrap
  rw [h]
theorem uniTrap_align {s : State} {u : Use} {x : Nat} (h : ∀ c, blkPlace s u x 4 ≠ .bad c) (hx : x % 4 ≠ 0) :
    uniTrap s u x = some { code := .align, addr := BitVec.ofNat 64 x } := by
  unfold uniTrap
  split
  next c hc => exact absurd hc (h c)
  next => rw [if_pos hx]
theorem uniTrap_ecc {s : State} {x y : Nat} {m : MemName} (h : blkPlace s .load x 4 = .at m y) (hx : x % 4 = 0)
    (hecc : eccAt s (cg s).stores m y 4 = true) : uniTrap s .load x = some { code := .ecc, addr := BitVec.ofNat 64 x } := by
  unfold uniTrap
  rw [h]
  dsimp only
  rw [if_neg (not_not_intro hx), if_pos]
  exact hecc
/-- A uniform access to the block window whose place is a memory, aligned and without an error, raises nothing. -/
theorem uniTrap_none {s : State} {u : Use} {x y : Nat} {m : MemName} (h : blkPlace s u x 4 = .at m y) (hx : x % 4 = 0)
    (hecc : u = .load → eccAt s (cg s).stores m y 4 = false) : uniTrap s u x = none := by
  unfold uniTrap
  rw [h]
  dsimp only
  rw [if_neg (not_not_intro hx), if_neg]
  intro hc
  obtain ⟨hu, he⟩ := Bool.and_eq_true_iff.mp hc
  exact absurd ((hecc (eq_of_beq hu)).symm.trans he) (by decide)
theorem slds_raises {s : State} {st : BitVec 2} {d a : BitVec 7} {o : BitVec 8} {t : TrapReq}
    (h : uniTrap s .load (((uniReg s a.toNat).toNat + 4 * o.toNat) % 2 ^ 32) = some t) : Raises (.slds st d a o) s t := by
  intro hm
  refine (exec_slds st d a o s).trans (issue_trap hm ?_)
  rw [uniAddr_entered, uniTrap_entered, h]
theorem ssts_raises {s : State} {st : BitVec 2} {d a : BitVec 7} {o : BitVec 8} {t : TrapReq}
    (h : uniTrap s .store (((uniReg s a.toNat).toNat + 4 * o.toNat) % 2 ^ 32) = some t) : Raises (.ssts st d a o) s t := by
  intro hm
  refine (exec_ssts st d a o s).trans (issue_trap hm ?_)
  rw [uniAddr_entered, uniTrap_entered, h]

/-! ### ATOM and CAS -/

theorem passNow_entered (i : Info) (s : State) : passNow (entered i s) = passNow s := by
  unfold passNow
  rw [wait_cp_entered]
theorem atomic_trap {i : Info} {s : State} {a : BitVec 7} {p : BitVec 2} {c : TrapCode} {lo : Nat} {ths : Mask}
    (hpass : passNow s = none)
    (h : FirstTrap s [.prot, .bound, .align, .ecc] (accessCause s (atomSpace p) .atomic 4 fun t => (laneReg s a.toNat t).toNat) c lo ths)
    (new : Nat → Word → Option Word) (fin : State → (Nat → Word) → Act) :
    atomic (entered i s) a p new fin =
      .trap { code := c, addr := BitVec.ofNat 64 (laneReg s a.toNat lo).toNat, threads := some ths } := by
  unfold atomic
  rw [passNow_entered, hpass, Option.isSome_none, if_neg Bool.false_ne_true, accesses_entered]
  simp only [rv_entered]
  exact checked_trap h i _

/-- Pass n of an ATOM or CAS, and what comes after it: the next pass, or completion with the words read. -/
def passesAt (n : Nat) (s : State) (sp : Space) (es : List (Nat × Nat)) (new : Nat → Word → Option Word)
    (fin : State → (Nat → Word) → Act) : Act :=
  let s := (es.filter fun e => e.1 / 32 == n).foldl (atomStep sp new) s
  match es.find? fun e => decide (n < e.1 / 32) with
  | some e => .wait (turnAgain s) (.pass (e.1 / 32))
  | none => fin (setCg s { cg s with olds := [] }) fun t => Map.look (cg s).olds t 0
theorem atomPasses_eq (s : State) (sp : Space) (es : List (Nat × Nat)) (new : Nat → Word → Option Word) (fin : State → (Nat → Word) → Act) :
    atomPasses s sp es new fin = passesAt ((passNow s).getD (((es.map fun e => e.1 / 32).head?).getD 0)) s sp es new fin := rfl
/-- The active threads with the addresses of their words. -/
def atomWords (s : State) (a : BitVec 7) : List (Nat × Nat) := accesses s fun t => (laneReg s a.toNat t).toNat
/-- Pass n is the one the word has come to: one under way, or the first, past the word's checks. -/
def PassIs (s : State) (sp : Space) (a : BitVec 7) (n : Nat) : Prop :=
  passNow s = some n ∨ passNow s = none ∧ MayAccess s sp .atomic 4 (fun t => (laneReg s a.toNat t).toNat) ∧
    ∀ e l, atomWords s a = e :: l → e.1 / 32 = n
theorem atomic_passesAt {i : Info} {s : State} {a : BitVec 7} {p : BitVec 2} {n : Nat} (hn : PassIs s (atomSpace p) a n)
    (new : Nat → Word → Option Word) (fin : State → (Nat → Word) → Act) :
    atomic (entered i s) a p new fin = passesAt n (entered i s) (atomSpace p) (atomWords s a) new fin := by
  unfold atomic
  rw [passNow_entered, accesses_entered]
  simp only [rv_entered, atomPasses_eq, passNow_entered]
  rcases hn with hnow | ⟨hnow, hmay, hfirst⟩
  · rw [hnow, Option.isSome_some, if_pos rfl, Option.getD_some]
    rfl
  · rw [hnow, Option.isSome_none, if_neg Bool.false_ne_true, checked_go hmay, passNow_entered, hnow, Option.getD_none]
    change passesAt ((((atomWords s a).map fun e => e.1 / 32).head?).getD 0) _ _ (atomWords s a) new fin = _
    cases hes : atomWords s a with
    | nil => rfl
    | cons e l =>
      rw [List.map_cons, List.head?_cons, Option.getD_some, hfirst e l hes]

section
variable {s e : State} {sp : Space} {n : Nat} {es : List (Nat × Nat)} {new : Nat → Word → Option Word} {fin : State → (Nat → Word) → Act}

theorem passesAt_last (h : ∀ e ∈ es, e.1 / 32 ≤ n) :
    passesAt n s sp es new fin =
      let e := (es.filter fun e => e.1 / 32 == n).foldl (atomStep sp new) s
      fin (setCg e { cg e with olds := [] }) fun t => Map.look (cg e).olds t 0 := by
  have hnone : (es.find? fun e => decide (n < e.1 / 32)) = none := List.find?_eq_none.mpr fun e he => by
    have hle := h e he
    simp only [decide_eq_true_eq, Nat.not_lt]
    exact hle
  unfold passesAt
  rw [hnone]
theorem passesAt_next {x : Nat × Nat} (h : (es.find? fun e => decide (n < e.1 / 32)) = some x) :
    passesAt n s sp es new fin = .wait (turnAgain ((es.filter fun e => e.1 / 32 == n).foldl (atomStep sp new) s)) (.pass (x.1 / 32)) := by
  unfold passesAt
  rw [h]
end

/-! ### One thread's step at the home -/

theorem mem_put {α : Type} {m : Map α} {k : Nat} {v : α} {e : Nat × α} (h : e ∈ Map.put m k v) : e = (k, v) ∨ e ∈ m := by
  induction m with
  | nil => exact Or.inl (List.mem_singleton.mp h)
  | cons x m ih =>
    unfold Map.put at h
    split at h
    · rcases List.mem_cons.mp h with rfl | h
      · exact Or.inl rfl
      · exact Or.inr h
    · split at h
      · rcases List.mem_cons.mp h with rfl | h
        · exact Or.inl rfl
        · exact Or.inr (List.mem_cons_of_mem x h)
      · rcases List.mem_cons.mp h with rfl | h
        · exact Or.inr List.mem_cons_self
        · exact (ih h).imp id (List.mem_cons_of_mem x)
theorem winLoc_win {s : State} {a n y : Nat} {m : MemName} (h : winLoc s a n = some (m, y)) (hring : overlaps a n ringBase (ringBase + ringBytes) = false)
    (hn : 0 < n) : ∃ b, m = .win b := by
  unfold winLoc at h
  dsimp only at h
  split at h
  · exact ⟨(cg s).blk, (Prod.mk.inj (Option.some.inj h)).1.symm⟩
  · split at h
    next hin =>
      have hmeet : overlaps a n ringBase (ringBase + ringBytes) = true := by
        unfold overlaps
        rw [Bool.and_eq_true, decide_eq_true_eq, decide_eq_true_eq]
        omega
      exact absurd (hring.symm.trans hmeet) (by decide)
    next => exact absurd h (by simp)
theorem atomic_blkPlace {s : State} {x y : Nat} {m : MemName} (h : blkPlace s .atomic x 4 = .at m y) : ∃ b, m = .win b := by
  unfold blkPlace at h
  split at h
  · exact absurd h (by simp)
  next hfree =>
    split at h
    next m' y' hw =>
      obtain ⟨rfl, -⟩ := Place.at.inj h
      have hring : overlaps x 4 ringBase (ringBase + ringBytes) = false := by
        cases hover : overlaps x 4 ringBase (ringBase + ringBytes) with
        | false => rfl
        | true => exact absurd (by rw [hover]; rfl) hfree
      exact winLoc_win hw hring (by decide)
    next => exact absurd h (by simp)
theorem cluPlace_win {s : State} {a n y : Nat} {m : MemName} (h : cluPlace s a n = .at m y) : ∃ b, m = .win b := by
  unfold cluPlace at h
  dsimp only at h
  split at h
  · exact absurd h (by simp)
  · split at h
    · exact absurd h (by simp)
    · split at h
      next b _ => exact ⟨b, (Place.at.inj h).1.symm⟩
      next => exact absurd h (by simp)
theorem diePlace_die {s : State} {a n y : Nat} {m : MemName} (h : diePlace s a n = .at m y) : ∃ k, m = .die k := by
  unfold diePlace at h
  dsimp only at h
  split at h
  · split at h
    · exact ⟨_, (Place.at.inj h).1.symm⟩
    · exact absurd h (by simp)
  · split at h
    · exact absurd h (by simp)
    · split at h
      · exact ⟨_, (Place.at.inj h).1.symm⟩
      · exact absurd h (by simp)
/-- The memory of a word that ATOM or CAS may name: a block window, or a die's scratch. -/
theorem atomic_place {s : State} {p : BitVec 2} {t x y : Nat} {m : MemName} (h : placeOf s (atomSpace p) .atomic t x 4 = .at m y) :
    (∃ b, m = .win b) ∨ ∃ k, m = .die k := by
  unfold atomSpace at h
  split at h
  · exact Or.inl (atomic_blkPlace h)
  · split at h
    · exact Or.inl (cluPlace_win h)
    · exact Or.inr (diePlace_die h)

/-- A write to a span that no matrix command reads disturbs none. -/
theorem disturb_unread {s : State} {m : MemName} {a len : Nat} (w : View)
    (h : ∀ e ∈ s.blocks, ∀ c ∈ e.2.touches, ∀ x ∈ c.reads, spanMeets e.1 e.2 m a len x = false) : disturb s w m a len = s := by
  refine foldl_unchanged _ fun e he => ?_
  unfold disturbBlock
  dsimp only
  refine if_neg ?_
  rw [Bool.not_eq_true, List.any_eq_false]
  intro c hc
  rw [List.any_eq_false.2 fun x hx => by simp [h e he c hc x hx]]
  simp
theorem mem_blocks_of_blkOf {s : State} {b : Nat} {c : MTouch} (h : c ∈ (blkOf s b).touches) : (b, blkOf s b) ∈ s.blocks := by
  have hfind := look_eq_find s.blocks b ({} : Block)
  cases hb : Map.find s.blocks b with
  | none =>
    rw [blkOf, hfind, hb] at h
    exact absurd h (by simp)
  | some v =>
    rw [blkOf, look_of_find hb]
    exact mem_of_find hb
/-- A write to a memory that an atomic may name leaves unread what was. -/
theorem unread_homeWrite {s : State} {m : MemName} {a n : Nat} (hm : (∃ b, m = .win b) ∨ ∃ k, m = .die k) (h : unread s m a n)
    (bs : List Byte) : unread (homeWrite s m a bs) m a n := by
  rcases hm with ⟨b, rfl⟩ | ⟨k, rfl⟩
  · intro e he c hc x hx
    have hblocks : (homeWrite s (.win b) a bs).blocks = Map.put s.blocks b { blkOf s b with win := writeBytes (blkOf s b).win a bs } := by
      rw [homeWrite_eq]
      rfl
    rw [hblocks] at he
    rcases mem_put he with rfl | he
    · exact h (b, blkOf s b) (mem_blocks_of_blkOf hc) c hc x hx
    · exact h e he c hc x hx
  · have hblocks : (homeWrite s (.die k) a bs).blocks = s.blocks := by
      rw [homeWrite_eq]
      rfl
    intro e he
    rw [hblocks] at he
    exact h e he

/-- The state after a thread's read of its word, the old value kept for its result. -/
def atomRead (v : State) (t : Nat) (m : MemName) (y : Nat) (o : Word) : State :=
  let r := noteRead v v.cur m y 4 .newest
  setCg r { cg r with olds := Map.put (cg r).olds t o }
/-- The state after its write. -/
def atomWrite (z : State) (m : MemName) (y : Nat) (w : Word) : State :=
  agentWrite z { mem := m, addr := y, old := [], agent := z.cur, atomic := true } (cg z).view (wordBytes w)
/-- A step of an ATOM or CAS from the value it reads. -/
def atomGo (new : Nat → Word → Option Word) (v : State) (t : Nat) (m : MemName) (y : Nat) (o : Word) : State :=
  match new t o with
  | some w => atomWrite (atomRead v t m y o) m y w
  | none => atomRead v t m y o
theorem atomStep_at {u : State} {sp : Space} {t x y : Nat} {m : MemName} (new : Nat → Word → Option Word)
    (h : placeOf u sp .atomic t x 4 = .at m y)
    (hlate : ∀ i, i < 4 → earlyRead (performBefore u u.cur m y 4) (cg (performBefore u u.cur m y 4)).view m (y + i) = false) :
    atomStep sp new u (t, x) =
      atomGo new (performBefore u u.cur m y 4) t m y (homeWord (performBefore u u.cur m y 4) m y) := by
  unfold atomStep
  rw [h]
  dsimp only
  generalize performBefore u u.cur m y 4 = v at hlate ⊢
  rw [if_neg]
  · rfl
  · rw [Bool.not_eq_true, List.any_eq_false]
    intro i hi
    rw [hlate i (List.mem_range.mp hi)]
    decide

theorem olds_atomRead (v : State) (t : Nat) (m : MemName) (y : Nat) (o : Word) : Map.look (cg (atomRead v t m y o)).olds t 0 = o := by
  rw [atomRead, cg_setCg]
  exact look_put_same _ _ _ _
theorem homeByte_setOlds (r : State) (l : Map Word) (k : MemName) (b : Nat) : homeByte (setCg r { cg r with olds := l }) k b = homeByte r k b := by
  have hrest : GroupsOnly r (setCg r { cg r with olds := l }) := groupsOnly_setGrp r r.cur _
  refine homeByte_groupsOnly hrest (fun g => ?_) k b
  by_cases hg : g = r.cur
  · rw [hg]
    exact (congrArg Group.spill (cg_setCg r { cg r with olds := l }) :)
  · rw [grpOf_setCg_other _ _ hg]
theorem homeByte_atomRead (v : State) (t : Nat) (m : MemName) (y : Nat) (o : Word) (k : MemName) (b : Nat) :
    homeByte (atomRead v t m y o) k b = homeByte v k b :=
  (homeByte_setOlds _ _ k b).trans ((listens_noteRead v v.cur m y 4 .newest).homeByte k b)
theorem blocks_atomRead (v : State) (t : Nat) (m : MemName) (y : Nat) (o : Word) : (atomRead v t m y o).blocks = v.blocks :=
  (listens_noteRead v v.cur m y 4 .newest).rest.blocks
theorem olds_atomWrite (z : State) (m : MemName) (y : Nat) (w : Word) : (cg (atomWrite z m y w)).olds = (cg z).olds :=
  (congrArg Group.olds (performs_agentWrite z _ _ _).cg :)
theorem atomGo_none {new : Nat → Word → Option Word} {v : State} {t : Nat} {m : MemName} {y : Nat} {o : Word} (h : new t o = none) :
    atomGo new v t m y o = atomRead v t m y o := by rw [atomGo, h]
theorem atomGo_some {new : Nat → Word → Option Word} {v : State} {t : Nat} {m : MemName} {y : Nat} {o w : Word} (h : new t o = some w) :
    atomGo new v t m y o = atomWrite (atomRead v t m y o) m y w := by rw [atomGo, h]
theorem olds_atomGo (new : Nat → Word → Option Word) (v : State) (t : Nat) (m : MemName) (y : Nat) (o : Word) :
    Map.look (cg (atomGo new v t m y o)).olds t 0 = o := by
  cases hnew : new t o with
  | none =>
    rw [atomGo_none hnew]
    exact olds_atomRead v t m y o
  | some w =>
    rw [atomGo_some hnew, olds_atomWrite]
    exact olds_atomRead v t m y o
theorem memOf_atomRead (v : State) (t : Nat) {m : MemName} (y : Nat) (o : Word) (hm : (∃ b, m = .win b) ∨ ∃ k, m = .die k) :
    memOf (atomRead v t m y o) m = memOf v m := by
  rcases hm with ⟨b, rfl⟩ | ⟨k, rfl⟩
  · exact congrArg (fun l => (Map.look l b ({} : Block)).win) (blocks_atomRead v t _ y o)
  · exact congrArg (fun l => Map.look l k ([] : Memory)) (congrArg State.die (listens_noteRead v v.cur (.die k) y 4 .newest).rest :)
theorem homeByte_atomWrite {z : State} {m : MemName} {y : Nat} (w : Word) (hm : (∃ b, m = .win b) ∨ ∃ k, m = .die k) (hread : unread z m y 4)
    (hwf : (memOf z m).wf = true) {i : Nat} (hi : i < 4) : homeByte (atomWrite z m y w) m (y + i) = byteAt (wordBytes w) i := by
  have hlen : (wordBytes w).length = 4 := bytesOfNat_length 4 w.toNat
  have hring : ∀ b, m ≠ .ring b := by rcases hm with ⟨b, rfl⟩ | ⟨k, rfl⟩ <;> exact fun _ => by simp
  have htable : ∀ c, m ≠ .table c := by rcases hm with ⟨b, rfl⟩ | ⟨k, rfl⟩ <;> exact fun _ => by simp
  unfold atomWrite agentWrite
  dsimp only
  obtain ⟨l, hl⟩ := logWrite_rest z { mem := m, addr := y, old := [], agent := z.cur, atomic := true } (wordBytes w).length
  rw [hl, hlen, disturb_unread _ (unread_homeWrite hm (s := { z with log := l }) hread _)]
  have hrest := (groupsOnly_reload (homeWrite { z with log := l } m y (wordBytes w)) m y 4).trans (groupsOnly_wakeWords _ m y 4)
  have hhome : homeByte (homeWrite { z with log := l } m y (wordBytes w)) m (y + i) = byteAt (wordBytes w) i := by
    have hmem : (memOf { z with log := l } m).wf = true := hwf
    rw [homeByte_homeWrite_same _ _ _ hring htable hmem, hlen, if_pos ⟨Nat.le_add_right y i, Nat.add_lt_add_left hi y⟩, Nat.add_sub_cancel_left]
  rw [← hhome]
  rw [homeByte_plain _ hring, homeByte_plain _ hring]
  rcases hm with ⟨b, rfl⟩ | ⟨k, rfl⟩
  · exact congrArg (fun l => readB (Map.look l b ({} : Block)).win (y + i)) hrest.blocks
  · exact congrArg (fun l => readB (Map.look l k ([] : Memory)) (y + i)) (congrArg State.die hrest :)
theorem homeBytes_atomWrite {z : State} {m : MemName} {y : Nat} (w : Word) (hm : (∃ b, m = .win b) ∨ ∃ k, m = .die k) (hread : unread z m y 4)
    (hwf : (memOf z m).wf = true) : homeBytes (atomWrite z m y w) m y 4 = bytesOfNat 4 w.toNat := by
  have hlen : (wordBytes w).length = 4 := bytesOfNat_length 4 w.toNat
  refine (List.map_congr_left fun i hi => homeByte_atomWrite w hm hread hwf (List.mem_range.mp hi)).trans ?_
  rw [← hlen]
  exact map_byteAt (wordBytes w)

/-! ### The two words -/

section
variable {s : State} {st : BitVec 2} {d a : BitVec 7} {f : BitVec 4} {p : BitVec 2} {n : Nat}

/-- What an ATOM writes, and what a CAS writes, where it writes. -/
def atomNew (s : State) (d : BitVec 7) (f : BitVec 4) (t : Nat) (o : Word) : Option Word := some (atomValue f.toNat o (laneReg s d.toNat t))
def casNew (s : State) (d : BitVec 7) (t : Nat) (o : Word) : Option Word :=
  if o = laneReg s d.toNat t then some (laneReg s (d.toNat + 1) t) else none
/-- What CAS leaves after its last pass: the words read, and whether it wrote. -/
def casDone (s : State) (d : BitVec 7) (e : State) (o : Nat → Word) : Act :=
  .done (wv (wv e d.toNat (emask e) o) (d.toNat + 1) (emask e) fun t => if o t = laneReg s d.toNat t then 1 else 0)
theorem exec_atom_eq (st : BitVec 2) (d a : BitVec 7) (f : BitVec 4) (p : BitVec 2) (s : State) :
    exec (.atom st d a f p) s = issue (info (.atom st d a f p)) s fun e =>
      atomic e a p (fun t o => some (atomValue f.toNat o (rv e d.toNat t))) fun e o => laneOut e d o := rfl
theorem exec_cas_eq (st : BitVec 2) (d a : BitVec 7) (p : BitVec 2) (s : State) :
    exec (.cas st d a p) s = issue (info (.cas st d a p)) s fun e =>
      atomic e a p (fun t o => if o = rv e d.toNat t then some (rv e (d.toNat + 1) t) else none) fun z o =>
        .done (wv (wv z d.toNat (emask z) o) (d.toNat + 1) (emask z) fun t => if o t = rv e d.toNat t then 1 else 0) := rfl

/-- An ATOM at the pass it has come to. -/
theorem atom_pass (hn : PassIs s (atomSpace p) a n) :
    atomic (entered (info (.atom st d a f p)) s) a p
        (fun t o => some (atomValue f.toNat o (rv (entered (info (.atom st d a f p)) s) d.toNat t))) (fun e o => laneOut e d o) =
      passesAt n (entered (info (.atom st d a f p)) s) (atomSpace p) (atomWords s a) (atomNew s d f) fun e o => laneOut e d o := by
  rw [atomic_passesAt hn]
  simp only [rv_entered]
  rfl
theorem cas_pass (hn : PassIs s (atomSpace p) a n) :
    atomic (entered (info (.cas st d a p)) s) a p
        (fun t o => if o = rv (entered (info (.cas st d a p)) s) d.toNat t then
          some (rv (entered (info (.cas st d a p)) s) (d.toNat + 1) t) else none)
        (fun z o => .done (wv (wv z d.toNat (emask z) o) (d.toNat + 1) (emask z) fun t =>
          if o t = rv (entered (info (.cas st d a p)) s) d.toNat t then 1 else 0)) =
      passesAt n (entered (info (.cas st d a p)) s) (atomSpace p) (atomWords s a) (casNew s d) (casDone s d) := by
  rw [atomic_passesAt hn]
  simp only [rv_entered]
  rfl
end

theorem atomValue_table (o v : Word) :
    atomValue 0 o v = o + v ∧ atomValue 1 o v = o - v ∧ atomValue 6 o v = o &&& v ∧ atomValue 7 o v = o ||| v ∧
    atomValue 8 o v = o ^^^ v ∧ atomValue 9 o v = v ∧
    atomValue 2 o v = (if o.toInt < v.toInt then o else v) ∧ atomValue 3 o v = (if v.toInt < o.toInt then o else v) ∧
    atomValue 4 o v = (if o.toNat < v.toNat then o else v) ∧ atomValue 5 o v = (if v.toNat < o.toNat then o else v) ∧
    atomValue 10 o v = (if v.toNat ≤ o.toNat then 0 else o + 1) ∧
    atomValue 11 o v = (if o = 0 ∨ v.toNat < o.toNat then v else o - 1) := by
  refine ⟨rfl, rfl, rfl, rfl, rfl, rfl, ?_, ?_, ?_, ?_, ?_, ?_⟩
  all_goals simp only [atomValue, minS, maxS, minU, maxU, BitVec.slt, BitVec.ult, BitVec.ule, decide_eq_true_eq]

/-- Settles O34: the first trap of the checks is the first over the active threads; a pass is one step of each of its threads. -/
theorem atomics : Obligations.Atomics := by
  refine ⟨?_, ?_⟩
  · intro s st p d a o f c lo ths at_ word traps x raises
    refine ⟨raises_of_laneLoad (exec_lds st d a o s), raises_of_laneStore (exec_sts st d a o s), lds64_raises,
      raises_of_laneStore (exec_sts64 st d a o s), raises_of_laneLoad (exec_ldw st d a o s), raises_of_laneStore (exec_stw st d a o s),
      raises_of_laneLoad (exec_ldsp st d a o s), raises_of_laneStore (exec_stsp st d a o s), raises_of_laneLoad (exec_ldd st d a o s),
      raises_of_laneStore (exec_std st d a o s), raises_of_laneLoad (exec_ldc st d a o s), ?_, sldc_align, sldc_bound,
      fun h => slds_raises (uniTrap_bad h), fun h => ssts_raises (uniTrap_bad h), fun h hx => slds_raises (uniTrap_align h hx),
      fun h hx => ssts_raises (uniTrap_align h hx), fun m y h hx he => slds_raises (uniTrap_ecc h hx he)⟩
    intro hpass
    exact ⟨fun h hm => (exec_atom_eq st d a f p s).trans (issue_trap hm (atomic_trap hpass h _ _)),
      fun h hm => (exec_cas_eq st d a p s).trans (issue_trap hm (atomic_trap hpass h _ _))⟩
  · intro s st d a f p n es sp pass add swap ia ic ea ec old clear hn
    refine ⟨fun hlast => ⟨fun hm => (exec_atom_eq st d a f p s).trans ?_, fun hm => (exec_cas_eq st d a p s).trans ?_⟩,
      fun e he => ⟨fun hm => (exec_atom_eq st d a f p s).trans ?_, fun hm => (exec_cas_eq st d a p s).trans ?_⟩, ?_, atomValue_table⟩
    · exact issue_done hm ((atom_pass hn).trans (passesAt_last hlast))
    · exact issue_done hm ((cas_pass hn).trans (passesAt_last hlast))
    · exact issue_wait hm ((atom_pass hn).trans (passesAt_next he))
    · exact issue_wait hm ((cas_pass hn).trans (passesAt_next he))
    · intro new u t x y m hat v hlate hread hwf
      have hm := atomic_place hat
      have hstep := atomStep_at new hat hlate
      rw [hstep]
      refine ⟨?_, fun hnew k b => ?_, fun w hnew => ?_⟩
      · exact olds_atomGo new v t m y _
      · rw [atomGo_none hnew]
        exact homeByte_atomRead v t m y _ k b
      · rw [atomGo_some hnew]
        refine homeBytes_atomWrite w hm ?_ ?_
        · exact fun e he => hread e (blocks_atomRead v t m y _ ▸ he)
        · rw [memOf_atomRead v t y _ hm]
          exact hwf

end Sys2Proof.Machine
end

