-- ==== Sys2Proof/Proofs/LaneStores.lean ====
section
/-!
PROOFS. Proofs/LaneStores.lean: lane and uniform stores (R212 to R222): the bytes of each active thread become its group's youngest stores, in
ascending thread.
-/
namespace Sys2Proof.Machine

/-! ### One store -/

/-- The second state comes from the first by stores l of the current group, its youngest. -/
structure Stores (s t : State) (l : List StoreCell) : Prop where
  rest : GroupsOnly s t
  other : ∀ g, g ≠ s.cur → grpOf t g = grpOf s g
  group : cg t = { cg s with stores := (cg t).stores, loads := (cg t).loads }
  news : ∃ ps, (cg t).stores = (cg s).stores ++ ps ∧ ps.map storeCell = l

theorem Stores.refl (s : State) : Stores s s [] := ⟨GroupsOnly.refl s, fun _ _ => rfl, rfl, [], (List.append_nil _).symm, rfl⟩
theorem Stores.cur {s t : State} {l : List StoreCell} (h : Stores s t l) : t.cur = s.cur := (congrArg State.cur h.rest :)
theorem Stores.trans {s t u : State} {l m : List StoreCell} (h : Stores s t l) (k : Stores t u m) : Stores s u (l ++ m) := by
  obtain ⟨ps, hps, hl⟩ := h.news
  obtain ⟨qs, hqs, hm⟩ := k.news
  refine ⟨h.rest.trans k.rest, fun g hg => ?_, ?_, ps ++ qs, ?_, ?_⟩
  · rw [k.other g (by rw [h.cur]; exact hg), h.other g hg]
  · rw [k.group, h.group]
  · rw [hqs, hps, List.append_assoc]
  · rw [List.map_append, hl, hm]
theorem stores_storeBytes (s : State) (m : MemName) (a : Nat) (bs : List Byte) : Stores s (storeBytes s m a bs) [(m, a, bs)] where
  rest := groupsOnly_setGrp s s.cur _
  other g hg := grpOf_setCg_other s _ hg
  group := by
    unfold storeBytes
    rw [cg_setCg]
    rfl
  news := by
    unfold storeBytes
    rw [cg_setCg]
    exact ⟨_, rfl, rfl⟩

/-! ### The stores of a word -/

section
variable {s t : State} {l : List StoreCell} (h : Stores s t l)
include h

theorem Stores.blkOf (b : Nat) : blkOf t b = blkOf s b := congrArg (fun m => Map.look m b ({} : Block)) h.rest.blocks
theorem Stores.cgBlk : (cg t).blk = (cg s).blk := (congrArg Group.blk h.group :)
theorem Stores.cb : cb t = cb s := by
  unfold Machine.cb
  rw [h.cgBlk, h.blkOf]
theorem Stores.ck : ck t = ck s := by
  have hkern (b : Block) : kernFor t b = kernFor s b := by
    rw [h.rest]
    rfl
  unfold Machine.ck
  rw [h.cb, hkern]
theorem Stores.width : (cg t).width = (cg s).width := (congrArg Group.width h.group :)
theorem Stores.placeOf (sp : Space) (u : Use) (th a n : Nat) : placeOf t sp u th a n = placeOf s sp u th a n := by
  have hgang (g : Nat) : gangOf t g = gangOf s g := by
    rw [h.rest]
    rfl
  have hpkg : t.pkg = s.pkg := (congrArg State.pkg h.rest :)
  cases sp with
  | blk => simp only [Machine.placeOf, blkPlace, winLoc, h.cgBlk, h.ck]
  | clu => simp only [Machine.placeOf, cluPlace, h.ck, h.cb, h.blkOf, hgang]
  | die => simp only [Machine.placeOf, diePlace, h.cb, hpkg]
  | spill => simp only [Machine.placeOf, spillPlace, h.ck, h.width, h.cur]
  | const => simp only [Machine.placeOf, h.ck]
end

/-- What an access stores, where its place is a memory. -/
def cellOf (s : State) (sp : Space) (n : Nat) (val : Nat → List Byte) (e : Nat × Nat) : List StoreCell :=
  match placeOf s sp .store e.1 e.2 n with
  | .at m a => [(m, a, val e.1)]
  | _ => []
theorem stores_storePlace (s : State) (bs : List Byte) (p : Place) :
    Stores s (storePlace s bs p) (match p with | .at m a => [(m, a, bs)] | _ => []) := by
  match p with
  | .at m a => exact stores_storeBytes s m a bs
  | .bank a => exact Stores.refl s
  | .bad c => exact Stores.refl s
theorem stores_storeLanes (sp : Space) (n : Nat) (val : Nat → List Byte) (es : List (Nat × Nat)) :
    ∀ s, Stores s (storeLanes sp n val s es) (es.flatMap (cellOf s sp n val)) := by
  induction es with
  | nil => exact Stores.refl
  | cons e es ih =>
    intro s
    have hone := stores_storePlace s (val e.1) (placeOf s sp .store e.1 e.2 n)
    have hcells : cellOf (storePlace s (val e.1) (placeOf s sp .store e.1 e.2 n)) sp n val = cellOf s sp n val := by
      funext x
      rw [cellOf, hone.placeOf, cellOf]
    have hmore := ih (storePlace s (val e.1) (placeOf s sp .store e.1 e.2 n))
    rw [hcells] at hmore
    exact hone.trans hmore

/-! ### What the word leaves -/

theorem viewByte_of_uncovered {s : State} {l ps : List PendStore} {m : MemName} {a : Nat}
    (h : (ps.map storeCell).any (cellCovers m a) = false) : viewByte s (l ++ ps) m a = viewByte s l m a := by
  have hnone : ps.reverse.find? (storeCovers m a) = none := List.find?_eq_none.mpr fun p hp => by
    have hmem : storeCell p ∈ ps.map storeCell := List.mem_map_of_mem (List.mem_reverse.mp hp)
    exact List.any_eq_false.mp h _ hmem
  unfold viewByte
  rw [List.reverse_append, List.find?_append, hnone, Option.none_or]

section
variable {i : Info} {s e : State} {l : List StoreCell} (h : MayIssue i s) (hs : Stores (entered i s) e l)
include h hs

theorem onlyStores_settled : OnlyStores i s (settled i s e) where
  machine := by
    have hm := congrArg (fun z : State => { z with groups := s.groups, fresh := s.fresh }) (machine_settled h e)
    have hr := congrArg (fun z : State => { z with groups := s.groups, fresh := s.fresh }) hs.rest
    have he := congrArg (fun z : State => { z with fresh := s.fresh }) (machine_entered i s)
    exact hm.trans (hr.trans he)
  groups g hg := by
    have hge : g ≠ (entered i s).cur := by
      rw [cur_entered]
      exact hg
    rw [grpOf_settled_other h e (by rw [hs.cur]; exact hge), hs.other g hge, grpOf_entered_other i s hg]
  group := by
    have hr := congrArg (fun y : Group => { repathed (cg s) y with stores := (cg s).stores }) (repathed_settled h e)
    have hg := congrArg (fun y : Group => { repathed (cg s) y with stores := (cg s).stores }) hs.group
    have he := congrArg (fun y : Group => { y with stores := (cg s).stores }) (repathed_entered i s)
    exact hr.trans (hg.trans he)
  path := by
    have hp : cp e = cp (entered i s) := (congrArg pathOf hs.group :)
    rw [cp_settled h, hp, cp_entered]
  resting := by
    have hp : restingPath (cg e) = restingPath (cg (entered i s)) := (congrArg restingPath hs.group :)
    rw [restingPath_settled h, hp, restingPath_cg_entered]
theorem stores_settled_cells : (cg (settled i s e)).stores.map storeCell = (cg s).stores.map storeCell ++ l := by
  obtain ⟨ps, hps, hl⟩ := hs.news
  have hst : (cg (settled i s e)).stores = (cg e).stores := (congrArg Group.stores (repathed_settled h e) :)
  rw [hst, hps, List.map_append, hl, stores_cg_entered]
theorem byteSeen_of_uncovered {m : MemName} {a : Nat} (hout : l.any (cellCovers m a) = false) :
    byteSeen (settled i s e) m a = byteSeen s m a := by
  obtain ⟨ps, hps, hl⟩ := hs.news
  have hspill (g : Nat) : (grpOf e g).spill = (grpOf (entered i s) g).spill := by
    by_cases hg : g = (entered i s).cur
    · have hc : (cg e).spill = (cg (entered i s)).spill := (congrArg Group.spill hs.group :)
      rw [cg, hs.cur] at hc
      rw [hg, hc, cg]
    · rw [hs.other g hg]
  rw [byteSeen_settled h, ← byteSeen_entered i s, byteSeen, hps, viewByte_of_uncovered (hl ▸ hout), byteSeen, viewByte, viewByte,
    homeByte_groupsOnly hs.rest hspill]
end

/-! ### The words -/

/-- The place of a uniform store, aligned, whose address lies in the block window. -/
theorem ssts_stores {s : State} {st : BitVec 2} {d a : BitVec 7} {o : BitVec 8} {m : MemName} {y : Nat}
    (hx : ((uniReg s a.toNat).toNat + 4 * o.toNat) % 2 ^ 32 % 4 = 0)
    (hat : blkPlace s .store (((uniReg s a.toNat).toNat + 4 * o.toNat) % 2 ^ 32) 4 = .at m y) (h : MayIssue (info (.ssts st d a o)) s) :
    exec (.ssts st d a o) s = .next (settled (info (.ssts st d a o)) s
      (storeBytes (entered (info (.ssts st d a o)) s) m y (bytesOfNat 4 (uniReg s d.toNat).toNat))) := by
  refine (exec_ssts st d a o s).trans (issue_done h ?_)
  rw [uniAddr_entered, uniTrap_entered, uniTrap_none hat hx (fun hu => by cases hu), blkPlace_entered, hat, rs_entered]
  rfl
theorem storeResult_of_laneStore {ins : Instr} {s : State} {sp : Space} {n : Nat} {a : BitVec 7} {o : BitVec 8}
    {val : State → Nat → List Byte} {w : Nat → List Byte} (he : exec ins s = issue (info ins) s fun s => laneStore s sp n a o (val s))
    (hval : val (entered (info ins) s) = w) (hmay : MayAccess s sp .store n (threadAddr s a o n)) :
    StoreResult ins s sp n (threadAddr s a o n) w := by
  intro h
  have hdone : laneStore (entered (info ins) s) sp n a o (val (entered (info ins) s)) =
      .done (storeLanes sp n w (entered (info ins) s) (accesses s (threadAddr s a o n))) := by
    unfold laneStore
    dsimp only
    rw [accesses_entered, laneAddr_entered, checked_go hmay, hval]
  have hstores := stores_storeLanes sp n w (accesses s (threadAddr s a o n)) (entered (info ins) s)
  have hnews : (accesses s (threadAddr s a o n)).flatMap (cellOf (entered (info ins) s) sp n w) =
      (threadsOf (cg s).width (emask s)).flatMap (storeOf s sp n (threadAddr s a o n) w) := by
    unfold accesses
    rw [List.flatMap_map]
    refine congrArg (List.flatMap · _) (funext fun t => ?_)
    rw [cellOf, placeOf_entered]
    rfl
  rw [hnews] at hstores
  exact ⟨_, he.trans (issue_done h hdone), stores_settled_cells h hstores, onlyStores_settled h hstores,
    fun m b hout => byteSeen_of_uncovered h hstores hout⟩

/-- Settles O33: a word's stores are appended to its group's, one an active thread, and change nothing else. -/
theorem laneStores : Obligations.LaneStores := by
  intro s st d a o at_ word pair x
  have hword (i : Info) : (fun t => wordBytes (rv (entered i s) d.toNat t)) = word := by
    funext t
    rw [rv_entered, wordBytes]
  have hpair (i : Info) : (fun t => dwordBytes (cat64 (rv (entered i s) (d.toNat + 1) t) (rv (entered i s) d.toNat t))) = pair := by
    funext t
    rw [rv_entered, rv_entered, dwordBytes]
    rfl
  refine ⟨storeResult_of_laneStore (exec_sts st d a o s) (hword _), storeResult_of_laneStore (exec_stw st d a o s) (hword _),
    storeResult_of_laneStore (exec_stsp st d a o s) (hword _), storeResult_of_laneStore (exec_std st d a o s) (hword _),
    storeResult_of_laneStore (exec_sts64 st d a o s) (hpair _), fun hx m y hat h => ?_⟩
  have hstores := stores_storeBytes (entered (info (.ssts st d a o)) s) m y (bytesOfNat 4 (uniReg s d.toNat).toNat)
  refine ⟨_, ssts_stores hx hat h, stores_settled_cells h hstores, onlyStores_settled h hstores, fun n b hout => ?_⟩
  exact byteSeen_of_uncovered h hstores (by rw [List.any_cons, hout, List.any_nil, Bool.or_false])

end Sys2Proof.Machine
end

