-- ==== Sys2Proof/Proofs/Loading.lean ====
section
/-!
PROOFS. Proofs/Loading.lean: a word that reads and then writes lane or uniform registers leaves everything else but what its group has
observed (R37, R236, R239).
-/
namespace Sys2Proof.Machine

theorem viewByte_cells {s : State} {l q : List PendStore} (h : l.map storeCell = q.map storeCell) (m : MemName) (a : Nat) :
    viewByte s l m a = viewByte s q m a := by
  have hfind (l : List PendStore) : (l.reverse.find? (storeCovers m a)).map storeCell =
      (l.map storeCell).reverse.find? (cellCovers m a) := by
    rw [← List.map_reverse, List.find?_map]
    rfl
  have hboth := (hfind l).trans ((congrArg (fun c => (List.reverse c).find? (cellCovers m a)) h).trans (hfind q).symm)
  unfold viewByte
  cases hl : l.reverse.find? (storeCovers m a) with
  | none =>
    cases hq : q.reverse.find? (storeCovers m a) with
    | none => rfl
    | some p =>
      rw [hl, hq] at hboth
      exact absurd hboth (by simp)
  | some r =>
    cases hq : q.reverse.find? (storeCovers m a) with
    | none =>
      rw [hl, hq] at hboth
      exact absurd hboth (by simp)
    | some p =>
      rw [hl, hq] at hboth
      have hcell : storeCell r = storeCell p := Option.some.inj hboth
      have haddr : r.addr = p.addr := congrArg (fun c : StoreCell => c.2.1) hcell
      have hbytes : r.bytes = p.bytes := congrArg (fun c : StoreCell => c.2.2) hcell
      dsimp only
      rw [haddr, hbytes]

theorem homeByte_machine {s t : State} (hm : { t with groups := s.groups, fresh := s.fresh } = s)
    (hspill : ∀ g, (grpOf t g).spill = (grpOf s g).spill) (n : MemName) (a : Nat) : homeByte t n a = homeByte s n a := by
  have hrest : GroupsOnly s { t with fresh := s.fresh } := (congrArg (fun z : State => { z with groups := t.groups }) hm :)
  have hone : homeByte t n a = homeByte { t with fresh := s.fresh } n a := by cases n <;> rfl
  exact hone.trans (homeByte_groupsOnly hrest hspill n a)

theorem unheard_repathed (g y : Group) : unheard g (restored g y) = unheard g (restored g (repathed g y)) := rfl

/-- The state e of a word after its reads, and the words of its registers. -/
def loaded (e : State) (v : Map (List Word)) (u : Map Word) : State := setCg e { cg e with v := v, s := u }

section
variable {i : Info} {s e : State} (h : Listens s.cur (entered i s) e)
include h

theorem Listens.cur : e.cur = s.cur := (congrArg State.cur h.rest :).trans (cur_entered i s)
theorem Listens.cg : cg e = listened (cg (entered i s)) (cg e) := by
  have hr := h.reader
  unfold Machine.cg
  rw [h.cur, cur_entered]
  exact hr
theorem Listens.laneWords : (Machine.cg e).v = (Machine.cg s).v := (congrArg Group.v h.cg :).trans (v_cg_entered i s)
theorem Listens.uniWords : (Machine.cg e).s = (Machine.cg s).s := (congrArg Group.s h.cg :).trans (s_cg_entered i s)
theorem Listens.width : (Machine.cg e).width = (Machine.cg s).width := (congrArg Group.width h.cg :).trans (width_entered i s)
theorem Listens.emask : emask e = Machine.emask s := by
  have hp : cp e = cp (entered i s) := (congrArg pathOf h.cg :)
  rw [Machine.emask, hp, h.width, ← width_entered i s, ← Machine.emask, emask_entered]
/-- Writing a lane register after the reads. -/
theorem Listens.wv (d : Nat) (m : Mask) (f : Nat → Word) :
    wv e d m f = loaded e (Map.put (Machine.cg s).v d (laneNew s d m f)) (Machine.cg s).s := by
  have hput : Map.put (Machine.cg e).v d ((List.range (Machine.cg e).width).map fun t =>
      if bitOf m t then f t else (Map.look (Machine.cg e).v d []).getD t 0) = Map.put (Machine.cg s).v d (laneNew s d m f) := by
    rw [h.laneWords, h.width]
    rfl
  have hone := congrArg (fun v => setCg e { Machine.cg e with v := v }) hput
  exact hone.trans (congrArg (fun u => setCg e { Machine.cg e with v := Map.put (Machine.cg s).v d (laneNew s d m f), s := u }) h.uniWords)
theorem Listens.wv_pair (d : Nat) (m : Mask) (f g : Nat → Word) :
    Machine.wv (Machine.wv e d m f) (d + 1) m g =
      loaded e (Map.put (Map.put (Machine.cg s).v d (laneNew s d m f)) (d + 1) (laneNew s (d + 1) m g)) (Machine.cg s).s := by
  have hlook : Map.look (Map.put (Machine.cg s).v d (laneNew s d m f)) (d + 1) [] = Map.look (Machine.cg s).v (d + 1) [] :=
    look_put_other _ _ _ (Nat.succ_ne_self d)
  rw [h.wv]
  unfold Machine.wv loaded
  simp only [cg_setCg, setCg_setCg, hlook]
  rw [h.width]
  rfl
theorem Listens.ws (d : Nat) (w : Word) : ws e d w = loaded e (Machine.cg s).v (Map.put (Machine.cg s).s d w) := by
  have hone := congrArg (fun u => setCg e { Machine.cg e with s := Map.put u d w }) h.uniWords
  exact hone.trans (congrArg (fun v => setCg e { Machine.cg e with v := v, s := Map.put (Machine.cg s).s d w }) h.laneWords)
end

section
variable {i : Info} {s e : State} (hi : MayIssue i s) (h : Listens s.cur (entered i s) e) (v : Map (List Word)) (u : Map Word)
include hi

theorem settled_loaded_self : settled i s (loaded e (cg e).v (cg e).s) = settled i s e := by
  have hself : loaded e (cg e).v (cg e).s = setCg e (cg e) := rfl
  rw [hself, settled_eq hi, settled_eq hi, cg_setCg, setCg_setCg]
  rfl
theorem laneReg_loaded (r th : Nat) : laneReg (settled i s (loaded e v u)) r th = (Map.look v r []).getD th 0 := by
  rw [laneReg_settled hi, laneReg, loaded, cg_setCg]
theorem uniReg_loaded (n : Nat) : uniReg (settled i s (loaded e v u)) n = Map.look u n 0 := by
  rw [uniReg_settled hi, uniReg, loaded, cg_setCg]

include h
theorem cg_settled_loaded : repathed (cg s) (cg (settled i s (loaded e v u))) = { cg s with
    v := v, s := u, view := (cg e).view, heard := (cg e).heard, heardTop := (cg e).heardTop, heardDone := (cg e).heardDone
    stores := (cg e).stores } := by
  have hsettled := congrArg (repathed (cg s)) (repathed_settled hi (loaded e v u))
  have hload : cg (loaded e v u) = { cg e with v := v, s := u } := cg_setCg _ _
  have hread := congrArg (fun y : Group => repathed (cg s) { y with v := v, s := u }) h.cg
  have henter := congrArg (fun y : Group => { y with
    v := v, s := u, view := (cg e).view, heard := (cg e).heard, heardTop := (cg e).heardTop, heardDone := (cg e).heardDone
    stores := (cg e).stores }) (repathed_entered i s)
  exact hsettled.trans ((congrArg (repathed (cg s)) hload).trans (hread.trans henter))
/-- A word that reads and writes registers leaves what OnlyLoads says. -/
theorem onlyLoads_loaded {vs us : List Nat} (hv : ∀ r, r ∉ vs → Map.look v r [] = Map.look (cg s).v r [])
    (hu : ∀ n, n ∉ us → Map.look u n 0 = Map.look (cg s).s n 0) : OnlyLoads i s (settled i s (loaded e v u)) vs us := by
  have hgroup := cg_settled_loaded hi h v u
  have hload : cg (loaded e v u) = { cg e with v := v, s := u } := cg_setCg _ _
  have hstores : (cg (settled i s (loaded e v u))).stores.map storeCell = (cg s).stores.map storeCell := by
    have hcells := h.cells s.cur
    have hst : (cg (settled i s (loaded e v u))).stores = (cg e).stores := (congrArg Group.stores hgroup :)
    rw [← stores_cg_entered i s, hst, cg, cg, h.cur, cur_entered]
    exact hcells
  have hmachine : { settled i s (loaded e v u) with groups := s.groups, fresh := s.fresh } = s := by
    have hm := congrArg (fun z : State => { z with groups := s.groups, fresh := s.fresh }) (machine_settled hi (loaded e v u))
    have hr := congrArg (fun z : State => { z with groups := s.groups, fresh := s.fresh }) h.rest
    have he := congrArg (fun z : State => { z with fresh := s.fresh }) (machine_entered i s)
    exact hm.trans (hr.trans he)
  have hother (g : Nat) (hg : g ≠ s.cur) : grpOf (settled i s (loaded e v u)) g = grpOf e g := by
    have hge : g ≠ e.cur := by
      rw [h.cur]
      exact hg
    have hgl : g ≠ (loaded e v u).cur := hge
    rw [grpOf_settled_other hi _ hgl, loaded, grpOf_setCg_other _ _ hge]
  refine ⟨hmachine, fun g hg => ?_, fun r hr th => ?_, fun n hn => ?_, fun n th => ?_, fun n => ?_, fun n => ?_, ?_, ?_, ?_, hstores,
    fun hrun => ?_, fun m a => ?_⟩
  · have hcells := h.cells g
    have heg := h.other g hg
    rw [grpOf_entered_other i s hg] at hcells heg
    rw [hother g hg]
    exact ⟨(congrArg (fun y : Group => { y with stores := (grpOf s g).stores }) heg :), hcells⟩
  · rw [laneReg_loaded hi, hv r hr, laneReg]
  · rw [uniReg_loaded hi, hu n hn, uniReg]
  · have hp : (cg (settled i s (loaded e v u))).p = (cg s).p := (congrArg Group.p hgroup :)
    rw [predReg, hp, predReg]
  · have hx : (cg (settled i s (loaded e v u))).x = (cg s).x := (congrArg Group.x hgroup :)
    rw [xlatReg, hx, xlatReg]
  · have hg : (cg (settled i s (loaded e v u))).g = (cg s).g := (congrArg Group.g hgroup :)
    rw [genReg, hg, genReg]
  · have hp : cp (loaded e v u) = cp (entered i s) :=
      (congrArg pathOf hload).trans (congrArg (fun y : Group => pathOf { y with v := v, s := u }) h.cg :)
    rw [cp_settled hi, hp, cp_entered]
  · have hp : restingPath (cg (loaded e v u)) = restingPath (cg (entered i s)) :=
      (congrArg restingPath hload).trans (congrArg (fun y : Group => restingPath { y with v := v, s := u }) h.cg :)
    rw [restingPath_settled hi, hp, restingPath_cg_entered]
  · rw [unheard_repathed, hgroup]
    rfl
  · rw [cg_settled hi]
    refine settled_state i s _ ?_
    have hst : (cg (loaded e v u)).state = (cg (entered i s)).state :=
      (congrArg Group.state hload).trans (congrArg (fun y : Group => ({ y with v := v, s := u } : Group).state) h.cg :)
    rw [hst, cg_entered, setPath_state]
    exact hrun
  · have hspill (g : Nat) : (grpOf (settled i s (loaded e v u)) g).spill = (grpOf s g).spill := by
      by_cases hg : g = s.cur
      · have hcur : (settled i s (loaded e v u)).cur = s.cur := (cur_settled hi _).trans h.cur
        have hc : (cg (settled i s (loaded e v u))).spill = (cg s).spill := (congrArg Group.spill hgroup :)
        rw [cg, cg, hcur] at hc
        rw [hg, hc]
      · rw [hother g hg, h.spill, spill_entered]
    rw [byteSeen, viewByte_cells hstores, viewByte, byteSeen, viewByte, homeByte_machine hmachine hspill]
end

end Sys2Proof.Machine
end

