-- ==== Sys2Proof/Proofs/Loads.lean ====
section
/-!
PROOFS. Proofs/Loads.lean: lane and uniform loads (R187, R212 to R222), and what their group reads of a location (R134, R220, R234 to R236).
-/
namespace Sys2Proof.Machine

/-! ### What a group reads -/

theorem sightOf_newest {s : State} {m : MemName} {a n : Nat} (h : (seenStores s s.cur).any (storeHits m a n) = true) :
    sightOf s s.cur m a n = .newest := by
  unfold sightOf sights
  rw [if_pos h]
  rfl
/-- The numbers of a location's writes fall along the log. -/
theorem hits_le {m : MemName} {a n : Nat} {l : List Written} {e : Nat × Written} (h : e ∈ hits m a n l) : e.1 ≤ l.length := by
  induction l with
  | nil => exact absurd h List.not_mem_nil
  | cons w l ih =>
    rw [hits] at h
    rw [List.length_cons]
    split at h
    · rcases List.mem_cons.mp h with rfl | h
      · exact Nat.le_refl _
      · exact Nat.le_succ_of_le (ih h)
    · exact Nat.le_succ_of_le (ih h)
theorem hits_head {m : MemName} {a n : Nat} {l : List Written} {e : Nat × Written} {r : List (Nat × Written)}
    (h : hits m a n l = e :: r) : ∀ x ∈ e :: r, x.1 ≤ e.1 := by
  induction l with
  | nil => exact absurd h (by simp [hits])
  | cons w l ih =>
    rw [hits] at h
    split at h
    · obtain ⟨rfl, rfl⟩ := List.cons.inj h
      intro x hx
      rcases List.mem_cons.mp hx with rfl | hx
      · exact Nat.le_refl _
      · exact Nat.le_succ_of_le (hits_le hx)
    · exact ih h
/-- A group that must observe every write of a location reads the newest. -/
theorem sightOf_last {s : State} {m : MemName} {a n : Nat} (hs : (seenStores s s.cur).any (storeHits m a n) = false)
    (hp : peeks s s.cur m a n = []) (hall : ∀ e ∈ hits m a n s.log, mustSee s.cur (cg s).born (cg s).view e = true) :
    ∃ k, sightOf s s.cur m a n = .cut k ∧ ∀ e ∈ hits m a n s.log, e.1 ≤ k := by
  have hle : ∀ e ∈ hits m a n s.log, e.1 ≤ floorOf s.cur (cg s).born (cg s).view (hits m a n s.log) := by
    cases hhits : hits m a n s.log with
    | nil => exact fun e he => absurd he List.not_mem_nil
    | cons e r =>
      rw [floorOf, List.find?_cons_of_pos (hall e (hhits ▸ List.mem_cons_self))]
      exact hits_head hhits
  refine ⟨_, ?_, hle⟩
  have hnone : (hits m a n s.log).filter (fun e => decide (floorOf s.cur (cg s).born (cg s).view (hits m a n s.log) < e.1)) = [] :=
    List.filter_eq_nil_iff.mpr fun e he => by
      have := hle e he
      simp only [decide_eq_true_eq, Nat.not_lt]
      exact this
  unfold sightOf sights
  rw [if_neg (by rw [hs]; decide), hp]
  dsimp only
  rw [← cg, hnone]
  rfl
theorem undo_none {k a : Nat} {l : List (Nat × Written)} (h : ∀ e ∈ l, e.1 ≤ k) (b : Byte) : undo k a l b = b := by
  cases l with
  | nil => rfl
  | cons e r => rw [undo, if_pos (h e List.mem_cons_self)]
theorem loadBytes_sure {s : State} {m : MemName} {a n : Nat} (h : ∀ i, i < n → earlyRead s (cg s).view m (a + i) = false) :
    loadBytes s m a n = (List.range n).map fun i => underHeld s (cg s).blk m (a + i) (sightByte s s.cur m a n (sightOf s s.cur m a n) i) := by
  unfold loadBytes
  refine List.map_congr_left fun i hi => ?_
  rw [h i (List.mem_range.mp hi), if_neg Bool.false_ne_true]

/-! ### Held writes over die scratch -/

/-- One entry of a gang's held writes over a byte, the youngest so far kept with its stamp. -/
def overHeld (a : Nat) (x : Nat × Byte) (e : HeldEntry) : Nat × Byte :=
  if x.1 ≤ e.stamp ∧ e.addr ≤ a ∧ a < e.addr + e.data.length then (e.stamp, byteAt e.data (a - e.addr)) else x
theorem underHeld_die (s : State) (blk k a : Nat) (b : Byte) :
    underHeld s blk (.die k) a b = ((heldIn s blk (.die k)).foldl (overHeld a) (0, b)).2 := rfl
theorem underHeld_other {m : MemName} (h : ∀ k, m ≠ .die k) (s : State) (blk a : Nat) (b : Byte) : underHeld s blk m a b = b := by
  cases m with
  | die k => exact absurd rfl (h k)
  | _ => rfl
theorem overHeld_none {a : Nat} {l : List HeldEntry} (h : ∀ e ∈ l, ¬ (e.addr ≤ a ∧ a < e.addr + e.data.length)) (x : Nat × Byte) :
    l.foldl (overHeld a) x = x := by
  induction l with
  | nil => rfl
  | cons e l ih =>
    rw [List.foldl_cons, overHeld, if_neg fun hc => h e List.mem_cons_self hc.2]
    exact ih fun f hf => h f (List.mem_cons_of_mem e hf)
/-- The youngest entry over a byte stays, once it is found. -/
theorem overHeld_keep {a : Nat} {l : List HeldEntry} {e : HeldEntry}
    (h : ∀ f ∈ l, f.addr ≤ a ∧ a < f.addr + f.data.length → f = e ∨ f.stamp < e.stamp) :
    l.foldl (overHeld a) (e.stamp, byteAt e.data (a - e.addr)) = (e.stamp, byteAt e.data (a - e.addr)) := by
  induction l with
  | nil => rfl
  | cons f l ih =>
    have hstep : overHeld a (e.stamp, byteAt e.data (a - e.addr)) f = (e.stamp, byteAt e.data (a - e.addr)) := by
      unfold overHeld
      split
      next hc =>
        rcases h f List.mem_cons_self hc.2 with rfl | hlt
        · rfl
        · exact absurd hc.1 (Nat.not_le.mpr hlt)
      next => rfl
    rw [List.foldl_cons, hstep]
    exact ih fun g hg => h g (List.mem_cons_of_mem f hg)
theorem overHeld_youngest {a : Nat} {l : List HeldEntry} {e : HeldEntry} (he : e ∈ l) (hcov : e.addr ≤ a ∧ a < e.addr + e.data.length)
    (h : ∀ f ∈ l, f.addr ≤ a ∧ a < f.addr + f.data.length → f = e ∨ f.stamp < e.stamp) :
    ∀ x : Nat × Byte, x.1 ≤ e.stamp → (l.foldl (overHeld a) x).2 = byteAt e.data (a - e.addr) := by
  induction l with
  | nil => exact absurd he List.not_mem_nil
  | cons f l ih =>
    intro x hx
    have hrest : ∀ g ∈ l, g.addr ≤ a ∧ a < g.addr + g.data.length → g = e ∨ g.stamp < e.stamp :=
      fun g hg => h g (List.mem_cons_of_mem f hg)
    rw [List.foldl_cons]
    by_cases hfe : f = e
    · rw [hfe, overHeld, if_pos ⟨hx, hcov⟩, overHeld_keep hrest]
    · have hmem : e ∈ l := (List.mem_cons.mp he).resolve_left (Ne.symm hfe)
      refine ih hmem hrest _ ?_
      unfold overHeld
      split
      next hc => exact Nat.le_of_lt ((h f List.mem_cons_self hc.2).resolve_left hfe)
      next => exact hx

theorem readValues : Statements.ReadValues := by
  intro s m a n hearly blk covers
  refine ⟨fun hs => ?_, fun hs hp hall => ?_, fun x b e k => ⟨fun h => underHeld_other h s blk x b, fun h => ?_, fun hm he hcov hmax => ?_⟩⟩
  · rw [loadBytes_sure hearly, sightOf_newest hs]
    rfl
  · obtain ⟨k, hk, hle⟩ := sightOf_last hs hp hall
    rw [loadBytes_sure hearly, hk]
    refine List.map_congr_left fun i _ => ?_
    rw [sightByte, undo_none hle]
  · cases m with
    | die k =>
      rw [underHeld_die, overHeld_none h]
    | _ => rfl
  · rw [hm] at he hmax ⊢
    rw [underHeld_die]
    exact overHeld_youngest he hcov hmax _ (Nat.zero_le _)

/-! ### Reads on entry -/

theorem flatMap_put {α β : Type} (m : Map α) (k : Nat) (v : α) {f : Nat × α → List β} (h : ∀ x, f (k, x) = []) :
    (Map.put m k v).flatMap f = m.flatMap f := by
  induction m with
  | nil => exact (List.append_nil _).trans (h v)
  | cons x m ih =>
    unfold Map.put
    split
    · rw [List.flatMap_cons, h v, List.nil_append]
    · split
      next hx =>
        have hxk : x = (k, x.2) := Prod.ext (by simpa [eq_comm] using hx) rfl
        rw [List.flatMap_cons, List.flatMap_cons, h v, hxk, h x.2]
      · rw [List.flatMap_cons, List.flatMap_cons, ih]

section
variable (i : Info) (s : State)

theorem groupsOnly_entered : GroupsOnly s (entered i s) := by
  rw [entered_eq]
  exact groupsOnly_setGrp s s.cur _
theorem homeByte_entered (n : MemName) (a : Nat) : homeByte (entered i s) n a = homeByte s n a :=
  homeByte_groupsOnly (groupsOnly_entered i s) (spill_entered i s) n a
theorem stores_entered (g : Nat) : (grpOf (entered i s) g).stores = (grpOf s g).stores := by
  by_cases hg : g = s.cur
  · have h := stores_cg_entered i s
    rw [cg, cur_entered] at h
    rw [hg, h, cg]
  · rw [grpOf_entered_other i s hg]
theorem viewByte_entered (l : List PendStore) (n : MemName) (a : Nat) : viewByte (entered i s) l n a = viewByte s l n a := by
  rw [viewByte, homeByte_entered, viewByte]
theorem seenStores_entered : seenStores (entered i s) s.cur = seenStores s s.cur := by
  have hgroups : (entered i s).groups = Map.put s.groups s.cur (cg (entered i s)) := by
    rw [entered_eq, cg_setCg]
    rfl
  unfold seenStores
  rw [hgroups, stores_entered, flatMap_put]
  exact fun x => if_pos (beq_self_eq_true _)
theorem peeks_entered (n : MemName) (a len : Nat) : peeks (entered i s) s.cur n a len = peeks s s.cur n a len := by
  have hgroups : (entered i s).groups = Map.put s.groups s.cur (cg (entered i s)) := by
    rw [entered_eq, cg_setCg]
    rfl
  have hcore : (grpOf (entered i s) s.cur).core = (grpOf s s.cur).core := by
    have h : (cg (entered i s)).core = (cg s).core := (congrArg Group.core (repathed_entered i s) :)
    rw [cg, cur_entered] at h
    exact h
  have hhome (core : Nat) : homeCore (entered i s) core n a = homeCore s core n a := by
    unfold homeCore
    simp only [blkOf_entered, kernFor_entered]
  unfold peeks
  dsimp only
  rw [hgroups, hcore, hhome, flatMap_put]
  intro x
  rw [bne_self_eq_false, Bool.false_and, if_neg Bool.false_ne_true]
theorem sightOf_entered (n : MemName) (a len : Nat) : sightOf (entered i s) s.cur n a len = sightOf s s.cur n a len := by
  have hborn : (grpOf (entered i s) s.cur).born = (grpOf s s.cur).born := by
    have h : (cg (entered i s)).born = (cg s).born := (congrArg Group.born (repathed_entered i s) :)
    rw [cg, cur_entered] at h
    exact h
  have hview : (grpOf (entered i s) s.cur).view = (grpOf s s.cur).view := by
    have h : (cg (entered i s)).view = (cg s).view := (congrArg Group.view (repathed_entered i s) :)
    rw [cg, cur_entered] at h
    exact h
  have hlog : (entered i s).log = s.log := (congrArg State.log (groupsOnly_entered i s) :)
  have hsights : sights (entered i s) s.cur n a len = sights s s.cur n a len := by
    unfold sights
    dsimp only
    rw [seenStores_entered, peeks_entered, hlog, hborn, hview]
  unfold sightOf pickOne
  rw [hsights, fresh_entered]
theorem sightByte_entered (n : MemName) (a len : Nat) (x : Sight) (j : Nat) :
    sightByte (entered i s) s.cur n a len x j = sightByte s s.cur n a len x j := by
  have hlog : (entered i s).log = s.log := (congrArg State.log (groupsOnly_entered i s) :)
  cases x with
  | newest => rw [sightByte, seenStores_entered, viewByte_entered, sightByte]
  | cut k => rw [sightByte, hlog, homeByte_entered, sightByte]
  | peek h k => rw [sightByte, stores_entered, viewByte_entered, sightByte]
theorem loadBytes_entered (n : MemName) (a len : Nat) : loadBytes (entered i s) n a len = loadBytes s n a len := by
  have hview : (cg (entered i s)).view = (cg s).view := (congrArg Group.view (repathed_entered i s) :)
  have hblk : (cg (entered i s)).blk = (cg s).blk := (congrArg Group.blk (repathed_entered i s) :)
  have hearly (w : View) (x : Nat) : earlyRead (entered i s) w n x = earlyRead s w n x :=
    congrArg (fun l => earlyRead { s with blocks := l } w n x) (groupsOnly_entered i s).blocks
  have hheld (b x : Nat) (y : Byte) : underHeld (entered i s) b n x y = underHeld s b n x y := by
    rw [entered_eq]
    rfl
  unfold loadBytes
  simp only [cur_entered, sightOf_entered, hview, hblk, hearly, hheld, sightByte_entered, fresh_entered]
theorem bankWord_entered (a t : Nat) : bankWord (entered i s) a t = bankWord s a t := by
  have hcore : (cg (entered i s)).core = (cg s).core := (congrArg Group.core (repathed_entered i s) :)
  have hcores (c : Nat) : coreOf (entered i s) c = coreOf s c := by
    rw [entered_eq]
    rfl
  have hmem (c va : Nat) : vaMem (entered i s) c va = vaMem s c va := by
    rw [entered_eq]
    rfl
  have hstored (k : Kern) (m : MemName) (x : Nat) : storedSince (entered i s) k m x = storedSince s k m x := by
    rw [entered_eq]
    rfl
  unfold bankWord
  simp only [cb_entered, ck_entered, hcore, hcores, hmem, hstored, fresh_entered]
theorem loadPlace_entered (t n : Nat) (p : Place) : loadPlace (entered i s) t n p = loadPlace s t n p := by
  match p with
  | .at m a => exact loadBytes_entered i s m a n
  | .bank a => exact congrArg wordBytes (bankWord_entered i s a t)
  | .bad c => rfl
end

/-! ### What the reads of a word leave -/

theorem listens_noteReads (s : State) (es : List (MemName × Nat × Nat)) : Listens s.cur s (noteReads s s es) :=
  Listens.foldl (fun z _ => listens_noteRead z s.cur _ _ _ _) es s
theorem listens_openLoads {r : Nat} (s0 s : State) (es : List (Reg × Nat × MemName × Nat × Nat)) (h : s.cur = r) :
    Listens r s (openLoads s0 s es) := by
  unfold openLoads
  dsimp only
  split
  · exact Listens.refl r s
  · rw [← h]
    exact listens_setGrp rfl rfl
theorem listens_read (s : State) (n : Nat) (ps : List Place) (es : List (Reg × Nat × MemName × Nat × Nat)) :
    Listens s.cur s (openLoads s (notePlaces s n ps) es) := by
  have hnoted : Listens s.cur s (notePlaces s n ps) := listens_noteReads s _
  have hcur : (notePlaces s n ps).cur = s.cur := (congrArg State.cur hnoted.rest :)
  exact hnoted.trans (listens_openLoads s _ es hcur)
theorem listens_noteLoads (i : Info) (s : State) (sp : Space) (d n : Nat) (es : List (Nat × Nat)) :
    Listens s.cur (entered i s) (noteLoads (entered i s) sp d n es) := by
  have h := listens_read (entered i s) n ((es.map fun e => (e.1, placeOf (entered i s) sp .load e.1 e.2 n)).map Prod.snd)
    (loadWords (fun i => .v (d + i)) n (es.map fun e => (e.1, placeOf (entered i s) sp .load e.1 e.2 n)))
  rw [cur_entered] at h
  exact h

/-! ### The words -/

theorem loadResult_of_listens {ins : Instr} {s : State} {d : Nat} {f : Nat → Word} {act : State → Act} {e : State}
    (he : exec ins s = issue (info ins) s act) (ha : act (entered (info ins) s) = .done (wv e d (emask e) f))
    (hl : Listens s.cur (entered (info ins) s) e) : LoadResult ins s d f := by
  intro h
  refine ⟨_, he.trans (issue_done h ha), ?_, ?_⟩
  · intro th hth
    rw [hl.wv, hl.emask, laneReg_loaded h, look_put_same, laneNew_get _ _ _ _ hth]
  · rw [hl.wv]
    exact onlyLoads_loaded h hl _ _ (fun r hr => look_put_other _ _ _ (not_in_one hr)) (fun _ _ => rfl)
theorem loadPairResult_of_listens {ins : Instr} {s : State} {d : Nat} {f : Nat → BitVec 64} {lo hi : Nat → Word} {act : State → Act}
    {e : State} (he : exec ins s = issue (info ins) s act)
    (ha : act (entered (info ins) s) = .done (wv (wv e d (emask s) lo) (d + 1) (emask s) hi))
    (hl : Listens s.cur (entered (info ins) s) e) (hf : ∀ t, f t = hi t ++ lo t) : LoadPairResult ins s d f := by
  intro h
  refine ⟨_, he.trans (issue_done h ha), ?_, ?_⟩
  · intro th hth
    rw [hl.wv_pair, lanePair, laneReg_loaded h, laneReg_loaded h, look_put_same, look_put_other _ _ _ (Ne.symm (Nat.succ_ne_self d)),
      look_put_same, laneNew_get _ _ _ _ hth, laneNew_get _ _ _ _ hth, lanePair, hf]
    split <;> rfl
  · rw [hl.wv_pair]
    refine onlyLoads_loaded h hl _ _ (fun r hr => ?_) (fun _ _ => rfl)
    rw [look_put_other _ _ _ (not_in_two hr).2, look_put_other _ _ _ (not_in_two hr).1]
theorem uniLoadResult_of_listens {ins : Instr} {s : State} {d : Nat} {w : Word} {act : State → Act} {e : State}
    (he : exec ins s = issue (info ins) s act) (ha : act (entered (info ins) s) = .done (ws e d w))
    (hl : Listens s.cur (entered (info ins) s) e) : UniLoadResult ins s d w := by
  intro h
  refine ⟨_, he.trans (issue_done h ha), ?_, ?_⟩
  · rw [hl.ws, uniReg_loaded h, look_put_same]
  · rw [hl.ws]
    exact onlyLoads_loaded h hl _ _ (fun _ _ => rfl) (fun n hn => look_put_other _ _ _ (not_in_one hn))

theorem loadResult_of_laneLoad {ins : Instr} {s : State} {sp : Space} {d a : BitVec 7} {o : BitVec 8}
    (he : exec ins s = issue (info ins) s fun s => laneLoad s sp d a o) (hmay : MayAccess s sp .load 4 (threadAddr s a o 4)) :
    LoadResult ins s d.toNat fun t => wordOf (loadPlace s t 4 (placeOf s sp .load t (threadAddr s a o 4 t) 4)) := by
  refine loadResult_of_listens he ?_ (listens_noteLoads (info ins) s sp d.toNat 4 (accesses s (threadAddr s a o 4)))
  unfold laneLoad
  dsimp only
  rw [accesses_entered, laneAddr_entered, checked_go hmay]
  simp only [placeOf_entered, loadPlace_entered, laneAddr_entered]
  rfl
/-- The 64-bit value that a thread loads from the block window. -/
def pairLoaded (s : State) (a : BitVec 7) (o : BitVec 8) (t : Nat) : BitVec 64 :=
  dwordOf (loadPlace s t 8 (placeOf s .blk .load t (threadAddr s a o 8 t) 8))
theorem lds64_result {s : State} {st : BitVec 2} {d a : BitVec 7} {o : BitVec 8} (hmay : MayAccess s .blk .load 8 (threadAddr s a o 8)) :
    LoadPairResult (.lds64 st d a o) s d.toNat (pairLoaded s a o) := by
  refine loadPairResult_of_listens (lo := fun t => lowWord (pairLoaded s a o t)) (hi := fun t => highWord (pairLoaded s a o t))
    (exec_lds64 st d a o s) ?_ (listens_noteLoads (info (.lds64 st d a o)) s .blk d.toNat 8 (accesses s (threadAddr s a o 8)))
    fun t => (highWord_append_lowWord _).symm
  dsimp only
  rw [accesses_entered, laneAddr_entered, checked_go hmay]
  simp only [placeOf_entered, loadPlace_entered, laneAddr_entered, emask_entered]
  rfl

theorem sldc_result {s : State} {st : BitVec 2} {d a : BitVec 7} {o : BitVec 8}
    (hx : ((uniReg s a.toNat).toNat + 4 * o.toNat) % 2 ^ 32 % 4 = 0)
    (hin : ((uniReg s a.toNat).toNat + 4 * o.toNat) % 2 ^ 32 + 4 ≤ (ck s).hdr.constlen) :
    UniResult (.sldc st d a o) s d.toNat (bankWord s (((uniReg s a.toNat).toNat + 4 * o.toNat) % 2 ^ 32) 0) := by
  refine uni_result (exec_sldc st d a o s) ?_
  dsimp only
  rw [uniAddr_entered, ck_entered, if_neg (not_not_intro hx), if_neg (Nat.not_lt.mpr hin), bankWord_entered]
  rfl
theorem slds_result {s : State} {st : BitVec 2} {d a : BitVec 7} {o : BitVec 8} {m : MemName} {y : Nat}
    (hx : ((uniReg s a.toNat).toNat + 4 * o.toNat) % 2 ^ 32 % 4 = 0)
    (hat : blkPlace s .load (((uniReg s a.toNat).toNat + 4 * o.toNat) % 2 ^ 32) 4 = .at m y)
    (hecc : eccAt s (cg s).stores m y 4 = false) : UniLoadResult (.slds st d a o) s d.toNat (wordOf (loadBytes s m y 4)) := by
  have hl := listens_read (entered (info (.slds st d a o)) s) 4 [.at m y] (loadWords (fun _ => .s d.toNat) 4 [(0, .at m y)])
  rw [cur_entered] at hl
  refine uniLoadResult_of_listens (exec_slds st d a o s) ?_ hl
  rw [uniAddr_entered, uniTrap_entered, uniTrap_none hat hx fun _ => hecc, blkPlace_entered, hat]
  dsimp only
  rw [loadPlace_entered]
  rfl

/-- Settles O32: a load's bytes are those its group reads at its place, and reading leaves only what the group has observed. -/
theorem loads : Obligations.Loads := by
  refine ⟨fun s st d a o => ?_, readValues, fun s st d a o => ⟨sldc_result, fun hx m y hat hecc => slds_result hx hat hecc⟩⟩
  exact ⟨loadResult_of_laneLoad (exec_lds st d a o s), loadResult_of_laneLoad (exec_ldw st d a o s),
    loadResult_of_laneLoad (exec_ldsp st d a o s), loadResult_of_laneLoad (exec_ldd st d a o s),
    loadResult_of_laneLoad (exec_ldc st d a o s), lds64_result⟩

end Sys2Proof.Machine
end

