-- ==== Sys2Proof/Proofs/GeneratorWords.lean ====
section
/-!
PROOFS. Proofs/GeneratorWords.lean: the generator words (R308 to R320) and XLATE (R328 to R332).
-/
namespace Sys2Proof.Machine

/-! ### Coordinates and checks of GEN and GENT -/

theorem gfield_eq (x : BitVec 128) (lo n : Nat) : gfield x lo n = (x.extractLsb' lo n).toNat := by
  rw [gfield, BitVec.extractLsb'_toNat, Nat.shiftRight_eq_div_pow]
/-- A thread's logical coordinates, exchanged by GENT. -/
def genCoords (s : State) (x : BitVec 128) (turn : Bool) (a t : Nat) : Nat × Nat :=
  if turn then (genRow x (laneReg s (a + 1) t).toNat, genCol x (laneReg s a t).toNat)
  else (genRow x (laneReg s a t).toNat, genCol x (laneReg s (a + 1) t).toNat)
/-- The address of the frequency word that a thread's phase reads. -/
def genAddr (s : State) (x : BitVec 128) (turn : Bool) (a t : Nat) : Nat := genTable x (genCoords s x turn a t).2
/-- Whether the frequency word at an address has cause for a trap. -/
def genFault (s : State) (phase : Bool) (c : TrapCode) (e : Nat × Nat) : Bool :=
  match c with
  | .bound => phase && decide ((ck s).hdr.winbytes < e.2 + 4)
  | .ecc => phase && eccAt s (cg s).stores (.win (cg s).blk) e.2 4
  | _ => false
/-- A thread's value. -/
def genWord (s : State) (x : BitVec 128) (turn : Bool) (a t : Nat) : Word :=
  BitVec.ofNat 32 (genValue x (genKey s x) (loadWord s (.win (cg s).blk) (genAddr s x turn a t)) (genCoords s x turn a t).1
    (genCoords s x turn a t).2)
/-- The state of a GEN or GENT after its reads. -/
def genRead (s : State) (blk : Nat) (phase : Bool) (es : List (Nat × Nat)) : State :=
  if phase then notePlaces s 4 (es.map fun e => .at (.win blk) e.2) else s
theorem listens_genRead (i : Info) (s : State) (blk : Nat) (phase : Bool) (es : List (Nat × Nat)) :
    Listens s.cur (entered i s) (genRead (entered i s) blk phase es) := by
  unfold genRead
  split
  · have h := listens_noteReads (entered i s) ((es.map fun e => Place.at (.win blk) e.2).filterMap fun p => match p with
      | .at m a => some (m, a, 4)
      | _ => none)
    rw [cur_entered] at h
    exact h
  · exact Listens.refl _ _

/-- A generator word of a valid descriptor, in the state it starts from. -/
def genAct (s e : State) (x : BitVec 128) (turn : Bool) (d a : BitVec 7) : Act :=
  match firstOn (genFault s (genKind x == 4)) (accesses s (genAddr s x turn a.toNat)) [.bound, .ecc] with
  | some t => .trap t
  | none => laneOut (genRead e (cg s).blk (genKind x == 4) (accesses s (genAddr s x turn a.toNat))) d (genWord s x turn a.toNat)
theorem genAt_entered (i : Info) (s : State) (x : BitVec 128) (turn : Bool) (a t : Nat) :
    genAt (entered i s) x turn a t = genCoords s x turn a t := by
  rw [genAt, rv_entered, rv_entered]
  rfl
theorem genKey_entered (i : Info) (s : State) (x : BitVec 128) : genKey (entered i s) x = genKey s x := by
  rw [genKey, ck_entered, cb_entered, genKey]
theorem loadWord_entered (i : Info) (s : State) (m : MemName) (a : Nat) : loadWord (entered i s) m a = loadWord s m a :=
  congrArg wordOf (loadBytes_entered i s m a 4)
theorem genLanes_idle {i : Info} {s : State} (h : emask s = 0) (turn : Bool) (d a : BitVec 7) (g : BitVec 3) :
    genLanes (entered i s) turn d a g = .done (entered i s) := by
  unfold genLanes
  dsimp only
  rw [emask_entered, h]
  exact if_pos (beq_self_eq_true _)
theorem genLanes_invalid {i : Info} {s : State} {g : BitVec 3} (h : emask s ≠ 0) (hx : genValid (genReg s g.toNat) = false) (turn : Bool)
    (d a : BitVec 7) : genLanes (entered i s) turn d a g = .trap { code := .illconv } := by
  unfold genLanes
  dsimp only
  rw [emask_entered, if_neg (by simpa using h), rg_entered, hx]
  exact if_pos rfl
theorem genLanes_valid {i : Info} {s : State} {g : BitVec 3} (h : emask s ≠ 0) (hx : genValid (genReg s g.toNat) = true) (turn : Bool)
    (d a : BitVec 7) : genLanes (entered i s) turn d a g = genAct s (entered i s) (genReg s g.toNat) turn d a := by
  have hblk : (cg (entered i s)).blk = (cg s).blk := (congrArg Group.blk (repathed_entered i s) :)
  unfold genLanes
  dsimp only
  rw [emask_entered, if_neg (by simpa using h), rg_entered, hx, if_neg (by decide)]
  simp only [accesses_entered, genAt_entered, ck_entered, stores_cg_entered, hblk, eccAt_entered, genKey_entered, loadWord_entered]
  unfold genAct firstOn firstOn firstOn
  rw [Option.or_none]
  rfl

/-! ### GEN and GENT -/

theorem not_bitOf_of_idle {s : State} (h : emask s = 0) (t : Nat) : bitOf (emask s) t = false := by
  rw [h, bitOf]
  exact BitVec.getLsbD_zero
/-- With no thread active a word that then does nothing has each lane result. -/
theorem laneResult_idle {ins : Instr} {s : State} {d : Nat} {f : Nat → Word} {act : State → Act}
    (he : exec ins s = issue (info ins) s act) (ha : act (entered (info ins) s) = .done (entered (info ins) s)) (hidle : emask s = 0) :
    LaneResult ins s d f := by
  intro h
  obtain ⟨t, ht, honly⟩ := none_result he ha h
  refine ⟨t, ht, fun th _ => ?_, { honly with lane := fun r _ => honly.lane r List.not_mem_nil }⟩
  rw [not_bitOf_of_idle hidle, if_neg Bool.false_ne_true, honly.lane d List.not_mem_nil]
theorem loadResult_idle {ins : Instr} {s : State} {d : Nat} {f : Nat → Word} {act : State → Act}
    (he : exec ins s = issue (info ins) s act) (ha : act (entered (info ins) s) = .done (entered (info ins) s)) (hidle : emask s = 0) :
    LoadResult ins s d f := by
  intro h
  have hl : Listens s.cur (entered (info ins) s) (entered (info ins) s) := Listens.refl _ _
  have honly := onlyLoads_loaded (vs := [d]) (us := []) h hl (cg (entered (info ins) s)).v (cg (entered (info ins) s)).s
    (fun _ _ => by rw [v_cg_entered]) (fun _ _ => by rw [s_cg_entered])
  rw [settled_loaded_self h] at honly
  refine ⟨_, he.trans (issue_done h ha), fun th _ => ?_, honly⟩
  rw [not_bitOf_of_idle hidle, if_neg Bool.false_ne_true, laneReg_settled h, laneReg_entered]

section
variable {ins : Instr} {s : State} {turn : Bool} {d a : BitVec 7} {g : BitVec 3}

/-- Every phase's frequency word lies in the window and holds no error. -/
def PhasesOk (s : State) (x : BitVec 128) (turn : Bool) (a : Nat) : Prop :=
  genKind x = 4 → ∀ t, bitOf (emask s) t = true → genAddr s x turn a t + 4 ≤ (ck s).hdr.winbytes ∧
    eccAt s (cg s).stores (.win (cg s).blk) (genAddr s x turn a t) 4 = false
theorem genAct_ok {e : State} {x : BitVec 128} (h : PhasesOk s x turn a.toNat) : genAct s e x turn d a =
    laneOut (genRead e (cg s).blk (genKind x == 4) (accesses s (genAddr s x turn a.toNat))) d (genWord s x turn a.toNat) := by
  have hnone : firstOn (genFault s (genKind x == 4)) (accesses s (genAddr s x turn a.toNat)) [.bound, .ecc] = none := by
    refine firstOn_none (fun c t ht => ?_) _
    unfold genFault
    split
    · by_cases hk : genKind x = 4
      · rw [decide_eq_false (Nat.not_lt.mpr (h hk t ht).1), Bool.and_false]
      · rw [beq_eq_false_iff_ne.mpr hk, Bool.false_and]
    · by_cases hk : genKind x = 4
      · rw [(h hk t ht).2, Bool.and_false]
      · rw [beq_eq_false_iff_ne.mpr hk, Bool.false_and]
    · rfl
  unfold genAct
  rw [hnone]
variable (he : exec ins s = issue (info ins) s fun s => genLanes s turn d a g)
include he

theorem laneResult_of_genLanes (hx : genValid (genReg s g.toNat) = true) (hok : PhasesOk s (genReg s g.toNat) turn a.toNat)
    (hk : genKind (genReg s g.toNat) ≠ 4) : LaneResult ins s d.toNat (genWord s (genReg s g.toNat) turn a.toNat) := by
  by_cases hidle : emask s = 0
  · exact laneResult_idle he (genLanes_idle hidle turn d a g) hidle
  · refine lane_result he ?_
    rw [genLanes_valid hidle hx, genAct_ok hok, beq_eq_false_iff_ne.mpr hk, genRead, if_neg Bool.false_ne_true, laneOut, emask_entered]
theorem loadResult_of_genLanes (hx : genValid (genReg s g.toNat) = true) (hok : PhasesOk s (genReg s g.toNat) turn a.toNat) :
    LoadResult ins s d.toNat (genWord s (genReg s g.toNat) turn a.toNat) := by
  by_cases hidle : emask s = 0
  · exact loadResult_idle he (genLanes_idle hidle turn d a g) hidle
  · refine loadResult_of_listens he ?_ (listens_genRead (info ins) s (cg s).blk (genKind (genReg s g.toNat) == 4)
      (accesses s (genAddr s (genReg s g.toNat) turn a.toNat)))
    rw [genLanes_valid hidle hx, genAct_ok hok, laneOut]
theorem genLanes_illconv (hx : genValid (genReg s g.toNat) = false) (hmask : emask s ≠ 0) (h : MayIssue (info ins) s) :
    exec ins s = .next (takeTrap s s.cur { code := .illconv }) := he.trans (issue_trap h (genLanes_invalid hmask hx turn d a))
/-- A phase whose word lies beyond the window, or holds an error, raises its trap. -/
theorem genLanes_raises {c : TrapCode} {lo : Nat} {ths : Mask} (hx : genValid (genReg s g.toNat) = true)
    (hk : genKind (genReg s g.toNat) = 4)
    (hfirst : FirstTrap s [.bound, .ecc] (fun c t => (c = .bound ∧ (ck s).hdr.winbytes < genAddr s (genReg s g.toNat) turn a.toNat t + 4) ∨
      (c = .ecc ∧ eccAt s (cg s).stores (.win (cg s).blk) (genAddr s (genReg s g.toNat) turn a.toNat t) 4 = true)) c lo ths) :
    Raises ins s
      { code := c, addr := BitVec.ofNat 64 (genAddr s (genReg s g.toNat) turn a.toNat lo), threads := some ths } := by
  intro h
  have hmask : emask s ≠ 0 := fun hidle => by
    have hlo := hfirst.lowest.1
    rw [not_bitOf_of_idle hidle] at hlo
    exact absurd hlo Bool.false_ne_true
  have htrap := firstOn_first (f := genAddr s (genReg s g.toNat) turn a.toNat) (p := genFault s (genKind (genReg s g.toNat) == 4)) ?_ hfirst
  · refine he.trans (issue_trap h ?_)
    rw [genLanes_valid hmask hx, genAct, htrap]
  · intro b t
    rw [hk]
    unfold genFault
    cases b <;> simp
end

/-! ### Generator and translation registers -/

theorem wg_settled {i : Info} {s : State} (h : MayIssue i s) (n : Nat) (w : BitVec 128) :
    genReg (settled i s (wg (entered i s) n w)) n = w ∧ OnlyRegs i s (settled i s (wg (entered i s) n w)) [] [] [] [] [n] := by
  obtain ⟨e1, e2, e3, e4, e5⟩ := entered_fields i s
  have hdone : settled i s (wg (entered i s) n w) = regsDone i s (cg s).v (cg s).s (cg s).p (cg s).x (Map.put (cg s).g n w) := by
    rw [regsDone, wg, ← e1, ← e2, ← e3, ← e4, ← e5]
  rw [hdone]
  refine ⟨?_, regsDone_only h _ _ _ _ _ (fun _ _ => rfl) (fun _ _ => rfl) (fun _ _ _ => rfl) (fun _ _ => rfl)
    fun r hr => look_put_other _ _ _ (not_in_one hr)⟩
  rw [genReg, (regsDone_regs h _ _ _ _ _).2.2.2.2, look_put_same]
theorem wx_settled {i : Info} {s : State} (h : MayIssue i s) (n : Nat) (w : XReg) :
    xlatReg (settled i s (wx (entered i s) n w)) n = w ∧ OnlyRegs i s (settled i s (wx (entered i s) n w)) [] [] [] [n] [] := by
  obtain ⟨e1, e2, e3, e4, e5⟩ := entered_fields i s
  have hdone : settled i s (wx (entered i s) n w) = regsDone i s (cg s).v (cg s).s (cg s).p (Map.put (cg s).x n w) (cg s).g := by
    rw [regsDone, wx, ← e1, ← e2, ← e3, ← e4, ← e5]
  rw [hdone]
  refine ⟨?_, regsDone_only h _ _ _ _ _ (fun _ _ => rfl) (fun _ _ => rfl) (fun _ _ _ => rfl)
    (fun r hr => look_put_other _ _ _ (not_in_one hr)) fun _ _ => rfl⟩
  rw [xlatReg, (regsDone_regs h _ _ _ _ _).2.2.2.1, look_put_same]

/-! ### XLATE -/

/-- XLATE of an address of the device, after its look-up. -/
def xlateFound (found : Option Leaf × State) (p : Addr) (w r : Bool) (x : Nat) : Act :=
  match checkLeaf found.2 (cb found.2).world found.1 p.toNat r w false with
  | some t => .trapIn found.2 { code := t, addr := p, hasPage := true }
  | none => .done (if (cb (wx found.2 x (leafReg (found.1.getD {}) p))).spec then wx found.2 x (leafReg (found.1.getD {}) p)
      else usePage (wx found.2 x (leafReg (found.1.getD {}) p)) (cb (wx found.2 x (leafReg (found.1.getD {}) p))).ctx (found.1.getD {}))
/-- What XLATE does. -/
def xlateAct (m : BitVec 1) (p : Addr) (w r : Bool) (x : Nat) (s : State) : Act :=
  if m == 1 then .done (wx s x { base := p, valid := true, remote := true })
  else if p.toNat / 2 ^ 56 ≠ 0 then .trap { code := .align, addr := p }
  else xlateFound (tlbLook s (cb s).ctx p.toNat) p w r x
theorem exec_xlate_eq (st : BitVec 2) (a : BitVec 6) (m w r : BitVec 1) (x : BitVec 3) (s : State) :
    exec (.xlate st a m w r x) s = issue (info (.xlate st a m w r x)) s fun s => xlateAct m (rs64 s (2 * a.toNat)) (w == 1) (r == 1) x.toNat s :=
  rfl
theorem cb_tlb (s : State) (t : List TlbEntry) : cb { s with tlb := t } = cb s := rfl
theorem cb_wx (s : State) (n : Nat) (y : XReg) : cb (wx s n y) = cb s := by
  have hblk : (cg (wx s n y)).blk = (cg s).blk := (congrArg Group.blk (cg_setCg s { cg s with x := Map.put (cg s).x n y }) :)
  rw [cb, hblk]
  rfl
section
variable {i : Info} {s : State} {p : Addr} {w r : Bool} {x : Nat} {f : Option Leaf} {t : List TlbEntry}

theorem xlateFound_bad {c : TrapCode} (h : checkLeaf s (cb s).world f p.toNat r w false = some c) :
    xlateFound (f, { entered i s with tlb := t }) p w r x = .trapIn { entered i s with tlb := t } { code := c, addr := p, hasPage := true } := by
  unfold xlateFound
  simp only [checkLeaf_tlb, checkLeaf_entered, cb_tlb, cb_entered, h]
theorem xlateFound_ok {l : Leaf} (h : checkLeaf s (cb s).world (some l) p.toNat r w false = none) :
    xlateFound (some l, { entered i s with tlb := t }) p w r x =
      .done (if (cb s).spec then wx { entered i s with tlb := t } x (leafReg l p)
        else usePage (wx { entered i s with tlb := t } x (leafReg l p)) (cb s).ctx l) := by
  unfold xlateFound
  simp only [checkLeaf_tlb, checkLeaf_entered, cb_wx, cb_tlb, cb_entered, h, Option.getD_some]
end

theorem xlateAct_local {s : State} {p : Addr} {w r : Bool} {x : Nat} (h : p.toNat < 2 ^ 56) (i : Info) :
    xlateAct 0 p w r x (entered i s) =
      xlateFound ((tlbLook s (cb s).ctx p.toNat).1, { entered i s with tlb := (tlbLook s (cb s).ctx p.toNat).2.tlb }) p w r x := by
  have hzero : ((0 : BitVec 1) == 1) = false := by decide
  unfold xlateAct
  rw [hzero, if_neg Bool.false_ne_true, if_neg (not_not_intro (Nat.div_eq_of_lt h)), cb_entered, tlbLook_entered]
theorem translationWords : Statements.TranslationWords := by
  intro s st a w r x l p f
  refine ⟨fun h => ?_, fun hp hf hcheck hspec h => ?_, fun hp hf hcheck hspec h => ?_⟩
  · have hone : ((1 : BitVec 1) == 1) = true := by decide
    refine ⟨_, (exec_xlate_eq st a 1 w r x s).trans (issue_done h ?_), wx_settled h x.toNat _⟩
    rw [rs64_entered, xlateAct, hone, if_pos rfl]
  · have hact : xlateAct 0 p (w == 1) (r == 1) x.toNat (entered (info (.xlate st a 0 w r x)) s) =
        .done (wx (entered (info (.xlate st a 0 w r x)) { s with tlb := f.2.tlb }) x.toNat (leafReg l p)) := by
      rw [xlateAct_local hp, hf, xlateFound_ok hcheck, if_pos hspec]
      exact congrArg (fun z => Act.done (wx z x.toNat (leafReg l p))) (entered_tlb _ s f.2.tlb).symm
    have hres := wx_settled (mayIssue_tlb h f.2.tlb) x.toNat (leafReg l p)
    rw [settled_tlb] at hres
    refine ⟨_, (exec_xlate_eq st a 0 w r x s).trans (issue_done h ?_), hres⟩
    rw [rs64_entered]
    exact hact
  · intro u
    have hu : u = { entered (info (.xlate st a 0 w r x)) s with tlb := f.2.tlb } := congrArg Prod.snd (tlbLook_entered _ s _ _)
    refine (exec_xlate_eq st a 0 w r x s).trans (issue_done h ?_)
    rw [rs64_entered]
    refine (xlateAct_local hp _).trans ?_
    rw [hf, xlateFound_ok hcheck, hspec, if_neg Bool.false_ne_true, hu]

/-! ### The obligation -/

theorem generatorValues : Statements.GeneratorWords := by
  intro s st d a g e x hx row col ok value straight turned
  subst hx
  have hrow (n : Word) : row n = genRow (genReg s g.toNat) n.toNat := by rw [genRow, gfield_eq]
  have hcol (n : Word) : col n = genCol (genReg s g.toNat) n.toNat := by rw [genCol, gfield_eq]
  have hstraight : straight = genWord s (genReg s g.toNat) false a.toNat := by
    funext t
    simp only [straight, value, hrow, hcol]
    rfl
  have hturned : turned = genWord s (genReg s g.toNat) true a.toNat := by
    funext t
    simp only [turned, value, hrow, hcol]
    rfl
  have hok : ok (fun t => col (laneReg s (a.toNat + 1) t)) → PhasesOk s (genReg s g.toNat) false a.toNat := by
    intro h hk t ht
    have hone := h hk t ht
    simp only [hcol] at hone
    exact hone
  have hokTurned : ok (fun t => col (laneReg s a.toNat t)) → PhasesOk s (genReg s g.toNat) true a.toNat := by
    intro h hk t ht
    have hone := h hk t ht
    simp only [hcol] at hone
    exact hone
  rw [hstraight, hturned]
  refine ⟨fun hv h => ⟨laneResult_of_genLanes (exec_gen st d a g s) hv (hok h), fun _ => loadResult_of_genLanes (exec_gen st d a g s) hv (hok h)⟩,
    fun hv h => ⟨laneResult_of_genLanes (exec_gent st d a g s) hv (hokTurned h),
      fun _ => loadResult_of_genLanes (exec_gent st d a g s) hv (hokTurned h)⟩,
    fun hv hm => ⟨genLanes_illconv (exec_gen st d a g s) hv hm, genLanes_illconv (exec_gent st d a g s) hv hm⟩, fun h => ?_, fun h => ?_⟩
  · have hset := wg_settled h g.toNat (uniPair s (4 * e.toNat + 2) ++ uniPair s (4 * e.toNat))
    refine ⟨_, (exec_gset st e g s).trans (issue_done h ?_), hset⟩
    rw [rs128_entered]
  · refine (exec_gstep st s).trans (issue_done h ?_)
    rw [cb_entered]
theorem translationTraps : Statements.TranslationTraps := by
  intro s st d a g x b w r v c lo ths hv col traps p f
  subst hv
  have hcol (n : Word) : col n = genCol (genReg s g.toNat) n.toNat := by rw [genCol, gfield_eq]
  have hplain : (fun t => genTable (genReg s g.toNat) (col (laneReg s (a.toNat + 1) t))) = genAddr s (genReg s g.toNat) false a.toNat := by
    funext t
    rw [hcol]
    rfl
  have hturned : (fun t => genTable (genReg s g.toNat) (col (laneReg s a.toNat t))) = genAddr s (genReg s g.toNat) true a.toNat := by
    funext t
    rw [hcol]
    rfl
  rw [hplain, hturned]
  refine ⟨fun hval hk hfirst => genLanes_raises (exec_gen st d a g s) hval hk hfirst,
    fun hval hk hfirst => genLanes_raises (exec_gent st d a g s) hval hk hfirst, fun hp h => ?_, fun hp hcheck h => ?_⟩
  · have hzero : ((0 : BitVec 1) == 1) = false := by decide
    refine (exec_xlate_eq st b 0 w r x s).trans (issue_trap h ?_)
    rw [rs64_entered]
    have hrank : p.toNat / 2 ^ 56 ≠ 0 := Nat.ne_of_gt (Nat.div_pos hp (Nat.two_pow_pos 56))
    unfold xlateAct
    rw [hzero, if_neg Bool.false_ne_true, if_pos hrank]
  · refine (exec_xlate_eq st b 0 w r x s).trans (issue_trapIn h ?_)
    rw [rs64_entered]
    refine (xlateAct_local hp _).trans ?_
    rw [xlateFound_bad hcheck, tlbLook_entered]

/-- Settles O35: a generator word checks what its phases read; XLATE's register is that of the leaf its look-up finds. -/
theorem generatorWords : Obligations.GeneratorWords := ⟨generatorValues, translationWords, translationTraps⟩

end Sys2Proof.Machine
end

