-- ==== Sys2Proof/Proofs/SpecialState.lean ====
section
/-!
PROOFS. Proofs/SpecialState.lean: SRD of %nblock (R130, R160). The statement has it complete where the header that the block's rank has read
has no predicted shape; SRD waits by the header that the kernel was submitted with, and the two may differ (R52).
-/
namespace Sys2Proof.Machine

/-- One group of a launch submitted with a predicted shape that is not known yet, whose rank has read a header without one. -/
def unshaped : State :=
  let s := { State.reset.withFetchWord 32 0 with cur := 2 }
  let k := kernOf s (cb s).kern
  let k' : Kern := { k with hdr := { k.hdr with policy := 1 }, hdrs := [((cb s).rank, { k.hdr with policy := 0 })] }
  { s with kerns := Map.put s.kerns (cb s).kern k'
           hall := { s.hall with repl := { s.hall.repl with kernels := [((cb s).kern, {})] } } }

/-- Whether an outcome's issuing path waits. -/
def waitsIn (o : Host.Outcome State Fault Refusal) : Bool :=
  match o with
  | .next t => (cp t).wait.isSome
  | _ => false
theorem unshaped_waits : waitsIn (exec (.srd 0 0 6 0) unshaped) = true := by decide

theorem unshaped_mayIssue : MayIssue (info (.srd 0 0 6 0)) unshaped where
  version := by decide
  defined := by decide
  slots := by decide
  privileged := by decide
  allotted := by decide
  readsOnTime := by decide
  writesOnTime := by decide
  region := by decide

/-- Refutes O30: SRD of %nblock waits for the shape where its rank's own header has a plain grid. -/
theorem not_specialState : ¬ Obligations.SpecialState := by
  intro h
  obtain ⟨-, hplain, -⟩ := h unshaped 0 0 6 0 0 (fun _ => 0) (fun _ => rfl)
  obtain ⟨-, huni⟩ := hplain (Or.inl rfl) (by decide)
  obtain ⟨t, hnext, -, honly⟩ := huni unshaped_mayIssue
  have hwaits := unshaped_waits
  rw [hnext, waitsIn, honly.path] at hwaits
  exact absurd hwaits (by decide)

end Sys2Proof.Machine
end

