-- ==== Sys2Proof/Proofs/WaitingWords.lean ====
section
/-!
PROOFS. Proofs/WaitingWords.lean: waiting, regions and fences (R147, R150, R238, R249, R302), and what an acquire leaves of a group that has
read no store still to be performed.
-/
namespace Sys2Proof.Machine

/-! ### An acquire with nothing to perform -/

/-- Group g has read no store that is still to be performed. -/
def NoPeek (s : State) (g : Nat) : Prop := ∀ h, ∀ p ∈ (grpOf s h).stores, p.peeked.contains g = false
/-- The second state's groups are those of the first, and nothing else changed. -/
structure Alike (s t : State) : Prop where
  rest : GroupsOnly s t
  groups : ∀ g, grpOf t g = grpOf s g
theorem Alike.refl (s : State) : Alike s s := ⟨GroupsOnly.refl s, fun _ => rfl⟩
theorem Alike.trans {s t u : State} (h : Alike s t) (k : Alike t u) : Alike s u :=
  ⟨h.rest.trans k.rest, fun g => (k.groups g).trans (h.groups g)⟩
theorem Alike.listens {s t : State} (h : Alike s t) (r : Nat) : Listens r s t where
  rest := h.rest
  reader := by
    rw [h.groups]
    rfl
  other g _ := by rw [h.groups]
  cells g := by rw [h.groups]
theorem alike_setGrp (s : State) (g : Nat) : Alike s (setGrp s g (grpOf s g)) where
  rest := groupsOnly_setGrp s g _
  groups h := by
    by_cases hg : h = g
    · rw [hg, grpOf_setGrp]
    · rw [grpOf_setGrp_other _ _ hg]

theorem partStores_none {sel : PendStore → Bool} {l : List PendStore} (h : ∀ p ∈ l, sel p = false) : partStores sel l = ([], l) := by
  induction l with
  | nil => rfl
  | cons p l ih =>
    rw [partStores, ih fun q hq => h q (List.mem_cons_of_mem p hq), h p List.mem_cons_self]
    rfl
theorem performSome_none {s : State} {g : Nat} {sel : PendStore → Bool} (h : ∀ p ∈ (grpOf s g).stores, sel p = false) (n : Nat) :
    Alike s (performSome n s g sel) := by
  have hpart := partStores_none h
  have hsame : performAll g (setGrp s g { grpOf s g with stores := (partStores sel (grpOf s g).stores).2 })
      (partStores sel (grpOf s g).stores).1 = setGrp s g (grpOf s g) := by
    rw [hpart]
    rfl
  cases n with
  | zero =>
    rw [performSome, hsame]
    exact alike_setGrp s g
  | succ n =>
    rw [performSome, hpart]
    simp only [List.any_nil, Bool.and_false]
    have hskip : s.groups.foldl (fun z e => if (e.1 == g || !e.2.stores.any fun _ => false) = true then z
        else performSome n z e.1 fun _ => false) s = s := by
      refine foldl_unchanged _ fun e _ => ?_
      rw [List.any_eq_false.mpr fun _ _ => Bool.false_ne_true, Bool.not_false, Bool.or_true, if_pos rfl]
    rw [hskip, hpart]
    exact alike_setGrp s g
theorem performMates_none {s : State} {g : Nat} (h : NoPeek s g) (sel : PendStore → Bool) : Alike s (performMates s g sel) := by
  have hfold (l : List (Nat × Group)) : ∀ z, Alike s z →
      Alike s (l.foldl (fun z e => if e.1 == g then z else performOf z e.1 fun p => p.peeked.contains g && sel p) z) := by
    induction l with
    | nil => exact fun z hz => hz
    | cons e l ih =>
      intro z hz
      refine ih _ ?_
      dsimp only
      split
      · exact hz
      · refine hz.trans (performSome_none (fun p hp => ?_) _)
        rw [hz.groups] at hp
        rw [h e.1 p hp, Bool.false_and]
  exact hfold s.groups s (Alike.refl s)
/-- An acquire of a group that has read no pending store changes only what the group has observed. -/
theorem listens_acquireGrp {s : State} {g : Nat} (h : NoPeek s g) (scope : Nat) (all : Bool) : Listens g s (acquireGrp s g scope all) := by
  unfold acquireGrp
  split
  · exact Listens.refl g s
  · have hmates := performMates_none h fun _ => true
    have hown : Alike s (performOf (performMates s g fun _ => true) g fun p => p.peeked.contains g) := by
      refine hmates.trans (performSome_none (fun p hp => ?_) _)
      rw [hmates.groups] at hp
      exact h g p hp
    exact (hown.listens g).trans (listens_setGrp rfl rfl)

theorem noPeek_of_noneRead {s : State} (h : NoneRead s) : NoPeek s s.cur := by
  intro g p hp
  cases hfind : Map.find s.groups g with
  | none =>
    rw [grpOf, look_of_find_none hfind] at hp
    exact absurd hp List.not_mem_nil
  | some x =>
    rw [grpOf, look_of_find hfind] at hp
    exact h (g, x) (mem_of_find hfind) p hp
theorem noPeek_entered {i : Info} {s : State} (h : NoneRead s) : NoPeek (entered i s) s.cur := by
  intro g p hp
  rw [stores_entered] at hp
  exact noPeek_of_noneRead h g p hp
theorem listens_acquire_entered {i : Info} {s : State} (h : NoneRead s) (scope : Nat) :
    Listens s.cur (entered i s) (acquire (entered i s) scope) := by
  rw [acquire, cur_entered]
  exact listens_acquireGrp (noPeek_entered h) scope false
/-- A word whose own effect is an acquire. -/
theorem acquireResult_of_listens {ins : Instr} {s : State} {none : Prop} {act : State → Act} {go : State → State}
    (he : exec ins s = issue (info ins) s act) (ha : act (entered (info ins) s) = .done (go (entered (info ins) s)))
    (hl : none → Listens s.cur (entered (info ins) s) (go (entered (info ins) s))) : AcquireResult ins s none go := by
  intro h
  refine ⟨_, he.trans (issue_done h ha), rfl, fun hn => ?_⟩
  have honly := onlyLoads_loaded (vs := []) (us := []) h (hl hn) (cg (go (entered (info ins) s))).v (cg (go (entered (info ins) s))).s
    (fun _ _ => by rw [(hl hn).laneWords]) (fun _ _ => by rw [(hl hn).uniWords])
  rwa [settled_loaded_self h] at honly

/-! ### Fences that release -/

theorem acquireGrp_zero (s : State) (g : Nat) (all : Bool) : acquireGrp s g 0 all = s := if_pos rfl
theorem cur_fenceRelease (s : State) (scope n : Nat) (full : Bool) : (fenceRelease s scope n full).cur = s.cur :=
  (performs_performStores s s.cur).cur
/-- A word that releases and then goes on with its own effect. -/
theorem releases_of_fenceThen {ins : Instr} {s : State} {scope : Nat} {full : Bool} {k : State → Act} {g : State → State}
    (h : MayIssue (info ins) s) (he : exec ins s = issue (info ins) s fun z => fenceThen z scope full k) (hscope : scope ≠ 0)
    (hk : ∀ z, z.cur = s.cur → k z = .done (g z)) :
    Releases (info ins) s scope full (exec ins s) fun e => .next (settled (info ins) s (g e)) := by
  have hwait := wait_cp_entered (info ins) s
  have hcur := cur_entered (info ins) s
  have hown (z : State) (hz : z.cur = s.cur) (n : Nat) :
      k (fenceRelease z scope n full) = .done (g (fenceRelease z scope n full)) := hk _ ((cur_fenceRelease z scope n full).trans hz)
  have hperform : (performStores (entered (info ins) s) s.cur).cur = s.cur := (performs_performStores _ _).cur.trans hcur
  rw [he]
  refine ⟨fun hw => ?_, fun pod n hw => ?_, fun w hw hd hf => issue_done h ?_⟩
  · refine issue_waitFor (k := fun z => k (fenceRelease z scope (if (cb s).spec && scope == 5 then 0 else (cb s).copy.tail) full)) h ?_
      (hown _ hperform _)
    unfold fenceThen
    dsimp only
    rw [if_neg hscope, hwait, cb_entered, hcur]
    rcases hw with hw | hw <;> rw [hw]
  · refine issue_waitFor (k := fun z => k (fenceRelease z scope n full)) h ?_ (hown _ hcur n)
    unfold fenceThen
    dsimp only
    rw [if_neg hscope, hwait, hw]
  · unfold fenceThen
    dsimp only
    rw [if_neg hscope, hwait, hw]
    cases w with
    | drained => exact absurd rfl hd
    | fenced pod n => exact absurd rfl (hf pod n)
    | _ => exact hk _ hcur
/-- A fence of one group's scope orders what a speculative block stages next. -/
theorem fenceThen_zero (z : State) (full : Bool) (k : State → Act) : fenceThen z 0 full k = k (setCb z { cb z with relNext := true }) := by
  unfold fenceThen
  exact if_pos rfl

/-! ### Regions -/

section
variable {i : Info} {s : State} (h : MayIssue i s) (n : Nat) (r : Option OpenRegion)

/-- The state of a word that opens or closes a region. -/
def regionSet (i : Info) (s : State) (n : Nat) (r : Option OpenRegion) : State :=
  setCg { entered i s with nextId := n } { cg (entered i s) with region := r }
theorem cg_regionSet : cg (regionSet i s n r) = { cg (entered i s) with region := r } := cg_setCg _ _
theorem machine_regionSet : { regionSet i s n r with groups := s.groups, nextId := s.nextId } = s := by
  rw [regionSet, entered_eq]
  rfl
include h
theorem settled_of_entered {e : State} (hm : { e with groups := s.groups, nextId := s.nextId } = s)
    (hp : cp e = cp (entered i s)) (hg : repathed (cg s) (cg e) = cg s) :
    cp (settled i s e) = { cp s with pc := (cp s).pc + 4, stall := i.stall, wait := none } ∧
      { settled i s e with groups := s.groups, fresh := s.fresh, nextId := s.nextId } = s ∧
      repathed (cg s) (cg (settled i s e)) = cg s := by
  refine ⟨?_, ?_, ?_⟩
  · rw [cp_settled h, hp, cp_entered]
  · have hset := congrArg (fun z : State => { z with groups := s.groups, fresh := s.fresh, nextId := s.nextId }) (machine_settled h e)
    exact hset.trans (congrArg (fun z : State => { z with fresh := s.fresh }) hm)
  · exact (congrArg (repathed (cg s)) (repathed_settled h e)).trans hg
theorem settled_regionSet : cp (settled i s (regionSet i s n r)) = { cp s with pc := (cp s).pc + 4, stall := i.stall, wait := none } ∧
    { settled i s (regionSet i s n r) with groups := s.groups, fresh := s.fresh, nextId := s.nextId } = s ∧
    repathed (cg s) (cg (settled i s (regionSet i s n r))) = cg s := by
  refine settled_of_entered h (machine_regionSet n r) ?_ ?_
  · rw [cp, cg_regionSet]
    rfl
  · rw [cg_regionSet]
    exact repathed_entered i s
end

theorem exec_region_opens {s : State} {st : BitVec 2} {j : BitVec 8} {x y : Nat} (hentry : (ck s).hdr.regions[j.toNat]? = some (x, y))
    (hn : j.toNat < (ck s).hdr.nregion) (hat : (codeOffset (ck s) (cp s).pc).toNat / 4 = x) (htwo : (cg s).two = false)
    (hstack : (cp s).stack = []) (h : MayIssue (info (.region st j)) s) :
    exec (.region st j) s = .next (settled (info (.region st j)) s (regionSet (info (.region st j)) s (s.nextId + 1)
      (some { id := s.nextId, index := j.toNat, start := (cp s).pc, mask := emask s, live := (cg s).live }))) := by
  have hnext : (entered (info (.region st j)) s).nextId = s.nextId := by
    rw [entered_eq]
    rfl
  have hpath : (cp (entered (info (.region st j)) s)).stack = [] := by
    rw [cp_entered]
    exact hstack
  have hplace : ((ck s).hdr.regions.getD j.toNat (0, 0)).1 = x := by
    rw [List.getD_eq_getElem?_getD, hentry]
    rfl
  refine (exec_region st j s).trans (issue_done h ?_)
  refine (if_neg ?_).trans ?_
  · rw [ck_entered, wordPc_entered, two_cg_entered, hpath, hplace, htwo, hat]
    simp [hn]
  · rw [regionSet, ← hnext, ← wordPc_entered (info (.region st j)) s, ← emask_entered (info (.region st j)) s,
      ← live_cg_entered (info (.region st j)) s]
theorem region_result {s : State} {st : BitVec 2} {j : BitVec 8} {x y : Nat} (hentry : (ck s).hdr.regions[j.toNat]? = some (x, y))
    (hn : j.toNat < (ck s).hdr.nregion) (hat : (codeOffset (ck s) (cp s).pc).toNat / 4 = x) (htwo : (cg s).two = false)
    (hstack : (cp s).stack = []) (h : MayIssue (info (.region st j)) s) : ∃ t, exec (.region st j) s = .next t ∧
      (∃ r, (cg t).region = some r ∧ r.index = j.toNat ∧ r.start = (cp s).pc ∧ r.mask = emask s ∧ r.live = (cg s).live) ∧
      cp t = { cp s with pc := (cp s).pc + 4, stall := st.toNat, wait := none } ∧
      { t with groups := s.groups, fresh := s.fresh, nextId := s.nextId } = s ∧ repathed (cg s) (cg t) = cg s := by
  refine ⟨_, exec_region_opens hentry hn hat htwo hstack h, ?_, settled_regionSet h _ _⟩
  rw [region_settled h, cg_regionSet]
  exact ⟨_, rfl, rfl, rfl, rfl, rfl⟩
theorem repathed_repathed (g x y : Group) : repathed g (repathed x y) = repathed g y := rfl
theorem onlyPath_of_machine {s t : State} {p : Path} (hm : { t with groups := s.groups, fresh := s.fresh } = s)
    (ho : ∀ g, g ≠ s.cur → grpOf t g = grpOf s g) (hg : repathed (cg s) (cg t) = cg s) (hp : cp t = p)
    (hr : restingPath (cg t) = restingPath (cg s)) : OnlyPath s t p := by
  have hcur : t.cur = s.cur := (congrArg State.cur hm :)
  have hspill (g : Nat) : (grpOf t g).spill = (grpOf s g).spill := by
    by_cases hgc : g = s.cur
    · have hc : (cg t).spill = (cg s).spill := (congrArg Group.spill hg :)
      rw [cg, cg, hcur] at hc
      rw [hgc, hc]
    · rw [ho g hgc]
  have hcores : t.cores = s.cores := (congrArg State.cores hm :)
  refine ⟨?_, fun c => ?_, ho, hg, hp, hr, fun m a => byteSeen_congr hm hspill (congrArg Group.stores hg :) m a⟩
  · exact (congrArg (fun z : State => { z with cores := s.cores }) hm :)
  · rw [coreOf, hcores, coreOf]
/-- A word that changes only its own group, and of it only its paths and marks of issue. -/
theorem onlyPath_setCg {i : Info} {s : State} (h : MayIssue i s) {y : Group} (hy : repathed (cg s) y = cg s)
    (hp : pathOf y = cp (entered i s)) (hr : restingPath y = restingPath (cg (entered i s))) :
    OnlyPath s (settled i s (setCg (entered i s) y)) { cp s with pc := (cp s).pc + 4, stall := i.stall, wait := none } := by
  have hcg : cg (setCg (entered i s) y) = y := cg_setCg _ _
  have hrest : { setCg (entered i s) y with groups := s.groups } = s := machine_entered i s
  have hcur : (setCg (entered i s) y).cur = s.cur := cur_entered i s
  have hother (g : Nat) (hg : g ≠ s.cur) : grpOf (setCg (entered i s) y) g = grpOf s g := by
    rw [grpOf_setCg_other _ _ (by rw [cur_entered]; exact hg), grpOf_entered_other i s hg]
  generalize setCg (entered i s) y = e at hcg hrest hcur hother ⊢
  refine onlyPath_of_machine ?_ (fun g hg => ?_) ?_ ?_ ?_
  · have hm := congrArg (fun z : State => { z with groups := s.groups, fresh := s.fresh }) (machine_settled h e)
    exact hm.trans (congrArg (fun z : State => { z with fresh := s.fresh }) hrest)
  · rw [grpOf_settled_other h e (by rw [hcur]; exact hg), hother g hg]
  · have hsettled := congrArg (repathed (cg s)) (repathed_settled h e)
    rw [repathed_repathed, hcg] at hsettled
    exact hsettled.trans hy
  · rw [cp_settled h, cp, hcg, hp, cp_entered]
  · rw [restingPath_settled h, hcg, hr, restingPath_cg_entered]
theorem regend_result {s : State} {st : BitVec 2} (h : MayIssue (info (.regend st)) s) : ∃ t, exec (.regend st) s = .next t ∧
    (cg t).region = none ∧ OnlyPath s t { cp s with pc := (cp s).pc + 4, stall := st.toNat, wait := none } := by
  refine ⟨_, (exec_regend st s).trans (issue_done h rfl), ?_, onlyPath_setCg h (repathed_entered _ s) rfl rfl⟩
  rw [region_settled h, cg_setCg]
  rfl

/-! ### Words that wait -/

theorem waitHolds_sleep (i : Info) (s : State) (m : Nat) : waitHolds (entered i s) (.sleep m) = decide (m ≤ s.time) := by
  unfold waitHolds
  dsimp only
  rw [entered_eq]
  rfl
theorem waitHolds_word (i : Info) (s : State) (c a : Nat) (v : Word) : waitHolds (entered i s) (.word c a v) = waitHolds s (.word c a v) := by
  have hword (m : MemName) (x : Nat) : newWord (entered i s) m x = newWord s m x := by
    unfold newWord
    simp only [cur_entered, seenStores_entered, viewByte_entered]
  unfold waitHolds
  simp only [winLoc_entered, hword]
theorem time_entered (i : Info) (s : State) : (entered i s).time = s.time := by
  rw [entered_eq]
  rfl

theorem exec_sleep_eq (st : BitVec 2) (n : BitVec 15) (s : State) : exec (.sleep st n) s = issue (info (.sleep st n)) s fun z =>
    match (cp z).wait with
    | some w => waitFor z w .done
    | none => waitFor z (.sleep (z.time + n.toNat)) .done := rfl
theorem sleep_over {s : State} {st : BitVec 2} {n : BitVec 15} {m : Nat} (hw : (cp s).wait = some (.sleep m)) (hm : m ≤ s.time) :
    PathResult (.sleep st n) s { cp s with pc := (cp s).pc + 4, stall := st.toNat, wait := none } := by
  refine pathResult_of_unchanged (exec_sleep st n s) ?_
  rw [wait_cp_entered, hw]
  dsimp only
  rw [waitFor, waitHolds_sleep, decide_eq_true hm, if_pos rfl]
theorem sleep_zero {s : State} {st : BitVec 2} (hw : (cp s).wait = none) :
    PathResult (.sleep st 0) s { cp s with pc := (cp s).pc + 4, stall := st.toNat, wait := none } := by
  refine pathResult_of_unchanged (exec_sleep st 0 s) ?_
  rw [wait_cp_entered, hw]
  dsimp only
  have hzero : (0 : BitVec 15).toNat = 0 := rfl
  rw [waitFor, waitHolds_sleep, time_entered, hzero, Nat.add_zero, decide_eq_true (Nat.le_refl _), if_pos rfl]
theorem sleep_waits {s : State} {st : BitVec 2} {n : BitVec 15} (h : MayIssue (info (.sleep st n)) s) (hw : (cp s).wait = none) (hn : n ≠ 0) :
    exec (.sleep st n) s = .next (waitingAt s (entered (info (.sleep st n)) s) (.sleep (s.time + n.toNat))) := by
  have hpos : 0 < n.toNat := Nat.pos_of_ne_zero fun h0 => hn (BitVec.eq_of_toNat_eq h0)
  refine (exec_sleep st n s).trans (issue_wait h ?_)
  rw [wait_cp_entered, hw]
  dsimp only
  rw [waitFor, waitHolds_sleep, time_entered, if_neg]
  rw [decide_eq_true_eq]
  omega

section
variable {s : State} {st q : BitVec 2} {a b : BitVec 7}

/-- SLEEPW past its checks of the address. -/
def sleepwAct (c x : Nat) (v : Word) (z : State) : Act :=
  if (cp z).wait == some .wordMet then .done (acquire z 1)
  else waitFor z (.word c x v) fun z => match winLoc z x 4 with
    | some (m, y) => .done (acquire (noteRead z z.cur m y 4 .newest) 1)
    | none => .done z
theorem exec_sleepw_eq (ha : (uniReg s a.toNat).toNat % 4 = 0) (hin : (winLoc s (uniReg s a.toNat).toNat 4).isSome = true)
    (h : MayIssue (info (.sleepw st q a b)) s) :
    exec (.sleepw st q a b) s = issue (info (.sleepw st q a b)) s (sleepwAct q.toNat (uniReg s a.toNat).toNat (uniReg s b.toNat)) := by
  have hnone : (winLoc s (uniReg s a.toNat).toNat 4).isNone = false := by
    obtain ⟨v, hv⟩ := Option.isSome_iff_exists.mp hin
    rw [hv]
    rfl
  rw [exec_sleepw, execSleepw, issue_eq h, issue_eq h]
  dsimp only
  rw [rs_entered, rs_entered, if_neg (not_not_intro ha), winLoc_entered, hnone, if_neg Bool.false_ne_true]
  rfl
theorem sleepw_met (ha : (uniReg s a.toNat).toNat % 4 = 0) (hin : (winLoc s (uniReg s a.toNat).toNat 4).isSome = true)
    (hw : (cp s).wait = some .wordMet) : AcquireResult (.sleepw st q a b) s (NoneRead s) fun e => acquire e 1 := by
  intro h
  refine acquireResult_of_listens (go := fun e => acquire e 1) (exec_sleepw_eq ha hin h) ?_ (fun hn => listens_acquire_entered hn 1) h
  rw [sleepwAct, wait_cp_entered, hw]
  rfl
theorem sleepw_reads {m : MemName} {y : Nat} (ha : (uniReg s a.toNat).toNat % 4 = 0) (hw : (cp s).wait ≠ some .wordMet)
    (hholds : waitHolds s (.word q.toNat (uniReg s a.toNat).toNat (uniReg s b.toNat)) = true)
    (hat : winLoc s (uniReg s a.toNat).toNat 4 = some (m, y)) :
    AcquireResult (.sleepw st q a b) s (NoneRead s ∧ (cg s).stores = []) fun e => acquire (noteRead e s.cur m y 4 .newest) 1 := by
  intro h
  have hin : (winLoc s (uniReg s a.toNat).toNat 4).isSome = true := by rw [hat]; rfl
  refine acquireResult_of_listens (go := fun e => acquire (noteRead e s.cur m y 4 .newest) 1) (exec_sleepw_eq ha hin h) ?_ (fun hn => ?_) h
  · rw [sleepwAct, wait_cp_entered, beq_eq_false_iff_ne.mpr hw, if_neg Bool.false_ne_true, waitFor, waitHolds_word, hholds, if_pos rfl,
      winLoc_entered, hat, cur_entered]
  · obtain ⟨hnone, hstores⟩ := hn
    have hread := listens_noteRead (entered (info (.sleepw st q a b)) s) s.cur m y 4 .newest
    have hcur : (noteRead (entered (info (.sleepw st q a b)) s) s.cur m y 4 .newest).cur = s.cur := hread.cur
    have hpeek : NoPeek (noteRead (entered (info (.sleepw st q a b)) s) s.cur m y 4 .newest) s.cur := by
      intro g p hp
      by_cases hg : g = s.cur
      · have hcells := hread.cells g
        rw [stores_entered, hg, ← cg, hstores] at hcells
        rw [hg, List.map_eq_nil_iff.mp hcells] at hp
        exact absurd hp List.not_mem_nil
      · rw [noteRead_newest, grpOf_setGrp_other _ _ hg] at hp
        exact noPeek_entered hnone g p hp
    refine hread.trans ?_
    rw [acquire, hcur]
    exact listens_acquireGrp hpeek 1 false
theorem sleepw_waits (ha : (uniReg s a.toNat).toNat % 4 = 0) (hin : (winLoc s (uniReg s a.toNat).toNat 4).isSome = true)
    (hw : (cp s).wait ≠ some .wordMet) (hholds : waitHolds s (.word q.toNat (uniReg s a.toNat).toNat (uniReg s b.toNat)) = false)
    (h : MayIssue (info (.sleepw st q a b)) s) :
    exec (.sleepw st q a b) s = .next (waitingAt s (entered (info (.sleepw st q a b)) s)
      (.word q.toNat (uniReg s a.toNat).toNat (uniReg s b.toNat))) := by
  refine (exec_sleepw_eq ha hin h).trans (issue_wait h ?_)
  rw [sleepwAct, wait_cp_entered, beq_eq_false_iff_ne.mpr hw, if_neg Bool.false_ne_true, waitFor, waitHolds_word, hholds,
    if_neg Bool.false_ne_true]
end

/-! ### The fences -/

section
variable {s : State} {st : BitVec 2} {c : BitVec 3} {k : BitVec 2} {l : BitVec 1}

theorem toNat_ne_zero (hc : c ≠ 0) : c.toNat ≠ 0 := fun h => hc (BitVec.eq_of_toNat_eq h)
theorem fence_acquires (st : BitVec 2) (c : BitVec 3) (s : State) :
    AcquireResult (.fence st c 0) s (NoneRead s) fun e => acquire e c.toNat :=
  acquireResult_of_listens (exec_fence st c 0 s) (if_pos (by decide)) fun hn => listens_acquire_entered hn c.toNat
theorem fence_nothing (st : BitVec 2) (s : State) :
    PathResult (.fence st 0 0) s { cp s with pc := (cp s).pc + 4, stall := st.toNat, wait := none } :=
  pathResult_of_unchanged (exec_fence st 0 0 s) ((if_pos (by decide)).trans (congrArg Act.done (acquireGrp_zero _ _ _)))
theorem exec_fence_releasing (hk : k ≠ 0) (st : BitVec 2) (c : BitVec 3) (s : State) :
    exec (.fence st c k) s = issue (info (.fence st c k)) s fun z =>
      fenceThen z c.toNat (k == 2) fun z => .done (if k == 2 then acquireGrp z z.cur c.toNat true else z) := by
  rw [exec_fence, execFence]
  have hzero : (k == 0) = false := beq_eq_false_iff_ne.mpr hk
  simp only [hzero, Bool.false_eq_true, if_false]
theorem fence_stages (hk : k ≠ 0) (h : MayIssue (info (.fence st 0 k)) s) :
    exec (.fence st 0 k) s = .next (settled (info (.fence st 0 k)) s
      (setCb (entered (info (.fence st 0 k)) s) { cb s with relNext := true })) := by
  refine (exec_fence_releasing hk st 0 s).trans (issue_done h ?_)
  refine (fenceThen_zero _ _ _).trans ?_
  rw [cb_entered]
  split
  · exact congrArg Act.done (acquireGrp_zero _ _ _)
  · rfl
end

/-- Settles O31: a fence, a SLEEPW and an OPFENCE each wait by what their model's wait says, and then make their own effect. -/
theorem waitingWords : Obligations.WaitingWords := by
  intro s st n q a b j c k l m x y p at_ done staged word
  refine ⟨sleep_over, fun hw hn => ?_, sleep_waits, fun ha hin => ⟨sleepw_met ha hin, fun w i hw hh hat => sleepw_reads ha hw hh hat,
      sleepw_waits ha hin⟩, region_result, regend_result, fence_nothing st s, fence_stages, fun _ => fence_acquires st c s, fun h hc => ?_,
    fun h hc => ?_, fun h => ?_, fun h hc => ?_, fun h => ?_⟩
  · rw [hn]
    exact sleep_zero hw
  · exact releases_of_fenceThen h (exec_fence_releasing (by decide) st c s) (toNat_ne_zero hc) fun z _ => rfl
  · refine releases_of_fenceThen (g := fun e => acquireGrp e s.cur c.toNat true) h (exec_fence_releasing (by decide) st c s)
      (toNat_ne_zero hc) fun z hz => ?_
    rw [hz]
    rfl
  · refine (exec_icinv st 0 l s).trans (issue_done h ((fenceThen_zero _ _ _).trans ?_))
    rw [cb_entered]
    rfl
  · exact releases_of_fenceThen h (exec_icinv st c l s) (toNat_ne_zero hc) fun z _ => rfl
  · refine ⟨fun hw => ?_, fun u hw => ?_⟩
    · refine (exec_opfence st s).trans (issue_waitFor (k := fun z => .done (portSees z (cb s).copy.tail)) h ?_ rfl)
      rw [wait_cp_entered, hw, cb_entered, cur_entered]
    · refine (exec_opfence st s).trans (issue_waitFor (k := fun z => .done (portSees z u)) h ?_ rfl)
      rw [wait_cp_entered, hw]

end Sys2Proof.Machine
end
